-- ==== Sys2Proof/Word.lean ====
section
/-!
DEFINITION. The words of the machine (00 R1, R2): bytes, 32-bit words and 64-bit values.
-/

set_option Elab.async false

namespace Sys2Proof

/-- A byte of memory. -/
abbrev Byte := BitVec 8

/-- A 32-bit register, instruction word or lane mask. -/
abbrev Word := BitVec 32

/-- A 64-bit value, which occupies a register pair (02 R23). -/
abbrev DWord := BitVec 64

end Sys2Proof
end

