-- ==== Sys2Proof/Machine/Map.lean ====
section
/-!
DEFINITION. Sparse maps: lists of (key, value) pairs with strictly rising keys, the one form in which State holds
registers, tables and memory.
-/

namespace Sys2Proof.Machine.Map

/-- The value at a key. -/
def find? {α : Type} : List (Nat × α) → Nat → Option α
  | [], _ => none
  | (k', a) :: l, k => if k' = k then some a else find? l k

/-- Put a value at a key, keeping the order. -/
def ins {α : Type} : List (Nat × α) → Nat → α → List (Nat × α)
  | [], k, a => [(k, a)]
  | (k', b) :: l, k, a =>
    if k < k' then (k, a) :: (k', b) :: l
    else if k = k' then (k, a) :: l
    else (k', b) :: ins l k a

/-- Remove a key. -/
def del {α : Type} (l : List (Nat × α)) (k : Nat) : List (Nat × α) :=
  l.filter (fun e => e.1 != k)

/-- Change the value at a key, where there is one. -/
def upd {α : Type} (l : List (Nat × α)) (k : Nat) (f : α → α) : List (Nat × α) :=
  l.map (fun e => if e.1 = k then (e.1, f e.2) else e)

/-- Keys strictly rise. -/
def sorted {α : Type} : List (Nat × α) → Bool
  | [] => true
  | [_] => true
  | a :: b :: l => decide (a.1 < b.1) && sorted (b :: l)

/-- A register file of w-bit words in which an absent register reads 0. -/
def get {w : Nat} (l : List (Nat × BitVec w)) (k : Nat) : BitVec w := (find? l k).getD 0

/-- Write a register: a register that holds 0 is absent. -/
def set {w : Nat} (l : List (Nat × BitVec w)) (k : Nat) (x : BitVec w) : List (Nat × BitVec w) :=
  if x = 0 then del l k else ins l k x

/-- Drop every key from lo up to but without hi. -/
def dropRange {α : Type} (l : List (Nat × α)) (lo hi : Nat) : List (Nat × α) :=
  l.filter (fun e => decide (e.1 < lo) || decide (hi ≤ e.1))

/-- The entries whose keys lie from lo up to but without hi. -/
def range {α : Type} (l : List (Nat × α)) (lo hi : Nat) : List (Nat × α) :=
  l.filter (fun e => decide (lo ≤ e.1) && decide (e.1 < hi))

end Sys2Proof.Machine.Map
end

