-- ==== Sys2Proof/Config.lean ====
section
/-!
DEFINITION. What one chip fixes and the values the spec leaves free. An opaque constant has no body: nothing in Lean can
prove a value of it. Log entries 2, 3, 4, 8, 12, 18, 20, 27 and 34 name them.
-/

namespace Sys2Proof.Config

/-- The content of a byte of local scratch or of an empty tile that nothing has written (03 R73), by its memory key. -/
opaque localByte : Nat → Byte

/-- The content of a byte outside the package (10 R199), by its memory key and the reading's number. -/
opaque extByte : Nat → Nat → Byte

/-- Does a reading outside the package fail (09 R177)? By its memory key and the reading's number. -/
opaque extFails : Nat → Nat → Bool

/-- By how much the core clock has advanced at a reading (16 R283). -/
opaque clockStep : Nat → Nat

/-- By how many ns device time has advanced at a reading (16 R283). -/
opaque nsStep : Nat → Nat

/-- What a counter of clocks, misses or replays reads (06 R124): timing is not modelled, so its value is free. -/
opaque timedCounter : Nat → Nat → Nat

/-- What a field or a choice is whose content the spec does not state: by the field's number and the reading's number. -/
opaque freeWord : Nat → Nat → Word

/-- Which of some rows that one SCAT sends to one 16-byte part stays there (11 R216): by the operation and the part. -/
opaque rowChoice : Nat → Nat → Nat

/-- Is this the id of a link direction in Slombevor's topology map (20 R314)? -/
opaque isLink : Nat → Bool

/-- The two key hashes fused into E0 (23 R350). -/
opaque keyHash : Nat → List Byte

/-- The public half of the device's key, which is made in E0 (23 R355). -/
opaque devicePublic : List Byte

/-- SHA-256 of some bytes (23). -/
opaque sha256 : List Byte → List Byte

/-- Is this a valid ECDSA P-256 signature over this SHA-256 hash under this public key (23 R350)? -/
opaque verifies : (publicKey hash signature : List Byte) → Bool

/-- The device key's signature over a hash (23 R355). -/
opaque deviceSign : List Byte → List Byte

/-- The device's certificate chain (23). -/
opaque certificate : List Byte

/-- Bytes of DRAM in the package (01 R16): device physical addresses run from 0 to 0xBF_FFFF_FFFF. -/
def deviceBytes : Nat := 0xC000000000

/-- Bytes of one die's stack (01 R16). -/
def dieBytes : Nat := 0x3000000000

/-- Local store of a core, in bytes (01 R14). -/
def localStore : Nat := 1572864

/-- Accumulator tiles of a core (01 R14). -/
def accTiles : Nat := 2048

end Sys2Proof.Config
end

