-- ==== Sys2Proof/Machine/Numbers.lean ====
section
/-!
DEFINITION. Small arithmetic of the effect blocks (00 R5, R6): bit lists, little-endian bytes, clamping.
-/

namespace Sys2Proof.Machine

/-- The lanes of a mask, ascending (00 R5). -/
def lanesOf (mask : Word) : List Nat := (List.range 32).filter (fun i => mask.getLsbD i)

/-- The mask with bit i set. -/
def bit (i : Nat) : Word := (1 : Word) <<< i

/-- The mask of some lanes. -/
def maskOf (ls : List Nat) : Word := ls.foldl (fun a i => a ||| bit i) 0

/-- The lowest lane of a mask; 32 for the empty mask. -/
def lowest (mask : Word) : Nat := (lanesOf mask).headD 32

/-- A little-endian value from bytes (00 R2). -/
def natOfBytes : List Byte → Nat
  | [] => 0
  | b :: bs => b.toNat + 256 * natOfBytes bs

/-- The low n bytes of a value, low byte first (00 R2). -/
def bytesOfNat : Nat → Nat → List Byte
  | 0, _ => []
  | n + 1, x => BitVec.ofNat 8 x :: bytesOfNat n (x / 256)

/-- The integer x clamped to -2^31 to 2^31 - 1 (00 R6). -/
def sat32 (x : Int) : Int := if x > 2147483647 then 2147483647 else if x < -2147483648 then -2147483648 else x

/-- The low w bits of an integer. -/
def wordOf (x : Int) : Word := BitVec.ofInt 32 x

/-- A field of a word. -/
def bits (x : Word) (hi lo : Nat) : Nat := x.toNat / 2 ^ lo % 2 ^ (hi + 1 - lo)

/-- Ceiling division. -/
def cdiv (a b : Nat) : Nat := (a + b - 1) / b

/-- Numbers from lo up to but without lo + n. -/
def rangeFrom (lo n : Nat) : List Nat := (List.range n).map (lo + ·)

/-- The number of elements that differ from every earlier one. -/
def distinct : List Nat → Nat
  | [] => 0
  | a :: l => (if l.contains a then 0 else 1) + distinct l

/-- The first n elements, filled up with a value. -/
def padTo {α : Type} (n : Nat) (z : α) (l : List α) : List α := (l ++ List.replicate n z).take n

/-- The element of a list with the least key, the earliest among equals. -/
def minBy {α : Type} (f : α → Nat) : List α → Option α
  | [] => none
  | a :: l =>
    match minBy f l with
    | none => some a
    | some b => if f b < f a then some b else some a

end Sys2Proof.Machine
end

