-- ==== Sys2Proof/Syntax.lean ====
section
/-!
DEFINITION. The syntax: one constructor of Instr for each row of spec/opcode_table.json. The 192 encoded rows carry the
fields of their format (03 R53 to R56); the 91 rows without an encoding are events of the device, and carry what the
outside or the hardware chose.
-/

namespace Sys2Proof

/-- Format A with three register fields (03 R54): scope, D, A, B, reuse hint H, guard G. -/
structure FA3 where
  sc : BitVec 1
  d : BitVec 6
  a : BitVec 6
  b : BitVec 6
  h : BitVec 1
  g : BitVec 3
  deriving DecidableEq, Repr, Inhabited

/-- Format A whose field B is fixed (03 R54, R55). -/
structure FA2 where
  sc : BitVec 1
  d : BitVec 6
  a : BitVec 6
  h : BitVec 1
  g : BitVec 3
  deriving DecidableEq, Repr, Inhabited

/-- A conversion of codes 12 to 19: format A with the byte position k in F (08 R163). -/
structure FA2K where
  sc : BitVec 1
  d : BitVec 6
  a : BitVec 6
  h : BitVec 1
  g : BitVec 3
  k : BitVec 2
  deriving DecidableEq, Repr, Inhabited

/-- Format C of ICMP and FCMP: condition, predicate destination, A, B, H, G, combine mode F. -/
structure FC where
  sc : BitVec 1
  cnd : BitVec 3
  pd : BitVec 3
  a : BitVec 6
  b : BitVec 6
  h : BitVec 1
  g : BitVec 3
  f : BitVec 2
  deriving DecidableEq, Repr, Inhabited

/-- Format C of ICMPI: no H, G or F, a signed 12-bit immediate. -/
structure FCI where
  sc : BitVec 1
  cnd : BitVec 3
  pd : BitVec 3
  a : BitVec 6
  imm : BitVec 12
  deriving DecidableEq, Repr, Inhabited

/-- Format Q: four register fields. -/
structure FQ where
  sc : BitVec 1
  d : BitVec 6
  a : BitVec 6
  b : BitVec 6
  c : BitVec 6
  deriving DecidableEq, Repr, Inhabited

/-- Format I: a signed 12-bit immediate. -/
structure FI where
  sc : BitVec 1
  d : BitVec 6
  a : BitVec 6
  imm : BitVec 12
  deriving DecidableEq, Repr, Inhabited

/-- Format K with a zero-extended 10-bit immediate. -/
structure FK10 where
  sc : BitVec 1
  d : BitVec 6
  a : BitVec 6
  imm : BitVec 10
  deriving DecidableEq, Repr, Inhabited

/-- Format K of the immediate shifts: IMM 4:0, bits 9:5 zero. -/
structure FK5 where
  sc : BitVec 1
  d : BitVec 6
  a : BitVec 6
  imm : BitVec 5
  deriving DecidableEq, Repr, Inhabited

/-- Format L of MOVI: an 18-bit immediate. -/
structure FL18 where
  sc : BitVec 1
  d : BitVec 6
  imm : BitVec 18
  deriving DecidableEq, Repr, Inhabited

/-- Format L of MOVHI: IMM 13:0, bits 17:14 zero. -/
structure FL14 where
  sc : BitVec 1
  d : BitVec 6
  imm : BitVec 14
  deriving DecidableEq, Repr, Inhabited

/-- A one-scope form of format A with D, A and G (P2V, PNOT, PGAT). -/
structure FDAG where
  d : BitVec 6
  a : BitVec 6
  g : BitVec 3
  deriving DecidableEq, Repr, Inhabited

/-- A one-scope form of format A with D, A, H and G (V2P, REDX, SCAN). -/
structure FDAHG where
  d : BitVec 6
  a : BitVec 6
  h : BitVec 1
  g : BitVec 3
  deriving DecidableEq, Repr, Inhabited

/-- The predicate logic of two sources: D, A, B and G. -/
structure FDABG where
  d : BitVec 6
  a : BitVec 6
  b : BitVec 6
  g : BitVec 3
  deriving DecidableEq, Repr, Inhabited

/-- XLN: D, A, B, H and G at warp scope. -/
structure FDABHG where
  d : BitVec 6
  a : BitVec 6
  b : BitVec 6
  h : BitVec 1
  g : BitVec 3
  deriving DecidableEq, Repr, Inhabited

/-- PGAT.LIVE: D and G. -/
structure FDG where
  d : BitVec 6
  g : BitVec 3
  deriving DecidableEq, Repr, Inhabited

/-- Format M of LD, ST, LDP and LDR: D, offset register O, handle register H, size code Z, guard G. -/
structure FM where
  sc : BitVec 1
  d : BitVec 6
  o : BitVec 6
  h : BitVec 6
  z : BitVec 3
  g : BitVec 3
  deriving DecidableEq, Repr, Inhabited

/-- Format M of ATOM: the operation stands in OPX. -/
structure FMA where
  sc : BitVec 1
  d : BitVec 6
  o : BitVec 6
  h : BitVec 6
  deriving DecidableEq, Repr, Inhabited

/-- Format M of CAS: z = 0 is Z 2 (4 bytes), z = 1 is Z 3 (8 bytes). -/
structure FCAS where
  sc : BitVec 1
  d : BitVec 6
  o : BitVec 6
  h : BitVec 6
  z : BitVec 1
  g : BitVec 3
  deriving DecidableEq, Repr, Inhabited

/-- Format M of SNAP: Z fixed to 0, warp scope. -/
structure FSNAP where
  d : BitVec 6
  o : BitVec 6
  h : BitVec 6
  g : BitVec 3
  deriving DecidableEq, Repr, Inhabited

/-- Format S at two scopes with fields A and B. -/
structure FSAB where
  sc : BitVec 2
  a : BitVec 6
  b : BitVec 6
  deriving DecidableEq, Repr, Inhabited

/-- Format S at two scopes with fields A, B and C. -/
structure FSABC where
  sc : BitVec 2
  a : BitVec 6
  b : BitVec 6
  c : BitVec 6
  deriving DecidableEq, Repr, Inhabited

/-- Format S at two scopes with field C. -/
structure FSC where
  sc : BitVec 2
  c : BitVec 6
  deriving DecidableEq, Repr, Inhabited

/-- Format S at two scopes with fields A and C. -/
structure FSAC where
  sc : BitVec 2
  a : BitVec 6
  c : BitVec 6
  deriving DecidableEq, Repr, Inhabited

/-- Format S at two scopes with fields B and C. -/
structure FSBC where
  sc : BitVec 2
  b : BitVec 6
  c : BitVec 6
  deriving DecidableEq, Repr, Inhabited

/-- Format S of TLD and TST: data A, offset B, tile reference C. -/
structure FTL where
  sc : BitVec 1
  a : BitVec 6
  b : BitVec 6
  c : BitVec 6
  deriving DecidableEq, Repr, Inhabited

/-- Format S at warp scope with fields A and B. -/
structure FAB where
  a : BitVec 6
  b : BitVec 6
  deriving DecidableEq, Repr, Inhabited

/-- Format S at warp scope with fields A, B and C. -/
structure FABC where
  a : BitVec 6
  b : BitVec 6
  c : BitVec 6
  deriving DecidableEq, Repr, Inhabited

/-- Format S at warp scope with field A. -/
structure FOA where
  a : BitVec 6
  deriving DecidableEq, Repr, Inhabited

/-- Format J of BRA and CALL: guard G and the signed word offset OFF. -/
structure FJ where
  sc : BitVec 1
  g : BitVec 3
  off : BitVec 20
  deriving DecidableEq, Repr, Inhabited

/-- Format A of BRX and CALLX: A, H and G. -/
structure FJX where
  sc : BitVec 1
  a : BitVec 6
  h : BitVec 1
  g : BitVec 3
  deriving DecidableEq, Repr, Inhabited

/-- Format J of JPT: G and X fixed to zero. -/
structure FJP where
  sc : BitVec 1
  off : BitVec 20
  deriving DecidableEq, Repr, Inhabited

/-- A form whose only field is a 2-bit scope. -/
structure FSC2 where
  sc : BitVec 2
  deriving DecidableEq, Repr, Inhabited

/-- A form whose only field is the low scope bit. -/
structure FSC1 where
  sc : BitVec 1
  deriving DecidableEq, Repr, Inhabited

/-- The vat forms with three fields; sc = 0 is warp scope and sc = 1 block scope. -/
structure FVABC where
  sc : BitVec 1
  a : BitVec 6
  b : BitVec 6
  c : BitVec 6
  deriving DecidableEq, Repr, Inhabited

/-- The vat forms with two fields; sc = 0 is warp scope and sc = 1 block scope. -/
structure FVAB where
  sc : BitVec 1
  a : BitVec 6
  b : BitVec 6
  deriving DecidableEq, Repr, Inhabited

/-- TRAP: scope and the 12-bit code in fields B and C. -/
structure FTRAP where
  sc : BitVec 1
  code : BitVec 12
  deriving DecidableEq, Repr, Inhabited

/-- BRK: the 12-bit code. -/
structure FBRK where
  code : BitVec 12
  deriving DecidableEq, Repr, Inhabited

/-- COPY, both words (11 COPY): future FU, token T, direction, A (flip), CR, TR and the layout entry. -/
structure FCOPY where
  sc : BitVec 2
  fu : BitVec 6
  t : BitVec 1
  dir : BitVec 1
  fl : BitVec 1
  cr : BitVec 6
  tr : BitVec 6
  lay : BitVec 8
  deriving DecidableEq, Repr, Inhabited

/-- GATH and SCAT, both words (11 GATH): FU, T, A (flip), index register IV, TR, layout entry and C0. -/
structure FGATH where
  sc : BitVec 2
  fu : BitVec 6
  t : BitVec 1
  fl : BitVec 1
  iv : BitVec 6
  tr : BitVec 6
  lay : BitVec 8
  c0 : BitVec 6
  deriving DecidableEq, Repr, Inhabited

/-- COLL, both words (11 COLL). -/
structure FCOLL where
  sc : BitVec 2
  fu : BitVec 6
  t : BitVec 1
  kind : BitVec 2
  red : BitVec 2
  fmt : BitVec 3
  grp : BitVec 8
  rb : BitVec 6
  deriving DecidableEq, Repr, Inhabited

/-- MMA, both words (03 R56). -/
structure FMMA where
  n : BitVec 6
  m : BitVec 2
  slot : BitVec 3
  ta : BitVec 4
  tb : BitVec 4
  z : BitVec 1
  c : BitVec 10
  deriving DecidableEq, Repr, Inhabited

/-- DRAIN, both words (12 DRAIN). -/
structure FDRAIN where
  d : BitVec 6
  dk : BitVec 1
  fl : BitVec 1
  slot : BitVec 3
  sr : BitVec 6
  col : BitVec 2
  row : BitVec 2
  cb : BitVec 6
  rb : BitVec 2
  acc : BitVec 10
  deriving DecidableEq, Repr, Inhabited

/-- What a rank of another package brings to a collective (11 R218). -/
structure RankPart where
  rank : Nat
  kind : Nat
  red : Nat
  fmt : Nat
  count : Nat
  data : List Byte
  deriving DecidableEq, Repr, Inhabited

/-- A remote access that arrives at an export entry (20 R317): 0 load, 1 store, 2 compare and swap, 16 + n the
ATOM operation n (09 R186). -/
structure RemoteAcc where
  op : Nat
  off : Nat
  size : Nat
  data : Nat
  cmp : Nat
  last : Bool
  deriving DecidableEq, Repr, Inhabited

/-- The operands of TIMEPARAM (16 R267, 20 R310). -/
structure TimeParam where
  teams : Word
  margin : Word
  period : Nat
  share : Nat
  grace : Nat
  deriving DecidableEq, Repr, Inhabited

/-- An export entry (20 R316). -/
structure ExportEntry where
  typ : Nat
  ctx : Nat
  num : Nat
  node : Nat
  reserved : Nat
  deriving DecidableEq, Repr, Inhabited

/-- How a debug action names a warp (21 R342). -/
structure WarpName where
  launch : Word
  flat : Nat
  warp : Nat
  deriving DecidableEq, Repr, Inhabited

/-- One constructor per row of spec/opcode_table.json, in its order. -/
inductive Instr where
  /-- IADD (R130). Adds two 32-bit integers with wrap-around. -/
  | iadd (x : FA3)
  /-- ISUB (R130). Subtracts two 32-bit integers with wrap-around. -/
  | isub (x : FA3)
  /-- IADDS (R130). Adds two signed integers with saturation. -/
  | iadds (x : FA3)
  /-- ISUBS (R130). Subtracts two signed integers with saturation. -/
  | isubs (x : FA3)
  /-- IMUL (R131). Gives the low word of an integer product. -/
  | imul (x : FA3)
  /-- IMULH (R131). Gives the high word of a signed product. -/
  | imulh (x : FA3)
  /-- IMULHU (R131). Gives the high word of an unsigned product. -/
  | imulhu (x : FA3)
  /-- IABSD (R131). Gives the absolute difference of two signed integers. -/
  | iabsd (x : FA3)
  /-- IMIN (R134). Gives the signed minimum. -/
  | imin (x : FA3)
  /-- IMAX (R134). Gives the signed maximum. -/
  | imax (x : FA3)
  /-- UMIN (R134). Gives the unsigned minimum. -/
  | umin (x : FA3)
  /-- UMAX (R134). Gives the unsigned maximum. -/
  | umax (x : FA3)
  /-- AND (R135). Bitwise AND. -/
  | andB (x : FA3)
  /-- OR (R135). Bitwise OR. -/
  | orB (x : FA3)
  /-- XOR (R135). Bitwise XOR. -/
  | xorB (x : FA3)
  /-- ANDN (R135). Bitwise AND with the complement of the second operand. -/
  | andn (x : FA3)
  /-- SHL (R136). Shifts left by a register amount. -/
  | shl (x : FA3)
  /-- SHR (R136). Shifts right logically by a register amount. -/
  | shr (x : FA3)
  /-- SAR (R136). Shifts right arithmetically by a register amount. -/
  | sar (x : FA3)
  /-- ROL (R136). Rotates left by a register amount. -/
  | rol (x : FA3)
  /-- CLZ (R139). Counts leading zero bits. -/
  | clz (x : FA2)
  /-- POPC (R139). Counts one bits. -/
  | popc (x : FA2)
  /-- BREV (R139). Reverses the bit order of a word. -/
  | brev (x : FA2)
  /-- IABS (R139). Gives the absolute value of a signed integer. -/
  | iabs (x : FA2)
  /-- ICMP (R144). Compares two integers into a predicate, setting or combining. -/
  | icmp (x : FC)
  /-- SEL (R141). Selects one of two sources by a predicate. -/
  | sel (x : FA3)
  /-- MOV (R141). Copies a source to a register. -/
  | mov (x : FA2)
  /-- P2V (R142). Moves a predicate into a vector register as 0 or 1. -/
  | p2v (x : FDAG)
  /-- V2P (R142). Sets a predicate from a vector register being nonzero. -/
  | v2p (x : FDAHG)
  /-- BFX (R140). Extracts a sign-extended bit field. -/
  | bfx (x : FA3)
  /-- BFXU (R140). Extracts a zero-extended bit field. -/
  | bfxu (x : FA3)
  /-- BFI (R140). Inserts a bit field into the destination. -/
  | bfi (x : FA3)
  /-- IMLA (R132). Multiplies and adds, keeping the low word. -/
  | imla (x : FQ)
  /-- IADDMIN (R132). Adds with saturation and bounds the sum by a third value. -/
  | iaddmin (x : FQ)
  /-- ISUM3 (R132). Sums three words with wrap-around. -/
  | isum3 (x : FQ)
  /-- IADDI (R133). Adds a signed 12-bit immediate. -/
  | iaddi (x : FI)
  /-- ANDI (R138). Bitwise AND with a 10-bit immediate. -/
  | andi (x : FK10)
  /-- ORI (R138). Bitwise OR with a 10-bit immediate. -/
  | ori (x : FK10)
  /-- XORI (R138). Bitwise XOR with a 10-bit immediate. -/
  | xori (x : FK10)
  /-- SHLI (R137). Shifts left by an immediate amount. -/
  | shli (x : FK5)
  /-- SHRI (R137). Shifts right logically by an immediate amount. -/
  | shri (x : FK5)
  /-- SARI (R137). Shifts right arithmetically by an immediate amount. -/
  | sari (x : FK5)
  /-- ROLI (R137). Rotates left by an immediate amount. -/
  | roli (x : FK5)
  /-- MOVI (R143). Loads a signed 18-bit constant. -/
  | movi (x : FL18)
  /-- MOVHI (R143). Sets the upper 14 bits of a register. -/
  | movhi (x : FL14)
  /-- ICMPI (R145). Compares an integer with a 12-bit immediate into a predicate. -/
  | icmpi (x : FCI)
  /-- PAND (R146). Predicate AND. -/
  | pand (x : FDABG)
  /-- POR (R146). Predicate OR. -/
  | por (x : FDABG)
  /-- PXOR (R146). Predicate XOR. -/
  | pxor (x : FDABG)
  /-- PNOT (R146). Predicate NOT. -/
  | pnot (x : FDAG)
  /-- XLN_BACK (R148). Reads the value of a lane c lanes below within the segment. -/
  | xlnBack (x : FDABHG)
  /-- XLN_FWD (R148). Reads the value of a lane c lanes above within the segment. -/
  | xlnFwd (x : FDABHG)
  /-- XLN_FLIP (R148). Reads the value of the lane whose index is XORed with c. -/
  | xlnFlip (x : FDABHG)
  /-- XLN_FROM (R148). Reads the value of a given lane of the segment. -/
  | xlnFrom (x : FDABHG)
  /-- PGAT_EVERY (R149). Gives 1 when a predicate holds in every live lane. -/
  | pgatEvery (x : FDAG)
  /-- PGAT_SOME (R149). Gives 1 when a predicate holds in some live lane. -/
  | pgatSome (x : FDAG)
  /-- PGAT_MASK (R149). Gathers a predicate of the live lanes into a scalar mask. -/
  | pgatMask (x : FDAG)
  /-- PGAT_LIVE (R149). Writes the live-lane mask into a scalar. -/
  | pgatLive (x : FDG)
  /-- REDX_ADD (R150). Sums the live lanes of a vector register into a scalar. -/
  | redxAdd (x : FDAHG)
  /-- REDX_SMIN (R150). Gives the signed minimum over the live lanes. -/
  | redxSmin (x : FDAHG)
  /-- REDX_SMAX (R150). Gives the signed maximum over the live lanes. -/
  | redxSmax (x : FDAHG)
  /-- REDX_FADD (R46). Sums FP32 values of the live lanes in a fixed tree. -/
  | redxFadd (x : FDAHG)
  /-- SCAN_ADD (R151). Inclusive prefix sum across lanes. -/
  | scanAdd (x : FDAHG)
  /-- SCAN_XADD (R151). Exclusive prefix sum across lanes. -/
  | scanXadd (x : FDAHG)
  /-- SCAN_MAX (R151). Prefix signed maximum across lanes. -/
  | scanMax (x : FDAHG)
  /-- SCAN_MIN (R151). Prefix signed minimum across lanes. -/
  | scanMin (x : FDAHG)
  /-- FADD (R154). FP32 addition rounded in FMODE. -/
  | fadd (x : FA3)
  /-- FSUB (R154). FP32 subtraction rounded in FMODE. -/
  | fsub (x : FA3)
  /-- FMUL (R154). FP32 multiplication rounded in FMODE. -/
  | fmul (x : FA3)
  /-- FDIV (R154). FP32 division rounded once in FMODE. -/
  | fdiv (x : FA3)
  /-- FMIN (R156). FP32 minimum that ignores a single NaN. -/
  | fmin (x : FA3)
  /-- FMAX (R156). FP32 maximum that ignores a single NaN. -/
  | fmax (x : FA3)
  /-- FMINM (R156). FP32 minimum that propagates NaN. -/
  | fminm (x : FA3)
  /-- FMAXM (R156). FP32 maximum that propagates NaN. -/
  | fmaxm (x : FA3)
  /-- FABS (R157). Clears the sign bit of an FP32 value. -/
  | fabs (x : FA2)
  /-- FNEG (R157). Inverts the sign bit of an FP32 value. -/
  | fneg (x : FA2)
  /-- FSQRT (R157). Correctly rounded FP32 square root. -/
  | fsqrt (x : FA2)
  /-- FRCP (R157). Correctly rounded FP32 reciprocal. -/
  | frcp (x : FA2)
  /-- FRSQ (R157). Correctly rounded FP32 reciprocal square root. -/
  | frsq (x : FA2)
  /-- FEXP2 (R157). Correctly rounded FP32 base-2 exponential. -/
  | fexp2 (x : FA2)
  /-- FLOG2 (R157). Correctly rounded FP32 base-2 logarithm. -/
  | flog2 (x : FA2)
  /-- FFLOOR (R158). Rounds an FP32 value down to an integral value. -/
  | ffloor (x : FA2)
  /-- FCEIL (R158). Rounds an FP32 value up to an integral value. -/
  | fceil (x : FA2)
  /-- FTRUNC (R158). Rounds an FP32 value toward zero to an integral value. -/
  | ftrunc (x : FA2)
  /-- FRINT (R158). Rounds an FP32 value to an integral value in FMODE. -/
  | frint (x : FA2)
  /-- FCMP (R159). Compares two FP32 values into a predicate. -/
  | fcmp (x : FC)
  /-- FFMA (R155). Fused FP32 multiply-add with one rounding. -/
  | ffma (x : FQ)
  /-- FFMS (R155). Fused FP32 multiply-subtract with one rounding. -/
  | ffms (x : FQ)
  /-- I2F (R164). Converts a signed integer to FP32. -/
  | i2f (x : FA2)
  /-- U2F (R164). Converts an unsigned integer to FP32. -/
  | u2f (x : FA2)
  /-- F2I (R166). Converts FP32 to a signed 32-bit integer. -/
  | f2i (x : FA2)
  /-- F2U (R166). Converts FP32 to an unsigned 32-bit integer. -/
  | f2u (x : FA2)
  /-- F2H (R164). Converts FP32 to FP16 in half 0. -/
  | f2h (x : FA2)
  /-- F2HH (R164). Converts FP32 to FP16 in half 1. -/
  | f2hh (x : FA2)
  /-- H2F (R164). Widens FP16 half 0 to FP32. -/
  | h2f (x : FA2)
  /-- H2FH (R164). Widens FP16 half 1 to FP32. -/
  | h2fh (x : FA2)
  /-- F2BF (R164). Converts FP32 to BF16 in half 0. -/
  | f2bf (x : FA2)
  /-- F2BFH (R164). Converts FP32 to BF16 in half 1. -/
  | f2bfh (x : FA2)
  /-- BF2F (R164). Widens BF16 half 0 to FP32. -/
  | bf2f (x : FA2)
  /-- BF2FH (R164). Widens BF16 half 1 to FP32. -/
  | bf2fh (x : FA2)
  /-- F2E4 (R164). Converts FP32 to E4M3 in a chosen byte. -/
  | f2e4 (x : FA2K)
  /-- E42F (R164). Widens an E4M3 byte to FP32. -/
  | e42f (x : FA2K)
  /-- F2E5 (R164). Converts FP32 to E5M2 in a chosen byte. -/
  | f2e5 (x : FA2K)
  /-- E52F (R164). Widens an E5M2 byte to FP32. -/
  | e52f (x : FA2K)
  /-- F2LG (R36). Encodes FP32 to an LG6 code in a chosen byte. -/
  | f2lg (x : FA2K)
  /-- LG2F (R164). Decodes an LG6 byte to FP32. -/
  | lg2f (x : FA2K)
  /-- F2I8 (R166). Converts FP32 to INT8 in a chosen byte. -/
  | f2i8 (x : FA2K)
  /-- I82F (R164). Widens an INT8 byte to FP32. -/
  | i82f (x : FA2K)
  /-- HADD2 (R161). Adds two packed FP16 pairs. -/
  | hadd2 (x : FA3)
  /-- HMUL2 (R161). Multiplies two packed FP16 pairs. -/
  | hmul2 (x : FA3)
  /-- BADD2 (R161). Adds two packed BF16 pairs. -/
  | badd2 (x : FA3)
  /-- BMUL2 (R161). Multiplies two packed BF16 pairs. -/
  | bmul2 (x : FA3)
  /-- HFMA2 (R162). Fused multiply-add on packed FP16 pairs. -/
  | hfma2 (x : FQ)
  /-- BFMA2 (R162). Fused multiply-add on packed BF16 pairs. -/
  | bfma2 (x : FQ)
  /-- LD (R185). Loads through a handle at per-lane offsets. -/
  | ld (x : FM)
  /-- ST (R185). Stores through a handle at per-lane offsets, performed at retirement. -/
  | st (x : FM)
  /-- LDP (R111). Polling load read at the home when oldest, demoting its path. -/
  | ldp (x : FM)
  /-- LDR (R179). Load with a read-only promise that may leave an L2 replica. -/
  | ldr (x : FM)
  /-- ATOM_ADD (R186). Atomic 32-bit add returning the old value. -/
  | atomAdd (x : FMA)
  /-- ATOM_SUB (R186). Atomic 32-bit subtract returning the old value. -/
  | atomSub (x : FMA)
  /-- ATOM_SMIN (R186). Atomic signed minimum. -/
  | atomSmin (x : FMA)
  /-- ATOM_SMAX (R186). Atomic signed maximum. -/
  | atomSmax (x : FMA)
  /-- ATOM_UMIN (R186). Atomic unsigned minimum. -/
  | atomUmin (x : FMA)
  /-- ATOM_UMAX (R186). Atomic unsigned maximum. -/
  | atomUmax (x : FMA)
  /-- ATOM_AND (R186). Atomic bitwise AND. -/
  | atomAnd (x : FMA)
  /-- ATOM_OR (R186). Atomic bitwise OR. -/
  | atomOr (x : FMA)
  /-- ATOM_XOR (R186). Atomic bitwise XOR. -/
  | atomXor (x : FMA)
  /-- ATOM_EXCH (R186). Atomic 32-bit exchange. -/
  | atomExch (x : FMA)
  /-- ATOM_FADD (R47). Atomic FP32 add at the home, rounded RNE. -/
  | atomFadd (x : FMA)
  /-- ATOM_INC (R186). Atomic wrapping increment bounded by the operand. -/
  | atomInc (x : FMA)
  /-- ATOM_ADD64 (R186). Atomic 64-bit add. -/
  | atomAdd64 (x : FMA)
  /-- ATOM_EXCH64 (R186). Atomic 64-bit exchange. -/
  | atomExch64 (x : FMA)
  /-- CAS (R185). Compare and swap of 4 or 8 bytes; a failure demotes the path. -/
  | cas (x : FCAS)
  /-- SNAP (R183). Reads a 64-byte counter sector and clears it in one atomic step. -/
  | snap (x : FSNAP)
  /-- FENCE_ENG (R187). Waits for the warp's outstanding engine operations of classes 0 to 2. -/
  | fenceEng
  /-- FENCE_IO (R187). Waits until older external accesses are acknowledged and orders them. -/
  | fenceIo
  /-- COPY (R212). Moves a tile between memory and a tile through a layout entry. -/
  | copy (x : FCOPY)
  /-- GATH (R216). Gathers table rows into a tile by index. -/
  | gath (x : FGATH)
  /-- SCAT (R216). Scatters tile rows to table rows by index. -/
  | scat (x : FGATH)
  /-- COLL (R218). Issues an all-reduce, all-gather or reduce-scatter over a group. -/
  | coll (x : FCOLL)
  /-- CWAIT (R205). Waits until an outstanding-operation counter falls to a threshold. -/
  | cwait (x : FSAB)
  /-- FTEST (R219). Tests whether a future has completed. -/
  | ftest (x : FAB)
  /-- FCANCEL (R219). Cancels an engine operation that has not started. -/
  | fcancel (x : FAB)
  /-- FWAIT (R219). Waits for a future and reads its status. -/
  | fwait (x : FAB)
  /-- TLD (R210). Loads a word from a ready tile. -/
  | tld (x : FTL)
  /-- TST (R210). Stores a word into a ready tile. -/
  | tst (x : FTL)
  /-- TZERO (R220). Zeroes a tile and sets it ready. -/
  | tzero (x : FSC)
  /-- TFREE (R220). Sets a tile empty. -/
  | tfree (x : FSC)
  /-- TSTATE (R220). Reads a tile's state and phase. -/
  | tstate (x : FSAC)
  /-- TMARK (R220). Sets a tile's state and phase from a register. -/
  | tmark (x : FSBC)
  /-- ARRIVE (R221). Marks a ring slot ready and flips its phase. -/
  | arrive (x : FSC)
  /-- AWAIT (R221). Waits for a ring slot's phase or for it to be empty. -/
  | await (x : FSBC)
  /-- MMA (R235). Set-scope matrix multiply-accumulate over a quad set. -/
  | mma (x : FMMA)
  /-- DRAIN (R236). Converts one accumulator tile with scales into registers or a tile. -/
  | drain (x : FDRAIN)
  /-- AZERO (R238). Zeroes a range of accumulator tiles. -/
  | azero (x : FSAB)
  /-- ASAVE (R237). Writes an accumulator image of window tiles to memory. -/
  | asave (x : FSABC)
  /-- ALOAD (R237). Loads window tiles from an accumulator image. -/
  | aload (x : FSABC)
  /-- ASTAT (R238). Counts saturated and poisoned entries of an accumulator tile. -/
  | astat (x : FSAB)
  /-- BRA (R108). Branches to a clause, splitting the path at lane scope. -/
  | bra (x : FJ)
  /-- CALL (R101). Calls a subroutine, pushing a call record. -/
  | call (x : FJ)
  /-- BRX (R108). Branches through a register, grouping lanes by target. -/
  | brx (x : FJX)
  /-- CALLX (R101). Calls through a register with one call record for all callers. -/
  | callx (x : FJX)
  /-- NOP (R89). Does nothing beyond the rendezvous of its scope. -/
  | nop (x : FSC2)
  /-- RET (R102). Records an arrival at the innermost call record. -/
  | ret (x : FSC1)
  /-- EXIT (R74). Ends threads and completes records they held open. -/
  | exitT (x : FSC1)
  /-- JOIN (R102). Parks the path at its join record until the record completes. -/
  | join
  /-- YIELD (R274). Gives up the context's slice when a yield deadline or a competitor exists. -/
  | yield
  /-- PYIELD (R110). Ends the current path's turn. -/
  | pyield
  /-- JPT (R101). Pushes a join record naming the clause of its JOIN. -/
  | jpt (x : FJP)
  /-- SJOIN (R94). Joins the warp to a set of declared size. -/
  | sjoin (x : FABC)
  /-- SLEAVE (R94). Removes the warp from its set once its transfers are done. -/
  | sleave (x : FOA)
  /-- SINFO (R94). Reads the member mask and status word of a set. -/
  | sinfo (x : FAB)
  /-- BAR (R90). Barrier of a set or a block. -/
  | bar (x : FSC1)
  /-- GBAR (R81). Barrier of all blocks of a gang. -/
  | gbar
  /-- LAUNCH (R265). Queues a kernel from the device into the pending set. -/
  | launch (x : FABC)
  /-- ARM (R266). Binds a trigger-armable record to a message tag. -/
  | arm (x : FABC)
  /-- DISARM (R266). Removes an arm-table entry. -/
  | disarm (x : FAB)
  /-- VCREATE (R245). Creates a vat, opens it for write and makes its handle. -/
  | vcreate (x : FVABC)
  /-- VOPEN (R246). Opens a vat by name for read or write. -/
  | vopen (x : FVABC)
  /-- VHAND (R247). Writes back a vat and passes its writer role on. -/
  | vhand (x : FVAB)
  /-- VDROP (R242). Ends a vat and frees every copy. -/
  | vdrop (x : FVAB)
  /-- VQUERY (R258). Reads a vat's directory entry. -/
  | vquery (x : FVAB)
  /-- VDUP (R252). Makes a read-only replica of a local vat on another team. -/
  | vdup (x : FVABC)
  /-- TRAP (R287). Enters the trap handler with TRAPI and a 12-bit code. -/
  | trap (x : FTRAP)
  /-- BRK (R342). Breakpoint: traps with BREAK or is held for a debugger. -/
  | brk (x : FBRK)
  /-- SRD (R291). Reads a special register. -/
  | srd (x : FAB)
  /-- SWR (R291). Writes FMODE, FFLAGS or TPC. -/
  | swr (x : FAB)
  /-- CLK (R283). Reads a 64-bit clock or device time in one step. -/
  | clk (x : FAB)
  /-- GROW (R122). Enlarges an allotted register class, waiting in age order. -/
  | grow (x : FABC)
  /-- SHRINK (R123). Returns the highest-numbered units of an allotted class. -/
  | shrink (x : FABC)
  /-- TRET (R289). Leaves trap mode in the mode held in its operand. -/
  | tret (x : FOA)
  /-- SAMPLE (R345). Arms a sample of the warp's next memory instruction. -/
  | sample (x : FABC)
  /-- ENGINE_OP_COMPLETE (R203). A copy-engine operation completes in issue order, moving its counter, future and tile state. Operands: the operation. -/
  | engineOpComplete (op : Nat)
  /-- COLL_COMPLETE (R218). A collective completes once every paired rank has exchanged its data. Operands: the context, group and ordinal of the collective, and what ranks of other packages brought. -/
  | collComplete (ctx grp seq : Nat) (remote : List RankPart)
  /-- COLL_TIMEOUT (R218). The group timeout passes before every rank arrives and every paired COLL ends ABORTED. Operands: the context, group and ordinal of the collective. -/
  | collTimeout (ctx grp seq : Nat)
  /-- MATRIX_COMMAND_COMPLETE (R224). An MMA, DRAIN, AZERO, ASAVE or ALOAD completes in the arrays, releasing holds and its counter. Operands: the matrix command. -/
  | matrixCommandComplete (op : Nat)
  /-- FREPLY (R294). A fault reply releases the warps held on a record, or refuses them into trap mode. Operands: the function, context, sequence number and reply word. -/
  | freply (fn ctx seq : Nat) (reply : Word)
  /-- FAULT_QUEUE_ROOM (R293). A fault or stop held by a full fault queue writes its record once room appears. Operands: the context whose consumer index moved. -/
  | faultQueueRoom (ctx : Nat)
  /-- PARKED_WARP_ACTIVATION (R76). Every 16 clocks a ready parked warp is made active, parking another if needed. Operands: the parked warp made active and the warp parked for it, if any. -/
  | parkedWarpActivation (warp : Nat) (victim : Option Nat)
  /-- DISPATCH_STARVATION (R85). An active ready warp idle for 48 clocks is placed above all others. Operands: the warp placed above all others. -/
  | dispatchStarvation (warp : Nat)
  /-- TURN_INSTRUCTION_LIMIT (R110). A path that has retired 4,096 instructions in its turn goes behind its siblings. Operands: the warp whose turn ends. -/
  | turnInstructionLimit (warp : Nat)
  /-- TURN_STALL_LIMIT (R110). A path idle 2,048 clocks while a sibling is runnable ends its turn. Operands: the warp whose turn ends. -/
  | turnStallLimit (warp : Nat)
  /-- LEASE_EXPIRY (R194). An L1 copy or replica that has served for 4,096 clocks is dropped. Operands: the holder and the 64-byte sector. -/
  | leaseExpiry (core sector : Nat)
  /-- REBASE (R195). When a timestamp would pass 2^47, all timestamps are zeroed and the epoch advances. -/
  | rebase
  /-- GROW_GRANT (R122). The oldest waiting GROW is served once its units are free. Operands: the core and the class of the pool. -/
  | growGrant (core cls : Nat)
  /-- HOST_LAUNCH_RECORD (R264). A launch record is read from a host queue into the pending set. Operands: the function and its queue. -/
  | hostLaunchRecord (fn q : Nat)
  /-- DEPENDENCY_REREAD (R263). A changed dependency signal is re-read, making the launch ready or aborting it. Operands: the launch and which of its dependencies. -/
  | dependencyReread (ctx seq dep : Nat)
  /-- BLOCK_SEAT (R271). A dispatcher seats a block of an admitted launch on a core. Operands: the context whose next block is seated. -/
  | blockSeat (ctx : Nat)
  /-- BLOCK_COMPLETE (R74). A block completes, performing its pail and releasing its vats and resources. Operands: the block. -/
  | blockComplete (block : Nat)
  /-- LAUNCH_COMPLETE (R198). A launch completes and its completion signal is decremented once. Operands: the launch. -/
  | launchComplete (ctx seq : Nat)
  /-- AFFINITY_PATIENCE_EXPIRY (R250). When patience ends the vat is moved to a core with room, or the block is placed by load. Operands: the launch whose next block waited. -/
  | affinityPatienceExpiry (ctx seq : Nat)
  /-- VAT_MOVE_COMPLETE (R251). The vat is filled on the target core and becomes resident there. Operands: the vat. -/
  | vatMoveComplete (vat : Nat)
  /-- SLICE_END (R273). A context's slice ends and its work on its teams is pre-empted. Operands: the context, and the hardware estimate W of R276 in clocks. -/
  | sliceEnd (ctx est : Nat)
  /-- YIELD_DEADLINE_POST (R274). The executive posts a yield deadline to a context holding its teams. Operands: the context and the time left. -/
  | yieldDeadlinePost (ctx us : Nat)
  /-- YIELD_DEADLINE_EXPIRY (R274). A yield deadline passes without YIELD and pre-emption is forced. Operands: the context and the estimate W. -/
  | yieldDeadlineExpiry (ctx est : Nat)
  /-- PREEMPT_DEADLINE (R277). At 25 µs a drain turns into a save and further delay becomes debt. Operands: the context and the microseconds past the deadline. -/
  | preemptDeadline (ctx late : Nat)
  /-- NONPREEMPTIBLE_WAIT_LIMIT (R279). A non-pre-emptible wait holding a pre-emption for 100 µs stops the context with WATCHDOG. Operands: the context. -/
  | nonpreemptibleWaitLimit (ctx : Nat)
  /-- TRAP_MODE_HOLD_LIMIT (R288). A warp in trap mode 100 µs after a pre-emption request stops the context with reason 7. Operands: the context. -/
  | trapModeHoldLimit (ctx : Nat)
  /-- COST_OVERRUN (R270). Charged time beyond 2 × C is charged as debt and counted in OVERRUN. Operands: the block and its charged clocks so far. -/
  | costOverrun (block clocks : Nat)
  /-- COST_WATCHDOG (R270). A block reaching each multiple of 4 × C takes a block-wide WATCHDOG fault. Operands: the block and its charged clocks so far. -/
  | costWatchdog (block clocks : Nat)
  /-- FABRIC_MESSAGE (R266). A tagged message arrives and fires the armed launch or is dropped. Operands: the context, the tag and the payload. -/
  | fabricMessage (ctx tag : Nat) (payload : List Byte)
  /-- REMOTE_ACCESS (R317). A remote access through an export entry is performed or refused. Operands: the source node, the export entry and the access. -/
  | remoteAccess (src entry : Nat) (acc : RemoteAcc)
  /-- REMOTE_STORE_FAILURE (R177). A store to an external home fails and the port's status records it. Operands: the port. -/
  | remoteStoreFailure (port : Nat)
  /-- FABRIC_PORT_STATE (R318). A fabric port changes state and the PF's vector 5 is raised. Operands: the port and its new state. -/
  | fabricPortState (port : Nat) (up : Bool) (lanes node : Nat)
  /-- SLOT_TABLE_INSTALL (R314). A new slot table takes effect at the second frame start after SLOTS. Operands: the link direction. -/
  | slotTableInstall (link : Nat)
  /-- DRAM_REFRESH_MANAGEMENT (R181). A row group reaching 2,048 activations triggers refresh-management commands. Operands: the bank and the clocks each context waited. -/
  | dramRefreshManagement (unit : Word) (waits : List (Nat × Nat))
  /-- SUPERVISOR_DECISION (R331). The supervisor resumes, traps, rolls back, saves or kills each block after a consumption. Operands: the frozen core. -/
  | supervisorDecision (core : Nat)
  /-- CORE_FENCE (R334). A failing or repeatedly mismatching core is fenced once no block is seated on it. Operands: the core. -/
  | coreFence (core : Nat)
  /-- IN_FIELD_TEST (R333). Slombevor runs the array self-test and logic scan on an idle team. Operands: the team and the units that fail. -/
  | inFieldTest (team : Nat) (failing : List Word)
  /-- TEST_ABANDON (R333). A test is abandoned when the owner needs the team, which is scrubbed and returned. Operands: the team. -/
  | testAbandon (team : Nat)
  /-- WAIT_FOR_SCAN (R343). Every 10 ms Slombevor reads progress counters and wait words and draws the wait-for graph. -/
  | waitForScan
  /-- PREDICTIVE_ADVISORY (R341). A unit passing an error, eye-margin or retrain threshold gets an advisory record. Operands: the unit. -/
  | predictiveAdvisory (unit : Word)
  /-- SAFE_POINT_HOLD (R342). A warp entering a stopped or breakpointed safe point is held and reported. Operands: the warp. -/
  | safePointHold (warp : Nat)
  /-- SHARD_COMPLETE (R324). A shard arrives intact and is marked good. Operands: the shard and its bytes as they arrived. -/
  | shardComplete (ctx set idx : Nat) (data : List Byte)
  /-- SHARD_CODE_ERROR (R324). A shard with an uncorrectable code error is marked bad and a resend requested. Operands: the shard. -/
  | shardCodeError (ctx set idx : Nat)
  /-- GENERATION_TIMEOUT (R324). A generation not complete by its timeout fails and the report lists missing shards. Operands: the weight set. -/
  | generationTimeout (ctx set : Nat)
  /-- GENOPEN (R321). Opens the next generation of a weight set for assembly. Operands: the function whose intake ring holds the command. -/
  | genopen (fn : Nat)
  /-- SHARD (R322). Submits one shard for fetch, conversion and placement. Operands: the function whose intake ring holds the command. -/
  | shard (fn : Nat)
  /-- GENABORT (R321). Fails the assembling generation as a timeout does. Operands: the function whose intake ring holds the command. -/
  | genabort (fn : Nat)
  /-- INTAKE_STATUS_CONSUMER (R325). A consumer index write frees room on the status ring, resuming a held intake. Operands: the function and the new consumer index. -/
  | intakeStatusConsumer (fn : Nat) (value : Word)
  /-- QUEUE_SELECTOR_WRITE (R305). Sets a launch queue's context selector, or is ignored while records are queued. Operands: the function, queue and selector. -/
  | queueSelectorWrite (fn q : Nat) (value : Word)
  /-- TSYNC (R170). Starts table synchronisation for a context. Operands: the function and the context number written. -/
  | tsync (fn : Nat) (value : Word)
  /-- TSYNC_COMPLETE (R170). Table synchronisation completes, translation caches are emptied and TSYNCDONE advances. Operands: the function. -/
  | tsyncComplete (fn : Nat)
  /-- CSEL (R305). Selects a context and counter for CVALLO and CVALHI. Operands: the function and the word written. -/
  | csel (fn : Nat) (value : Word)
  /-- PORTSTAT_CLEAR (R318). Writing 1 to bit 30 clears a port's remote-store-failure bit. Operands: the port. -/
  | portstatClear (port : Nat)
  /-- REGISTER_WRITE (R305). A write to a function register without behaviour of its own, or ignored if read-only. Operands: the function, offset and word. -/
  | registerWrite (fn off : Nat) (value : Word)
  /-- CREATE (R306). Allots an idle context for a header and world. Operands: the function, header address and world. -/
  | createCtx (fn hdr world : Nat)
  /-- RUN (R306). Makes a context runnable after checking its header. Operands: the function and context. -/
  | runCtx (fn ctx : Nat)
  /-- RESET (R306). Stops a context with reason 9 and sets it idle. Operands: the function and context. -/
  | resetCtx (fn ctx : Nat)
  /-- DESTROY (R306). Stops a context and frees its vats, weight sets and number. Operands: the function and context. -/
  | destroyCtx (fn ctx : Nat)
  /-- WSREG (R319). Binds or unbinds a weight set to a handle. Operands: the function, context, weight set and handle number. -/
  | wsreg (fn ctx set handle : Nat)
  /-- QUOTA (R306). Sets a VF's context quota and secure permission. Operands: the issuing function, the VF and its new quota. -/
  | quota (fn vf contexts : Nat) (secure : Bool)
  /-- TIMEPARAM (R310). Sets a context's guaranteed teams, margin, period, share and yield grace. Operands: the issuing function, the context and its parameters. -/
  | timeparam (fn ctx : Nat) (tp : TimeParam)
  /-- TAG (R308). Retags 2 MiB regions to a world after flushing and zeroing them. Operands: the issuing function, the regions and the world. -/
  | tagRegion (fn base count world : Nat)
  /-- SLOTS (R313). Submits a new slot table for a link direction. Operands: the issuing function, the link direction and the 512 entries read at the address. -/
  | slots (fn link : Nat) (entries : List (BitVec 16))
  /-- EXPORT (R316). Writes an export table entry. Operands: the issuing function, the entry number and the entry. -/
  | exportEntry (fn entry : Nat) (e : ExportEntry)
  /-- LEND (R310). Lends an idle margin team to another running context. Operands: the issuing function, the team and the borrower. -/
  | lend (fn team ctx : Nat)
  /-- LEND_REVOKE (R311). Revokes a lent team, which is returned to its owner within 200 µs. Operands: the issuing function, or 64 for the owner's dispatcher, and the team. -/
  | lendRevoke (fn team : Nat)
  /-- NVMEGRANT (R306). Permits intake reads from an NVMe namespace for a context. Operands: the issuing function, the context, the namespace and the grant. -/
  | nvmegrant (fn ctx ns : Nat) (grant : Bool)
  /-- ERRRING (R338). Sets the function's error ring in host memory. Operands: the function, the host address and the entries. -/
  | errring (fn addr entries : Nat)
  /-- DEBUG_STOP (R342). Holds each warp of the context before the next safe point. Operands: the function and context. -/
  | debugStop (fn ctx : Nat)
  /-- DEBUG_RELEASE_WARP (R342). Releases one held warp. Operands: the function, context and warp. -/
  | debugReleaseWarp (fn ctx : Nat) (w : WarpName)
  /-- DEBUG_RELEASE_ALL (R342). Releases every held warp. Operands: the function and context. -/
  | debugReleaseAll (fn ctx : Nat)
  /-- DEBUG_SET_BREAKPOINT (R342). Sets a breakpoint at a safe point by code handle and ordinal. Operands: the function, context, breakpoint entry, code handle and ordinal. -/
  | debugSetBreakpoint (fn ctx entry code ordinal : Nat)
  /-- DEBUG_CLEAR_BREAKPOINT (R342). Clears a breakpoint entry. Operands: the function, context and breakpoint entry. -/
  | debugClearBreakpoint (fn ctx entry : Nat)
  /-- DEBUG_DUMP (R342). Writes a held warp's lines and control line to its warp record. Operands: the function, context and warp. -/
  | debugDump (fn ctx : Nat) (w : WarpName)
  /-- FENCEMAP (R340). Returns the masks of fenced cores and teams. Operands: the function. -/
  | fencemap (fn : Nat)
  /-- HEALTH (R341). Returns the predictive counters of a unit. Operands: the function and the unit. -/
  | health (fn : Nat) (unit : Word)
  /-- TEST (R340). Requests an in-field test of a team when it is next idle. Operands: the function and the team. -/
  | testTeam (fn team : Nat)
  /-- ATTEST (R355). Writes a signed attestation report with the nonce and measurements. Operands: the function, the nonce and the host buffer. -/
  | attest (fn : Nat) (nonce : List Byte) (addr : Nat)
  /-- IDENTITY (R354). Writes the device certificate to a host buffer. Operands: the function, the host buffer and its length. -/
  | identity (fn addr len : Nat)
  /-- JOURNAL_READ (R354). Copies the boot journal ring to a host buffer. Operands: the function and the host buffer. -/
  | journalRead (fn addr : Nat)
  /-- JOURNAL_CLEAR (R354). Erases the boot journal and ends every skip. Operands: the function. -/
  | journalClear (fn : Nat)
  /-- IMAGEWRITE (R354). Verifies an image and writes it to a flash slot. Operands: the function, the stage and slot, the host buffer and its length. -/
  | imagewrite (fn stage slot addr len : Nat)
  /-- PACKAGE_START (R348). Power-on runs mask ROM and the signed boot stages in order. Operands: what each verified stage reports in turn: true success, false failure; a stage with no report left has not reported yet. -/
  | packageStart (reports : List Bool)
  /-- STAGE_TIMEOUT (R351). A stage not reporting within 2 s is a step failure and the package restarts. -/
  | stageTimeout
  /-- ENGINE_OP_START (R202). A copy or collective engine performs the first access of a queued operation, so the operation counts as started. Operands: the operation by its number in the queue. -/
  | engineOpStart (op : Nat)
  /-- POWER_LIMIT_CHANGE (R18). Slombevor sets or lifts a power limit below 2,800 W, after which the governor inserts empty matrix issue cycles and admission uses the governed rate. Operands: the new limit, or none for the default. -/
  | powerLimitChange (watts : Option Nat)
  /-- LANE_RETRAIN (R341). A host, fabric or die-boundary lane loses and regains training, counted in PORTSTAT and the HEALTH counters. Operands: the lane. -/
  | laneRetrain (unit : Word)
  /-- SCRUB_OR_REFRESH_ERROR (R338). Scrub or refresh finds an error in an L2 slice or DRAM, which is corrected or poison-marked in place and reported unattributed on the PF ring. Operands: the unit, the device physical address, whether it is uncorrectable, and the syndrome. -/
  | scrubOrRefreshError (unit : Word) (addr : Nat) (uncorrectable : Bool) (syndrome : Nat)
  /-- LINK_ERROR (R337). A link lane detects a code error in shared or management slots, producing a class-2 error record and updating the lane counters. Operands: the lane and whether the codeword was uncorrectable. -/
  | linkError (unit : Word) (uncorrectable : Bool)
  /-- POWER_LOSS (R352). Supply is lost, possibly during a journal write, leaving the journal as it stood before the entry being written. Operands: whether a journal write was under way. -/
  | powerLoss (midWrite : Bool)
  /-- VF_ENABLE (R305). A VF is enabled or disabled through SR-IOV, with its home link chosen by the PF while it is disabled. Operands: the VF, its new state and home link. -/
  | vfEnable (vf : Nat) (on : Bool) (link : Nat)
  deriving DecidableEq, Repr, Inhabited

end Sys2Proof
end

