-- ==== Sys2Proof/Machine/State.lean ====
section
/-!
DEFINITION. The state of the package as plain data: everything the spec gives the machine (INVENTORY.md, State). Maps are
lists of (key, value) pairs with strictly rising keys (Machine/Map.lean); an absent register reads 0.
-/

namespace Sys2Proof.Machine

/-- Trap causes (18 R286). -/
inductive Cause where
  | illegal | illhdr | cls | scope | scopemis | nonunif | regrange | handle | bounds | align | perm | xlate | spill | tile
  | accrange | vat | trapi | brk | watchdog | preempt | errcons | chkfail | member | stackovf | setbroken
  /-- Code 0x00, which stands only in records of a stop without an instruction (18 R286). -/
  | noCause
  deriving DecidableEq, Repr, Inhabited

/-- Why an instruction has not completed yet although it does not fault (04 R85, 21 R343). -/
inductive Wait where
  | rendezvous | future | vector | tileState | counter | futures | queue | fence | cwait | grow | inFlight | gang | pending
  | writerQueue | vatMoving | matrix | frozen
  deriving DecidableEq, Repr, Inhabited

/-- What a fault reports (18 R291 to R293). -/
structure FaultInfo where
  cause : Cause
  /-- The issue scope of the word. -/
  sc : Nat
  tpc : Word
  tmask : Word
  taddr : Word
  tinfo : Word
  /-- The virtual address of record offset 0x38. -/
  va : Nat
  deriving DecidableEq, Repr, Inhabited

/-- Why an instruction does not complete now. -/
inductive Stop where
  /-- The warp's own trap (18 R287). -/
  | trap (f : FaultInfo)
  /-- A set-wide (false) or block-wide (true) fault (04 R97). -/
  | wide (blk : Bool) (f : FaultInfo)
  /-- Held for service: the page the failing step of the walk would map (09 R175); what is 0 for an access, 1 for a spill or
  a fill (05 R105), 2 for a table of the context (09 R167). -/
  | held (what : Nat) (f : FaultInfo) (base size : Nat)
  /-- The instruction would consume poison of this unit, at this device physical address if any (21 R330). -/
  | consume (unit : Word) (pa : Nat) (f : FaultInfo)
  /-- The context stops (18 R295). -/
  | ctx (reason : Nat) (f : FaultInfo)
  /-- Nothing happens yet. -/
  | wait (w : Wait)
  deriving DecidableEq, Repr, Inhabited

/-- A clause being executed (03 R49): its header's offset and word, its class and the offset after its last word. -/
structure Clause where
  hdr : Word
  word : Word
  cls : Nat
  stop : Word
  deriving DecidableEq, Repr, Inhabited

/-- The state of a path (05 R100). -/
inductive PathState where
  | runnable | atJoin | atRet | atWarp
  deriving DecidableEq, Repr, Inhabited

/-- A path of a warp (05 R100, R106; 18 R298). `clause = none` means that pc names a clause header. -/
structure Path where
  pc : Word
  mask : Word
  /-- The innermost record, by its number in the warp's table. -/
  inner : Option Nat
  dem : Nat
  st : PathState
  clause : Option Clause
  /-- The last safe point's ordinal and the instructions retired since (21 R342). -/
  ord : Nat
  cnt : Nat
  /-- Instructions retired in this turn (05 R110). -/
  turn : Nat
  spilled : Bool
  /-- When the path parked, by the warp's count of parkings. -/
  park : Nat
  deriving DecidableEq, Repr, Inhabited

/-- A join or call record (05 R101, R106). -/
structure Rec where
  call : Bool
  addr : Word
  entry : Word
  arrival : Word
  parent : Option Nat
  spilled : Bool
  deriving DecidableEq, Repr, Inhabited

/-- The interrupted program of a warp in trap mode (18 R287). -/
structure TrapSt where
  paths : List Path
  recs : List (Nat × Rec)
  tpcWritten : Bool
  /-- The warp was held for the debugger (21 R342), or suspended with MEMBER (04 R97), and is again afterwards. -/
  debug : Bool
  susp : Bool
  /-- It has been released past the safe point it stands before. -/
  pass : Bool
  deriving DecidableEq, Repr, Inhabited

/-- An entry of a futures table that is live (11 R206, R207). -/
structure Fut where
  op : Nat
  cls : Nat
  status : Option Nat
  /-- The pending register, until a read or a write of it consumes the future. -/
  reg : Option Nat
  /-- The operation's timestamp, once it has completed (10 R196). -/
  pts : Nat
  deriving DecidableEq, Repr, Inhabited

/-- A tile's table entry (11 R209): 0 empty, 1 filling, 2 ready, 3 draining; the phase; the matrix read holds (12 R226);
its write timestamp and the end of its lease, with the timestamp of an operation that made it ready among the former (10 R196,
R197); the bank mask under which its rows were written (09 R173). -/
structure Tile where
  st : Nat
  phase : Bool
  holds : Nat
  pts : Nat
  rts : Nat
  bank : Nat
  deriving DecidableEq, Repr, Inhabited

/-- A signature at a rendezvous register (04 R86): 0 is y0, 1 + i is the register of set i. -/
structure Sig where
  y : Nat
  code : Nat
  pc : Word
  deriving DecidableEq, Repr, Inhabited

/-- What a warp is doing. -/
inductive Run where
  | ready
  /-- Held for service on the context's record of this number (09 R175); `what` as in Stop. -/
  | held (seq what : Nat) (f : FaultInfo)
  /-- Suspended with MEMBER, or held while another member reports (04 R97). -/
  | suspended
  /-- A fault waits for room in the fault queue (18 R293). -/
  | queued (st : Stop)
  /-- Held for the debugger (18 BRK, 21 R342). -/
  | debug
  | exited
  deriving DecidableEq, Repr, Inhabited

/-- A resident warp. -/
structure Warp where
  block : Nat
  idx : Nat
  role : Nat
  slot : Nat
  active : Bool
  /-- It has not dispatched since it last became active (04 R76). -/
  justActive : Bool
  live : Word
  /-- The path table in rotation order; the head is the current path (05 R100, R106). -/
  paths : List Path
  recs : List (Nat × Rec)
  nextRec : Nat
  parks : Nat
  /-- Vector registers: lane i of vN at key 32 N + i. -/
  v : List (Nat × Word)
  /-- Scalars s0 to s63 at keys 0 to 63, k0 to k15 at keys 64 to 79. -/
  s : List (Nat × Word)
  /-- Predicates p1 to p7: bit i for lane i. -/
  p : List (Nat × Word)
  nv : Nat
  nt : Nat
  na : Nat
  fmode : Word
  fflags : Word
  set : Option Nat
  /-- Outstanding-operation counters by class (11 R205). -/
  cnt : List (Nat × Nat)
  /-- The greatest timestamp of a completed operation, by class (10 R196). -/
  opPts : List (Nat × Nat)
  futs : List (Nat × Fut)
  /-- Generations of the sixteen futures entries. -/
  gens : List (Nat × BitVec 8)
  tiles : List (Nat × Tile)
  /-- Accumulator entry (m, n) of window tile c at key 256 c + 16 m + n: bits 47:0 data, 48 S, 49 P (02 R38). -/
  acc : List (Nat × BitVec 50)
  vatMap : Option Nat
  run : Run
  trap : Option TrapSt
  tcause : Word
  tpc : Word
  taddr : Word
  tinfo : Word
  tmask : Word
  tset : Word
  tclass : Word
  pts : Nat
  ptsEpoch : Nat
  /-- The armed sample: target handle and offset (21 R345). -/
  sample : Option (Nat × Word)
  demot : Nat
  prog : Nat
  wait : Option Wait
  sig : Option Sig
  /-- A GROW in a pool's queue: class and units; and whether the units have been set aside for it, so that it retires next
  (06 R122, R123). -/
  grow : Option (Nat × Nat)
  granted : Bool
  /-- PREEMPT to be delivered: some false at save, some true at restore (18 R288, R298). -/
  preemptDue : Option Bool
  /-- Placed above all others until it dispatches (04 R85), and how often it has been passed over since it dispatched. -/
  urgent : Bool
  passed : Nat
  /-- The debugger has released the warp past the safe point it stands before (21 R342). -/
  pass : Bool
  /-- A debugger's Stop holds the warp before the next safe point it enters (21 R342). -/
  halt : Bool
  /-- Poisoned lines (21 R329): vN at N, the scalar lines at 48 and 49, the trap bank at 50, accumulator tile c at 64 + c. -/
  bad : List (Nat × Word)
  /-- The lines that stand in the core's register cache (06 R115 to R117), numbered as the poisoned ones, and what a line held
  when it was filled; one that was created has no such entry. -/
  lines : List Nat
  filled : List (Nat × List Byte)
  /-- The operand a reuse hint keeps (06 R120): vN at N, scalar key n at 64 + n. -/
  kept : Option Nat
  /-- The vat on whose writer queue the warp's VOPEN stands (14 R247, VDROP). -/
  vopen : Option Nat
  deriving DecidableEq, Repr, Inhabited

/-- A launch record's fields (16 R261). -/
structure LaunchRec where
  code : Nat
  flags : Nat
  entry : Nat
  blocks : Nat
  nW : Nat
  nv : Nat
  nt : Nat
  gang : Nat
  na : Nat
  r12 : Nat
  locals : Nat
  cost : Nat
  deadline : Nat
  slots : List Word
  args : List Word
  affinity : List Nat
  deps : List Nat
  done : Nat
  prio : Nat
  gclass : Nat
  patience : Nat
  roles : Nat
  spill : Nat
  /-- The bytes from 0x9C are zero. -/
  rest : Bool
  deriving DecidableEq, Repr, Inhabited

/-- A set of a block (04 R94): 0 free, 1 forming, 2 complete, 3 broken. -/
structure SetRec where
  st : Nat
  size : Nat
  departed : Nat
  members : Word
  deriving DecidableEq, Repr, Inhabited

/-- A held store (10 R200): the handle it names, its offset, the memory key it resolves to and its bytes. -/
structure Held where
  h : Nat
  off : Nat
  key : Nat
  bytes : List Byte
  deriving DecidableEq, Repr, Inhabited

/-- A wide fault in progress (04 R97). `reporter = none`: every live member was in trap mode. -/
structure Wide where
  blk : Bool
  set : Nat
  members : Word
  reporter : Option Nat
  suspended : Word
  info : FaultInfo
  deriving DecidableEq, Repr, Inhabited

/-- Where a block stands in a pre-emption (16 R277). -/
inductive Pre where
  | none
  | draining
  /-- A save was chosen while the block's gang barrier is in release; it begins when the release ends (16 R279). -/
  | releasing
  /-- A save was chosen; issue has stopped and the block waits for its in-flight counts. -/
  | waiting
  /-- PREEMPT has been delivered to the warps with accumulator tiles. -/
  | handlers
  /-- A discard was chosen while the block's gang barrier is in release; it begins when the release ends (16 R279). -/
  | letting
  /-- A discard was chosen; issue has stopped and the block waits for its in-flight counts. -/
  | discarding
  | saved
  /-- The block is complete and has given its seat back; engine operations of it are still outstanding. -/
  | gone
  /-- A save without PREEMPT was chosen by the supervisor (21 R331), or the context has stopped (18 R295). -/
  | copying
  deriving DecidableEq, Repr, Inhabited

/-- A seated or saved block. -/
structure Block where
  ctx : Nat
  seq : Nat
  flat : Nat
  core : Nat
  slot : Nat
  age : Nat
  world : Nat
  lr : LaunchRec
  src : Nat
  committed : Bool
  /-- GBARs that have been released, and whether the block has issued the next one (04 GBAR). -/
  gbars : Nat
  gbarHere : Bool
  sets : List (Nat × SetRec)
  pail : List Held
  charged : Nat
  /-- The multiple of 4 C at which WATCHDOG was last raised (16 R270). -/
  watch : Nat
  /-- Vat handles 4,064 + j at key j: the vat and whether W and A are granted (14 R245). -/
  vatH : List (Nat × (Nat × Bool))
  wides : List Wide
  pre : Pre
  /-- The block was saved without PREEMPT (21 R331). -/
  plain : Bool
  /-- When the lines of the block's warps were marked evictable (06 R117), by the machine's count of such marks. -/
  mark : Option Nat
  rollbacks : Nat
  /-- The offset of the block record in the block record region, and the bytes it takes there (18 R297). -/
  recOff : Nat
  recLen : Nat
  deriving DecidableEq, Repr, Inhabited

/-- A layout entry in use (09 R173). -/
structure Layout where
  handle : Nat
  dims : Nat
  fmt : Nat
  rows : Nat
  perRow : Nat
  extents : List Nat
  strides : List Nat
  bank : Nat
  deriving DecidableEq, Repr, Inhabited

/-- A handle entry (09 R167). -/
structure HEntry where
  base : Nat
  length : Nat
  kind : Nat
  access : Nat
  policy : Nat
  world : Nat
  spec : Nat
  deriving DecidableEq, Repr, Inhabited

/-- One member's share of a transfer: its warp, the owner of its tile and the tile, and its row indices (11 R212, R216). -/
structure Part where
  warp : Nat
  owner : Nat
  tile : Nat
  idx : List Nat
  deriving DecidableEq, Repr, Inhabited

/-- An engine operation's command with the operands read at issue (11, 12, 16, 21). A member of a matrix command is a warp
with its allotted accumulator count at issue (14 R246); DRAIN names its tile as `accSlot` does. -/
inductive Cmd where
  /-- COPY, and with `rows` GATH and SCAT: direction, flip, layout, its handle entry, c0 to c4. -/
  | xfer (out flip rows : Bool) (lay : Layout) (he : HEntry) (coords : List Int) (parts : List Part)
  | coll (kind red fmt grp rank n ord count : Nat) (h off : Nat) (he : HEntry)
  | mma (z : Bool) (mR nC w : Nat) (slot : Word) (ta tb cb : Nat) (members : List (Nat × Nat))
  | drain (warp acc : Nat) (slot : Word) (rb cb : Nat) (scale : Option (Nat × Nat)) (vec : Option Nat)
      (tile : Option (Nat × Nat × Nat × Nat)) (flip : Bool)
  | azero (base n : Nat) (members : List (Nat × Nat))
  | asave (h off base n : Nat) (he : HEntry) (members : List (Nat × Nat))
  | aload (h off base n : Nat) (he : HEntry) (members : List (Nat × Nat))
  | sample (h off : Nat) (he : HEntry) (data : List Byte)
  | launch (seq : Nat)
  deriving DecidableEq, Repr, Inhabited

/-- An engine operation (11 R202 to R204). -/
structure Op where
  cls : Nat
  cmd : Cmd
  ctx : Nat
  block : Nat
  /-- The issuing warps and their futures entries. -/
  issuers : List (Nat × Option Nat)
  /-- 1 warp, 2 set, 3 block scope. -/
  scope : Nat
  started : Bool
  /-- The accesses are performed and the status is known. -/
  ended : Option Nat
  /-- Waits for service on the context's record of this number (09 R175). -/
  held : Option Nat
  /-- The failing access of an operation that was held or refused, and its refusal code (09 R175, 18 R292). -/
  info : FaultInfo
  refused : Nat
  /-- The held stores the operation reads through (10 R200). -/
  pail : List Held
  pts : Nat
  /-- The code handle and the offset of the command's first word. -/
  code : Nat
  pc : Word
  deriving DecidableEq, Repr, Inhabited

/-- A vat of a context's device directory (14 R243): state 0 resident, 1 moving, 2 backed, 3 lost. -/
structure Vat where
  ctx : Nat
  name : Nat
  acc : Bool
  size : Nat
  world : Nat
  backed : Option (Nat × Nat)
  st : Nat
  primary : Option Nat
  replicas : List Nat
  opens : List Nat
  writer : Option Nat
  queue : List Nat
  stale : Bool
  /-- The core directory slot of each copy, by core. -/
  slots : List (Nat × Nat)
  /-- Content of an accumulator vat, keyed as a window. -/
  tiles : List (Nat × BitVec 50)
  target : Option Nat
  /-- Where the image of an unbacked vat stands in the vat save area (18 R296). -/
  saveOff : Nat
  deriving DecidableEq, Repr, Inhabited

/-- A launch in a context's pending set (16 R265): state 1 waiting, 2 admitted. -/
structure Launch where
  lr : LaunchRec
  raw : List Byte
  prio : Nat
  src : Nat
  st : Nat
  /-- The dependencies that have read zero. -/
  met : List Nat
  deadline : Nat
  next : Nat
  done : Nat
  /-- Flat indices of discarded blocks, to be seated again. -/
  again : List Nat
  /-- How often blocks were rolled back, by flat index (21 R332). -/
  rolled : List (Nat × Nat)
  /-- The slot of the pending set, 0 to 63. -/
  slot : Nat
  entered : Nat
  /-- The affinity patience of the next block has passed (14 R250). -/
  patience : Bool
  /-- The block, by flat index, for which an affinity vat is being moved, and the core it goes to (14 R250). -/
  bound : Option (Nat × Nat)
  /-- The generation bound at admission, by weight set (20 R320). -/
  gens : List (Nat × Nat)
  /-- Every signal has been translated (16 R263), and the fault records on which signals wait for service. -/
  ready : Bool
  svc : List Nat
  /-- The timestamp after which its blocks' accesses come (10 R198). -/
  pts : Nat
  /-- Its completion signal is to take the failure step of this status, once its translation has been served (16 R262, R263). -/
  failing : Option Nat
  deriving DecidableEq, Repr, Inhabited

/-- A fault record not yet answered (09 R175, 18 R294). -/
structure Service where
  va : Nat
  base : Nat
  size : Nat
  deriving DecidableEq, Repr, Inhabited

/-- A breakpoint of a context (21 R342). -/
structure Breakpoint where
  code : Nat
  ordinal : Nat
  deriving DecidableEq, Repr, Inhabited

/-- A SHARD command (20 R322): its 64 bytes are decoded at the command. The address is a host bus address, an offset in the handle of
the remote export entry, or a logical block. -/
structure Shard where
  idx : Nat
  source : Nat
  addr : Nat
  bytes : Nat
  conv : Nat
  comp : Nat
  lay : Nat
  rows : Nat
  perRow : Nat
  c0 : Nat
  c1 : Nat
  scaleOff : Nat
  /-- For source 1 the fabric node and its export entry, for source 2 the namespace and the root port. -/
  node : Nat
  entry : Nat
  ns : Nat
  port : Nat
  deriving DecidableEq, Repr, Inhabited

/-- A generation of a weight set (20 R321 to R324). -/
structure Gen where
  base : Nat
  length : Nat
  count : Nat
  good : List Nat
  pend : List Shard
  rereads : List (Nat × Nat)
  report : Nat
  assembling : Bool
  /-- The device time at which its timeout passes. -/
  expires : Nat
  /-- The greatest timestamp of a write into it (R324). -/
  pts : Nat
  deriving DecidableEq, Repr, Inhabited

/-- A weight set of a context (20 R319 to R324). -/
structure WeightSet where
  handle : Nat
  nextGen : Nat
  cur : Option Nat
  gens : List (Nat × Gen)
  deriving DecidableEq, Repr, Inhabited

/-- A fabric message whose armed launch waits until its payload can be written (16 R266): the launch record, the payload's bytes by
offset, its length, the fault record waited for, and whether the service was refused. -/
structure Mail where
  raw : List (BitVec 8)
  bytes : List (Nat × BitVec 8)
  n : Nat
  svc : Option Nat
  refused : Bool
  deriving DecidableEq, Repr, Inhabited

/-- A context (18 R296, 20 R306): state 0 idle, 1 running, 2 saved, 3 stopped. -/
structure Ctx where
  fn : Nat
  world : Nat
  st : Nat
  reason : Nat
  hdr : Nat
  teams : Word
  margin : Word
  period : Nat
  share : Nat
  grace : Nat
  yieldDl : Option Nat
  /-- Debt and compensation, in clocks (16 R280). -/
  debt : Nat
  comp : Nat
  /-- The context's thread holds its teams (16 R273). -/
  holds : Bool
  /-- The pre-emption asked of the context: 0 none, 1 forced, 2 cooperative (16 R274), 3 its slice has ended by YIELD and the
  cores have not chosen yet. -/
  ask : Nat
  /-- The context whose thread waited for the teams (16 R280). -/
  rival : Option Nat
  /-- When the current slice ends, in ns, and the slices held in the period of some number (16 R267, R273). -/
  sliceEnd : Nat
  used : Nat
  cycle : Nat
  /-- Fault records on which a device access to a vat's image waits (14 R356). -/
  devWait : List Nat
  /-- Fault records on which the device's accesses to queues and tables wait, whose refusal stops the context (18 R295). -/
  tabWait : List Nat
  pend : List (Nat × Launch)
  nextSeq : Nat
  arms : List (Nat × List Byte)
  /-- Messages that wait for service of their payload's pages (16 R266). -/
  mail : List Mail
  /-- Records of armed launches that have fired and wait for room in the pending set (16 R265), whether their payload did not fit
  (R266), and the timestamp of the payload (10 R198). -/
  fired : List (Bool × Nat × List Byte)
  services : List (Nat × Service)
  faultSeq : Nat
  /-- Kind-3 records that wait for room (18 R293). -/
  waiting : List (List Byte)
  counters : List (Nat × Nat)
  wsets : List (Nat × WeightSet)
  nvme : List Nat
  /-- The function whose RESET (false) or DESTROY (true) waits for the context to have stopped (18 R295). -/
  resetBy : Option (Nat × Bool)
  breaks : List (Nat × Breakpoint)
  /-- COLLs issued so far by group and rank (key 256 group + rank). -/
  colls : List (Nat × Nat)
  /-- COLLs of no elements, which complete at once, by group, ordinal and rank, with kind, reduction and format: the other ranks
  still pair with them (11 R218). -/
  zeros : List ((Nat × Nat × Nat) × (Nat × Nat × Nat))
  frozen : Bool
  /-- The timestamps of the device directory's entries, by name (14 R248). -/
  vatPts : List (Nat × Nat)
  deriving DecidableEq, Repr, Inhabited

/-- Mismatches to come in one instruction under checked execution (21 R327): how many pairs disagree, and where. -/
structure Mism where
  pairs : Nat
  /-- The pipe of the first execution, what leads from it to that of the second, and the logical lane. -/
  pipe : Nat
  other : Nat
  lane : Nat
  deriving DecidableEq, Repr, Inhabited

/-- A core frozen at a consumption (21 R331): the origin, the unit, and the warp at whose instruction it arose. -/
structure Freeze where
  memory : Bool
  unit : Word
  warp : Nat
  record : Nat
  deriving DecidableEq, Repr, Inhabited

/-- A function's error ring (21 R338). -/
structure ErrRing where
  addr : Nat
  entries : Nat
  prod : Nat
  seq : Nat
  dropped : Nat
  deriving DecidableEq, Repr, Inhabited

/-- A copy of a 64-byte sector (09 R178, R179; 10 R192, R194): its bytes, its timestamps, and the clock at which it was filled or
renewed last. -/
structure Copy where
  bytes : List (BitVec 8)
  wts : Nat
  rts : Nat
  clk : Nat
  deriving DecidableEq, Repr, Inhabited

/-- A 128-byte line of an L1 set (09 R178): its number among the lines of device memory, whether it was fetched under the streaming
policy, and the copies of its sectors. -/
structure L1Line where
  line : Nat
  stream : Bool
  secs : List (Nat × Copy)
  deriving DecidableEq, Repr, Inhabited

/-- A replica of a sector in an L2 slice away from its home (09 R179), and the launch whose end drops it. -/
structure Replica where
  ctx : Nat
  seq : Nat
  copy : Copy
  deriving DecidableEq, Repr, Inhabited

/-- A message on its way through this package's own tag ports (20 R316, R317): the entry, and the bytes of one store or one engine
operation with their offsets. -/
structure SelfMsg where
  entry : Nat
  bytes : List (Nat × BitVec 8)
  deriving DecidableEq, Repr, Inhabited

/-- What warps, blocks, contexts and engines act on. -/
structure Mach where
  /-- All memory, by key (Machine/Ops.lean): device memory, local stores, vats, and what lies outside the package. -/
  mem : List Host.Cell
  /-- Poison marks of 16-byte parts (21 R329), with the unit where each arose. -/
  poison : List (Nat × Word)
  /-- Write timestamps and lease ends of 64-byte sectors (10 R191). -/
  wts : List (Nat × Nat)
  rts : List (Nat × Nat)
  epoch : Nat
  /-- The L1 caches (09 R178): the lines of set s of core c at key 1024 c + s, the most recently used first. -/
  l1 : List (Nat × List L1Line)
  /-- Replicas of sectors (09 R179): the one of sector n in slice s of the package at key 128 n + s. -/
  replicas : List (Nat × Replica)
  /-- World tags of 2 MiB regions (20 R308): 1 secure; an unlisted region is non-secure, or management where `isManagement`
  says so. -/
  tags : List (Nat × Nat)
  warps : List (Nat × Warp)
  blocks : List (Nat × Block)
  ctxs : List (Nat × Ctx)
  vats : List (Nat × Vat)
  /-- The context to which each team passed last (20 R310, R311). -/
  teamCtx : List (Nat × Nat)
  /-- Operations in the order they were issued. -/
  ops : List (Nat × Op)
  nextBlock : Nat
  nextVat : Nat
  nextOp : Nat
  /-- Numbers the marks of evictable lines. -/
  marks : Nat
  /-- The partition whose port each core's copy engine served last (11 R202). -/
  copyTurn : List (Nat × Nat)
  clk : Nat
  ns : Nat
  /-- Numbers the readings of free values. -/
  tick : Nat
  /-- MSI-X vectors raised: function and vector (20 R307). -/
  msi : List (Nat × Nat)
  /-- Hardware mismatches to come in checked execution, by unit (log 19). -/
  mism : List Mism
  frozen : List (Nat × Freeze)
  /-- When a unit was last charged with a checked mismatch: 2 x unit for a corrected one, one more for a CHKFAIL (21 R328). -/
  charges : List (Nat × Nat)
  /-- Cores to be fenced when no block is seated on them (21 R328), and teams to be tested when idle (21 R328, R333). -/
  suspects : List Nat
  testDue : List Nat
  errs : List (Nat × ErrRing)
  /-- Error records by function, newest last, as the rings received them. -/
  errLog : List (Nat × List Byte)
  /-- Orders in which the lanes of coming instructions store, one for each instruction (09 R185; log 8). -/
  laneOrders : List (List Nat)
  /-- The export table (20 R316), and stores that the package has sent to its own tag ports. -/
  exports : List (Nat × ExportEntry)
  sent : List SelfMsg
  deriving DecidableEq, Repr, Inhabited

/-- A launch queue or an intake ring of a function (20 R305). -/
structure Ring where
  base : Nat
  entries : Nat
  sel : Nat
  prod : Nat
  cons : Nat
  deriving DecidableEq, Repr, Inhabited

/-- The registers of a function (20 R305). -/
structure Fn where
  enabled : Bool
  home : Nat
  secure : Bool
  quota : Nat
  mbx : List (Nat × BitVec 8)
  busy : Bool
  status : Nat
  queues : List (Nat × Ring)
  tsync : Option Nat
  tsyncDone : Nat
  freply0 : Word
  freply1 : Word
  csel : Nat
  cval : Nat
  intake : Ring
  intakeStatus : Ring
  /-- Status records that wait for room (20 R325). -/
  held : List (List Byte)
  deriving DecidableEq, Repr, Inhabited

/-- A fabric port (20 R318). -/
structure Port where
  up : Bool
  failed : Bool
  lanes : Nat
  retrains : Nat
  node : Nat
  deriving DecidableEq, Repr, Inhabited

/-- Where a start stands (23 R348 to R353). -/
inductive Phase where
  | off | waiting (stage : Nat) | ready | recovery
  deriving DecidableEq, Repr, Inhabited

/-- Boot state and what lasts across starts (23). -/
structure Boot where
  phase : Phase
  /-- Images in flash by 2 x stage + slot, and copies C on NVMe by 2 x stage + port. -/
  flash : List (Nat × List Byte)
  nvme : List (Nat × List Byte)
  /-- The journal's entries, oldest first (23 R352), and its next sequence number. -/
  journal : List (List Byte)
  jseq : Nat
  count : Nat
  /-- The revoke fuses that are blown, and the fused minimum security versions by stage. -/
  revoked : List Nat
  minVer : List (Nat × Nat)
  meas : List (Nat × List Byte)
  /-- Optional stages that failed and are skipped. -/
  skip : List Nat
  /-- For a required stage that failed a step, the source at which the next start begins it. -/
  from_ : List (Nat × Nat)
  /-- The stages whose images ran with flag bit 0 in this start, and their versions. -/
  commit : List (Nat × Nat)
  /-- The source that is being run, and its image's security version. -/
  src : Nat
  ver : Nat
  deriving DecidableEq, Repr, Inhabited

/-- The package around the cores. -/
structure Plat where
  /-- Fenced cores and teams (21 R334). -/
  fenced : List Nat
  fencedTeams : List Nat
  /-- Cores to be fenced once no block is seated on them, on which no block is seated meanwhile (21 R331). -/
  fencing : List Nat
  /-- The borrower of each margin team that is lent (20 R310). -/
  lent : List (Nat × Nat)
  /-- Lent teams that are being revoked (20 R311). -/
  revoking : List Nat
  fns : List (Nat × Fn)
  /-- Slot tables by link direction, where SLOTS has changed them since package start, and those that wait, with the device time
of their frame (20 R313 to R315). -/
  slots : List (Nat × List (BitVec 16))
  slotsNext : List (Nat × (Nat × List (BitVec 16)))
  /-- Bytes of messages still arriving at a tag port, by entry and sender (20 R317). -/
  parts : List ((Nat × Nat) × List (Nat × BitVec 8))
  ports : List (Nat × Port)
  /-- Predictive counters by unit id (21 R341). -/
  health : List (Nat × List Nat)
  /-- The last wait-for reading: by warp, its progress counter and for how many readings it has stood (21 R343). -/
  waits : List (Nat × (Nat × Nat))
  power : Nat
  boot : Boot
  deriving DecidableEq, Repr, Inhabited

/-- Who moves next (log 5): a warp, or an event of the opcode table. -/
inductive Move where
  | warp (k : Nat)
  | event (i : Instr)
  deriving DecidableEq, Repr

/-- The whole machine. -/
structure State where
  m : Mach
  p : Plat
  agenda : List Move
  /-- The warp whose turn it is when the agenda is empty. -/
  cur : Nat
  /-- Warps that have tried to issue in vain since the machine last changed (log 10). -/
  tried : List Nat
  deriving DecidableEq, Repr

/-- An idle launch queue or ring (20 R305). -/
def Ring.empty : Ring := { base := 0, entries := 0, sel := 0, prod := 0, cons := 0 }

/-- The registers of a function that nothing has written (20 R305). -/
def Fn.empty : Fn :=
  { enabled := false, home := 0, secure := false, quota := 0, mbx := [], busy := false, status := 0,
    queues := [(0, Ring.empty), (1, Ring.empty), (2, Ring.empty), (3, Ring.empty)], tsync := none, tsyncDone := 0, freply0 := 0,
    freply1 := 0, csel := 0, cval := 0, intake := Ring.empty, intakeStatus := Ring.empty, held := [] }

/-- Boot state of a package on which nothing has been written (23; log 9, log 20). -/
def Boot.reset : Boot :=
  { phase := .off, flash := [], nvme := [], journal := [], jseq := 0, count := 0, revoked := [], minVer := [],
    meas := [], skip := [], from_ := [], commit := [], src := 0, ver := 0 }

/-- Memory with nothing listed, no context, no block, no vat, no operation (log 20 for the numbers). -/
def Mach.reset : Mach :=
  { mem := [], poison := [], wts := [], rts := [], epoch := 0, l1 := [], replicas := [], tags := [], warps := [], blocks := [], ctxs := [],
    vats := [], teamCtx := [], ops := [], nextBlock := 0, nextVat := 0, nextOp := 0, marks := 0, copyTurn := [], clk := 0, ns := 0,
    tick := 0, msi := [], mism := [], frozen := [], charges := [], suspects := [], testDue := [], errs := [], errLog := [],
    laneOrders := [], exports := [], sent := [] }

/-- The package around the cores before its first start: no fence, no owner, the default power limit of 2,800 W (01 R18). -/
def Plat.reset : Plat :=
  { fenced := [], fencedTeams := [], fencing := [], lent := [], revoking := [], fns := [], slots := [], slotsNext := [],
    parts := [], ports := [], health := [], waits := [], power := 2800, boot := Boot.reset }

/-- The machine right after reset: a package that is powered off and has never been started (log 9). PACKAGE_START starts
it. -/
def State.reset : State := { m := Mach.reset, p := Plat.reset, agenda := [], cur := 0, tried := [] }

/-- Why the machine stops: it never does. A warp that may not issue does nothing, and an event that is not due does not take
place (log 16). -/
inductive Fault where
  deriving DecidableEq, Repr

/-- Instructions without a meaning. -/
inductive Refusal where
  /-- Raised by an arm of exec that names no meaning; safe. -/
  | notModelled (mnemonic : String)
  deriving DecidableEq, Repr, Inhabited

end Sys2Proof.Machine
end

