-- ==== Sys2Proof/Machine/Access.lean ====
section
/-!
DEFINITION. Reading and writing the tables and registers of the state: every register has one home and is reached only
through these.
-/

namespace Sys2Proof.Machine

/-- The 8-bit code of a cause (18 R286). -/
def Cause.code : Cause → Nat
  | .illegal => 0x01 | .illhdr => 0x02 | .cls => 0x03 | .scope => 0x04 | .scopemis => 0x05 | .nonunif => 0x06
  | .regrange => 0x07 | .handle => 0x08 | .bounds => 0x09 | .align => 0x0A | .perm => 0x0B | .xlate => 0x0C
  | .spill => 0x0D | .tile => 0x0E | .accrange => 0x0F | .vat => 0x10 | .trapi => 0x12 | .brk => 0x13
  | .watchdog => 0x14 | .preempt => 0x15 | .errcons => 0x16 | .chkfail => 0x17 | .member => 0x18 | .stackovf => 0x19
  | .setbroken => 0x1A | .noCause => 0x00

/-- The number of a warp: warp idx of block b. -/
def warpKey (b idx : Nat) : Nat := 32 * b + idx

def Mach.warp (m : Mach) (k : Nat) : Warp := (Map.find? m.warps k).getD default
def Mach.block (m : Mach) (b : Nat) : Block := (Map.find? m.blocks b).getD default
def Mach.ctx (m : Mach) (c : Nat) : Ctx := (Map.find? m.ctxs c).getD default
def Mach.vat (m : Mach) (v : Nat) : Vat := (Map.find? m.vats v).getD default
def Mach.op (m : Mach) (o : Nat) : Op := (Map.find? m.ops o).getD default

def Mach.setWarp (m : Mach) (k : Nat) (w : Warp) : Mach := { m with warps := Map.ins m.warps k w }
def Mach.setBlock (m : Mach) (b : Nat) (x : Block) : Mach := { m with blocks := Map.ins m.blocks b x }
def Mach.setCtx (m : Mach) (c : Nat) (x : Ctx) : Mach := { m with ctxs := Map.ins m.ctxs c x }
def Mach.setVat (m : Mach) (v : Nat) (x : Vat) : Mach := { m with vats := Map.ins m.vats v x }
def Mach.setOp (m : Mach) (o : Nat) (x : Op) : Mach := { m with ops := Map.ins m.ops o x }

def Mach.updWarp (m : Mach) (k : Nat) (f : Warp → Warp) : Mach := { m with warps := Map.upd m.warps k f }
def Mach.updBlock (m : Mach) (b : Nat) (f : Block → Block) : Mach := { m with blocks := Map.upd m.blocks b f }
def Mach.updCtx (m : Mach) (c : Nat) (f : Ctx → Ctx) : Mach := { m with ctxs := Map.upd m.ctxs c f }
def Mach.updVat (m : Mach) (v : Nat) (f : Vat → Vat) : Mach := { m with vats := Map.upd m.vats v f }
def Mach.updOp (m : Mach) (o : Nat) (f : Op → Op) : Mach := { m with ops := Map.upd m.ops o f }

/-- Change several warps. -/
def Mach.updWarps (m : Mach) (ks : List Nat) (f : Nat → Warp → Warp) : Mach :=
  ks.foldl (fun m k => m.updWarp k (f k)) m

/-- The warps of a block, in index order. -/
def Mach.warpsOf (m : Mach) (b : Nat) : List (Nat × Warp) := Map.range m.warps (32 * b) (32 * b + 32)

/-- A warp is live while any of its threads is (04 R74). -/
def Warp.isLive (w : Warp) : Bool := w.live != 0

/-- The live warps of a block, in index order. -/
def Mach.liveOf (m : Mach) (b : Nat) : List Nat := ((m.warpsOf b).filter (fun e => e.2.isLive)).map (·.1)

/-- The member warps of set i of a block, in index order (04 R95). -/
def Mach.setMembers (m : Mach) (b i : Nat) : List Nat :=
  ((m.warpsOf b).filter (fun e => e.2.set == some i)).map (·.1)

/-- The current path (05 R100); a warp without paths has exited. -/
def Warp.path (w : Warp) : Path := w.paths.headD default

/-- Change the current path. -/
def Warp.setPath (w : Warp) (p : Path) : Warp :=
  match w.paths with
  | [] => w
  | _ :: ps => { w with paths := p :: ps }

/-- In trap mode, scalar fields 48 to 63 name k0 to k15, which stand at 64 to 79 (03 R59). -/
def Warp.sKey (w : Warp) (f : Nat) : Nat := if w.trap.isSome && decide (48 ≤ f) then f + 16 else f

/-- Scalar register named by a field (03 R58, R59). -/
def Warp.getS (w : Warp) (f : Nat) : Word := Map.get w.s (w.sKey f)
def Warp.setS (w : Warp) (f : Nat) (x : Word) : Warp := { w with s := Map.set w.s (w.sKey f) x }

/-- Lane i of vector register r. -/
def Warp.getV (w : Warp) (r i : Nat) : Word := Map.get w.v (32 * r + i)
def Warp.setV (w : Warp) (r i : Nat) (x : Word) : Warp := { w with v := Map.set w.v (32 * r + i) x }

/-- Predicate n as a lane mask; p0 reads constant true (03 R60). -/
def Warp.getP (w : Warp) (n : Nat) : Word := if n = 0 then BitVec.allOnes 32 else Map.get w.p n

/-- Write predicate n; p0 is never a destination (03 R60) and discards a write. -/
def Warp.setP (w : Warp) (n : Nat) (x : Word) : Warp := if n = 0 then w else { w with p := Map.set w.p n x }

/-- The lane-scope source of a 6-bit field: v0 to v47, or s0 to s15 broadcast for 48 to 63 (03 R58; in trap mode too, R59). -/
def Warp.src (w : Warp) (f i : Nat) : Word := if f < 48 then w.getV f i else Map.get w.s (f - 48)

/-- Outstanding-operation counter of a class (11 R205). -/
def Warp.counter (w : Warp) (c : Nat) : Nat := (Map.find? w.cnt c).getD 0
def Warp.setCounter (w : Warp) (c n : Nat) : Warp := { w with cnt := Map.ins w.cnt c n }

/-- The table entry of a tile: empty at phase 0 until it changes (11 R209). -/
def Warp.tile (w : Warp) (t : Nat) : Tile := (Map.find? w.tiles t).getD { st := 0, phase := false, holds := 0, pts := 0, rts := 0, bank := 0 }
def Warp.setTile (w : Warp) (t : Nat) (x : Tile) : Warp := { w with tiles := Map.ins w.tiles t x }

/-- The set of a block: free until an SJOIN (04 R94). -/
def Block.set (b : Block) (i : Nat) : SetRec :=
  (Map.find? b.sets i).getD { st := 0, size := 0, departed := 0, members := 0 }

/-- The flags of a launch record (16 R261). -/
def LaunchRec.checked (r : LaunchRec) : Bool := r.flags.testBit 0
def LaunchRec.restartable (r : LaunchRec) : Bool := r.flags.testBit 1
def LaunchRec.isGang (r : LaunchRec) : Bool := r.flags.testBit 3

/-- The pail holds a block's stores while it is restartable and uncommitted (10 R200). -/
def Block.holding (b : Block) : Bool := b.lr.restartable && !b.committed

/-- The index of a block in its gang, s0 mod G (04 R82). -/
def Block.gangIndex (b : Block) : Nat := b.flat % b.lr.gang

/-- The context number and block of a warp. -/
def Mach.blockOf (m : Mach) (k : Nat) : Block := m.block (m.warp k).block
def Mach.ctxOf (m : Mach) (k : Nat) : Nat := (m.blockOf k).ctx

/-- WARPSLOT (04 R77). -/
def warpSlot (b : Block) (w : Warp) : Word := BitVec.ofNat 32 (b.slot * 256 + w.slot * 4 + w.idx % 4)

/-- LAUNCHID (16 R265). -/
def launchId (b : Block) : Word := BitVec.ofNat 32 (b.lr.prio * 2 ^ 30 + b.src * 2 ^ 28 + b.seq % 2 ^ 24)

/-- Add to one of the context's 80 counters, which saturate at 64 bits (06 R124). -/
def Mach.count (m : Mach) (c i n : Nat) : Mach :=
  m.updCtx c (fun x =>
    { x with counters := Map.ins x.counters i (min (2 ^ 64 - 1) ((Map.find? x.counters i).getD 0 + n)) })

/-- Raise an MSI-X vector of a function (20 R307). -/
def Mach.raise (m : Mach) (fn v : Nat) : Mach := { m with msi := m.msi ++ [(fn, v)] }

/-- Let the clocks run: a reading finds both advanced by free amounts (16 R283). -/
def Mach.tickOn (m : Mach) : Mach :=
  { m with tick := m.tick + 1, clk := m.clk + Config.clockStep m.tick, ns := m.ns + Config.nsStep m.tick }

/-- The team of a core (01 R10). -/
def teamOf (core : Nat) : Nat := core / 8

/-- The members a wide instruction of a warp has (04 R86): itself, its set, or the live warps of its block. -/
def Mach.members (m : Mach) (k sc : Nat) : List Nat :=
  let w := m.warp k
  match sc with
  | 2 =>
    match w.set with
    | some i => (m.setMembers w.block i).filter (fun j => (m.warp j).isLive)
    | none => [k]
  | 3 => m.liveOf w.block
  | _ => [k]

/-- The warp whose registers an instruction reads for all its members (04 R92): member 0 of the set, warp 0 of the block,
each of them even after its exit; else the warp itself. -/
def Mach.lead (m : Mach) (sc k : Nat) : Nat :=
  let w := m.warp k
  match sc with
  | 2 => match w.set with
    | some i => (m.setMembers w.block i).headD k
    | none => k
  | 3 => warpKey w.block 0
  | _ => k

/-- The members whose tiles and windows a set-scope instruction names (04 R92, R95): those that have exited and still stand
in the set among them, in index order. At warp scope the warp itself. -/
def Mach.allMembers (m : Mach) (sc k : Nat) : List Nat :=
  let w := m.warp k
  match sc, w.set with
  | 2, some i => m.setMembers w.block i
  | _, _ => [k]

end Sys2Proof.Machine
end

