-- ==== Sys2Proof/Machine/Flags.lean ====
section
/-!
DEFINITION. FFLAGS and FMODE (02 R25 to R28).
-/

namespace Sys2Proof.Machine

/-- Exception flags of one operation (02 R25). -/
structure FFlags where
  nv : Bool := false
  dz : Bool := false
  of_ : Bool := false
  uf : Bool := false
  nx : Bool := false
  deriving DecidableEq, Repr, Inhabited

/-- The flags as bits 4 to 0 of FFLAGS (02 R25). -/
def FFlags.bits (f : FFlags) : Word :=
  BitVec.ofNat 32 (16 * f.nv.toNat + 8 * f.dz.toNat + 4 * f.of_.toNat + 2 * f.uf.toNat + f.nx.toNat)

/-- Rounding modes (02 R25). -/
inductive RMode where
  | rne | rtz | rup | rdn
  deriving DecidableEq, Repr, Inhabited

/-- The rounding mode that FMODE holds (02 R25). -/
def Warp.mode (w : Warp) : RMode :=
  match w.fmode.toNat % 4 with
  | 0 => .rne
  | 1 => .rtz
  | 2 => .rup
  | _ => .rdn

/-- Flags are sticky: an instruction ORs in what it raises (02 R28). -/
def Warp.orFlags (w : Warp) (f : Word) : Warp := { w with fflags := w.fflags ||| f }

end Sys2Proof.Machine
end

