-- ==== Sys2Proof/WellFormed.lean ====
section
/-!
DEFINITION. Which operand values make an instruction ILLEGAL (03 R54 to R60, R66; 02 R23, R42; 11 R206): the part of R66
that the fixed fields of an encoding do not settle. An event has no encoding and is always well formed.
-/

namespace Sys2Proof

/-- At lane scope a destination names v0 to v47; 48 to 63 is ILLEGAL (03 R58). -/
def laneDst (sc : BitVec 1) (d : BitVec 6) : Bool := sc != 0 || decide (d < 48)

/-- A 64-bit value is named by an even register (02 R23). -/
def isPair (r : BitVec 6) : Bool := r.toNat % 2 == 0

/-- A 16-byte value is named by a register that is a multiple of four (02 R23). -/
def isQuad (r : BitVec 6) : Bool := r.toNat % 4 == 0

/-- The data register of a size code (03 R63). -/
def sizeReg (z : BitVec 3) (r : BitVec 6) : Bool :=
  if z == 3 then isPair r else if z == 4 then isQuad r else true

/-- A 6-bit predicate source holds 0 to 7 (03 R60). -/
def predSrc (p : BitVec 6) : Bool := decide (p < 8)

/-- A 6-bit predicate destination holds 1 to 7 (03 R60). -/
def predDst (p : BitVec 6) : Bool := decide (p < 8) && p != 0

/-- The scopes of a form listed W S (03 R65). -/
def setOrWarp (sc : BitVec 2) : Bool := sc == 1 || sc == 2

/-- A token needs a future register and the register after it (11 R206). -/
def tokenOk (t : BitVec 1) (fu : BitVec 6) : Bool := t == 0 || (fu != 0 && fu != 63)

/-- The operand values of an instruction are not ILLEGAL (03 R66). -/
def Instr.wf : Instr → Bool
  | .iadd x => laneDst x.sc x.d
  | .isub x => laneDst x.sc x.d
  | .iadds x => laneDst x.sc x.d
  | .isubs x => laneDst x.sc x.d
  | .imul x => laneDst x.sc x.d
  | .imulh x => laneDst x.sc x.d
  | .imulhu x => laneDst x.sc x.d
  | .iabsd x => laneDst x.sc x.d
  | .imin x => laneDst x.sc x.d
  | .imax x => laneDst x.sc x.d
  | .umin x => laneDst x.sc x.d
  | .umax x => laneDst x.sc x.d
  | .andB x => laneDst x.sc x.d
  | .orB x => laneDst x.sc x.d
  | .xorB x => laneDst x.sc x.d
  | .andn x => laneDst x.sc x.d
  | .shl x => laneDst x.sc x.d
  | .shr x => laneDst x.sc x.d
  | .sar x => laneDst x.sc x.d
  | .rol x => laneDst x.sc x.d
  | .clz x => laneDst x.sc x.d
  | .popc x => laneDst x.sc x.d
  | .brev x => laneDst x.sc x.d
  | .iabs x => laneDst x.sc x.d
  | .icmp x => x.pd != 0 && x.f != 3
  | .sel x => laneDst x.sc x.d
  | .mov x => laneDst x.sc x.d
  | .p2v x => decide (x.d < 48) && predSrc x.a
  | .v2p x => predDst x.d
  | .bfx x => laneDst x.sc x.d
  | .bfxu x => laneDst x.sc x.d
  | .bfi x => laneDst x.sc x.d
  | .imla x => laneDst x.sc x.d
  | .iaddmin x => laneDst x.sc x.d
  | .isum3 x => laneDst x.sc x.d
  | .iaddi x => laneDst x.sc x.d
  | .andi x => laneDst x.sc x.d
  | .ori x => laneDst x.sc x.d
  | .xori x => laneDst x.sc x.d
  | .shli x => laneDst x.sc x.d
  | .shri x => laneDst x.sc x.d
  | .sari x => laneDst x.sc x.d
  | .roli x => laneDst x.sc x.d
  | .movi x => laneDst x.sc x.d
  | .movhi x => laneDst x.sc x.d
  | .icmpi x => x.pd != 0
  | .pand x => predDst x.d && predSrc x.a && predSrc x.b
  | .por x => predDst x.d && predSrc x.a && predSrc x.b
  | .pxor x => predDst x.d && predSrc x.a && predSrc x.b
  | .pnot x => predDst x.d && predSrc x.a
  | .xlnBack x => decide (x.d < 48)
  | .xlnFwd x => decide (x.d < 48)
  | .xlnFlip x => decide (x.d < 48)
  | .xlnFrom x => decide (x.d < 48)
  | .pgatEvery x => predSrc x.a
  | .pgatSome x => predSrc x.a
  | .pgatMask x => predSrc x.a
  | .pgatLive _ => true
  | .redxAdd _ => true
  | .redxSmin _ => true
  | .redxSmax _ => true
  | .redxFadd _ => true
  | .scanAdd x => decide (x.d < 48)
  | .scanXadd x => decide (x.d < 48)
  | .scanMax x => decide (x.d < 48)
  | .scanMin x => decide (x.d < 48)
  | .fadd x => laneDst x.sc x.d
  | .fsub x => laneDst x.sc x.d
  | .fmul x => laneDst x.sc x.d
  | .fdiv x => laneDst x.sc x.d
  | .fmin x => laneDst x.sc x.d
  | .fmax x => laneDst x.sc x.d
  | .fminm x => laneDst x.sc x.d
  | .fmaxm x => laneDst x.sc x.d
  | .fabs x => laneDst x.sc x.d
  | .fneg x => laneDst x.sc x.d
  | .fsqrt x => laneDst x.sc x.d
  | .frcp x => laneDst x.sc x.d
  | .frsq x => laneDst x.sc x.d
  | .fexp2 x => laneDst x.sc x.d
  | .flog2 x => laneDst x.sc x.d
  | .ffloor x => laneDst x.sc x.d
  | .fceil x => laneDst x.sc x.d
  | .ftrunc x => laneDst x.sc x.d
  | .frint x => laneDst x.sc x.d
  | .fcmp x => x.pd != 0 && x.f != 3
  | .ffma x => laneDst x.sc x.d
  | .ffms x => laneDst x.sc x.d
  | .i2f x => laneDst x.sc x.d
  | .u2f x => laneDst x.sc x.d
  | .f2i x => laneDst x.sc x.d
  | .f2u x => laneDst x.sc x.d
  | .f2h x => laneDst x.sc x.d
  | .f2hh x => laneDst x.sc x.d
  | .h2f x => laneDst x.sc x.d
  | .h2fh x => laneDst x.sc x.d
  | .f2bf x => laneDst x.sc x.d
  | .f2bfh x => laneDst x.sc x.d
  | .bf2f x => laneDst x.sc x.d
  | .bf2fh x => laneDst x.sc x.d
  | .f2e4 x => laneDst x.sc x.d
  | .e42f x => laneDst x.sc x.d
  | .f2e5 x => laneDst x.sc x.d
  | .e52f x => laneDst x.sc x.d
  | .f2lg x => laneDst x.sc x.d
  | .lg2f x => laneDst x.sc x.d
  | .f2i8 x => laneDst x.sc x.d
  | .i82f x => laneDst x.sc x.d
  | .hadd2 x => laneDst x.sc x.d
  | .hmul2 x => laneDst x.sc x.d
  | .badd2 x => laneDst x.sc x.d
  | .bmul2 x => laneDst x.sc x.d
  | .hfma2 x => laneDst x.sc x.d
  | .bfma2 x => laneDst x.sc x.d
  | .ld x => x.z != 7 && laneDst x.sc x.d && sizeReg x.z x.d
  | .st x => x.z != 7 && sizeReg x.z x.d
  | .ldp x => x.z != 7 && laneDst x.sc x.d && sizeReg x.z x.d
  | .ldr x => x.z != 7 && laneDst x.sc x.d && sizeReg x.z x.d
  | .atomAdd x => laneDst x.sc x.d
  | .atomSub x => laneDst x.sc x.d
  | .atomSmin x => laneDst x.sc x.d
  | .atomSmax x => laneDst x.sc x.d
  | .atomUmin x => laneDst x.sc x.d
  | .atomUmax x => laneDst x.sc x.d
  | .atomAnd x => laneDst x.sc x.d
  | .atomOr x => laneDst x.sc x.d
  | .atomXor x => laneDst x.sc x.d
  | .atomExch x => laneDst x.sc x.d
  | .atomFadd x => laneDst x.sc x.d
  | .atomInc x => laneDst x.sc x.d
  | .atomAdd64 x => laneDst x.sc x.d && isPair x.d
  | .atomExch64 x => laneDst x.sc x.d && isPair x.d
  | .cas x => laneDst x.sc x.d && (if x.z == 0 then isPair x.d else isQuad x.d)
  | .snap x => decide (x.d < 48)
  | .fenceEng => true
  | .fenceIo => true
  | .copy x => setOrWarp x.sc && tokenOk x.t x.fu
  | .gath x => setOrWarp x.sc && tokenOk x.t x.fu && decide (x.iv < 48)
  | .scat x => setOrWarp x.sc && tokenOk x.t x.fu && decide (x.iv < 48)
  | .coll x => x.sc != 0 && x.fu != 0 && tokenOk x.t x.fu && x.kind != 3 && x.red != 3 && (x.kind != 1 || x.red == 0) && decide (x.fmt < 4) && isQuad x.rb
  | .cwait x => setOrWarp x.sc && decide (x.a < 4)
  | .ftest _ => true
  | .fcancel _ => true
  | .fwait _ => true
  | .tld x => laneDst x.sc x.a
  | .tst _ => true
  | .tzero x => setOrWarp x.sc
  | .tfree x => setOrWarp x.sc
  | .tstate x => setOrWarp x.sc
  | .tmark x => setOrWarp x.sc
  | .arrive x => setOrWarp x.sc
  | .await x => setOrWarp x.sc
  | .mma x => x.m != 3
  | .drain x => x.col != 3 && (x.dk != 0 || (x.fl == 0 && x.col == 0 && x.row == 0))
  | .azero x => setOrWarp x.sc
  | .asave x => setOrWarp x.sc
  | .aload x => setOrWarp x.sc
  | .astat x => setOrWarp x.sc
  | .bra _ => true
  | .call _ => true
  | .brx _ => true
  | .callx _ => true
  | .nop _ => true
  | .ret _ => true
  | .exitT _ => true
  | .join => true
  | .yield => true
  | .pyield => true
  | .jpt _ => true
  | .sjoin x => decide (x.b < 8) && decide (1 ≤ x.c) && decide (x.c ≤ 4)
  | .sleave _ => true
  | .sinfo x => isPair x.a && (decide (x.b < 8) || x.b == 63)
  | .bar _ => true
  | .gbar => true
  | .launch _ => true
  | .arm x => isPair x.c
  | .disarm _ => true
  | .vcreate x => isPair x.a && isPair x.b && isQuad x.c
  | .vopen x => isPair x.a && isPair x.b && (x.c == 0 || x.c == 1 || x.c == 3)
  | .vhand _ => true
  | .vdrop x => isPair x.b
  | .vquery x => isQuad x.a && isPair x.b
  | .vdup x => isPair x.a && isPair x.b
  | .trap _ => true
  | .brk _ => true
  | .srd _ => true
  | .swr _ => true
  | .clk x => isPair x.a && decide (x.b ≤ 1)
  | .grow x => decide (x.b ≤ 2) && decide (1 ≤ x.c)
  | .shrink x => decide (x.b ≤ 2) && decide (1 ≤ x.c)
  | .tret _ => true
  | .sample _ => true
  | _ => true

end Sys2Proof
end

