-- ==== Sys2Proof/Decode.lean ====
section
/-!
DEFINITION. The decoder and the encoder (03 R53 to R56, R65, R66), from the encoding tables of spec/. The decoder is total
on words and on bytes and rejects by name. What an operand value makes ILLEGAL (03 R54 to R60) is Instr.wf, which the
pipeline checks first (03 R67).
-/

namespace Sys2Proof

/-- Why words are no instruction (03 R66). -/
inductive DecodeError where
  /-- Majors 0x00 and 0x3D: every word faults ILLEGAL. -/
  | reservedMajor
  /-- No row of the major has these fixed fields: an unassigned function, an unlisted scope or a nonzero reserved field. -/
  | noForm
  /-- Fewer bytes than the instruction has. -/
  | short
  deriving DecidableEq, Repr

/-- The major opcode of word 1 (03 R53). -/
def majorOf (n : Nat) : Nat := n / 2 ^ 26 % 64

/-- Formats E and X have a second word: majors 0x2A to 0x2D, 0x34 and 0x35 (03 R51, R56). -/
def twoWords (n : Nat) : Bool :=
  (0x2A ≤ majorOf n && majorOf n ≤ 0x2D) || majorOf n == 0x34 || majorOf n == 0x35

/-- The w bits of a word from bit lo up. -/
def fieldAt (n lo w : Nat) : Nat := n / 2 ^ lo % 2 ^ w

/-- The fields of format FA3 read from word 1. -/
def FA3.ofNat (n : Nat) : FA3 :=
  { sc := BitVec.ofNat 1 (n / 2 ^ 24), d := BitVec.ofNat 6 (n / 2 ^ 18), a := BitVec.ofNat 6 (n / 2 ^ 12), b := BitVec.ofNat 6 (n / 2 ^ 6), h := BitVec.ofNat 1 (n / 2 ^ 5), g := BitVec.ofNat 3 (n / 2 ^ 2) }

/-- The field bits of format FA3. -/
def FA3.bits (x : FA3) : Nat :=
  x.sc.toNat * 2 ^ 24 + x.d.toNat * 2 ^ 18 + x.a.toNat * 2 ^ 12 + x.b.toNat * 2 ^ 6 + x.h.toNat * 2 ^ 5 + x.g.toNat * 2 ^ 2

/-- The fields of format FA2 read from word 1. -/
def FA2.ofNat (n : Nat) : FA2 :=
  { sc := BitVec.ofNat 1 (n / 2 ^ 24), d := BitVec.ofNat 6 (n / 2 ^ 18), a := BitVec.ofNat 6 (n / 2 ^ 12), h := BitVec.ofNat 1 (n / 2 ^ 5), g := BitVec.ofNat 3 (n / 2 ^ 2) }

/-- The field bits of format FA2. -/
def FA2.bits (x : FA2) : Nat :=
  x.sc.toNat * 2 ^ 24 + x.d.toNat * 2 ^ 18 + x.a.toNat * 2 ^ 12 + x.h.toNat * 2 ^ 5 + x.g.toNat * 2 ^ 2

/-- The fields of format FA2K read from word 1. -/
def FA2K.ofNat (n : Nat) : FA2K :=
  { sc := BitVec.ofNat 1 (n / 2 ^ 24), d := BitVec.ofNat 6 (n / 2 ^ 18), a := BitVec.ofNat 6 (n / 2 ^ 12), h := BitVec.ofNat 1 (n / 2 ^ 5), g := BitVec.ofNat 3 (n / 2 ^ 2), k := BitVec.ofNat 2 (n / 2 ^ 0) }

/-- The field bits of format FA2K. -/
def FA2K.bits (x : FA2K) : Nat :=
  x.sc.toNat * 2 ^ 24 + x.d.toNat * 2 ^ 18 + x.a.toNat * 2 ^ 12 + x.h.toNat * 2 ^ 5 + x.g.toNat * 2 ^ 2 + x.k.toNat * 2 ^ 0

/-- The fields of format FC read from word 1. -/
def FC.ofNat (n : Nat) : FC :=
  { sc := BitVec.ofNat 1 (n / 2 ^ 24), cnd := BitVec.ofNat 3 (n / 2 ^ 21), pd := BitVec.ofNat 3 (n / 2 ^ 18), a := BitVec.ofNat 6 (n / 2 ^ 12), b := BitVec.ofNat 6 (n / 2 ^ 6), h := BitVec.ofNat 1 (n / 2 ^ 5), g := BitVec.ofNat 3 (n / 2 ^ 2), f := BitVec.ofNat 2 (n / 2 ^ 0) }

/-- The field bits of format FC. -/
def FC.bits (x : FC) : Nat :=
  x.sc.toNat * 2 ^ 24 + x.cnd.toNat * 2 ^ 21 + x.pd.toNat * 2 ^ 18 + x.a.toNat * 2 ^ 12 + x.b.toNat * 2 ^ 6 + x.h.toNat * 2 ^ 5 + x.g.toNat * 2 ^ 2 + x.f.toNat * 2 ^ 0

/-- The fields of format FCI read from word 1. -/
def FCI.ofNat (n : Nat) : FCI :=
  { sc := BitVec.ofNat 1 (n / 2 ^ 24), cnd := BitVec.ofNat 3 (n / 2 ^ 21), pd := BitVec.ofNat 3 (n / 2 ^ 18), a := BitVec.ofNat 6 (n / 2 ^ 12), imm := BitVec.ofNat 12 (n / 2 ^ 0) }

/-- The field bits of format FCI. -/
def FCI.bits (x : FCI) : Nat :=
  x.sc.toNat * 2 ^ 24 + x.cnd.toNat * 2 ^ 21 + x.pd.toNat * 2 ^ 18 + x.a.toNat * 2 ^ 12 + x.imm.toNat * 2 ^ 0

/-- The fields of format FQ read from word 1. -/
def FQ.ofNat (n : Nat) : FQ :=
  { sc := BitVec.ofNat 1 (n / 2 ^ 24), d := BitVec.ofNat 6 (n / 2 ^ 18), a := BitVec.ofNat 6 (n / 2 ^ 12), b := BitVec.ofNat 6 (n / 2 ^ 6), c := BitVec.ofNat 6 (n / 2 ^ 0) }

/-- The field bits of format FQ. -/
def FQ.bits (x : FQ) : Nat :=
  x.sc.toNat * 2 ^ 24 + x.d.toNat * 2 ^ 18 + x.a.toNat * 2 ^ 12 + x.b.toNat * 2 ^ 6 + x.c.toNat * 2 ^ 0

/-- The fields of format FI read from word 1. -/
def FI.ofNat (n : Nat) : FI :=
  { sc := BitVec.ofNat 1 (n / 2 ^ 24), d := BitVec.ofNat 6 (n / 2 ^ 18), a := BitVec.ofNat 6 (n / 2 ^ 12), imm := BitVec.ofNat 12 (n / 2 ^ 0) }

/-- The field bits of format FI. -/
def FI.bits (x : FI) : Nat :=
  x.sc.toNat * 2 ^ 24 + x.d.toNat * 2 ^ 18 + x.a.toNat * 2 ^ 12 + x.imm.toNat * 2 ^ 0

/-- The fields of format FK10 read from word 1. -/
def FK10.ofNat (n : Nat) : FK10 :=
  { sc := BitVec.ofNat 1 (n / 2 ^ 24), d := BitVec.ofNat 6 (n / 2 ^ 18), a := BitVec.ofNat 6 (n / 2 ^ 12), imm := BitVec.ofNat 10 (n / 2 ^ 0) }

/-- The field bits of format FK10. -/
def FK10.bits (x : FK10) : Nat :=
  x.sc.toNat * 2 ^ 24 + x.d.toNat * 2 ^ 18 + x.a.toNat * 2 ^ 12 + x.imm.toNat * 2 ^ 0

/-- The fields of format FK5 read from word 1. -/
def FK5.ofNat (n : Nat) : FK5 :=
  { sc := BitVec.ofNat 1 (n / 2 ^ 24), d := BitVec.ofNat 6 (n / 2 ^ 18), a := BitVec.ofNat 6 (n / 2 ^ 12), imm := BitVec.ofNat 5 (n / 2 ^ 0) }

/-- The field bits of format FK5. -/
def FK5.bits (x : FK5) : Nat :=
  x.sc.toNat * 2 ^ 24 + x.d.toNat * 2 ^ 18 + x.a.toNat * 2 ^ 12 + x.imm.toNat * 2 ^ 0

/-- The fields of format FL18 read from word 1. -/
def FL18.ofNat (n : Nat) : FL18 :=
  { sc := BitVec.ofNat 1 (n / 2 ^ 24), d := BitVec.ofNat 6 (n / 2 ^ 18), imm := BitVec.ofNat 18 (n / 2 ^ 0) }

/-- The field bits of format FL18. -/
def FL18.bits (x : FL18) : Nat :=
  x.sc.toNat * 2 ^ 24 + x.d.toNat * 2 ^ 18 + x.imm.toNat * 2 ^ 0

/-- The fields of format FL14 read from word 1. -/
def FL14.ofNat (n : Nat) : FL14 :=
  { sc := BitVec.ofNat 1 (n / 2 ^ 24), d := BitVec.ofNat 6 (n / 2 ^ 18), imm := BitVec.ofNat 14 (n / 2 ^ 0) }

/-- The field bits of format FL14. -/
def FL14.bits (x : FL14) : Nat :=
  x.sc.toNat * 2 ^ 24 + x.d.toNat * 2 ^ 18 + x.imm.toNat * 2 ^ 0

/-- The fields of format FDAG read from word 1. -/
def FDAG.ofNat (n : Nat) : FDAG :=
  { d := BitVec.ofNat 6 (n / 2 ^ 18), a := BitVec.ofNat 6 (n / 2 ^ 12), g := BitVec.ofNat 3 (n / 2 ^ 2) }

/-- The field bits of format FDAG. -/
def FDAG.bits (x : FDAG) : Nat :=
  x.d.toNat * 2 ^ 18 + x.a.toNat * 2 ^ 12 + x.g.toNat * 2 ^ 2

/-- The fields of format FDAHG read from word 1. -/
def FDAHG.ofNat (n : Nat) : FDAHG :=
  { d := BitVec.ofNat 6 (n / 2 ^ 18), a := BitVec.ofNat 6 (n / 2 ^ 12), h := BitVec.ofNat 1 (n / 2 ^ 5), g := BitVec.ofNat 3 (n / 2 ^ 2) }

/-- The field bits of format FDAHG. -/
def FDAHG.bits (x : FDAHG) : Nat :=
  x.d.toNat * 2 ^ 18 + x.a.toNat * 2 ^ 12 + x.h.toNat * 2 ^ 5 + x.g.toNat * 2 ^ 2

/-- The fields of format FDABG read from word 1. -/
def FDABG.ofNat (n : Nat) : FDABG :=
  { d := BitVec.ofNat 6 (n / 2 ^ 18), a := BitVec.ofNat 6 (n / 2 ^ 12), b := BitVec.ofNat 6 (n / 2 ^ 6), g := BitVec.ofNat 3 (n / 2 ^ 2) }

/-- The field bits of format FDABG. -/
def FDABG.bits (x : FDABG) : Nat :=
  x.d.toNat * 2 ^ 18 + x.a.toNat * 2 ^ 12 + x.b.toNat * 2 ^ 6 + x.g.toNat * 2 ^ 2

/-- The fields of format FDABHG read from word 1. -/
def FDABHG.ofNat (n : Nat) : FDABHG :=
  { d := BitVec.ofNat 6 (n / 2 ^ 18), a := BitVec.ofNat 6 (n / 2 ^ 12), b := BitVec.ofNat 6 (n / 2 ^ 6), h := BitVec.ofNat 1 (n / 2 ^ 5), g := BitVec.ofNat 3 (n / 2 ^ 2) }

/-- The field bits of format FDABHG. -/
def FDABHG.bits (x : FDABHG) : Nat :=
  x.d.toNat * 2 ^ 18 + x.a.toNat * 2 ^ 12 + x.b.toNat * 2 ^ 6 + x.h.toNat * 2 ^ 5 + x.g.toNat * 2 ^ 2

/-- The fields of format FDG read from word 1. -/
def FDG.ofNat (n : Nat) : FDG :=
  { d := BitVec.ofNat 6 (n / 2 ^ 18), g := BitVec.ofNat 3 (n / 2 ^ 2) }

/-- The field bits of format FDG. -/
def FDG.bits (x : FDG) : Nat :=
  x.d.toNat * 2 ^ 18 + x.g.toNat * 2 ^ 2

/-- The fields of format FM read from word 1. -/
def FM.ofNat (n : Nat) : FM :=
  { sc := BitVec.ofNat 1 (n / 2 ^ 24), d := BitVec.ofNat 6 (n / 2 ^ 18), o := BitVec.ofNat 6 (n / 2 ^ 12), h := BitVec.ofNat 6 (n / 2 ^ 6), z := BitVec.ofNat 3 (n / 2 ^ 3), g := BitVec.ofNat 3 (n / 2 ^ 0) }

/-- The field bits of format FM. -/
def FM.bits (x : FM) : Nat :=
  x.sc.toNat * 2 ^ 24 + x.d.toNat * 2 ^ 18 + x.o.toNat * 2 ^ 12 + x.h.toNat * 2 ^ 6 + x.z.toNat * 2 ^ 3 + x.g.toNat * 2 ^ 0

/-- The fields of format FMA read from word 1. -/
def FMA.ofNat (n : Nat) : FMA :=
  { sc := BitVec.ofNat 1 (n / 2 ^ 24), d := BitVec.ofNat 6 (n / 2 ^ 18), o := BitVec.ofNat 6 (n / 2 ^ 12), h := BitVec.ofNat 6 (n / 2 ^ 6) }

/-- The field bits of format FMA. -/
def FMA.bits (x : FMA) : Nat :=
  x.sc.toNat * 2 ^ 24 + x.d.toNat * 2 ^ 18 + x.o.toNat * 2 ^ 12 + x.h.toNat * 2 ^ 6

/-- The fields of format FCAS read from word 1. -/
def FCAS.ofNat (n : Nat) : FCAS :=
  { sc := BitVec.ofNat 1 (n / 2 ^ 24), d := BitVec.ofNat 6 (n / 2 ^ 18), o := BitVec.ofNat 6 (n / 2 ^ 12), h := BitVec.ofNat 6 (n / 2 ^ 6), z := BitVec.ofNat 1 (n / 2 ^ 3), g := BitVec.ofNat 3 (n / 2 ^ 0) }

/-- The field bits of format FCAS. -/
def FCAS.bits (x : FCAS) : Nat :=
  x.sc.toNat * 2 ^ 24 + x.d.toNat * 2 ^ 18 + x.o.toNat * 2 ^ 12 + x.h.toNat * 2 ^ 6 + x.z.toNat * 2 ^ 3 + x.g.toNat * 2 ^ 0

/-- The fields of format FSNAP read from word 1. -/
def FSNAP.ofNat (n : Nat) : FSNAP :=
  { d := BitVec.ofNat 6 (n / 2 ^ 18), o := BitVec.ofNat 6 (n / 2 ^ 12), h := BitVec.ofNat 6 (n / 2 ^ 6), g := BitVec.ofNat 3 (n / 2 ^ 0) }

/-- The field bits of format FSNAP. -/
def FSNAP.bits (x : FSNAP) : Nat :=
  x.d.toNat * 2 ^ 18 + x.o.toNat * 2 ^ 12 + x.h.toNat * 2 ^ 6 + x.g.toNat * 2 ^ 0

/-- The fields of format FSAB read from word 1. -/
def FSAB.ofNat (n : Nat) : FSAB :=
  { sc := BitVec.ofNat 2 (n / 2 ^ 24), a := BitVec.ofNat 6 (n / 2 ^ 12), b := BitVec.ofNat 6 (n / 2 ^ 6) }

/-- The field bits of format FSAB. -/
def FSAB.bits (x : FSAB) : Nat :=
  x.sc.toNat * 2 ^ 24 + x.a.toNat * 2 ^ 12 + x.b.toNat * 2 ^ 6

/-- The fields of format FSABC read from word 1. -/
def FSABC.ofNat (n : Nat) : FSABC :=
  { sc := BitVec.ofNat 2 (n / 2 ^ 24), a := BitVec.ofNat 6 (n / 2 ^ 12), b := BitVec.ofNat 6 (n / 2 ^ 6), c := BitVec.ofNat 6 (n / 2 ^ 0) }

/-- The field bits of format FSABC. -/
def FSABC.bits (x : FSABC) : Nat :=
  x.sc.toNat * 2 ^ 24 + x.a.toNat * 2 ^ 12 + x.b.toNat * 2 ^ 6 + x.c.toNat * 2 ^ 0

/-- The fields of format FSC read from word 1. -/
def FSC.ofNat (n : Nat) : FSC :=
  { sc := BitVec.ofNat 2 (n / 2 ^ 24), c := BitVec.ofNat 6 (n / 2 ^ 0) }

/-- The field bits of format FSC. -/
def FSC.bits (x : FSC) : Nat :=
  x.sc.toNat * 2 ^ 24 + x.c.toNat * 2 ^ 0

/-- The fields of format FSAC read from word 1. -/
def FSAC.ofNat (n : Nat) : FSAC :=
  { sc := BitVec.ofNat 2 (n / 2 ^ 24), a := BitVec.ofNat 6 (n / 2 ^ 12), c := BitVec.ofNat 6 (n / 2 ^ 0) }

/-- The field bits of format FSAC. -/
def FSAC.bits (x : FSAC) : Nat :=
  x.sc.toNat * 2 ^ 24 + x.a.toNat * 2 ^ 12 + x.c.toNat * 2 ^ 0

/-- The fields of format FSBC read from word 1. -/
def FSBC.ofNat (n : Nat) : FSBC :=
  { sc := BitVec.ofNat 2 (n / 2 ^ 24), b := BitVec.ofNat 6 (n / 2 ^ 6), c := BitVec.ofNat 6 (n / 2 ^ 0) }

/-- The field bits of format FSBC. -/
def FSBC.bits (x : FSBC) : Nat :=
  x.sc.toNat * 2 ^ 24 + x.b.toNat * 2 ^ 6 + x.c.toNat * 2 ^ 0

/-- The fields of format FTL read from word 1. -/
def FTL.ofNat (n : Nat) : FTL :=
  { sc := BitVec.ofNat 1 (n / 2 ^ 24), a := BitVec.ofNat 6 (n / 2 ^ 12), b := BitVec.ofNat 6 (n / 2 ^ 6), c := BitVec.ofNat 6 (n / 2 ^ 0) }

/-- The field bits of format FTL. -/
def FTL.bits (x : FTL) : Nat :=
  x.sc.toNat * 2 ^ 24 + x.a.toNat * 2 ^ 12 + x.b.toNat * 2 ^ 6 + x.c.toNat * 2 ^ 0

/-- The fields of format FAB read from word 1. -/
def FAB.ofNat (n : Nat) : FAB :=
  { a := BitVec.ofNat 6 (n / 2 ^ 12), b := BitVec.ofNat 6 (n / 2 ^ 6) }

/-- The field bits of format FAB. -/
def FAB.bits (x : FAB) : Nat :=
  x.a.toNat * 2 ^ 12 + x.b.toNat * 2 ^ 6

/-- The fields of format FABC read from word 1. -/
def FABC.ofNat (n : Nat) : FABC :=
  { a := BitVec.ofNat 6 (n / 2 ^ 12), b := BitVec.ofNat 6 (n / 2 ^ 6), c := BitVec.ofNat 6 (n / 2 ^ 0) }

/-- The field bits of format FABC. -/
def FABC.bits (x : FABC) : Nat :=
  x.a.toNat * 2 ^ 12 + x.b.toNat * 2 ^ 6 + x.c.toNat * 2 ^ 0

/-- The fields of format FOA read from word 1. -/
def FOA.ofNat (n : Nat) : FOA :=
  { a := BitVec.ofNat 6 (n / 2 ^ 12) }

/-- The field bits of format FOA. -/
def FOA.bits (x : FOA) : Nat :=
  x.a.toNat * 2 ^ 12

/-- The fields of format FJ read from word 1. -/
def FJ.ofNat (n : Nat) : FJ :=
  { sc := BitVec.ofNat 1 (n / 2 ^ 24), g := BitVec.ofNat 3 (n / 2 ^ 21), off := BitVec.ofNat 20 (n / 2 ^ 0) }

/-- The field bits of format FJ. -/
def FJ.bits (x : FJ) : Nat :=
  x.sc.toNat * 2 ^ 24 + x.g.toNat * 2 ^ 21 + x.off.toNat * 2 ^ 0

/-- The fields of format FJX read from word 1. -/
def FJX.ofNat (n : Nat) : FJX :=
  { sc := BitVec.ofNat 1 (n / 2 ^ 24), a := BitVec.ofNat 6 (n / 2 ^ 12), h := BitVec.ofNat 1 (n / 2 ^ 5), g := BitVec.ofNat 3 (n / 2 ^ 2) }

/-- The field bits of format FJX. -/
def FJX.bits (x : FJX) : Nat :=
  x.sc.toNat * 2 ^ 24 + x.a.toNat * 2 ^ 12 + x.h.toNat * 2 ^ 5 + x.g.toNat * 2 ^ 2

/-- The fields of format FJP read from word 1. -/
def FJP.ofNat (n : Nat) : FJP :=
  { sc := BitVec.ofNat 1 (n / 2 ^ 24), off := BitVec.ofNat 20 (n / 2 ^ 0) }

/-- The field bits of format FJP. -/
def FJP.bits (x : FJP) : Nat :=
  x.sc.toNat * 2 ^ 24 + x.off.toNat * 2 ^ 0

/-- The fields of format FSC2 read from word 1. -/
def FSC2.ofNat (n : Nat) : FSC2 :=
  { sc := BitVec.ofNat 2 (n / 2 ^ 24) }

/-- The field bits of format FSC2. -/
def FSC2.bits (x : FSC2) : Nat :=
  x.sc.toNat * 2 ^ 24

/-- The fields of format FSC1 read from word 1. -/
def FSC1.ofNat (n : Nat) : FSC1 :=
  { sc := BitVec.ofNat 1 (n / 2 ^ 24) }

/-- The field bits of format FSC1. -/
def FSC1.bits (x : FSC1) : Nat :=
  x.sc.toNat * 2 ^ 24

/-- The fields of format FVABC read from word 1. -/
def FVABC.ofNat (n : Nat) : FVABC :=
  { sc := BitVec.ofNat 1 (n / 2 ^ 25), a := BitVec.ofNat 6 (n / 2 ^ 12), b := BitVec.ofNat 6 (n / 2 ^ 6), c := BitVec.ofNat 6 (n / 2 ^ 0) }

/-- The field bits of format FVABC. -/
def FVABC.bits (x : FVABC) : Nat :=
  x.sc.toNat * 2 ^ 25 + x.a.toNat * 2 ^ 12 + x.b.toNat * 2 ^ 6 + x.c.toNat * 2 ^ 0

/-- The fields of format FVAB read from word 1. -/
def FVAB.ofNat (n : Nat) : FVAB :=
  { sc := BitVec.ofNat 1 (n / 2 ^ 25), a := BitVec.ofNat 6 (n / 2 ^ 12), b := BitVec.ofNat 6 (n / 2 ^ 6) }

/-- The field bits of format FVAB. -/
def FVAB.bits (x : FVAB) : Nat :=
  x.sc.toNat * 2 ^ 25 + x.a.toNat * 2 ^ 12 + x.b.toNat * 2 ^ 6

/-- The fields of format FTRAP read from word 1. -/
def FTRAP.ofNat (n : Nat) : FTRAP :=
  { sc := BitVec.ofNat 1 (n / 2 ^ 24), code := BitVec.ofNat 12 (n / 2 ^ 0) }

/-- The field bits of format FTRAP. -/
def FTRAP.bits (x : FTRAP) : Nat :=
  x.sc.toNat * 2 ^ 24 + x.code.toNat * 2 ^ 0

/-- The fields of format FBRK read from word 1. -/
def FBRK.ofNat (n : Nat) : FBRK :=
  { code := BitVec.ofNat 12 (n / 2 ^ 0) }

/-- The field bits of format FBRK. -/
def FBRK.bits (x : FBRK) : Nat :=
  x.code.toNat * 2 ^ 0

/-- The fields of format FCOPY read from two words. -/
def FCOPY.ofNat (n m : Nat) : FCOPY :=
  { sc := BitVec.ofNat 2 (n / 2 ^ 24), fu := BitVec.ofNat 6 (n / 2 ^ 18), t := BitVec.ofNat 1 (n / 2 ^ 17), dir := BitVec.ofNat 1 (n / 2 ^ 16), fl := BitVec.ofNat 1 (n / 2 ^ 15), cr := BitVec.ofNat 6 (n / 2 ^ 6), tr := BitVec.ofNat 6 (n / 2 ^ 0), lay := BitVec.ofNat 8 (m / 2 ^ 24) }

/-- The field bits of word 1 of format FCOPY. -/
def FCOPY.bits (x : FCOPY) : Nat :=
  x.sc.toNat * 2 ^ 24 + x.fu.toNat * 2 ^ 18 + x.t.toNat * 2 ^ 17 + x.dir.toNat * 2 ^ 16 + x.fl.toNat * 2 ^ 15 + x.cr.toNat * 2 ^ 6 + x.tr.toNat * 2 ^ 0

/-- Word 2 of format FCOPY. -/
def FCOPY.bits2 (x : FCOPY) : Nat :=
  x.lay.toNat * 2 ^ 24

/-- The fields of format FGATH read from two words. -/
def FGATH.ofNat (n m : Nat) : FGATH :=
  { sc := BitVec.ofNat 2 (n / 2 ^ 24), fu := BitVec.ofNat 6 (n / 2 ^ 18), t := BitVec.ofNat 1 (n / 2 ^ 17), fl := BitVec.ofNat 1 (n / 2 ^ 15), iv := BitVec.ofNat 6 (n / 2 ^ 6), tr := BitVec.ofNat 6 (n / 2 ^ 0), lay := BitVec.ofNat 8 (m / 2 ^ 24), c0 := BitVec.ofNat 6 (m / 2 ^ 18) }

/-- The field bits of word 1 of format FGATH. -/
def FGATH.bits (x : FGATH) : Nat :=
  x.sc.toNat * 2 ^ 24 + x.fu.toNat * 2 ^ 18 + x.t.toNat * 2 ^ 17 + x.fl.toNat * 2 ^ 15 + x.iv.toNat * 2 ^ 6 + x.tr.toNat * 2 ^ 0

/-- Word 2 of format FGATH. -/
def FGATH.bits2 (x : FGATH) : Nat :=
  x.lay.toNat * 2 ^ 24 + x.c0.toNat * 2 ^ 18

/-- The fields of format FCOLL read from two words. -/
def FCOLL.ofNat (n m : Nat) : FCOLL :=
  { sc := BitVec.ofNat 2 (n / 2 ^ 24), fu := BitVec.ofNat 6 (n / 2 ^ 18), t := BitVec.ofNat 1 (n / 2 ^ 17), kind := BitVec.ofNat 2 (n / 2 ^ 15), red := BitVec.ofNat 2 (n / 2 ^ 13), fmt := BitVec.ofNat 3 (n / 2 ^ 10), grp := BitVec.ofNat 8 (m / 2 ^ 24), rb := BitVec.ofNat 6 (m / 2 ^ 18) }

/-- The field bits of word 1 of format FCOLL. -/
def FCOLL.bits (x : FCOLL) : Nat :=
  x.sc.toNat * 2 ^ 24 + x.fu.toNat * 2 ^ 18 + x.t.toNat * 2 ^ 17 + x.kind.toNat * 2 ^ 15 + x.red.toNat * 2 ^ 13 + x.fmt.toNat * 2 ^ 10

/-- Word 2 of format FCOLL. -/
def FCOLL.bits2 (x : FCOLL) : Nat :=
  x.grp.toNat * 2 ^ 24 + x.rb.toNat * 2 ^ 18

/-- The fields of format FMMA read from two words. -/
def FMMA.ofNat (n m : Nat) : FMMA :=
  { n := BitVec.ofNat 6 (n / 2 ^ 18), m := BitVec.ofNat 2 (n / 2 ^ 16), slot := BitVec.ofNat 3 (n / 2 ^ 13), ta := BitVec.ofNat 4 (n / 2 ^ 9), tb := BitVec.ofNat 4 (n / 2 ^ 5), z := BitVec.ofNat 1 (m / 2 ^ 10), c := BitVec.ofNat 10 (m / 2 ^ 0) }

/-- The field bits of word 1 of format FMMA. -/
def FMMA.bits (x : FMMA) : Nat :=
  x.n.toNat * 2 ^ 18 + x.m.toNat * 2 ^ 16 + x.slot.toNat * 2 ^ 13 + x.ta.toNat * 2 ^ 9 + x.tb.toNat * 2 ^ 5

/-- Word 2 of format FMMA. -/
def FMMA.bits2 (x : FMMA) : Nat :=
  x.z.toNat * 2 ^ 10 + x.c.toNat * 2 ^ 0

/-- The fields of format FDRAIN read from two words. -/
def FDRAIN.ofNat (n m : Nat) : FDRAIN :=
  { d := BitVec.ofNat 6 (n / 2 ^ 18), dk := BitVec.ofNat 1 (n / 2 ^ 17), fl := BitVec.ofNat 1 (n / 2 ^ 16), slot := BitVec.ofNat 3 (n / 2 ^ 13), sr := BitVec.ofNat 6 (n / 2 ^ 7), col := BitVec.ofNat 2 (m / 2 ^ 20), row := BitVec.ofNat 2 (m / 2 ^ 18), cb := BitVec.ofNat 6 (m / 2 ^ 12), rb := BitVec.ofNat 2 (m / 2 ^ 10), acc := BitVec.ofNat 10 (m / 2 ^ 0) }

/-- The field bits of word 1 of format FDRAIN. -/
def FDRAIN.bits (x : FDRAIN) : Nat :=
  x.d.toNat * 2 ^ 18 + x.dk.toNat * 2 ^ 17 + x.fl.toNat * 2 ^ 16 + x.slot.toNat * 2 ^ 13 + x.sr.toNat * 2 ^ 7

/-- Word 2 of format FDRAIN. -/
def FDRAIN.bits2 (x : FDRAIN) : Nat :=
  x.col.toNat * 2 ^ 20 + x.row.toNat * 2 ^ 18 + x.cb.toNat * 2 ^ 12 + x.rb.toNat * 2 ^ 10 + x.acc.toNat * 2 ^ 0

/-- Major 0x01. -/
def decodeMajor01 (n : Nat) : Except DecodeError Instr :=
  if fieldAt n 0 2 = 0 ∧ fieldAt n 25 1 = 0 then .ok (.iadd (.ofNat n))
  else if fieldAt n 0 2 = 1 ∧ fieldAt n 25 1 = 0 then .ok (.isub (.ofNat n))
  else if fieldAt n 0 2 = 2 ∧ fieldAt n 25 1 = 0 then .ok (.iadds (.ofNat n))
  else if fieldAt n 0 2 = 3 ∧ fieldAt n 25 1 = 0 then .ok (.isubs (.ofNat n))
  else .error .noForm

/-- Major 0x02. -/
def decodeMajor02 (n : Nat) : Except DecodeError Instr :=
  if fieldAt n 0 2 = 0 ∧ fieldAt n 25 1 = 0 then .ok (.imul (.ofNat n))
  else if fieldAt n 0 2 = 1 ∧ fieldAt n 25 1 = 0 then .ok (.imulh (.ofNat n))
  else if fieldAt n 0 2 = 2 ∧ fieldAt n 25 1 = 0 then .ok (.imulhu (.ofNat n))
  else if fieldAt n 0 2 = 3 ∧ fieldAt n 25 1 = 0 then .ok (.iabsd (.ofNat n))
  else .error .noForm

/-- Major 0x03. -/
def decodeMajor03 (n : Nat) : Except DecodeError Instr :=
  if fieldAt n 0 2 = 0 ∧ fieldAt n 25 1 = 0 then .ok (.imin (.ofNat n))
  else if fieldAt n 0 2 = 1 ∧ fieldAt n 25 1 = 0 then .ok (.imax (.ofNat n))
  else if fieldAt n 0 2 = 2 ∧ fieldAt n 25 1 = 0 then .ok (.umin (.ofNat n))
  else if fieldAt n 0 2 = 3 ∧ fieldAt n 25 1 = 0 then .ok (.umax (.ofNat n))
  else .error .noForm

/-- Major 0x04. -/
def decodeMajor04 (n : Nat) : Except DecodeError Instr :=
  if fieldAt n 0 2 = 0 ∧ fieldAt n 25 1 = 0 then .ok (.andB (.ofNat n))
  else if fieldAt n 0 2 = 1 ∧ fieldAt n 25 1 = 0 then .ok (.orB (.ofNat n))
  else if fieldAt n 0 2 = 2 ∧ fieldAt n 25 1 = 0 then .ok (.xorB (.ofNat n))
  else if fieldAt n 0 2 = 3 ∧ fieldAt n 25 1 = 0 then .ok (.andn (.ofNat n))
  else .error .noForm

/-- Major 0x05. -/
def decodeMajor05 (n : Nat) : Except DecodeError Instr :=
  if fieldAt n 0 2 = 0 ∧ fieldAt n 25 1 = 0 then .ok (.shl (.ofNat n))
  else if fieldAt n 0 2 = 1 ∧ fieldAt n 25 1 = 0 then .ok (.shr (.ofNat n))
  else if fieldAt n 0 2 = 2 ∧ fieldAt n 25 1 = 0 then .ok (.sar (.ofNat n))
  else if fieldAt n 0 2 = 3 ∧ fieldAt n 25 1 = 0 then .ok (.rol (.ofNat n))
  else .error .noForm

/-- Major 0x06. -/
def decodeMajor06 (n : Nat) : Except DecodeError Instr :=
  if fieldAt n 0 2 = 0 ∧ fieldAt n 6 6 = 0 ∧ fieldAt n 25 1 = 0 then .ok (.clz (.ofNat n))
  else if fieldAt n 0 2 = 1 ∧ fieldAt n 6 6 = 0 ∧ fieldAt n 25 1 = 0 then .ok (.popc (.ofNat n))
  else if fieldAt n 0 2 = 2 ∧ fieldAt n 6 6 = 0 ∧ fieldAt n 25 1 = 0 then .ok (.brev (.ofNat n))
  else if fieldAt n 0 2 = 3 ∧ fieldAt n 6 6 = 0 ∧ fieldAt n 25 1 = 0 then .ok (.iabs (.ofNat n))
  else .error .noForm

/-- Major 0x07. -/
def decodeMajor07 (n : Nat) : Except DecodeError Instr :=
  if fieldAt n 25 1 = 0 then .ok (.icmp (.ofNat n))
  else .error .noForm

/-- Major 0x08. -/
def decodeMajor08 (n : Nat) : Except DecodeError Instr :=
  if fieldAt n 0 2 = 0 ∧ fieldAt n 25 1 = 0 then .ok (.sel (.ofNat n))
  else if fieldAt n 0 2 = 1 ∧ fieldAt n 6 6 = 0 ∧ fieldAt n 25 1 = 0 then .ok (.mov (.ofNat n))
  else if fieldAt n 0 2 = 2 ∧ fieldAt n 5 7 = 0 ∧ fieldAt n 24 2 = 0 then .ok (.p2v (.ofNat n))
  else if fieldAt n 0 2 = 3 ∧ fieldAt n 6 6 = 0 ∧ fieldAt n 24 2 = 0 then .ok (.v2p (.ofNat n))
  else .error .noForm

/-- Major 0x09. -/
def decodeMajor09 (n : Nat) : Except DecodeError Instr :=
  if fieldAt n 0 2 = 0 ∧ fieldAt n 25 1 = 0 then .ok (.bfx (.ofNat n))
  else if fieldAt n 0 2 = 1 ∧ fieldAt n 25 1 = 0 then .ok (.bfxu (.ofNat n))
  else if fieldAt n 0 2 = 2 ∧ fieldAt n 25 1 = 0 then .ok (.bfi (.ofNat n))
  else .error .noForm

/-- Major 0x0a. -/
def decodeMajor0A (n : Nat) : Except DecodeError Instr :=
  if fieldAt n 25 1 = 0 then .ok (.imla (.ofNat n))
  else .error .noForm

/-- Major 0x0b. -/
def decodeMajor0B (n : Nat) : Except DecodeError Instr :=
  if fieldAt n 25 1 = 0 then .ok (.iaddmin (.ofNat n))
  else .error .noForm

/-- Major 0x0c. -/
def decodeMajor0C (n : Nat) : Except DecodeError Instr :=
  if fieldAt n 25 1 = 0 then .ok (.isum3 (.ofNat n))
  else .error .noForm

/-- Major 0x0d. -/
def decodeMajor0D (n : Nat) : Except DecodeError Instr :=
  if fieldAt n 25 1 = 0 then .ok (.iaddi (.ofNat n))
  else .error .noForm

/-- Major 0x0e. -/
def decodeMajor0E (n : Nat) : Except DecodeError Instr :=
  if fieldAt n 10 2 = 0 ∧ fieldAt n 25 1 = 0 then .ok (.andi (.ofNat n))
  else if fieldAt n 10 2 = 1 ∧ fieldAt n 25 1 = 0 then .ok (.ori (.ofNat n))
  else if fieldAt n 10 2 = 2 ∧ fieldAt n 25 1 = 0 then .ok (.xori (.ofNat n))
  else .error .noForm

/-- Major 0x0f. -/
def decodeMajor0F (n : Nat) : Except DecodeError Instr :=
  if fieldAt n 5 7 = 0 ∧ fieldAt n 25 1 = 0 then .ok (.shli (.ofNat n))
  else if fieldAt n 5 7 = 32 ∧ fieldAt n 25 1 = 0 then .ok (.shri (.ofNat n))
  else if fieldAt n 5 7 = 64 ∧ fieldAt n 25 1 = 0 then .ok (.sari (.ofNat n))
  else if fieldAt n 5 7 = 96 ∧ fieldAt n 25 1 = 0 then .ok (.roli (.ofNat n))
  else .error .noForm

/-- Major 0x10. -/
def decodeMajor10 (n : Nat) : Except DecodeError Instr :=
  if fieldAt n 25 1 = 0 then .ok (.movi (.ofNat n))
  else .error .noForm

/-- Major 0x11. -/
def decodeMajor11 (n : Nat) : Except DecodeError Instr :=
  if fieldAt n 14 4 = 0 ∧ fieldAt n 25 1 = 0 then .ok (.movhi (.ofNat n))
  else .error .noForm

/-- Major 0x12. -/
def decodeMajor12 (n : Nat) : Except DecodeError Instr :=
  if fieldAt n 25 1 = 0 then .ok (.icmpi (.ofNat n))
  else .error .noForm

/-- Major 0x13. -/
def decodeMajor13 (n : Nat) : Except DecodeError Instr :=
  if fieldAt n 0 2 = 0 ∧ fieldAt n 5 1 = 0 ∧ fieldAt n 24 2 = 0 then .ok (.pand (.ofNat n))
  else if fieldAt n 0 2 = 1 ∧ fieldAt n 5 1 = 0 ∧ fieldAt n 24 2 = 0 then .ok (.por (.ofNat n))
  else if fieldAt n 0 2 = 2 ∧ fieldAt n 5 1 = 0 ∧ fieldAt n 24 2 = 0 then .ok (.pxor (.ofNat n))
  else if fieldAt n 0 2 = 3 ∧ fieldAt n 5 7 = 0 ∧ fieldAt n 24 2 = 0 then .ok (.pnot (.ofNat n))
  else .error .noForm

/-- Major 0x14. -/
def decodeMajor14 (n : Nat) : Except DecodeError Instr :=
  if fieldAt n 0 2 = 0 ∧ fieldAt n 24 2 = 1 then .ok (.xlnBack (.ofNat n))
  else if fieldAt n 0 2 = 1 ∧ fieldAt n 24 2 = 1 then .ok (.xlnFwd (.ofNat n))
  else if fieldAt n 0 2 = 2 ∧ fieldAt n 24 2 = 1 then .ok (.xlnFlip (.ofNat n))
  else if fieldAt n 0 2 = 3 ∧ fieldAt n 24 2 = 1 then .ok (.xlnFrom (.ofNat n))
  else .error .noForm

/-- Major 0x15. -/
def decodeMajor15 (n : Nat) : Except DecodeError Instr :=
  if fieldAt n 0 2 = 0 ∧ fieldAt n 5 7 = 0 ∧ fieldAt n 24 2 = 1 then .ok (.pgatEvery (.ofNat n))
  else if fieldAt n 0 2 = 1 ∧ fieldAt n 5 7 = 0 ∧ fieldAt n 24 2 = 1 then .ok (.pgatSome (.ofNat n))
  else if fieldAt n 0 2 = 2 ∧ fieldAt n 5 7 = 0 ∧ fieldAt n 24 2 = 1 then .ok (.pgatMask (.ofNat n))
  else if fieldAt n 0 2 = 3 ∧ fieldAt n 5 13 = 0 ∧ fieldAt n 24 2 = 1 then .ok (.pgatLive (.ofNat n))
  else .error .noForm

/-- Major 0x16. -/
def decodeMajor16 (n : Nat) : Except DecodeError Instr :=
  if fieldAt n 0 2 = 0 ∧ fieldAt n 6 6 = 0 ∧ fieldAt n 24 2 = 1 then .ok (.redxAdd (.ofNat n))
  else if fieldAt n 0 2 = 1 ∧ fieldAt n 6 6 = 0 ∧ fieldAt n 24 2 = 1 then .ok (.redxSmin (.ofNat n))
  else if fieldAt n 0 2 = 2 ∧ fieldAt n 6 6 = 0 ∧ fieldAt n 24 2 = 1 then .ok (.redxSmax (.ofNat n))
  else if fieldAt n 0 2 = 3 ∧ fieldAt n 6 6 = 0 ∧ fieldAt n 24 2 = 1 then .ok (.redxFadd (.ofNat n))
  else .error .noForm

/-- Major 0x17. -/
def decodeMajor17 (n : Nat) : Except DecodeError Instr :=
  if fieldAt n 0 2 = 0 ∧ fieldAt n 6 6 = 0 ∧ fieldAt n 24 2 = 1 then .ok (.scanAdd (.ofNat n))
  else if fieldAt n 0 2 = 1 ∧ fieldAt n 6 6 = 0 ∧ fieldAt n 24 2 = 1 then .ok (.scanXadd (.ofNat n))
  else if fieldAt n 0 2 = 2 ∧ fieldAt n 6 6 = 0 ∧ fieldAt n 24 2 = 1 then .ok (.scanMax (.ofNat n))
  else if fieldAt n 0 2 = 3 ∧ fieldAt n 6 6 = 0 ∧ fieldAt n 24 2 = 1 then .ok (.scanMin (.ofNat n))
  else .error .noForm

/-- Major 0x18. -/
def decodeMajor18 (n : Nat) : Except DecodeError Instr :=
  if fieldAt n 0 2 = 0 ∧ fieldAt n 25 1 = 0 then .ok (.fadd (.ofNat n))
  else if fieldAt n 0 2 = 1 ∧ fieldAt n 25 1 = 0 then .ok (.fsub (.ofNat n))
  else if fieldAt n 0 2 = 2 ∧ fieldAt n 25 1 = 0 then .ok (.fmul (.ofNat n))
  else if fieldAt n 0 2 = 3 ∧ fieldAt n 25 1 = 0 then .ok (.fdiv (.ofNat n))
  else .error .noForm

/-- Major 0x19. -/
def decodeMajor19 (n : Nat) : Except DecodeError Instr :=
  if fieldAt n 0 2 = 0 ∧ fieldAt n 25 1 = 0 then .ok (.fmin (.ofNat n))
  else if fieldAt n 0 2 = 1 ∧ fieldAt n 25 1 = 0 then .ok (.fmax (.ofNat n))
  else if fieldAt n 0 2 = 2 ∧ fieldAt n 25 1 = 0 then .ok (.fminm (.ofNat n))
  else if fieldAt n 0 2 = 3 ∧ fieldAt n 25 1 = 0 then .ok (.fmaxm (.ofNat n))
  else .error .noForm

/-- Major 0x1a. -/
def decodeMajor1A (n : Nat) : Except DecodeError Instr :=
  if fieldAt n 0 2 = 0 ∧ fieldAt n 6 6 = 0 ∧ fieldAt n 25 1 = 0 then .ok (.fabs (.ofNat n))
  else if fieldAt n 0 2 = 0 ∧ fieldAt n 6 6 = 1 ∧ fieldAt n 25 1 = 0 then .ok (.fneg (.ofNat n))
  else if fieldAt n 0 2 = 0 ∧ fieldAt n 6 6 = 2 ∧ fieldAt n 25 1 = 0 then .ok (.fsqrt (.ofNat n))
  else if fieldAt n 0 2 = 0 ∧ fieldAt n 6 6 = 3 ∧ fieldAt n 25 1 = 0 then .ok (.frcp (.ofNat n))
  else if fieldAt n 0 2 = 0 ∧ fieldAt n 6 6 = 4 ∧ fieldAt n 25 1 = 0 then .ok (.frsq (.ofNat n))
  else if fieldAt n 0 2 = 0 ∧ fieldAt n 6 6 = 5 ∧ fieldAt n 25 1 = 0 then .ok (.fexp2 (.ofNat n))
  else if fieldAt n 0 2 = 0 ∧ fieldAt n 6 6 = 6 ∧ fieldAt n 25 1 = 0 then .ok (.flog2 (.ofNat n))
  else if fieldAt n 0 2 = 0 ∧ fieldAt n 6 6 = 7 ∧ fieldAt n 25 1 = 0 then .ok (.ffloor (.ofNat n))
  else if fieldAt n 0 2 = 0 ∧ fieldAt n 6 6 = 8 ∧ fieldAt n 25 1 = 0 then .ok (.fceil (.ofNat n))
  else if fieldAt n 0 2 = 0 ∧ fieldAt n 6 6 = 9 ∧ fieldAt n 25 1 = 0 then .ok (.ftrunc (.ofNat n))
  else if fieldAt n 0 2 = 0 ∧ fieldAt n 6 6 = 10 ∧ fieldAt n 25 1 = 0 then .ok (.frint (.ofNat n))
  else .error .noForm

/-- Major 0x1b. -/
def decodeMajor1B (n : Nat) : Except DecodeError Instr :=
  if fieldAt n 25 1 = 0 then .ok (.fcmp (.ofNat n))
  else .error .noForm

/-- Major 0x1c. -/
def decodeMajor1C (n : Nat) : Except DecodeError Instr :=
  if fieldAt n 25 1 = 0 then .ok (.ffma (.ofNat n))
  else .error .noForm

/-- Major 0x1d. -/
def decodeMajor1D (n : Nat) : Except DecodeError Instr :=
  if fieldAt n 25 1 = 0 then .ok (.ffms (.ofNat n))
  else .error .noForm

/-- Major 0x1e. -/
def decodeMajor1E (n : Nat) : Except DecodeError Instr :=
  if fieldAt n 0 2 = 0 ∧ fieldAt n 6 6 = 0 ∧ fieldAt n 25 1 = 0 then .ok (.i2f (.ofNat n))
  else if fieldAt n 0 2 = 0 ∧ fieldAt n 6 6 = 1 ∧ fieldAt n 25 1 = 0 then .ok (.u2f (.ofNat n))
  else if fieldAt n 0 2 = 0 ∧ fieldAt n 6 6 = 2 ∧ fieldAt n 25 1 = 0 then .ok (.f2i (.ofNat n))
  else if fieldAt n 0 2 = 0 ∧ fieldAt n 6 6 = 3 ∧ fieldAt n 25 1 = 0 then .ok (.f2u (.ofNat n))
  else if fieldAt n 0 2 = 0 ∧ fieldAt n 6 6 = 4 ∧ fieldAt n 25 1 = 0 then .ok (.f2h (.ofNat n))
  else if fieldAt n 0 2 = 0 ∧ fieldAt n 6 6 = 5 ∧ fieldAt n 25 1 = 0 then .ok (.f2hh (.ofNat n))
  else if fieldAt n 0 2 = 0 ∧ fieldAt n 6 6 = 6 ∧ fieldAt n 25 1 = 0 then .ok (.h2f (.ofNat n))
  else if fieldAt n 0 2 = 0 ∧ fieldAt n 6 6 = 7 ∧ fieldAt n 25 1 = 0 then .ok (.h2fh (.ofNat n))
  else if fieldAt n 0 2 = 0 ∧ fieldAt n 6 6 = 8 ∧ fieldAt n 25 1 = 0 then .ok (.f2bf (.ofNat n))
  else if fieldAt n 0 2 = 0 ∧ fieldAt n 6 6 = 9 ∧ fieldAt n 25 1 = 0 then .ok (.f2bfh (.ofNat n))
  else if fieldAt n 0 2 = 0 ∧ fieldAt n 6 6 = 10 ∧ fieldAt n 25 1 = 0 then .ok (.bf2f (.ofNat n))
  else if fieldAt n 0 2 = 0 ∧ fieldAt n 6 6 = 11 ∧ fieldAt n 25 1 = 0 then .ok (.bf2fh (.ofNat n))
  else if fieldAt n 6 6 = 12 ∧ fieldAt n 25 1 = 0 then .ok (.f2e4 (.ofNat n))
  else if fieldAt n 6 6 = 13 ∧ fieldAt n 25 1 = 0 then .ok (.e42f (.ofNat n))
  else if fieldAt n 6 6 = 14 ∧ fieldAt n 25 1 = 0 then .ok (.f2e5 (.ofNat n))
  else if fieldAt n 6 6 = 15 ∧ fieldAt n 25 1 = 0 then .ok (.e52f (.ofNat n))
  else if fieldAt n 6 6 = 16 ∧ fieldAt n 25 1 = 0 then .ok (.f2lg (.ofNat n))
  else if fieldAt n 6 6 = 17 ∧ fieldAt n 25 1 = 0 then .ok (.lg2f (.ofNat n))
  else if fieldAt n 6 6 = 18 ∧ fieldAt n 25 1 = 0 then .ok (.f2i8 (.ofNat n))
  else if fieldAt n 6 6 = 19 ∧ fieldAt n 25 1 = 0 then .ok (.i82f (.ofNat n))
  else .error .noForm

/-- Major 0x1f. -/
def decodeMajor1F (n : Nat) : Except DecodeError Instr :=
  if fieldAt n 0 2 = 0 ∧ fieldAt n 25 1 = 0 then .ok (.hadd2 (.ofNat n))
  else if fieldAt n 0 2 = 1 ∧ fieldAt n 25 1 = 0 then .ok (.hmul2 (.ofNat n))
  else if fieldAt n 0 2 = 2 ∧ fieldAt n 25 1 = 0 then .ok (.badd2 (.ofNat n))
  else if fieldAt n 0 2 = 3 ∧ fieldAt n 25 1 = 0 then .ok (.bmul2 (.ofNat n))
  else .error .noForm

/-- Major 0x20. -/
def decodeMajor20 (n : Nat) : Except DecodeError Instr :=
  if fieldAt n 25 1 = 0 then .ok (.hfma2 (.ofNat n))
  else .error .noForm

/-- Major 0x21. -/
def decodeMajor21 (n : Nat) : Except DecodeError Instr :=
  if fieldAt n 25 1 = 0 then .ok (.bfma2 (.ofNat n))
  else .error .noForm

/-- Major 0x22. -/
def decodeMajor22 (n : Nat) : Except DecodeError Instr :=
  if fieldAt n 25 1 = 0 then .ok (.ld (.ofNat n))
  else .error .noForm

/-- Major 0x23. -/
def decodeMajor23 (n : Nat) : Except DecodeError Instr :=
  if fieldAt n 25 1 = 0 then .ok (.st (.ofNat n))
  else .error .noForm

/-- Major 0x24. -/
def decodeMajor24 (n : Nat) : Except DecodeError Instr :=
  if fieldAt n 25 1 = 0 then .ok (.ldp (.ofNat n))
  else .error .noForm

/-- Major 0x25. -/
def decodeMajor25 (n : Nat) : Except DecodeError Instr :=
  if fieldAt n 25 1 = 0 then .ok (.ldr (.ofNat n))
  else .error .noForm

/-- Major 0x26. -/
def decodeMajor26 (n : Nat) : Except DecodeError Instr :=
  if fieldAt n 0 6 = 0 ∧ fieldAt n 25 1 = 0 then .ok (.atomAdd (.ofNat n))
  else if fieldAt n 0 6 = 4 ∧ fieldAt n 25 1 = 0 then .ok (.atomSub (.ofNat n))
  else if fieldAt n 0 6 = 8 ∧ fieldAt n 25 1 = 0 then .ok (.atomSmin (.ofNat n))
  else if fieldAt n 0 6 = 12 ∧ fieldAt n 25 1 = 0 then .ok (.atomSmax (.ofNat n))
  else if fieldAt n 0 6 = 16 ∧ fieldAt n 25 1 = 0 then .ok (.atomUmin (.ofNat n))
  else if fieldAt n 0 6 = 20 ∧ fieldAt n 25 1 = 0 then .ok (.atomUmax (.ofNat n))
  else if fieldAt n 0 6 = 24 ∧ fieldAt n 25 1 = 0 then .ok (.atomAnd (.ofNat n))
  else if fieldAt n 0 6 = 28 ∧ fieldAt n 25 1 = 0 then .ok (.atomOr (.ofNat n))
  else if fieldAt n 0 6 = 32 ∧ fieldAt n 25 1 = 0 then .ok (.atomXor (.ofNat n))
  else if fieldAt n 0 6 = 36 ∧ fieldAt n 25 1 = 0 then .ok (.atomExch (.ofNat n))
  else if fieldAt n 0 6 = 40 ∧ fieldAt n 25 1 = 0 then .ok (.atomFadd (.ofNat n))
  else if fieldAt n 0 6 = 44 ∧ fieldAt n 25 1 = 0 then .ok (.atomInc (.ofNat n))
  else if fieldAt n 0 6 = 48 ∧ fieldAt n 25 1 = 0 then .ok (.atomAdd64 (.ofNat n))
  else if fieldAt n 0 6 = 52 ∧ fieldAt n 25 1 = 0 then .ok (.atomExch64 (.ofNat n))
  else .error .noForm

/-- Major 0x27. -/
def decodeMajor27 (n : Nat) : Except DecodeError Instr :=
  if fieldAt n 4 2 = 1 ∧ fieldAt n 25 1 = 0 then .ok (.cas (.ofNat n))
  else .error .noForm

/-- Major 0x28. -/
def decodeMajor28 (n : Nat) : Except DecodeError Instr :=
  if fieldAt n 3 3 = 0 ∧ fieldAt n 24 2 = 1 then .ok (.snap (.ofNat n))
  else .error .noForm

/-- Major 0x29. -/
def decodeMajor29 (n : Nat) : Except DecodeError Instr :=
  if fieldAt n 0 26 = 16777216 then .ok (.fenceEng)
  else if fieldAt n 0 26 = 17039360 then .ok (.fenceIo)
  else .error .noForm

/-- Major 0x2a. -/
def decodeMajor2A (n m : Nat) : Except DecodeError Instr :=
  if fieldAt n 12 3 = 0 ∧ fieldAt m 0 24 = 0 then .ok (.copy (.ofNat n m))
  else .error .noForm

/-- Major 0x2b. -/
def decodeMajor2B (n m : Nat) : Except DecodeError Instr :=
  if fieldAt n 12 3 = 0 ∧ fieldAt n 16 1 = 0 ∧ fieldAt m 0 18 = 0 then .ok (.gath (.ofNat n m))
  else .error .noForm

/-- Major 0x2c. -/
def decodeMajor2C (n m : Nat) : Except DecodeError Instr :=
  if fieldAt n 12 3 = 0 ∧ fieldAt n 16 1 = 0 ∧ fieldAt m 0 18 = 0 then .ok (.scat (.ofNat n m))
  else .error .noForm

/-- Major 0x2d. -/
def decodeMajor2D (n m : Nat) : Except DecodeError Instr :=
  if fieldAt n 0 10 = 0 ∧ fieldAt m 0 18 = 0 then .ok (.coll (.ofNat n m))
  else .error .noForm

/-- Major 0x2e. -/
def decodeMajor2E (n : Nat) : Except DecodeError Instr :=
  if fieldAt n 0 6 = 0 ∧ fieldAt n 18 6 = 0 then .ok (.cwait (.ofNat n))
  else .error .noForm

/-- Major 0x2f. -/
def decodeMajor2F (n : Nat) : Except DecodeError Instr :=
  if fieldAt n 0 6 = 0 ∧ fieldAt n 18 8 = 64 then .ok (.ftest (.ofNat n))
  else if fieldAt n 0 6 = 0 ∧ fieldAt n 18 8 = 65 then .ok (.fcancel (.ofNat n))
  else if fieldAt n 0 6 = 0 ∧ fieldAt n 18 8 = 66 then .ok (.fwait (.ofNat n))
  else .error .noForm

/-- Major 0x30. -/
def decodeMajor30 (n : Nat) : Except DecodeError Instr :=
  if fieldAt n 18 6 = 0 ∧ fieldAt n 25 1 = 0 then .ok (.tld (.ofNat n))
  else .error .noForm

/-- Major 0x31. -/
def decodeMajor31 (n : Nat) : Except DecodeError Instr :=
  if fieldAt n 18 6 = 0 ∧ fieldAt n 25 1 = 0 then .ok (.tst (.ofNat n))
  else .error .noForm

/-- Major 0x32. -/
def decodeMajor32 (n : Nat) : Except DecodeError Instr :=
  if fieldAt n 6 18 = 0 then .ok (.tzero (.ofNat n))
  else if fieldAt n 6 18 = 4096 then .ok (.tfree (.ofNat n))
  else if fieldAt n 6 6 = 0 ∧ fieldAt n 18 6 = 2 then .ok (.tstate (.ofNat n))
  else if fieldAt n 12 12 = 192 then .ok (.tmark (.ofNat n))
  else .error .noForm

/-- Major 0x33. -/
def decodeMajor33 (n : Nat) : Except DecodeError Instr :=
  if fieldAt n 6 18 = 0 then .ok (.arrive (.ofNat n))
  else if fieldAt n 12 12 = 64 then .ok (.await (.ofNat n))
  else .error .noForm

/-- Major 0x34. -/
def decodeMajor34 (n m : Nat) : Except DecodeError Instr :=
  if fieldAt n 0 5 = 0 ∧ fieldAt n 24 2 = 2 ∧ fieldAt m 11 21 = 0 then .ok (.mma (.ofNat n m))
  else .error .noForm

/-- Major 0x35. -/
def decodeMajor35 (n m : Nat) : Except DecodeError Instr :=
  if fieldAt n 0 7 = 0 ∧ fieldAt n 24 2 = 1 ∧ fieldAt m 22 10 = 0 then .ok (.drain (.ofNat n m))
  else .error .noForm

/-- Major 0x36. -/
def decodeMajor36 (n : Nat) : Except DecodeError Instr :=
  if fieldAt n 0 6 = 0 ∧ fieldAt n 18 6 = 0 then .ok (.azero (.ofNat n))
  else if fieldAt n 18 6 = 1 then .ok (.asave (.ofNat n))
  else if fieldAt n 18 6 = 2 then .ok (.aload (.ofNat n))
  else if fieldAt n 0 6 = 0 ∧ fieldAt n 18 6 = 3 then .ok (.astat (.ofNat n))
  else .error .noForm

/-- Major 0x37. -/
def decodeMajor37 (n : Nat) : Except DecodeError Instr :=
  if fieldAt n 20 1 = 0 ∧ fieldAt n 25 1 = 0 then .ok (.bra (.ofNat n))
  else .error .noForm

/-- Major 0x38. -/
def decodeMajor38 (n : Nat) : Except DecodeError Instr :=
  if fieldAt n 20 1 = 0 ∧ fieldAt n 25 1 = 0 then .ok (.call (.ofNat n))
  else .error .noForm

/-- Major 0x39. -/
def decodeMajor39 (n : Nat) : Except DecodeError Instr :=
  if fieldAt n 0 2 = 0 ∧ fieldAt n 6 6 = 0 ∧ fieldAt n 18 6 = 0 ∧ fieldAt n 25 1 = 0 then .ok (.brx (.ofNat n))
  else if fieldAt n 0 2 = 1 ∧ fieldAt n 6 6 = 0 ∧ fieldAt n 18 6 = 0 ∧ fieldAt n 25 1 = 0 then .ok (.callx (.ofNat n))
  else .error .noForm

/-- Major 0x3a. -/
def decodeMajor3A (n : Nat) : Except DecodeError Instr :=
  if fieldAt n 0 24 = 0 then .ok (.nop (.ofNat n))
  else if fieldAt n 0 24 = 262144 ∧ fieldAt n 25 1 = 0 then .ok (.ret (.ofNat n))
  else if fieldAt n 0 24 = 524288 ∧ fieldAt n 25 1 = 0 then .ok (.exitT (.ofNat n))
  else if fieldAt n 0 26 = 786432 then .ok (.join)
  else if fieldAt n 0 26 = 17825792 then .ok (.yield)
  else if fieldAt n 0 26 = 1310720 then .ok (.pyield)
  else .error .noForm

/-- Major 0x3b. -/
def decodeMajor3B (n : Nat) : Except DecodeError Instr :=
  if fieldAt n 20 4 = 0 ∧ fieldAt n 25 1 = 0 then .ok (.jpt (.ofNat n))
  else .error .noForm

/-- Major 0x3c. -/
def decodeMajor3C (n : Nat) : Except DecodeError Instr :=
  if fieldAt n 18 8 = 64 then .ok (.sjoin (.ofNat n))
  else if fieldAt n 0 12 = 0 ∧ fieldAt n 18 8 = 65 then .ok (.sleave (.ofNat n))
  else if fieldAt n 0 6 = 0 ∧ fieldAt n 18 8 = 66 then .ok (.sinfo (.ofNat n))
  else if fieldAt n 0 24 = 786432 ∧ fieldAt n 25 1 = 1 then .ok (.bar (.ofNat n))
  else if fieldAt n 0 26 = 51380224 then .ok (.gbar)
  else if fieldAt n 18 8 = 69 then .ok (.launch (.ofNat n))
  else if fieldAt n 18 8 = 70 then .ok (.arm (.ofNat n))
  else if fieldAt n 0 6 = 0 ∧ fieldAt n 18 8 = 71 then .ok (.disarm (.ofNat n))
  else .error .noForm

/-- Major 0x3e. -/
def decodeMajor3E (n : Nat) : Except DecodeError Instr :=
  if fieldAt n 18 7 = 64 then .ok (.vcreate (.ofNat n))
  else if fieldAt n 18 7 = 65 then .ok (.vopen (.ofNat n))
  else if fieldAt n 0 6 = 0 ∧ fieldAt n 18 7 = 66 then .ok (.vhand (.ofNat n))
  else if fieldAt n 0 6 = 0 ∧ fieldAt n 18 7 = 67 then .ok (.vdrop (.ofNat n))
  else if fieldAt n 0 6 = 0 ∧ fieldAt n 18 7 = 68 then .ok (.vquery (.ofNat n))
  else if fieldAt n 18 7 = 69 then .ok (.vdup (.ofNat n))
  else .error .noForm

/-- Major 0x3f. -/
def decodeMajor3F (n : Nat) : Except DecodeError Instr :=
  if fieldAt n 12 12 = 0 ∧ fieldAt n 25 1 = 0 then .ok (.trap (.ofNat n))
  else if fieldAt n 12 14 = 4160 then .ok (.brk (.ofNat n))
  else if fieldAt n 0 6 = 0 ∧ fieldAt n 18 8 = 66 then .ok (.srd (.ofNat n))
  else if fieldAt n 0 6 = 0 ∧ fieldAt n 18 8 = 67 then .ok (.swr (.ofNat n))
  else if fieldAt n 0 6 = 0 ∧ fieldAt n 18 8 = 68 then .ok (.clk (.ofNat n))
  else if fieldAt n 18 8 = 69 then .ok (.grow (.ofNat n))
  else if fieldAt n 18 8 = 70 then .ok (.shrink (.ofNat n))
  else if fieldAt n 0 12 = 0 ∧ fieldAt n 18 8 = 71 then .ok (.tret (.ofNat n))
  else if fieldAt n 18 8 = 72 then .ok (.sample (.ofNat n))
  else .error .noForm

/-- One instruction from its words as numbers; m is the second word, read only by the two-word forms. -/
def decodeNat (n m : Nat) : Except DecodeError Instr :=
  match majorOf n with
  | 1 => decodeMajor01 n
  | 2 => decodeMajor02 n
  | 3 => decodeMajor03 n
  | 4 => decodeMajor04 n
  | 5 => decodeMajor05 n
  | 6 => decodeMajor06 n
  | 7 => decodeMajor07 n
  | 8 => decodeMajor08 n
  | 9 => decodeMajor09 n
  | 10 => decodeMajor0A n
  | 11 => decodeMajor0B n
  | 12 => decodeMajor0C n
  | 13 => decodeMajor0D n
  | 14 => decodeMajor0E n
  | 15 => decodeMajor0F n
  | 16 => decodeMajor10 n
  | 17 => decodeMajor11 n
  | 18 => decodeMajor12 n
  | 19 => decodeMajor13 n
  | 20 => decodeMajor14 n
  | 21 => decodeMajor15 n
  | 22 => decodeMajor16 n
  | 23 => decodeMajor17 n
  | 24 => decodeMajor18 n
  | 25 => decodeMajor19 n
  | 26 => decodeMajor1A n
  | 27 => decodeMajor1B n
  | 28 => decodeMajor1C n
  | 29 => decodeMajor1D n
  | 30 => decodeMajor1E n
  | 31 => decodeMajor1F n
  | 32 => decodeMajor20 n
  | 33 => decodeMajor21 n
  | 34 => decodeMajor22 n
  | 35 => decodeMajor23 n
  | 36 => decodeMajor24 n
  | 37 => decodeMajor25 n
  | 38 => decodeMajor26 n
  | 39 => decodeMajor27 n
  | 40 => decodeMajor28 n
  | 41 => decodeMajor29 n
  | 42 => decodeMajor2A n m
  | 43 => decodeMajor2B n m
  | 44 => decodeMajor2C n m
  | 45 => decodeMajor2D n m
  | 46 => decodeMajor2E n
  | 47 => decodeMajor2F n
  | 48 => decodeMajor30 n
  | 49 => decodeMajor31 n
  | 50 => decodeMajor32 n
  | 51 => decodeMajor33 n
  | 52 => decodeMajor34 n m
  | 53 => decodeMajor35 n m
  | 54 => decodeMajor36 n
  | 55 => decodeMajor37 n
  | 56 => decodeMajor38 n
  | 57 => decodeMajor39 n
  | 58 => decodeMajor3A n
  | 59 => decodeMajor3B n
  | 60 => decodeMajor3C n
  | 62 => decodeMajor3E n
  | 63 => decodeMajor3F n
  | _ => .error .reservedMajor

/-- Decoding of two words. -/
def decode (w1 w2 : Word) : Except DecodeError Instr := decodeNat w1.toNat w2.toNat

/-- A 32-bit word from four bytes, low byte first (00 R2). -/
def wordOfBytes (a b c d : Byte) : Word :=
  BitVec.ofNat 32 (a.toNat + b.toNat * 2 ^ 8 + c.toNat * 2 ^ 16 + d.toNat * 2 ^ 24)

/-- The four bytes of a word, low byte first (00 R2). -/
def bytesOfWord (w : Word) : List Byte :=
  [BitVec.ofNat 8 w.toNat, BitVec.ofNat 8 (w.toNat / 2 ^ 8), BitVec.ofNat 8 (w.toNat / 2 ^ 16), BitVec.ofNat 8 (w.toNat / 2 ^ 24)]

/-- Decoding of any bytes: the instruction and the bytes after it. -/
def decodeBytes : List Byte → Except DecodeError (Instr × List Byte)
  | a :: b :: c :: d :: rest =>
    let w1 := wordOfBytes a b c d
    if twoWords w1.toNat then
      match rest with
      | e :: f :: g :: h :: rest' => (decode w1 (wordOfBytes e f g h)).map (·, rest')
      | _ => .error .short
    else (decode w1 0).map (·, rest)
  | _ => .error .short

/-- The words of an encoded instruction; an event has none. -/
def encodeNat : Instr → List Nat
  | .iadd x => [0x04000000 + x.bits]
  | .isub x => [0x04000001 + x.bits]
  | .iadds x => [0x04000002 + x.bits]
  | .isubs x => [0x04000003 + x.bits]
  | .imul x => [0x08000000 + x.bits]
  | .imulh x => [0x08000001 + x.bits]
  | .imulhu x => [0x08000002 + x.bits]
  | .iabsd x => [0x08000003 + x.bits]
  | .imin x => [0x0c000000 + x.bits]
  | .imax x => [0x0c000001 + x.bits]
  | .umin x => [0x0c000002 + x.bits]
  | .umax x => [0x0c000003 + x.bits]
  | .andB x => [0x10000000 + x.bits]
  | .orB x => [0x10000001 + x.bits]
  | .xorB x => [0x10000002 + x.bits]
  | .andn x => [0x10000003 + x.bits]
  | .shl x => [0x14000000 + x.bits]
  | .shr x => [0x14000001 + x.bits]
  | .sar x => [0x14000002 + x.bits]
  | .rol x => [0x14000003 + x.bits]
  | .clz x => [0x18000000 + x.bits]
  | .popc x => [0x18000001 + x.bits]
  | .brev x => [0x18000002 + x.bits]
  | .iabs x => [0x18000003 + x.bits]
  | .icmp x => [0x1c000000 + x.bits]
  | .sel x => [0x20000000 + x.bits]
  | .mov x => [0x20000001 + x.bits]
  | .p2v x => [0x20000002 + x.bits]
  | .v2p x => [0x20000003 + x.bits]
  | .bfx x => [0x24000000 + x.bits]
  | .bfxu x => [0x24000001 + x.bits]
  | .bfi x => [0x24000002 + x.bits]
  | .imla x => [0x28000000 + x.bits]
  | .iaddmin x => [0x2c000000 + x.bits]
  | .isum3 x => [0x30000000 + x.bits]
  | .iaddi x => [0x34000000 + x.bits]
  | .andi x => [0x38000000 + x.bits]
  | .ori x => [0x38000400 + x.bits]
  | .xori x => [0x38000800 + x.bits]
  | .shli x => [0x3c000000 + x.bits]
  | .shri x => [0x3c000400 + x.bits]
  | .sari x => [0x3c000800 + x.bits]
  | .roli x => [0x3c000c00 + x.bits]
  | .movi x => [0x40000000 + x.bits]
  | .movhi x => [0x44000000 + x.bits]
  | .icmpi x => [0x48000000 + x.bits]
  | .pand x => [0x4c000000 + x.bits]
  | .por x => [0x4c000001 + x.bits]
  | .pxor x => [0x4c000002 + x.bits]
  | .pnot x => [0x4c000003 + x.bits]
  | .xlnBack x => [0x51000000 + x.bits]
  | .xlnFwd x => [0x51000001 + x.bits]
  | .xlnFlip x => [0x51000002 + x.bits]
  | .xlnFrom x => [0x51000003 + x.bits]
  | .pgatEvery x => [0x55000000 + x.bits]
  | .pgatSome x => [0x55000001 + x.bits]
  | .pgatMask x => [0x55000002 + x.bits]
  | .pgatLive x => [0x55000003 + x.bits]
  | .redxAdd x => [0x59000000 + x.bits]
  | .redxSmin x => [0x59000001 + x.bits]
  | .redxSmax x => [0x59000002 + x.bits]
  | .redxFadd x => [0x59000003 + x.bits]
  | .scanAdd x => [0x5d000000 + x.bits]
  | .scanXadd x => [0x5d000001 + x.bits]
  | .scanMax x => [0x5d000002 + x.bits]
  | .scanMin x => [0x5d000003 + x.bits]
  | .fadd x => [0x60000000 + x.bits]
  | .fsub x => [0x60000001 + x.bits]
  | .fmul x => [0x60000002 + x.bits]
  | .fdiv x => [0x60000003 + x.bits]
  | .fmin x => [0x64000000 + x.bits]
  | .fmax x => [0x64000001 + x.bits]
  | .fminm x => [0x64000002 + x.bits]
  | .fmaxm x => [0x64000003 + x.bits]
  | .fabs x => [0x68000000 + x.bits]
  | .fneg x => [0x68000040 + x.bits]
  | .fsqrt x => [0x68000080 + x.bits]
  | .frcp x => [0x680000c0 + x.bits]
  | .frsq x => [0x68000100 + x.bits]
  | .fexp2 x => [0x68000140 + x.bits]
  | .flog2 x => [0x68000180 + x.bits]
  | .ffloor x => [0x680001c0 + x.bits]
  | .fceil x => [0x68000200 + x.bits]
  | .ftrunc x => [0x68000240 + x.bits]
  | .frint x => [0x68000280 + x.bits]
  | .fcmp x => [0x6c000000 + x.bits]
  | .ffma x => [0x70000000 + x.bits]
  | .ffms x => [0x74000000 + x.bits]
  | .i2f x => [0x78000000 + x.bits]
  | .u2f x => [0x78000040 + x.bits]
  | .f2i x => [0x78000080 + x.bits]
  | .f2u x => [0x780000c0 + x.bits]
  | .f2h x => [0x78000100 + x.bits]
  | .f2hh x => [0x78000140 + x.bits]
  | .h2f x => [0x78000180 + x.bits]
  | .h2fh x => [0x780001c0 + x.bits]
  | .f2bf x => [0x78000200 + x.bits]
  | .f2bfh x => [0x78000240 + x.bits]
  | .bf2f x => [0x78000280 + x.bits]
  | .bf2fh x => [0x780002c0 + x.bits]
  | .f2e4 x => [0x78000300 + x.bits]
  | .e42f x => [0x78000340 + x.bits]
  | .f2e5 x => [0x78000380 + x.bits]
  | .e52f x => [0x780003c0 + x.bits]
  | .f2lg x => [0x78000400 + x.bits]
  | .lg2f x => [0x78000440 + x.bits]
  | .f2i8 x => [0x78000480 + x.bits]
  | .i82f x => [0x780004c0 + x.bits]
  | .hadd2 x => [0x7c000000 + x.bits]
  | .hmul2 x => [0x7c000001 + x.bits]
  | .badd2 x => [0x7c000002 + x.bits]
  | .bmul2 x => [0x7c000003 + x.bits]
  | .hfma2 x => [0x80000000 + x.bits]
  | .bfma2 x => [0x84000000 + x.bits]
  | .ld x => [0x88000000 + x.bits]
  | .st x => [0x8c000000 + x.bits]
  | .ldp x => [0x90000000 + x.bits]
  | .ldr x => [0x94000000 + x.bits]
  | .atomAdd x => [0x98000000 + x.bits]
  | .atomSub x => [0x98000004 + x.bits]
  | .atomSmin x => [0x98000008 + x.bits]
  | .atomSmax x => [0x9800000c + x.bits]
  | .atomUmin x => [0x98000010 + x.bits]
  | .atomUmax x => [0x98000014 + x.bits]
  | .atomAnd x => [0x98000018 + x.bits]
  | .atomOr x => [0x9800001c + x.bits]
  | .atomXor x => [0x98000020 + x.bits]
  | .atomExch x => [0x98000024 + x.bits]
  | .atomFadd x => [0x98000028 + x.bits]
  | .atomInc x => [0x9800002c + x.bits]
  | .atomAdd64 x => [0x98000030 + x.bits]
  | .atomExch64 x => [0x98000034 + x.bits]
  | .cas x => [0x9c000010 + x.bits]
  | .snap x => [0xa1000000 + x.bits]
  | .fenceEng => [0xa5000000]
  | .fenceIo => [0xa5040000]
  | .copy x => [0xa8000000 + x.bits, x.bits2]
  | .gath x => [0xac000000 + x.bits, x.bits2]
  | .scat x => [0xb0000000 + x.bits, x.bits2]
  | .coll x => [0xb4000000 + x.bits, x.bits2]
  | .cwait x => [0xb8000000 + x.bits]
  | .ftest x => [0xbd000000 + x.bits]
  | .fcancel x => [0xbd040000 + x.bits]
  | .fwait x => [0xbd080000 + x.bits]
  | .tld x => [0xc0000000 + x.bits]
  | .tst x => [0xc4000000 + x.bits]
  | .tzero x => [0xc8000000 + x.bits]
  | .tfree x => [0xc8040000 + x.bits]
  | .tstate x => [0xc8080000 + x.bits]
  | .tmark x => [0xc80c0000 + x.bits]
  | .arrive x => [0xcc000000 + x.bits]
  | .await x => [0xcc040000 + x.bits]
  | .mma x => [0xd2000000 + x.bits, x.bits2]
  | .drain x => [0xd5000000 + x.bits, x.bits2]
  | .azero x => [0xd8000000 + x.bits]
  | .asave x => [0xd8040000 + x.bits]
  | .aload x => [0xd8080000 + x.bits]
  | .astat x => [0xd80c0000 + x.bits]
  | .bra x => [0xdc000000 + x.bits]
  | .call x => [0xe0000000 + x.bits]
  | .brx x => [0xe4000000 + x.bits]
  | .callx x => [0xe4000001 + x.bits]
  | .nop x => [0xe8000000 + x.bits]
  | .ret x => [0xe8040000 + x.bits]
  | .exitT x => [0xe8080000 + x.bits]
  | .join => [0xe80c0000]
  | .yield => [0xe9100000]
  | .pyield => [0xe8140000]
  | .jpt x => [0xec000000 + x.bits]
  | .sjoin x => [0xf1000000 + x.bits]
  | .sleave x => [0xf1040000 + x.bits]
  | .sinfo x => [0xf1080000 + x.bits]
  | .bar x => [0xf20c0000 + x.bits]
  | .gbar => [0xf3100000]
  | .launch x => [0xf1140000 + x.bits]
  | .arm x => [0xf1180000 + x.bits]
  | .disarm x => [0xf11c0000 + x.bits]
  | .vcreate x => [0xf9000000 + x.bits]
  | .vopen x => [0xf9040000 + x.bits]
  | .vhand x => [0xf9080000 + x.bits]
  | .vdrop x => [0xf90c0000 + x.bits]
  | .vquery x => [0xf9100000 + x.bits]
  | .vdup x => [0xf9140000 + x.bits]
  | .trap x => [0xfc000000 + x.bits]
  | .brk x => [0xfd040000 + x.bits]
  | .srd x => [0xfd080000 + x.bits]
  | .swr x => [0xfd0c0000 + x.bits]
  | .clk x => [0xfd100000 + x.bits]
  | .grow x => [0xfd140000 + x.bits]
  | .shrink x => [0xfd180000 + x.bits]
  | .tret x => [0xfd1c0000 + x.bits]
  | .sample x => [0xfd200000 + x.bits]
  | _ => []

/-- The words of an instruction. -/
def encode (i : Instr) : List Word := (encodeNat i).map (BitVec.ofNat 32)

/-- Word 1 of an instruction, which TINFO reports (18 R292). -/
def word1 (i : Instr) : Word := (encode i).headD 0

/-- The bytes of an instruction as they lie in code memory. -/
def encodeBytes (i : Instr) : List Byte := (encode i).flatMap bytesOfWord

/-- The bytes of a table word: bit 0 is the least significant bit of word 1, and every bit above nbits is zero. Eight bytes
are laid out, the length of the longest instruction. -/
def tableBytes (nbits w : Nat) : List Byte :=
  let v := w % 2 ^ nbits
  bytesOfWord (BitVec.ofNat 32 v) ++ bytesOfWord (BitVec.ofNat 32 (v / 2 ^ 32))

/-- What the decoder reads from a table word. -/
def decodeTableWord (nbits w : Nat) : Option Instr :=
  match decodeBytes (tableBytes nbits w) with
  | .ok (i, _) => some i
  | .error _ => none

end Sys2Proof
end

