-- ==== Sys2Proof/Machine/Memory.lean ====
section
/-!
DEFINITION. Memory: one list of bytes for every space, translation (09 R174), handles (09 R167 to R169), the checks of an
access (09 R172), timestamps (10 R192) and the pail (10 R200).
-/

namespace Sys2Proof.Machine

/-- The spaces a handle or a tile name reaches. -/
inductive Space where
  /-- Device physical memory (01 R16). -/
  | dev
  /-- A host's bus addresses, by the virtual interface whose link carries them (09 R168). -/
  | host (fn : Nat)
  /-- Memory of another package: fabric node and remote handle (09 R168). -/
  | remote (node num : Nat)
  /-- The local scratch of a block (03 R73). -/
  | scratch (block : Nat)
  /-- Tile t of a warp (11 R208). -/
  | tile (warp t : Nat)
  /-- The copy of a local vat on a core (14 R241). -/
  | vat (id core : Nat)
  deriving DecidableEq, Repr

/-- The number of a space: its kind in the low three bits. -/
def Space.num : Space → Nat
  | .dev => 0
  | .host fn => 8 * fn + 1
  | .remote n r => 8 * (4096 * n + r) + 2
  | .scratch b => 8 * b + 3
  | .tile w t => 8 * (16 * w + t) + 4
  | .vat id core => 8 * (256 * id + core) + 5

/-- The memory key of a byte of a space; an offset stays below 2^64. -/
def Space.key (sp : Space) (off : Nat) : Nat := sp.num * 2 ^ 64 + off % 2 ^ 64

/-- Is a key outside the package (10 R199)? -/
def isExternal (key : Nat) : Bool := key / 2 ^ 64 % 8 == 1 || key / 2 ^ 64 % 8 == 2

/-- What a byte that nothing has written reads as, where that is one fixed value: 0 in device memory and in vats (log 1,
14 R241); local scratch, tiles and what lies outside have no fixed value (log 2, log 3). -/
def unlisted (key : Nat) : Option Byte :=
  match key / 2 ^ 64 % 8 with
  | 0 => some 0
  | 5 => some 0
  | _ => none

namespace Mem

/-- One byte. -/
def read (mem : List Host.Cell) (key : Nat) : Byte :=
  match Map.find? mem key with
  | some b => b
  | none =>
    match unlisted key with
    | some b => b
    | none => Config.localByte key

/-- n bytes. -/
def readN (mem : List Host.Cell) (key n : Nat) : List Byte := (List.range n).map (fun i => read mem (key + i))

/-- The cells of some bytes: a byte equal to what an unlisted address reads as has none. -/
def cells : Nat → List Byte → List Host.Cell
  | _, [] => []
  | k, b :: bs => if unlisted k = some b then cells (k + 1) bs else (k, b) :: cells (k + 1) bs

/-- Write bytes from a key up. -/
def write (mem : List Host.Cell) (key : Nat) (bs : List Byte) : List Host.Cell :=
  mem.filter (fun c => decide (c.1 < key)) ++ cells key bs ++ mem.filter (fun c => decide (key + bs.length ≤ c.1))

/-- The canonical form: keys strictly rise, and no cell holds what an unlisted address reads as. -/
def wf (mem : List Host.Cell) : Bool := Map.sorted mem && mem.all (fun c => unlisted c.1 != some c.2)

end Mem

/-- A little-endian value of device memory, by device physical address. -/
def Mach.phys (m : Mach) (pa n : Nat) : Nat := natOfBytes (Mem.readN m.mem (Space.dev.key pa) n)

/-- A field of a context's header (18 R296). -/
def Mach.hdr (m : Mach) (c off n : Nat) : Nat := m.phys ((m.ctx c).hdr + off) n

/-- The kinds of access that the checks tell apart. -/
inductive Acc where
  | read | write | atomic | snap | fetch
  deriving DecidableEq, Repr

/-- Does the access need W in the page (09 R174)? -/
def Acc.writes : Acc → Bool
  | .read => false | .fetch => false | .write => true | .atomic => true | .snap => true

/-- One level of the walk: shift of the index, number of entries, whether a leaf and a further table are permitted, and the size that
a failing step reports (09 R174, R175). -/
structure Level where
  shift : Nat
  entries : Nat
  leaf : Bool
  table : Bool
  report : Nat

/-- The four levels (09 R174). -/
def levels : List Level :=
  [{ shift := 39, entries := 512, leaf := false, table := true, report := 2 ^ 30 },
   { shift := 30, entries := 512, leaf := true, table := true, report := 2 ^ 30 },
   { shift := 21, entries := 512, leaf := true, table := true, report := 2 ^ 21 },
   { shift := 16, entries := 32, leaf := true, table := false, report := 2 ^ 16 }]

/-- The walk of R174: the device physical address, or the size of the page that the failing step would map (R175). -/
def walk (m : Mach) (acc : Acc) (va : Nat) : List Level → Nat → Except Nat Nat
  | [], _ => .error (2 ^ 16)
  | l :: ls, table =>
    let e := m.phys (table + 8 * (va / 2 ^ l.shift % l.entries)) 8
    let addr := e / 256 % 2 ^ 40 * 256
    if e % 2 = 0 ∨ e / 2 ^ 48 ≠ 0 ∨ e / 16 % 16 ≠ 0 then .error l.report
    else if e / 2 % 2 = 1 then
      if !l.leaf then .error l.report
      else if addr % 2 ^ l.shift ≠ 0 ∨ addr ≥ Config.deviceBytes then .error (2 ^ l.shift)
      else if acc.writes ∧ e / 4 % 2 = 0 then .error (2 ^ l.shift)
      else if acc = .fetch ∧ e / 8 % 2 = 0 then .error (2 ^ l.shift)
      else .ok (addr + va % 2 ^ l.shift)
    else if !l.table ∨ addr % (if l.shift = 21 then 256 else 4096) ≠ 0 ∨ addr ≥ Config.deviceBytes then .error l.report
    else walk m acc va ls addr

/-- Translation in a context (09 R174). -/
def translate (m : Mach) (c : Nat) (acc : Acc) (va : Nat) : Except Nat Nat :=
  if m.hdr c 0 8 ≥ Config.deviceBytes then .error (2 ^ 30) else walk m acc va levels (m.hdr c 0 8)

/-- The die that holds a device physical address (01 R16). -/
def dieOf (pa : Nat) : Nat := pa / Config.dieBytes

/-- The home slice of a device physical address on its die (01 R16; 09 R177). -/
def homeSlice (pa : Nat) : Nat :=
  let a := pa % Config.dieBytes
  (a / 2 ^ 8 % 32) ^^^ (a / 2 ^ 13 % 32) ^^^ (a / 2 ^ 18 % 32) ^^^ (a / 2 ^ 23 % 32) ^^^ (a / 2 ^ 28 % 32)

/-- Is a 2 MiB region tagged management, as the last 2 GiB of each die's memory is from package start on (20 R308)? -/
def isManagement (r : Nat) : Bool := decide (0x2F80000000 ≤ r * 2 ^ 21 % Config.dieBytes) && decide (r * 2 ^ 21 < Config.deviceBytes)

/-- The world tag of a device physical address (20 R308): 0 non-secure, 1 secure, 2 management. -/
def Mach.tag (m : Mach) (pa : Nat) : Nat := if isManagement (pa / 2 ^ 21) then 2 else (Map.find? m.tags (pa / 2 ^ 21)).getD 0

/-- A fault of warp k at its current word with the current path's mask. -/
def Mach.fault (m : Mach) (k : Nat) (sc : Nat) (c : Cause) : FaultInfo :=
  let w := m.warp k
  { cause := c, sc := sc, tpc := w.path.pc, tmask := w.path.mask, taddr := 0, tinfo := 0, va := 0 }

/-- Read a table of the context through its own translation and world (09 R167). -/
def tableRead (m : Mach) (c : Nat) (f : FaultInfo) (va n : Nat) : Except Stop (List Byte) :=
  match translate m c .read va with
  | .error size => .error (.held 2 { f with cause := .xlate, va := va } (va / size * size) size)
  | .ok pa =>
    if m.tag pa = (m.ctx c).world then .ok (Mem.readN m.mem (Space.dev.key pa) n)
    else .error (.ctx 5 { f with va := va })

/-- A handle entry from its 32 bytes (09 R167). -/
def HEntry.ofBytes (bs : List Byte) : HEntry :=
  let n := natOfBytes bs
  { base := n % 2 ^ 64, length := n / 2 ^ 64 % 2 ^ 64, kind := n / 2 ^ 128 % 256, access := n / 2 ^ 136 % 256,
    policy := n / 2 ^ 144 % 256, world := n / 2 ^ 152 % 256, spec := n / 2 ^ 160 % 2 ^ 32 }

/-- The rules of R167 and R168 for an entry of the context's table, whose kinds 2 and 3 the device alone supplies. -/
def HEntry.valid (e : HEntry) (reserved : Nat) : Bool :=
  reserved == 0 && decide (e.access < 16) && decide (e.policy < 4) && decide (e.world < 2) &&
  (if e.kind = 6 then decide (e.base + e.length ≤ 2 ^ 64) else decide (e.base < 2 ^ 48) && decide (e.base + e.length ≤ 2 ^ 48)) &&
  (match e.kind with
   | 1 => e.spec == 0
   | 4 => e.spec == 0 && e.base % 64 == 0 && e.length % 64 == 0
   | 5 => e.spec == 0 && e.base % 8 == 0 && e.length == 8
   | 6 => decide (e.spec < 256) && e.policy == 3
   | 7 => e.spec % 256 == 0 && e.policy == 3 && e.world == 0
   | 8 => e.spec == 0 && e.base % 4 == 0
   | 9 => decide (e.spec < 64)
   | _ => false)

/-- An entry of the context's handle table; none if it is invalid (09 R167). -/
def tableHandle (m : Mach) (c : Nat) (f : FaultInfo) (h : Nat) : Except Stop (Option HEntry) :=
  (tableRead m c f (m.hdr c 8 8 + 32 * h) 32).map (fun bs =>
    let e := HEntry.ofBytes bs
    if e.valid (natOfBytes bs / 2 ^ 192) then some e else none)

/-- The base of the context's image (18 R296). -/
def imageBase (m : Mach) (c : Nat) (f : FaultInfo) : Except Stop Nat :=
  (tableHandle m c f (m.hdr c 0x36 2)).map (fun e => (e.getD default).base)

/-- The bound generation of a weight set replaces base and length of the set's handle (20 R319). -/
def boundGen (m : Mach) (b : Block) (h : Nat) (e : HEntry) : Option HEntry :=
  let cx := m.ctx b.ctx
  match cx.wsets.find? (fun s => s.2.handle == h) with
  | none => some e
  | some (i, s) =>
    match Map.find? ((Map.find? cx.pend b.seq).getD default).gens i with
    | none => none
    | some g => let gen := (Map.find? s.gens g).getD default; some { e with base := gen.base, length := gen.length }

/-- The vat in a slot of a core's directory (14 R243). -/
def Mach.vatAt (m : Mach) (core slot : Nat) : Nat :=
  ((m.vats.find? (fun e => Map.find? e.2.slots core == some slot)).map (·.1)).getD 0

/-- The local-store offset of the copy in a slot of a core's directory, a multiple of 4,096 (14 R245): the copies stand in the order
of their slots (DESIGN CHOICE, log 37). -/
def Mach.vatOffset (m : Mach) (core slot : Nat) : Nat :=
  4096 * ((m.vats.filter (fun e => !e.2.acc && (Map.find? e.2.slots core).any (fun i => decide (i < slot)))).map (fun e => e.2.size)).sum

/-- The entry a handle number names in a block (09 R167, R169; 14 R245); none if it is invalid. -/
def handleOf (m : Mach) (bk : Nat) (f : FaultInfo) (h : Nat) : Except Stop (Option HEntry) :=
  let b := m.block bk
  if h ≥ 4096 then .ok none
  else if h = 0 then
    .ok (some { base := 0, length := b.lr.locals, kind := 2, access := 7, policy := 0, world := b.world, spec := 0 })
  else if h = 1 then
    (imageBase m b.ctx f).map (fun base =>
      some { base := base + 0x1000 + 512 * ((Map.find? (m.ctx b.ctx).pend b.seq).getD default).slot, length := 256,
             kind := 1, access := 1, policy := 0, world := b.world, spec := 0 })
  else if 4064 ≤ h then
    match Map.find? b.vatH (h - 4064) with
    | none => .ok none
    | some (v, wr) =>
      let x := m.vat v
      .ok ((Map.find? x.slots b.core).map (fun slot =>
        { base := if x.acc then 0 else m.vatOffset b.core slot, length := if x.acc then 4 * x.size else 4096 * x.size, kind := 3,
          access := if x.acc then 0 else if wr then 7 else 1, policy := 0, world := x.world, spec := slot }))
  else (tableHandle m b.ctx f h).map (fun e => e.bind (boundGen m b h))

/-- What a data instruction asks of the kind of its handle (09 R168). -/
inductive Use where
  | ld | st | ldp | ldr | atom (op : Nat) | cas | snap | record | bulk
  deriving DecidableEq, Repr

/-- The kinds a data instruction on a core accepts (09 R168). -/
def accepts (m : Mach) (core : Nat) (e : HEntry) (u : Use) (n : Nat) : Bool :=
  match e.kind with
  | 1 => u != .snap
  | 2 => match u with | .snap => false | .bulk => false | _ => true
  | 3 => match u with | .snap => false | .bulk => false | _ => !(m.vat (m.vatAt core e.spec)).acc
  | 4 => match u with
    | .ld => n == 4 | .st => n == 4 | .ldp => n == 4 | .cas => n == 4 | .snap => true
    | .atom op => n == 4 && op != 10
    | _ => false
  | 5 => match u with
    | .ld => n == 8 | .st => n == 8 | .ldp => n == 8 | .cas => n == 8
    | .atom op => op == 12 || op == 13
    | _ => false
  | 6 => match u with
    | .snap => false | .bulk => false
    | .atom op => op == 0 || op == 9 || op == 12 || op == 13
    | _ => true
  | 7 => match u with | .snap => false | .bulk => false | _ => true
  | 9 => match u with | .snap => false | .bulk => false | _ => true
  | _ => false

/-- A place that an access reaches. -/
structure Loc where
  key : Nat
  kind : Nat
  h : Nat
  off : Nat
  policy : Nat
  /-- The virtual address, or the offset where there is none. -/
  va : Nat
  deriving DecidableEq, Repr, Inhabited

/-- A check of R172 that an access fails: its place in the order, and for XLATE the address and the page. -/
structure AccFail where
  rank : Nat
  va : Nat
  size : Nat
  deriving DecidableEq, Repr

/-- The gang-mate block that a kind-9 handle names (09 R168). -/
def gangMate (m : Mach) (b : Block) (i : Nat) : Nat :=
  ((m.blocks.find? (fun e => e.2.ctx == b.ctx && e.2.seq == b.seq &&
    e.2.flat == b.flat / b.lr.gang * b.lr.gang + i)).map (·.1)).getD 0

/-- The access bits an access needs: R 1, W 2, A 4 (09 R172, SNAP). -/
def Acc.need : Acc → Nat
  | .read => 1 | .write => 2 | .atomic => 4 | .snap => 7 | .fetch => 8

/-- May an access that comes through an export entry from a node be made at all (20 R317)? -/
def Mach.admits (m : Mach) (x : ExportEntry) (src : Nat) : Bool :=
  (x.node == 0xFFFF || x.node == src) && (Map.find? m.ctxs x.ctx).isSome

/-- The place of an access of n bytes through an export entry of type 1, after the checks of R172 on the handle it names; none where it is
refused (20 R317). -/
def remotePlace (m : Mach) (x : ExportEntry) (src : Nat) (u : Use) (acc : Acc) (off n : Nat) : Option Nat :=
  if x.typ ≠ 1 ∨ !m.admits x src then none
  else match (if 2 ≤ x.num ∧ x.num < 4064 then tableHandle m x.ctx default x.num else .ok none) with
    | .ok (some e) =>
      if e.world ≠ 0 ∨ e.kind = 9 ∨ !accepts m 0 e u n ∨ e.access &&& acc.need ≠ acc.need ∨ e.length < off + n ∨ off % n ≠ 0 then none
      else match e.kind with
        | 6 => some ((Space.host e.spec).key (e.base + off))
        | 7 => some ((Space.remote (e.spec / 2 ^ 20) (e.spec / 256 % 4096)).key (e.base + off))
        | _ => match translate m x.ctx acc (e.base + off) with
          | .error _ => none
          | .ok pa => if m.tag pa = 0 then some (Space.dev.key pa) else none
    | _ => none

/-- The node number that names this package (20 R316). -/
def selfNode : Nat := 0xFFF

/-- Where a kind-7 access goes (20 R316): to the node its handle names, or through this package's own export table. One that the table
refuses, and one to a tag port, keep a place at node 0xFFF, where loads fail. -/
def fabricKey (m : Mach) (e : HEntry) (u : Use) (acc : Acc) (off n : Nat) : Nat :=
  let node := e.spec / 2 ^ 20
  let entry := e.spec / 256 % 4096
  let far := (Space.remote node entry).key (e.base + off)
  if node ≠ selfNode then far
  else ((Map.find? m.exports entry).bind (fun x => remotePlace m x selfNode u acc (e.base + off) n)).getD far

/-- Is a key a place at this package's own node that is no memory? -/
def isSelf (key : Nat) : Bool := key / 2 ^ 64 % 8 == 2 && key / 2 ^ 67 / 4096 == selfNode

/-- A store to such a place (20 R317; 09 R177): through a tag port it is a message, and else it fails without effect. -/
def Mach.sendSelf (m : Mach) (key : Nat) (bs : List (Nat × Byte)) : Mach :=
  let entry := key / 2 ^ 67 % 4096
  match Map.find? m.exports entry with
  | some x => if x.typ = 2 ∧ m.admits x selfNode then { m with sent := m.sent ++ [{ entry := entry, bytes := bs }] } else m
  | none => m

/-- Checks 2 to 6 of R172 for one access of n bytes at an offset, aligned to al, and the place it reaches. -/
def place (m : Mach) (bk : Nat) (e : HEntry) (h : Nat) (acc : Acc) (off n al : Nat) (u : Use := .ld) : Except AccFail Loc :=
  let b := m.block bk
  if off + n > e.length then .error ⟨2, 0, 0⟩
  else if off % al ≠ 0 then .error ⟨3, 0, 0⟩
  else if e.access &&& acc.need ≠ acc.need ∨ (e.world = 1 ∧ b.world = 0) then .error ⟨4, 0, 0⟩
  else
    let at_ (k : Nat) (va := off) : Except AccFail Loc :=
      .ok { key := k, kind := e.kind, h := h, off := off, policy := e.policy, va := va }
    match e.kind with
    | 2 => at_ ((Space.scratch bk).key off)
    | 3 => at_ ((Space.vat (m.vatAt b.core e.spec) b.core).key off)
    | 6 => at_ ((Space.host e.spec).key (e.base + off))
    | 7 => at_ (fabricKey m e u acc off n)
    | 9 => at_ ((Space.scratch (gangMate m b e.spec)).key (e.base + off))
    | _ =>
      let va := e.base + off
      match translate m b.ctx acc va with
      | .error size => .error ⟨5, va, size⟩
      | .ok pa => if m.tag pa = e.world then at_ (Space.dev.key pa) va else .error ⟨6, 0, 0⟩

/-- A gang-local access needs a gang that has the member (09 R168). -/
def gangOk (b : Block) (e : HEntry) : Bool := e.kind != 9 || (b.lr.isGang && decide (e.spec < b.lr.gang))

/-- The cause of a failed check of R172. -/
def rankCause : Nat → Cause
  | 1 => .handle | 2 => .bounds | 3 => .align | 4 => .perm | 5 => .xlate | _ => .perm

/-- The fault of some lanes' failed checks (09 R172, 18 R292): the earliest check that any lane fails, the lanes that fail
it, and the offset of the lowest of them. -/
def failLanes (f : FaultInfo) (h acc : Nat) (fails : List (Nat × Nat × AccFail)) : Option Stop :=
  match minBy (fun x => x.2.2.rank) fails with
  | none => none
  | some (_, off, x) =>
    let lanes := (fails.filter (fun y => y.2.2.rank == x.rank)).map (·.1)
    let f := { f with cause := rankCause x.rank, tmask := if f.sc = 0 then maskOf lanes else f.tmask,
                      taddr := BitVec.ofNat 32 off,
                      tinfo := BitVec.ofNat 32 (h % 4096 + acc * 4096 + if x.rank = 6 then 65536 else 0) }
    if x.rank = 5 then some (.held 0 { f with va := x.va } (x.va / x.size * x.size) x.size) else some (.trap f)

/-- The checks of R172 for every lane of an access, and the place of each. A lane is given with its offset. -/
def places (m : Mach) (bk : Nat) (f : FaultInfo) (h : Nat) (u : Use) (acc : Acc) (code n al : Nat)
    (lanes : List (Nat × Nat)) : Except Stop (List (Nat × Loc)) := do
  if lanes.isEmpty then return []
  let f := { f with tinfo := BitVec.ofNat 32 (h % 4096 + code * 4096),
                    taddr := BitVec.ofNat 32 ((lanes.headD default).2),
                    tmask := if f.sc = 0 then maskOf (lanes.map (·.1)) else f.tmask }
  match ← handleOf m bk f h with
  | none => throw (.trap { f with cause := .handle })
  | some e =>
    if !accepts m (m.block bk).core e u n || !gangOk (m.block bk) e then throw (.trap { f with cause := .handle })
    let rs := lanes.map (fun l => (l, place m bk e h acc l.2 n al u))
    let fails := rs.filterMap (fun r => match r.2 with | .error x => some (r.1.1, r.1.2, x) | .ok _ => none)
    match failLanes f h code fails with
    | some st => throw st
    | none => return rs.filterMap (fun r => match r.2 with | .ok l => some (r.1.1, l) | .error _ => none)

/-- The unit a byte outside the package comes through: the host link or the fabric (21 R335, R336). -/
def externalUnit (key : Nat) : Word :=
  if key / 2 ^ 64 % 8 == 1 then BitVec.ofNat 32 (4 * 2 ^ 29 + 24 * 2 ^ 14) else BitVec.ofNat 32 (5 * 2 ^ 29 + 25 * 2 ^ 14)

/-- The poison mark of the parts that n bytes touch (21 R329). -/
def Mach.poisonAt (m : Mach) (key n : Nat) : Option Word :=
  (Map.range m.poison (key / 16) ((key + n - 1) / 16 + 1)).head?.map (·.2)

/-- The latest held store to a byte (10 R200). -/
def heldByte (pail : List Held) (key : Nat) : Option Byte :=
  pail.foldl (fun r h => if h.key ≤ key ∧ key < h.key + h.bytes.length then h.bytes[key - h.key]? else r) none

/-- The bytes a load of a block returns: through the pail while it holds stores (10 R200), else from memory; bytes from
outside the package are free at every reading (log 3). -/
def Mach.loadBytes (m : Mach) (pail : List Held) (key n : Nat) : List Byte :=
  if isExternal key then (List.range n).map (fun i => Config.extByte (key + i) m.tick)
  else (List.range n).map (fun i => (heldByte pail (key + i)).getD (Mem.read m.mem (key + i)))

/-- The held stores that the loads of a block read through (10 R200). -/
def Block.pailFor (b : Block) : List Held := if b.holding then b.pail else []

/-- A load takes its place in the memory order at the home (10 R192): the lease grows, and pts follows the write. -/
def Mach.stampLoad (m : Mach) (k key lease : Nat) : Mach :=
  if isExternal key then m.tickOn
  else
    let w := m.warp k
    let sec := key / 64
    let wts := (Map.find? m.wts sec).getD 0
    let rts := (Map.find? m.rts sec).getD 0
    let t := max w.pts wts
    { m with rts := Map.ins m.rts sec (max rts (t + lease)) }.setWarp k { w with pts := t }

/-- A write takes its place after every lease granted on its sector (10 R192). -/
def Mach.stampStore (m : Mach) (k key : Nat) : Mach :=
  if isExternal key then m
  else
    let w := m.warp k
    let sec := key / 64
    let t := max w.pts ((Map.find? m.rts sec).getD 0 + 1)
    { m with wts := Map.ins m.wts sec t, rts := Map.ins m.rts sec t }.setWarp k { w with pts := t }

/-- The replicas of a launch's lines are dropped as it completes or aborts (09 R179). -/
def Mach.dropReplicasOf (m : Mach) (c seq : Nat) : Mach :=
  { m with replicas := m.replicas.filter (fun e => e.2.ctx != c || e.2.seq != seq) }

/-- A write of the device to some sectors takes its place after a timestamp and every lease granted on them (10 R192). -/
def Mach.stampAt (m : Mach) (pts : Nat) (secs : List Nat) : Mach :=
  secs.foldl (fun m sec =>
    let t := max pts ((Map.find? m.rts sec).getD 0 + 1)
    { m with wts := Map.ins m.wts sec t, rts := Map.ins m.rts sec t }) m

/-- Write bytes to memory; a write of a whole 16-byte part clears its mark (21 R329). -/
def Mach.poke (m : Mach) (key : Nat) (bs : List Byte) : Mach :=
  let lo := (key + 15) / 16
  let hi := (key + bs.length) / 16
  { m with mem := Mem.write m.mem key bs, poison := if lo < hi then Map.dropRange m.poison lo hi else m.poison }

/-- A store performed at its home. -/
def Mach.perform (m : Mach) (k key : Nat) (bs : List Byte) : Mach :=
  if isSelf key then m.sendSelf key (bs.zipIdx.map (fun b => (key % 2 ^ 64 + b.2, b.1))) else (m.stampStore k key).poke key bs

/-- Commit a block's pail: every held store is performed, in retirement order (10 R200). -/
def commit (m : Mach) (k : Nat) : Mach :=
  let bk := (m.warp k).block
  let b := m.block bk
  if !b.holding then m
  else (b.pail.foldl (fun m h => m.perform k h.key h.bytes) m).updBlock bk (fun b => { b with pail := [], committed := true })

/-- The sector of a held store, by the handle and the offset that its pail entry names (18 R297; DEDUCED, log 15). -/
def heldSector (h : Held) : Nat := h.h * 2 ^ 64 + h.off / 64

/-- The distinct 64-byte sectors of a pail (10 R200). -/
def pailSectors (pail : List Held) : Nat := distinct (pail.map heldSector)

/-- A store of a warp: held in the pail, or performed after a commit that it forces (10 R200). -/
def storeBytes (m : Mach) (k : Nat) (l : Loc) (bs : List Byte) : Mach :=
  let bk := (m.warp k).block
  let b := m.block bk
  if !b.holding then m.perform k l.key bs
  else if l.kind = 1 ∨ l.kind = 3 ∨ l.kind = 9 then
    let pail := b.pail ++ [{ h := l.h, off := l.off, key := l.key, bytes := bs }]
    if pailSectors pail > 1024 then (commit m k).perform k l.key bs
    else m.updBlock bk (fun b => { b with pail := pail })
  else if l.kind = 2 then m.perform k l.key bs
  else (commit m k).perform k l.key bs

/-- Commit before an atomic access of any kind but 2 (10 R200). -/
def commitFor (m : Mach) (k : Nat) (kind : Nat) : Mach := if kind = 2 then m else commit m k

end Sys2Proof.Machine
end

