-- ==== Sys2Proof/Machine/Ops.lean ====
section
/-!
DEFINITION. The operations that instructions and events share: error records (21 R337), fault records (18 R293), stopping a
context (18 R295), taking an exception (18 R287, 04 R97), held service (09 R175), the freeze of a core (21 R331).
-/

namespace Sys2Proof.Machine

/-- The place of a signal (16 R263): a kind-5 handle of the context, translated with the launch's world. An error of some
address and size is a translation miss; of none, an unusable signal. -/
def signalPlace (m : Mach) (c world h : Nat) : Except (Option (Nat × Nat)) Nat :=
  match tableHandle m c default h with
  | .error (.held _ f _ size) => .error (some (f.va, size))
  | .error _ => .error none
  | .ok none => .error none
  | .ok (some e) =>
    if e.kind ≠ 5 ∨ e.access % 8 ≠ 7 then .error none
    else match translate m c .atomic e.base with
      | .error size => .error (some (e.base, size))
      | .ok pa => if m.tag pa = e.world ∧ (e.world = 0 ∨ world = 1) then .ok (Space.dev.key pa) else .error none

/-- The signed value of a signal. -/
def signalValue (m : Mach) (key : Nat) : Int := (BitVec.ofNat 64 (natOfBytes (Mem.readN m.mem key 8))).toInt

/-- One atomic step of a completion signal, after a timestamp: completion has status 0 (16 R263; 10 R198). -/
def signalStep (m : Mach) (key status pts : Nat) : Mach :=
  let old := signalValue m key
  let new := if old < 0 then old else if status = 0 then old - 1 else - (status : Int)
  (m.stampAt pts [key / 64]).poke key (bytesOfNat 8 (BitVec.ofInt 64 new).toNat)

/-- Write to the context's image through its translation (18 R296); none where that fails. -/
def imageWrite (m : Mach) (c off : Nat) (bs : List Byte) : Option Mach :=
  match imageBase m c default with
  | .error _ => none
  | .ok base =>
    match translate m c .write (base + off) with
    | .error _ => none
    | .ok pa => if m.tag pa = (m.ctx c).world then
        some ((m.stampAt 0 (rangeFrom (pa / 64) ((pa + bs.length + 63) / 64 - pa / 64))).poke (Space.dev.key pa) bs) else none

/-- The greatest write timestamp of n bytes of the context's image. -/
def imageTime (m : Mach) (c off n : Nat) : Nat :=
  match (imageBase m c default).toOption.bind (fun base => (translate m c .read (base + off)).toOption) with
  | none => 0
  | some pa => (rangeFrom (pa / 64) ((pa + n + 63) / 64 - pa / 64)).foldl (fun t sec => max t ((Map.find? m.wts sec).getD 0)) 0

/-- The fields of a pending-set entry after the record (18 R296). -/
def pendFields (l : Launch) (seq state : Nat) : List Byte :=
  bytesOfNat 4 (l.prio * 2 ^ 30 + l.src * 2 ^ 28 + seq % 2 ^ 24) ++ bytesOfNat 4 state ++ bytesOfNat 8 l.deadline ++
    bytesOfNat 4 l.next ++ bytesOfNat 4 l.done

/-- End a LAUNCH operation with its launch's status and timestamp (16 LAUNCH; 10 R196). -/
def endLaunchOps (m : Mach) (c seq status pts : Nat) : Mach :=
  { m with ops := m.ops.map (fun e =>
      if e.2.ctx = c ∧ e.2.cmd = .launch seq then (e.1, { e.2 with ended := some status, pts := max e.2.pts pts }) else e) }

/-- A launch leaves its context's pending set. -/
def Mach.dropLaunch (m : Mach) (c seq : Nat) : Mach := m.updCtx c (fun x => { x with pend := Map.del x.pend seq })

/-- A launch is to take the failure step of its completion signal (16 R263): it takes it and leaves the pending set, or stays there
as failed until the signal's translation has been served. One that entered with its signals translated, and whose signal is
unusable now, stays too, and the context is stopped for it. -/
def takeFailure (m : Mach) (c seq status : Nat) : Mach :=
  let cx := m.ctx c
  let l := (Map.find? cx.pend seq).getD default
  let later : Mach := m.updCtx c (fun x => { x with pend := Map.upd x.pend seq (fun l =>
    { l with st := 4, gens := [], svc := [], failing := some status }) })
  if l.lr.done = 0 then m.dropLaunch c seq
  else match signalPlace m c cx.world l.lr.done with
    | .ok key => (signalStep m key status l.pts).dropLaunch c seq
    | .error (some _) => later
    | .error none => if l.ready then later else m.dropLaunch c seq

/-- A launch fails (16 R262, R263): its entry and its LAUNCH show it, and its completion signal takes the failure step. -/
def failLaunch (m : Mach) (c seq status : Nat) : Mach :=
  let l := (Map.find? (m.ctx c).pend seq).getD default
  if l.failing.isSome then m
  else
    let m := (imageWrite m c (0x1100 + 512 * l.slot) (pendFields l seq 4)).getD m
    takeFailure (endLaunchOps ((m.dropReplicasOf c seq).count c 57 1) c seq status l.pts) c seq status

/-- The 64 bytes of an error record (21 R337). -/
def errBytes (seq cls sev : Nat) (unit : Word) (syn addr ns : Nat) (who : Option (Block × Warp)) (fn dropped lane : Nat) :
    List Byte :=
  bytesOfNat 4 seq ++ bytesOfNat 2 0 ++ bytesOfNat 1 cls ++ bytesOfNat 1 sev ++ bytesOfNat 4 unit.toNat ++ bytesOfNat 4 1 ++
    bytesOfNat 8 syn ++ bytesOfNat 8 addr ++ bytesOfNat 8 ns ++
    (match who with
     | none => [0xFF, 0xFF, BitVec.ofNat 8 (min 255 dropped), 0] ++ bytesOfNat 4 0 ++ bytesOfNat 16 0
     | some (b, w) => bytesOfNat 1 b.ctx ++ bytesOfNat 1 fn ++ [BitVec.ofNat 8 (min 255 dropped), 0] ++
         bytesOfNat 4 (launchId b).toNat ++ bytesOfNat 4 b.flat ++ bytesOfNat 1 w.idx ++ bytesOfNat 1 lane ++ bytesOfNat 10 0)

/-- Write a record on a function's error ring, or count it as dropped (21 R338). -/
def errPut (m : Mach) (fn : Nat) (mk : Nat → Nat → List Byte) : Mach :=
  match Map.find? m.errs fn with
  | none => m
  | some r =>
    let cons := natOfBytes (m.loadBytes [] ((Space.host fn).key (r.addr + 4)) 4)
    let m := m.tickOn
    if (r.prod + 2 ^ 32 - cons) % 2 ^ 32 < r.entries then
      let bs := mk r.seq r.dropped
      let m := m.poke ((Space.host fn).key (r.addr + 64 + 64 * (r.prod % r.entries))) bs
      let m := m.poke ((Space.host fn).key r.addr) (bytesOfNat 4 (r.prod + 1))
      { m with errs := Map.ins m.errs fn { r with prod := (r.prod + 1) % 2 ^ 32, seq := r.seq + 1, dropped := 0 },
               errLog := m.errLog ++ [(fn, bs)] }.raise fn 4
    else { m with errs := Map.ins m.errs fn { r with dropped := r.dropped + 1 } }

/-- The core a unit belongs to (21 R335). -/
def unitCore (unit : Word) : Nat := bits unit 31 23

/-- A checked mismatch is charged to its unit (21 R328): a second within 24 hours makes the core suspect, and a CHKFAIL has
its team tested. -/
def chargeUnit (m : Mach) (unit : Word) (fail : Bool) : Mach :=
  let key := 2 * unit.toNat + fail.toNat
  let core := unitCore unit
  let again := (Map.find? m.charges key).any (fun t => decide (m.ns ≤ t + 86400000000000))
  { m with charges := Map.ins m.charges key m.ns,
           suspects := if again && !m.suspects.contains core then m.suspects ++ [core] else m.suspects,
           testDue := if fail && !m.testDue.contains (core / 8) then m.testDue ++ [core / 8] else m.testDue }

/-- An error event: the PF ring receives every record, and the ring of the context's function the attributed ones
(21 R338). `pa` is the PF's address field and `va` the context's. -/
def errRecord (m : Mach) (cls sev : Nat) (unit : Word) (syn pa va : Nat) (k : Option Nat) (lane : Nat) : Mach :=
  let m := m.tickOn
  let m := if cls = 3 then chargeUnit m unit (sev == 2) else m
  let who := k.map (fun k => (m.blockOf k, m.warp k))
  let fn := match who with | some (b, _) => (m.ctx b.ctx).fn | none => 0
  let m' := errPut m 0 (fun seq d => errBytes seq cls sev unit syn pa m.ns who fn d lane)
  if fn = 0 then m' else errPut m' fn (fun seq d => errBytes seq cls sev unit syn va m.ns who fn d lane)

/-- What became of a fault record. -/
inductive RecordResult where
  | written (m : Mach)
  | full
  | broken

/-- Put a fault record on a context's queue (18 R293): the record first, then the producer index, then the interrupt. The
record's sequence number and time are filled in here. -/
def putRecord (m : Mach) (c : Nat) (mk : Nat → Nat → List Byte) : RecordResult :=
  let entries := m.hdr c 0x28 4
  let prod := m.hdr c 0x2C 4
  if (prod + 2 ^ 32 - m.hdr c 0x30 4) % 2 ^ 32 ≥ entries then .full
  else
    match translate m c .write (m.hdr c 0x20 8 + 64 * (prod % entries)) with
    | .error _ => .broken
    | .ok pa =>
      if m.tag pa ≠ (m.ctx c).world then .broken
      else
        let m := m.tickOn
        let m := m.poke (Space.dev.key pa) (mk (m.ctx c).faultSeq m.ns)
        let m := m.poke (Space.dev.key ((m.ctx c).hdr + 0x2C)) (bytesOfNat 4 (prod + 1))
        let m := m.updCtx c (fun x => { x with faultSeq := (x.faultSeq + 1) % 2 ^ 32 })
        .written ((m.count c 65 1).raise (m.ctx c).fn 0)

/-- TCLASS (18 R291). -/
def tclass (w : Warp) (sc wide set : Nat) : Word :=
  BitVec.ofNat 32 ((w.path.clause.map (·.cls)).getD 0 + 4 * sc + 16 * w.role + 64 * wide + 256 * w.set.getD set)

/-- The code handle of the path a warp runs (18 R287). -/
def codeHandle (m : Mach) (k : Nat) : Nat :=
  let b := m.blockOf k
  if (m.warp k).trap.isSome then m.hdr b.ctx 0x34 2 else b.lr.code

/-- The SC field of a warp's oldest unretired word (18 R291): 0 where the word cannot be fetched. -/
def oldestSc (m : Mach) (k : Nat) : Nat :=
  let w := m.warp k
  let h := codeHandle m k
  let pc := if w.path.clause.isSome then w.path.pc else w.path.pc + 4
  match handleOf m w.block default h with
  | .ok (some e) =>
    match place m w.block e h .fetch pc.toNat 4 4 with
    | .ok l => natOfBytes (Mem.readN m.mem l.key 4) / 2 ^ 24 % 4
    | .error _ => 0
  | _ => 0

/-- A fault that comes to a warp from outside its instruction: at its oldest unretired word (18 R286). -/
def Mach.outside (m : Mach) (k : Nat) (c : Cause) : FaultInfo := m.fault k (oldestSc m k) c

/-- The 64 bytes of a fault record of a warp at a word of some code handle (18 R293). -/
def recordAt (m : Mach) (code kind k : Nat) (f : FaultInfo) (tset : Word) (tcl : Word) (reason seq ns : Nat) : List Byte :=
  let w := m.warp k
  let b := m.blockOf k
  [BitVec.ofNat 8 kind, BitVec.ofNat 8 f.cause.code] ++ bytesOfNat 2 code ++ bytesOfNat 4 seq ++ bytesOfNat 8 ns ++
    bytesOfNat 4 f.tpc.toNat ++ bytesOfNat 4 f.tmask.toNat ++ bytesOfNat 4 f.taddr.toNat ++ bytesOfNat 4 f.tinfo.toNat ++
    bytesOfNat 4 tset.toNat ++ bytesOfNat 4 tcl.toNat ++ bytesOfNat 4 (warpSlot b w).toNat ++ bytesOfNat 4 b.flat ++
    bytesOfNat 4 (launchId b).toNat ++ bytesOfNat 1 b.core ++ bytesOfNat 1 w.idx ++ bytesOfNat 2 reason ++
    bytesOfNat 8 (f.va % 2 ^ 48)

/-- The record of a warp at the code it runs. -/
def recordBytes (m : Mach) (kind k : Nat) (f : FaultInfo) (tset : Word) (tcl : Word) (reason seq ns : Nat) : List Byte :=
  recordAt m (codeHandle m k) kind k f tset tcl reason seq ns

/-- A record of kind 3 without a warp (18 R286, R295). -/
def stopBytes (reason seq ns : Nat) : List Byte :=
  [3, 0] ++ bytesOfNat 2 0 ++ bytesOfNat 4 seq ++ bytesOfNat 8 ns ++ bytesOfNat 38 0 ++ bytesOfNat 2 reason ++ bytesOfNat 8 0

/-- Write the state and the stop reason into the context's header (18 R296). -/
def headerState (m : Mach) (c : Nat) : Mach :=
  let x := m.ctx c
  m.poke (Space.dev.key (x.hdr + 0x40)) (bytesOfNat 4 x.st ++ bytesOfNat 4 x.reason)

/-- Stop a context (18 R295): issue ends, COLLs end ABORTED and operations that wait for service are abandoned, every launch of the
pending set fails with ABORTED, seated blocks are saved without PREEMPT once their in-flight counts are zero (06 R119), and a
kind-3 record follows, at once or when the queue has room. -/
def stopCtx (m : Mach) (c reason : Nat) (who : Option (Nat × FaultInfo)) : Mach :=
  if (m.ctx c).st = 3 then m else
  let m := m.updCtx c (fun x => { x with st := 3, reason := reason })
  let m := headerState m c
  let stop (e : Nat × Op) : Nat × Op :=
    if e.2.ctx ≠ c ∨ e.2.ended.isSome then e
    else match e.2.cmd with
      | .coll .. => (e.1, { e.2 with ended := some 11, held := none })
      | _ => if e.2.held.isSome then (e.1, { e.2 with ended := some 1, held := none }) else e
  let m : Mach := { m with ops := m.ops.map stop }
  let mk (m : Mach) (seq ns : Nat) : List Byte :=
    match who with
    | some (k, f) => recordBytes m 3 k { f with va := 0 } 0 (tclass (m.warp k) f.sc 0 0) reason seq ns
    | none => stopBytes reason seq ns
  let m := ((m.ctx c).pend.map (·.1)).foldl (fun m seq => failLaunch m c seq 11) m
  let save (e : Nat × Block) : Nat × Block :=
    if e.2.ctx = c ∧ e.2.pre ≠ .saved ∧ e.2.pre ≠ .gone then (e.1, { e.2 with pre := .copying, plain := true }) else e
  let m : Mach := { m with blocks := m.blocks.map save }
  let m := match putRecord m c (mk m) with
    | .written m' => m'
    | _ => m.updCtx c (fun x => { x with waiting := x.waiting ++ [mk m 0 0] })
  m.raise (m.ctx c).fn 1

/-- Entry to trap mode (18 R287): the trap registers are set, k0 to k15 are created zero, the paths, records and rotation
are frozen as they stand, and the warp runs a trap path at the header's trap entry. A signature stays (04 R88). -/
def enterTrap (m : Mach) (k : Nat) (f : FaultInfo) (tset : Word) (wide set : Nat) : Mach :=
  let w := m.warp k
  let c := m.ctxOf k
  let path : Path :=
    { pc := BitVec.ofNat 32 (m.hdr c 0x38 4), mask := w.live, inner := none, dem := 0, st := .runnable,
      clause := none, ord := w.path.ord, cnt := w.path.cnt, turn := 0, spilled := false, park := 0 }
  let w' : Warp :=
    { w with
      tcause := BitVec.ofNat 32 f.cause.code, tpc := f.tpc, taddr := f.taddr, tinfo := f.tinfo, tmask := f.tmask, tset := tset,
      tclass := tclass w f.sc wide set, trap := some { paths := w.paths, recs := w.recs, tpcWritten := false,
                                                        debug := w.run == .debug, susp := w.run == .suspended, pass := w.pass },
      s := Map.dropRange w.s 64 80, lines := w.lines.filter (fun l => l != 50) ++ [50], filled := Map.del w.filled 50,
      bad := Map.del w.bad 50, paths := [path], recs := [], run := .ready, wait := none, pass := false }
  (m.setWarp k w').count c 64 1

/-- Hold a warp until the fault queue has room (18 R293). -/
def queueWarp (m : Mach) (k : Nat) (st : Stop) : Mach := m.updWarp k (fun w => { w with run := .queued st })

/-- A warp's own trap (18 R286, R288): a record of kind 1, then trap mode; in trap mode the context stops with reason 2.
TRAPI, BREAK and PREEMPT write no record. -/
def takeTrap (m : Mach) (k : Nat) (f : FaultInfo) : Mach :=
  let w := m.warp k
  let c := m.ctxOf k
  if w.trap.isSome then stopCtx m c 2 (some (k, f))
  else if f.cause = .trapi ∨ f.cause = .brk ∨ f.cause = .preempt then enterTrap m k f 0 0 0
  else
    match putRecord m c (recordBytes m 1 k f 0 (tclass w f.sc 0 0) 0) with
    | .written m => enterTrap m k f 0 0 0
    | .full => queueWarp m k (.trap f)
    | .broken => stopCtx m c 5 (some (k, f))

/-- The warp that reports a wide fault: the lowest live member that is not in trap mode (04 R97). -/
def wideReporter (m : Mach) (members : List Nat) : Option Nat := members.find? (fun j => (m.warp j).trap.isNone)

/-- The warp-index mask of some warps. -/
def Mach.idxMask (m : Mach) (ks : List Nat) : Word := maskOf (ks.map (fun j => (m.warp j).idx))

/-- A set-wide or block-wide fault (04 R97): one record of kind 2; the reporter enters trap mode; every other live member not
in trap mode is suspended with MEMBER. With every live member in trap mode the fault waits, its record with it, for the first
member that resumes. -/
def raiseWide (m : Mach) (k : Nat) (blk : Bool) (members : List Nat) (set : Nat) (f : FaultInfo) : Mach :=
  let bk := (m.warp k).block
  let c := (m.block bk).ctx
  let rep := wideReporter m members
  let susp := members.filter (fun j => (m.warp j).trap.isNone && some j != rep)
  let tset := m.idxMask susp
  let f := { f with va := 0 }
  let x : Wide := { blk := blk, set := set, members := m.idxMask members, reporter := rep, suspended := tset, info := f }
  match rep with
  | none =>
    let m := m.updWarps members (fun _ w => { w with sig := none, wait := none })
    m.updBlock bk (fun b => { b with wides := b.wides ++ [x] })
  | some j =>
    let w := m.warp j
    let wide := if blk then 2 else 1
    let f := { f with tpc := w.path.pc, tmask := w.path.mask }
    match putRecord m c (recordBytes m 2 j f tset (tclass w f.sc wide set) 0) with
    | .full => queueWarp m k (.wide blk f)
    | .broken => stopCtx m c 5 (some (k, f))
    | .written m =>
      let m := m.updWarps members (fun _ w => { w with sig := none, wait := none })
      let m := m.updWarps susp (fun _ w => { w with run := .suspended })
      let m := m.updBlock bk (fun b => { b with wides := b.wides ++ [{ x with info := f }] })
      enterTrap m j f tset wide set

/-- Two faults fall on one page when the page of either contains the other's address (09 R175). -/
def Service.covers (s : Service) (va base size : Nat) : Bool :=
  (decide (s.base ≤ va) && decide (va < s.base + s.size)) || (decide (base ≤ s.va) && decide (s.va < base + size))

/-- Hold a warp for service (09 R175): a record of kind 0, or the unserviced record of that page. -/
def holdWarp (m : Mach) (k what : Nat) (f : FaultInfo) (base size : Nat) : Mach :=
  let c := m.ctxOf k
  match (m.ctx c).services.find? (fun s => s.2.covers f.va base size) with
  | some (seq, _) => m.updWarp k (fun w => { w with run := .held seq what f })
  | none =>
    let seq := (m.ctx c).faultSeq
    match putRecord m c (recordBytes m 0 k f 0 (tclass (m.warp k) f.sc 0 0) 0) with
    | .full => queueWarp m k (.held what f base size)
    | .broken => stopCtx m c 5 (some (k, f))
    | .written m =>
      let m := if what = 1 then m else m.count c 27 1
      let m := m.updCtx c (fun x => { x with services := Map.ins x.services seq { va := f.va, base := base, size := size } })
      m.updWarp k (fun w => { w with run := .held seq what f })

/-- Block kinds 16, 17 and the links are memory, the host or the fabric; the others are arrays of a core (21 R330, R336). -/
def memoryOrigin (unit : Word) : Bool := decide (16 ≤ bits unit 20 14)

/-- The class of a record by its unit (21 R337). -/
def unitClass (unit : Word) : Nat :=
  match bits unit 20 14 with
  | 17 => 1
  | 18 => 2
  | 24 => 2
  | 25 => 2
  | _ => 0

/-- A consumption freezes the core (21 R330, R331): a record of severity 3, and the snapshot for the supervisor. -/
def freezeCore (m : Mach) (k : Nat) (unit : Word) (pa : Nat) (f : FaultInfo) : Mach :=
  let b := m.blockOf k
  let fn := (m.ctx b.ctx).fn
  let seq := ((Map.find? m.errs fn).getD default).seq
  let m := errRecord m (unitClass unit) 3 unit 0 pa f.va (some k) 0
  let m := m.count b.ctx 74 1
  match Map.find? m.frozen b.core with
  | some _ => m
  | none =>
    let z : Freeze := { memory := memoryOrigin unit, unit := unit, warp := k, record := seq }
    { m with frozen := Map.ins m.frozen b.core z }

/-- What an instruction's stop does to the machine. The instruction itself has taken no effect (04 R84). -/
def deliver (m : Mach) (k : Nat) : Stop → Mach
  | .trap f => takeTrap m k f
  | .wide blk f =>
    let w := m.warp k
    if blk then raiseWide m k true (m.liveOf w.block) 0 f
    else raiseWide m k false (m.members k 2) (w.set.getD 0) f
  | .held what f base size => holdWarp m k what f base size
  | .consume unit pa f => freezeCore m k unit pa f
  | .ctx reason f => stopCtx m (m.ctxOf k) reason (some (k, f))
  | .wait wt => m.updWarp k (fun w => { w with wait := some wt })

/-- Release the members that a reporter's leaving frees (04 R97): they sign again. A member that two wide faults suspended is
released with the first of them (DESIGN CHOICE, log 33). -/
def releaseWide (m : Mach) (k : Nat) : Mach :=
  let w := m.warp k
  match (m.block w.block).wides.find? (fun x => x.reporter == some k) with
  | none => m
  | some x =>
    let m := m.updBlock w.block (fun b => { b with wides := b.wides.filter (fun y => y.reporter != some k) })
    m.updWarps ((m.liveOf w.block).filter (fun j => x.suspended.getLsbD (m.warp j).idx)) (fun _ w =>
      { w with run := if w.run == .suspended then .ready else w.run, trap := w.trap.map (fun (t : TrapSt) => { t with susp := false }) })

end Sys2Proof.Machine
end

