-- ==== Sys2Proof/Machine/Paths.lean ====
section
/-!
DEFINITION. Paths, records and turns (05), the exit of threads (05 EXIT) and leaving a set (04 R94, R98).
-/

namespace Sys2Proof.Machine

def Path.runnable (p : Path) : Bool := p.st == .runnable

/-- The next runnable path in rotation becomes current, with a fresh turn (05 R110); without one the order stays. -/
def rotate (ps : List Path) : List Path :=
  if ps.any Path.runnable then
    match ps.dropWhile (fun p => !p.runnable) ++ ps.takeWhile (fun p => !p.runnable) with
    | [] => []
    | p :: r => { p with turn := 0 } :: r
  else ps

/-- The current path's turn ends: it goes behind its siblings (05 R110). -/
def endTurn (ps : List Path) : List Path :=
  match ps with
  | [] => []
  | p :: r => rotate (r ++ [p])

/-- A turn in which 4,096 instructions have retired ends (05 R110). -/
def Warp.limitTurn (w : Warp) : Warp := if w.path.turn < 4096 then w else { w with paths := endTurn w.paths }

/-- The turn of the current path is over with the instruction that retires now (05 R110). -/
def Warp.spendTurn (w : Warp) : Warp := w.setPath { w.path with turn := 4095 }

/-- The current path parks (05 R110). -/
def parkCur (w : Warp) (st : PathState) : Warp :=
  match w.paths with
  | [] => w
  | p :: r => { w with paths := { p with st := st, park := w.parks } :: r, parks := w.parks + 1 }

/-- The innermost record of the current path. -/
def Warp.innerRec (w : Warp) : Option (Nat × Rec) :=
  w.path.inner.bind (fun i => (Map.find? w.recs i).map (fun r => (i, r)))

/-- The last of the paths parked at a record (05 R102). -/
def lastArrived (ps : List Path) (i : Nat) : Option Path :=
  (ps.filter (fun p => p.inner == some i && (p.st == .atJoin || p.st == .atRet))).foldl
    (fun a p => match a with | none => some p | some q => if q.park < p.park then some p else some q) none

/-- Does a record complete: is every live lane of its entry mask in its arrival mask (05 R102)? -/
def Rec.complete (r : Rec) (live : Word) : Bool := (r.entry &&& live) &&& ~~~ r.arrival == 0

/-- Completion of a record (05 R102): the parked paths are freed and one path of the arrived live lanes takes the place of
the last to arrive. -/
def completeRec (w : Warp) (i : Nat) : Warp :=
  match Map.find? w.recs i with
  | none => w
  | some r =>
    if !r.complete w.live then w
    else
      let recs := Map.del w.recs i
      match lastArrived w.paths i with
      | none => { w with recs := recs }
      | some q =>
        let p : Path :=
          { q with pc := if r.call then r.addr else q.pc + 4, mask := r.arrival &&& w.live, inner := r.parent, dem := 0,
                   st := .runnable, clause := none }
        let gone (x : Path) : Bool := x.inner == some i && (x.st == .atJoin || x.st == .atRet) && x != q
        { w with recs := recs, paths := (w.paths.filter (fun x => !gone x)).map (fun x => if x == q then p else x) }

/-- Offset of a warp record from its block record's start (18 R297, R298). -/
def warpRecordOff (b : Block) (idx : Nat) : Nat := 0x200 + idx * (0x1D80 + cdiv b.lr.spill 128 * 128)

/-- Bytes of an accumulator image of n tiles (12 R237). -/
def imageSize (n : Nat) : Nat := 1536 * n + 128 * cdiv n 2

/-- Bytes of an accumulator save of n tiles: images of 64 tiles and the rest (18 R299). -/
def accSaveLen (n : Nat) : Nat := 102400 * (n / 64) + imageSize (n % 64)

/-- Where the scratch copy, the pail and the saves stand in a block record: after the warp records, in this order, with room for
a full pail where the block is restartable (log 15). -/
def scratchOff (b : Block) : Nat := warpRecordOff b b.lr.nW
def pailOff (b : Block) : Nat := scratchOff b + cdiv b.lr.locals 128 * 128
def pailRoom (r : LaunchRec) : Nat := if r.restartable then 96 * 1024 else 0
def savesOff (b : Block) : Nat := pailOff b + pailRoom b.lr

/-- The tile save of a warp, and behind it its accumulator save, from the block record's start. -/
def tileSaveOff (m : Mach) (bk idx : Nat) : Nat :=
  savesOff (m.block bk) + (((m.warpsOf bk).filter (fun e => decide (e.2.idx < idx))).map (fun e =>
    3072 * e.2.nt + accSaveLen e.2.na)).sum
def accSaveOff (m : Mach) (k : Nat) : Nat :=
  let w := m.warp k
  tileSaveOff m w.block w.idx + 3072 * w.nt

/-- The length of a block record with its saves. -/
def recordLen (m : Mach) (bk : Nat) : Nat := tileSaveOff m bk 32

/-- The spilled entries of a table of paths and records. -/
def spilledIn (ps : List Path) (rs : List (Nat × Rec)) : Nat :=
  (ps.filter Path.spilled).length + (rs.filter (fun e => e.2.spilled)).length

/-- The bytes in spill (05 R104): in trap mode the interrupted program's entries stay there. -/
def spillBytes (w : Warp) : Nat :=
  16 * ((match w.trap with | none => 0 | some t => spilledIn t.paths t.recs) + spilledIn w.paths w.recs)

/-- Which resident path entry is spilled first (05 R103): the parked one that parked longest ago, else the runnable one
latest in rotation; never the current path. -/
def spillPathChoice (ps : List Path) : Option Path :=
  let rest := (ps.drop 1).filter (fun p => !p.spilled)
  match minBy Path.park (rest.filter (fun p => !p.runnable)) with
  | some p => some p
  | none => rest.getLast?

/-- Spill path entries until at most n stay resident. An instruction that makes several paths has made them all before the
choice (DESIGN CHOICE, log 31). -/
def spillPaths (n : Nat) : Nat → List Path → List Path
  | 0, ps => ps
  | fuel + 1, ps =>
    if (ps.filter (fun p => !p.spilled)).length ≤ n then ps
    else match spillPathChoice ps with
      | none => ps
      | some q => spillPaths n fuel (ps.map (fun p => if p == q then { p with spilled := true } else p))

/-- Spill records until at most n stay resident (05 R103). -/
def spillRecs (n : Nat) : Nat → Warp → Warp
  | 0, w => w
  | fuel + 1, w =>
    let res : List (Nat × Rec) := w.recs.filter (fun e => !e.2.spilled)
    if res.length ≤ n then w
    else
      let named (i : Nat) : Bool := w.paths.any (fun p => !p.spilled && p.inner == some i)
      let ids : List Nat := res.map (fun e => e.1)
      let victim : Option Nat := match ids.find? (fun i => !named i) with
        | some i => some i
        | none => ids.find? (fun i => w.path.inner != some i)
      match victim with
      | none => w
      | some i =>
        let hd := w.paths.take 1
        let tl := (w.paths.drop 1).map (fun (p : Path) => if p.inner == some i then { p with spilled := true } else p)
        spillRecs n fuel { w with paths := hd ++ tl, recs := Map.upd w.recs i (fun r => { r with spilled := true }) }

/-- A spill (a write) or a fill (a read) accesses 16 bytes of the warp's spill area through the context's translation
(05 R105). -/
def spillTouch (m : Mach) (k : Nat) (f : FaultInfo) (fill : Bool) (off : Nat) : Except Stop Unit := do
  let w := m.warp k
  let b := m.block w.block
  let f := { f with cause := .spill, tinfo := if fill then 1 else 0 }
  let base ← imageBase m b.ctx f
  let va := base + m.hdr b.ctx 0x48 8 + b.recOff + warpRecordOff b w.idx + 0x1D80 + off
  match translate m b.ctx (if fill then .read else .write) va with
  | .error size => throw (.held 1 { f with va := va } (va / size * size) size)
  | .ok pa => if m.tag pa = (m.ctx b.ctx).world then return () else throw (.ctx 5 { f with va := va })

/-- The accesses that take the bytes in spill from `before` down to `low` and then up to `after`: entries leave at the end of
what is in spill and join there (DESIGN CHOICE, log 31). -/
def spillTouches (m : Mach) (k : Nat) (f : FaultInfo) (before low after : Nat) : Except Stop Unit := do
  for i in List.range ((before - low) / 16) do spillTouch m k f true (before - 16 * (i + 1))
  for i in List.range ((after - low) / 16) do spillTouch m k f false (low + 16 * i)

/-- Bring the current path's entry and record `need` back into the slot. -/
def fillEntries (w : Warp) (need : Option Nat) : Warp :=
  { w with
    paths := match w.paths with | [] => [] | p :: r => { p with spilled := false } :: r
    recs := match need with | none => w.recs | some i => Map.upd w.recs i (fun r => { r with spilled := false }) }

/-- Keep 16 path entries and 8 records resident: the table after an instruction that needs the current path and record
`need` in the slot and makes the paths and records that `make` adds, `pushed` of them records; or the fault of R104 and R105.
A record is chosen before the push (05 R103). -/
def residency (m : Mach) (k : Nat) (f : FaultInfo) (w : Warp) (need : Option Nat) (pushed : Nat := 0)
    (make : Warp → Warp := id) : Except Stop Warp :=
  let w1 := fillEntries w need
  let w2 := make (spillRecs (8 - pushed) 64 w1)
  let w3 := { w2 with paths := spillPaths 16 64 w2.paths }
  if spillBytes w1 = spillBytes w ∧ spillBytes w3 = spillBytes w1 then .ok w3
  else if spillBytes w3 > (m.blockOf k).lr.spill / 16 * 16 then
    .error (.trap { f with cause := .stackovf, tinfo := BitVec.ofNat 32 (spillBytes w3) })
  else (spillTouches m k f (spillBytes w) (spillBytes w1) (spillBytes w3)).map (fun _ => w3)

/-- What a warp-level rendezvous comes to (04 R87, R89; 05 R109). -/
inductive Gather where
  /-- Every live thread stands at the address: the paths have merged. -/
  | go (w : Warp)
  /-- The path parks and a sibling runs on. -/
  | parked (w : Warp)
  /-- Every path is parked and they cannot meet: SCOPEMIS. -/
  | mismatch (f : FaultInfo)

/-- The address at which another path is parked: the one that holds the lowest lane (18 R292); 0 where none is parked, as may
be at a JOIN or a RET without its record (DESIGN CHOICE, log 32). -/
def otherParked (ps : List Path) : Word :=
  match minBy (fun p => lowest p.mask) ((ps.drop 1).filter (fun p => !p.runnable)) with
  | some p => p.pc
  | none => 0

/-- SCOPEMIS of the warp at its current path (05 R109). -/
def pathMismatch (m : Mach) (k sc : Nat) : FaultInfo :=
  let w := m.warp k
  { m.fault k sc .scopemis with tmask := w.path.mask, tinfo := otherParked w.paths }

/-- The rendezvous of a warp-scope instruction (04 R89; 05 R109). The merged path keeps the demotion count of the path that
arrived last (DESIGN CHOICE, log 14). -/
def gather (m : Mach) (k sc : Nat) : Gather :=
  let w := m.warp k
  let p := w.path
  if p.mask = w.live then .go w
  else
    let rest := w.paths.drop 1
    if rest.all (fun q => q.st == .atWarp && q.pc == p.pc && q.inner == p.inner) then
      .go { w with paths := [{ p with mask := w.live, st := .runnable }] }
    else if rest.any Path.runnable then .parked { parkCur w .atWarp with paths := rotate (parkCur w .atWarp).paths }
    else .mismatch (pathMismatch m k sc)

/-- Operations that will write a warp's registers, tiles or window (06 R119). -/
def Op.writesTo (o : Op) (k : Nat) : Bool :=
  match o.cmd with
  | .xfer false _ _ _ _ _ parts => parts.any (fun p => p.owner == k)
  | .mma _ _ _ _ _ _ _ _ members => members.any (fun x => x.1 == k)
  | .drain w _ _ _ _ _ _ tile _ => w == k || (match tile with | some (o, _) => o == k | none => false)
  | .azero _ _ members => members.any (fun x => x.1 == k)
  | .aload _ _ _ _ _ members => members.any (fun x => x.1 == k)
  | _ => false

/-- The in-flight count of a warp (06 R119), with what 11 R211 and 12 R226 add to it for its tiles. -/
def inFlight (m : Mach) (k : Nat) : Nat := (m.ops.filter (fun e => e.2.writesTo k)).length

/-- A tile of the warp that is draining or held holds its save and its SHRINK (11 R211, 12 R226). -/
def tilesBusy (w : Warp) : Bool := w.tiles.any (fun e => e.2.st == 1 || e.2.st == 3 || e.2.holds != 0)

/-- A member leaves its set (04 R94); a set that breaks while a member stands signed raises SETBROKEN at once (04 R98). -/
def leaveSet (m : Mach) (k : Nat) : Mach :=
  let w := m.warp k
  match w.set with
  | none => m
  | some i =>
    let x := (m.block w.block).set i
    let members := x.members &&& ~~~ bit w.idx
    let free : SetRec := { st := 0, size := 0, departed := 0, members := 0 }
    let x' : SetRec :=
      if members = 0 then free
      else if x.st = 1 then { x with members := members }
      else { x with st := 3, departed := x.departed + 1, members := members }
    let m := m.updBlock w.block (fun b => { b with sets := Map.ins b.sets i x' })
    let m := m.updWarp k (fun w => { w with set := none })
    let rest := (m.setMembers w.block i).filter (fun j => (m.warp j).isLive)
    match x'.st == 3, rest.find? (fun j => (m.warp j).sig.any (fun s => s.y == i + 1)) with
    | true, some j => raiseWide m j false rest i { m.fault j 2 .setbroken with tinfo := BitVec.ofNat 32 i }
    | _, _ => m

/-- The bytes of a sample record (21 R345); the queue clocks and the replays are free (log 20). -/
def sampleBytes (m : Mach) (k : Nat) (valid : Bool) (instr last mask sectors : Nat) : List Byte :=
  let w := m.warp k
  let b := m.blockOf k
  [if valid then 1 else 0, BitVec.ofNat 8 instr, BitVec.ofNat 8 last, 0] ++ bytesOfNat 2 (codeHandle m k) ++
    bytesOfNat 2 w.path.ord ++ bytesOfNat 4 w.path.cnt ++ bytesOfNat 4 mask ++ bytesOfNat 2 sectors ++
    bytesOfNat 2 (Config.freeWord 0 m.tick).toNat ++
    (rangeFrom 1 5).flatMap (fun i => bytesOfNat 4 (Config.freeWord i m.tick).toNat) ++
    bytesOfNat 4 (launchId b).toNat ++ bytesOfNat 4 (warpSlot b w).toNat ++ bytesOfNat 8 m.ns ++ bytesOfNat 8 0

/-- Write the armed sample's record: the operation issued by SAMPLE now has its data (21 R345). -/
def fireSample (m : Mach) (k : Nat) (valid : Bool) (instr last mask sectors : Nat) : Mach :=
  match (m.warp k).sample with
  | none => m
  | some _ =>
    let m := m.tickOn
    let bs := sampleBytes m k valid instr last mask sectors
    let fill (e : Nat × Op) : Nat × Op :=
      match e.2.cmd with
      | .sample h off he [] => if e.2.issuers.any (fun i => i.1 == k) then (e.1, { e.2 with cmd := .sample h off he bs }) else e
      | _ => e
    { m with ops := m.ops.map fill }.updWarp k (fun w => { w with sample := none })

/-- Every live thread of a warp has exited (04 R74, R94; 21 R345). -/
def warpExited (m : Mach) (k : Nat) : Mach :=
  let m := m.updWarp k (fun w => { w with live := 0, paths := [], recs := [], run := .exited, sig := none, wait := none, grow := none, granted := false })
  let m := fireSample m k false 0 0xFF 0 0
  if inFlight m k = 0 then leaveSet m k else m

/-- Records that some lanes entered, innermost first. -/
def recordsOf (w : Warp) (x : Word) : List Nat :=
  ((w.recs.filter (fun e => e.2.entry &&& x != 0)).map (·.1)).reverse

/-- After a path is gone: the next runnable path in rotation runs; paths that all stand at one warp-scope address merge
there (04 R89; 05 R109). -/
def settle (w : Warp) : Warp :=
  let ps :=
    if w.paths.any Path.runnable then rotate w.paths
    else match w.paths with
      | [] => []
      | p :: r =>
        if p.st == .atWarp && r.all (fun q => q.st == .atWarp && q.pc == p.pc && q.inner == p.inner) then
          [{ p with mask := w.live, st := .runnable, turn := 0 }]
        else p :: r
  { w with paths := ps }

/-- The lanes of the current path exit (05 EXIT): records that waited for them may complete, and the next path runs. -/
def exitPath (w : Warp) : Warp :=
  let x := w.path.mask
  let w1 : Warp := { w with live := w.live &&& ~~~ x, paths := w.paths.drop 1 }
  settle ((recordsOf w x).foldl completeRec w1)

/-- No GROW of the warp waits (06 R122). -/
def Warp.noGrow (w : Warp) : Warp := { w with grow := none, granted := false }

/-- Trap mode ends: the trap-bank line is discarded (18 R289). -/
def Warp.noBank (w : Warp) : Warp :=
  { w with trap := none, s := Map.dropRange w.s 64 80, lines := w.lines.filter (fun l => l != 50), filled := Map.del w.filled 50,
           bad := Map.del w.bad 50 }

/-- Every live lane of a warp exits, in trap mode or out of it (18 R289, R290). -/
def exitWarp (m : Mach) (k : Nat) : Mach :=
  let m := releaseWide m k
  warpExited (m.updWarp k (fun w => w.noBank)) k

/-- Exit of the current path at a machine level: the warp may have exited, or only paths that cannot meet are left; the current
one is then the next in rotation (DESIGN CHOICE, log 32). -/
def exitCur (m : Mach) (k : Nat) : Mach :=
  let w := exitPath (m.warp k)
  if w.live = 0 then exitWarp (m.setWarp k w) k
  else if w.paths.any Path.runnable then m.setWarp k w
  else deliver (m.setWarp k w) k (.trap (pathMismatch (m.setWarp k w) k 1))

/-- The frozen paths return and the current path continues at TPC (18 R289): at a header if TPC was written or lies past the
last word of the recorded clause. A signature whose instruction the warp has left does not stand (04 R88; DEDUCED, log 33). -/
def resumePaths (w : Warp) : Warp :=
  match w.trap with
  | none => w
  | some t =>
    let ps : List Path := t.paths.map (fun (p : Path) => { p with mask := p.mask &&& w.live })
    let paths : List Path := match ps with
      | [] => []
      | p :: ps =>
        let past := match p.clause with | some c => c.stop == w.tpc | none => true
        { p with pc := w.tpc, clause := if t.tpcWritten || past then none else p.clause } :: ps
    let live := paths.filter (fun (p : Path) => p.mask != 0)
    let w : Warp :=
      { w.noBank with
        sig := if t.tpcWritten then none else w.sig, grow := if t.tpcWritten then none else w.grow,
        granted := w.granted && !t.tpcWritten, vopen := if t.tpcWritten then none else w.vopen, run := if t.debug then .debug else if t.susp then .suspended else .ready,
        pass := t.pass, paths := live, recs := t.recs
        futs := w.futs.map (fun e => match e.2.reg with
               | some r => if 64 ≤ r then (e.1, { e.2 with reg := none }) else e
               | none => e) }
    if ps.all (fun (p : Path) => p.mask != 0) then w else settle ((t.recs.map (·.1)).reverse.foldl completeRec w)

/-- A wide fault of which a warp that resumes is a member although it did not report it: it became one in trap mode
(04 R97). -/
def pendingWide (m : Mach) (k : Nat) : Option Wide :=
  let w := m.warp k
  (m.block w.block).wides.find? (fun x => x.members.getLsbD w.idx && x.reporter != some k)

/-- A PREEMPT that is due is delivered to a warp outside trap mode (16 R277; 18 R288, R292). -/
def deliverPreempt (m : Mach) (k : Nat) : Mach :=
  let w := m.warp k
  match w.trap, w.preemptDue with
  | none, some restore =>
    let info := (if restore then 1 else 0) + 16 * m.hdr (m.ctxOf k) 0x36 2 + 65536 * w.na
    let off := m.hdr (m.ctxOf k) 0x48 8 + (m.block w.block).recOff + accSaveOff m k
    let f := { m.outside k .preempt with tinfo := BitVec.ofNat 32 info, taddr := BitVec.ofNat 32 off }
    enterTrap (m.updWarp k (fun w => { w with preemptDue := none })) k f 0 0 0
  | _, _ => m

/-- Return from trap mode with mode 0 (18 R289, R288; 04 R97): a wide fault of which the warp became a member comes first, then
a PREEMPT that is due. -/
def trapResume (m : Mach) (k : Nat) : Mach :=
  let m := releaseWide (m.updWarp k resumePaths) k
  let w := m.warp k
  match pendingWide m k with
  | some x =>
    match x.reporter with
    | none =>
      let m := m.updBlock w.block (fun b => { b with wides := b.wides.filter (fun y => y != x) })
      raiseWide m k x.blk ((m.liveOf w.block).filter (fun j => x.members.getLsbD (m.warp j).idx)) x.set x.info
    | some _ =>
      let m := m.updBlock w.block (fun b =>
        { b with wides := b.wides.map (fun y => if y == x then { y with suspended := y.suspended ||| bit w.idx } else y) })
      deliverPreempt (m.updWarp k (fun w => { w with run := .suspended })) k
  | none => deliverPreempt m k

end Sys2Proof.Machine
end

