-- ==== Sys2Proof/Machine/Cache.lean ====
section
/-!
DEFINITION. The register cache (06 R114 to R120): the lines of a warp and their places in its record, misses and their fills,
evictions, and the copies that the reuse hint keeps.
-/

namespace Sys2Proof.Machine

/-- Words as bytes. -/
def wordBytes (ws : List Word) : List Byte := ws.flatMap (fun w => bytesOfNat 4 w.toNat)

/-- The place of a line in a warp record (06 R114; 18 R298): vN at N, the scalar lines at 48 and 49, the trap bank at 50. -/
def lineOff (l : Nat) : Nat := if l < 48 then 0x480 + 128 * l else if l = 50 then 0x180 else 0x200 + 128 * (l - 48)

/-- The line of a scalar register by its key (06 R114). -/
def keyLine (key : Nat) : Nat := if 64 ≤ key then 50 else if key < 32 then 48 else 49

/-- The first scalar key of a line. -/
def lineKey (l : Nat) : Nat := if l = 50 then 64 else 32 * (l - 48)

/-- What a line holds (06 R114). -/
def Warp.lineBytes (w : Warp) (l : Nat) : List Byte :=
  if l < 48 then wordBytes ((List.range 32).map (w.getV l))
  else if l = 50 then wordBytes ((rangeFrom 64 16).map (Map.get w.s)) ++ bytesOfNat 64 0
  else wordBytes ((rangeFrom (lineKey l) 32).map (Map.get w.s))

/-- Put bytes into a line. -/
def Warp.setLine (w : Warp) (l : Nat) (bs : List Byte) : Warp :=
  let word (i : Nat) : Word := BitVec.ofNat 32 (natOfBytes ((bs.drop (4 * i)).take 4))
  if l < 48 then (List.range 32).foldl (fun w i => w.setV l i (word i)) w
  else { w with s := (List.range (if l = 50 then 16 else 32)).foldl (fun s i => Map.set s (lineKey l + i) (word i)) w.s }

/-- A completed future that nothing has consumed gives its register its status (11 R206), which a fill does not undo: the futures
line holds it (18 R298; DEDUCED, log 35). -/
def Warp.statuses (w : Warp) (l : Nat) : Warp :=
  w.futs.foldl (fun w e => match e.2.reg, e.2.status with
    | some r, some st => if keyLine r = l then { w with s := Map.set w.s r (BitVec.ofNat 32 st) } else w
    | _, _ => w) w

/-- Where a place of a block record stands in device memory (18 R296, R297); none where its translation or its tag fails. -/
def recordPlace (m : Mach) (bk off : Nat) (acc : Acc) : Option Nat :=
  let b := m.block bk
  match imageBase m b.ctx default with
  | .error _ => none
  | .ok image =>
    match translate m b.ctx acc (image + m.hdr b.ctx 0x48 8 + b.recOff + off) with
    | .error _ => none
    | .ok pa => if m.tag pa = (m.ctx b.ctx).world then some (Space.dev.key pa) else none

/-- Write to a block record through the context's translation; none where it fails (06 R118). -/
def recordWrite (m : Mach) (bk : Nat) (ws : List (Nat × List Byte)) : Option Mach :=
  ws.foldlM (fun m w => (recordPlace m bk w.1 .write).map (fun key => m.poke key w.2)) m

/-- The blocks that have lines on a core: those seated there, and those saved there. -/
def linesOn (m : Mach) (core : Nat) : List (Nat × Block) := m.blocks.filter (fun e => e.2.core == core && e.2.pre != .gone)

/-- The lines of a core that are in use (06 R115). The rename pool's are never architectural. -/
def usedLines (m : Mach) (core : Nat) : Nat :=
  ((linesOn m core).flatMap (fun e => (m.warpsOf e.1).map (fun x => x.2.lines.length))).sum

/-- A line leaves the cache, and its content with it. -/
def dropLine (m : Mach) (k l : Nat) : Mach :=
  m.updWarp k (fun w =>
    let w := { w with lines := w.lines.filter (fun x => x != l), filled := Map.del w.filled l, bad := Map.del w.bad l }
    if l < 48 then { w with v := Map.dropRange w.v (32 * l) (32 * l + 32) }
    else { w with s := Map.dropRange w.s (lineKey l) (lineKey l + if l = 50 then 16 else 32) })

/-- Evict a line at a miss of a context (06 R117, R118, R124): one that changed since it was filled or created is written back
with its poison marks; its content tells (log 35). -/
def evictLine (m : Mach) (by_ k l : Nat) : Mach :=
  let w := m.warp k
  let b := m.block w.block
  let place := recordPlace m w.block (warpRecordOff b w.idx + lineOff l) .write
  let m :=
    if Map.find? w.filled l = some (w.lineBytes l) then m
    else match place with
      | none => stopCtx m b.ctx 5 none
      | some key =>
        let m := (m.poke key (w.lineBytes l)).count b.ctx 2 1
        match Map.find? w.bad l with
        | none => m
        | some u => { m with poison := (rangeFrom (key / 16) 8).foldl (fun p i => Map.ins p i u) m.poison }
  let m := if by_ = b.ctx then m else m.count b.ctx 3 1
  dropLine m k l

/-- The evictable line that was marked earliest (06 R117); lines marked together go in the order of their warps and lines (log
35). Without one no line need go: seated blocks hold at most 50 lines for each of 64 warps, and trap mode one more. -/
def victimLine (m : Mach) (core : Nat) : Option (Nat × Nat) :=
  let lines (e : Nat × Block) : List (Nat × Nat) := (m.warpsOf e.1).flatMap (fun x => x.2.lines.map (fun l => (x.1, l)))
  (minBy (fun e => e.2.mark.getD 0) ((linesOn m core).filter (fun e => e.2.mark.isSome && !(lines e).isEmpty))).bind
    (fun e => (lines e).head?)

/-- Make room in a core's cache for n more lines of a context (06 R115, R117). -/
def makeLineRoom (by_ core n : Nat) : Nat → Mach → Mach
  | 0, m => m
  | fuel + 1, m =>
    if usedLines m core + n ≤ 6144 then m
    else match victimLine m core with
      | none => m
      | some (k, l) => makeLineRoom by_ core n fuel (evictLine m by_ k l)

/-- A warp with a line filled from bytes, which a unit may have marked as poisoned. -/
def Warp.fill (w : Warp) (l : Nat) (bs : List Byte) (unit : Option Word) : Warp :=
  { (w.setLine l bs).statuses l with
    lines := w.lines ++ [l], filled := Map.ins w.filled l bs, bad := match unit with | none => w.bad | some u => Map.ins w.bad l u }

/-- A fill of a line of warp k, for which there is room. -/
def lineFill (m : Mach) (k l : Nat) : Except Stop Mach :=
  let w := m.warp k
  let b := m.block w.block
  match recordPlace m w.block (warpRecordOff b w.idx + lineOff l) .read with
  | none => .error (.ctx 5 { m.fault k 0 .xlate with va := 0 })
  | some key => .ok ((m.setWarp k (w.fill l (Mem.readN m.mem key 128) (m.poisonAt key 128))).count b.ctx 1 1)

/-- A miss: the line is filled from the image with its poison marks (06 R116, R118). -/
def fillLine (m : Mach) (k l : Nat) : Except Stop Mach :=
  let b := m.blockOf k
  lineFill (makeLineRoom b.ctx b.core 1 64 m) k l

/-- An access of an instruction to a line: of warp k, line l, as an operand or not. -/
structure LineUse where
  k : Nat
  l : Nat
  operand : Bool
  deriving DecidableEq, Repr

/-- An access to a line: it is filled if it is absent (06 R116), and an operand that arrives poisoned is consumed (21 R330). -/
def touchLine (sc : Nat) (m : Mach) (u : LineUse) : Except Stop Mach :=
  if (m.warp u.k).lines.contains u.l then .ok m
  else match fillLine m u.k u.l with
    | .error st => .error st
    | .ok m' =>
      match (if u.operand then Map.find? (m'.warp u.k).bad u.l else none) with
      | some unit => .error (.consume unit 0 { m.fault u.k sc .errcons with va := 0 })
      | none => .ok m'

/-- The scalar lines of some fields of warp k. -/
def Mach.scalarUses (m : Mach) (k : Nat) (operand : Bool) (fields : List Nat) : List LineUse :=
  fields.map (fun f => { k := k, l := keyLine ((m.warp k).sKey f), operand := operand })

/-- Its vector lines of some registers, as operands. -/
def vectorUses (k : Nat) (regs : List Nat) : List LineUse := regs.map (fun r => { k := k, l := r, operand := true })

/-- Accesses to some lines, up to one that cannot be filled. -/
def touchAll (sc : Nat) (m : Mach) : List LineUse → Mach × Option Stop
  | [] => (m, none)
  | u :: us => match touchLine sc m u with
    | .error st => (m, some st)
    | .ok m' => touchAll sc m' us

/-- Accesses to some lines within an instruction's own effect. -/
def touchMore (sc : Nat) (m : Mach) (us : List LineUse) : Except Stop Mach :=
  match touchAll sc m us with
  | (_, some st) => .error st
  | (m', none) => .ok m'

/-- Lines are created for a warp (06 R116): at entry, and by GROW. -/
def createLines (m : Mach) (k : Nat) (ls : List Nat) : Mach :=
  let b := m.blockOf k
  let new := ls.filter (fun l => !(m.warp k).lines.contains l)
  (makeLineRoom b.ctx b.core new.length 64 m).updWarp k (fun w => { w with lines := w.lines ++ new })

/-- Every evictable line of a context on a core is written back or dropped (06 R118). -/
def flushLines (m : Mach) (c core : Nat) : Mach :=
  let ks := ((linesOn m core).filter (fun e => e.2.ctx == c && e.2.mark.isSome)).flatMap (fun e => m.warpsOf e.1)
  ks.foldl (fun m x => x.2.lines.foldl (fun m l => evictLine m c x.1 l) m) m

/-- The lines of a block's warps become evictable (06 R117; 16 R277). -/
def markLines (m : Mach) (bk : Nat) : Mach :=
  { m with marks := m.marks + 1 }.updBlock bk (fun b => { b with mark := some m.marks })

end Sys2Proof.Machine
end

