-- ==== Sys2Proof/Machine/Issue.lean ====
section
/-!
DEFINITION. From a fetched word to an instruction's effect: the fetch of clauses (03 R48 to R51), the checks of R67 in their
order, the rendezvous of the issue scopes (04 R86 to R91), checked execution (21 R327), and retirement (04 R83).
-/

namespace Sys2Proof.Machine

/-- What the shared checks need to know of an instruction. -/
structure Req where
  /-- The instruction itself, for its operand values and its word 1. -/
  instr : Instr
  /-- Issue scope: 0 lane, 1 warp, 2 set, 3 block (03 R53). -/
  sc : Nat
  /-- Clause class: 0 general, 1 copy, 2 matrix, 3 system (03 R49, R65). -/
  cls : Nat := 0
  /-- May stand only as the last word of its clause (03 R51). -/
  last : Bool := false
  words : Nat := 1
  /-- The vector registers it names, for REGRANGE and for registers a DRAIN will write; those of them it writes. -/
  vecs : List Nat := []
  vdsts : List Nat := []
  /-- The scalar fields it reads and writes, for futures (11 R206). -/
  srcs : List Nat := []
  dsts : List Nat := []
  /-- Scalar fields it reads in its own way, without waiting for a future (11 R219). -/
  also : List Nat := []
  /-- Needs a set of declared size 4 (03 R57). -/
  quad : Bool := false
  /-- Checked execution compares it before any state changes (21 R326); MMA and DRAIN are compared in the arrays. -/
  compare : Bool := true
  /-- Moves the progress counter (21 R343). -/
  moves : Bool := false
  /-- Further checks of item 4 of R67. -/
  range : Mach → Nat → Option (Cause × Nat) := fun _ _ => none
  /-- Those of a set-wide tile, which read member 0's operand: they fault the member alone, once every member has signed. -/
  late : Mach → Nat → Option (Cause × Nat) := fun _ _ => none

/-- Clause classes that a role may execute (03 R52). -/
def roleAllows (role cls : Nat) : Bool :=
  match role with
  | 0 => true
  | 1 => cls != 2
  | 2 => cls != 1
  | _ => cls == 0 || cls == 3

/-- May the warp issue now: it is active and ready, its context runs and holds its teams, its core is not frozen, and its
block is not being saved, unless it is in trap mode (16 R277). -/
def canIssue (m : Mach) (k : Nat) : Bool :=
  let w := m.warp k
  let b := m.block w.block
  let c := m.ctx b.ctx
  (Map.find? m.warps k).isSome && w.run == .ready && w.active && !w.paths.isEmpty && c.st == 1 && c.holds && (Map.find? m.frozen b.core).isNone &&
  (match b.pre with
   | .none => true
   | .draining => true
   | .releasing => true
   | .waiting => w.trap.isSome
   | .handlers => w.trap.isSome
   | .letting => true
   | .discarding => false
   | .saved => false
   | .gone => false
   | .copying => false)

/-- A check of item 4 of R67 beyond the vector registers, for warp k. -/
def rangeFault (q : Req) (r : Mach → Nat → Option (Cause × Nat)) (m : Mach) (k : Nat) : Option FaultInfo :=
  (r m k).map (fun e => { m.fault k q.sc e.1 with tinfo := BitVec.ofNat 32 e.2 })

/-- Is a special register's number assigned, and may it be named here (18 R291)? -/
def srAssigned (n : Nat) (trap : Bool) : Bool := decide (n ≤ 17) || (trap && decide (32 ≤ n) && decide (n ≤ 39))

/-- Instructions that are illegal where the warp stands, in trap mode or out of it (03 R65; 18 R291; log 27). -/
def legalHere (i : Instr) (trap : Bool) : Bool :=
  match i with
  | .tret _ => trap
  | .srd x => srAssigned x.b.toNat trap
  | .swr x => srAssigned x.b.toNat trap
  | _ => true

/-- Checks 1 to 4 of R67, in order, for warp k. -/
def checks (q : Req) (m : Mach) (k : Nat) : Option FaultInfo :=
  let w := m.warp k
  let p := w.path
  let cl := p.clause.getD { hdr := 0, word := 0, cls := 0, stop := 0 }
  let f := { m.fault k q.sc .illegal with tinfo := word1 q.instr }
  if q.words = 2 ∧ p.pc + 4 = cl.stop then some { f with cause := .illhdr, tinfo := cl.word }
  else if !q.instr.wf ∨ !legalHere q.instr w.trap.isSome ∨ (q.last ∧ p.pc + 4 ≠ cl.stop) then some f
  else if (q.cls ≠ 0 ∧ cl.cls ≠ q.cls) ∨ (!roleAllows w.role cl.cls ∧ w.trap.isNone) then some { f with cause := .cls }
  else if (2 ≤ q.sc ∧ w.trap.isSome) ∨ (q.sc = 2 ∧ w.set.isNone) ∨
      (q.quad ∧ (w.set.map (fun i => ((m.block w.block).set i).size)).getD 0 ≠ 4) then some { f with cause := .scope }
  else match q.vecs.find? (fun r => decide (w.nv ≤ r)) with
    | some r => some { f with cause := .regrange, tinfo := BitVec.ofNat 32 r }
    | none => rangeFault q q.range m k

/-- Does a future make the register pending, its operation not yet completed (11 R206)? -/
def Warp.pending (w : Warp) (f : Nat) : Bool := w.futs.any (fun e => e.2.reg == some (w.sKey f) && e.2.status.isNone)

/-- Element width in bits of a format code (02 R42): FP32, FP16, BF16, E4M3, E5M2, LG6, INT8, INT32. -/
def fmtWidth (fmt : Nat) : Nat :=
  match fmt with
  | 0 => 32 | 1 => 16 | 2 => 16 | 3 => 8 | 4 => 8 | 5 => 6 | 6 => 8 | _ => 32

/-- Registers that a DRAIN fills: 8, 4 or 2 (12 R231), by the output format of its slot (02 R42). -/
def drainRegs (slot : Word) : Nat := fmtWidth (bits slot 15 12) / 4

/-- A DRAIN not yet completed will write the register (12 R236): registers d to d + g - 1 of a slot of width code g. -/
def drainTargets (m : Mach) (k r : Nat) : Bool :=
  m.ops.any (fun e => match e.2.cmd with
    | .drain w _ slot _ _ _ (some d) _ _ => w == k && decide (d ≤ r) && decide (r < d + drainRegs slot)
    | _ => false)

/-- A poisoned line that the instruction would read as an operand (21 R330). -/
def badLine (w : Warp) (vecs srcs : List Nat) : Option Word :=
  (vecs ++ srcs.map (fun f => keyLine (w.sKey f))).findSome? (Map.find? w.bad)

/-- Is a warp to reload its window, or about it (18 R298, R299)? -/
def Warp.reloads (w : Warp) : Bool :=
  w.preemptDue == some true || (w.trap.isSome && w.tcause == BitVec.ofNat 32 Cause.preempt.code && w.tinfo.getLsbD 0)

/-- Are the arrays of a core frozen for the context of warp k (12 R230): from the copy of a block's save to its end, and while a
restored block reloads its windows? -/
def arraysFrozen (m : Mach) (k : Nat) : Bool :=
  let b := m.blockOf k
  m.blocks.any (fun e => e.2.ctx == b.ctx && e.2.core == b.core && e.2.pre != .saved && e.2.pre != .gone &&
    (e.2.pre == .handlers || (m.warpsOf e.1).any (fun x => x.2.reloads)))

/-- Nothing holds warp k's issue: the arrays are not frozen for a matrix command outside trap mode (12 R230), there is no future
or DRAIN its operands wait on, and no poisoned line among them. -/
def operands (q : Req) (m : Mach) (k : Nat) : Option Stop :=
  let w := m.warp k
  if q.cls = 2 ∧ w.trap.isNone ∧ arraysFrozen m k then some (.wait .frozen)
  else if q.srcs.any w.pending then some (.wait .future)
  else if q.vecs.any (drainTargets m k) then some (.wait .vector)
  else (badLine w q.vecs q.srcs).map (fun u => .consume u 0 { m.fault k q.sc .errcons with va := 0 })

/-- The access to the registers an instruction names (06 R116): the scalar sources in the warp that gives them, the others in
every member. -/
def accessed (q : Req) (m : Mach) (ms : List Nat) : List LineUse :=
  m.scalarUses (m.lead q.sc (ms.headD 0)) true q.srcs ++ m.scalarUses (m.lead q.sc (ms.headD 0)) false q.also ++
    ms.flatMap (fun j => vectorUses j q.vecs ++ m.scalarUses j false q.dsts)

/-- Those accesses, one after the other. -/
def touch (q : Req) (m : Mach) (ms : List Nat) : Mach × Option Stop := touchAll q.sc m (accessed q m ms)

/-- Whether an instruction goes ahead. -/
inductive Admission where
  | stop (m : Mach) (st : Stop)
  /-- A path has parked or a warp has signed: others must come first. -/
  | park (m : Mach)
  /-- It issues, for these members. -/
  | go (m : Mach) (members : List Nat)

/-- The signatures at a set's or block's register (04 R88, R90, R91; R97, R98). The scalar operands that member 0 or warp 0
gives are awaited before its set-wide tile is looked at (11 R206). -/
def sign (q : Req) (m : Mach) (k : Nat) : Admission :=
  let w := m.warp k
  let y := if q.sc = 3 then 0 else w.set.getD 0 + 1
  let m := m.updWarp k (fun w => { w with sig := some { y := y, code := codeHandle m k, pc := w.path.pc } })
  let st := if q.sc = 3 then 2 else ((m.block w.block).set (w.set.getD 0)).st
  let ms := m.members k q.sc
  if st = 3 then
    .stop m (.wide false { m.fault k q.sc .setbroken with tinfo := BitVec.ofNat 32 (w.set.getD 0) })
  else if st = 1 ∨ !(ms.all (fun j => (m.warp j).sig.any (fun s => s.y == y) && (m.warp j).trap.isNone)) then
    .park (m.updWarp k (fun w => { w with wait := some .rendezvous }))
  else
    let first := (m.warp (ms.headD k)).sig
    match ms.find? (fun j => (m.warp j).sig != first), operands q m (m.lead q.sc k) with
    | some j, _ =>
      .stop m (.wide (q.sc == 3) { m.fault k q.sc .scopemis with tinfo := ((m.warp j).sig.map (·.pc)).getD 0 })
    | none, some st => .stop m st
    | none, none => .go m ms

/-- The current path of warp k in the slot: a spilled one is read back before anything of it is fetched (05 R103 to R105). -/
def fillCurrent (m : Mach) (k : Nat) : Except Stop Mach :=
  if (m.warp k).path.spilled then
    (residency m k { m.fault k 0 .spill with tmask := (m.warp k).path.mask } (m.warp k) none).map (m.setWarp k)
  else .ok m

/-- Everything before an instruction's own checks: a spilled path's fill (05 R104), R67 items 1 to 4, and the rendezvous. -/
def admission (q : Req) (m : Mach) (k : Nat) : Admission :=
  match fillCurrent m k with
  | .error st => .stop m st
  | .ok m =>
    match checks q m k with
    | some f => .stop m (.trap f)
    | none =>
      if q.sc = 0 then
        match operands q m k with
        | some st => .stop m st
        | none => .go m [k]
      else
        match gather m k q.sc with
        | .parked w => .park (m.setWarp k w)
        | .mismatch f => .stop m (.trap f)
        | .go w =>
          let m := m.setWarp k w
          if q.sc = 1 then
            match operands q m k with
            | some st => .stop m st
            | none => .go m [k]
          else
            sign q m k

/-- The lane-crossbar clocks of a form; 0 for one that does not use the crossbar (07 R125). -/
def xbarClocks (i : Instr) : Nat :=
  let x := word1 i
  match majorOf x.toNat with
  | 0x14 => 1
  | 0x15 => 1
  | 0x16 => if bits x 23 18 = 3 then 5 else 2
  | 0x17 => 2
  | _ => 0

/-- Does a form run on a vector pipe (07 R125)? -/
def onPipe (i : Instr) : Bool :=
  let mj := majorOf (word1 i).toNat
  (decide (1 ≤ mj) && decide (mj ≤ 0x13)) || (decide (0x18 ≤ mj) && decide (mj ≤ 0x21))

/-- Count the pairs that a mismatch repeats: VPRETRY, and the clocks in VPCHK or XBCLK (07 R126, R127; 21 R327). -/
def countRepeats (q : Req) (m : Mach) (c n : Nat) : Mach :=
  let m := m.count c 19 (2 * n)
  if onPipe q.instr then m.count c 18 n else m.count c 21 (2 * n * xbarClocks q.instr)

/-- The unit id of the first execution of an instruction in a lane (21 R335, R336): a pipe of the partition and its lane, or the
partition's crossbar. -/
def pipeUnit (q : Req) (m : Mach) (k pipe lane : Nat) : Word :=
  let at_ := 4 * (m.blockOf k).core + (m.warp k).idx % 4
  BitVec.ofNat 32 (at_ * 2 ^ 21 + (if xbarClocks q.instr = 0 then 32 * (pipe % 8) + lane else 2 ^ 14))

/-- The syndrome of a checked mismatch (21 R327): the second execution is on another pipe of the partition, one lane on
(07 R126). -/
def Mism.syndrome (x : Mism) (lane : Nat) : Nat :=
  32 * ((x.pipe + 1 + x.other % 7) % 8) + (lane + 1) % 32 + 256 * lane

/-- What the separator makes of an instruction under checked execution (21 R327): the machine after its records and counts,
and the fault if the mismatch persists. A warp-scope form computes in lane 0 (07 R125). -/
def separator (q : Req) (m : Mach) (k : Nat) : Mach × Option FaultInfo :=
  let b := m.blockOf k
  if !b.lr.checked || !q.compare then (m, none)
  else match m.mism with
    | [] => (m, none)
    | x :: rest =>
      let m := { m with mism := rest }
      if x.pairs = 0 then (m, none)
      else
        let n := min x.pairs 3
        let lane := if q.sc = 1 ∧ xbarClocks q.instr = 0 then 0 else x.lane % 32
        let unit := pipeUnit q m k x.pipe lane
        let m := (countRepeats q m b.ctx (min n 2)).count b.ctx 75 n
        if n < 3 then (errRecord m 3 0 unit (x.syndrome lane) 0 0 (some k) lane, none)
        else
          let m := (errRecord m 3 2 unit (x.syndrome lane) 0 0 (some k) lane).count b.ctx 76 1
          (m, some { m.fault k q.sc .chkfail with tinfo := BitVec.ofNat 32 (32 * (x.pipe % 8) + lane) })

/-- The pipe or crossbar clocks of the first pair of an instruction whose mismatch persists (07 R127): its own counts, with none of
its effects. -/
def countOnly (q : Req) (m m' : Mach) (k : Nat) : Mach :=
  let c := m.ctxOf k
  if onPipe q.instr ∨ xbarClocks q.instr ≠ 0 then m.updCtx c (fun x => { x with counters := (m'.ctx c).counters }) else m

/-- Reading a pending register consumes its future, and so does overwriting one (11 R206); an entry is free once its
operation has completed too. -/
def consume (w : Warp) (fields : List Nat) : Warp :=
  if w.futs.isEmpty then w
  else
    let hit (e : Nat × Fut) : Bool := e.2.reg.any (fun r => fields.any (fun f => w.sKey f == r))
    let futs := w.futs.map (fun e => if hit e then (e.1, { e.2 with reg := none }) else e)
    { w with futs := futs.filter (fun e => e.2.reg.isSome || e.2.status.isNone) }

/-- Reading a register whose operation has completed observes the completion: what follows comes after the operation's accesses (10
R196). -/
def observeReads (w : Warp) (fields : List Nat) : Warp :=
  let hit (e : Nat × Fut) : Bool := e.2.status.isSome && e.2.reg.any (fun r => fields.any (fun f => w.sKey f == r))
  { w with pts := ((w.futs.filter hit).map (fun e => e.2.pts)).foldl max w.pts }

/-- The vector and scalar registers an instruction reads, as `Warp.kept` numbers them. -/
def Req.reads (q : Req) (w : Warp) : List Nat := q.vecs.diff q.vdsts ++ q.srcs.map (fun f => 64 + w.sKey f)

/-- Those it writes. -/
def Req.writes (q : Req) (w : Warp) : List Nat := q.vdsts ++ q.dsts.map (fun f => 64 + w.sKey f)

/-- The majors of formats A and C, which have the reuse hint (03 R54). -/
def hintMajors : List Nat := [1, 2, 3, 4, 5, 6, 7, 8, 9, 20, 22, 23, 24, 25, 26, 27, 30, 31, 57]

/-- The operand A that an instruction asks to be kept (06 R120). -/
def Req.hint (q : Req) (w : Warp) : Option Nat :=
  let x := word1 q.instr
  if q.words = 1 ∧ x.getLsbD 5 ∧ hintMajors.contains (majorOf x.toNat) then
    let a := bits x 17 12
    some (if q.sc = 0 ∧ a < 48 then a else if q.sc = 0 then 64 + (a - 48) else 64 + w.sKey a)
  else none

/-- The copy that a reuse hint keeps after an instruction (06 R120): it serves the next instruction that reads the register, and a
write of the register or another hint ends it (DESIGN CHOICE, log 35). -/
def keptAfter (q : Req) (w : Warp) : Option Nat :=
  let kept := match q.hint w with
    | some a => some a
    | none => w.kept.filter (fun a => !(q.reads w).contains a)
  kept.filter (fun a => !(q.writes w).contains a)

/-- The operand reads that the kept copy serves (06 R120, R124). -/
def reuseHits (q : Req) (w : Warp) : Nat := match w.kept with
  | none => 0
  | some a => (q.reads w).count a

/-- The path goes on at the next word, or at the header after its clause (03 R50). -/
def Path.advance (p : Path) (words : Nat) : Path :=
  let pc := p.pc + BitVec.ofNat 32 (4 * words)
  { p with pc := pc, clause := if p.clause.any (fun c => c.stop == pc) then none else p.clause,
           cnt := p.cnt + 1, turn := p.turn + 1 }

/-- A member retires the instruction (04 R83): waits and signatures end, futures are consumed, counts rise. An instruction of a
trap handler leaves the signature of the program it interrupted (04 R88). -/
def retireWarp (q : Req) (reads : Bool) (w : Warp) : Warp :=
  let w := consume (if reads then observeReads w q.srcs else w) (if reads then q.srcs ++ q.dsts else q.dsts)
  { w with wait := none, kept := keptAfter q w, sig := if w.trap.isSome then w.sig else none, urgent := false, passed := 0, justActive := false,
           prog := if q.moves || w.wait.isSome then w.prog + 1 else w.prog }

/-- Count the reads that the copy kept for warp k serves: REUSEHIT (06 R120, R124). -/
def countReuse (q : Req) (m : Mach) (k : Nat) : Mach :=
  match reuseHits q (m.warp k) with
  | 0 => m
  | n => m.count (m.ctxOf k) 9 n

/-- Retirement of an instruction that goes on at the next word, in every member. -/
def retire (q : Req) (m : Mach) (ms : List Nat) : Mach :=
  (countReuse q m (ms.headD 0)).updWarps ms (fun j w =>
    let w := retireWarp q (j == m.lead q.sc (ms.headD 0)) w
    (w.setPath (w.path.advance q.words)).limitTurn)

/-- At set and block scope a fault of the instruction's own checks is set- or block-wide (04 R91). -/
def widen (sc : Nat) : Stop → Stop
  | .trap f => if 2 ≤ sc then .wide (sc == 3) f else .trap f
  | st => st

/-- The first member that fails a check of a set-wide tile, which reads member 0's operand: it faults alone, and does not stand
signed (03 R67). -/
def lateFault (q : Req) (m : Mach) (ms : List Nat) : Option (Nat × FaultInfo) :=
  ms.findSome? (fun j => (rangeFault q q.late m j).map (fun f => (j, f)))

/-- An instruction at the level of the machine: `next` says how its members retire. -/
def issueWith (q : Req) (next : Mach → List Nat → Mach) (body : Mach → List Nat → Except Stop Mach) (m : Mach) (k : Nat) :
    Mach :=
  match admission q m k with
  | .stop m st => deliver m k st
  | .park m => m
  | .go m ms =>
    match touch q m ms with
    | (m, some st) => deliver m k st
    | (m, none) =>
      match lateFault q m ms with
      | some (j, f) => takeTrap (m.updWarp j (fun w => { w with sig := none })) j f
      | none =>
        match separator q m k with
        | (m, some f) =>
          deliver (match body m ms with | .ok m' => countOnly q m m' k | .error _ => m) k (widen q.sc (.trap f))
        | (m, none) =>
          match body m ms with
          | .ok m' => next m' ms
          | .error st => deliver m k (widen q.sc st)

/-- An instruction of the current warp. A warp that may not issue, or that is not there, does nothing. -/
def issue (q : Req) (body : Mach → List Nat → Except Stop Mach) (s : State) : Host.Outcome State Fault Refusal :=
  if canIssue s.m s.cur then .next { s with m := issueWith q (retire q) body s.m s.cur } else .next s

/-- An instruction that places its members itself: a control transfer, an exit, a trap or a return from one. -/
def issueTo (q : Req) (body : Mach → List Nat → Except Stop Mach) (s : State) : Host.Outcome State Fault Refusal :=
  if canIssue s.m s.cur then .next { s with m := issueWith q (fun m _ => m) body s.m s.cur } else .next s

/-- What a fetch comes to. -/
inductive Fetch where
  | stop (m : Mach) (st : Stop)
  /-- The warp is held before a safe point by the debugger (21 R342). -/
  | debug (m : Mach)
  | instr (m : Mach) (i : Instr)

/-- The word at a code offset (03 R48): BOUNDS beyond the handle, PERM without X, XLATE through the tables. -/
def fetchWord (m : Mach) (k : Nat) (pc : Word) : Except Stop Word := do
  let bk := (m.warp k).block
  let h := codeHandle m k
  let f := { m.fault k 0 .handle with tpc := pc, taddr := pc, tinfo := BitVec.ofNat 32 (h + 3 * 4096) }
  match ← handleOf m bk f h with
  | none => throw (.trap f)
  | some e =>
    if e.kind ≠ 8 then throw (.trap f)
    match place m bk e h .fetch pc.toNat 4 4 with
    | .error x =>
      match failLanes { f with sc := 1 } h 3 [(0, pc.toNat, x)] with
      | some (.trap g) => throw (.trap { g with sc := 0 })
      | some (.held a g base size) => throw (.held a { g with sc := 0 } base size)
      | some st => throw st
      | none => throw (.trap f)
    | .ok l =>
      match m.poisonAt l.key 4 with
      | some u => throw (.consume u (l.key % 2 ^ 64) { f with cause := .errcons, va := l.va })
      | none => return BitVec.ofNat 32 (natOfBytes (Mem.readN m.mem l.key 4))

/-- The checks of a clause header (03 R49). -/
def headerOk (h : Word) : Bool :=
  bits h 3 0 != 0 && bits h 15 7 == 0 && (if h.getLsbD 6 then bits h 31 16 != 0 else bits h 31 16 == 0)

/-- Does the debugger hold a warp before this safe point (21 R342)? -/
def debugHolds (m : Mach) (k ordinal : Nat) : Bool :=
  let c := m.ctx (m.ctxOf k)
  (m.warp k).halt || c.breaks.any (fun e => e.2.code == codeHandle m k && e.2.ordinal == ordinal)

/-- Hold a warp for the debugger: a record of kind 1 with cause BREAK, and no trap mode (21 R342, 18 BRK). Held before a safe
point, it will pass it when it is released. -/
def debugHold (m : Mach) (k : Nat) (point : Bool) (f : FaultInfo) : Mach :=
  let c := m.ctxOf k
  match putRecord m c (recordBytes m 1 k f 0 (tclass (m.warp k) f.sc 0 0) 0) with
  | .written m => m.updWarp k (fun w => { w with run := .debug, pass := point, halt := w.halt && !point })
  | .full => queueWarp m k (.trap f)
  | .broken => stopCtx m c 5 (some (k, f))

/-- Enter the clause whose header stands at the current path's pc (03 R49, R50). -/
def enterClause (m : Mach) (k : Nat) : Except Stop Mach := do
  let p := (m.warp k).path
  let h ← fetchWord m k p.pc
  if !headerOk h then throw (.trap { m.fault k 0 .illhdr with tinfo := h })
  let cl : Clause := { hdr := p.pc, word := h, cls := bits h 5 4, stop := p.pc + BitVec.ofNat 32 (4 + 4 * bits h 3 0) }
  let p := { p with pc := p.pc + 4, clause := some cl }
  let p := if h.getLsbD 6 then { p with ord := bits h 31 16, cnt := 0 } else p
  return m.updWarp k (fun w => { w.setPath p with pass := false })

/-- The instruction at the current path's pc. A first word of two in the last place of its clause is ILLHDR before anything
else of it is looked at (DESIGN CHOICE, log 30: R51 and R66 give no order). -/
def fetchInstr (m : Mach) (k : Nat) : Fetch :=
  let p := (m.warp k).path
  match fetchWord m k p.pc with
  | .error st => .stop m st
  | .ok w1 =>
    let two := twoWords w1.toNat
    let cl := p.clause.getD { hdr := 0, word := 0, cls := 0, stop := 0 }
    if two && p.pc + 4 == cl.stop then .stop m (.trap { m.fault k 0 .illhdr with tinfo := cl.word })
    else
      match (if two then fetchWord m k (p.pc + 4) else .ok 0) with
      | .error st => .stop m st
      | .ok w2 =>
        match decode w1 w2 with
        | .ok i => .instr m i
        | .error _ => .stop m (.trap { m.fault k (bits w1 25 24) .illegal with tmask := p.mask, tinfo := w1 })

/-- Fetch for warp k whose current path is in the slot: a clause header first where the path stands at one (03 R50). -/
def fetchHere (m : Mach) (k : Nat) : Fetch :=
  if (m.warp k).path.clause.isSome then fetchInstr m k
  else
    match enterClause m k with
    | .error st => .stop m st
    | .ok m' =>
      let ord := (m'.warp k).path.ord
      let stop := ((m'.warp k).path.clause.map (fun c => c.word.getLsbD 6)).getD false
      if stop && debugHolds m k ord && !(m.warp k).pass then
        .debug (debugHold m k true { m.fault k 0 .brk with tinfo := BitVec.ofNat 32 (0x80000000 + ord) })
      else fetchInstr m' k

/-- Fetch for warp k. -/
def fetch (m : Mach) (k : Nat) : Fetch :=
  match fillCurrent m k with
  | .error st => .stop m st
  | .ok m => fetchHere m k

end Sys2Proof.Machine
end

