-- ==== Sys2Proof/Machine/Operands.lean ====
section
/-!
DEFINITION. The operand forms of the vector pipes (03 R58 to R61; 07 R128): sources by scope, the active set, guards and
their uniformity, and the write of a destination.
-/

namespace Sys2Proof.Machine

/-- A source: a register field, or an immediate; a form that has no such source names immediate 0. -/
inductive Src where
  | reg (f : BitVec 6)
  | imm (x : Word)
  deriving DecidableEq, Repr

/-- The values an instruction reads: a, b and c. A form that reads its old destination names it as a source. -/
structure Vals where
  a : Word
  b : Word
  c : Word
  deriving DecidableEq, Repr, Inhabited

/-- The source in lane i of a lane-scope instruction (07 R128). -/
def Src.lane (w : Warp) (i : Nat) : Src → Word
  | .reg f => w.src f.toNat i
  | .imm x => x

/-- The source of a warp-scope instruction (07 R128). -/
def Src.warp (w : Warp) : Src → Word
  | .reg f => w.getS f.toNat
  | .imm x => x

/-- The vector registers a lane-scope source names. -/
def Src.vecs : Src → List Nat
  | .reg f => if f.toNat < 48 then [f.toNat] else []
  | .imm _ => []

/-- The scalar fields a source reads, broadcasts included. -/
def Src.scalars (lane : Bool) : Src → List Nat
  | .reg f => if lane then (if f.toNat < 48 then [] else [f.toNat - 48]) else [f.toNat]
  | .imm _ => []

/-- A predicate's value over the live lanes when it is uniform there (03 R61). -/
def uniform (w : Warp) (n : Nat) : Option Bool :=
  let x := w.getP n &&& w.live
  if x = w.live then some true else if x = 0 then some false else none

/-- The active set of a lane-scope instruction: the path's lanes whose guard reads 1 (00 R5). -/
def active (w : Warp) (g : Nat) : Word := w.path.mask &&& w.getP g

/-- Write register d of every lane of a mask; the sources were all read before. -/
def writeLanes (w : Warp) (d : Nat) (lanes : List Nat) (g : Nat → Word) : Warp :=
  lanes.foldl (fun w i => w.setV d i (g i)) w

/-- The union of some lanes' flags (02 R28). -/
def orLanes (lanes : List Nat) (g : Nat → Word) : Word := lanes.foldl (fun a i => a ||| g i) 0

/-- Count a vector pipe operation: VPOPS, VPLANES at lane scope, and VPCHK under checked execution (07 R127). -/
def countPipe (m : Mach) (k sc lanes : Nat) : Mach :=
  let b := m.blockOf k
  let m := m.count b.ctx 16 1
  let m := if sc = 0 then m.count b.ctx 17 lanes else m
  if b.lr.checked then m.count b.ctx 18 1 else m

/-- The values of lane i. -/
def laneVals (w : Warp) (i : Nat) (a b c : Src) : Vals := ⟨a.lane w i, b.lane w i, c.lane w i⟩

/-- The values of a warp-scope instruction. -/
def warpVals (w : Warp) (a b c : Src) : Vals := ⟨a.warp w, b.warp w, c.warp w⟩

/-- A computing form's effect on its warp at lane scope (07 R128): D gets f of each active lane, FFLAGS the flags. -/
def computeLanes (w : Warp) (g d : Nat) (a b c : Src) (f : RMode → Vals → Word × Word) : Warp :=
  let ls := lanesOf (active w g)
  (writeLanes w d ls (fun i => (f w.mode (laneVals w i a b c)).1)).orFlags
    (orLanes ls (fun i => (f w.mode (laneVals w i a b c)).2))

/-- A computing form's effect on its warp at warp scope (07 R128). -/
def computeWarp (w : Warp) (d : Nat) (a b c : Src) (f : RMode → Vals → Word × Word) : Warp :=
  (w.setS d (f w.mode (warpVals w a b c)).1).orFlags (f w.mode (warpVals w a b c)).2

/-- What the shared checks need to know of a computing form. -/
def computeReq (i : Instr) (sc : BitVec 1) (d : Nat) (a b c : Src) : Req :=
  if sc = 0 then
    { instr := i, sc := 0, vecs := d :: (a.vecs ++ b.vecs ++ c.vecs), vdsts := [d],
      srcs := a.scalars true ++ b.scalars true ++ c.scalars true }
  else { instr := i, sc := 1, srcs := a.scalars false ++ b.scalars false ++ c.scalars false, dsts := [d] }

/-- NONUNIF of warp k (03 R61, 18 R292). -/
def nonuniform (q : Req) (m : Mach) (k : Nat) : Stop :=
  .trap { m.fault k q.sc .nonunif with tinfo := word1 q.instr }

/-- The effect of a computing form on the machine: f maps the rounding mode and the values to the result and its flags. -/
def computeBody (q : Req) (sc : BitVec 1) (g d : Nat) (a b c : Src) (f : RMode → Vals → Word × Word) (m : Mach)
    (ms : List Nat) : Except Stop Mach :=
  let k := ms.headD 0
  let w := m.warp k
  if sc = 0 then
    .ok ((countPipe m k 0 (lanesOf (active w g)).length).setWarp k (computeLanes w g d a b c f))
  else
    match uniform w g with
    | none => .error (nonuniform q m k)
    | some false => .ok (countPipe m k 1 0)
    | some true => .ok ((countPipe m k 1 0).setWarp k (computeWarp w d a b c f))

/-- A computing form (07 R128, 08): the instruction, scope, guard, destination, sources and function. -/
def compute (i : Instr) (sc : BitVec 1) (g : BitVec 3) (d : BitVec 6) (a b c : Src) (f : RMode → Vals → Word × Word)
    (s : State) : Host.Outcome State Fault Refusal :=
  let q := computeReq i sc d.toNat a b c
  issue q (computeBody q sc g.toNat d.toNat a b c f) s

/-- An integer form raises no flag (07 R128). -/
def pure2 (f : Word → Word → Word) : RMode → Vals → Word × Word := fun _ v => (f v.a v.b, 0)

/-- An integer form of one source. -/
def pure1 (f : Word → Word) : RMode → Vals → Word × Word := fun _ v => (f v.a, 0)

/-- How a compare combines with the old predicate (07 R144): 0 set, 1 AND, 2 OR. -/
def combine (mode : Nat) (old new lanes : Word) : Word :=
  let r := match mode with
    | 0 => new
    | 1 => old &&& new
    | _ => old ||| new
  (old &&& ~~~ lanes) ||| (r &&& lanes)

/-- The lanes whose test holds, as a mask. -/
def maskBy (lanes : List Nat) (t : Nat → Bool) : Word := maskOf (lanes.filter t)

/-- A compare's effect at lane scope (07 R144). -/
def compareLanes (w : Warp) (g pd mode : Nat) (a b : Src) (t : Word → Word → Bool) : Warp :=
  let act := active w g
  w.setP pd (combine mode (w.getP pd) (maskBy (lanesOf act) (fun i => t (a.lane w i) (b.lane w i))) act)

/-- A compare's effect at warp scope: the one result goes to every live lane (03 R61). -/
def compareWarp (w : Warp) (pd mode : Nat) (a b : Src) (t : Word → Word → Bool) : Warp :=
  w.setP pd (combine mode (w.getP pd) (if t (a.warp w) (b.warp w) then w.live else 0) w.live)

/-- A compare on the machine. -/
def compareBody (q : Req) (sc : BitVec 1) (g pd mode : Nat) (a b : Src) (t : Word → Word → Bool) (m : Mach)
    (ms : List Nat) : Except Stop Mach :=
  let k := ms.headD 0
  let w := m.warp k
  if sc = 0 then
    .ok ((countPipe m k 0 (lanesOf (active w g)).length).setWarp k (compareLanes w g pd mode a b t))
  else
    match uniform w g with
    | none => .error (nonuniform q m k)
    | some false => .ok (countPipe m k 1 0)
    | some true => .ok ((countPipe m k 1 0).setWarp k (compareWarp w pd mode a b t))

/-- What the shared checks need to know of a compare. -/
def compareReq (i : Instr) (sc : BitVec 1) (a b : Src) : Req :=
  if sc = 0 then { instr := i, sc := 0, vecs := a.vecs ++ b.vecs, srcs := a.scalars true ++ b.scalars true }
  else { instr := i, sc := 1, srcs := a.scalars false ++ b.scalars false }

/-- A compare (07 R144, R145; 08 FCMP). -/
def compareForm (i : Instr) (sc : BitVec 1) (g pd : BitVec 3) (mode : Nat) (a b : Src) (t : Word → Word → Bool) (s : State) :
    Host.Outcome State Fault Refusal :=
  let q := compareReq i sc a b
  issue q (compareBody q sc g.toNat pd.toNat mode a b t) s

end Sys2Proof.Machine
end

