-- ==== Sys2Proof/Machine/Rounding.lean ====
section
/-!
DEFINITION. Floating-point values as exact numbers, and the one rounding of the machine (02 R24 to R32; 00 R6).
-/

namespace Sys2Proof.Machine

/-- A binary floating-point format (02, bit layouts): fraction bits, exponent bits, bias, and whether the top exponent
holds infinities and NaNs (IEEE) or finite values and one NaN fraction (E4M3). -/
structure Fmt where
  frac : Nat
  exp : Nat
  bias : Nat
  ieee : Bool
  nan : Nat
  deriving DecidableEq, Repr

/-- The five formats of 02 R24 and R30. -/
def fp32 : Fmt := ⟨23, 8, 127, true, 0x7FC00000⟩
def fp16 : Fmt := ⟨10, 5, 15, true, 0x7E00⟩
def bf16 : Fmt := ⟨7, 8, 127, true, 0x7FC0⟩
def e4m3 : Fmt := ⟨3, 4, 7, false, 0x7F⟩
def e5m2 : Fmt := ⟨2, 5, 15, true, 0x7E⟩

/-- A value: NaN, a signed infinity, or (-1)^s * m * 2^e. -/
inductive FVal where
  | nan
  | inf (s : Bool)
  | fin (s : Bool) (m : Nat) (e : Int)
  deriving DecidableEq, Repr

/-- The exponent of the smallest subnormal. -/
def Fmt.quantum (F : Fmt) : Int := 1 - (F.bias : Int) - F.frac

/-- The sign bit's weight. -/
def Fmt.signBit (F : Fmt) : Nat := 2 ^ (F.frac + F.exp)

/-- The exponent field of all ones. -/
def Fmt.top (F : Fmt) : Nat := 2 ^ F.exp - 1

/-- The code of +infinity of an IEEE format. -/
def Fmt.infCode (F : Fmt) : Nat := F.top * 2 ^ F.frac

/-- The code of the largest finite magnitude. -/
def Fmt.maxCode (F : Fmt) : Nat := if F.ieee then F.infCode - 1 else F.nan - 1

/-- A sign in front of a magnitude code. -/
def Fmt.signed (F : Fmt) (s : Bool) (x : Nat) : Nat := if s then F.signBit + x else x

/-- The value of a code (02 R24, R30). -/
def Fmt.decode (F : Fmt) (x : Nat) : FVal :=
  let f := x % 2 ^ F.frac
  let e := x / 2 ^ F.frac % 2 ^ F.exp
  let s := decide (x / F.signBit % 2 = 1)
  if F.ieee && e == F.top then (if f = 0 then .inf s else .nan)
  else if !F.ieee && x % F.signBit == F.nan then .nan
  else if e = 0 then .fin s f F.quantum
  else .fin s (2 ^ F.frac + f) (F.quantum + (e - 1 : Int))

/-- The number of significant bits of a magnitude. -/
def bitLen (m : Nat) : Nat := if m = 0 then 0 else m.log2 + 1

/-- Whether a discarded part moves the magnitude up: rest and half compare the part to half a unit; the sign decides the
directed modes (02 R25). -/
def roundsUp (mode : RMode) (s odd : Bool) (rest half : Nat) (sticky : Bool) : Bool :=
  match mode with
  | .rtz => false
  | .rup => !s && (rest != 0 || sticky)
  | .rdn => s && (rest != 0 || sticky)
  | .rne => decide (half < rest) || (rest == half && half != 0 && (sticky || odd))

/-- The magnitude m * 2^e, or just above it where sticky, rounded to a multiple of 2^q: the multiple and whether it is
inexact. A sticky magnitude has at least two bits below 2^q. -/
def roundAt (mode : RMode) (s : Bool) (m : Nat) (e : Int) (sticky : Bool) (q : Int) : Nat × Bool :=
  if q ≤ e then (m * 2 ^ (e - q).toNat, sticky)
  else
    let k := (q - e).toNat
    if bitLen m + 1 < k then
      (if roundsUp mode s false (if m = 0 then 0 else 1) 2 sticky then 1 else 0, m != 0 || sticky)
    else
      let n := m / 2 ^ k
      let r := m % 2 ^ k
      (if roundsUp mode s (n % 2 == 1) r (2 ^ (k - 1)) sticky then n + 1 else n, r != 0 || sticky)

/-- What an overflow delivers (02 R27, R31). -/
def Fmt.overflow (F : Fmt) (mode : RMode) (s : Bool) : Nat :=
  if !F.ieee then F.signed s F.maxCode
  else match mode with
    | .rne => F.signed s F.infCode
    | .rtz => F.signed s F.maxCode
    | .rup => F.signed s (if s then F.maxCode else F.infCode)
    | .rdn => F.signed s (if s then F.infCode else F.maxCode)

/-- The code of n * 2^q, a multiple of the format's quantum that fits its significand. -/
def Fmt.pack (F : Fmt) (n : Nat) (q : Int) : Nat := n + (q - F.quantum).toNat * 2 ^ F.frac

/-- Round an exact magnitude once to a format: OF by the result with an unbounded exponent, UF when tiny after rounding
and inexact, NX when inexact (02 R27). -/
def Fmt.round (F : Fmt) (mode : RMode) (s : Bool) (m : Nat) (e : Int) (sticky : Bool) : Nat × FFlags :=
  if m = 0 ∧ sticky = false then (F.signed s 0, {})
  else
    let qu := e + bitLen m - (F.frac + 1)
    let u := roundAt mode s m e sticky qu
    if (F.maxCode : Int) < F.pack u.1 qu ∧ F.quantum ≤ qu then
      (F.overflow mode s, { of_ := true, nx := true })
    else
      let q := if qu < F.quantum then F.quantum else qu
      let r := roundAt mode s m e sticky q
      let tiny := decide (qu + bitLen u.1 ≤ F.quantum + F.frac)
      (F.signed s (F.pack r.1 q), { uf := tiny && r.2, nx := r.2 })

/-- A value delivered to a format: NaN and infinities pass, a finite value is rounded once. -/
def Fmt.deliver (F : Fmt) (mode : RMode) : FVal → Nat × FFlags
  | .nan => (F.nan, {})
  | .inf s => if F.ieee then (F.signed s F.infCode, {}) else (F.nan, { nv := true })
  | .fin s m e => F.round mode s m e false

/-- The canonical NaN with NV (02 R27). -/
def Fmt.invalid (F : Fmt) : Nat × FFlags := (F.nan, { nv := true })

/-- The sign of a zero sum (08 R153). -/
def zeroSign (mode : RMode) (s t : Bool) : Bool := if s = t then s else mode == .rdn

/-- The signed integer of a magnitude. -/
def signedInt (s : Bool) (m : Nat) : Int := if s then -(m : Int) else m

/-- The exact sum of two finite values (08 R153). -/
def addFin (mode : RMode) (s : Bool) (m : Nat) (e : Int) (t : Bool) (n : Nat) (f : Int) : FVal :=
  let q := min e f
  let x := signedInt s (m * 2 ^ (e - q).toNat) + signedInt t (n * 2 ^ (f - q).toNat)
  if x = 0 then .fin (zeroSign mode s t) 0 q else .fin (decide (x < 0)) x.natAbs q

/-- A sum rounded once (08 R154). -/
def Fmt.add (F : Fmt) (mode : RMode) (x y : FVal) : Nat × FFlags :=
  match x, y with
  | .nan, _ => (F.nan, {})
  | _, .nan => (F.nan, {})
  | .inf s, .inf t => if s = t then (F.signed s F.infCode, {}) else F.invalid
  | .inf s, .fin _ _ _ => (F.signed s F.infCode, {})
  | .fin _ _ _, .inf t => (F.signed t F.infCode, {})
  | .fin s m e, .fin t n f => F.deliver mode (addFin mode s m e t n f)

/-- A value with its sign inverted. -/
def FVal.neg : FVal → FVal
  | .nan => .nan
  | .inf s => .inf (!s)
  | .fin s m e => .fin (!s) m e

/-- Is the value a NaN? -/
def FVal.isNan : FVal → Bool
  | .nan => true
  | _ => false

/-- The exact product; none for 0 times infinity (02 R27). A NaN operand gives a NaN. -/
def FVal.mul : FVal → FVal → Option FVal
  | .nan, _ => some .nan
  | _, .nan => some .nan
  | .inf s, .inf t => some (.inf (s != t))
  | .inf s, .fin t n _ => if n = 0 then none else some (.inf (s != t))
  | .fin s m _, .inf t => if m = 0 then none else some (.inf (s != t))
  | .fin s m e, .fin t n f => some (.fin (s != t) (m * n) (e + f))

/-- A product rounded once (08 R154). -/
def Fmt.mul (F : Fmt) (mode : RMode) (x y : FVal) : Nat × FFlags :=
  match x.mul y with
  | none => F.invalid
  | some z => F.deliver mode z

/-- A fused multiply-add, its special values in the order of 08 R155. -/
def Fmt.fma (F : Fmt) (mode : RMode) (x y z : FVal) : Nat × FFlags :=
  match x.mul y with
  | none => F.invalid
  | some p => F.add mode p z

/-- A quotient rounded once (08 R154). -/
def Fmt.div (F : Fmt) (mode : RMode) (x y : FVal) : Nat × FFlags :=
  match x, y with
  | .nan, _ => (F.nan, {})
  | _, .nan => (F.nan, {})
  | .inf _, .inf _ => F.invalid
  | .inf s, .fin t _ _ => (F.signed (s != t) F.infCode, {})
  | .fin s _ _, .inf t => (F.signed (s != t) 0, {})
  | .fin s m e, .fin t n f =>
    if n = 0 then (if m = 0 then F.invalid else (F.signed (s != t) F.infCode, { dz := true }))
    else
      let k := 64 + bitLen n
      F.round mode (s != t) (m * 2 ^ k / n) (e - f - k) (m * 2 ^ k % n != 0)

/-- One step of the square root by bits, from the top. -/
def sqrtFrom (x : Nat) : Nat → Nat → Nat
  | 0, r => r
  | n + 1, r => if (r + 2 ^ n) * (r + 2 ^ n) ≤ x then sqrtFrom x n (r + 2 ^ n) else sqrtFrom x n r

/-- The floor of the square root. -/
def sqrtFloor (x : Nat) : Nat := sqrtFrom x (bitLen x / 2 + 1) 0

end Sys2Proof.Machine
end

