-- ==== Sys2Proof/Machine/Transcendental.lean ====
section
/-!
DEFINITION. The FP32 functions of one operand that are not sums or products (02 R26; 08 R157): square root, reciprocal,
reciprocal root, 2^a and log2 a, each an exact result rounded once.
-/

namespace Sys2Proof.Machine

/-- The binary places of the fixed-point work below (assumption 11). -/
def workBits : Nat := 256

/-- The natural logarithm of 2 in units of 2^-256, from the series of 1 / (k 2^k). -/
def ln2 : Nat := (List.range 256).foldl (fun a k => a + 2 ^ workBits / ((k + 1) * 2 ^ (k + 1))) 0

/-- The terms of e^y from term k on, y and the terms in units of 2^-256. -/
def expTerms (y : Nat) : Nat → Nat → Nat → Nat
  | 0, _, _ => 0
  | n + 1, k, t => t + expTerms y n (k + 1) (t * y / 2 ^ workBits / k)

/-- 2^f in units of 2^-256, for f in units of 2^-256 below 1. -/
def exp2Frac (f : Nat) : Nat := expTerms (f * ln2 / 2 ^ workBits) 80 1 (2 ^ workBits)

/-- Binary digits of log2 x for x in units of 2^-256 between 1 and 2, by repeated squaring. -/
def log2Digits : Nat → Nat → Nat → Nat
  | 0, _, acc => acc
  | n + 1, x, acc =>
    let y := x * x / 2 ^ workBits
    if 2 ^ (workBits + 1) ≤ y then log2Digits n (y / 2) (2 * acc + 1) else log2Digits n y (2 * acc)

/-- FSQRT (08 R157). -/
def fSqrt (mode : RMode) : FVal → Nat × FFlags
  | .nan => (fp32.nan, {})
  | .inf s => if s then fp32.invalid else (fp32.infCode, {})
  | .fin s m e =>
    if m = 0 then (fp32.signed s 0, {})
    else if s then fp32.invalid
    else
      let h := (e - 128) / 2
      let x := m * 2 ^ (e - 2 * h).toNat
      let r := sqrtFloor x
      fp32.round mode false r h (r * r != x)

/-- FRCP (08 R157). -/
def fRcp (mode : RMode) (x : FVal) : Nat × FFlags := fp32.div mode (.fin false 1 0) x

/-- FRSQ (08 R157): 1 / sqrt(m 2^e) is the root of 2^-e / m. -/
def fRsq (mode : RMode) : FVal → Nat × FFlags
  | .nan => (fp32.nan, {})
  | .inf s => if s then fp32.invalid else (0, {})
  | .fin s m e =>
    if m = 0 then (fp32.signed s fp32.infCode, { dz := true })
    else if s then fp32.invalid
    else
      let h := (-e - 256) / 2
      let x := 2 ^ (-e - 2 * h).toNat
      let r := sqrtFloor (x / m)
      fp32.round mode false r h (r * r * m != x)

/-- FEXP2 (08 R157): 2^a is exact for an integral a, else irrational. -/
def fExp2 (mode : RMode) : FVal → Nat × FFlags
  | .nan => (fp32.nan, {})
  | .inf s => if s then (0, {}) else (fp32.infCode, {})
  | .fin s m e =>
    if 10 < e + bitLen m then fp32.round mode false 1 (if s then -1024 else 1024) false
    else if m = 0 then fp32.round mode false 1 0 false
    else if 0 ≤ e then fp32.round mode false 1 (signedInt s (m * 2 ^ e.toNat)) false
    else
      let d : Nat := 2 ^ (-e).toNat
      let i := signedInt s m / (d : Int)
      let r := (signedInt s m % (d : Int)).toNat
      if r = 0 then fp32.round mode false 1 i false
      else fp32.round mode false (exp2Frac (r * 2 ^ workBits / d)) (i - workBits) true

/-- FLOG2 (08 R157): log2 of a power of two is an integer, any other logarithm is irrational. -/
def fLog2 (mode : RMode) : FVal → Nat × FFlags
  | .nan => (fp32.nan, {})
  | .inf s => if s then fp32.invalid else (fp32.infCode, {})
  | .fin s m e =>
    if m = 0 then (fp32.signed true fp32.infCode, { dz := true })
    else if s then fp32.invalid
    else
      let l := bitLen m - 1
      let i : Int := e + l
      if m = 2 ^ l then fp32.round mode (decide (i < 0)) i.natAbs 0 false
      else
        let v : Int := i * 2 ^ 120 + log2Digits 120 (m * 2 ^ (workBits - l)) 0
        if 0 ≤ v then fp32.round mode false v.toNat (-120) true
        else fp32.round mode true (-v - 1).toNat (-120) true

/-- The integer nearest a magnitude in a mode, and whether it differs (08 R158, R166). -/
def toIntegral (mode : RMode) (s : Bool) (m : Nat) (e : Int) : Nat × Bool := roundAt mode s m e false 0

/-- FFLOOR, FCEIL, FTRUNC and FRINT (08 R157, R158): exact, the operand's sign kept, no flag. -/
def fIntegral (mode : RMode) (a : Word) : Nat × FFlags :=
  match fp32.decode a.toNat with
  | .nan => (fp32.nan, {})
  | .inf _ => (a.toNat, {})
  | .fin s m e => if 0 ≤ e then (a.toNat, {}) else ((fp32.round .rne s (toIntegral mode s m e).1 0 false).1, {})

end Sys2Proof.Machine
end

