-- ==== Sys2Proof/Machine/Float.lean ====
section
/-!
DEFINITION. Floating-point forms on FP32 words and on packed halves (08 R152 to R162).
-/

namespace Sys2Proof.Machine

/-- A code with its flags as the words an instruction delivers. -/
def asWords (r : Nat × FFlags) : Word × Word := (BitVec.ofNat 32 r.1, r.2.bits)

/-- A word read as FP32. -/
def asFp (a : Word) : FVal := fp32.decode a.toNat

/-- FADD (08 R154), also the addition of the tree of 02 R46. -/
def fpAdd (mode : RMode) (a b : Word) : Word × Word := asWords (fp32.add mode (asFp a) (asFp b))

/-- An FP32 form of one operand. -/
def unary (f : RMode → FVal → Nat × FFlags) : RMode → Vals → Word × Word := fun mode v => asWords (f mode (asFp v.a))

/-- An FP32 form of two operands. -/
def binary (f : RMode → FVal → FVal → Nat × FFlags) : RMode → Vals → Word × Word :=
  fun mode v => asWords (f mode (asFp v.a) (asFp v.b))

/-- FABS and FNEG (02 R24): a NaN gives the canonical NaN. -/
def signForm (f : Word → Word) : RMode → Vals → Word × Word :=
  fun _ v => (if (asFp v.a).isNan then 0x7FC00000 else f v.a, 0)

/-- The order of the words that are not NaNs, -0 below +0 (02 R29): a sign-magnitude word as an integer. -/
def orderKey (a : Word) : Int := if a.getLsbD 31 then -((a.toNat % 2 ^ 31 : Nat) : Int) - 1 else (a.toNat : Int)

/-- FMIN and FMAX (02 R29, 08 R156), and with strict their NaN-passing forms. -/
def minMax (strict greater : Bool) : RMode → Vals → Word × Word := fun _ v =>
  let x := (asFp v.a).isNan
  let y := (asFp v.b).isNan
  let r :=
    if (x && y) || (strict && (x || y)) then 0x7FC00000
    else if x then v.b
    else if y then v.a
    else if greater then (if orderKey v.a < orderKey v.b then v.b else v.a)
    else (if orderKey v.b < orderKey v.a then v.b else v.a)
  (r, 0)

/-- A word as a comparable integer, -0 equal to +0 (08 R159). -/
def realKey (a : Word) : Int := signedInt (a.getLsbD 31) (a.toNat % 2 ^ 31)

/-- The float conditions (03 R64, 08 R159). -/
def floatCond (cnd : BitVec 3) (a b : Word) : Bool :=
  let un := (asFp a).isNan || (asFp b).isNan
  match cnd.toNat with
  | 0 => !un && realKey a == realKey b
  | 1 => un || realKey a != realKey b
  | 2 => !un && decide (realKey a < realKey b)
  | 3 => !un && decide (realKey a ≤ realKey b)
  | 4 => !un && decide (realKey b < realKey a)
  | 5 => !un && decide (realKey b ≤ realKey a)
  | 6 => un
  | _ => !un

/-- Half k of a packed word as a value of a 16-bit format (08 R160). -/
def half (F : Fmt) (k : Nat) (a : Word) : FVal := F.decode (a.toNat / 2 ^ (16 * k) % 2 ^ 16)

/-- A packed form: both halves, the flags of both (08 R160). -/
def packed (F : Fmt) (f : RMode → FVal → FVal → FVal → Nat × FFlags) : RMode → Vals → Word × Word := fun mode v =>
  let r (k : Nat) := f mode (half F k v.a) (half F k v.b) (half F k v.c)
  (BitVec.ofNat 32 ((r 0).1 + 2 ^ 16 * (r 1).1), (r 0).2.bits ||| (r 1).2.bits)

/-- FADD (08 R154). -/
def execFadd (x : FA3) :=
  compute (.fadd x) x.sc x.g x.d (.reg x.a) (.reg x.b) (.imm 0) (fun mode v => fpAdd mode v.a v.b)
/-- FSUB (08 R154). -/
def execFsub (x : FA3) :=
  compute (.fsub x) x.sc x.g x.d (.reg x.a) (.reg x.b) (.imm 0) (binary (fun mode a b => fp32.add mode a b.neg))
/-- FMUL (08 R154). -/
def execFmul (x : FA3) :=
  compute (.fmul x) x.sc x.g x.d (.reg x.a) (.reg x.b) (.imm 0) (binary fp32.mul)
/-- FDIV (08 R154). -/
def execFdiv (x : FA3) :=
  compute (.fdiv x) x.sc x.g x.d (.reg x.a) (.reg x.b) (.imm 0) (binary fp32.div)
/-- FMIN (08 R156). -/
def execFmin (x : FA3) :=
  compute (.fmin x) x.sc x.g x.d (.reg x.a) (.reg x.b) (.imm 0) (minMax false false)
/-- FMAX (08 R156). -/
def execFmax (x : FA3) :=
  compute (.fmax x) x.sc x.g x.d (.reg x.a) (.reg x.b) (.imm 0) (minMax false true)
/-- FMINM (08 R156). -/
def execFminm (x : FA3) :=
  compute (.fminm x) x.sc x.g x.d (.reg x.a) (.reg x.b) (.imm 0) (minMax true false)
/-- FMAXM (08 R156). -/
def execFmaxm (x : FA3) :=
  compute (.fmaxm x) x.sc x.g x.d (.reg x.a) (.reg x.b) (.imm 0) (minMax true true)
/-- FABS (08 R157). -/
def execFabs (x : FA2) :=
  compute (.fabs x) x.sc x.g x.d (.reg x.a) (.imm 0) (.imm 0) (signForm (fun a => a &&& 0x7FFFFFFF))
/-- FNEG (08 R157). -/
def execFneg (x : FA2) :=
  compute (.fneg x) x.sc x.g x.d (.reg x.a) (.imm 0) (.imm 0) (signForm (fun a => a ^^^ 0x80000000))
/-- FSQRT (08 R157). -/
def execFsqrt (x : FA2) :=
  compute (.fsqrt x) x.sc x.g x.d (.reg x.a) (.imm 0) (.imm 0) (unary fSqrt)
/-- FRCP (08 R157). -/
def execFrcp (x : FA2) :=
  compute (.frcp x) x.sc x.g x.d (.reg x.a) (.imm 0) (.imm 0) (unary fRcp)
/-- FRSQ (08 R157). -/
def execFrsq (x : FA2) :=
  compute (.frsq x) x.sc x.g x.d (.reg x.a) (.imm 0) (.imm 0) (unary fRsq)
/-- FEXP2 (08 R157). -/
def execFexp2 (x : FA2) :=
  compute (.fexp2 x) x.sc x.g x.d (.reg x.a) (.imm 0) (.imm 0) (unary fExp2)
/-- FLOG2 (08 R157). -/
def execFlog2 (x : FA2) :=
  compute (.flog2 x) x.sc x.g x.d (.reg x.a) (.imm 0) (.imm 0) (unary fLog2)
/-- FFLOOR rounds down (08 R157). -/
def execFfloor (x : FA2) :=
  compute (.ffloor x) x.sc x.g x.d (.reg x.a) (.imm 0) (.imm 0) (fun _ v => asWords (fIntegral .rdn v.a))
/-- FCEIL rounds up (08 R157). -/
def execFceil (x : FA2) :=
  compute (.fceil x) x.sc x.g x.d (.reg x.a) (.imm 0) (.imm 0) (fun _ v => asWords (fIntegral .rup v.a))
/-- FTRUNC rounds toward zero (08 R157). -/
def execFtrunc (x : FA2) :=
  compute (.ftrunc x) x.sc x.g x.d (.reg x.a) (.imm 0) (.imm 0) (fun _ v => asWords (fIntegral .rtz v.a))
/-- FRINT rounds in FMODE (08 R157). -/
def execFrint (x : FA2) :=
  compute (.frint x) x.sc x.g x.d (.reg x.a) (.imm 0) (.imm 0) (fun mode v => asWords (fIntegral mode v.a))
/-- FCMP (08 R159). -/
def execFcmp (x : FC) := compareForm (.fcmp x) x.sc x.g x.pd x.f.toNat (.reg x.a) (.reg x.b) (floatCond x.cnd)
/-- FFMA (08 R155). -/
def execFfma (x : FQ) :=
  compute (.ffma x) x.sc 0 x.d (.reg x.a) (.reg x.b) (.reg x.c) (fun mode v => asWords (fp32.fma mode (asFp v.a) (asFp v.b) (asFp v.c)))
/-- FFMS (08 R155). -/
def execFfms (x : FQ) :=
  compute (.ffms x) x.sc 0 x.d (.reg x.a) (.reg x.b) (.reg x.c) (fun mode v => asWords (fp32.fma mode (asFp v.a) (asFp v.b) (asFp v.c).neg))
/-- HADD2 (08 R161). -/
def execHadd2 (x : FA3) :=
  compute (.hadd2 x) x.sc x.g x.d (.reg x.a) (.reg x.b) (.imm 0) (packed fp16 (fun mode a b _ => fp16.add mode a b))
/-- HMUL2 (08 R161). -/
def execHmul2 (x : FA3) :=
  compute (.hmul2 x) x.sc x.g x.d (.reg x.a) (.reg x.b) (.imm 0) (packed fp16 (fun mode a b _ => fp16.mul mode a b))
/-- BADD2 (08 R161). -/
def execBadd2 (x : FA3) :=
  compute (.badd2 x) x.sc x.g x.d (.reg x.a) (.reg x.b) (.imm 0) (packed bf16 (fun mode a b _ => bf16.add mode a b))
/-- BMUL2 (08 R161). -/
def execBmul2 (x : FA3) :=
  compute (.bmul2 x) x.sc x.g x.d (.reg x.a) (.reg x.b) (.imm 0) (packed bf16 (fun mode a b _ => bf16.mul mode a b))
/-- HFMA2 (08 R162). -/
def execHfma2 (x : FQ) :=
  compute (.hfma2 x) x.sc 0 x.d (.reg x.a) (.reg x.b) (.reg x.c) (packed fp16 fp16.fma)
/-- BFMA2 (08 R162). -/
def execBfma2 (x : FQ) :=
  compute (.bfma2 x) x.sc 0 x.d (.reg x.a) (.reg x.b) (.reg x.c) (packed bf16 bf16.fma)

end Sys2Proof.Machine
end

