-- ==== Sys2Proof/Machine/L1.lean ====
section
/-!
DEFINITION. The copies of sectors that the L1 caches and the L2 slices away from the home hold (09 R177 to R179; 10 R192, R194).
A store is performed at its home at once, so that no copy is ever dirty (log 7).
-/

namespace Sys2Proof.Machine

/-- The distinct elements of a list, each at its first place. -/
def dedup (xs : List Nat) : List Nat := xs.foldl (fun a x => if a.contains x then a else a ++ [x]) []

/-- May a copy serve a load at a program timestamp (10 R192), and has it not yet served for 4,096 clocks (R194)? -/
def Copy.serves (c : Copy) (m : Mach) (pts : Nat) : Bool := decide (pts ≤ c.rts) && decide (m.clk < c.clk + 4096)

/-- The L1 set of a sector on a core: bits 16:7 of the address (09 R178). -/
def l1Set (core sec : Nat) : Nat := 1024 * core + sec / 2 % 1024

/-- The copy of a sector in a core's L1. -/
def Mach.l1Copy (m : Mach) (core sec : Nat) : Option Copy :=
  (((Map.find? m.l1 (l1Set core sec)).getD []).find? (fun x => x.line == sec / 2)).bind (fun x => Map.find? x.secs (sec % 2))

/-- A line that stays when a set of 16 lines takes another: one fetched under the streaming policy goes first, and then the least
recently used (09 R178). -/
def evictL1 (ls : List L1Line) : List L1Line :=
  if ls.length < 16 then ls
  else match (ls.reverse.find? (fun x => x.stream)).orElse (fun _ => ls.getLast?) with
    | none => ls
    | some v => ls.filter (fun x => x.line != v.line)

/-- Put a copy into a core's L1 as the most recently used (09 R178). -/
def Mach.l1Put (m : Mach) (core sec : Nat) (stream : Bool) (c : Copy) : Mach :=
  let ls := (Map.find? m.l1 (l1Set core sec)).getD []
  let others := ls.filter (fun x => x.line != sec / 2)
  let new : L1Line := match ls.find? (fun x => x.line == sec / 2) with
    | some x => { x with stream := stream, secs := Map.ins x.secs (sec % 2) c }
    | none => { line := sec / 2, stream := stream, secs := [(sec % 2, c)] }
  { m with l1 := Map.ins m.l1 (l1Set core sec) (new :: (if others.length < ls.length then others else evictL1 others)) }

/-- The slice nearest a core: one of its die's 32 (DESIGN CHOICE, log 7). -/
def nearSlice (core : Nat) : Nat := 32 * (core / 64) + core % 32

/-- The replica of a sector in the slice nearest a core. -/
def Mach.replicaAt (m : Mach) (core sec : Nat) : Option Copy := (Map.find? m.replicas (128 * sec + nearSlice core)).map (·.copy)

/-- The L1 serves kind 1 under policy 0 or 1 alone (09 R178). -/
def Loc.cacheable (l : Loc) : Bool := l.kind == 1 && decide (l.policy < 2)

/-- The copy that serves a load of a warp (10 R192): the L1's, else a replica. -/
def Mach.copyFor (m : Mach) (k : Nat) (l : Loc) : Option Copy :=
  if !l.cacheable then none
  else
    let core := (m.blockOf k).core
    let pts := (m.warp k).pts
    ((m.l1Copy core (l.key / 64)).filter (fun c => c.serves m pts)).orElse (fun _ =>
      (m.replicaAt core (l.key / 64)).filter (fun c => c.serves m pts))

/-- The bytes of the copy that serves a load. -/
def Mach.servedBy (m : Mach) (k : Nat) (l : Loc) : Option (List Byte) := (m.copyFor k l).map (·.bytes)

/-- The lease a load takes: LDR's long one through a kind-1 handle of policy 0 or 1 alone (09 R179; 10 R192). -/
def leaseOf (long : Bool) (l : Loc) : Nat := if long && l.cacheable then 4096 else 16

/-- A sector as its home holds it now; none where part of it is poisoned, of which no copy is kept (DESIGN CHOICE, log 7). -/
def Mach.homeCopy (m : Mach) (sec : Nat) : Option Copy :=
  match m.poisonAt (64 * sec) 64 with
  | some _ => none
  | none => some { bytes := Mem.readN m.mem (64 * sec) 64, wts := (Map.find? m.wts sec).getD 0, rts := (Map.find? m.rts sec).getD 0,
                   clk := m.clk }

/-- A load performed at its home leaves copies (09 R178, R179): in the L1, and of an LDR in the slice nearest the core unless that is
the home. -/
def Mach.keepCopies (m : Mach) (k : Nat) (l : Loc) (long : Bool) : Mach :=
  let b := m.blockOf k
  let sec := l.key / 64
  match m.homeCopy sec with
  | none => m
  | some c =>
    let m := m.l1Put b.core sec (l.policy == 1) c
    if long && nearSlice b.core != 32 * dieOf l.key + homeSlice l.key then
      { m with replicas := Map.ins m.replicas (128 * sec + nearSlice b.core) { ctx := b.ctx, seq := b.seq, copy := c } }.count b.ctx 31 1
    else m

/-- One sector request of a load (09 R178; 10 R192): served by a copy, or performed at the home. A request that misses or renews
counts in L1MISS (09 R182). -/
def Mach.request (m : Mach) (k : Nat) (l : Loc) (long cached : Bool) : Mach :=
  if !cached || !l.cacheable then m.stampLoad k l.key 16
  else
    let core := (m.blockOf k).core
    let sec := l.key / 64
    let pts := (m.warp k).pts
    let hit := (m.l1Copy core sec).any (fun c => c.serves m pts)
    let m := if hit then m else m.count (m.ctxOf k) 24 1
    match m.copyFor k l with
    | some c => (m.l1Put core sec (l.policy == 1) c).updWarp k (fun w => { w with pts := max w.pts c.wts })
    | none => (m.stampLoad k l.key (leaseOf long l)).keepCopies k l long

/-- Copies of some lines are dropped. -/
def Mach.dropCopies (m : Mach) (p : Nat → Bool) : Mach :=
  { m with l1 := (m.l1.map (fun e => (e.1, e.2.filter (fun x => !p x.line)))).filter (fun e => !e.2.isEmpty),
           replicas := m.replicas.filter (fun e => !p (e.1 / 256)) }

/-- Every line of some cores' L1 caches is dropped (20 R311). -/
def Mach.dropL1 (m : Mach) (on : Nat → Bool) : Mach := { m with l1 := m.l1.filter (fun e => !on (e.1 / 1024)) }

/-- A copy that has served loads for long: the one of a core's L1, or else the replica in its nearest slice (10 R194). -/
def Mach.dropOld (m : Mach) (core sec : Nat) : Option Mach :=
  let old (c : Copy) : Bool := decide (c.clk + 4096 ≤ m.clk)
  if (m.l1Copy core sec).any old then
    some { m with l1 := Map.upd m.l1 (l1Set core sec) (fun ls =>
      (ls.map (fun x => if x.line = sec / 2 then { x with secs := Map.del x.secs (sec % 2) } else x)).filter (fun x => !x.secs.isEmpty)) }
  else if (m.replicaAt core sec).any old then some { m with replicas := Map.del m.replicas (128 * sec + nearSlice core) }
  else none

end Sys2Proof.Machine
end

