-- ==== Sys2Proof/Machine/MemoryForms.lean ====
section
/-!
DEFINITION. The memory forms (09 R184 to R187; 10 R189, R192, R200).
-/

namespace Sys2Proof.Machine

/-- Bytes of a size code (09 LD); 7 is no size. -/
def accessBytes (z : Nat) : Nat :=
  match z with
  | 0 => 1 | 1 => 2 | 2 => 4 | 3 => 8 | 4 => 16 | 5 => 1 | 6 => 2 | _ => 0

/-- Registers that a size code fills (09 R184). -/
def regsOf (z : Nat) : Nat := (accessBytes z + 3) / 4

/-- The words of some bytes, low first. -/
def wordsOfBytes (n : Nat) (bs : List Byte) : List Word :=
  (List.range n).map (fun i => BitVec.ofNat 32 (natOfBytes ((bs.drop (4 * i)).take 4)))

/-- What `wr` writes for a size code (09 R184). -/
def extended (z : Nat) (bs : List Byte) : List Word :=
  match z with
  | 5 => [(BitVec.ofNat 8 (natOfBytes bs)).signExtend 32]
  | 6 => [(BitVec.ofNat 16 (natOfBytes bs)).signExtend 32]
  | _ => wordsOfBytes (regsOf z) bs

/-- Write consecutive registers: vectors in a lane at lane scope, scalars at warp scope. -/
def writeRegs (w : Warp) (sc d i : Nat) (xs : List Word) : Warp :=
  xs.zipIdx.foldl (fun w e => if sc = 0 then w.setV (d + e.2) i e.1 else w.setS (d + e.2) e.1) w

/-- Read consecutive registers; at lane scope a field of 48 to 63 is a broadcast (09 R184). -/
def readRegs (w : Warp) (sc d i n : Nat) : List Word :=
  (List.range n).map (fun j => if sc = 0 then w.src (d + j) i else w.getS (d + j))

/-- The bytes of consecutive registers. -/
def bytesOfWords (xs : List Word) : List Byte := xs.flatMap (fun x => bytesOfNat 4 x.toNat)

/-- The accesses of an instruction: a lane with its offset (09 R184); lane 0 stands for the single execution of warp scope,
which a guard of zeros removes. -/
def memLanes (q : Req) (m : Mach) (k g o : Nat) : Except Stop (List (Nat × Nat)) :=
  let w := m.warp k
  if q.sc = 0 then .ok ((lanesOf (active w g)).map (fun i => (i, (w.src o i).toNat)))
  else
    match uniform w g with
    | none => .error (nonuniform q m k)
    | some false => .ok []
    | some true => .ok [(0, (w.getS o).toNat)]

/-- Checks and places of an instruction's accesses (09 R172). -/
def memPlaces (q : Req) (m : Mach) (k g o h : Nat) (u : Use) (acc : Acc) (code n : Nat) :
    Except Stop (List (Nat × Loc)) := do
  let ls ← memLanes q m k g o
  places m (m.warp k).block (m.fault k q.sc .handle) ((m.warp k).getS h).toNat u acc code n n ls

/-- Does the pail hold every byte of an access? -/
def pailCovers (pail : List Held) (key n : Nat) : Bool :=
  (List.range n).all (fun i => (heldByte pail (key + i)).isSome)

/-- The bytes a lane reads, or the consumption of a poisoned part or of a failed external reading (21 R330, 09 R177). -/
def readLane (q : Req) (m : Mach) (k : Nat) (l : Loc) (n : Nat) : Except Stop (List Byte) :=
  let f := { m.fault k q.sc .errcons with va := l.va }
  let pail := (m.blockOf k).pailFor
  if isExternal l.key then
    if isSelf l.key || Config.extFails l.key m.tick then .error (.consume (externalUnit l.key) 0 f)
    else .ok (m.loadBytes pail l.key n)
  else
    match m.poisonAt l.key n with
    | some u => if pailCovers pail l.key n then .ok (m.loadBytes pail l.key n)
                else .error (.consume u (if l.key < 2 ^ 64 then l.key else 0) f)
    | none => .ok (m.loadBytes pail l.key n)

/-- The bytes of a lane whose sector a copy serves, with the held stores of the block over them (10 R200). -/
def copyLane (m : Mach) (k : Nat) (l : Loc) (n : Nat) (bytes : List Byte) : List Byte :=
  let pail := (m.blockOf k).pailFor
  (List.range n).map (fun i => (heldByte pail (l.key + i)).getD (bytes.getD (l.key % 64 + i) 0))

/-- The bytes a lane of a load reads: from the copy that serves its sector, or from the home. -/
def loadLane (q : Req) (m : Mach) (k : Nat) (l : Loc) (n : Nat) : Option (List Byte) → Except Stop (List Byte)
  | some bytes => .ok (copyLane m k l n bytes)
  | none => readLane q m k l n

/-- The loads of an instruction, lane by lane: the lanes that touch one sector make one request (09 R178), and `seen` holds what served
the sectors already requested. -/
def loadAll (q : Req) (k z d : Nat) (long cached : Bool) : List (Nat × Option (List Byte)) → Mach → List (Nat × Loc) → Except Stop Mach
  | _, m, [] => .ok m
  | seen, m, (i, l) :: ls =>
    let sec := l.key / 64
    let old := if isExternal l.key then none else Map.find? seen sec
    let src := old.getD (if cached then m.servedBy k l else none)
    match loadLane q m k l (accessBytes z) src with
    | .error st => .error st
    | .ok bs =>
      let m := if old.isSome then m else m.request k l long cached
      loadAll q k z d long cached (Map.ins seen sec src) (m.updWarp k (fun w => writeRegs w q.sc d i (extended z bs))) ls

/-- The extra clocks of some accesses of n bytes to the local store (09 R180): of one bank, the distinct 8-byte words beyond the
first. `flip` is what the bank number of an offset is XORed with. -/
def bankClocks (flip : Nat → Nat) (n : Nat) (offs : List Nat) : Nat :=
  let words := dedup (offs.flatMap (fun o => rangeFrom (o / 8) ((o + n - 1) / 8 + 1 - o / 8)))
  let bank (x : Nat) : Nat := (x % 32) ^^^ flip (8 * x)
  ((List.range 32).foldl (fun a b => max a (words.filter (fun x => bank x == b)).length) 0) - 1

/-- Count the bank conflicts of a lane-scope access to scratch or to a vat (09 R180). -/
def countBanks (m : Mach) (q : Req) (k n : Nat) (ls : List (Nat × Loc)) : Mach :=
  let offs := (ls.filter (fun l => l.2.kind == 2 || l.2.kind == 3 || l.2.kind == 9)).map (fun l => l.2.key % 2 ^ 64)
  match (if q.sc = 0 then bankClocks (fun _ => 0) n offs else 0) with
  | 0 => m
  | x => m.count (m.ctxOf k) 29 x

/-- An armed sample fires at the retirement of a memory instruction (21 R345): the lane whose data returned last is one of
the active lanes, which one is free. -/
def sampleMem (m : Mach) (q : Req) (k instr n : Nat) (ls : List (Nat × Loc)) : Mach :=
  let lanes := ls.map (·.1)
  let last := if instr = 1 then 0xFF else lanes.getD ((Config.freeWord 6 m.tick).toNat % lanes.length) 0xFF
  let mask := if q.sc = 0 then maskOf lanes else if lanes.isEmpty then 0 else (m.warp k).live
  fireSample (countBanks m q k n ls) k true instr last mask.toNat (distinct (ls.map (fun l => l.2.key / 64)))

/-- A load form (09 LD, LDP, LDR). -/
def loadBody (q : Req) (x : FM) (u : Use) (instr : Nat) (long cached : Bool) (m : Mach) (ms : List Nat) :
    Except Stop Mach := do
  let k := ms.headD 0
  let ls ← memPlaces q m k x.g.toNat x.o.toNat x.h.toNat u .read 0 (accessBytes x.z.toNat)
  let m' ← loadAll q k x.z.toNat x.d.toNat long cached [] m ls
  return sampleMem m' q k instr (accessBytes x.z.toNat) ls

/-- The path of a warp is demoted by the instruction that retires now: its count rises and its turn ends (05 R111). -/
def demote (m : Mach) (k : Nat) : Mach :=
  m.updWarp k (fun w => { (w.setPath { w.path with dem := w.path.dem + 1 }).spendTurn with demot := min 0xFFFF (w.demot + 1) })

/-- What the shared checks need to know of a form of format M; `out` says that D is written, `n` registers of it are read. -/
def memReq (i : Instr) (sc : BitVec 1) (d o h : BitVec 6) (regs : Nat) (reads writes : Bool) : Req :=
  let ds := rangeFrom d.toNat regs
  if sc = 0 then
    { instr := i, sc := 0,
      vecs := (if writes then ds else ds.filter (fun r => decide (r < 48))) ++ (Src.reg o).vecs ++ (if reads && writes then ds else []),
      vdsts := if writes then ds else [],
      srcs := h.toNat :: ((Src.reg o).scalars true ++
        (if reads && !writes then ds.filterMap (fun r => if r < 48 then none else some (r - 48)) else [])) }
  else { instr := i, sc := 1, srcs := h.toNat :: o.toNat :: (if reads then ds else []), dsts := if writes then ds else [] }

/-- The request of a load form. -/
def loadReq (i : Instr) (x : FM) : Req := memReq i x.sc x.d x.o x.h (regsOf x.z.toNat) false true

/-- LD (09). -/
def execLd (x : FM) := issue (loadReq (.ld x) x) (loadBody (loadReq (.ld x) x) x .ld 0 false true)

/-- LDR: a load with the long lease of a replica (09 R179, 10 R192). -/
def execLdr (x : FM) := issue (loadReq (.ldr x) x) (loadBody (loadReq (.ldr x) x) x .ldr 3 true true)

/-- What the shared checks need to know of LDP. -/
def ldpReq (x : FM) : Req :=
  loadReq (.ldp x) x

/-- LDP reads at the home and demotes its path at retirement (09 LD; 05 R111). -/
def ldpBody (x : FM) (m : Mach) (ms : List Nat) : Except Stop Mach := do
  let q := ldpReq x
  let m' ← loadBody q x .ldp 2 false false m ms
  return retire q (demote m' (ms.headD 0)) ms

/-- LDP as an instruction of the current warp. -/
def execLdp (x : FM) := issueTo (ldpReq x) (ldpBody x)

/-- The order in which lanes that store are performed (09 R185; log 8): the lanes that the next stored order names, then
the others. -/
def orderLanes (m : Mach) (ls : List (Nat × Loc)) : List (Nat × Loc) :=
  let order := m.laneOrders.headD []
  order.eraseDups.filterMap (fun i => ls.find? (fun l => l.1 == i)) ++ ls.filter (fun l => !order.contains l.1)

/-- The order is used up by the instruction. -/
def usedOrder (m : Mach) : Mach := { m with laneOrders := m.laneOrders.drop 1 }

/-- ST (09): every lane's store in some order. -/
def storeBody (q : Req) (x : FM) (m : Mach) (ms : List Nat) : Except Stop Mach := do
  let k := ms.headD 0
  let n := accessBytes x.z.toNat
  let ls ← memPlaces q m k x.g.toNat x.o.toNat x.h.toNat .st .write 1 n
  let w := m.warp k
  let m' := (orderLanes m ls).foldl (fun m l =>
    storeBytes m k l.2 ((bytesOfWords (readRegs w q.sc x.d.toNat l.1 (regsOf x.z.toNat))).take n)) m
  return sampleMem (usedOrder m') q k 1 n ls

/-- What the shared checks need to know of ST. -/
def stReq (x : FM) : Req := { memReq (.st x) x.sc x.d x.o x.h (regsOf x.z.toNat) true false with moves := true }

/-- ST (09). -/
def execSt (x : FM) := issue (stReq x) (storeBody (stReq x) x)

/-- The operations of ATOM on 4 bytes (09 R186). -/
def atom32 (op : Nat) (old x : Word) : Word :=
  match op with
  | 0 => old + x
  | 1 => old - x
  | 2 => if old.toInt ≤ x.toInt then old else x
  | 3 => if old.toInt ≤ x.toInt then x else old
  | 4 => if old.toNat ≤ x.toNat then old else x
  | 5 => if old.toNat ≤ x.toNat then x else old
  | 6 => old &&& x
  | 7 => old ||| x
  | 8 => old ^^^ x
  | 9 => x
  | 10 => (fpAdd .rne old x).1
  | _ => if x.toNat ≤ old.toNat then 0 else old + 1

/-- Registers of an ATOM operation: ADD64 and EXCH64 name a pair (09 R186). -/
def atomRegs (op : Nat) : Nat := if op = 12 ∨ op = 13 then 2 else 1

/-- The new bytes of an ATOM operation from the old ones and the operand (09 R186). -/
def atomNew (op : Nat) (old x : List Byte) : List Byte :=
  if op = 13 then x
  else if op = 12 then bytesOfNat 8 (natOfBytes old + natOfBytes x)
  else bytesOfNat 4 (atom32 op (BitVec.ofNat 32 (natOfBytes old)) (BitVec.ofNat 32 (natOfBytes x))).toNat

/-- One lane's atomic step: `f` gives the new bytes, if any are written; the old ones are returned. -/
def atomStep (q : Req) (m : Mach) (k : Nat) (l : Loc) (n : Nat) (f : List Byte → Option (List Byte)) :
    Except Stop (List Byte × Mach) := do
  let m := commitFor m k l.kind
  let old ← readLane q m k l n
  let m := if isExternal l.key then m.tickOn else m
  match f old with
  | some new => return (old, m.perform k l.key new)
  | none => return (old, m.stampStore k l.key)

/-- The lanes of an atomic form, each in turn; D receives the first words of the old value. -/
def atomAll (q : Req) (k d n : Nat) (f : Nat → List Byte → Option (List Byte)) :
    Mach → List (Nat × Loc) → Except Stop Mach
  | m, [] => .ok m
  | m, (i, l) :: ls =>
    match atomStep q m k l n (f i) with
    | .error st => .error st
    | .ok (old, m) => atomAll q k d n f (m.updWarp k (fun w => writeRegs w q.sc d i (wordsOfBytes (n / 4) old))) ls

/-- ATOM (09 R186). -/
def atomBody (q : Req) (x : FMA) (op : Nat) (m : Mach) (ms : List Nat) : Except Stop Mach := do
  let k := ms.headD 0
  let n := 4 * atomRegs op
  let ls ← memPlaces q m k 0 x.o.toNat x.h.toNat (.atom op) .atomic 2 n
  let w := m.warp k
  let f (i : Nat) (old : List Byte) : Option (List Byte) :=
    some (atomNew op old (bytesOfWords (readRegs w q.sc x.d.toNat i (atomRegs op))))
  let m' ← atomAll q k x.d.toNat n f m (orderLanes m ls)
  return sampleMem (usedOrder m') q k 4 n ls

/-- What the shared checks need to know of ATOM. -/
def atomReq (i : Instr) (x : FMA) (op : Nat) : Req :=
  { memReq i x.sc x.d x.o x.h (atomRegs op) true true with moves := true }

/-- An ATOM operation by its number. -/
def atom (i : Instr) (x : FMA) (op : Nat) (s : State) : Host.Outcome State Fault Refusal :=
  issue (atomReq i x op) (atomBody (atomReq i x op) x op) s

/-- ATOM.ADD (09 R186). -/
def execAtomAdd (x : FMA) := atom (.atomAdd x) x 0
/-- ATOM.SUB (09 R186). -/
def execAtomSub (x : FMA) := atom (.atomSub x) x 1
/-- ATOM.SMIN (09 R186). -/
def execAtomSmin (x : FMA) := atom (.atomSmin x) x 2
/-- ATOM.SMAX (09 R186). -/
def execAtomSmax (x : FMA) := atom (.atomSmax x) x 3
/-- ATOM.UMIN (09 R186). -/
def execAtomUmin (x : FMA) := atom (.atomUmin x) x 4
/-- ATOM.UMAX (09 R186). -/
def execAtomUmax (x : FMA) := atom (.atomUmax x) x 5
/-- ATOM.AND (09 R186). -/
def execAtomAnd (x : FMA) := atom (.atomAnd x) x 6
/-- ATOM.OR (09 R186). -/
def execAtomOr (x : FMA) := atom (.atomOr x) x 7
/-- ATOM.XOR (09 R186). -/
def execAtomXor (x : FMA) := atom (.atomXor x) x 8
/-- ATOM.EXCH (09 R186). -/
def execAtomExch (x : FMA) := atom (.atomExch x) x 9
/-- ATOM.FADD (09 R186, 02 R47). -/
def execAtomFadd (x : FMA) := atom (.atomFadd x) x 10
/-- ATOM.INC (09 R186). -/
def execAtomInc (x : FMA) := atom (.atomInc x) x 11
/-- ATOM.ADD64 (09 R186). -/
def execAtomAdd64 (x : FMA) := atom (.atomAdd64 x) x 12
/-- ATOM.EXCH64 (09 R186). -/
def execAtomExch64 (x : FMA) := atom (.atomExch64 x) x 13

/-- The compared size of CAS (09 CAS). -/
def casSize (x : FCAS) : Nat := if x.z = 0 then 4 else 8

/-- The compare bytes and the new bytes of a CAS in a lane. -/
def casOperands (w : Warp) (q : Req) (x : FCAS) (i : Nat) : List Byte × List Byte :=
  let bs := bytesOfWords (readRegs w q.sc x.d.toNat i (casSize x / 2))
  (bs.take (casSize x), bs.drop (casSize x))

/-- The lanes of a CAS, each in turn: whether any failed and whether any swapped. -/
def casAll (q : Req) (k : Nat) (x : FCAS) (w : Warp) : Mach → List (Nat × Loc) → Bool → Bool → Except Stop (Mach × Bool × Bool)
  | m, [], failed, swapped => .ok (m, failed, swapped)
  | m, (i, l) :: ls, failed, swapped =>
    let c := casOperands w q x i
    match atomStep q m k l (casSize x) (fun old => if old = c.1 then some c.2 else none) with
    | .error st => .error st
    | .ok (old, m) =>
      casAll q k x w (m.updWarp k (fun w => writeRegs w q.sc x.d.toNat i (wordsOfBytes (casSize x / 4) old))) ls
        (failed || old != c.1) (swapped || old == c.1)

/-- The request of CAS: it reads four or two registers and writes the first half of them. -/
def casReq (x : FCAS) : Req :=
  let q := memReq (.cas x) x.sc x.d x.o x.h (casSize x / 2) true true
  { q with dsts := q.dsts.take (casSize x / 4) }

/-- CAS (09 CAS): a failed comparison in any lane demotes the path. -/
def casBody (x : FCAS) (m : Mach) (ms : List Nat) : Except Stop Mach := do
  let q := casReq x
  let k := ms.headD 0
  let ls ← memPlaces q m k x.g.toNat x.o.toNat x.h.toNat .cas .atomic 2 (casSize x)
  let (m', failed, swapped) ← casAll q k x (m.warp k) m (orderLanes m ls) false false
  let m' := sampleMem (usedOrder m') q k 5 (casSize x) ls
  return retire { q with moves := swapped } (if failed then demote m' k else m') ms

/-- CAS as an instruction of the current warp. -/
def execCas (x : FCAS) := issueTo (casReq x) (casBody x)

/-- What the shared checks need to know of SNAP. -/
def snapReq (x : FSNAP) : Req :=
  { instr := .snap x, sc := 1, vecs := [x.d.toNat], vdsts := [x.d.toNat], srcs := [x.o.toNat, x.h.toNat], moves := true }

/-- SNAP (09 SNAP): a counter sector is read and cleared in one step. -/
def snapBody (x : FSNAP) (m : Mach) (ms : List Nat) : Except Stop Mach := do
  let q := snapReq x
  let k := ms.headD 0
  let ls ← memPlaces q m k x.g.toNat x.o.toNat x.h.toNat .snap .snap 2 64
  match ls with
  | [] => return sampleMem m q k 6 64 ls
  | (_, l) :: _ =>
    let (old, m') ← atomStep q m k l 64 (fun _ => some (bytesOfNat 64 0))
    let xs := wordsOfBytes 16 old
    let m' := m'.updWarp k (fun w => writeLanes w x.d.toNat (lanesOf w.live) (fun i => xs.getD i 0))
    return sampleMem m' q k 6 64 ls

/-- SNAP as an instruction of the current warp. -/
def execSnap (x : FSNAP) := issue (snapReq x) (snapBody x)

/-- The observing warp follows the completed operations of a class (10 R196). -/
def observe (w : Warp) (c : Nat) : Warp := { w with pts := max w.pts ((Map.find? w.opPts c).getD 0) }

/-- What the shared checks need to know of FENCE.ENG. -/
def fenceEngReq : Req :=
  { instr := .fenceEng, sc := 1 }

/-- FENCE.ENG waits for the operations of classes 0, 1 and 2 (09 R187). -/
def fenceEngBody (m : Mach) (ms : List Nat) : Except Stop Mach :=
  let k := ms.headD 0
  let w := m.warp k
  if w.counter 0 = 0 ∧ w.counter 1 = 0 ∧ w.counter 2 = 0 then
    .ok (m.updWarp k (fun w => observe (observe (observe w 0) 1) 2))
  else .error (.wait .fence)

/-- FENCE.ENG as an instruction of the current warp. -/
def execFenceEng := issue fenceEngReq fenceEngBody

/-- What the shared checks need to know of FENCE.IO. -/
def fenceIoReq : Req :=
  { instr := .fenceIo, sc := 1 }

/-- FENCE.IO: every external access has been performed at its home (09 R187, log 7). -/
def fenceIoBody (m : Mach) (_ : List Nat) : Except Stop Mach :=
  .ok m

/-- FENCE.IO as an instruction of the current warp. -/
def execFenceIo := issue fenceIoReq fenceIoBody

end Sys2Proof.Machine
end

