-- ==== Sys2Proof/Machine/Fetchable.lean ====
section
/-!
DEFINITION. The turn of the warps, and the state in which a warp fetches given bytes as its next instruction.
-/

namespace Sys2Proof.Machine

/-- A partition of a core, by a number. -/
def partOf (m : Mach) (k : Nat) : Nat := 4 * (m.blockOf k).core + (m.warp k).idx % 4

/-- The age of a warp on its core, smaller for an older one (04 R76). -/
def ageOf (m : Mach) (k : Nat) : Nat := 32 * (m.blockOf k).age + (m.warp k).idx

/-- Is the warp placed above all others (04 R85): it was passed over 48 times, or DISPATCH_STARVATION said so? -/
def Warp.first (w : Warp) : Bool := w.urgent || decide (48 ≤ w.passed)

/-- The active warps that may issue and have not tried in vain: those with a ready instruction (log 10). -/
def readyWarps (m : Mach) (tried : List Nat) : List Nat :=
  (m.warps.map (·.1)).filter (fun j => canIssue m j && !tried.contains j)

/-- The warp that dispatches next (04 R85): the partitions take turns, and in a partition a warp placed above all others comes
first, then the oldest with a ready instruction. Without one the turn stays with k. -/
def nextWarp (m : Mach) (tried : List Nat) (k : Nat) : Nat :=
  let ks := readyWarps m tried
  match minBy (fun j => (partOf m j + 1023 - partOf m k) % 1024) ks with
  | none => k
  | some j =>
    let here := ks.filter (fun i => partOf m i == partOf m j)
    let top := here.filter (fun i => (m.warp i).first)
    (minBy (ageOf m) (if top.isEmpty then here else top)).getD k

/-- The turn passes to the next warp, and the ready warps of its partition are passed over once more (log 5). -/
def passTurn (s : State) : State :=
  let j := nextWarp s.m s.tried s.cur
  let others := (readyWarps s.m s.tried).filter (fun i => i != j && partOf s.m i == partOf s.m j)
  { s with cur := j, m := s.m.updWarps others (fun _ w => { w with passed := w.passed + 1 }) }

/-- A resident warp at kernel entry (03 R73), but for the registers its launch gives. -/
def Warp.fresh (block idx role slot : Nat) (lr : LaunchRec) : Warp :=
  { block := block, idx := idx, role := role, slot := slot, active := decide (slot < 8), justActive := decide (slot < 8), live := BitVec.allOnes 32,
    paths := [{ pc := BitVec.ofNat 32 lr.entry, mask := BitVec.allOnes 32, inner := none, dem := 0, st := .runnable,
                clause := none, ord := 0, cnt := 0, turn := 0, spilled := false, park := 0 }],
    recs := [], nextRec := 0, parks := 0, v := [], s := [], p := [], nv := lr.nv, nt := lr.nt, na := lr.na, fmode := 0,
    fflags := 0, set := none, cnt := [], opPts := [], futs := [], gens := [], tiles := [], acc := [], vatMap := none, run := .ready,
    trap := none, tcause := 0, tpc := 0, taddr := 0, tinfo := 0, tmask := 0, tset := 0, tclass := 0, pts := 0, ptsEpoch := 0,
    sample := none, demot := 0, prog := 0, wait := none, sig := none, grow := none, granted := false, preemptDue := none, urgent := false, passed := 0,
    pass := false, halt := false, bad := [], lines := List.range lr.nv ++ [48, 49], filled := [], kept := none, vopen := none }

/-- The warp at kernel entry with its registers (03 R73): s0 to s11, v0 the lane, v1 the thread. -/
def Warp.entry (block idx role slot flat : Nat) (lr : LaunchRec) : Warp :=
  let w := Warp.fresh block idx role slot lr
  let s := [flat, lr.blocks, idx, lr.nW] ++ lr.args.map (·.toNat)
  let w := (s.zipIdx).foldl (fun w e => { w with s := Map.set w.s e.2 (BitVec.ofNat 32 e.1) }) w
  (List.range 32).foldl (fun w i =>
    (w.setV 0 i (BitVec.ofNat 32 i)).setV 1 i (BitVec.ofNat 32 (32 * idx + i))) w

/-- The clause class of an instruction by its major opcode (03 R65). -/
def classOfWord (w1 : Nat) : Nat :=
  let op := majorOf w1
  if 0x2A ≤ op ∧ op ≤ 0x2D then 1
  else if 0x34 ≤ op ∧ op ≤ 0x36 then 2
  else if op = 0x3C ∨ op = 0x3E ∨ op = 0x3F then 3 else 0

/-- The launch record that stands behind a placed instruction: one block of one warp, code handle 3, entry 0. -/
def placedRec : LaunchRec :=
  { code := 3, flags := 0, entry := 0, blocks := 1, nW := 1, nv := 48, nt := 16, gang := 0, na := 64, r12 := 0, locals := 4096,
    cost := 0, deadline := 0, slots := List.replicate 8 0, args := List.replicate 8 0, affinity := [0, 0, 0, 0],
    deps := [0, 0, 0, 0], done := 0, prio := 0, gclass := 0, patience := 0, roles := 0, spill := 0, rest := true }

/-- The context that runs a placed instruction: its header at device physical address 0x20000. -/
def placedCtx : Ctx :=
  { fn := 0, world := 0, st := 1, reason := 0, hdr := 0x20000, teams := 1, margin := 0, period := 1, share := 1, grace := 0,
    yieldDl := none, debt := 0, comp := 0, holds := true, ask := 0, rival := none, sliceEnd := 0, used := 0, cycle := 0, devWait := [], tabWait := [],
    mail := [], pend := [], nextSeq := 1, arms := [], fired := [], services := [], faultSeq := 0, waiting := [], counters := [], wsets := [], nvme := [], resetBy := none, breaks := [], colls := [], zeros := [], frozen := false, vatPts := [] }

/-- Device memory around a placed instruction: tables that map virtual 0 to 0xFFFF to physical 0x20000 to 0x2FFFF, the
header with its handle table at virtual 0x1000, its fault queue at 0x4000 and the image handle 2, and code handle 3 at 0x8000. -/
def placedWrites (code : List Byte) : List (Nat × List Byte) :=
  [(0x10000, bytesOfNat 8 0x11001), (0x11000, bytesOfNat 8 0x12001), (0x12000, bytesOfNat 8 0x13001),
   (0x13000, bytesOfNat 8 0x2000F),
   (0x20000, bytesOfNat 8 0x10000 ++ bytesOfNat 8 0x1000),
   (0x20020, bytesOfNat 8 0x4000 ++ bytesOfNat 4 64),
   (0x20034, bytesOfNat 2 3 ++ bytesOfNat 2 2 ++ bytesOfNat 4 0),
   (0x20040, bytesOfNat 4 1),
   (0x21040, bytesOfNat 8 0 ++ bytesOfNat 8 0x10000 ++ [1, 3, 0, 0] ++ bytesOfNat 4 0),
   (0x21060, bytesOfNat 8 0x8000 ++ bytesOfNat 8 0x100 ++ [8, 8, 0, 0] ++ bytesOfNat 4 0),
   (0x28000, code)]

/-- A machine in which warp 0 of a fresh block fetches these bytes next. -/
def placeCode (m : Mach) (bytes : List Byte) : Mach :=
  let w1 := natOfBytes (bytes.take 4)
  let n := if twoWords w1 then 2 else 1
  let header := bytesOfNat 4 (classOfWord w1 * 16 + n)
  let m := (placedWrites (header ++ bytes.take (4 * n))).foldl (fun m e => m.poke (Space.dev.key e.1) e.2) m
  let b : Block :=
    { ctx := 255, seq := 0, flat := 0, core := 0, slot := 0, age := 0, world := 0, lr := placedRec, src := 0, committed := true,
      gbars := 0, gbarHere := false, sets := [], pail := [], charged := 0, watch := 0, vatH := [], wides := [], pre := .none, plain := false, mark := none, rollbacks := 0,
      recOff := 0, recLen := 0 }
  let m := (m.setCtx 255 placedCtx).setBlock m.nextBlock b
  (m.setWarp (warpKey m.nextBlock 0) (Warp.fresh m.nextBlock 0 0 0 placedRec))

end Sys2Proof.Machine
end

