-- ==== Sys2Proof/Machine/Sets.lean ====
section
/-!
DEFINITION. Sets and barriers (04 R94, R95 and its instruction entries).
-/

namespace Sys2Proof.Machine

/-- Write an instruction's status or result to a scalar register of its warp. -/
def Mach.answer (m : Mach) (k a : Nat) (x : Nat) : Mach := m.updWarp k (fun w => w.setS a (BitVec.ofNat 32 x))

/-- Member count of a size code (04 SJOIN). -/
def sizeCode (c : Nat) : Nat := 2 ^ c

/-- The members of a set's mask. -/
def countBits (x : Word) : Nat := (lanesOf x).length

/-- SJOIN's effect: the status and the set after it (04 SJOIN). -/
def sjoin (m : Mach) (k id n : Nat) : Nat × Mach :=
  let w := m.warp k
  let b := m.block w.block
  let st := b.set id
  if w.trap.isSome then (8, m)
  else if w.set.isSome ∨ b.lr.nW < n then (1, m)
  else if 2 ≤ st.st then (7, m)
  else if st.st = 1 ∧ st.size ≠ n then (1, m)
  else
    let members := st.members ||| bit w.idx
    let st' : SetRec :=
      { st := if countBits members = n then 2 else 1, size := n, departed := 0, members := members }
    (0, (m.updBlock w.block (fun b => { b with sets := Map.ins b.sets id st' })).updWarp k (fun w => { w with set := some id }))

/-- What the shared checks need to know of SJOIN. -/
def sjoinReq (x : FABC) : Req :=
  { instr := .sjoin x, sc := 1, cls := 3, dsts := [x.a.toNat], moves := true }

/-- SJOIN (04). -/
def sjoinBody (x : FABC) (m : Mach) (ms : List Nat) : Except Stop Mach :=
  let k := ms.headD 0
  let r := sjoin m k x.b.toNat (sizeCode x.c.toNat)
  .ok (r.2.answer k x.a.toNat r.1)

/-- SJOIN as an instruction of the current warp. -/
def execSjoin (x : FABC) := issue (sjoinReq x) (sjoinBody x)

/-- Does an operation of set scope name the warp's tiles or window, or move data into its tiles (04 SLEAVE)? -/
def Op.namesMember (o : Op) (k : Nat) : Bool :=
  match o.cmd with
  | .xfer out _ _ _ _ _ parts => parts.any (fun p => p.owner == k && (o.scope == 2 || !out))
  | .mma _ _ _ _ _ _ _ _ members => members.any (fun x => x.1 == k)
  | .azero _ _ members => o.scope == 2 && members.any (fun x => x.1 == k)
  | .asave _ _ _ _ _ members => o.scope == 2 && members.any (fun x => x.1 == k)
  | .aload _ _ _ _ _ members => o.scope == 2 && members.any (fun x => x.1 == k)
  | .drain _ _ _ _ _ _ _ (some (owner, _)) _ => owner == k
  | _ => false

/-- What the shared checks need to know of SLEAVE. -/
def sleaveReq (x : FOA) : Req :=
  { instr := .sleave x, sc := 1, cls := 3, dsts := [x.a.toNat], moves := true }

/-- SLEAVE (04): the warp waits for the transfers and matrix operations that name it. -/
def sleaveBody (x : FOA) (m : Mach) (ms : List Nat) : Except Stop Mach :=
  let k := ms.headD 0
  let w := m.warp k
  if w.trap.isSome then .ok (m.answer k x.a.toNat 8)
  else if w.set.isNone then .ok (m.answer k x.a.toNat 6)
  else if m.ops.any (fun e => e.2.namesMember k) then .error (.wait .inFlight)
  else .ok ((leaveSet m k).answer k x.a.toNat 0)

/-- SLEAVE as an instruction of the current warp. -/
def execSleave (x : FOA) := issue (sleaveReq x) (sleaveBody x)

/-- Is the set a complete quad set (04 R95)? -/
def quadSet (st : SetRec) : Bool :=
  st.st == 2 && st.size == 4 && countBits st.members == 4 && distinct ((lanesOf st.members).map (· % 4)) == 4

/-- The member mask and the status word of a set as a warp reads them (04 SINFO); `none` reads as a free set. -/
def setInfo (m : Mach) (k : Nat) (id : Option Nat) : Word × Word :=
  let w := m.warp k
  let st := match id with
    | some i => (m.block w.block).set i
    | none => { st := 0, size := 0, departed := 0, members := 0 }
  let mine := id.isSome && w.set == id
  let rank := ((lanesOf st.members).filter (fun j => decide (j < w.idx))).length
  (st.members,
   BitVec.ofNat 32 (st.st * 2 ^ 30 + id.getD 0 * 2 ^ 27 + (quadSet st).toNat * 2 ^ 26 + mine.toNat * 2 ^ 25 +
     (if mine then rank else 0) * 2 ^ 20 + st.size * 2 ^ 15 + countBits st.members * 2 ^ 10 + st.departed * 2 ^ 5))

/-- What the shared checks need to know of SINFO. -/
def sinfoReq (x : FAB) : Req :=
  { instr := .sinfo x, sc := 1, cls := 3, dsts := [x.a.toNat, x.a.toNat + 1] }

/-- SINFO (04). -/
def sinfoBody (x : FAB) (m : Mach) (ms : List Nat) : Except Stop Mach :=
  let k := ms.headD 0
  let r := setInfo m k (if x.b = 63 then (m.warp k).set else some x.b.toNat)
  .ok (m.updWarp k (fun w => (w.setS x.a.toNat r.1).setS (x.a.toNat + 1) r.2))

/-- SINFO as an instruction of the current warp. -/
def execSinfo (x : FAB) := issue (sinfoReq x) (sinfoBody x)

/-- What the shared checks need to know of BAR. -/
def barReq (x : FSC1) : Req :=
  { instr := .bar x, sc := 2 + x.sc.toNat, cls := 3 }

/-- BAR (04): sc = 0 is set scope and sc = 1 block scope. -/
def barBody (m : Mach) (_ : List Nat) : Except Stop Mach :=
  .ok m

/-- BAR as an instruction of the current warp. -/
def execBar (x : FSC1) := issue (barReq x) barBody

/-- A block is complete when every warp has exited and nothing is in flight for them (04 R74). -/
def blockComplete (m : Mach) (b : Nat) : Bool :=
  (m.warpsOf b).all (fun e => e.2.live == 0 && inFlight m e.1 == 0)

/-- Has a block of the gang issued its GBAR number n, or completed? -/
def gbarArrived (m : Mach) (n : Nat) (e : Nat × Block) : Bool :=
  decide (n < e.2.gbars) || (e.2.gbars == n && e.2.gbarHere) || blockComplete m e.1

/-- The blocks of a block's gang that are still there. -/
def gangOf (m : Mach) (b : Block) : List (Nat × Block) :=
  m.blocks.filter (fun e => e.2.ctx == b.ctx && e.2.seq == b.seq && e.2.flat / b.lr.gang == b.flat / b.lr.gang)

/-- What the shared checks need to know of GBAR. -/
def gbarReq : Req :=
  { instr := .gbar, sc := 3, cls := 3 }

/-- GBAR (04): the block's rendezvous, then the gang's. -/
def gbarBody (m : Mach) (ms : List Nat) : Except Stop Mach :=
  let q := gbarReq
  let bk := (m.warp (ms.headD 0)).block
  let b := m.block bk
  if !b.lr.isGang then .ok (retire q m ms)
  else
    let m := m.updBlock bk (fun b => { b with gbarHere := true })
    if (gangOf m b).all (gbarArrived m b.gbars) then
      .ok (retire q (m.updBlock bk (fun b => { b with gbars := b.gbars + 1, gbarHere := false })) ms)
    else .ok (m.updWarps ms (fun _ w => { w with wait := some .gang }))

/-- GBAR as an instruction of the current warp. -/
def execGbar := issueTo gbarReq gbarBody

end Sys2Proof.Machine
end

