-- ==== Sys2Proof/Machine/Tiles.lean ====
section
/-!
DEFINITION. Tiles: references (11 R208), waits (11 R210, 12 R226), and the tile instructions (11 R220, R221, TLD, TST).
-/

namespace Sys2Proof.Machine

/-- The scalar operand of a wide instruction comes from member 0 of its set or warp 0 of its block (04 R92). -/
def headS (m : Mach) (sc : Nat) (ms : List Nat) (f : Nat) : Word := (m.warp (m.lead sc (ms.headD 0))).getS f

/-- Does a tile reference break its layout (11 R208, check 1)? -/
def badRef (word : Word) (wide : Bool) (warps : Nat) : Bool :=
  bits word 31 10 != 0 || (if word.getLsbD 9 then wide || decide (warps ≤ bits word 8 4) else bits word 8 4 != 0)

/-- The owner and tile of a reference read by warp k at warp or lane scope, after the checks of R208. -/
def tileRef (m : Mach) (k : Nat) (f : FaultInfo) (word : Word) : Except Stop (Nat × Nat) :=
  let w := m.warp k
  if badRef word false (m.block w.block).lr.nW then .error (.trap { f with cause := .tile, tinfo := word })
  else
    let owner := if word.getLsbD 9 then warpKey w.block (bits word 8 4) else k
    let t := bits word 3 0
    if (m.warp owner).nt ≤ t then .error (.trap { f with cause := .regrange, tinfo := BitVec.ofNat 32 t })
    else .ok (owner, t)

/-- The tiles an instruction names: one, or at set scope every member's own of that number (11 R208). -/
def tileRefs (q : Req) (m : Mach) (ms : List Nat) (reg : Nat) : Except Stop (List (Nat × Nat)) :=
  let word := headS m q.sc ms reg
  let f := m.fault (ms.headD 0) q.sc .tile
  if q.sc = 2 then
    if badRef word true 0 then .error (.trap { f with tinfo := word })
    else .ok ((m.allMembers 2 (ms.headD 0)).map (fun j => (j, bits word 3 0)))
  else (tileRef m (ms.headD 0) f word).map (fun x => [x])

/-- REGRANGE of a set-wide tile, in the member alone that lacks it (03 R67, 06 SHRINK). -/
def tileRange (sc reg : Nat) (m : Mach) (k : Nat) : Option (Cause × Nat) :=
  let word := headS m sc [k] reg
  if sc = 2 ∧ !badRef word true 0 ∧ (m.warp k).nt ≤ bits word 3 0 then some (.regrange, bits word 3 0) else none

/-- The table entry of a tile. -/
def Mach.tileOf (m : Mach) (x : Nat × Nat) : Tile := (m.warp x.1).tile x.2

/-- The greatest program timestamp of some warps. -/
def Mach.ptsOf (m : Mach) (ks : List Nat) : Nat := ks.foldl (fun t k => max t (m.warp k).pts) 0

/-- Change the table entry of a tile: a store in the memory order by the warps ks, which follows the lease granted on the entry
(10 R192, R197). -/
def Mach.setTileOf (m : Mach) (ks : List Nat) (x : Nat × Nat) (f : Tile → Tile) : Mach :=
  let t := max (m.ptsOf ks) ((m.tileOf x).rts + 1)
  (m.updWarp x.1 (fun w => w.setTile x.2 { f (w.tile x.2) with pts := t, rts := t })).updWarps ks (fun _ w => { w with pts := t })

/-- A tile that is being filled or drained (11 R210). -/
def Tile.moving (t : Tile) : Bool := t.st == 1 || t.st == 3

/-- A tile whose contents or state may not change now (11 R210, 12 R226). -/
def Tile.locked (t : Tile) : Bool := t.moving || t.holds != 0

/-- Wait while a tile is moving or held; the instruction will change it. -/
def waitChange (m : Mach) (xs : List (Nat × Nat)) : Except Stop Unit :=
  if xs.any (fun x => (m.tileOf x).locked) then .error (.wait .tileState) else .ok ()

/-- Wait while a tile moves; an empty tile has no contents to read (11 R210). -/
def waitReady (m : Mach) (f : FaultInfo) (xs : List (Nat × Nat)) (word : Word) : Except Stop Unit :=
  if xs.any (fun x => (m.tileOf x).moving) then .error (.wait .tileState)
  else if xs.any (fun x => (m.tileOf x).st == 0) then .error (.trap { f with cause := .tile, tinfo := word })
  else .ok ()

/-- A warp that waited for a tile follows what made it ready (10 R196). -/
def seeTile (m : Mach) (ks : List Nat) (x : Nat × Nat) : Mach :=
  let t := (m.tileOf x).pts
  m.updWarps ks (fun _ w => { w with pts := max w.pts t })

/-- A load of a tile's table entry in the memory order (10 R192, R197). -/
def loadTile (m : Mach) (ks : List Nat) (x : Nat × Nat) : Mach :=
  let m := seeTile m ks x
  m.updWarp x.1 (fun w => let t := w.tile x.2; w.setTile x.2 { t with rts := max t.rts (m.ptsOf ks + 16) })

/-- The local-store key of a tile's byte. -/
def tileKey (x : Nat × Nat) (off : Nat) : Nat := (Space.tile x.1 x.2).key off

/-- The lanes of a TLD or TST with their offsets, checked: BOUNDS before ALIGN (11 TLD, TST). -/
def tileLanes (q : Req) (m : Mach) (k b code : Nat) (word : Word) : Except Stop (List (Nat × Nat)) :=
  let w := m.warp k
  let ls := if q.sc = 0 then (lanesOf w.path.mask).map (fun i => (i, (w.src b i).toNat)) else [(0, (w.getS b).toNat)]
  let fails := ls.filterMap (fun l =>
    if 3072 ≤ l.2 then some (l.1, l.2, (⟨2, 0, 0⟩ : AccFail))
    else if l.2 % 4 ≠ 0 then some (l.1, l.2, ⟨3, 0, 0⟩) else none)
  match failLanes (m.fault k q.sc .bounds) (bits word 9 0) code fails with
  | some st => .error st
  | none => .ok ls

/-- What the shared checks need to know of TLD and TST. -/
def tileReq (i : Instr) (x : FTL) (load : Bool) : Req :=
  if x.sc = 0 then
    { instr := i, sc := 0, vecs := (Src.reg x.a).vecs ++ (Src.reg x.b).vecs, vdsts := if load then (Src.reg x.a).vecs else [],
      srcs := x.c.toNat :: ((Src.reg x.b).scalars true ++ if load then [] else (Src.reg x.a).scalars true) }
  else { instr := i, sc := 1, srcs := x.c.toNat :: x.b.toNat :: (if load then [] else [x.a.toNat]),
         dsts := if load then [x.a.toNat] else [] }

/-- The tile and the lanes of a TLD or TST, after every check. -/
def tileAccess (q : Req) (x : FTL) (code : Nat) (m : Mach) (k : Nat) :
    Except Stop ((Nat × Nat) × List (Nat × Nat)) := do
  let f := m.fault k q.sc .tile
  let word := (m.warp k).getS x.c.toNat
  let tr ← tileRef m k f word
  waitReady m f [tr] word
  if code = 7 then waitChange m [tr]
  let ls ← tileLanes q m k x.b.toNat code word
  return (tr, ls)

/-- Count the bank conflicts of a lane-scope access to a tile, whose rows may have their banks XORed (09 R173, R180). -/
def countTileBanks (m : Mach) (q : Req) (k : Nat) (tr : Nat × Nat) (ls : List (Nat × Nat)) : Mach :=
  let flip (off : Nat) : Nat := off / 48 % 32 &&& (m.tileOf tr).bank
  match (if q.sc = 0 then bankClocks flip 4 (ls.map (·.2)) else 0) with
  | 0 => m
  | x => m.count (m.ctxOf k) 29 x

/-- TLD's lanes: 4-byte loads (11 TLD). -/
def tldLanes (q : Req) (k d : Nat) (tr : Nat × Nat) : Mach → List (Nat × Nat) → Except Stop Mach
  | m, [] => .ok m
  | m, (i, o) :: ls =>
    match m.poisonAt (tileKey tr o) 4 with
    | some u => .error (.consume u 0 (m.fault k q.sc .errcons))
    | none =>
      let x := wordsOfBytes 1 (Mem.readN m.mem (tileKey tr o) 4)
      tldLanes q k d tr ((m.stampLoad k (tileKey tr o) 16).updWarp k (fun w => writeRegs w q.sc d i x)) ls

/-- What the shared checks need to know of TLD. -/
def tldReq (x : FTL) : Req :=
  tileReq (.tld x) x true

/-- TLD (11). -/
def tldBody (x : FTL) (m : Mach) (ms : List Nat) : Except Stop Mach := do
  let q := tldReq x
  let k := ms.headD 0
  let (tr, ls) ← tileAccess q x 6 m k
  tldLanes q k x.a.toNat tr (countTileBanks (seeTile m [k] tr) q k tr ls) ls

/-- TLD as an instruction of the current warp. -/
def execTld (x : FTL) := issue (tldReq x) (tldBody x)

/-- What the shared checks need to know of TST. -/
def tstReq (x : FTL) : Req :=
  { tileReq (.tst x) x false with moves := true }

/-- TST (11): never held in a pail. -/
def tstBody (x : FTL) (m : Mach) (ms : List Nat) : Except Stop Mach := do
  let q := tstReq x
  let k := ms.headD 0
  let (tr, ls) ← tileAccess q x 7 m k
  let w := m.warp k
  let m := countTileBanks m q k tr ls
  let locs := orderLanes m (ls.map (fun l => (l.1, { (default : Loc) with off := l.2 })))
  let m := locs.foldl (fun m l =>
    m.perform k (tileKey tr l.2.off) (bytesOfWords (readRegs w q.sc x.a.toNat l.1 1))) (seeTile m [k] tr)
  return usedOrder m

/-- TST as an instruction of the current warp. -/
def execTst (x : FTL) := issue (tstReq x) (tstBody x)

/-- What the shared checks need to know of a tile form of format S. -/
def tileForm (i : Instr) (sc : BitVec 2) (c : BitVec 6) (srcs dsts : List Nat) (moves : Bool) : Req :=
  { instr := i, sc := sc.toNat, srcs := c.toNat :: srcs, dsts := dsts, moves := moves, late := tileRange sc.toNat c.toNat }

/-- Change every tile that an instruction names, once none of them is locked. -/
def changeTiles (q : Req) (c : BitVec 6) (f : Mach → Nat × Nat → Mach) (m : Mach) (ms : List Nat) : Except Stop Mach := do
  let xs ← tileRefs q m ms c.toNat
  waitChange m xs
  return xs.foldl f m

/-- What the shared checks need to know of TZERO. -/
def tzeroReq (x : FSC) : Req :=
  tileForm (.tzero x) x.sc x.c [] [] true

/-- TZERO (11 R220). -/
def tzeroBody (x : FSC) (m : Mach) (ms : List Nat) : Except Stop Mach :=
  let q := tzeroReq x
  changeTiles q x.c (fun m tr =>
  (m.poke (tileKey tr 0) (bytesOfNat 3072 0)).setTileOf ms tr (fun t => { t with st := 2 })) m ms

/-- TZERO as an instruction of the current warp. -/
def execTzero (x : FSC) := issue (tzeroReq x) (tzeroBody x)

/-- What the shared checks need to know of TFREE. -/
def tfreeReq (x : FSC) : Req :=
  tileForm (.tfree x) x.sc x.c [] [] true

/-- TFREE (11 R220). -/
def tfreeBody (x : FSC) (m : Mach) (ms : List Nat) : Except Stop Mach :=
  let q := tfreeReq x
  changeTiles q x.c (fun m tr => m.setTileOf ms tr (fun t => { t with st := 0 })) m ms

/-- TFREE as an instruction of the current warp. -/
def execTfree (x : FSC) := issue (tfreeReq x) (tfreeBody x)

/-- What the shared checks need to know of ARRIVE. -/
def arriveReq (x : FSC) : Req :=
  tileForm (.arrive x) x.sc x.c [] [] true

/-- ARRIVE (11 R221). -/
def arriveBody (x : FSC) (m : Mach) (ms : List Nat) : Except Stop Mach :=
  let q := arriveReq x
  changeTiles q x.c (fun m tr =>
  m.setTileOf ms tr (fun t => { t with st := 2, phase := !t.phase })) m ms

/-- ARRIVE as an instruction of the current warp. -/
def execArrive (x : FSC) := issue (arriveReq x) (arriveBody x)

/-- What the shared checks need to know of TMARK. -/
def tmarkReq (x : FSBC) : Req :=
  tileForm (.tmark x) x.sc x.c [x.b.toNat] [] true

/-- TMARK (11 R220): state empty or ready, and phase. -/
def tmarkBody (x : FSBC) (m : Mach) (ms : List Nat) : Except Stop Mach := do
  let q := tmarkReq x
  let word := headS m q.sc ms x.c.toNat
  let v := headS m q.sc ms x.b.toNat
  waitChange m (← tileRefs q m ms x.c.toNat)
  if bits v 31 3 ≠ 0 ∨ (bits v 1 0 ≠ 0 ∧ bits v 1 0 ≠ 2) then
    throw (.trap { m.fault (ms.headD 0) q.sc .tile with tinfo := word })
  changeTiles q x.c (fun m tr =>
    m.setTileOf ms tr (fun t => { t with st := bits v 1 0, phase := v.getLsbD 2 })) m ms

/-- TMARK as an instruction of the current warp. -/
def execTmark (x : FSBC) := issue (tmarkReq x) (tmarkBody x)

/-- The word TSTATE reads (11 R220). -/
def Tile.word (t : Tile) : Nat := t.st + 4 * t.phase.toNat

/-- What the shared checks need to know of TSTATE. -/
def tstateReq (x : FSAC) : Req :=
  tileForm (.tstate x) x.sc x.c [] [x.a.toNat] false

/-- TSTATE reads the table at once; each member reads its own tile (11 R220). -/
def tstateBody (x : FSAC) (m : Mach) (ms : List Nat) : Except Stop Mach := do
  let q := tstateReq x
  let xs ← tileRefs q m ms x.c.toNat
  let here := if q.sc = 2 then xs.filterMap (fun e => if e.1 ∈ ms then some (e.1, e) else none) else xs.map (fun e => (ms.headD 0, e))
  return here.foldl (fun m e => (loadTile m [e.1] e.2).answer e.1 x.a.toNat (m.tileOf e.2).word) m

/-- TSTATE as an instruction of the current warp. -/
def execTstate (x : FSAC) := issue (tstateReq x) (tstateBody x)

/-- Does the awaited condition hold for a tile (11 R221)? -/
def awaited (v : Word) (t : Tile) : Bool := if v.getLsbD 1 then t.st == 0 else t.phase == v.getLsbD 0

/-- What the shared checks need to know of AWAIT. -/
def awaitReq (x : FSBC) : Req :=
  tileForm (.await x) x.sc x.c [x.b.toNat] [] false

/-- AWAIT (11 R221). -/
def awaitBody (x : FSBC) (m : Mach) (ms : List Nat) : Except Stop Mach := do
  let q := awaitReq x
  let xs ← tileRefs q m ms x.c.toNat
  let v := headS m q.sc ms x.b.toNat
  if bits v 31 2 ≠ 0 then
    throw (.trap { m.fault (ms.headD 0) q.sc .tile with tinfo := headS m q.sc ms x.c.toNat })
  if xs.all (fun tr => awaited v (m.tileOf tr)) then return xs.foldl (fun m tr => loadTile m ms tr) m
  throw (.wait .tileState)

/-- AWAIT as an instruction of the current warp. -/
def execAwait (x : FSBC) := issue (awaitReq x) (awaitBody x)

end Sys2Proof.Machine
end

