-- ==== Sys2Proof/Machine/Futures.lean ====
section
/-!
DEFINITION. The issue of engine commands: counters (11 R205), futures and tokens (11 R206, R207, R219).
-/

namespace Sys2Proof.Machine

/-- The lowest free entry of a futures table (11 R207). -/
def freeFuture (w : Warp) : Option Nat := (List.range 16).find? (fun i => (Map.find? w.futs i).isNone)

/-- Must an issue stall: a full counter, or no free futures entry (11 R205, R207)? -/
def mustStall (m : Mach) (cls fu : Nat) (ms : List Nat) : Option Stop :=
  if ms.any (fun j => decide (63 ≤ (m.warp j).counter cls)) then some (.wait .counter)
  else if fu ≠ 0 ∧ ms.any (fun j => (freeFuture (m.warp j)).isNone) then some (.wait .futures)
  else none

/-- The token of an entry (11 R206). -/
def tokenOf (w : Warp) (entry : Nat) : Word :=
  BitVec.ofNat 32 (0xA * 2 ^ 28 + (Map.get w.gens entry).toNat * 2 ^ 20 + w.idx * 16 + entry)

/-- One issuing warp's part of an issue: its counter rises, and with FU nonzero it takes an entry and marks the future
register pending. -/
def takeFuture (op cls fu : Nat) (w : Warp) : Warp × Option Nat :=
  let w := w.setCounter cls (w.counter cls + 1)
  if fu = 0 then (w, none)
  else match freeFuture w with
    | none => (w, none)
    | some e =>
      let w := consume w [fu]
      ({ w with futs := Map.ins w.futs e { op := op, cls := cls, status := none, reg := some (w.sKey fu), pts := 0 },
                gens := Map.set w.gens e (Map.get w.gens e + 1) }, some e)

/-- Every issuing warp's part, in order. -/
def takeFutures (op cls fu : Nat) : Mach → List Nat → Mach × List (Nat × Option Nat)
  | m, [] => (m, [])
  | m, j :: js =>
    let r := takeFuture op cls fu (m.warp j)
    let x := takeFutures op cls fu (m.setWarp j r.1) js
    (x.1, (j, r.2) :: x.2)

/-- Issue an engine command at its retirement (11 R202 to R207; 10 R196): the words retire in every member, counters rise,
futures are allotted, and the operation enters its engine's queue. Member 0's token goes to every member (04 R92). -/
def issueOp (q : Req) (cls fu : Nat) (token : Bool) (cmd : Cmd) (ended : Option Nat) (m : Mach) (ms : List Nat) : Mach :=
  let k := ms.headD 0
  let w := m.warp k
  let b := m.block w.block
  let op := m.nextOp
  let r := takeFutures op cls fu (retire q m ms) ms
  let x : Op :=
    { cls := cls, cmd := cmd, ctx := b.ctx, block := w.block, issuers := r.2, scope := q.sc, started := false, ended := ended,
      held := none, info := default, refused := 0, pail := if b.holding then b.pail else [], pts := w.pts,
      code := codeHandle m k, pc := w.path.pc }
  let m : Mach := { r.1 with ops := Map.ins r.1.ops op x, nextOp := op + 1 }
  match token, r.2.head? with
  | true, some (j, some e) =>
    let tok := tokenOf (m.warp j) e
    m.updWarps ms (fun _ w => (consume w [fu + 1]).setS (fu + 1) tok)
  | _, _ => m

/-- The futures entry that a register names: a pending register of the warp, or a token (11 R219). -/
def futureNamed (m : Mach) (k f : Nat) : Option (Nat × Nat) :=
  let w := m.warp k
  match w.futs.find? (fun e => e.2.reg == some (w.sKey f)) with
  | some (e, _) => some (k, e)
  | none =>
    let tok := w.getS f
    let j := warpKey w.block (bits tok 8 4)
    let e := bits tok 3 0
    match Map.find? m.warps j with
    | none => none
    | some x =>
      if bits tok 31 28 = 0xA ∧ bits tok 19 9 = 0 ∧ (Map.find? x.futs e).isSome ∧ (Map.get x.gens e).toNat = bits tok 27 20
      then some (j, e) else none

/-- The entry of a named future. -/
def Mach.futureOf (m : Mach) (x : Nat × Nat) : Fut :=
  (Map.find? (m.warp x.1).futs x.2).getD { op := 0, cls := 0, status := some 0, reg := none, pts := 0 }

/-- The observer of a completion follows the operation (10 R196). -/
def seeFuture (m : Mach) (k : Nat) (f : Fut) : Mach := m.updWarp k (fun w => { w with pts := max w.pts f.pts })

/-- What the shared checks need to know of FTEST, FCANCEL and FWAIT, which read sF in their own way. -/
def futReq (i : Instr) (x : FAB) : Req := { instr := i, sc := 1, dsts := [x.a.toNat], also := [x.b.toNat] }

/-- What the shared checks need to know of FTEST. -/
def ftestReq (x : FAB) : Req :=
  futReq (.ftest x) x

/-- FTEST (11 R219). -/
def ftestBody (x : FAB) (m : Mach) (ms : List Nat) : Except Stop Mach :=
  let k := ms.headD 0
  match futureNamed m k x.b.toNat with
  | none => .ok (m.answer k x.a.toNat 1)
  | some e =>
    let f := m.futureOf e
    if f.status.isSome then .ok ((seeFuture m k f).answer k x.a.toNat 1) else .ok (m.answer k x.a.toNat 0)

/-- FTEST as an instruction of the current warp. -/
def execFtest (x : FAB) := issue (ftestReq x) (ftestBody x)

/-- What the shared checks need to know of FCANCEL. -/
def fcancelReq (x : FAB) : Req :=
  futReq (.fcancel x) x

/-- FCANCEL (11 R219): an operation that has not started ends CANCELLED in its place. -/
def fcancelBody (x : FAB) (m : Mach) (ms : List Nat) : Except Stop Mach :=
  let k := ms.headD 0
  match futureNamed m k x.b.toNat with
  | none => .ok (m.answer k x.a.toNat 6)
  | some e =>
    let f := m.futureOf e
    let o := m.op f.op
    if f.status.isSome then .ok (m.answer k x.a.toNat 0)
    else if o.started ∨ o.ended.isSome ∨ o.cls = 3 then .ok (m.answer k x.a.toNat (if o.ended = some 10 then 10 else 7))
    else .ok (((m.updOp f.op (fun o => { o with ended := some 10 })).count (m.ctxOf k) 38 1).answer k x.a.toNat 10)

/-- FCANCEL as an instruction of the current warp. -/
def execFcancel (x : FAB) := issue (fcancelReq x) (fcancelBody x)

/-- What the shared checks need to know of FWAIT. -/
def fwaitReq (x : FAB) : Req :=
  futReq (.fwait x) x

/-- FWAIT (11 R219): it consumes the future if sF was pending. -/
def fwaitBody (x : FAB) (m : Mach) (ms : List Nat) : Except Stop Mach :=
  let k := ms.headD 0
  match futureNamed m k x.b.toNat with
  | none => .ok (m.answer k x.a.toNat 6)
  | some e =>
    let f := m.futureOf e
    match f.status with
    | none => .error (.wait .future)
    | some st => .ok (((seeFuture m k f).updWarp k (fun w => consume w [x.b.toNat])).answer k x.a.toNat st)

/-- FWAIT as an instruction of the current warp. -/
def execFwait (x : FAB) := issue (fwaitReq x) (fwaitBody x)

/-- What the shared checks need to know of CWAIT. -/
def cwaitReq (x : FSAB) : Req :=
  { instr := .cwait x, sc := x.sc.toNat }

/-- CWAIT (11 R205): at set scope in every live member. -/
def cwaitBody (x : FSAB) (m : Mach) (ms : List Nat) : Except Stop Mach :=
  let c := x.a.toNat
  if ms.all (fun j => decide ((m.warp j).counter c ≤ x.b.toNat)) then .ok (m.updWarps ms (fun _ w => observe w c))
  else .error (.wait .cwait)

/-- CWAIT as an instruction of the current warp. -/
def execCwait (x : FSAB) := issue (cwaitReq x) (cwaitBody x)

end Sys2Proof.Machine
end

