-- ==== Sys2Proof/Machine/Engines.lean ====
section
/-!
DEFINITION. Issue of COPY, GATH, SCAT and COLL (11 R212, R215 to R218): layout entries (09 R173), tensor addressing, checks.
-/

namespace Sys2Proof.Machine

/-- A layout entry from its 64 bytes (09 R173). -/
def layoutOfBytes (bs : List Byte) : Layout :=
  let n := natOfBytes bs
  let f (off w : Nat) : Nat := n / 2 ^ (8 * off) % 2 ^ (8 * w)
  { handle := f 0 2, dims := f 2 1, fmt := f 3 1, rows := f 4 2, perRow := f 6 2,
    extents := (List.range 5).map (fun i => f (8 + 4 * i) 4), strides := (List.range 5).map (fun i => f (0x20 + 4 * i) 4),
    bank := f 0x34 1 }

/-- Are a layout entry's reserved bytes zero, at 0x1C and from 0x35 (09 R173)? -/
def layoutReserved (bs : List Byte) : Bool :=
  let n := natOfBytes bs
  n / 2 ^ (8 * 0x1C) % 2 ^ 32 == 0 && n / 2 ^ (8 * 0x35) == 0

/-- The limits of a layout entry (09 R173). -/
def Layout.valid (l : Layout) : Bool :=
  decide (2 ≤ l.handle) && decide (l.handle ≤ 4063) && decide (1 ≤ l.dims) && decide (l.dims ≤ 5) && decide (l.fmt < 7) &&
  decide (1 ≤ l.rows) && decide (l.rows ≤ 64) && decide (1 ≤ l.perRow) && decide (l.perRow ≤ 384 / fmtWidth l.fmt) &&
  (l.extents.zipIdx).all (fun e => if e.2 < l.dims then e.1 != 0 else e.1 == 0) && decide (l.bank < 32) &&
  (l.fmt != 5 || (l.strides.headD 0 == 1 && l.extents.headD 0 % 4 == 0))

/-- The extent of a dimension: 1 at or beyond dims (11 R212). -/
def Layout.extent (l : Layout) (k : Nat) : Nat := if k < l.dims then l.extents.getD k 0 else 1

/-- The coordinates of element e of tile row r in member i; with an index j, x1 is j (11 R212, R216). -/
def Layout.coord (l : Layout) (c : List Int) (i r e : Nat) (j : Option Nat) (k : Nat) : Int :=
  match k with
  | 0 => c.getD 0 0 + e
  | 1 => match j with
    | some j => j
    | none => (if 1 < l.dims then c.getD 1 0 else 0) + i * l.rows + r
  | _ => if k < l.dims then c.getD k 0 else 0

/-- The element index of an element in extent (11 R212). -/
def Layout.element (l : Layout) (c : List Int) (i r e : Nat) (j : Option Nat) : Option Nat :=
  let xs := (List.range 5).map (l.coord c i r e j)
  if xs.zipIdx.all (fun x => decide (0 ≤ x.1) && decide (x.1 < l.extent x.2)) then
    some ((xs.zipIdx.map (fun x => x.1.toNat * l.strides.getD x.2 0)).sum)
  else none

/-- The bytes from the base that the in-extent elements of a tensor reach (11 R212, check 3). -/
def Layout.reach (l : Layout) : Nat :=
  let q := ((List.range l.dims).map (fun k => (l.extent k - 1) * l.strides.getD k 0)).sum
  if l.fmt = 5 then q / 4 * 3 + 3 else (q + 1) * (fmtWidth l.fmt / 8)

/-- Byte offset of the byte that holds an element's first bit, and the element's first bit in it (11 R212, 02 R35). -/
def Layout.bitPos (l : Layout) (q : Nat) : Nat := q * fmtWidth l.fmt

/-- The layout entry of a transfer, with check 1 of R212 on it. Bit 29 of TINFO marks a layout index. -/
def layoutOf (m : Mach) (bk : Nat) (f : FaultInfo) (lay : Nat) : Except Stop Layout := do
  let c := (m.block bk).ctx
  let bad : Stop := .trap { f with cause := .handle, tinfo := BitVec.ofNat 32 (lay + 4 * 4096 + 2 ^ 29) }
  let bs ← tableRead m c f (m.hdr c 0x10 8 + 64 * lay) 64
  let l := layoutOfBytes bs
  if !l.valid || !layoutReserved bs then throw bad
  let kind := (HEntry.ofBytes (← tableRead m c f (m.hdr c 8 8 + 32 * l.handle) 32)).kind
  if kind ≠ 1 ∧ kind ≠ 6 ∧ kind ≠ 7 then throw bad
  return l

/-- The handle of a layout entry, with check 1 of R212 on it. -/
def layoutHandle (m : Mach) (bk : Nat) (f : FaultInfo) (l : Layout) : Except Stop HEntry := do
  match ← handleOf m bk f l.handle with
  | none => throw (.trap { f with cause := .handle, tinfo := BitVec.ofNat 32 (l.handle + 4 * 4096) })
  | some e => return e

/-- Checks 2 to 4 of R212. -/
def transferChecks (b : Block) (f : FaultInfo) (l : Layout) (e : HEntry) (out : Bool) (coords : List Int) :
    Except Stop Unit :=
  let f := { f with tinfo := BitVec.ofNat 32 (l.handle + 4 * 4096), taddr := 0 }
  let size := fmtWidth l.fmt / 8
  if (if out then e.access / 2 % 2 = 0 else e.access % 2 = 0) ∨ (e.world = 1 ∧ b.world = 0) then
    .error (.trap { f with cause := .perm })
  else if l.reach > e.length then .error (.trap { f with cause := .bounds })
  else if l.fmt = 5 then
    if coords.getD 0 0 % 4 ≠ 0 ∨ (rangeFrom 1 (l.dims - 1)).any (fun k => l.strides.getD k 0 % 4 != 0) then
      .error (.trap { f with cause := .align })
    else .ok ()
  else if e.base % size ≠ 0 then .error (.trap { f with cause := .align })
  else .ok ()

/-- A sample, which stands in no command queue (21 R345). -/
def Op.isSample (o : Op) : Bool := match o.cmd with | .sample .. => true | _ => false

/-- Is the copy engine's queue of the core full (11 R202)? -/
def copyQueueFull (m : Mach) (core : Nat) : Bool :=
  decide (256 ≤ (m.ops.filter (fun e => e.2.cls == 0 && !e.2.isSample && !e.2.started && e.2.ended.isNone &&
    (m.block e.2.block).core == core)).length)

/-- What the shared checks need to know of a transfer. -/
def xferReq (i : Instr) (sc : BitVec 2) (tr : BitVec 6) (vecs srcs : List Nat) : Req :=
  { instr := i, sc := sc.toNat, cls := 1, words := 2, vecs := vecs, srcs := tr.toNat :: srcs, moves := true,
    late := tileRange sc.toNat tr.toNat }

/-- Issue a transfer whose checks of R212 have passed: the waits of R210, the queue, the counters, then the operation
(11 COPY, GATH, SCAT; 10 R200 for the pail). -/
def issueTransfer (q : Req) (tr : BitVec 6) (fu : Nat) (token flip out rows : Bool) (l : Layout) (e : HEntry)
    (coords : List Int) (parts : List Part) (m : Mach) (ms : List Nat) : Except Stop Mach := do
  let k := ms.headD 0
  let xs := parts.map (fun p => (p.owner, p.tile))
  if out then waitReady m (m.fault k q.sc .tile) xs (headS m q.sc ms tr.toNat) else waitChange m xs
  if let some st := mustStall m 0 fu ms then throw st
  let b := m.blockOf k
  if copyQueueFull m b.core then throw (.wait .queue)
  let m := if out then commit m k else m
  let m := xs.foldl (fun m x => m.setTileOf ms x (fun t => { t with st := if out then 3 else 1 })) m
  return issueOp q 0 fu token (.xfer out flip rows l e coords parts) none (m.count b.ctx 32 1) ms

/-- The member parts of COPY: every member's tile, no indices. -/
def plainParts (sc k : Nat) (xs : List (Nat × Nat)) : List Part :=
  xs.map (fun e => { warp := if sc = 2 then e.1 else k, owner := e.1, tile := e.2, idx := [] })

/-- What the shared checks need to know of COPY. -/
def copyReq (x : FCOPY) : Req :=
  xferReq (.copy x) x.sc x.tr [] []

/-- COPY (11). -/
def copyBody (x : FCOPY) (m : Mach) (ms : List Nat) : Except Stop Mach := do
  let q := copyReq x
  let k := ms.headD 0
  let bk := (m.warp k).block
  let f := m.fault k q.sc .handle
  let xs ← tileRefs q m ms x.tr.toNat
  let l ← layoutOf m bk f x.lay.toNat
  if 63 < x.cr.toNat + l.dims - 1 then throw (.trap { f with tinfo := BitVec.ofNat 32 (l.handle + 4 * 4096) })
  let e ← layoutHandle m bk f l
  let regs := rangeFrom x.cr.toNat l.dims
  if let some st := operands { q with vecs := [], srcs := regs } m (m.lead q.sc k) then throw st
  let m ← touchMore q.sc m (m.scalarUses (m.lead q.sc k) true regs)
  let coords := regs.map (fun r => (headS m q.sc ms r).toInt)
  let out := x.dir == 1
  transferChecks (m.block bk) f l e out coords
  issueTransfer { q with srcs := q.srcs ++ regs } x.tr x.fu.toNat (x.t == 1) (x.fl == 1) out false l e coords
    (plainParts q.sc k xs) m ms

/-- COPY as an instruction of the current warp. -/
def execCopy (x : FCOPY) := issueTo (copyReq x) (copyBody x)

/-- The row indices a member supplies (11 R216): exited lanes keep the values they held. -/
def rowIndices (w : Warp) (iv rows : Nat) : List Nat :=
  (List.range rows).map (fun r => (w.getV (iv + r / 32) (r % 32)).toNat)

/-- What the shared checks need to know of GATH and SCAT. -/
def gatherScatterReq (i : Instr) (x : FGATH) : Req :=
  xferReq i x.sc x.tr [x.iv.toNat] [x.c0.toNat]

/-- GATH and SCAT (11 R216). -/
def gatherScatterBody (i : Instr) (x : FGATH) (out : Bool) (m : Mach) (ms : List Nat) : Except Stop Mach := do
  let q := gatherScatterReq i x
  let k := ms.headD 0
  let bk := (m.warp k).block
  let f := m.fault k q.sc .handle
  let xs ← tileRefs q m ms x.tr.toNat
  let l ← layoutOf m bk f x.lay.toNat
  let iv := x.iv.toNat
  if l.dims ≠ 2 ∨ (32 < l.rows ∧ (iv % 2 = 1 ∨ 47 < iv + 1)) then
    throw (.trap { f with tinfo := BitVec.ofNat 32 (l.handle + 4 * 4096) })
  if 32 < l.rows ∧ ms.any (fun j => decide ((m.warp j).nv ≤ iv + 1)) then
    throw (.trap { f with cause := .regrange, tinfo := BitVec.ofNat 32 (iv + 1) })
  let e ← layoutHandle m bk f l
  if let some st := ms.findSome? (operands { q with vecs := rangeFrom iv (cdiv l.rows 32), srcs := [] } m) then throw st
  let m ← touchMore q.sc m (ms.flatMap (fun j => vectorUses j (rangeFrom iv (cdiv l.rows 32))))
  let coords := [(headS m q.sc ms x.c0.toNat).toInt]
  transferChecks (m.block bk) f l e out coords
  let parts := (plainParts q.sc k xs).map (fun p => { p with idx := rowIndices (m.warp p.warp) iv l.rows })
  issueTransfer q x.tr x.fu.toNat (x.t == 1) (x.fl == 1) out true l e coords parts m ms

/-- GATH or SCAT as an instruction of the current warp. -/
def gatherScatter (i : Instr) (x : FGATH) (out : Bool) (s : State) : Host.Outcome State Fault Refusal :=
  issueTo (gatherScatterReq i x) (gatherScatterBody i x out) s

/-- GATH (11 R216). -/
def execGath (x : FGATH) := gatherScatter (.gath x) x false
/-- SCAT (11 R216). -/
def execScat (x : FGATH) := gatherScatter (.scat x) x true

/-- A group entry (11 R217), and whether its rank map names another package. -/
structure GroupEntry where
  ranks : Nat
  handle : Nat
  timeout : Nat
  remote : Bool
  deriving DecidableEq, Repr

/-- A valid rank word: a node, a team and zeros (11 R217). -/
def rankWordOk (x : Word) : Bool := bits x 14 0 == 0

/-- A group entry of the context and its rank map; none if the entry is invalid (11 R217). -/
def groupOf (m : Mach) (bk : Nat) (f : FaultInfo) (grp : Nat) : Except Stop (Option GroupEntry) := do
  let c := (m.block bk).ctx
  let bs ← tableRead m c f (m.hdr c 0x18 8 + 16 * grp) 16
  let n := natOfBytes bs
  let g : GroupEntry := { ranks := n % 2 ^ 16, handle := n / 2 ^ 16 % 2 ^ 16, timeout := n / 2 ^ 32 % 2 ^ 32, remote := false }
  if n / 2 ^ 64 ≠ 0 ∨ g.ranks < 2 ∨ 256 < g.ranks then return none
  match ← handleOf m bk f g.handle with
  | none => return none
  | some e =>
    if e.kind ≠ 1 ∨ e.access % 2 = 0 ∨ e.length < 4 * g.ranks ∨ (e.world = 1 ∧ (m.block bk).world = 0) then return none
    let ws ← (List.range g.ranks).mapM (fun i => (tableRead m c f (e.base + 4 * i) 4).map (fun b => BitVec.ofNat 32 (natOfBytes b)))
    return if ws.all rankWordOk then some { g with remote := ws.any (fun w => bits w 31 20 != 0xFFF) } else none

/-- Element bytes of a COLL format: FP32, FP16, BF16, INT32 (11 COLL). -/
def collSize (fmt : Nat) : Nat := if fmt = 1 ∨ fmt = 2 then 2 else 4

/-- Bytes of a rank's buffer (11 R218). -/
def collBytes (kind fmt n count : Nat) : Nat := (if kind = 0 then count else n * count) * collSize fmt

/-- The first check of R172 that a whole buffer fails at issue; translation is left to the engine (11 R218, R204). -/
def bufferChecks (b : Block) (f : FaultInfo) (h off n al : Nat) (need : Nat) (e : HEntry) : Except Stop Unit :=
  let f := { f with tinfo := BitVec.ofNat 32 (h % 4096 + 4 * 4096), taddr := BitVec.ofNat 32 off }
  if off + n > e.length then .error (.trap { f with cause := .bounds })
  else if off % al ≠ 0 then .error (.trap { f with cause := .align })
  else if e.access &&& need ≠ need ∨ (e.world = 1 ∧ b.world = 0) then .error (.trap { f with cause := .perm })
  else .ok ()

/-- A handle of kind 1 that an engine command names (09 R168). -/
def bulkHandle (m : Mach) (bk : Nat) (f : FaultInfo) (h : Nat) : Except Stop HEntry := do
  let bad : Stop := .trap { f with cause := .handle, tinfo := BitVec.ofNat 32 (h % 4096 + 4 * 4096) }
  match ← handleOf m bk f h with
  | none => throw bad
  | some e => if e.kind = 1 then return e else throw bad

/-- Translate the whole of an access of R172's checks 5 and 6 in pages of 64 KiB: the first failure. -/
def bufferPages (m : Mach) (bk : Nat) (f : FaultInfo) (h off n : Nat) (acc : Acc) (e : HEntry) : Except Stop Unit :=
  if n = 0 then .ok ()
  else
    let lo := (e.base + off) / 65536
    let hi := (e.base + off + n - 1) / 65536
    let f := { f with tinfo := BitVec.ofNat 32 (h % 4096 + 4 * 4096), taddr := BitVec.ofNat 32 off }
    let fails := (rangeFrom lo (hi + 1 - lo)).filterMap (fun p =>
      let va := max (p * 65536) (e.base + off)
      match translate m (m.block bk).ctx acc va with
      | .error size => some (Stop.held 0 { f with cause := .xlate, va := va } (va / size * size) size)
      | .ok pa => if m.tag pa = e.world then none
                  else some (Stop.trap { f with cause := .perm, tinfo := f.tinfo ||| 65536 }))
    let held := fails.find? (fun st => match st with | .held _ _ _ _ => true | _ => false)
    match held, fails with
    | some st, _ => .error st
    | none, st :: _ => .error st
    | none, [] => .ok ()

/-- Is the collective engine's queue of the team full (11 R202)? -/
def collQueueFull (m : Mach) (core : Nat) : Bool :=
  decide (64 ≤ (m.ops.filter (fun e => e.2.cls == 1 && !e.2.started && e.2.ended.isNone &&
    teamOf (m.block e.2.block).core == teamOf core)).length)

/-- What the shared checks need to know of COLL. -/
def collReq (x : FCOLL) : Req :=
  let rb := x.rb.toNat
  { instr := .coll x, sc := x.sc.toNat, cls := 1, words := 2, srcs := rangeFrom rb 4, moves := true }

/-- COLL (11 R218): its ordinal pairs it with the other ranks' COLLs of that ordinal; with no elements it ends at once. -/
def collBody (x : FCOLL) (m : Mach) (ms : List Nat) : Except Stop Mach := do
  let q := collReq x
  let rb := x.rb.toNat
  let k := ms.headD 0
  let bk := (m.warp k).block
  let b := m.block bk
  let f := m.fault k q.sc .handle
  let rank := (headS m q.sc ms rb).toNat
  let h := (headS m q.sc ms (rb + 1)).toNat
  let off := (headS m q.sc ms (rb + 2)).toNat
  let count := (headS m q.sc ms (rb + 3)).toNat
  let bad : Stop := .trap { f with tinfo := BitVec.ofNat 32 (x.grp.toNat + 4 * 4096 + 2 ^ 29) }
  match ← groupOf m bk f x.grp.toNat with
  | none => throw bad
  | some g =>
    if g.ranks ≤ rank then throw bad
    let e ← bulkHandle m bk f h
    let n := collBytes x.kind.toNat x.fmt.toNat g.ranks count
    bufferChecks b f h off n (collSize x.fmt.toNat) 3 e
    if let some st := mustStall m 1 x.fu.toNat ms then throw st
    if collQueueFull m b.core then throw (.wait .queue)
    let m := commit m k
    let key := 256 * x.grp.toNat + rank
    let ord := (Map.find? (m.ctx b.ctx).colls key).getD 0
    let what := (x.kind.toNat, x.red.toNat, x.fmt.toNat)
    let m := (m.updCtx b.ctx (fun c =>
      { c with colls := Map.ins c.colls key (ord + 1),
               zeros := if count = 0 then ((x.grp.toNat, ord, rank), what) :: c.zeros else c.zeros })).count b.ctx 34 1
    return issueOp q 1 x.fu.toNat (x.t == 1)
      (.coll x.kind.toNat x.red.toNat x.fmt.toNat x.grp.toNat rank g.ranks ord count h off e)
      (if count = 0 then some 0 else none) m ms

/-- COLL as an instruction of the current warp. -/
def execColl (x : FCOLL) := issueTo (collReq x) (collBody x)

end Sys2Proof.Machine
end

