-- ==== Sys2Proof/Machine/Lg6.lean ====
section
/-!
DEFINITION. LG6: its values, products, encoding and packing (02 R33 to R37).
-/

namespace Sys2Proof.Machine

/-- The log table LGT (02 R33). -/
def lgt : Nat → Nat
  | 0 => 2048
  | 1 => 2435
  | 2 => 2896
  | _ => 3444

/-- The magnitude of log field L in units of 2^-15, L from 1 to 31 (02 R33). -/
def lgUnits (l : Nat) : Nat := lgt (l % 4) * 2 ^ (l / 4)

/-- The value of a code; bits above 5 are ignored (02 R33; 08 R164). -/
def lg6Value (x : Nat) : FVal :=
  let c := x % 64
  if c = 0x20 then .nan
  else if c = 0 then .fin false 0 0
  else .fin (decide (32 ≤ c)) (lgUnits (c % 32)) (-15)

/-- lg6_prod (02 R34): the product in units of 2^-19, and poison. -/
def lg6Prod (a b : Nat) : Int × Bool :=
  if a = 0x20 ∨ b = 0x20 then (0, true)
  else if a % 32 = 0 ∨ b % 32 = 0 then (0, false)
  else
    let k := a % 32 + b % 32
    (signedInt (decide (a / 32 ≠ b / 32)) (lgt (k % 4) * 2 ^ (k / 4)), false)

/-- The threshold between L and L + 1 in units of 2^-16 (02 R37). -/
def lgThreshold (l : Nat) : Nat := lgUnits l + lgUnits (l + 1)

/-- Whether m * 2^e is below, at or above t * 2^-16. -/
def cmpUnits (m : Nat) (e : Int) (t : Nat) : Ordering :=
  if e < -16 then compare m (t * 2 ^ (-16 - e).toNat) else compare (m * 2 ^ (e + 16).toNat) t

/-- The log field of a magnitude not below the first threshold: L starts at 1 and passes each threshold below it; on a
threshold the even neighbour is taken (02 R36). -/
def lgField (m : Nat) (e : Int) : Nat :=
  (rangeFrom 1 30).foldl (fun l j =>
    match cmpUnits m e (lgThreshold j) with
    | .gt => j + 1
    | .eq => if j % 2 = 0 then j else j + 1
    | .lt => l) 1

/-- The code of a finite value (02 R36). -/
def lg6Code (s : Bool) (m : Nat) (e : Int) : Nat :=
  if cmpUnits m e 2435 = .lt then 0 else (if s then 32 else 0) + lgField m e

/-- Encoding to LG6 with its flags (02 R31, R36; 08 R165). -/
def lg6Of : FVal → Nat × FFlags
  | .nan => (0x20, { nv := true })
  | .inf _ => (0x20, { nv := true })
  | .fin s m e =>
    let c := lg6Code s m e
    let same := if c = 0 then m == 0 else cmpUnits m e (2 * lgUnits (c % 32)) == .eq
    (c, { nx := !same })

/-- Element i of packed bytes: four elements in three bytes (02 R35). -/
def lg6Element (bytes : Nat → Nat) (i : Nat) : Nat :=
  let g := i / 4
  (bytes (3 * g) + 256 * bytes (3 * g + 1) + 65536 * bytes (3 * g + 2)) / 2 ^ (6 * (i % 4)) % 64

end Sys2Proof.Machine
end

