-- ==== Sys2Proof/Machine/Accumulators.lean ====
section
/-!
DEFINITION. Accumulator entries and windows (02 R38, R39; 12 R222), the sums of the arrays (02 R38, R40), the drain formula
(02 R44, R45), format slots (02 R42, R43) and accumulator images (12 R237).
-/

namespace Sys2Proof.Machine

/-- How an accumulator tile is kept while a command is in flight: an allotted tile by its index, tile j of the mapped vat by
1024 + j (14 R246). -/
def accSlot (a c : Nat) : Nat := if c < a then c else 1024 + (c - a)

/-- The window's length (12 R222). -/
def windowLen (m : Mach) (k : Nat) : Nat :=
  let w := m.warp k
  w.na + (match w.vatMap with | some v => 4 * (m.vat v).size | none => 0)

/-- Entry e = 16 m + n of an accumulator tile. -/
def accRead (m : Mach) (k slot e : Nat) : BitVec 50 :=
  let w := m.warp k
  if slot < 1024 then Map.get w.acc (256 * slot + e)
  else match w.vatMap with
    | some v => Map.get (m.vat v).tiles (256 * (slot - 1024) + e)
    | none => 0

def accWrite (m : Mach) (k slot e : Nat) (x : BitVec 50) : Mach :=
  let w := m.warp k
  if slot < 1024 then m.setWarp k { w with acc := Map.set w.acc (256 * slot + e) x }
  else match w.vatMap with
    | some v => m.updVat v (fun t => { t with tiles := Map.set t.tiles (256 * (slot - 1024) + e) x })
    | none => m

/-- The part number that stands for the poison mark of tile j of an accumulator vat (21 R329). -/
def vatTilePart (v j : Nat) : Nat := (Space.vat v 0).key 0 / 16 + j

/-- The poison mark of an accumulator tile (21 R329). -/
def accMark (m : Mach) (k slot : Nat) : Option Word :=
  let w := m.warp k
  if slot < 1024 then Map.find? w.bad (64 + slot)
  else w.vatMap.bind (fun v => Map.find? m.poison (vatTilePart v (slot - 1024)))

/-- Put an entry into a map, or remove it. -/
def putOpt {α : Type} (l : List (Nat × α)) (k : Nat) : Option α → List (Nat × α)
  | some a => Map.ins l k a
  | none => Map.del l k

/-- Set or clear the mark of an accumulator tile. -/
def setAccMark (m : Mach) (k slot : Nat) (u : Option Word) : Mach :=
  let w := m.warp k
  if slot < 1024 then m.setWarp k { w with bad := putOpt w.bad (64 + slot) u }
  else match w.vatMap with
    | some v => { m with poison := putOpt m.poison (vatTilePart v (slot - 1024)) u }
    | none => m

/-- The fields of an entry (02 R38). -/
def entryE (x : BitVec 50) : Int := (x.truncate 48).toInt
def entryS (x : BitVec 50) : Bool := x.getLsbD 48
def entryP (x : BitVec 50) : Bool := x.getLsbD 49

/-- An entry from E, S and P. -/
def mkEntry (e : Int) (s p : Bool) : BitVec 50 :=
  BitVec.ofNat 50 ((BitVec.ofInt 48 e).toNat + s.toNat * 2 ^ 48 + p.toNat * 2 ^ 49)

/-- One K-step of exact accumulation (02 R38). -/
def exactStep (x : BitVec 50) (prods : List (Int × Bool)) : BitVec 50 :=
  let p := entryP x || prods.any (fun q => q.2)
  let lim : Int := 2 ^ 47 - 1
  if entryS x then mkEntry (entryE x) true p
  else
    let e := entryE x + (prods.map (fun q => q.1)).sum
    if -lim ≤ e ∧ e ≤ lim then mkEntry e false p else mkEntry (if 0 < e then lim else -lim) true p

/-- The exact sum of finite values, for which a zero keeps the sign of 02 R40. -/
def exactSum (x : FVal) (ys : List FVal) : FVal :=
  ys.foldl (fun a y => match a, y with
    | .fin s m e, .fin t n f => addFin .rne s m e t n f
    | a, _ => a) x

/-- One K-step of FP32 accumulation (02 R40): the new word. -/
def floatStep (c : FVal) (pairs : List (FVal × FVal)) (poison : Bool) : Nat :=
  let prods := pairs.map (fun p => p.1.mul p.2)
  if poison || c.isNan || prods.any (fun p => match p with | none => true | some v => v.isNan) then fp32.nan
  else
    let all := c :: prods.map (fun p => p.getD .nan)
    let pos := all.any (fun v => v == .inf false)
    let neg := all.any (fun v => v == .inf true)
    if pos && neg then fp32.nan
    else if pos then fp32.signed false fp32.infCode
    else if neg then fp32.signed true fp32.infCode
    else (fp32.deliver .rne (exactSum c (all.drop 1))).1

/-- The fields of a format slot (02 R42). -/
def slotA (s : Word) : Nat := bits s 3 0
def slotB (s : Word) : Nat := bits s 7 4
def slotKind (s : Word) : Nat := bits s 11 8
def slotOut (s : Word) : Nat := bits s 15 12
def slotRowScale (s : Word) : Nat := bits s 17 16
def slotColScale (s : Word) : Nat := bits s 19 18

/-- Is a format slot consistent (02 R42, R43)? -/
def slotOk (s : Word) : Bool :=
  let a := slotA s
  let b := slotB s
  let k := slotKind s
  let o := slotOut s
  let scales := decide (slotRowScale s ≤ 1) && decide (slotColScale s ≤ 1)
  let pair (lo hi : Nat) : Bool := decide (lo ≤ a) && decide (a ≤ hi) && decide (lo ≤ b) && decide (b ≤ hi)
  bits s 31 20 == 0 && scales &&
  ((k == 0 && (pair 1 2 || pair 3 4) && decide (o ≤ 4)) ||
   (k == 1 && (pair 5 5 || pair 6 6) && decide (o ≤ 4)) ||
   (k == 1 && pair 6 6 && o == 7 && slotRowScale s == 0 && slotColScale s == 0))

/-- The floating-point format of a code; LG6 and integers have none. -/
def fmtOf (code : Nat) : Fmt :=
  match code with
  | 0 => fp32 | 1 => fp16 | 2 => bf16 | 3 => e4m3 | _ => e5m2

/-- Element k of a 48-byte tile row in a format (12 R227; 02 R35). -/
def rowElement (fmt : Nat) (row : List Byte) (k : Nat) : Nat :=
  natOfBytes row / 2 ^ (fmtWidth fmt * k) % 2 ^ fmtWidth fmt

/-- The 48 bytes of a tile row. -/
def tileRow (m : Mach) (x : Nat × Nat) (r : Nat) : List Byte := Mem.readN m.mem (tileKey x (48 * r)) 48

/-- Is a part of a tile row poisoned (21 R329)? -/
def rowPoison (m : Mach) (x : Nat × Nat) (r : Nat) : Bool := (m.poisonAt (tileKey x (48 * r)) 48).isSome

/-- The exact products of one row of A and one column of B in an integer format. -/
def exactProds (fmt : Nat) (a b : List Byte) : List (Int × Bool) :=
  (List.range (384 / fmtWidth fmt)).map (fun k =>
    let x := rowElement fmt a k
    let y := rowElement fmt b k
    if fmt = 5 then lg6Prod x y else ((BitVec.ofNat 8 x).toInt * (BitVec.ofNat 8 y).toInt, false))

/-- The operand pairs of one row of A and one column of B in floating-point formats. -/
def floatPairs (fa fb : Nat) (a b : List Byte) : List (FVal × FVal) :=
  (List.range (384 / fmtWidth fa)).map (fun k =>
    ((fmtOf fa).decode (rowElement fa a k), (fmtOf fb).decode (rowElement fb b k)))

/-- One entry's K-step (12 R235). -/
def kStep (slot : Word) (x : BitVec 50) (a b : List Byte) (poison : Bool) : BitVec 50 :=
  if slotKind slot = 1 then exactStep x ((0, poison) :: exactProds (slotA slot) a b)
  else BitVec.ofNat 50 (floatStep (fp32.decode (x.toNat % 2 ^ 32)) (floatPairs (slotA slot) (slotB slot) a b) poison)

/-- The value of an E8 scale byte (02 R44). -/
def e8Value (e : Nat) : FVal := if e = 255 then .nan else .fin false 1 ((e : Int) - 127)

/-- The product of a value with a scale, which is never zero or infinite. -/
def scaled (v s : FVal) : FVal := (v.mul s).getD .nan

/-- The value of an entry for the drain (02 R45). -/
def drainValue (slot : Word) (x : BitVec 50) : FVal :=
  if slotKind slot = 1 then
    if entryP x then .nan
    else if entryS x then .inf (decide (entryE x ≤ 0))
    else .fin (decide (entryE x < 0)) (entryE x).natAbs (if slotA slot = 5 then -19 else 0)
  else fp32.decode (x.toNat % 2 ^ 32)

/-- DRAIN's output value for an entry under its scales (02 R45). -/
def drainOut (slot : Word) (x : BitVec 50) (row col : FVal) : Nat :=
  if slotOut slot = 7 then
    (if entryP x then 0x80000000 else (wordOf (sat32 (entryE x))).toNat)
  else ((fmtOf (slotOut slot)).deliver .rne (scaled (scaled (drainValue slot x) row) col)).1

/-- The accumulator image of n tiles whose entry e of tile j is f (256 j + e) (12 R237). -/
def accImage (f : Nat → BitVec 50) (n : Nat) : List Byte :=
  (List.range (256 * n)).flatMap (fun i => bytesOfNat 6 ((f i).toNat % 2 ^ 48)) ++
  (List.range (64 * n)).map (fun i =>
    BitVec.ofNat 8 (((List.range 4).map (fun b => (f (4 * i + b)).toNat / 2 ^ 48 * 4 ^ b)).sum)) ++
  bytesOfNat (128 * cdiv n 2 - 64 * n) 0

/-- Entry i = 256 j + e of an accumulator image of n tiles whose bytes are `bs` (12 R237). -/
def imageEntry (bs : List Byte) (n i : Nat) : BitVec 50 :=
  let data := natOfBytes ((bs.drop (6 * i)).take 6)
  let st := (bs.getD (1536 * n + i / 4) 0).toNat / 4 ^ (i % 4) % 4
  BitVec.ofNat 50 (data + st * 2 ^ 48)

end Sys2Proof.Machine
end

