-- ==== Sys2Proof/Machine/Matrix.lean ====
section
/-!
DEFINITION. Issue of the matrix commands (12 R224 to R238); their effects in the arrays stand in MatrixArrays.lean.
-/

namespace Sys2Proof.Machine

/-- M, N and the B and C tiles of a member for an MMA word (12 R227). -/
def mmaRows (x : FMMA) : Nat := 16 * 2 ^ x.m.toNat
def mmaCols (x : FMMA) : Nat := 16 * (if x.n = 0 then 64 else x.n.toNat)
def mmaB (x : FMMA) : Nat := cdiv (mmaCols x) 256
def mmaC (x : FMMA) : Nat := mmaRows x / 16 * (mmaCols x / 16)

/-- REGRANGE and ACCRANGE of MMA in a member (12 R228, check 1). -/
def mmaRange (x : FMMA) (m : Mach) (k : Nat) : Option (Cause × Nat) :=
  let w := m.warp k
  match (x.ta.toNat :: rangeFrom x.tb.toNat (mmaB x)).find? (fun t => decide (w.nt ≤ t) || decide (15 < t)) with
  | some t => some (.regrange, t)
  | none =>
    let top := x.c.toNat + mmaC x - 1
    if windowLen m k ≤ top then some (.accrange, top) else none

/-- ILLEGAL of an instruction at its issue. -/
def illegalAt (q : Req) (m : Mach) (k : Nat) : Stop := .trap { m.fault k q.sc .illegal with tinfo := word1 q.instr }

/-- A format slot of the launch (02 R42). -/
def Block.fmtSlot (b : Block) (i : Nat) : Word := b.lr.slots.getD i 0

/-- The members whose windows a command names, with their allotted counts. -/
def withCounts (m : Mach) (sc k : Nat) : List (Nat × Nat) := (m.allMembers sc k).map (fun j => (j, (m.warp j).na))

/-- A matrix read hold on a tile (12 R226). -/
def addHold (m : Mach) (x : Nat × Nat) : Mach :=
  m.updWarp x.1 (fun w => w.setTile x.2 { w.tile x.2 with holds := (w.tile x.2).holds + 1 })

/-- What the shared checks need to know of MMA. -/
def mmaReq (x : FMMA) : Req :=
  { instr := .mma x, sc := 2, cls := 2, words := 2, quad := true, compare := false, moves := true, range := mmaRange x }

/-- MMA (12 R228, R235). -/
def mmaBody (x : FMMA) (m : Mach) (ms : List Nat) : Except Stop Mach := do
  let q := mmaReq x
  let k := ms.headD 0
  let b := m.blockOf k
  let slot := b.fmtSlot x.slot.toNat
  let f := m.fault k 2 .tile
  if !quadSet (b.set ((m.warp k).set.getD 0)) then
    throw (.trap { f with cause := .scope, tinfo := word1 q.instr })
  if !slotOk slot ∨ fmtWidth (slotA slot) ≠ fmtWidth (slotB slot) then throw (illegalAt q m k)
  let tiles := (m.allMembers 2 k).flatMap (fun j => (x.ta.toNat :: rangeFrom x.tb.toNat (mmaB x)).map (fun t => (j, t)))
  match tiles.find? (fun t => (m.tileOf t).st == 0) with
  | some t => throw (.trap { f with tinfo := BitVec.ofNat 32 t.2 })
  | none =>
    waitReady m f tiles 0
    if let some st := mustStall m 2 0 ms then throw st
    let m := tiles.foldl (fun m t => addHold (seeTile m ms t) t) m
    let macs := 4 * mmaRows x * mmaCols x * (384 / fmtWidth (slotA slot))
    let m := (m.count b.ctx 40 1).count b.ctx 41 macs
    return issueOp q 2 0 false
      (.mma (x.z == 1) (mmaRows x) (mmaCols x) (fmtWidth (slotA slot)) slot x.ta.toNat x.tb.toNat x.c.toNat
        (withCounts m q.sc k)) none m ms

/-- MMA as an instruction of the current warp. -/
def execMma (x : FMMA) := issueTo (mmaReq x) (mmaBody x)

/-- The check 3 of R236: whether the encoding suits the slot. -/
def drainOk (x : FDRAIN) (slot : Word) : Bool :=
  let w := fmtWidth (slotOut slot)
  let scales := slotRowScale slot == 1 || slotColScale slot == 1
  slotOk slot && (scales || x.sr == 0) &&
  (if x.dk = 0 then x.d.toNat % drainRegs slot == 0
   else (w == 16 || w == 8) && decide (16 * x.col.toNat + 16 * (w / 8) ≤ 48))

/-- The tiles a DRAIN names: its target and its scale tile, after check 4 of R236. -/
def drainTiles (q : Req) (x : FDRAIN) (slot : Word) (m : Mach) (k : Nat) :
    Except Stop (Option (Nat × Nat) × Option (Nat × Nat)) := do
  let w := m.warp k
  let f := m.fault k q.sc .tile
  let target ← if x.dk = 1 then (tileRef m k f (w.getS x.d.toNat)).map some else .ok none
  let uses := slotRowScale slot = 1 ∨ slotColScale slot = 1
  let scale ← if uses then (tileRef m k f (w.getS x.sr.toNat)).map some else .ok none
  if target.isSome ∧ target = scale then throw (.trap { f with tinfo := w.getS x.sr.toNat })
  match scale with
  | some t =>
    if (m.tileOf t).st == 0 then throw (.trap { f with tinfo := w.getS x.sr.toNat })
    waitReady m f [t] (w.getS x.sr.toNat)
  | none => pure ()
  match target with
  | some t => waitChange m [t]
  | none => pure ()
  return (target, scale)

/-- What the shared checks need to know of DRAIN. -/
def drainReq (x : FDRAIN) : Req :=
  { instr := .drain x, sc := 1, cls := 2, words := 2, compare := false, moves := true,
      vecs := if x.dk = 0 then [x.d.toNat] else [], vdsts := if x.dk = 0 then [x.d.toNat] else [], srcs := (if x.dk = 1 then [x.d.toNat] else []) ++
        (if x.sr = 0 then [] else [x.sr.toNat]),
      range := fun m k => if windowLen m k ≤ x.acc.toNat then some (.accrange, x.acc.toNat) else none }

/-- DRAIN (12 R236). -/
def drainBody (x : FDRAIN) (m : Mach) (ms : List Nat) : Except Stop Mach := do
  let q := drainReq x
  let k := ms.headD 0
  let w := m.warp k
  let b := m.blockOf k
  let slot := b.fmtSlot x.slot.toNat
  if !drainOk x slot then throw (illegalAt q m k)
  let q := if slotRowScale slot = 1 ∨ slotColScale slot = 1 then { q with srcs := q.srcs ++ [x.sr.toNat] } else q
  if let some st := operands q m k then throw st
  let top := x.d.toNat + drainRegs slot - 1
  if x.dk = 0 ∧ w.nv ≤ top then
    throw (.trap { m.fault k 1 .regrange with tinfo := BitVec.ofNat 32 top })
  let m ← touchMore 1 m (m.scalarUses k true q.srcs ++ vectorUses k (if x.dk = 0 then rangeFrom x.d.toNat (drainRegs slot) else []))
  let (target, scale) ← drainTiles q x slot m k
  if let some u := accMark m k (accSlot w.na x.acc.toNat) then throw (.consume u 0 (m.fault k 1 .errcons))
  if let some st := mustStall m 2 0 ms then throw st
  let m := match scale with | some t => addHold (seeTile m ms t) t | none => m
  let m := match target with | some t => m.setTileOf ms t (fun t => { t with st := 1 }) | none => m
  let m := m.count b.ctx 43 1
  return issueOp q 2 0 false
    (.drain k (accSlot w.na x.acc.toNat) slot x.rb.toNat x.cb.toNat scale (if x.dk = 0 then some x.d.toNat else none)
      (target.map (fun t => (t.1, t.2, x.row.toNat, x.col.toNat))) (x.fl == 1)) none m ms

/-- DRAIN as an instruction of the current warp. -/
def execDrain (x : FDRAIN) := issueTo (drainReq x) (drainBody x)

/-- ACCRANGE of a range of tiles beyond the window, in the member alone whose window it is (03 R67): at set scope, where
member 0's operand gives the range, once every member has signed. -/
def accLate (sc : Nat) (range : Mach → Nat → Option (Nat × Nat)) (m : Mach) (k : Nat) : Option (Cause × Nat) :=
  if sc = 2 then (range m k).bind (fun r =>
    if windowLen m k ≤ r.1 + r.2 - 1 then some (.accrange, r.1 + r.2 - 1) else none)
  else none

/-- The tiles a range word names (12 R237); none where it is malformed. -/
def rangeWord (word : Word) : Option (Nat × Nat) :=
  if bits word 31 16 = 0 then some (bits word 9 0, bits word 15 10 + 1) else none

/-- ACCRANGE of a range of tiles in every member (12 R238). -/
def accRange (q : Req) (m : Mach) (ms : List Nat) (base n : Nat) : Except Stop Unit :=
  let top := base + n - 1
  if ms.any (fun j => decide (windowLen m j ≤ top)) then
    .error (.trap { m.fault (ms.headD 0) q.sc .accrange with tinfo := BitVec.ofNat 32 top })
  else .ok ()

/-- What the shared checks need to know of AZERO. -/
def azeroReq (x : FSAB) : Req :=
  { instr := .azero x, sc := x.sc.toNat, cls := 2, srcs := [x.a.toNat], moves := true,
    late := accLate x.sc.toNat (fun m k => some ((headS m x.sc.toNat [k] x.a.toNat).toNat, x.b.toNat + 1)) }

/-- AZERO (12 R238). -/
def azeroBody (x : FSAB) (m : Mach) (ms : List Nat) : Except Stop Mach := do
  let q := azeroReq x
  let k := ms.headD 0
  let base := (headS m q.sc ms x.a.toNat).toNat
  accRange q m ms base (x.b.toNat + 1)
  if let some st := mustStall m 2 0 ms then throw st
  return issueOp q 2 0 false (.azero base (x.b.toNat + 1) (withCounts m q.sc k)) none m ms

/-- AZERO as an instruction of the current warp. -/
def execAzero (x : FSAB) := issueTo (azeroReq x) (azeroBody x)

/-- What the shared checks need to know of ASAVE and ALOAD. -/
def accMoveReq (i : Instr) (x : FSABC) : Req :=
  { instr := i, sc := x.sc.toNat, cls := 2, srcs := [x.a.toNat, x.b.toNat, x.c.toNat], moves := true,
    late := accLate x.sc.toNat (fun m k => rangeWord (headS m x.sc.toNat [k] x.c.toNat)) }

/-- ASAVE and ALOAD (12 R237): the range word, the window, the handle and the whole image are checked at issue. -/
def accMoveBody (i : Instr) (x : FSABC) (save : Bool) (m : Mach) (ms : List Nat) : Except Stop Mach := do
  let q := accMoveReq i x
  let k := ms.headD 0
  let bk := (m.warp k).block
  let word := headS m q.sc ms x.c.toNat
  let some (base, n) := rangeWord word | throw (illegalAt q m k)
  accRange q m ms base n
  let h := (headS m q.sc ms x.a.toNat).toNat
  let off := (headS m q.sc ms x.b.toNat).toNat
  let f := m.fault k q.sc .handle
  let e ← bulkHandle m bk f h
  bufferChecks (m.block bk) f h off ((withCounts m q.sc k).length * imageSize n) 128 (if save then 2 else 1) e
  if let some st := mustStall m 2 0 ms then throw st
  let m := if save then commit m k else m
  let members := withCounts m q.sc k
  return issueOp q 2 0 false (if save then .asave h off base n e members else .aload h off base n e members) none m ms

/-- ASAVE or ALOAD as an instruction of the current warp. -/
def accMove (i : Instr) (x : FSABC) (save : Bool) (s : State) : Host.Outcome State Fault Refusal :=
  issueTo (accMoveReq i x) (accMoveBody i x save) s

/-- ASAVE (12 R237). -/
def execAsave (x : FSABC) := accMove (.asave x) x true
/-- ALOAD (12 R237). -/
def execAload (x : FSABC) := accMove (.aload x) x false

/-- Does a matrix command write an accumulator tile of warp k, named as `accSlot` names it? A GROW or SHRINK since its issue
does not change which tile that is. -/
def Op.writesAcc (o : Op) (k slot : Nat) : Bool :=
  let names (members : List (Nat × Nat)) (base n : Nat) : Bool :=
    members.any (fun x => x.1 == k && (rangeFrom base n).any (fun c => accSlot x.2 c == slot))
  match o.cmd with
  | .mma _ r n _ _ _ _ cb members => names members cb (r / 16 * (n / 16))
  | .azero base n members => names members base n
  | .aload _ _ base n _ members => names members base n
  | _ => false

/-- The word ASTAT reads for a tile (12 R238). -/
def astatWord (m : Mach) (k c : Nat) : Nat :=
  let slot := accSlot (m.warp k).na c
  let xs := (List.range 256).map (accRead m k slot)
  (xs.filter entryS).length + (xs.filter entryP).length * 65536

/-- What the shared checks need to know of ASTAT. -/
def astatReq (x : FSAB) : Req :=
  { instr := .astat x, sc := x.sc.toNat, cls := 2, srcs := [x.b.toNat], dsts := [x.a.toNat],
    late := accLate x.sc.toNat (fun m k => some ((headS m x.sc.toNat [k] x.b.toNat).toNat, 1)) }

/-- ASTAT waits for the older writers of the tile (12 R238). -/
def astatBody (x : FSAB) (m : Mach) (ms : List Nat) : Except Stop Mach := do
  let q := astatReq x
  let c := (headS m q.sc ms x.b.toNat).toNat
  accRange q m ms c 1
  if ms.any (fun j => m.ops.any (fun e => e.2.writesAcc j (accSlot (m.warp j).na c))) then throw (.wait .matrix)
  return ms.foldl (fun m j => m.answer j x.a.toNat (astatWord m j c)) m

/-- ASTAT as an instruction of the current warp. -/
def execAstat (x : FSAB) := issue (astatReq x) (astatBody x)

end Sys2Proof.Machine
end

