-- ==== Sys2Proof/Machine/Transfers.lean ====
section
/-!
DEFINITION. What engine operations do to memory (10 R190, R192, R196; 11 R203, R204, R212, R216, R218; 21 R329): every
operation's accesses are performed at one instant between its issue and its completion (log 6).
-/

namespace Sys2Proof.Machine

/-- Why an operation's access fails: a translation miss, or a world tag that does not match (11 R204). -/
inductive EngFail where
  | miss (va size off : Nat)
  | denied (off : Nat)
  deriving DecidableEq, Repr

/-- The place of a byte of an operation's handle. -/
def engineKey (m : Mach) (ctx : Nat) (e : HEntry) (acc : Acc) (off : Nat) : Except EngFail Nat :=
  match e.kind with
  | 6 => .ok ((Space.host e.spec).key (e.base + off))
  | 7 => .ok (fabricKey m e (if acc = .read then .ld else .st) acc off 1)
  | _ =>
    match translate m ctx acc (e.base + off) with
    | .error size => .error (.miss (e.base + off) size off)
    | .ok pa => if m.tag pa = e.world then .ok (Space.dev.key pa) else .error (.denied off)

/-- The places of n bytes from an offset. -/
def engineKeys (m : Mach) (ctx : Nat) (e : HEntry) (acc : Acc) (off n : Nat) : Except EngFail (List Nat) :=
  (List.range n).mapM (fun i => engineKey m ctx e acc (off + i))

/-- A byte an engine reads, with its poison mark; an external reading that fails is poisoned (09 R177). -/
def engineByte (m : Mach) (pail : List Held) (key : Nat) : Byte × Option Word :=
  if isExternal key then
    (Config.extByte key m.tick, if isSelf key || Config.extFails key m.tick then some (externalUnit key) else none)
  else ((m.loadBytes pail key 1).headD 0, if (heldByte pail key).isSome then none else m.poisonAt key 1)

/-- A byte an engine writes: its place, the bits written, their value, a poison mark that moves with them, the row that
supplies it, and the index the row goes to. -/
structure ByteWrite where
  key : Nat
  mask : Nat
  value : Nat
  bad : Option Word
  row : Nat
  index : Nat := 0
  deriving DecidableEq, Repr, Inhabited

/-- Set a poison mark. -/
def Mach.mark (m : Mach) (part : Nat) (unit : Word) : Mach := { m with poison := Map.ins m.poison part unit }

/-- Perform byte writes: a part written whole loses its mark, and marks move with the bytes (21 R329). Those to this package's own tag
ports are one message to each (20 R317). -/
def writeBytes (m : Mach) (ws : List ByteWrite) : Mach :=
  let own := ws.filter (fun x => isSelf x.key)
  let m := (dedup (own.map (fun x => x.key / 2 ^ 67))).foldl (fun m p =>
    let here := own.filter (fun x => x.key / 2 ^ 67 == p)
    m.sendSelf (p * 2 ^ 67) (here.map (fun x => (x.key % 2 ^ 64, BitVec.ofNat 8 x.value)))) m
  let ws := ws.filter (fun x => !isSelf x.key)
  let m := ws.foldl (fun m x =>
    let old := (Mem.read m.mem x.key).toNat
    { m with mem := Mem.write m.mem x.key [BitVec.ofNat 8 ((old - (old &&& x.mask)) ||| x.value)] }) m
  let parts := (ws.map (fun x => x.key / 16)).eraseDups
  parts.foldl (fun m p =>
    let here := ws.filter (fun x => x.key / 16 == p)
    let full (k : Nat) : Bool := ((here.filter (fun x => x.key == k)).foldl (fun n x => n ||| x.mask) 0) == 255
    let whole := ((here.map (·.key)).eraseDups.filter full).length == 16
    let m : Mach := if whole then { m with poison := Map.del m.poison p } else m
    match here.findSome? (fun x => x.bad) with
    | some u => m.mark p u
    | none => m) m

/-- Of rows with one index that meet in one 16-byte part, one stays, and which is free (11 R216). -/
def chooseRows (op : Nat) (ws : List ByteWrite) : List ByteWrite :=
  ws.filter (fun x =>
    let rows := ((ws.filter (fun y => y.key / 16 == x.key / 16 && y.index == x.index)).map (·.row)).eraseDups
    match rows with
    | [] => true
    | [_] => true
    | _ => rows.getD (Config.rowChoice op (x.key / 16) % rows.length) x.row == x.row)

/-- An operation's loads take their places in the memory order (10 R192): the operation's timestamp after them. -/
def engineLoads (m : Mach) (pts : Nat) (keys : List Nat) : Mach × Nat :=
  ((keys.filter (fun k => !isExternal k)).map (· / 64)).eraseDups.foldl (fun s sec =>
    let wts := (Map.find? s.1.wts sec).getD 0
    let rts := (Map.find? s.1.rts sec).getD 0
    let t := max s.2 wts
    ({ s.1 with rts := Map.ins s.1.rts sec (max rts (t + 16)) }, t)) (m, pts)

/-- The loads of a core's engines through a kind-1 handle of policy 0 or 1 leave copies in its L1 (01 R14; 09 R178). -/
def engineCopies (m : Mach) (core : Nat) (e : HEntry) (keys : List Nat) : Mach :=
  if e.kind ≠ 1 ∨ 2 ≤ e.policy then m
  else (dedup (keys.map (· / 64))).foldl (fun m sec => match m.homeCopy sec with
    | some c => m.l1Put core sec (e.policy == 1) c
    | none => m) m

/-- An operation's stores take theirs. -/
def engineStores (m : Mach) (pts : Nat) (keys : List Nat) : Mach × Nat :=
  ((keys.filter (fun k => !isExternal k)).map (· / 64)).eraseDups.foldl (fun s sec =>
    let t := max s.2 ((Map.find? s.1.rts sec).getD 0 + 1)
    ({ s.1 with wts := Map.ins s.1.wts sec t, rts := Map.ins s.1.rts sec t }, t)) (m, pts)

/-- The in-extent elements of member i's rows: row, element and element index (11 R212, R216). -/
def Layout.elements (l : Layout) (coords : List Int) (i : Nat) (idx : List Nat) (rows : Bool) : List (Nat × Nat × Nat) :=
  (List.range l.rows).flatMap (fun r => (List.range l.perRow).filterMap (fun e =>
    (l.element coords i r e (if rows then some (idx.getD r 0xFFFFFFFF) else none)).map (fun q => (r, e, q))))

/-- The bytes of memory that an element touches: the first byte's offset and their number. -/
def Layout.span (l : Layout) (q : Nat) : Nat × Nat :=
  let b := l.bitPos q
  (b / 8, cdiv (b % 8 + fmtWidth l.fmt) 8)

/-- The value and mark of an element in memory, and the places it was read from. -/
def readElement (m : Mach) (o : Op) (l : Layout) (e : HEntry) (q : Nat) : Except EngFail (Nat × Option Word × List Nat) := do
  let sp := l.span q
  let keys ← engineKeys m o.ctx e .read sp.1 sp.2
  let bs := keys.map (engineByte m (if e.kind = 1 then o.pail else []))
  return (natOfBytes (bs.map (·.1)) / 2 ^ (l.bitPos q % 8) % 2 ^ fmtWidth l.fmt, bs.findSome? (·.2), keys)

/-- Inbound: the tile's 3,072 bytes, the marks of its parts, and the places read (11 R212). -/
def inbound (m : Mach) (o : Op) (l : Layout) (e : HEntry) (coords : List Int) (i : Nat) (p : Part) (rows : Bool) :
    Except EngFail (List Byte × List (Nat × Word) × List Nat) := do
  let w := fmtWidth l.fmt
  let xs ← (l.elements coords i p.idx rows).mapM (fun x => do
    let v ← readElement m o l e x.2.2
    return (x.1, x.2.1, v))
  let row (r : Nat) : Nat := ((xs.filter (fun x => x.1 == r)).map (fun x => x.2.2.1 * 2 ^ (w * x.2.1))).sum
  let marks := xs.flatMap (fun x => match x.2.2.2.1 with
    | some u => [(3 * x.1 + w * x.2.1 / 128, u), (3 * x.1 + (w * x.2.1 + w - 1) / 128, u)]
    | none => [])
  return ((List.range 64).flatMap (fun r => bytesOfNat 48 (row r)), marks, xs.flatMap (fun x => x.2.2.2.2))

/-- Outbound: the byte writes of a member's in-extent elements (11 R212). -/
def outbound (m : Mach) (o : Op) (l : Layout) (e : HEntry) (coords : List Int) (i : Nat) (p : Part) (rows : Bool) :
    Except EngFail (List ByteWrite) := do
  let w := fmtWidth l.fmt
  let xs ← (l.elements coords i p.idx rows).mapM (fun x => do
    let sp := l.span x.2.2
    let keys ← engineKeys m o.ctx e .write sp.1 sp.2
    let v := rowElement l.fmt (tileRow m (p.owner, p.tile) x.1) x.2.1
    let bad := m.poisonAt (tileKey (p.owner, p.tile) (48 * x.1 + w * x.2.1 / 8)) (cdiv w 8)
    let sh := l.bitPos x.2.2 % 8
    return keys.zipIdx.map (fun k =>
      { key := k.1, mask := (2 ^ w - 1) * 2 ^ sh / 256 ^ k.2 % 256, value := v * 2 ^ sh / 256 ^ k.2 % 256, bad := bad,
        row := 64 * i + x.1, index := p.idx.getD x.1 0 : ByteWrite }))
  return xs.flatten

/-- The transfer of COPY, GATH or SCAT: the machine after it, the operation's timestamp and the bytes moved. -/
def transfer (m : Mach) (opId : Nat) (o : Op) (out rows : Bool) (l : Layout) (e : HEntry) (coords : List Int)
    (parts : List Part) : Except EngFail (Mach × Nat × Nat) := do
  let moved := (parts.zipIdx.map (fun p => (l.elements coords p.2 p.1.idx rows).length)).sum * fmtWidth l.fmt / 8
  if out then
    let ws ← parts.zipIdx.mapM (fun p => outbound m o l e coords p.2 p.1 rows)
    let ws := if rows then chooseRows opId ws.flatten else ws.flatten
    let s := engineStores (writeBytes m ws) o.pts (ws.map (·.key))
    return (s.1, s.2, moved)
  else
    let xs ← parts.zipIdx.mapM (fun p => inbound m o l e coords p.2 p.1 rows)
    let s := engineLoads m o.pts (xs.flatMap (fun x => x.2.2))
    let m := (parts.zip xs).foldl (fun m x =>
      let base := tileKey (x.1.owner, x.1.tile) 0
      x.2.2.1.foldl (fun m y => m.mark (base / 16 + y.1) y.2) (m.poke base x.2.1)) s.1
    return (engineCopies m.tickOn (m.block o.block).core e (xs.flatMap (fun x => x.2.2)), s.2, moved)

/-- Whole bytes written from an offset of a handle, with a mark for each. -/
def bufferWrites (m : Mach) (ctx : Nat) (e : HEntry) (off : Nat) (bs : List (Byte × Option Word)) :
    Except EngFail (List ByteWrite) := do
  let keys ← engineKeys m ctx e .write off bs.length
  return (keys.zip bs).map (fun x => { key := x.1, mask := 255, value := x.2.1.toNat, bad := x.2.2, row := 0 })

/-- Bytes read from an offset of a handle, with their marks. -/
def bufferReads (m : Mach) (o : Op) (e : HEntry) (off n : Nat) : Except EngFail (List (Byte × Option Word) × List Nat) := do
  let keys ← engineKeys m o.ctx e .read off n
  return (keys.map (engineByte m o.pail), keys)

/-- FMAX and FMIN on codes of a format (02 R29). -/
def fmtMinMax (F : Fmt) (greater : Bool) (a b : Nat) : Nat :=
  let key (x : Nat) : Int := if x / F.signBit % 2 = 1 then -((x % F.signBit : Nat) : Int) - 1 else (x : Int)
  match F.decode a, F.decode b with
  | .nan, .nan => F.nan
  | .nan, _ => b
  | _, .nan => a
  | _, _ => if greater then (if key a < key b then b else a) else (if key b < key a then b else a)

/-- One step of a COLL reduction (11 R218): 0 sum, 1 max, 2 min, on elements of a COLL format. -/
def collStep (red fmt : Nat) (a b : Nat) : Nat :=
  if fmt = 3 then
    let x := BitVec.ofNat 32 a
    let y := BitVec.ofNat 32 b
    (match red with
     | 0 => x + y
     | 1 => if x.toInt < y.toInt then y else x
     | _ => if y.toInt < x.toInt then y else x).toNat
  else
    let F := if fmt = 0 then fp32 else if fmt = 1 then fp16 else bf16
    match red with
    | 0 => (F.add .rne (F.decode a) (F.decode b)).1
    | 1 => fmtMinMax F true a b
    | _ => fmtMinMax F false a b

/-- Element j of a buffer with its marks. -/
def collElement (size : Nat) (bs : List (Byte × Option Word)) (j : Nat) : Nat × Option Word :=
  let xs := (bs.drop (size * j)).take size
  (natOfBytes (xs.map (·.1)), xs.findSome? (·.2))

/-- A reduction over the ranks' elements in ascending order of rank. -/
def collReduce (red fmt : Nat) (xs : List (Nat × Option Word)) : Nat × Option Word :=
  match xs with
  | [] => (0, none)
  | x :: xs => xs.foldl (fun a y => (collStep red fmt a.1 y.1, a.2.or y.2)) x

/-- Bytes of an element with its mark. -/
def markedBytes (size : Nat) (x : Nat × Option Word) : List (Byte × Option Word) :=
  (bytesOfNat size x.1).map (fun b => (b, x.2))

/-- What a rank writes: where in its buffer, and the bytes (11 R218). Buffers are given in ascending order of rank. -/
def collResult (kind red fmt count rank : Nat) (bufs : List (List (Byte × Option Word))) :
    Nat × List (Byte × Option Word) :=
  let size := collSize fmt
  match kind with
  | 0 => (0, (List.range count).flatMap (fun j =>
      markedBytes size (collReduce red fmt (bufs.map (fun b => collElement size b j)))))
  | 1 => (0, bufs.zipIdx.flatMap (fun b => (b.1.drop (b.2 * count * size)).take (count * size)))
  | _ => (rank * count * size, (List.range count).flatMap (fun j =>
      markedBytes size (collReduce red fmt (bufs.map (fun b => collElement size b (rank * count + j))))))

end Sys2Proof.Machine
end

