-- ==== Sys2Proof/Machine/MatrixArrays.lean ====
section
/-!
DEFINITION. What matrix commands do in the arrays (12 R225 to R238), at one instant before their completion (log 6).
-/

namespace Sys2Proof.Machine

/-- The entry of C that column and row select: the tile after the base and the entry 16 m + n (12 R227). -/
def cPlace (n row col : Nat) : Nat × Nat := (row / 16 * (n / 16) + col / 16, row % 16 * 16 + col % 16)

/-- The row and column of entry e of C tile j (12 R227). -/
def cOrigin (n j e : Nat) : Nat × Nat := (16 * (j / (n / 16)) + e / 16, 16 * (j % (n / 16)) + e % 16)

/-- Where column n of B stands: member, tile after the base, and row (12 R227). -/
def bPlace (cols n : Nat) : Nat × Nat × Nat := (n / (cols / 4), n % (cols / 4) / 64, n % (cols / 4) % 64)

/-- The new entry of an MMA in member k at a row and a column (12 R235). -/
def mmaEntry (m : Mach) (slot : Word) (ta tb cols : Nat) (members : List (Nat × Nat)) (k : Nat) (x : BitVec 50)
    (row col : Nat) : BitVec 50 :=
  let b := bPlace cols col
  let tb' := ((members.getD b.1 (0, 0)).1, tb + b.2.1)
  kStep slot x (tileRow m (k, ta) row) (tileRow m tb' b.2.2) (rowPoison m (k, ta) row || rowPoison m tb' b.2.2)

/-- A member's tiles base to base + n - 1 have no poison mark (21 R329). -/
def clearAccMarks (m : Mach) (base n : Nat) (x : Nat × Nat) : Mach :=
  (rangeFrom base n).foldl (fun m c => setAccMark m x.1 (accSlot x.2 c) none) m

/-- An MMA in one member: the entries of its C tiles, with those whose S and P it set (12 R233, R235). -/
def mmaMember (m : Mach) (z : Bool) (slot : Word) (rows cols ta tb cb : Nat) (members : List (Nat × Nat))
    (x : Nat × Nat) : Mach × Nat × Nat :=
  let n := rows / 16 * (cols / 16)
  (List.range (256 * n)).foldl (fun (s : Mach × Nat × Nat) i =>
    let at_ := accSlot x.2 (cb + i / 256)
    let old := if z then 0 else accRead m x.1 at_ (i % 256)
    let o := cOrigin cols (i / 256) (i % 256)
    let new := mmaEntry m slot ta tb cols members x.1 old o.1 o.2
    (accWrite s.1 x.1 at_ (i % 256) new,
     s.2.1 + (if entryS new && !entryS old then 1 else 0), s.2.2 + (if entryP new && !entryP old then 1 else 0)))
    (if z then clearAccMarks m cb n x else m, 0, 0)

/-- MMA in the arrays of every member. -/
def mmaEffect (m : Mach) (ctx : Nat) (z : Bool) (slot : Word) (rows cols ta tb cb : Nat) (members : List (Nat × Nat)) : Mach :=
  members.foldl (fun m x =>
    let r := mmaMember m z slot rows cols ta tb cb members x
    (r.1.count ctx 45 r.2.1).count ctx 46 r.2.2) m

/-- A scale byte of a tile; without scales the factor is 1 (02 R44; 12 R232). -/
def scaleAt (m : Mach) (tile : Option (Nat × Nat)) (kind off : Nat) : FVal :=
  match tile with
  | none => e8Value 127
  | some t => if kind = 1 then e8Value (Mem.read m.mem (tileKey t off)).toNat else e8Value 127

/-- The drained value of entry (r, c) of an accumulator tile (12 R232, R236). -/
def drained (m : Mach) (k acc : Nat) (slot : Word) (rb cb : Nat) (scale : Option (Nat × Nat)) (r c : Nat) : Nat :=
  drainOut slot (accRead m k acc (16 * r + c)) (scaleAt m scale (slotRowScale slot) (16 * rb + r))
    (scaleAt m scale (slotColScale slot) (64 + 16 * cb + c))

/-- The word of register g of the target in a lane: e entries of one column (12 R231). -/
def drainWord (f : Nat → Nat → Nat) (w g lane : Nat) : Word :=
  let e := 32 / w
  BitVec.ofNat 32 (((List.range e).map (fun i => f (2 * e * g + e * (lane / 16) + i) (lane % 16) * 2 ^ (w * i))).sum)

/-- DRAIN in the array (12 R231, R236). -/
def drainEffect (m : Mach) (k acc : Nat) (slot : Word) (rb cb : Nat) (scale : Option (Nat × Nat)) (vec : Option Nat)
    (tile : Option (Nat × Nat × Nat × Nat)) : Mach :=
  let f := drained m k acc slot rb cb scale
  let w := fmtWidth (slotOut slot)
  let m := match vec with
    | none => m
    | some d => m.updWarp k (fun x => (List.range (w / 4)).foldl (fun x g =>
        (List.range 32).foldl (fun x i => x.setV (d + g) i (drainWord f w g i))
          { x with bad := Map.del x.bad (d + g) }) x)
  match tile with
  | none => m
  | some (owner, t, row, col) =>
    (List.range 16).foldl (fun m r =>
      m.poke (tileKey (owner, t) (48 * (16 * row + r) + 16 * col))
        ((List.range 16).flatMap (fun c => bytesOfNat (w / 8) (f r c)))) m

/-- AZERO in the arrays (12 R238); a tile that is written whole loses its poison mark (21 R329). -/
def azeroEffect (m : Mach) (base n : Nat) (members : List (Nat × Nat)) : Mach :=
  members.foldl (fun m x => (List.range (256 * n)).foldl (fun m i =>
    accWrite m x.1 (accSlot x.2 (base + i / 256)) (i % 256) 0) (clearAccMarks m base n x)) m

/-- ASAVE (12 R237): member i's image stands at the offset plus i images; a poisoned line's mark moves with it. -/
def asaveEffect (m : Mach) (o : Op) (off base n : Nat) (e : HEntry) (members : List (Nat × Nat)) :
    Except EngFail (Mach × Nat) := do
  let ws ← members.zipIdx.mapM (fun x => do
    let k := x.1.1
    let bytes := accImage (fun i => accRead m k (accSlot x.1.2 (base + i / 256)) (i % 256)) n
    let mark (i : Nat) : Option Word :=
      accMark m k (accSlot x.1.2 (if i < 1536 * n then base + i / 1536 else base + (i - 1536 * n) / 64))
    bufferWrites m o.ctx e (off + x.2 * imageSize n) (bytes.zipIdx.map (fun b => (b.1, mark b.2))))
  let ws := ws.flatten
  let s := engineStores (writeBytes m ws) o.pts (ws.map (·.key))
  return (s.1, s.2)

/-- ALOAD (12 R237). -/
def aloadEffect (m : Mach) (o : Op) (off base n : Nat) (e : HEntry) (members : List (Nat × Nat)) :
    Except EngFail (Mach × Nat) := do
  let rs ← members.zipIdx.mapM (fun x => bufferReads m o e (off + x.2 * imageSize n) (imageSize n))
  let s := engineLoads m o.pts (rs.flatMap (·.2))
  let m := (members.zip rs).foldl (fun m x =>
    let bytes := x.2.1.map (·.1)
    (List.range n).foldl (fun m j =>
      let at_ := accSlot x.1.2 (base + j)
      let m := (List.range 256).foldl (fun m i => accWrite m x.1.1 at_ i (imageEntry bytes n (256 * j + i))) m
      let bad := (((x.2.1.drop (1536 * j)).take 1536) ++ ((x.2.1.drop (1536 * n + 64 * j)).take 64)).findSome? (·.2)
      setAccMark m x.1.1 at_ bad) m) s.1
  return (m, s.2)

/-- What a matrix command does in the arrays: the machine and the operation's timestamp. -/
def matrixEffect (m : Mach) (o : Op) : Except EngFail (Mach × Nat) :=
  match o.cmd with
  | .mma z rows cols _ slot ta tb cb members => .ok (mmaEffect m o.ctx z slot rows cols ta tb cb members, o.pts)
  | .drain k acc slot rb cb scale vec tile _ => .ok (drainEffect m k acc slot rb cb scale vec tile, o.pts)
  | .azero base n members => .ok (azeroEffect m base n members, o.pts)
  | .asave _ off base n e members => asaveEffect m o off base n e members
  | .aload _ off base n e members => aloadEffect m o off base n e members
  | _ => .ok (m, o.pts)

/-- The tiles on which an operation holds a matrix read hold (12 R226). -/
def heldTiles (o : Op) : List (Nat × Nat) :=
  match o.cmd with
  | .mma _ _ cols _ _ ta tb _ members =>
    members.flatMap (fun x => (ta :: rangeFrom tb (cdiv cols 256)).map (fun t => (x.1, t)))
  | .drain _ _ _ _ _ (some t) _ _ _ => [t]
  | _ => []

/-- Release an operation's holds. -/
def releaseHolds (m : Mach) (o : Op) : Mach :=
  (heldTiles o).foldl (fun m x =>
    m.updWarp x.1 (fun w => w.setTile x.2 { w.tile x.2 with holds := (w.tile x.2).holds - 1 })) m

/-- The accumulator tiles of each member that a command names. -/
def accTilesOf (o : Op) : List (Nat × Nat) :=
  let range (members : List (Nat × Nat)) (base n : Nat) : List (Nat × Nat) :=
    members.flatMap (fun x => (rangeFrom base n).map (fun c => (x.1, accSlot x.2 c)))
  match o.cmd with
  | .mma _ rows cols _ _ _ _ cb members => range members cb (rows / 16 * (cols / 16))
  | .drain k acc _ _ _ _ _ _ _ => [(k, acc)]
  | .azero base n members => range members base n
  | .asave _ _ base n _ members => range members base n
  | .aload _ _ base n _ members => range members base n
  | _ => []

/-- The registers and the tile that a DRAIN targets, with its accumulator tile: what a persisting mismatch of a DRAIN drops
younger commands on (12 R229). -/
def drainNames (o : Op) : List (Nat × Nat) :=
  match o.cmd with
  | .drain k _ slot _ _ _ vec tile _ =>
    (match vec with | some d => (rangeFrom d (drainRegs slot)).map (fun r => (k, 2048 + r)) | none => []) ++
    (match tile with | some (owner, t, _, _) => [(owner, 4096 + t)] | none => [])
  | _ => []

end Sys2Proof.Machine
end

