-- ==== Sys2Proof/Machine/EngineEvents.lean ====
section
/-!
DEFINITION. The events of the engines (11 R202 to R204, R209, R218; 12 R224, R229; 09 R175).
-/

namespace Sys2Proof.Machine

/-- An event in the machine: one that is not due in this state does not take place (log 16). -/
def event (s : State) (r : Option Mach) : Host.Outcome State Fault Refusal := .next { s with m := r.getD s.m }

/-- The handle a command names. -/
def Cmd.handle : Cmd → Nat
  | .xfer _ _ _ lay _ _ _ => lay.handle
  | .coll _ _ _ _ _ _ _ _ h _ _ => h
  | .asave h _ _ _ _ _ => h
  | .aload h _ _ _ _ _ => h
  | .sample h _ _ _ => h
  | _ => 0

/-- The clause class of a command. -/
def Cmd.clause : Cmd → Nat
  | .xfer .. => 1
  | .coll .. => 1
  | .sample .. => 3
  | .launch .. => 3
  | _ => 2

/-- Did any issuer take a futures entry? -/
def Op.hasFuture (o : Op) : Bool := o.issuers.any (fun i => i.2.isSome)

/-- TINFO of an engine operation after its issue (18 R292). -/
def Op.tinfo (o : Op) (low : Nat) : Word :=
  let entry := match o.issuers with | (_, some e) :: _ => e | _ => 15
  BitVec.ofNat 32 (2 ^ 31 + o.hasFuture.toNat * 2 ^ 28 + o.cls * 2 ^ 24 + entry * 2 ^ 20 + low * 2 ^ 16 + 4 * 2 ^ 12 +
    o.cmd.handle % 4096)

/-- Another operation of the class, older and with an issuer in common (11 R203). -/
def Op.behind (o : Op) (m : Mach) (id : Nat) : Bool :=
  m.ops.any (fun e => decide (e.1 < id) && e.2.cls == o.cls &&
    e.2.issuers.any (fun i => o.issuers.any (fun j => i.1 == j.1)))

/-- An operation waits for service: a record of kind 0, or the unserviced record of that page (09 R175). With the fault queue
full it stays as it is and tries again. -/
def holdOp (m : Mach) (id : Nat) (o : Op) (va size off : Nat) : Mach :=
  let k := (o.issuers.headD (0, none)).1
  let c := o.ctx
  let f : FaultInfo :=
    { cause := .xlate, sc := o.scope, tpc := o.pc, tmask := 0, taddr := BitVec.ofNat 32 off, tinfo := o.tinfo 0, va := va }
  let hold (m : Mach) (seq : Nat) : Mach := m.updOp id (fun o => { o with held := some seq, info := f, started := true })
  match (m.ctx c).services.find? (fun s => s.2.covers va (va / size * size) size) with
  | some (seq, _) => hold m seq
  | none =>
    let seq := (m.ctx c).faultSeq
    let w := m.warp k
    let tcl := BitVec.ofNat 32 (o.cmd.clause + 4 * o.scope + 16 * w.role + 256 * w.set.getD 0)
    match putRecord m c (recordAt m o.code 0 k f 0 tcl 0) with
    | .full => m
    | .broken => stopCtx m c 5 (some (k, f))
    | .written m =>
      hold ((m.count c 27 1).updCtx c (fun x =>
        { x with services := Map.ins x.services seq { va := va, base := va / size * size, size := size } })) seq

/-- What an operation's failing access does to it (11 R204). -/
def opFails (m : Mach) (id : Nat) (o : Op) : EngFail → Mach
  | .miss va size off => holdOp m id o va size off
  | .denied off => m.updOp id (fun o =>
      { o with started := true, ended := some 8, info := { (default : FaultInfo) with taddr := BitVec.ofNat 32 off } })

/-- The tile states at a completion (11 R209; 12 R236), which follow the operation's accesses (10 R197). -/
def settleTiles (m : Mach) (o : Op) (st : Nat) : Mach :=
  let put (m : Mach) (x : Nat × Nat) (goal : Nat) (flip : Bool) (bank : Option Nat) : Mach :=
    m.updWarp x.1 (fun w =>
      let t := w.tile x.2
      let at_ := max o.pts (t.rts + 1)
      w.setTile x.2 { t with st := goal, phase := t.phase != flip, pts := at_, rts := at_, bank := bank.getD t.bank })
  match o.cmd with
  | .xfer out flip _ lay _ _ parts =>
    parts.foldl (fun m p => put m (p.owner, p.tile) (if out ∨ st = 0 then 2 else 0) (flip && st == 0)
      (if out then none else some lay.bank)) m
  | .drain _ _ _ _ _ _ _ (some (owner, t, _, _)) flip => put m (owner, t) (if st = 0 then 2 else 0) (flip && st == 0) (some 0)
  | _ => m

/-- One issuing warp at a completion: the counter falls, and a future takes the status (11 R205 to R207). -/
def settleWarp (o : Op) (st : Nat) (w : Warp) (entry : Option Nat) : Warp :=
  let w := { w.setCounter o.cls (w.counter o.cls - 1) with
             opPts := Map.ins w.opPts o.cls (max ((Map.find? w.opPts o.cls).getD 0) o.pts) }
  match entry.bind (fun e => (Map.find? w.futs e).map (fun f => (e, f))) with
  | none => w
  | some (e, f) =>
    match f.reg with
    | none => { w with futs := Map.del w.futs e }
    | some r => { w with futs := Map.ins w.futs e { f with status := some st, pts := o.pts },
                         s := Map.set w.s r (BitVec.ofNat 32 st) }

/-- How a failure of an operation without a future is reported (11 R204). -/
def reportOp (m : Mach) (o : Op) (st : Nat) : Mach :=
  let live := (o.issuers.map (·.1)).filter (fun j => (m.warp j).isLive)
  let data := match o.cmd with | .launch .. => false | .coll .. => false | _ => true
  match live with
  | [] => m
  | k :: _ =>
    if o.hasFuture || !data || (st != 1 && st != 8) || (m.ctx o.ctx).st == 3 then m
    else
      let f := { m.outside k (if st = 1 then .xlate else .perm) with
                 tinfo := o.tinfo (if st = 1 then o.refused else 1), va := if st = 1 then o.info.va else 0 }
      if o.scope = 1 then takeTrap m k f
      else raiseWide m k (o.scope == 3) live ((m.warp k).set.getD 0) f

/-- Warps that have exited leave their sets once nothing is in flight for them (04 R94). -/
def leaveExited (m : Mach) (bk : Nat) : Mach :=
  (m.warpsOf bk).foldl (fun m e =>
    if e.2.run == .exited && e.2.set.isSome && inFlight m e.1 == 0 then leaveSet m e.1 else m) m

/-- An operation leaves its engine: counters, futures, tiles and holds (11 R203 to R209; 12 R226). -/
def finishOp (m : Mach) (id : Nat) (o : Op) (st : Nat) : Mach :=
  let m := o.issuers.foldl (fun m i => m.updWarp i.1 (fun w => settleWarp o st w i.2)) m
  let m := releaseHolds (settleTiles m o st) o
  leaveExited { m with ops := Map.del m.ops id } o.block

/-- An operation completes with a status. -/
def completeOp (m : Mach) (id : Nat) (o : Op) (st : Nat) : Mach :=
  let m := finishOp m id o st
  let m := if st = 1 ∨ st = 8 ∨ st = 11 then m.count o.ctx 39 1 else m
  reportOp m o st

/-- The port of the copy engine, or the team of the collective engine, that an operation stands in (11 R202). -/
def Op.port (o : Op) (m : Mach) : Nat × Nat :=
  let core := (m.block o.block).core
  if o.cls = 0 then (core, (m.warp (o.issuers.headD (0, none)).1).idx % 4) else (teamOf core, 0)

/-- A sample whose record is not yet known (21 R345). -/
def Op.unfired (o : Op) : Bool := match o.cmd with | .sample _ _ _ [] => true | _ => false

/-- An operation that waits in a queue for its engine. -/
def Op.queued (o : Op) : Bool := decide (o.cls < 2) && !o.started && o.ended.isNone && !o.isSample

/-- Whose turn a port has after the port that was served last: the ports are served in turn, one command each (11 R202). -/
def portRank (m : Mach) (p : Nat × Nat) : Nat := (p.2 + 3 - (Map.find? m.copyTurn p.1).getD 3) % 4

/-- Does a queued operation come before another: in its port, or at an earlier port of the copy engine (11 R202)? -/
def Op.before (m : Mach) (e : Nat × Op) (id : Nat) (o : Op) : Bool :=
  e.2.queued && e.2.cls == o.cls &&
  (let p := e.2.port m
   let q := o.port m
   if p == q then decide (e.1 < id) else o.cls == 0 && p.1 == q.1 && decide (portRank m p < portRank m q))

/-- The COLLs of a context that pair on a group at an ordinal: operation number and operation (11 R218). -/
def paired (m : Mach) (ctx grp ord : Nat) : List (Nat × Op) :=
  m.ops.filter (fun e => match e.2.cmd with
    | .coll _ _ _ g _ _ o _ _ _ _ => e.2.ctx == ctx && g == grp && o == ord && e.2.ended.isNone
    | _ => false)

/-- Is there another rank with which a COLL can begin to exchange data (11 R202): one of its package that has arrived, or one of
another package? -/
def hasPeer (m : Mach) (id : Nat) (o : Op) : Bool :=
  match o.cmd with
  | .coll _ _ _ grp _ _ ord _ _ _ _ =>
    (paired m o.ctx grp ord).any (fun e => e.1 != id) ||
    (match groupOf m o.block default grp with | .ok (some g) => g.remote | _ => false)
  | _ => true

/-- Can an operation start, or start again after its service: it comes first in its queue (11 R202)? -/
def Op.canStart (o : Op) (m : Mach) (id : Nat) : Bool :=
  decide (o.cls < 2) && o.ended.isNone && o.held.isNone && !o.unfired &&
  (o.started || o.isSample || (!m.ops.any (fun e => Op.before m e id o) && (o.cls != 1 || hasPeer m id o)))

/-- What a copy-class operation does to memory and tiles: the machine, the operation's timestamp, a counter and what it
counts. -/
def copyEffect (m : Mach) (id : Nat) (o : Op) : Except EngFail (Mach × Nat × Nat × Nat) :=
  match o.cmd with
  | .xfer out _ rows lay he coords parts =>
    (transfer m id o out rows lay he coords parts).map (fun r => (r.1, r.2.1, 33, r.2.2))
  | .sample _ off he data =>
    (bufferWrites m o.ctx he off (data.map (fun b => (b, none)))).map (fun ws =>
      let s := engineStores (writeBytes m ws) o.pts (ws.map (·.key))
      (s.1, s.2, 78, 1))
  | _ => .ok (m, o.pts, 33, 0)

/-- An operation starts: a COLL begins to exchange data; any other performs its accesses (log 6). The turn of the copy engine
passes on (11 R202). -/
def startOp (m : Mach) (id : Nat) (o : Op) : Mach :=
  let m : Mach := if o.cls = 0 ∧ o.queued then { m with copyTurn := Map.ins m.copyTurn (o.port m).1 (o.port m).2 } else m
  if o.cls = 1 then m.updOp id (fun o => { o with started := true })
  else
    match copyEffect m id o with
    | .error e => opFails m id o e
    | .ok (m, pts, counter, n) =>
      (m.updOp id (fun o => { o with started := true, ended := some 0, pts := pts })).count o.ctx counter n

/-- ENGINE_OP_START (11 R202). -/
def execEngineOpStart (op : Nat) (s : State) : Host.Outcome State Fault Refusal :=
  event s (match Map.find? s.m.ops op with
    | none => none
    | some o => if o.canStart s.m op then some (startOp s.m op o) else none)

/-- ENGINE_OP_COMPLETE (11 R203): an operation whose accesses are done completes in its place in issue order. -/
def execEngineOpComplete (op : Nat) (s : State) : Host.Outcome State Fault Refusal :=
  event s (match Map.find? s.m.ops op with
    | none => none
    | some o =>
      match o.ended with
      | none => none
      | some st => if o.behind s.m op then none else some (completeOp s.m op o st))

/-- What a rank brings to a collective: its rank, its kind, reduction, format and count, and its buffer. -/
structure Brought where
  rank : Nat
  what : Nat × Nat × Nat × Nat
  buf : List (Byte × Option Word)
  keys : List Nat

/-- What a COLL of this package brings. -/
def broughtBy (m : Mach) (e : Nat × Op) : Except (Nat × Op × EngFail) Brought :=
  match e.2.cmd with
  | .coll kind red fmt _ rank n _ count _ off he =>
    match bufferReads m e.2 he off (collBytes kind fmt n count) with
    | .error f => .error (e.1, e.2, f)
    | .ok r => .ok { rank := rank, what := (kind, red, fmt, count), buf := r.1, keys := r.2 }
  | _ => .ok { rank := 0, what := (0, 0, 0, 0), buf := [], keys := [] }

/-- What a rank of another package brings. -/
def broughtFrom (r : RankPart) : Brought :=
  { rank := r.rank, what := (r.kind, r.red, r.fmt, r.count), buf := r.data.map (fun b => (b, none)), keys := [] }

/-- The byte writes of a COLL once every rank has brought its buffer. -/
def collWrites (m : Mach) (xs : List Brought) (e : Nat × Op) : Except (Nat × Op × EngFail) (List ByteWrite) :=
  match e.2.cmd with
  | .coll kind red fmt _ rank n _ count _ off he =>
    let bufs := (List.range n).map (fun i => ((xs.find? (fun x => x.rank == i)).map (·.buf)).getD [])
    let r := collResult kind red fmt count rank bufs
    match bufferWrites m e.2.ctx he (off + r.1) r.2 with
    | .error f => .error (e.1, e.2, f)
    | .ok ws => .ok ws
  | _ => .ok []

/-- The bytes a rank sends in a collective (11 R214): its own buffer or part once, and for a reduce-scatter the parts of the others
(DESIGN CHOICE, log 36). -/
def sentBytes (o : Op) : Nat :=
  match o.cmd with
  | .coll kind _ fmt _ _ n _ count _ _ _ => (if kind = 2 then n - 1 else 1) * count * collSize fmt
  | _ => 0

/-- The exchange of a collective at one instant (log 6): reads, reductions and writes. -/
def exchange (m : Mach) (es : List (Nat × Op)) (remote : List RankPart) : Except (Nat × Op × EngFail) Mach := do
  let local_ ← es.mapM (broughtBy m)
  let xs := local_ ++ remote.map broughtFrom
  let ws ← es.mapM (collWrites m xs)
  let pts := es.foldl (fun t e => max t e.2.pts) 0
  let r := engineLoads m pts (local_.flatMap (·.keys))
  let s := engineStores (writeBytes r.1 ws.flatten) r.2 (ws.flatten.map (·.key))
  return es.foldl (fun m e =>
    (m.updOp e.1 (fun o => { o with ended := some 0, pts := s.2 })).count e.2.ctx 35 (sentBytes e.2)) s.1.tickOn

/-- Complete the operations that may complete, oldest first. -/
def completeAll (m : Mach) (ids : List Nat) : Mach :=
  ids.foldl (fun m id => match Map.find? m.ops id with
    | none => m
    | some o => match o.ended with
      | none => m
      | some st => if o.behind m id then m else completeOp m id o st) m

/-- The ranks of a context whose COLL on a group at an ordinal had no elements, each with its kind, reduction, format and count. -/
def zerosOf (m : Mach) (ctx grp ord : Nat) : List (Nat × (Nat × Nat × Nat × Nat)) :=
  ((m.ctx ctx).zeros.filter (fun z => z.1.1 == grp && z.1.2.1 == ord)).map (fun z => (z.1.2.2, z.2.1, z.2.2.1, z.2.2.2, 0))

/-- COLLs of no elements complete without any exchange (11 R218). -/
def pumpColls (m : Mach) : Mach :=
  completeAll m ((m.ops.filter (fun e => e.2.cls == 1 && e.2.ended.isSome)).map (·.1))

/-- Have all ranks arrived, each once, with buffers of the lengths they must have? -/
def collReady (es : List (Nat × Op)) (zs : List Nat) (remote : List RankPart) : Bool :=
  match es with
  | [] => false
  | (_, o) :: _ => match o.cmd with
    | .coll _ _ _ _ _ n _ _ _ _ _ =>
      let ranks := es.map (fun e => match e.2.cmd with | .coll _ _ _ _ r _ _ _ _ _ _ => r | _ => 0) ++ zs ++ remote.map (·.rank)
      decide (ranks.length = n) && (List.range n).all ranks.contains && es.all (fun e => e.2.started && e.2.held.isNone) &&
      remote.all (fun r => r.data.length == collBytes r.kind r.fmt n r.count)
    | _ => false

/-- COLL_COMPLETE (11 R218): every rank has arrived; ranks that disagree all end FAIL. -/
def execCollComplete (ctx grp seq : Nat) (remote : List RankPart) (s : State) : Host.Outcome State Fault Refusal :=
  let es := paired s.m ctx grp seq
  let zs := zerosOf s.m ctx grp seq
  event s (if !collReady es (zs.map (·.1)) remote then none
    else
      let ids := es.map (·.1)
      let what (e : Nat × Op) : Nat × Nat × Nat × Nat :=
        match e.2.cmd with | .coll kind red fmt _ _ _ _ count _ _ _ => (kind, red, fmt, count) | _ => (0, 0, 0, 0)
      let whats := es.map what ++ zs.map (·.2) ++ remote.map (fun r => (r.kind, r.red, r.fmt, r.count))
      if whats.any (fun w => w != whats.headD (0, 0, 0, 0)) then
        let m := ids.foldl (fun m id => m.updOp id (fun o => { o with ended := some 1 })) s.m
        some (completeAll m ids)
      else match exchange s.m es remote with
        | .error (id, o, f) => some (completeAll (opFails s.m id o f) ids)
        | .ok m => some (completeAll m ids))

/-- COLL_TIMEOUT (11 R204, R217, R218): the group has a timeout, it has passed, and a rank has not arrived; or the context of a
rank on another package has been killed, of which the fabric tells by the same event (DESIGN CHOICE, log 36). -/
def execCollTimeout (ctx grp seq : Nat) (s : State) : Host.Outcome State Fault Refusal :=
  let es := paired s.m ctx grp seq
  event s (match es with
    | [] => none
    | (_, o) :: _ =>
      match groupOf s.m o.block default grp with
      | .ok (some g) =>
        if !g.remote ∧ (g.timeout = 0 ∨ g.ranks ≤ es.length + (zerosOf s.m ctx grp seq).length) then none
        else
          let ids := es.map (·.1)
          some (completeAll (ids.foldl (fun m id => m.updOp id (fun o => { o with ended := some 11, held := none })) s.m) ids)
      | _ => none)

/-- The quarter array, with a row group, whose work on a matrix command disagrees (12 R229; 21 R336): that of a member. -/
def arrayUnit (m : Mach) (o : Op) (x : Mism) : Word :=
  let k := (o.issuers.getD (x.lane % max o.issuers.length 1) (0, none)).1
  BitVec.ofNat 32 ((4 * (m.blockOf k).core + (m.warp k).idx % 4) * 2 ^ 21 + 2 * 2 ^ 14 + x.pipe % 256)

/-- What checked execution makes of a matrix command (12 R229; 21 R327): after the records and counts, whether the mismatch
persists, and its unit. -/
def arrayCheck (m : Mach) (o : Op) : Mach × Option Word :=
  let compared := match o.cmd with | .mma .. => true | .drain .. => true | _ => false
  let k := (o.issuers.headD (0, none)).1
  match compared && (m.block o.block).lr.checked, m.mism with
  | true, x :: rest =>
    let m : Mach := { m with mism := rest }
    if x.pairs = 0 then (m, none)
    else
      let n := min x.pairs 3
      let unit := arrayUnit m o x
      let lane := x.lane % 32
      let m := (m.count o.ctx 19 (2 * min n 2)).count o.ctx 75 n
      if n < 3 then (errRecord m 3 0 unit (x.syndrome lane) 0 0 (some k) lane, none)
      else ((errRecord m 3 2 unit (x.syndrome lane) 0 0 (some k) lane).count o.ctx 76 1, some unit)
  | _, _ => (m, none)

/-- The younger matrix commands that a persisting mismatch drops (12 R229). -/
def dropped (m : Mach) (id : Nat) (o : Op) : List (Nat × Op) :=
  let names (x : Op) : List (Nat × Nat) := accTilesOf x ++ drainNames x
  m.ops.filter (fun e => decide (id < e.1) && e.2.cls == 2 && (names e.2).any (names o).contains)

/-- A matrix command whose mismatch persists: nothing of it is written, younger commands on its tiles are dropped, and
CHKFAIL goes to the set, or for DRAIN to its warp (12 R229). -/
def arrayFails (m : Mach) (id : Nat) (o : Op) (unit : Word) : Mach :=
  let gone := (id, o) :: dropped m id o
  let m := gone.foldl (fun m e => finishOp m e.1 e.2 10) m
  match (o.issuers.map (·.1)).filter (fun j => (m.warp j).isLive) with
  | [] => m
  | k :: ks =>
    let f := { m.outside k .chkfail with
               tinfo := BitVec.ofNat 32 (unit.toNat % 256 + (if o.scope = 2 then 256 * bits unit 22 21 else 0)) }
    if o.scope = 2 then raiseWide m k false (k :: ks) ((m.warp k).set.getD 0) f else takeTrap m k f

/-- MATRIX_COMMAND_COMPLETE (12 R224, R225): a matrix command acts in its place in issue order and completes. -/
def execMatrixCommandComplete (op : Nat) (s : State) : Host.Outcome State Fault Refusal :=
  event s (match Map.find? s.m.ops op with
    | none => none
    | some o =>
      if o.cls ≠ 2 ∨ o.held.isSome ∨ o.behind s.m op then none
      else match o.ended with
        | some st => some (completeOp s.m op o st)
        | none =>
          match arrayCheck s.m o with
          | (m, some unit) => some (arrayFails m op o unit)
          | (m, none) =>
            match matrixEffect m o with
            | .ok (m, pts) => some (completeOp m op { o with pts := pts } 0)
            | .error (.denied off) =>
              some (completeOp m op { o with info := { (default : FaultInfo) with taddr := BitVec.ofNat 32 off } } 8)
            | .error f => some (opFails m op o f))

end Sys2Proof.Machine
end

