-- ==== Sys2Proof/Machine/Registers.lean ====
section
/-!
DEFINITION. GROW and SHRINK and the pools they draw on (06 R113, R121 to R123).
-/

namespace Sys2Proof.Machine

/-- Units of a granule of a class: 0 vector, 1 tile, 2 accumulator (06 R113). -/
def granule : Nat → Nat
  | 0 => 8
  | 1 => 1
  | _ => 4

/-- The limit of a class per warp (06 R113). -/
def classLimit : Nat → Nat
  | 0 => 48
  | 1 => 16
  | _ => 1024

/-- The allotted count of a class. -/
def Warp.have (w : Warp) : Nat → Nat
  | 0 => w.nv
  | 1 => w.nt
  | _ => w.na

/-- Set the allotted count of a class. -/
def Warp.setHave (w : Warp) (cls n : Nat) : Warp :=
  match cls with
  | 0 => { w with nv := n }
  | 1 => { w with nt := n }
  | _ => { w with na := n }

/-- A block holds its seat unless it is saved or complete. -/
def Block.seated (b : Block) : Bool := b.pre != .saved && b.pre != .gone

/-- The seated blocks of a core. -/
def seatedOn (m : Mach) (core : Nat) : List (Nat × Block) := m.blocks.filter (fun e => e.2.core == core && e.2.seated)

/-- The units of a class that a block's warps hold. -/
def heldBy (m : Mach) (b cls : Nat) : Nat := ((m.warpsOf b).map (fun e => e.2.have cls)).sum

/-- Does a core hold a copy of a vat (14 R243)? -/
def Vat.onCore (v : Vat) (core : Nat) : Bool := (Map.find? v.slots core).isSome

/-- Bytes of local vats on a core. -/
def vatBytes (m : Mach) (core : Nat) : Nat :=
  ((m.vats.filter (fun e => !e.2.acc && e.2.onCore core)).map (fun e => 4096 * e.2.size)).sum

/-- Tiles of accumulator vats on a core. -/
def vatTiles (m : Mach) (core : Nat) : Nat :=
  ((m.vats.filter (fun e => e.2.acc && e.2.onCore core)).map (fun e => 4 * e.2.size)).sum

/-- Local-store bytes of the seated blocks of a core. -/
def scratchBytes (m : Mach) (core : Nat) : Nat := ((seatedOn m core).map (fun e => e.2.lr.locals)).sum

/-- The capacity of a pool in units (06 R121). -/
def capacity (m : Mach) (core cls : Nat) : Nat :=
  match cls with
  | 0 => 6144 - 2 * ((seatedOn m core).map (fun e => (m.warpsOf e.1).length)).sum
  | 1 => (Config.localStore - vatBytes m core - scratchBytes m core) / 3072
  | _ => Config.accTiles - vatTiles m core

/-- The units that the GROW of a warp has been granted and has not taken yet (06 R122, R123). -/
def Warp.owed (w : Warp) (cls : Nat) : Nat := if w.granted ∧ (w.grow.getD (0, 0)).1 = cls then (w.grow.getD (0, 0)).2 else 0

/-- The units of a class that are granted to the GROWs of a core. -/
def owedOn (m : Mach) (core cls : Nat) : Nat :=
  ((seatedOn m core).map (fun e => ((m.warpsOf e.1).map (fun x => x.2.owed cls)).sum)).sum

/-- The free units of a pool (06 R121), less those that are granted (R122). -/
def freeUnits (m : Mach) (core cls : Nat) : Nat :=
  capacity m core cls - ((seatedOn m core).map (fun e => heldBy m e.1 cls)).sum - owedOn m core cls

/-- The GROWs that wait in a pool's queue, with the age of their block (06 R122). -/
def waiters (m : Mach) (core cls : Nat) : List (Nat × Nat) :=
  (seatedOn m core).flatMap (fun e =>
    ((m.warpsOf e.1).filter (fun x => !x.2.granted && x.2.grow.any (fun g => g.1 == cls))).map
      (fun x => (x.1, 32 * e.2.age + x.2.idx)))

/-- The units that waiting GROWs reserve (06 R122). -/
def reserved (m : Mach) (core cls : Nat) : Nat :=
  ((waiters m core cls).map (fun e => ((m.warp e.1).grow.getD (0, 0)).2)).sum

/-- Give a warp n units of a class (06 R123): registers read zero, tiles are empty, entries are 0. Lines of new registers are
created (06 R116). -/
def giveUnits (m : Mach) (k cls n : Nat) : Mach :=
  let m := if cls = 0 then createLines m k (rangeFrom (m.warp k).nv n) else m
  m.updWarp k (fun w => w.setHave cls (w.have cls + n))

/-- What the shared checks need to know of GROW. -/
def growReq (x : FABC) : Req :=
  { instr := .grow x, sc := 1, cls := 3, dsts := [x.a.toNat] }

/-- GROW (06): FAIL where it could never fit; else it retires when it is the oldest waiter and the units are free. A GROW that
has entered its queue is not tested again (R122). -/
def growBody (x : FABC) (m : Mach) (ms : List Nat) : Except Stop Mach :=
  let q := growReq x
  let k := ms.headD 0
  let w := m.warp k
  let b := m.block w.block
  let cls := x.b.toNat
  let n := x.c.toNat * granule cls
  let older := (seatedOn m b.core).filter (fun e => decide (e.2.age < b.age))
  let never := n + heldBy m w.block cls + (older.map (fun e => heldBy m e.1 cls)).sum > capacity m b.core cls
  let done (m : Mach) (st : Nat) : Except Stop Mach :=
    .ok (retire q ((m.count b.ctx (if st = 0 then 4 else 5) 1).answer k x.a.toNat st) ms)
  let first := (waiters m b.core cls).all (fun e => e.1 == k || decide (32 * b.age + w.idx < e.2))
  if w.trap.isSome then done m 8
  else if w.granted then done (giveUnits (m.updWarp k Warp.noGrow) k cls n) 0
  else if w.grow.isNone ∧ (w.have cls + n > classLimit cls ∨ never) then done m 1
  else if first ∧ n ≤ freeUnits m b.core cls then done (giveUnits (m.updWarp k Warp.noGrow) k cls n) 0
  else .ok (m.updWarp k (fun w => { w with grow := some (cls, n), wait := some .grow }))

/-- GROW as an instruction of the current warp. -/
def execGrow (x : FABC) := issueTo (growReq x) (growBody x)

/-- The poison marks of a warp without those of the units of a class from lo on. -/
def Warp.forget (w : Warp) (cls lo : Nat) : Warp :=
  let gone (l : Nat) : Bool :=
    match cls with
    | 0 => decide (lo ≤ l) && decide (l < 48)
    | 1 => false
    | _ => decide (64 + lo ≤ l)
  { w with bad := w.bad.filter (fun e => !gone e.1), lines := w.lines.filter (fun l => !gone l),
           filled := w.filled.filter (fun e => !gone e.1) }

/-- Take the n highest units of a class away, with their contents and marks (06 R123; 11 R211; 21 R329). -/
def takeUnits (m : Mach) (k cls n : Nat) : Mach :=
  let w := m.warp k
  let lo := w.have cls - n
  let w := (w.setHave cls lo).forget cls lo
  match cls with
  | 0 => m.setWarp k { w with v := Map.dropRange w.v (32 * lo) (32 * 48) }
  | 1 =>
    let drop (mem : List Host.Cell) (t : Nat) : List Host.Cell :=
      Map.dropRange mem ((Space.tile k t).key 0) ((Space.tile k t).key 3072)
    let clear (l : List (Nat × Word)) (t : Nat) : List (Nat × Word) :=
      Map.dropRange l ((Space.tile k t).key 0 / 16) ((Space.tile k t).key 0 / 16 + 192)
    { m with mem := (rangeFrom lo n).foldl drop m.mem, poison := (rangeFrom lo n).foldl clear m.poison }.setWarp k { w with tiles := Map.dropRange w.tiles lo 16 }
  | _ => m.setWarp k { w with acc := Map.dropRange w.acc (256 * lo) (256 * (lo + n)) }

/-- What the shared checks need to know of SHRINK. -/
def shrinkReq (x : FABC) : Req :=
  { instr := .shrink x, sc := 1, cls := 3, dsts := [x.a.toNat] }

/-- SHRINK (06): it waits while transfers into the warp are in flight or a DRAIN holds a tile of it (R119; 12 R226). -/
def shrinkBody (x : FABC) (m : Mach) (ms : List Nat) : Except Stop Mach :=
  let k := ms.headD 0
  let w := m.warp k
  let cls := x.b.toNat
  let n := x.c.toNat * granule cls
  let least := if cls = 0 then 8 else 0
  if w.trap.isSome then .ok (m.answer k x.a.toNat 8)
  else if w.have cls < n + least then .ok (m.answer k x.a.toNat 1)
  else if inFlight m k ≠ 0 ∨ tilesBusy w then .error (.wait .inFlight)
  else .ok ((takeUnits m k cls n).answer k x.a.toNat 0)

/-- SHRINK as an instruction of the current warp. -/
def execShrink (x : FABC) := issue (shrinkReq x) (shrinkBody x)

end Sys2Proof.Machine
end

