-- ==== Sys2Proof/Machine/Vats.lean ====
section
/-!
DEFINITION. Vats (14): directories, images, roles, and the six vat instructions.
-/

namespace Sys2Proof.Machine

/-- The vat of a context with a name. -/
def Mach.vatNamed (m : Mach) (c name : Nat) : Option (Nat × Vat) :=
  m.vats.find? (fun e => e.2.ctx == c && e.2.name == name)

/-- Image bytes of a vat (14 R249). -/
def Vat.imageBytes (v : Vat) : Nat := if v.acc then 6400 * v.size else 4096 * v.size

/-- The key of a local vat's first byte on a core. -/
def vatBase (id core : Nat) : Nat := (Space.vat id core).key 0

/-- Bytes in place with their poison marks. -/
def markedRead (m : Mach) (key n : Nat) : List (Byte × Option Word) :=
  (rangeFrom key n).map (fun k => (Mem.read m.mem k, m.poisonAt k 1))

/-- Write bytes with their poison marks. -/
def markedWrite (m : Mach) (key : Nat) (bs : List (Byte × Option Word)) : Mach :=
  writeBytes m (bs.zipIdx.map (fun b => { key := key + b.2, mask := 255, value := b.1.1.toNat, bad := b.1.2, row := 0 }))

/-- What a vat's copy on a core holds, as its image, with the marks that move with it (21 R329). -/
def vatContent (m : Mach) (id : Nat) (v : Vat) (core : Nat) : List (Byte × Option Word) :=
  if v.acc then
    let n := 4 * v.size
    (accImage (Map.get v.tiles) n).zipIdx.map (fun b =>
      (b.1, Map.find? m.poison (vatTilePart id (if b.2 < 1536 * n then b.2 / 1536 else (b.2 - 1536 * n) / 64))))
  else markedRead m (vatBase id core) (4096 * v.size)

/-- The entries of an accumulator vat from an image. -/
def tilesOfImage (bs : List Byte) (size : Nat) : List (Nat × BitVec 50) :=
  (List.range (1024 * size)).foldl (fun t i => Map.set t i (imageEntry bs (4 * size) i)) []

/-- Fill a copy of a vat on a core from an image. -/
def vatFill (m : Mach) (id : Nat) (v : Vat) (core : Nat) (bs : List (Byte × Option Word)) : Mach :=
  if v.acc then
    let n := 4 * v.size
    let mark (j : Nat) : Option Word := ((bs.drop (1536 * j)).take 1536 ++ (bs.drop (1536 * n + 64 * j)).take 64).findSome? (·.2)
    let m : Mach := { m with poison := (List.range n).foldl (fun p j => putOpt p (vatTilePart id j) (mark j)) m.poison }
    m.updVat id (fun v => { v with tiles := tilesOfImage (bs.map (·.1)) v.size })
  else markedWrite m (vatBase id core) bs

/-- Some clocks pass for the vats that a context holds: VATLOCAL and VATACC go on by as many times the granules of its copies
(14 R256; log 4). -/
def vatClocks (m : Mach) (c : Nat) : Mach :=
  let m := m.tickOn
  let held (acc : Bool) : Nat := ((m.vats.filter (fun e => e.2.ctx == c && e.2.acc == acc)).map (fun e => e.2.size * e.2.slots.length)).sum
  let t := Config.timedCounter 48 m.tick
  (m.count c 48 (t * held false)).count c 49 (t * held true)

/-- The timestamp of a name's entry in the device directory of a context (14 R248). -/
def Mach.vatTime (m : Mach) (c name : Nat) : Nat := (Map.find? (m.ctx c).vatPts name).getD 0

/-- Give it another. -/
def Mach.setVatTime (m : Mach) (c name t : Nat) : Mach := m.updCtx c (fun x => { x with vatPts := Map.ins x.vatPts name t })

/-- A step of the memory order on a directory entry by some warps (14 R248): one that changes it comes after every earlier one. -/
def vatStep (m : Mach) (ks : List Nat) (c name : Nat) (write : Bool) : Mach :=
  let t := (ks.map (fun k => (m.warp k).pts)).foldl max (m.vatTime c name + write.toNat)
  (m.setVatTime c name t).updWarps ks (fun _ w => { w with pts := t })

/-- A copy of a vat leaves a core, with its bytes. -/
def freeCopy (m : Mach) (id core : Nat) : Mach :=
  let m := vatClocks m (m.vat id).ctx
  let lo := vatBase id core
  let hi := lo + 4096 * 384
  { m with mem := Map.dropRange m.mem lo hi, poison := Map.dropRange m.poison (lo / 16) (hi / 16) }.updVat id (fun v =>
    { v with slots := Map.del v.slots core, replicas := v.replicas.filter (fun c => c != core) })

/-- The free bytes of local store on a core, less what waiting GROWs reserve (14 R256). -/
def freeStore (m : Mach) (core : Nat) : Nat :=
  Config.localStore - vatBytes m core - scratchBytes m core -
    3072 * (((seatedOn m core).map (fun e => heldBy m e.1 1)).sum + reserved m core 1)

/-- Is there room for a vat on a core (14 R256)? -/
def vatRoom (m : Mach) (core : Nat) (acc : Bool) (size : Nat) : Bool :=
  if acc then decide (4 * size + reserved m core 2 ≤ freeUnits m core 2) else decide (4096 * size ≤ freeStore m core)

/-- A free entry of a core's directory (14 R243). -/
def freeSlot (m : Mach) (core : Nat) : Option Nat :=
  (List.range 64).find? (fun i => !m.vats.any (fun e => Map.find? e.2.slots core == some i))

/-- The lowest invalid vat handle of a block (14 R245). -/
def freeVatHandle (b : Block) : Option Nat := (List.range 32).find? (fun i => (Map.find? b.vatH i).isNone)

/-- The vat handle of a block for a vat. -/
def Block.vatHandle (b : Block) (id : Nat) : Option Nat := (b.vatH.find? (fun e => e.2.1 == id)).map (·.1)

/-- Where an image of some bytes fits in the vat save area of a context: the lowest place after another image (18 R296; DESIGN
CHOICE, log 37). -/
def saveRoom (m : Mach) (c bytes : Nat) : Option Nat :=
  let taken := (m.vats.filter (fun e => e.2.ctx == c && e.2.backed.isNone)).map (fun e => (e.2.saveOff, e.2.saveOff + e.2.imageBytes))
  minBy id ((0 :: taken.map (·.2)).filter (fun o =>
    decide (o + bytes ≤ m.hdr c 0x60 8) && taken.all (fun t => decide (o + bytes ≤ t.1) || decide (t.2 ≤ o))))

/-- Is the directory of a context full for a new vat (14 R243; 18 R296)? -/
def directoryFull (m : Mach) (c : Nat) (backed : Bool) (bytes : Nat) : Bool :=
  decide (1024 ≤ (m.vats.filter (fun e => e.2.ctx == c)).length) || (!backed && (saveRoom m c bytes).isNone)

/-- The vat save area as a buffer: device memory of the context image (18 R296). -/
def saveArea (m : Mach) (c : Nat) : Except EngFail HEntry :=
  match imageBase m c default with
  | .error _ => .error (.denied 0)
  | .ok base => .ok { base := base + m.hdr c 0x58 8, length := m.hdr c 0x60 8, kind := 1, access := 3, policy := 0,
                      world := (m.ctx c).world, spec := 0 }

/-- Where a vat's image stands in its buffer. -/
def Vat.imageOff (v : Vat) : Nat := match v.backed with | some (_, off) => off | none => v.saveOff

/-- The checks of a backing handle that need no translation (14 R249, VCREATE: HANDLE, BOUNDS, ALIGN, PERM). -/
def backingHandle (m : Mach) (bk : Nat) (f : FaultInfo) (h off n need world : Nat) : Except Stop HEntry := do
  let e ← bulkHandle m bk { f with cause := .handle } h
  bufferChecks (m.block bk) f h off n 128 need e
  if e.world ≠ world then
    throw (.trap { f with cause := .perm, taddr := BitVec.ofNat 32 off, tinfo := BitVec.ofNat 32 (h % 4096 + 4 * 4096) })
  return e

/-- The checks of an access to a backing image at an instruction (14 R356): the handle's, then its pages'. -/
def backingChecks (m : Mach) (bk : Nat) (f : FaultInfo) (h off n need world : Nat) (acc : Acc) : Except Stop HEntry := do
  let e ← backingHandle m bk f h off n need world
  bufferPages m bk f h off n acc e
  return e

/-- The image of a vat as the device reads it: the backing image, or the vat save area. -/
def imageRead (m : Mach) (v : Vat) (e : HEntry) : Except EngFail (List (Byte × Option Word) × List Nat) :=
  (engineKeys m v.ctx e .read v.imageOff v.imageBytes).map (fun keys =>
    (keys.map (fun k => (Mem.read m.mem k, m.poisonAt k 1)), keys))

/-- Write a vat's image, after the step that stands in the vat's directory entry (14 R248, R249). -/
def imageStore (m : Mach) (v : Vat) (e : HEntry) (bs : List (Byte × Option Word)) : Except EngFail Mach :=
  (bufferWrites m v.ctx e v.imageOff bs).map (fun ws =>
    let s := engineStores (writeBytes m ws) (m.vatTime v.ctx v.name) (ws.map (·.key))
    (s.1.setVatTime v.ctx v.name s.2).count v.ctx 54 v.backed.isSome.toNat)

/-- Put what was read from an image onto a core as the vat's primary copy. -/
def fillCopy (m : Mach) (id : Nat) (v : Vat) (core slot : Nat) (r : List (Byte × Option Word) × List Nat) : Mach :=
  let s := engineLoads (vatClocks m v.ctx) (m.vatTime v.ctx v.name) r.2
  let m := (s.1.setVatTime v.ctx v.name s.2).count v.ctx 53 v.imageBytes
  (vatFill m id v core r.1).updVat id (fun v =>
    { v with st := 0, primary := some core, target := none, slots := Map.ins v.slots core slot })

/-- A failure of an access to the vat save area stops the context, as any access to its image does (06 R118). -/
def saveStop (f : FaultInfo) : EngFail → Stop := fun _ => .ctx 5 f

/-- An engine failure at an instruction, whose pages have been checked. -/
def vatStop (f : FaultInfo) : EngFail → Stop
  | .miss va size off => .held 0 { f with cause := .xlate, va := va, taddr := BitVec.ofNat 32 off } (va / size * size) size
  | .denied off => .trap { f with cause := .perm, taddr := BitVec.ofNat 32 off }

/-- Write a vat back at an instruction of a block (14 R249, R356). -/
def writeBack (m : Mach) (bk : Nat) (f : FaultInfo) (id : Nat) (v : Vat) : Except Stop Mach :=
  match v.backed, v.primary with
  | some (h, off), some core => do
    let e ← backingChecks m bk f h off v.imageBytes 2 v.world .write
    (imageStore m v e (vatContent m id v core)).mapError (vatStop f)
  | _, _ => .ok m

/-- Fill a backed vat onto a core as its primary, at an instruction of a block. -/
def fillHere (m : Mach) (bk : Nat) (f : FaultInfo) (id : Nat) (v : Vat) (core slot : Nat) : Except Stop Mach := do
  match v.backed with
  | some (h, off) =>
    let e ← backingChecks m bk f h off v.imageBytes 1 v.world .read
    return fillCopy m id v core slot (← (imageRead m v e).mapError (vatStop f))
  | none =>
    let e ← (saveArea m v.ctx).mapError (saveStop f)
    return fillCopy m id v core slot (← (imageRead m v e).mapError (saveStop f))

/-- The writer role passes to the head of the queue (14 R247). -/
def passRole (m : Mach) (id : Nat) : Mach :=
  m.updVat id (fun v => { v with writer := v.queue.head?, queue := v.queue.drop 1 })

/-- A block's open of a vat ends (14 R245): its handle is invalid, and an accumulator vat is unmapped. -/
def closeVat (m : Mach) (bk id : Nat) : Mach :=
  let m := m.updBlock bk (fun b => { b with vatH := b.vatH.filter (fun e => e.2.1 != id) })
  let m := m.updVat id (fun v => { v with opens := v.opens.filter (fun x => x != bk) })
  m.updWarps ((m.warpsOf bk).map (·.1)) (fun _ w => if w.vatMap == some id then { w with vatMap := none } else w)

/-- Drop the replicas of a vat. -/
def dropReplicas (m : Mach) (id : Nat) : Mach := (m.vat id).replicas.foldl (fun m c => freeCopy m id c) m

/-- Does a matrix command in flight name a tile of a vat (12 R225)? -/
def vatBusy (m : Mach) (id : Nat) : Bool :=
  m.ops.any (fun e => (accTilesOf e.2).any (fun x => decide (1024 ≤ x.2) && (m.warp x.1).vatMap == some id))

/-- What the shared checks need to know of a vat form: sc = 0 is warp scope and sc = 1 block scope. -/
def vatReq (i : Instr) (sc : BitVec 1) (srcs dsts : List Nat) : Req :=
  { instr := i, sc := if sc = 0 then 1 else 3, cls := 3, srcs := srcs, dsts := dsts }

/-- Write a form's result registers in every member (14 R257). -/
def vatAnswer (m : Mach) (ms : List Nat) (a : Nat) (xs : List Nat) : Mach :=
  ms.foldl (fun m k => xs.zipIdx.foldl (fun m x => m.answer k (a + x.2) x.1) m) m

/-- A form on the vat of a name has a status and results: its step of the memory order (14 R248); one that changes the vat moves the
progress counter too (21 R343). -/
def vatEnds (m : Mach) (ms : List Nat) (name a : Nat) (xs : List Nat) (changes : Bool) : Mach :=
  let m := if changes then m.updWarps ms (fun _ w => { w with prog := w.prog + 1 }) else m
  vatAnswer (vatStep m ms (m.ctxOf (ms.headD 0)) name changes) ms a xs

/-- A pair of scalar registers as a 64-bit value (02 R23). -/
def headPair (m : Mach) (sc : Nat) (ms : List Nat) (f : Nat) : Nat :=
  (headS m sc ms f).toNat + (headS m sc ms (f + 1)).toNat * 2 ^ 32

/-- The VAT fault of a form (14 R257). -/
def vatFault (q : Req) (m : Mach) (k : Nat) : Stop := .trap { m.fault k q.sc .vat with tinfo := word1 q.instr }

/-- The fields of a VCREATE descriptor. -/
def descL (d : Word) : Bool := d.getLsbD 18
def descB (d : Word) : Bool := d.getLsbD 17
def descK (d : Word) : Bool := d.getLsbD 16
def descSize (d : Word) : Nat := bits d 9 0

/-- Is a VCREATE descriptor well formed (14 VCREATE)? -/
def descOk (d : Word) : Bool :=
  bits d 31 19 == 0 && bits d 15 10 == 0 && !(descL d && !descB d) && decide (1 ≤ descSize d) &&
  decide (descSize d ≤ if descK d then 512 else 384)

/-- A guaranteed team of a context (16 R267). -/
def Ctx.hasTeam (c : Ctx) (team : Nat) : Bool := c.teams.getLsbD team

/-- The new vat of a VCREATE, with its handle, once every check has passed. -/
def makeVat (m : Mach) (k : Nat) (name : Nat) (d : Word) (back : Option (Nat × Nat)) (h slot : Nat) : Mach :=
  let bk := (m.warp k).block
  let b := m.block bk
  let id := m.nextVat
  let m := vatClocks m b.ctx
  let v : Vat :=
    { ctx := b.ctx, name := name, acc := descK d, size := descSize d, world := b.world, backed := back, st := 0,
      primary := some b.core, replicas := [], opens := [bk], writer := some bk, queue := [], stale := false,
      slots := [(b.core, slot)], tiles := [], target := none,
      saveOff := (saveRoom m b.ctx (if descK d then 6400 * descSize d else 4096 * descSize d)).getD 0 }
  let m : Mach := { m with nextVat := id + 1, vats := Map.ins m.vats id v }
  let m := m.updBlock bk (fun b => { b with vatH := Map.ins b.vatH h (id, !descK d) })
  if descK d then m.updWarp k (fun w => { w with vatMap := some id }) else m

/-- What the shared checks need to know of VCREATE. -/
def vcreateReq (x : FVABC) : Req :=
  vatReq (.vcreate x) x.sc [x.b.toNat, x.b.toNat + 1, x.c.toNat, x.c.toNat + 1, x.c.toNat + 2, x.c.toNat + 3]
    [x.a.toNat, x.a.toNat + 1]

/-- VCREATE (14). -/
def vcreateBody (x : FVABC) (m : Mach) (ms : List Nat) : Except Stop Mach := do
  let q := vcreateReq x
  let k := ms.headD 0
  let w := m.warp k
  let bk := w.block
  let b := m.block bk
  let a := x.a.toNat
  let name := headPair m q.sc ms x.b.toNat
  let d := headS m q.sc ms x.c.toNat
  if w.trap.isSome then return vatAnswer (commit m k) ms a [8, 0]
  if name = 0 ∨ !descOk d ∨ headS m q.sc ms (x.c.toNat + 3) ≠ 0 ∨ (descK d ∧ q.sc = 3) then throw (vatFault q m k)
  let size := descSize d
  let back := (headS m q.sc ms (x.c.toNat + 1)).toNat
  let off := (headS m q.sc ms (x.c.toNat + 2)).toNat
  let bytes := if descK d then 6400 * size else 4096 * size
  let f := m.fault k q.sc .handle
  if descB d then discard (backingHandle m bk f back off bytes 3 b.world)
  let m := commit m k
  let ends (xs : List Nat) : Mach := vatEnds m ms name a xs false
  if !(m.ctx b.ctx).hasTeam (teamOf b.core) then return ends [8, 0]
  match m.vatNamed b.ctx name with
  | some (_, v) => return ends [if v.world = b.world then 5 else 8, 0]
  | none =>
    match freeVatHandle b, freeSlot m b.core with
    | none, _ => return ends [1, 0]
    | some h, slot =>
      if descK d ∧ w.vatMap.isSome then return ends [1, 0]
      if slot.isNone ∨ directoryFull m b.ctx (descB d) bytes ∨ !vatRoom m b.core (descK d) size ∨
          (descK d ∧ 1024 < w.na + 4 * size) then return ends [9, 0]
      let m := makeVat m k name d (if descB d then some (back, off) else none) h (slot.getD 0)
      let id := m.nextVat - 1
      let m ← if descL d then fillHere m bk f id (m.vat id) b.core (slot.getD 0) else .ok m
      return vatEnds m ms name a [0, 4064 + h] true

/-- VCREATE as an instruction of the current warp. -/
def execVcreate (x : FVABC) := issue (vcreateReq x) (vcreateBody x)

/-- The outcome of a VOPEN: its result registers and the machine, or that it joins the writer queue. -/
inductive Opened where
  | done (m : Mach) (xs : List Nat)
  | queued (m : Mach) (id : Nat)

/-- VOPEN on a vat that this core holds, or fills now (14 VOPEN). -/
def vopenHere (m : Mach) (k id mode : Nat) : Opened :=
  let w := m.warp k
  let bk := w.block
  let b := m.block bk
  let v := m.vat id
  if !v.onCore b.core ∨ (mode ≠ 0 ∧ v.primary ≠ some b.core) then
    .done (m.count b.ctx 51 1) [2, v.primary.getD 0]
  else if mode ≠ 0 ∧ v.opens.any (fun x => v.replicas.contains (m.block x).core) then .done m [7, 0]
  else if mode ≠ 0 ∧ v.writer.any (fun x => x != bk) then
    if mode = 1 then .done m [7, 0]
    else .queued (if v.queue.contains bk then m else m.updVat id (fun v => { v with queue := v.queue ++ [bk] })) id
  else
    let m := if mode = 0 then m else (dropReplicas m id).updVat id (fun v => { v with writer := some bk })
    let h := (b.vatHandle id).getD ((freeVatHandle b).getD 0)
    let wr := (Map.find? b.vatH h).any (fun e => e.2)
    let m := m.updBlock bk (fun b => { b with vatH := Map.ins b.vatH h (id, wr || (mode != 0 && !v.acc)) })
    let m := m.updVat id (fun v => { v with opens := if v.opens.contains bk then v.opens else v.opens ++ [bk], stale := false })
    let m := if v.acc then m.updWarp k (fun w => { w with vatMap := some id }) else m
    .done (m.count b.ctx 50 1) [if v.stale then 4 else 0, 4064 + h]

/-- VOPEN's checks before the vat is on this core. A VOPEN queued on a vat that has been dropped finds none (14 VDROP). -/
def vopen (q : Req) (mode name : Nat) (m : Mach) (k : Nat) : Except Stop Opened := do
  let w := m.warp k
  let bk := w.block
  let b := m.block bk
  if name = 0 then throw (vatFault q m k)
  match (if w.vopen.any (fun id => (Map.find? m.vats id).isNone) then none else m.vatNamed b.ctx name) with
  | none => return .done m [6, 0]
  | some (id, v) =>
    if v.world ≠ b.world then return .done m [8, 0]
    if v.acc ∧ (mode = 0 ∨ q.sc = 3) then throw (vatFault q m k)
    if v.st = 3 then return .done m [3, 0]
    if v.st = 1 then throw (.wait .vatMoving)
    if (b.vatHandle id).isNone ∧ (freeVatHandle b).isNone then return .done m [1, 0]
    if v.acc ∧ (m.warpsOf bk).any (fun e => e.1 != k && e.2.vatMap == some id) then return .done m [7, 0]
    if v.acc ∧ w.vatMap.any (fun y => y != id) then return .done m [1, 0]
    if v.acc ∧ 1024 < w.na + 4 * v.size then return .done m [9, 0]
    if v.st = 2 then
      match freeSlot m b.core with
      | none => return .done m [9, 0]
      | some slot =>
        if !vatRoom m b.core v.acc v.size then return .done m [9, 0]
        let m ← fillHere m bk (m.fault k q.sc .handle) id v b.core slot
        return vopenHere m k id mode
    else return vopenHere m k id mode

/-- What the shared checks need to know of VOPEN. -/
def vopenReq (x : FVABC) : Req :=
  vatReq (.vopen x) x.sc [x.b.toNat, x.b.toNat + 1] [x.a.toNat, x.a.toNat + 1]

/-- Did a VOPEN wait in a writer queue or for a move (14 R256: VATWAIT)? -/
def waitedForVat : Option Wait → Bool
  | some .writerQueue => true
  | some .vatMoving => true
  | _ => false

/-- VOPEN (14): at a full writer queue's end it waits, and tries again. -/
def vopenBody (x : FVABC) (m : Mach) (ms : List Nat) : Except Stop Mach := do
  let q := vopenReq x
  let k := ms.headD 0
  let name := headPair m q.sc ms x.b.toNat
  if (m.warp k).trap.isSome then return retire q (vatAnswer m ms x.a.toNat [8, 0]) ms
  match ← vopen q x.c.toNat name m k with
  | .done m' xs =>
    let m' := m'.updWarps ms (fun _ w => { w with vopen := none })
    let m' := if waitedForVat (m.warp k).wait then m'.tickOn.count (m.ctxOf k) 55 (Config.timedCounter 55 (m'.tick + 1)) else m'
    return retire q (vatEnds m' ms name x.a.toNat xs (xs.headD 0 = 0 ∨ xs.headD 0 = 4)) ms
  | .queued m id => return m.updWarps ms (fun _ w => { w with wait := some .writerQueue, vopen := some id })

/-- VOPEN as an instruction of the current warp. -/
def execVopen (x : FVABC) := issueTo (vopenReq x) (vopenBody x)

/-- What the shared checks need to know of VHAND. -/
def vhandReq (x : FVAB) : Req :=
  vatReq (.vhand x) x.sc [x.b.toNat] [x.a.toNat]

/-- VHAND (14). -/
def vhandBody (x : FVAB) (m : Mach) (ms : List Nat) : Except Stop Mach := do
  let q := vhandReq x
  let k := ms.headD 0
  let w := m.warp k
  let bk := w.block
  let b := m.block bk
  if w.trap.isSome then return vatAnswer (commit m k) ms x.a.toNat [8]
  let h := (headS m q.sc ms x.b.toNat).toNat
  match (if 4064 ≤ h ∧ h ≤ 4095 then Map.find? b.vatH (h - 4064) else none) with
  | none => throw (vatFault q m k)
  | some (id, _) =>
    let v := m.vat id
    let a := x.a.toNat
    if v.writer ≠ some bk then return vatEnds (commit m k) ms v.name a [8] false
    if v.acc ∧ (q.sc = 3 ∨ w.vatMap ≠ some id) then throw (vatFault q m k)
    if v.acc ∧ vatBusy m id then throw (.wait .matrix)
    let m ← writeBack (vatStep (commit m k) ms b.ctx v.name true) bk (m.fault k q.sc .handle) id v
    let m := if v.acc then closeVat m bk id
             else m.updBlock bk (fun b => { b with vatH := Map.ins b.vatH (h - 4064) (id, false) })
    return vatEnds (passRole m id) ms v.name a [0] true

/-- VHAND as an instruction of the current warp. -/
def execVhand (x : FVAB) := issue (vhandReq x) (vhandBody x)

/-- Remove a vat with its copies, images and handles (14 VDROP). -/
def removeVat (m : Mach) (id : Nat) : Mach :=
  let v := m.vat id
  let m := v.opens.foldl (fun m bk => closeVat m bk id) m
  let m := (v.slots.map (·.1)).foldl (fun m core => freeCopy m id core) m
  { m with vats := Map.del m.vats id }

/-- What the shared checks need to know of VDROP. -/
def vdropReq (x : FVAB) : Req :=
  vatReq (.vdrop x) x.sc [x.b.toNat, x.b.toNat + 1] [x.a.toNat]

/-- VDROP (14). -/
def vdropBody (x : FVAB) (m : Mach) (ms : List Nat) : Except Stop Mach := do
  let q := vdropReq x
  let k := ms.headD 0
  let bk := (m.warp k).block
  let b := m.block bk
  let name := headPair m q.sc ms x.b.toNat
  let a := x.a.toNat
  if (m.warp k).trap.isSome then return vatAnswer (commit m k) ms a [8]
  if name = 0 then throw (vatFault q m k)
  let ends (st : Nat) : Mach := vatEnds (commit m k) ms name a [st] false
  match m.vatNamed b.ctx name with
  | none => return ends 6
  | some (id, v) =>
    if v.world ≠ b.world then return ends 8
    if v.st < 2 ∧ v.writer ≠ some bk then return ends 8
    if v.st < 2 ∧ v.opens.any (fun y => y != bk) then return ends 7
    if v.st < 2 ∧ v.acc ∧ vatBusy m id then throw (.wait .matrix)
    return vatEnds (removeVat (commit m k) id) ms name a [0] true

/-- VDROP as an instruction of the current warp. -/
def execVdrop (x : FVAB) := issue (vdropReq x) (vdropBody x)

/-- The four words of a VQUERY (14 R258). -/
def queryWords (v : Vat) : List Nat :=
  [0, v.st * 2 ^ 30 + v.acc.toNat * 2 ^ 29 + v.backed.isSome.toNat * 2 ^ 28 + v.writer.isSome.toNat * 2 ^ 27 +
        v.stale.toNat * 2 ^ 26 + v.replicas.length * 2 ^ 24 + min 255 v.opens.length * 2 ^ 16 + v.size,
   (match v.primary with | some c => 2 ^ 31 + c | none => 0),
   v.replicas.getD 0 0 + v.replicas.getD 1 0 * 2 ^ 8 + v.replicas.getD 2 0 * 2 ^ 16]

/-- What the shared checks need to know of VQUERY. -/
def vqueryReq (x : FVAB) : Req :=
  vatReq (.vquery x) x.sc [x.b.toNat, x.b.toNat + 1] (rangeFrom x.a.toNat 4)

/-- VQUERY (14 R258). -/
def vqueryBody (x : FVAB) (m : Mach) (ms : List Nat) : Except Stop Mach := do
  let q := vqueryReq x
  let k := ms.headD 0
  let b := m.blockOf k
  let name := headPair m q.sc ms x.b.toNat
  if (m.warp k).trap.isSome then return vatAnswer m ms x.a.toNat [8, 0, 0, 0]
  if name = 0 then throw (vatFault q m k)
  let xs := match m.vatNamed b.ctx name with
    | none => [6, 0, 0, 0]
    | some (_, v) => if v.world = b.world then queryWords v else [8, 0, 0, 0]
  return vatEnds m ms name x.a.toNat xs false

/-- VQUERY as an instruction of the current warp. -/
def execVquery (x : FVAB) := issue (vqueryReq x) (vqueryBody x)

/-- The element of a list with the greatest key, the earliest among equals. -/
def maxBy (f : Nat → Nat) (xs : List Nat) : Option Nat :=
  xs.foldl (fun a x => match a with | none => some x | some y => if f y < f x then some x else some y) none

/-- Teams that hold a copy of a vat. -/
def Vat.teams (v : Vat) : List Nat := v.slots.map (fun e => teamOf e.1)

/-- Is a core fenced, alone or with its team (21 R334)? -/
def Plat.isFenced (p : Plat) (core : Nat) : Bool := p.fenced.contains core || p.fencedTeams.contains (teamOf core)

/-- The cores that a VDUP may choose among (14 VDUP; 21 R334): unfenced, with room, and most free local store first. -/
def dupCore (m : Mach) (fenced : Nat → Bool) (v : Vat) (t : Nat) : Option Nat :=
  let c := m.ctx v.ctx
  let cores := (List.range 256).filter (fun i =>
    (if t = 0xFF then c.hasTeam (teamOf i) && !v.teams.contains (teamOf i) else teamOf i == t) && !fenced i &&
    vatRoom m i false v.size && (freeSlot m i).isSome)
  maxBy (freeStore m) cores

/-- What the shared checks need to know of VDUP. -/
def vdupReq (x : FVABC) : Req :=
  vatReq (.vdup x) x.sc [x.b.toNat, x.b.toNat + 1, x.c.toNat] [x.a.toNat, x.a.toNat + 1]

/-- VDUP (14). -/
def vdupBody (x : FVABC) (p : Plat) (m : Mach) (ms : List Nat) : Except Stop Mach := do
  let q := vdupReq x
  let k := ms.headD 0
  let b := m.blockOf k
  let a := x.a.toNat
  let name := headPair m q.sc ms x.b.toNat
  let t := (headS m q.sc ms x.c.toNat).toNat
  if (m.warp k).trap.isSome then return vatAnswer (commit m k) ms a [8, 0]
  if name = 0 ∨ (31 < t ∧ t ≠ 0xFF) then throw (vatFault q m k)
  let ends (st : Nat) : Mach := vatEnds (commit m k) ms name a [st, 0] false
  match m.vatNamed b.ctx name with
  | none => return ends 6
  | some (id, v) =>
    if v.world ≠ b.world then return ends 8
    if v.acc then return ends 1
    if v.st = 1 then throw (.wait .vatMoving)
    if v.st = 3 then return ends 3
    if v.st = 2 then return ends 1
    if v.writer.isSome then return ends 7
    if t ≠ 0xFF ∧ !(m.ctx b.ctx).hasTeam t then return ends 8
    if t ≠ 0xFF ∧ v.teams.contains t then return ends 1
    match (if v.replicas.length < 3 then dupCore m p.isFenced v t else none), v.primary with
    | some core, some home =>
      let m := vatClocks (commit m k) b.ctx
      let slot := (freeSlot m core).getD 0
      let m := markedWrite m (vatBase id core) (vatContent m id v home)
      let m := m.updVat id (fun v => { v with replicas := v.replicas ++ [core], slots := Map.ins v.slots core slot })
      return vatEnds (m.count b.ctx 53 v.imageBytes) ms name a [0, core] true
    | _, _ => return ends 9

/-- VDUP as an instruction of the current warp. -/
def execVdup (x : FVABC) (s : State) : Host.Outcome State Fault Refusal :=
  issue (vdupReq x) (vdupBody x s.p) s

end Sys2Proof.Machine
end

