-- ==== Sys2Proof/Machine/Launch.lean ====
section
/-!
DEFINITION. Launch records (16 R261, R262), signals and the pending set (16 R263 to R265), admission (16 R267 to R269),
and the instructions LAUNCH, ARM, DISARM, CLK and YIELD.
-/

namespace Sys2Proof.Machine

/-- A launch record from its 256 bytes (16 R261). -/
def LaunchRec.ofBytes (bs : List Byte) : LaunchRec :=
  let f (off w : Nat) : Nat := natOfBytes ((bs.drop off).take w)
  let words (off n : Nat) : List Word := (List.range n).map (fun i => BitVec.ofNat 32 (f (off + 4 * i) 4))
  { code := f 0 2, flags := f 2 2, entry := f 4 4, blocks := f 8 4, nW := f 0x0C 1, nv := f 0x0D 1, nt := f 0x0E 1,
    gang := f 0x0F 1, na := f 0x10 2, r12 := f 0x12 2, locals := f 0x14 4, cost := f 0x18 4, deadline := f 0x1C 4,
    slots := words 0x20 8, args := words 0x40 8, affinity := (List.range 4).map (fun i => f (0x60 + 8 * i) 8),
    deps := (List.range 4).map (fun i => f (0x80 + 2 * i) 2), done := f 0x88 2, prio := f 0x8A 1, gclass := f 0x8B 1,
    patience := f 0x8C 4, roles := f 0x90 8, spill := f 0x98 4, rest := natOfBytes (bs.drop 0x9C) == 0 }

/-- The signal handles that a record names. -/
def LaunchRec.signals (r : LaunchRec) : List Nat := (r.done :: r.deps).filter (fun h => h != 0)

/-- The rules of R262 that the record's own fields decide. -/
def LaunchRec.fieldsOk (r : LaunchRec) : Bool :=
  r.r12 == 0 && r.flags / 32 == 0 && r.rest && r.entry % 4 == 0 && decide (1 ≤ r.blocks) && decide (1 ≤ r.nW) &&
  decide (r.nW ≤ 32) && r.roles / 4 ^ r.nW == 0 && r.nv % 8 == 0 && decide (8 ≤ r.nv) && decide (r.nv ≤ 48) &&
  decide (r.nt ≤ 16) && decide (r.na ≤ 1024) && r.na % 4 == 0 &&
  decide (r.locals + 3072 * r.nW * r.nt ≤ Config.localStore) && decide (r.nW * r.na ≤ Config.accTiles) &&
  (!r.isGang || (decide (2 ≤ r.gang) && decide (r.gang ≤ 64) && r.blocks % r.gang == 0)) && decide (r.gclass ≤ 2) &&
  decide (r.prio ≤ 3) && (r.deadline == 0 || r.cost != 0)

/-- Is a launch record malformed in a context of a world (16 R262)? A table that cannot be read waits for service. -/
def malformed (m : Mach) (c world : Nat) (r : LaunchRec) : Except Stop Bool := do
  let f : FaultInfo := { (default : FaultInfo) with tinfo := BitVec.ofNat 32 r.code }
  if !r.fieldsOk ∨ r.flags / 4 % 2 ≠ world then return true
  let code ← if 2 ≤ r.code ∧ r.code < 4064 then tableHandle m c f r.code else .ok none
  match code with
  | none => return true
  | some e =>
    if e.kind ≠ 8 ∨ e.access / 8 % 2 = 0 ∨ e.length ≤ r.entry then return true
    let sigs ← r.signals.mapM (fun h => if 2 ≤ h ∧ h < 4064 then tableHandle m c f h else .ok none)
    return sigs.any (fun x => match x with | none => true | some e => e.kind != 5 || e.access % 8 != 7)

/-- Put a record of kind 0 for a device access without a warp, or join the unserviced record of the page (09 R175; 14 R356;
16 R263): the record's number. -/
def deviceMiss (m : Mach) (c h va size : Nat) : Mach × Option Nat :=
  match (m.ctx c).services.find? (fun s => s.2.covers va (va / size * size) size) with
  | some (seq, _) => (m, some seq)
  | none =>
    let seq := (m.ctx c).faultSeq
    let bytes (seq ns : Nat) : List Byte :=
      [0, 0x0C] ++ bytesOfNat 2 0 ++ bytesOfNat 4 seq ++ bytesOfNat 8 ns ++ bytesOfNat 12 0 ++
        bytesOfNat 4 (2 ^ 31 + 4 * 2 ^ 12 + h % 4096) ++ bytesOfNat 24 0 ++ bytesOfNat 8 (va % 2 ^ 48)
    match putRecord m c bytes with
    | .full => (m, none)
    | .broken => (stopCtx m c 5 none, none)
    | .written m =>
      ((m.count c 27 1).updCtx c (fun x =>
        { x with services := Map.ins x.services seq { va := va, base := va / size * size, size := size } }), some seq)

/-- Change a launch of a context. -/
def Mach.updLaunch (m : Mach) (c seq : Nat) (f : Launch → Launch) : Mach :=
  m.updCtx c (fun x => { x with pend := Map.upd x.pend seq f })

/-- A launch of a context. -/
def Mach.launch (m : Mach) (c seq : Nat) : Launch := (Map.find? (m.ctx c).pend seq).getD default

/-- Write a launch's entry fields into the pending set of the image (18 R296). -/
def pendWrite (m : Mach) (c seq : Nat) : Mach :=
  let l := m.launch c seq
  (imageWrite m c (0x1100 + 512 * l.slot) (pendFields l seq l.st)).getD (stopCtx m c 5 none)

/-- The unfenced cores of the guaranteed teams of a context (16 R268; 21 R334). -/
def guaranteedCores (p : Plat) (c : Ctx) : List Nat :=
  (List.range 256).filter (fun i => c.hasTeam (teamOf i) && !p.isFenced i)

/-- Resident slots a block of W warps needs in a partition (04 R75). -/
def slotsNeeded (nW part : Nat) : Nat := (nW + 3 - part) / 4

/-- How often n units fit in a room; without a need, as often as `lim`. -/
def fits (room need lim : Nat) : Nat := if need = 0 then lim else min lim (room / need)

/-- Blocks of a launch that fit at once on a core that holds only the context's vats (16 R268). -/
def seatsOn (m : Mach) (c : Nat) (r : LaunchRec) (core : Nat) : Nat :=
  let vats := m.vats.filter (fun e => e.2.ctx == c && e.2.onCore core)
  let store := Config.localStore - ((vats.filter (fun e => !e.2.acc)).map (fun e => 4096 * e.2.size)).sum
  let tiles := Config.accTiles - ((vats.filter (fun e => e.2.acc)).map (fun e => 4 * e.2.size)).sum
  let slots := (List.range 4).foldl (fun k p => fits 16 (slotsNeeded r.nW p) k) 16
  fits tiles (r.nW * r.na) (fits store (r.locals + 3072 * r.nW * r.nt) slots)

/-- The least of some numbers; 0 for none. -/
def least (xs : List Nat) : Nat := match xs with | [] => 0 | x :: xs => xs.foldl min x

/-- The waves of a launch, or none where nothing of it can be seated (16 R268). -/
def waves (p : Plat) (m : Mach) (c : Nat) (l : Launch) : Option Nat :=
  let cores := guaranteedCores p (m.ctx c)
  let k := least (cores.map (seatsOn m c l.lr))
  let seats := if l.lr.isGang then cores.length * k / l.lr.gang * l.lr.gang else cores.length * k
  if seats = 0 then none else some (cdiv (l.lr.blocks - l.done) seats)

/-- A launch's demand in units of 1 / (850 L) µs under power limit L (16 R268). -/
def demand (p : Plat) (w : Nat) (l : Launch) : Nat := w * l.lr.cost * 2800 + 30 * 850 * p.power

/-- The order of deadline launches: absolute deadline, priority, entry (16 R269). -/
def Launch.before (a b : Launch) : Bool :=
  decide (a.deadline < b.deadline) ||
  (a.deadline == b.deadline && (decide (b.prio < a.prio) || (a.prio == b.prio && decide (a.entered < b.entered))))

/-- Put a launch in its place in the order of R269. -/
def insertLaunch (l : Launch) : List Launch → List Launch
  | [] => [l]
  | x :: xs => if l.before x then l :: x :: xs else x :: insertLaunch l xs

/-- The checks of R269 along the order, with the demand of the launches before. -/
def admissible (p : Plat) (m : Mach) (c : Nat) : Nat → List Launch → Bool
  | _, [] => true
  | sum, l :: ls =>
    let x := m.ctx c
    match waves p m c l with
    | none => false
    | some w =>
      let sum := sum + demand p w l
      let t := l.deadline - m.ns - (x.period - x.share) * 1024000
      decide (sum * x.period * 1000 ≤ x.share * t * 850 * p.power) && admissible p m c sum ls

/-- The greatest timestamp of the writes into some bound generations (20 R324). -/
def gensTime (x : Ctx) (gens : List (Nat × Nat)) : Nat :=
  gens.foldl (fun t g => max t ((((Map.find? x.wsets g.1).bind (fun w => Map.find? w.gens g.2)).map (fun y => y.pts)).getD 0)) 0

/-- Admission of a launch that has become ready (16 R269), with the generations it binds (20 R320): its accesses come after every write
into them (20 R324). -/
def becomeReady (p : Plat) (m : Mach) (c seq : Nat) : Mach :=
  let m : Mach := m.tickOn
  let x := m.ctx c
  let l := m.launch c seq
  let l : Launch := { l with st := 2, deadline := if l.lr.deadline = 0 then 0 else m.ns + 1000 * l.lr.deadline,
                             gens := x.wsets.filterMap (fun s => s.2.cur.map (fun g => (s.1, g))) }
  let l : Launch := { l with pts := max l.pts (gensTime x l.gens) }
  let rivals : List Launch := (x.pend.map (·.2)).filter (fun y => y.st == 2 && y.lr.deadline != 0)
  let order := insertLaunch l (rivals.foldl (fun a y => insertLaunch y a) [])
  if l.lr.deadline = 0 ∨ admissible p m c 0 order = true then
    pendWrite (m.updLaunch c seq (fun _ => l)) c seq
  else failLaunch m c seq 12

/-- Is every nonzero dependency met (16 R263)? -/
def Launch.depsMet (l : Launch) : Bool := (l.lr.deps.zipIdx).all (fun d => d.1 == 0 || l.met.contains d.2)

/-- Translate the signals of a launch that has entered the pending set (16 R263): it fails, waits for service, or goes on. -/
def checkSignals (p : Plat) (m : Mach) (c seq : Nat) : Mach :=
  let l := m.launch c seq
  let rs := l.lr.signals.map (fun h => (h, signalPlace m c (m.ctx c).world h))
  if rs.any (fun r => match r.2 with | .error none => true | _ => false) then failLaunch m c seq 1
  else
    let misses := rs.filterMap (fun r => match r.2 with | .error (some (va, size)) => some (r.1, va, size) | _ => none)
    if misses.isEmpty then
      let m := m.updLaunch c seq (fun l => { l with ready := true })
      if l.depsMet then becomeReady p m c seq else m
    else misses.foldl (fun m x =>
      let r := deviceMiss m c x.1 x.2.1 x.2.2
      match r.2 with
      | some rec_ => r.1.updLaunch c seq (fun l => { l with svc := l.svc ++ [rec_] })
      | none => r.1) m

/-- A launch whose failure step waits (16 R263) tries again, unless a record of its signal's page is still unserviced. -/
def retryFailure (m : Mach) (c seq : Nat) : Mach :=
  let l := m.launch c seq
  match l.failing with
  | none => m
  | some st =>
    if l.svc.any (fun r => (Map.find? (m.ctx c).services r).isSome) then m
    else match signalPlace m c (m.ctx c).world l.lr.done with
      | .error (some (va, size)) =>
        let r := deviceMiss m c l.lr.done va size
        r.1.updLaunch c seq (fun l => { l with svc := r.2.toList })
      | .error none => if l.ready then (stopCtx m c 5 none).dropLaunch c seq else m.dropLaunch c seq
      | .ok _ => takeFailure m c seq st

/-- The launches of a context whose failure steps wait try again. -/
def retryFailures (m : Mach) (c : Nat) : Mach :=
  ((m.ctx c).pend.filter (fun e => e.2.failing.isSome)).foldl (fun m e => retryFailure m c e.1) m

/-- The lowest free slot of a context's pending set (16 R265). -/
def freePending (x : Ctx) : Option Nat := (List.range 64).find? (fun i => !x.pend.any (fun e => e.2.slot == i))

/-- A record enters the pending set (16 R265), in the slot given: it gets its identifier, and fails at once if it is malformed (16
R262). Its blocks' accesses come after a timestamp, and after the write of the record that they find (10 R198). -/
def enterPending (p : Plat) (m : Mach) (c : Nat) (raw : List Byte) (r : LaunchRec) (src slot pts : Nat) (bad : Bool) : Mach :=
  let x := m.ctx c
  let seq := x.nextSeq
  let l : Launch :=
    { lr := r, raw := raw, prio := r.prio % 4, src := src, st := 1, met := [], deadline := 0, next := 0, done := 0, again := [], rolled := [],
      slot := slot, entered := seq, patience := false, bound := none, gens := [], ready := false, svc := [],
      pts := pts, failing := none }
  let m := (m.updCtx c (fun x => { x with pend := Map.ins x.pend seq l, nextSeq := seq + 1 })).count c 56 1
  match imageWrite m c (0x1000 + 512 * slot) raw with
  | none => stopCtx m c 5 none
  | some m =>
    let m := (pendWrite m c seq).updLaunch c seq (fun l => { l with pts := max l.pts (imageTime m c (0x1000 + 512 * slot) 256) })
    if bad then failLaunch m c seq 1 else checkSignals p m c seq

/-- The 256 bytes of a record that an instruction reads, in 16-byte parts, after the checks of R172 (16 LAUNCH, ARM). -/
def readRecord (m : Mach) (bk : Nat) (f : FaultInfo) (h off : Nat) (pail : List Held) : Except Stop (List Byte) := do
  discard (places m bk f h .record .read 0 256 256 [(0, off)])
  let parts ← (List.range 16).mapM (fun i => places m bk f h .record .read 0 16 16 [(0, off + 16 * i)])
  return parts.flatten.flatMap (fun l => m.loadBytes (if l.2.kind = 1 ∨ l.2.kind = 3 ∨ l.2.kind = 9 then pail else []) l.2.key 16)

/-- What the shared checks need to know of LAUNCH. -/
def launchReq (x : FABC) : Req :=
  { instr := .launch x, sc := 1, cls := 3, srcs := [x.b.toNat, x.c.toNat], moves := true }

/-- LAUNCH (16): the pail is committed before the record is read. -/
def launchBody (x : FABC) (p : Plat) (m : Mach) (ms : List Nat) : Except Stop Mach := do
  let q := launchReq x
  let k := ms.headD 0
  let w := m.warp k
  let bk := w.block
  let b := m.block bk
  let h := (w.getS x.b.toNat).toNat
  let off := (w.getS x.c.toNat).toNat
  discard (readRecord m bk (m.fault k 1 .handle) h off [])
  if let some st := mustStall m 3 x.a.toNat ms then throw st
  if w.trap.isSome then
    return issueOp q 3 x.a.toNat false (.launch 0) (some 8) (commit m k) ms
  match freePending (m.ctx b.ctx) with
  | none => throw (.wait .queue)
  | some slot =>
    let m := commit m k
    let raw ← readRecord m bk (m.fault k 1 .handle) h off []
    let r := LaunchRec.ofBytes raw
    let bad ← malformed m b.ctx b.world r
    let m := issueOp q 3 x.a.toNat false (.launch (m.ctx b.ctx).nextSeq) none m ms
    return enterPending p m b.ctx raw r 1 slot (m.warp k).pts bad

/-- LAUNCH as an instruction of the current warp. -/
def execLaunch (x : FABC) (s : State) : Host.Outcome State Fault Refusal :=
  issueTo (launchReq x) (launchBody x s.p) s

/-- What the shared checks need to know of ARM. -/
def armReq (x : FABC) : Req :=
  { instr := .arm x, sc := 1, cls := 3, srcs := [x.b.toNat, x.c.toNat, x.c.toNat + 1], dsts := [x.a.toNat] }

/-- ARM (16 R266): the record is read through the pail. -/
def armBody (x : FABC) (m : Mach) (ms : List Nat) : Except Stop Mach := do
  let k := ms.headD 0
  let w := m.warp k
  let bk := w.block
  let b := m.block bk
  let cx := m.ctx b.ctx
  let tag := (w.getS x.b.toNat).toNat
  let raw ← readRecord m bk (m.fault k 1 .handle) (w.getS x.c.toNat).toNat (w.getS (x.c.toNat + 1)).toNat
    (if b.holding then b.pail else [])
  let r := LaunchRec.ofBytes raw
  if w.trap.isSome then return m.answer k x.a.toNat 8
  let bad ← malformed m b.ctx b.world r
  if bad ∨ r.flags / 16 % 2 = 0 ∨ 65536 ≤ tag then return m.answer k x.a.toNat 1
  if (Map.find? cx.arms tag).isSome then return m.answer k x.a.toNat 5
  if 256 ≤ cx.arms.length then return m.answer k x.a.toNat 9
  return (m.updCtx b.ctx (fun c => { c with arms := Map.ins c.arms tag raw })).answer k x.a.toNat 0

/-- ARM as an instruction of the current warp. -/
def execArm (x : FABC) := issue (armReq x) (armBody x)

/-- What the shared checks need to know of DISARM. -/
def disarmReq (x : FAB) : Req :=
  { instr := .disarm x, sc := 1, cls := 3, srcs := [x.b.toNat], dsts := [x.a.toNat] }

/-- DISARM (16 R266). -/
def disarmBody (x : FAB) (m : Mach) (ms : List Nat) : Except Stop Mach :=
  let k := ms.headD 0
  let w := m.warp k
  let c := m.ctxOf k
  let tag := (w.getS x.b.toNat).toNat
  if w.trap.isSome then .ok (m.answer k x.a.toNat 8)
  else if 65536 ≤ tag then .ok (m.answer k x.a.toNat 1)
  else if (Map.find? (m.ctx c).arms tag).isNone then .ok (m.answer k x.a.toNat 6)
  else .ok ((m.updCtx c (fun c => { c with arms := Map.del c.arms tag })).answer k x.a.toNat 0)

/-- DISARM as an instruction of the current warp. -/
def execDisarm (x : FAB) := issue (disarmReq x) (disarmBody x)

/-- Write a 64-bit value to an even pair of scalars (02 R23). -/
def Mach.answer64 (m : Mach) (k a x : Nat) : Mach := (m.answer k a x).answer k (a + 1) (x / 2 ^ 32)

/-- What the shared checks need to know of CLK. -/
def clkReq (x : FAB) : Req :=
  { instr := .clk x, sc := 1, cls := 3, dsts := [x.a.toNat, x.a.toNat + 1] }

/-- CLK (16 R283): one reading of a clock, whose advance since the last one is free (log 4). -/
def clkBody (x : FAB) (m : Mach) (ms : List Nat) : Except Stop Mach :=
  let m := m.tickOn
  .ok (m.answer64 (ms.headD 0) x.a.toNat (if x.b = 0 then m.clk else m.ns))

/-- CLK as an instruction of the current warp. -/
def execClk (x : FAB) := issue (clkReq x) (clkBody x)

/-- The teams of a context's thread: guaranteed and margin (16 R267; 20 R310). -/
def Ctx.allTeams (c : Ctx) : Word := c.teams ||| c.margin

/-- The running contexts whose threads wait for teams that context c holds (16 R273). -/
def competitors (m : Mach) (c : Nat) : List Nat :=
  let x := m.ctx c
  (m.ctxs.filter (fun e => e.1 != c && e.2.st == 1 && !e.2.holds && e.2.allTeams &&& x.allTeams != 0)).map (·.1)

/-- A slice in ns, and in clocks (16 R267, R276). -/
def sliceNs : Nat := 1024000
def sliceClocks : Nat := 870400

/-- The period a context is in, by the number of slices since device time 0 (16 R267; 20 R312). -/
def Ctx.cycleAt (x : Ctx) (ns : Nat) : Nat := ns / sliceNs / x.period

/-- The slices a context has still to hold in its period (16 R267). -/
def Ctx.due (x : Ctx) (ns : Nat) : Nat := if x.cycle = x.cycleAt ns then x.share - x.used else x.share

/-- The end of a context's period in slices. -/
def Ctx.cycleEnd (x : Ctx) (ns : Nat) : Nat := (x.cycleAt ns + 1) * x.period

/-- Which of some contexts the executive runs next: one with slices still due in its period, the earliest end of a period first,
then the longest-waiting share; without one, the first (DESIGN CHOICE, log 18: the spec lets it place the slices anywhere). -/
def nextThread (m : Mach) (cs : List Nat) : Option Nat :=
  match minBy (fun c => (m.ctx c).cycleEnd m.ns) (cs.filter (fun c => (m.ctx c).due m.ns != 0)) with
  | some c => some c
  | none => cs.head?

/-- A slice begins for a context (16 R273, R280; 20 R312): it lasts to the next multiple of 1,024 µs, shortened by debt, which is
paid with it, and lengthened by compensation. -/
def startSlice (m : Mach) (c : Nat) : Mach :=
  m.updCtx c (fun x =>
    let left := (m.ns / sliceNs + 1) * sliceNs - m.ns
    let paid := min x.debt (left * 850 / 1000)
    { x with sliceEnd := m.ns + left - paid * 1000 / 850 + x.comp * 1000 / 850, debt := x.debt - paid, comp := 0 })

/-- A slice of a context is over: it counts in the period it began in (16 R273). -/
def countSlice (ns : Nat) (x : Ctx) : Ctx :=
  let now := x.cycleAt (ns - 1)
  { x with used := if x.cycle = now then x.used + 1 else 1, cycle := now }

/-- The slice of a context ends at a YIELD (16 R274): the cores choose at the SLICE_END that follows. -/
def endSlice (m : Mach) (c : Nat) : Mach := m.updCtx c (fun x => { x with ask := if x.ask = 0 then 3 else x.ask })

/-- What the shared checks need to know of YIELD. -/
def yieldReq : Req :=
  { instr := .yield, sc := 1 }

/-- YIELD (16 R274): one that comes after the posted deadline has passed leaves it to its expiry. -/
def yieldBody (m : Mach) (ms : List Nat) : Except Stop Mach :=
  let k := ms.headD 0
  let c := m.ctxOf k
  if (m.warp k).trap.isSome then .ok m
  else match (m.ctx c).yieldDl with
    | some t => .ok (if m.ns ≤ t then ((endSlice m c).count c 61 1).updCtx c (fun x => { x with yieldDl := none }) else m)
    | none => .ok (if (competitors m c).isEmpty then m else endSlice m c)

/-- YIELD as an instruction of the current warp. -/
def execYield := issue yieldReq yieldBody

end Sys2Proof.Machine
end

