-- ==== Sys2Proof/Machine/System.lean ====
section
/-!
DEFINITION. TRAP, BRK, SRD, SWR and TRET (18), and SAMPLE (21 R345).
-/

namespace Sys2Proof.Machine

/-- Retire an instruction and enter trap mode behind it (18 TRAP, BRK): TPC is the next word, and TCLASS that of the
instruction's clause. -/
def trapAfter (q : Req) (m : Mach) (k : Nat) (f : FaultInfo) : Mach :=
  let tcl := tclass (m.warp k) f.sc 0 0
  (takeTrap (retire q m [k]) k f).updWarp k (fun w => { w with tclass := tcl })

/-- What the shared checks need to know of TRAP. -/
def trapReq (x : FTRAP) : Req :=
  { instr := .trap x, sc := x.sc.toNat, cls := 3 }

/-- TRAP (18): in trap mode it stops the context (R288). -/
def trapBody (x : FTRAP) (m : Mach) (ms : List Nat) : Except Stop Mach :=
  let q := trapReq x
  let k := ms.headD 0
  let f := { m.fault k q.sc .trapi with tpc := (m.warp k).path.pc + 4, tinfo := x.code.setWidth 32 }
  if (m.warp k).trap.isSome then .error (.trap f) else .ok (trapAfter q m k f)

/-- TRAP as an instruction of the current warp. -/
def execTrap (x : FTRAP) := issueTo (trapReq x) (trapBody x)

/-- Is the header's debugger flag set (18 R296)? -/
def debugged (m : Mach) (c : Nat) : Bool := (m.hdr c 0x3F 1).testBit 1

/-- What the shared checks need to know of BRK. -/
def brkReq (x : FBRK) : Req :=
  { instr := .brk x, sc := 1, cls := 3 }

/-- BRK (18): with a debugger attached the warp is held behind it, and does not enter trap mode. -/
def brkBody (x : FBRK) (m : Mach) (ms : List Nat) : Except Stop Mach :=
  let q := brkReq x
  let k := ms.headD 0
  let f := { m.fault k 1 .brk with tpc := (m.warp k).path.pc + 4, tinfo := x.code.setWidth 32 }
  if (m.warp k).trap.isSome then .error (.trap f)
  else if debugged m (m.ctxOf k) then
    let m := debugHold m k false f
    .ok (if (m.warp k).run = .debug then retire q m ms else m)
  else .ok (trapAfter q m k f)

/-- BRK as an instruction of the current warp. -/
def execBrk (x : FBRK) := issueTo (brkReq x) (brkBody x)

/-- Records from an innermost one outwards. -/
def recordDepth (w : Warp) : Nat → Option Nat → Nat
  | 0, _ => 0
  | _, none => 0
  | n + 1, some i => match Map.find? w.recs i with
    | none => 0
    | some r => recordDepth w n r.parent + 1

/-- PATHINFO (05 R107). -/
def pathInfo (w : Warp) : Nat :=
  min 0xFFFF w.demot * 65536 + min 255 (recordDepth w w.recs.length w.path.inner) * 256 +
    min 255 ((w.recs ++ (w.trap.map (fun t => t.recs)).getD []).filter (fun e => e.2.spilled)).length

/-- GANGINFO (04 R82). -/
def gangInfo (b : Block) : Nat :=
  if b.lr.isGang then b.lr.gclass * 65536 + b.lr.gang * 256 + b.gangIndex else 0

/-- TSP (18 R291): the trap area handle and the area index. -/
def tspWord (m : Mach) (k : Nat) : Nat :=
  let w := m.warp k
  let b := m.blockOf k
  m.hdr b.ctx 0x3C 2 * 2 ^ 20 + 64 * b.core + 16 * (w.idx % 4) + w.slot

/-- SLICELEFT (16 R274): all ones while no competitor waits. -/
def sliceLeft (m : Mach) (c : Nat) : Nat :=
  if (competitors m c).isEmpty then 0xFFFFFFFF else min 0xFFFFFFFF (((m.ctx c).sliceEnd - m.ns) / 1000)

/-- YIELDDL (16 R274): the µs until the posted deadline. -/
def yieldDl (m : Mach) (c : Nat) : Nat :=
  match (m.ctx c).yieldDl with
  | none => 0
  | some t => min 0xFFFFFFFF ((t - m.ns) / 1000)

/-- The content of special register n (18 R291). -/
def srRead (m : Mach) (k n : Nat) : Nat :=
  let w := m.warp k
  let b := m.blockOf k
  match n with
  | 0 => m.clk % 2 ^ 32
  | 1 => m.clk / 2 ^ 32 % 2 ^ 32
  | 2 => m.ns % 2 ^ 32
  | 3 => m.ns / 2 ^ 32 % 2 ^ 32
  | 4 => w.fmode.toNat
  | 5 => w.fflags.toNat
  | 6 => b.core
  | 7 => b.ctx + (m.ctx b.ctx).fn * 256
  | 8 => b.world
  | 9 => (warpSlot b w).toNat
  | 10 => w.pts % 2 ^ 32
  | 11 => m.epoch % 2 ^ 16 * 65536 + w.pts / 2 ^ 32 % 2 ^ 16
  | 12 => (setInfo m k w.set).2.toNat
  | 13 => pathInfo w
  | 14 => yieldDl m b.ctx
  | 15 => sliceLeft m b.ctx
  | 16 => gangInfo b
  | 17 => (launchId b).toNat
  | 32 => w.tcause.toNat
  | 33 => w.tpc.toNat
  | 34 => w.taddr.toNat
  | 35 => w.tinfo.toNat
  | 36 => w.tmask.toNat
  | 37 => w.tset.toNat
  | 38 => w.tclass.toNat
  | 39 => tspWord m k
  | _ => 0

/-- What the shared checks need to know of SRD. -/
def srdReq (x : FAB) : Req :=
  { instr := .srd x, sc := 1, cls := 3, dsts := [x.a.toNat] }

/-- SRD (18): a reading of a clock finds it advanced (log 4). -/
def srdBody (x : FAB) (m : Mach) (ms : List Nat) : Except Stop Mach :=
  let k := ms.headD 0
  let n := x.b.toNat
  let m := if n ≤ 3 ∨ n = 14 ∨ n = 15 then m.tickOn else m
  .ok (m.answer k x.a.toNat (srRead m k n))

/-- SRD as an instruction of the current warp. -/
def execSrd (x : FAB) := issue (srdReq x) (srdBody x)

/-- SWR's checks after the number's (18 SWR): read-only registers, reserved bits (02 R25), a misaligned TPC. -/
def swrFault (m : Mach) (k n : Nat) (v : Word) : Option FaultInfo :=
  let f := { m.fault k 1 .perm with tinfo := BitVec.ofNat 32 (5 * 4096) }
  if n ≠ 4 ∧ n ≠ 5 ∧ n ≠ 33 then some f
  else if (n = 4 ∧ bits v 31 2 ≠ 0) ∨ (n = 5 ∧ bits v 31 5 ≠ 0) then some { f with cause := .illegal }
  else if n = 33 ∧ bits v 1 0 ≠ 0 then some { f with cause := .align }
  else none

/-- Write FMODE, FFLAGS or TPC. -/
def srWrite (n : Nat) (v : Word) (w : Warp) : Warp :=
  match n with
  | 4 => { w with fmode := v }
  | 5 => { w with fflags := v }
  | _ => { w with tpc := v, trap := w.trap.map (fun (t : TrapSt) => { t with tpcWritten := true }) }

/-- What the shared checks need to know of SWR. -/
def swrReq (x : FAB) : Req :=
  { instr := .swr x, sc := 1, cls := 3, srcs := [x.a.toNat] }

/-- SWR (18). -/
def swrBody (x : FAB) (m : Mach) (ms : List Nat) : Except Stop Mach :=
  let q := swrReq x
  let k := ms.headD 0
  let n := x.b.toNat
  let v := (m.warp k).getS x.a.toNat
  let ill := { m.fault k 1 .illegal with tinfo := word1 q.instr }
  match swrFault m k n v with
    | some f => .error (.trap (if f.cause = .illegal then ill else f))
    | none => .ok (m.updWarp k (srWrite n v))

/-- SWR as an instruction of the current warp. -/
def execSwr (x : FAB) := issue (swrReq x) (swrBody x)

/-- Every live lane of every warp of a block exits at once (18 R289): no signature of a member stands any more. -/
def exitBlock (m : Mach) (bk : Nat) : Mach :=
  (m.liveOf bk).foldl exitWarp (m.updWarps (m.liveOf bk) (fun _ w => { w with sig := none }))

/-- TRET's mode takes effect (18 R289). -/
def tretMode (m : Mach) (k : Nat) (mode : Word) : Mach :=
  if mode = 0 then trapResume m k
  else if mode = 1 then exitWarp m k
  else if mode = 2 then exitBlock m (m.warp k).block
  else stopCtx m (m.ctxOf k) (if mode = 3 then 3 else 4) none

/-- What the shared checks need to know of TRET. -/
def tretReq (x : FOA) : Req :=
  { instr := .tret x, sc := 1, cls := 3, srcs := [x.a.toNat] }

/-- TRET (18 R289): while the core is frozen it waits, since nothing issues (21 R331). -/
def tretBody (x : FOA) (m : Mach) (ms : List Nat) : Except Stop Mach :=
  let q := tretReq x
  let k := ms.headD 0
  .ok (tretMode (m.updWarp k (retireWarp q true)) k ((m.warp k).getS x.a.toNat))

/-- TRET as an instruction of the current warp. -/
def execTret (x : FOA) := issueTo (tretReq x) (tretBody x)

/-- What the shared checks need to know of SAMPLE. -/
def sampleReq (x : FABC) : Req :=
  { instr := .sample x, sc := 1, cls := 3, srcs := [x.b.toNat, x.c.toNat], dsts := [x.a.toNat], moves := true }

/-- SAMPLE (21 R345): the record is an operation of class 0 that waits for its data. -/
def sampleBody (x : FABC) (m : Mach) (ms : List Nat) : Except Stop Mach := do
  let q := sampleReq x
  let k := ms.headD 0
  let w := m.warp k
  let bk := w.block
  let f := m.fault k 1 .handle
  let h := (w.getS x.b.toNat).toNat
  let off := w.getS x.c.toNat
  let e ← bulkHandle m bk f h
  bufferChecks (m.block bk) f h off.toNat 64 64 2 e
  bufferPages m bk f h off.toNat 64 .write e
  if w.trap.isSome then return retire q (m.answer k x.a.toNat 8) ms
  if w.sample.isSome then return retire q (m.answer k x.a.toNat 7) ms
  if let some st := mustStall m 0 0 ms then throw st
  let m := (commit m k).updWarp k (fun w => { w with sample := some (h, off) })
  return issueOp q 0 0 false (.sample h off.toNat e []) none (m.answer k x.a.toNat 0) ms

/-- SAMPLE as an instruction of the current warp. -/
def execSample (x : FABC) := issueTo (sampleReq x) (sampleBody x)

end Sys2Proof.Machine
end

