-- ==== Sys2Proof/Machine/Image.lean ====
section
/-!
DEFINITION. Block records and warp records of the context image (18 R297 to R300; 05 R106): what a save writes, the checks
of a restore, and what a restore reads back. What the records do not hold comes back from the saved warp itself (log 15).
-/

namespace Sys2Proof.Machine

/-- Fields at offsets, laid over n zero bytes. -/
def overlay (n : Nat) (fs : List (Nat × List Byte)) : List Byte :=
  fs.foldl (fun bs f => bs.take f.1 ++ f.2 ++ bs.drop (f.1 + f.2.length)) (List.replicate n 0)

/-- Cut bytes into pieces of 128. -/
def pieces : Nat → Nat → List Byte → List (Nat × List Byte)
  | 0, _, _ => []
  | n + 1, off, bs => if bs.isEmpty then [] else (off, bs.take 128) :: pieces n (off + 128) (bs.drop 128)

/-- The numbers of a warp's records in the order in which the image holds them: those in the slot, then those in spill. -/
def recOrder (w : Warp) : List Nat :=
  (w.recs.filter (fun e => !e.2.spilled)).map (·.1) ++ (w.recs.filter (fun e => e.2.spilled)).map (·.1)

/-- The index by which the image names a record: its place in that order (05 R106; DESIGN CHOICE, log 31). -/
def recIndex (w : Warp) : Option Nat → Nat
  | none => 0xFFFF
  | some i => ((recOrder w).idxOf? i).getD 0xFFFF

/-- The state code of a path. -/
def PathState.code : PathState → Nat
  | .runnable => 0 | .atJoin => 1 | .atRet => 2 | .atWarp => 3

/-- A path entry (05 R106). -/
def pathBytes (w : Warp) (p : Path) (rot : Nat) : List Byte :=
  bytesOfNat 4 p.pc.toNat ++ bytesOfNat 4 p.mask.toNat ++ bytesOfNat 2 (recIndex w p.inner) ++
    bytesOfNat 2 (min 0xFFFF p.dem) ++ bytesOfNat 2 p.st.code ++ bytesOfNat 2 rot

/-- A record (05 R106). -/
def recBytes (w : Warp) (r : Rec) : List Byte :=
  bytesOfNat 4 r.addr.toNat ++ bytesOfNat 4 r.entry.toNat ++ bytesOfNat 4 r.arrival.toNat ++
    bytesOfNat 2 (recIndex w r.parent) ++ bytesOfNat 2 (if r.call then 2 else 1)

/-- The paths and records of the interrupted program. -/
def Warp.frozen (w : Warp) : Warp :=
  match w.trap with
  | none => w
  | some t => { w with paths := t.paths, recs := t.recs, trap := none }

/-- The flags byte of a control line (18 R298). -/
def controlFlags (w : Warp) (restoreDue : Bool) : Nat :=
  (w.run == .exited).toNat + 2 * w.trap.isSome.toNat + 4 * (w.run == .suspended).toNat +
    8 * (match w.run with | .held _ _ _ => 1 | _ => 0) + 16 * restoreDue.toNat

/-- The control line (18 R298). -/
def controlLine (m : Mach) (k : Nat) (restoreDue : Bool) : List Byte :=
  let w := m.warp k
  let b := m.blockOf k
  let z := w.frozen
  let off := tileSaveOff m w.block w.idx
  let hdr := (z.path.clause.map (·.hdr)).getD z.path.pc
  let trapPc := if w.trap.isSome then w.path.pc else 0
  let trapHdr := if w.trap.isSome then (w.path.clause.map (·.hdr)).getD w.path.pc else 0
  let resident := (z.paths.filter (fun p => !p.spilled)).length
  let recs := (z.recs.filter (fun e => !e.2.spilled)).length
  overlay 128
    [(0, bytesOfNat 2 b.lr.code), (2, bytesOfNat 1 (controlFlags w restoreDue)), (3, bytesOfNat 1 (w.set.getD 0xFF)),
     (4, bytesOfNat 1 w.nv ++ bytesOfNat 1 w.nt ++ bytesOfNat 2 w.na), (8, bytesOfNat 6 w.pts ++ bytesOfNat 2 m.epoch),
     (0x10, wordBytes ((rangeFrom 1 7).map w.getP)), (0x2C, wordBytes [w.live, w.fmode, w.fflags]),
     (0x38, bytesOfNat 4 ((List.range 4).map (fun c => w.counter c * 64 ^ c)).sum), (0x3C, wordBytes [hdr]),
     (0x40, wordBytes [w.tcause, w.tpc, w.taddr, w.tinfo, w.tmask, w.tset, w.tclass]),
     (0x5C, wordBytes [trapPc, trapHdr]), (0x64, bytesOfNat 4 off ++ bytesOfNat 4 (accSaveOff m k)),
     (0x6C, bytesOfNat 1 resident ++ bytesOfNat 1 recs ++ bytesOfNat 2 (spillBytes z / 16) ++ bytesOfNat 2 (min 0xFFFF w.demot)),
     (0x72, bytesOfNat 1 w.sample.isSome.toNat),
     (0x74, bytesOfNat 2 (w.sample.getD (0, 0)).1 ++ bytesOfNat 4 (w.sample.getD (0, 0)).2.toNat)]

/-- An entry of the futures line (18 R298); a consumed future has register 0xFFFF. -/
def futureBytes (w : Warp) (e : Nat) : List Byte :=
  match Map.find? w.futs e with
  | none => [0, Map.get w.gens e] ++ bytesOfNat 6 0
  | some f => [if f.status.isSome then 2 else 1, Map.get w.gens e] ++ bytesOfNat 1 f.cls ++ bytesOfNat 1 (f.status.getD 0) ++
      bytesOfNat 2 (f.reg.getD 0xFFFF) ++ bytesOfNat 2 0

/-- The path debug area: the entry of each path's lowest lane (18 R298; 21 R342). -/
def debugArea (w : Warp) : List Byte :=
  (List.range 32).flatMap (fun i =>
    match w.paths.find? (fun p => lowest p.mask == i) with
    | none => bytesOfNat 8 0
    | some p => bytesOfNat 2 p.ord ++ bytesOfNat 2 0 ++ bytesOfNat 4 p.cnt)

/-- A warp record without its spill area, 0x1D80 bytes (18 R298). -/
def warpRecord (m : Mach) (k : Nat) (restoreDue : Bool) : List Byte :=
  let w := m.warp k
  let z := w.frozen
  let paths := (z.paths.zipIdx).filter (fun p => !p.1.spilled)
  let recs := z.recs.filter (fun e => !e.2.spilled)
  overlay 0x1D80
    [(0, controlLine m k restoreDue), (0x80, (List.range 16).flatMap (futureBytes w)),
     (0x100, (List.range 16).flatMap (fun t => bytesOfNat 1 (w.tile t).word)), (0x180, if w.trap.isSome then w.lineBytes 50 else []),
     (0x200, w.lineBytes 48 ++ w.lineBytes 49),
     (0x300, paths.flatMap (fun p => pathBytes z p.1 p.2)), (0x400, recs.flatMap (fun e => recBytes z e.2)),
     (0x480, (List.range 48).flatMap w.lineBytes), (0x1C80, debugArea z)]

/-- The spilled paths and records of a warp, in the spill area (05 R106). -/
def spillArea (w : Warp) : List Byte :=
  let z := w.frozen
  ((z.paths.zipIdx).filter (fun p => p.1.spilled)).flatMap (fun p => pathBytes z p.1 p.2) ++
    (z.recs.filter (fun e => e.2.spilled)).flatMap (fun e => recBytes z e.2)

/-- A rendezvous register (18 R297; 04 R86). -/
def rendezvousBytes (m : Mach) (bk y : Nat) : List Byte :=
  let signed := (m.liveOf bk).filter (fun j => (m.warp j).sig.any (fun s => s.y == y))
  match signed with
  | [] => bytesOfNat 16 0
  | j :: _ =>
    let s := (m.warp j).sig.getD { y := 0, code := 0, pc := 0 }
    bytesOfNat 4 (m.idxMask signed).toNat ++ bytesOfNat 2 s.code ++ bytesOfNat 2 0 ++ bytesOfNat 4 s.pc.toNat ++ bytesOfNat 4 0

/-- The first 0x200 bytes of a block record (18 R297). -/
def blockRecord (m : Mach) (bk : Nat) (saved : Bool) : List Byte :=
  let b := m.block bk
  let flags := (blockComplete m bk).toNat + 2 * b.lr.restartable.toNat + 4 * b.committed.toNat + 8 * b.lr.isGang.toNat +
    16 * saved.toNat
  let set (i : Nat) : List Byte :=
    let x := b.set i
    bytesOfNat 1 x.st ++ bytesOfNat 1 x.size ++ bytesOfNat 1 x.departed ++ bytesOfNat 1 0 ++ bytesOfNat 4 x.members.toNat
  overlay 0x200
    [(0, wordBytes [launchId b] ++ bytesOfNat 4 b.flat ++ bytesOfNat 4 flags),
     (0x0C, bytesOfNat 1 b.lr.nW ++ bytesOfNat 1 b.slot ++ bytesOfNat 2 b.gbars), (0x10, bytesOfNat 8 b.charged),
     (0x18, bytesOfNat 4 b.lr.locals ++ bytesOfNat 4 (pailSectors b.pail)),
     (0x20, bytesOfNat 4 (scratchOff b) ++ bytesOfNat 4 (pailOff b)),
     (0x40, (List.range 9).flatMap (rendezvousBytes m bk)), (0xD0, (List.range 8).flatMap set),
     (0x180, (List.range b.lr.nW).flatMap (fun i => bytesOfNat 4 (warpRecordOff b i)))]

/-- The pail entry of a sector, of which these are the held stores (18 R297): its bytes as the pail leaves them. -/
def pailEntry (pail xs : List Held) : List Byte :=
  let x := xs.headD default
  let o := x.off / 64 * 64
  let held (i : Nat) : Option Byte :=
    (xs.find? (fun h => decide (h.off ≤ o + i) && decide (o + i < h.off + h.bytes.length))).bind (fun h => heldByte pail (h.key + (o + i - h.off)))
  let mask := ((List.range 64).map (fun i => (held i).isSome.toNat * 2 ^ i)).sum
  overlay 96
    [(0, bytesOfNat 2 x.h), (4, bytesOfNat 4 o), (8, bytesOfNat 8 mask), (0x10, (List.range 64).map (fun i => (held i).getD 0))]

/-- The pail as the image holds it (18 R297; 10 R201): an entry for each sector, in the order in which the sectors were first stored to.
The stores of a pail are performed consecutively, so that the last bytes of each sector tell all. -/
def pailBytes (pail : List Held) : List Byte :=
  (dedup (pail.map heldSector)).flatMap (fun s => pailEntry pail (pail.filter (fun h => heldSector h == s)))

/-- Is the piece of a warp record at an offset a register line (06 R114)? -/
def isLinePiece (off : Nat) : Bool := (decide (0x180 ≤ off) && decide (off < 0x300)) || (decide (0x480 ≤ off) && decide (off < 0x1C80))

/-- The places of a warp in its block record, for every warp of a block. -/
def warpPlaces (m : Mach) (bk : Nat) : List (Nat × Nat) := (m.warpsOf bk).map (fun e => (e.1, warpRecordOff (m.block bk) e.2.idx))

/-- Step 5 of a save (16 R277): the scratch, and the tiles with their states, by offset from the block record's start. -/
def copyWrites (m : Mach) (bk : Nat) : List (Nat × List Byte) :=
  let b := m.block bk
  (warpPlaces m bk).flatMap (fun e =>
    let w := m.warp e.1
    (e.2 + 0x100, ((warpRecord m e.1 false).drop 0x100).take 128) :: (List.range w.nt).flatMap (fun t =>
      pieces 24 (tileSaveOff m bk w.idx + 3072 * t) (Mem.readN m.mem ((Space.tile e.1 t).key 0) 3072))) ++
  pieces (b.lr.locals / 128 + 1) (scratchOff b) (Mem.readN m.mem ((Space.scratch bk).key 0) b.lr.locals)

/-- What the end of a save writes (16 R277; 18 R297 to R299): everything else but the register lines, which stay in the cache
(06 R117). A warp with accumulator tiles has PREEMPT due at its restore. -/
def saveWrites (m : Mach) (bk : Nat) : List (Nat × List Byte) :=
  let b := m.block bk
  pieces 4 0 (blockRecord m bk true) ++
  (warpPlaces m bk).flatMap (fun e =>
    let w := m.warp e.1
    (pieces 59 0 (warpRecord m e.1 (w.na != 0 && w.isLive && !b.plain))).filterMap (fun x =>
      if isLinePiece x.1 || x.1 == 0x100 then none else some (e.2 + x.1, x.2)) ++
    pieces (b.lr.spill / 128 + 1) (e.2 + 0x1D80) (spillArea w)) ++
  pieces (96 * pailSectors b.pail / 128 + 1) (pailOff b) (pailBytes b.pail)

/-- What the debugger's Dump writes (21 R342): the warp's record with its lines. -/
def dumpWrites (m : Mach) (k : Nat) : List (Nat × List Byte) :=
  let w := m.warp k
  let off := warpRecordOff (m.block w.block) w.idx
  (pieces 59 off (warpRecord m k false)).filter (fun x => w.trap.isSome || x.1 != off + 0x180) ++ pieces 64 (off + 0x1D80) (spillArea w)

/-- Read n bytes of a block record, in pieces of 128; none where a translation or a world tag fails. -/
def recordRead (m : Mach) (bk off n : Nat) : Option (List Byte) :=
  ((List.range (cdiv n 128)).mapM (fun i =>
    (recordPlace m bk (off + 128 * i) .read).map (fun key => Mem.readN m.mem key (min 128 (n - 128 * i))))).map List.flatten

/-- Are n bytes from an offset zero? -/
def zeroAt (bs : List Byte) (off n : Nat) : Bool := natOfBytes ((bs.drop off).take n) == 0

/-- A field of some bytes. -/
def fieldAt (bs : List Byte) (off n : Nat) : Nat := natOfBytes ((bs.drop off).take n)

/-- The reserved fields of a block record (18 R297), and its offsets. -/
def blockRecordOk (b : Block) (bs : List Byte) : Bool :=
  zeroAt bs 0x28 24 && zeroAt bs 0x110 112 && fieldAt bs 8 4 / 32 == 0 &&
  (List.range 9).all (fun y => zeroAt bs (0x46 + 16 * y) 2 && zeroAt bs (0x4C + 16 * y) 4) &&
  (List.range 8).all (fun i => zeroAt bs (0xD3 + 8 * i) 1) &&
  (List.range 32).all (fun i => if i < b.lr.nW then decide (fieldAt bs (0x180 + 4 * i) 4 + 0x1D80 ≤ b.recLen)
    else zeroAt bs (0x180 + 4 * i) 4) &&
  decide (fieldAt bs 0x20 4 + fieldAt bs 0x18 4 ≤ b.recLen) && decide (fieldAt bs 0x24 4 + 96 * fieldAt bs 0x1C 4 ≤ b.recLen)

/-- The reserved fields, the counts and the offsets of a warp record (18 R298, R300). -/
def warpRecordOk (b : Block) (bs : List Byte) : Bool :=
  fieldAt bs 2 1 / 32 == 0 && fieldAt bs 0x38 4 / 2 ^ 24 == 0 && fieldAt bs 0x72 1 / 2 == 0 && zeroAt bs 0x73 1 &&
  zeroAt bs 0x7A 6 && (List.range 16).all (fun e => zeroAt bs (0x86 + 8 * e) 2) &&
  (List.range 16).all (fun t => fieldAt bs (0x100 + t) 1 / 8 == 0) && zeroAt bs 0x110 112 && fieldAt bs 0x30 4 / 4 == 0 && fieldAt bs 0x34 4 / 32 == 0 &&
  (List.range 16).all (fun i => zeroAt bs (0x30D + 16 * i) 1 && zeroAt bs (0x30F + 16 * i) 1) &&
  (List.range 8).all (fun i => zeroAt bs (0x40F + 16 * i) 1) && (List.range 32).all (fun i => zeroAt bs (0x1C82 + 8 * i) 2) &&
  decide (fieldAt bs 4 1 ≤ 48) && decide (fieldAt bs 5 1 ≤ 16) && decide (fieldAt bs 6 2 ≤ 1024) &&
  decide (fieldAt bs 0x6C 1 ≤ 16) && decide (fieldAt bs 0x6D 1 ≤ 8) && decide (16 * fieldAt bs 0x6E 2 ≤ b.lr.spill) &&
  decide (fieldAt bs 0x64 4 + 3072 * fieldAt bs 5 1 ≤ b.recLen) &&
  decide (fieldAt bs 0x68 4 + accSaveLen (fieldAt bs 6 2) ≤ b.recLen)

/-- The reserved fields of a pail entry (18 R297). -/
def pailOk (bs : List Byte) : Bool := zeroAt bs 2 2 && zeroAt bs 0x50 16

/-- The path entries and the records among the entries in spill: the paths come first, until every live lane has its path
(log 31). -/
def spilledPaths (live : Word) : Word → List (List Byte) → Nat
  | _, [] => 0
  | seen, e :: es => if live &&& ~~~ seen = 0 then 0 else spilledPaths live (seen ||| BitVec.ofNat 32 (fieldAt e 4 4)) es + 1

/-- The entries in the slot, and those in spill, of a warp record: 16 bytes each. -/
def entriesAt (bs : List Byte) (off n : Nat) : List (List Byte) := (List.range n).map (fun i => (bs.drop (off + 16 * i)).take 16)

/-- The path entries and the record entries of a warp record and its spill area, those in the slot first. -/
def tableEntries (bs spill : List Byte) : List (Bool × List Byte) × List (Bool × List Byte) :=
  let ps := entriesAt bs 0x300 (min 16 (fieldAt bs 0x6C 1))
  let rs := entriesAt bs 0x400 (min 8 (fieldAt bs 0x6D 1))
  let es := entriesAt spill 0 (fieldAt bs 0x6E 2)
  let seen : Word := ps.foldl (fun a e => a ||| BitVec.ofNat 32 (fieldAt e 4 4)) 0
  let n := spilledPaths (BitVec.ofNat 32 (fieldAt bs 0x2C 4)) seen es
  (ps.map (fun e => (false, e)) ++ (es.take n).map (fun e => (true, e)), rs.map (fun e => (false, e)) ++ (es.drop n).map (fun e => (true, e)))

/-- The reserved bytes of the entries in spill (05 R106). -/
def spillOk (bs spill : List Byte) : Bool :=
  let t := tableEntries bs spill
  t.1.all (fun e => zeroAt e.2 0x0D 1 && zeroAt e.2 0x0F 1) && t.2.all (fun e => zeroAt e.2 0x0F 1)

/-- The record of a warp in its block record, and the spilled entries it counts. -/
def readWarpRecord (m : Mach) (bk k : Nat) : Option (List Byte × List Byte) := do
  let off := warpRecordOff (m.block bk) (m.warp k).idx
  let bs ← recordRead m bk off 0x1D80
  let spill ← recordRead m bk (off + 0x1D80) (16 * fieldAt bs 0x6E 2)
  return (bs, spill)

/-- The pail entries of a block record, at the place and in the number it names. -/
def readPail (m : Mach) (bk : Nat) (blk : List Byte) : Option (List (List Byte)) :=
  (recordRead m bk (fieldAt blk 0x24 4) (96 * fieldAt blk 0x1C 4)).map (fun bs =>
    (List.range (fieldAt blk 0x1C 4)).map (fun i => (bs.drop (96 * i)).take 96))

/-- Does a restore accept the records of a saved block (18 R300)? None where the image cannot be read. -/
def recordsOk (m : Mach) (bk : Nat) : Option Bool := do
  let b := m.block bk
  let blk ← recordRead m bk 0 0x200
  if !blockRecordOk b blk then return false
  let ws ← ((m.warpsOf bk).map (·.1)).mapM (readWarpRecord m bk)
  let pail ← readPail m bk blk
  return ws.all (fun x => warpRecordOk b x.1 && spillOk x.1 x.2) && pail.all pailOk

/-- A path as its entry and its debug entry hold it (05 R106; 18 R298): the clause it stood in and the time it parked come back from
the path that holds its lowest lane, the clause where the pc is the same. -/
def restorePath (bs : List Byte) (ids : List Nat) (old : List Path) (spilled : Bool) (e : List Byte) : Path :=
  let pc := BitVec.ofNat 32 (fieldAt e 0 4)
  let mask := BitVec.ofNat 32 (fieldAt e 4 4)
  let lane := lowest mask
  let was := old.find? (fun p => p.mask.getLsbD lane)
  { pc := pc, mask := mask, inner := ids[fieldAt e 8 2]?, dem := fieldAt e 0x0A 2,
    st := match fieldAt e 0x0C 1 with | 0 => .runnable | 1 => .atJoin | 2 => .atRet | _ => .atWarp,
    clause := was.bind (fun p => if p.pc = pc then p.clause else none), ord := fieldAt bs (0x1C80 + 8 * lane) 2,
    cnt := fieldAt bs (0x1C84 + 8 * lane) 4, turn := 0, spilled := spilled, park := (was.map Path.park).getD 0 }

/-- A record as its entry holds it (05 R106). -/
def restoreRec (ids : List Nat) (spilled : Bool) (e : List Byte) : Rec :=
  { call := fieldAt e 0x0E 1 == 2, addr := BitVec.ofNat 32 (fieldAt e 0 4), entry := BitVec.ofNat 32 (fieldAt e 4 4),
    arrival := BitVec.ofNat 32 (fieldAt e 8 4), parent := ids[fieldAt e 0x0C 2]?, spilled := spilled }

/-- Put an entry in its place by rotation position. -/
def insertRot (x : Nat × Path) : List (Nat × Path) → List (Nat × Path)
  | [] => [x]
  | y :: ys => if x.1 < y.1 then x :: y :: ys else y :: insertRot x ys

/-- The paths and records of a warp as its record holds them (05 R106, R107). The record of index i keeps its number. -/
def restoreTables (bs spill : List Byte) (z : Warp) : Warp :=
  let t := tableEntries bs spill
  let old := recOrder z
  let ids := (List.range t.2.length).map (fun i => old.getD i (z.nextRec + i))
  let paths := (t.1.map (fun e => (fieldAt e.2 0x0E 1, restorePath bs ids z.paths e.1 e.2))).foldl (fun a x => insertRot x a) []
  { z with paths := paths.map (·.2), recs := (ids.zip t.2).foldl (fun l x => Map.ins l x.1 (restoreRec ids x.2.1 x.2.2)) [],
           nextRec := max z.nextRec (z.nextRec + t.2.length) }

/-- A futures table as its line holds it (18 R298): the operation of an entry comes back from the warp. -/
def restoreFutures (bs : List Byte) (w : Warp) : Warp :=
  let at_ (e off n : Nat) : Nat := fieldAt bs (0x80 + 8 * e + off) n
  let one (fs : List (Nat × Fut)) (e : Nat) : List (Nat × Fut) :=
    if at_ e 0 1 = 0 then fs
    else
      let old := (Map.find? w.futs e).getD { op := 0, cls := 0, status := none, reg := none, pts := 0 }
      Map.ins fs e { old with cls := at_ e 2 1, status := if at_ e 0 1 = 2 then some (at_ e 3 1) else none,
                              reg := if at_ e 4 2 = 0xFFFF then none else some (at_ e 4 2) }
  { w with futs := (List.range 16).foldl one [], gens := (List.range 16).foldl (fun l e => Map.set l e (BitVec.ofNat 8 (at_ e 1 1))) w.gens }

/-- A warp as its record holds it (18 R298). Its register lines are filled at their first use (06 R116). -/
def restoreWarp (bs spill : List Byte) (w : Warp) : Warp :=
  let word (off : Nat) : Word := BitVec.ofNat 32 (fieldAt bs off 4)
  let flags := fieldAt bs 2 1
  let z := restoreTables bs spill w.frozen
  let trapPath (p : Path) : Path := { p with pc := word 0x5C, clause := if p.pc = word 0x5C then p.clause else none, turn := 0 }
  let trap : TrapSt := { (w.trap.getD { paths := [], recs := [], tpcWritten := false, debug := false, susp := false, pass := false }) with
    paths := z.paths, recs := z.recs }
  let inTrap : Bool := flags / 2 % 2 == 1
  let nt := fieldAt bs 5 1
  let w := restoreFutures bs w
  { w with
    paths := if inTrap then (match w.paths with | [] => [] | p :: ps => trapPath p :: ps) else z.paths
    recs := if inTrap then w.recs else z.recs
    nextRec := z.nextRec
    trap := if inTrap then some trap else none
    run := if flags % 2 = 1 then .exited else if flags / 4 % 2 = 1 then .suspended else if w.run == .exited || w.run == .suspended then .ready else w.run
    set := if fieldAt bs 3 1 = 0xFF then none else some (fieldAt bs 3 1)
    nv := fieldAt bs 4 1, nt := nt, na := fieldAt bs 6 2
    cnt := (List.range 4).foldl (fun l c => Map.ins l c (fieldAt bs 0x38 4 / 64 ^ c % 64)) w.cnt
    p := (rangeFrom 1 7).foldl (fun p n => Map.set p n (word (0x0C + 4 * n))) w.p
    tiles := (List.range nt).foldl (fun ts t =>
      let x := fieldAt bs (0x100 + t) 1
      Map.ins ts t { w.tile t with st := x % 4, phase := x / 4 % 2 == 1 }) w.tiles
    live := word 0x2C, fmode := word 0x30, fflags := word 0x34, pts := fieldAt bs 8 6, ptsEpoch := fieldAt bs 0x0E 2
    tcause := word 0x40, tpc := word 0x44, taddr := word 0x48, tinfo := word 0x4C, tmask := word 0x50, tset := word 0x54
    tclass := word 0x58, demot := fieldAt bs 0x70 2
    sample := if fieldAt bs 0x72 1 % 2 = 1 then some (fieldAt bs 0x74 2, word 0x76) else none, sig := none }

/-- The entry of a held store's sector among pail entries, if it holds all bytes of the store. -/
def entryOf (entries : List (List Byte)) (h : Held) : Option (List Byte) :=
  entries.find? (fun e => fieldAt e 0 2 == h.h && fieldAt e 4 4 == h.off / 64 * 64 &&
    (List.range h.bytes.length).all (fun i => (fieldAt e 8 8).testBit (h.off % 64 + i)))

/-- A byte of a pail entry that no held store had, with the place its handle and offset name. -/
def newHeld (m : Mach) (bk : Nat) (e : List Byte) (i : Nat) : Option Held :=
  let h := fieldAt e 0 2
  let off := fieldAt e 4 4 + i
  match handleOf m bk default h with
  | .ok (some he) => match place m bk he h .write off 1 1 with
    | .ok l => some { h := h, off := off, key := l.key, bytes := (e.drop (0x10 + i)).take 1 }
    | .error _ => none
  | _ => none

/-- The pail as its entries hold it (18 R297): the held stores come back with the entries' bytes. -/
def restorePail (m : Mach) (bk : Nat) (old : List Held) (entries : List (List Byte)) : List Held :=
  let had (e : List Byte) (i : Nat) : Bool := old.any (fun h => h.h == fieldAt e 0 2 && decide (h.off ≤ fieldAt e 4 4 + i) &&
    decide (fieldAt e 4 4 + i < h.off + h.bytes.length))
  old.filterMap (fun h => (entryOf entries h).map (fun e => { h with bytes := (e.drop (0x10 + h.off % 64)).take h.bytes.length })) ++
    entries.flatMap (fun e => ((List.range 64).filter (fun i => (fieldAt e 8 8).testBit i && !had e i)).filterMap (newHeld m bk e))

/-- A block as its record holds it (18 R297): sets, GBARs, charged clocks, the committed bit and the pail. -/
def restoreBlock (m : Mach) (bk : Nat) (blk : List Byte) (pail : List (List Byte)) (b : Block) : Block :=
  let set (l : List (Nat × SetRec)) (i : Nat) : List (Nat × SetRec) :=
    let at_ := 0xD0 + 8 * i
    Map.ins l i { st := fieldAt blk at_ 1, size := fieldAt blk (at_ + 1) 1, departed := fieldAt blk (at_ + 2) 1,
                  members := BitVec.ofNat 32 (fieldAt blk (at_ + 4) 4) }
  { b with committed := fieldAt blk 8 4 / 4 % 2 == 1, gbars := fieldAt blk 0x0E 2, charged := fieldAt blk 0x10 8,
           sets := (List.range 8).foldl set [], pail := restorePail m bk b.pail pail }

/-- The signatures as the rendezvous registers hold them (18 R297; 04 R86). -/
def restoreSigs (m : Mach) (bk : Nat) (blk : List Byte) : Mach :=
  (List.range 9).foldl (fun m y =>
    let at_ := 0x40 + 16 * y
    let ks := ((m.warpsOf bk).filter (fun e => (BitVec.ofNat 32 (fieldAt blk at_ 4)).getLsbD e.2.idx)).map (·.1)
    m.updWarps ks (fun _ w => { w with sig := some { y := y, code := fieldAt blk (at_ + 4) 2, pc := BitVec.ofNat 32 (fieldAt blk (at_ + 8) 4) } })) m

/-- Read a saved block back from its records (16 R277; 18 R297, R298): all but the register lines. None where the image cannot be
read. The poison marks of its parts and lines stay. -/
def readBack (m : Mach) (bk : Nat) : Option Mach := do
  let blk ← recordRead m bk 0 0x200
  let pail ← readPail m bk blk
  let m ← ((m.warpsOf bk).map (·.1)).foldlM (fun m k => do
    let r ← readWarpRecord m bk k
    let w := restoreWarp r.1 r.2 (m.warp k)
    let tiles ← recordRead m bk (fieldAt r.1 0x64 4) (3072 * w.nt)
    let put (mem : List Host.Cell) (t : Nat) : List Host.Cell :=
      Mem.write mem ((Space.tile k t).key 0) ((tiles.drop (3072 * t)).take 3072)
    return { m with mem := (List.range w.nt).foldl put m.mem }.setWarp k w) m
  let scratch ← recordRead m bk (fieldAt blk 0x20 4) (m.block bk).lr.locals
  let m : Mach := { m with mem := Mem.write m.mem ((Space.scratch bk).key 0) scratch }
  return restoreSigs (m.updBlock bk (restoreBlock m bk blk pail)) bk blk

end Sys2Proof.Machine
end

