-- ==== Sys2Proof/Machine/Preempt.lean ====
section
/-!
DEFINITION. Slices, pre-emption and its limits (16 R273 to R280), cost limits (16 R270), GROW's pre-emptions (06 R122), and
what the machine does by itself between steps to carry a pre-emption out (16 R277; 14 R253; 20 R311).
-/

namespace Sys2Proof.Machine

/-- The seated blocks of a context that are not complete. -/
def ctxBlocks (m : Mach) (c : Nat) : List (Nat × Block) :=
  m.blocks.filter (fun e => e.2.ctx == c && e.2.seated && !blockComplete m e.1)

/-- Is a block's gang barrier in release: every block has arrived and one has not gone on (16 R279)? -/
def gangReleasing (m : Mach) (b : Block) : Bool :=
  b.lr.isGang && (gangOf m b).any (fun e => e.2.gbarHere && (gangOf m b).all (gbarArrived m e.2.gbars))

/-- Is a COLL of a block in progress (16 R279)? -/
def collOf (m : Mach) (bk : Nat) : Bool :=
  m.ops.any (fun e => e.2.block == bk && (match e.2.cmd with | .coll .. => true | _ => false))

/-- Nothing holds a block's save (16 R279; 11 R211; 12 R226). -/
def quiet (m : Mach) (bk : Nat) : Bool :=
  (m.warpsOf bk).all (fun e => inFlight m e.1 == 0 && !tilesBusy e.2) && !collOf m bk

/-- A block that leaves its core waits for no writer role (14 R247); a role that it was given and had not taken passes on. -/
def leaveQueues (m : Mach) (bk : Nat) : Mach :=
  let m := m.updWarps ((m.warpsOf bk).map (·.1)) (fun _ w => { w with vopen := none })
  (m.vats.map (·.1)).foldl (fun m id =>
    let m := m.updVat id (fun v => { v with queue := v.queue.filter (fun x => x != bk) })
    if (m.vat id).writer = some bk ∧ !(m.vat id).opens.contains bk then passRole m id else m) m

/-- A save of a block is chosen (16 R277): its GROWs stop waiting (06 R122), and issue stops, in a gang barrier once its
release has ended. A complete block is left as it is (16 R278). -/
def startSave (m : Mach) (bk : Nat) : Mach :=
  let b := m.block bk
  if blockComplete m bk then m
  else
    let m := leaveQueues m bk
    let m := m.updWarps ((m.warpsOf bk).map (·.1)) (fun _ w => w.noGrow)
    m.updBlock bk (fun x => { x with pre := if gangReleasing m b then .releasing else .waiting })

/-- A block's charged time has reached some clocks (16 R270): those beyond 2 C are debt, counted in OVERRUN and DEBT. -/
def chargeTo (m : Mach) (bk clocks : Nat) : Mach :=
  let b := m.block bk
  let extra := if b.lr.cost = 0 then 0 else clocks - max b.charged (2 * b.lr.cost)
  let m := m.updBlock bk (fun b => { b with charged := max b.charged clocks })
  if extra = 0 then m
  else
    let old := (Map.find? (m.ctx b.ctx).counters 58).getD 0
    let m := m.updCtx b.ctx (fun x => { x with debt := x.debt + extra })
    (m.count b.ctx 58 extra).count b.ctx 59 ((old + extra) / 850 - old / 850)

/-- A block's clocks go on by a free amount (log 18). -/
def chargeOn (m : Mach) (bk : Nat) : Mach :=
  let m := m.tickOn
  chargeTo m bk ((m.block bk).charged + (Config.freeWord 10 m.tick).toNat)

/-- The save estimate of R276 for some blocks of a core, with the vats of the context when the core passes on. -/
def saveEstimate (m : Mach) (c core est : Nat) (bs : List (Nat × Block)) (passes : Bool) : Nat :=
  let bl := (bs.map (fun e => e.2.lr.locals + 3072 * heldBy m e.1 1)).sum
  let ba := (bs.flatMap (fun e => (m.warpsOf e.1).map (fun x => imageSize x.2.na))).sum
  let bv := if passes then ((m.vats.filter (fun e => e.2.ctx == c && e.2.primary == some core)).map (fun e =>
    e.2.imageBytes)).sum else 0
  400 + est + cdiv (bl + ba + bv) 256

/-- A core pre-empts some of a context's blocks by the choice of R276; est is the hardware's estimate W. -/
def preemptCore (m : Mach) (c core est : Nat) (bks : List Nat) (passes : Bool) : Mach :=
  let m := bks.foldl chargeOn m
  let bs := bks.map (fun bk => (bk, m.block bk))
  let m := m.count c 60 1
  if bs.all (fun e => e.2.lr.cost != 0 && decide (e.2.lr.cost - e.2.charged ≤ 21250)) then
    bks.foldl (fun m bk => m.updBlock bk (fun b => { b with pre := .draining })) m
  else if saveEstimate m c core est bs passes ≤ 21250 then bks.foldl startSave m
  else if bs.all (fun e => e.2.holding) then
    bks.foldl (fun m bk => (leaveQueues m bk).updBlock bk (fun b =>
      { b with pre := if gangReleasing m b then .letting else .discarding })) m
  else bks.foldl startSave m

/-- Pre-empt some blocks of a context, each core by its own choice; blocks under pre-emption already go on as they are. -/
def preemptBlocks (m : Mach) (c est : Nat) (bks : List Nat) (passes : Bool) : Mach :=
  let bks := bks.filter (fun bk => (m.block bk).pre == .none && !blockComplete m bk)
  (dedup (bks.map (fun bk => (m.block bk).core))).foldl (fun m core =>
    preemptCore m c core est (bks.filter (fun bk => (m.block bk).core == core)) passes) m

/-- A context's work on its teams is pre-empted: ask is 1 for a forced and 2 for a cooperative pre-emption (16 R273, R274). -/
def preemptCtx (m : Mach) (c est ask : Nat) : Mach :=
  let rival := nextThread m (competitors m c)
  let m := m.updCtx c (fun x => { x with ask := ask, rival := rival, yieldDl := none })
  preemptBlocks m c est ((ctxBlocks m c).map (·.1)) true

/-- Do a context's teams pass on at the end of its slice (16 R267, R273)? Some competitor waits that has slices due in its
period, and the context either has none due or a later end of its period; or neither has any due (DESIGN CHOICE, log 18). -/
def passesOn (m : Mach) (c : Nat) : Bool :=
  match nextThread m (competitors m c) with
  | none => false
  | some r =>
    let x := m.ctx c
    let y := m.ctx r
    x.due m.ns == 0 || (y.due m.ns != 0 && decide (y.cycleEnd m.ns ≤ x.cycleEnd m.ns))

/-- SLICE_END (16 R273, R274): at the slice's end, or at a YIELD. Without a competitor the context keeps its teams. -/
def execSliceEnd (ctx est : Nat) (s : State) : Host.Outcome State Fault Refusal :=
  event s (match Map.find? s.m.ctxs ctx with
    | none => none
    | some x =>
      if x.st ≠ 1 ∨ !x.holds ∨ x.ask = 1 ∨ x.ask = 2 then none
      else
        let m : Mach := if x.ask = 3 then s.m else { s.m with ns := max s.m.ns x.sliceEnd }
        let m := m.updCtx ctx (countSlice m.ns)
        if x.ask = 3 then some (preemptCtx m ctx est 2)
        else if passesOn m ctx then some (preemptCtx m ctx est 1)
        else some (startSlice m ctx))

/-- YIELD_DEADLINE_POST (16 R274): at now + g. -/
def execYieldDeadlinePost (ctx us : Nat) (s : State) : Host.Outcome State Fault Refusal :=
  event s (match Map.find? s.m.ctxs ctx with
    | none => none
    | some x =>
      if x.st ≠ 1 ∨ !x.holds ∨ x.ask ≠ 0 ∨ x.yieldDl.isSome ∨ us ≠ x.grace then none
      else
        let m := s.m.tickOn
        some (m.updCtx ctx (fun x => { x with yieldDl := some (m.ns + 1000 * us) })))

/-- YIELD_DEADLINE_EXPIRY (16 R274): pre-emption is forced. -/
def execYieldDeadlineExpiry (ctx est : Nat) (s : State) : Host.Outcome State Fault Refusal :=
  event s (match Map.find? s.m.ctxs ctx with
    | none => none
    | some x =>
      match x.yieldDl with
      | none => none
      | some t =>
        if x.st ≠ 1 ∨ !x.holds then none
        else some (preemptCtx ({ s.m with ns := max s.m.ns t }.count ctx 62 1) ctx est 1))

/-- Is a pre-emption of a context under way? -/
def preempting (m : Mach) (c : Nat) : Bool :=
  let x := m.ctx c
  (x.holds && (x.ask == 1 || x.ask == 2)) || m.blocks.any (fun e => e.2.ctx == c && e.2.pre != .none && e.2.seated)

/-- Lateness is debt, and the same time compensates the context that was kept waiting (16 R280). -/
def lateBy (m : Mach) (c us : Nat) : Mach :=
  let m := (m.updCtx c (fun x => { x with debt := x.debt + 850 * us })).count c 59 us
  match (if (m.ctx c).ask = 0 then none else (m.ctx c).rival) with
  | none => m
  | some r => m.updCtx r (fun x => { x with comp := x.comp + 850 * us })

/-- PREEMPT_DEADLINE (16 R277, R280): drains turn into saves, and a pre-emption that was not cooperative and is late by some µs is
in debt. -/
def execPreemptDeadline (ctx late : Nat) (s : State) : Host.Outcome State Fault Refusal :=
  event s (if !preempting s.m ctx then none
    else
      let drains := (s.m.blocks.filter (fun e => e.2.ctx == ctx && e.2.pre == .draining)).map (·.1)
      let m := drains.foldl startSave s.m
      some (if (s.m.ctx ctx).ask = 2 then m else lateBy m ctx late))

/-- A warp at which a non-pre-emptible wait holds a requested pre-emption (16 R279). -/
def heldUp (m : Mach) (c : Nat) : Option Nat :=
  ((m.blocks.filter (fun e => e.2.ctx == c && (Map.find? m.frozen e.2.core).isNone && (e.2.pre == .releasing || e.2.pre == .letting ||
    ((e.2.pre == .waiting || e.2.pre == .discarding) && !quiet m e.1) ||
    (e.2.pre == .gone && collOf m e.1 && (m.ctx c).holds && ((m.ctx c).ask == 1 || (m.ctx c).ask == 2))))).flatMap (fun e => m.liveOf e.1 ++ (m.warpsOf e.1).map (·.1))).head?

/-- NONPREEMPTIBLE_WAIT_LIMIT (16 R279; 18 R286). -/
def execNonpreemptibleWaitLimit (ctx : Nat) (s : State) : Host.Outcome State Fault Refusal :=
  event s ((heldUp s.m ctx).map (fun k => stopCtx s.m ctx 1 (some (k, s.m.outside k .watchdog))))

/-- TRAP_MODE_HOLD_LIMIT (18 R288). -/
def execTrapModeHoldLimit (ctx : Nat) (s : State) : Host.Outcome State Fault Refusal :=
  event s (if s.m.blocks.any (fun e => e.2.ctx == ctx && (e.2.pre == .waiting || e.2.pre == .handlers) &&
      (s.m.warpsOf e.1).any (fun x => x.2.trap.isSome))
    then some (stopCtx s.m ctx 7 none) else none)

/-- Is a block running, with a cost, and has it this many charged clocks now? -/
def costDue (m : Mach) (bk clocks : Nat) : Bool :=
  match Map.find? m.blocks bk with
  | none => false
  | some b => b.seated && b.lr.cost != 0 && decide (b.charged ≤ clocks)

/-- COST_OVERRUN (16 R270): every clock beyond 2 C is debt. -/
def execCostOverrun (block clocks : Nat) (s : State) : Host.Outcome State Fault Refusal :=
  event s (if !costDue s.m block clocks ∨ clocks ≤ 2 * (s.m.block block).lr.cost then none
    else some (chargeTo s.m block clocks))

/-- COST_WATCHDOG (16 R270): at 4 C, and again at each further multiple once the last fault is over. -/
def execCostWatchdog (block clocks : Nat) (s : State) : Host.Outcome State Fault Refusal :=
  let b := s.m.block block
  event s (match s.m.liveOf block with
    | [] => none
    | k :: ks =>
      if !costDue s.m block clocks ∨ clocks / (4 * b.lr.cost) ≤ b.watch ∨ (b.pre ≠ .none ∧ b.pre ≠ .draining) ∨
          b.wides.any (fun x => x.info.cause == .watchdog) then none
      else
        let m := (chargeTo s.m block clocks).updBlock block (fun b => { b with watch := clocks / (4 * b.lr.cost) })
        some (raiseWide m k true (k :: ks) 0 (m.outside k .watchdog)))

/-- A block with its whole gang, where it belongs to one (06 R122). -/
def withGang (m : Mach) (bk : Nat) : List Nat :=
  let b := m.block bk
  if b.lr.isGang then ((gangOf m b).filter (fun e => e.2.seated)).map (·.1) else [bk]

/-- GROW_GRANT (06 R122): the units are set aside for the oldest waiter of a pool, which takes them when it retires (R123); else the
youngest block younger than it that holds units of the pool is saved, unless one is on its way out already. -/
def execGrowGrant (core cls : Nat) (s : State) : Host.Outcome State Fault Refusal :=
  let m := s.m
  event s (match (if (Map.find? m.frozen core).isSome then none else minBy (·.2) (waiters m core cls)) with
    | none => none
    | some (k, _) =>
      let n := ((m.warp k).grow.getD (0, 0)).2
      if n ≤ freeUnits m core cls then some (m.updWarp k (fun w => { w with granted := true }))
      else
        let younger := (seatedOn m core).filter (fun e => decide ((m.blockOf k).age < e.2.age) && heldBy m e.1 cls != 0)
        if younger.any (fun e => e.2.pre != .none && e.2.pre != .draining) then none
        else match maxBy (fun bk => (m.block bk).age) (younger.map (·.1)) with
          | none => none
          | some bk => some ((withGang m bk).foldl (fun m bk =>
            if blockComplete m bk then m else startSave (m.count (m.block bk).ctx 7 1) bk) (m.count (m.block bk).ctx 60 1)))

/-- The parts of the record region that a context's other blocks take. -/
def otherRecords (m : Mach) (c bk : Nat) : List (Nat × Nat) :=
  (m.blocks.filter (fun e => e.2.ctx == c && e.1 != bk && e.2.pre != .gone)).map (fun e => (e.2.recOff, e.2.recLen))

/-- Does a block record of some bytes fit at an offset of the region (18 R297)? -/
def recordFits (m : Mach) (c bk len off : Nat) : Bool :=
  decide (off + len ≤ m.hdr c 0x50 8) && (otherRecords m c bk).all (fun o => decide (off + len ≤ o.1) || decide (o.1 + o.2 ≤ off))

/-- Where a new block record of some bytes fits in the region (18 R297). -/
def recordRoom (m : Mach) (c bk len : Nat) : Option Nat :=
  minBy id ((0 :: (otherRecords m c bk).map (fun o => cdiv (o.1 + o.2) 4096 * 4096)).filter (recordFits m c bk len))

/-- A block's memory: its scratch and its warps' tiles, with their poison marks. -/
def dropMemory (m : Mach) (bk : Nat) : Mach :=
  let drop (m : Mach) (lo hi : Nat) : Mach :=
    { m with mem := Map.dropRange m.mem lo hi, poison := Map.dropRange m.poison (lo / 16) (cdiv hi 16) }
  let m := drop m ((Space.scratch bk).key 0) ((Space.scratch bk).key 0 + Config.localStore)
  (m.warpsOf bk).foldl (fun m e => (List.range 16).foldl (fun m t =>
    drop m ((Space.tile e.1 t).key 0) ((Space.tile e.1 t).key 0 + 3072)) m) m

/-- A block leaves the machine with its warps. -/
def removeBlock (m : Mach) (bk : Nat) : Mach :=
  let m := dropMemory m bk
  { m with warps := Map.dropRange m.warps (32 * bk) (32 * bk + 32), blocks := Map.del m.blocks bk }

/-- A block's opens end, and its writer roles pass on (14 R247). -/
def closeVats (m : Mach) (bk : Nat) : Mach :=
  (m.vats.map (·.1)).foldl (fun m id =>
    let m := if (m.vat id).opens.contains bk then closeVat m bk id else m
    let m := m.updVat id (fun v => { v with queue := v.queue.filter (fun x => x != bk) })
    if (m.vat id).writer = some bk then passRole m id else m) m

/-- A block is dropped with its pail, to run again from its entry (16 R277; 21 R332). -/
def dropBlock (m : Mach) (bk : Nat) : Mach :=
  let b := m.block bk
  let m := closeVats m bk
  let m : Mach := { m with ops := m.ops.filter (fun e => e.2.block != bk) }
  (removeBlock m bk).updLaunch b.ctx b.seq (fun l => { l with again := l.again ++ [b.flat] })

/-- The device writes the header's world byte at every save (18 R296). -/
def worldByte (m : Mach) (c : Nat) : Mach := m.poke (Space.dev.key ((m.ctx c).hdr + 0x3E)) (bytesOfNat 1 (m.ctx c).world)

/-- Steps 4 and 5 of a save (16 R277): the register lines become evictable, and the scratch and the tiles are copied. The record
keeps its place (18 R298) and grows there where the saves need more room than it has; none where it cannot be written. -/
def copyStep (m : Mach) (bk : Nat) : Option Mach :=
  let m := markLines (m.updBlock bk (fun b => { b with recLen := max (recordLen m bk) b.recLen })) bk
  recordWrite m bk (copyWrites m bk)

/-- May the copy of a block begin: nothing holds its save, and its record has the room? -/
def mayCopy (m : Mach) (bk : Nat) : Bool :=
  let b := m.block bk
  let len := recordLen m bk
  quiet m bk && (decide (len ≤ b.recLen) || recordFits m b.ctx bk len b.recOff)

/-- The block holds its seat no longer. Windows that no handler has saved stay where PREEMPT was not delivered (21 R331). -/
def leaveSeat (m : Mach) (bk : Nat) : Mach :=
  (m.updWarps ((m.warpsOf bk).map (·.1)) (fun _ w => if (m.block bk).plain then w else { w with acc := [] })).updBlock bk (fun b =>
    { b with pre := .saved })

/-- The save of a block is complete, and the rest of its record is written (16 R277). -/
def finishSave (m : Mach) (bk : Nat) : Mach :=
  let c := (m.block bk).ctx
  match recordWrite m bk (saveWrites m bk) with
  | none => leaveSeat (stopCtx m c 5 none) bk
  | some m => leaveSeat (worldByte m c) bk

/-- A save without PREEMPT (18 R295; 21 R331). -/
def plainSave (m : Mach) (bk : Nat) : Mach :=
  match copyStep m bk with
  | none => leaveSeat (stopCtx m (m.block bk).ctx 5 none) bk
  | some m => finishSave m bk

/-- The next move of a save or a discard of one block, where it has one. -/
def pumpBlock (m : Mach) (bk : Nat) : Mach :=
  let b := m.block bk
  let ks := m.liveOf bk
  if (Map.find? m.frozen b.core).isSome then m else
  match b.pre with
  | .releasing => if gangReleasing m b then m else m.updBlock bk (fun b => { b with pre := .waiting })
  | .letting => if gangReleasing m b then m else m.updBlock bk (fun b => { b with pre := .discarding })
  | .discarding => if quiet m bk then dropBlock m bk else m
  | .copying => if mayCopy m bk then plainSave m bk else m
  | .waiting =>
    if blockComplete m bk then m.updBlock bk (fun b => { b with pre := .none })
    else if !mayCopy m bk then m
    else match copyStep m bk with
      | none => stopCtx m b.ctx 5 none
      | some m =>
        let due := ks.filter (fun k => (m.warp k).na != 0)
        let m := (m.updBlock bk (fun b => { b with pre := .handlers })).updWarps due (fun _ w => { w with preemptDue := some false })
        due.foldl deliverPreempt m
  | .handlers =>
    if blockComplete m bk then m.updBlock bk (fun b => { b with pre := .none, mark := none })
    else if ks.any (fun k => (m.warp k).trap.isSome || (m.warp k).preemptDue.isSome) || !quiet m bk then m
    else finishSave m bk
  | _ => m

/-- A device access to a vat's image outside any instruction failed (14 R356): a miss waits for service. -/
def deviceFails (m : Mach) (c h : Nat) : EngFail → Mach
  | .miss va size _ =>
    let r := deviceMiss m c h va size
    match r.2 with
    | some seq => r.1.updCtx c (fun x => { x with devWait := x.devWait ++ [seq] })
    | none => r.1
  | .denied _ => stopCtx m c 10 none

/-- An access to the image of a vat outside any instruction failed: the save area is part of the context image (06 R118). -/
def vatImageFails (m : Mach) (v : Vat) (e : EngFail) : Mach :=
  match v.backed with
  | some (h, _) => deviceFails m v.ctx h e
  | none => stopCtx m v.ctx 5 none

/-- The entry of a vat's backing handle as the device finds it (14 R356); of an unbacked one, its place in the save area. -/
def backingEntry (m : Mach) (v : Vat) : Except EngFail HEntry :=
  match v.backed with
  | none => saveArea m v.ctx
  | some (h, off) =>
    match tableHandle m v.ctx default h with
    | .error (.held _ f _ size) => .error (.miss f.va size off)
    | .ok (some e) =>
      if e.kind = 1 ∧ e.access % 4 = 3 ∧ e.world = v.world ∧ off + v.imageBytes ≤ e.length then .ok e
      else .error (.denied off)
    | _ => .error (.denied off)

/-- Write a vat out where no instruction does it (14 R249, R253): its image as it stands on its primary core. -/
def writeOut (m : Mach) (id : Nat) (v : Vat) (core : Nat) : Except EngFail Mach := do
  let e ← backingEntry m v
  let m ← imageStore m v e (vatContent m id v core)
  return m.count v.ctx 53 v.imageBytes

/-- Every copy of a vat leaves its core, and the vat is held only in its image (14 R244, R252, R253). -/
def toBacked (m : Mach) (id core : Nat) : Mach :=
  let m := ((m.vat id).slots.map (·.1)).foldl (fun m c => freeCopy m id c) m
  m.updVat id (fun v => { v with st := 2, primary := none, replicas := [], target := some core, tiles := [] })

/-- Write out one vat of a context that gives its cores up (14 R253). A stopped context's failing image is left as it is. -/
def giveUpVat (m : Mach) (id : Nat) : Mach :=
  let v := m.vat id
  match v.primary with
  | none => m
  | some core =>
    match writeOut m id v core with
    | .ok m => toBacked m id core
    | .error e => if (m.ctx v.ctx).st = 3 then toBacked m id core else vatImageFails m v e

/-- The vats of a context whose primary copy is on some teams. -/
def heldVats (m : Mach) (c : Nat) (on : Nat → Bool) : List Nat :=
  (m.vats.filter (fun e => e.2.ctx == c && e.2.st == 0 && e.2.primary.any (fun core => on (teamOf core)))).map (·.1)

/-- The replicas and the moves of a context on some teams end as the teams pass on (14 R252, R253): a vat on the move is in its
image. -/
def endCopies (m : Mach) (c : Nat) (on : Nat → Bool) : Mach :=
  (m.vats.filter (fun e => e.2.ctx == c)).foldl (fun m e =>
    if e.2.st = 1 ∧ e.2.target.any (fun core => on (teamOf core)) then toBacked m e.1 (e.2.target.getD 0)
    else (e.2.replicas.filter (fun core => on (teamOf core))).foldl (fun m core => freeCopy m e.1 core) m) m

/-- The vats of a context leave a team that passes to another (14 R244, R253), as far as their images can be written. -/
def leaveTeam (m : Mach) (c t : Nat) : Mach :=
  if !(m.ctx c).devWait.isEmpty then m
  else (heldVats m c (· == t)).foldl (fun m id => if (m.ctx c).devWait.isEmpty then giveUpVat m id else m) (endCopies m c (· == t))

/-- Does a team pass to another context when this one gives its cores up (16 R273)? -/
def passing (m : Mach) (c t : Nat) : Bool :=
  (m.ctx c).st != 1 || m.ctxs.any (fun e => e.1 != c && e.2.st == 1 && e.2.allTeams.getLsbD t)

/-- A team is scrubbed as it passes to another context (20 R311): evictable lines are written back or dropped, and no L1 copy stays
on its cores. Its arrays hold nothing of the outgoing context, whose blocks and vats have left; what they read as afterwards is
free as ever (03 R73; log 2, log 7). -/
def scrubTeam (m : Mach) (t : Nat) : Mach :=
  let cs := dedup ((m.blocks.filter (fun e => teamOf e.2.core == t && e.2.mark.isSome)).map (fun e => e.2.ctx))
  let m := (rangeFrom (8 * t) 8).foldl (fun m core => cs.foldl (fun m c => flushLines m c core) m) m
  m.dropL1 (fun core => teamOf core == t)

/-- A team passes to a context (20 R310, R311). -/
def passTeam (m : Mach) (c t : Nat) : Mach :=
  if Map.find? m.teamCtx t = some c then m
  else { scrubTeam m t with teamCtx := Map.ins m.teamCtx t c }

/-- Launches of which every block is complete: a save records them as complete (16 R278). -/
def recordEnds (m : Mach) (c : Nat) : Mach :=
  ((m.ctx c).pend.filter (fun e => e.2.st == 2 && e.2.done == e.2.lr.blocks)).foldl (fun m e =>
    (imageWrite m c (0x1100 + 512 * e.2.slot) (pendFields e.2 e.1 3)).getD m) m

/-- A context that is to give up its cores, and whose blocks have left them, writes its vats out and then gives its teams
back (16 R273; 14 R253; 18 R296). A COLL of a complete block is waited for: the collective engine serves one context at a time
(01 R15; 16 R279). -/
def giveUp (m : Mach) (c : Nat) : Mach :=
  let x := m.ctx c
  if !x.holds ∨ (x.st = 1 ∧ x.ask ≠ 1 ∧ x.ask ≠ 2) ∨ !x.devWait.isEmpty ∨
      m.blocks.any (fun e => e.2.ctx == c && e.2.seated) ∨ m.ops.any (fun e => e.2.ctx == c && e.2.cls == 1) then m
  else
    let m := endCopies m c (passing m c)
    match heldVats m c (passing m c) with
    | id :: _ => giveUpVat m id
    | [] =>
      let m := m.updCtx c (fun x => { x with holds := false, ask := 0 })
      if x.st = 1 then worldByte (recordEnds (m.poke (Space.dev.key (x.hdr + 0x40)) (bytesOfNat 4 2)) c) c else m

/-- The running contexts whose teams no thread holds (16 R273). -/
def waiting (m : Mach) : List Nat :=
  let busy : Word := ((m.ctxs.filter (fun e => e.2.holds)).map (fun e => e.2.allTeams)).foldl (· ||| ·) 0
  (m.ctxs.filter (fun e => e.2.st == 1 && !e.2.holds && e.2.teams != 0 && e.2.allTeams &&& busy == 0)).map (·.1)

/-- The executive runs the thread of a waiting context (16 R273), first of all the one for which teams have been given up. Its
teams pass to it (20 R311). -/
def runNext (m : Mach) (last : Option Nat) : Mach :=
  let all := waiting m
  let rival := (last.bind (fun c => (m.ctx c).rival)).filter all.contains
  let others := all.filter (fun c => some c != last)
  match rival.orElse (fun _ => nextThread m (if others.isEmpty then all else others)) with
  | none => m
  | some c =>
    let m := m.tickOn
    let m := startSlice (m.updCtx c (fun x => { x with holds := true })) c
    let free (t : Nat) : Bool := !m.blocks.any (fun e => e.2.ctx != c && e.2.seated && teamOf e.2.core == t)
    let m := ((List.range 32).filter (fun t => (m.ctx c).allTeams.getLsbD t && free t)).foldl (fun m t => passTeam m c t) m
    m.poke (Space.dev.key ((m.ctx c).hdr + 0x40)) (bytesOfNat 4 1)

/-- Vats of a context that wait to be filled back onto their core, which the context has regained (14 R253). -/
def toFill (m : Mach) (c : Nat) : List (Nat × Nat) :=
  m.vats.filterMap (fun e =>
    if e.2.ctx = c ∧ e.2.st = 2 then
      (e.2.target.filter (fun core => Map.find? m.teamCtx (teamOf core) == some c)).map (fun core => (e.1, core))
    else none)

/-- Fill a vat from its image onto a core as its primary, where no instruction does it. -/
def fillOnto (m : Mach) (id core : Nat) : Except EngFail Mach := do
  let v := m.vat id
  let e ← backingEntry m v
  return fillCopy m id v core ((Map.find? v.slots core).getD ((freeSlot m core).getD 0)) (← imageRead m v e)

/-- A context that has regained its cores fills one vat back. -/
def fillBack (m : Mach) (c : Nat) : Mach :=
  let x := m.ctx c
  if !x.holds ∨ x.st ≠ 1 ∨ x.ask = 1 ∨ x.ask = 2 ∨ !x.devWait.isEmpty then m
  else match toFill m c with
    | [] => m
    | (id, core) :: _ =>
      match fillOnto m id core with
      | .ok m => m
      | .error e => vatImageFails m (m.vat id) e

/-- What the machine does by itself after a step. -/
def pump (m : Mach) : Mach :=
  let m := pumpColls m
  let m := ((m.blocks.filter (fun e => e.2.pre != .none && e.2.pre != .draining && e.2.seated)).map (·.1)).foldl pumpBlock m
  let before := (m.ctxs.filter (fun e => e.2.holds)).map (·.1)
  let m := (m.ctxs.map (·.1)).foldl giveUp m
  let last := before.find? (fun c => !(m.ctx c).holds)
  let m := runNext m last
  (m.ctxs.map (·.1)).foldl fillBack m

end Sys2Proof.Machine
end

