-- ==== Sys2Proof/Machine/Seating.lean ====
section
/-!
DEFINITION. Host records and dependencies (16 R263 to R265), dispatch (04 R75; 16 R271, R272; 14 R250), the end of blocks and
launches (04 R74; 10 R198, R201; 14 R247), and moves of vats (14 R251).
-/

namespace Sys2Proof.Machine

/-- An event that reaches the package around the cores too: one that is not due does not take place (log 16). -/
def eventAt (s : State) (r : Option State) : Host.Outcome State Fault Refusal := .next (r.getD s)

/-- Read device memory of a context through its translation and with its world (20 R305): a queue or a ring. -/
def ringRead (m : Mach) (c va n : Nat) : Except EngFail (List Byte) :=
  match translate m c .read va with
  | .error size => .error (.miss va size 0)
  | .ok pa => if m.tag pa = (m.ctx c).world then .ok (Mem.readN m.mem (Space.dev.key pa) n) else .error (.denied 0)

/-- A failing table or queue access of the device for a context: a miss waits for service, and anything else stops the
context, as a refused service does (18 R295). -/
def tableFails (m : Mach) (c h : Nat) : EngFail → Mach
  | .miss va size _ =>
    let r := deviceMiss m c h va size
    r.1.updCtx c (fun x => { x with tabWait := x.tabWait.filter (fun n => r.2 != some n) ++ r.2.toList })
  | .denied _ => stopCtx m c 5 none

/-- A signal of a launch in the pending set is not translated: the launch waits for service (16 R263). -/
def signalWaits (m : Mach) (c seq h va size : Nat) : Mach :=
  let r := deviceMiss m c h va size
  r.1.updLaunch c seq (fun l => { l with svc := l.svc ++ r.2.toList })

/-- How an access of a record's checks stops, as a device access. -/
def asDevice : Stop → EngFail
  | .held _ f _ size => .miss f.va size 0
  | _ => .denied 0

/-- Change a function. -/
def State.updFn (s : State) (fn : Nat) (f : Fn → Fn) : State := { s with p := { s.p with fns := Map.upd s.p.fns fn f } }

/-- Can the function's register page be reached: it is enabled (20 R305)? -/
def fnOf (s : State) (fn : Nat) : Option Fn := (Map.find? s.p.fns fn).bind (fun f => if f.enabled then some f else none)

/-- HOST_LAUNCH_RECORD (16 R264, R265): the next record of a queue enters the pending set of the context that the queue's
selector names; a priority other than the queue's makes it malformed. -/
def execHostLaunchRecord (fn q : Nat) (s : State) : Host.Outcome State Fault Refusal :=
  eventAt s (match (Map.find? s.p.fns fn).bind (fun f => Map.find? f.queues q) with
    | none => none
    | some r =>
      let c := r.sel
      match Map.find? s.m.ctxs c with
      | none => none
      | some x =>
        match freePending x with
        | none => none
        | some slot =>
          if x.fn ≠ fn ∨ x.st ≠ 1 ∨ r.prod = r.cons ∨ r.entries = 0 then none
          else match ringRead s.m c (r.base + 256 * (r.cons % r.entries)) 256 with
            | .error e => some { s with m := tableFails s.m c 0 e }
            | .ok raw =>
              let lr := LaunchRec.ofBytes raw
              match malformed s.m c x.world lr with
              | .error st => some { s with m := tableFails s.m c lr.code (asDevice st) }
              | .ok bad =>
                let s := s.updFn fn (fun f => { f with queues := Map.upd f.queues q (fun r => { r with cons := (r.cons + 1) % 2 ^ 32 }) })
                some { s with m := enterPending s.p s.m c raw lr 0 slot 0 (bad || lr.prio != q) })

/-- DEPENDENCY_REREAD (16 R263): a dependency that reads zero is met, and one that reads negative aborts the launch. What the launch
does comes after the readings (10 R198). -/
def execDependencyReread (ctx seq dep : Nat) (s : State) : Host.Outcome State Fault Refusal :=
  event s (match (Map.find? s.m.ctxs ctx).bind (fun x => Map.find? x.pend seq) with
    | none => none
    | some l =>
      let h := l.lr.deps.getD dep 0
      if l.st ≠ 1 ∨ !l.ready ∨ !l.svc.isEmpty ∨ h = 0 ∨ l.met.contains dep ∨ (s.m.ctx ctx).st = 3 then none
      else match signalPlace s.m ctx (s.m.ctx ctx).world h with
        | .error none => some (stopCtx s.m ctx 5 none)
        | .error (some (va, size)) => some (signalWaits s.m ctx seq h va size)
        | .ok key =>
          let r := engineLoads s.m l.pts [key]
          let m := r.1.updLaunch ctx seq (fun l => { l with pts := r.2 })
          if signalValue m key < 0 then some (failLaunch m ctx seq 11)
          else if signalValue m key ≠ 0 then some m
          else
            let m := m.updLaunch ctx seq (fun l => { l with met := l.met ++ [dep] })
            some (if (m.launch ctx seq).depsMet then becomeReady s.p m ctx seq else m))

/-- Does a warp still hold its resident slot (04 R79)? -/
def holdsSlot (m : Mach) (e : Nat × Warp) : Bool := !(e.2.run == .exited && inFlight m e.1 == 0)

/-- The warps resident on a core. -/
def residents (m : Mach) (core : Nat) : List (Nat × Warp) :=
  (seatedOn m core).flatMap (fun e => (m.warpsOf e.1).filter (holdsSlot m))

/-- The resident slots of a partition that are free. -/
def freeSlots (m : Mach) (core part : Nat) : List Nat :=
  let used := ((residents m core).filter (fun e => e.2.idx % 4 == part)).map (fun e => e.2.slot)
  (List.range 16).filter (fun i => !used.contains i)

/-- The block slot that a block takes on a core: the lowest free one (DESIGN CHOICE, log 34). -/
def freeBlockSlot (m : Mach) (core : Nat) : Option Nat :=
  (List.range 16).find? (fun i => !(seatedOn m core).any (fun e => e.2.slot == i))

/-- Can a core seat a block of these needs now (04 R75; 06 R122; 12 R223)? -/
def canSeat (m : Mach) (core : Nat) (r : LaunchRec) (tiles accs : Nat) : Bool :=
  (freeBlockSlot m core).isSome && (List.range 4).all (fun p => decide (slotsNeeded r.nW p ≤ (freeSlots m core p).length)) &&
  decide (r.locals + 3072 * tiles ≤ freeStore m core) && decide (accs + reserved m core 2 ≤ freeUnits m core 2)

/-- The bytes of a new block's record with its saves (18 R297 to R299). -/
def newRecordLen (r : LaunchRec) : Nat :=
  0x200 + r.nW * (0x1D80 + cdiv r.spill 128 * 128) + cdiv r.locals 128 * 128 + pailRoom r + r.nW * (3072 * r.nt + accSaveLen r.na)

/-- Where the resident slots of a block's warps are, partition by partition: the lowest free ones (DESIGN CHOICE, log 34). A warp
is active while its partition has fewer than 8 active warps (DESIGN CHOICE, log 34). -/
def giveSlots (m : Mach) (bk core : Nat) : Mach :=
  ((m.warpsOf bk).map (·.1)).foldl (fun m k =>
    let p := (m.warp k).idx % 4
    let used := ((residents m core).filter (fun e => e.2.idx % 4 == p && e.1 != k && !(e.2.block == bk && decide (k < e.1)))).map (fun e => e.2)
    let slot := ((List.range 16).find? (fun i => !used.any (fun w => w.slot == i))).getD 0
    let active := decide ((used.filter (fun w => w.active)).length < 8)
    m.updWarp k (fun w => { w with slot := slot, active := active, justActive := active })) m

/-- Seat a block that has not run, or is to run again from its entry: none where the record region has no room. -/
def seatNew (m : Mach) (c seq flat core : Nat) : Option Mach :=
  let l := m.launch c seq
  let bk := m.nextBlock
  let len := newRecordLen l.lr
  match recordRoom m c bk len with
  | none => none
  | some off =>
    let b : Block :=
      { ctx := c, seq := seq, flat := flat, core := core, slot := (freeBlockSlot m core).getD 0, age := bk, world := (m.ctx c).world,
        lr := l.lr, src := l.src, committed := false, gbars := 0, gbarHere := false, sets := [], pail := [], charged := 0, watch := 0,
        vatH := [], wides := [], pre := .none, plain := false, mark := none, rollbacks := (Map.find? l.rolled flat).getD 0, recOff := off, recLen := len }
    let m : Mach := { m with nextBlock := bk + 1, blocks := Map.ins m.blocks bk b }
    let m := (List.range l.lr.nW).foldl (fun m i =>
      let w := Warp.entry bk i (l.lr.roles / 4 ^ i % 4) 0 flat l.lr
      m.setWarp (warpKey bk i) { w with ptsEpoch := m.epoch % 2 ^ 16, pts := l.pts }) m
    let m := giveSlots m bk core
    let m := m.updLaunch c seq (fun l =>
      if l.again.contains flat then { l with again := l.again.erase flat, patience := false, bound := none }
      else { l with next := flat + 1, patience := false, bound := none })
    some (pendWrite m c seq)

/-- A warp comes back (16 R277; 10 R195): one held for service executes its instruction again. -/
def wakeWarp (m : Mach) (plain : Bool) (w : Warp) : Warp :=
  { w with
    run := match w.run with | .held _ _ _ => .ready | .queued _ => .ready | r => r
    wait := none
    pts := if w.ptsEpoch = m.epoch % 2 ^ 16 then w.pts else 0
    preemptDue := if w.na ≠ 0 ∧ w.isLive ∧ !plain then some true else none }

/-- Fill the backed vats that a saved block holds open onto the core of its restore (14 R244). -/
def fillFor (m : Mach) (bk core : Nat) : Except Mach Mach :=
  ((m.block bk).vatH.map (fun e => e.2.1)).foldlM (fun m id =>
    if (m.vat id).st ≠ 2 then .ok m
    else match fillOnto m id core with
      | .ok m => .ok m
      | .error e => .error (vatImageFails m (m.vat id) e)) m

/-- Restore a saved block on a core (16 R277; 18 R300): the records are checked before any part of it is seated. On the core where it
was saved its lines that remain are its warps' again; before it goes to another, they are written back or dropped (06 R117,
R118). -/
def seatSaved (m : Mach) (bk core : Nat) : Mach :=
  let c := (m.block bk).ctx
  let m := if core = (m.block bk).core then m else flushLines m c (m.block bk).core
  if (m.ctx c).st = 3 then m else
  match fillFor m bk core with
  | .error m => m
  | .ok m =>
  match recordsOk m bk with
  | none => stopCtx m c 5 none
  | some false => stopCtx m c 6 none
  | some true =>
    match readBack m bk with
    | none => stopCtx m c 5 none
    | some m =>
      let ks := (m.warpsOf bk).map (·.1)
      let m := m.updBlock bk (fun b =>
        { b with core := core, slot := (freeBlockSlot m core).getD 0, age := m.nextBlock, pre := .none, mark := none })
      let m := giveSlots { m with nextBlock := m.nextBlock + 1 } bk core
      let plain := (m.block bk).plain
      let m := (m.updWarps ks (fun _ w => wakeWarp m plain w)).updBlock bk (fun b => { b with plain := false })
      let m := m.updLaunch c (m.block bk).seq (fun l => { l with patience := false, bound := none })
      ks.foldl deliverPreempt m

/-- The saved block of a launch with a flat index. -/
def savedBlock (m : Mach) (c seq flat : Nat) : Option (Nat × Block) :=
  m.blocks.find? (fun e => e.2.ctx == c && e.2.seq == seq && e.2.flat == flat && e.2.pre == .saved)

/-- The blocks of a launch that are to be seated next: the lowest flat index, or the whole gang it belongs to (16 R271, R272). -/
def nextFlats (m : Mach) (c seq : Nat) (l : Launch) : List Nat :=
  let saved := (m.blocks.filter (fun e => e.2.ctx == c && e.2.seq == seq && e.2.pre == .saved)).map (fun e => e.2.flat)
  let free (f : Nat) : Bool := saved.contains f || l.again.contains f || (decide (l.next ≤ f) && decide (f < l.lr.blocks))
  match minBy id (saved ++ l.again ++ (if l.next < l.lr.blocks then [l.next] else [])) with
  | none => []
  | some f =>
    if l.lr.isGang then
      let fs := (rangeFrom (f / l.lr.gang * l.lr.gang) l.lr.gang).filter free
      if m.blocks.any (fun e => e.2.ctx == c && e.2.seq == seq && e.2.flat / l.lr.gang == f / l.lr.gang && e.2.seated &&
          !blockComplete m e.1) then [] else fs
    else [f]

/-- Teams that are lent to others. -/
def Plat.isLent (p : Plat) (t : Nat) : Bool := (Map.find? p.lent t).isSome

/-- The cores on which a launch's blocks may be seated (16 R271; 20 R310; 21 R334). -/
def allowedCores (p : Plat) (m : Mach) (c : Nat) (l : Launch) : List Nat :=
  let x := m.ctx c
  (List.range 256).filter (fun i =>
    let t := teamOf i
    (x.hasTeam t || (l.lr.deadline == 0 &&
      ((x.margin.getLsbD t && !p.isLent t) || (Map.find? p.lent t == some c && !p.revoking.contains t)))) &&
    !p.isFenced i && !p.fencing.contains i && (Map.find? m.frozen i).isNone &&
    !(seatedOn m i).any (fun e => e.2.ctx == c && e.2.pre == .draining))

/-- The first affinity vat of a launch that is resident (14 R250). -/
def affinityVat (m : Mach) (c : Nat) (r : LaunchRec) : Option (Nat × Vat) :=
  r.affinity.findSome? (fun n => if n = 0 then none else (m.vatNamed c n).bind (fun e => if e.2.st = 0 then some e else none))

/-- How many later affinity vats a core holds, weighed in record order (14 R250; log 22). -/
def laterVats (m : Mach) (c core : Nat) (r : LaunchRec) : Nat :=
  (r.affinity.zipIdx.map (fun n =>
    if n.1 ≠ 0 ∧ (m.vatNamed c n.1).any (fun e => e.2.st == 0 && e.2.onCore core) then 2 ^ (3 - n.2) else 0)).sum

/-- Among preferred cores: most free local store, fewest blocks there that hold the vat open, most of the later vats, lowest
core (14 R250). -/
def preferredCore (m : Mach) (c : Nat) (r : LaunchRec) (v : Vat) (cores : List Nat) : Option Nat :=
  let opensOn (core : Nat) : Nat := (v.opens.filter (fun bk => (m.block bk).core == core)).length
  minBy (fun core => ((Config.localStore - freeStore m core) * 2 ^ 16 + opensOn core) * 16 + (15 - laterVats m c core r)) cores

/-- Where a block can go now. -/
inductive Spot where
  | core (i : Nat)
  /-- It waits for a preferred core. -/
  | waits
  | nowhere

/-- May a saved block that holds a vat open be restored on a core (14 R253, R254; R244)? Where it held it open, if the core still has
a copy; else on the core of the rebuilt vat; a vat that is still backed is filled by the restore. -/
def heldAt (m : Mach) (v : Vat) (was i : Nat) : Bool :=
  v.st == 3 ||
  (if v.onCore was then i == was
   else match v.primary with
     | some core => i == core
     | none => v.st == 2 && vatRoom m i v.acc v.size && (freeSlot m i).isSome)

/-- The core for one block of a launch among some cores (14 R250, R253; 16 R271). A block for which a vat is being moved goes to the
target of the move. -/
def spotFor (m : Mach) (c seq flat : Nat) (l : Launch) (cores : List Nat) : Spot :=
  let saved := savedBlock m c seq flat
  let tiles := match saved with | some (bk, _) => heldBy m bk 1 | none => l.lr.nW * l.lr.nt
  let accs := match saved with | some (bk, _) => heldBy m bk 2 | none => l.lr.nW * l.lr.na
  let bound (i : Nat) : Bool := match saved with
    | some (_, b) => b.vatH.all (fun e => heldAt m (m.vat e.2.1) b.core i)
    | none => true
  let fit := cores.filter (fun i => canSeat m i l.lr tiles accs && bound i)
  let byLoad := minBy (fun i => (residents m i).length) fit
  let load : Spot := match byLoad with | some i => .core i | none => .nowhere
  match l.bound.filter (fun x => x.1 == flat) with
  | some (_, t) =>
    if m.vats.any (fun e => e.2.ctx == c && e.2.st == 1 && e.2.target == some t) then .waits
    else if fit.contains t then .core t else load
  | none =>
    match (if saved.any (fun e => !e.2.vatH.isEmpty) then none else affinityVat m c l.lr) with
    | none => load
    | some (_, v) =>
      match preferredCore m c l.lr v (fit.filter v.onCore) with
      | some i => .core i
      | none => if l.patience then load else .waits

/-- What comes of seating some blocks. -/
inductive Seated where
  | done (m : Mach)
  | waits
  | nowhere

/-- Seat these blocks of a launch on some cores, all of them or none. -/
def seatAll (c seq : Nat) (cores : List Nat) : Mach → List Nat → Seated
  | m, [] => .done m
  | m, f :: fs =>
    match spotFor m c seq f (m.launch c seq) cores with
    | .waits => .waits
    | .nowhere => .nowhere
    | .core i =>
      let l := m.launch c seq
      let m := if l.lr.patience ≠ 0 ∧ !l.patience ∧ (affinityVat m c l.lr).isSome then
          m.tickOn.count c 55 (Config.timedCounter 55 (m.tick + 1)) else m
      match savedBlock m c seq f with
      | some (bk, _) => seatAll c seq cores (seatSaved m bk i) fs
      | none => match seatNew m c seq f i with
        | none => .nowhere
        | some m => seatAll c seq cores m fs

/-- The groups of cores that may hold a gang, by its latency class (04 R81), those with the core of the fewest resident warps first
(16 R271). -/
def zones (m : Mach) (l : Launch) (cores : List Nat) : List (List Nat) :=
  if !l.lr.isGang ∨ 2 ≤ l.lr.gclass then [cores]
  else
    let size := if l.lr.gclass = 0 then 8 else 64
    let byLoad := (List.range 65).flatMap (fun n => cores.filter (fun i => (residents m i).length == n))
    (dedup (byLoad.map (· / size))).map (fun z => cores.filter (fun i => i / size == z))

/-- Seat these blocks in the first group of cores that can take them all. -/
def seatIn (c seq : Nat) (m : Mach) (flats : List Nat) : List (List Nat) → Seated
  | [] => .nowhere
  | z :: zs =>
    match seatAll c seq z m flats with
    | .done m => .done m
    | r => match seatIn c seq m flats zs with
      | .done m => .done m
      | .waits => .waits
      | .nowhere => r

/-- Make room for a deadline launch (16 R271): the best-effort block seated latest on a guaranteed core is pre-empted, unless
one is being pre-empted already. -/
def makeRoom (m : Mach) (c : Nat) : Option Mach :=
  let bs := m.blocks.filter (fun e => e.2.ctx == c && e.2.seated && e.2.lr.deadline == 0 && (m.ctx c).hasTeam (teamOf e.2.core) &&
    !blockComplete m e.1)
  if bs.any (fun e => e.2.pre != .none) then none
  else match maxBy (fun bk => (m.block bk).age) (bs.map (·.1)) with
    | none => none
    | some bk =>
      let m := m.tickOn
      some (preemptBlocks m c (Config.freeWord 11 m.tick).toNat (withGang m bk) false)

/-- Put a best-effort launch behind those of higher priority or earlier entry, and behind every deadline launch (16 R271). -/
def Launch.ahead (a b : Launch) : Bool :=
  if a.lr.deadline ≠ 0 ∧ b.lr.deadline ≠ 0 then a.before b
  else if a.lr.deadline ≠ 0 ∨ b.lr.deadline ≠ 0 then a.lr.deadline != 0
  else decide (b.prio < a.prio) || (a.prio == b.prio && decide (a.entered < b.entered))

/-- Put a launch in its place in the order of R271. -/
def insertAhead (e : Nat × Launch) : List (Nat × Launch) → List (Nat × Launch)
  | [] => [e]
  | x :: xs => if e.2.ahead x.2 then e :: x :: xs else x :: insertAhead e xs

/-- The admitted launches of a context in the order in which blocks are seated (16 R271). -/
def dispatchOrder (x : Ctx) : List (Nat × Launch) :=
  (x.pend.filter (fun e => e.2.st == 2)).foldl (fun a e => insertAhead e a) []

/-- Where the dispatcher may move a vat for a block (14 R250): room for both, most free local store, lowest core. -/
def moveTarget (p : Plat) (m : Mach) (v : Vat) (l : Launch) : Option Nat :=
  let fits (i : Nat) : Bool :=
    !v.onCore i && !p.fencing.contains i && (Map.find? m.frozen i).isNone && vatRoom m i v.acc v.size && (freeSlot m i).isSome &&
    canSeat m i { l.lr with locals := l.lr.locals + if v.acc then 0 else 4096 * v.size } (l.lr.nW * l.lr.nt)
      (l.lr.nW * l.lr.na + if v.acc then 4 * v.size else 0)
  maxBy (freeStore m) ((guaranteedCores p (m.ctx v.ctx)).filter fits)

/-- Start a move (14 R251): the image is written, the old copy is freed, and room is taken on the target. -/
def startMove (m : Mach) (id target : Nat) : Mach :=
  let v := m.vat id
  match v.primary with
  | none => m
  | some core =>
    match writeOut m id v core with
    | .error e => vatImageFails m v e
    | .ok m =>
      let m := vatClocks (freeCopy m id core) v.ctx
      m.updVat id (fun v => { v with st := 1, primary := none, tiles := [], target := some target,
                                     slots := Map.ins v.slots target ((freeSlot m target).getD 0) })

/-- The affinity patience of a launch's next block is over (14 R250): the vat moves where it can, and the block is bound to the target;
else the block is placed by load. -/
def patienceEnds (p : Plat) (m : Mach) (c seq : Nat) (l : Launch) : Option Mach :=
  match affinityVat m c l.lr, nextFlats m c seq l with
  | some (id, v), f :: _ =>
    if l.st ≠ 2 ∨ l.patience ∨ !(m.ctx c).holds ∨ !(m.ctx c).devWait.isEmpty then none
    else match spotFor m c seq f l (allowedCores p m c l) with
      | .waits =>
        match (if v.opens.isEmpty ∧ v.writer.isNone then moveTarget p m v l else none) with
        | none => some (m.updLaunch c seq (fun l => { l with patience := true }))
        | some t =>
          let m := startMove m id t
          some (if (m.vat id).st = 1 then m.updLaunch c seq (fun l => { l with bound := some (f, t) }) else m)
      | _ => none
  | _, _ => none

/-- Seat the next block or gang of the first launch that can have one (16 R271, R272). Past a deadline launch that cannot be
seated, later deadline launches wait too. -/
def seatScan (p : Plat) (m : Mach) (c : Nat) : Option Nat → List (Nat × Launch) → Option Mach
  | _, [] => none
  | blocked, (seq, l) :: ls =>
    if l.deadline ≠ 0 ∧ blocked.any (fun d => decide (d < l.deadline)) then seatScan p m c blocked ls
    else match nextFlats m c seq l with
      | [] => seatScan p m c blocked ls
      | flats =>
        match seatIn c seq m flats (zones m l (allowedCores p m c l)) with
        | .done m => some m
        | .waits =>
          match (if l.lr.patience = 0 then patienceEnds p m c seq l else none) with
          | some m => some m
          | none => seatScan p m c (if l.deadline ≠ 0 then some (blocked.getD l.deadline) else blocked) ls
        | .nowhere =>
          if l.deadline ≠ 0 then
            match makeRoom m c with
            | some m => some m
            | none => seatScan p m c (some (blocked.getD l.deadline)) ls
          else seatScan p m c blocked ls

/-- BLOCK_SEAT (16 R271): the context runs, holds its teams, and its vats are back on their cores (14 R253). -/
def execBlockSeat (ctx : Nat) (s : State) : Host.Outcome State Fault Refusal :=
  event s (match Map.find? s.m.ctxs ctx with
    | none => none
    | some x =>
      if x.st ≠ 1 ∨ !x.holds ∨ x.ask = 1 ∨ x.ask = 2 ∨ !(toFill s.m ctx).isEmpty then none
      else seatScan s.p s.m ctx none (dispatchOrder x))

/-- Write back the vats of which a completing block is the writer (14 R249). -/
def writerBacks (m : Mach) (bk : Nat) : Except (Nat × EngFail) Mach :=
  (m.vats.map (·.1)).foldlM (fun m id =>
    let v := m.vat id
    match v.writer == some bk && v.opens.contains bk, v.backed, v.primary with
    | true, some (h, _), some core =>
      match (do let e ← backingEntry m v; imageStore m v e (vatContent m id v core)) with
      | .ok m => .ok m
      | .error e => .error (h, e)
    | _, _, _ => .ok m) m

/-- A complete block gives its seat back (04 R79): its held stores are performed (10 R201), its vats are written back and
closed, and the launch has one block more. -/
def completeBlock (m : Mach) (bk : Nat) : Mach :=
  let b := m.block bk
  let m := commit m (warpKey bk 0)
  let ks := (m.warpsOf bk).map (·.1)
  let m := b.vatH.foldl (fun m e => vatStep m ks b.ctx (m.vat e.2.1).name true) m
  match writerBacks m bk with
  | .error (h, e) => deviceFails m b.ctx h e
  | .ok m =>
    let m := dropMemory (closeVats m bk) bk
    let m := m.updBlock bk (fun b => { b with pre := .gone })
    pendWrite (m.updLaunch b.ctx b.seq (fun l => { l with done := l.done + 1 })) b.ctx b.seq

/-- BLOCK_COMPLETE (04 R74). -/
def execBlockComplete (block : Nat) (s : State) : Host.Outcome State Fault Refusal :=
  event s (match Map.find? s.m.blocks block with
    | none => none
    | some b =>
      if !b.seated ∨ !blockComplete s.m block ∨ (s.m.ctx b.ctx).st ≠ 1 ∨ !(s.m.ctx b.ctx).devWait.isEmpty ∨
          (Map.find? s.m.frozen b.core).isSome then none
      else some (completeBlock s.m block))

/-- Is an engine operation of a launch outstanding (10 R198)? A LAUNCH is none. -/
def launchBusy (m : Mach) (c seq : Nat) : Bool :=
  m.ops.any (fun e => (m.block e.2.block).ctx == c && (m.block e.2.block).seq == seq && e.2.ctx == c &&
    (match e.2.cmd with | .launch _ => false | _ => true))

/-- The blocks of a launch leave the machine. -/
def removeLaunch (m : Mach) (c seq : Nat) : Mach :=
  ((m.blocks.filter (fun e => e.2.ctx == c && e.2.seq == seq)).map (·.1)).foldl removeBlock m

/-- The greatest timestamp of a launch's accesses and of its blocks' engine operations (10 R198). -/
def launchTime (m : Mach) (c seq : Nat) : Nat :=
  let ws := (m.blocks.filter (fun e => e.2.ctx == c && e.2.seq == seq)).flatMap (fun e => (m.warpsOf e.1).map (·.2))
  ws.foldl (fun t w => w.opPts.foldl (fun t e => max t e.2) (max t w.pts)) (m.launch c seq).pts

/-- A launch has completed (16 R263): its signal has taken its step, it leaves the pending set, and its replicas are dropped (09
R179). -/
def endLaunch (m : Mach) (c seq : Nat) : Mach :=
  let l := m.launch c seq
  let t := launchTime m c seq
  let m := (imageWrite m c (0x1100 + 512 * l.slot) (pendFields l seq 3)).getD (stopCtx m c 5 none)
  endLaunchOps (removeLaunch ((m.dropReplicasOf c seq).dropLaunch c seq) c seq) c seq 0 t

/-- LAUNCH_COMPLETE (16 R263; 10 R198). -/
def execLaunchComplete (ctx seq : Nat) (s : State) : Host.Outcome State Fault Refusal :=
  event s (match (Map.find? s.m.ctxs ctx).bind (fun x => Map.find? x.pend seq) with
    | none => none
    | some l =>
      if l.st ≠ 2 ∨ !l.svc.isEmpty ∨ l.done ≠ l.lr.blocks ∨ launchBusy s.m ctx seq ∨ (s.m.ctx ctx).st = 3 then none
      else if l.lr.done = 0 then some (endLaunch s.m ctx seq)
      else match signalPlace s.m ctx (s.m.ctx ctx).world l.lr.done with
        | .ok key => some (endLaunch (signalStep s.m key 0 (launchTime s.m ctx seq)) ctx seq)
        | .error none => some (stopCtx s.m ctx 5 none)
        | .error (some (va, size)) => some (signalWaits s.m ctx seq l.lr.done va size))

/-- AFFINITY_PATIENCE_EXPIRY (14 R250). -/
def execAffinityPatienceExpiry (ctx seq : Nat) (s : State) : Host.Outcome State Fault Refusal :=
  event s (match (Map.find? s.m.ctxs ctx).bind (fun x => Map.find? x.pend seq) with
    | none => none
    | some l => patienceEnds s.p s.m ctx seq l)

/-- VAT_MOVE_COMPLETE (14 R251). -/
def execVatMoveComplete (vat : Nat) (s : State) : Host.Outcome State Fault Refusal :=
  event s (match Map.find? s.m.vats vat with
    | none => none
    | some v =>
      match v.target with
      | none => none
      | some core =>
        if v.st ≠ 1 ∨ !(s.m.ctx v.ctx).devWait.isEmpty then none
        else match fillOnto s.m vat core with
          | .error e => some (vatImageFails s.m v e)
          | .ok m => some (m.count v.ctx 52 1))

/-- Armed launches that have fired enter the pending set as it has room (16 R265, R266). -/
def enterFired (p : Plat) (m : Mach) (c : Nat) : Mach :=
  let x := m.ctx c
  match x.fired, freePending x with
  | (lost, pts, raw) :: rest, some slot =>
    if x.st = 3 then m
    else
      let lr := LaunchRec.ofBytes raw
      match malformed m c x.world lr with
      | .error st => tableFails m c lr.code (asDevice st)
      | .ok bad => enterPending p (m.updCtx c (fun x => { x with fired := rest })) c raw lr 2 slot pts (lost || bad)
  | _, _ => m

end Sys2Proof.Machine
end

