-- ==== Sys2Proof/Machine/Service.lean ====
section
/-!
DEFINITION. Events of the fault service (09 R175; 18 R293, R294), of warps and their scheduling (04 R76, R85; 05 R110), of
leases and the rebase (10 R194, R195), and the debugger's mailbox command (21 R342).
-/

namespace Sys2Proof.Machine

/-- The context of that number, where it belongs to a function (20 R305). -/
def ownCtx (m : Mach) (fn c : Nat) : Option Ctx := (Map.find? m.ctxs c).bind (fun x => if x.fn = fn then some x else none)

/-- A warp held on a record that is refused (18 R286, R288, R294): a check of a set- or block-scope instruction's own fails
set- or block-wide (04 R91, R97). -/
def refuseWarp (m : Mach) (k code : Nat) (what : Nat) (f : FaultInfo) : Mach :=
  let c := m.ctxOf k
  let f := { f with tinfo := if what = 1 then f.tinfo else f.tinfo ||| BitVec.ofNat 32 (code * 65536) }
  let m := m.updWarp k (fun w => { w with run := .ready })
  if what = 0 then deliver m k (widen f.sc (.trap f)) else stopCtx m c 5 (some (k, f))

/-- The reply to a record reaches the warps held on it; a saved one executes its instruction again on restore (18 R294). -/
def replyWarps (m : Mach) (c seq : Nat) (refuse : Bool) (code : Nat) : Mach :=
  (m.warps.filter (fun e => (m.block e.2.block).ctx == c)).foldl (fun m e =>
    match (m.warp e.1).run with
    | .held s what f =>
      if s ≠ seq then m
      else if refuse ∧ (m.block (m.warp e.1).block).seated then refuseWarp m e.1 code what f
      else m.updWarp e.1 (fun w => { w with run := .ready })
    | _ => m) m

/-- The reply reaches the engine operations that wait on it (09 R175; 11 R204). -/
def replyOps (m : Mach) (c seq : Nat) (refuse : Bool) (code : Nat) : Mach :=
  let answer (e : Nat × Op) : Nat × Op :=
    if e.2.ctx = c ∧ e.2.held = some seq then
      (e.1, { e.2 with held := none, refused := if refuse then code else 0, ended := if refuse then some 1 else e.2.ended })
    else e
  { m with ops := m.ops.map answer }

/-- Does a launch's completion signal lie on a page of a fault record? -/
def doneOn (m : Mach) (c : Nat) (l : Launch) (sv : Service) : Bool :=
  match signalPlace m c (m.ctx c).world l.lr.done with
  | .error (some (va, size)) => sv.covers va (va / size * size) size
  | _ => false

/-- A signal's translation is refused (16 R263): as a launch enters, the launch fails, and its completion signal takes the failure
step unless it is the one refused; later, the context stops. -/
def refuseLaunch (m : Mach) (c seq : Nat) (sv : Service) : Mach :=
  let l := m.launch c seq
  if l.ready then stopCtx m c 5 none
  else if l.failing.isSome then m.dropLaunch c seq
  else if doneOn m c l sv then (failLaunch m c seq 1).dropLaunch c seq
  else failLaunch m c seq 1

/-- The reply reaches the launches whose signals wait on it (16 R263). -/
def replyLaunches (p : Plat) (m : Mach) (c seq : Nat) (refuse : Bool) (sv : Service) : Mach :=
  ((m.ctx c).pend.filter (fun e => e.2.svc.contains seq)).foldl (fun m e =>
    let l := m.launch c e.1
    if refuse then refuseLaunch m c e.1 sv
    else
      let m := m.updLaunch c e.1 (fun l => { l with svc := l.svc.filter (fun x => x != seq) })
      if l.ready ∨ l.failing.isSome ∨ !(m.launch c e.1).svc.isEmpty then m else checkSignals p m c e.1) m

/-- The reply reaches the device's own accesses to vat images (14 R356), to queues and tables (18 R295), and for the payloads of
messages (16 R266). -/
def replyDevice (m : Mach) (c seq : Nat) (refuse : Bool) : Mach :=
  let x := m.ctx c
  let m := m.updCtx c (fun x => { x with devWait := x.devWait.filter (fun s => s != seq), tabWait := x.tabWait.filter (fun s => s != seq),
                                         mail := x.mail.map (fun y => if y.svc = some seq then { y with svc := none, refused := refuse } else y) })
  if refuse ∧ x.devWait.contains seq then stopCtx m c 10 none
  else if refuse ∧ x.tabWait.contains seq then stopCtx m c 5 none else m

/-- The answer to a record of kind 0 (18 R294). -/
def serviceReply (p : Plat) (m : Mach) (c seq : Nat) (reply : Word) : Mach :=
  let refuse := reply.getLsbD 0
  let code := bits reply 7 4
  let sv := (Map.find? (m.ctx c).services seq).getD default
  let m := m.updCtx c (fun x => { x with services := Map.del x.services seq })
  let m := replyWarps m c seq refuse code
  let m := replyOps m c seq refuse code
  replyDevice (replyLaunches p m c seq refuse sv) c seq refuse

/-- FREPLY of an enabled function (20 R305; 18 R294): a reply for another function's context, or for no record, is ignored. -/
def execFreply (fn ctx seq : Nat) (reply : Word) (s : State) : Host.Outcome State Fault Refusal :=
  eventAt s (match fnOf s fn with
    | none => none
    | some _ =>
      let s := s.updFn fn (fun f => { f with freply0 := BitVec.ofNat 32 ctx, freply1 := BitVec.ofNat 32 seq })
      match (ownCtx s.m fn ctx).bind (fun x => Map.find? x.services seq) with
      | none => some s
      | some _ => some { s with m := serviceReply s.p s.m ctx seq reply })

/-- A kind-3 record that waited, with the sequence number and the time it is written at (18 R293). -/
def stampRecord (bs : List Byte) (seq ns : Nat) : List Byte :=
  bs.take 4 ++ bytesOfNat 4 seq ++ bytesOfNat 8 ns ++ bs.drop 16

/-- A context that RESET has stopped becomes idle (18 R295; 20 R306). -/
def makeIdle (m : Mach) (c : Nat) : Mach :=
  let m := ((m.blocks.filter (fun e => e.2.ctx == c)).map (·.1)).foldl (fun m bk => removeBlock (closeVats m bk) bk) m
  let m : Mach := { m with ops := m.ops.filter (fun e => e.2.ctx != c) }
  let m := m.updCtx c (fun x => { x with st := 0, reason := 0, pend := [], fired := [], mail := [], services := [], devWait := [], tabWait := [], resetBy := none,
                                         ask := 0, yieldDl := none, frozen := false })
  headerState m c

/-- Answer a mailbox command (20 R306, R307): its status, its result bytes by offset in MBXCMD, and vector 3. -/
def State.answer (s : State) (fn status : Nat) (out : List (Nat × List Byte)) : State :=
  let put (l : List (Nat × BitVec 8)) (o : Nat × List Byte) : List (Nat × BitVec 8) :=
    (o.2.zipIdx).foldl (fun l b => Map.set l (o.1 + b.2) b.1) l
  let s := s.updFn fn (fun f => { f with busy := false, status := status, mbx := out.foldl put f.mbx })
  { s with m := s.m.raise fn 3 }

/-- A warp whose fault waits for room in the fault queue of a context. -/
def queuedWarp (m : Mach) (c : Nat) : Option (Nat × Stop) :=
  m.warps.findSome? (fun e => match e.2.run with
    | .queued st => if (m.block e.2.block).ctx = c then some (e.1, st) else none
    | _ => none)

/-- A fault that waited is delivered; a hold for the debugger comes from the instruction itself (18 R293). -/
def deliverQueued (m : Mach) (k : Nat) (st : Stop) : Mach :=
  let m := m.updWarp k (fun w => { w with run := .ready })
  match st with
  | .trap f => if f.cause = .brk then m else deliver m k st
  | _ => deliver m k st

/-- FAULT_QUEUE_ROOM (18 R293): there is room, and a record that waited is written. -/
def execFaultQueueRoom (ctx : Nat) (s : State) : Host.Outcome State Fault Refusal :=
  eventAt s (match Map.find? s.m.ctxs ctx with
    | none => none
    | some x =>
      match x.waiting, queuedWarp s.m ctx with
      | bs :: rest, _ =>
        match putRecord s.m ctx (stampRecord bs) with
        | .written m => some { s with m := (m.updCtx ctx (fun x => { x with waiting := rest })).raise x.fn 1 }
        | _ => none
      | [], some (k, st) =>
        if x.st ≠ 1 ∨ (s.m.hdr ctx 0x2C 4 + 2 ^ 32 - s.m.hdr ctx 0x30 4) % 2 ^ 32 ≥ s.m.hdr ctx 0x28 4 then none
        else some { s with m := deliverQueued s.m k st }
      | [], none => none)

/-- Has a warp a ready instruction? Whether its operands are ready is timing; one that has tried in vain since the machine last
changed has none (log 10). -/
def hasReady (s : State) (k : Nat) : Bool :=
  let w := s.m.warp k
  w.run == .ready && !w.paths.isEmpty && !s.tried.contains k

/-- The active warps of a partition of a core. -/
def activeIn (m : Mach) (core part : Nat) : List Nat :=
  ((residents m core).filter (fun e => e.2.active && e.2.idx % 4 == part)).map (·.1)

/-- May the core park warp v of these active warps (04 R76): one without a ready instruction, or, where all are ready, the
youngest that has dispatched since it became active? -/
def mayPark (s : State) (act : List Nat) (v : Nat) : Bool :=
  let free := act.filter (fun j => !(s.m.warp j).justActive)
  free.contains v &&
  (if act.all (hasReady s) then free.all (fun j => decide (ageOf s.m j ≤ ageOf s.m v)) else !hasReady s v)

/-- PARKED_WARP_ACTIVATION (04 R76): a parked warp takes a free active slot, or that of a warp that may be parked. Which of
several has been ready, or without a ready instruction, longest is timing: the event names the warps. -/
def execParkedWarpActivation (warp : Nat) (victim : Option Nat) (s : State) : Host.Outcome State Fault Refusal :=
  event s (match Map.find? s.m.warps warp with
    | none => none
    | some w =>
      let b := s.m.block w.block
      let act := activeIn s.m b.core (w.idx % 4)
      let on (m : Mach) : Mach := m.updWarp warp (fun w => { w with active := true, justActive := true })
      if w.active ∨ !hasReady s warp ∨ !b.seated then none
      else match victim with
        | none => if act.length < 8 then some (on s.m) else none
        | some v =>
          if act.length < 8 ∨ !mayPark s act v then none
          else some (on (s.m.updWarp v (fun w => { w with active := false }))))

/-- DISPATCH_STARVATION (04 R85): the warp is placed above all others until it dispatches. -/
def execDispatchStarvation (warp : Nat) (s : State) : Host.Outcome State Fault Refusal :=
  event s (match Map.find? s.m.warps warp with
    | none => none
    | some w =>
      if w.active ∧ hasReady s warp ∧ canIssue s.m warp then some (s.m.updWarp warp (fun w => { w with urgent := true })) else none)

/-- TURN_INSTRUCTION_LIMIT (05 R110). -/
def execTurnInstructionLimit (warp : Nat) (s : State) : Host.Outcome State Fault Refusal :=
  event s (match Map.find? s.m.warps warp with
    | none => none
    | some w => if w.paths.isEmpty ∨ w.path.turn < 4096 then none
                else some (s.m.updWarp warp (fun w => { w with paths := endTurn w.paths })))

/-- TURN_STALL_LIMIT (05 R110): a sibling of the current path is runnable. A warp held for service, for the debugger or for the
fault queue stays at the instruction that is held. -/
def execTurnStallLimit (warp : Nat) (s : State) : Host.Outcome State Fault Refusal :=
  event s (match Map.find? s.m.warps warp with
    | none => none
    | some w => if w.run == .ready && (w.paths.drop 1).any Path.runnable && w.path.runnable then
                  some (s.m.updWarp warp (fun w => { w with paths := endTurn w.paths }))
                else none)

/-- LEASE_EXPIRY (10 R194): a copy that has served loads for long is dropped. -/
def execLeaseExpiry (core sector : Nat) (s : State) : Host.Outcome State Fault Refusal :=
  event s (s.m.dropOld core sector)

/-- The greatest timestamp of the package. -/
def Mach.latest (m : Mach) : Nat :=
  let top (t : Nat) (xs : List Nat) : Nat := xs.foldl max t
  let t := top (top 0 (m.rts.map (·.2))) (m.wts.map (·.2))
  let t := m.warps.foldl (fun t e => top (max t e.2.pts) (e.2.opPts.map (·.2) ++ e.2.tiles.map (fun x => x.2.rts))) t
  let t := top t (m.ops.map (fun e => e.2.pts))
  m.ctxs.foldl (fun t e => top t (e.2.vatPts.map (·.2) ++ e.2.pend.map (fun l => l.2.pts))) t

/-- Is a rebase due (10 R195)? It comes before an access of the next step could carry a timestamp past 2^47 (DESIGN CHOICE, log 7: one
step raises none by 2^24). -/
def Mach.rebaseDue (m : Mach) : Bool := decide (2 ^ 47 - 2 ^ 24 ≤ m.latest)

/-- The rebase (10 R195): every copy is dropped, every timestamp becomes 0, and the epoch advances. Operations in flight, which the
device lets complete, carry theirs to 0 too. -/
def rebase (m : Mach) : Mach :=
  let seated (w : Warp) : Bool := (m.block w.block).seated
  let zero (e : Nat × Warp) : Nat × Warp :=
    if seated e.2 then
      (e.1, { e.2 with pts := 0, opPts := [], ptsEpoch := (m.epoch + 1) % 2 ^ 16,
                       futs := e.2.futs.map (fun f => (f.1, { f.2 with pts := 0 })),
                       tiles := e.2.tiles.map (fun t => (t.1, { t.2 with pts := 0, rts := 0 })) })
    else e
  let set (w : Nat × WeightSet) : Nat × WeightSet := (w.1, { w.2 with gens := w.2.gens.map (fun g => (g.1, { g.2 with pts := 0 })) })
  let ctx (e : Nat × Ctx) : Nat × Ctx :=
    (e.1, { e.2 with vatPts := [], wsets := e.2.wsets.map set, pend := e.2.pend.map (fun l => (l.1, { l.2 with pts := 0 })),
                     fired := e.2.fired.map (fun f => (f.1, 0, f.2.2)) })
  { m with l1 := [], replicas := [], wts := [], rts := [], epoch := m.epoch + 1, warps := m.warps.map zero,
           ctxs := m.ctxs.map ctx, ops := m.ops.map (fun e => (e.1, { e.2 with pts := 0 })) }

/-- REBASE (10 R195). -/
def execRebase (s : State) : Host.Outcome State Fault Refusal :=
  event s (if s.m.rebaseDue then some (rebase s.m) else none)

/-- SAFE_POINT_HOLD (21 R342): a warp that would enter a stopped or breakpointed safe point is held before it. -/
def execSafePointHold (warp : Nat) (s : State) : Host.Outcome State Fault Refusal :=
  event s (match Map.find? s.m.warps warp with
    | none => none
    | some _ =>
      if !canIssue s.m warp then none
      else match fetch s.m warp with
        | .debug m => some m
        | _ => none)

/-- May a function command a context (20 R306)? Its own, and the PF any; the status it gets otherwise (log 23). -/
def mayCommand (m : Mach) (fn c : Nat) : Except Nat Ctx :=
  match Map.find? m.ctxs c with
  | none => .error 1
  | some x => if fn = 0 ∨ x.fn = fn then .ok x else .error 8

/-- Does a function's mailbox serve commands (23 R353)? From the success of stage 4 on. -/
def Phase.serves : Phase → Bool
  | .ready => true
  | .waiting stage => decide (4 < stage)
  | _ => false

/-- A mailbox command of a function that is enabled and not busy; `f` gives the state and the answer. Before stage 4 has
succeeded a command is not accepted (23 R353); `early` says whether it acts in recovery, where others answer DENIED. -/
def mailbox (fn : Nat) (early : Bool) (s : State) (f : State → State × Nat × List (Nat × List Byte)) :
    Host.Outcome State Fault Refusal :=
  eventAt s (match Map.find? s.p.fns fn with
    | none => none
    | some x =>
      let act : State := let r := f s; r.1.answer fn r.2.1 r.2.2
      if !x.enabled ∨ x.busy then none
      else if s.p.boot.phase = .recovery then some (if early then act else s.answer fn 8 [])
      else if s.p.boot.phase.serves then some act
      else some s)

/-- A mailbox command other than those of R354. -/
def command (fn : Nat) (s : State) (f : State → State × Nat × List (Nat × List Byte)) : Host.Outcome State Fault Refusal :=
  mailbox fn false s f

/-- A command that the PF alone may give (20 R306). -/
def pfCommand (fn : Nat) (s : State) (f : State → State × Nat × List (Nat × List Byte)) : Host.Outcome State Fault Refusal :=
  command fn s (fun s => if fn = 0 then f s else (s, 8, []))

/-- A debugger's command on a context whose header has the debugger flag (21 R340). -/
def debugCommand (fn ctx : Nat) (s : State) (f : Mach → Option Mach) : Host.Outcome State Fault Refusal :=
  command fn s (fun s =>
    match mayCommand s.m fn ctx with
    | .error st => (s, st, [])
    | .ok _ =>
      if !debugged s.m ctx then (s, 1, [])
      else match f s.m with
        | none => (s, 1, [])
        | some m => ({ s with m := m }, 0, []))

/-- The warps of a context. -/
def ctxWarps (m : Mach) (c : Nat) : List Nat :=
  (m.blocks.filter (fun e => e.2.ctx == c && e.2.pre != .gone)).flatMap (fun e => (m.warpsOf e.1).map (·.1))

/-- DEBUG action 0, Stop (21 R342). -/
def execDebugStop (fn ctx : Nat) (s : State) : Host.Outcome State Fault Refusal :=
  debugCommand fn ctx s (fun m => some (m.updWarps (ctxWarps m ctx) (fun _ w => { w with halt := true })))

/-- The held warp that a debugger names by LAUNCHID, flat block and index. -/
def debugWarp (m : Mach) (c : Nat) (n : WarpName) : Option Nat :=
  (ctxWarps m c).find? (fun k =>
    (m.warp k).run == .debug && launchId (m.blockOf k) == n.launch && (m.blockOf k).flat == n.flat && (m.warp k).idx == n.warp)

/-- DEBUG action 1, Release warp (21 R342). -/
def execDebugReleaseWarp (fn ctx : Nat) (w : WarpName) (s : State) : Host.Outcome State Fault Refusal :=
  debugCommand fn ctx s (fun m => (debugWarp m ctx w).map (fun k => m.updWarp k (fun w => { w with run := .ready })))

/-- DEBUG action 2, Release all (21 R342). -/
def execDebugReleaseAll (fn ctx : Nat) (s : State) : Host.Outcome State Fault Refusal :=
  debugCommand fn ctx s (fun m => some (m.updWarps (ctxWarps m ctx) (fun _ w =>
    { w with run := if w.run == .debug then .ready else w.run, trap := w.trap.map (fun (t : TrapSt) => { t with debug := false }) })))

/-- DEBUG action 3, Set breakpoint (21 R342): there are 16 entries. -/
def execDebugSetBreakpoint (fn ctx entry code ordinal : Nat) (s : State) : Host.Outcome State Fault Refusal :=
  debugCommand fn ctx s (fun m =>
    if 16 ≤ entry then none
    else some (m.updCtx ctx (fun x => { x with breaks := Map.ins x.breaks entry { code := code, ordinal := ordinal } })))

/-- DEBUG action 4, Clear breakpoint (21 R342). -/
def execDebugClearBreakpoint (fn ctx entry : Nat) (s : State) : Host.Outcome State Fault Refusal :=
  debugCommand fn ctx s (fun m =>
    if 16 ≤ entry then none else some (m.updCtx ctx (fun x => { x with breaks := Map.del x.breaks entry })))

/-- DEBUG action 5, Dump (21 R342; 18 R298): the warp's record shows its lines and its control line. -/
def execDebugDump (fn ctx : Nat) (w : WarpName) (s : State) : Host.Outcome State Fault Refusal :=
  debugCommand fn ctx s (fun m => (debugWarp m ctx w).map (fun k =>
    (recordWrite m (m.warp k).block (dumpWrites m k)).getD (stopCtx m ctx 5 none)))

end Sys2Proof.Machine
end

