-- ==== Sys2Proof/Machine/Tenants.lean ====
section
/-!
DEFINITION. Functions, their registers and mailbox commands (20 R305 to R311, R313 to R319), and the tables of R170.
-/

namespace Sys2Proof.Machine

/-- QUEUE_SELECTOR_WRITE (20 R305): ignored while records are queued, and MBXSTAT then reads FAIL. -/
def execQueueSelectorWrite (fn q : Nat) (value : Word) (s : State) : Host.Outcome State Fault Refusal :=
  eventAt s ((fnOf s fn).bind (fun f => (Map.find? f.queues q).map (fun r =>
    s.updFn fn (fun f => if r.prod = r.cons then { f with queues := Map.ins f.queues q { r with sel := value.toNat } }
                         else { f with status := 1 }))))

/-- TSYNC (20 R305; 09 R170): ignored for another function's context, and while one is under way (log 23). -/
def execTsync (fn : Nat) (value : Word) (s : State) : Host.Outcome State Fault Refusal :=
  eventAt s ((fnOf s fn).map (fun f =>
    if f.tsync.isSome ∨ (ownCtx s.m fn value.toNat).isNone then s else s.updFn fn (fun f => { f with tsync := some value.toNat })))

/-- TSYNC_COMPLETE (20 R305; 09 R170). Handle entries and translations are read afresh at every use (log 7). -/
def execTsyncComplete (fn : Nat) (s : State) : Host.Outcome State Fault Refusal :=
  eventAt s ((fnOf s fn).bind (fun f => f.tsync.map (fun _ =>
    s.updFn fn (fun f => { f with tsync := none, tsyncDone := (f.tsyncDone + 1) % 2 ^ 32 }))))

/-- The counters of clocks, of L2 and translation caches and of stalls, whose events the model does not tell (log 4). -/
def timedCounters : List Nat := [0, 6, 8, 25, 26, 30, 36, 37, 42, 44, 47, 66, 67, 79]

/-- A counter's events up to now are counted (06 R124): those that the model does not tell come on by a free number at each reading
(log 4), and a context's vats count the clocks that have passed (14 R256). -/
def bringUp (m : Mach) (c i : Nat) : Mach :=
  if timedCounters.contains i then m.count c i (Config.timedCounter i m.tick)
  else if i = 48 ∨ i = 49 then vatClocks m c else m

/-- A counter of a context (06 R124). -/
def counterValue (m : Mach) (c i : Nat) : Nat := (Map.find? (m.ctx c).counters i).getD 0

/-- CSEL (20 R305): another function's context reads zero. -/
def execCsel (fn : Nat) (value : Word) (s : State) : Host.Outcome State Fault Refusal :=
  eventAt s ((fnOf s fn).map (fun _ =>
    let c := bits value 7 0
    let i := bits value 23 16
    match ownCtx s.m fn c with
    | none => s.updFn fn (fun f => { f with csel := value.toNat, cval := 0 })
    | some _ =>
      let m := bringUp s.m.tickOn c i
      ({ s with m := m } : State).updFn fn (fun f => { f with csel := value.toNat, cval := counterValue m c i })))

/-- PORTSTAT_CLEAR (20 R318). -/
def execPortstatClear (port : Nat) (s : State) : Host.Outcome State Fault Refusal :=
  eventAt s ((Map.find? s.p.ports port).map (fun x =>
    { s with p := { s.p with ports := Map.ins s.p.ports port { x with failed := false } } }))

/-- The low or the high word of a 64-bit register. -/
def setLow (x : Nat) (v : Word) : Nat := x / 2 ^ 32 * 2 ^ 32 + v.toNat
def setHigh (x : Nat) (v : Word) : Nat := x % 2 ^ 32 + v.toNat * 2 ^ 32

/-- A ring's register at an offset from its first: base, entries, and where software writes it the producer index. -/
def ringWrite (r : Ring) (o prodAt : Nat) (v : Word) : Ring :=
  if o = 0 then { r with base := setLow r.base v }
  else if o = 4 then { r with base := setHigh r.base v }
  else if o = 8 then { r with entries := v.toNat }
  else if o = prodAt then { r with prod := v.toNat }
  else r

/-- The write of a register without behaviour of its own (20 R305): read-only and unlisted offsets ignore it. -/
def registerWrite (off : Nat) (v : Word) (f : Fn) : Fn :=
  if 0x40 ≤ off ∧ off < 0x80 then
    { f with mbx := ((bytesOfNat 4 v.toNat).zipIdx).foldl (fun l b => Map.set l (off - 0x40 + b.2) b.1) f.mbx }
  else if 0x100 ≤ off ∧ off < 0x180 then
    { f with queues := Map.upd f.queues ((off - 0x100) / 32) (fun r => ringWrite r (off % 32) 0x10 v) }
  else if off = 0x210 then { f with freply0 := v }
  else if off = 0x214 then { f with freply1 := v }
  else if 0x300 ≤ off ∧ off < 0x314 then { f with intake := ringWrite f.intake (off - 0x300) 0x0C v }
  else if 0x320 ≤ off ∧ off < 0x334 then { f with intakeStatus := ringWrite f.intakeStatus (off - 0x320) 0x40 v }
  else f

/-- A context as CREATE makes it (20 R306): no teams, P = Q = 1, g = 0. -/
def newCtx (fn hdr world : Nat) : Ctx :=
  { fn := fn, world := world, st := 0, reason := 0, hdr := hdr, teams := 0, margin := 0, period := 1, share := 1, grace := 0,
      yieldDl := none, debt := 0, comp := 0, holds := false, ask := 0, rival := none, sliceEnd := 0, used := 0, cycle := 0, devWait := [], tabWait := [], mail := [], pend := [], nextSeq := 0, arms := [],
      fired := [], services := [], faultSeq := 0, waiting := [], counters := [], wsets := [], nvme := [], resetBy := none, breaks := [],
      colls := [], zeros := [], frozen := false, vatPts := [] }

/-- The status of a CREATE (20 R306; log 23 for the order of the checks). -/
def createStatus (s : State) (f : Fn) (fn hdr world : Nat) : Nat :=
  if hdr % 4096 ≠ 0 ∨ Config.deviceBytes ≤ hdr ∨ 2 ≤ world then 1
  else if (world = 1 ∧ !f.secure) ∨ s.m.tag hdr ≠ world then 8
  else if 256 ≤ s.m.ctxs.length ∨ (fn ≠ 0 ∧ f.quota ≤ (s.m.ctxs.filter (fun e => e.2.fn == fn)).length) then 9
  else 0

/-- CREATE (20 R306; 18 R296): the lowest free number; the world byte, the state and the stop reason are written. -/
def execCreateCtx (fn hdr world : Nat) (s : State) : Host.Outcome State Fault Refusal :=
  command fn s (fun s =>
    let f := (fnOf s fn).getD Fn.empty
    match createStatus s f fn hdr world, (List.range 256).find? (fun i => (Map.find? s.m.ctxs i).isNone) with
    | 0, some c =>
      let m := headerState (worldByte (s.m.setCtx c (newCtx fn hdr world)) c) c
      ({ s with m := m }, 0, [(4, bytesOfNat 4 c)])
    | 0, none => (s, 9, [])
    | st, _ => (s, st, []))

/-- The checks of RUN on a context's header (18 R296). -/
def headerRuns (m : Mach) (c : Nat) : Bool :=
  let x := m.ctx c
  m.hdr c 0x3F 1 / 4 == 0 && (List.range 3992).all (fun i => Mem.read m.mem (Space.dev.key (x.hdr + 0x68 + i)) == 0) &&
  (match imageBase m c default with
   | .error _ => false
   | .ok base => match translate m c .read base with | .ok pa => pa == x.hdr | .error _ => false)

/-- RUN (20 R306): the thread of an idle or a saved context joins the run queue. A context whose thread the executive has
descheduled runs on, although its header reads saved meanwhile (18 R296). -/
def execRunCtx (fn ctx : Nat) (s : State) : Host.Outcome State Fault Refusal :=
  command fn s (fun s =>
    match mayCommand s.m fn ctx with
    | .error st => (s, st, [])
    | .ok x =>
      if (x.st ≠ 0 ∧ (x.st ≠ 1 ∨ x.holds)) ∨ x.teams = 0 ∨ !headerRuns s.m ctx then (s, 1, [])
      else if x.st = 1 then (s, 0, [])
      else ({ s with m := headerState (s.m.updCtx ctx (fun x => { x with st := 1 })) ctx }, 0, []))

/-- A command that stops a context (18 R295; 06 R119): it is busy until the context's blocks have left their seats and its kind-3
record is written; DESTROY drops a record that has no room. -/
def stopCommand (fn ctx : Nat) (destroys : Bool) (s : State) : Host.Outcome State Fault Refusal :=
  match mayCommand s.m fn ctx, Map.find? s.p.fns fn with
  | .ok x, some f =>
    if x.resetBy.isSome then command fn s (fun s => (s, 7, []))
    else if !s.p.boot.phase.serves then command fn s (fun s => (s, 8, []))
    else eventAt s (if !f.enabled ∨ f.busy then none
      else
        let m := stopCtx s.m ctx 9 none
        let m := m.updCtx ctx (fun x => { x with resetBy := some (fn, destroys), waiting := if destroys then [] else x.waiting })
        some ({ s with m := m }.updFn fn (fun f => { f with busy := true })))
  | .error st, _ => command fn s (fun s => (s, st, []))
  | _, none => .next s

/-- RESET (20 R306; 18 R295). -/
def execResetCtx (fn ctx : Nat) (s : State) : Host.Outcome State Fault Refusal := stopCommand fn ctx false s

/-- A context's vats, launches, weight sets and number are freed (14 R255; 20 R306). -/
def destroy (m : Mach) (c : Nat) : Mach :=
  let m := makeIdle m c
  let m := ((m.vats.filter (fun e => e.2.ctx == c)).map (·.1)).foldl removeVat m
  { m with ctxs := Map.del m.ctxs c, teamCtx := m.teamCtx.filter (fun e => e.2 != c) }

/-- DESTROY (20 R306; 18 R295). -/
def execDestroyCtx (fn ctx : Nat) (s : State) : Host.Outcome State Fault Refusal := stopCommand fn ctx true s

/-- A RESET or a DESTROY of a context takes effect and is answered (20 R306; 18 R295): a reset context is idle, and a destroyed
one is gone, with the teams it had borrowed scrubbed and given back (20 R311). -/
def finishStop (s : State) (c : Nat) : State :=
  match (s.m.ctx c).resetBy with
  | none => s
  | some (fn, destroys) =>
    if !(s.m.ctx c).waiting.isEmpty ∨ s.m.blocks.any (fun e => e.2.ctx == c && e.2.seated) then s
    else if destroys then
      let back := (s.p.lent.filter (fun e => e.2 == c)).map (·.1)
      let m := destroy (back.foldl scrubTeam s.m) c
      State.answer { s with m := m, p := { s.p with lent := s.p.lent.filter (fun e => e.2 != c),
                                                    revoking := s.p.revoking.filter (fun t => !back.contains t) } } fn 0 []
    else State.answer { s with m := makeIdle s.m c } fn 0 []

/-- Does a launch of the context bind a generation of weight set i (20 R319, R324)? -/
def setBound (x : Ctx) (i : Nat) : Bool := x.pend.any (fun l => l.2.gens.any (fun g => g.1 == i))

/-- WSREG (20 R319). -/
def execWsreg (fn ctx set handle : Nat) (s : State) : Host.Outcome State Fault Refusal :=
  command fn s (fun s =>
    match mayCommand s.m fn ctx with
    | .error st => (s, st, [])
    | .ok x =>
      let put (ws : List (Nat × WeightSet)) : State := { s with m := s.m.updCtx ctx (fun x => { x with wsets := ws }) }
      if 16 ≤ set then (s, 1, [])
      else if handle = 0 then (if setBound x set then (s, 7, []) else (put (Map.del x.wsets set), 0, []))
      else if handle < 2 ∨ 4063 < handle then (s, 1, [])
      else match tableHandle s.m ctx default handle with
        | .ok (some e) =>
          if e.kind = 1 ∧ e.access = 1 ∧ e.world = x.world then
            let old := (Map.find? x.wsets set).getD { handle := 0, nextGen := 1, cur := none, gens := [] }
            (put (Map.ins x.wsets set { old with handle := handle }), 0, [])
          else (s, 1, [])
        | _ => (s, 1, []))

/-- QUOTA (20 R306). -/
def execQuota (fn vf contexts : Nat) (secure : Bool) (s : State) : Host.Outcome State Fault Refusal :=
  pfCommand fn s (fun s =>
    if vf = 0 ∨ 64 ≤ vf then (s, 1, [])
    else (s.updFn vf (fun f => { f with quota := contexts, secure := secure }), 0, []))

/-- A context's demand on teams, for the placement of R310: its teams, period and share. -/
structure Demand where
  teams : Word
  period : Nat
  share : Nat

/-- The sets of pairwise disjoint demands, the largest first, as flags in order. -/
def choices : Word → List (Demand × Nat) → List (List Bool)
  | _, [] => [[]]
  | busy, (d, left) :: ds =>
    (if left ≠ 0 ∧ d.teams &&& busy = 0 then (choices (busy ||| d.teams) ds).map (true :: ·) else []) ++
      (choices busy ds).map (false :: ·)

/-- One slice passes for a demand with `left` slices still due in its period: none if the period ends with some due. -/
def slicePassed (t : Nat) (d : Demand × Nat) (run : Bool) : Option (Demand × Nat) :=
  let left := if run then d.2 - 1 else d.2
  if (t + 1) % d.1.period = 0 then (if left = 0 then some (d.1, d.1.share) else none) else some (d.1, left)

/-- Can the slices from t on, n of them, be placed (20 R310)? -/
def placeable : Nat → Nat → List (Demand × Nat) → Bool
  | 0, _, _ => true
  | n + 1, t, ds =>
    (choices 0 ds).any (fun c =>
      match (ds.zip c).mapM (fun x => slicePassed t x.1 x.2) with
      | none => false
      | some ds => placeable n (t + 1) ds)

/-- Can the executive place every context's slices so that each holds all of its guaranteed teams at once (20 R310; log 24)? -/
def canPlace (ds : List Demand) : Bool :=
  placeable (ds.foldl (fun n d => Nat.lcm n d.period) 1) 0 (ds.map (fun d => (d, d.share)))

/-- Is the time of every team enough for the contexts that guarantee it: is the sum of Q / P at most 1 (20 R310)? -/
def teamTimes (ds : List Demand) : Bool :=
  (List.range 32).all (fun t =>
    let on := ds.filter (fun d => d.teams.getLsbD t)
    let l := on.foldl (fun n d => Nat.lcm n d.period) 1
    decide ((on.map (fun d => d.share * (l / d.period))).sum ≤ l))

/-- May TIMEPARAM set these parameters (16 R267; 20 R310)? A margin team that is lent stays its owner's margin (DESIGN CHOICE, log 24). -/
def timeparamOk (p : Plat) (m : Mach) (c : Nat) (tp : TimeParam) : Bool :=
  let others := (m.ctxs.filter (fun e => e.1 != c)).map (·.2)
  let ds := (others.filter (fun x => x.teams != 0)).map (fun x => { teams := x.teams, period := x.period, share := x.share : Demand })
  let mine : List Demand := if tp.teams = 0 then [] else [{ teams := tp.teams, period := tp.period, share := tp.share }]
  decide (1 ≤ tp.period) && decide (tp.period ≤ 64) && decide (1 ≤ tp.share) && decide (tp.share ≤ tp.period) &&
  decide (tp.grace ≤ 10000) && tp.teams &&& tp.margin == 0 &&
  p.lent.all (fun e => !(m.ctx c).margin.getLsbD e.1 || tp.margin.getLsbD e.1) &&
  others.all (fun x => x.teams &&& tp.margin == 0 && x.margin &&& tp.margin == 0 && x.margin &&& tp.teams == 0) &&
  teamTimes (mine ++ ds) && canPlace (mine ++ ds)

/-- TIMEPARAM (20 R306, R310). -/
def execTimeparam (fn ctx : Nat) (tp : TimeParam) (s : State) : Host.Outcome State Fault Refusal :=
  pfCommand fn s (fun s =>
    match Map.find? s.m.ctxs ctx with
    | none => (s, 1, [])
    | some x =>
      if x.st = 1 then (s, 7, [])
      else if !timeparamOk s.p s.m ctx tp then (s, 1, [])
      else ({ s with m := s.m.updCtx ctx (fun x =>
        { x with teams := tp.teams, margin := tp.margin, period := tp.period, share := tp.share, grace := tp.grace }) }, 0, []))

/-- The regions of a TAG from their base. -/
def regionsOf (base count : Nat) : List Nat := rangeFrom (base / 2 ^ 21) count

/-- TAG (20 R308): copies of the regions' lines are dropped, the bytes are zeroed, and then the tag is set. -/
def execTagRegion (fn base count world : Nat) (s : State) : Host.Outcome State Fault Refusal :=
  pfCommand fn s (fun s =>
    let m := s.m
    let hi := base + count * 2 ^ 21
    if base % 2 ^ 21 ≠ 0 ∨ Config.deviceBytes < hi ∨ 2 ≤ world then (s, 1, [])
    else if (regionsOf base count).any isManagement then (s, 8, [])
    else
      let tags := (regionsOf base count).foldl (fun l r => if world = 0 then Map.del l r else Map.ins l r world) m.tags
      let m := { m.dropCopies (fun line => decide (base ≤ 128 * line) && decide (128 * line < hi)) with
                        mem := Map.dropRange m.mem (Space.dev.key base) (Space.dev.key base + count * 2 ^ 21),
                        poison := Map.dropRange m.poison (base / 16) (hi / 16), tags := tags }
      ({ s with m := m }, 0, []))

/-- Is an entry of a slot table valid (20 R313)? -/
def slotEntryOk (e : BitVec 16) : Bool :=
  let kind := e.toNat / 2 ^ 14
  kind != 3 && e.toNat / 2 ^ 6 % 2 ^ 8 == 0 && (kind == 1 || e.toNat % 2 ^ 6 == 0)

/-- The table that every link direction has at package start (20 R315): slot 0 of kind 2, all others of kind 0. -/
def startTable : List (BitVec 16) := 0x8000 :: List.replicate 511 0

/-- The slot table of a link direction (20 R313, R315). -/
def Plat.slotTable (p : Plat) (link : Nat) : List (BitVec 16) := (Map.find? p.slots link).getD startTable

/-- The start of the second frame after a device time (20 R312, R314). -/
def secondFrame (ns : Nat) : Nat := (ns / 32000 + 2) * 32000

/-- SLOTS (20 R313, R314): an invalid table, or a link that Slombevor's topology map does not have, is refused, and the old table stays. -/
def execSlots (fn link : Nat) (entries : List (BitVec 16)) (s : State) : Host.Outcome State Fault Refusal :=
  pfCommand fn s (fun s =>
    if Config.isLink link ∧ entries.length = 512 ∧ entries.all slotEntryOk then
      ({ s with p := { s.p with slotsNext := Map.ins s.p.slotsNext link (secondFrame s.m.ns, entries) } }, 0, [])
    else (s, 1, []))

/-- SLOT_TABLE_INSTALL (20 R314): the frame of a link's new table starts, and every table that waits for that frame is installed. -/
def execSlotTableInstall (link : Nat) (s : State) : Host.Outcome State Fault Refusal :=
  eventAt s ((Map.find? s.p.slotsNext link).map (fun t =>
    let now := max s.m.ns t.1
    let due := s.p.slotsNext.filter (fun e => decide (e.2.1 ≤ now))
    { s with m := { s.m with ns := now },
             p := { s.p with slots := due.foldl (fun l e => Map.ins l e.1 e.2.2) s.p.slots,
                             slotsNext := s.p.slotsNext.filter (fun e => !decide (e.2.1 ≤ now)) } }))

/-- An export entry from its 16 bytes (20 R316). -/
def ExportEntry.ofBytes (bs : List Byte) : ExportEntry :=
  { typ := fieldAt bs 0 1, ctx := fieldAt bs 3 1, num := fieldAt bs 4 2, node := fieldAt bs 6 2,
    reserved := fieldAt bs 1 1 + fieldAt bs 2 1 + fieldAt bs 8 8 }

/-- EXPORT (20 R316, R309): an entry that names a handle of world 1 is refused. -/
def execExportEntry (fn entry : Nat) (e : ExportEntry) (s : State) : Host.Outcome State Fault Refusal :=
  pfCommand fn s (fun s =>
    if 4096 ≤ entry ∨ 2 < e.typ ∨ e.reserved ≠ 0 then (s, 1, [])
    else
      let secure := match (if e.typ = 1 ∧ (Map.find? s.m.ctxs e.ctx).isSome then tableHandle s.m e.ctx default e.num else .ok none) with
        | .ok (some h) => h.world == 1
        | _ => false
      if secure then (s, 8, []) else ({ s with m := { s.m with exports := Map.ins s.m.exports entry e } }, 0, []))

/-- The owner of a margin team (20 R310). -/
def marginOwner (m : Mach) (t : Nat) : Option Nat := (m.ctxs.find? (fun e => e.2.margin.getLsbD t)).map (·.1)

/-- LEND (20 R310): the owner's vats leave the team first (14 R253), and the command answers BUSY while one cannot be written out
(DESIGN CHOICE, log 24). -/
def execLend (fn team ctx : Nat) (s : State) : Host.Outcome State Fault Refusal :=
  pfCommand fn s (fun s =>
    match (if team < 32 then marginOwner s.m team else none), Map.find? s.m.ctxs ctx with
    | some own, some x =>
      if own = ctx ∨ x.st ≠ 1 ∨ s.p.isLent team then (s, 1, [])
      else if s.m.blocks.any (fun e => e.2.ctx == own && e.2.seated && teamOf e.2.core == team) then (s, 7, [])
      else
        let m := leaveTeam s.m own team
        if !(heldVats m own (· == team)).isEmpty then ({ s with m := m }, 7, [])
        else ({ s with m := passTeam m ctx team, p := { s.p with lent := Map.ins s.p.lent team ctx } }, 0, [])
    | _, _ => (s, 1, []))

/-- A lent team is revoked (20 R310, R311): the borrower's blocks on it are pre-empted, each with its gang (04 R80). -/
def revoke (s : State) (team c : Nat) : State :=
  let m := s.m.tickOn
  let bks := dedup (((m.blocks.filter (fun e => e.2.ctx == c && e.2.seated && teamOf e.2.core == team)).map (·.1)).flatMap (withGang m))
  { s with m := preemptBlocks m c (Config.freeWord 11 m.tick).toNat bks true,
           p := { s.p with revoking := if s.p.revoking.contains team then s.p.revoking else s.p.revoking ++ [team] } }

/-- Does the owner's dispatcher need a lent team: has it an admitted deadline launch with blocks to seat (20 R310)? -/
def ownerNeeds (m : Mach) (team : Nat) : Bool :=
  (marginOwner m team).any (fun c => (m.ctx c).pend.any (fun e =>
    e.2.st == 2 && e.2.lr.deadline != 0 && !(nextFlats m c e.1 e.2).isEmpty))

/-- LEND with 0xFF, or the owner's dispatcher, which fn 64 stands for (20 R310, R311). -/
def execLendRevoke (fn team : Nat) (s : State) : Host.Outcome State Fault Refusal :=
  if fn = 64 then eventAt s (if ownerNeeds s.m team then (Map.find? s.p.lent team).map (fun c => revoke s team c) else none)
  else pfCommand fn s (fun s => match Map.find? s.p.lent team with
    | none => (s, 1, [])
    | some c => (revoke s team c, 0, []))

/-- NVMEGRANT (20 R306). -/
def execNvmegrant (fn ctx ns : Nat) (grant : Bool) (s : State) : Host.Outcome State Fault Refusal :=
  pfCommand fn s (fun s =>
    if (Map.find? s.m.ctxs ctx).isNone then (s, 1, [])
    else ({ s with m := s.m.updCtx ctx (fun x =>
      { x with nvme := (x.nvme.filter (fun n => n != ns)) ++ (if grant then [ns] else []) }) }, 0, []))

/-- VF_ENABLE (20 R305): the home link is chosen while the VF is disabled. -/
def execVfEnable (vf : Nat) (on : Bool) (link : Nat) (s : State) : Host.Outcome State Fault Refusal :=
  eventAt s (match Map.find? s.p.fns vf with
    | none => none
    | some f =>
      if vf = 0 ∨ f.enabled = on ∨ 2 ≤ link then none
      else some (s.updFn vf (fun f => { f with enabled := on, home := if on then link else f.home })))

/-- A lent team that is being revoked returns to its owner, scrubbed, once the borrower's blocks and vats have left it (20 R310, R311; 14
R253). -/
def returnTeam (s : State) (t : Nat) : State :=
  let c := (Map.find? s.p.lent t).getD 256
  if s.m.blocks.any (fun e => e.2.ctx == c && teamOf e.2.core == t && e.2.seated) then s
  else
    let m := leaveTeam s.m c t
    if !(heldVats m c (· == t)).isEmpty then { s with m := m }
    else
      let m := match marginOwner m t with | some own => passTeam m own t | none => scrubTeam m t
      { s with m := m, p := { s.p with lent := Map.del s.p.lent t, revoking := s.p.revoking.filter (fun x => x != t) } }

/-- Lent teams that are being revoked return. -/
def pumpTeams (s : State) : State := s.p.revoking.foldl returnTeam s

end Sys2Proof.Machine
end

