-- ==== Sys2Proof/Machine/Weights.lean ====
section
/-!
DEFINITION. The intake of weight sets (20 R319 to R325). The rings and the report buffer of a function hold device physical
addresses (log 25).
-/

namespace Sys2Proof.Machine

/-- A status record (20 R325). -/
def statusBytes (ev ctx set gen idx : Nat) : List Byte :=
  bytesOfNat 1 ev ++ bytesOfNat 1 ctx ++ bytesOfNat 1 set ++ bytesOfNat 1 0 ++ bytesOfNat 4 gen ++ bytesOfNat 4 idx ++ bytesOfNat 4 0

/-- Is there room on a ring that the device fills? -/
def Ring.room (r : Ring) : Bool := decide ((r.prod + 2 ^ 32 - r.cons) % 2 ^ 32 < r.entries)

/-- Write the status records that wait, as far as there is room; vector 2 follows each (20 R307, R325). -/
def flushStatus (fn : Nat) : List (List Byte) → State → State
  | [], s => s.updFn fn (fun f => { f with held := [] })
  | bs :: rest, s =>
    match Map.find? s.p.fns fn with
    | none => s
    | some f =>
      let r := f.intakeStatus
      if r.room then
        let m := s.m.poke (Space.dev.key (r.base + 16 * (r.prod % r.entries))) bs
        flushStatus fn rest ({ s with m := m.raise fn 2 }.updFn fn (fun f =>
          { f with intakeStatus := { r with prod := (r.prod + 1) % 2 ^ 32 } }))
      else s.updFn fn (fun f => { f with held := bs :: rest })

/-- Report on the status ring of a function. -/
def report (s : State) (fn : Nat) (bs : List Byte) : State :=
  flushStatus fn (((Map.find? s.p.fns fn).map (fun f => f.held)).getD [] ++ [bs]) s

/-- The command at the head of a function's intake ring; none while the intake is held by a full status ring. -/
def intakeHead (s : State) (fn : Nat) : Option (List Byte) :=
  (Map.find? s.p.fns fn).bind (fun f =>
    let r := f.intake
    if !f.held.isEmpty ∨ r.prod = r.cons ∨ r.entries = 0 then none
    else some (Mem.readN s.m.mem (Space.dev.key (r.base + 64 * (r.cons % r.entries))) 64))

/-- The command at the head has been taken. -/
def intakeTaken (s : State) (fn : Nat) : State :=
  s.updFn fn (fun f => { f with intake := { f.intake with cons := (f.intake.cons + 1) % 2 ^ 32 } })

/-- Change a weight set. -/
def Mach.updSet (m : Mach) (c i : Nat) (f : WeightSet → WeightSet) : Mach :=
  m.updCtx c (fun x => { x with wsets := Map.upd x.wsets i f })

/-- The generation of a weight set that is assembling. -/
def WeightSet.assembling (w : WeightSet) : Option (Nat × Gen) := w.gens.find? (fun g => g.2.assembling)

/-- A weight set of a context of a function. -/
def weightSet (m : Mach) (c i : Nat) : Option WeightSet := (Map.find? m.ctxs c).bind (fun x => Map.find? x.wsets i)

/-- The status of a GENOPEN (20 R321; log 25 for the order of the checks). -/
def genopenStatus (m : Mach) (fn : Nat) (bs : List Byte) : Nat :=
  let c := fieldAt bs 1 1
  let count := fieldAt bs 4 4
  if (ownCtx m fn c).isNone then 8
  else match weightSet m c (fieldAt bs 2 1) with
    | none => 1
    | some w =>
      if fieldAt bs 0 1 ≠ 1 ∨ !zeroAt bs 3 1 ∨ !zeroAt bs 0x1C 4 ∨ !zeroAt bs 0x28 24 ∨ count = 0 ∨ 4096 < count ∨
          fieldAt bs 8 8 % 65536 ≠ 0 then 1
      else if w.assembling.isSome ∨ 4 ≤ w.gens.length then 7
      else 0

/-- GENOPEN (20 R321). A command with no code of R321 is refused here too. -/
def execGenopen (fn : Nat) (s : State) : Host.Outcome State Fault Refusal :=
  eventAt s (match intakeHead s fn with
    | none => none
    | some bs =>
      let code := fieldAt bs 0 1
      let c := fieldAt bs 1 1
      let i := fieldAt bs 2 1
      if code = 2 ∨ code = 3 then none
      else
        let st := genopenStatus s.m fn bs
        let s := intakeTaken s fn
        if st ≠ 0 then some (report s fn (statusBytes 5 c i 0 st))
        else
          let m := s.m.tickOn
          let g : Gen :=
            { base := fieldAt bs 8 8, length := fieldAt bs 0x10 8, count := fieldAt bs 4 4, good := [], pend := [], rereads := [],
              report := fieldAt bs 0x20 8, assembling := true, expires := m.ns + 1000000 * fieldAt bs 0x18 4, pts := 0 }
          some { s with m := m.updSet c i (fun w => { w with nextGen := w.nextGen + 1, gens := Map.ins w.gens w.nextGen g }) })

/-- A generation fails (20 R324): it never becomes current, and is freed, since no launch has bound it. -/
def failGen (s : State) (fn c i g : Nat) : State :=
  report { s with m := s.m.updSet c i (fun w => { w with gens := Map.del w.gens g }) } fn (statusBytes 3 c i g 0)

/-- The report of a generation that has timed out (20 R324): the bad or missing shards. -/
def missingReport (g : Gen) : List Byte :=
  let xs := (List.range g.count).filter (fun i => !g.good.contains i)
  bytesOfNat 4 xs.length ++ xs.flatMap (fun i => bytesOfNat 2 i)

/-- A generation times out or is aborted (20 R321, R324). -/
def timeOutGen (s : State) (fn c i : Nat) (g : Nat × Gen) : State :=
  failGen { s with m := s.m.poke (Space.dev.key g.2.report) (missingReport g.2) } fn c i g.1

/-- GENABORT (20 R321). -/
def execGenabort (fn : Nat) (s : State) : Host.Outcome State Fault Refusal :=
  eventAt s (match intakeHead s fn with
    | none => none
    | some bs =>
      let c := fieldAt bs 1 1
      let i := fieldAt bs 2 1
      if fieldAt bs 0 1 ≠ 3 then none
      else
        let s := intakeTaken s fn
        if (ownCtx s.m fn c).isNone then some (report s fn (statusBytes 5 c i 0 8))
        else match (if zeroAt bs 3 61 then (weightSet s.m c i).bind WeightSet.assembling else none) with
          | none => some (report s fn (statusBytes 5 c i 0 1))
          | some g => some (timeOutGen s fn c i g))

/-- GENERATION_TIMEOUT (20 R324). -/
def execGenerationTimeout (ctx set : Nat) (s : State) : Host.Outcome State Fault Refusal :=
  eventAt s ((Map.find? s.m.ctxs ctx).bind (fun x => ((Map.find? x.wsets set).bind WeightSet.assembling).map (fun g =>
    timeOutGen { s with m := { s.m with ns := max s.m.ns g.2.expires } } x.fn ctx set g)))

/-- The width of a shard's source elements (20 R322). -/
def sourceWidth (conv fmt : Nat) : Nat :=
  match conv with
  | 0 => fmtWidth fmt
  | 1 => 16
  | _ => 8

/-- A layout entry of a context (09 R173), where it is valid. -/
def ctxLayout (m : Mach) (c lay : Nat) : Except EngFail (Option Layout) :=
  match tableRead m c default (m.hdr c 0x10 8 + 64 * lay) 64 with
  | .error st => .error (asDevice st)
  | .ok bs =>
    let l := layoutOfBytes bs
    .ok (if l.valid && layoutReserved bs then some l else none)

/-- A shard from its entry (20 R322). -/
def shardOf (bs : List Byte) : Shard :=
  let f (off w : Nat) : Nat := fieldAt bs off w
  { idx := f 4 4, source := f 8 1, addr := f 0x0C 8, bytes := f 0x14 4, conv := f 9 1, comp := f 0x0A 1, lay := f 0x0B 1,
    rows := f 0x18 4, perRow := f 0x1C 4, c0 := f 0x20 4, c1 := f 0x24 4, scaleOff := f 0x28 8,
    node := if f 8 1 = 1 then f 0x30 2 else 0, entry := if f 8 1 = 1 then f 0x32 2 else 0,
    ns := if f 8 1 = 2 then f 0x30 4 else 0, port := if f 8 1 = 2 then f 0x34 1 else 0 }

/-- Are the fields of a SHARD entry within R322? -/
def shardOk (bs : List Byte) : Bool :=
  zeroAt bs 3 1 && decide (fieldAt bs 8 1 < 3) && decide (fieldAt bs 9 1 < 4) && decide (fieldAt bs 0x0A 1 < 2) &&
  decide (fieldAt bs 0x14 4 ≤ 2 ^ 30) && zeroAt bs 0x36 10 &&
  (match fieldAt bs 8 1 with
   | 0 => zeroAt bs 0x30 6
   | 1 => fieldAt bs 0x30 2 / 4096 == 0 && zeroAt bs 0x34 2
   | _ => decide (fieldAt bs 0x34 1 < 2) && zeroAt bs 0x35 1)

/-- Submit a shard of an assembling generation (20 R322, R324): an index beyond the count or a wrong layout entry fails the
generation, and a shard that is good already is discarded. -/
def submitShard (s : State) (fn c i : Nat) (w : WeightSet) (g : Nat × Gen) (x : Shard) : State :=
  match ctxLayout s.m c x.lay with
  | .error e => { s with m := tableFails s.m c 0 e }
  | .ok l =>
    let right := l.any (fun l => l.handle == w.handle && (x.conv == 0 || l.fmt == 5))
    if g.2.count ≤ x.idx ∨ !right then failGen (intakeTaken s fn) fn c i g.1
    else if g.2.good.contains x.idx then intakeTaken s fn
    else
      let put (g : Gen) : Gen := { g with pend := g.pend.filter (fun y => y.idx != x.idx) ++ [x] }
      let s := intakeTaken s fn
      { s with m := s.m.updSet c i (fun w => { w with gens := Map.upd w.gens g.1 put }) }

/-- SHARD (20 R322). One that comes when no generation is assembling, after a timeout, is discarded (20 R324); before the set's first
generation it is refused (DESIGN CHOICE, log 25). -/
def execShard (fn : Nat) (s : State) : Host.Outcome State Fault Refusal :=
  eventAt s (match intakeHead s fn with
    | none => none
    | some bs =>
      let c := fieldAt bs 1 1
      let i := fieldAt bs 2 1
      if fieldAt bs 0 1 ≠ 2 then none
      else
        let x := shardOf bs
        let refuse (st : Nat) : Option State := some (report (intakeTaken s fn) fn (statusBytes 5 c i 0 st))
        match ownCtx s.m fn c, weightSet s.m c i with
        | none, _ => refuse 8
        | some _, none => refuse 1
        | some cx, some w =>
          if !shardOk bs then refuse 1
          else if x.source = 2 ∧ !cx.nvme.contains x.ns then refuse 8
          else match w.assembling with
            | none => if w.nextGen = 1 then refuse 1 else some (intakeTaken s fn)
            | some g => some (submitShard s fn c i w g x))

/-- Expand a zero-run stream to n bytes; none where it ends early or overruns (20 R323). -/
def zeroRun : Nat → Nat → List Byte → Option (List Byte)
  | _, 0, bs => if bs.isEmpty then some [] else none
  | 0, _, _ => none
  | fuel + 1, n, bs =>
    if bs.length < 2 then none
    else
      let h := natOfBytes (bs.take 2)
      let k := h % 2 ^ 15 + 1
      let rest := bs.drop 2
      if n < k then none
      else if 2 ^ 15 ≤ h then (zeroRun fuel (n - k) rest).map (List.replicate k 0 ++ ·)
      else if rest.length < k then none
      else (zeroRun fuel (n - k) (rest.drop k)).map (rest.take k ++ ·)

/-- The value of a source element (20 R322). -/
def sourceValue (conv x : Nat) : FVal :=
  match conv with
  | 1 => bf16.decode x
  | 2 => e4m3.decode x
  | _ => e5m2.decode x

/-- Is m x 2^e at most 13.453125 x 2^(s - 127) (20 R323)? -/
def fitsScale (m : Nat) (e : Int) (s : Nat) : Bool :=
  let d : Int := e - ((s : Int) - 133)
  if 0 ≤ d then decide (m * 2 ^ d.toNat ≤ 861) else decide (m ≤ 861 * 2 ^ (-d).toNat)

/-- The scale byte of a row (20 R323): the smallest that takes every finite element. -/
def rowScale (xs : List FVal) : Nat :=
  let fin := xs.filterMap (fun x => match x with | .fin _ m e => if m = 0 then none else some (m, e) | _ => none)
  if fin.isEmpty then 127
  else ((List.range 255).find? (fun s => fin.all (fun x => fitsScale x.1 x.2 s))).getD 254

/-- The LG6 code of an element under a scale byte (20 R323; 02 R36). -/
def scaledCode (s : Nat) : FVal → Nat
  | .fin g m e => (lg6Of (.fin g m (e + 127 - s))).1
  | x => (lg6Of x).1

/-- The codes of a source row and its scale byte (20 R323). -/
def convertRow (conv : Nat) (xs : List Nat) : List Nat × Option Nat :=
  if conv = 0 then (xs, none)
  else
    let vs := xs.map (sourceValue conv)
    let e := rowScale vs
    (vs.map (scaledCode e), some e)

/-- The region of a generation as an entry that the intake writes through (20 R319, R322). -/
def genEntry (g : Gen) (world : Nat) : HEntry :=
  { base := g.base, length := g.length, kind := 1, access := 3, policy := 0, world := world, spec := 0 }

/-- The byte writes of one row of a shard (20 R322): the elements in the layout's extents at x0 = c0 + e and x1 = c1 + r, and the scale
byte. -/
def rowWrites (m : Mach) (c : Nat) (g : Gen) (world : Nat) (l : Layout) (x : Shard) (r : Nat) (codes : List Nat × Option Nat) :
    Except EngFail (List ByteWrite) := do
  let e := genEntry g world
  let w := fmtWidth l.fmt
  let xs ← codes.1.zipIdx.mapM (fun y =>
    match l.element [(x.c0 : Int), (x.c1 : Int)] 0 r y.2 (if l.dims < 2 then some (x.c1 + r) else none) with
    | none => .ok []
    | some q => do
      let sp := l.span q
      if e.length < sp.1 + sp.2 then throw (.denied sp.1)
      let keys ← engineKeys m c e .write sp.1 sp.2
      let sh := l.bitPos q % 8
      return keys.zipIdx.map (fun k =>
        { key := k.1, mask := (2 ^ w - 1) * 2 ^ sh / 256 ^ k.2 % 256, value := y.1 * 2 ^ sh / 256 ^ k.2 % 256, bad := none,
          row := r : ByteWrite }))
  match codes.2 with
  | none => return xs.flatten
  | some b =>
    if e.length ≤ x.scaleOff + r then throw (.denied x.scaleOff)
    let keys ← engineKeys m c e .write (x.scaleOff + r) 1
    return xs.flatten ++ keys.map (fun k => { key := k, mask := 255, value := b, bad := none, row := r })

/-- What a shard's bytes come to. -/
inductive Placed where
  | done (m : Mach) (pts : Nat)
  /-- A format error, or a layout, world or bounds failure (20 R324). -/
  | fatal
  | miss (e : EngFail)

/-- The bytes of n elements of some width (20 R322): LG6 stands in whole groups of four (02 R35). -/
def elementBytes (w n : Nat) : Nat := if w = 6 then cdiv n 4 * 3 else n * w / 8

/-- Decompress, convert and write a shard (20 R322, R323). Its bytes are as many as its entry says. -/
def placeShard (m : Mach) (c : Nat) (g : Gen) (x : Shard) (data : List Byte) : Placed :=
  match ctxLayout m c x.lay with
  | .error e => .miss e
  | .ok none => .fatal
  | .ok (some l) =>
    let w := sourceWidth x.conv l.fmt
    let n := elementBytes w (x.rows * x.perRow)
    match (if data.length ≠ x.bytes then none else if x.comp = 1 then zeroRun data.length n data else if data.length = n then some data else none) with
    | none => .fatal
    | some bytes =>
      let code (i : Nat) : Nat := natOfBytes ((bytes.drop (i * w / 8)).take (cdiv w 8 + 1)) / 2 ^ (i * w % 8) % 2 ^ w
      let row (r : Nat) := convertRow x.conv ((List.range x.perRow).map (fun j => code (r * x.perRow + j)))
      match (List.range x.rows).mapM (fun r => rowWrites m c g (m.ctx c).world l x r (row r)) with
      | .error (.denied _) => .fatal
      | .error e => .miss e
      | .ok ws =>
        let s := engineStores (writeBytes m ws.flatten) 0 (ws.flatten.map (·.key))
        .done s.1 s.2

/-- A shard is good (20 R324): when every shard is, the generation becomes current in one step. -/
def shardGood (s : State) (fn c i g idx pts : Nat) : State :=
  let put (x : Gen) : Gen := { x with pts := max x.pts pts, good := x.good ++ [idx], pend := x.pend.filter (fun y => y.idx != idx) }
  let s : State := { s with m := s.m.updSet c i (fun w => { w with gens := Map.upd w.gens g put }) }
  let s := report s fn (statusBytes 0 c i g idx)
  match (weightSet s.m c i).bind (fun w => Map.find? w.gens g) with
  | none => s
  | some x =>
    if (List.range x.count).all x.good.contains then
      let now (w : WeightSet) : WeightSet := { w with cur := some g, gens := Map.upd w.gens g (fun x => { x with assembling := false }) }
      report { s with m := s.m.updSet c i now } fn (statusBytes 2 c i g 0)
    else s

/-- A shard of the assembling generation that is on its way; none once the generation's timeout has passed (20 R324). -/
def shardPending (s : State) (c i idx : Nat) : Option (Nat × (Nat × Gen) × Shard) := do
  let x ← Map.find? s.m.ctxs c
  let f ← Map.find? s.p.fns x.fn
  let w ← Map.find? x.wsets i
  let g ← w.assembling
  let sh ← g.2.pend.find? (fun y => y.idx == idx)
  if f.held.isEmpty ∧ s.m.ns < g.2.expires then some (x.fn, g, sh) else none

/-- SHARD_COMPLETE (20 R324). -/
def execShardComplete (ctx set idx : Nat) (data : List Byte) (s : State) : Host.Outcome State Fault Refusal :=
  eventAt s ((shardPending s ctx set idx).map (fun x =>
    match placeShard s.m ctx x.2.1.2 x.2.2 data with
    | .done m pts => shardGood { s with m := m } x.1 ctx set x.2.1.1 idx pts
    | .fatal => failGen s x.1 ctx set x.2.1.1
    | .miss e => { s with m := tableFails s.m ctx 0 e }))

/-- SHARD_CODE_ERROR (20 R324): an NVMe source is reread up to three times before a resend is requested. -/
def execShardCodeError (ctx set idx : Nat) (s : State) : Host.Outcome State Fault Refusal :=
  eventAt s ((shardPending s ctx set idx).map (fun x =>
    let n := (Map.find? x.2.1.2.rereads idx).getD 0
    let upd (f : Gen → Gen) : State := { s with m := s.m.updSet ctx set (fun w => { w with gens := Map.upd w.gens x.2.1.1 f }) }
    if x.2.2.source = 2 ∧ n < 3 then upd (fun g => { g with rereads := Map.ins g.rereads idx (n + 1) })
    else report (upd (fun g => { g with pend := g.pend.filter (fun y => y.idx != idx), rereads := Map.del g.rereads idx })) x.1
      (statusBytes 1 ctx set x.2.1.1 idx)))

/-- INTAKE_STATUS_CONSUMER (20 R325). -/
def execIntakeStatusConsumer (fn : Nat) (value : Word) (s : State) : Host.Outcome State Fault Refusal :=
  eventAt s ((fnOf s fn).map (fun f =>
    flushStatus fn f.held (s.updFn fn (fun f => { f with intakeStatus := { f.intakeStatus with cons := value.toNat } }))))

/-- The generations that are neither current nor assembling, and that no launch binds (20 R324): context, set, generation. -/
def freeable (m : Mach) : List (Nat × Nat × Nat) :=
  m.ctxs.flatMap (fun c => c.2.wsets.flatMap (fun w => (w.2.gens.filter (fun g =>
    w.2.cur != some g.1 && !g.2.assembling && !c.2.pend.any (fun l => l.2.gens.contains (w.1, g.1)))).map (fun g => (c.1, w.1, g.1))))

/-- Free generations (20 R324). -/
def pumpGens (s : State) : State :=
  (freeable s.m).foldl (fun s x =>
    report { s with m := s.m.updSet x.1 x.2.1 (fun w => { w with gens := Map.del w.gens x.2.2 }) } (s.m.ctx x.1).fn
      (statusBytes 4 x.1 x.2.1 x.2.2 0)) s

end Sys2Proof.Machine
end

