-- ==== Sys2Proof/Machine/Fabric.lean ====
section
/-!
DEFINITION. The fabric: tagged messages and armed launches (16 R266), accesses of other packages (20 R316, R317), and the
state of the ports (20 R318).
-/

namespace Sys2Proof.Machine

/-- Where the bytes of a payload go: through the handle of argument word 6, from the offset of word 7 (16 R266). None where
they do not fit or may not be written. -/
def payloadWrites (m : Mach) (c : Nat) (r : LaunchRec) (bytes : List (Nat × Byte)) (n : Nat) :
    Except EngFail (Option (List ByteWrite)) := do
  let h := (r.args.getD 6 0).toNat
  let off := (r.args.getD 7 0).toNat
  match (if 2 ≤ h ∧ h < 4064 then tableHandle m c default h else .ok none) with
  | .error st => throw (asDevice st)
  | .ok none => return none
  | .ok (some e) =>
    if e.kind ≠ 1 ∨ !e.access.testBit 1 ∨ e.length < off + n ∨ ((m.ctx c).world = 0 ∧ e.world = 1) then return none
    match bytes.mapM (fun b => (bufferWrites m c e (off + b.1) [(b.2, none)])) with
    | .error (.denied _) => return none
    | .error e => throw e
    | .ok ws => return some ws.flatten

/-- The payload of a message is written, and the launch fires (16 R266; 10 R198); a page without translation makes the message wait
for service, and one whose service is refused counts as a payload that does not fit (DESIGN CHOICE, log 25). -/
def deliverMail (p : Plat) (m : Mach) (c : Nat) (y : Mail) : Mach :=
  let fire (m : Mach) (lost : Bool) (pts : Nat) : Mach :=
    let raw := y.raw.take 0x54 ++ bytesOfNat 4 y.n ++ y.raw.drop 0x58
    enterFired p (m.updCtx c (fun x => { x with fired := x.fired ++ [(lost, pts, raw)] })) c
  if y.refused then fire m true 0
  else match payloadWrites m c (LaunchRec.ofBytes y.raw) y.bytes y.n with
    | .error (.miss va size _) =>
      let r := deviceMiss m c (LaunchRec.ofBytes y.raw |>.args.getD 6 0).toNat va size
      r.1.updCtx c (fun x => { x with mail := x.mail ++ [{ y with svc := r.2 }] })
    | .error e => tableFails m c 0 e
    | .ok none => fire m true 0
    | .ok (some ws) =>
      let s := engineStores (writeBytes m ws) 0 (ws.map (fun (x : ByteWrite) => x.key))
      fire s.1 false s.2

/-- A tagged message of n bytes arrives for a context (16 R266): it fires the armed launch, once, or is dropped. -/
def fireArm (p : Plat) (m : Mach) (c tag : Nat) (bytes : List (Nat × Byte)) (n : Nat) : Mach :=
  match Map.find? (m.ctx c).arms tag with
  | none => m.count c 63 1
  | some raw =>
    deliverMail p (m.updCtx c (fun x => { x with arms := Map.del x.arms tag })) c
      { raw := raw, bytes := bytes, n := n, svc := none, refused := false }

/-- Messages of a context that wait try again once their service has been answered (16 R266). -/
def retryMail (p : Plat) (m : Mach) (c : Nat) : Mach :=
  let x := m.ctx c
  let due (y : Mail) : Bool := !y.svc.any (fun r => (Map.find? x.services r).isSome)
  if x.st = 3 then m
  else (x.mail.filter due).foldl (fun m y => deliverMail p m c y)
    (m.updCtx c (fun x => { x with mail := x.mail.filter (fun y => !due y) }))

/-- FABRIC_MESSAGE (16 R266). -/
def execFabricMessage (ctx tag : Nat) (payload : List Byte) (s : State) : Host.Outcome State Fault Refusal :=
  event s (if (Map.find? s.m.ctxs ctx).isNone then none
    else some (fireArm s.p s.m ctx tag (payload.zipIdx.map (fun b => (b.2, b.1))) payload.length))

/-- What a remote access asks of a handle, its access bits, and its new bytes from the old (20 R317). -/
def remoteUse (a : RemoteAcc) : Use × Acc × (List Byte → Option (List Byte)) :=
  let new := bytesOfNat a.size a.data
  if a.op = 0 then (.ld, .read, fun _ => none)
  else if a.op = 1 then (.st, .write, fun _ => some new)
  else if a.op = 2 then (.cas, .atomic, fun old => if natOfBytes old = a.cmp then some new else none)
  else (.atom (a.op - 16), .atomic, fun old => some (atomNew (a.op - 16) old new))

/-- Sizes and operations of a remote access. -/
def remoteOk (a : RemoteAcc) : Bool :=
  [1, 2, 4, 8, 16].contains a.size &&
  (decide (a.op < 2) || (a.op == 2 && (a.size == 4 || a.size == 8)) ||
    (decide (16 ≤ a.op) && decide (a.op < 30) && a.size == (if a.op < 28 then 4 else 8)))

/-- Perform an access of another package through an export entry of type 1, or refuse it: it then has no effect here (20 R317). A CAS
that fails takes its place as a CAS (10 R192). -/
def remoteAccess (m : Mach) (x : ExportEntry) (src : Nat) (a : RemoteAcc) : Mach :=
  let (u, acc, f) := remoteUse a
  match remotePlace m x src u acc a.off a.size with
  | none => m
  | some key =>
    let keys := (List.range a.size).map (key + ·)
    match f (keys.map (fun k => (engineByte m [] k).1)) with
    | none => (if acc = .read then (engineLoads m 0 keys).1 else (engineStores m 0 keys).1).tickOn
    | some new => ((engineStores m 0 keys).1.poke key new).tickOn

/-- A message through a tag port fires (20 R317): its bytes by offset, and its length. -/
def tagFires (p : Plat) (m : Mach) (e : ExportEntry) (got : List (Nat × Byte)) : Mach :=
  fireArm p m e.ctx e.num got (got.foldl (fun n b => max n (b.1 + 1)) 0)

/-- A store of a source node arrives at a tag port (20 R317): the message is complete with its last byte, and then fires. -/
def tagPort (s : State) (src entry : Nat) (e : ExportEntry) (a : RemoteAcc) : State :=
  let key := (entry, src)
  let old := ((s.p.parts.find? (fun x => x.1 == key)).map (·.2)).getD []
  let got := ((bytesOfNat a.size a.data).zipIdx).foldl (fun l b => Map.ins l (a.off + b.2) b.1) old
  let others := s.p.parts.filter (fun x => x.1 != key)
  if !a.last then { s with p := { s.p with parts := (key, got) :: others } }
  else { s with m := tagFires s.p s.m e got, p := { s.p with parts := others } }

/-- REMOTE_ACCESS (20 R316, R317). -/
def execRemoteAccess (src entry : Nat) (acc : RemoteAcc) (s : State) : Host.Outcome State Fault Refusal :=
  eventAt s (if !remoteOk acc then none
    else match Map.find? s.m.exports entry with
      | none => some s
      | some e =>
        if e.typ = 2 then some (if acc.op = 1 ∧ s.m.admits e src then tagPort s src entry e acc else s)
        else some { s with m := remoteAccess s.m e src acc })

/-- The messages that the package has sent to its own tag ports fire (20 R316, R317). -/
def pumpSent (s : State) : State :=
  { s with m := s.m.sent.foldl (fun m x => match Map.find? m.exports x.entry with
      | some e => tagFires s.p m e x.bytes
      | none => m) { s.m with sent := [] } }

/-- REMOTE_STORE_FAILURE (09 R177; 20 R318). -/
def execRemoteStoreFailure (port : Nat) (s : State) : Host.Outcome State Fault Refusal :=
  eventAt s ((Map.find? s.p.ports port).map (fun x =>
    { s with p := { s.p with ports := Map.ins s.p.ports port { x with failed := true } } }))

/-- FABRIC_PORT_STATE (20 R318, R307; 23 R348): a port that is down has no node at its other end, and none comes up without stage 5. -/
def execFabricPortState (port : Nat) (up : Bool) (lanes node : Nat) (s : State) : Host.Outcome State Fault Refusal :=
  eventAt s ((Map.find? s.p.ports port).bind (fun x =>
    let y : Port := { x with up := up, lanes := if up then lanes else 0, node := if up then node else 0xFFF }
    if 8 < lanes ∨ 0xFFF ≤ node ∨ y = x ∨ (up ∧ (Map.find? s.p.boot.meas 5).isNone) then none
    else some { s with m := s.m.raise 0 5, p := { s.p with ports := Map.ins s.p.ports port y } }))

end Sys2Proof.Machine
end

