-- ==== Sys2Proof/Machine/Between.lean ====
section
/-!
DEFINITION. What the package does by itself between two moves: saves and discards go on, teams and generations are given
back, the next thread takes its teams, and armed launches that have fired enter the pending set (log 5).
-/

namespace Sys2Proof.Machine

/-- Armed launches that have fired enter the pending sets, after messages that waited for service; failure steps that waited are
tried again. -/
def enterAll (s : State) : State :=
  { s with m := (s.m.ctxs.map (·.1)).foldl (fun m c => retryFailures (enterFired s.p (retryMail s.p m c) c) c) s.m }

/-- RESETs and DESTROYs whose contexts have stopped take effect. -/
def finishStops (s : State) : State := (s.m.ctxs.map (·.1)).foldl finishStop s

/-- The package between two moves. -/
def between (s : State) : State := finishStops (enterAll (pumpSent (pumpGens (pumpTeams { s with m := pump s.m }))))

/-- A move that answers a next state is followed by what the package does by itself. -/
def settled (o : Host.Outcome State Fault Refusal) : Host.Outcome State Fault Refusal :=
  match o with
  | .next t => .next (between t)
  | o => o

end Sys2Proof.Machine
end

