-- ==== Sys2Proof/Machine/Reliability.lean ====
section
/-!
DEFINITION. Consumed errors and the supervisor (21 R329 to R332), fences and tests (R328, R333, R334), unattributed errors and
their counters (R337 to R341), the wait-for graph (R343, R344), and the power limit (01 R18).
-/

namespace Sys2Proof.Machine

/-- Does a poisoned part lie in a block's state (21 R331)? -/
def poisonedState (m : Mach) (bk : Nat) : Bool :=
  let at_ (key n : Nat) : Bool := (m.poisonAt key n).isSome
  at_ ((Space.scratch bk).key 0) Config.localStore ||
  (m.warpsOf bk).any (fun e => !e.2.bad.isEmpty || (List.range 16).any (fun t => at_ ((Space.tile e.1 t).key 0) 3072))

/-- Roll a block back (21 R332): it is dropped once nothing is in flight for it. -/
def rollBack (m : Mach) (bk : Nat) : Mach :=
  let b := m.block bk
  let m := (m.count b.ctx 77 1).updLaunch b.ctx b.seq (fun l => { l with rolled := Map.ins l.rolled b.flat (b.rollbacks + 1) })
  (leaveQueues m bk).updBlock bk (fun b => { b with pre := .discarding })

/-- The supervisor's decision for one resident block (21 R331, R332). -/
def decideBlock (m : Mach) (z : Freeze) (bk : Nat) : Mach :=
  let b := m.block bk
  let mine := (m.warp z.warp).block == bk
  let kill : Mach := stopCtx m b.ctx 8 none
  if mine && decide (2 ≤ b.rollbacks) then kill
  else if z.memory then
    if mine then takeTrap m z.warp { m.outside z.warp .errcons with tinfo := BitVec.ofNat 32 z.record } else m
  else if b.holding then rollBack m bk
  else if !poisonedState m bk then (leaveQueues m bk).updBlock bk (fun b => { b with pre := .copying, plain := true })
  else kill

/-- The gang-mates on other cores of blocks that leave theirs are pre-empted with them (04 R80). -/
def preemptMates (m : Mach) (bks : List Nat) : Mach :=
  let leaving := bks.filter (fun bk => (m.block bk).pre == .copying || (m.block bk).pre == .discarding)
  let mates := dedup (leaving.flatMap (fun bk => (withGang m bk).filter (fun x => !bks.contains x)))
  if mates.isEmpty then m
  else
    let m := m.tickOn
    mates.foldl (fun m bk => preemptBlocks m (m.block bk).ctx (Config.freeWord 11 m.tick).toNat [bk] false) m

/-- SUPERVISOR_DECISION (21 R331): a core origin has the core fenced once every block has left it. -/
def execSupervisorDecision (core : Nat) (s : State) : Host.Outcome State Fault Refusal :=
  eventAt s ((Map.find? s.m.frozen core).map (fun z =>
    let m : Mach := { s.m with frozen := Map.del s.m.frozen core }
    let bks := ((seatedOn m core).filter (fun e => !blockComplete m e.1)).map (·.1)
    let m := preemptMates (bks.foldl (fun m bk => decideBlock m z bk) m) bks
    let p := if z.memory ∨ s.p.fencing.contains core then s.p else { s.p with fencing := s.p.fencing ++ [core] }
    { s with m := m, p := p }))

/-- What becomes of a vat when a core is fenced (14 R244, R254). -/
def vatLosesCore (m : Mach) (core id : Nat) : Mach :=
  let v := m.vat id
  if v.st = 2 ∧ v.target = some core then m.updVat id (fun v => { v with target := none })
  else if !v.onCore core then m
  else
    let m := freeCopy m id core
    if (if v.st = 1 then v.target else v.primary) ≠ some core then m
    else match minBy (fun x => x) (m.vat id).replicas, v.st == 1 || v.backed.isSome with
      | some r, _ => m.updVat id (fun v =>
          { v with st := 0, primary := some r, replicas := v.replicas.filter (fun x => x != r), target := none })
      | none, true => m.updVat id (fun v => { v with st := 2, primary := none, stale := v.st != 1, tiles := [], target := none })
      | none, false => m.updVat id (fun v => { v with st := 3, primary := none, tiles := [], target := none })

/-- Fence a core: its vats are dealt with (21 R334; 14 R244). -/
def fenceCore (s : State) (core : Nat) : State :=
  let m := (s.m.vats.map (·.1)).foldl (fun m id => vatLosesCore m core id) s.m
  { s with m := { m with suspects := m.suspects.filter (fun c => c != core) },
           p := { s.p with fenced := if s.p.fenced.contains core then s.p.fenced else s.p.fenced ++ [core],
                           fencing := s.p.fencing.filter (fun c => c != core) } }

/-- CORE_FENCE (21 R328, R331, R334): the first moment no block is seated on the core. -/
def execCoreFence (core : Nat) (s : State) : Host.Outcome State Fault Refusal :=
  eventAt s (if (s.p.fencing.contains core || s.m.suspects.contains core) && (seatedOn s.m core).isEmpty && !s.p.fenced.contains core
    then some (fenceCore s core) else none)

/-- Is a team idle, so that it may be tested (21 R333; log 26)? -/
def teamIdle (s : State) (t : Nat) : Bool :=
  decide (t < 32) && !s.m.blocks.any (fun e => e.2.seated && teamOf e.2.core == t) && !s.p.revoking.contains t && !s.p.isLent t &&
  !s.m.vats.any (fun v => v.2.slots.any (fun c => teamOf c.1 == t)) &&
  s.m.ctxs.all (fun e => !(e.2.hasTeam t && e.2.holds) || e.2.pend.all (fun l =>
    l.2.st != 2 || (nextFlats s.m e.1 l.1 l.2).isEmpty))

/-- Array self-test or logic scan, by the failing unit's kind (21 R333, R334, R336). -/
def testClass (unit : Word) : Nat :=
  let k := bits unit 20 14
  if (3 ≤ k ∧ k ≤ 9) ∨ k = 20 then 5 else 4

/-- A failing unit of a test is recorded and fenced (21 R334). -/
def failUnit (s : State) (unit : Word) : State :=
  let s : State := { s with m := errRecord s.m (testClass unit) 4 unit 0 0 0 none 0 }
  let k := bits unit 20 14
  let t := bits unit 31 26
  if k = 19 ∨ k = 20 then
    { s with p := { s.p with fencedTeams := if s.p.fencedTeams.contains t then s.p.fencedTeams else s.p.fencedTeams ++ [t] } }
  else fenceCore s (unitCore unit)

/-- IN_FIELD_TEST (21 R333): the team is scrubbed after it. -/
def execInFieldTest (team : Nat) (failing : List Word) (s : State) : Host.Outcome State Fault Refusal :=
  eventAt s (if !teamIdle s team ∨ failing.any (fun u => bits u 31 26 != team) then none
    else
      let s := failing.foldl failUnit s
      let m := scrubTeam s.m team
      some { s with m := { m with testDue := m.testDue.filter (fun t => t != team) } })

/-- TEST_ABANDON (21 R333): the test counts as incomplete, and is due again. -/
def execTestAbandon (team : Nat) (s : State) : Host.Outcome State Fault Refusal :=
  eventAt s (if 32 ≤ team ∨ s.p.isLent team ∨ s.m.blocks.any (fun e => e.2.seated && teamOf e.2.core == team) then none
    else
      let m := scrubTeam s.m team
      some { s with m := { m with testDue := if m.testDue.contains team then m.testDue else m.testDue ++ [team] } })

/-- TEST (21 R340). -/
def execTestTeam (fn team : Nat) (s : State) : Host.Outcome State Fault Refusal :=
  pfCommand fn s (fun s =>
    if 32 ≤ team then (s, 1, [])
    else if s.p.isLent team then (s, 7, [])
    else ({ s with m := { s.m with testDue := if s.m.testDue.contains team then s.m.testDue else s.m.testDue ++ [team] } }, 0, []))

/-- The wait kind of a wait word (21 R343). -/
def waitKind : Option Wait → Nat
  | some .rendezvous => 0
  | some .gang => 1
  | some .tileState => 2
  | some .writerQueue => 4
  | some .vatMoving => 4
  | some .grow => 5
  | none => 6
  | some _ => 3

/-- The object of a warp's wait (21 R344); which tile or vat it is the wait word does not keep (log 20). -/
def waitObject (m : Mach) (k : Nat) : Nat :=
  let w := m.warp k
  match w.wait with
  | some .rendezvous => (w.sig.map (fun x => x.y)).getD 0
  | some .gang => 0
  | some .grow => (w.grow.getD (0, 0)).1
  | none => 0
  | some _ => (Config.freeWord 12 m.tick).toNat % 256

/-- The edges of the wait-for graph from a warp (21 R343). -/
def waitEdges (m : Mach) (k : Nat) : List Nat :=
  let w := m.warp k
  let b := m.blockOf k
  let others (ks : List Nat) : List Nat := ks.filter (fun j => j != k)
  match w.wait with
  | some .rendezvous =>
    match w.sig with
    | none => []
    | some x =>
      let ms := if x.y = 0 then m.liveOf w.block else (m.setMembers w.block (x.y - 1)).filter (fun j => (m.warp j).isLive)
      ms.filter (fun j => !(m.warp j).sig.any (fun y => y.y == x.y))
  | some .gang => ((gangOf m b).filter (fun e => !gbarArrived m b.gbars e)).flatMap (fun e => m.liveOf e.1)
  | some .tileState => others (m.liveOf w.block)
  | some .writerQueue =>
    (m.vats.filter (fun v => v.2.queue.contains w.block)).flatMap (fun v => match v.2.writer with
      | some x => m.liveOf x
      | none => [])
  | some .grow =>
    let cls := (w.grow.getD (0, 0)).1
    (((waiters m b.core cls).map (fun x => (m.warp x.1).block)).eraseDups.filter (fun x => decide ((m.block x).age < b.age))).flatMap
      m.liveOf
  | _ => []

/-- Paths of the graph that start at a warp, each newest first, grown by one edge among some warps. -/
def growPaths (m : Mach) (among : List Nat) (ps : List (List Nat)) : List (List Nat) :=
  ps.flatMap (fun p => match p with
    | [] => []
    | k :: _ => ((waitEdges m k).filter (fun j => among.contains j && !p.contains j)).map (fun j => j :: p))

/-- A shortest cycle through warp k among some warps, oldest first (21 R344). -/
def cycleFrom (m : Mach) (among : List Nat) (k : Nat) : Nat → List (List Nat) → Option (List Nat)
  | 0, _ => none
  | fuel + 1, ps =>
    match ps.find? (fun p => (p.head?.map (waitEdges m)).any (fun es => es.contains k)) with
    | some p => some p.reverse
    | none => cycleFrom m among k fuel (growPaths m among ps)

/-- The cycles of the graph, each warp in one at most. -/
def cycles (m : Mach) (among : List Nat) : List (List Nat) :=
  among.foldl (fun cs k =>
    if cs.any (fun c => c.contains k) then cs
    else match cycleFrom m among k (among.length + 1) [[k]] with
      | none => cs
      | some c => cs ++ [c]) []

/-- A wait-for report: a record of class 7 for each warp (21 R344). -/
def waitReport (m : Mach) (ks : List Nat) : Mach :=
  (ks.zipIdx).foldl (fun m x =>
    let k := x.1
    let w := m.warp k
    let syn := x.2 % 256 + ks.length % 256 * 2 ^ 8 + waitKind w.wait * 2 ^ 16 + waitObject m k * 2 ^ 24 +
      w.path.ord % 2 ^ 16 * 2 ^ 32 + min 0xFFFF w.path.cnt * 2 ^ 48
    errRecord m 7 1 (BitVec.ofNat 32 ((m.blockOf k).core * 2 ^ 23)) syn 0 0 (some k) 0) m

/-- The live warps of a running context. -/
def runningWarps (m : Mach) (c : Nat) : List Nat :=
  if (m.ctx c).st ≠ 1 then []
  else (m.blocks.filter (fun e => e.2.ctx == c && e.2.seated)).flatMap (fun e => m.liveOf e.1)

/-- WAIT_FOR_SCAN (21 R343, R344): the readings, and the reports they give. -/
def execWaitForScan (s : State) : Host.Outcome State Fault Refusal :=
  let m := s.m
  let cs := m.ctxs.map (·.1)
  let ks := cs.flatMap (runningWarps m)
  let old (k : Nat) : Option (Nat × Nat) := Map.find? s.p.waits k
  let now := ks.foldl (fun l k =>
    let g := (m.warp k).prog
    Map.ins l k (match old k with | some (g', n) => if g' = g then (g, n + 1) else (g, 0) | none => (g, 0))) ([] : List (Nat × (Nat × Nat)))
  let still (k n : Nat) : Bool := (Map.find? now k).any (fun x => decide (n ≤ x.2))
  let m := cs.foldl (fun m c => (cycles m ((runningWarps m c).filter (fun k => still k 1))).foldl waitReport m) m
  let m := cs.foldl (fun m c =>
    let ws := runningWarps m c
    if !ws.isEmpty && ws.all (fun k => still k 10) && !m.ops.any (fun e => e.2.ctx == c) then waitReport m ws else m) m
  .next { s with m := m, p := { s.p with waits := now } }

/-- The kinds of units that keep counters (21 R341): 0 a lane, 1 a DRAM bank, 2 an array. Dies 6 and 7 do not exist (01 R7). -/
def healthKind (unit : Word) : Option Nat :=
  let k := bits unit 20 14
  if 6 ≤ bits unit 31 29 then none
  else if k = 18 ∨ k = 24 ∨ k = 25 then some 0
  else if k = 17 then some 1
  else if (2 ≤ k ∧ k ≤ 8) ∨ k = 16 ∨ k = 20 ∨ k = 29 then some 2
  else none

/-- The counters of a unit. -/
def healthOf (p : Plat) (unit : Word) : List Nat := (Map.find? p.health unit.toNat).getD [0, 0, 0, 0, 0, 0]

/-- Add 1 to some counters of a unit, which saturate at 64 bits (21 R341). -/
def healthAdd (p : Plat) (unit : Word) (is : List Nat) : Plat :=
  let l := (healthOf p unit).zipIdx.map (fun x => if is.contains x.2 then min (2 ^ 64 - 1) (x.1 + 1) else x.1)
  { p with health := Map.ins p.health unit.toNat l }

/-- HEALTH (21 R340, R341). -/
def execHealth (fn : Nat) (unit : Word) (s : State) : Host.Outcome State Fault Refusal :=
  pfCommand fn s (fun s => match healthKind unit with
    | none => (s, 1, [])
    | some _ => (s, 0, [(0x10, (healthOf s.p unit).flatMap (bytesOfNat 8))]))

/-- The mask of some numbers below 256, as 32 bytes. -/
def maskBytes (n : Nat) (xs : List Nat) : List Byte :=
  bytesOfNat n ((List.range (8 * n)).filter xs.contains |>.foldl (fun a i => a + 2 ^ i) 0)

/-- FENCEMAP (21 R340). -/
def execFencemap (fn : Nat) (s : State) : Host.Outcome State Fault Refusal :=
  pfCommand fn s (fun s => (s, 0, [(8, maskBytes 32 s.p.fenced), (0x28, maskBytes 4 s.p.fencedTeams)]))

/-- PREDICTIVE_ADVISORY (21 R341): counts within 24 hours or one hour are the unit's own; eye margins are outside the model
(log 26). -/
def execPredictiveAdvisory (unit : Word) (s : State) : Host.Outcome State Fault Refusal :=
  eventAt s (match healthKind unit with
    | none => none
    | some k => if k ≠ 0 ∧ (healthOf s.p unit).headD 0 ≤ 64 then none
                else some { s with m := errRecord s.m 6 1 unit 0 0 0 none 0 })

/-- Does an L2 slice or a DRAM channel hold an address (01 R16; 09 R177)? The die is the unit's, and the slice or channel the low five
bits of its index (21 R335, R336). -/
def unitHolds (unit : Word) (addr : Nat) : Bool :=
  decide (addr < Config.deviceBytes) && bits unit 31 29 == dieOf addr &&
  (if bits unit 20 14 = 16 then bits unit 4 0 else bits unit 13 9) == homeSlice addr

/-- SCRUB_OR_REFRESH_ERROR (21 R329, R338): an uncorrectable error marks the part in place. -/
def execScrubOrRefreshError (unit : Word) (addr : Nat) (uncorrectable : Bool) (syndrome : Nat) (s : State) :
    Host.Outcome State Fault Refusal :=
  let k := bits unit 20 14
  eventAt s (if (k ≠ 16 ∧ k ≠ 17) ∨ !unitHolds unit addr then none
    else
      let m := if uncorrectable then s.m.mark (Space.dev.key addr / 16) unit else s.m
      some { s with m := errRecord m (unitClass unit) (if uncorrectable then 1 else 0) unit (syndrome % 2 ^ 64) addr 0 none 0,
                    p := healthAdd s.p unit [if uncorrectable then 1 else 0] })

/-- LINK_ERROR (21 R337, R338, R341). -/
def execLinkError (unit : Word) (uncorrectable : Bool) (s : State) : Host.Outcome State Fault Refusal :=
  eventAt s (if healthKind unit ≠ some 0 then none
    else some { s with m := errRecord s.m 2 (if uncorrectable then 1 else 0) unit 0 0 0 none 0,
                       p := healthAdd s.p unit (if uncorrectable then [0, 1, 3] else [0, 1, 2]) })

/-- LANE_RETRAIN (21 R341; 20 R318). -/
def execLaneRetrain (unit : Word) (s : State) : Host.Outcome State Fault Refusal :=
  eventAt s (if healthKind unit ≠ some 0 then none
    else
      let p := healthAdd s.p unit [4]
      let ports := if bits unit 20 14 = 25 then
          Map.upd p.ports (bits unit 7 3) (fun x => { x with retrains := min 255 (x.retrains + 1) })
        else p.ports
      some { s with p := { p with ports := ports } })

/-- DRAM_REFRESH_MANAGEMENT (09 R181; 21 R341). -/
def execDramRefreshManagement (unit : Word) (waits : List (Nat × Nat)) (s : State) : Host.Outcome State Fault Refusal :=
  eventAt s (if bits unit 20 14 ≠ 17 then none
    else some { s with m := waits.foldl (fun m x => m.count x.1 28 x.2) s.m, p := healthAdd s.p unit [2, 3] })

/-- POWER_LIMIT_CHANGE (01 R18). -/
def execPowerLimitChange (watts : Option Nat) (s : State) : Host.Outcome State Fault Refusal :=
  eventAt s (match watts with
    | none => some { s with p := { s.p with power := 2800 } }
    | some w => if w = 0 ∨ 2800 ≤ w then none else some { s with p := { s.p with power := w } })

/-- ERRRING (21 R338, R340): records start at the next sequence number. -/
def execErrring (fn addr entries : Nat) (s : State) : Host.Outcome State Fault Refusal :=
  command fn s (fun s =>
    if addr % 64 ≠ 0 ∨ entries < 16 ∨ 4096 < entries ∨ !(List.range 13).any (fun i => entries == 2 ^ i) then (s, 1, [])
    else
      let old := (Map.find? s.m.errs fn).getD { addr := 0, entries := 0, prod := 0, seq := 0, dropped := 0 }
      ({ s with m := { s.m with errs := Map.ins s.m.errs fn { old with addr := addr, entries := entries, prod := 0 } } }, 0, []))

end Sys2Proof.Machine
end

