-- ==== Sys2Proof/Machine/Boot.lean ====
section
/-!
DEFINITION. Bring-up: images and their verification, sources and the journal, recovery, and the mailbox commands for identity
and boot (23 R348 to R355).
-/

namespace Sys2Proof.Machine

/-- One bit of CRC-32 (IEEE 802.3) in its reflected form. -/
def crcBit (c : Word) : Word := if c.getLsbD 0 then (c >>> 1) ^^^ 0xEDB88320 else c >>> 1

/-- One byte of CRC-32. -/
def crcByte (c : Word) (b : Byte) : Word := (List.range 8).foldl (fun c _ => crcBit c) (c ^^^ b.setWidth 32)

/-- CRC-32 (IEEE 802.3) of some bytes (23 R352). -/
def crc32 (bs : List Byte) : Word := ~~~ (bs.foldl crcByte 0xFFFFFFFF)

/-- A field of an image's header. -/
def imgField (img : List Byte) (off n : Nat) : Nat := natOfBytes ((img.drop off).take n)

/-- The security version of an image (23 R349). -/
def imgVersion (img : List Byte) : Nat := imgField img 0x08 4

/-- Check 1 of R350, with an image that is there and whole: magic, header version, stage and reserved bits. -/
def imgForm (stage : Nat) (img : List Byte) : Bool :=
  let n := imgField img 0x0C 4
  decide (192 + n ≤ img.length) && decide (192 ≤ img.length) && decide (n ≤ 2 ^ 26) && imgField img 0 4 == 0x4B473949 &&
  imgField img 6 2 == 1 && imgField img 4 2 == stage && decide (imgField img 0x1C 4 < 2)

/-- Check 2 of R350: the hash of the public key is one of the two fused and is not revoked. -/
def imgKey (b : Boot) (img : List Byte) : Bool :=
  (List.range 2).any (fun i => !b.revoked.contains i && Config.sha256 ((img.drop 0x40).take 64) == Config.keyHash i)

/-- Check 3 of R350. -/
def imgSigned (img : List Byte) : Bool :=
  Config.verifies ((img.drop 0x40).take 64) (Config.sha256 (img.take 0x80)) ((img.drop 0x80).take 64)

/-- Check 4 of R350. -/
def imgHash (img : List Byte) : Bool :=
  Config.sha256 ((img.drop 192).take (imgField img 0x0C 4)) == (img.drop 0x20).take 32

/-- The first check of R350 that an image fails, numbered from 0, so that checks 2 to 5 have their journal code. -/
def imgFails (b : Boot) (stage : Nat) (img : List Byte) : Option Nat :=
  if !imgForm stage img then some 0
  else if !imgKey b img then some 1
  else if !imgSigned img then some 2
  else if !imgHash img then some 3
  else if imgVersion img < (Map.find? b.minVer stage).getD 0 then some 4
  else none

/-- A source of a stage: A and B in flash, C on the drives of root ports 0 and 1 (23 R351). -/
def Boot.image (b : Boot) (stage src : Nat) : List Byte :=
  ((if src < 2 then Map.find? b.flash (2 * stage + src) else Map.find? b.nvme (2 * stage + src - 2))).getD []

/-- The first 28 bytes of a journal entry (23 R352). -/
def entryHead (seq count ver stage src result : Nat) : List Byte :=
  bytesOfNat 4 seq ++ bytesOfNat 4 count ++ bytesOfNat 1 stage ++ bytesOfNat 1 src ++ bytesOfNat 1 result ++ [0] ++ bytesOfNat 4 ver ++
    bytesOfNat 12 0

/-- Write a journal entry: the ring keeps the newest 256 (23 R352). -/
def Boot.note (b : Boot) (ver stage src result : Nat) : Boot :=
  let head := entryHead b.jseq b.count ver stage src result
  let l := b.journal ++ [head ++ bytesOfNat 4 (crc32 head).toNat]
  { b with journal := l.drop (l.length - 256), jseq := b.jseq + 1 }

/-- A byte of a journal entry. -/
def entryByte (e : List Byte) (i : Nat) : Nat := ((e[i]?).getD 0).toNat

/-- The flash slot that last succeeded according to the journal, or A (23 R351). -/
def Boot.goodSlot (b : Boot) (stage : Nat) : Nat :=
  b.journal.foldl (fun r e =>
    if entryByte e 8 = stage ∧ entryByte e 9 < 2 ∧ entryByte e 10 = 0 then entryByte e 9 else r) 0

/-- The sources of a stage in the order of this start (23 R351): after the one whose step failed, if one did. -/
def Boot.sources (b : Boot) (stage : Nat) : List Nat :=
  let g := b.goodSlot stage
  let l := [g, 1 - g, 2, 3]
  match Map.find? b.from_ stage with
  | none => l
  | some x => (l.dropWhile (fun y => y != x)).drop 1

/-- The version an entry gives for an image too short to have one (log 27). -/
def Boot.noteVersion (b : Boot) (img : List Byte) : Nat :=
  if 12 ≤ img.length then imgVersion img else (Config.freeWord 14 b.jseq).toNat

/-- A source that fails verification is recorded (23 R351); which code stands for check 1 is not stated (log 27). -/
def Boot.rejects (b : Boot) (stage src code : Nat) : Boot :=
  b.note (b.noteVersion (b.image stage src)) stage src (if code = 0 then 1 + (Config.freeWord 13 b.jseq).toNat % 4 else code)

/-- A verified image runs: it is measured, and its version may be committed later (23 R350). -/
def Boot.runs (b : Boot) (stage src : Nat) : Boot :=
  let img := b.image stage src
  { b with phase := .waiting stage, src := src, ver := imgVersion img, meas := Map.ins b.meas stage (Config.sha256 (img.take 192)),
           commit := if imgField img 0x1C 4 % 2 = 1 then Map.ins b.commit stage (imgVersion img) else b.commit }

/-- The running stage succeeds (23 R351). -/
def Boot.succeeds (b : Boot) (stage : Nat) : Boot :=
  let b := b.note b.ver stage b.src 0
  { b with from_ := Map.del b.from_ stage }

/-- A step failure (23 R351): the package restarts, and the next start avoids the step. -/
def Boot.stepFails (b : Boot) (stage result : Nat) : Boot :=
  let b := b.note b.ver stage b.src result
  if stage ≤ 4 then { b with phase := .off, from_ := Map.ins b.from_ stage b.src }
  else { b with phase := .off, skip := b.skip ++ [stage] }

/-- How the trial of a stage's sources ends: with a success and the reports still to come, with every source failed, or for
now, waiting for a report or in a restart. -/
inductive Trial where
  | success (b : Boot) (rs : List Bool)
  | failed (b : Boot)
  | halt (b : Boot)

/-- The running stage reports success or failure, or has not reported yet (23 R351). -/
def Boot.report (b : Boot) (stage : Nat) : List Bool → Trial
  | [] => .halt b
  | true :: rs => .success (b.succeeds stage) rs
  | false :: _ => .halt (b.stepFails stage 5)

/-- Try the sources of a stage in their order (23 R351). -/
def Boot.try (b : Boot) (stage : Nat) (rs : List Bool) : List Nat → Trial
  | [] => .failed b
  | src :: rest =>
    match imgFails b stage (b.image stage src) with
    | some code => (b.rejects stage src code).try stage rs rest
    | none => (b.runs stage src).report stage rs

/-- The package is ready (23 R350): the fused minimums of the stages that commit are raised. -/
def Boot.ready (b : Boot) : Boot :=
  { b with phase := .ready, minVer := b.commit.foldl (fun l e => Map.ins l e.1 e.2) b.minVer, commit := [] }

/-- An optional stage that is skipped is recorded; its source and version fields name nothing (log 27). -/
def Boot.skips (b : Boot) (stage : Nat) : Boot :=
  b.note (Config.freeWord 14 b.jseq).toNat stage ((Config.freeWord 15 b.jseq).toNat % 256) 7

/-- The stages from one on, in order (23 R348, R351): stages 1 to 4 are required, and the end of their sources is recovery; a
stage 5 or 6 of which no source verifies is passed over. -/
def Boot.chain (b : Boot) (rs : List Bool) : List Nat → Boot
  | [] => b.ready
  | stage :: later =>
    if b.skip.contains stage then (b.skips stage).chain rs later
    else match b.try stage rs (b.sources stage) with
      | .success b rs => b.chain rs later
      | .failed b => if stage ≤ 4 then { b with phase := .recovery, from_ := Map.del b.from_ stage } else b.chain rs later
      | .halt b => b

/-- A start (23 R352): its boot count is one more than the last. -/
def Boot.start (b : Boot) (rs : List Bool) : Boot :=
  ({ b with count := b.count + 1, meas := [], commit := [] } : Boot).chain rs [1, 2, 3, 4, 5, 6]

/-- What the package's cores and memory hold when it starts: what lies outside it, device time, and the numbers of readings are not
affected (log 27); the core clock counts from the start (16 R283). -/
def Mach.cleared (m : Mach) : Mach :=
  { Mach.reset with mem := m.mem.filter (fun c => isExternal c.1), ns := m.ns, tick := m.tick, msi := m.msi,
                    errLog := m.errLog, nextBlock := m.nextBlock, nextVat := m.nextVat, nextOp := m.nextOp }

/-- The package without power or between a failed step and the next start. -/
def State.down (s : State) (b : Boot) : State :=
  { s with m := s.m.cleared, p := { Plat.reset with boot := { b with phase := .off, meas := [], commit := [] } } }

/-- The functions of a started package (20 R305): the PF, and 63 VFs that are disabled. -/
def startFns (vfs : Bool) : List (Nat × Fn) :=
  (0, { Fn.empty with enabled := true, secure := true }) ::
    (if vfs then (rangeFrom 1 63).map (fun i => (i, Fn.empty)) else [])

/-- A port before anything has come up on it (20 R318). -/
def Port.down : Port := { up := false, failed := false, lanes := 0, retrains := 0, node := 0xFFF }

/-- The package as boot leaves it (23 R353): in recovery only the PF is present. -/
def State.booted (s : State) (b : Boot) : State :=
  if b.phase = .off then s.down b
  else if b.phase = .recovery then
    { s with m := s.m.cleared, p := { Plat.reset with fns := startFns false, boot := { b with commit := [] } } }
  else
    { s with m := s.m.cleared,
             p := { Plat.reset with fns := startFns true, ports := (List.range 32).map (fun i => (i, Port.down)), boot := b } }

/-- PACKAGE_START (23 R348 to R353): power-on or the restart after a step failure, and the reports of the stages in the order
in which they run; a stage without a report keeps the start waiting, and the event then goes on with the reports to come. -/
def execPackageStart (reports : List Bool) (s : State) : Host.Outcome State Fault Refusal :=
  eventAt s (match s.p.boot.phase with
    | .ready => none
    | .waiting stage =>
      if reports = [] then none
      else match s.p.boot.report stage reports with
        | .success b rs =>
          let b := b.chain rs ((rangeFrom 1 6).filter (fun i => decide (stage < i)))
          some (if b.phase = .off ∨ b.phase = .recovery then s.booted b else { s with p := { s.p with boot := b } })
        | .failed _ => none
        | .halt b => some (s.booted b)
    | _ => some (s.booted (s.p.boot.start reports)))

/-- STAGE_TIMEOUT (23 R351): a stage that does not report within 2 s. -/
def execStageTimeout (s : State) : Host.Outcome State Fault Refusal :=
  eventAt s (match s.p.boot.phase with
    | .waiting stage => some (s.booted (s.p.boot.stepFails stage 6))
    | _ => none)

/-- POWER_LOSS (23 R352): flash, fuses and drives keep what they hold; an entry being written is as if it had never been. -/
def execPowerLoss (midWrite : Bool) (s : State) : Host.Outcome State Fault Refusal :=
  eventAt s (match s.p.boot.phase, midWrite with
    | .off, _ => none
    | .ready, true => none
    | .recovery, true => none
    | _, _ => some (s.down s.p.boot))

/-- A command of R354, which acts in recovery too. -/
def bootCommand (fn : Nat) (s : State) (f : State → State × Nat × List (Nat × List Byte)) : Host.Outcome State Fault Refusal :=
  mailbox fn true s f

/-- Write to a buffer of the function's host. -/
def State.toHost (s : State) (fn addr : Nat) (bs : List Byte) : State := { s with m := s.m.poke ((Space.host fn).key addr) bs }

/-- Read a buffer of the function's host; none where the host refuses it. -/
def fromHost (m : Mach) (fn addr n : Nat) : Option (List Byte) :=
  (List.range n).mapM (fun i =>
    let b := engineByte m [] ((Space.host fn).key (addr + i))
    if b.2.isSome then none else some b.1)

/-- The first 0x158 bytes of an attestation report (23 R355). -/
def reportBody (s : State) (fn : Nat) (nonce : List Byte) : List Byte :=
  bytesOfNat 4 1 ++ bytesOfNat 4 408 ++ nonce ++ bytesOfNat 8 s.m.ns ++ bytesOfNat 4 s.p.boot.count ++ bytesOfNat 1 fn ++
    [if s.p.boot.phase = .recovery then 1 else 0] ++ bytesOfNat 2 0 ++ maskBytes 32 s.p.fenced ++
    (rangeFrom 1 6).flatMap (fun i => padTo 32 0 ((Map.find? s.p.boot.meas i).getD [])) ++ padTo 64 0 Config.devicePublic

/-- ATTEST (23 R354, R355). -/
def execAttest (fn : Nat) (nonce : List Byte) (addr : Nat) (s : State) : Host.Outcome State Fault Refusal :=
  bootCommand fn s (fun s =>
    if addr % 8 ≠ 0 then (s, 1, [])
    else
      let s : State := { s with m := s.m.tickOn }
      let body := reportBody s fn (padTo 32 0 nonce)
      (s.toHost fn addr (body ++ padTo 64 0 (Config.deviceSign (Config.sha256 body))), 0, []))

/-- IDENTITY (23 R354): the certificate has at most 2 KiB. -/
def execIdentity (fn addr len : Nat) (s : State) : Host.Outcome State Fault Refusal :=
  bootCommand fn s (fun s =>
    let cert := Config.certificate.take 2048
    if len < cert.length then (s, 9, []) else (s.toHost fn addr cert, 0, [(4, bytesOfNat 4 cert.length)]))

/-- The 8 KiB of the journal's ring (23 R352): entry q stands at q mod 256, and an erased entry holds no stated bytes
(log 27). -/
def Boot.ring (b : Boot) : List Byte :=
  (List.range 256).flatMap (fun i =>
    (b.journal.find? (fun e => entryByte e 0 == i)).getD
      ((List.range 32).map (fun j => (Config.freeWord 16 (8192 * b.jseq + 32 * i + j)).setWidth 8)))

/-- JOURNAL, action 0 (23 R354). -/
def execJournalRead (fn addr : Nat) (s : State) : Host.Outcome State Fault Refusal :=
  bootCommand fn s (fun s => if fn ≠ 0 then (s, 8, []) else (s.toHost fn addr s.p.boot.ring, 0, []))

/-- JOURNAL, action 1 (23 R354): with the entries go the skips and the failed steps that they record. -/
def execJournalClear (fn : Nat) (s : State) : Host.Outcome State Fault Refusal :=
  bootCommand fn s (fun s =>
    if fn ≠ 0 then (s, 8, [])
    else ({ s with p := { s.p with boot := { s.p.boot with journal := [], skip := [], from_ := [] } } }, 0, []))

/-- IMAGEWRITE (23 R354). -/
def execImagewrite (fn stage slot addr len : Nat) (s : State) : Host.Outcome State Fault Refusal :=
  bootCommand fn s (fun s =>
    if fn ≠ 0 then (s, 8, [])
    else if stage = 0 ∨ 6 < stage ∨ 2 ≤ slot then (s, 1, [])
    else
      let b := s.p.boot
      let t : State := { s with m := s.m.tickOn }
      match fromHost s.m fn addr len with
      | none => (t, 1, [])
      | some img =>
        if (imgFails b stage img).isSome then (t, 1, [])
        else ({ t with p := { t.p with boot :=
          { b with flash := Map.ins b.flash (2 * stage + slot) img, skip := b.skip.filter (fun x => x != stage),
                   from_ := Map.del b.from_ stage } } }, 0, []))

end Sys2Proof.Machine
end

