-- ==== Sys2Proof/Machine/Control.lean ====
section
/-!
DEFINITION. Control transfers, records, exit and turns (05 R100 to R112 and its instruction entries).
-/

namespace Sys2Proof.Machine

/-- A group of lanes of a transfer: where it goes and its innermost record (05 R108). -/
structure Group where
  mask : Word
  pc : Word
  inner : Option Nat
  deriving DecidableEq, Repr

/-- Put a lane into the group with its destination, or into a new group behind the others. -/
def addLane (i : Nat) (pc : Word) (inner : Option Nat) : List Group → List Group
  | [] => [{ mask := bit i, pc := pc, inner := inner }]
  | g :: gs =>
    if g.pc = pc ∧ g.inner = inner then { g with mask := g.mask ||| bit i } :: gs else g :: addLane i pc inner gs

/-- The groups of some lanes, in ascending order of their lowest lane (05 R108). -/
def groupsBy (lanes : List Nat) (dest : Nat → Word × Option Nat) : List Group :=
  lanes.foldl (fun gs i => addLane i (dest i).1 (dest i).2 gs) []

/-- A group's path after the transfer: at a clause header, one more instruction retired. -/
def Path.moved (p : Path) (g : Group) (turn : Nat) : Path :=
  { p with pc := g.pc, mask := g.mask, inner := g.inner, clause := none, cnt := p.cnt + 1, turn := turn }

/-- Divide the current path: the first group stays current and keeps its turn, the others stand directly behind it
(05 R108). -/
def split (w : Warp) (gs : List Group) : Warp :=
  match w.paths, gs with
  | p :: r, g :: gs => { w with paths := p.moved g (p.turn + 1) :: (gs.map (fun g => p.moved g 0) ++ r) }
  | _, _ => w

/-- Push a record (05 R101): its number in the warp's table, and the table. -/
def pushRec (w : Warp) (call : Bool) (addr entry : Word) : Nat × Warp :=
  (w.nextRec,
   { w with
     recs := Map.ins w.recs w.nextRec
       { call := call, addr := addr, entry := entry, arrival := 0, parent := w.path.inner, spilled := false }
     nextRec := w.nextRec + 1 })

/-- The header after the transfer's clause. -/
def nextHdr (w : Warp) : Word := w.path.pc + 4

/-- The target of a format J word: PC + 4 x OFF. -/
def jTarget (w : Warp) (off : BitVec 20) : Word := w.path.pc + (off.signExtend 32 <<< 2)

/-- A retired transfer: the new table of paths and records must fit (05 R103 to R105). `pushed` counts the records that `make`
pushes. -/
def placeWarp (q : Req) (m : Mach) (k pushed : Nat) (make : Warp → Warp) : Except Stop Mach :=
  (residency m k { m.fault k q.sc .spill with tmask := (m.warp k).path.mask } (retireWarp q true (m.warp k)) none pushed
    (fun w => (make w).limitTurn)).map (m.setWarp k)

/-- The lanes that a guard selects for a transfer: those of the guard at lane scope, all or none at warp scope (03 R61). -/
def taken (q : Req) (m : Mach) (k g : Nat) : Except Stop Word :=
  let w := m.warp k
  if q.sc = 0 then .ok (active w g)
  else match uniform w g with
    | none => .error (nonuniform q m k)
    | some true => .ok w.live
    | some false => .ok 0

/-- A transfer: lanes of c go to `target`, with a new call record for `call`; the others go to the next header
(05 BRA, CALL, BRX, CALLX). -/
def transferTo (call : Bool) (c : Word) (target : Nat → Word) (w : Warp) : Warp :=
  let r : Option Nat × Warp :=
    if call ∧ c ≠ 0 then
      let x := pushRec w true (nextHdr w) c
      (some x.1, x.2)
    else (w.path.inner, w)
  split r.2 (groupsBy (lanesOf w.path.mask) (fun i =>
    if c.getLsbD i then (target i, r.1) else (nextHdr w, w.path.inner)))

/-- What the shared checks need to know of a format J transfer. -/
def jReq (i : Instr) (sc : BitVec 1) : Req := { instr := i, sc := sc.toNat, last := true }

/-- What the shared checks need to know of BRA and CALL. -/
def jumpReq (i : Instr) (x : FJ) : Req :=
  jReq i x.sc

/-- BRA and CALL (05). -/
def jumpBody (i : Instr) (x : FJ) (call : Bool) (m : Mach) (ms : List Nat) : Except Stop Mach := do
  let q := jumpReq i x
  let k := ms.headD 0
  let c ← taken q m k x.g.toNat
  let w := m.warp k
  placeWarp q m k (call && c != 0).toNat (transferTo call c (fun _ => jTarget w x.off))

/-- BRA or CALL as an instruction of the current warp. -/
def jump (i : Instr) (x : FJ) (call : Bool) (s : State) : Host.Outcome State Fault Refusal :=
  issueTo (jumpReq i x) (jumpBody i x call) s

/-- BRA (05). -/
def execBra (x : FJ) := jump (.bra x) x false
/-- CALL (05). -/
def execCall (x : FJ) := jump (.call x) x true

/-- What the shared checks need to know of BRX and CALLX. -/
def jxReq (i : Instr) (x : FJX) : Req :=
  if x.sc = 0 then
    { instr := i, sc := 0, last := true, vecs := (Src.reg x.a).vecs, srcs := (Src.reg x.a).scalars true }
  else { instr := i, sc := 1, last := true, srcs := [x.a.toNat] }

/-- What the shared checks need to know of BRX and CALLX. -/
def jumpRegReq (i : Instr) (x : FJX) : Req :=
  jxReq i x

/-- BRX and CALLX (05): a misaligned target faults ALIGN. -/
def jumpRegBody (i : Instr) (x : FJX) (call : Bool) (m : Mach) (ms : List Nat) : Except Stop Mach := do
  let q := jumpRegReq i x
  let k := ms.headD 0
  let c ← taken q m k x.g.toNat
  let w := m.warp k
  let target (i : Nat) : Word := if x.sc = 0 then w.src x.a.toNat i else w.getS x.a.toNat
  let bad := (lanesOf c).filter (fun i => (target i).toNat % 4 != 0)
  match bad with
  | [] => placeWarp q m k (call && c != 0).toNat (transferTo call c target)
  | i :: _ =>
    throw (.trap { m.fault k q.sc .align with
      tmask := maskOf bad, taddr := target i, tinfo := BitVec.ofNat 32 (codeHandle m k % 4096 + 3 * 4096) })

/-- BRX or CALLX as an instruction of the current warp. -/
def jumpReg (i : Instr) (x : FJX) (call : Bool) (s : State) : Host.Outcome State Fault Refusal :=
  issueTo (jumpRegReq i x) (jumpRegBody i x call) s

/-- BRX (05). -/
def execBrx (x : FJX) := jumpReg (.brx x) x false
/-- CALLX (05). -/
def execCallx (x : FJX) := jumpReg (.callx x) x true

/-- What the shared checks need to know of JPT. -/
def jptReq (x : FJP) : Req :=
  { instr := .jpt x, sc := x.sc.toNat }

/-- JPT pushes a join record and goes on (05 JPT). -/
def jptBody (x : FJP) (m : Mach) (ms : List Nat) : Except Stop Mach := do
  let q := jptReq x
  let k := ms.headD 0
  placeWarp q m k 1 (fun w =>
    let r := pushRec w false (jTarget w x.off) w.path.mask
    r.2.setPath { w.path.advance 1 with inner := some r.1 })

/-- JPT as an instruction of the current warp. -/
def execJpt (x : FJP) := issueTo (jptReq x) (jptBody x)

/-- The current path arrives at record i and parks; the record may complete, and the formed path goes on in its turn; else the
next path runs (05 R102, R109, R110). -/
def arriveAt (i : Nat) (st : PathState) (w : Warp) : Warp :=
  let w : Warp := { w with recs := Map.upd w.recs i (fun r => { r with arrival := r.arrival ||| w.path.mask }) }
  let w := parkCur (w.setPath { w.path with cnt := w.path.cnt + 1, turn := w.path.turn + 1 }) st
  let w := completeRec w i
  if w.path.runnable then w.limitTurn else { w with paths := rotate w.paths }

/-- JOIN and RET at a record of the right kind (05): SCOPEMIS without one, and where every live path is parked then. -/
def arrival (q : Req) (st : PathState) (good : Warp → Rec → Bool) (m : Mach) (ms : List Nat) : Except Stop Mach := do
  let k := ms.headD 0
  let f := { m.fault k q.sc .scopemis with tmask := (m.warp k).path.mask }
  match (m.warp k).innerRec with
  | none => throw (.trap { f with tinfo := otherParked (m.warp k).paths })
  | some (i, r) =>
    if !good (m.warp k) r then throw (.trap { f with tinfo := otherParked (m.warp k).paths })
    let w ← residency m k f (m.warp k) (some i)
    let w := arriveAt i st (retireWarp q true w)
    if w.paths.any Path.runnable then return m.setWarp k w
    throw (.trap (pathMismatch m k q.sc))

/-- What the shared checks need to know of JOIN. -/
def joinReq : Req := { instr := .join, sc := 0, last := true }

/-- JOIN (05): the innermost record must be the join record of this clause. -/
def joinBody := arrival joinReq .atJoin (fun w r => !r.call && w.path.clause.any (fun c => c.hdr == r.addr))

/-- JOIN as an instruction of the current warp. -/
def execJoin := issueTo joinReq joinBody

/-- What the shared checks need to know of RET. -/
def retReq (x : FSC1) : Req := { instr := .ret x, sc := x.sc.toNat, last := true }

/-- RET (05): the innermost record must be a call record. -/
def retBody (x : FSC1) := arrival (retReq x) .atRet (fun _ r => r.call)

/-- RET as an instruction of the current warp. -/
def execRet (x : FSC1) := issueTo (retReq x) (retBody x)

/-- The spilled records that the exit of the current path completes: they must be read back (05 R105). -/
def exitFills (w : Warp) : Nat :=
  ((recordsOf w w.path.mask).filter (fun i =>
    match Map.find? w.recs i with
    | some r => r.spilled && r.complete (w.live &&& ~~~ w.path.mask)
    | none => false)).length

/-- What the shared checks need to know of EXIT. -/
def exitTReq (x : FSC1) : Req :=
  { instr := .exitT x, sc := x.sc.toNat, last := true, moves := true }

/-- EXIT (05): the lanes of the current path end. -/
def exitTBody (x : FSC1) (m : Mach) (ms : List Nat) : Except Stop Mach := do
  let q := exitTReq x
  let k := ms.headD 0
  let n := spillBytes (m.warp k)
  let low := n - 16 * exitFills (m.warp k)
  spillTouches m k { m.fault k q.sc .spill with tmask := (m.warp k).path.mask } n low low
  return exitCur (m.updWarp k (retireWarp q true)) k

/-- EXIT as an instruction of the current warp. -/
def execExitT (x : FSC1) := issueTo (exitTReq x) (exitTBody x)

/-- What the shared checks need to know of NOP. -/
def nopReq (x : FSC2) : Req :=
  { instr := .nop x, sc := x.sc.toNat }

/-- NOP (05): the rendezvous of its scope and nothing more. -/
def nopBody (m : Mach) (_ : List Nat) : Except Stop Mach :=
  .ok m

/-- NOP as an instruction of the current warp. -/
def execNop (x : FSC2) := issue (nopReq x) nopBody

/-- What the shared checks need to know of PYIELD. -/
def pyieldReq : Req :=
  { instr := .pyield, sc := 0 }

/-- PYIELD ends the current path's turn (05 R110). -/
def pyieldBody (m : Mach) (ms : List Nat) : Except Stop Mach :=
  let q := pyieldReq
  .ok (retire q (m.updWarp (ms.headD 0) Warp.spendTurn) ms)

/-- PYIELD as an instruction of the current warp. -/
def execPyield := issueTo pyieldReq pyieldBody

end Sys2Proof.Machine
end

