-- ==== Sys2Proof/Machine/Convert.lean ====
section
/-!
DEFINITION. The twenty conversions (08 R163 to R166).
-/

namespace Sys2Proof.Machine

/-- A word with n bits from bit p replaced (08 R165). -/
def insertBits (d : Word) (p n : Nat) (v : Nat) : Word :=
  let mask := BitVec.ofNat 32 ((2 ^ n - 1) * 2 ^ p)
  (d &&& ~~~ mask) ||| (BitVec.ofNat 32 (v * 2 ^ p) &&& mask)

/-- Byte k of a word. -/
def byteOf (a : Word) (k : Nat) : Nat := a.toNat / 2 ^ (8 * k) % 256

/-- FP32 to an integer range (08 R166): the result as an integer and its flags. -/
def toInteger (lo hi : Int) (mode : RMode) : FVal → Int × FFlags
  | .nan => (0, { nv := true })
  | .inf s => (if s then lo else hi, { nv := true })
  | .fin s m e =>
    let r := toIntegral mode s m e
    let x := signedInt s r.1
    if x < lo then (lo, { nv := true })
    else if hi < x then (hi, { nv := true })
    else (x, { nx := r.2 })

/-- A finite integer as an exact value. -/
def ofInteger (x : Int) : FVal := .fin (decide (x < 0)) x.natAbs 0

/-- FP32 to part of a word: n bits from bit p hold the narrowed value, the rest comes from the old destination c. -/
def narrow (p n : Nat) (f : RMode → FVal → Nat × FFlags) : RMode → Vals → Word × Word := fun mode v =>
  let r := f mode (asFp v.a)
  (insertBits v.c p n r.1, r.2.bits)

/-- A narrow format to FP32, exact and without a flag (02 R32). -/
def widening (f : Word → FVal) : RMode → Vals → Word × Word := fun _ v =>
  (BitVec.ofNat 32 (fp32.deliver .rne (f v.a)).1, 0)

/-- INT8 in byte form (08 R166). -/
def toInt8 (mode : RMode) (x : FVal) : Nat × FFlags :=
  let r := toInteger (-128) 127 mode x
  ((r.1 % 256).toNat, r.2)

/-- I2F: code 0. -/
def execI2f (x : FA2) :=
  compute (.i2f x) x.sc x.g x.d (.reg x.a) (.imm 0) (.imm 0) (fun mode v => asWords (fp32.deliver mode (ofInteger v.a.toInt)))
/-- U2F: code 1. -/
def execU2f (x : FA2) :=
  compute (.u2f x) x.sc x.g x.d (.reg x.a) (.imm 0) (.imm 0) (fun mode v => asWords (fp32.deliver mode (ofInteger v.a.toNat)))
/-- F2I: code 2. -/
def execF2i (x : FA2) :=
  compute (.f2i x) x.sc x.g x.d (.reg x.a) (.imm 0) (.imm 0) (fun mode v =>
    let r := toInteger (-2147483648) 2147483647 mode (asFp v.a)
    (wordOf r.1, r.2.bits))
/-- F2U: code 3. -/
def execF2u (x : FA2) :=
  compute (.f2u x) x.sc x.g x.d (.reg x.a) (.imm 0) (.imm 0) (fun mode v =>
    let r := toInteger 0 4294967295 mode (asFp v.a)
    (wordOf r.1, r.2.bits))
/-- F2H: code 4. -/
def execF2h (x : FA2) :=
  compute (.f2h x) x.sc x.g x.d (.reg x.a) (.imm 0) (.reg x.d) (narrow 0 16 fp16.deliver)
/-- F2HH: code 5. -/
def execF2hh (x : FA2) :=
  compute (.f2hh x) x.sc x.g x.d (.reg x.a) (.imm 0) (.reg x.d) (narrow 16 16 fp16.deliver)
/-- H2F: code 6. -/
def execH2f (x : FA2) :=
  compute (.h2f x) x.sc x.g x.d (.reg x.a) (.imm 0) (.imm 0) (widening (half fp16 0))
/-- H2FH: code 7. -/
def execH2fh (x : FA2) :=
  compute (.h2fh x) x.sc x.g x.d (.reg x.a) (.imm 0) (.imm 0) (widening (half fp16 1))
/-- F2BF: code 8. -/
def execF2bf (x : FA2) :=
  compute (.f2bf x) x.sc x.g x.d (.reg x.a) (.imm 0) (.reg x.d) (narrow 0 16 bf16.deliver)
/-- F2BFH: code 9. -/
def execF2bfh (x : FA2) :=
  compute (.f2bfh x) x.sc x.g x.d (.reg x.a) (.imm 0) (.reg x.d) (narrow 16 16 bf16.deliver)
/-- BF2F: code 10. -/
def execBf2f (x : FA2) :=
  compute (.bf2f x) x.sc x.g x.d (.reg x.a) (.imm 0) (.imm 0) (widening (half bf16 0))
/-- BF2FH: code 11. -/
def execBf2fh (x : FA2) :=
  compute (.bf2fh x) x.sc x.g x.d (.reg x.a) (.imm 0) (.imm 0) (widening (half bf16 1))
/-- F2E4: code 12. -/
def execF2e4 (x : FA2K) :=
  compute (.f2e4 x) x.sc x.g x.d (.reg x.a) (.imm 0) (.reg x.d) (narrow (8 * x.k.toNat) 8 e4m3.deliver)
/-- E42F: code 13. -/
def execE42f (x : FA2K) :=
  compute (.e42f x) x.sc x.g x.d (.reg x.a) (.imm 0) (.imm 0) (widening (fun a => e4m3.decode (byteOf a x.k.toNat)))
/-- F2E5: code 14. -/
def execF2e5 (x : FA2K) :=
  compute (.f2e5 x) x.sc x.g x.d (.reg x.a) (.imm 0) (.reg x.d) (narrow (8 * x.k.toNat) 8 e5m2.deliver)
/-- E52F: code 15. -/
def execE52f (x : FA2K) :=
  compute (.e52f x) x.sc x.g x.d (.reg x.a) (.imm 0) (.imm 0) (widening (fun a => e5m2.decode (byteOf a x.k.toNat)))
/-- F2LG: code 16, which ignores FMODE. -/
def execF2lg (x : FA2K) :=
  compute (.f2lg x) x.sc x.g x.d (.reg x.a) (.imm 0) (.reg x.d) (narrow (8 * x.k.toNat) 8 (fun _ => lg6Of))
/-- LG2F: code 17. -/
def execLg2f (x : FA2K) :=
  compute (.lg2f x) x.sc x.g x.d (.reg x.a) (.imm 0) (.imm 0) (widening (fun a => lg6Value (byteOf a x.k.toNat)))
/-- F2I8: code 18. -/
def execF2i8 (x : FA2K) :=
  compute (.f2i8 x) x.sc x.g x.d (.reg x.a) (.imm 0) (.reg x.d) (narrow (8 * x.k.toNat) 8 toInt8)
/-- I82F: code 19. -/
def execI82f (x : FA2K) :=
  compute (.i82f x) x.sc x.g x.d (.reg x.a) (.imm 0) (.imm 0) (widening (fun a => ofInteger (BitVec.ofNat 8 (byteOf a x.k.toNat)).toInt))

end Sys2Proof.Machine
end

