-- ==== Sys2Proof/Machine/Integer.lean ====
section
/-!
DEFINITION. Integer, logic, shift, move, compare and predicate forms (07 R130 to R146).
-/

namespace Sys2Proof.Machine

/-- IMULH (07 R131). -/
def mulHigh (a b : Word) : Word := wordOf (a.toInt * b.toInt / 2 ^ 32)

/-- IMULHU (07 R131). -/
def mulHighU (a b : Word) : Word := BitVec.ofNat 32 (a.toNat * b.toNat / 2 ^ 32)

/-- IABSD (07 R131). -/
def absDiff (a b : Word) : Word := wordOf (a.toInt - b.toInt).natAbs

/-- The amount of a register shift is b[4:0] (07 R136). -/
def shiftAmount (b : Word) : Nat := b.toNat % 32

/-- SHL, SHR, SAR and ROL by an amount below 32 (07 R136). -/
def shl (a : Word) (n : Nat) : Word := a <<< n
def shr (a : Word) (n : Nat) : Word := a >>> n
def sar (a : Word) (n : Nat) : Word := a.sshiftRight n
def rol (a : Word) (n : Nat) : Word := (a <<< n) ||| (a >>> (32 - n))

/-- Leading zero bits (07 R139). -/
def clz (a : Word) : Nat := (List.range 32).foldl (fun n i => if a.getLsbD i then 31 - i else n) 32

/-- One bits (07 R139). -/
def popc (a : Word) : Nat := (lanesOf a).length

/-- Bit k to bit 31 - k (07 R139). -/
def brev (a : Word) : Word := maskOf ((lanesOf a).map (31 - ·))

/-- IABS (07 R139). -/
def iabs (a : Word) : Word := wordOf a.toInt.natAbs

/-- Position and effective width of a field control word (07 R140). -/
def fieldPos (b : Word) : Nat := b.toNat % 32
def fieldWidth (b : Word) : Nat := min (bits b 13 8) (32 - fieldPos b)

/-- BFXU (07 R140). -/
def bfxu (a b : Word) : Word := BitVec.ofNat 32 (a.toNat / 2 ^ fieldPos b % 2 ^ fieldWidth b)

/-- BFX (07 R140). -/
def bfx (a b : Word) : Word :=
  let x := (bfxu a b).toNat
  let n := fieldWidth b
  if n = 0 then 0 else if 2 ^ (n - 1) ≤ x then wordOf ((x : Int) - 2 ^ n) else BitVec.ofNat 32 x

/-- BFI: d is the old destination (07 R140). -/
def bfi (a b d : Word) : Word :=
  let mask := BitVec.ofNat 32 ((2 ^ fieldWidth b - 1) * 2 ^ fieldPos b)
  (d &&& ~~~ mask) ||| ((a <<< fieldPos b) &&& mask)

/-- IADDMIN (07 R132). -/
def addMin (a b c : Word) : Word := wordOf (min (sat32 (a.toInt + b.toInt)) c.toInt)

/-- The conditions of an integer compare (03 R64). -/
def intCond (cnd : BitVec 3) (a b : Word) : Bool :=
  match cnd.toNat with
  | 0 => a == b
  | 1 => a != b
  | 2 => decide (a.toInt < b.toInt)
  | 3 => decide (a.toInt ≤ b.toInt)
  | 4 => decide (b.toInt < a.toInt)
  | 5 => decide (b.toInt ≤ a.toInt)
  | 6 => decide (a.toNat < b.toNat)
  | _ => decide (a.toNat ≤ b.toNat)

/-- IADD (07 R130). -/
def execIadd (x : FA3) :=
  compute (.iadd x) x.sc x.g x.d (.reg x.a) (.reg x.b) (.imm 0) (pure2 (fun a b => a + b))
/-- ISUB (07 R130). -/
def execIsub (x : FA3) :=
  compute (.isub x) x.sc x.g x.d (.reg x.a) (.reg x.b) (.imm 0) (pure2 (fun a b => a - b))
/-- IADDS (07 R130). -/
def execIadds (x : FA3) :=
  compute (.iadds x) x.sc x.g x.d (.reg x.a) (.reg x.b) (.imm 0) (pure2 (fun a b => wordOf (sat32 (a.toInt + b.toInt))))
/-- ISUBS (07 R130). -/
def execIsubs (x : FA3) :=
  compute (.isubs x) x.sc x.g x.d (.reg x.a) (.reg x.b) (.imm 0) (pure2 (fun a b => wordOf (sat32 (a.toInt - b.toInt))))
/-- IMUL (07 R131). -/
def execImul (x : FA3) :=
  compute (.imul x) x.sc x.g x.d (.reg x.a) (.reg x.b) (.imm 0) (pure2 (fun a b => a * b))
/-- IMULH (07 R131). -/
def execImulh (x : FA3) :=
  compute (.imulh x) x.sc x.g x.d (.reg x.a) (.reg x.b) (.imm 0) (pure2 mulHigh)
/-- IMULHU (07 R131). -/
def execImulhu (x : FA3) :=
  compute (.imulhu x) x.sc x.g x.d (.reg x.a) (.reg x.b) (.imm 0) (pure2 mulHighU)
/-- IABSD (07 R131). -/
def execIabsd (x : FA3) :=
  compute (.iabsd x) x.sc x.g x.d (.reg x.a) (.reg x.b) (.imm 0) (pure2 absDiff)
/-- IMIN (07 R134). -/
def execImin (x : FA3) :=
  compute (.imin x) x.sc x.g x.d (.reg x.a) (.reg x.b) (.imm 0) (pure2 (fun a b => if a.toInt ≤ b.toInt then a else b))
/-- IMAX (07 R134). -/
def execImax (x : FA3) :=
  compute (.imax x) x.sc x.g x.d (.reg x.a) (.reg x.b) (.imm 0) (pure2 (fun a b => if a.toInt ≤ b.toInt then b else a))
/-- UMIN (07 R134). -/
def execUmin (x : FA3) :=
  compute (.umin x) x.sc x.g x.d (.reg x.a) (.reg x.b) (.imm 0) (pure2 (fun a b => if a.toNat ≤ b.toNat then a else b))
/-- UMAX (07 R134). -/
def execUmax (x : FA3) :=
  compute (.umax x) x.sc x.g x.d (.reg x.a) (.reg x.b) (.imm 0) (pure2 (fun a b => if a.toNat ≤ b.toNat then b else a))
/-- AND (07 R135). -/
def execAndB (x : FA3) :=
  compute (.andB x) x.sc x.g x.d (.reg x.a) (.reg x.b) (.imm 0) (pure2 (fun a b => a &&& b))
/-- OR (07 R135). -/
def execOrB (x : FA3) :=
  compute (.orB x) x.sc x.g x.d (.reg x.a) (.reg x.b) (.imm 0) (pure2 (fun a b => a ||| b))
/-- XOR (07 R135). -/
def execXorB (x : FA3) :=
  compute (.xorB x) x.sc x.g x.d (.reg x.a) (.reg x.b) (.imm 0) (pure2 (fun a b => a ^^^ b))
/-- ANDN (07 R135). -/
def execAndn (x : FA3) :=
  compute (.andn x) x.sc x.g x.d (.reg x.a) (.reg x.b) (.imm 0) (pure2 (fun a b => a &&& ~~~ b))
/-- SHL (07 R136). -/
def execShl (x : FA3) :=
  compute (.shl x) x.sc x.g x.d (.reg x.a) (.reg x.b) (.imm 0) (pure2 (fun a b => shl a (shiftAmount b)))
/-- SHR (07 R136). -/
def execShr (x : FA3) :=
  compute (.shr x) x.sc x.g x.d (.reg x.a) (.reg x.b) (.imm 0) (pure2 (fun a b => shr a (shiftAmount b)))
/-- SAR (07 R136). -/
def execSar (x : FA3) :=
  compute (.sar x) x.sc x.g x.d (.reg x.a) (.reg x.b) (.imm 0) (pure2 (fun a b => sar a (shiftAmount b)))
/-- ROL (07 R136). -/
def execRol (x : FA3) :=
  compute (.rol x) x.sc x.g x.d (.reg x.a) (.reg x.b) (.imm 0) (pure2 (fun a b => rol a (shiftAmount b)))
/-- BFX (07 R140). -/
def execBfx (x : FA3) :=
  compute (.bfx x) x.sc x.g x.d (.reg x.a) (.reg x.b) (.imm 0) (pure2 bfx)
/-- BFXU (07 R140). -/
def execBfxu (x : FA3) :=
  compute (.bfxu x) x.sc x.g x.d (.reg x.a) (.reg x.b) (.imm 0) (pure2 bfxu)

/-- CLZ (07 R139). -/
def execClz (x : FA2) := compute (.clz x) x.sc x.g x.d (.reg x.a) (.imm 0) (.imm 0) (pure1 (fun a => BitVec.ofNat 32 (clz a)))
/-- POPC (07 R139). -/
def execPopc (x : FA2) :=
  compute (.popc x) x.sc x.g x.d (.reg x.a) (.imm 0) (.imm 0) (pure1 (fun a => BitVec.ofNat 32 (popc a)))
/-- BREV (07 R139). -/
def execBrev (x : FA2) := compute (.brev x) x.sc x.g x.d (.reg x.a) (.imm 0) (.imm 0) (pure1 brev)
/-- IABS (07 R139). -/
def execIabs (x : FA2) := compute (.iabs x) x.sc x.g x.d (.reg x.a) (.imm 0) (.imm 0) (pure1 iabs)

/-- BFI reads its destination as a third source (07 R140). -/
def execBfi (x : FA3) :=
  compute (.bfi x) x.sc x.g x.d (.reg x.a) (.reg x.b) (.reg x.d) (fun _ v => (bfi v.a v.b v.c, 0))

/-- IMLA (07 R132). -/
def execImla (x : FQ) :=
  compute (.imla x) x.sc 0 x.d (.reg x.a) (.reg x.b) (.reg x.c) (fun _ v => (v.a * v.b + v.c, 0))
/-- IADDMIN (07 R132). -/
def execIaddmin (x : FQ) :=
  compute (.iaddmin x) x.sc 0 x.d (.reg x.a) (.reg x.b) (.reg x.c) (fun _ v => (addMin v.a v.b v.c, 0))
/-- ISUM3 (07 R132). -/
def execIsum3 (x : FQ) :=
  compute (.isum3 x) x.sc 0 x.d (.reg x.a) (.reg x.b) (.reg x.c) (fun _ v => (v.a + v.b + v.c, 0))

/-- IADDI (07 R133). -/
def execIaddi (x : FI) :=
  compute (.iaddi x) x.sc 0 x.d (.reg x.a) (.imm (x.imm.signExtend 32)) (.imm 0) (pure2 (fun a b => a + b))

/-- ANDI (07 R138). -/
def execAndi (x : FK10) :=
  compute (.andi x) x.sc 0 x.d (.reg x.a) (.imm (x.imm.zeroExtend 32)) (.imm 0) (pure2 (fun a b => a &&& b))
/-- ORI (07 R138). -/
def execOri (x : FK10) :=
  compute (.ori x) x.sc 0 x.d (.reg x.a) (.imm (x.imm.zeroExtend 32)) (.imm 0) (pure2 (fun a b => a ||| b))
/-- XORI (07 R138). -/
def execXori (x : FK10) :=
  compute (.xori x) x.sc 0 x.d (.reg x.a) (.imm (x.imm.zeroExtend 32)) (.imm 0) (pure2 (fun a b => a ^^^ b))

/-- SHLI (07 R137). -/
def execShli (x : FK5) := compute (.shli x) x.sc 0 x.d (.reg x.a) (.imm 0) (.imm 0) (pure1 (fun a => shl a x.imm.toNat))
/-- SHRI (07 R137). -/
def execShri (x : FK5) := compute (.shri x) x.sc 0 x.d (.reg x.a) (.imm 0) (.imm 0) (pure1 (fun a => shr a x.imm.toNat))
/-- SARI (07 R137). -/
def execSari (x : FK5) := compute (.sari x) x.sc 0 x.d (.reg x.a) (.imm 0) (.imm 0) (pure1 (fun a => sar a x.imm.toNat))
/-- ROLI (07 R137). -/
def execRoli (x : FK5) := compute (.roli x) x.sc 0 x.d (.reg x.a) (.imm 0) (.imm 0) (pure1 (fun a => rol a x.imm.toNat))

/-- MOVI (07 R143). -/
def execMovi (x : FL18) :=
  compute (.movi x) x.sc 0 x.d (.imm (x.imm.signExtend 32)) (.imm 0) (.imm 0) (pure1 (fun a => a))
/-- MOVHI keeps the low 18 bits of the old destination (07 R143). -/
def execMovhi (x : FL14) :=
  compute (.movhi x) x.sc 0 x.d (.reg x.d) (.imm 0) (.imm 0)
    (fun _ v => ((v.a &&& 0x3FFFF) ||| (x.imm.zeroExtend 32 <<< 18), 0))

/-- MOV (07 R141). -/
def execMov (x : FA2) := compute (.mov x) x.sc x.g x.d (.reg x.a) (.imm 0) (.imm 0) (pure1 (fun a => a))

/-- What the shared checks need to know of SEL. -/
def selReq (x : FA3) : Req :=
  computeReq (.sel x) x.sc x.d.toNat (.reg x.a) (.reg x.b) (.imm 0)

/-- SEL chooses between a and b by its selector, which is no guard (07 R141). -/
def selBody (x : FA3) (m : Mach) (ms : List Nat) : Except Stop Mach :=
  let q := selReq x
  let k := ms.headD 0
  let w := m.warp k
  if x.sc = 0 then
    let ls := lanesOf w.path.mask
    .ok ((countPipe m k 0 ls.length).setWarp k (writeLanes w x.d.toNat ls (fun i =>
      if (w.getP x.g.toNat).getLsbD i then w.src x.a.toNat i else w.src x.b.toNat i)))
  else
    match uniform w x.g.toNat with
    | none => .error (nonuniform q m k)
    | some t => .ok ((countPipe m k 1 0).setWarp k (w.setS x.d.toNat (if t then w.getS x.a.toNat else w.getS x.b.toNat)))

/-- SEL as an instruction of the current warp. -/
def execSel (x : FA3) (s : State) : Host.Outcome State Fault Refusal :=
  issue (selReq x) (selBody x) s

/-- ICMP (07 R144). -/
def execIcmp (x : FC) := compareForm (.icmp x) x.sc x.g x.pd x.f.toNat (.reg x.a) (.reg x.b) (intCond x.cnd)
/-- ICMPI (07 R145): combine set, no guard. -/
def execIcmpi (x : FCI) := compareForm (.icmpi x) x.sc 0 x.pd 0 (.reg x.a) (.imm (x.imm.signExtend 32)) (intCond x.cnd)

/-- The effect of a lane-scope form that acts on its warp alone. -/
def laneFormBody (g : BitVec 3) (f : Warp → Word → Warp) (m : Mach) (ms : List Nat) : Except Stop Mach :=
  let k := ms.headD 0
  let w := m.warp k
  let act := active w g.toNat
  .ok ((countPipe m k 0 (lanesOf act).length).setWarp k (f w act))

/-- A lane-scope form whose effect is on the warp alone. -/
def laneForm (q : Req) (g : BitVec 3) (f : Warp → Word → Warp) (s : State) : Host.Outcome State Fault Refusal :=
  issue q (laneFormBody g f) s

/-- P2V: 0 or 1 in each active lane (07 R142). -/
def execP2v (x : FDAG) :=
  laneForm { instr := .p2v x, sc := 0, vecs := [x.d.toNat], vdsts := [x.d.toNat] } x.g (fun w act =>
    writeLanes w x.d.toNat (lanesOf act) (fun i => if (w.getP x.a.toNat).getLsbD i then 1 else 0))

/-- V2P: is the register nonzero in each active lane (07 R142). -/
def execV2p (x : FDAHG) :=
  laneForm { instr := .v2p x, sc := 0, vecs := (Src.reg x.a).vecs, srcs := (Src.reg x.a).scalars true } x.g (fun w act =>
    w.setP x.d.toNat (combine 0 (w.getP x.d.toNat) (maskBy (lanesOf act) (fun i => w.src x.a.toNat i != 0)) act))

/-- Predicate logic in the active lanes (07 R146). -/
def predForm (i : Instr) (g : BitVec 3) (d : BitVec 6) (f : Warp → Word) :=
  laneForm { instr := i, sc := 0 } g (fun w act => w.setP d.toNat (combine 0 (w.getP d.toNat) (f w) act))

/-- PAND (07 R146). -/
def execPand (x : FDABG) := predForm (.pand x) x.g x.d (fun w => w.getP x.a.toNat &&& w.getP x.b.toNat)
/-- POR (07 R146). -/
def execPor (x : FDABG) := predForm (.por x) x.g x.d (fun w => w.getP x.a.toNat ||| w.getP x.b.toNat)
/-- PXOR (07 R146). -/
def execPxor (x : FDABG) := predForm (.pxor x) x.g x.d (fun w => w.getP x.a.toNat ^^^ w.getP x.b.toNat)
/-- PNOT (07 R146). -/
def execPnot (x : FDAG) := predForm (.pnot x) x.g x.d (fun w => ~~~ w.getP x.a.toNat)

end Sys2Proof.Machine
end

