-- ==== Sys2Proof/Machine/LaneForms.lean ====
section
/-!
DEFINITION. The four lane forms XLN, PGAT, REDX and SCAN (07 R147 to R151), which act on every live lane at once.
-/

namespace Sys2Proof.Machine

/-- Count a lane-crossbar operation: XBOPS, and XBCLK with the second execution (07 R125 to R127). -/
def countXbar (m : Mach) (k clocks : Nat) : Mach :=
  let b := m.blockOf k
  (m.count b.ctx 20 1).count b.ctx 21 (if b.lr.checked then 2 * clocks else clocks)

/-- A lane form: its guard is uniform and suppresses the whole effect when it reads 0 (07 R147). -/
def crossForm (q : Req) (g : BitVec 3) (clocks : Nat) (f : Warp → Warp) (s : State) : Host.Outcome State Fault Refusal :=
  issue q (fun m ms =>
    let k := ms.headD 0
    let w := m.warp k
    match uniform w g.toNat with
    | none => .error (nonuniform q m k)
    | some false => .ok (countXbar m k clocks)
    | some true => .ok ((countXbar m k clocks).setWarp k (f w))) s

/-- The source lane of XLN: form 0 BACK, 1 FWD, 2 FLIP, 3 FROM; an integer, which may leave the segment (07 R148). -/
def xlnSource (form i : Nat) (ctl : Word) : Nat × Bool :=
  let c := bits ctl 4 0
  let w := 32 / 2 ^ min (bits ctl 10 8) 5
  let lo := i - i % w
  match form with
  | 0 => (i - c, decide (lo + c ≤ i))
  | 1 => (i + c, decide (i + c ≤ lo + w - 1))
  | 2 => (i ^^^ (c % w), true)
  | _ => (lo + c % w, true)

/-- XLN: each live lane takes another lane's value, or keeps its own where the source leaves the segment (07 R148). -/
def xln (form d a b : Nat) (w : Warp) : Warp :=
  writeLanes w d (lanesOf w.live) (fun i =>
    let j := xlnSource form i (w.src b i)
    if j.2 then w.src a j.1 else w.src a i)

/-- What the shared checks need to know of XLN. -/
def xlnReq (i : Instr) (x : FDABHG) : Req :=
  { instr := i, sc := 1, vecs := x.d.toNat :: ((Src.reg x.a).vecs ++ (Src.reg x.b).vecs), vdsts := [x.d.toNat],
    srcs := (Src.reg x.a).scalars true ++ (Src.reg x.b).scalars true }

/-- XLN.BACK (07 R148). -/
def execXlnBack (x : FDABHG) := crossForm (xlnReq (.xlnBack x) x) x.g 1 (xln 0 x.d.toNat x.a.toNat x.b.toNat)
/-- XLN.FWD (07 R148). -/
def execXlnFwd (x : FDABHG) := crossForm (xlnReq (.xlnFwd x) x) x.g 1 (xln 1 x.d.toNat x.a.toNat x.b.toNat)
/-- XLN.FLIP (07 R148). -/
def execXlnFlip (x : FDABHG) := crossForm (xlnReq (.xlnFlip x) x) x.g 1 (xln 2 x.d.toNat x.a.toNat x.b.toNat)
/-- XLN.FROM (07 R148). -/
def execXlnFrom (x : FDABHG) := crossForm (xlnReq (.xlnFrom x) x) x.g 1 (xln 3 x.d.toNat x.a.toNat x.b.toNat)

/-- PGAT.EVERY (07 R149). -/
def execPgatEvery (x : FDAG) :=
  crossForm { instr := .pgatEvery x, sc := 1, dsts := [x.d.toNat] } x.g 1 (fun w =>
    w.setS x.d.toNat (if w.getP x.a.toNat &&& w.live = w.live then 1 else 0))
/-- PGAT.SOME (07 R149). -/
def execPgatSome (x : FDAG) :=
  crossForm { instr := .pgatSome x, sc := 1, dsts := [x.d.toNat] } x.g 1 (fun w =>
    w.setS x.d.toNat (if w.getP x.a.toNat &&& w.live = 0 then 0 else 1))
/-- PGAT.MASK (07 R149). -/
def execPgatMask (x : FDAG) :=
  crossForm { instr := .pgatMask x, sc := 1, dsts := [x.d.toNat] } x.g 1 (fun w =>
    w.setS x.d.toNat (w.getP x.a.toNat &&& w.live))
/-- PGAT.LIVE (07 R149). -/
def execPgatLive (x : FDG) :=
  crossForm { instr := .pgatLive x, sc := 1, dsts := [x.d.toNat] } x.g 1 (fun w => w.setS x.d.toNat w.live)

/-- What the shared checks need to know of REDX and SCAN. -/
def redxReq (i : Instr) (x : FDAHG) : Req :=
  { instr := i, sc := 1, vecs := (Src.reg x.a).vecs, srcs := (Src.reg x.a).scalars true, dsts := [x.d.toNat] }
def scanReq (i : Instr) (x : FDAHG) : Req :=
  { instr := i, sc := 1, vecs := x.d.toNat :: (Src.reg x.a).vecs, vdsts := [x.d.toNat], srcs := (Src.reg x.a).scalars true }

/-- The signed lesser and greater of two words. -/
def sMin (a b : Word) : Word := if a.toInt ≤ b.toInt then a else b
def sMax (a b : Word) : Word := if a.toInt ≤ b.toInt then b else a

/-- An integer reduction over the live lanes (07 R150). -/
def reduce (f : Word → Word → Word) (e : Word) (d a : Nat) (w : Warp) : Warp :=
  w.setS d ((lanesOf w.live).foldl (fun acc i => f acc (w.src a i)) e)

/-- REDX.ADD (07 R150). -/
def execRedxAdd (x : FDAHG) := crossForm (redxReq (.redxAdd x) x) x.g 2 (reduce (· + ·) 0 x.d.toNat x.a.toNat)
/-- REDX.SMIN (07 R150). -/
def execRedxSmin (x : FDAHG) := crossForm (redxReq (.redxSmin x) x) x.g 2 (reduce sMin 0x7FFFFFFF x.d.toNat x.a.toNat)
/-- REDX.SMAX (07 R150). -/
def execRedxSmax (x : FDAHG) := crossForm (redxReq (.redxSmax x) x) x.g 2 (reduce sMax 0x80000000 x.d.toNat x.a.toNat)

/-- One level of the tree of R46 over values of which some are absent: a pair with one value passes it on. -/
def treeLevel (mode : RMode) : List (Option Word) → List (Option Word) × Word
  | a :: b :: l =>
    let r := treeLevel mode l
    match a, b with
    | some x, some y => let z := fpAdd mode x y; (some z.1 :: r.1, z.2 ||| r.2)
    | some x, none => (some x :: r.1, r.2)
    | none, y => (y :: r.1, r.2)
  | l => (l, 0)

/-- Five levels of the tree of R46: the sum and the flags of every addition. -/
def treeSum (mode : RMode) : Nat → List (Option Word) → Word × Word
  | 0, l => ((l.headD none).getD 0, 0)
  | n + 1, l =>
    let r := treeLevel mode l
    let z := treeSum mode n r.1
    (z.1, z.2 ||| r.2)

/-- REDX.FADD (07 R150, 02 R46). -/
def execRedxFadd (x : FDAHG) :=
  crossForm (redxReq (.redxFadd x) x) x.g 5 (fun w =>
    let z := treeSum w.mode 5
      ((List.range 32).map (fun i => if w.live.getLsbD i then some (w.src x.a.toNat i) else none))
    (w.setS x.d.toNat z.1).orFlags z.2)

/-- The running values of a scan over all 32 lanes: the value before and after each (07 R151). -/
def scanVals (f : Word → Word → Word) (e : Word) (x : Nat → Word) : List Nat → Word → List (Nat × Word × Word)
  | [], _ => []
  | i :: is, acc => (i, acc, f acc (x i)) :: scanVals f e x is (f acc (x i))

/-- A prefix operation over the live lanes; exited lanes supply the identity (07 R151). -/
def scan (f : Word → Word → Word) (e : Word) (exclusive : Bool) (d a : Nat) (w : Warp) : Warp :=
  let xs := scanVals f e (fun i => if w.live.getLsbD i then w.src a i else e) (List.range 32) e
  writeLanes w d (lanesOf w.live) (fun i =>
    match xs.find? (fun v => v.1 == i) with
    | some v => if exclusive then v.2.1 else v.2.2
    | none => 0)

/-- SCAN.ADD (07 R151). -/
def execScanAdd (x : FDAHG) := crossForm (scanReq (.scanAdd x) x) x.g 2 (scan (· + ·) 0 false x.d.toNat x.a.toNat)
/-- SCAN.XADD (07 R151). -/
def execScanXadd (x : FDAHG) := crossForm (scanReq (.scanXadd x) x) x.g 2 (scan (· + ·) 0 true x.d.toNat x.a.toNat)
/-- SCAN.MAX (07 R151). -/
def execScanMax (x : FDAHG) := crossForm (scanReq (.scanMax x) x) x.g 2 (scan sMax 0x80000000 false x.d.toNat x.a.toNat)
/-- SCAN.MIN (07 R151). -/
def execScanMin (x : FDAHG) := crossForm (scanReq (.scanMin x) x) x.g 2 (scan sMin 0x7FFFFFFF false x.d.toNat x.a.toNat)

end Sys2Proof.Machine
end

