-- ==== Sys2Proof/Machine/Mailbox.lean ====
section
/-!
DEFINITION. The function's register page as software reads and writes it (20 R305, R318), and the mailbox command that a write of
MBXGO submits (20 R306; 21 R340, R342; 23 R354). Where an operand stands whose offset the spec does not give is log 23.
-/

namespace Sys2Proof.Machine

/-- Does an offset hold a register whose write is an event of its own? -/
def ownEvent (off : Nat) : Bool :=
  (decide (0x100 ≤ off) && decide (off < 0x180) && off % 32 == 0x0C) || off == 0x200 || off == 0x218 || off == 0x220 ||
  off == 0x330 || (decide (0x400 ≤ off) && decide (off < 0x480))

/-- An operand of n bytes of a command. -/
def operand (c : List Byte) (off n : Nat) : Nat := fieldAt c off n

/-- The warp that a debug action names, from its operands at 0x0C (21 R342). -/
def warpOperand (c : List Byte) : WarpName :=
  { launch := BitVec.ofNat 32 (operand c 0x0C 4), flat := operand c 0x10 4, warp := operand c 0x14 1 }

/-- DEBUG by its action (21 R340, R342); another action is refused with FAIL (DESIGN CHOICE, log 23). -/
def debugCode (fn : Nat) (c : List Byte) (s : State) : Host.Outcome State Fault Refusal :=
  let ctx := operand c 8 1
  match operand c 9 1 with
  | 0 => execDebugStop fn ctx s
  | 1 => execDebugReleaseWarp fn ctx (warpOperand c) s
  | 2 => execDebugReleaseAll fn ctx s
  | 3 => execDebugSetBreakpoint fn ctx (operand c 0x0C 1) (operand c 0x0E 2) (operand c 0x10 2) s
  | 4 => execDebugClearBreakpoint fn ctx (operand c 0x0C 1) s
  | 5 => execDebugDump fn ctx (warpOperand c) s
  | _ => command fn s (fun s => (s, 1, []))

/-- The 512 entries of a slot table in device memory (20 R306, R313; log 23). -/
def slotEntries (m : Mach) (addr : Nat) : List (BitVec 16) :=
  (List.range 512).map (fun i => BitVec.ofNat 16 (m.phys (addr + 2 * i) 2))

/-- The time parameters in a command (20 R306). -/
def timeOperand (c : List Byte) : TimeParam :=
  { teams := BitVec.ofNat 32 (operand c 0x0C 4), margin := BitVec.ofNat 32 (operand c 0x10 4), period := operand c 0x14 1,
    share := operand c 0x15 1, grace := operand c 0x18 4 }

/-- A command of the PF by its code (20 R306; 21 R340). -/
def pfCode (fn code : Nat) (c : List Byte) (s : State) : Host.Outcome State Fault Refusal :=
  match code with
  | 16 => execQuota fn (operand c 8 1) (operand c 9 1) (operand c 0x0A 1 != 0) s
  | 17 => execTimeparam fn (operand c 8 1) (timeOperand c) s
  | 18 => execTagRegion fn (operand c 8 8) (operand c 0x10 4) (operand c 0x14 1) s
  | 19 => execSlots fn (operand c 8 2) (slotEntries s.m (operand c 0x10 8)) s
  | 20 => execExportEntry fn (operand c 8 2) (ExportEntry.ofBytes ((c.drop 0x10).take 16)) s
  | 21 => if operand c 9 1 = 0xFF then execLendRevoke fn (operand c 8 1) s
          else execLend fn (operand c 8 1) (operand c 9 1) s
  | 22 => execNvmegrant fn (operand c 8 1) (operand c 0x0C 4) (operand c 0x10 1 != 0) s
  | 23 => execFencemap fn s
  | 24 => execHealth fn (BitVec.ofNat 32 (operand c 8 4)) s
  | 25 => execTestTeam fn (operand c 8 1) s
  | 28 => if operand c 8 1 = 0 then execJournalRead fn (operand c 0x10 8) s
          else if operand c 8 1 = 1 then execJournalClear fn s else bootCommand fn s (fun s => (s, 1, []))
  | 29 => execImagewrite fn (operand c 8 1) (operand c 9 1) (operand c 0x10 8) (operand c 0x18 4) s
  | _ => command fn s (fun s => (s, 1, []))

/-- The command of 64 bytes that MBXCMD holds (20 R306; 21 R340; 23 R354); a code of none is refused with FAIL (DESIGN CHOICE, log 23). -/
def submit (fn : Nat) (c : List Byte) (s : State) : Host.Outcome State Fault Refusal :=
  match operand c 0 2 with
  | 1 => execCreateCtx fn (operand c 8 8) (operand c 0x10 1) s
  | 2 => execRunCtx fn (operand c 8 1) s
  | 3 => execResetCtx fn (operand c 8 1) s
  | 4 => execDestroyCtx fn (operand c 8 1) s
  | 5 => execWsreg fn (operand c 8 1) (operand c 9 1) (operand c 0x0A 2) s
  | 6 => execErrring fn (operand c 8 8) (operand c 0x10 4) s
  | 7 => debugCode fn c s
  | 26 => execAttest fn ((c.drop 8).take 32) (operand c 0x28 8) s
  | 27 => execIdentity fn (operand c 8 8) (operand c 0x10 4) s
  | code => pfCode fn code c s

/-- The 64 bytes of MBXCMD. -/
def mbxBytes (f : Fn) : List Byte := (List.range 64).map (fun i => Map.get f.mbx i)

/-- REGISTER_WRITE (20 R305): any write of MBXGO submits the command that MBXCMD holds. -/
def execRegisterWrite (fn off : Nat) (value : Word) (s : State) : Host.Outcome State Fault Refusal :=
  match fnOf s fn with
  | none => .next s
  | some f =>
    if off = 0x10 then submit fn (mbxBytes f) s
    else eventAt s (if ownEvent off then none else some (if off % 4 = 0 then s.updFn fn (registerWrite off value) else s))

/-- The PORTSTAT word of a port (20 R318). -/
def Port.word (x : Port) : Word :=
  BitVec.ofNat 32 (x.up.toNat * 2 ^ 31 + x.failed.toNat * 2 ^ 30 + x.lanes % 16 * 2 ^ 24 + min 255 x.retrains * 2 ^ 16 + x.node % 2 ^ 12)

/-- A word of a ring's registers: base, entries, and three indices or selectors. -/
def ringWord (r : Ring) (words : List Nat) (o : Nat) : Nat := ([r.base % 2 ^ 32, r.base / 2 ^ 32, r.entries] ++ words).getD (o / 4) 0

/-- What a read of a function's register page returns (20 R305): an unlisted offset reads zero, and so do the ports for a VF. -/
def registerRead (s : State) (fn off : Nat) : Word :=
  match fnOf s fn with
  | none => 0
  | some f =>
    BitVec.ofNat 32 (
      if off = 0 then fn % 64 + f.home * 2 ^ 8 + (f.secure || fn == 0).toNat * 2 ^ 9
      else if off = 0x14 then (f.busy || !(s.p.boot.phase.serves || s.p.boot.phase == .recovery)).toNat * 2 ^ 31 + f.status % 256
      else if 0x40 ≤ off ∧ off < 0x80 then fieldAt (mbxBytes f) (off - 0x40) 4
      else if 0x100 ≤ off ∧ off < 0x180 then
        let r := (Map.find? f.queues ((off - 0x100) / 32)).getD Ring.empty
        ringWord r [r.sel, r.prod, r.cons] (off % 32)
      else if off = 0x204 then f.tsyncDone
      else if off = 0x224 then f.cval % 2 ^ 32
      else if off = 0x228 then f.cval / 2 ^ 32
      else if 0x300 ≤ off ∧ off < 0x314 then ringWord f.intake [f.intake.prod, f.intake.cons] (off - 0x300)
      else if 0x320 ≤ off ∧ off < 0x334 then ringWord f.intakeStatus [f.intakeStatus.prod, f.intakeStatus.cons] (off - 0x320)
      else if 0x400 ≤ off ∧ off < 0x480 ∧ fn = 0 then ((Map.find? s.p.ports ((off - 0x400) / 4)).map (fun x => x.word.toNat)).getD 0
      else 0)

end Sys2Proof.Machine
end

