-- ==== Sys2Proof/Machine/Dispatch.lean ====
section
/-!
DEFINITION. The dispatch: one arm for each constructor of Instr, each arm one direct call of its meaning.
-/

namespace Sys2Proof.Machine

/-- The meaning of an instruction or an event. -/
def exec (i : Instr) (s : State) : Host.Outcome State Fault Refusal :=
  match i with
  | .iadd x => Sys2Proof.Machine.execIadd x s
  | .isub x => Sys2Proof.Machine.execIsub x s
  | .iadds x => Sys2Proof.Machine.execIadds x s
  | .isubs x => Sys2Proof.Machine.execIsubs x s
  | .imul x => Sys2Proof.Machine.execImul x s
  | .imulh x => Sys2Proof.Machine.execImulh x s
  | .imulhu x => Sys2Proof.Machine.execImulhu x s
  | .iabsd x => Sys2Proof.Machine.execIabsd x s
  | .imin x => Sys2Proof.Machine.execImin x s
  | .imax x => Sys2Proof.Machine.execImax x s
  | .umin x => Sys2Proof.Machine.execUmin x s
  | .umax x => Sys2Proof.Machine.execUmax x s
  | .andB x => Sys2Proof.Machine.execAndB x s
  | .orB x => Sys2Proof.Machine.execOrB x s
  | .xorB x => Sys2Proof.Machine.execXorB x s
  | .andn x => Sys2Proof.Machine.execAndn x s
  | .shl x => Sys2Proof.Machine.execShl x s
  | .shr x => Sys2Proof.Machine.execShr x s
  | .sar x => Sys2Proof.Machine.execSar x s
  | .rol x => Sys2Proof.Machine.execRol x s
  | .clz x => Sys2Proof.Machine.execClz x s
  | .popc x => Sys2Proof.Machine.execPopc x s
  | .brev x => Sys2Proof.Machine.execBrev x s
  | .iabs x => Sys2Proof.Machine.execIabs x s
  | .icmp x => Sys2Proof.Machine.execIcmp x s
  | .sel x => Sys2Proof.Machine.execSel x s
  | .mov x => Sys2Proof.Machine.execMov x s
  | .p2v x => Sys2Proof.Machine.execP2v x s
  | .v2p x => Sys2Proof.Machine.execV2p x s
  | .bfx x => Sys2Proof.Machine.execBfx x s
  | .bfxu x => Sys2Proof.Machine.execBfxu x s
  | .bfi x => Sys2Proof.Machine.execBfi x s
  | .imla x => Sys2Proof.Machine.execImla x s
  | .iaddmin x => Sys2Proof.Machine.execIaddmin x s
  | .isum3 x => Sys2Proof.Machine.execIsum3 x s
  | .iaddi x => Sys2Proof.Machine.execIaddi x s
  | .andi x => Sys2Proof.Machine.execAndi x s
  | .ori x => Sys2Proof.Machine.execOri x s
  | .xori x => Sys2Proof.Machine.execXori x s
  | .shli x => Sys2Proof.Machine.execShli x s
  | .shri x => Sys2Proof.Machine.execShri x s
  | .sari x => Sys2Proof.Machine.execSari x s
  | .roli x => Sys2Proof.Machine.execRoli x s
  | .movi x => Sys2Proof.Machine.execMovi x s
  | .movhi x => Sys2Proof.Machine.execMovhi x s
  | .icmpi x => Sys2Proof.Machine.execIcmpi x s
  | .pand x => Sys2Proof.Machine.execPand x s
  | .por x => Sys2Proof.Machine.execPor x s
  | .pxor x => Sys2Proof.Machine.execPxor x s
  | .pnot x => Sys2Proof.Machine.execPnot x s
  | .xlnBack x => Sys2Proof.Machine.execXlnBack x s
  | .xlnFwd x => Sys2Proof.Machine.execXlnFwd x s
  | .xlnFlip x => Sys2Proof.Machine.execXlnFlip x s
  | .xlnFrom x => Sys2Proof.Machine.execXlnFrom x s
  | .pgatEvery x => Sys2Proof.Machine.execPgatEvery x s
  | .pgatSome x => Sys2Proof.Machine.execPgatSome x s
  | .pgatMask x => Sys2Proof.Machine.execPgatMask x s
  | .pgatLive x => Sys2Proof.Machine.execPgatLive x s
  | .redxAdd x => Sys2Proof.Machine.execRedxAdd x s
  | .redxSmin x => Sys2Proof.Machine.execRedxSmin x s
  | .redxSmax x => Sys2Proof.Machine.execRedxSmax x s
  | .redxFadd x => Sys2Proof.Machine.execRedxFadd x s
  | .scanAdd x => Sys2Proof.Machine.execScanAdd x s
  | .scanXadd x => Sys2Proof.Machine.execScanXadd x s
  | .scanMax x => Sys2Proof.Machine.execScanMax x s
  | .scanMin x => Sys2Proof.Machine.execScanMin x s
  | .fadd x => Sys2Proof.Machine.execFadd x s
  | .fsub x => Sys2Proof.Machine.execFsub x s
  | .fmul x => Sys2Proof.Machine.execFmul x s
  | .fdiv x => Sys2Proof.Machine.execFdiv x s
  | .fmin x => Sys2Proof.Machine.execFmin x s
  | .fmax x => Sys2Proof.Machine.execFmax x s
  | .fminm x => Sys2Proof.Machine.execFminm x s
  | .fmaxm x => Sys2Proof.Machine.execFmaxm x s
  | .fabs x => Sys2Proof.Machine.execFabs x s
  | .fneg x => Sys2Proof.Machine.execFneg x s
  | .fsqrt x => Sys2Proof.Machine.execFsqrt x s
  | .frcp x => Sys2Proof.Machine.execFrcp x s
  | .frsq x => Sys2Proof.Machine.execFrsq x s
  | .fexp2 x => Sys2Proof.Machine.execFexp2 x s
  | .flog2 x => Sys2Proof.Machine.execFlog2 x s
  | .ffloor x => Sys2Proof.Machine.execFfloor x s
  | .fceil x => Sys2Proof.Machine.execFceil x s
  | .ftrunc x => Sys2Proof.Machine.execFtrunc x s
  | .frint x => Sys2Proof.Machine.execFrint x s
  | .fcmp x => Sys2Proof.Machine.execFcmp x s
  | .ffma x => Sys2Proof.Machine.execFfma x s
  | .ffms x => Sys2Proof.Machine.execFfms x s
  | .i2f x => Sys2Proof.Machine.execI2f x s
  | .u2f x => Sys2Proof.Machine.execU2f x s
  | .f2i x => Sys2Proof.Machine.execF2i x s
  | .f2u x => Sys2Proof.Machine.execF2u x s
  | .f2h x => Sys2Proof.Machine.execF2h x s
  | .f2hh x => Sys2Proof.Machine.execF2hh x s
  | .h2f x => Sys2Proof.Machine.execH2f x s
  | .h2fh x => Sys2Proof.Machine.execH2fh x s
  | .f2bf x => Sys2Proof.Machine.execF2bf x s
  | .f2bfh x => Sys2Proof.Machine.execF2bfh x s
  | .bf2f x => Sys2Proof.Machine.execBf2f x s
  | .bf2fh x => Sys2Proof.Machine.execBf2fh x s
  | .f2e4 x => Sys2Proof.Machine.execF2e4 x s
  | .e42f x => Sys2Proof.Machine.execE42f x s
  | .f2e5 x => Sys2Proof.Machine.execF2e5 x s
  | .e52f x => Sys2Proof.Machine.execE52f x s
  | .f2lg x => Sys2Proof.Machine.execF2lg x s
  | .lg2f x => Sys2Proof.Machine.execLg2f x s
  | .f2i8 x => Sys2Proof.Machine.execF2i8 x s
  | .i82f x => Sys2Proof.Machine.execI82f x s
  | .hadd2 x => Sys2Proof.Machine.execHadd2 x s
  | .hmul2 x => Sys2Proof.Machine.execHmul2 x s
  | .badd2 x => Sys2Proof.Machine.execBadd2 x s
  | .bmul2 x => Sys2Proof.Machine.execBmul2 x s
  | .hfma2 x => Sys2Proof.Machine.execHfma2 x s
  | .bfma2 x => Sys2Proof.Machine.execBfma2 x s
  | .ld x => Sys2Proof.Machine.execLd x s
  | .st x => Sys2Proof.Machine.execSt x s
  | .ldp x => Sys2Proof.Machine.execLdp x s
  | .ldr x => Sys2Proof.Machine.execLdr x s
  | .atomAdd x => Sys2Proof.Machine.execAtomAdd x s
  | .atomSub x => Sys2Proof.Machine.execAtomSub x s
  | .atomSmin x => Sys2Proof.Machine.execAtomSmin x s
  | .atomSmax x => Sys2Proof.Machine.execAtomSmax x s
  | .atomUmin x => Sys2Proof.Machine.execAtomUmin x s
  | .atomUmax x => Sys2Proof.Machine.execAtomUmax x s
  | .atomAnd x => Sys2Proof.Machine.execAtomAnd x s
  | .atomOr x => Sys2Proof.Machine.execAtomOr x s
  | .atomXor x => Sys2Proof.Machine.execAtomXor x s
  | .atomExch x => Sys2Proof.Machine.execAtomExch x s
  | .atomFadd x => Sys2Proof.Machine.execAtomFadd x s
  | .atomInc x => Sys2Proof.Machine.execAtomInc x s
  | .atomAdd64 x => Sys2Proof.Machine.execAtomAdd64 x s
  | .atomExch64 x => Sys2Proof.Machine.execAtomExch64 x s
  | .cas x => Sys2Proof.Machine.execCas x s
  | .snap x => Sys2Proof.Machine.execSnap x s
  | .fenceEng => Sys2Proof.Machine.execFenceEng s
  | .fenceIo => Sys2Proof.Machine.execFenceIo s
  | .copy x => Sys2Proof.Machine.execCopy x s
  | .gath x => Sys2Proof.Machine.execGath x s
  | .scat x => Sys2Proof.Machine.execScat x s
  | .coll x => Sys2Proof.Machine.execColl x s
  | .cwait x => Sys2Proof.Machine.execCwait x s
  | .ftest x => Sys2Proof.Machine.execFtest x s
  | .fcancel x => Sys2Proof.Machine.execFcancel x s
  | .fwait x => Sys2Proof.Machine.execFwait x s
  | .tld x => Sys2Proof.Machine.execTld x s
  | .tst x => Sys2Proof.Machine.execTst x s
  | .tzero x => Sys2Proof.Machine.execTzero x s
  | .tfree x => Sys2Proof.Machine.execTfree x s
  | .tstate x => Sys2Proof.Machine.execTstate x s
  | .tmark x => Sys2Proof.Machine.execTmark x s
  | .arrive x => Sys2Proof.Machine.execArrive x s
  | .await x => Sys2Proof.Machine.execAwait x s
  | .mma x => Sys2Proof.Machine.execMma x s
  | .drain x => Sys2Proof.Machine.execDrain x s
  | .azero x => Sys2Proof.Machine.execAzero x s
  | .asave x => Sys2Proof.Machine.execAsave x s
  | .aload x => Sys2Proof.Machine.execAload x s
  | .astat x => Sys2Proof.Machine.execAstat x s
  | .bra x => Sys2Proof.Machine.execBra x s
  | .call x => Sys2Proof.Machine.execCall x s
  | .brx x => Sys2Proof.Machine.execBrx x s
  | .callx x => Sys2Proof.Machine.execCallx x s
  | .nop x => Sys2Proof.Machine.execNop x s
  | .ret x => Sys2Proof.Machine.execRet x s
  | .exitT x => Sys2Proof.Machine.execExitT x s
  | .join => Sys2Proof.Machine.execJoin s
  | .yield => Sys2Proof.Machine.execYield s
  | .pyield => Sys2Proof.Machine.execPyield s
  | .jpt x => Sys2Proof.Machine.execJpt x s
  | .sjoin x => Sys2Proof.Machine.execSjoin x s
  | .sleave x => Sys2Proof.Machine.execSleave x s
  | .sinfo x => Sys2Proof.Machine.execSinfo x s
  | .bar x => Sys2Proof.Machine.execBar x s
  | .gbar => Sys2Proof.Machine.execGbar s
  | .launch x => Sys2Proof.Machine.execLaunch x s
  | .arm x => Sys2Proof.Machine.execArm x s
  | .disarm x => Sys2Proof.Machine.execDisarm x s
  | .vcreate x => Sys2Proof.Machine.execVcreate x s
  | .vopen x => Sys2Proof.Machine.execVopen x s
  | .vhand x => Sys2Proof.Machine.execVhand x s
  | .vdrop x => Sys2Proof.Machine.execVdrop x s
  | .vquery x => Sys2Proof.Machine.execVquery x s
  | .vdup x => Sys2Proof.Machine.execVdup x s
  | .trap x => Sys2Proof.Machine.execTrap x s
  | .brk x => Sys2Proof.Machine.execBrk x s
  | .srd x => Sys2Proof.Machine.execSrd x s
  | .swr x => Sys2Proof.Machine.execSwr x s
  | .clk x => Sys2Proof.Machine.execClk x s
  | .grow x => Sys2Proof.Machine.execGrow x s
  | .shrink x => Sys2Proof.Machine.execShrink x s
  | .tret x => Sys2Proof.Machine.execTret x s
  | .sample x => Sys2Proof.Machine.execSample x s
  | .engineOpComplete op => Sys2Proof.Machine.execEngineOpComplete op s
  | .collComplete ctx grp seq remote => Sys2Proof.Machine.execCollComplete ctx grp seq remote s
  | .collTimeout ctx grp seq => Sys2Proof.Machine.execCollTimeout ctx grp seq s
  | .matrixCommandComplete op => Sys2Proof.Machine.execMatrixCommandComplete op s
  | .freply fn ctx seq reply => Sys2Proof.Machine.execFreply fn ctx seq reply s
  | .faultQueueRoom ctx => Sys2Proof.Machine.execFaultQueueRoom ctx s
  | .parkedWarpActivation warp victim => Sys2Proof.Machine.execParkedWarpActivation warp victim s
  | .dispatchStarvation warp => Sys2Proof.Machine.execDispatchStarvation warp s
  | .turnInstructionLimit warp => Sys2Proof.Machine.execTurnInstructionLimit warp s
  | .turnStallLimit warp => Sys2Proof.Machine.execTurnStallLimit warp s
  | .leaseExpiry core sector => Sys2Proof.Machine.execLeaseExpiry core sector s
  | .rebase => Sys2Proof.Machine.execRebase s
  | .growGrant core cls => Sys2Proof.Machine.execGrowGrant core cls s
  | .hostLaunchRecord fn q => Sys2Proof.Machine.execHostLaunchRecord fn q s
  | .dependencyReread ctx seq dep => Sys2Proof.Machine.execDependencyReread ctx seq dep s
  | .blockSeat ctx => Sys2Proof.Machine.execBlockSeat ctx s
  | .blockComplete block => Sys2Proof.Machine.execBlockComplete block s
  | .launchComplete ctx seq => Sys2Proof.Machine.execLaunchComplete ctx seq s
  | .affinityPatienceExpiry ctx seq => Sys2Proof.Machine.execAffinityPatienceExpiry ctx seq s
  | .vatMoveComplete vat => Sys2Proof.Machine.execVatMoveComplete vat s
  | .sliceEnd ctx est => Sys2Proof.Machine.execSliceEnd ctx est s
  | .yieldDeadlinePost ctx us => Sys2Proof.Machine.execYieldDeadlinePost ctx us s
  | .yieldDeadlineExpiry ctx est => Sys2Proof.Machine.execYieldDeadlineExpiry ctx est s
  | .preemptDeadline ctx late => Sys2Proof.Machine.execPreemptDeadline ctx late s
  | .nonpreemptibleWaitLimit ctx => Sys2Proof.Machine.execNonpreemptibleWaitLimit ctx s
  | .trapModeHoldLimit ctx => Sys2Proof.Machine.execTrapModeHoldLimit ctx s
  | .costOverrun block clocks => Sys2Proof.Machine.execCostOverrun block clocks s
  | .costWatchdog block clocks => Sys2Proof.Machine.execCostWatchdog block clocks s
  | .fabricMessage ctx tag payload => Sys2Proof.Machine.execFabricMessage ctx tag payload s
  | .remoteAccess src entry acc => Sys2Proof.Machine.execRemoteAccess src entry acc s
  | .remoteStoreFailure port => Sys2Proof.Machine.execRemoteStoreFailure port s
  | .fabricPortState port up lanes node => Sys2Proof.Machine.execFabricPortState port up lanes node s
  | .slotTableInstall link => Sys2Proof.Machine.execSlotTableInstall link s
  | .dramRefreshManagement unit waits => Sys2Proof.Machine.execDramRefreshManagement unit waits s
  | .supervisorDecision core => Sys2Proof.Machine.execSupervisorDecision core s
  | .coreFence core => Sys2Proof.Machine.execCoreFence core s
  | .inFieldTest team failing => Sys2Proof.Machine.execInFieldTest team failing s
  | .testAbandon team => Sys2Proof.Machine.execTestAbandon team s
  | .waitForScan => Sys2Proof.Machine.execWaitForScan s
  | .predictiveAdvisory unit => Sys2Proof.Machine.execPredictiveAdvisory unit s
  | .safePointHold warp => Sys2Proof.Machine.execSafePointHold warp s
  | .shardComplete ctx set idx data => Sys2Proof.Machine.execShardComplete ctx set idx data s
  | .shardCodeError ctx set idx => Sys2Proof.Machine.execShardCodeError ctx set idx s
  | .generationTimeout ctx set => Sys2Proof.Machine.execGenerationTimeout ctx set s
  | .genopen fn => Sys2Proof.Machine.execGenopen fn s
  | .shard fn => Sys2Proof.Machine.execShard fn s
  | .genabort fn => Sys2Proof.Machine.execGenabort fn s
  | .intakeStatusConsumer fn value => Sys2Proof.Machine.execIntakeStatusConsumer fn value s
  | .queueSelectorWrite fn q value => Sys2Proof.Machine.execQueueSelectorWrite fn q value s
  | .tsync fn value => Sys2Proof.Machine.execTsync fn value s
  | .tsyncComplete fn => Sys2Proof.Machine.execTsyncComplete fn s
  | .csel fn value => Sys2Proof.Machine.execCsel fn value s
  | .portstatClear port => Sys2Proof.Machine.execPortstatClear port s
  | .registerWrite fn off value => Sys2Proof.Machine.execRegisterWrite fn off value s
  | .createCtx fn hdr world => Sys2Proof.Machine.execCreateCtx fn hdr world s
  | .runCtx fn ctx => Sys2Proof.Machine.execRunCtx fn ctx s
  | .resetCtx fn ctx => Sys2Proof.Machine.execResetCtx fn ctx s
  | .destroyCtx fn ctx => Sys2Proof.Machine.execDestroyCtx fn ctx s
  | .wsreg fn ctx set handle => Sys2Proof.Machine.execWsreg fn ctx set handle s
  | .quota fn vf contexts secure => Sys2Proof.Machine.execQuota fn vf contexts secure s
  | .timeparam fn ctx tp => Sys2Proof.Machine.execTimeparam fn ctx tp s
  | .tagRegion fn base count world => Sys2Proof.Machine.execTagRegion fn base count world s
  | .slots fn link entries => Sys2Proof.Machine.execSlots fn link entries s
  | .exportEntry fn entry e => Sys2Proof.Machine.execExportEntry fn entry e s
  | .lend fn team ctx => Sys2Proof.Machine.execLend fn team ctx s
  | .lendRevoke fn team => Sys2Proof.Machine.execLendRevoke fn team s
  | .nvmegrant fn ctx ns grant => Sys2Proof.Machine.execNvmegrant fn ctx ns grant s
  | .errring fn addr entries => Sys2Proof.Machine.execErrring fn addr entries s
  | .debugStop fn ctx => Sys2Proof.Machine.execDebugStop fn ctx s
  | .debugReleaseWarp fn ctx w => Sys2Proof.Machine.execDebugReleaseWarp fn ctx w s
  | .debugReleaseAll fn ctx => Sys2Proof.Machine.execDebugReleaseAll fn ctx s
  | .debugSetBreakpoint fn ctx entry code ordinal => Sys2Proof.Machine.execDebugSetBreakpoint fn ctx entry code ordinal s
  | .debugClearBreakpoint fn ctx entry => Sys2Proof.Machine.execDebugClearBreakpoint fn ctx entry s
  | .debugDump fn ctx w => Sys2Proof.Machine.execDebugDump fn ctx w s
  | .fencemap fn => Sys2Proof.Machine.execFencemap fn s
  | .health fn unit => Sys2Proof.Machine.execHealth fn unit s
  | .testTeam fn team => Sys2Proof.Machine.execTestTeam fn team s
  | .attest fn nonce addr => Sys2Proof.Machine.execAttest fn nonce addr s
  | .identity fn addr len => Sys2Proof.Machine.execIdentity fn addr len s
  | .journalRead fn addr => Sys2Proof.Machine.execJournalRead fn addr s
  | .journalClear fn => Sys2Proof.Machine.execJournalClear fn s
  | .imagewrite fn stage slot addr len => Sys2Proof.Machine.execImagewrite fn stage slot addr len s
  | .packageStart reports => Sys2Proof.Machine.execPackageStart reports s
  | .stageTimeout => Sys2Proof.Machine.execStageTimeout s
  | .engineOpStart op => Sys2Proof.Machine.execEngineOpStart op s
  | .powerLimitChange watts => Sys2Proof.Machine.execPowerLimitChange watts s
  | .laneRetrain unit => Sys2Proof.Machine.execLaneRetrain unit s
  | .scrubOrRefreshError unit addr uncorrectable syndrome => Sys2Proof.Machine.execScrubOrRefreshError unit addr uncorrectable syndrome s
  | .linkError unit uncorrectable => Sys2Proof.Machine.execLinkError unit uncorrectable s
  | .powerLoss midWrite => Sys2Proof.Machine.execPowerLoss midWrite s
  | .vfEnable vf on link => Sys2Proof.Machine.execVfEnable vf on link s

end Sys2Proof.Machine
end

