-- ==== Sys2Proof/Machine/Step.lean ====
section
/-!
DEFINITION. One step of the machine: the event or the warp that the agenda names, else the current warp, after which the
turn passes on.
-/

namespace Sys2Proof.Machine

/-- Has the current warp, which has just tried to issue, to wait? -/
def waits (m : Mach) (k : Nat) : Bool := (m.warp k).wait.isSome

/-- A try in vain is remembered; when the machine has changed, every warp may try again. -/
def noted (o : Host.Outcome State Fault Refusal) : Host.Outcome State Fault Refusal :=
  match o with
  | .next t => .next { t with tried := if waits t.m t.cur then t.cur :: t.tried.filter (fun k => k != t.cur) else [] }
  | o => o

/-- The current warp fetches and executes one instruction. -/
def runWarp (s : State) : Host.Outcome State Fault Refusal :=
  match fetch s.m s.cur with
  | .stop m st => noted (.next { s with m := deliver m s.cur st })
  | .debug m => noted (.next { s with m := m })
  | .instr m i => noted (exec i { s with m := m })

/-- The move that comes next: a rebase where one is due (10 R195), else what the agenda names. -/
def move (s : State) : Host.Outcome State Fault Refusal :=
  if s.m.rebaseDue then execRebase s
  else match s.agenda with
  | .event i :: rest => exec i { s with agenda := rest, tried := [] }
  | .warp k :: rest =>
    if canIssue s.m k then runWarp { s with agenda := rest, cur := k } else .next { s with agenda := rest }
  | [] => if canIssue s.m s.cur then runWarp s else .next s

/-- The turn passes on after a move that no agenda named. -/
def turned (free : Bool) (o : Host.Outcome State Fault Refusal) : Host.Outcome State Fault Refusal :=
  match o with
  | .next t => .next (if free then passTurn t else t)
  | o => o

/-- One step: a move, then what the package does by itself, then the turn of the next warp. -/
def step (s : State) : Host.Outcome State Fault Refusal := turned (s.agenda.isEmpty && !s.m.rebaseDue) (settled (move s))

/-- The state in which the next step fetches and runs the instruction of a table word (log 9): a running context with one
block of one warp, in whose code the instruction is the only one of its clause. -/
def State.withFetchWord (s : State) (nbits w : Nat) : State :=
  { s with m := placeCode s.m (tableBytes nbits w), agenda := [], cur := warpKey s.m.nextBlock 0, tried := [] }

end Sys2Proof.Machine
end

