-- ==== Sys2Proof/Machine/Requests.lean ====
section
/-!
DEFINITION. Tables over the instructions that warps issue: the operand form of a computing instruction, and what the shared
checks need to know of each instruction.
-/

namespace Sys2Proof.Machine

/-- The form of a computing instruction (07 R128): scope bit, guard, destination and sources. -/
structure PipeForm where
  sc : BitVec 1
  g : BitVec 3
  d : BitVec 6
  a : Src
  b : Src
  c : Src
  deriving DecidableEq, Repr

/-- The instructions that read up to three sources and write one register of the same lane or of the warp. -/
def pipeForm (i : Instr) : Option PipeForm :=
  match i with
  | .iadd x => some ⟨x.sc, x.g, x.d, (.reg x.a), (.reg x.b), (.imm 0)⟩
  | .isub x => some ⟨x.sc, x.g, x.d, (.reg x.a), (.reg x.b), (.imm 0)⟩
  | .iadds x => some ⟨x.sc, x.g, x.d, (.reg x.a), (.reg x.b), (.imm 0)⟩
  | .isubs x => some ⟨x.sc, x.g, x.d, (.reg x.a), (.reg x.b), (.imm 0)⟩
  | .imul x => some ⟨x.sc, x.g, x.d, (.reg x.a), (.reg x.b), (.imm 0)⟩
  | .imulh x => some ⟨x.sc, x.g, x.d, (.reg x.a), (.reg x.b), (.imm 0)⟩
  | .imulhu x => some ⟨x.sc, x.g, x.d, (.reg x.a), (.reg x.b), (.imm 0)⟩
  | .iabsd x => some ⟨x.sc, x.g, x.d, (.reg x.a), (.reg x.b), (.imm 0)⟩
  | .imin x => some ⟨x.sc, x.g, x.d, (.reg x.a), (.reg x.b), (.imm 0)⟩
  | .imax x => some ⟨x.sc, x.g, x.d, (.reg x.a), (.reg x.b), (.imm 0)⟩
  | .umin x => some ⟨x.sc, x.g, x.d, (.reg x.a), (.reg x.b), (.imm 0)⟩
  | .umax x => some ⟨x.sc, x.g, x.d, (.reg x.a), (.reg x.b), (.imm 0)⟩
  | .andB x => some ⟨x.sc, x.g, x.d, (.reg x.a), (.reg x.b), (.imm 0)⟩
  | .orB x => some ⟨x.sc, x.g, x.d, (.reg x.a), (.reg x.b), (.imm 0)⟩
  | .xorB x => some ⟨x.sc, x.g, x.d, (.reg x.a), (.reg x.b), (.imm 0)⟩
  | .andn x => some ⟨x.sc, x.g, x.d, (.reg x.a), (.reg x.b), (.imm 0)⟩
  | .shl x => some ⟨x.sc, x.g, x.d, (.reg x.a), (.reg x.b), (.imm 0)⟩
  | .shr x => some ⟨x.sc, x.g, x.d, (.reg x.a), (.reg x.b), (.imm 0)⟩
  | .sar x => some ⟨x.sc, x.g, x.d, (.reg x.a), (.reg x.b), (.imm 0)⟩
  | .rol x => some ⟨x.sc, x.g, x.d, (.reg x.a), (.reg x.b), (.imm 0)⟩
  | .clz x => some ⟨x.sc, x.g, x.d, (.reg x.a), (.imm 0), (.imm 0)⟩
  | .popc x => some ⟨x.sc, x.g, x.d, (.reg x.a), (.imm 0), (.imm 0)⟩
  | .brev x => some ⟨x.sc, x.g, x.d, (.reg x.a), (.imm 0), (.imm 0)⟩
  | .iabs x => some ⟨x.sc, x.g, x.d, (.reg x.a), (.imm 0), (.imm 0)⟩
  | .mov x => some ⟨x.sc, x.g, x.d, (.reg x.a), (.imm 0), (.imm 0)⟩
  | .bfx x => some ⟨x.sc, x.g, x.d, (.reg x.a), (.reg x.b), (.imm 0)⟩
  | .bfxu x => some ⟨x.sc, x.g, x.d, (.reg x.a), (.reg x.b), (.imm 0)⟩
  | .bfi x => some ⟨x.sc, x.g, x.d, (.reg x.a), (.reg x.b), (.reg x.d)⟩
  | .imla x => some ⟨x.sc, 0, x.d, (.reg x.a), (.reg x.b), (.reg x.c)⟩
  | .iaddmin x => some ⟨x.sc, 0, x.d, (.reg x.a), (.reg x.b), (.reg x.c)⟩
  | .isum3 x => some ⟨x.sc, 0, x.d, (.reg x.a), (.reg x.b), (.reg x.c)⟩
  | .iaddi x => some ⟨x.sc, 0, x.d, (.reg x.a), (.imm (x.imm.signExtend 32)), (.imm 0)⟩
  | .andi x => some ⟨x.sc, 0, x.d, (.reg x.a), (.imm (x.imm.zeroExtend 32)), (.imm 0)⟩
  | .ori x => some ⟨x.sc, 0, x.d, (.reg x.a), (.imm (x.imm.zeroExtend 32)), (.imm 0)⟩
  | .xori x => some ⟨x.sc, 0, x.d, (.reg x.a), (.imm (x.imm.zeroExtend 32)), (.imm 0)⟩
  | .shli x => some ⟨x.sc, 0, x.d, (.reg x.a), (.imm 0), (.imm 0)⟩
  | .shri x => some ⟨x.sc, 0, x.d, (.reg x.a), (.imm 0), (.imm 0)⟩
  | .sari x => some ⟨x.sc, 0, x.d, (.reg x.a), (.imm 0), (.imm 0)⟩
  | .roli x => some ⟨x.sc, 0, x.d, (.reg x.a), (.imm 0), (.imm 0)⟩
  | .movi x => some ⟨x.sc, 0, x.d, (.imm (x.imm.signExtend 32)), (.imm 0), (.imm 0)⟩
  | .movhi x => some ⟨x.sc, 0, x.d, (.reg x.d), (.imm 0), (.imm 0)⟩
  | .fadd x => some ⟨x.sc, x.g, x.d, (.reg x.a), (.reg x.b), (.imm 0)⟩
  | .fsub x => some ⟨x.sc, x.g, x.d, (.reg x.a), (.reg x.b), (.imm 0)⟩
  | .fmul x => some ⟨x.sc, x.g, x.d, (.reg x.a), (.reg x.b), (.imm 0)⟩
  | .fdiv x => some ⟨x.sc, x.g, x.d, (.reg x.a), (.reg x.b), (.imm 0)⟩
  | .fmin x => some ⟨x.sc, x.g, x.d, (.reg x.a), (.reg x.b), (.imm 0)⟩
  | .fmax x => some ⟨x.sc, x.g, x.d, (.reg x.a), (.reg x.b), (.imm 0)⟩
  | .fminm x => some ⟨x.sc, x.g, x.d, (.reg x.a), (.reg x.b), (.imm 0)⟩
  | .fmaxm x => some ⟨x.sc, x.g, x.d, (.reg x.a), (.reg x.b), (.imm 0)⟩
  | .fabs x => some ⟨x.sc, x.g, x.d, (.reg x.a), (.imm 0), (.imm 0)⟩
  | .fneg x => some ⟨x.sc, x.g, x.d, (.reg x.a), (.imm 0), (.imm 0)⟩
  | .fsqrt x => some ⟨x.sc, x.g, x.d, (.reg x.a), (.imm 0), (.imm 0)⟩
  | .frcp x => some ⟨x.sc, x.g, x.d, (.reg x.a), (.imm 0), (.imm 0)⟩
  | .frsq x => some ⟨x.sc, x.g, x.d, (.reg x.a), (.imm 0), (.imm 0)⟩
  | .fexp2 x => some ⟨x.sc, x.g, x.d, (.reg x.a), (.imm 0), (.imm 0)⟩
  | .flog2 x => some ⟨x.sc, x.g, x.d, (.reg x.a), (.imm 0), (.imm 0)⟩
  | .ffloor x => some ⟨x.sc, x.g, x.d, (.reg x.a), (.imm 0), (.imm 0)⟩
  | .fceil x => some ⟨x.sc, x.g, x.d, (.reg x.a), (.imm 0), (.imm 0)⟩
  | .ftrunc x => some ⟨x.sc, x.g, x.d, (.reg x.a), (.imm 0), (.imm 0)⟩
  | .frint x => some ⟨x.sc, x.g, x.d, (.reg x.a), (.imm 0), (.imm 0)⟩
  | .ffma x => some ⟨x.sc, 0, x.d, (.reg x.a), (.reg x.b), (.reg x.c)⟩
  | .ffms x => some ⟨x.sc, 0, x.d, (.reg x.a), (.reg x.b), (.reg x.c)⟩
  | .i2f x => some ⟨x.sc, x.g, x.d, (.reg x.a), (.imm 0), (.imm 0)⟩
  | .u2f x => some ⟨x.sc, x.g, x.d, (.reg x.a), (.imm 0), (.imm 0)⟩
  | .f2i x => some ⟨x.sc, x.g, x.d, (.reg x.a), (.imm 0), (.imm 0)⟩
  | .f2u x => some ⟨x.sc, x.g, x.d, (.reg x.a), (.imm 0), (.imm 0)⟩
  | .f2h x => some ⟨x.sc, x.g, x.d, (.reg x.a), (.imm 0), (.reg x.d)⟩
  | .f2hh x => some ⟨x.sc, x.g, x.d, (.reg x.a), (.imm 0), (.reg x.d)⟩
  | .h2f x => some ⟨x.sc, x.g, x.d, (.reg x.a), (.imm 0), (.imm 0)⟩
  | .h2fh x => some ⟨x.sc, x.g, x.d, (.reg x.a), (.imm 0), (.imm 0)⟩
  | .f2bf x => some ⟨x.sc, x.g, x.d, (.reg x.a), (.imm 0), (.reg x.d)⟩
  | .f2bfh x => some ⟨x.sc, x.g, x.d, (.reg x.a), (.imm 0), (.reg x.d)⟩
  | .bf2f x => some ⟨x.sc, x.g, x.d, (.reg x.a), (.imm 0), (.imm 0)⟩
  | .bf2fh x => some ⟨x.sc, x.g, x.d, (.reg x.a), (.imm 0), (.imm 0)⟩
  | .f2e4 x => some ⟨x.sc, x.g, x.d, (.reg x.a), (.imm 0), (.reg x.d)⟩
  | .e42f x => some ⟨x.sc, x.g, x.d, (.reg x.a), (.imm 0), (.imm 0)⟩
  | .f2e5 x => some ⟨x.sc, x.g, x.d, (.reg x.a), (.imm 0), (.reg x.d)⟩
  | .e52f x => some ⟨x.sc, x.g, x.d, (.reg x.a), (.imm 0), (.imm 0)⟩
  | .f2lg x => some ⟨x.sc, x.g, x.d, (.reg x.a), (.imm 0), (.reg x.d)⟩
  | .lg2f x => some ⟨x.sc, x.g, x.d, (.reg x.a), (.imm 0), (.imm 0)⟩
  | .f2i8 x => some ⟨x.sc, x.g, x.d, (.reg x.a), (.imm 0), (.reg x.d)⟩
  | .i82f x => some ⟨x.sc, x.g, x.d, (.reg x.a), (.imm 0), (.imm 0)⟩
  | .hadd2 x => some ⟨x.sc, x.g, x.d, (.reg x.a), (.reg x.b), (.imm 0)⟩
  | .hmul2 x => some ⟨x.sc, x.g, x.d, (.reg x.a), (.reg x.b), (.imm 0)⟩
  | .badd2 x => some ⟨x.sc, x.g, x.d, (.reg x.a), (.reg x.b), (.imm 0)⟩
  | .bmul2 x => some ⟨x.sc, x.g, x.d, (.reg x.a), (.reg x.b), (.imm 0)⟩
  | .hfma2 x => some ⟨x.sc, 0, x.d, (.reg x.a), (.reg x.b), (.reg x.c)⟩
  | .bfma2 x => some ⟨x.sc, 0, x.d, (.reg x.a), (.reg x.b), (.reg x.c)⟩
  | _ => none

/-- The form of a compare (07 R144): scope bit, guard, predicate, combination and sources. -/
structure CmpForm where
  sc : BitVec 1
  g : BitVec 3
  pd : BitVec 3
  mode : Nat
  a : Src
  b : Src
  deriving DecidableEq, Repr

/-- The compares, each with its test. -/
def cmpForm (i : Instr) : Option (CmpForm × (Word → Word → Bool)) :=
  match i with
  | .icmp x => some (⟨x.sc, x.g, x.pd, x.f.toNat, (.reg x.a), (.reg x.b)⟩, intCond x.cnd)
  | .icmpi x => some (⟨x.sc, 0, x.pd, 0, (.reg x.a), (.imm (x.imm.signExtend 32))⟩, intCond x.cnd)
  | .fcmp x => some (⟨x.sc, x.g, x.pd, x.f.toNat, (.reg x.a), (.reg x.b)⟩, floatCond x.cnd)
  | _ => none

/-- What the shared checks need to know of an instruction that warps issue; an event has no request. -/
def reqOf (i : Instr) : Option Req :=
  match i with
  | .iadd x => some (computeReq (.iadd x) x.sc x.d.toNat (.reg x.a) (.reg x.b) (.imm 0))
  | .isub x => some (computeReq (.isub x) x.sc x.d.toNat (.reg x.a) (.reg x.b) (.imm 0))
  | .iadds x => some (computeReq (.iadds x) x.sc x.d.toNat (.reg x.a) (.reg x.b) (.imm 0))
  | .isubs x => some (computeReq (.isubs x) x.sc x.d.toNat (.reg x.a) (.reg x.b) (.imm 0))
  | .imul x => some (computeReq (.imul x) x.sc x.d.toNat (.reg x.a) (.reg x.b) (.imm 0))
  | .imulh x => some (computeReq (.imulh x) x.sc x.d.toNat (.reg x.a) (.reg x.b) (.imm 0))
  | .imulhu x => some (computeReq (.imulhu x) x.sc x.d.toNat (.reg x.a) (.reg x.b) (.imm 0))
  | .iabsd x => some (computeReq (.iabsd x) x.sc x.d.toNat (.reg x.a) (.reg x.b) (.imm 0))
  | .imin x => some (computeReq (.imin x) x.sc x.d.toNat (.reg x.a) (.reg x.b) (.imm 0))
  | .imax x => some (computeReq (.imax x) x.sc x.d.toNat (.reg x.a) (.reg x.b) (.imm 0))
  | .umin x => some (computeReq (.umin x) x.sc x.d.toNat (.reg x.a) (.reg x.b) (.imm 0))
  | .umax x => some (computeReq (.umax x) x.sc x.d.toNat (.reg x.a) (.reg x.b) (.imm 0))
  | .andB x => some (computeReq (.andB x) x.sc x.d.toNat (.reg x.a) (.reg x.b) (.imm 0))
  | .orB x => some (computeReq (.orB x) x.sc x.d.toNat (.reg x.a) (.reg x.b) (.imm 0))
  | .xorB x => some (computeReq (.xorB x) x.sc x.d.toNat (.reg x.a) (.reg x.b) (.imm 0))
  | .andn x => some (computeReq (.andn x) x.sc x.d.toNat (.reg x.a) (.reg x.b) (.imm 0))
  | .shl x => some (computeReq (.shl x) x.sc x.d.toNat (.reg x.a) (.reg x.b) (.imm 0))
  | .shr x => some (computeReq (.shr x) x.sc x.d.toNat (.reg x.a) (.reg x.b) (.imm 0))
  | .sar x => some (computeReq (.sar x) x.sc x.d.toNat (.reg x.a) (.reg x.b) (.imm 0))
  | .rol x => some (computeReq (.rol x) x.sc x.d.toNat (.reg x.a) (.reg x.b) (.imm 0))
  | .clz x => some (computeReq (.clz x) x.sc x.d.toNat (.reg x.a) (.imm 0) (.imm 0))
  | .popc x => some (computeReq (.popc x) x.sc x.d.toNat (.reg x.a) (.imm 0) (.imm 0))
  | .brev x => some (computeReq (.brev x) x.sc x.d.toNat (.reg x.a) (.imm 0) (.imm 0))
  | .iabs x => some (computeReq (.iabs x) x.sc x.d.toNat (.reg x.a) (.imm 0) (.imm 0))
  | .icmp x => some (compareReq (.icmp x) x.sc (.reg x.a) (.reg x.b))
  | .sel x => some (selReq x)
  | .mov x => some (computeReq (.mov x) x.sc x.d.toNat (.reg x.a) (.imm 0) (.imm 0))
  | .p2v x => some { instr := .p2v x, sc := 0, vecs := [x.d.toNat], vdsts := [x.d.toNat] }
  | .v2p x => some { instr := .v2p x, sc := 0, vecs := (Src.reg x.a).vecs, srcs := (Src.reg x.a).scalars true }
  | .bfx x => some (computeReq (.bfx x) x.sc x.d.toNat (.reg x.a) (.reg x.b) (.imm 0))
  | .bfxu x => some (computeReq (.bfxu x) x.sc x.d.toNat (.reg x.a) (.reg x.b) (.imm 0))
  | .bfi x => some (computeReq (.bfi x) x.sc x.d.toNat (.reg x.a) (.reg x.b) (.reg x.d))
  | .imla x => some (computeReq (.imla x) x.sc x.d.toNat (.reg x.a) (.reg x.b) (.reg x.c))
  | .iaddmin x => some (computeReq (.iaddmin x) x.sc x.d.toNat (.reg x.a) (.reg x.b) (.reg x.c))
  | .isum3 x => some (computeReq (.isum3 x) x.sc x.d.toNat (.reg x.a) (.reg x.b) (.reg x.c))
  | .iaddi x => some (computeReq (.iaddi x) x.sc x.d.toNat (.reg x.a) (.imm (x.imm.signExtend 32)) (.imm 0))
  | .andi x => some (computeReq (.andi x) x.sc x.d.toNat (.reg x.a) (.imm (x.imm.zeroExtend 32)) (.imm 0))
  | .ori x => some (computeReq (.ori x) x.sc x.d.toNat (.reg x.a) (.imm (x.imm.zeroExtend 32)) (.imm 0))
  | .xori x => some (computeReq (.xori x) x.sc x.d.toNat (.reg x.a) (.imm (x.imm.zeroExtend 32)) (.imm 0))
  | .shli x => some (computeReq (.shli x) x.sc x.d.toNat (.reg x.a) (.imm 0) (.imm 0))
  | .shri x => some (computeReq (.shri x) x.sc x.d.toNat (.reg x.a) (.imm 0) (.imm 0))
  | .sari x => some (computeReq (.sari x) x.sc x.d.toNat (.reg x.a) (.imm 0) (.imm 0))
  | .roli x => some (computeReq (.roli x) x.sc x.d.toNat (.reg x.a) (.imm 0) (.imm 0))
  | .movi x => some (computeReq (.movi x) x.sc x.d.toNat (.imm (x.imm.signExtend 32)) (.imm 0) (.imm 0))
  | .movhi x => some (computeReq (.movhi x) x.sc x.d.toNat (.reg x.d) (.imm 0) (.imm 0))
  | .icmpi x => some (compareReq (.icmpi x) x.sc (.reg x.a) (.imm (x.imm.signExtend 32)))
  | .pand x => some { instr := .pand x, sc := 0 }
  | .por x => some { instr := .por x, sc := 0 }
  | .pxor x => some { instr := .pxor x, sc := 0 }
  | .pnot x => some { instr := .pnot x, sc := 0 }
  | .xlnBack x => some (xlnReq (.xlnBack x) x)
  | .xlnFwd x => some (xlnReq (.xlnFwd x) x)
  | .xlnFlip x => some (xlnReq (.xlnFlip x) x)
  | .xlnFrom x => some (xlnReq (.xlnFrom x) x)
  | .pgatEvery x => some { instr := .pgatEvery x, sc := 1, dsts := [x.d.toNat] }
  | .pgatSome x => some { instr := .pgatSome x, sc := 1, dsts := [x.d.toNat] }
  | .pgatMask x => some { instr := .pgatMask x, sc := 1, dsts := [x.d.toNat] }
  | .pgatLive x => some { instr := .pgatLive x, sc := 1, dsts := [x.d.toNat] }
  | .redxAdd x => some (redxReq (.redxAdd x) x)
  | .redxSmin x => some (redxReq (.redxSmin x) x)
  | .redxSmax x => some (redxReq (.redxSmax x) x)
  | .redxFadd x => some (redxReq (.redxFadd x) x)
  | .scanAdd x => some (scanReq (.scanAdd x) x)
  | .scanXadd x => some (scanReq (.scanXadd x) x)
  | .scanMax x => some (scanReq (.scanMax x) x)
  | .scanMin x => some (scanReq (.scanMin x) x)
  | .fadd x => some (computeReq (.fadd x) x.sc x.d.toNat (.reg x.a) (.reg x.b) (.imm 0))
  | .fsub x => some (computeReq (.fsub x) x.sc x.d.toNat (.reg x.a) (.reg x.b) (.imm 0))
  | .fmul x => some (computeReq (.fmul x) x.sc x.d.toNat (.reg x.a) (.reg x.b) (.imm 0))
  | .fdiv x => some (computeReq (.fdiv x) x.sc x.d.toNat (.reg x.a) (.reg x.b) (.imm 0))
  | .fmin x => some (computeReq (.fmin x) x.sc x.d.toNat (.reg x.a) (.reg x.b) (.imm 0))
  | .fmax x => some (computeReq (.fmax x) x.sc x.d.toNat (.reg x.a) (.reg x.b) (.imm 0))
  | .fminm x => some (computeReq (.fminm x) x.sc x.d.toNat (.reg x.a) (.reg x.b) (.imm 0))
  | .fmaxm x => some (computeReq (.fmaxm x) x.sc x.d.toNat (.reg x.a) (.reg x.b) (.imm 0))
  | .fabs x => some (computeReq (.fabs x) x.sc x.d.toNat (.reg x.a) (.imm 0) (.imm 0))
  | .fneg x => some (computeReq (.fneg x) x.sc x.d.toNat (.reg x.a) (.imm 0) (.imm 0))
  | .fsqrt x => some (computeReq (.fsqrt x) x.sc x.d.toNat (.reg x.a) (.imm 0) (.imm 0))
  | .frcp x => some (computeReq (.frcp x) x.sc x.d.toNat (.reg x.a) (.imm 0) (.imm 0))
  | .frsq x => some (computeReq (.frsq x) x.sc x.d.toNat (.reg x.a) (.imm 0) (.imm 0))
  | .fexp2 x => some (computeReq (.fexp2 x) x.sc x.d.toNat (.reg x.a) (.imm 0) (.imm 0))
  | .flog2 x => some (computeReq (.flog2 x) x.sc x.d.toNat (.reg x.a) (.imm 0) (.imm 0))
  | .ffloor x => some (computeReq (.ffloor x) x.sc x.d.toNat (.reg x.a) (.imm 0) (.imm 0))
  | .fceil x => some (computeReq (.fceil x) x.sc x.d.toNat (.reg x.a) (.imm 0) (.imm 0))
  | .ftrunc x => some (computeReq (.ftrunc x) x.sc x.d.toNat (.reg x.a) (.imm 0) (.imm 0))
  | .frint x => some (computeReq (.frint x) x.sc x.d.toNat (.reg x.a) (.imm 0) (.imm 0))
  | .fcmp x => some (compareReq (.fcmp x) x.sc (.reg x.a) (.reg x.b))
  | .ffma x => some (computeReq (.ffma x) x.sc x.d.toNat (.reg x.a) (.reg x.b) (.reg x.c))
  | .ffms x => some (computeReq (.ffms x) x.sc x.d.toNat (.reg x.a) (.reg x.b) (.reg x.c))
  | .i2f x => some (computeReq (.i2f x) x.sc x.d.toNat (.reg x.a) (.imm 0) (.imm 0))
  | .u2f x => some (computeReq (.u2f x) x.sc x.d.toNat (.reg x.a) (.imm 0) (.imm 0))
  | .f2i x => some (computeReq (.f2i x) x.sc x.d.toNat (.reg x.a) (.imm 0) (.imm 0))
  | .f2u x => some (computeReq (.f2u x) x.sc x.d.toNat (.reg x.a) (.imm 0) (.imm 0))
  | .f2h x => some (computeReq (.f2h x) x.sc x.d.toNat (.reg x.a) (.imm 0) (.reg x.d))
  | .f2hh x => some (computeReq (.f2hh x) x.sc x.d.toNat (.reg x.a) (.imm 0) (.reg x.d))
  | .h2f x => some (computeReq (.h2f x) x.sc x.d.toNat (.reg x.a) (.imm 0) (.imm 0))
  | .h2fh x => some (computeReq (.h2fh x) x.sc x.d.toNat (.reg x.a) (.imm 0) (.imm 0))
  | .f2bf x => some (computeReq (.f2bf x) x.sc x.d.toNat (.reg x.a) (.imm 0) (.reg x.d))
  | .f2bfh x => some (computeReq (.f2bfh x) x.sc x.d.toNat (.reg x.a) (.imm 0) (.reg x.d))
  | .bf2f x => some (computeReq (.bf2f x) x.sc x.d.toNat (.reg x.a) (.imm 0) (.imm 0))
  | .bf2fh x => some (computeReq (.bf2fh x) x.sc x.d.toNat (.reg x.a) (.imm 0) (.imm 0))
  | .f2e4 x => some (computeReq (.f2e4 x) x.sc x.d.toNat (.reg x.a) (.imm 0) (.reg x.d))
  | .e42f x => some (computeReq (.e42f x) x.sc x.d.toNat (.reg x.a) (.imm 0) (.imm 0))
  | .f2e5 x => some (computeReq (.f2e5 x) x.sc x.d.toNat (.reg x.a) (.imm 0) (.reg x.d))
  | .e52f x => some (computeReq (.e52f x) x.sc x.d.toNat (.reg x.a) (.imm 0) (.imm 0))
  | .f2lg x => some (computeReq (.f2lg x) x.sc x.d.toNat (.reg x.a) (.imm 0) (.reg x.d))
  | .lg2f x => some (computeReq (.lg2f x) x.sc x.d.toNat (.reg x.a) (.imm 0) (.imm 0))
  | .f2i8 x => some (computeReq (.f2i8 x) x.sc x.d.toNat (.reg x.a) (.imm 0) (.reg x.d))
  | .i82f x => some (computeReq (.i82f x) x.sc x.d.toNat (.reg x.a) (.imm 0) (.imm 0))
  | .hadd2 x => some (computeReq (.hadd2 x) x.sc x.d.toNat (.reg x.a) (.reg x.b) (.imm 0))
  | .hmul2 x => some (computeReq (.hmul2 x) x.sc x.d.toNat (.reg x.a) (.reg x.b) (.imm 0))
  | .badd2 x => some (computeReq (.badd2 x) x.sc x.d.toNat (.reg x.a) (.reg x.b) (.imm 0))
  | .bmul2 x => some (computeReq (.bmul2 x) x.sc x.d.toNat (.reg x.a) (.reg x.b) (.imm 0))
  | .hfma2 x => some (computeReq (.hfma2 x) x.sc x.d.toNat (.reg x.a) (.reg x.b) (.reg x.c))
  | .bfma2 x => some (computeReq (.bfma2 x) x.sc x.d.toNat (.reg x.a) (.reg x.b) (.reg x.c))
  | .ld x => some (loadReq (.ld x) x)
  | .st x => some (stReq x)
  | .ldp x => some (ldpReq x)
  | .ldr x => some (loadReq (.ldr x) x)
  | .atomAdd x => some (atomReq (.atomAdd x) x 0)
  | .atomSub x => some (atomReq (.atomSub x) x 1)
  | .atomSmin x => some (atomReq (.atomSmin x) x 2)
  | .atomSmax x => some (atomReq (.atomSmax x) x 3)
  | .atomUmin x => some (atomReq (.atomUmin x) x 4)
  | .atomUmax x => some (atomReq (.atomUmax x) x 5)
  | .atomAnd x => some (atomReq (.atomAnd x) x 6)
  | .atomOr x => some (atomReq (.atomOr x) x 7)
  | .atomXor x => some (atomReq (.atomXor x) x 8)
  | .atomExch x => some (atomReq (.atomExch x) x 9)
  | .atomFadd x => some (atomReq (.atomFadd x) x 10)
  | .atomInc x => some (atomReq (.atomInc x) x 11)
  | .atomAdd64 x => some (atomReq (.atomAdd64 x) x 12)
  | .atomExch64 x => some (atomReq (.atomExch64 x) x 13)
  | .cas x => some (casReq x)
  | .snap x => some (snapReq x)
  | .fenceEng => some fenceEngReq
  | .fenceIo => some fenceIoReq
  | .copy x => some (copyReq x)
  | .gath x => some (gatherScatterReq (.gath x) x)
  | .scat x => some (gatherScatterReq (.scat x) x)
  | .coll x => some (collReq x)
  | .cwait x => some (cwaitReq x)
  | .ftest x => some (ftestReq x)
  | .fcancel x => some (fcancelReq x)
  | .fwait x => some (fwaitReq x)
  | .tld x => some (tldReq x)
  | .tst x => some (tstReq x)
  | .tzero x => some (tzeroReq x)
  | .tfree x => some (tfreeReq x)
  | .tstate x => some (tstateReq x)
  | .tmark x => some (tmarkReq x)
  | .arrive x => some (arriveReq x)
  | .await x => some (awaitReq x)
  | .mma x => some (mmaReq x)
  | .drain x => some (drainReq x)
  | .azero x => some (azeroReq x)
  | .asave x => some (accMoveReq (.asave x) x)
  | .aload x => some (accMoveReq (.aload x) x)
  | .astat x => some (astatReq x)
  | .bra x => some (jumpReq (.bra x) x)
  | .call x => some (jumpReq (.call x) x)
  | .brx x => some (jumpRegReq (.brx x) x)
  | .callx x => some (jumpRegReq (.callx x) x)
  | .nop x => some (nopReq x)
  | .ret x => some (retReq x)
  | .exitT x => some (exitTReq x)
  | .join => some joinReq
  | .yield => some yieldReq
  | .pyield => some pyieldReq
  | .jpt x => some (jptReq x)
  | .sjoin x => some (sjoinReq x)
  | .sleave x => some (sleaveReq x)
  | .sinfo x => some (sinfoReq x)
  | .bar x => some (barReq x)
  | .gbar => some gbarReq
  | .launch x => some (launchReq x)
  | .arm x => some (armReq x)
  | .disarm x => some (disarmReq x)
  | .vcreate x => some (vcreateReq x)
  | .vopen x => some (vopenReq x)
  | .vhand x => some (vhandReq x)
  | .vdrop x => some (vdropReq x)
  | .vquery x => some (vqueryReq x)
  | .vdup x => some (vdupReq x)
  | .trap x => some (trapReq x)
  | .brk x => some (brkReq x)
  | .srd x => some (srdReq x)
  | .swr x => some (swrReq x)
  | .clk x => some (clkReq x)
  | .grow x => some (growReq x)
  | .shrink x => some (shrinkReq x)
  | .tret x => some (tretReq x)
  | .sample x => some (sampleReq x)
  | .engineOpComplete _ => none
  | .collComplete _ _ _ _ => none
  | .collTimeout _ _ _ => none
  | .matrixCommandComplete _ => none
  | .freply _ _ _ _ => none
  | .faultQueueRoom _ => none
  | .parkedWarpActivation _ _ => none
  | .dispatchStarvation _ => none
  | .turnInstructionLimit _ => none
  | .turnStallLimit _ => none
  | .leaseExpiry _ _ => none
  | .rebase => none
  | .growGrant _ _ => none
  | .hostLaunchRecord _ _ => none
  | .dependencyReread _ _ _ => none
  | .blockSeat _ => none
  | .blockComplete _ => none
  | .launchComplete _ _ => none
  | .affinityPatienceExpiry _ _ => none
  | .vatMoveComplete _ => none
  | .sliceEnd _ _ => none
  | .yieldDeadlinePost _ _ => none
  | .yieldDeadlineExpiry _ _ => none
  | .preemptDeadline _ _ => none
  | .nonpreemptibleWaitLimit _ => none
  | .trapModeHoldLimit _ => none
  | .costOverrun _ _ => none
  | .costWatchdog _ _ => none
  | .fabricMessage _ _ _ => none
  | .remoteAccess _ _ _ => none
  | .remoteStoreFailure _ => none
  | .fabricPortState _ _ _ _ => none
  | .slotTableInstall _ => none
  | .dramRefreshManagement _ _ => none
  | .supervisorDecision _ => none
  | .coreFence _ => none
  | .inFieldTest _ _ => none
  | .testAbandon _ => none
  | .waitForScan => none
  | .predictiveAdvisory _ => none
  | .safePointHold _ => none
  | .shardComplete _ _ _ _ => none
  | .shardCodeError _ _ _ => none
  | .generationTimeout _ _ => none
  | .genopen _ => none
  | .shard _ => none
  | .genabort _ => none
  | .intakeStatusConsumer _ _ => none
  | .queueSelectorWrite _ _ _ => none
  | .tsync _ _ => none
  | .tsyncComplete _ => none
  | .csel _ _ => none
  | .portstatClear _ => none
  | .registerWrite _ _ _ => none
  | .createCtx _ _ _ => none
  | .runCtx _ _ => none
  | .resetCtx _ _ => none
  | .destroyCtx _ _ => none
  | .wsreg _ _ _ _ => none
  | .quota _ _ _ _ => none
  | .timeparam _ _ _ => none
  | .tagRegion _ _ _ _ => none
  | .slots _ _ _ => none
  | .exportEntry _ _ _ => none
  | .lend _ _ _ => none
  | .lendRevoke _ _ => none
  | .nvmegrant _ _ _ _ => none
  | .errring _ _ _ => none
  | .debugStop _ _ => none
  | .debugReleaseWarp _ _ _ => none
  | .debugReleaseAll _ _ => none
  | .debugSetBreakpoint _ _ _ _ _ => none
  | .debugClearBreakpoint _ _ _ => none
  | .debugDump _ _ _ => none
  | .fencemap _ => none
  | .health _ _ => none
  | .testTeam _ _ => none
  | .attest _ _ _ => none
  | .identity _ _ _ => none
  | .journalRead _ _ => none
  | .journalClear _ => none
  | .imagewrite _ _ _ _ _ => none
  | .packageStart _ => none
  | .stageTimeout => none
  | .engineOpStart _ => none
  | .powerLimitChange _ => none
  | .laneRetrain _ => none
  | .scrubOrRefreshError _ _ _ _ => none
  | .linkError _ _ => none
  | .powerLoss _ => none
  | .vfEnable _ _ _ => none

/-- An instruction that warps issue, as against an event of the package. -/
def isIssued (i : Instr) : Bool := (reqOf i).isSome

end Sys2Proof.Machine
end

