-- ==== Sys2Proof/Safety.lean ====
section
/-!
DEFINITION. The terms in which claims about a run are stated: when an instruction goes ahead, which part of the state a step
leaves alone, and the shape of invariants of a step.
-/

namespace Sys2Proof.Machine

/-- The current warp. -/
def State.me (s : State) : Warp := s.m.warp s.cur

/-- The registers that an instruction names stand in the register cache (06 R115, R116): the scalar sources in the warp that gives
them, the others in every member. -/
structure Resident (q : Req) (m : Mach) (ms : List Nat) : Prop where
  sources : ∀ f ∈ q.srcs ++ q.also, keyLine ((m.warp (m.lead q.sc (ms.headD 0))).sKey f) ∈ (m.warp (m.lead q.sc (ms.headD 0))).lines
  vectors : ∀ j ∈ ms, ∀ r ∈ q.vecs, r ∈ (m.warp j).lines
  results : ∀ j ∈ ms, ∀ f ∈ q.dsts, keyLine ((m.warp j).sKey f) ∈ (m.warp j).lines

/-- An instruction with the checks of q goes ahead for the current warp of s: there is such a warp, it may issue, the checks
of 03 R67 and the rendezvous of 04 R86 to R91 let it pass, which leaves the machine m and the members ms, its registers stand in
the register cache (06 R116; Obligations.RegisterMisses says what happens where one does not), and checked execution finds no
mismatch (21 R327). -/
structure Goes (q : Req) (s : State) (m : Mach) (ms : List Nat) : Prop where
  may : canIssue s.m s.cur = true
  admitted : admission q s.m s.cur = .go m ms
  resident : Resident q m ms
  inRange : lateFault q m ms = none
  agrees : separator q m s.cur = (m, none)

/-- What every retirement may touch of a warp is blanked: its waits, its signature and its readiness, its futures, its timestamp,
which reading a completed future raises (10 R196), the operand that a reuse hint keeps (06 R120). -/
def Warp.retired (w : Warp) : Warp :=
  { w with futs := [], wait := none, sig := none, urgent := false, passed := 0, justActive := false, prog := 0, kept := none, pts := 0 }

/-- What is left of a warp when its registers, predicates and flags, its paths and what every retirement may touch are
blanked. -/
def Warp.rest (w : Warp) : Warp := { w.retired with v := [], s := [], p := [], fflags := 0, paths := [], recs := [] }

/-- What is left of a context when its counters are blanked (06 R124). -/
def Ctx.rest (c : Ctx) : Ctx := { c with counters := [] }

/-- What is left of the machine when its warps and the contexts' counters are blanked. -/
def Mach.rest (m : Mach) : Mach := { m with warps := [], ctxs := m.ctxs.map (fun e => (e.1, e.2.rest)) }

/-- Every warp but one is the same. -/
def sameOthers (k : Nat) (m m' : Mach) : Prop := ∀ j, j ≠ k → Map.find? m'.warps j = Map.find? m.warps j

/-- Every byte of memory reads the same. -/
def sameMemory (m m' : Mach) : Prop := ∀ a, Mem.read m'.mem a = Mem.read m.mem a

/-- The current path of a warp has gone on by some words (04 R83): it stands among the paths, and it is still the current one
unless its turn is over (05 R110). -/
structure GoesOn (w w' : Warp) (words : Nat) : Prop where
  among : ∃ p ∈ w'.paths, p.pc = w.path.pc + BitVec.ofNat 32 (4 * words)
  current : w.path.turn + 1 < 4096 → w'.path.pc = w.path.pc + BitVec.ofNat 32 (4 * words)

/-- From s to t nothing has changed outside the current warp, the contexts' counters apart, and inside it nothing that
`Warp.rest` keeps; its current path has gone on by some words. -/
structure OnlyWarp (s t : State) (words : Nat) : Prop where
  plat : t.p = s.p
  agenda : t.agenda = s.agenda
  cur : t.cur = s.cur
  machine : t.m.rest = s.m.rest
  others : sameOthers s.cur s.m t.m
  warp : t.me.rest = s.me.rest
  goesOn : GoesOn s.me t.me words

/-- Every lane of every vector register but those of some registers in some lanes is the same. -/
def sameVectors (w w' : Warp) (regs : List Nat) (lanes : Word) : Prop :=
  ∀ r i, i < 32 → ¬ (r ∈ regs ∧ lanes.getLsbD i = true) → w'.getV r i = w.getV r i

/-- Every scalar register but those with some keys is the same; s0 to s63 have the keys 0 to 63, k0 to k15 64 to 79. -/
def sameScalars (w w' : Warp) (keys : List Nat) : Prop := ∀ n, n ∉ keys → Map.get w'.s n = Map.get w.s n

/-- Every predicate but one is the same. -/
def samePredicates (w w' : Warp) (pd : Nat) : Prop := ∀ n, n ≠ pd → w'.getP n = w.getP n

/-- The state in which the current warp has taken the trap of a fault in the machine m (18 R287), or waits to. -/
def State.trapped (s : State) (m : Mach) (f : FaultInfo) : State := { s with m := deliver m s.cur (.trap f) }

/-- A predicate that no step of the machine leaves. -/
def Stays (inv : State → Prop) : Prop := ∀ s s', inv s → step s = .next s' → inv s'

end Sys2Proof.Machine
end

