-- ==== Sys2Proof/Safety/Vector.lean ====
section
/-!
DEFINITION. Terms for statements: the results that the vector pipes, predicates and the crossbar deliver (07, 08).
-/

namespace Sys2Proof.Machine

/-- The result that 07 states for an integer form, on the values it reads (07 R130 to R141, R143). -/
def intResult (i : Instr) : Option (Vals → Word) :=
  match i with
  | .iadd _ => some fun v => BitVec.ofNat 32 (v.a.toNat + v.b.toNat)
  | .isub _ => some fun v => BitVec.ofInt 32 ((v.a.toNat : Int) - v.b.toNat)
  | .iadds _ => some fun v => BitVec.ofInt 32 (sat32 (v.a.toInt + v.b.toInt))
  | .isubs _ => some fun v => BitVec.ofInt 32 (sat32 (v.a.toInt - v.b.toInt))
  | .imul _ => some fun v => BitVec.ofNat 32 (v.a.toNat * v.b.toNat)
  | .imulh _ => some fun v => BitVec.ofInt 32 ((v.a.toInt * v.b.toInt) >>> (32 : Nat))
  | .imulhu _ => some fun v => BitVec.ofNat 32 ((v.a.toNat * v.b.toNat) >>> (32 : Nat))
  | .iabsd _ => some fun v => BitVec.ofNat 32 (v.a.toInt - v.b.toInt).natAbs
  | .imla _ => some fun v => BitVec.ofNat 32 (v.a.toNat * v.b.toNat + v.c.toNat)
  | .iaddmin _ => some fun v => BitVec.ofInt 32 (min (sat32 (v.a.toInt + v.b.toInt)) v.c.toInt)
  | .isum3 _ => some fun v => BitVec.ofNat 32 (v.a.toNat + v.b.toNat + v.c.toNat)
  | .iaddi x => some fun v => BitVec.ofInt 32 ((v.a.toNat : Int) + x.imm.toInt)
  | .imin _ => some fun v => if v.a.slt v.b then v.a else v.b
  | .imax _ => some fun v => if v.b.slt v.a then v.a else v.b
  | .umin _ => some fun v => if v.a.ult v.b then v.a else v.b
  | .umax _ => some fun v => if v.b.ult v.a then v.a else v.b
  | .andB _ => some fun v => BitVec.ofNat 32 (v.a.toNat &&& v.b.toNat)
  | .orB _ => some fun v => BitVec.ofNat 32 (v.a.toNat ||| v.b.toNat)
  | .xorB _ => some fun v => BitVec.ofNat 32 (v.a.toNat ^^^ v.b.toNat)
  | .andn _ => some fun v => BitVec.ofNat 32 (v.a.toNat &&& (2 ^ 32 - 1 - v.b.toNat))
  | .shl _ => some fun v => BitVec.ofNat 32 (v.a.toNat * 2 ^ (v.b.toNat % 32))
  | .shr _ => some fun v => BitVec.ofNat 32 (v.a.toNat / 2 ^ (v.b.toNat % 32))
  | .sar _ => some fun v => BitVec.ofInt 32 (v.a.toInt / 2 ^ (v.b.toNat % 32))
  | .rol _ => some fun v => v.a.rotateLeft (v.b.toNat % 32)
  | .shli x => some fun v => BitVec.ofNat 32 (v.a.toNat * 2 ^ x.imm.toNat)
  | .shri x => some fun v => BitVec.ofNat 32 (v.a.toNat / 2 ^ x.imm.toNat)
  | .sari x => some fun v => BitVec.ofInt 32 (v.a.toInt / 2 ^ x.imm.toNat)
  | .roli x => some fun v => v.a.rotateLeft x.imm.toNat
  | .andi x => some fun v => BitVec.ofNat 32 (v.a.toNat &&& x.imm.toNat)
  | .ori x => some fun v => BitVec.ofNat 32 (v.a.toNat ||| x.imm.toNat)
  | .xori x => some fun v => BitVec.ofNat 32 (v.a.toNat ^^^ x.imm.toNat)
  | .clz _ => some fun v => if v.a = 0 then 32 else BitVec.ofNat 32 (31 - v.a.toNat.log2)
  | .popc _ => some fun v => BitVec.ofNat 32 ((List.range 32).countP v.a.getLsbD)
  | .brev _ => some fun v => v.a.reverse
  | .iabs _ => some fun v => BitVec.ofNat 32 v.a.toInt.natAbs
  | .bfx _ => some fun v =>
    let n := min (v.b.toNat / 2 ^ 8 % 64) (32 - v.b.toNat % 32)
    BitVec.ofInt 32 (Int.bmod (v.a.toNat >>> (v.b.toNat % 32) : Nat) (2 ^ n))
  | .bfxu _ => some fun v =>
    let n := min (v.b.toNat / 2 ^ 8 % 64) (32 - v.b.toNat % 32)
    BitVec.ofNat 32 ((v.a.toNat >>> (v.b.toNat % 32)) % 2 ^ n)
  | .bfi _ => some fun v =>
    let n := min (v.b.toNat / 2 ^ 8 % 64) (32 - v.b.toNat % 32)
    let mask := BitVec.ofNat 32 ((2 ^ n - 1) <<< (v.b.toNat % 32))
    (v.c &&& ~~~ mask) ||| ((v.a <<< (v.b.toNat % 32)) &&& mask)
  | .mov _ => some fun v => v.a
  | .movi x => some fun _ => BitVec.ofInt 32 x.imm.toInt
  | .movhi x => some fun v => BitVec.ofNat 32 (v.a.toNat % 2 ^ 18 + x.imm.toNat * 2 ^ 18)
  | _ => none

/-- The function of a floating-point form or conversion: the exact result rounded once, and the flags (08; 02 R26, R27). -/
def floatResult (i : Instr) : Option (RMode → Vals → Word × Word) :=
  match i with
  | .fadd _ => some (binary fp32.add)
  | .fsub _ => some (binary (fun mode a b => fp32.add mode a b.neg))
  | .fmul _ => some (binary fp32.mul)
  | .fdiv _ => some (binary fp32.div)
  | .fmin _ => some (minMax false false)
  | .fmax _ => some (minMax false true)
  | .fminm _ => some (minMax true false)
  | .fmaxm _ => some (minMax true true)
  | .fabs _ => some (signForm (fun a => a &&& 0x7FFFFFFF))
  | .fneg _ => some (signForm (fun a => a ^^^ 0x80000000))
  | .fsqrt _ => some (unary fSqrt)
  | .frcp _ => some (unary fRcp)
  | .frsq _ => some (unary fRsq)
  | .fexp2 _ => some (unary fExp2)
  | .flog2 _ => some (unary fLog2)
  | .ffloor _ => some (fun _ v => asWords (fIntegral .rdn v.a))
  | .fceil _ => some (fun _ v => asWords (fIntegral .rup v.a))
  | .ftrunc _ => some (fun _ v => asWords (fIntegral .rtz v.a))
  | .frint _ => some (fun mode v => asWords (fIntegral mode v.a))
  | .ffma _ => some (fun mode v => asWords (fp32.fma mode (asFp v.a) (asFp v.b) (asFp v.c)))
  | .ffms _ => some (fun mode v => asWords (fp32.fma mode (asFp v.a) (asFp v.b) (asFp v.c).neg))
  | .i2f _ => some (fun mode v => asWords (fp32.deliver mode (ofInteger v.a.toInt)))
  | .u2f _ => some (fun mode v => asWords (fp32.deliver mode (ofInteger v.a.toNat)))
  | .f2i _ => some (fun mode v =>
      let r := toInteger (-2147483648) 2147483647 mode (asFp v.a)
      (wordOf r.1, r.2.bits))
  | .f2u _ => some (fun mode v =>
      let r := toInteger 0 4294967295 mode (asFp v.a)
      (wordOf r.1, r.2.bits))
  | .f2h _ => some (narrow 0 16 fp16.deliver)
  | .f2hh _ => some (narrow 16 16 fp16.deliver)
  | .h2f _ => some (widening (half fp16 0))
  | .h2fh _ => some (widening (half fp16 1))
  | .f2bf _ => some (narrow 0 16 bf16.deliver)
  | .f2bfh _ => some (narrow 16 16 bf16.deliver)
  | .bf2f _ => some (widening (half bf16 0))
  | .bf2fh _ => some (widening (half bf16 1))
  | .f2e4 x => some (narrow (8 * x.k.toNat) 8 e4m3.deliver)
  | .e42f x => some (widening (fun a => e4m3.decode (byteOf a x.k.toNat)))
  | .f2e5 x => some (narrow (8 * x.k.toNat) 8 e5m2.deliver)
  | .e52f x => some (widening (fun a => e5m2.decode (byteOf a x.k.toNat)))
  | .f2lg x => some (narrow (8 * x.k.toNat) 8 (fun _ => lg6Of))
  | .lg2f x => some (widening (fun a => lg6Value (byteOf a x.k.toNat)))
  | .f2i8 x => some (narrow (8 * x.k.toNat) 8 toInt8)
  | .i82f x => some (widening (fun a => ofInteger (BitVec.ofNat 8 (byteOf a x.k.toNat)).toInt))
  | .hadd2 _ => some (packed fp16 (fun mode a b _ => fp16.add mode a b))
  | .hmul2 _ => some (packed fp16 (fun mode a b _ => fp16.mul mode a b))
  | .badd2 _ => some (packed bf16 (fun mode a b _ => bf16.add mode a b))
  | .bmul2 _ => some (packed bf16 (fun mode a b _ => bf16.mul mode a b))
  | .hfma2 _ => some (packed fp16 fp16.fma)
  | .bfma2 _ => some (packed bf16 bf16.fma)
  | _ => none

/-- The exact value of a word that is not a NaN, in units of the smallest subnormal (02 R24); an infinity lies beyond every
finite value. -/
def weight (a : Word) : Int :=
  match asFp a with
  | .nan => 0
  | .inf s => if s then -2 ^ 300 else 2 ^ 300
  | .fin s m e => (if s then -1 else 1) * (m * 2 ^ (e + 149).toNat : Nat)

/-- Does a word hold a NaN? -/
def IsNan (a : Word) : Prop := asFp a = .nan

/-- The outcomes that 03 R64 states for the conditions of FCMP. -/
def floatTest (cnd : BitVec 3) (a b : Word) : Prop :=
  match cnd.toNat with
  | 0 => ¬ IsNan a ∧ ¬ IsNan b ∧ weight a = weight b
  | 1 => IsNan a ∨ IsNan b ∨ weight a ≠ weight b
  | 2 => ¬ IsNan a ∧ ¬ IsNan b ∧ weight a < weight b
  | 3 => ¬ IsNan a ∧ ¬ IsNan b ∧ weight a ≤ weight b
  | 4 => ¬ IsNan a ∧ ¬ IsNan b ∧ weight b < weight a
  | 5 => ¬ IsNan a ∧ ¬ IsNan b ∧ weight b ≤ weight a
  | 6 => IsNan a ∨ IsNan b
  | _ => ¬ IsNan a ∧ ¬ IsNan b

/-- The guard of a lane form (07 R147). -/
def crossGuard (i : Instr) : Option (BitVec 3) :=
  match i with
  | .xlnBack x => some x.g
  | .xlnFwd x => some x.g
  | .xlnFlip x => some x.g
  | .xlnFrom x => some x.g
  | .pgatEvery x => some x.g
  | .pgatSome x => some x.g
  | .pgatMask x => some x.g
  | .pgatLive x => some x.g
  | .redxAdd x => some x.g
  | .redxSmin x => some x.g
  | .redxSmax x => some x.g
  | .redxFadd x => some x.g
  | .scanAdd x => some x.g
  | .scanXadd x => some x.g
  | .scanMax x => some x.g
  | .scanMin x => some x.g
  | _ => none

/-- The guard of a guarded warp-scope instruction of the vector pipes and the crossbar (03 R61; 07 R147). -/
def warpGuard (i : Instr) : Option (BitVec 3) :=
  match crossGuard i, pipeForm i, cmpForm i with
  | some g, _, _ => some g
  | none, some f, _ => if f.sc = 1 then some f.g else none
  | none, none, some (f, _) => if f.sc = 1 then some f.g else none
  | none, none, none => none

/-- The outcomes that 03 R64 states for the conditions of integer compares. -/
def intTest (cnd : BitVec 3) (a b : Word) : Prop :=
  match cnd.toNat with
  | 0 => a.toNat = b.toNat
  | 1 => a.toNat ≠ b.toNat
  | 2 => a.toInt < b.toInt
  | 3 => a.toInt ≤ b.toInt
  | 4 => b.toInt < a.toInt
  | 5 => b.toInt ≤ a.toInt
  | 6 => a.toNat < b.toNat
  | _ => a.toNat ≤ b.toNat

/-- The outcome of a compare with the values a and b. -/
def cmpTest (i : Instr) (a b : Word) : Prop :=
  match i with
  | .icmp x => intTest x.cnd a b
  | .icmpi x => intTest x.cnd a (BitVec.ofInt 32 x.imm.toInt)
  | .fcmp x => floatTest x.cnd a b
  | _ => False

/-- A combination of a compare's outcome with the old predicate (07 R144): 0 set, 1 AND, 2 OR. -/
def combined (mode : Nat) (old : Bool) (r : Prop) : Prop :=
  match mode with
  | 0 => r
  | 1 => old = true ∧ r
  | _ => old = true ∨ r

/-- The guard, the destination and the value in a lane of a predicate form (07 R142, R146); P2V writes a register. -/
def predResult (i : Instr) : Option (BitVec 3 × BitVec 6 × (Warp → Nat → Bool)) :=
  match i with
  | .v2p x => some (x.g, x.d, fun w n => decide (w.src x.a.toNat n ≠ 0))
  | .pand x => some (x.g, x.d, fun w n => (w.getP x.a.toNat).getLsbD n && (w.getP x.b.toNat).getLsbD n)
  | .por x => some (x.g, x.d, fun w n => (w.getP x.a.toNat).getLsbD n || (w.getP x.b.toNat).getLsbD n)
  | .pxor x => some (x.g, x.d, fun w n => (w.getP x.a.toNat).getLsbD n != (w.getP x.b.toNat).getLsbD n)
  | .pnot x => some (x.g, x.d, fun w n => !(w.getP x.a.toNat).getLsbD n)
  | _ => none

/-- The value an XLN form gives lane i (07 R148), its source lane an integer that may leave the segment: forms 0 BACK, 1 FWD,
2 FLIP, 3 FROM. -/
def xlnValue (form : Nat) (w : Warp) (a b i : Nat) : Word :=
  let c := (w.src b i).toNat % 32
  let n := 32 / 2 ^ min ((w.src b i).toNat / 2 ^ 8 % 8) 5
  let lo := i - i % n
  let j : Int := match form with
    | 0 => (i : Int) - c
    | 1 => i + c
    | 2 => (i ^^^ (c % n) : Nat)
    | _ => lo + (c % n : Nat)
  if lo ≤ j ∧ j ≤ lo + n - 1 then w.src a j.toNat else w.src a i

/-- The form and the operands of an XLN. -/
def xlnForm (i : Instr) : Option (Nat × FDABHG) :=
  match i with
  | .xlnBack x => some (0, x)
  | .xlnFwd x => some (1, x)
  | .xlnFlip x => some (2, x)
  | .xlnFrom x => some (3, x)
  | _ => none

/-- The guard, the destination and the value of a PGAT form (07 R149). -/
def pgatResult (i : Instr) : Option (BitVec 3 × BitVec 6 × (Warp → Word)) :=
  match i with
  | .pgatEvery x => some (x.g, x.d, fun w =>
      if (lanesOf w.live).all (fun n => (w.getP x.a.toNat).getLsbD n) then 1 else 0)
  | .pgatSome x => some (x.g, x.d, fun w =>
      if (lanesOf w.live).any (fun n => (w.getP x.a.toNat).getLsbD n) then 1 else 0)
  | .pgatMask x => some (x.g, x.d, fun w => w.live &&& w.getP x.a.toNat)
  | .pgatLive x => some (x.g, x.d, fun w => w.live)
  | _ => none

/-- The sum of the lanes from a to a + 2^n, in the fixed tree of 02 R46: a pair with one operand passes it on, one with none
passes nothing. With it the flags of its additions. -/
def treeOver (mode : RMode) (x : Nat → Option Word) : Nat → Nat → Option Word × Word
  | 0, a => (x a, 0)
  | n + 1, a =>
    let l := treeOver mode x n a
    let r := treeOver mode x n (a + 2 ^ n)
    match l.1, r.1 with
    | some y, some z => (some (fpAdd mode y z).1, (fpAdd mode y z).2 ||| (l.2 ||| r.2))
    | some y, none => (some y, l.2 ||| r.2)
    | none, z => (z, l.2 ||| r.2)

/-- A scan's operation, its identity and whether it leaves out the lane's own value (07 R151). -/
def scanForm (i : Instr) : Option (FDAHG × (Word → Word → Word) × Word × Bool) :=
  match i with
  | .scanAdd x => some (x, fun a b => BitVec.ofNat 32 (a.toNat + b.toNat), 0, false)
  | .scanXadd x => some (x, fun a b => BitVec.ofNat 32 (a.toNat + b.toNat), 0, true)
  | .scanMax x => some (x, fun a b => BitVec.ofInt 32 (max a.toInt b.toInt), 0x80000000, false)
  | .scanMin x => some (x, fun a b => BitVec.ofInt 32 (min a.toInt b.toInt), 0x7FFFFFFF, false)
  | _ => none

end Sys2Proof.Machine
end

