-- ==== Sys2Proof/Safety/Accesses.lean ====
section
/-!
DEFINITION. Terms for statements: what a memory instruction leaves alone, and the bytes it loads and stores (09, 10).
-/

namespace Sys2Proof.Machine

/-- What an access to memory by one warp leaves of the machine: all but its warps, the contexts' counters, the timestamps and
copies of sectors, the clocks, the operations a sample waits in, and the orders of lanes to come. -/
def Mach.memRest (m : Mach) : Mach :=
  { m.rest with wts := [], rts := [], l1 := [], replicas := [], tick := 0, clk := 0, ns := 0, ops := [], laneOrders := [] }

/-- What an access to memory leaves of the warp beside its registers and paths: all but its armed sample and its demotions. -/
def Warp.memRest (w : Warp) : Warp := { w.rest with sample := none, demot := 0 }

/-- From s to t one warp has accessed memory: the package and every other warp are as they were, and so is what `memRest`
keeps. Memory itself is the same where `kept` says so; the operations are the same unless a sample was armed. -/
structure Accessed (s t : State) : Prop where
  plat : t.p = s.p
  agenda : t.agenda = s.agenda
  cur : t.cur = s.cur
  others : sameOthers s.cur s.m t.m
  warp : t.me.memRest = s.me.memRest
  ops : s.me.sample = none → t.m.ops = s.m.ops

/-- The three loads and what each asks of its handle (09 LD, LDP, LDR). -/
def loadForm (i : Instr) : Option (FM × Use) :=
  match i with
  | .ld x => some (x, .ld)
  | .ldp x => some (x, .ldp)
  | .ldr x => some (x, .ldr)
  | _ => none

/-- The words that n bytes fill registers with for a size code (09 R184): zero-extended, or sign-extended for codes 5, 6. -/
def loadedWord (z : Nat) (bs : List Byte) (j : Nat) : Word :=
  let x := natOfBytes ((bs.drop (4 * j)).take 4)
  match z with
  | 5 => BitVec.ofInt 32 (BitVec.ofNat 8 x).toInt
  | 6 => BitVec.ofInt 32 (BitVec.ofNat 16 x).toInt
  | _ => BitVec.ofNat 32 x

/-- A copy of its sector that may serve a warp's load at a place (10 R192; 09 R178, R179): in the L1 of its core, or a replica. -/
def Mach.mayServe (m : Mach) (k : Nat) (l : Loc) (c : Copy) : Prop :=
  l.cacheable = true ∧ (m.l1Copy (m.blockOf k).core (l.key / 64) = some c ∨ m.replicaAt (m.blockOf k).core (l.key / 64) = some c) ∧
    c.serves m (m.warp k).pts = true

/-- The bytes that a load of n bytes delivers at a place (10 R192, R200): those at the home, or where the load may be served by a
copy those of a copy that serves it; with the held stores of the block over them either way. -/
def Mach.delivers (m : Mach) (k : Nat) (cached : Bool) (l : Loc) (n : Nat) (bs : List Byte) : Prop :=
  bs = m.loadBytes (m.blockOf k).pailFor l.key n ∨
    (cached = true ∧ ∃ c, m.mayServe k l c ∧ bs = copyLane m k l n c.bytes)

/-- What an instruction that stores leaves of the machine: what one that loads leaves, but for memory, the poison marks and
the blocks, whose pails may change. -/
def Mach.storeRest (m : Mach) : Mach := { m.memRest with mem := [], poison := [], blocks := [] }

/-- What a store of bytes to a place at this package's own node sends (20 R317; 09 R177): one message through a tag port that admits
the package, and else nothing. -/
def Mach.ownMessage (m : Mach) (key : Nat) (bs : List Byte) : List SelfMsg :=
  match Map.find? m.exports (key / 2 ^ 67 % 4096) with
  | some x =>
    if x.typ = 2 ∧ m.admits x selfNode then [{ entry := key / 2 ^ 67 % 4096, bytes := bs.zipIdx.map (fun b => (key % 2 ^ 64 + b.2, b.1)) }]
    else []
  | none => []

/-- Does an access of n bytes at a place touch the byte with key a? -/
abbrev Loc.touches (l : Loc) (n a : Nat) : Prop := l.key ≤ a ∧ a < l.key + n

/-- Byte j of the consecutive registers from d that a lane (scope 0) or the warp (scope 1) stores. -/
def storedByte (w : Warp) (sc : BitVec 1) (d lane j : Nat) : Byte :=
  let r := if sc = 0 then w.src (d + j / 4) lane else w.getS (d + j / 4)
  BitVec.ofNat 8 (r.toNat / 2 ^ (8 * (j % 4)))

/-- An ATOM form: its number, its operands, its registers and the new value from the old one and the operand (09 R186). -/
def atomForm (i : Instr) : Option (Nat × FMA × Nat × (Nat → Nat → Nat)) :=
  match i with
  | .atomAdd x => some (0, x, 1, fun old b => (old + b) % 2 ^ 32)
  | .atomSub x => some (1, x, 1, fun old b => (old + 2 ^ 32 - b) % 2 ^ 32)
  | .atomSmin x => some (2, x, 1, fun old b => if (BitVec.ofNat 32 old).toInt ≤ (BitVec.ofNat 32 b).toInt then old else b)
  | .atomSmax x => some (3, x, 1, fun old b => if (BitVec.ofNat 32 old).toInt ≤ (BitVec.ofNat 32 b).toInt then b else old)
  | .atomUmin x => some (4, x, 1, fun old b => min old b)
  | .atomUmax x => some (5, x, 1, fun old b => max old b)
  | .atomAnd x => some (6, x, 1, fun old b => old &&& b)
  | .atomOr x => some (7, x, 1, fun old b => old ||| b)
  | .atomXor x => some (8, x, 1, fun old b => old ^^^ b)
  | .atomExch x => some (9, x, 1, fun _ b => b)
  | .atomFadd x => some (10, x, 1, fun old b => (fpAdd .rne (BitVec.ofNat 32 old) (BitVec.ofNat 32 b)).1.toNat)
  | .atomInc x => some (11, x, 1, fun old b => if b ≤ old then 0 else old + 1)
  | .atomAdd64 x => some (12, x, 2, fun old b => (old + b) % 2 ^ 64)
  | .atomExch64 x => some (13, x, 2, fun _ b => b)
  | _ => none

/-- Bytes that lanes read and write in turn: memory as a function of the key, and the old value each lane found. -/
def inTurn (n : Nat) (new : Nat → Nat → Nat) :
    (Nat → Byte) → List (Nat × Loc) → (Nat → Byte) × List (Nat × Nat)
  | mem, [] => (mem, [])
  | mem, e :: ls =>
    let old := natOfBytes ((List.range n).map (fun i => mem (e.2.key + i)))
    let r := inTurn n new (fun a => if e.2.key ≤ a ∧ a < e.2.key + n
      then BitVec.ofNat 8 (new e.1 old / 2 ^ (8 * (a - e.2.key))) else mem a) ls
    (r.1, (e.1, old) :: r.2)

/-- The value of n consecutive registers from d in a lane (scope 0) or of the warp (scope 1), the first one lowest. -/
def regValue (w : Warp) (sc : BitVec 1) (d lane n : Nat) : Nat :=
  ((List.range n).map (fun j => (if sc = 0 then w.src (d + j) lane else w.getS (d + j)).toNat * 2 ^ (32 * j))).sum

/-- The old values have gone to the registers from d of their lanes, or of the warp, and nothing else has changed. -/
def returned (w w' : Warp) (sc : BitVec 1) (d n : Nat) (olds : List (Nat × Nat)) : Prop :=
  (sc = 0 → (∀ e ∈ olds, ∀ j, j < n → w'.getV (d + j) e.1 = BitVec.ofNat 32 (e.2 / 2 ^ (32 * j))) ∧
    sameVectors w w' (rangeFrom d n) (maskOf (olds.map (·.1))) ∧ w'.s = w.s) ∧
  (sc = 1 → (∀ e ∈ olds, ∀ j, j < n → w'.getS (d + j) = BitVec.ofNat 32 (e.2 / 2 ^ (32 * j))) ∧
    sameScalars w w' (if olds = [] then [] else (rangeFrom d n).map w.sKey) ∧ w'.v = w.v)

end Sys2Proof.Machine
end

