-- ==== Sys2Proof/Safety/Paths.lean ====
section
/-!
DEFINITION. Terms for statements: paths, transfers of control and arrivals at join points (05).
-/

namespace Sys2Proof.Machine

/-- What is left of a warp when also its counts of records and parkings are blanked. -/
def Warp.placeRest (w : Warp) : Warp := { w.rest with nextRec := 0, parks := 0 }

/-- From s to t only the paths and records of the current warp, and what every retirement may touch, have changed. -/
structure Steered (s t : State) : Prop where
  plat : t.p = s.p
  agenda : t.agenda = s.agenda
  cur : t.cur = s.cur
  machine : t.m.rest = s.m.rest
  others : sameOthers s.cur s.m t.m
  warp : t.me.placeRest = s.me.placeRest
  vectors : t.me.v = s.me.v
  scalars : t.me.s = s.me.s
  predicates : t.me.p = s.me.p
  flags : t.me.fflags = s.me.fflags

/-- The lanes for which an instruction of a scope executes: the path's at lane scope, all live ones at warp scope. -/
def lanesAt (w : Warp) (sc : Nat) : Word := if sc = 0 then w.path.mask else w.live

/-- The lanes that a guard selects: all or none at warp scope, where it must be uniform (03 R61). -/
def selected (w : Warp) (sc g : Nat) : Option Word :=
  if sc = 0 then some (active w g) else (uniform w g).map (fun b => if b then w.live else 0)

/-- A transfer: scope, guard, whether it is a call, and the target of a lane (05 BRA, CALL, BRX, CALLX). -/
def transferForm (i : Instr) : Option (Nat × Nat × Bool × (Warp → Nat → Word)) :=
  match i with
  | .bra x => some (x.sc.toNat, x.g.toNat, false, fun w _ => BitVec.ofInt 32 (w.path.pc.toNat + 4 * x.off.toInt))
  | .call x => some (x.sc.toNat, x.g.toNat, true, fun w _ => BitVec.ofInt 32 (w.path.pc.toNat + 4 * x.off.toInt))
  | .brx x => some (x.sc.toNat, x.g.toNat, false, fun w n => if x.sc = 0 then w.src x.a.toNat n else w.getS x.a.toNat)
  | .callx x => some (x.sc.toNat, x.g.toNat, true, fun w n => if x.sc = 0 then w.src x.a.toNat n else w.getS x.a.toNat)
  | _ => none

/-- The path table and the records of a warp are wholly resident, and stay so with n more paths and one more record. -/
def roomFor (w : Warp) (n : Nat) : Prop :=
  (∀ p ∈ w.paths, p.spilled = false) ∧ (∀ e ∈ w.recs, e.2.spilled = false) ∧ w.paths.length + n ≤ 16 ∧ w.recs.length < 8

/-- A path that arrives: JOIN at the join record of its own clause, RET at a call record (05 JOIN, RET). -/
def arrives (i : Instr) (w : Warp) (r : Rec) : Prop :=
  match i with
  | .join => r.call = false ∧ ∃ c, w.path.clause = some c ∧ c.hdr = r.addr
  | .ret _ => r.call = true
  | _ => False

end Sys2Proof.Machine
end

