-- ==== Sys2Proof/Safety/Sets.lean ====
section
/-!
DEFINITION. Terms for statements: how an instruction ends for the warps it was gathered for, and sets (04).
-/

namespace Sys2Proof.Machine

/-- The members ms of a machine m have retired an instruction of some words (04 R83): their waits have ended, and their signatures
outside trap mode; their futures may have been consumed; each has gone on by the words; and but for counters nothing else has
changed. -/
structure Retired (words : Nat) (ms : List Nat) (m m' : Mach) : Prop where
  machine : m' = { m with warps := m'.warps, ctxs := m'.ctxs }
  rest : m'.rest = m.rest
  others : ∀ j, j ∉ ms → Map.find? m'.warps j = Map.find? m.warps j
  members : ∀ j, j ∈ ms → { (m'.warp j).retired with paths := [] } = { (m.warp j).retired with paths := [] }
  waits : ∀ j, j ∈ ms → (m'.warp j).wait = none
  signature : ∀ j, j ∈ ms → (m'.warp j).sig = if (m.warp j).trap.isSome then (m.warp j).sig else none
  goesOn : ∀ j, j ∈ ms → (m.warp j).paths ≠ [] → GoesOn (m.warp j) (m'.warp j) words
  paths : ∀ j, j ∈ ms → ∀ p r, (m.warp j).paths = p :: r → p.turn + 1 < 4096 → ∃ c, (m'.warp j).paths =
    { p with pc := p.pc + BitVec.ofNat 32 (4 * words), clause := c, cnt := p.cnt + 1, turn := p.turn + 1 } :: r

/-- From s to t the members ms have retired an instruction of some words whose effect on the machine is m2. -/
structure Ends (s t : State) (words : Nat) (ms : List Nat) (m2 : Mach) : Prop where
  plat : t.p = s.p
  agenda : t.agenda = s.agenda
  cur : t.cur = s.cur
  retired : Retired words ms m2 t.m

/-- What the checks and the rendezvous of an instruction leave of the machine before its effect (04 R86 to R91): the same
machine but for the paths, records and signature of the current warp; the members are that warp alone below set scope, and
else those of the set or block, every one of which has signed there at the same instruction. -/
structure Gathered (sc : Nat) (s : State) (m : Mach) (ms : List Nat) : Prop where
  machine : m = { s.m with warps := m.warps }
  others : sameOthers s.cur s.m m
  warp : m.warp s.cur = { s.me with paths := (m.warp s.cur).paths, recs := (m.warp s.cur).recs, sig := (m.warp s.cur).sig }
  pc : (m.warp s.cur).path.pc = s.me.path.pc
  alone : sc < 2 → ms = [s.cur] ∧ (m.warp s.cur).sig = s.me.sig
  together : 2 ≤ sc → ms = m.members s.cur sc ∧ (sc = 2 → ((m.blockOf s.cur).set (s.me.set.getD 0)).st = 2) ∧
    ∃ g, g.y = (if sc = 3 then 0 else s.me.set.getD 0 + 1) ∧ ∀ j ∈ ms, (m.warp j).sig = some g

/-- Barriers: NOP at set and block scope, BAR (04 BAR; 05 NOP). -/
def barrierForm (i : Instr) : Bool :=
  match i with
  | .nop x => decide (2 ≤ x.sc.toNat)
  | .bar _ => true
  | _ => false

/-- The status that SJOIN answers (04 SJOIN): in trap mode DENIED; in a set already, or with fewer warps in the block than the
size asked for, INVALID; on a set that is complete or broken BUSY; on one that forms with another size INVALID. -/
def sjoinStatus (w : Warp) (nW : Nat) (st : SetRec) (n : Nat) : Nat :=
  if w.trap.isSome then 8
  else if w.set.isSome ∨ nW < n then 1
  else if st.st = 2 ∨ st.st = 3 then 7
  else if st.st = 1 ∧ st.size ≠ n then 1
  else 0

/-- The set after a warp has joined it: complete with its last member. -/
def joined (w : Warp) (st : SetRec) (n : Nat) : SetRec :=
  { st := if countBits (st.members ||| bit w.idx) = n then 2 else 1, size := n, departed := 0, members := st.members ||| bit w.idx }

end Sys2Proof.Machine
end

