-- ==== Sys2Proof/Safety/Tiles.lean ====
section
/-!
DEFINITION. Terms for statements: the tile table and its marks (11).
-/

namespace Sys2Proof.Machine

/-- What an instruction of the tile table makes of a tile's entry, and the field that holds its reference (11 R220, R221). -/
def tableForm (i : Instr) (v : Word) : Option (BitVec 6 × (Tile → Tile)) :=
  match i with
  | .tzero x => some (x.c, fun t => { t with st := 2 })
  | .tfree x => some (x.c, fun t => { t with st := 0 })
  | .arrive x => some (x.c, fun t => { t with st := 2, phase := !t.phase })
  | .tmark x => some (x.c, fun t => { t with st := v.toNat % 4, phase := v.getLsbD 2 })
  | _ => none

/-- TMARK's operand has a value it may have: state empty or ready, a phase, and zeros. -/
def markOk (i : Instr) (v : Word) : Prop :=
  match i with
  | .tmark _ => v.toNat < 8 ∧ (v.toNat % 4 = 0 ∨ v.toNat % 4 = 2)
  | _ => True

/-- The register from which an instruction of the tile table takes a value. -/
def markField (i : Instr) : Nat :=
  match i with
  | .tmark x => x.b.toNat
  | _ => 0

/-- TZERO clears the tile. -/
def clears (i : Instr) : Bool :=
  match i with
  | .tzero _ => true
  | _ => false

end Sys2Proof.Machine
end

