-- ==== Sys2Proof/Safety/Engines.lean ====
section
/-!
DEFINITION. Terms for statements: an operation issued to an engine (11, 12).
-/

namespace Sys2Proof.Machine

/-- From s to t the members ms have issued an operation of a class to an engine, from the machine m2 (11 R202 to R207, 10 R200):
they have retired the words (as `Retired` says, but for what the operation's future and token change); their counters of the class
have gone up by one and, where a future is asked for, each holds a pending entry for it; the operation stands last in its engine's
queue, not started. -/
structure Issued (s t : State) (q : Req) (cls fu : Nat) (token : Bool) (cmd : Cmd) (ended : Option Nat)
    (ms : List Nat) (m2 : Mach) : Prop where
  plat : t.p = s.p
  agenda : t.agenda = s.agenda
  cur : t.cur = s.cur
  machine : t.m = { m2 with warps := t.m.warps, ctxs := t.m.ctxs, ops := t.m.ops, nextOp := m2.nextOp + 1 }
  rest : { t.m.rest with ops := [], nextOp := 0 } = { m2.rest with ops := [], nextOp := 0 }
  older : ∀ o, o ≠ m2.nextOp → Map.find? t.m.ops o = Map.find? m2.ops o
  entry : ∃ x, Map.find? t.m.ops m2.nextOp = some x ∧ x.cls = cls ∧ x.cmd = cmd ∧ x.ended = ended ∧ x.started = false ∧
    x.held = none ∧ x.scope = q.sc ∧ x.block = (m2.warp (ms.headD 0)).block ∧ x.ctx = (m2.blockOf (ms.headD 0)).ctx ∧
    x.issuers.map (·.1) = ms ∧ x.pts = (m2.warp (ms.headD 0)).pts ∧
    x.pail = (if (m2.blockOf (ms.headD 0)).holding then (m2.blockOf (ms.headD 0)).pail else [])
  others : ∀ j, j ∉ ms → Map.find? t.m.warps j = Map.find? m2.warps j
  members : ∀ j, j ∈ ms → { (t.m.warp j).retired with paths := [], s := [], gens := [], cnt := [] } =
    { (m2.warp j).retired with paths := [], s := [], gens := [], cnt := [] }
  waits : ∀ j, j ∈ ms → (t.m.warp j).wait = none
  signature : ∀ j, j ∈ ms → (t.m.warp j).sig = if (m2.warp j).trap.isSome then (m2.warp j).sig else none
  goesOn : ∀ j, j ∈ ms → (m2.warp j).paths ≠ [] → GoesOn (m2.warp j) (t.m.warp j) q.words
  counted : ∀ j, j ∈ ms → ∀ c, (t.m.warp j).counter c = (m2.warp j).counter c + (if c = cls then 1 else 0)
  future : fu ≠ 0 → ∀ j, j ∈ ms → (∃ e, e < 16 ∧ Map.find? (m2.warp j).futs e = none) → ∃ e, e < 16 ∧
    Map.find? (t.m.warp j).futs e = some { op := m2.nextOp, cls := cls, status := none, reg := some ((m2.warp j).sKey fu), pts := 0 }
  scalars : ∀ j, j ∈ ms → ∀ n, (token = false ∨ fu = 0 ∨ n ≠ (m2.warp j).sKey (fu + 1)) →
    Map.get (t.m.warp j).s n = Map.get (m2.warp j).s n

/-- The tiles of a transfer are claimed: inbound they fill, outbound they drain (11 R210), and a block that holds stores commits
before data leaves (10 R200). -/
def claimed (m : Mach) (ms : List Nat) (out : Bool) (xs : List (Nat × Nat)) : Mach :=
  let k := ms.headD 0
  let m1 := if out then commit m k else m
  let m2 := xs.foldl (fun m x => m.setTileOf ms x (fun t => { t with st := if out then 3 else 1 })) m1
  m2.count (m.blockOf k).ctx 32 1

/-- A transfer's tiles are in the state it needs (11 R210): inbound free to change, outbound ready. -/
def tilesFit (m : Mach) (out : Bool) (xs : List (Nat × Nat)) : Prop :=
  ∀ x ∈ xs, if out then (m.tileOf x).moving = false ∧ (m.tileOf x).st ≠ 0 else (m.tileOf x).locked = false

/-- GATH moves data in and SCAT out (11 R216). -/
def rowForm (i : Instr) : Option (FGATH × Bool) :=
  match i with
  | .gath x => some (x, false)
  | .scat x => some (x, true)
  | _ => none

/-- ASAVE writes the image of a range of tiles and ALOAD reads one (12 R237). -/
def imageForm (i : Instr) : Option (FSABC × Bool) :=
  match i with
  | .asave x => some (x, true)
  | .aload x => some (x, false)
  | _ => none

/-- A range of accumulator tiles lies within the window of every member (12 R238). -/
def inWindow (m : Mach) (ms : List Nat) (base n : Nat) : Prop := ∀ j ∈ ms, base + n - 1 < windowLen m j

end Sys2Proof.Machine
end

