-- ==== Sys2Proof/Safety/System.lean ====
section
/-!
DEFINITION. Terms for statements: arming, special registers and pools (06, 16).
-/

namespace Sys2Proof.Machine

/-- The status of ARM (16 R266): DENIED in trap mode; INVALID for a malformed record, one that is not flagged as armed, or a tag
of 65,536 and more; EXISTS for a tag in use; FULL with 256 records armed. -/
def armStatus (trap bad : Bool) (r : LaunchRec) (arms : List (Nat × List Byte)) (tag : Nat) : Nat :=
  if trap then 8
  else if bad ∨ r.flags / 16 % 2 = 0 ∨ 65536 ≤ tag then 1
  else if (Map.find? arms tag).isSome then 5
  else if 256 ≤ arms.length then 9
  else 0

/-- The status of DISARM (16 R266): DENIED in trap mode, INVALID for a tag of 65,536 and more, ABSENT for one not in use. -/
def disarmStatus (trap : Bool) (arms : List (Nat × List Byte)) (tag : Nat) : Nat :=
  if trap then 8 else if 65536 ≤ tag then 1 else if (Map.find? arms tag).isNone then 6 else 0

/-- The value of a special register (18 R291), where the machine holds it in a field of its own; `none` for the others. -/
def srField (m : Mach) (k n : Nat) : Option Nat :=
  let w := m.warp k
  let b := m.blockOf k
  match n with
  | 0 => some (m.clk % 2 ^ 32)
  | 1 => some (m.clk / 2 ^ 32 % 2 ^ 32)
  | 2 => some (m.ns % 2 ^ 32)
  | 3 => some (m.ns / 2 ^ 32 % 2 ^ 32)
  | 4 => some w.fmode.toNat
  | 5 => some w.fflags.toNat
  | 6 => some b.core
  | 7 => some (b.ctx + (m.ctx b.ctx).fn * 256)
  | 8 => some b.world
  | 10 => some (w.pts % 2 ^ 32)
  | 32 => some w.tcause.toNat
  | 33 => some w.tpc.toNat
  | 34 => some w.taddr.toNat
  | 35 => some w.tinfo.toNat
  | 36 => some w.tmask.toNat
  | 37 => some w.tset.toNat
  | 38 => some w.tclass.toNat
  | _ => none

/-- The units of a class that an instruction's count stands for: vector registers in eights, tiles one by one, accumulator
tiles in fours (06 R113). -/
def poolUnits (cls n : Nat) : Nat := if cls = 0 then 8 * n else if cls = 1 then n else 4 * n

end Sys2Proof.Machine
end

