-- ==== Sys2Proof/Safety/Traps.lean ====
section
/-!
DEFINITION. Terms for statements: the entry of a trap (18).
-/

namespace Sys2Proof.Machine

/-- Warp k has entered trap mode from the machine m with a fault (18 R287, R291): the trap registers are set, k0 to k15 read
zero on a line of the register cache of their own (06 R116), the paths and records are frozen as they stood, and one path runs the
handler with every live lane; all else of the warp, its signature too (04 R88), and of the machine is the same, the context's counter
64 apart. -/
structure Entered (k : Nat) (f : FaultInfo) (tset tcl : Word) (m m' : Mach) : Prop where
  machine : m'.rest = m.rest
  others : sameOthers k m m'
  warp : m'.warp k = { m.warp k with tcause := BitVec.ofNat 32 f.cause.code, tpc := f.tpc, taddr := f.taddr, tinfo := f.tinfo, tmask := f.tmask, tset := tset, tclass := tcl, trap := (m'.warp k).trap, s := (m'.warp k).s, paths := (m'.warp k).paths, recs := [], run := .ready, wait := none, pass := false, lines := (m.warp k).lines.filter (fun l => l != 50) ++ [50], filled := Map.del (m.warp k).filled 50, bad := Map.del (m.warp k).bad 50 }
  frozen : ∃ t, (m'.warp k).trap = some t ∧ t.paths = (m.warp k).paths ∧ t.recs = (m.warp k).recs ∧ t.tpcWritten = false ∧
    t.debug = ((m.warp k).run == .debug) ∧ t.susp = ((m.warp k).run == .suspended) ∧ t.pass = (m.warp k).pass
  handler : ∃ p, (m'.warp k).paths = [p] ∧ p.pc = BitVec.ofNat 32 (m.hdr (m.ctxOf k) 0x38 4) ∧ p.mask = (m.warp k).live ∧
    p.inner = none ∧ p.clause = none ∧ p.st = .runnable
  bank : ∀ n, 64 ≤ n → n < 80 → Map.get (m'.warp k).s n = 0
  scalars : ∀ n, n < 64 → Map.get (m'.warp k).s n = Map.get (m.warp k).s n

/-- A path as TRET finds it: its live lanes. -/
def livePath (live : Word) (p : Machine.Path) : Machine.Path := { p with mask := p.mask &&& live }

end Sys2Proof.Machine
end

