-- ==== Sys2Proof/Safety/Vats.lean ====
section
/-!
DEFINITION. Terms for statements: the answers of the vat forms (14).
-/

namespace Sys2Proof.Machine

/-- A vat form answers: it retires, writing the values into its result registers in every member, after the machine is m2. -/
def VatAnswers (i : Instr) (s : State) (ms : List Nat) (a : Nat) (m2 : Mach) (xs : List Nat) : Prop :=
  ∃ t, exec i s = .next t ∧ Ends s t 1 ms (vatAnswer m2 ms a xs)

/-- A vat form that looked at the directory entry of its name answers: it is a step of the memory order there, one that changes the vat
or not (14 R248). -/
def VatEnds (i : Instr) (s : State) (ms : List Nat) (name a : Nat) (m2 : Mach) (xs : List Nat) (changes : Bool) : Prop :=
  ∃ t, exec i s = .next t ∧ Ends s t 1 ms (vatEnds m2 ms name a xs changes)

/-- The current warp, alone or with its block, faults VAT (14 R257). -/
def VatFaults (i : Instr) (q : Req) (s : State) (m : Mach) (ms : List Nat) : Prop :=
  exec i s = .next { s with m := deliver m s.cur (widen q.sc (vatFault q m (ms.headD 0))) }

/-- What the name of a vat form leads to before the form's own rules (14 R257): trap mode, the name 0, no such vat, a vat of the
other world; mt is the machine after a refusal in trap mode, mo after one of the others, and r what the directory holds. -/
def VatNames (i : Instr) (q : Req) (s : State) (m : Mach) (ms : List Nat) (a bf : Nat) (zs : List Nat) (mt mo : Mach)
    (r : Option (Nat × Vat)) : Prop :=
  let w := m.warp (ms.headD 0)
  let b := m.block w.block
  let name := headPair m q.sc ms bf
  (w.trap.isSome = true → VatAnswers i s ms a mt (8 :: zs)) ∧
  (w.trap = none → name = 0 → VatFaults i q s m ms) ∧
  (w.trap = none → name ≠ 0 → r = none → VatEnds i s ms name a mo (6 :: zs) false) ∧
  (∀ id v, w.trap = none → name ≠ 0 → r = some (id, v) → v.world ≠ b.world → VatEnds i s ms name a mo (8 :: zs) false)

/-- The directory entry of a vat that a block has just created and not yet filled (14 VCREATE). -/
def newVat (m : Mach) (bk name : Nat) (d : Word) (back : Option (Nat × Nat)) (slot : Nat) : Vat :=
  { ctx := (m.block bk).ctx, name := name, acc := descK d, size := descSize d, world := (m.block bk).world, backed := back, st := 0, primary := some (m.block bk).core, replicas := [], opens := [bk], writer := some bk, queue := [], stale := false, slots := [((m.block bk).core, slot)], tiles := [], target := none, saveOff := (saveRoom m (m.block bk).ctx (if descK d = true then 6400 * descSize d else 4096 * descSize d)).getD 0 }

/-- The vat that a VOPEN finds under its name: one that was dropped while the VOPEN waited for it is found no more (14 VDROP). -/
def sought (m : Mach) (k name : Nat) : Option (Nat × Vat) :=
  if ∃ id, (m.warp k).vopen = some id ∧ Map.find? m.vats id = none then none else m.vatNamed (m.blockOf k).ctx name

/-- What a VOPEN of a vat that this core may hold comes to (14 VOPEN). -/
def opening (m : Mach) (k id mode : Nat) : Opened :=
  let bk := (m.warp k).block
  let b := m.block bk
  let v := m.vat id
  if v.onCore b.core = false ∨ (mode ≠ 0 ∧ v.primary ≠ some b.core) then .done (m.count b.ctx 51 1) [2, v.primary.getD 0]
  else if mode ≠ 0 ∧ ∃ y ∈ v.opens, (m.block y).core ∈ v.replicas then .done m [7, 0]
  else if mode ≠ 0 ∧ (∃ y, v.writer = some y ∧ y ≠ bk) then
    if mode = 1 then .done m [7, 0] else .queued (if bk ∈ v.queue then m else m.updVat id (fun v => { v with queue := v.queue ++ [bk] })) id
  else
    let m1 := if mode = 0 then m else (dropReplicas m id).updVat id (fun v => { v with writer := some bk })
    let h := (b.vatHandle id).getD ((freeVatHandle b).getD 0)
    let old := match Map.find? b.vatH h with | some e => e.2 | none => false
    let m2 := m1.updBlock bk (fun b => { b with vatH := Map.ins b.vatH h (id, old || (mode != 0 && !v.acc)) })
    let m3 := m2.updVat id (fun v => { v with opens := if bk ∈ v.opens then v.opens else v.opens ++ [bk], stale := false })
    let m4 := if v.acc = true then m3.updWarp k (fun w => { w with vatMap := some id }) else m3
    .done (m4.count b.ctx 50 1) [if v.stale = true then 4 else 0, 4064 + h]

/-- The machine as a VOPEN that answers leaves it beside its effect: it waits for no vat any more, and where it has waited VATWAIT
counts the time (14 R256). -/
def opened (m : Mach) (ms : List Nat) (m' : Mach) : Mach :=
  let m1 := m'.updWarps ms (fun _ w => { w with vopen := none })
  if waitedForVat (m.warp (ms.headD 0)).wait = true then m1.tickOn.count (m.ctxOf (ms.headD 0)) 55 (Config.timedCounter 55 (m1.tick + 1)) else m1

/-- A VOPEN ends as its outcome says (14 VOPEN, R257): it answers, or it joins the writer queue and waits. -/
def OpensTo (x : FVABC) (s : State) (m : Mach) (ms : List Nat) : Opened → Prop
  | .done m' xs => VatEnds (.vopen x) s ms (headPair m (vopenReq x).sc ms x.b.toNat) x.a.toNat (opened m ms m') xs
      (decide (xs.headD 0 = 0 ∨ xs.headD 0 = 4))
  | .queued m' id => exec (.vopen x) s = .next { s with m := m'.updWarps ms (fun _ w => { w with wait := some .writerQueue, vopen := some id }) }

end Sys2Proof.Machine
end

