-- ==== Sys2Proof/Safety/Events.lean ====
section
/-!
DEFINITION. Terms for statements: what an event does when it is due (11, 14, 16).
-/

namespace Sys2Proof.Machine

/-- In s the move takes place and leaves the machine m; the rest of the state is the same. -/
def Does (i : Instr) (s : State) (m : Mach) : Prop := exec i s = .next { s with m := m }

/-- The event is not due in s: it does not take place. -/
def NotDue (i : Instr) (s : State) : Prop := exec i s = .next s

/-- What the ranks of a collective must agree on (11 R218): kind, reduction, format and count, also of ranks without elements. -/
def collWhats (es : List (Nat × Op)) (zs : List (Nat × (Nat × Nat × Nat × Nat))) (remote : List RankPart) : List (Nat × Nat × Nat × Nat) :=
  es.map (fun e => match e.2.cmd with | .coll kind red fmt _ _ _ _ count _ _ _ => (kind, red, fmt, count) | _ => (0, 0, 0, 0)) ++
    zs.map (·.2) ++ remote.map (fun r => (r.kind, r.red, r.fmt, r.count))

/-- The copy engine has served the port of an operation last, where the operation waited in its queue (11 R202). -/
def portServed (m : Mach) (o : Op) : Mach :=
  if o.cls = 0 ∧ o.queued = true then { m with copyTurn := Map.ins m.copyTurn (o.port m).1 (o.port m).2 } else m

end Sys2Proof.Machine
end

