-- ==== Sys2Proof/Safety/Commands.lean ====
section
/-!
DEFINITION. Terms for statements: commands of the mailbox and of the debug window (13, 16, 21, 23).
-/

namespace Sys2Proof.Machine

/-- The function whose mailbox an instruction is a command of, and whether it acts in recovery (20 R306; 21 R340; 23 R354). -/
def commandOf : Instr → Option (Nat × Bool)
  | .createCtx fn _ _ => some (fn, false)
  | .runCtx fn _ => some (fn, false)
  | .resetCtx fn _ => some (fn, false)
  | .destroyCtx fn _ => some (fn, false)
  | .wsreg fn _ _ _ => some (fn, false)
  | .quota fn _ _ _ => some (fn, false)
  | .timeparam fn _ _ => some (fn, false)
  | .tagRegion fn _ _ _ => some (fn, false)
  | .slots fn _ _ => some (fn, false)
  | .exportEntry fn _ _ => some (fn, false)
  | .lend fn _ _ => some (fn, false)
  | .nvmegrant fn _ _ _ => some (fn, false)
  | .errring fn _ _ => some (fn, false)
  | .debugStop fn _ => some (fn, false)
  | .debugReleaseWarp fn _ _ => some (fn, false)
  | .debugReleaseAll fn _ => some (fn, false)
  | .debugSetBreakpoint fn _ _ _ _ => some (fn, false)
  | .debugClearBreakpoint fn _ _ => some (fn, false)
  | .debugDump fn _ _ => some (fn, false)
  | .fencemap fn => some (fn, false)
  | .health fn _ => some (fn, false)
  | .testTeam fn _ => some (fn, false)
  | .attest fn _ _ => some (fn, true)
  | .identity fn _ _ => some (fn, true)
  | .journalRead fn _ => some (fn, true)
  | .journalClear fn => some (fn, true)
  | .imagewrite fn _ _ _ _ => some (fn, true)
  | _ => none

/-- A function's mailbox takes a command now: the function is enabled and not busy, and stage 4 has succeeded (20 R306; 23 R353). -/
def Takes (fn : Nat) (s : State) : Prop :=
  (∃ x, Map.find? s.p.fns fn = some x ∧ x.enabled = true ∧ x.busy = false) ∧ s.p.boot.phase.serves = true

/-- The commands that only the PF may give (20 R306; 21 R340). -/
def pfOnly : Instr → Bool
  | .quota .. => true
  | .timeparam .. => true
  | .tagRegion .. => true
  | .slots .. => true
  | .exportEntry .. => true
  | .lend .. => true
  | .nvmegrant .. => true
  | .fencemap .. => true
  | .health .. => true
  | .testTeam .. => true
  | _ => false

/-- A command is answered with a status and result bytes, and the state has become t besides (20 R306). -/
def Replies (i : Instr) (fn : Nat) (s t : State) (status : Nat) (out : List (Nat × List Byte)) : Prop :=
  exec i s = .next (t.answer fn status out)

/-- A debugger's command on a context ends OK, and the machine is then m (21 R340, R342). -/
def Debugs (i : Instr) (fn : Nat) (s : State) (m : Mach) : Prop := Replies i fn s { s with m := m } 0 []

/-- RESET or DESTROY has stopped a context and waits until its blocks have left their seats (06 R119; 18 R295). -/
def stopping (s : State) (fn c : Nat) (destroys : Bool) : State :=
  State.updFn { s with m := (stopCtx s.m c 9 none).updCtx c (fun x => { x with resetBy := some (fn, destroys), waiting := if destroys = true then [] else x.waiting }) } fn
    (fun f => { f with busy := true })

/-- A function's mailbox takes a command that acts in recovery too (23 R354). -/
def TakesEarly (fn : Nat) (s : State) : Prop :=
  (∃ x, Map.find? s.p.fns fn = some x ∧ x.enabled = true ∧ x.busy = false) ∧ (s.p.boot.phase = .recovery ∨ s.p.boot.phase.serves = true)

end Sys2Proof.Machine
end

