-- ==== Sys2Proof/Safety/Package.lean ====
section
/-!
DEFINITION. Terms for statements: the package around the cores, and what a step runs (01, 20, 23).
-/

namespace Sys2Proof.Machine

/-- A slot table of 512 entries of which none is invalid (20 R313). -/
def TableOk (t : List (BitVec 16)) : Prop :=
  t.length = 512 ∧ ∀ e ∈ t, e.toNat / 16384 ≠ 3 ∧ e.toNat / 64 % 256 = 0 ∧ (e.toNat / 16384 ≠ 1 → e.toNat % 64 = 0)

/-- What the package around the cores always holds: a power limit above zero and of at most 2,800 W (01 R18), slot tables of which
none is invalid (20 R313, R314), and a journal of at most 256 entries of 32 bytes (23 R352). -/
structure SoundPackage (p : Plat) : Prop where
  power : 0 < p.power ∧ p.power ≤ 2800
  slots : ∀ e ∈ p.slots, TableOk e.2
  next : ∀ e ∈ p.slotsNext, TableOk e.2.2
  journal : p.boot.journal.length ≤ 256 ∧ ∀ e ∈ p.boot.journal, e.length = 32

/-- What a step makes of a move's outcome: the package does by itself what is due, and the turn passes on where no agenda named the move. -/
def followed (pass : Bool) (o : Host.Outcome State Fault Refusal) : Host.Outcome State Fault Refusal :=
  match o with
  | .next t => .next (if pass then passTurn (between t) else between t)
  | .fault f => .fault f
  | .refused r => .refused r

/-- The words at a warp's program counter inside its clause c decode to i. -/
def Fetches (m : Mach) (k : Nat) (c : Clause) (w1 : Word) (i : Instr) : Prop :=
  fetchWord m k (m.warp k).path.pc = .ok w1 ∧
  ((twoWords w1.toNat = false ∧ decode w1 0 = .ok i) ∨
    (twoWords w1.toNat = true ∧ (m.warp k).path.pc + 4 ≠ c.stop ∧
      ∃ w2, fetchWord m k ((m.warp k).path.pc + 4) = .ok w2 ∧ decode w1 w2 = .ok i))

end Sys2Proof.Machine
end

