-- ==== Sys2Proof/Safety/Operands.lean ====
section
/-!
DEFINITION. Terms for statements: operand fields that a rule makes illegal, size codes (03), and register lines (06).
-/

namespace Sys2Proof.Machine

/-- Does the value of a precede that of b, -0 below +0 (02 R29)? -/
def Below (a b : Word) : Prop :=
  weight a < weight b ∨ (weight a = weight b ∧ a.getLsbD 31 = true ∧ b.getLsbD 31 = false)

/-- The trap that an instruction with an ill-formed operand takes (03 R66, R67). -/
def Illegal (i : Instr) : Prop :=
  ∀ (q : Req) (s : State), reqOf i = some q → (Map.find? s.m.warps s.cur).isSome = true → canIssue s.m s.cur = true →
    s.me.path.spilled = false → exec i s = .next (s.trapped s.m { s.m.fault s.cur q.sc .illegal with tinfo := word1 i })

/-- An instruction of lane or warp scope that its checks let issue, whatever lines it finds in the register cache: the current warp may
issue, its path is resident, and a warp-scope form has nobody to gather. -/
structure LetThrough (q : Req) (s : State) : Prop where
  may : canIssue s.m s.cur = true
  resident : s.me.path.spilled = false
  scope : q.sc = 0 ∨ (q.sc = 1 ∧ s.me.path.mask = s.me.live)
  admitted : admission q s.m s.cur = .go s.m [s.cur]

/-- The line that an instruction misses first: those it accesses before it stand in the register cache (06 R116). -/
def FirstMiss (q : Req) (s : State) (u : LineUse) : Prop :=
  ∃ before after, accessed q s.m [s.cur] = before ++ u :: after ∧ u.l ∉ s.me.lines ∧ ∀ x ∈ before, x.l ∈ s.me.lines

/-- Where a line of the current warp stands in the context image (18 R298). -/
def State.linePlace (s : State) (l : Nat) : Option Nat :=
  recordPlace s.m s.me.block (warpRecordOff (s.m.blockOf s.cur) s.me.idx + lineOff l) .read

/-- A line of a warp has been filled from 128 bytes (06 R114, R116): its registers hold their words, but for a register that has
the status of a completed future; every other register is as it was, and so is the rest of the warp. -/
structure Filled (w w' : Warp) (l : Nat) (bs : List Byte) : Prop where
  lines : w'.lines = w.lines ++ [l]
  content : Map.find? w'.filled l = some bs
  rest : { w' with v := [], s := [], lines := [], filled := [] } = { w with v := [], s := [], lines := [], filled := [] }
  vector : l < 48 → ∀ i, i < 32 → w'.getV l i = BitVec.ofNat 32 (natOfBytes ((bs.drop (4 * i)).take 4))
  scalar : 48 ≤ l → ∀ n, n < 80 → keyLine n = l → (∀ e ∈ w.futs, e.2.reg = some n → e.2.status = none) →
    Map.get w'.s n = BitVec.ofNat 32 (natOfBytes ((bs.drop (4 * (n - lineKey l))).take 4))
  status : 48 ≤ l → ∀ n st, keyLine n = l → (∃ e ∈ w.futs, e.2.reg = some n) → (∀ e ∈ w.futs, e.2.reg = some n → e.2.status = some st) →
    Map.get w'.s n = BitVec.ofNat 32 st
  otherVectors : ∀ r i, i < 32 → r ≠ l → w'.getV r i = w.getV r i
  otherScalars : ∀ n, n < 80 → keyLine n ≠ l → Map.get w'.s n = Map.get w.s n

/-- The 6-bit predicate fields of an instruction that it reads (03 R60). -/
def predicateSources (i : Instr) : List (BitVec 6) :=
  match i with
  | .p2v x => [x.a]
  | .pand x => [x.a, x.b]
  | .por x => [x.a, x.b]
  | .pxor x => [x.a, x.b]
  | .pnot x => [x.a]
  | .pgatEvery x => [x.a]
  | .pgatSome x => [x.a]
  | .pgatMask x => [x.a]
  | _ => []

/-- The predicate that an instruction names as its destination. -/
def predicateDestination (i : Instr) : Option Nat :=
  match i with
  | .v2p x => some x.d.toNat
  | .pand x => some x.d.toNat
  | .por x => some x.d.toNat
  | .pxor x => some x.d.toNat
  | .pnot x => some x.d.toNat
  | .icmp x => some x.pd.toNat
  | .icmpi x => some x.pd.toNat
  | .fcmp x => some x.pd.toNat
  | _ => none

/-- The memory forms with a size code: loads and the store. -/
def sizedForm (i : Instr) : Option FM :=
  match i with
  | .ld x => some x
  | .ldp x => some x
  | .ldr x => some x
  | .st x => some x
  | _ => none

/-- The row of a size code in 03 R63: bytes, registers, and whether a short value is sign-extended. -/
def sizeRow (z : BitVec 3) : Option (Nat × Nat × Bool) :=
  match z.toNat with
  | 0 => some (1, 1, false)
  | 1 => some (2, 1, false)
  | 2 => some (4, 1, false)
  | 3 => some (8, 2, false)
  | 4 => some (16, 4, false)
  | 5 => some (1, 1, true)
  | 6 => some (2, 1, true)
  | _ => none

end Sys2Proof.Machine
end

