-- ==== Sys2Proof/Certificates/Slice0/Obligations.lean ====
section
/-!
DEFINITION. The statements for the provers, each with the rules of spec/ it rests on; the terms they use stand in
Sys2Proof/Safety.lean and Sys2Proof/Safety/.
-/

open Sys2Proof Sys2Proof.Machine

/-- Integer, logic, shift and bit-field forms: result, completion and frame at lane and warp scope (R130, R131, R132,
R133, R134, R135, R136, R137, R138, R139, R140, R143). -/
def Obligations.IntegerForms : Prop :=
  (∀ (i : Instr) (f : PipeForm) (q : Req) (r : Vals → Word) (s : State) (m : Mach) (ms : List Nat),
    pipeForm i = some f → intResult i = some r → reqOf i = some q → f.sc = 0 → Goes q s m ms →
      ∃ t, exec i s = .next t ∧ OnlyWarp s t 1 ∧
        (∀ n, n < 32 → (active s.me f.g.toNat).getLsbD n = true →
          t.me.getV f.d.toNat n = r (laneVals s.me n f.a f.b f.c)) ∧
        sameVectors s.me t.me [f.d.toNat] (active s.me f.g.toNat) ∧ sameScalars s.me t.me [] ∧ t.me.p = s.me.p ∧
        t.me.fflags = s.me.fflags) ∧
  (∀ (i : Instr) (f : PipeForm) (q : Req) (r : Vals → Word) (s : State) (m : Mach) (ms : List Nat),
    pipeForm i = some f → intResult i = some r → reqOf i = some q → f.sc = 1 → uniform s.me f.g.toNat = some true →
    Goes q s m ms →
      ∃ t, exec i s = .next t ∧ OnlyWarp s t 1 ∧ t.me.getS f.d.toNat = r (warpVals s.me f.a f.b f.c) ∧
        sameScalars s.me t.me [s.me.sKey f.d.toNat] ∧ t.me.v = s.me.v ∧ t.me.p = s.me.p ∧ t.me.fflags = s.me.fflags) ∧
  decodeTableWord 32 0x05284142 = some (.iadds ⟨1, 10, 4, 5, 0, 0⟩) ∧
  decodeTableWord 32 0x081820C1 = some (.imulh ⟨0, 6, 2, 3, 0, 0⟩) ∧
  decodeTableWord 32 0x2C20824A = some (.iaddmin ⟨0, 8, 8, 9, 10⟩) ∧
  decodeTableWord 32 0x281420C4 = some (.imla ⟨0, 5, 2, 3, 4⟩) ∧
  decodeTableWord 32 0x31105187 = some (.isum3 ⟨1, 4, 5, 6, 7⟩) ∧
  decodeTableWord 32 0x34104064 = some (.iaddi ⟨0, 4, 4, 100⟩) ∧
  decodeTableWord 32 0x0C1C7C43 = some (.umax ⟨0, 7, 7, 49, 0, 0⟩) ∧
  decodeTableWord 32 0x1020824B = some (.andn ⟨0, 8, 8, 9, 0, 2⟩) ∧
  decodeTableWord 32 0x142820C2 = some (.sar ⟨0, 10, 2, 3, 0, 0⟩) ∧
  decodeTableWord 32 0x3D208403 = some (.shri ⟨1, 8, 8, 3⟩) ∧
  decodeTableWord 32 0x380C23FF = some (.andi ⟨0, 3, 2, 0x3FF⟩) ∧
  decodeTableWord 32 0x18103001 = some (.popc ⟨0, 4, 3, 0, 0⟩) ∧
  decodeTableWord 32 0x19185000 = some (.clz ⟨1, 6, 5, 0, 0⟩) ∧
  decodeTableWord 32 0x241020C1 = some (.bfxu ⟨0, 4, 2, 3, 0, 0⟩) ∧
  decodeTableWord 32 0x400BFFFF = some (.movi ⟨0, 2, 0x3FFFF⟩) ∧
  decodeTableWord 32 0x45141234 = some (.movhi ⟨1, 5, 0x1234⟩)

/-- Floating-point forms and conversions: result, flags, completion and frame at lane and warp scope (R26, R27, R28,
R154, R155, R157, R158, R160, R161, R162, R164, R165). -/
def Obligations.FloatForms : Prop :=
  (∀ (i : Instr) (f : PipeForm) (q : Req) (r : RMode → Vals → Word × Word) (s : State) (m : Mach) (ms : List Nat),
    pipeForm i = some f → floatResult i = some r → reqOf i = some q → f.sc = 0 → Goes q s m ms →
      ∃ t, exec i s = .next t ∧ OnlyWarp s t 1 ∧
        (∀ n, n < 32 → (active s.me f.g.toNat).getLsbD n = true →
          t.me.getV f.d.toNat n = (r s.me.mode (laneVals s.me n f.a f.b f.c)).1) ∧
        sameVectors s.me t.me [f.d.toNat] (active s.me f.g.toNat) ∧ sameScalars s.me t.me [] ∧ t.me.p = s.me.p ∧
        (∀ b, t.me.fflags.getLsbD b = true ↔ s.me.fflags.getLsbD b = true ∨
          ∃ n, n < 32 ∧ (active s.me f.g.toNat).getLsbD n = true ∧
            (r s.me.mode (laneVals s.me n f.a f.b f.c)).2.getLsbD b = true)) ∧
  (∀ (i : Instr) (f : PipeForm) (q : Req) (r : RMode → Vals → Word × Word) (s : State) (m : Mach) (ms : List Nat),
    pipeForm i = some f → floatResult i = some r → reqOf i = some q → f.sc = 1 → uniform s.me f.g.toNat = some true →
    Goes q s m ms →
      ∃ t, exec i s = .next t ∧ OnlyWarp s t 1 ∧ t.me.getS f.d.toNat = (r s.me.mode (warpVals s.me f.a f.b f.c)).1 ∧
        sameScalars s.me t.me [s.me.sKey f.d.toNat] ∧ t.me.v = s.me.v ∧ t.me.p = s.me.p ∧
        t.me.fflags = s.me.fflags ||| (r s.me.mode (warpVals s.me f.a f.b f.c)).2)

/-- Guards at warp scope: a guard of zeros suppresses the effect, a non-uniform guard faults NONUNIF (R61, R128,
R147). -/
def Obligations.WarpGuards : Prop :=
  ∀ (i : Instr) (g : BitVec 3) (q : Req) (s : State) (m : Mach) (ms : List Nat),
    warpGuard i = some g → reqOf i = some q → Goes q s m ms →
      (uniform s.me g.toNat = some false → ∃ t, exec i s = .next t ∧ OnlyWarp s t 1 ∧ t.me.v = s.me.v ∧
        t.me.s = s.me.s ∧ t.me.p = s.me.p ∧ t.me.fflags = s.me.fflags) ∧
      (uniform s.me g.toNat = none → exec i s = .next (s.trapped m { m.fault s.cur 1 .nonunif with tinfo := word1 i }))

/-- ICMP, ICMPI and FCMP: outcome, combination with the old predicate, completion and frame (R64, R144, R145, R159).
-/
def Obligations.CompareForms : Prop :=
  (∀ (i : Instr) (f : CmpForm) (u : Word → Word → Bool) (q : Req) (s : State) (m : Mach) (ms : List Nat),
    cmpForm i = some (f, u) → reqOf i = some q → f.sc = 0 → f.pd ≠ 0 → Goes q s m ms →
      ∃ t, exec i s = .next t ∧ OnlyWarp s t 1 ∧
        (∀ n, n < 32 → ((t.me.getP f.pd.toNat).getLsbD n = true ↔
          if (active s.me f.g.toNat).getLsbD n = true then
            combined f.mode ((s.me.getP f.pd.toNat).getLsbD n) (cmpTest i (f.a.lane s.me n) (f.b.lane s.me n))
          else (s.me.getP f.pd.toNat).getLsbD n = true)) ∧
        samePredicates s.me t.me f.pd.toNat ∧ t.me.v = s.me.v ∧ t.me.s = s.me.s ∧ t.me.fflags = s.me.fflags) ∧
  (∀ (i : Instr) (f : CmpForm) (u : Word → Word → Bool) (q : Req) (s : State) (m : Mach) (ms : List Nat),
    cmpForm i = some (f, u) → reqOf i = some q → f.sc = 1 → f.pd ≠ 0 → uniform s.me f.g.toNat = some true → Goes q s m ms →
      ∃ t, exec i s = .next t ∧ OnlyWarp s t 1 ∧
        (∀ n, n < 32 → ((t.me.getP f.pd.toNat).getLsbD n = true ↔
          if s.me.live.getLsbD n = true then
            combined f.mode ((s.me.getP f.pd.toNat).getLsbD n) (cmpTest i (f.a.warp s.me) (f.b.warp s.me))
          else (s.me.getP f.pd.toNat).getLsbD n = true)) ∧
        samePredicates s.me t.me f.pd.toNat ∧ t.me.v = s.me.v ∧ t.me.s = s.me.s ∧ t.me.fflags = s.me.fflags) ∧
  (∀ (cnd : BitVec 3) (a b : Word),
    (intCond cnd a b = true ↔ intTest cnd a b) ∧ (floatCond cnd a b = true ↔ floatTest cnd a b)) ∧
  decodeTableWord 32 0x1CCC2141 = some (.icmp ⟨0, 6, 3, 2, 5, 0, 0, 1⟩) ∧
  decodeTableWord 32 0x48480008 = some (.icmpi ⟨0, 2, 2, 0, 8⟩) ∧
  decodeTableWord 32 0x6CC84100 = some (.fcmp ⟨0, 6, 2, 4, 4, 0, 0, 0⟩)

/-- SEL: selection, completion and frame at lane and warp scope; a non-uniform selector faults NONUNIF (R128, R141).
-/
def Obligations.Select : Prop :=
  ∀ (x : FA3) (s : State) (m : Mach) (ms : List Nat), Goes (selReq x) s m ms →
    (x.sc = 0 → ∃ t, exec (.sel x) s = .next t ∧ OnlyWarp s t 1 ∧
      (∀ n, n < 32 → s.me.path.mask.getLsbD n = true → t.me.getV x.d.toNat n =
        if (s.me.getP x.g.toNat).getLsbD n = true then s.me.src x.a.toNat n else s.me.src x.b.toNat n) ∧
      sameVectors s.me t.me [x.d.toNat] s.me.path.mask ∧ t.me.s = s.me.s ∧ t.me.p = s.me.p ∧ t.me.fflags = s.me.fflags) ∧
    (x.sc = 1 → ∀ b, uniform s.me x.g.toNat = some b → ∃ t, exec (.sel x) s = .next t ∧ OnlyWarp s t 1 ∧
      t.me.getS x.d.toNat = (if b then s.me.getS x.a.toNat else s.me.getS x.b.toNat) ∧
      sameScalars s.me t.me [s.me.sKey x.d.toNat] ∧ t.me.v = s.me.v ∧ t.me.p = s.me.p ∧ t.me.fflags = s.me.fflags) ∧
    (x.sc = 1 → uniform s.me x.g.toNat = none → exec (.sel x) s = .next (s.trapped m { m.fault s.cur 1 .nonunif with tinfo := word1 (.sel x) }))

/-- PAND, POR, PXOR, PNOT, V2P and P2V: result, completion and frame (R142, R146). -/
def Obligations.PredicateForms : Prop :=
  ((∀ (i : Instr) (g : BitVec 3) (d : BitVec 6) (r : Warp → Nat → Bool) (q : Req) (s : State) (m : Mach) (ms : List Nat),
    predResult i = some (g, d, r) → reqOf i = some q → d ≠ 0 → Goes q s m ms →
      ∃ t, exec i s = .next t ∧ OnlyWarp s t 1 ∧
        (∀ n, n < 32 → (t.me.getP d.toNat).getLsbD n =
          if (active s.me g.toNat).getLsbD n then r s.me n else (s.me.getP d.toNat).getLsbD n) ∧
        samePredicates s.me t.me d.toNat ∧ t.me.v = s.me.v ∧ t.me.s = s.me.s ∧ t.me.fflags = s.me.fflags) ∧
  (∀ (x : FDAG) (q : Req) (s : State) (m : Mach) (ms : List Nat), reqOf (.p2v x) = some q → Goes q s m ms →
      ∃ t, exec (.p2v x) s = .next t ∧ OnlyWarp s t 1 ∧
        (∀ n, n < 32 → (active s.me x.g.toNat).getLsbD n = true → t.me.getV x.d.toNat n =
          if (s.me.getP x.a.toNat).getLsbD n = true then 1 else 0) ∧
        sameVectors s.me t.me [x.d.toNat] (active s.me x.g.toNat) ∧ t.me.s = s.me.s ∧ t.me.p = s.me.p ∧
        t.me.fflags = s.me.fflags)) ∧
  decodeTableWord 32 0x20182002 = some (.p2v ⟨6, 2, 0⟩) ∧
  decodeTableWord 32 0x20147003 = some (.v2p ⟨5, 7, 0, 0⟩) ∧
  decodeTableWord 32 0x4C0C1080 = some (.pand ⟨3, 1, 2, 0⟩) ∧
  decodeTableWord 32 0x4C104003 = some (.pnot ⟨4, 4, 0⟩) ∧
  decodeTableWord 32 0x4D0C1080 = none

/-- XLN: every live lane gets its source lane's value, or its own outside the segment; completion and frame (R148). -/
def Obligations.LaneExchange : Prop :=
  (∀ (i : Instr) (form : Nat) (x : FDABHG) (q : Req) (s : State) (m : Mach) (ms : List Nat),
    xlnForm i = some (form, x) → reqOf i = some q → uniform s.me x.g.toNat = some true → Goes q s m ms →
      ∃ t, exec i s = .next t ∧ OnlyWarp s t 1 ∧
        (∀ n, n < 32 → s.me.live.getLsbD n = true →
          t.me.getV x.d.toNat n = xlnValue form s.me x.a.toNat x.b.toNat n) ∧
        sameVectors s.me t.me [x.d.toNat] s.me.live ∧ t.me.s = s.me.s ∧ t.me.p = s.me.p ∧ t.me.fflags = s.me.fflags) ∧
  decodeTableWord 32 0x51185C40 = some (.xlnBack ⟨6, 5, 49, 0, 0⟩)

/-- PGAT: EVERY, SOME, MASK and LIVE over the live lanes; completion and frame (R149). -/
def Obligations.PredicateGather : Prop :=
  (∀ (i : Instr) (g : BitVec 3) (d : BitVec 6) (r : Warp → Word) (q : Req) (s : State) (m : Mach) (ms : List Nat),
    pgatResult i = some (g, d, r) → reqOf i = some q → uniform s.me g.toNat = some true → Goes q s m ms →
      ∃ t, exec i s = .next t ∧ OnlyWarp s t 1 ∧ t.me.getS d.toNat = r s.me ∧
        sameScalars s.me t.me [s.me.sKey d.toNat] ∧ t.me.v = s.me.v ∧ t.me.p = s.me.p ∧ t.me.fflags = s.me.fflags) ∧
  decodeTableWord 32 0x55242002 = some (.pgatMask ⟨9, 2, 0⟩)

/-- REDX: sum, least and greatest of the live lanes, and the FP32 sum in its fixed tree with its flags (R46, R150). -/
def Obligations.Reductions : Prop :=
  (∀ (x : FDAHG) (i : Instr) (q : Req) (s : State) (m : Mach) (ms : List Nat),
    (i = .redxAdd x ∨ i = .redxSmin x ∨ i = .redxSmax x) → reqOf i = some q → uniform s.me x.g.toNat = some true →
    Goes q s m ms →
      ∃ t, exec i s = .next t ∧ OnlyWarp s t 1 ∧
        (i = .redxAdd x → t.me.getS x.d.toNat =
          BitVec.ofNat 32 ((lanesOf s.me.live).map (fun n => (s.me.src x.a.toNat n).toNat)).sum) ∧
        (i = .redxSmin x → s.me.live ≠ 0 →
          (∃ n, n < 32 ∧ s.me.live.getLsbD n = true ∧ t.me.getS x.d.toNat = s.me.src x.a.toNat n) ∧
          ∀ n, n < 32 → s.me.live.getLsbD n = true → (t.me.getS x.d.toNat).toInt ≤ (s.me.src x.a.toNat n).toInt) ∧
        (i = .redxSmax x → s.me.live ≠ 0 →
          (∃ n, n < 32 ∧ s.me.live.getLsbD n = true ∧ t.me.getS x.d.toNat = s.me.src x.a.toNat n) ∧
          ∀ n, n < 32 → s.me.live.getLsbD n = true → (s.me.src x.a.toNat n).toInt ≤ (t.me.getS x.d.toNat).toInt) ∧
        sameScalars s.me t.me [s.me.sKey x.d.toNat] ∧ t.me.v = s.me.v ∧ t.me.p = s.me.p ∧ t.me.fflags = s.me.fflags) ∧
  (∀ (x : FDAHG) (q : Req) (s : State) (m : Mach) (ms : List Nat),
    reqOf (.redxFadd x) = some q → uniform s.me x.g.toNat = some true → Goes q s m ms →
      ∃ t, exec (.redxFadd x) s = .next t ∧ OnlyWarp s t 1 ∧
        (let r := treeOver s.me.mode (fun n => if s.me.live.getLsbD n then some (s.me.src x.a.toNat n) else none) 5 0
         t.me.getS x.d.toNat = r.1.getD 0 ∧ t.me.fflags = s.me.fflags ||| r.2) ∧
        sameScalars s.me t.me [s.me.sKey x.d.toNat] ∧ t.me.v = s.me.v ∧ t.me.p = s.me.p) ∧
  decodeTableWord 32 0x59304000 = some (.redxAdd ⟨12, 4, 0, 0⟩) ∧
  decodeTableWord 32 0x59304003 = some (.redxFadd ⟨12, 4, 0, 0⟩)

/-- SCAN: every live lane gets the fold of the live lanes up to it; completion and frame (R151). -/
def Obligations.Scans : Prop :=
  (∀ (i : Instr) (x : FDAHG) (f : Word → Word → Word) (e : Word) (exclusive : Bool) (q : Req) (s : State) (m : Mach)
    (ms : List Nat),
    scanForm i = some (x, f, e, exclusive) → reqOf i = some q → uniform s.me x.g.toNat = some true → Goes q s m ms →
      ∃ t, exec i s = .next t ∧ OnlyWarp s t 1 ∧
        (∀ n, n < 32 → s.me.live.getLsbD n = true → t.me.getV x.d.toNat n =
          (((lanesOf s.me.live).filter (fun j => decide (j < n) || (!exclusive && j == n))).map
            (s.me.src x.a.toNat)).foldl f e) ∧
        sameVectors s.me t.me [x.d.toNat] s.me.live ∧ t.me.s = s.me.s ∧ t.me.p = s.me.p ∧ t.me.fflags = s.me.fflags) ∧
  decodeTableWord 32 0x5D1C4001 = some (.scanXadd ⟨7, 4, 0, 0⟩)

/-- FMIN, FMAX, FMINM and FMAXM: NaN operands, the order of the values, -0 below +0, no flag (R29, R156). -/
def Obligations.MinMaxRules : Prop :=
  ∀ (x : FA3) (v : Vals) (mode : RMode),
    (∀ i ∈ [Instr.fmin x, .fmax x, .fminm x, .fmaxm x], ∀ r, floatResult i = some r →
      (r mode v).2 = 0 ∧ (IsNan v.a → IsNan v.b → (r mode v).1 = 0x7FC00000) ∧
      (¬ IsNan v.a → ¬ IsNan v.b → (r mode v).1 = v.a ∨ (r mode v).1 = v.b)) ∧
    (∀ i ∈ [Instr.fmin x, .fmax x], ∀ r, floatResult i = some r →
      (IsNan v.a → ¬ IsNan v.b → (r mode v).1 = v.b) ∧ (¬ IsNan v.a → IsNan v.b → (r mode v).1 = v.a)) ∧
    (∀ i ∈ [Instr.fminm x, .fmaxm x], ∀ r, floatResult i = some r → IsNan v.a ∨ IsNan v.b → (r mode v).1 = 0x7FC00000) ∧
    (∀ i ∈ [Instr.fmin x, .fminm x], ∀ r, floatResult i = some r → ¬ IsNan v.a → ¬ IsNan v.b →
      ¬ Below v.a (r mode v).1 ∧ ¬ Below v.b (r mode v).1) ∧
    (∀ i ∈ [Instr.fmax x, .fmaxm x], ∀ r, floatResult i = some r → ¬ IsNan v.a → ¬ IsNan v.b →
      ¬ Below (r mode v).1 v.a ∧ ¬ Below (r mode v).1 v.b) ∧
    Below 0x80000000 0

/-- LD, LDP and LDR: the bytes loaded, completion and frame (R58, R111, R178, R179, R184, R185, R192). -/
def Obligations.Loads : Prop :=
  ∀ (i : Instr) (x : FM) (u : Use) (q : Req) (s : State) (m : Mach) (ms : List Nat) (ls : List (Nat × Loc)),
    loadForm i = some (x, u) → x.z ≠ 7 → reqOf i = some q → Goes q s m ms →
    memPlaces q m s.cur x.g.toNat x.o.toNat x.h.toNat u .read 0 (accessBytes x.z.toNat) = .ok ls →
    (∀ e ∈ ls, isExternal e.2.key = false ∧ s.m.poisonAt e.2.key (accessBytes x.z.toNat) = none) →
      ∃ t, ∃ bytes : Nat × Loc → List Byte,
        exec i s = .next t ∧ Accessed s t ∧ t.m.memRest = s.m.memRest ∧ t.me.p = s.me.p ∧ t.me.fflags = s.me.fflags ∧
        (∀ e ∈ ls, s.m.delivers s.cur (u != .ldp) e.2 (accessBytes x.z.toNat) (bytes e)) ∧
        (∀ e b, ls.head? = some e → i ≠ .ldp x → s.m.servedBy s.cur e.2 = some b →
          bytes e = copyLane s.m s.cur e.2 (accessBytes x.z.toNat) b) ∧
        (x.sc = 0 →
          (∀ e ∈ ls, ∀ j, j < regsOf x.z.toNat → t.me.getV (x.d.toNat + j) e.1 = loadedWord x.z.toNat (bytes e) j) ∧
          sameVectors s.me t.me (rangeFrom x.d.toNat (regsOf x.z.toNat)) (active s.me x.g.toNat) ∧ t.me.s = s.me.s) ∧
        (x.sc = 1 →
          (∀ e ∈ ls, ∀ j, j < regsOf x.z.toNat → t.me.getS (x.d.toNat + j) = loadedWord x.z.toNat (bytes e) j) ∧
          sameScalars s.me t.me (if ls = [] then [] else (rangeFrom x.d.toNat (regsOf x.z.toNat)).map s.me.sKey) ∧
          t.me.v = s.me.v) ∧
        (i = .ldp x → t.me.demot = min 0xFFFF (s.me.demot + 1)) ∧
        (i ≠ .ldp x → t.me.demot = s.me.demot ∧ GoesOn s.me t.me 1)

/-- ST: every byte stored and every other byte unchanged; in an uncommitted block the pail grows instead (R184, R185,
R189, R200, R201). -/
def Obligations.StoreForms : Prop :=
  (∀ (x : FM) (s : State) (m : Mach) (ms : List Nat) (ls : List (Nat × Loc)),
    x.z ≠ 7 → Goes (stReq x) s m ms → (s.m.blockOf s.cur).holding = false →
    memPlaces (stReq x) m s.cur x.g.toNat x.o.toNat x.h.toNat .st .write 1 (accessBytes x.z.toNat) = .ok ls →
      let bytes := fun (e : Nat × Loc) => (List.range (accessBytes x.z.toNat)).map (storedByte s.me x.sc x.d.toNat e.1)
      ∃ t, ∃ ls' : List (Nat × Loc), exec (.st x) s = .next t ∧ Accessed s t ∧
        { t.m.storeRest with sent := [] } = { s.m.storeRest with sent := [] } ∧ t.m.blocks = s.m.blocks ∧
        t.me.v = s.me.v ∧ t.me.s = s.me.s ∧ t.me.p = s.me.p ∧ t.me.fflags = s.me.fflags ∧
        t.me.demot = s.me.demot ∧ GoesOn s.me t.me 1 ∧ ls'.Perm ls ∧
        t.m.sent = s.m.sent ++ ls'.flatMap (fun e => if isSelf e.2.key then s.m.ownMessage e.2.key (bytes e) else []) ∧
        (∀ a, (∀ e ∈ ls, isSelf e.2.key = false → ¬ e.2.touches (accessBytes x.z.toNat) a) → Mem.read t.m.mem a = Mem.read s.m.mem a) ∧
        (∀ a, ∀ e ∈ ls, isSelf e.2.key = false → e.2.touches (accessBytes x.z.toNat) a →
          ∃ e' ∈ ls, isSelf e'.2.key = false ∧ e'.2.touches (accessBytes x.z.toNat) a ∧
            Mem.read t.m.mem a = storedByte s.me x.sc x.d.toNat e'.1 (a - e'.2.key))) ∧
  (∀ (x : FM) (s : State) (m : Mach) (ms : List Nat) (ls : List (Nat × Loc)),
    x.z ≠ 7 → Goes (stReq x) s m ms → (Map.find? s.m.blocks s.me.block).isSome = true →
    (s.m.blockOf s.cur).holding = true →
    memPlaces (stReq x) m s.cur x.g.toNat x.o.toNat x.h.toNat .st .write 1 (accessBytes x.z.toNat) = .ok ls →
    (∀ e ∈ ls, e.2.kind = 1 ∨ e.2.kind = 3 ∨ e.2.kind = 9) →
    pailSectors (s.m.blockOf s.cur).pail + ls.length ≤ 1024 →
      ∃ t, exec (.st x) s = .next t ∧ Accessed s t ∧ t.m.storeRest = s.m.storeRest ∧ t.m.mem = s.m.mem ∧
        t.m.poison = s.m.poison ∧ t.me.v = s.me.v ∧ t.me.s = s.me.s ∧ t.me.p = s.me.p ∧ t.me.fflags = s.me.fflags ∧
        GoesOn s.me t.me 1 ∧
        (∀ b, b ≠ s.me.block → Map.find? t.m.blocks b = Map.find? s.m.blocks b) ∧
        ∃ ls' : List (Nat × Loc), ls'.Perm ls ∧ t.m.blockOf t.cur = { s.m.blockOf s.cur with
          pail := (s.m.blockOf s.cur).pail ++ ls'.map (fun e =>
            { h := e.2.h, off := e.2.off, key := e.2.key,
              bytes := (List.range (accessBytes x.z.toNat)).map (storedByte s.me x.sc x.d.toNat e.1) }) })

/-- JPT, JOIN and RET: a record is pushed, completed by its last arrival, and waited at by an earlier one (R101, R102,
R109). -/
def Obligations.JoinRecords : Prop :=
  (∀ (x : FJP) (s : State) (m : Mach) (ms : List Nat), Goes (jptReq x) s m ms → roomFor s.me 0 →
    ∃ t, exec (.jpt x) s = .next t ∧ Steered s t ∧ GoesOn s.me t.me 1 ∧
      (∃ p ∈ t.me.paths, p.pc = s.me.path.pc + 4 ∧ p.mask = lanesAt s.me x.sc.toNat ∧ p.inner = some s.me.nextRec) ∧
      t.me.recs = Map.ins s.me.recs s.me.nextRec
        { call := false, addr := BitVec.ofInt 32 (s.me.path.pc.toNat + 4 * x.off.toInt), entry := lanesAt s.me x.sc.toNat,
          arrival := 0, parent := s.me.path.inner, spilled := false }) ∧
  (∀ (i : Instr) (k : Nat) (r : Rec) (q : Req) (s : State) (m : Mach) (ms : List Nat),
    (i = .join ∨ ∃ x, i = .ret x) → reqOf i = some q → Goes q s m ms → s.me.path.inner = some k →
    Map.find? s.me.recs k = some r → arrives i s.me r → roomFor s.me 0 →
    (∀ p ∈ s.me.paths.tail, p.park < s.me.parks) →
      (((r.entry &&& s.me.live) &&& ~~~ (r.arrival ||| lanesAt s.me q.sc) = 0 →
        ∃ t, exec i s = .next t ∧ Steered s t ∧ Map.find? t.me.recs k = none ∧
          (∃ p ∈ t.me.paths, p.mask = (r.arrival ||| lanesAt s.me q.sc) &&& s.me.live ∧ p.st = .runnable ∧
            p.pc = (if r.call = true then r.addr else s.me.path.pc + 4) ∧ p.inner = r.parent ∧ p.clause = none ∧ p.dem = 0)) ∧
      ((r.entry &&& s.me.live) &&& ~~~ (r.arrival ||| lanesAt s.me q.sc) ≠ 0 → (∃ p ∈ s.me.paths.tail, p.st = .runnable) →
        q.sc = 0 → ∃ t, exec i s = .next t ∧ Steered s t ∧
          Map.find? t.me.recs k = some { r with arrival := r.arrival ||| s.me.path.mask } ∧
          (∃ p ∈ t.me.paths, p.mask = s.me.path.mask ∧ p.pc = s.me.path.pc ∧
            p.st = (if i = .join then .atJoin else .atRet)) ∧ t.me.path.st = .runnable)))

/-- MMA, DRAIN, AZERO, ASAVE, ALOAD and ASTAT: issue of the command to the matrix array, and the status word (R42,
R43, R223, R224, R226, R228, R236, R237, R238). -/
def Obligations.MatrixForms : Prop :=
  ((∀ (x : FMMA) (s : State) (m : Mach) (ms : List Nat), Goes (mmaReq x) s m ms → ms.Nodup →
    let k := ms.headD 0
    let b := m.blockOf k
    let slot := b.fmtSlot x.slot.toNat
    let tiles := (m.allMembers 2 k).flatMap (fun j => (x.ta.toNat :: rangeFrom x.tb.toNat (mmaB x)).map (fun t => (j, t)))
    quadSet (b.set ((m.warp k).set.getD 0)) = true → slotOk slot = true → fmtWidth (slotA slot) = fmtWidth (slotB slot) →
    (∀ t ∈ tiles, (m.tileOf t).st ≠ 0 ∧ (m.tileOf t).moving = false) → mustStall m 2 0 ms = none →
    let m2 := ((tiles.foldl (fun m t => addHold (seeTile m ms t) t) m).count b.ctx 40 1).count b.ctx 41
      (4 * mmaRows x * mmaCols x * (384 / fmtWidth (slotA slot)))
      ∃ t, exec (.mma x) s = .next t ∧ Issued s t (mmaReq x) 2 0 false
        (.mma (x.z == 1) (mmaRows x) (mmaCols x) (fmtWidth (slotA slot)) slot x.ta.toNat x.tb.toNat x.c.toNat (withCounts m2 2 k))
        none ms m2) ∧
  (∀ (x : FDRAIN) (s : State) (m : Mach) (ms : List Nat) (target scale : Option (Nat × Nat)), Goes (drainReq x) s m ms →
    let w := m.warp s.cur
    let b := m.blockOf s.cur
    let slot := b.fmtSlot x.slot.toNat
    let srcs := if slotRowScale slot = 1 ∨ slotColScale slot = 1 then (drainReq x).srcs ++ [x.sr.toNat] else (drainReq x).srcs
    drainOk x slot = true → (x.dk = 0 → x.d.toNat + drainRegs slot - 1 < w.nv) →
    operands { drainReq x with srcs := srcs } m s.cur = none → (∀ r ∈ srcs, keyLine (w.sKey r) ∈ w.lines) →
    (x.dk = 0 → ∀ r ∈ rangeFrom x.d.toNat (drainRegs slot), r ∈ w.lines) →
    drainTiles (drainReq x) x slot m s.cur = .ok (target, scale) → accMark m s.cur (accSlot w.na x.acc.toNat) = none →
    mustStall m 2 0 [s.cur] = none →
    let m1 := match scale with | some t => addHold (seeTile m [s.cur] t) t | none => m
    let m2 := match target with | some t => m1.setTileOf [s.cur] t (fun t => { t with st := 1 }) | none => m1
      ∃ t, exec (.drain x) s = .next t ∧ Issued s t (drainReq x) 2 0 false
        (.drain s.cur (accSlot w.na x.acc.toNat) slot x.rb.toNat x.cb.toNat scale (if x.dk = 0 then some x.d.toNat else none)
          (target.map (fun t => (t.1, t.2, x.row.toNat, x.col.toNat))) (x.fl == 1)) none [s.cur] (m2.count b.ctx 43 1))) ∧
  ((∀ (x : FSAB) (s : State) (m : Mach) (ms : List Nat), Goes (azeroReq x) s m ms → ms.Nodup →
    inWindow m ms (headS m x.sc.toNat ms x.a.toNat).toNat (x.b.toNat + 1) → mustStall m 2 0 ms = none →
      ∃ t, exec (.azero x) s = .next t ∧ Issued s t (azeroReq x) 2 0 false
        (.azero (headS m x.sc.toNat ms x.a.toNat).toNat (x.b.toNat + 1) (withCounts m x.sc.toNat (ms.headD 0))) none ms m) ∧
  (∀ (i : Instr) (x : FSABC) (save : Bool) (s : State) (m : Mach) (ms : List Nat) (e : HEntry),
    imageForm i = some (x, save) → Goes (accMoveReq i x) s m ms → ms.Nodup →
    let k := ms.headD 0
    let word := headS m x.sc.toNat ms x.c.toNat
    let base := word.toNat % 1024
    let n := word.toNat / 1024 % 64 + 1
    let h := (headS m x.sc.toNat ms x.a.toNat).toNat
    let off := (headS m x.sc.toNat ms x.b.toNat).toNat
    word.toNat < 65536 → inWindow m ms base n →
    bulkHandle m (m.warp k).block (m.fault k (accMoveReq i x).sc .handle) h = .ok e →
    bufferChecks (m.blockOf k) (m.fault k (accMoveReq i x).sc .handle) h off ((withCounts m x.sc.toNat k).length * imageSize n) 128
      (if save then 2 else 1) e = .ok () → mustStall m 2 0 ms = none →
      ∃ t, exec i s = .next t ∧ Issued s t (accMoveReq i x) 2 0 false
        (if save then .asave h off base n e (withCounts (if save then commit m k else m) x.sc.toNat k)
          else .aload h off base n e (withCounts (if save then commit m k else m) x.sc.toNat k)) none ms (if save then commit m k else m)) ∧
  (∀ (x : FSAB) (s : State) (m : Mach) (ms : List Nat), Goes (astatReq x) s m ms → ms.Nodup →
    let c := (headS m x.sc.toNat ms x.b.toNat).toNat
    inWindow m ms c 1 → (∀ j ∈ ms, ∀ e ∈ m.ops, e.2.writesAcc j (accSlot (m.warp j).na c) = false) →
      ∃ t, exec (.astat x) s = .next t ∧ Ends s t 1 ms (ms.foldl (fun m j => m.answer j x.a.toNat (astatWord m j c)) m)))

/-- VOPEN, VDROP, VQUERY and VDUP: what their names lead to; every outcome of VOPEN; what VQUERY answers (R241, R244,
R245, R246, R247, R253, R257, R258). -/
def Obligations.VatNamesAndOpening : Prop :=
  ((∀ (x : FVABC) (s : State) (m : Mach) (ms : List Nat), Goes (vopenReq x) s m ms → ms.Nodup →
    VatNames (.vopen x) (vopenReq x) s m ms x.a.toNat x.b.toNat [0] m (opened m ms m)
      (sought m (ms.headD 0) (headPair m (vopenReq x).sc ms x.b.toNat))) ∧
  (∀ (x : FVAB) (s : State) (m : Mach) (ms : List Nat), Goes (vdropReq x) s m ms → ms.Nodup →
    VatNames (.vdrop x) (vdropReq x) s m ms x.a.toNat x.b.toNat [] (commit m (ms.headD 0)) (commit m (ms.headD 0))
      (m.vatNamed (m.blockOf (ms.headD 0)).ctx (headPair m (vdropReq x).sc ms x.b.toNat))) ∧
  (∀ (x : FVAB) (s : State) (m : Mach) (ms : List Nat), Goes (vqueryReq x) s m ms → ms.Nodup →
    let name := headPair m (vqueryReq x).sc ms x.b.toNat
    VatNames (.vquery x) (vqueryReq x) s m ms x.a.toNat x.b.toNat [0, 0, 0] m m (m.vatNamed (m.blockOf (ms.headD 0)).ctx name) ∧
    (∀ id v, (m.warp (ms.headD 0)).trap = none → name ≠ 0 → m.vatNamed (m.blockOf (ms.headD 0)).ctx name = some (id, v) →
      v.world = (m.blockOf (ms.headD 0)).world →
      VatEnds (.vquery x) s ms name x.a.toNat m
        [0, v.st * 2 ^ 30 + v.acc.toNat * 2 ^ 29 + v.backed.isSome.toNat * 2 ^ 28 + v.writer.isSome.toNat * 2 ^ 27 +
            v.stale.toNat * 2 ^ 26 + v.replicas.length * 2 ^ 24 + min 255 v.opens.length * 2 ^ 16 + v.size,
          (match v.primary with | some c => 2 ^ 31 + c | none => 0),
          v.replicas.getD 0 0 + v.replicas.getD 1 0 * 2 ^ 8 + v.replicas.getD 2 0 * 2 ^ 16] false)) ∧
  (∀ (x : FVABC) (s : State) (m : Mach) (ms : List Nat), Goes (vdupReq x) s m ms → ms.Nodup →
    let t := (headS m (vdupReq x).sc ms x.c.toNat).toNat
    (t < 32 ∨ t = 0xFF →
      VatNames (.vdup x) (vdupReq x) s m ms x.a.toNat x.b.toNat [0] (commit m (ms.headD 0)) (commit m (ms.headD 0))
        (m.vatNamed (m.blockOf (ms.headD 0)).ctx (headPair m (vdupReq x).sc ms x.b.toNat))) ∧
    (¬ (t < 32 ∨ t = 0xFF) → (m.warp (ms.headD 0)).trap = none → VatFaults (.vdup x) (vdupReq x) s m ms))) ∧
  (∀ (x : FVABC) (s : State) (m : Mach) (ms : List Nat) (id : Nat) (v : Vat), Goes (vopenReq x) s m ms → ms.Nodup →
    let sc := (vopenReq x).sc
    let k := ms.headD 0
    let w := m.warp k
    let b := m.block w.block
    let name := headPair m sc ms x.b.toNat
    let none' := fun c => OpensTo x s m ms (.done m [c, 0])
    w.trap = none → name ≠ 0 → sought m k name = some (id, v) → v.world = b.world →
    ((v.acc = true ∧ (x.c.toNat = 0 ∨ sc = 3)) → VatFaults (.vopen x) (vopenReq x) s m ms) ∧
    (¬ (v.acc = true ∧ (x.c.toNat = 0 ∨ sc = 3)) →
      (v.st = 3 → none' 3) ∧
      (v.st = 1 → exec (.vopen x) s = .next { s with m := m.updWarp s.cur (fun w => { w with wait := some .vatMoving }) }) ∧
      (v.st ≠ 3 → v.st ≠ 1 →
        let full := b.vatHandle id = none ∧ freeVatHandle b = none
        let other := v.acc = true ∧ ∃ e ∈ m.warpsOf w.block, e.1 ≠ k ∧ e.2.vatMap = some id
        let mapped := v.acc = true ∧ ∃ y, w.vatMap = some y ∧ y ≠ id
        let wide := v.acc = true ∧ 1024 < w.na + 4 * v.size
        (full → none' 1) ∧ (¬ full → other → none' 7) ∧ (¬ full → ¬ other → mapped → none' 1) ∧
        (¬ full → ¬ other → ¬ mapped → wide → none' 9) ∧
        (¬ full → ¬ other → ¬ mapped → ¬ wide →
          (v.st ≠ 2 → OpensTo x s m ms (opening m k id x.c.toNat)) ∧
          (v.st = 2 → (freeSlot m b.core = none ∨ vatRoom m b.core v.acc v.size = false) → none' 9) ∧
          (v.st = 2 → vatRoom m b.core v.acc v.size = true → ∀ slot m2, freeSlot m b.core = some slot →
            fillHere m w.block (m.fault k sc .handle) id v b.core slot = .ok m2 →
            OpensTo x s m ms (opening m2 k id x.c.toNat))))))

/-- ATOM: new values at the home, old values returned, every other byte unchanged (R47, R183, R185, R186). -/
def Obligations.Atomics : Prop :=
  ∀ (i : Instr) (op : Nat) (x : FMA) (n : Nat) (f : Nat → Nat → Nat) (s : State) (m : Mach) (ms : List Nat)
    (ls : List (Nat × Loc)),
    atomForm i = some (op, x, n, f) → Goes (atomReq i x op) s m ms →
    (s.m.blockOf s.cur).holding = false →
    memPlaces (atomReq i x op) m s.cur 0 x.o.toNat x.h.toNat (.atom op) .atomic 2 (4 * n) = .ok ls →
    (∀ e ∈ ls, isExternal e.2.key = false ∧ s.m.poisonAt e.2.key (4 * n) = none) →
      ∃ t, ∃ ls' : List (Nat × Loc), exec i s = .next t ∧ Accessed s t ∧ t.m.storeRest = s.m.storeRest ∧ t.m.blocks = s.m.blocks ∧
        t.me.p = s.me.p ∧ t.me.fflags = s.me.fflags ∧ t.me.demot = s.me.demot ∧ GoesOn s.me t.me 1 ∧
        ls'.Perm ls ∧
        (let r := inTurn (4 * n) (fun lane old => f old (regValue s.me x.sc x.d.toNat lane n)) (Mem.read s.m.mem) ls'
         (∀ a, Mem.read t.m.mem a = r.1 a) ∧ returned s.me t.me x.sc x.d.toNat n r.2)

/-- CAS: swap on equality, old values returned, demotion of a failing path (R111, R184, R185). -/
def Obligations.CompareAndSwap : Prop :=
  ∀ (x : FCAS) (n : Nat) (s : State) (m : Mach) (ms : List Nat) (ls : List (Nat × Loc)),
    n = (if x.z = 0 then 1 else 2) → Goes (casReq x) s m ms → (s.m.blockOf s.cur).holding = false →
    memPlaces (casReq x) m s.cur x.g.toNat x.o.toNat x.h.toNat .cas .atomic 2 (4 * n) = .ok ls →
    (∀ e ∈ ls, isExternal e.2.key = false ∧ s.m.poisonAt e.2.key (4 * n) = none) →
      ∃ t, ∃ ls' : List (Nat × Loc), exec (.cas x) s = .next t ∧ Accessed s t ∧ t.m.storeRest = s.m.storeRest ∧ t.m.blocks = s.m.blocks ∧
        t.me.p = s.me.p ∧ t.me.fflags = s.me.fflags ∧ ls'.Perm ls ∧
        (let cmp := fun lane => regValue s.me x.sc x.d.toNat lane n
         let r := inTurn (4 * n) (fun lane old =>
           if old = cmp lane then regValue s.me x.sc (x.d.toNat + n) lane n else old) (Mem.read s.m.mem) ls'
         (∀ a, Mem.read t.m.mem a = r.1 a) ∧ returned s.me t.me x.sc x.d.toNat n r.2 ∧
         ((∀ e ∈ r.2, e.2 = cmp e.1) → t.me.demot = s.me.demot ∧ GoesOn s.me t.me 1) ∧
         ((∃ e ∈ r.2, e.2 ≠ cmp e.1) → t.me.demot = min 0xFFFF (s.me.demot + 1)))

/-- SNAP: sixteen counters delivered to lanes 0 to 15 and cleared in one step (R183, R184). -/
def Obligations.Snapshot : Prop :=
  ∀ (x : FSNAP) (s : State) (m : Mach) (ms : List Nat) (e : Nat × Loc),
    Goes (snapReq x) s m ms → (s.m.blockOf s.cur).holding = false →
    memPlaces (snapReq x) m s.cur x.g.toNat x.o.toNat x.h.toNat .snap .snap 2 64 = .ok [e] →
    isExternal e.2.key = false → s.m.poisonAt e.2.key 64 = none →
      ∃ t, exec (.snap x) s = .next t ∧ Accessed s t ∧ t.m.storeRest = s.m.storeRest ∧ t.m.blocks = s.m.blocks ∧
        (∀ n, n < 32 → s.me.live.getLsbD n = true → t.me.getV x.d.toNat n =
          if n < 16 then BitVec.ofNat 32 (natOfBytes (Mem.readN s.m.mem (e.2.key + 4 * n) 4)) else 0) ∧
        sameVectors s.me t.me [x.d.toNat] s.me.live ∧ t.me.s = s.me.s ∧ t.me.p = s.me.p ∧ t.me.fflags = s.me.fflags ∧
        (∀ a, Mem.read t.m.mem a = if e.2.touches 64 a then 0 else Mem.read s.m.mem a) ∧
        GoesOn s.me t.me 1

/-- FENCE.ENG waits for classes 0 to 2 and takes their timestamps; FENCE.IO retires (R187, R196). -/
def Obligations.Fences : Prop :=
  ∀ (s : State) (m : Mach) (ms : List Nat),
    (Goes fenceEngReq s m ms →
      ((∀ c, c < 3 → s.me.counter c = 0) → ∃ t, exec .fenceEng s = .next t ∧ Accessed s t ∧ t.m.rest = s.m.rest ∧
        t.me.v = s.me.v ∧ t.me.s = s.me.s ∧ t.me.p = s.me.p ∧ t.me.fflags = s.me.fflags ∧
        t.me.pts = [0, 1, 2].foldl (fun p c => max p ((Map.find? s.me.opPts c).getD 0)) s.me.pts ∧
        GoesOn s.me t.me 1) ∧
      ((∃ c, c < 3 ∧ s.me.counter c ≠ 0) →
        exec .fenceEng s = .next { s with m := m.updWarp s.cur (fun w => { w with wait := some .fence }) })) ∧
    (Goes fenceIoReq s m ms → ∃ t, exec .fenceIo s = .next t ∧ OnlyWarp s t 1 ∧ t.me.v = s.me.v ∧ t.me.s = s.me.s ∧
      t.me.p = s.me.p ∧ t.me.fflags = s.me.fflags)

/-- Size codes: bytes, registers and extension of each code; code 7 and a misplaced pair or quad fault ILLEGAL (R63).
-/
def Obligations.SizeCodes : Prop :=
  (∀ (z : BitVec 3) (n r : Nat) (sx : Bool) (bs : List Byte), sizeRow z = some (n, r, sx) → bs.length = n →
    accessBytes z.toNat = n ∧ regsOf z.toNat = r ∧ (extended z.toNat bs).length = r ∧
    (r = 1 → sx = false → ∀ x ∈ extended z.toNat bs, x.toNat = natOfBytes bs) ∧
    (sx = true → ∀ x ∈ extended z.toNat bs, x.toInt = Int.bmod (natOfBytes bs) (2 ^ (8 * n))) ∧
    (1 < r → (extended z.toNat bs).flatMap (fun x => bytesOfNat 4 x.toNat) = bs)) ∧
  (∀ i x, sizedForm i = some x → (sizeRow x.z = none → Illegal i) ∧
    ∀ n r sx, sizeRow x.z = some (n, r, sx) → x.d.toNat % r ≠ 0 → Illegal i)

/-- BRA, CALL, BRX and CALLX: where each lane goes, the call record, completion and frame (R50, R100, R101, R108). -/
def Obligations.Transfers : Prop :=
  ∀ (i : Instr) (sc g : Nat) (call : Bool) (target : Warp → Nat → Word) (c : Word) (q : Req) (s : State) (m : Mach) (ms : List Nat),
    transferForm i = some (sc, g, call, target) → reqOf i = some q → Goes q s m ms → selected s.me sc g = some c →
    (∀ n, n < 32 → c.getLsbD n = true → (target s.me n).toNat % 4 = 0) →
    roomFor s.me ((lanesOf c).map (target s.me)).dedup.length → s.me.path.st = .runnable →
      ∃ t, exec i s = .next t ∧ Steered s t ∧
        (∀ n, n < 32 → (lanesAt s.me sc).getLsbD n = true → ∃ p ∈ t.me.paths, p.mask.getLsbD n = true ∧ p.st = .runnable ∧
          p.clause = none ∧ p.pc = (if c.getLsbD n = true then target s.me n else s.me.path.pc + 4) ∧
          p.inner = (if call = true ∧ c.getLsbD n = true then some s.me.nextRec else s.me.path.inner)) ∧
        (sc = 0 → s.me.path.turn + 1 < 4096 → ∀ p ∈ s.me.paths.tail, p ∈ t.me.paths) ∧
        t.me.recs = (if call = true ∧ c ≠ 0 then Map.ins s.me.recs s.me.nextRec
          { call := true, addr := s.me.path.pc + 4, entry := c, arrival := 0, parent := s.me.path.inner, spilled := false }
          else s.me.recs) ∧
        (lanesAt s.me sc ≠ 0 → s.me.path.turn + 1 < 4096 → t.me.path.mask.getLsbD (lowest (lanesAt s.me sc)) = true)

/-- EXIT: the path's lanes exit and the last exit ends the warp; NOP has no effect; PYIELD ends the path's turn (R74,
R100, R110). -/
def Obligations.Exits : Prop :=
  (∀ (x : FSC1) (s : State) (m : Mach) (ms : List Nat), Goes (exitTReq x) s m ms → roomFor s.me 0 → s.me.recs = [] →
    ((∃ p ∈ s.me.paths.tail, p.st = .runnable) → x.sc = 0 → s.me.live &&& ~~~ s.me.path.mask ≠ 0 →
      ∃ t, exec (.exitT x) s = .next t ∧ Steered s { t with m := t.m.updWarp s.cur (fun w => { w with live := s.me.live }) } ∧
        t.me.live = s.me.live &&& ~~~ s.me.path.mask ∧ t.me.path.st = .runnable ∧
        ∀ p ∈ s.me.paths.tail, ∃ p' ∈ t.me.paths, p'.pc = p.pc ∧ p'.mask = p.mask ∧ p'.inner = p.inner ∧ p'.st = p.st) ∧
    (lanesAt s.me x.sc.toNat = s.me.live → s.me.trap = none → s.me.set = none → s.me.sample = none →
      (∀ w ∈ (s.m.blockOf s.cur).wides, w.reporter ≠ some s.cur) →
      ∃ t, exec (.exitT x) s = .next t ∧ t.p = s.p ∧ t.agenda = s.agenda ∧ t.cur = s.cur ∧ t.m.rest = s.m.rest ∧
        sameOthers s.cur s.m t.m ∧ t.me.live = 0 ∧ t.me.paths = [] ∧ t.me.run = .exited ∧ t.me.v = s.me.v ∧
        t.me.p = s.me.p)) ∧
  ((∀ (x : FSC2) (s : State) (m : Mach) (ms : List Nat), x.sc.toNat < 2 → Goes (nopReq x) s m ms →
    ∃ t, exec (.nop x) s = .next t ∧ OnlyWarp s t 1 ∧ t.me.v = s.me.v ∧ t.me.s = s.me.s ∧ t.me.p = s.me.p ∧
      t.me.fflags = s.me.fflags) ∧
  (∀ (p p' : Machine.Path) (r : List Machine.Path) (s : State) (m : Mach) (ms : List Nat), Goes pyieldReq s m ms →
    s.me.paths = p :: p' :: r → p.spilled = false → p.st = .runnable → p'.st = .runnable →
      ∃ t x, exec .pyield s = .next t ∧ Steered s t ∧ t.me.recs = s.me.recs ∧
        t.me.paths = { p' with turn := 0 } :: (r ++ [x]) ∧ x.pc = p.pc + 4 ∧ x.mask = p.mask ∧ x.inner = p.inner ∧
        x.st = .runnable) ∧
  (∀ (p : Machine.Path) (r : List Machine.Path) (s : State) (m : Mach) (ms : List Nat), Goes pyieldReq s m ms →
    s.me.paths = p :: r → p.spilled = false → p.st = .runnable → (∀ p' ∈ r, p'.st ≠ .runnable) →
      ∃ t x, exec .pyield s = .next t ∧ Steered s t ∧ t.me.recs = s.me.recs ∧ t.me.paths = x :: r ∧
        x.pc = p.pc + 4 ∧ x.mask = p.mask ∧ x.inner = p.inner ∧ x.st = .runnable ∧ x.turn = 0))

/-- What every instruction finds when it goes ahead: who has gathered and what has not changed (R86, R87, R88, R90,
R91). -/
def Obligations.RendezvousIssue : Prop :=
  ∀ (i : Instr) (q : Req) (s : State) (m : Mach) (ms : List Nat), reqOf i = some q → Goes q s m ms → q.sc < 4 →
    ((s.m.blockOf s.cur).set (s.me.set.getD 0)).st ≠ 0 → ((s.m.blockOf s.cur).set (s.me.set.getD 0)).st < 4 →
    Gathered q.sc s m ms

/-- NOP at set or block scope, BAR and GBAR: retirement of all members, the gang barrier (R79, R80, R91). -/
def Obligations.Barriers : Prop :=
  (∀ (i : Instr) (q : Req) (s : State) (m : Mach) (ms : List Nat), barrierForm i = true → reqOf i = some q → Goes q s m ms →
    ms.Nodup → ∃ t, exec i s = .next t ∧ Ends s t 1 ms m) ∧
  (∀ (s : State) (m : Mach) (ms : List Nat), Goes gbarReq s m ms → ms.Nodup →
    let bk := (m.warp (ms.headD 0)).block
    let b := m.block bk
    (b.lr.isGang = false → ∃ t, exec .gbar s = .next t ∧ Ends s t 1 ms m) ∧
    (b.lr.isGang = true →
      let m' := m.updBlock bk (fun b => { b with gbarHere := true })
      ((∀ e ∈ gangOf m' b, gbarArrived m' b.gbars e = true) →
        ∃ t, exec .gbar s = .next t ∧
          Ends s t 1 ms (m.updBlock bk (fun b => { b with gbars := b.gbars + 1, gbarHere := false }))) ∧
      ((∃ e ∈ gangOf m' b, gbarArrived m' b.gbars e = false) →
        exec .gbar s = .next { s with m := m'.updWarps ms (fun _ w => { w with wait := some .gang }) })))

/-- SJOIN, SLEAVE and SINFO: status, membership and the record of the set (R94, R95). -/
def Obligations.Sets : Prop :=
  (∀ (x : FABC) (s : State) (m : Mach) (ms : List Nat), Goes (sjoinReq x) s m ms →
    let bk := (m.warp s.cur).block
    let st := (m.blockOf s.cur).set x.b.toNat
    let n := 2 ^ x.c.toNat
    st.st < 4 →
    ∃ t, exec (.sjoin x) s = .next t ∧
      (sjoinStatus (m.warp s.cur) (m.blockOf s.cur).lr.nW st n ≠ 0 →
        Ends s t 1 [s.cur] (m.answer s.cur x.a.toNat (sjoinStatus (m.warp s.cur) (m.blockOf s.cur).lr.nW st n))) ∧
      (sjoinStatus (m.warp s.cur) (m.blockOf s.cur).lr.nW st n = 0 →
        Ends s t 1 [s.cur] (((m.updBlock bk (fun b => { b with sets := Map.ins b.sets x.b.toNat (joined (m.warp s.cur) st n) })).updWarp
          s.cur (fun w => { w with set := some x.b.toNat })).answer s.cur x.a.toNat 0))) ∧
  (∀ (x : FOA) (s : State) (m : Mach) (ms : List Nat), Goes (sleaveReq x) s m ms →
    ((m.warp s.cur).trap.isSome = true → ∃ t, exec (.sleave x) s = .next t ∧ Ends s t 1 [s.cur] (m.answer s.cur x.a.toNat 8)) ∧
    ((m.warp s.cur).trap.isSome = false → (m.warp s.cur).set = none →
      ∃ t, exec (.sleave x) s = .next t ∧ Ends s t 1 [s.cur] (m.answer s.cur x.a.toNat 6)) ∧
    ((m.warp s.cur).trap.isSome = false → (m.warp s.cur).set.isSome = true → (∀ e ∈ m.ops, e.2.namesMember s.cur = false) →
      ∃ t, exec (.sleave x) s = .next t ∧ Ends s t 1 [s.cur] ((leaveSet m s.cur).answer s.cur x.a.toNat 0))) ∧
  (∀ (x : FAB) (s : State) (m : Mach) (ms : List Nat), Goes (sinfoReq x) s m ms →
    ∃ t, exec (.sinfo x) s = .next t ∧ Ends s t 1 [s.cur] (m.updWarp s.cur (fun w =>
      (w.setS x.a.toNat (setInfo m s.cur (if x.b = 63 then (m.warp s.cur).set else some x.b.toNat)).1).setS (x.a.toNat + 1)
        (setInfo m s.cur (if x.b = 63 then (m.warp s.cur).set else some x.b.toNat)).2)))

/-- TLD and TST: the words loaded or stored in a tile, every other byte unchanged (R208, R210, R329). -/
def Obligations.TileAccess : Prop :=
  (∀ (x : FTL) (s : State) (m : Mach) (ms : List Nat) (tr : Nat × Nat) (ls : List (Nat × Nat)),
    Goes (tldReq x) s m ms → tileAccess (tldReq x) x 6 m s.cur = .ok (tr, ls) →
    (∀ e ∈ ls, s.m.poisonAt (tileKey tr e.2) 4 = none) →
      ∃ t, exec (.tld x) s = .next t ∧ Accessed s t ∧ t.m.memRest = s.m.memRest ∧ t.me.p = s.me.p ∧
        t.me.fflags = s.me.fflags ∧ GoesOn s.me t.me 1 ∧
        (x.sc = 0 → (∀ e ∈ ls, t.me.getV x.a.toNat e.1 =
            BitVec.ofNat 32 (natOfBytes (Mem.readN s.m.mem (tileKey tr e.2) 4))) ∧
          sameVectors s.me t.me [x.a.toNat] s.me.path.mask ∧ t.me.s = s.me.s) ∧
        (x.sc = 1 → (∀ e ∈ ls, t.me.getS x.a.toNat =
            BitVec.ofNat 32 (natOfBytes (Mem.readN s.m.mem (tileKey tr e.2) 4))) ∧
          sameScalars s.me t.me [s.me.sKey x.a.toNat] ∧ t.me.v = s.me.v)) ∧
  (∀ (x : FTL) (s : State) (m : Mach) (ms : List Nat) (tr : Nat × Nat) (ls : List (Nat × Nat)),
    Goes (tstReq x) s m ms → tileAccess (tstReq x) x 7 m s.cur = .ok (tr, ls) →
      ∃ t, exec (.tst x) s = .next t ∧ Accessed s t ∧ t.m.storeRest = s.m.storeRest ∧ t.m.blocks = s.m.blocks ∧
        t.me.v = s.me.v ∧ t.me.s = s.me.s ∧ t.me.p = s.me.p ∧ t.me.fflags = s.me.fflags ∧
        GoesOn s.me t.me 1 ∧
        (∀ a, (∀ e ∈ ls, ¬ (tileKey tr e.2 ≤ a ∧ a < tileKey tr e.2 + 4)) → Mem.read t.m.mem a = Mem.read s.m.mem a) ∧
        (∀ a, ∀ e ∈ ls, tileKey tr e.2 ≤ a → a < tileKey tr e.2 + 4 → ∃ e' ∈ ls, tileKey tr e'.2 ≤ a ∧
          a < tileKey tr e'.2 + 4 ∧ Mem.read t.m.mem a = storedByte s.me x.sc x.a.toNat e'.1 (a - tileKey tr e'.2)))

/-- TZERO, TFREE, TMARK, ARRIVE, TSTATE and AWAIT: states, phases and answers of the named tiles (R209, R210, R220,
R221). -/
def Obligations.TileInstructions : Prop :=
  (∀ (i : Instr) (c : BitVec 6) (f : Tile → Tile) (q : Req) (s : State) (m : Mach) (ms : List Nat) (xs : List (Nat × Nat)),
    reqOf i = some q → tableForm i (headS m q.sc ms (markField i)) = some (c, f) → Goes q s m ms → ms.Nodup →
    tileRefs q m ms c.toNat = .ok xs → markOk i (headS m q.sc ms (markField i)) → (∀ x ∈ xs, (m.tileOf x).locked = false) →
      ∃ t, exec i s = .next t ∧ Ends s t 1 ms (xs.foldl (fun m x =>
        (if clears i then m.poke (tileKey x 0) (bytesOfNat 3072 0) else m).setTileOf ms x f) m)) ∧
  ((∀ (x : FSAC) (s : State) (m : Mach) (ms : List Nat) (xs : List (Nat × Nat)), Goes (tstateReq x) s m ms → ms.Nodup →
    tileRefs (tstateReq x) m ms x.c.toNat = .ok xs →
      ∃ t, exec (.tstate x) s = .next t ∧ Ends s t 1 ms ((if x.sc.toNat = 2 then
          xs.filterMap (fun e => if e.1 ∈ ms then some (e.1, e) else none) else xs.map (fun e => (ms.headD 0, e))).foldl (fun m e =>
        (loadTile m [e.1] e.2).answer e.1 x.a.toNat ((m.tileOf e.2).st + 4 * (m.tileOf e.2).phase.toNat)) m)) ∧
  (∀ (x : FSBC) (s : State) (m : Mach) (ms : List Nat) (xs : List (Nat × Nat)), Goes (awaitReq x) s m ms → ms.Nodup →
    tileRefs (awaitReq x) m ms x.c.toNat = .ok xs → (headS m (awaitReq x).sc ms x.b.toNat).toNat < 4 →
      ((∀ tr ∈ xs, if (headS m (awaitReq x).sc ms x.b.toNat).getLsbD 1 = true then (m.tileOf tr).st = 0
          else (m.tileOf tr).phase = (headS m (awaitReq x).sc ms x.b.toNat).getLsbD 0) →
        ∃ t, exec (.await x) s = .next t ∧ Ends s t 1 ms (xs.foldl (fun m tr => loadTile m ms tr) m)) ∧
      (¬ (∀ tr ∈ xs, if (headS m (awaitReq x).sc ms x.b.toNat).getLsbD 1 = true then (m.tileOf tr).st = 0
          else (m.tileOf tr).phase = (headS m (awaitReq x).sc ms x.b.toNat).getLsbD 0) →
        exec (.await x) s = .next { s with m := m.updWarp s.cur (fun w => { w with wait := some .tileState }) })))

/-- FTEST, FCANCEL, FWAIT and CWAIT: what they answer and when they wait (R205, R207, R219). -/
def Obligations.Futures : Prop :=
  (∀ (x : FAB) (s : State) (m : Mach) (ms : List Nat), Goes (ftestReq x) s m ms →
    ∃ t, exec (.ftest x) s = .next t ∧ Ends s t 1 [s.cur] (match futureNamed m s.cur x.b.toNat with
      | none => m.answer s.cur x.a.toNat 1
      | some e => if (m.futureOf e).status = none then m.answer s.cur x.a.toNat 0
          else (seeFuture m s.cur (m.futureOf e)).answer s.cur x.a.toNat 1)) ∧
  (∀ (x : FAB) (s : State) (m : Mach) (ms : List Nat), Goes (fcancelReq x) s m ms →
    ∃ t, exec (.fcancel x) s = .next t ∧ Ends s t 1 [s.cur] (match futureNamed m s.cur x.b.toNat with
      | none => m.answer s.cur x.a.toNat 6
      | some e =>
        if (m.futureOf e).status.isSome then m.answer s.cur x.a.toNat 0
        else if (m.op (m.futureOf e).op).started = true ∨ (m.op (m.futureOf e).op).ended.isSome ∨
            (m.op (m.futureOf e).op).cls = 3 then
          m.answer s.cur x.a.toNat (if (m.op (m.futureOf e).op).ended = some 10 then 10 else 7)
        else ((m.updOp (m.futureOf e).op (fun o => { o with ended := some 10 })).count (m.ctxOf s.cur) 38 1).answer s.cur
          x.a.toNat 10)) ∧
  (∀ (x : FAB) (s : State) (m : Mach) (ms : List Nat), Goes (fwaitReq x) s m ms →
    (futureNamed m s.cur x.b.toNat = none →
      ∃ t, exec (.fwait x) s = .next t ∧ Ends s t 1 [s.cur] (m.answer s.cur x.a.toNat 6)) ∧
    (∀ e st, futureNamed m s.cur x.b.toNat = some e → (m.futureOf e).status = some st →
      ∃ t, exec (.fwait x) s = .next t ∧ Ends s t 1 [s.cur]
        (((seeFuture m s.cur (m.futureOf e)).updWarp s.cur (fun w => consume w [x.b.toNat])).answer s.cur x.a.toNat st)) ∧
    (∀ e, futureNamed m s.cur x.b.toNat = some e → (m.futureOf e).status = none →
      exec (.fwait x) s = .next { s with m := m.updWarp s.cur (fun w => { w with wait := some .future }) })) ∧
  (∀ (x : FSAB) (s : State) (m : Mach) (ms : List Nat), Goes (cwaitReq x) s m ms → ms.Nodup →
    ((∀ j ∈ ms, (m.warp j).counter x.a.toNat ≤ x.b.toNat) →
      ∃ t, exec (.cwait x) s = .next t ∧ Ends s t 1 ms (m.updWarps ms (fun _ w =>
        { w with pts := max w.pts ((Map.find? w.opPts x.a.toNat).getD 0) }))) ∧
    ((∃ j ∈ ms, x.b.toNat < (m.warp j).counter x.a.toNat) →
      exec (.cwait x) s = .next { s with m := m.updWarp s.cur (fun w => { w with wait := some .cwait }) }))

/-- COPY, GATH and SCAT: issue of the transfer to the copy engine (R202, R205, R206, R207, R210, R212, R216). -/
def Obligations.TransferIssue : Prop :=
  (∀ (x : FCOPY) (s : State) (m : Mach) (ms : List Nat) (xs : List (Nat × Nat)) (l : Layout) (e : HEntry),
    Goes (copyReq x) s m ms → ms.Nodup →
    let k := ms.headD 0
    let bk := (m.warp k).block
    let f := m.fault k x.sc.toNat .handle
    let lead := m.lead x.sc.toNat k
    let regs := rangeFrom x.cr.toNat l.dims
    let coords := regs.map (fun r => (headS m x.sc.toNat ms r).toInt)
    let parts := plainParts x.sc.toNat k xs
    tileRefs (copyReq x) m ms x.tr.toNat = .ok xs → layoutOf m bk f x.lay.toNat = .ok l → x.cr.toNat + l.dims - 1 ≤ 63 →
    layoutHandle m bk f l = .ok e → operands { copyReq x with vecs := [], srcs := regs } m lead = none →
    (∀ r ∈ regs, keyLine ((m.warp lead).sKey r) ∈ (m.warp lead).lines) →
    transferChecks (m.block bk) f l e (x.dir == 1) coords = .ok () →
    tilesFit m (x.dir == 1) (parts.map (fun p => (p.owner, p.tile))) → mustStall m 0 x.fu.toNat ms = none →
    copyQueueFull m (m.blockOf k).core = false →
      ∃ t, exec (.copy x) s = .next t ∧ Issued s t (copyReq x) 0 x.fu.toNat (x.t == 1)
        (.xfer (x.dir == 1) (x.fl == 1) false l e coords parts) none ms
        (claimed m ms (x.dir == 1) (parts.map (fun p => (p.owner, p.tile))))) ∧
  (∀ (i : Instr) (x : FGATH) (out : Bool) (s : State) (m : Mach) (ms : List Nat) (xs : List (Nat × Nat)) (l : Layout) (e : HEntry),
    rowForm i = some (x, out) → Goes (gatherScatterReq i x) s m ms → ms.Nodup →
    let k := ms.headD 0
    let bk := (m.warp k).block
    let f := m.fault k x.sc.toNat .handle
    let regs := rangeFrom x.iv.toNat (cdiv l.rows 32)
    let coords := [(headS m x.sc.toNat ms x.c0.toNat).toInt]
    let parts := (plainParts x.sc.toNat k xs).map (fun p => { p with idx := rowIndices (m.warp p.warp) x.iv.toNat l.rows })
    tileRefs (gatherScatterReq i x) m ms x.tr.toNat = .ok xs → layoutOf m bk f x.lay.toNat = .ok l →
    l.dims = 2 → (32 < l.rows → x.iv.toNat % 2 = 0 ∧ x.iv.toNat + 1 ≤ 47 ∧ ∀ j ∈ ms, x.iv.toNat + 1 < (m.warp j).nv) →
    layoutHandle m bk f l = .ok e →
    (∀ j ∈ ms, operands { gatherScatterReq i x with vecs := regs, srcs := [] } m j = none ∧ ∀ r ∈ regs, r ∈ (m.warp j).lines) →
    transferChecks (m.block bk) f l e out coords = .ok () →
    tilesFit m out (parts.map (fun p => (p.owner, p.tile))) → mustStall m 0 x.fu.toNat ms = none →
    copyQueueFull m (m.blockOf k).core = false →
      ∃ t, exec i s = .next t ∧ Issued s t (gatherScatterReq i x) 0 x.fu.toNat (x.t == 1)
        (.xfer out (x.fl == 1) true l e coords parts) none ms (claimed m ms out (parts.map (fun p => (p.owner, p.tile)))))

/-- COLL: issue of a collective to the team's engine (R202, R205, R206, R217, R218). -/
def Obligations.CollectiveIssue : Prop :=
  ∀ (x : FCOLL) (s : State) (m : Mach) (ms : List Nat) (g : GroupEntry) (e : HEntry), Goes (collReq x) s m ms → ms.Nodup →
    let k := ms.headD 0
    let b := m.blockOf k
    let f := m.fault k (collReq x).sc .handle
    let rank := (headS m x.sc.toNat ms x.rb.toNat).toNat
    let h := (headS m x.sc.toNat ms (x.rb.toNat + 1)).toNat
    let off := (headS m x.sc.toNat ms (x.rb.toNat + 2)).toNat
    let count := (headS m x.sc.toNat ms (x.rb.toNat + 3)).toNat
    groupOf m (m.warp k).block f x.grp.toNat = .ok (some g) → rank < g.ranks → bulkHandle m (m.warp k).block f h = .ok e →
    bufferChecks b f h off (collBytes x.kind.toNat x.fmt.toNat g.ranks count) (collSize x.fmt.toNat) 3 e = .ok () →
    mustStall m 1 x.fu.toNat ms = none → collQueueFull m b.core = false →
    let m1 := commit m k
    let key := 256 * x.grp.toNat + rank
    let ord := (Map.find? (m1.ctx b.ctx).colls key).getD 0
      ∃ t, exec (.coll x) s = .next t ∧ Issued s t (collReq x) 1 x.fu.toNat (x.t == 1)
        (.coll x.kind.toNat x.red.toNat x.fmt.toNat x.grp.toNat rank g.ranks ord count h off e)
        (if count = 0 then some 0 else none) ms
        ((m1.updCtx b.ctx (fun c => { c with
          colls := Map.ins c.colls key (ord + 1),
          zeros := if count = 0 then ((x.grp.toNat, ord, rank), (x.kind.toNat, x.red.toNat, x.fmt.toNat)) :: c.zeros else c.zeros })).count b.ctx 34 1)

/-- SAMPLE: DENIED in trap mode, BUSY while armed, else armed and counted (R345). -/
def Obligations.Samples : Prop :=
  ∀ (x : FABC) (s : State) (m : Mach) (ms : List Nat) (e : HEntry), Goes (sampleReq x) s m ms →
    let w := m.warp s.cur
    let h := (w.getS x.b.toNat).toNat
    let off := w.getS x.c.toNat
    bulkHandle m w.block (m.fault s.cur 1 .handle) h = .ok e →
    bufferChecks (m.blockOf s.cur) (m.fault s.cur 1 .handle) h off.toNat 64 64 2 e = .ok () →
    bufferPages m w.block (m.fault s.cur 1 .handle) h off.toNat 64 .write e = .ok () →
    (w.trap.isSome = true → ∃ t, exec (.sample x) s = .next t ∧ Ends s t 1 [s.cur] (m.answer s.cur x.a.toNat 8)) ∧
    (w.trap.isSome = false → w.sample.isSome = true →
      ∃ t, exec (.sample x) s = .next t ∧ Ends s t 1 [s.cur] (m.answer s.cur x.a.toNat 7)) ∧
    (w.trap.isSome = false → w.sample = none → mustStall m 0 0 [s.cur] = none →
      ∃ t, exec (.sample x) s = .next t ∧ Issued s t (sampleReq x) 0 0 false (.sample h off.toNat e []) none [s.cur]
        (((commit m s.cur).updWarp s.cur (fun w => { w with sample := some (h, off) })).answer s.cur x.a.toNat 0))

/-- LAUNCH, ARM and DISARM: the pending set and the arm table (R262, R265, R266, R282). -/
def Obligations.LaunchForms : Prop :=
  (∀ (x : FABC) (s : State) (m : Mach) (ms : List Nat) (raw0 : List Byte), Goes (launchReq x) s m ms →
    let w := m.warp s.cur
    let b := m.blockOf s.cur
    let h := (w.getS x.b.toNat).toNat
    let off := (w.getS x.c.toNat).toNat
    readRecord m w.block (m.fault s.cur 1 .handle) h off [] = .ok raw0 → mustStall m 3 x.a.toNat [s.cur] = none →
    (w.trap.isSome = true →
      ∃ t, exec (.launch x) s = .next t ∧
        Issued s t (launchReq x) 3 x.a.toNat false (.launch 0) (some 8) [s.cur] (commit m s.cur)) ∧
    (w.trap.isSome = false → ∀ (slot : Nat) (raw : List Byte) (bad : Bool), freePending (m.ctx b.ctx) = some slot →
      readRecord (commit m s.cur) w.block ((commit m s.cur).fault s.cur 1 .handle) h off [] = .ok raw →
      malformed (commit m s.cur) b.ctx b.world (LaunchRec.ofBytes raw) = .ok bad →
      ∃ t, Issued s t (launchReq x) 3 x.a.toNat false (.launch ((commit m s.cur).ctx b.ctx).nextSeq) none [s.cur] (commit m s.cur) ∧
        exec (.launch x) s = .next { t with m := enterPending s.p t.m b.ctx raw (LaunchRec.ofBytes raw) 1 slot t.me.pts bad })) ∧
  ((∀ (x : FABC) (s : State) (m : Mach) (ms : List Nat) (raw : List Byte) (bad : Bool), Goes (armReq x) s m ms →
    let w := m.warp s.cur
    let b := m.blockOf s.cur
    let tag := (w.getS x.b.toNat).toNat
    let st := armStatus w.trap.isSome bad (LaunchRec.ofBytes raw) (m.ctx b.ctx).arms tag
    readRecord m w.block (m.fault s.cur 1 .handle) (w.getS x.c.toNat).toNat (w.getS (x.c.toNat + 1)).toNat
      (if b.holding then b.pail else []) = .ok raw →
    (w.trap.isSome = false → malformed m b.ctx b.world (LaunchRec.ofBytes raw) = .ok bad) →
    ∃ t, exec (.arm x) s = .next t ∧ Ends s t 1 [s.cur]
      ((if st = 0 then m.updCtx b.ctx (fun c => { c with arms := Map.ins c.arms tag raw }) else m).answer s.cur x.a.toNat st)) ∧
  (∀ (x : FAB) (s : State) (m : Mach) (ms : List Nat), Goes (disarmReq x) s m ms →
    let w := m.warp s.cur
    let c := m.ctxOf s.cur
    let tag := (w.getS x.b.toNat).toNat
    let st := disarmStatus w.trap.isSome (m.ctx c).arms tag
    ∃ t, exec (.disarm x) s = .next t ∧ Ends s t 1 [s.cur]
      ((if st = 0 then m.updCtx c (fun c => { c with arms := Map.del c.arms tag }) else m).answer s.cur x.a.toNat st)))

/-- CLK reads both words of one reading; YIELD ends the slice as a posted deadline or a competitor asks (R274, R283).
-/
def Obligations.ClocksAndYield : Prop :=
  (∀ (x : FAB) (s : State) (m : Mach) (ms : List Nat), Goes (clkReq x) s m ms →
    ∃ t, exec (.clk x) s = .next t ∧ m.clk ≤ m.tickOn.clk ∧ m.ns ≤ m.tickOn.ns ∧
      Ends s t 1 [s.cur] ((m.tickOn.answer s.cur x.a.toNat (if x.b = 0 then m.tickOn.clk else m.tickOn.ns)).answer s.cur
        (x.a.toNat + 1) ((if x.b = 0 then m.tickOn.clk else m.tickOn.ns) / 2 ^ 32))) ∧
  (∀ (s : State) (m : Mach) (ms : List Nat), Goes yieldReq s m ms →
    let c := m.ctxOf s.cur
    ((m.warp s.cur).trap.isSome = true → ∃ t, exec .yield s = .next t ∧ Ends s t 1 [s.cur] m) ∧
    ((m.warp s.cur).trap.isSome = false → (m.ctx c).yieldDl = none → competitors m c = [] →
      ∃ t, exec .yield s = .next t ∧ Ends s t 1 [s.cur] m) ∧
    ((m.warp s.cur).trap.isSome = false → (m.ctx c).yieldDl = none → competitors m c ≠ [] →
      ∃ t, exec .yield s = .next t ∧ Ends s t 1 [s.cur] (endSlice m c)) ∧
    ((m.warp s.cur).trap.isSome = false → ∀ d, (m.ctx c).yieldDl = some d →
      ∃ t, exec .yield s = .next t ∧ Ends s t 1 [s.cur]
        (if m.ns ≤ d then ((endSlice m c).count c 61 1).updCtx c (fun x => { x with yieldDl := none }) else m)))

/-- SRD and SWR: values read, registers written, and the faults of a write (R25, R291). -/
def Obligations.SpecialRegisters : Prop :=
  (∀ (x : FAB) (s : State) (m : Mach) (ms : List Nat), Goes (srdReq x) s m ms →
    let m1 := if x.b.toNat ≤ 3 ∨ x.b.toNat = 14 ∨ x.b.toNat = 15 then m.tickOn else m
    ∃ t, exec (.srd x) s = .next t ∧ Ends s t 1 [s.cur] (m1.answer s.cur x.a.toNat (srRead m1 s.cur x.b.toNat)) ∧
      ∀ v, srField m1 s.cur x.b.toNat = some v → srRead m1 s.cur x.b.toNat = v) ∧
  (∀ (x : FAB) (s : State) (m : Mach) (ms : List Nat), Goes (swrReq x) s m ms →
    let v := (m.warp s.cur).getS x.a.toNat
    (x.b = 4 → v.toNat < 4 → ∃ t, exec (.swr x) s = .next t ∧
      Ends s t 1 [s.cur] (m.updWarp s.cur (fun w => { w with fmode := v }))) ∧
    (x.b = 5 → v.toNat < 32 → ∃ t, exec (.swr x) s = .next t ∧
      Ends s t 1 [s.cur] (m.updWarp s.cur (fun w => { w with fflags := v }))) ∧
    (x.b = 33 → v.toNat % 4 = 0 → ∃ t, exec (.swr x) s = .next t ∧
      Ends s t 1 [s.cur] (m.updWarp s.cur (fun w =>
        { w with tpc := v, trap := w.trap.map (fun (t : TrapSt) => { t with tpcWritten := true }) }))) ∧
    (x.b ≠ 4 → x.b ≠ 5 → x.b ≠ 33 → exec (.swr x) s = .next (s.trapped m
      { m.fault s.cur 1 .perm with tinfo := BitVec.ofNat 32 (5 * 4096) })) ∧
    (x.b = 4 ∧ 4 ≤ v.toNat ∨ x.b = 5 ∧ 32 ≤ v.toNat → exec (.swr x) s = .next (s.trapped m
      { m.fault s.cur 1 .illegal with tinfo := word1 (.swr x) })) ∧
    (x.b = 33 → v.toNat % 4 ≠ 0 → exec (.swr x) s = .next (s.trapped m
      { m.fault s.cur 1 .align with tinfo := BitVec.ofNat 32 (5 * 4096) })))

/-- GROW and SHRINK: grant, refusal and waiting, and the units returned (R113, R121, R122, R123). -/
def Obligations.Pools : Prop :=
  (∀ (x : FABC) (s : State) (m : Mach) (ms : List Nat), Goes (growReq x) s m ms →
    let w := m.warp s.cur
    let b := m.blockOf s.cur
    let cls := x.b.toNat
    let n := poolUnits cls x.c.toNat
    let done := fun (m' : Mach) (st : Nat) => ∃ t, exec (.grow x) s = .next t ∧
      Ends s t 1 [s.cur] ((m'.count b.ctx (if st = 0 then 4 else 5) 1).answer s.cur x.a.toNat st)
    let most := if cls = 0 then 48 else if cls = 1 then 16 else 1024
    let never := n + heldBy m w.block cls +
      (((seatedOn m b.core).filter (fun e => decide (e.2.age < b.age))).map (fun e => heldBy m e.1 cls)).sum > capacity m b.core cls
    let mine := (∀ e ∈ waiters m b.core cls, e.1 = s.cur ∨ 32 * b.age + w.idx < e.2) ∧ n ≤ freeUnits m b.core cls
    let m0 := m.updWarp s.cur (fun w => { w with grow := none, granted := false })
    let given := (if cls = 0 then createLines m0 s.cur (rangeFrom (m0.warp s.cur).nv n) else m0).updWarp s.cur
      (fun w => w.setHave cls (w.have cls + n))
    let asks := w.grow = none ∧ (w.have cls + n > most ∨ never)
    (w.trap.isSome = true → done m 8) ∧
    (w.trap.isSome = false → w.granted = true → done given 0) ∧
    (w.trap.isSome = false → w.granted = false → asks → done m 1) ∧
    (w.trap.isSome = false → w.granted = false → ¬ asks → mine → done given 0) ∧
    (w.trap.isSome = false → w.granted = false → ¬ asks → ¬ mine →
      exec (.grow x) s = .next { s with m := m.updWarp s.cur (fun w => { w with grow := some (cls, n), wait := some .grow }) })) ∧
  (∀ (x : FABC) (s : State) (m : Mach) (ms : List Nat), Goes (shrinkReq x) s m ms →
    let w := m.warp s.cur
    let cls := x.b.toNat
    let n := poolUnits cls x.c.toNat
    let done := fun (m' : Mach) (st : Nat) => ∃ t, exec (.shrink x) s = .next t ∧ Ends s t 1 [s.cur] (m'.answer s.cur x.a.toNat st)
    let least := if cls = 0 then 8 else 0
    (w.trap.isSome = true → done m 8) ∧
    (w.trap.isSome = false → w.have cls < n + least → done m 1) ∧
    (w.trap.isSome = false → n + least ≤ w.have cls → inFlight m s.cur = 0 → tilesBusy w = false →
      done (takeUnits m s.cur cls n) 0) ∧
    (w.trap.isSome = false → n + least ≤ w.have cls → inFlight m s.cur ≠ 0 ∨ tilesBusy w = true →
      exec (.shrink x) s = .next { s with m := m.updWarp s.cur (fun w => { w with wait := some .inFlight }) }))

/-- Entry into trap mode: saved registers, frozen paths, handler; TRAP and BRK; a fault in trap mode stops the context
(R286, R287, R291, R293). -/
def Obligations.TrapEntryRules : Prop :=
  (∀ (m : Mach) (k : Nat) (f : FaultInfo), (Map.find? m.warps k).isSome = true →
    ((m.warp k).trap = none → f.cause ≠ .trapi → f.cause ≠ .brk → f.cause ≠ .preempt → ∀ m1,
      putRecord m (m.ctxOf k) (recordBytes m 1 k f 0 (tclass (m.warp k) f.sc 0 0) 0) = .written m1 →
      Entered k f 0 (tclass (m.warp k) f.sc 0 0) m1 (deliver m k (.trap f))) ∧
    ((m.warp k).trap.isSome = true → deliver m k (.trap f) = stopCtx m (m.ctxOf k) 2 (some (k, f)))) ∧
  ((∀ (x : FTRAP) (s : State) (m : Mach) (ms : List Nat), Goes (trapReq x) s m ms →
    let f := { m.fault s.cur x.sc.toNat .trapi with tpc := (m.warp s.cur).path.pc + 4, tinfo := x.code.setWidth 32 }
    ((m.warp s.cur).trap = none → ∃ t m1, exec (.trap x) s = .next t ∧ Ends s { t with m := m1 } 1 [s.cur] m ∧
      Entered s.cur f 0 (tclass (m.warp s.cur) x.sc.toNat 0 0) m1 t.m) ∧
    ((m.warp s.cur).trap.isSome = true → exec (.trap x) s = .next { s with m := stopCtx m (m.ctxOf s.cur) 2 (some (s.cur, f)) })) ∧
  (∀ (x : FBRK) (s : State) (m : Mach) (ms : List Nat), Goes (brkReq x) s m ms →
    let f := { m.fault s.cur 1 .brk with tpc := (m.warp s.cur).path.pc + 4, tinfo := x.code.setWidth 32 }
    ((m.warp s.cur).trap = none → debugged m (m.ctxOf s.cur) = false → ∃ t m1, exec (.brk x) s = .next t ∧
      Ends s { t with m := m1 } 1 [s.cur] m ∧ Entered s.cur f 0 (tclass (m.warp s.cur) 1 0 0) m1 t.m) ∧
    ((m.warp s.cur).trap = none → debugged m (m.ctxOf s.cur) = true → ∀ m1,
      putRecord m (m.ctxOf s.cur) (recordBytes m 1 s.cur f 0 (tclass (m.warp s.cur) 1 0 0) 0) = .written m1 →
      ∃ t, exec (.brk x) s = .next t ∧ Ends s t 1 [s.cur]
        (m1.updWarp s.cur (fun w => { w with run := .debug, pass := false, halt := w.halt && !false }))) ∧
    ((m.warp s.cur).trap.isSome = true → exec (.brk x) s = .next { s with m := stopCtx m (m.ctxOf s.cur) 2 (some (s.cur, f)) })))

/-- TRET: resume at TPC, exit of the warp or the block, stop of the context (R289). -/
def Obligations.TrapReturn : Prop :=
  ∀ (x : FOA) (s : State) (m : Mach) (ms : List Nat), Goes (tretReq x) s m ms →
    let w := m.warp s.cur
    let mode := w.getS x.a.toNat
    let m1 := m.updWarp s.cur (retireWarp (tretReq x) true)
    (mode.toNat = 0 → ∀ (tr : TrapSt) (p : Machine.Path) (r : List Machine.Path), w.trap = some tr → tr.paths = p :: r →
      (∀ p ∈ tr.paths, p.mask &&& w.live ≠ 0) → (∀ y ∈ (m.blockOf s.cur).wides, y.reporter ≠ some s.cur ∧ y.members.getLsbD w.idx = false) →
      w.preemptDue = none →
      ∃ t, exec (.tret x) s = .next t ∧ t.p = s.p ∧ t.agenda = s.agenda ∧ t.cur = s.cur ∧ t.m.rest = s.m.rest ∧
        sameOthers s.cur s.m t.m ∧ t.me.trap = none ∧ t.me.run = (if tr.debug = true then .debug else if tr.susp = true then .suspended else .ready) ∧
        t.me.recs = tr.recs ∧ t.me.v = w.v ∧ t.me.p = w.p ∧ t.me.fflags = w.fflags ∧
        (∀ n, n < 64 → Map.get t.me.s n = Map.get w.s n) ∧ (∀ n, 64 ≤ n → n < 80 → Map.get t.me.s n = 0) ∧
        ∃ c, t.me.paths = { livePath w.live p with pc := w.tpc, clause := c } :: r.map (livePath w.live) ∧
          (tr.tpcWritten = true → c = none) ∧ (∀ cl, p.clause = some cl → cl.stop = w.tpc → c = none) ∧
          (tr.tpcWritten = false → ∀ cl, p.clause = some cl → cl.stop ≠ w.tpc → c = some cl)) ∧
    (mode.toNat = 1 → exec (.tret x) s = .next { s with m := exitWarp m1 s.cur }) ∧
    (mode.toNat = 2 → exec (.tret x) s = .next { s with m := (m1.liveOf (m1.warp s.cur).block).foldl exitWarp (m1.updWarps (m1.liveOf (m1.warp s.cur).block) (fun _ w => { w with sig := none })) }) ∧
    (mode.toNat = 3 → exec (.tret x) s = .next { s with m := stopCtx m1 (m1.ctxOf s.cur) 3 none }) ∧
    (3 < mode.toNat → exec (.tret x) s = .next { s with m := stopCtx m1 (m1.ctxOf s.cur) 4 none })

/-- VCREATE: its statuses, the vat made, and its frame (R242, R243, R245, R249, R257). -/
def Obligations.VatCreation : Prop :=
  (∀ (x : FVABC) (s : State) (m : Mach) (ms : List Nat), Goes (vcreateReq x) s m ms → ms.Nodup →
    let sc := (vcreateReq x).sc
    let k := ms.headD 0
    let w := m.warp k
    let b := m.block w.block
    let name := headPair m sc ms x.b.toNat
    let d := headS m sc ms x.c.toNat
    let back := (headS m sc ms (x.c.toNat + 1)).toNat
    let off := (headS m sc ms (x.c.toNat + 2)).toNat
    let bytes := if descK d = true then 6400 * descSize d else 4096 * descSize d
    let f := m.fault k sc .handle
    let bad := name = 0 ∨ descOk d = false ∨ headS m sc ms (x.c.toNat + 3) ≠ 0 ∨ (descK d = true ∧ sc = 3)
    let checked := descB d = true → ∃ e, backingHandle m w.block f back off bytes 3 b.world = .ok e
    let mc := commit m k
    let ends := fun xs => VatEnds (.vcreate x) s ms name x.a.toNat mc xs false
    (w.trap.isSome = true → VatAnswers (.vcreate x) s ms x.a.toNat mc [8, 0]) ∧
    (w.trap = none → bad → VatFaults (.vcreate x) (vcreateReq x) s m ms) ∧
    (w.trap = none → ¬ bad → checked → (mc.ctx b.ctx).hasTeam (teamOf b.core) = false → ends [8, 0]) ∧
    (w.trap = none → ¬ bad → checked → (mc.ctx b.ctx).hasTeam (teamOf b.core) = true →
      (∀ id v, mc.vatNamed b.ctx name = some (id, v) → ends [if v.world = b.world then 5 else 8, 0]) ∧
      (mc.vatNamed b.ctx name = none →
        (freeVatHandle b = none → ends [1, 0]) ∧
        (∀ h, freeVatHandle b = some h →
          (descK d = true → w.vatMap.isSome = true → ends [1, 0]) ∧
          (¬ (descK d = true ∧ w.vatMap.isSome = true) →
            (freeSlot mc b.core = none ∨ directoryFull mc b.ctx (descB d) bytes = true ∨ vatRoom mc b.core (descK d) (descSize d) = false ∨
              (descK d = true ∧ 1024 < w.na + 4 * descSize d) → ends [9, 0]) ∧
            (∀ slot, freeSlot mc b.core = some slot → directoryFull mc b.ctx (descB d) bytes = false →
              vatRoom mc b.core (descK d) (descSize d) = true → (descK d = true → w.na + 4 * descSize d ≤ 1024) →
              let m1 := makeVat mc k name d (if descB d = true then some (back, off) else none) h slot
              (descL d = false → VatEnds (.vcreate x) s ms name x.a.toNat m1 [0, 4064 + h] true) ∧
              (descL d = true → ∀ m2, fillHere m1 w.block f (m1.nextVat - 1) (m1.vat (m1.nextVat - 1)) b.core slot = .ok m2 →
                VatEnds (.vcreate x) s ms name x.a.toNat m2 [0, 4064 + h] true))))))) ∧
  (∀ (m : Mach) (k name : Nat) (d : Word) (back : Option (Nat × Nat)) (h slot : Nat),
    let bk := (m.warp k).block
    let m1 := makeVat m k name d back h slot
    m1.nextVat = m.nextVat + 1 ∧ m1.vat m.nextVat = newVat (vatClocks m (m.block bk).ctx) bk name d back slot ∧
    (∀ id, id ≠ m.nextVat → Map.find? m1.vats id = Map.find? m.vats id) ∧ m1.mem = m.mem ∧
    ((Map.find? m.blocks bk).isSome = true → m1.block bk = { m.block bk with vatH := Map.ins (m.block bk).vatH h (m.nextVat, !descK d) }) ∧
    ((Map.find? m.warps k).isSome = true → m1.warp k = if descK d = true then { m.warp k with vatMap := some m.nextVat } else m.warp k))

/-- VHAND, VDROP and VDUP: passing the writer role, ending a vat, making a replica (R244, R246, R247, R249, R252,
R257). -/
def Obligations.VatRoles : Prop :=
  (∀ (x : FVAB) (s : State) (m : Mach) (ms : List Nat), Goes (vhandReq x) s m ms → ms.Nodup →
    let sc := (vhandReq x).sc
    let k := ms.headD 0
    let w := m.warp k
    let b := m.block w.block
    let h := (headS m sc ms x.b.toNat).toNat
    let entry := Map.find? b.vatH (h - 4064)
    let mc := commit m k
    (w.trap.isSome = true → VatAnswers (.vhand x) s ms x.a.toNat mc [8]) ∧
    (w.trap = none → (h < 4064 ∨ 4095 < h ∨ entry = none) → VatFaults (.vhand x) (vhandReq x) s m ms) ∧
    (∀ id wr, w.trap = none → 4064 ≤ h → h ≤ 4095 → entry = some (id, wr) →
      let v := m.vat id
      let ends := VatEnds (.vhand x) s ms v.name x.a.toNat
      (v.writer ≠ some w.block → ends mc [8] false) ∧
      (v.writer = some w.block → v.acc = true → (sc = 3 ∨ w.vatMap ≠ some id) → VatFaults (.vhand x) (vhandReq x) s m ms) ∧
      (v.writer = some w.block → v.acc = true → sc ≠ 3 → w.vatMap = some id → vatBusy m id = true →
        exec (.vhand x) s = .next { s with m := m.updWarp s.cur (fun w => { w with wait := some .matrix }) }) ∧
      (∀ m2, v.writer = some w.block → (v.acc = true → sc ≠ 3 ∧ w.vatMap = some id ∧ vatBusy m id = false) →
        writeBack (vatStep mc ms b.ctx v.name true) w.block (m.fault k sc .handle) id v = .ok m2 →
        ends (passRole (if v.acc = true then closeVat m2 w.block id
          else m2.updBlock w.block (fun b => { b with vatH := Map.ins b.vatH (h - 4064) (id, false) })) id) [0] true))) ∧
  (∀ (x : FVAB) (s : State) (m : Mach) (ms : List Nat) (id : Nat) (v : Vat), Goes (vdropReq x) s m ms → ms.Nodup →
    let k := ms.headD 0
    let w := m.warp k
    let b := m.block w.block
    let name := headPair m (vdropReq x).sc ms x.b.toNat
    let mc := commit m k
    let ends := VatEnds (.vdrop x) s ms name x.a.toNat
    w.trap = none → name ≠ 0 → m.vatNamed b.ctx name = some (id, v) → v.world = b.world →
    (v.st < 2 → v.writer ≠ some w.block → ends mc [8] false) ∧
    (v.st < 2 → v.writer = some w.block → (∃ y ∈ v.opens, y ≠ w.block) → ends mc [7] false) ∧
    (v.st < 2 → v.writer = some w.block → (∀ y ∈ v.opens, y = w.block) → v.acc = true → vatBusy m id = true →
      exec (.vdrop x) s = .next { s with m := m.updWarp s.cur (fun w => { w with wait := some .matrix }) }) ∧
    ((v.st < 2 → v.writer = some w.block ∧ (∀ y ∈ v.opens, y = w.block) ∧ (v.acc = true → vatBusy m id = false)) →
      ends (removeVat mc id) [0] true)) ∧
  (∀ (x : FVABC) (s : State) (m : Mach) (ms : List Nat) (id : Nat) (v : Vat), Goes (vdupReq x) s m ms → ms.Nodup →
    let k := ms.headD 0
    let w := m.warp k
    let b := m.blockOf k
    let name := headPair m (vdupReq x).sc ms x.b.toNat
    let t := (headS m (vdupReq x).sc ms x.c.toNat).toNat
    let mc := commit m k
    let ends := fun xs => VatEnds (.vdup x) s ms name x.a.toNat mc xs false
    let taken := t ≠ 0xFF ∧ v.teams.contains t = true
    let outside := t ≠ 0xFF ∧ (m.ctx b.ctx).hasTeam t = false
    w.trap = none → name ≠ 0 → (t < 32 ∨ t = 0xFF) → m.vatNamed b.ctx name = some (id, v) → v.world = b.world →
    (v.acc = true → ends [1, 0]) ∧
    (v.acc = false → v.st = 1 → exec (.vdup x) s = .next { s with m := m.updWarp s.cur (fun w => { w with wait := some .vatMoving }) }) ∧
    (v.acc = false → v.st = 3 → ends [3, 0]) ∧ (v.acc = false → v.st = 2 → ends [1, 0]) ∧
    (v.acc = false → v.st = 0 → v.writer.isSome = true → ends [7, 0]) ∧
    (v.acc = false → v.st = 0 → v.writer = none → outside → ends [8, 0]) ∧
    (v.acc = false → v.st = 0 → v.writer = none → ¬ outside → taken → ends [1, 0]) ∧
    (v.acc = false → v.st = 0 → v.writer = none → ¬ outside → ¬ taken →
      ((3 ≤ v.replicas.length ∨ dupCore m s.p.isFenced v t = none) → ends [9, 0]) ∧
      (∀ core home, v.replicas.length < 3 → dupCore m s.p.isFenced v t = some core → v.primary = some home →
        let m1 := vatClocks mc b.ctx
        let m2 := (markedWrite m1 (vatBase id core) (vatContent m1 id v home)).updVat id (fun v =>
          { v with replicas := v.replicas ++ [core], slots := Map.ins v.slots core ((freeSlot m1 core).getD 0) })
        VatEnds (.vdup x) s ms name x.a.toNat (m2.count b.ctx 53 v.imageBytes) [0, core] true)))

/-- Events of the engines: start, completion, collectives and matrix commands (R203, R204, R205, R207, R218, R235). -/
def Obligations.EngineEvents : Prop :=
  (∀ (op : Nat) (s : State) (o : Op), Map.find? s.m.ops op = some o →
    (o.canStart s.m op = false → NotDue (.engineOpStart op) s) ∧
    (o.canStart s.m op = true → o.cls = 1 → Does (.engineOpStart op) s (s.m.updOp op (fun o => { o with started := true }))) ∧
    (∀ m pts counter n, o.canStart s.m op = true → o.cls ≠ 1 → copyEffect (portServed s.m o) op o = .ok (m, pts, counter, n) →
      Does (.engineOpStart op) s ((m.updOp op (fun o => { o with started := true, ended := some 0, pts := pts })).count o.ctx counter n)) ∧
    (∀ e, o.canStart s.m op = true → o.cls ≠ 1 → copyEffect (portServed s.m o) op o = .error e →
      Does (.engineOpStart op) s (opFails (portServed s.m o) op o e))) ∧
  (∀ (op : Nat) (s : State) (o : Op), Map.find? s.m.ops op = some o →
    (o.ended = none ∨ o.behind s.m op = true → NotDue (.engineOpComplete op) s) ∧
    (∀ st, o.ended = some st → o.behind s.m op = false → Does (.engineOpComplete op) s (completeOp s.m op o st))) ∧
  (∀ (o : Op) (st : Nat) (w : Warp) (entry : Option Nat), (settleWarp o st w entry).counter o.cls = w.counter o.cls - 1 ∧
    (∀ e f r, entry = some e → Map.find? w.futs e = some f → f.reg = some r →
      Map.get (settleWarp o st w entry).s r = BitVec.ofNat 32 st ∧
      Map.find? (settleWarp o st w entry).futs e = some { f with status := some st, pts := o.pts })) ∧
  (∀ (ctx grp seq : Nat) (remote : List RankPart) (s : State),
    let es := paired s.m ctx grp seq
    let zs := zerosOf s.m ctx grp seq
    let ids := es.map (·.1)
    let all := collReady es (zs.map (·.1)) remote
    let agree := ∀ w ∈ collWhats es zs remote, w = (collWhats es zs remote).headD (0, 0, 0, 0)
    (all = false → NotDue (.collComplete ctx grp seq remote) s) ∧
    (all = true → ¬ agree →
      Does (.collComplete ctx grp seq remote) s (completeAll (ids.foldl (fun m id => m.updOp id (fun o => { o with ended := some 1 })) s.m) ids)) ∧
    (∀ m, all = true → agree → exchange s.m es remote = .ok m → Does (.collComplete ctx grp seq remote) s (completeAll m ids)) ∧
    (∀ id o f, all = true → agree → exchange s.m es remote = .error (id, o, f) →
      Does (.collComplete ctx grp seq remote) s (completeAll (opFails s.m id o f) ids))) ∧
  (∀ (ctx grp seq : Nat) (s : State) (id : Nat) (o : Op) (es : List (Nat × Op)) (g : GroupEntry), paired s.m ctx grp seq = (id, o) :: es →
    groupOf s.m o.block default grp = .ok (some g) →
    (g.remote = true ∨ (g.timeout ≠ 0 ∧ es.length + 1 + (zerosOf s.m ctx grp seq).length < g.ranks)) →
    Does (.collTimeout ctx grp seq) s (completeAll ((id :: es.map (·.1)).foldl (fun m id =>
      m.updOp id (fun o => { o with ended := some 11, held := none })) s.m) (id :: es.map (·.1)))) ∧
  (∀ (op : Nat) (s : State) (o : Op), Map.find? s.m.ops op = some o →
    (o.cls ≠ 2 ∨ o.held.isSome = true ∨ o.behind s.m op = true → NotDue (.matrixCommandComplete op) s) ∧
    (o.cls = 2 → o.held = none → o.behind s.m op = false →
      (∀ st, o.ended = some st → Does (.matrixCommandComplete op) s (completeOp s.m op o st)) ∧
      (∀ m unit, o.ended = none → arrayCheck s.m o = (m, some unit) → Does (.matrixCommandComplete op) s (arrayFails m op o unit)) ∧
      (∀ m m2 pts, o.ended = none → arrayCheck s.m o = (m, none) → matrixEffect m o = .ok (m2, pts) →
        Does (.matrixCommandComplete op) s (completeOp m2 op { o with pts := pts } 0)) ∧
      (∀ m off, o.ended = none → arrayCheck s.m o = (m, none) → matrixEffect m o = .error (.denied off) →
        Does (.matrixCommandComplete op) s (completeOp m op { o with info := { (default : FaultInfo) with taddr := BitVec.ofNat 32 off } } 8)) ∧
      (∀ m va size off, o.ended = none → arrayCheck s.m o = (m, none) → matrixEffect m o = .error (.miss va size off) →
        Does (.matrixCommandComplete op) s (opFails m op o (.miss va size off)))))

/-- Events of warps: activation, turns, leases, rebase, grants, fault queue and replies (R76, R85, R110, R122, R179,
R195, R293, R294). -/
def Obligations.WarpEvents : Prop :=
  (∀ (k : Nat) (w : Warp) (s : State), Map.find? s.m.warps k = some w →
    let act := activeIn s.m (s.m.block w.block).core (w.idx % 4)
    let may := w.active = false ∧ hasReady s k = true ∧ (s.m.block w.block).seated = true
    let on := fun m : Mach => m.updWarp k (fun w => { w with active := true, justActive := true })
    (¬ may → NotDue (.parkedWarpActivation k none) s) ∧
    (may → act.length < 8 → Does (.parkedWarpActivation k none) s (on s.m)) ∧
    (may → 8 ≤ act.length → NotDue (.parkedWarpActivation k none) s) ∧
    (∀ v, (may → act.length < 8 → NotDue (.parkedWarpActivation k (some v)) s) ∧
      (may → (s.m.warp v).justActive = true → NotDue (.parkedWarpActivation k (some v)) s) ∧
      (may → 8 ≤ act.length → v ∈ act → (s.m.warp v).justActive = false →
        (hasReady s v = false ∨ ((∀ j ∈ act, hasReady s j = true) ∧
          ∀ j ∈ act, (s.m.warp j).justActive = false → ageOf s.m j ≤ ageOf s.m v)) →
        Does (.parkedWarpActivation k (some v)) s (on (s.m.updWarp v (fun w => { w with active := false })))))) ∧
  (∀ (k : Nat) (w : Warp) (s : State), Map.find? s.m.warps k = some w →
    ((w.active = true ∧ hasReady s k = true ∧ canIssue s.m k = true) →
      Does (.dispatchStarvation k) s (s.m.updWarp k (fun w => { w with urgent := true }))) ∧
    (¬ (w.active = true ∧ hasReady s k = true ∧ canIssue s.m k = true) → NotDue (.dispatchStarvation k) s) ∧
    (w.paths ≠ [] → 4096 ≤ w.path.turn → Does (.turnInstructionLimit k) s (s.m.updWarp k (fun w => { w with paths := endTurn w.paths }))) ∧
    ((w.paths = [] ∨ w.path.turn < 4096) → NotDue (.turnInstructionLimit k) s) ∧
    (w.run = .ready → w.path.runnable = true → (∃ p ∈ w.paths.drop 1, p.runnable = true) →
      Does (.turnStallLimit k) s (s.m.updWarp k (fun w => { w with paths := endTurn w.paths }))) ∧
    ((w.run ≠ .ready ∨ w.path.runnable = false ∨ ∀ p ∈ w.paths.drop 1, p.runnable = false) → NotDue (.turnStallLimit k) s)) ∧
  (∀ (core sec : Nat) (s : State),
    (∀ c, s.m.l1Copy core sec = some c → c.clk + 4096 ≤ s.m.clk → ∃ m, Does (.leaseExpiry core sec) s m ∧ m.mem = s.m.mem ∧
      m.replicas = s.m.replicas ∧ m.l1Copy core sec = none ∧
      ∀ core2 sec2 c2, ¬ (core2 = core ∧ sec2 = sec) → s.m.l1Copy core2 sec2 = some c2 → m.l1Copy core2 sec2 = some c2) ∧
    ((∀ c, s.m.l1Copy core sec = some c → s.m.clk < c.clk + 4096) → (∀ c, s.m.replicaAt core sec = some c → s.m.clk < c.clk + 4096) →
      NotDue (.leaseExpiry core sec) s)) ∧
  (∀ s : State, (s.m.rebaseDue = false → NotDue .rebase s) ∧
    (s.m.rebaseDue = true → ∃ m, Does .rebase s m ∧ m.l1 = [] ∧ m.replicas = [] ∧ m.wts = [] ∧ m.rts = [] ∧ m.epoch = s.m.epoch + 1 ∧ m.mem = s.m.mem ∧
    (∀ k w, Map.find? s.m.warps k = some w → Map.find? m.warps k = some (if (s.m.block w.block).seated = true then
      { w with pts := 0, opPts := [], ptsEpoch := (s.m.epoch + 1) % 2 ^ 16, futs := w.futs.map (fun f => (f.1, { f.2 with pts := 0 })), tiles := w.tiles.map (fun t => (t.1, { t.2 with pts := 0, rts := 0 })) } else w)) ∧
    (∀ n o, Map.find? s.m.ops n = some o → Map.find? m.ops n = some { o with pts := 0 }) ∧
    m.blocks = s.m.blocks ∧ m.vats = s.m.vats ∧ m.tags = s.m.tags)) ∧
  (∀ (k : Nat) (w : Warp) (s : State), Map.find? s.m.warps k = some w → canIssue s.m k = true → ∀ m, fetch s.m k = .debug m →
    Does (.safePointHold k) s m) ∧
  (∀ (core cls k age : Nat) (s : State), Map.find? s.m.frozen core = none → minBy (·.2) (waiters s.m core cls) = some (k, age) →
    let n := ((s.m.warp k).grow.getD (0, 0)).2
    let younger := (seatedOn s.m core).filter (fun e => decide ((s.m.blockOf k).age < e.2.age) && heldBy s.m e.1 cls != 0)
    (n ≤ freeUnits s.m core cls → Does (.growGrant core cls) s (s.m.updWarp k (fun w => { w with granted := true }))) ∧
    (∀ bk, freeUnits s.m core cls < n → (∀ e ∈ younger, e.2.pre = .none ∨ e.2.pre = .draining) →
      maxBy (fun bk => (s.m.block bk).age) (younger.map (·.1)) = some bk →
      Does (.growGrant core cls) s ((withGang s.m bk).foldl (fun m bk =>
        if blockComplete m bk = true then m else startSave (m.count (m.block bk).ctx 7 1) bk) (s.m.count (s.m.block bk).ctx 60 1)))) ∧
  (∀ (c : Nat) (x : Ctx) (s : State), Map.find? s.m.ctxs c = some x →
    (∀ bs rest m, x.waiting = bs :: rest → putRecord s.m c (stampRecord bs) = .written m →
      let m1 := (m.updCtx c (fun x => { x with waiting := rest })).raise x.fn 1
      Does (.faultQueueRoom c) s m1) ∧
    (∀ k st, x.waiting = [] → queuedWarp s.m c = some (k, st) → x.st = 1 →
      (s.m.hdr c 0x2C 4 + 2 ^ 32 - s.m.hdr c 0x30 4) % 2 ^ 32 < s.m.hdr c 0x28 4 → Does (.faultQueueRoom c) s (deliverQueued s.m k st))) ∧
  (∀ (fn c seq : Nat) (reply : Word) (f : Fn) (s : State), Map.find? s.p.fns fn = some f → f.enabled = true →
    let s1 := s.updFn fn (fun f => { f with freply0 := BitVec.ofNat 32 c, freply1 := BitVec.ofNat 32 seq })
    (∀ x sv, ownCtx s.m fn c = some x → Map.find? x.services seq = some sv →
      exec (.freply fn c seq reply) s = .next { s1 with m := serviceReply s1.p s1.m c seq reply }) ∧
    ((∀ x, ownCtx s.m fn c = some x → Map.find? x.services seq = none) → exec (.freply fn c seq reply) s = .next s1)) ∧
  (∀ s : State, ∃ t, exec .waitForScan s = .next t ∧ t.agenda = s.agenda ∧ t.cur = s.cur ∧ t.p = { s.p with waits := t.p.waits } ∧
    ∀ c, (s.m.ctx c).st = 1 → ∀ k ∈ runningWarps s.m c, (Map.find? s.m.ctxs c).isSome = true →
      ∃ n, Map.find? t.p.waits k = some ((s.m.warp k).prog, n) ∧
        ((∀ x, Map.find? s.p.waits k = some x → x.1 ≠ (s.m.warp k).prog) → n = 0))

/-- Events of launches and slices: records, dependencies, seating, completion, vat moves, slices, deadlines, costs
(R250, R251, R263, R264, R265, R271, R273, R274, R277, R279, R280). -/
def Obligations.LaunchSliceEvents : Prop :=
  ((∀ (fn q : Nat) (f : Fn) (r : Ring) (x : Ctx) (slot : Nat) (s : State), Map.find? s.p.fns fn = some f → Map.find? f.queues q = some r →
    Map.find? s.m.ctxs r.sel = some x → x.fn = fn → x.st = 1 → r.prod ≠ r.cons → r.entries ≠ 0 → freePending x = some slot →
    (∀ e, ringRead s.m r.sel (r.base + 256 * (r.cons % r.entries)) 256 = .error e →
      Does (.hostLaunchRecord fn q) s (tableFails s.m r.sel 0 e)) ∧
    (∀ raw, ringRead s.m r.sel (r.base + 256 * (r.cons % r.entries)) 256 = .ok raw →
      let lr := LaunchRec.ofBytes raw
      (∀ st, malformed s.m r.sel x.world lr = .error st → Does (.hostLaunchRecord fn q) s (tableFails s.m r.sel lr.code (asDevice st))) ∧
      (∀ bad, malformed s.m r.sel x.world lr = .ok bad →
        let s1 := s.updFn fn (fun f => { f with queues := Map.upd f.queues q (fun r => { r with cons := (r.cons + 1) % 2 ^ 32 }) })
        exec (.hostLaunchRecord fn q) s = .next { s1 with m := enterPending s1.p s1.m r.sel raw lr 0 slot 0 (bad || lr.prio != q) }))) ∧
  (∀ (c seq dep : Nat) (x : Ctx) (l : Launch) (key : Nat) (s : State), Map.find? s.m.ctxs c = some x → Map.find? x.pend seq = some l → l.st = 1 →
    l.ready = true → l.svc = [] → l.lr.deps.getD dep 0 ≠ 0 → dep ∉ l.met → x.st ≠ 3 →
    signalPlace s.m c x.world (l.lr.deps.getD dep 0) = .ok key →
    let r := engineLoads s.m l.pts [key]
    let m := r.1.updLaunch c seq (fun l => { l with pts := r.2 })
    let m1 := m.updLaunch c seq (fun l => { l with met := l.met ++ [dep] })
    (signalValue m key < 0 → Does (.dependencyReread c seq dep) s (failLaunch m c seq 11)) ∧
    (0 < signalValue m key → Does (.dependencyReread c seq dep) s m) ∧
    (signalValue m key = 0 → Does (.dependencyReread c seq dep) s (if (m1.launch c seq).depsMet = true then becomeReady s.p m1 c seq else m1))) ∧
  (∀ (c : Nat) (x : Ctx) (s : State), Map.find? s.m.ctxs c = some x →
    (x.st = 1 → x.holds = true → x.ask ≠ 1 → x.ask ≠ 2 → toFill s.m c = [] → ∀ m, seatScan s.p s.m c none (dispatchOrder x) = some m →
      Does (.blockSeat c) s m) ∧
    ((x.st ≠ 1 ∨ x.holds = false ∨ x.ask = 1 ∨ x.ask = 2 ∨ toFill s.m c ≠ [] ∨ seatScan s.p s.m c none (dispatchOrder x) = none) →
      NotDue (.blockSeat c) s)) ∧
  (∀ (bk : Nat) (b : Block) (s : State), Map.find? s.m.blocks bk = some b → b.seated = true → blockComplete s.m bk = true →
    (s.m.ctx b.ctx).st = 1 → (s.m.ctx b.ctx).devWait = [] → Map.find? s.m.frozen b.core = none →
    let m0 := commit s.m (warpKey bk 0)
    let m := b.vatH.foldl (fun m e => vatStep m ((m0.warpsOf bk).map (·.1)) b.ctx (m.vat e.2.1).name true) m0
    (∀ h e, writerBacks m bk = .error (h, e) → Does (.blockComplete bk) s (deviceFails m b.ctx h e)) ∧
    (∀ m1, writerBacks m bk = .ok m1 →
      let m2 := (dropMemory (closeVats m1 bk) bk).updBlock bk (fun b => { b with pre := .gone })
      Does (.blockComplete bk) s (pendWrite (m2.updLaunch b.ctx b.seq (fun l => { l with done := l.done + 1 })) b.ctx b.seq))) ∧
  (∀ (c seq : Nat) (x : Ctx) (l : Launch) (s : State), Map.find? s.m.ctxs c = some x → Map.find? x.pend seq = some l → l.st = 2 →
    l.svc = [] → l.done = l.lr.blocks → launchBusy s.m c seq = false → x.st ≠ 3 →
    (l.lr.done = 0 → Does (.launchComplete c seq) s (endLaunch s.m c seq)) ∧
    (∀ key, l.lr.done ≠ 0 → signalPlace s.m c x.world l.lr.done = .ok key → Does (.launchComplete c seq) s (endLaunch (signalStep s.m key 0 (launchTime s.m c seq)) c seq))) ∧
  (∀ (c seq : Nat) (x : Ctx) (l : Launch) (id : Nat) (v : Vat) (flat : Nat) (flats : List Nat) (s : State), Map.find? s.m.ctxs c = some x →
    Map.find? x.pend seq = some l → affinityVat s.m c l.lr = some (id, v) → nextFlats s.m c seq l = flat :: flats → l.st = 2 →
    l.patience = false → x.holds = true → x.devWait = [] → spotFor s.m c seq flat l (allowedCores s.p s.m c l) = .waits →
    (v.opens ≠ [] ∨ v.writer ≠ none ∨ moveTarget s.p s.m v l = none →
      Does (.affinityPatienceExpiry c seq) s (s.m.updLaunch c seq (fun l => { l with patience := true }))) ∧
    (∀ t, v.opens = [] → v.writer = none → moveTarget s.p s.m v l = some t →
      ((startMove s.m id t).vat id).st = 1 →
      Does (.affinityPatienceExpiry c seq) s ((startMove s.m id t).updLaunch c seq (fun l => { l with bound := some (flat, t) })))) ∧
  (∀ (id core : Nat) (v : Vat) (s : State), Map.find? s.m.vats id = some v → v.target = some core → v.st = 1 →
    (s.m.ctx v.ctx).devWait = [] →
    (∀ m, fillOnto s.m id core = .ok m → Does (.vatMoveComplete id) s (m.count v.ctx 52 1)) ∧
    (∀ e, fillOnto s.m id core = .error e → Does (.vatMoveComplete id) s (vatImageFails s.m v e)))) ∧
  ((∀ (c est : Nat) (x : Ctx) (s : State), Map.find? s.m.ctxs c = some x →
    let may := x.st = 1 ∧ x.holds = true ∧ x.ask ≠ 1 ∧ x.ask ≠ 2
    let now := max s.m.ns x.sliceEnd
    let m := ({ s.m with ns := now } : Mach).updCtx c (countSlice now)
    (may → x.ask = 3 → Does (.sliceEnd c est) s (preemptCtx (s.m.updCtx c (countSlice s.m.ns)) c est 2)) ∧
    (may → x.ask ≠ 3 → competitors m c = [] → Does (.sliceEnd c est) s (startSlice m c)) ∧
    (may → x.ask ≠ 3 → passesOn m c = true → Does (.sliceEnd c est) s (preemptCtx m c est 1)) ∧
    (may → x.ask ≠ 3 → passesOn m c = false → Does (.sliceEnd c est) s (startSlice m c)) ∧
    (¬ may → NotDue (.sliceEnd c est) s)) ∧
  (∀ (c us : Nat) (x : Ctx) (s : State), Map.find? s.m.ctxs c = some x → x.st = 1 → x.holds = true → x.ask = 0 → x.yieldDl = none →
    us = x.grace → Does (.yieldDeadlinePost c us) s (s.m.tickOn.updCtx c (fun x => { x with yieldDl := some (s.m.tickOn.ns + 1000 * us) }))) ∧
  (∀ (c est t : Nat) (x : Ctx) (s : State), Map.find? s.m.ctxs c = some x → x.st = 1 → x.holds = true → x.yieldDl = some t →
    Does (.yieldDeadlineExpiry c est) s (preemptCtx ({ s.m with ns := max s.m.ns t }.count c 62 1) c est 1)) ∧
  (∀ (c late : Nat) (s : State),
    let m := ((s.m.blocks.filter (fun e => e.2.ctx == c && e.2.pre == .draining)).map (·.1)).foldl startSave s.m
    (preempting s.m c = false → NotDue (.preemptDeadline c late) s) ∧
    (preempting s.m c = true → (s.m.ctx c).ask = 2 → Does (.preemptDeadline c late) s m) ∧
    (preempting s.m c = true → (s.m.ctx c).ask ≠ 2 →
      let m1 := (m.updCtx c (fun x => { x with debt := x.debt + 850 * late })).count c 59 late
      ((m1.ctx c).ask = 0 ∨ (m1.ctx c).rival = none → Does (.preemptDeadline c late) s m1) ∧
      (∀ r, (m1.ctx c).ask ≠ 0 → (m1.ctx c).rival = some r →
        Does (.preemptDeadline c late) s (m1.updCtx r (fun x => { x with comp := x.comp + 850 * late }))))) ∧
  (∀ (c : Nat) (s : State), (heldUp s.m c = none → NotDue (.nonpreemptibleWaitLimit c) s) ∧
    (∀ k, heldUp s.m c = some k → Does (.nonpreemptibleWaitLimit c) s (stopCtx s.m c 1 (some (k, s.m.outside k .watchdog))))) ∧
  (∀ (c : Nat) (s : State), (∃ e ∈ s.m.blocks, e.2.ctx = c ∧ (e.2.pre = .waiting ∨ e.2.pre = .handlers) ∧
      ∃ x ∈ s.m.warpsOf e.1, x.2.trap.isSome = true) → Does (.trapModeHoldLimit c) s (stopCtx s.m c 7 none)) ∧
  (∀ (bk clocks : Nat) (b : Block) (s : State), Map.find? s.m.blocks bk = some b → b.seated = true → b.lr.cost ≠ 0 → b.charged < clocks →
    2 * b.lr.cost < clocks →
    let extra := clocks - max b.charged (2 * b.lr.cost)
    let old := (Map.find? (s.m.ctx b.ctx).counters 58).getD 0
    let m := (s.m.updBlock bk (fun b => { b with charged := max b.charged clocks })).updCtx b.ctx (fun x => { x with debt := x.debt + extra })
    Does (.costOverrun bk clocks) s ((m.count b.ctx 58 extra).count b.ctx 59 ((old + extra) / 850 - old / 850))) ∧
  (∀ (bk clocks k : Nat) (ks : List Nat) (b : Block) (s : State), Map.find? s.m.blocks bk = some b → s.m.liveOf bk = k :: ks →
    b.seated = true → b.lr.cost ≠ 0 → b.charged ≤ clocks → b.watch < clocks / (4 * b.lr.cost) → (b.pre = .none ∨ b.pre = .draining) →
    (∀ x ∈ b.wides, x.info.cause ≠ .watchdog) →
    let m := (chargeTo s.m bk clocks).updBlock bk (fun b => { b with watch := clocks / (4 * b.lr.cost) })
    Does (.costWatchdog bk clocks) s (raiseWide m k true (k :: ks) 0 (m.outside k .watchdog))))

/-- The mailbox: when a command is taken, who may give it, and what its answer changes (R305, R306). -/
def Obligations.MailboxRules : Prop :=
  (∀ (i : Instr) (fn : Nat) (early : Bool) (x : Fn) (s : State), commandOf i = some (fn, early) → Map.find? s.p.fns fn = some x →
    (x.enabled = false ∨ x.busy = true → NotDue i s) ∧
    (x.enabled = true → x.busy = false → s.p.boot.phase = .recovery → early = false → Replies i fn s s 8 []) ∧
    (x.enabled = true → x.busy = false → s.p.boot.phase ≠ .recovery → s.p.boot.phase.serves = false → exec i s = .next s)) ∧
  (∀ (i : Instr) (fn : Nat) (early : Bool) (s : State), commandOf i = some (fn, early) → pfOnly i = true → Takes fn s → fn ≠ 0 →
    Replies i fn s s 8 []) ∧
  (∀ (s : State) (fn status : Nat) (out : List (Nat × List Byte)) (x : Fn), Map.find? s.p.fns fn = some x →
    ∃ y, Map.find? (s.answer fn status out).p.fns fn = some y ∧ y.busy = false ∧ y.status = status ∧ y.enabled = x.enabled ∧
      y.queues = x.queues ∧ y.intake = x.intake ∧
      (∀ g, g ≠ fn → Map.find? (s.answer fn status out).p.fns g = Map.find? s.p.fns g) ∧
      (s.answer fn status out).m = s.m.raise fn 3)

/-- CREATE, RUN, RESET, DESTROY, WSREG, TIMEPARAM and NVMEGRANT: completion, status and effect on the context (R267,
R295, R296, R305, R306, R310, R319). -/
def Obligations.ContextCommands : Prop :=
  (∀ (fn hdr world : Nat) (s : State), Takes fn s →
    let f := (fnOf s fn).getD Fn.empty
    (createStatus s f fn hdr world ≠ 0 → exec (.createCtx fn hdr world) s = .next (State.answer s fn (createStatus s f fn hdr world) [])) ∧
    (∀ c, createStatus s f fn hdr world = 0 → (List.range 256).find? (fun i => (Map.find? s.m.ctxs i).isNone) = some c →
      exec (.createCtx fn hdr world) s = .next (State.answer { s with m := headerState (worldByte (s.m.setCtx c (newCtx fn hdr world)) c) c } fn 0 [(4, bytesOfNat 4 c)]))) ∧
  (∀ (fn c : Nat) (x : Ctx) (s : State), Takes fn s → mayCommand s.m fn c = .ok x →
    (((x.st ≠ 0 ∧ (x.st ≠ 1 ∨ x.holds = true)) ∨ x.teams = 0 ∨ headerRuns s.m c = false) → exec (.runCtx fn c) s = .next (State.answer s fn 1 [])) ∧
    (x.st = 1 → x.holds = false → x.teams ≠ 0 → headerRuns s.m c = true → exec (.runCtx fn c) s = .next (State.answer s fn 0 [])) ∧
    (x.st = 0 → x.teams ≠ 0 → headerRuns s.m c = true →
      exec (.runCtx fn c) s = .next (State.answer { s with m := headerState (s.m.updCtx c (fun x => { x with st := 1 })) c } fn 0 [])) ∧
    (x.resetBy.isSome = true → exec (.resetCtx fn c) s = .next (State.answer s fn 7 []) ∧ exec (.destroyCtx fn c) s = .next (State.answer s fn 7 [])) ∧
    (x.resetBy = none →
      exec (.resetCtx fn c) s = .next (stopping s fn c false) ∧ exec (.destroyCtx fn c) s = .next (stopping s fn c true)) ∧
    (∀ i h, 16 ≤ i → exec (.wsreg fn c i h) s = .next (State.answer s fn 1 [])) ∧
    (∀ i, i < 16 → setBound x i = true → exec (.wsreg fn c i 0) s = .next (State.answer s fn 7 [])) ∧
    (∀ i, i < 16 → setBound x i = false →
      exec (.wsreg fn c i 0) s = .next (State.answer { s with m := s.m.updCtx c (fun x' => { x' with wsets := Map.del x.wsets i }) } fn 0 [])) ∧
    (∀ i h e, i < 16 → 2 ≤ h → h ≤ 4063 → tableHandle s.m c default h = .ok (some e) → e.kind = 1 → e.access = 1 → e.world = x.world →
      let old := (Map.find? x.wsets i).getD { handle := 0, nextGen := 1, cur := none, gens := [] }
      exec (.wsreg fn c i h) s = .next (State.answer { s with m := s.m.updCtx c (fun x' => { x' with wsets := Map.ins x.wsets i { old with handle := h } }) } fn 0 []))) ∧
  (∀ (fn c : Nat) (d : Bool) (s : State), (s.m.ctx c).resetBy = some (fn, d) →
    (((s.m.ctx c).waiting ≠ [] ∨ ∃ e ∈ s.m.blocks, e.2.ctx = c ∧ e.2.seated = true) → finishStop s c = s) ∧
    ((s.m.ctx c).waiting = [] → (∀ e ∈ s.m.blocks, ¬ (e.2.ctx = c ∧ e.2.seated = true)) →
      (d = false → finishStop s c = State.answer { s with m := makeIdle s.m c } fn 0 []) ∧
      (d = true → let back := (s.p.lent.filter (fun e => e.2 == c)).map (·.1)
        finishStop s c = State.answer { s with m := destroy (back.foldl scrubTeam s.m) c, p := { s.p with lent := s.p.lent.filter (fun e => e.2 != c), revoking := s.p.revoking.filter (fun t => !back.contains t) } } fn 0 []))) ∧
  (∀ (fn c st : Nat) (s : State), Takes fn s → mayCommand s.m fn c = .error st → ∀ i ∈ [Instr.runCtx fn c, .resetCtx fn c, .destroyCtx fn c],
    Replies i fn s s st []) ∧
  (∀ (c : Nat) (tp : TimeParam) (x : Ctx) (s : State), Takes 0 s → Map.find? s.m.ctxs c = some x →
    (x.st = 1 → exec (.timeparam 0 c tp) s = .next (State.answer s 0 7 [])) ∧
    (x.st ≠ 1 → timeparamOk s.p s.m c tp = false → exec (.timeparam 0 c tp) s = .next (State.answer s 0 1 [])) ∧
    (x.st ≠ 1 → timeparamOk s.p s.m c tp = true → exec (.timeparam 0 c tp) s = .next (State.answer { s with m := s.m.updCtx c (fun x => { x with teams := tp.teams, margin := tp.margin, period := tp.period, share := tp.share, grace := tp.grace }) } 0 0 []))) ∧
  (∀ (c ns : Nat) (grant : Bool) (x : Ctx) (s : State), Takes 0 s → Map.find? s.m.ctxs c = some x →
    exec (.nvmegrant 0 c ns grant) s = .next (State.answer { s with m := s.m.updCtx c (fun x =>
      { x with nvme := (x.nvme.filter (fun n => n != ns)) ++ (if grant = true then [ns] else []) }) } 0 0 []))

/-- Commands of the PF: QUOTA, TAG, SLOTS, EXPORT, LEND, revocation, ERRRING, FENCEMAP, HEALTH and TEST; the
installing of slot tables (R306, R308, R310, R311, R313, R314, R316, R338, R340). -/
def Obligations.PlatformCommands : Prop :=
  (∀ (vf n : Nat) (sec : Bool) (s : State), Takes 0 s →
    ((vf = 0 ∨ 64 ≤ vf) → Replies (.quota 0 vf n sec) 0 s s 1 []) ∧
    (vf ≠ 0 → vf < 64 → Replies (.quota 0 vf n sec) 0 s (s.updFn vf (fun f => { f with quota := n, secure := sec })) 0 [])) ∧
  (∀ (base count world : Nat) (s : State), Takes 0 s →
    let hi := base + count * 2097152
    ((base % 2097152 ≠ 0 ∨ Config.deviceBytes < hi ∨ 2 ≤ world) → Replies (.tagRegion 0 base count world) 0 s s 1 []) ∧
    (base % 2097152 = 0 → hi ≤ Config.deviceBytes → world < 2 → (∃ r ∈ regionsOf base count, isManagement r = true) →
      Replies (.tagRegion 0 base count world) 0 s s 8 []) ∧
    (base % 2097152 = 0 → hi ≤ Config.deviceBytes → world < 2 → (∀ r ∈ regionsOf base count, isManagement r = false) →
      ∃ m, Replies (.tagRegion 0 base count world) 0 s { s with m := m } 0 [] ∧
        m.tags = (regionsOf base count).foldl (fun l r => if world = 0 then Map.del l r else Map.ins l r world) s.m.tags ∧
        (∀ a, Space.dev.key base ≤ a → a < Space.dev.key base + count * 2097152 → Mem.read m.mem a = 0) ∧
        (∀ a, (a < Space.dev.key base ∨ Space.dev.key base + count * 2097152 ≤ a) → Mem.read m.mem a = Mem.read s.m.mem a) ∧
        (∀ core sec x, m.l1Copy core sec = some x → 64 * sec < base ∨ hi ≤ 64 * sec) ∧
        m.warps = s.m.warps ∧ m.blocks = s.m.blocks ∧ m.ctxs = s.m.ctxs)) ∧
  (∀ (link : Nat) (es : List (BitVec 16)) (s : State), Takes 0 s →
    ((Config.isLink link = true ∧ es.length = 512 ∧ ∀ e ∈ es, slotEntryOk e = true) → Replies (.slots 0 link es) 0 s
      { s with p := { s.p with slotsNext := Map.ins s.p.slotsNext link ((s.m.ns / 32000 + 2) * 32000, es) } } 0 []) ∧
    (¬ (Config.isLink link = true ∧ es.length = 512 ∧ ∀ e ∈ es, slotEntryOk e = true) → Replies (.slots 0 link es) 0 s s 1 [])) ∧
  (∀ (entry : Nat) (e : ExportEntry) (s : State), Takes 0 s →
    ((4096 ≤ entry ∨ 2 < e.typ ∨ e.reserved ≠ 0) → Replies (.exportEntry 0 entry e) 0 s s 1 []) ∧
    (entry < 4096 → e.typ ≤ 2 → e.reserved = 0 →
      (∀ x h, e.typ = 1 → Map.find? s.m.ctxs e.ctx = some x → tableHandle s.m e.ctx default e.num = .ok (some h) → h.world = 1 →
        Replies (.exportEntry 0 entry e) 0 s s 8 []) ∧
      ((e.typ ≠ 1 ∨ Map.find? s.m.ctxs e.ctx = none ∨ (∀ h, tableHandle s.m e.ctx default e.num = .ok (some h) → h.world ≠ 1)) →
        Replies (.exportEntry 0 entry e) 0 s { s with m := { s.m with exports := Map.ins s.m.exports entry e } } 0 []))) ∧
  (∀ (team c own : Nat) (x : Ctx) (s : State), Takes 0 s → team < 32 → marginOwner s.m team = some own → Map.find? s.m.ctxs c = some x →
    ((own = c ∨ x.st ≠ 1 ∨ s.p.isLent team = true) → Replies (.lend 0 team c) 0 s s 1 []) ∧
    (own ≠ c → x.st = 1 → s.p.isLent team = false → (∃ e ∈ s.m.blocks, e.2.ctx = own ∧ e.2.seated = true ∧ teamOf e.2.core = team) →
      Replies (.lend 0 team c) 0 s s 7 []) ∧
    (own ≠ c → x.st = 1 → s.p.isLent team = false → (∀ e ∈ s.m.blocks, ¬ (e.2.ctx = own ∧ e.2.seated = true ∧ teamOf e.2.core = team)) →
      let m := leaveTeam s.m own team
      let left := heldVats m own (fun t => t == team)
      (left ≠ [] → Replies (.lend 0 team c) 0 s { s with m := m } 7 []) ∧
      (left = [] → Replies (.lend 0 team c) 0 s { s with m := passTeam m c team, p := { s.p with lent := Map.ins s.p.lent team c } } 0 []))) ∧
  (∀ (team : Nat) (s : State),
    (∀ c, Map.find? s.p.lent team = some c → (ownerNeeds s.m team = true → exec (.lendRevoke 64 team) s = .next (revoke s team c)) ∧
      (ownerNeeds s.m team = false → NotDue (.lendRevoke 64 team) s) ∧ (Takes 0 s → Replies (.lendRevoke 0 team) 0 s (revoke s team c) 0 [])) ∧
    (Map.find? s.p.lent team = none → NotDue (.lendRevoke 64 team) s ∧ (Takes 0 s → Replies (.lendRevoke 0 team) 0 s s 1 []))) ∧
  (∀ (link at_ : Nat) (t : List (BitVec 16)) (s : State), Map.find? s.p.slotsNext link = some (at_, t) →
    let now := max s.m.ns at_
    let due := s.p.slotsNext.filter (fun e => decide (e.2.1 ≤ now))
    exec (.slotTableInstall link) s = .next { s with m := { s.m with ns := now }, p := { s.p with slots := due.foldl (fun l e => Map.ins l e.1 e.2.2) s.p.slots, slotsNext := s.p.slotsNext.filter (fun e => !decide (e.2.1 ≤ now)) } }) ∧
  (∀ (fn addr n : Nat) (s : State), Takes fn s →
    (addr % 64 = 0 → (∃ i, i < 13 ∧ 4 ≤ i ∧ n = 2 ^ i) →
      let old := (Map.find? s.m.errs fn).getD { addr := 0, entries := 0, prod := 0, seq := 0, dropped := 0 }
      Replies (.errring fn addr n) fn s { s with m := { s.m with errs := Map.ins s.m.errs fn { old with addr := addr, entries := n, prod := 0 } } } 0 []) ∧
    (¬ (addr % 64 = 0 ∧ ∃ i, i < 13 ∧ 4 ≤ i ∧ n = 2 ^ i) → Replies (.errring fn addr n) fn s s 1 [])) ∧
  (∀ s : State, Takes 0 s →
    Replies (.fencemap 0) 0 s s 0 [(8, maskBytes 32 s.p.fenced), (0x28, maskBytes 4 s.p.fencedTeams)] ∧
    (∀ unit, healthKind unit = none → Replies (.health 0 unit) 0 s s 1 []) ∧
    (∀ unit k, healthKind unit = some k → Replies (.health 0 unit) 0 s s 0 [(0x10, (healthOf s.p unit).flatMap (bytesOfNat 8))]) ∧
    (∀ team, 32 ≤ team → Replies (.testTeam 0 team) 0 s s 1 []) ∧
    (∀ team, team < 32 → s.p.isLent team = true → Replies (.testTeam 0 team) 0 s s 7 []) ∧
    (∀ team, team < 32 → s.p.isLent team = false → Replies (.testTeam 0 team) 0 s
      { s with m := { s.m with testDue := if team ∈ s.m.testDue then s.m.testDue else s.m.testDue ++ [team] } } 0 []))

/-- Debugger commands and the commands that act in recovery too: ATTEST, IDENTITY, JOURNAL, IMAGEWRITE (R340, R342,
R354, R355). -/
def Obligations.DebugBootCommands : Prop :=
  ((∀ (fn c : Nat) (s : State), Takes fn s → ∀ i ∈ [Instr.debugStop fn c, .debugReleaseAll fn c],
    (∀ st, mayCommand s.m fn c = .error st → Replies i fn s s st []) ∧
    (∀ x, mayCommand s.m fn c = .ok x → debugged s.m c = false → Replies i fn s s 1 [])) ∧
  (∀ (fn c : Nat) (x : Ctx) (s : State), Takes fn s → mayCommand s.m fn c = .ok x → debugged s.m c = true →
    Debugs (.debugStop fn c) fn s (s.m.updWarps (ctxWarps s.m c) (fun _ w => { w with halt := true })) ∧
    Debugs (.debugReleaseAll fn c) fn s (s.m.updWarps (ctxWarps s.m c) (fun _ w =>
      { w with run := if w.run = .debug then .ready else w.run, trap := w.trap.map (fun (t : TrapSt) => { t with debug := false }) })) ∧
    (∀ n, debugWarp s.m c n = none → Replies (.debugReleaseWarp fn c n) fn s s 1 [] ∧ Replies (.debugDump fn c n) fn s s 1 []) ∧
    (∀ n k, debugWarp s.m c n = some k → Debugs (.debugReleaseWarp fn c n) fn s (s.m.updWarp k (fun w => { w with run := .ready }))) ∧
    (∀ n k m, debugWarp s.m c n = some k →
      recordWrite s.m (s.m.warp k).block (dumpWrites s.m k) = some m →
      Debugs (.debugDump fn c n) fn s m) ∧
    (∀ e code ord, e < 16 → Debugs (.debugSetBreakpoint fn c e code ord) fn s (s.m.updCtx c (fun x => { x with breaks := Map.ins x.breaks e { code := code, ordinal := ord } }))) ∧
    (∀ e, e < 16 → Debugs (.debugClearBreakpoint fn c e) fn s (s.m.updCtx c (fun x => { x with breaks := Map.del x.breaks e }))) ∧
    (∀ e code ord, 16 ≤ e → Replies (.debugSetBreakpoint fn c e code ord) fn s s 1 [] ∧ Replies (.debugClearBreakpoint fn c e) fn s s 1 []))) ∧
  ((∀ (fn : Nat) (nonce : List Byte) (addr : Nat) (s : State), TakesEarly fn s →
    (addr % 8 ≠ 0 → Replies (.attest fn nonce addr) fn s s 1 []) ∧
    (addr % 8 = 0 →
      let s1 : State := { s with m := s.m.tickOn }
      let body := reportBody s1 fn (padTo 32 0 nonce)
      Replies (.attest fn nonce addr) fn s (s1.toHost fn addr (body ++ padTo 64 0 (Config.deviceSign (Config.sha256 body)))) 0 [])) ∧
  (∀ (fn addr len : Nat) (s : State), TakesEarly fn s →
    let cert := Config.certificate.take 2048
    (len < cert.length → Replies (.identity fn addr len) fn s s 9 []) ∧
    (cert.length ≤ len → Replies (.identity fn addr len) fn s (s.toHost fn addr cert) 0 [(4, bytesOfNat 4 cert.length)])) ∧
  (∀ (fn addr : Nat) (s : State), TakesEarly fn s →
    (fn ≠ 0 → Replies (.journalRead fn addr) fn s s 8 [] ∧ Replies (.journalClear fn) fn s s 8 []) ∧
    (fn = 0 → Replies (.journalRead fn addr) fn s (s.toHost fn addr s.p.boot.ring) 0 [] ∧
      Replies (.journalClear fn) fn s { s with p := { s.p with boot := { s.p.boot with journal := [], skip := [], from_ := [] } } } 0 [])) ∧
  (∀ (stage slot addr len : Nat) (s : State), TakesEarly 0 s →
    ((stage = 0 ∨ 6 < stage ∨ 2 ≤ slot) → Replies (.imagewrite 0 stage slot addr len) 0 s s 1 []) ∧
    (1 ≤ stage → stage ≤ 6 → slot < 2 → ∀ img, fromHost s.m 0 addr len = some img →
      ((imgFails s.p.boot stage img).isSome = true → Replies (.imagewrite 0 stage slot addr len) 0 s { s with m := s.m.tickOn } 1 []) ∧
      (imgFails s.p.boot stage img = none → Replies (.imagewrite 0 stage slot addr len) 0 s
        { s with m := s.m.tickOn, p := { s.p with boot := { s.p.boot with flash := Map.ins s.p.boot.flash (2 * stage + slot) img, skip := s.p.boot.skip.filter (fun x => x != stage), from_ := Map.del s.p.boot.from_ stage } } } 0 []))) ∧
  (∀ (fn stage slot addr len : Nat) (s : State), TakesEarly fn s → fn ≠ 0 → Replies (.imagewrite fn stage slot addr len) fn s s 8 []))

/-- Events of the package: fabric, ports, errors, power, supervisor, fencing and tests (R18, R266, R316, R317, R318,
R331, R333, R337, R340, R341). -/
def Obligations.PlatformEvents : Prop :=
  (∀ (c tag : Nat) (bytes : List Byte) (x : Ctx) (s : State), Map.find? s.m.ctxs c = some x →
    let bs := bytes.zipIdx.map (fun b => (b.2, b.1))
    (Map.find? x.arms tag = none → Does (.fabricMessage c tag bytes) s (s.m.count c 63 1)) ∧
    (∀ raw, Map.find? x.arms tag = some raw →
      let m := s.m.updCtx c (fun x => { x with arms := Map.del x.arms tag })
      let fire := fun (m : Mach) (lost : Bool) (pts : Nat) => enterFired s.p (m.updCtx c (fun x =>
        { x with fired := x.fired ++ [(lost, pts, raw.take 0x54 ++ bytesOfNat 4 bytes.length ++ raw.drop 0x58)] })) c
      let writes := payloadWrites m c (LaunchRec.ofBytes raw) bs bytes.length
      (writes = .ok none → Does (.fabricMessage c tag bytes) s (fire m true 0)) ∧
      (∀ ws, writes = .ok (some ws) →
        let r := engineStores (writeBytes m ws) 0 (ws.map (fun (x : ByteWrite) => x.key))
        Does (.fabricMessage c tag bytes) s (fire r.1 false r.2)) ∧
      (∀ va size off, writes = .error (.miss va size off) →
        let r := deviceMiss m c ((LaunchRec.ofBytes raw).args.getD 6 0).toNat va size
        Does (.fabricMessage c tag bytes) s (r.1.updCtx c (fun x =>
          { x with mail := x.mail ++ [{ raw := raw, bytes := bs, n := bytes.length, svc := r.2, refused := false }] }))))) ∧
  (∀ (src entry : Nat) (a : RemoteAcc) (s : State), remoteOk a = true →
    (Map.find? s.m.exports entry = none → exec (.remoteAccess src entry a) s = .next s) ∧
    (∀ e, Map.find? s.m.exports entry = some e →
      (s.m.admits e src = false → exec (.remoteAccess src entry a) s = .next s) ∧
      (e.typ = 2 → a.op ≠ 1 → exec (.remoteAccess src entry a) s = .next s) ∧
      (e.typ = 2 → a.op = 1 → s.m.admits e src = true → exec (.remoteAccess src entry a) s = .next (tagPort s src entry e a)) ∧
      (e.typ ≠ 2 →
        let u := remoteUse a
        let place := remotePlace s.m e src u.1 u.2.1 a.off a.size
        (place = none → exec (.remoteAccess src entry a) s = .next s) ∧
        (∀ key, place = some key →
          let keys := (List.range a.size).map (key + ·)
          let old := keys.map (fun k => (engineByte s.m [] k).1)
          (∀ new, u.2.2 old = some new → Does (.remoteAccess src entry a) s ((engineStores s.m 0 keys).1.poke key new).tickOn) ∧
          (u.2.2 old = none → a.op = 0 → Does (.remoteAccess src entry a) s (engineLoads s.m 0 keys).1.tickOn) ∧
          (u.2.2 old = none → a.op ≠ 0 → Does (.remoteAccess src entry a) s (engineStores s.m 0 keys).1.tickOn))))) ∧
  (∀ (port : Nat) (x : Port) (s : State), Map.find? s.p.ports port = some x →
    exec (.remoteStoreFailure port) s = .next { s with p := { s.p with ports := Map.ins s.p.ports port { x with failed := true } } } ∧
    exec (.portstatClear port) s = .next { s with p := { s.p with ports := Map.ins s.p.ports port { x with failed := false } } } ∧
    (∀ lanes node, lanes ≤ 8 → node < 0xFFF → Map.find? s.p.boot.meas 5 ≠ none → { x with up := true, lanes := lanes, node := node } ≠ x →
      exec (.fabricPortState port true lanes node) s = .next { s with m := s.m.raise 0 5, p := { s.p with ports := Map.ins s.p.ports port { x with up := true, lanes := lanes, node := node } } }) ∧
    (∀ lanes node, lanes ≤ 8 → node < 0xFFF → { x with up := false, lanes := 0, node := 0xFFF } ≠ x →
      exec (.fabricPortState port false lanes node) s = .next { s with m := s.m.raise 0 5, p := { s.p with ports := Map.ins s.p.ports port { x with up := false, lanes := 0, node := 0xFFF } } })) ∧
  (∀ (unit : Word) (s : State),
    (healthKind unit = some 0 → ∀ u, exec (.linkError unit u) s = .next { s with m := errRecord s.m 2 (if u = true then 1 else 0) unit 0 0 0 none 0, p := healthAdd s.p unit (if u = true then [0, 1, 3] else [0, 1, 2]) }) ∧
    (healthKind unit = some 0 → exec (.laneRetrain unit) s = .next { s with p := { healthAdd s.p unit [4] with ports := if bits unit 20 14 = 25 then Map.upd (healthAdd s.p unit [4]).ports (bits unit 7 3) (fun x => { x with retrains := min 255 (x.retrains + 1) }) else (healthAdd s.p unit [4]).ports } }) ∧
    (bits unit 20 14 = 17 → ∀ waits, exec (.dramRefreshManagement unit waits) s = .next { s with m := waits.foldl (fun m x => m.count x.1 28 x.2) s.m, p := healthAdd s.p unit [2, 3] }) ∧
    ((bits unit 20 14 = 16 ∨ bits unit 20 14 = 17) → ∀ addr u syn, unitHolds unit addr = true → exec (.scrubOrRefreshError unit addr u syn) s =
      .next { s with m := errRecord (if u = true then s.m.mark (Space.dev.key addr / 16) unit else s.m) (unitClass unit) (if u = true then 1 else 0) unit (syn % 2 ^ 64) addr 0 none 0, p := healthAdd s.p unit [if u = true then 1 else 0] }) ∧
    (∀ k, healthKind unit = some k → (k = 0 ∨ 64 < (healthOf s.p unit).headD 0) →
      exec (.predictiveAdvisory unit) s = .next { s with m := errRecord s.m 6 1 unit 0 0 0 none 0 })) ∧
  (∀ (s : State), exec (.powerLimitChange none) s = .next { s with p := { s.p with power := 2800 } } ∧
    ∀ w, 0 < w → w < 2800 → exec (.powerLimitChange (some w)) s = .next { s with p := { s.p with power := w } }) ∧
  (∀ (core : Nat) (z : Freeze) (s : State), Map.find? s.m.frozen core = some z →
    let m : Mach := { s.m with frozen := Map.del s.m.frozen core }
    let bks := ((seatedOn m core).filter (fun e => !blockComplete m e.1)).map (·.1)
    exec (.supervisorDecision core) s = .next { s with m := preemptMates (bks.foldl (fun m bk => decideBlock m z bk) m) bks, p := if z.memory = true ∨ core ∈ s.p.fencing then s.p else { s.p with fencing := s.p.fencing ++ [core] } }) ∧
  (∀ (core : Nat) (s : State),
    ((core ∈ s.p.fencing ∨ core ∈ s.m.suspects) → seatedOn s.m core = [] → core ∉ s.p.fenced → exec (.coreFence core) s = .next (fenceCore s core)) ∧
    ((core ∉ s.p.fencing ∧ core ∉ s.m.suspects) ∨ seatedOn s.m core ≠ [] ∨ core ∈ s.p.fenced → NotDue (.coreFence core) s) ∧
    core ∈ (fenceCore s core).p.fenced) ∧
  (∀ (team : Nat) (failing : List Word) (s : State), teamIdle s team = true → (∀ u ∈ failing, bits u 31 26 = team) →
    let s1 := failing.foldl failUnit s
    exec (.inFieldTest team failing) s = .next { s1 with m := { scrubTeam s1.m team with testDue := (scrubTeam s1.m team).testDue.filter (fun t => t != team) } }) ∧
  (∀ (team : Nat) (s : State), team < 32 → s.p.isLent team = false → (∀ e ∈ s.m.blocks, ¬ (e.2.seated = true ∧ teamOf e.2.core = team)) →
    let m := scrubTeam s.m team
    exec (.testAbandon team) s = .next { s with m := { m with testDue := if team ∈ m.testDue then m.testDue else m.testDue ++ [team] } })

/-- Intake of weight sets: GENOPEN, SHARD, GENABORT, shard completion, code errors and time-outs (R320, R321, R322,
R324, R325). -/
def Obligations.IntakeEvents : Prop :=
  (∀ (fn : Nat) (s : State), intakeHead s fn = none → NotDue (.genopen fn) s ∧ NotDue (.shard fn) s ∧ NotDue (.genabort fn) s) ∧
  (∀ (fn : Nat) (bs : List Byte) (s : State), intakeHead s fn = some bs →
    let code := fieldAt bs 0 1
    let c := fieldAt bs 1 1
    let i := fieldAt bs 2 1
    let s1 := intakeTaken s fn
    (code ≠ 2 → code ≠ 3 →
      (genopenStatus s.m fn bs ≠ 0 → exec (.genopen fn) s = .next (report s1 fn (statusBytes 5 c i 0 (genopenStatus s.m fn bs)))) ∧
      (genopenStatus s.m fn bs = 0 → exec (.genopen fn) s = .next { s1 with m := s1.m.tickOn.updSet c i (fun w => { w with nextGen := w.nextGen + 1, gens := Map.ins w.gens w.nextGen { base := fieldAt bs 8 8, length := fieldAt bs 0x10 8, count := fieldAt bs 4 4, good := [], pend := [], rereads := [], report := fieldAt bs 0x20 8, assembling := true, expires := s1.m.tickOn.ns + 1000000 * fieldAt bs 0x18 4, pts := 0 } }) })) ∧
    (code = 3 →
      (ownCtx s.m fn c = none → exec (.genabort fn) s = .next (report s1 fn (statusBytes 5 c i 0 8))) ∧
      (∀ x w g, ownCtx s.m fn c = some x → weightSet s.m c i = some w → zeroAt bs 3 61 = true → w.assembling = some g →
        exec (.genabort fn) s = .next (timeOutGen s1 fn c i g)) ∧
      (∀ x w, ownCtx s.m fn c = some x → weightSet s.m c i = some w → w.assembling = none →
        exec (.genabort fn) s = .next (report s1 fn (statusBytes 5 c i 0 1)))) ∧
    (code = 2 →
      let refuses := fun st => exec (.shard fn) s = .next (report s1 fn (statusBytes 5 c i 0 st))
      (ownCtx s.m fn c = none → refuses 8) ∧
      (∀ x, ownCtx s.m fn c = some x → weightSet s.m c i = none → refuses 1) ∧
      (∀ x w, ownCtx s.m fn c = some x → weightSet s.m c i = some w →
        (shardOk bs = false → refuses 1) ∧
        (shardOk bs = true → (shardOf bs).source = 2 → (shardOf bs).ns ∉ x.nvme → refuses 8) ∧
        (shardOk bs = true → ((shardOf bs).source ≠ 2 ∨ (shardOf bs).ns ∈ x.nvme) →
          (w.assembling = none → w.nextGen = 1 → refuses 1) ∧
          (w.assembling = none → w.nextGen ≠ 1 → exec (.shard fn) s = .next s1) ∧
          (∀ g, w.assembling = some g → exec (.shard fn) s = .next (submitShard s fn c i w g (shardOf bs))))))) ∧
  (∀ (c i : Nat) (x : Ctx) (w : WeightSet) (g : Nat × Gen) (s : State), Map.find? s.m.ctxs c = some x → Map.find? x.wsets i = some w → w.assembling = some g →
    exec (.generationTimeout c i) s = .next (timeOutGen { s with m := { s.m with ns := max s.m.ns g.2.expires } } x.fn c i g)) ∧
  (∀ (c i idx fn : Nat) (g : Nat × Gen) (sh : Shard) (data : List Byte) (s : State), shardPending s c i idx = some (fn, g, sh) →
    (∀ m pts, placeShard s.m c g.2 sh data = .done m pts → exec (.shardComplete c i idx data) s = .next (shardGood { s with m := m } fn c i g.1 idx pts)) ∧
    (placeShard s.m c g.2 sh data = .fatal → exec (.shardComplete c i idx data) s = .next (failGen s fn c i g.1)) ∧
    (∀ e, placeShard s.m c g.2 sh data = .miss e → Does (.shardComplete c i idx data) s (tableFails s.m c 0 e)) ∧
    (sh.source = 2 → (Map.find? g.2.rereads idx).getD 0 < 3 → Does (.shardCodeError c i idx) s (s.m.updSet c i (fun w =>
      { w with gens := Map.upd w.gens g.1 (fun g' => { g' with rereads := Map.ins g'.rereads idx ((Map.find? g.2.rereads idx).getD 0 + 1) }) }))) ∧
    ((sh.source ≠ 2 ∨ 3 ≤ (Map.find? g.2.rereads idx).getD 0) → exec (.shardCodeError c i idx) s = .next (report { s with m := s.m.updSet c i (fun w =>
      { w with gens := Map.upd w.gens g.1 (fun g' => { g' with pend := g'.pend.filter (fun y => y.idx != idx), rereads := Map.del g'.rereads idx }) }) } fn (statusBytes 1 c i g.1 idx)))) ∧
  (∀ (fn : Nat) (value : Word) (f : Fn) (s : State), fnOf s fn = some f →
    exec (.intakeStatusConsumer fn value) s = .next (flushStatus fn f.held (s.updFn fn (fun f => { f with intakeStatus := { f.intakeStatus with cons := value.toNat } }))))

/-- Writes of a function's registers: queues, counters, time synchronisation, intake, enabling (R264, R294, R305,
R306, R321). -/
def Obligations.RegisterEvents : Prop :=
  (∀ (fn : Nat) (f : Fn) (value : Word) (s : State), fnOf s fn = some f →
    (∀ q r, Map.find? f.queues q = some r → r.prod = r.cons → exec (.queueSelectorWrite fn q value) s = .next (s.updFn fn (fun f => { f with queues := Map.ins f.queues q { r with sel := value.toNat } }))) ∧
    (∀ q r, Map.find? f.queues q = some r → r.prod ≠ r.cons → exec (.queueSelectorWrite fn q value) s = .next (s.updFn fn (fun f => { f with status := 1 }))) ∧
    (f.tsync = none → (ownCtx s.m fn value.toNat).isSome = true → exec (.tsync fn value) s = .next (s.updFn fn (fun f => { f with tsync := some value.toNat }))) ∧
    ((f.tsync.isSome = true ∨ ownCtx s.m fn value.toNat = none) → exec (.tsync fn value) s = .next s) ∧
    (∀ c, f.tsync = some c → exec (.tsyncComplete fn) s = .next (s.updFn fn (fun f => { f with tsync := none, tsyncDone := (f.tsyncDone + 1) % 4294967296 }))) ∧
    (f.tsync = none → NotDue (.tsyncComplete fn) s) ∧
    (ownCtx s.m fn (bits value 7 0) = none → exec (.csel fn value) s = .next (s.updFn fn (fun f => { f with csel := value.toNat, cval := 0 }))) ∧
    (∀ x, ownCtx s.m fn (bits value 7 0) = some x →
      let m := bringUp s.m.tickOn (bits value 7 0) (bits value 23 16)
      exec (.csel fn value) s = .next (State.updFn { s with m := m } fn (fun f =>
        { f with csel := value.toNat, cval := (Map.find? (m.ctx (bits value 7 0)).counters (bits value 23 16)).getD 0 }))) ∧
    (∀ off, off ≠ 0x10 → ownEvent off = true → NotDue (.registerWrite fn off value) s) ∧
    (∀ off, off ≠ 0x10 → ownEvent off = false → off % 4 = 0 → exec (.registerWrite fn off value) s = .next (s.updFn fn (registerWrite off value))) ∧
    (∀ off, ownEvent off = false → off % 4 ≠ 0 → exec (.registerWrite fn off value) s = .next s) ∧
    (let c := mbxBytes f
     let goes := fun i => exec (.registerWrite fn 0x10 value) s = exec i s
     (fieldAt c 0 2 = 1 → goes (.createCtx fn (fieldAt c 8 8) (fieldAt c 0x10 1))) ∧
     (fieldAt c 0 2 = 2 → goes (.runCtx fn (fieldAt c 8 1))) ∧
     (fieldAt c 0 2 = 3 → goes (.resetCtx fn (fieldAt c 8 1))) ∧
     (fieldAt c 0 2 = 4 → goes (.destroyCtx fn (fieldAt c 8 1))) ∧
     (fieldAt c 0 2 = 5 → goes (.wsreg fn (fieldAt c 8 1) (fieldAt c 9 1) (fieldAt c 0x0A 2))))) ∧
  (∀ (fn q : Nat) (value : Word) (s : State), fnOf s fn = none → NotDue (.queueSelectorWrite fn q value) s ∧ NotDue (.tsync fn value) s ∧
    NotDue (.tsyncComplete fn) s ∧ NotDue (.csel fn value) s ∧ ∀ off, NotDue (.registerWrite fn off value) s) ∧
  (∀ (f : Fn) (v : Word), registerWrite 0x210 v f = { f with freply0 := v } ∧ registerWrite 0x214 v f = { f with freply1 := v } ∧
    registerWrite 0x300 v f = { f with intake := { f.intake with base := f.intake.base / 4294967296 * 4294967296 + v.toNat } } ∧
    registerWrite 0x304 v f = { f with intake := { f.intake with base := f.intake.base % 4294967296 + v.toNat * 4294967296 } } ∧
    registerWrite 0x308 v f = { f with intake := { f.intake with entries := v.toNat } } ∧
    registerWrite 0x30C v f = { f with intake := { f.intake with prod := v.toNat } } ∧
    (∀ q o, q < 4 → o < 32 → registerWrite (0x100 + 32 * q + o) v f = { f with queues := Map.upd f.queues q (fun r => ringWrite r o 0x10 v) }) ∧
    (∀ off, 0x480 ≤ off → registerWrite off v f = f)) ∧
  (∀ (vf link : Nat) (on : Bool) (f : Fn) (s : State), Map.find? s.p.fns vf = some f → vf ≠ 0 → f.enabled ≠ on → link < 2 →
    exec (.vfEnable vf on link) s = .next (s.updFn vf (fun f => { f with enabled := on, home := if on = true then link else f.home })))

/-- A start: its chain of stages, failures, time-outs, recovery and the loss of power (R348, R351, R352, R353). -/
def Obligations.BootEvents : Prop :=
  (∀ (rs : List Bool) (s : State), (s.p.boot.phase = .off ∨ s.p.boot.phase = .recovery) →
    exec (.packageStart rs) s = .next (s.booted (s.p.boot.start rs))) ∧
  (∀ (rs : List Bool) (s : State), s.p.boot.phase = .ready → NotDue (.packageStart rs) s) ∧
  (∀ (stage : Nat) (s : State), s.p.boot.phase = .waiting stage →
    NotDue (.packageStart []) s ∧
    (∀ rs, exec (.packageStart (false :: rs)) s = .next (s.booted (s.p.boot.stepFails stage 5))) ∧
    exec .stageTimeout s = .next (s.booted (s.p.boot.stepFails stage 6)) ∧
    (∀ rs, let b := (s.p.boot.succeeds stage).chain rs ((rangeFrom 1 6).filter (fun i => decide (stage < i)))
      exec (.packageStart (true :: rs)) s = .next (if b.phase = .off ∨ b.phase = .recovery then s.booted b else { s with p := { s.p with boot := b } }))) ∧
  (∀ (stage result : Nat) (b : Boot), (b.stepFails stage result).phase = .off ∧
    (stage ≤ 4 → Map.find? (b.stepFails stage result).from_ stage = some b.src) ∧ (4 < stage → stage ∈ (b.stepFails stage result).skip)) ∧
  (∀ (rs : List Bool) (s : State), (s.p.boot.phase = .off ∨ s.p.boot.phase = .recovery) → s.p.boot.flash = [] → s.p.boot.nvme = [] → s.p.boot.skip = [] →
    ∃ t, exec (.packageStart rs) s = .next t ∧ t.p.boot.phase = .recovery ∧ t.p.boot.count = s.p.boot.count + 1 ∧
      (∃ f, t.p.fns = [(0, f)] ∧ f.enabled = true ∧ f.busy = false) ∧ t.m.ctxs = [] ∧ t.m.warps = []) ∧
  (∀ (s : State) (mid : Bool), s.p.boot.phase ≠ .off → (mid = false ∨ ∃ stage, s.p.boot.phase = .waiting stage) →
    ∃ t, exec (.powerLoss mid) s = .next t ∧ t.p.boot.phase = .off ∧ t.p.boot.flash = s.p.boot.flash ∧ t.p.boot.nvme = s.p.boot.nvme ∧
      t.p.boot.journal = s.p.boot.journal ∧ t.p.boot.minVer = s.p.boot.minVer ∧ t.p.boot.revoked = s.p.boot.revoked ∧ t.m.warps = [] ∧ t.m.ctxs = [] ∧ t.p.fns = []) ∧
  (∀ (s : State) (mid : Bool), s.p.boot.phase = .off → NotDue (.powerLoss mid) s ∧ NotDue .stageTimeout s)

/-- Every step keeps the package sound: power limit, slot tables and journal (R18, R313, R314, R352). -/
def Obligations.PackageStays : Prop :=
  Stays (fun s => SoundPackage s.p)

/-- No instruction that a warp issues changes the package around the cores (R20, R83). -/
def Obligations.WarpsLeavePackage : Prop :=
  ∀ (i : Instr) (q : Req) (s t : State), reqOf i = some q → exec i s = .next t →
    t.p = s.p ∧ t.agenda = s.agenda ∧ t.cur = s.cur

/-- A step executes the decoded instruction; an event of the agenda is executed; an undecodable word traps ILLEGAL
(R48, R49, R50, R66, R67). -/
def Obligations.StepRuns : Prop :=
  (∀ s : State, s.m.rebaseDue = true → step s = followed false (exec .rebase s)) ∧
  ∀ s : State, s.m.rebaseDue = false →
  (∀ (c : Clause) (w1 : Word) (i : Instr), s.agenda = [] → canIssue s.m s.cur = true →
    s.me.path.spilled = false → s.me.path.clause = some c → Fetches s.m s.cur c w1 i →
    step s = followed true (noted (exec i s))) ∧
  (∀ (m : Mach) (c : Clause) (w1 : Word) (i : Instr), s.agenda = [] → canIssue s.m s.cur = true →
    s.me.path.spilled = false → s.me.path.clause = none → enterClause s.m s.cur = .ok m →
    (m.warp s.cur).path.clause = some c → c.word.getLsbD 6 = false → Fetches m s.cur c w1 i →
    step s = followed true (noted (exec i { s with m := m }))) ∧
  (∀ (c : Clause) (w1 : Word) (e : DecodeError), s.agenda = [] → canIssue s.m s.cur = true →
    s.me.path.spilled = false → s.me.path.clause = some c → fetchWord s.m s.cur s.me.path.pc = .ok w1 →
    twoWords w1.toNat = false → decode w1 0 = .error e →
    step s = followed true (noted (.next (s.trapped s.m { s.m.fault s.cur (bits w1 25 24) .illegal with tmask := s.me.path.mask, tinfo := w1 })))) ∧
  (∀ (i : Instr) (rest : List Move), s.agenda = .event i :: rest →
    step s = followed false (exec i { s with agenda := rest, tried := [] })) ∧
  (∀ (k : Nat) (rest : List Move), s.agenda = .warp k :: rest →
    (canIssue s.m k = false → step s = followed false (.next { s with agenda := rest })) ∧
    (∀ (c : Clause) (w1 : Word) (i : Instr), canIssue s.m k = true → (s.m.warp k).path.spilled = false → (s.m.warp k).path.clause = some c →
      Fetches s.m k c w1 i → step s = followed false (noted (exec i { s with agenda := rest, cur := k })))) ∧
  (s.agenda = [] → canIssue s.m s.cur = false → step s = followed true (.next s))

/-- The state after reset: powered off, empty, canonical and sound; a step leaves it (R18, R348). -/
def Obligations.ResetState : Prop :=
  State.reset.m.mem = [] ∧ Mem.wf State.reset.m.mem = true ∧ SoundPackage State.reset.p ∧
  State.reset.p.power = 2800 ∧ State.reset.p.boot.phase = .off ∧ State.reset.m.ctxs = [] ∧ State.reset.m.blocks = [] ∧
  State.reset.m.warps = [] ∧ State.reset.m.vats = [] ∧ State.reset.m.ops = [] ∧ State.reset.p.fenced = [] ∧
  step State.reset = .next State.reset

/-- Decoding inverts encoding for every instruction and every operand value (R53, R54, R56, R65). -/
def Obligations.RoundTrip : Prop :=
  (∀ (i : Instr) (rest : List Byte), encode i ≠ [] → decodeBytes (encodeBytes i ++ rest) = .ok (i, rest)) ∧
  (∀ i : Instr, (reqOf i).isSome = true ↔ encode i ≠ [])

/-- Words that the spec writes out decode to the instructions they stand for; the zero word to none (R54, R56, R65).
-/
def Obligations.DecodedWords : Prop :=
  decodeTableWord 32 0x041420C0 = some (.iadd ⟨0, 5, 2, 3, 0, 0⟩) ∧
  decodeTableWord 32 0x1020824B = some (.andn ⟨0, 8, 8, 9, 0, 2⟩) ∧
  decodeTableWord 32 0x48480008 = some (.icmpi ⟨0, 2, 2, 0, 8⟩) ∧
  decodeTableWord 32 0x4C0C1080 = some (.pand ⟨3, 1, 2, 0⟩) ∧
  decodeTableWord 32 0x601420C0 = some (.fadd ⟨0, 5, 2, 3, 0, 0⟩) ∧
  decodeTableWord 32 0x701C20C4 = some (.ffma ⟨0, 7, 2, 3, 4⟩) ∧
  decodeTableWord 32 0x88182110 = some (.ld ⟨0, 6, 2, 4, 2, 0⟩) ∧
  decodeTableWord 32 0x98242200 = some (.atomAdd ⟨0, 9, 2, 8⟩) ∧
  decodeTableWord 64 0x07000000A9508309 = some (.copy ⟨1, 20, 0, 0, 1, 12, 9, 7⟩) ∧
  decodeTableWord 32 0xC0008089 = some (.tld ⟨0, 8, 2, 9⟩) ∧
  decodeTableWord 64 0x00000400D2040020 = some (.mma ⟨1, 0, 0, 0, 1, 1, 0⟩) ∧
  decodeTableWord 32 0xDD2FFFFC = some (.bra ⟨1, 1, 0xFFFFC⟩) ∧
  decodeTableWord 32 0xE80C0000 = some .join ∧
  decodeTableWord 32 0xF1154209 = some (.launch ⟨20, 8, 9⟩) ∧
  decodeTableWord 32 0xF9054401 = some (.vopen ⟨0, 20, 16, 1⟩) ∧
  decodeTableWord 32 0xFD000125 = some (.trap ⟨1, 0x125⟩) ∧
  decodeTableWord 32 0xFD08D180 = some (.srd ⟨13, 6⟩) ∧
  decodeTableWord 32 0x00000000 = none

/-- Register cache: the first line that an instruction misses is filled from the context image, and the instruction
goes on with it (R115, R116, R117, R118, R124, R330). -/
def Obligations.RegisterMisses : Prop :=
  ∀ (i : Instr) (q : Req) (s : State) (u : LineUse), reqOf i = some q → LetThrough q s → FirstMiss q s u → u.l ≤ 50 →
    usedLines s.m (s.m.blockOf s.cur).core < 6144 →
    (∀ key, s.linePlace u.l = some key → s.m.poisonAt key 128 = none →
      ∃ w, Filled s.me w u.l (Mem.readN s.m.mem key 128) ∧
        exec i s = exec i { s with m := (s.m.setWarp s.cur w).count (s.m.ctxOf s.cur) 1 1 }) ∧
    (∀ key unit, s.linePlace u.l = some key → s.m.poisonAt key 128 = some unit → u.operand = true →
      exec i s = .next { s with m := freezeCore s.m s.cur unit 0 { s.m.fault s.cur q.sc .errcons with va := 0 } }) ∧
    (s.linePlace u.l = none →
      exec i s = .next { s with m := stopCtx s.m (s.m.ctxOf s.cur) 5 (some (s.cur, { s.m.fault s.cur 0 .xlate with va := 0 })) })

/-- The first failing check decides: ILLHDR, ILLEGAL, CLASS, SCOPE, REGRANGE (R57, R66, R67). -/
def Obligations.OperandChecks : Prop :=
  ∀ (i : Instr) (q : Req) (s : State), reqOf i = some q → (Map.find? s.m.warps s.cur).isSome = true → canIssue s.m s.cur = true →
    s.me.path.spilled = false →
    let f := { s.m.fault s.cur q.sc .illegal with tinfo := word1 i }
    let c := s.me.path.clause.getD { hdr := 0, word := 0, cls := 0, stop := 0 }
    let cut := q.words = 2 ∧ s.me.path.pc + 4 = c.stop
    let legal := i.wf = true ∧ legalHere i s.me.trap.isSome = true ∧ (q.last = true → s.me.path.pc + 4 = c.stop)
    let classOk := (q.cls = 0 ∨ c.cls = q.cls) ∧ (roleAllows s.me.role c.cls = true ∨ s.me.trap.isSome = true)
    let scopeOk := (q.sc < 2 ∨ s.me.trap = none) ∧ (q.sc = 2 → s.me.set.isSome = true) ∧
      (q.quad = true → (s.me.set.map (fun i => ((s.m.block s.me.block).set i).size)).getD 0 = 4)
    (cut → exec i s = .next (s.trapped s.m { f with cause := .illhdr, tinfo := c.word })) ∧
    (¬ cut → ¬ legal → exec i s = .next (s.trapped s.m f)) ∧
    (¬ cut → legal → ¬ classOk → exec i s = .next (s.trapped s.m { f with cause := .cls })) ∧
    (¬ cut → legal → classOk → ¬ scopeOk → exec i s = .next (s.trapped s.m { f with cause := .scope })) ∧
    (¬ cut → legal → classOk → scopeOk → ∀ r, q.vecs.find? (fun r => decide (s.me.nv ≤ r)) = some r →
      exec i s = .next (s.trapped s.m { f with cause := .regrange, tinfo := BitVec.ofNat 32 r }))

/-- Predicate fields: values above 7 and a destination of 0 fault ILLEGAL, p0 reads true (R60). -/
def Obligations.PredicateFields : Prop :=
  (∀ i, (∃ p ∈ predicateSources i, 8 ≤ p.toNat) → Illegal i) ∧
  (∀ i d, predicateDestination i = some d → d = 0 ∨ 8 ≤ d → Illegal i) ∧
  (∀ (w : Warp) (n : Nat), n < 32 → (w.getP 0).getLsbD n = true)
end

