-- ==== Sys2Proof/Laws/Map.lean ====
section
/-!
SUPPORT. Laws of sparse maps: what a read finds after an insertion, a removal or a change, and that each keeps the order.
-/

namespace Sys2Proof.Machine.Map

variable {α : Type}

@[simp] theorem find?_ins_self (l : List (Nat × α)) (k : Nat) (a : α) : find? (ins l k a) k = some a := by
  induction l with
  | nil => simp [ins, find?]
  | cons e l ih =>
    obtain ⟨k', b⟩ := e
    unfold ins
    split
    · simp [find?]
    · split
      · simp [find?]
      · next h => simp [find?, Ne.symm h, ih]

theorem find?_ins_ne (l : List (Nat × α)) {k j : Nat} (a : α) (h : j ≠ k) : find? (ins l k a) j = find? l j := by
  induction l with
  | nil => simp [ins, find?, Ne.symm h]
  | cons e l ih =>
    obtain ⟨k', b⟩ := e
    unfold ins
    split
    · simp [find?, Ne.symm h]
    · split
      · next hk => subst hk; simp [find?, Ne.symm h]
      · simp only [find?, ih]

theorem find?_del_self (l : List (Nat × α)) (k : Nat) : find? (del l k) k = none := by
  induction l with
  | nil => rfl
  | cons e l ih =>
    obtain ⟨k', b⟩ := e
    by_cases h : k' = k
    · simpa [del, h] using ih
    · simpa [del, h, find?] using ih

theorem find?_del_ne (l : List (Nat × α)) {k j : Nat} (h : j ≠ k) : find? (del l k) j = find? l j := by
  induction l with
  | nil => rfl
  | cons e l ih =>
    obtain ⟨k', b⟩ := e
    by_cases hk : k' = k
    · subst hk; simpa [del, find?, Ne.symm h] using ih
    · simp only [del] at ih ⊢
      simp [hk, find?, ih]

theorem find?_upd_self (l : List (Nat × α)) (k : Nat) (f : α → α) : find? (upd l k f) k = (find? l k).map f := by
  induction l with
  | nil => rfl
  | cons e l ih =>
    obtain ⟨k', b⟩ := e
    by_cases h : k' = k
    · simp [upd, find?, h]
    · simpa [upd, find?, h] using ih

theorem find?_upd_ne (l : List (Nat × α)) {k j : Nat} (f : α → α) (h : j ≠ k) : find? (upd l k f) j = find? l j := by
  induction l with
  | nil => rfl
  | cons e l ih =>
    obtain ⟨k', b⟩ := e
    by_cases hk : k' = k
    · subst hk; simpa [upd, find?, Ne.symm h] using ih
    · simp only [upd] at ih ⊢
      simp [hk, find?, ih]

@[simp] theorem upd_id (l : List (Nat × α)) (k : Nat) : upd l k id = l := by
  simp [upd]

/-- A register file reads back what was written. -/
@[simp] theorem get_set_self {w : Nat} (l : List (Nat × BitVec w)) (k : Nat) (x : BitVec w) : get (set l k x) k = x := by
  unfold get set
  split
  · next h => simp [find?_del_self, h]
  · simp

theorem get_set_ne {w : Nat} (l : List (Nat × BitVec w)) {k j : Nat} (x : BitVec w) (h : j ≠ k) :
    get (set l k x) j = get l j := by
  unfold get set
  split
  · rw [find?_del_ne l h]
  · rw [find?_ins_ne l x h]

/-- Keys strictly rise, said pairwise. -/
theorem sorted_iff (l : List (Nat × α)) : sorted l = true ↔ l.Pairwise (fun a b => a.1 < b.1) := by
  induction l with
  | nil => simp [sorted]
  | cons a l ih =>
    cases l with
    | nil => simp [sorted]
    | cons b l =>
      simp only [sorted, Bool.and_eq_true, decide_eq_true_eq, ih, List.pairwise_cons]
      constructor
      · rintro ⟨hab, hb, hl⟩
        refine ⟨fun x hx => ?_, hb, hl⟩
        rcases List.mem_cons.1 hx with rfl | hx
        · exact hab
        · exact hab.trans (hb x hx)
      · rintro ⟨ha, hb, hl⟩
        exact ⟨ha b (by simp), hb, hl⟩

theorem sorted_filter {l : List (Nat × α)} (h : sorted l = true) (p : Nat × α → Bool) : sorted (l.filter p) = true := by
  rw [sorted_iff] at *
  exact h.filter p

theorem sorted_del {l : List (Nat × α)} (h : sorted l = true) (k : Nat) : sorted (del l k) = true := sorted_filter h _

theorem sorted_dropRange {l : List (Nat × α)} (h : sorted l = true) (lo hi : Nat) : sorted (dropRange l lo hi) = true :=
  sorted_filter h _

theorem mem_ins {l : List (Nat × α)} {k : Nat} {a : α} {e : Nat × α} (h : e ∈ ins l k a) : e = (k, a) ∨ e ∈ l := by
  induction l with
  | nil => simpa [ins] using h
  | cons x l ih =>
    obtain ⟨k', b⟩ := x
    unfold ins at h
    split at h
    · simpa using h
    · split at h
      · rcases List.mem_cons.1 h with h | h
        · exact .inl h
        · exact .inr (List.mem_cons_of_mem _ h)
      · rcases List.mem_cons.1 h with h | h
        · exact .inr (by simp [h])
        · exact (ih h).imp id (List.mem_cons_of_mem _)

theorem sorted_ins {l : List (Nat × α)} (h : sorted l = true) (k : Nat) (a : α) : sorted (ins l k a) = true := by
  rw [sorted_iff] at *
  induction l with
  | nil => simp [ins]
  | cons x l ih =>
    obtain ⟨k', b⟩ := x
    rw [List.pairwise_cons] at h
    unfold ins
    split
    · next hk =>
      refine List.pairwise_cons.2 ⟨fun e he => ?_, List.pairwise_cons.2 h⟩
      rcases List.mem_cons.1 he with rfl | he
      · exact hk
      · exact hk.trans (h.1 e he)
    · split
      · next hk => subst hk; exact List.pairwise_cons.2 h
      · next hk hne =>
        refine List.pairwise_cons.2 ⟨fun e he => ?_, ih h.2⟩
        rcases mem_ins he with rfl | he
        · show k' < k
          omega
        · exact h.1 e he

theorem sorted_upd {l : List (Nat × α)} (h : sorted l = true) (k : Nat) (f : α → α) : sorted (upd l k f) = true := by
  rw [sorted_iff] at *
  refine (List.pairwise_map.2 (h.imp ?_))
  intro a b hab
  have key (e : Nat × α) : (if e.1 = k then (e.1, f e.2) else e).1 = e.1 := by split <;> rfl
  rw [key, key]
  exact hab

end Sys2Proof.Machine.Map
end

