-- ==== Sys2Proof/Laws/Memory.lean ====
section
/-!
SUPPORT. Laws of memory: a write keeps the canonical form, reads back what it wrote and leaves every other byte alone.
-/

namespace Sys2Proof.Machine

namespace Map

theorem find?_append {α : Type} (a b : List (Nat × α)) (k : Nat) : find? (a ++ b) k = (find? a k).or (find? b k) := by
  induction a with
  | nil => simp [find?]
  | cons e a ih =>
    obtain ⟨k', x⟩ := e
    by_cases h : k' = k <;> simp [find?, h, ih]

theorem find?_filter {α : Type} (l : List (Nat × α)) (p : Nat → Bool) (k : Nat) :
    find? (l.filter (fun e => p e.1)) k = if p k then find? l k else none := by
  induction l with
  | nil => simp [find?]
  | cons e l ih =>
    obtain ⟨k', x⟩ := e
    by_cases h : k' = k
    · subst h; cases hp : p k' <;> simp [find?, hp, ih]
    · cases hp : p k' <;> simp [find?, hp, ih, h]

theorem find?_dropRange {α : Type} (l : List (Nat × α)) (lo hi k : Nat) :
    find? (dropRange l lo hi) k = if lo ≤ k ∧ k < hi then none else find? l k := by
  have h := find?_filter l (fun e => decide (e < lo) || decide (hi ≤ e)) k
  unfold dropRange
  rw [h]
  by_cases h1 : lo ≤ k <;> by_cases h2 : k < hi <;> simp [h1, h2]

end Map

namespace Mem

theorem mem_cells {key : Nat} {bs : List Byte} {c : Host.Cell} (h : c ∈ cells key bs) :
    key ≤ c.1 ∧ c.1 < key + bs.length ∧ unlisted c.1 ≠ some c.2 := by
  induction bs generalizing key with
  | nil => simp [cells] at h
  | cons b bs ih =>
    simp only [List.length_cons]
    unfold cells at h
    split at h
    · have := ih h; exact ⟨by omega, by omega, this.2.2⟩
    · next hu =>
      rcases List.mem_cons.1 h with rfl | h
      · exact ⟨Nat.le_refl _, by simp, hu⟩
      · have := ih h; exact ⟨by omega, by omega, this.2.2⟩

theorem sorted_cells (key : Nat) (bs : List Byte) : (cells key bs).Pairwise (fun a b => a.1 < b.1) := by
  induction bs generalizing key with
  | nil => simp [cells]
  | cons b bs ih =>
    unfold cells
    split
    · exact ih _
    · refine List.pairwise_cons.2 ⟨fun c hc => ?_, ih _⟩
      have := (mem_cells hc).1
      show key < c.1
      omega

theorem wf_iff (mem : List Host.Cell) :
    wf mem = true ↔ mem.Pairwise (fun a b => a.1 < b.1) ∧ ∀ c ∈ mem, unlisted c.1 ≠ some c.2 := by
  simp [wf, Map.sorted_iff]

theorem wf_filter {mem : List Host.Cell} (h : wf mem = true) (p : Host.Cell → Bool) : wf (mem.filter p) = true := by
  rw [wf_iff] at *
  exact ⟨h.1.filter p, fun c hc => h.2 c (List.mem_of_mem_filter hc)⟩

theorem wf_dropRange {mem : List Host.Cell} (h : wf mem = true) (lo hi : Nat) : wf (Map.dropRange mem lo hi) = true :=
  wf_filter h _

/-- A write keeps the canonical form. -/
theorem wf_write {mem : List Host.Cell} (h : wf mem = true) (key : Nat) (bs : List Byte) : wf (write mem key bs) = true := by
  rw [wf_iff] at *
  refine ⟨?_, fun c hc => ?_⟩
  · refine List.pairwise_append.2 ⟨List.pairwise_append.2 ⟨h.1.filter _, sorted_cells _ _, fun a ha b hb => ?_⟩,
      h.1.filter _, fun a ha b hb => ?_⟩
    · have := (mem_cells hb).1
      have ha := List.of_mem_filter ha
      simp only [decide_eq_true_eq] at ha
      omega
    · have hb := List.of_mem_filter hb
      simp only [decide_eq_true_eq] at hb
      rcases List.mem_append.1 ha with ha | ha
      · have ha := List.of_mem_filter ha
        simp only [decide_eq_true_eq] at ha
        omega
      · have := (mem_cells ha).2.1
        omega
  · rcases List.mem_append.1 hc with hc | hc
    · rcases List.mem_append.1 hc with hc | hc
      · exact h.2 c (List.mem_of_mem_filter hc)
      · exact (mem_cells hc).2.2
    · exact h.2 c (List.mem_of_mem_filter hc)

theorem find?_cells (key : Nat) (bs : List Byte) (j : Nat) :
    Map.find? (cells key bs) j =
      if key ≤ j ∧ j < key + bs.length then
        (if unlisted j = some (bs.getD (j - key) 0) then none else some (bs.getD (j - key) 0))
      else none := by
  induction bs generalizing key with
  | nil => simp [cells, Map.find?]
  | cons b bs ih =>
    simp only [List.length_cons]
    by_cases hj : key = j
    · subst hj
      unfold cells
      split
      · next hu =>
        rw [ih, if_neg (by omega), if_pos (by omega)]
        simp [hu]
      · next hu =>
        rw [if_pos (by omega)]
        simp [Map.find?, hu]
    · have step : Map.find? (cells key (b :: bs)) j = Map.find? (cells (key + 1) bs) j := by
        conv_lhs => unfold cells
        split
        · rfl
        · simp [Map.find?, hj]
      rw [step, ih]
      have e : (key + 1 ≤ j ∧ j < key + 1 + bs.length) = (key ≤ j ∧ j < key + (bs.length + 1)) := by
        simp only [eq_iff_iff]; omega
      simp only [e]
      by_cases hr : key ≤ j ∧ j < key + (bs.length + 1)
      · have : j - key = (j - (key + 1)) + 1 := by omega
        simp [hr, this]
      · simp [hr]

theorem find?_write (mem : List Host.Cell) (key : Nat) (bs : List Byte) (j : Nat) :
    Map.find? (write mem key bs) j =
      if key ≤ j ∧ j < key + bs.length then
        (if unlisted j = some (bs.getD (j - key) 0) then none else some (bs.getD (j - key) 0))
      else Map.find? mem j := by
  unfold write
  rw [Map.find?_append, Map.find?_append, find?_cells, Map.find?_filter mem (fun k => decide (k < key)),
    Map.find?_filter mem (fun k => decide (key + bs.length ≤ k))]
  have l : (decide (j < key) = true) = (j < key) := by simp
  have r : (decide (key + bs.length ≤ j) = true) = (key + bs.length ≤ j) := by simp
  simp only [l, r]
  by_cases h1 : j < key
  · have h2 : ¬ (key ≤ j ∧ j < key + bs.length) := by omega
    have h3 : ¬ key + bs.length ≤ j := by omega
    simp [h1, h2, h3]
  · by_cases h2 : key ≤ j ∧ j < key + bs.length
    · have h3 : ¬ key + bs.length ≤ j := by omega
      simp [h1, h2, h3]
    · have h3 : key + bs.length ≤ j := by omega
      simp [h1, h2, h3]

/-- A read of a byte that was written gives it back. -/
theorem read_write_self (mem : List Host.Cell) (key : Nat) (bs : List Byte) {i : Nat} (h : i < bs.length) :
    read (write mem key bs) (key + i) = bs.getD i 0 := by
  unfold read
  rw [find?_write, if_pos (by omega), Nat.add_sub_cancel_left]
  split
  · next hx =>
    split at hx
    · simp at hx
    · exact (Option.some.inj hx).symm
  · next hx =>
    split at hx
    · next hu => simp [hu]
    · simp at hx

/-- A write leaves every other byte alone. -/
theorem read_write_ne (mem : List Host.Cell) (key : Nat) (bs : List Byte) {j : Nat} (h : j < key ∨ key + bs.length ≤ j) :
    read (write mem key bs) j = read mem j := by
  unfold read
  rw [find?_write, if_neg (by omega)]

end Mem

/-- Storing bytes in a space keeps memory canonical. -/
theorem poke_wf {m : Mach} (h : Mem.wf m.mem = true) (key : Nat) (bs : List Byte) : Mem.wf (m.poke key bs).mem = true :=
  Mem.wf_write h key bs

end Sys2Proof.Machine
end

