-- ==== Sys2Proof/Laws/State.lean ====
section
/-!
SUPPORT. What each update of the state leaves alone, field by field, and what a lookup finds after it.
-/

namespace Sys2Proof.Machine

/-! `Mach.setWarp` -/

@[simp] theorem Mach.setWarp_mem (m : Mach) (k : Nat) (w : Warp) : (m.setWarp k w).mem = m.mem := rfl
@[simp] theorem Mach.setWarp_poison (m : Mach) (k : Nat) (w : Warp) : (m.setWarp k w).poison = m.poison := rfl
@[simp] theorem Mach.setWarp_wts (m : Mach) (k : Nat) (w : Warp) : (m.setWarp k w).wts = m.wts := rfl
@[simp] theorem Mach.setWarp_rts (m : Mach) (k : Nat) (w : Warp) : (m.setWarp k w).rts = m.rts := rfl
@[simp] theorem Mach.setWarp_epoch (m : Mach) (k : Nat) (w : Warp) : (m.setWarp k w).epoch = m.epoch := rfl
@[simp] theorem Mach.setWarp_l1 (m : Mach) (k : Nat) (w : Warp) : (m.setWarp k w).l1 = m.l1 := rfl
@[simp] theorem Mach.setWarp_replicas (m : Mach) (k : Nat) (w : Warp) : (m.setWarp k w).replicas = m.replicas := rfl
@[simp] theorem Mach.setWarp_tags (m : Mach) (k : Nat) (w : Warp) : (m.setWarp k w).tags = m.tags := rfl
@[simp] theorem Mach.setWarp_blocks (m : Mach) (k : Nat) (w : Warp) : (m.setWarp k w).blocks = m.blocks := rfl
@[simp] theorem Mach.setWarp_ctxs (m : Mach) (k : Nat) (w : Warp) : (m.setWarp k w).ctxs = m.ctxs := rfl
@[simp] theorem Mach.setWarp_vats (m : Mach) (k : Nat) (w : Warp) : (m.setWarp k w).vats = m.vats := rfl
@[simp] theorem Mach.setWarp_teamCtx (m : Mach) (k : Nat) (w : Warp) : (m.setWarp k w).teamCtx = m.teamCtx := rfl
@[simp] theorem Mach.setWarp_ops (m : Mach) (k : Nat) (w : Warp) : (m.setWarp k w).ops = m.ops := rfl
@[simp] theorem Mach.setWarp_nextBlock (m : Mach) (k : Nat) (w : Warp) : (m.setWarp k w).nextBlock = m.nextBlock := rfl
@[simp] theorem Mach.setWarp_nextVat (m : Mach) (k : Nat) (w : Warp) : (m.setWarp k w).nextVat = m.nextVat := rfl
@[simp] theorem Mach.setWarp_nextOp (m : Mach) (k : Nat) (w : Warp) : (m.setWarp k w).nextOp = m.nextOp := rfl
@[simp] theorem Mach.setWarp_marks (m : Mach) (k : Nat) (w : Warp) : (m.setWarp k w).marks = m.marks := rfl
@[simp] theorem Mach.setWarp_copyTurn (m : Mach) (k : Nat) (w : Warp) : (m.setWarp k w).copyTurn = m.copyTurn := rfl
@[simp] theorem Mach.setWarp_clk (m : Mach) (k : Nat) (w : Warp) : (m.setWarp k w).clk = m.clk := rfl
@[simp] theorem Mach.setWarp_ns (m : Mach) (k : Nat) (w : Warp) : (m.setWarp k w).ns = m.ns := rfl
@[simp] theorem Mach.setWarp_tick (m : Mach) (k : Nat) (w : Warp) : (m.setWarp k w).tick = m.tick := rfl
@[simp] theorem Mach.setWarp_msi (m : Mach) (k : Nat) (w : Warp) : (m.setWarp k w).msi = m.msi := rfl
@[simp] theorem Mach.setWarp_mism (m : Mach) (k : Nat) (w : Warp) : (m.setWarp k w).mism = m.mism := rfl
@[simp] theorem Mach.setWarp_frozen (m : Mach) (k : Nat) (w : Warp) : (m.setWarp k w).frozen = m.frozen := rfl
@[simp] theorem Mach.setWarp_charges (m : Mach) (k : Nat) (w : Warp) : (m.setWarp k w).charges = m.charges := rfl
@[simp] theorem Mach.setWarp_suspects (m : Mach) (k : Nat) (w : Warp) : (m.setWarp k w).suspects = m.suspects := rfl
@[simp] theorem Mach.setWarp_testDue (m : Mach) (k : Nat) (w : Warp) : (m.setWarp k w).testDue = m.testDue := rfl
@[simp] theorem Mach.setWarp_errs (m : Mach) (k : Nat) (w : Warp) : (m.setWarp k w).errs = m.errs := rfl
@[simp] theorem Mach.setWarp_errLog (m : Mach) (k : Nat) (w : Warp) : (m.setWarp k w).errLog = m.errLog := rfl
@[simp] theorem Mach.setWarp_laneOrders (m : Mach) (k : Nat) (w : Warp) : (m.setWarp k w).laneOrders = m.laneOrders := rfl
@[simp] theorem Mach.setWarp_exports (m : Mach) (k : Nat) (w : Warp) : (m.setWarp k w).exports = m.exports := rfl
@[simp] theorem Mach.setWarp_sent (m : Mach) (k : Nat) (w : Warp) : (m.setWarp k w).sent = m.sent := rfl

/-! `Mach.setBlock` -/

@[simp] theorem Mach.setBlock_mem (m : Mach) (k : Nat) (x : Block) : (m.setBlock k x).mem = m.mem := rfl
@[simp] theorem Mach.setBlock_poison (m : Mach) (k : Nat) (x : Block) : (m.setBlock k x).poison = m.poison := rfl
@[simp] theorem Mach.setBlock_wts (m : Mach) (k : Nat) (x : Block) : (m.setBlock k x).wts = m.wts := rfl
@[simp] theorem Mach.setBlock_rts (m : Mach) (k : Nat) (x : Block) : (m.setBlock k x).rts = m.rts := rfl
@[simp] theorem Mach.setBlock_epoch (m : Mach) (k : Nat) (x : Block) : (m.setBlock k x).epoch = m.epoch := rfl
@[simp] theorem Mach.setBlock_l1 (m : Mach) (k : Nat) (x : Block) : (m.setBlock k x).l1 = m.l1 := rfl
@[simp] theorem Mach.setBlock_replicas (m : Mach) (k : Nat) (x : Block) : (m.setBlock k x).replicas = m.replicas := rfl
@[simp] theorem Mach.setBlock_tags (m : Mach) (k : Nat) (x : Block) : (m.setBlock k x).tags = m.tags := rfl
@[simp] theorem Mach.setBlock_warps (m : Mach) (k : Nat) (x : Block) : (m.setBlock k x).warps = m.warps := rfl
@[simp] theorem Mach.setBlock_ctxs (m : Mach) (k : Nat) (x : Block) : (m.setBlock k x).ctxs = m.ctxs := rfl
@[simp] theorem Mach.setBlock_vats (m : Mach) (k : Nat) (x : Block) : (m.setBlock k x).vats = m.vats := rfl
@[simp] theorem Mach.setBlock_teamCtx (m : Mach) (k : Nat) (x : Block) : (m.setBlock k x).teamCtx = m.teamCtx := rfl
@[simp] theorem Mach.setBlock_ops (m : Mach) (k : Nat) (x : Block) : (m.setBlock k x).ops = m.ops := rfl
@[simp] theorem Mach.setBlock_nextBlock (m : Mach) (k : Nat) (x : Block) : (m.setBlock k x).nextBlock = m.nextBlock := rfl
@[simp] theorem Mach.setBlock_nextVat (m : Mach) (k : Nat) (x : Block) : (m.setBlock k x).nextVat = m.nextVat := rfl
@[simp] theorem Mach.setBlock_nextOp (m : Mach) (k : Nat) (x : Block) : (m.setBlock k x).nextOp = m.nextOp := rfl
@[simp] theorem Mach.setBlock_marks (m : Mach) (k : Nat) (x : Block) : (m.setBlock k x).marks = m.marks := rfl
@[simp] theorem Mach.setBlock_copyTurn (m : Mach) (k : Nat) (x : Block) : (m.setBlock k x).copyTurn = m.copyTurn := rfl
@[simp] theorem Mach.setBlock_clk (m : Mach) (k : Nat) (x : Block) : (m.setBlock k x).clk = m.clk := rfl
@[simp] theorem Mach.setBlock_ns (m : Mach) (k : Nat) (x : Block) : (m.setBlock k x).ns = m.ns := rfl
@[simp] theorem Mach.setBlock_tick (m : Mach) (k : Nat) (x : Block) : (m.setBlock k x).tick = m.tick := rfl
@[simp] theorem Mach.setBlock_msi (m : Mach) (k : Nat) (x : Block) : (m.setBlock k x).msi = m.msi := rfl
@[simp] theorem Mach.setBlock_mism (m : Mach) (k : Nat) (x : Block) : (m.setBlock k x).mism = m.mism := rfl
@[simp] theorem Mach.setBlock_frozen (m : Mach) (k : Nat) (x : Block) : (m.setBlock k x).frozen = m.frozen := rfl
@[simp] theorem Mach.setBlock_charges (m : Mach) (k : Nat) (x : Block) : (m.setBlock k x).charges = m.charges := rfl
@[simp] theorem Mach.setBlock_suspects (m : Mach) (k : Nat) (x : Block) : (m.setBlock k x).suspects = m.suspects := rfl
@[simp] theorem Mach.setBlock_testDue (m : Mach) (k : Nat) (x : Block) : (m.setBlock k x).testDue = m.testDue := rfl
@[simp] theorem Mach.setBlock_errs (m : Mach) (k : Nat) (x : Block) : (m.setBlock k x).errs = m.errs := rfl
@[simp] theorem Mach.setBlock_errLog (m : Mach) (k : Nat) (x : Block) : (m.setBlock k x).errLog = m.errLog := rfl
@[simp] theorem Mach.setBlock_laneOrders (m : Mach) (k : Nat) (x : Block) : (m.setBlock k x).laneOrders = m.laneOrders := rfl
@[simp] theorem Mach.setBlock_exports (m : Mach) (k : Nat) (x : Block) : (m.setBlock k x).exports = m.exports := rfl
@[simp] theorem Mach.setBlock_sent (m : Mach) (k : Nat) (x : Block) : (m.setBlock k x).sent = m.sent := rfl

/-! `Mach.setCtx` -/

@[simp] theorem Mach.setCtx_mem (m : Mach) (k : Nat) (x : Ctx) : (m.setCtx k x).mem = m.mem := rfl
@[simp] theorem Mach.setCtx_poison (m : Mach) (k : Nat) (x : Ctx) : (m.setCtx k x).poison = m.poison := rfl
@[simp] theorem Mach.setCtx_wts (m : Mach) (k : Nat) (x : Ctx) : (m.setCtx k x).wts = m.wts := rfl
@[simp] theorem Mach.setCtx_rts (m : Mach) (k : Nat) (x : Ctx) : (m.setCtx k x).rts = m.rts := rfl
@[simp] theorem Mach.setCtx_epoch (m : Mach) (k : Nat) (x : Ctx) : (m.setCtx k x).epoch = m.epoch := rfl
@[simp] theorem Mach.setCtx_l1 (m : Mach) (k : Nat) (x : Ctx) : (m.setCtx k x).l1 = m.l1 := rfl
@[simp] theorem Mach.setCtx_replicas (m : Mach) (k : Nat) (x : Ctx) : (m.setCtx k x).replicas = m.replicas := rfl
@[simp] theorem Mach.setCtx_tags (m : Mach) (k : Nat) (x : Ctx) : (m.setCtx k x).tags = m.tags := rfl
@[simp] theorem Mach.setCtx_warps (m : Mach) (k : Nat) (x : Ctx) : (m.setCtx k x).warps = m.warps := rfl
@[simp] theorem Mach.setCtx_blocks (m : Mach) (k : Nat) (x : Ctx) : (m.setCtx k x).blocks = m.blocks := rfl
@[simp] theorem Mach.setCtx_vats (m : Mach) (k : Nat) (x : Ctx) : (m.setCtx k x).vats = m.vats := rfl
@[simp] theorem Mach.setCtx_teamCtx (m : Mach) (k : Nat) (x : Ctx) : (m.setCtx k x).teamCtx = m.teamCtx := rfl
@[simp] theorem Mach.setCtx_ops (m : Mach) (k : Nat) (x : Ctx) : (m.setCtx k x).ops = m.ops := rfl
@[simp] theorem Mach.setCtx_nextBlock (m : Mach) (k : Nat) (x : Ctx) : (m.setCtx k x).nextBlock = m.nextBlock := rfl
@[simp] theorem Mach.setCtx_nextVat (m : Mach) (k : Nat) (x : Ctx) : (m.setCtx k x).nextVat = m.nextVat := rfl
@[simp] theorem Mach.setCtx_nextOp (m : Mach) (k : Nat) (x : Ctx) : (m.setCtx k x).nextOp = m.nextOp := rfl
@[simp] theorem Mach.setCtx_marks (m : Mach) (k : Nat) (x : Ctx) : (m.setCtx k x).marks = m.marks := rfl
@[simp] theorem Mach.setCtx_copyTurn (m : Mach) (k : Nat) (x : Ctx) : (m.setCtx k x).copyTurn = m.copyTurn := rfl
@[simp] theorem Mach.setCtx_clk (m : Mach) (k : Nat) (x : Ctx) : (m.setCtx k x).clk = m.clk := rfl
@[simp] theorem Mach.setCtx_ns (m : Mach) (k : Nat) (x : Ctx) : (m.setCtx k x).ns = m.ns := rfl
@[simp] theorem Mach.setCtx_tick (m : Mach) (k : Nat) (x : Ctx) : (m.setCtx k x).tick = m.tick := rfl
@[simp] theorem Mach.setCtx_msi (m : Mach) (k : Nat) (x : Ctx) : (m.setCtx k x).msi = m.msi := rfl
@[simp] theorem Mach.setCtx_mism (m : Mach) (k : Nat) (x : Ctx) : (m.setCtx k x).mism = m.mism := rfl
@[simp] theorem Mach.setCtx_frozen (m : Mach) (k : Nat) (x : Ctx) : (m.setCtx k x).frozen = m.frozen := rfl
@[simp] theorem Mach.setCtx_charges (m : Mach) (k : Nat) (x : Ctx) : (m.setCtx k x).charges = m.charges := rfl
@[simp] theorem Mach.setCtx_suspects (m : Mach) (k : Nat) (x : Ctx) : (m.setCtx k x).suspects = m.suspects := rfl
@[simp] theorem Mach.setCtx_testDue (m : Mach) (k : Nat) (x : Ctx) : (m.setCtx k x).testDue = m.testDue := rfl
@[simp] theorem Mach.setCtx_errs (m : Mach) (k : Nat) (x : Ctx) : (m.setCtx k x).errs = m.errs := rfl
@[simp] theorem Mach.setCtx_errLog (m : Mach) (k : Nat) (x : Ctx) : (m.setCtx k x).errLog = m.errLog := rfl
@[simp] theorem Mach.setCtx_laneOrders (m : Mach) (k : Nat) (x : Ctx) : (m.setCtx k x).laneOrders = m.laneOrders := rfl
@[simp] theorem Mach.setCtx_exports (m : Mach) (k : Nat) (x : Ctx) : (m.setCtx k x).exports = m.exports := rfl
@[simp] theorem Mach.setCtx_sent (m : Mach) (k : Nat) (x : Ctx) : (m.setCtx k x).sent = m.sent := rfl

/-! `Mach.setVat` -/

@[simp] theorem Mach.setVat_mem (m : Mach) (k : Nat) (x : Vat) : (m.setVat k x).mem = m.mem := rfl
@[simp] theorem Mach.setVat_poison (m : Mach) (k : Nat) (x : Vat) : (m.setVat k x).poison = m.poison := rfl
@[simp] theorem Mach.setVat_wts (m : Mach) (k : Nat) (x : Vat) : (m.setVat k x).wts = m.wts := rfl
@[simp] theorem Mach.setVat_rts (m : Mach) (k : Nat) (x : Vat) : (m.setVat k x).rts = m.rts := rfl
@[simp] theorem Mach.setVat_epoch (m : Mach) (k : Nat) (x : Vat) : (m.setVat k x).epoch = m.epoch := rfl
@[simp] theorem Mach.setVat_l1 (m : Mach) (k : Nat) (x : Vat) : (m.setVat k x).l1 = m.l1 := rfl
@[simp] theorem Mach.setVat_replicas (m : Mach) (k : Nat) (x : Vat) : (m.setVat k x).replicas = m.replicas := rfl
@[simp] theorem Mach.setVat_tags (m : Mach) (k : Nat) (x : Vat) : (m.setVat k x).tags = m.tags := rfl
@[simp] theorem Mach.setVat_warps (m : Mach) (k : Nat) (x : Vat) : (m.setVat k x).warps = m.warps := rfl
@[simp] theorem Mach.setVat_blocks (m : Mach) (k : Nat) (x : Vat) : (m.setVat k x).blocks = m.blocks := rfl
@[simp] theorem Mach.setVat_ctxs (m : Mach) (k : Nat) (x : Vat) : (m.setVat k x).ctxs = m.ctxs := rfl
@[simp] theorem Mach.setVat_teamCtx (m : Mach) (k : Nat) (x : Vat) : (m.setVat k x).teamCtx = m.teamCtx := rfl
@[simp] theorem Mach.setVat_ops (m : Mach) (k : Nat) (x : Vat) : (m.setVat k x).ops = m.ops := rfl
@[simp] theorem Mach.setVat_nextBlock (m : Mach) (k : Nat) (x : Vat) : (m.setVat k x).nextBlock = m.nextBlock := rfl
@[simp] theorem Mach.setVat_nextVat (m : Mach) (k : Nat) (x : Vat) : (m.setVat k x).nextVat = m.nextVat := rfl
@[simp] theorem Mach.setVat_nextOp (m : Mach) (k : Nat) (x : Vat) : (m.setVat k x).nextOp = m.nextOp := rfl
@[simp] theorem Mach.setVat_marks (m : Mach) (k : Nat) (x : Vat) : (m.setVat k x).marks = m.marks := rfl
@[simp] theorem Mach.setVat_copyTurn (m : Mach) (k : Nat) (x : Vat) : (m.setVat k x).copyTurn = m.copyTurn := rfl
@[simp] theorem Mach.setVat_clk (m : Mach) (k : Nat) (x : Vat) : (m.setVat k x).clk = m.clk := rfl
@[simp] theorem Mach.setVat_ns (m : Mach) (k : Nat) (x : Vat) : (m.setVat k x).ns = m.ns := rfl
@[simp] theorem Mach.setVat_tick (m : Mach) (k : Nat) (x : Vat) : (m.setVat k x).tick = m.tick := rfl
@[simp] theorem Mach.setVat_msi (m : Mach) (k : Nat) (x : Vat) : (m.setVat k x).msi = m.msi := rfl
@[simp] theorem Mach.setVat_mism (m : Mach) (k : Nat) (x : Vat) : (m.setVat k x).mism = m.mism := rfl
@[simp] theorem Mach.setVat_frozen (m : Mach) (k : Nat) (x : Vat) : (m.setVat k x).frozen = m.frozen := rfl
@[simp] theorem Mach.setVat_charges (m : Mach) (k : Nat) (x : Vat) : (m.setVat k x).charges = m.charges := rfl
@[simp] theorem Mach.setVat_suspects (m : Mach) (k : Nat) (x : Vat) : (m.setVat k x).suspects = m.suspects := rfl
@[simp] theorem Mach.setVat_testDue (m : Mach) (k : Nat) (x : Vat) : (m.setVat k x).testDue = m.testDue := rfl
@[simp] theorem Mach.setVat_errs (m : Mach) (k : Nat) (x : Vat) : (m.setVat k x).errs = m.errs := rfl
@[simp] theorem Mach.setVat_errLog (m : Mach) (k : Nat) (x : Vat) : (m.setVat k x).errLog = m.errLog := rfl
@[simp] theorem Mach.setVat_laneOrders (m : Mach) (k : Nat) (x : Vat) : (m.setVat k x).laneOrders = m.laneOrders := rfl
@[simp] theorem Mach.setVat_exports (m : Mach) (k : Nat) (x : Vat) : (m.setVat k x).exports = m.exports := rfl
@[simp] theorem Mach.setVat_sent (m : Mach) (k : Nat) (x : Vat) : (m.setVat k x).sent = m.sent := rfl

/-! `Mach.setOp` -/

@[simp] theorem Mach.setOp_mem (m : Mach) (k : Nat) (x : Op) : (m.setOp k x).mem = m.mem := rfl
@[simp] theorem Mach.setOp_poison (m : Mach) (k : Nat) (x : Op) : (m.setOp k x).poison = m.poison := rfl
@[simp] theorem Mach.setOp_wts (m : Mach) (k : Nat) (x : Op) : (m.setOp k x).wts = m.wts := rfl
@[simp] theorem Mach.setOp_rts (m : Mach) (k : Nat) (x : Op) : (m.setOp k x).rts = m.rts := rfl
@[simp] theorem Mach.setOp_epoch (m : Mach) (k : Nat) (x : Op) : (m.setOp k x).epoch = m.epoch := rfl
@[simp] theorem Mach.setOp_l1 (m : Mach) (k : Nat) (x : Op) : (m.setOp k x).l1 = m.l1 := rfl
@[simp] theorem Mach.setOp_replicas (m : Mach) (k : Nat) (x : Op) : (m.setOp k x).replicas = m.replicas := rfl
@[simp] theorem Mach.setOp_tags (m : Mach) (k : Nat) (x : Op) : (m.setOp k x).tags = m.tags := rfl
@[simp] theorem Mach.setOp_warps (m : Mach) (k : Nat) (x : Op) : (m.setOp k x).warps = m.warps := rfl
@[simp] theorem Mach.setOp_blocks (m : Mach) (k : Nat) (x : Op) : (m.setOp k x).blocks = m.blocks := rfl
@[simp] theorem Mach.setOp_ctxs (m : Mach) (k : Nat) (x : Op) : (m.setOp k x).ctxs = m.ctxs := rfl
@[simp] theorem Mach.setOp_vats (m : Mach) (k : Nat) (x : Op) : (m.setOp k x).vats = m.vats := rfl
@[simp] theorem Mach.setOp_teamCtx (m : Mach) (k : Nat) (x : Op) : (m.setOp k x).teamCtx = m.teamCtx := rfl
@[simp] theorem Mach.setOp_nextBlock (m : Mach) (k : Nat) (x : Op) : (m.setOp k x).nextBlock = m.nextBlock := rfl
@[simp] theorem Mach.setOp_nextVat (m : Mach) (k : Nat) (x : Op) : (m.setOp k x).nextVat = m.nextVat := rfl
@[simp] theorem Mach.setOp_nextOp (m : Mach) (k : Nat) (x : Op) : (m.setOp k x).nextOp = m.nextOp := rfl
@[simp] theorem Mach.setOp_marks (m : Mach) (k : Nat) (x : Op) : (m.setOp k x).marks = m.marks := rfl
@[simp] theorem Mach.setOp_copyTurn (m : Mach) (k : Nat) (x : Op) : (m.setOp k x).copyTurn = m.copyTurn := rfl
@[simp] theorem Mach.setOp_clk (m : Mach) (k : Nat) (x : Op) : (m.setOp k x).clk = m.clk := rfl
@[simp] theorem Mach.setOp_ns (m : Mach) (k : Nat) (x : Op) : (m.setOp k x).ns = m.ns := rfl
@[simp] theorem Mach.setOp_tick (m : Mach) (k : Nat) (x : Op) : (m.setOp k x).tick = m.tick := rfl
@[simp] theorem Mach.setOp_msi (m : Mach) (k : Nat) (x : Op) : (m.setOp k x).msi = m.msi := rfl
@[simp] theorem Mach.setOp_mism (m : Mach) (k : Nat) (x : Op) : (m.setOp k x).mism = m.mism := rfl
@[simp] theorem Mach.setOp_frozen (m : Mach) (k : Nat) (x : Op) : (m.setOp k x).frozen = m.frozen := rfl
@[simp] theorem Mach.setOp_charges (m : Mach) (k : Nat) (x : Op) : (m.setOp k x).charges = m.charges := rfl
@[simp] theorem Mach.setOp_suspects (m : Mach) (k : Nat) (x : Op) : (m.setOp k x).suspects = m.suspects := rfl
@[simp] theorem Mach.setOp_testDue (m : Mach) (k : Nat) (x : Op) : (m.setOp k x).testDue = m.testDue := rfl
@[simp] theorem Mach.setOp_errs (m : Mach) (k : Nat) (x : Op) : (m.setOp k x).errs = m.errs := rfl
@[simp] theorem Mach.setOp_errLog (m : Mach) (k : Nat) (x : Op) : (m.setOp k x).errLog = m.errLog := rfl
@[simp] theorem Mach.setOp_laneOrders (m : Mach) (k : Nat) (x : Op) : (m.setOp k x).laneOrders = m.laneOrders := rfl
@[simp] theorem Mach.setOp_exports (m : Mach) (k : Nat) (x : Op) : (m.setOp k x).exports = m.exports := rfl
@[simp] theorem Mach.setOp_sent (m : Mach) (k : Nat) (x : Op) : (m.setOp k x).sent = m.sent := rfl

/-! `Mach.updWarp` -/

@[simp] theorem Mach.updWarp_mem (m : Mach) (k : Nat) (f : Warp → Warp) : (m.updWarp k f).mem = m.mem := rfl
@[simp] theorem Mach.updWarp_poison (m : Mach) (k : Nat) (f : Warp → Warp) : (m.updWarp k f).poison = m.poison := rfl
@[simp] theorem Mach.updWarp_wts (m : Mach) (k : Nat) (f : Warp → Warp) : (m.updWarp k f).wts = m.wts := rfl
@[simp] theorem Mach.updWarp_rts (m : Mach) (k : Nat) (f : Warp → Warp) : (m.updWarp k f).rts = m.rts := rfl
@[simp] theorem Mach.updWarp_epoch (m : Mach) (k : Nat) (f : Warp → Warp) : (m.updWarp k f).epoch = m.epoch := rfl
@[simp] theorem Mach.updWarp_l1 (m : Mach) (k : Nat) (f : Warp → Warp) : (m.updWarp k f).l1 = m.l1 := rfl
@[simp] theorem Mach.updWarp_replicas (m : Mach) (k : Nat) (f : Warp → Warp) : (m.updWarp k f).replicas = m.replicas := rfl
@[simp] theorem Mach.updWarp_tags (m : Mach) (k : Nat) (f : Warp → Warp) : (m.updWarp k f).tags = m.tags := rfl
@[simp] theorem Mach.updWarp_blocks (m : Mach) (k : Nat) (f : Warp → Warp) : (m.updWarp k f).blocks = m.blocks := rfl
@[simp] theorem Mach.updWarp_ctxs (m : Mach) (k : Nat) (f : Warp → Warp) : (m.updWarp k f).ctxs = m.ctxs := rfl
@[simp] theorem Mach.updWarp_vats (m : Mach) (k : Nat) (f : Warp → Warp) : (m.updWarp k f).vats = m.vats := rfl
@[simp] theorem Mach.updWarp_teamCtx (m : Mach) (k : Nat) (f : Warp → Warp) : (m.updWarp k f).teamCtx = m.teamCtx := rfl
@[simp] theorem Mach.updWarp_ops (m : Mach) (k : Nat) (f : Warp → Warp) : (m.updWarp k f).ops = m.ops := rfl
@[simp] theorem Mach.updWarp_nextBlock (m : Mach) (k : Nat) (f : Warp → Warp) : (m.updWarp k f).nextBlock = m.nextBlock := rfl
@[simp] theorem Mach.updWarp_nextVat (m : Mach) (k : Nat) (f : Warp → Warp) : (m.updWarp k f).nextVat = m.nextVat := rfl
@[simp] theorem Mach.updWarp_nextOp (m : Mach) (k : Nat) (f : Warp → Warp) : (m.updWarp k f).nextOp = m.nextOp := rfl
@[simp] theorem Mach.updWarp_marks (m : Mach) (k : Nat) (f : Warp → Warp) : (m.updWarp k f).marks = m.marks := rfl
@[simp] theorem Mach.updWarp_copyTurn (m : Mach) (k : Nat) (f : Warp → Warp) : (m.updWarp k f).copyTurn = m.copyTurn := rfl
@[simp] theorem Mach.updWarp_clk (m : Mach) (k : Nat) (f : Warp → Warp) : (m.updWarp k f).clk = m.clk := rfl
@[simp] theorem Mach.updWarp_ns (m : Mach) (k : Nat) (f : Warp → Warp) : (m.updWarp k f).ns = m.ns := rfl
@[simp] theorem Mach.updWarp_tick (m : Mach) (k : Nat) (f : Warp → Warp) : (m.updWarp k f).tick = m.tick := rfl
@[simp] theorem Mach.updWarp_msi (m : Mach) (k : Nat) (f : Warp → Warp) : (m.updWarp k f).msi = m.msi := rfl
@[simp] theorem Mach.updWarp_mism (m : Mach) (k : Nat) (f : Warp → Warp) : (m.updWarp k f).mism = m.mism := rfl
@[simp] theorem Mach.updWarp_frozen (m : Mach) (k : Nat) (f : Warp → Warp) : (m.updWarp k f).frozen = m.frozen := rfl
@[simp] theorem Mach.updWarp_charges (m : Mach) (k : Nat) (f : Warp → Warp) : (m.updWarp k f).charges = m.charges := rfl
@[simp] theorem Mach.updWarp_suspects (m : Mach) (k : Nat) (f : Warp → Warp) : (m.updWarp k f).suspects = m.suspects := rfl
@[simp] theorem Mach.updWarp_testDue (m : Mach) (k : Nat) (f : Warp → Warp) : (m.updWarp k f).testDue = m.testDue := rfl
@[simp] theorem Mach.updWarp_errs (m : Mach) (k : Nat) (f : Warp → Warp) : (m.updWarp k f).errs = m.errs := rfl
@[simp] theorem Mach.updWarp_errLog (m : Mach) (k : Nat) (f : Warp → Warp) : (m.updWarp k f).errLog = m.errLog := rfl
@[simp] theorem Mach.updWarp_laneOrders (m : Mach) (k : Nat) (f : Warp → Warp) : (m.updWarp k f).laneOrders = m.laneOrders := rfl
@[simp] theorem Mach.updWarp_exports (m : Mach) (k : Nat) (f : Warp → Warp) : (m.updWarp k f).exports = m.exports := rfl
@[simp] theorem Mach.updWarp_sent (m : Mach) (k : Nat) (f : Warp → Warp) : (m.updWarp k f).sent = m.sent := rfl

/-! `Mach.updBlock` -/

@[simp] theorem Mach.updBlock_mem (m : Mach) (k : Nat) (f : Block → Block) : (m.updBlock k f).mem = m.mem := rfl
@[simp] theorem Mach.updBlock_poison (m : Mach) (k : Nat) (f : Block → Block) : (m.updBlock k f).poison = m.poison := rfl
@[simp] theorem Mach.updBlock_wts (m : Mach) (k : Nat) (f : Block → Block) : (m.updBlock k f).wts = m.wts := rfl
@[simp] theorem Mach.updBlock_rts (m : Mach) (k : Nat) (f : Block → Block) : (m.updBlock k f).rts = m.rts := rfl
@[simp] theorem Mach.updBlock_epoch (m : Mach) (k : Nat) (f : Block → Block) : (m.updBlock k f).epoch = m.epoch := rfl
@[simp] theorem Mach.updBlock_l1 (m : Mach) (k : Nat) (f : Block → Block) : (m.updBlock k f).l1 = m.l1 := rfl
@[simp] theorem Mach.updBlock_replicas (m : Mach) (k : Nat) (f : Block → Block) : (m.updBlock k f).replicas = m.replicas := rfl
@[simp] theorem Mach.updBlock_tags (m : Mach) (k : Nat) (f : Block → Block) : (m.updBlock k f).tags = m.tags := rfl
@[simp] theorem Mach.updBlock_warps (m : Mach) (k : Nat) (f : Block → Block) : (m.updBlock k f).warps = m.warps := rfl
@[simp] theorem Mach.updBlock_ctxs (m : Mach) (k : Nat) (f : Block → Block) : (m.updBlock k f).ctxs = m.ctxs := rfl
@[simp] theorem Mach.updBlock_vats (m : Mach) (k : Nat) (f : Block → Block) : (m.updBlock k f).vats = m.vats := rfl
@[simp] theorem Mach.updBlock_teamCtx (m : Mach) (k : Nat) (f : Block → Block) : (m.updBlock k f).teamCtx = m.teamCtx := rfl
@[simp] theorem Mach.updBlock_ops (m : Mach) (k : Nat) (f : Block → Block) : (m.updBlock k f).ops = m.ops := rfl
@[simp] theorem Mach.updBlock_nextBlock (m : Mach) (k : Nat) (f : Block → Block) : (m.updBlock k f).nextBlock = m.nextBlock := rfl
@[simp] theorem Mach.updBlock_nextVat (m : Mach) (k : Nat) (f : Block → Block) : (m.updBlock k f).nextVat = m.nextVat := rfl
@[simp] theorem Mach.updBlock_nextOp (m : Mach) (k : Nat) (f : Block → Block) : (m.updBlock k f).nextOp = m.nextOp := rfl
@[simp] theorem Mach.updBlock_marks (m : Mach) (k : Nat) (f : Block → Block) : (m.updBlock k f).marks = m.marks := rfl
@[simp] theorem Mach.updBlock_copyTurn (m : Mach) (k : Nat) (f : Block → Block) : (m.updBlock k f).copyTurn = m.copyTurn := rfl
@[simp] theorem Mach.updBlock_clk (m : Mach) (k : Nat) (f : Block → Block) : (m.updBlock k f).clk = m.clk := rfl
@[simp] theorem Mach.updBlock_ns (m : Mach) (k : Nat) (f : Block → Block) : (m.updBlock k f).ns = m.ns := rfl
@[simp] theorem Mach.updBlock_tick (m : Mach) (k : Nat) (f : Block → Block) : (m.updBlock k f).tick = m.tick := rfl
@[simp] theorem Mach.updBlock_msi (m : Mach) (k : Nat) (f : Block → Block) : (m.updBlock k f).msi = m.msi := rfl
@[simp] theorem Mach.updBlock_mism (m : Mach) (k : Nat) (f : Block → Block) : (m.updBlock k f).mism = m.mism := rfl
@[simp] theorem Mach.updBlock_frozen (m : Mach) (k : Nat) (f : Block → Block) : (m.updBlock k f).frozen = m.frozen := rfl
@[simp] theorem Mach.updBlock_charges (m : Mach) (k : Nat) (f : Block → Block) : (m.updBlock k f).charges = m.charges := rfl
@[simp] theorem Mach.updBlock_suspects (m : Mach) (k : Nat) (f : Block → Block) : (m.updBlock k f).suspects = m.suspects := rfl
@[simp] theorem Mach.updBlock_testDue (m : Mach) (k : Nat) (f : Block → Block) : (m.updBlock k f).testDue = m.testDue := rfl
@[simp] theorem Mach.updBlock_errs (m : Mach) (k : Nat) (f : Block → Block) : (m.updBlock k f).errs = m.errs := rfl
@[simp] theorem Mach.updBlock_errLog (m : Mach) (k : Nat) (f : Block → Block) : (m.updBlock k f).errLog = m.errLog := rfl
@[simp] theorem Mach.updBlock_laneOrders (m : Mach) (k : Nat) (f : Block → Block) : (m.updBlock k f).laneOrders = m.laneOrders := rfl
@[simp] theorem Mach.updBlock_exports (m : Mach) (k : Nat) (f : Block → Block) : (m.updBlock k f).exports = m.exports := rfl
@[simp] theorem Mach.updBlock_sent (m : Mach) (k : Nat) (f : Block → Block) : (m.updBlock k f).sent = m.sent := rfl

/-! `Mach.updCtx` -/

@[simp] theorem Mach.updCtx_mem (m : Mach) (k : Nat) (f : Ctx → Ctx) : (m.updCtx k f).mem = m.mem := rfl
@[simp] theorem Mach.updCtx_poison (m : Mach) (k : Nat) (f : Ctx → Ctx) : (m.updCtx k f).poison = m.poison := rfl
@[simp] theorem Mach.updCtx_wts (m : Mach) (k : Nat) (f : Ctx → Ctx) : (m.updCtx k f).wts = m.wts := rfl
@[simp] theorem Mach.updCtx_rts (m : Mach) (k : Nat) (f : Ctx → Ctx) : (m.updCtx k f).rts = m.rts := rfl
@[simp] theorem Mach.updCtx_epoch (m : Mach) (k : Nat) (f : Ctx → Ctx) : (m.updCtx k f).epoch = m.epoch := rfl
@[simp] theorem Mach.updCtx_l1 (m : Mach) (k : Nat) (f : Ctx → Ctx) : (m.updCtx k f).l1 = m.l1 := rfl
@[simp] theorem Mach.updCtx_replicas (m : Mach) (k : Nat) (f : Ctx → Ctx) : (m.updCtx k f).replicas = m.replicas := rfl
@[simp] theorem Mach.updCtx_tags (m : Mach) (k : Nat) (f : Ctx → Ctx) : (m.updCtx k f).tags = m.tags := rfl
@[simp] theorem Mach.updCtx_warps (m : Mach) (k : Nat) (f : Ctx → Ctx) : (m.updCtx k f).warps = m.warps := rfl
@[simp] theorem Mach.updCtx_blocks (m : Mach) (k : Nat) (f : Ctx → Ctx) : (m.updCtx k f).blocks = m.blocks := rfl
@[simp] theorem Mach.updCtx_vats (m : Mach) (k : Nat) (f : Ctx → Ctx) : (m.updCtx k f).vats = m.vats := rfl
@[simp] theorem Mach.updCtx_teamCtx (m : Mach) (k : Nat) (f : Ctx → Ctx) : (m.updCtx k f).teamCtx = m.teamCtx := rfl
@[simp] theorem Mach.updCtx_ops (m : Mach) (k : Nat) (f : Ctx → Ctx) : (m.updCtx k f).ops = m.ops := rfl
@[simp] theorem Mach.updCtx_nextBlock (m : Mach) (k : Nat) (f : Ctx → Ctx) : (m.updCtx k f).nextBlock = m.nextBlock := rfl
@[simp] theorem Mach.updCtx_nextVat (m : Mach) (k : Nat) (f : Ctx → Ctx) : (m.updCtx k f).nextVat = m.nextVat := rfl
@[simp] theorem Mach.updCtx_nextOp (m : Mach) (k : Nat) (f : Ctx → Ctx) : (m.updCtx k f).nextOp = m.nextOp := rfl
@[simp] theorem Mach.updCtx_marks (m : Mach) (k : Nat) (f : Ctx → Ctx) : (m.updCtx k f).marks = m.marks := rfl
@[simp] theorem Mach.updCtx_copyTurn (m : Mach) (k : Nat) (f : Ctx → Ctx) : (m.updCtx k f).copyTurn = m.copyTurn := rfl
@[simp] theorem Mach.updCtx_clk (m : Mach) (k : Nat) (f : Ctx → Ctx) : (m.updCtx k f).clk = m.clk := rfl
@[simp] theorem Mach.updCtx_ns (m : Mach) (k : Nat) (f : Ctx → Ctx) : (m.updCtx k f).ns = m.ns := rfl
@[simp] theorem Mach.updCtx_tick (m : Mach) (k : Nat) (f : Ctx → Ctx) : (m.updCtx k f).tick = m.tick := rfl
@[simp] theorem Mach.updCtx_msi (m : Mach) (k : Nat) (f : Ctx → Ctx) : (m.updCtx k f).msi = m.msi := rfl
@[simp] theorem Mach.updCtx_mism (m : Mach) (k : Nat) (f : Ctx → Ctx) : (m.updCtx k f).mism = m.mism := rfl
@[simp] theorem Mach.updCtx_frozen (m : Mach) (k : Nat) (f : Ctx → Ctx) : (m.updCtx k f).frozen = m.frozen := rfl
@[simp] theorem Mach.updCtx_charges (m : Mach) (k : Nat) (f : Ctx → Ctx) : (m.updCtx k f).charges = m.charges := rfl
@[simp] theorem Mach.updCtx_suspects (m : Mach) (k : Nat) (f : Ctx → Ctx) : (m.updCtx k f).suspects = m.suspects := rfl
@[simp] theorem Mach.updCtx_testDue (m : Mach) (k : Nat) (f : Ctx → Ctx) : (m.updCtx k f).testDue = m.testDue := rfl
@[simp] theorem Mach.updCtx_errs (m : Mach) (k : Nat) (f : Ctx → Ctx) : (m.updCtx k f).errs = m.errs := rfl
@[simp] theorem Mach.updCtx_errLog (m : Mach) (k : Nat) (f : Ctx → Ctx) : (m.updCtx k f).errLog = m.errLog := rfl
@[simp] theorem Mach.updCtx_laneOrders (m : Mach) (k : Nat) (f : Ctx → Ctx) : (m.updCtx k f).laneOrders = m.laneOrders := rfl
@[simp] theorem Mach.updCtx_exports (m : Mach) (k : Nat) (f : Ctx → Ctx) : (m.updCtx k f).exports = m.exports := rfl
@[simp] theorem Mach.updCtx_sent (m : Mach) (k : Nat) (f : Ctx → Ctx) : (m.updCtx k f).sent = m.sent := rfl

/-! `Mach.updVat` -/

@[simp] theorem Mach.updVat_mem (m : Mach) (k : Nat) (f : Vat → Vat) : (m.updVat k f).mem = m.mem := rfl
@[simp] theorem Mach.updVat_poison (m : Mach) (k : Nat) (f : Vat → Vat) : (m.updVat k f).poison = m.poison := rfl
@[simp] theorem Mach.updVat_wts (m : Mach) (k : Nat) (f : Vat → Vat) : (m.updVat k f).wts = m.wts := rfl
@[simp] theorem Mach.updVat_rts (m : Mach) (k : Nat) (f : Vat → Vat) : (m.updVat k f).rts = m.rts := rfl
@[simp] theorem Mach.updVat_epoch (m : Mach) (k : Nat) (f : Vat → Vat) : (m.updVat k f).epoch = m.epoch := rfl
@[simp] theorem Mach.updVat_l1 (m : Mach) (k : Nat) (f : Vat → Vat) : (m.updVat k f).l1 = m.l1 := rfl
@[simp] theorem Mach.updVat_replicas (m : Mach) (k : Nat) (f : Vat → Vat) : (m.updVat k f).replicas = m.replicas := rfl
@[simp] theorem Mach.updVat_tags (m : Mach) (k : Nat) (f : Vat → Vat) : (m.updVat k f).tags = m.tags := rfl
@[simp] theorem Mach.updVat_warps (m : Mach) (k : Nat) (f : Vat → Vat) : (m.updVat k f).warps = m.warps := rfl
@[simp] theorem Mach.updVat_blocks (m : Mach) (k : Nat) (f : Vat → Vat) : (m.updVat k f).blocks = m.blocks := rfl
@[simp] theorem Mach.updVat_ctxs (m : Mach) (k : Nat) (f : Vat → Vat) : (m.updVat k f).ctxs = m.ctxs := rfl
@[simp] theorem Mach.updVat_teamCtx (m : Mach) (k : Nat) (f : Vat → Vat) : (m.updVat k f).teamCtx = m.teamCtx := rfl
@[simp] theorem Mach.updVat_ops (m : Mach) (k : Nat) (f : Vat → Vat) : (m.updVat k f).ops = m.ops := rfl
@[simp] theorem Mach.updVat_nextBlock (m : Mach) (k : Nat) (f : Vat → Vat) : (m.updVat k f).nextBlock = m.nextBlock := rfl
@[simp] theorem Mach.updVat_nextVat (m : Mach) (k : Nat) (f : Vat → Vat) : (m.updVat k f).nextVat = m.nextVat := rfl
@[simp] theorem Mach.updVat_nextOp (m : Mach) (k : Nat) (f : Vat → Vat) : (m.updVat k f).nextOp = m.nextOp := rfl
@[simp] theorem Mach.updVat_marks (m : Mach) (k : Nat) (f : Vat → Vat) : (m.updVat k f).marks = m.marks := rfl
@[simp] theorem Mach.updVat_copyTurn (m : Mach) (k : Nat) (f : Vat → Vat) : (m.updVat k f).copyTurn = m.copyTurn := rfl
@[simp] theorem Mach.updVat_clk (m : Mach) (k : Nat) (f : Vat → Vat) : (m.updVat k f).clk = m.clk := rfl
@[simp] theorem Mach.updVat_ns (m : Mach) (k : Nat) (f : Vat → Vat) : (m.updVat k f).ns = m.ns := rfl
@[simp] theorem Mach.updVat_tick (m : Mach) (k : Nat) (f : Vat → Vat) : (m.updVat k f).tick = m.tick := rfl
@[simp] theorem Mach.updVat_msi (m : Mach) (k : Nat) (f : Vat → Vat) : (m.updVat k f).msi = m.msi := rfl
@[simp] theorem Mach.updVat_mism (m : Mach) (k : Nat) (f : Vat → Vat) : (m.updVat k f).mism = m.mism := rfl
@[simp] theorem Mach.updVat_frozen (m : Mach) (k : Nat) (f : Vat → Vat) : (m.updVat k f).frozen = m.frozen := rfl
@[simp] theorem Mach.updVat_charges (m : Mach) (k : Nat) (f : Vat → Vat) : (m.updVat k f).charges = m.charges := rfl
@[simp] theorem Mach.updVat_suspects (m : Mach) (k : Nat) (f : Vat → Vat) : (m.updVat k f).suspects = m.suspects := rfl
@[simp] theorem Mach.updVat_testDue (m : Mach) (k : Nat) (f : Vat → Vat) : (m.updVat k f).testDue = m.testDue := rfl
@[simp] theorem Mach.updVat_errs (m : Mach) (k : Nat) (f : Vat → Vat) : (m.updVat k f).errs = m.errs := rfl
@[simp] theorem Mach.updVat_errLog (m : Mach) (k : Nat) (f : Vat → Vat) : (m.updVat k f).errLog = m.errLog := rfl
@[simp] theorem Mach.updVat_laneOrders (m : Mach) (k : Nat) (f : Vat → Vat) : (m.updVat k f).laneOrders = m.laneOrders := rfl
@[simp] theorem Mach.updVat_exports (m : Mach) (k : Nat) (f : Vat → Vat) : (m.updVat k f).exports = m.exports := rfl
@[simp] theorem Mach.updVat_sent (m : Mach) (k : Nat) (f : Vat → Vat) : (m.updVat k f).sent = m.sent := rfl

/-! `Mach.updOp` -/

@[simp] theorem Mach.updOp_mem (m : Mach) (k : Nat) (f : Op → Op) : (m.updOp k f).mem = m.mem := rfl
@[simp] theorem Mach.updOp_poison (m : Mach) (k : Nat) (f : Op → Op) : (m.updOp k f).poison = m.poison := rfl
@[simp] theorem Mach.updOp_wts (m : Mach) (k : Nat) (f : Op → Op) : (m.updOp k f).wts = m.wts := rfl
@[simp] theorem Mach.updOp_rts (m : Mach) (k : Nat) (f : Op → Op) : (m.updOp k f).rts = m.rts := rfl
@[simp] theorem Mach.updOp_epoch (m : Mach) (k : Nat) (f : Op → Op) : (m.updOp k f).epoch = m.epoch := rfl
@[simp] theorem Mach.updOp_l1 (m : Mach) (k : Nat) (f : Op → Op) : (m.updOp k f).l1 = m.l1 := rfl
@[simp] theorem Mach.updOp_replicas (m : Mach) (k : Nat) (f : Op → Op) : (m.updOp k f).replicas = m.replicas := rfl
@[simp] theorem Mach.updOp_tags (m : Mach) (k : Nat) (f : Op → Op) : (m.updOp k f).tags = m.tags := rfl
@[simp] theorem Mach.updOp_warps (m : Mach) (k : Nat) (f : Op → Op) : (m.updOp k f).warps = m.warps := rfl
@[simp] theorem Mach.updOp_blocks (m : Mach) (k : Nat) (f : Op → Op) : (m.updOp k f).blocks = m.blocks := rfl
@[simp] theorem Mach.updOp_ctxs (m : Mach) (k : Nat) (f : Op → Op) : (m.updOp k f).ctxs = m.ctxs := rfl
@[simp] theorem Mach.updOp_vats (m : Mach) (k : Nat) (f : Op → Op) : (m.updOp k f).vats = m.vats := rfl
@[simp] theorem Mach.updOp_teamCtx (m : Mach) (k : Nat) (f : Op → Op) : (m.updOp k f).teamCtx = m.teamCtx := rfl
@[simp] theorem Mach.updOp_nextBlock (m : Mach) (k : Nat) (f : Op → Op) : (m.updOp k f).nextBlock = m.nextBlock := rfl
@[simp] theorem Mach.updOp_nextVat (m : Mach) (k : Nat) (f : Op → Op) : (m.updOp k f).nextVat = m.nextVat := rfl
@[simp] theorem Mach.updOp_nextOp (m : Mach) (k : Nat) (f : Op → Op) : (m.updOp k f).nextOp = m.nextOp := rfl
@[simp] theorem Mach.updOp_marks (m : Mach) (k : Nat) (f : Op → Op) : (m.updOp k f).marks = m.marks := rfl
@[simp] theorem Mach.updOp_copyTurn (m : Mach) (k : Nat) (f : Op → Op) : (m.updOp k f).copyTurn = m.copyTurn := rfl
@[simp] theorem Mach.updOp_clk (m : Mach) (k : Nat) (f : Op → Op) : (m.updOp k f).clk = m.clk := rfl
@[simp] theorem Mach.updOp_ns (m : Mach) (k : Nat) (f : Op → Op) : (m.updOp k f).ns = m.ns := rfl
@[simp] theorem Mach.updOp_tick (m : Mach) (k : Nat) (f : Op → Op) : (m.updOp k f).tick = m.tick := rfl
@[simp] theorem Mach.updOp_msi (m : Mach) (k : Nat) (f : Op → Op) : (m.updOp k f).msi = m.msi := rfl
@[simp] theorem Mach.updOp_mism (m : Mach) (k : Nat) (f : Op → Op) : (m.updOp k f).mism = m.mism := rfl
@[simp] theorem Mach.updOp_frozen (m : Mach) (k : Nat) (f : Op → Op) : (m.updOp k f).frozen = m.frozen := rfl
@[simp] theorem Mach.updOp_charges (m : Mach) (k : Nat) (f : Op → Op) : (m.updOp k f).charges = m.charges := rfl
@[simp] theorem Mach.updOp_suspects (m : Mach) (k : Nat) (f : Op → Op) : (m.updOp k f).suspects = m.suspects := rfl
@[simp] theorem Mach.updOp_testDue (m : Mach) (k : Nat) (f : Op → Op) : (m.updOp k f).testDue = m.testDue := rfl
@[simp] theorem Mach.updOp_errs (m : Mach) (k : Nat) (f : Op → Op) : (m.updOp k f).errs = m.errs := rfl
@[simp] theorem Mach.updOp_errLog (m : Mach) (k : Nat) (f : Op → Op) : (m.updOp k f).errLog = m.errLog := rfl
@[simp] theorem Mach.updOp_laneOrders (m : Mach) (k : Nat) (f : Op → Op) : (m.updOp k f).laneOrders = m.laneOrders := rfl
@[simp] theorem Mach.updOp_exports (m : Mach) (k : Nat) (f : Op → Op) : (m.updOp k f).exports = m.exports := rfl
@[simp] theorem Mach.updOp_sent (m : Mach) (k : Nat) (f : Op → Op) : (m.updOp k f).sent = m.sent := rfl

/-! `Mach.count` -/

@[simp] theorem Mach.count_mem (m : Mach) (c i n : Nat) : (m.count c i n).mem = m.mem := rfl
@[simp] theorem Mach.count_poison (m : Mach) (c i n : Nat) : (m.count c i n).poison = m.poison := rfl
@[simp] theorem Mach.count_wts (m : Mach) (c i n : Nat) : (m.count c i n).wts = m.wts := rfl
@[simp] theorem Mach.count_rts (m : Mach) (c i n : Nat) : (m.count c i n).rts = m.rts := rfl
@[simp] theorem Mach.count_epoch (m : Mach) (c i n : Nat) : (m.count c i n).epoch = m.epoch := rfl
@[simp] theorem Mach.count_l1 (m : Mach) (c i n : Nat) : (m.count c i n).l1 = m.l1 := rfl
@[simp] theorem Mach.count_replicas (m : Mach) (c i n : Nat) : (m.count c i n).replicas = m.replicas := rfl
@[simp] theorem Mach.count_tags (m : Mach) (c i n : Nat) : (m.count c i n).tags = m.tags := rfl
@[simp] theorem Mach.count_warps (m : Mach) (c i n : Nat) : (m.count c i n).warps = m.warps := rfl
@[simp] theorem Mach.count_blocks (m : Mach) (c i n : Nat) : (m.count c i n).blocks = m.blocks := rfl
@[simp] theorem Mach.count_vats (m : Mach) (c i n : Nat) : (m.count c i n).vats = m.vats := rfl
@[simp] theorem Mach.count_teamCtx (m : Mach) (c i n : Nat) : (m.count c i n).teamCtx = m.teamCtx := rfl
@[simp] theorem Mach.count_ops (m : Mach) (c i n : Nat) : (m.count c i n).ops = m.ops := rfl
@[simp] theorem Mach.count_nextBlock (m : Mach) (c i n : Nat) : (m.count c i n).nextBlock = m.nextBlock := rfl
@[simp] theorem Mach.count_nextVat (m : Mach) (c i n : Nat) : (m.count c i n).nextVat = m.nextVat := rfl
@[simp] theorem Mach.count_nextOp (m : Mach) (c i n : Nat) : (m.count c i n).nextOp = m.nextOp := rfl
@[simp] theorem Mach.count_marks (m : Mach) (c i n : Nat) : (m.count c i n).marks = m.marks := rfl
@[simp] theorem Mach.count_copyTurn (m : Mach) (c i n : Nat) : (m.count c i n).copyTurn = m.copyTurn := rfl
@[simp] theorem Mach.count_clk (m : Mach) (c i n : Nat) : (m.count c i n).clk = m.clk := rfl
@[simp] theorem Mach.count_ns (m : Mach) (c i n : Nat) : (m.count c i n).ns = m.ns := rfl
@[simp] theorem Mach.count_tick (m : Mach) (c i n : Nat) : (m.count c i n).tick = m.tick := rfl
@[simp] theorem Mach.count_msi (m : Mach) (c i n : Nat) : (m.count c i n).msi = m.msi := rfl
@[simp] theorem Mach.count_mism (m : Mach) (c i n : Nat) : (m.count c i n).mism = m.mism := rfl
@[simp] theorem Mach.count_frozen (m : Mach) (c i n : Nat) : (m.count c i n).frozen = m.frozen := rfl
@[simp] theorem Mach.count_charges (m : Mach) (c i n : Nat) : (m.count c i n).charges = m.charges := rfl
@[simp] theorem Mach.count_suspects (m : Mach) (c i n : Nat) : (m.count c i n).suspects = m.suspects := rfl
@[simp] theorem Mach.count_testDue (m : Mach) (c i n : Nat) : (m.count c i n).testDue = m.testDue := rfl
@[simp] theorem Mach.count_errs (m : Mach) (c i n : Nat) : (m.count c i n).errs = m.errs := rfl
@[simp] theorem Mach.count_errLog (m : Mach) (c i n : Nat) : (m.count c i n).errLog = m.errLog := rfl
@[simp] theorem Mach.count_laneOrders (m : Mach) (c i n : Nat) : (m.count c i n).laneOrders = m.laneOrders := rfl
@[simp] theorem Mach.count_exports (m : Mach) (c i n : Nat) : (m.count c i n).exports = m.exports := rfl
@[simp] theorem Mach.count_sent (m : Mach) (c i n : Nat) : (m.count c i n).sent = m.sent := rfl

/-! `Mach.raise` -/

@[simp] theorem Mach.raise_mem (m : Mach) (f v : Nat) : (m.raise f v).mem = m.mem := rfl
@[simp] theorem Mach.raise_poison (m : Mach) (f v : Nat) : (m.raise f v).poison = m.poison := rfl
@[simp] theorem Mach.raise_wts (m : Mach) (f v : Nat) : (m.raise f v).wts = m.wts := rfl
@[simp] theorem Mach.raise_rts (m : Mach) (f v : Nat) : (m.raise f v).rts = m.rts := rfl
@[simp] theorem Mach.raise_epoch (m : Mach) (f v : Nat) : (m.raise f v).epoch = m.epoch := rfl
@[simp] theorem Mach.raise_l1 (m : Mach) (f v : Nat) : (m.raise f v).l1 = m.l1 := rfl
@[simp] theorem Mach.raise_replicas (m : Mach) (f v : Nat) : (m.raise f v).replicas = m.replicas := rfl
@[simp] theorem Mach.raise_tags (m : Mach) (f v : Nat) : (m.raise f v).tags = m.tags := rfl
@[simp] theorem Mach.raise_warps (m : Mach) (f v : Nat) : (m.raise f v).warps = m.warps := rfl
@[simp] theorem Mach.raise_blocks (m : Mach) (f v : Nat) : (m.raise f v).blocks = m.blocks := rfl
@[simp] theorem Mach.raise_ctxs (m : Mach) (f v : Nat) : (m.raise f v).ctxs = m.ctxs := rfl
@[simp] theorem Mach.raise_vats (m : Mach) (f v : Nat) : (m.raise f v).vats = m.vats := rfl
@[simp] theorem Mach.raise_teamCtx (m : Mach) (f v : Nat) : (m.raise f v).teamCtx = m.teamCtx := rfl
@[simp] theorem Mach.raise_ops (m : Mach) (f v : Nat) : (m.raise f v).ops = m.ops := rfl
@[simp] theorem Mach.raise_nextBlock (m : Mach) (f v : Nat) : (m.raise f v).nextBlock = m.nextBlock := rfl
@[simp] theorem Mach.raise_nextVat (m : Mach) (f v : Nat) : (m.raise f v).nextVat = m.nextVat := rfl
@[simp] theorem Mach.raise_nextOp (m : Mach) (f v : Nat) : (m.raise f v).nextOp = m.nextOp := rfl
@[simp] theorem Mach.raise_marks (m : Mach) (f v : Nat) : (m.raise f v).marks = m.marks := rfl
@[simp] theorem Mach.raise_copyTurn (m : Mach) (f v : Nat) : (m.raise f v).copyTurn = m.copyTurn := rfl
@[simp] theorem Mach.raise_clk (m : Mach) (f v : Nat) : (m.raise f v).clk = m.clk := rfl
@[simp] theorem Mach.raise_ns (m : Mach) (f v : Nat) : (m.raise f v).ns = m.ns := rfl
@[simp] theorem Mach.raise_tick (m : Mach) (f v : Nat) : (m.raise f v).tick = m.tick := rfl
@[simp] theorem Mach.raise_mism (m : Mach) (f v : Nat) : (m.raise f v).mism = m.mism := rfl
@[simp] theorem Mach.raise_frozen (m : Mach) (f v : Nat) : (m.raise f v).frozen = m.frozen := rfl
@[simp] theorem Mach.raise_charges (m : Mach) (f v : Nat) : (m.raise f v).charges = m.charges := rfl
@[simp] theorem Mach.raise_suspects (m : Mach) (f v : Nat) : (m.raise f v).suspects = m.suspects := rfl
@[simp] theorem Mach.raise_testDue (m : Mach) (f v : Nat) : (m.raise f v).testDue = m.testDue := rfl
@[simp] theorem Mach.raise_errs (m : Mach) (f v : Nat) : (m.raise f v).errs = m.errs := rfl
@[simp] theorem Mach.raise_errLog (m : Mach) (f v : Nat) : (m.raise f v).errLog = m.errLog := rfl
@[simp] theorem Mach.raise_laneOrders (m : Mach) (f v : Nat) : (m.raise f v).laneOrders = m.laneOrders := rfl
@[simp] theorem Mach.raise_exports (m : Mach) (f v : Nat) : (m.raise f v).exports = m.exports := rfl
@[simp] theorem Mach.raise_sent (m : Mach) (f v : Nat) : (m.raise f v).sent = m.sent := rfl

/-! `Mach.tickOn` -/

@[simp] theorem Mach.tickOn_mem (m : Mach) : (m.tickOn).mem = m.mem := rfl
@[simp] theorem Mach.tickOn_poison (m : Mach) : (m.tickOn).poison = m.poison := rfl
@[simp] theorem Mach.tickOn_wts (m : Mach) : (m.tickOn).wts = m.wts := rfl
@[simp] theorem Mach.tickOn_rts (m : Mach) : (m.tickOn).rts = m.rts := rfl
@[simp] theorem Mach.tickOn_epoch (m : Mach) : (m.tickOn).epoch = m.epoch := rfl
@[simp] theorem Mach.tickOn_l1 (m : Mach) : (m.tickOn).l1 = m.l1 := rfl
@[simp] theorem Mach.tickOn_replicas (m : Mach) : (m.tickOn).replicas = m.replicas := rfl
@[simp] theorem Mach.tickOn_tags (m : Mach) : (m.tickOn).tags = m.tags := rfl
@[simp] theorem Mach.tickOn_warps (m : Mach) : (m.tickOn).warps = m.warps := rfl
@[simp] theorem Mach.tickOn_blocks (m : Mach) : (m.tickOn).blocks = m.blocks := rfl
@[simp] theorem Mach.tickOn_ctxs (m : Mach) : (m.tickOn).ctxs = m.ctxs := rfl
@[simp] theorem Mach.tickOn_vats (m : Mach) : (m.tickOn).vats = m.vats := rfl
@[simp] theorem Mach.tickOn_teamCtx (m : Mach) : (m.tickOn).teamCtx = m.teamCtx := rfl
@[simp] theorem Mach.tickOn_ops (m : Mach) : (m.tickOn).ops = m.ops := rfl
@[simp] theorem Mach.tickOn_nextBlock (m : Mach) : (m.tickOn).nextBlock = m.nextBlock := rfl
@[simp] theorem Mach.tickOn_nextVat (m : Mach) : (m.tickOn).nextVat = m.nextVat := rfl
@[simp] theorem Mach.tickOn_nextOp (m : Mach) : (m.tickOn).nextOp = m.nextOp := rfl
@[simp] theorem Mach.tickOn_marks (m : Mach) : (m.tickOn).marks = m.marks := rfl
@[simp] theorem Mach.tickOn_copyTurn (m : Mach) : (m.tickOn).copyTurn = m.copyTurn := rfl
@[simp] theorem Mach.tickOn_msi (m : Mach) : (m.tickOn).msi = m.msi := rfl
@[simp] theorem Mach.tickOn_mism (m : Mach) : (m.tickOn).mism = m.mism := rfl
@[simp] theorem Mach.tickOn_frozen (m : Mach) : (m.tickOn).frozen = m.frozen := rfl
@[simp] theorem Mach.tickOn_charges (m : Mach) : (m.tickOn).charges = m.charges := rfl
@[simp] theorem Mach.tickOn_suspects (m : Mach) : (m.tickOn).suspects = m.suspects := rfl
@[simp] theorem Mach.tickOn_testDue (m : Mach) : (m.tickOn).testDue = m.testDue := rfl
@[simp] theorem Mach.tickOn_errs (m : Mach) : (m.tickOn).errs = m.errs := rfl
@[simp] theorem Mach.tickOn_errLog (m : Mach) : (m.tickOn).errLog = m.errLog := rfl
@[simp] theorem Mach.tickOn_laneOrders (m : Mach) : (m.tickOn).laneOrders = m.laneOrders := rfl
@[simp] theorem Mach.tickOn_exports (m : Mach) : (m.tickOn).exports = m.exports := rfl
@[simp] theorem Mach.tickOn_sent (m : Mach) : (m.tickOn).sent = m.sent := rfl

/-! `Mach.poke` -/

@[simp] theorem Mach.poke_wts (m : Mach) (k : Nat) (bs : List Byte) : (m.poke k bs).wts = m.wts := rfl
@[simp] theorem Mach.poke_rts (m : Mach) (k : Nat) (bs : List Byte) : (m.poke k bs).rts = m.rts := rfl
@[simp] theorem Mach.poke_epoch (m : Mach) (k : Nat) (bs : List Byte) : (m.poke k bs).epoch = m.epoch := rfl
@[simp] theorem Mach.poke_l1 (m : Mach) (k : Nat) (bs : List Byte) : (m.poke k bs).l1 = m.l1 := rfl
@[simp] theorem Mach.poke_replicas (m : Mach) (k : Nat) (bs : List Byte) : (m.poke k bs).replicas = m.replicas := rfl
@[simp] theorem Mach.poke_tags (m : Mach) (k : Nat) (bs : List Byte) : (m.poke k bs).tags = m.tags := rfl
@[simp] theorem Mach.poke_warps (m : Mach) (k : Nat) (bs : List Byte) : (m.poke k bs).warps = m.warps := rfl
@[simp] theorem Mach.poke_blocks (m : Mach) (k : Nat) (bs : List Byte) : (m.poke k bs).blocks = m.blocks := rfl
@[simp] theorem Mach.poke_ctxs (m : Mach) (k : Nat) (bs : List Byte) : (m.poke k bs).ctxs = m.ctxs := rfl
@[simp] theorem Mach.poke_vats (m : Mach) (k : Nat) (bs : List Byte) : (m.poke k bs).vats = m.vats := rfl
@[simp] theorem Mach.poke_teamCtx (m : Mach) (k : Nat) (bs : List Byte) : (m.poke k bs).teamCtx = m.teamCtx := rfl
@[simp] theorem Mach.poke_ops (m : Mach) (k : Nat) (bs : List Byte) : (m.poke k bs).ops = m.ops := rfl
@[simp] theorem Mach.poke_nextBlock (m : Mach) (k : Nat) (bs : List Byte) : (m.poke k bs).nextBlock = m.nextBlock := rfl
@[simp] theorem Mach.poke_nextVat (m : Mach) (k : Nat) (bs : List Byte) : (m.poke k bs).nextVat = m.nextVat := rfl
@[simp] theorem Mach.poke_nextOp (m : Mach) (k : Nat) (bs : List Byte) : (m.poke k bs).nextOp = m.nextOp := rfl
@[simp] theorem Mach.poke_marks (m : Mach) (k : Nat) (bs : List Byte) : (m.poke k bs).marks = m.marks := rfl
@[simp] theorem Mach.poke_copyTurn (m : Mach) (k : Nat) (bs : List Byte) : (m.poke k bs).copyTurn = m.copyTurn := rfl
@[simp] theorem Mach.poke_clk (m : Mach) (k : Nat) (bs : List Byte) : (m.poke k bs).clk = m.clk := rfl
@[simp] theorem Mach.poke_ns (m : Mach) (k : Nat) (bs : List Byte) : (m.poke k bs).ns = m.ns := rfl
@[simp] theorem Mach.poke_tick (m : Mach) (k : Nat) (bs : List Byte) : (m.poke k bs).tick = m.tick := rfl
@[simp] theorem Mach.poke_msi (m : Mach) (k : Nat) (bs : List Byte) : (m.poke k bs).msi = m.msi := rfl
@[simp] theorem Mach.poke_mism (m : Mach) (k : Nat) (bs : List Byte) : (m.poke k bs).mism = m.mism := rfl
@[simp] theorem Mach.poke_frozen (m : Mach) (k : Nat) (bs : List Byte) : (m.poke k bs).frozen = m.frozen := rfl
@[simp] theorem Mach.poke_charges (m : Mach) (k : Nat) (bs : List Byte) : (m.poke k bs).charges = m.charges := rfl
@[simp] theorem Mach.poke_suspects (m : Mach) (k : Nat) (bs : List Byte) : (m.poke k bs).suspects = m.suspects := rfl
@[simp] theorem Mach.poke_testDue (m : Mach) (k : Nat) (bs : List Byte) : (m.poke k bs).testDue = m.testDue := rfl
@[simp] theorem Mach.poke_errs (m : Mach) (k : Nat) (bs : List Byte) : (m.poke k bs).errs = m.errs := rfl
@[simp] theorem Mach.poke_errLog (m : Mach) (k : Nat) (bs : List Byte) : (m.poke k bs).errLog = m.errLog := rfl
@[simp] theorem Mach.poke_laneOrders (m : Mach) (k : Nat) (bs : List Byte) : (m.poke k bs).laneOrders = m.laneOrders := rfl
@[simp] theorem Mach.poke_exports (m : Mach) (k : Nat) (bs : List Byte) : (m.poke k bs).exports = m.exports := rfl
@[simp] theorem Mach.poke_sent (m : Mach) (k : Nat) (bs : List Byte) : (m.poke k bs).sent = m.sent := rfl

/-! `Warp.setS` -/

@[simp] theorem Warp.setS_block (w : Warp) (f : Nat) (x : Word) : (w.setS f x).block = w.block := rfl
@[simp] theorem Warp.setS_idx (w : Warp) (f : Nat) (x : Word) : (w.setS f x).idx = w.idx := rfl
@[simp] theorem Warp.setS_role (w : Warp) (f : Nat) (x : Word) : (w.setS f x).role = w.role := rfl
@[simp] theorem Warp.setS_slot (w : Warp) (f : Nat) (x : Word) : (w.setS f x).slot = w.slot := rfl
@[simp] theorem Warp.setS_active (w : Warp) (f : Nat) (x : Word) : (w.setS f x).active = w.active := rfl
@[simp] theorem Warp.setS_justActive (w : Warp) (f : Nat) (x : Word) : (w.setS f x).justActive = w.justActive := rfl
@[simp] theorem Warp.setS_live (w : Warp) (f : Nat) (x : Word) : (w.setS f x).live = w.live := rfl
@[simp] theorem Warp.setS_paths (w : Warp) (f : Nat) (x : Word) : (w.setS f x).paths = w.paths := rfl
@[simp] theorem Warp.setS_recs (w : Warp) (f : Nat) (x : Word) : (w.setS f x).recs = w.recs := rfl
@[simp] theorem Warp.setS_nextRec (w : Warp) (f : Nat) (x : Word) : (w.setS f x).nextRec = w.nextRec := rfl
@[simp] theorem Warp.setS_parks (w : Warp) (f : Nat) (x : Word) : (w.setS f x).parks = w.parks := rfl
@[simp] theorem Warp.setS_v (w : Warp) (f : Nat) (x : Word) : (w.setS f x).v = w.v := rfl
@[simp] theorem Warp.setS_p (w : Warp) (f : Nat) (x : Word) : (w.setS f x).p = w.p := rfl
@[simp] theorem Warp.setS_nv (w : Warp) (f : Nat) (x : Word) : (w.setS f x).nv = w.nv := rfl
@[simp] theorem Warp.setS_nt (w : Warp) (f : Nat) (x : Word) : (w.setS f x).nt = w.nt := rfl
@[simp] theorem Warp.setS_na (w : Warp) (f : Nat) (x : Word) : (w.setS f x).na = w.na := rfl
@[simp] theorem Warp.setS_fmode (w : Warp) (f : Nat) (x : Word) : (w.setS f x).fmode = w.fmode := rfl
@[simp] theorem Warp.setS_fflags (w : Warp) (f : Nat) (x : Word) : (w.setS f x).fflags = w.fflags := rfl
@[simp] theorem Warp.setS_set (w : Warp) (f : Nat) (x : Word) : (w.setS f x).set = w.set := rfl
@[simp] theorem Warp.setS_cnt (w : Warp) (f : Nat) (x : Word) : (w.setS f x).cnt = w.cnt := rfl
@[simp] theorem Warp.setS_opPts (w : Warp) (f : Nat) (x : Word) : (w.setS f x).opPts = w.opPts := rfl
@[simp] theorem Warp.setS_futs (w : Warp) (f : Nat) (x : Word) : (w.setS f x).futs = w.futs := rfl
@[simp] theorem Warp.setS_gens (w : Warp) (f : Nat) (x : Word) : (w.setS f x).gens = w.gens := rfl
@[simp] theorem Warp.setS_tiles (w : Warp) (f : Nat) (x : Word) : (w.setS f x).tiles = w.tiles := rfl
@[simp] theorem Warp.setS_acc (w : Warp) (f : Nat) (x : Word) : (w.setS f x).acc = w.acc := rfl
@[simp] theorem Warp.setS_vatMap (w : Warp) (f : Nat) (x : Word) : (w.setS f x).vatMap = w.vatMap := rfl
@[simp] theorem Warp.setS_run (w : Warp) (f : Nat) (x : Word) : (w.setS f x).run = w.run := rfl
@[simp] theorem Warp.setS_trap (w : Warp) (f : Nat) (x : Word) : (w.setS f x).trap = w.trap := rfl
@[simp] theorem Warp.setS_tcause (w : Warp) (f : Nat) (x : Word) : (w.setS f x).tcause = w.tcause := rfl
@[simp] theorem Warp.setS_tpc (w : Warp) (f : Nat) (x : Word) : (w.setS f x).tpc = w.tpc := rfl
@[simp] theorem Warp.setS_taddr (w : Warp) (f : Nat) (x : Word) : (w.setS f x).taddr = w.taddr := rfl
@[simp] theorem Warp.setS_tinfo (w : Warp) (f : Nat) (x : Word) : (w.setS f x).tinfo = w.tinfo := rfl
@[simp] theorem Warp.setS_tmask (w : Warp) (f : Nat) (x : Word) : (w.setS f x).tmask = w.tmask := rfl
@[simp] theorem Warp.setS_tset (w : Warp) (f : Nat) (x : Word) : (w.setS f x).tset = w.tset := rfl
@[simp] theorem Warp.setS_tclass (w : Warp) (f : Nat) (x : Word) : (w.setS f x).tclass = w.tclass := rfl
@[simp] theorem Warp.setS_pts (w : Warp) (f : Nat) (x : Word) : (w.setS f x).pts = w.pts := rfl
@[simp] theorem Warp.setS_ptsEpoch (w : Warp) (f : Nat) (x : Word) : (w.setS f x).ptsEpoch = w.ptsEpoch := rfl
@[simp] theorem Warp.setS_sample (w : Warp) (f : Nat) (x : Word) : (w.setS f x).sample = w.sample := rfl
@[simp] theorem Warp.setS_demot (w : Warp) (f : Nat) (x : Word) : (w.setS f x).demot = w.demot := rfl
@[simp] theorem Warp.setS_prog (w : Warp) (f : Nat) (x : Word) : (w.setS f x).prog = w.prog := rfl
@[simp] theorem Warp.setS_wait (w : Warp) (f : Nat) (x : Word) : (w.setS f x).wait = w.wait := rfl
@[simp] theorem Warp.setS_sig (w : Warp) (f : Nat) (x : Word) : (w.setS f x).sig = w.sig := rfl
@[simp] theorem Warp.setS_grow (w : Warp) (f : Nat) (x : Word) : (w.setS f x).grow = w.grow := rfl
@[simp] theorem Warp.setS_granted (w : Warp) (f : Nat) (x : Word) : (w.setS f x).granted = w.granted := rfl
@[simp] theorem Warp.setS_preemptDue (w : Warp) (f : Nat) (x : Word) : (w.setS f x).preemptDue = w.preemptDue := rfl
@[simp] theorem Warp.setS_urgent (w : Warp) (f : Nat) (x : Word) : (w.setS f x).urgent = w.urgent := rfl
@[simp] theorem Warp.setS_passed (w : Warp) (f : Nat) (x : Word) : (w.setS f x).passed = w.passed := rfl
@[simp] theorem Warp.setS_pass (w : Warp) (f : Nat) (x : Word) : (w.setS f x).pass = w.pass := rfl
@[simp] theorem Warp.setS_halt (w : Warp) (f : Nat) (x : Word) : (w.setS f x).halt = w.halt := rfl
@[simp] theorem Warp.setS_bad (w : Warp) (f : Nat) (x : Word) : (w.setS f x).bad = w.bad := rfl
@[simp] theorem Warp.setS_lines (w : Warp) (f : Nat) (x : Word) : (w.setS f x).lines = w.lines := rfl
@[simp] theorem Warp.setS_filled (w : Warp) (f : Nat) (x : Word) : (w.setS f x).filled = w.filled := rfl
@[simp] theorem Warp.setS_kept (w : Warp) (f : Nat) (x : Word) : (w.setS f x).kept = w.kept := rfl
@[simp] theorem Warp.setS_vopen (w : Warp) (f : Nat) (x : Word) : (w.setS f x).vopen = w.vopen := rfl

/-! `Warp.setV` -/

@[simp] theorem Warp.setV_block (w : Warp) (r i : Nat) (x : Word) : (w.setV r i x).block = w.block := rfl
@[simp] theorem Warp.setV_idx (w : Warp) (r i : Nat) (x : Word) : (w.setV r i x).idx = w.idx := rfl
@[simp] theorem Warp.setV_role (w : Warp) (r i : Nat) (x : Word) : (w.setV r i x).role = w.role := rfl
@[simp] theorem Warp.setV_slot (w : Warp) (r i : Nat) (x : Word) : (w.setV r i x).slot = w.slot := rfl
@[simp] theorem Warp.setV_active (w : Warp) (r i : Nat) (x : Word) : (w.setV r i x).active = w.active := rfl
@[simp] theorem Warp.setV_justActive (w : Warp) (r i : Nat) (x : Word) : (w.setV r i x).justActive = w.justActive := rfl
@[simp] theorem Warp.setV_live (w : Warp) (r i : Nat) (x : Word) : (w.setV r i x).live = w.live := rfl
@[simp] theorem Warp.setV_paths (w : Warp) (r i : Nat) (x : Word) : (w.setV r i x).paths = w.paths := rfl
@[simp] theorem Warp.setV_recs (w : Warp) (r i : Nat) (x : Word) : (w.setV r i x).recs = w.recs := rfl
@[simp] theorem Warp.setV_nextRec (w : Warp) (r i : Nat) (x : Word) : (w.setV r i x).nextRec = w.nextRec := rfl
@[simp] theorem Warp.setV_parks (w : Warp) (r i : Nat) (x : Word) : (w.setV r i x).parks = w.parks := rfl
@[simp] theorem Warp.setV_s (w : Warp) (r i : Nat) (x : Word) : (w.setV r i x).s = w.s := rfl
@[simp] theorem Warp.setV_p (w : Warp) (r i : Nat) (x : Word) : (w.setV r i x).p = w.p := rfl
@[simp] theorem Warp.setV_nv (w : Warp) (r i : Nat) (x : Word) : (w.setV r i x).nv = w.nv := rfl
@[simp] theorem Warp.setV_nt (w : Warp) (r i : Nat) (x : Word) : (w.setV r i x).nt = w.nt := rfl
@[simp] theorem Warp.setV_na (w : Warp) (r i : Nat) (x : Word) : (w.setV r i x).na = w.na := rfl
@[simp] theorem Warp.setV_fmode (w : Warp) (r i : Nat) (x : Word) : (w.setV r i x).fmode = w.fmode := rfl
@[simp] theorem Warp.setV_fflags (w : Warp) (r i : Nat) (x : Word) : (w.setV r i x).fflags = w.fflags := rfl
@[simp] theorem Warp.setV_set (w : Warp) (r i : Nat) (x : Word) : (w.setV r i x).set = w.set := rfl
@[simp] theorem Warp.setV_cnt (w : Warp) (r i : Nat) (x : Word) : (w.setV r i x).cnt = w.cnt := rfl
@[simp] theorem Warp.setV_opPts (w : Warp) (r i : Nat) (x : Word) : (w.setV r i x).opPts = w.opPts := rfl
@[simp] theorem Warp.setV_futs (w : Warp) (r i : Nat) (x : Word) : (w.setV r i x).futs = w.futs := rfl
@[simp] theorem Warp.setV_gens (w : Warp) (r i : Nat) (x : Word) : (w.setV r i x).gens = w.gens := rfl
@[simp] theorem Warp.setV_tiles (w : Warp) (r i : Nat) (x : Word) : (w.setV r i x).tiles = w.tiles := rfl
@[simp] theorem Warp.setV_acc (w : Warp) (r i : Nat) (x : Word) : (w.setV r i x).acc = w.acc := rfl
@[simp] theorem Warp.setV_vatMap (w : Warp) (r i : Nat) (x : Word) : (w.setV r i x).vatMap = w.vatMap := rfl
@[simp] theorem Warp.setV_run (w : Warp) (r i : Nat) (x : Word) : (w.setV r i x).run = w.run := rfl
@[simp] theorem Warp.setV_trap (w : Warp) (r i : Nat) (x : Word) : (w.setV r i x).trap = w.trap := rfl
@[simp] theorem Warp.setV_tcause (w : Warp) (r i : Nat) (x : Word) : (w.setV r i x).tcause = w.tcause := rfl
@[simp] theorem Warp.setV_tpc (w : Warp) (r i : Nat) (x : Word) : (w.setV r i x).tpc = w.tpc := rfl
@[simp] theorem Warp.setV_taddr (w : Warp) (r i : Nat) (x : Word) : (w.setV r i x).taddr = w.taddr := rfl
@[simp] theorem Warp.setV_tinfo (w : Warp) (r i : Nat) (x : Word) : (w.setV r i x).tinfo = w.tinfo := rfl
@[simp] theorem Warp.setV_tmask (w : Warp) (r i : Nat) (x : Word) : (w.setV r i x).tmask = w.tmask := rfl
@[simp] theorem Warp.setV_tset (w : Warp) (r i : Nat) (x : Word) : (w.setV r i x).tset = w.tset := rfl
@[simp] theorem Warp.setV_tclass (w : Warp) (r i : Nat) (x : Word) : (w.setV r i x).tclass = w.tclass := rfl
@[simp] theorem Warp.setV_pts (w : Warp) (r i : Nat) (x : Word) : (w.setV r i x).pts = w.pts := rfl
@[simp] theorem Warp.setV_ptsEpoch (w : Warp) (r i : Nat) (x : Word) : (w.setV r i x).ptsEpoch = w.ptsEpoch := rfl
@[simp] theorem Warp.setV_sample (w : Warp) (r i : Nat) (x : Word) : (w.setV r i x).sample = w.sample := rfl
@[simp] theorem Warp.setV_demot (w : Warp) (r i : Nat) (x : Word) : (w.setV r i x).demot = w.demot := rfl
@[simp] theorem Warp.setV_prog (w : Warp) (r i : Nat) (x : Word) : (w.setV r i x).prog = w.prog := rfl
@[simp] theorem Warp.setV_wait (w : Warp) (r i : Nat) (x : Word) : (w.setV r i x).wait = w.wait := rfl
@[simp] theorem Warp.setV_sig (w : Warp) (r i : Nat) (x : Word) : (w.setV r i x).sig = w.sig := rfl
@[simp] theorem Warp.setV_grow (w : Warp) (r i : Nat) (x : Word) : (w.setV r i x).grow = w.grow := rfl
@[simp] theorem Warp.setV_granted (w : Warp) (r i : Nat) (x : Word) : (w.setV r i x).granted = w.granted := rfl
@[simp] theorem Warp.setV_preemptDue (w : Warp) (r i : Nat) (x : Word) : (w.setV r i x).preemptDue = w.preemptDue := rfl
@[simp] theorem Warp.setV_urgent (w : Warp) (r i : Nat) (x : Word) : (w.setV r i x).urgent = w.urgent := rfl
@[simp] theorem Warp.setV_passed (w : Warp) (r i : Nat) (x : Word) : (w.setV r i x).passed = w.passed := rfl
@[simp] theorem Warp.setV_pass (w : Warp) (r i : Nat) (x : Word) : (w.setV r i x).pass = w.pass := rfl
@[simp] theorem Warp.setV_halt (w : Warp) (r i : Nat) (x : Word) : (w.setV r i x).halt = w.halt := rfl
@[simp] theorem Warp.setV_bad (w : Warp) (r i : Nat) (x : Word) : (w.setV r i x).bad = w.bad := rfl
@[simp] theorem Warp.setV_lines (w : Warp) (r i : Nat) (x : Word) : (w.setV r i x).lines = w.lines := rfl
@[simp] theorem Warp.setV_filled (w : Warp) (r i : Nat) (x : Word) : (w.setV r i x).filled = w.filled := rfl
@[simp] theorem Warp.setV_kept (w : Warp) (r i : Nat) (x : Word) : (w.setV r i x).kept = w.kept := rfl
@[simp] theorem Warp.setV_vopen (w : Warp) (r i : Nat) (x : Word) : (w.setV r i x).vopen = w.vopen := rfl

/-! `Warp.orFlags` -/

@[simp] theorem Warp.orFlags_block (w : Warp) (f : Word) : (w.orFlags f).block = w.block := rfl
@[simp] theorem Warp.orFlags_idx (w : Warp) (f : Word) : (w.orFlags f).idx = w.idx := rfl
@[simp] theorem Warp.orFlags_role (w : Warp) (f : Word) : (w.orFlags f).role = w.role := rfl
@[simp] theorem Warp.orFlags_slot (w : Warp) (f : Word) : (w.orFlags f).slot = w.slot := rfl
@[simp] theorem Warp.orFlags_active (w : Warp) (f : Word) : (w.orFlags f).active = w.active := rfl
@[simp] theorem Warp.orFlags_justActive (w : Warp) (f : Word) : (w.orFlags f).justActive = w.justActive := rfl
@[simp] theorem Warp.orFlags_live (w : Warp) (f : Word) : (w.orFlags f).live = w.live := rfl
@[simp] theorem Warp.orFlags_paths (w : Warp) (f : Word) : (w.orFlags f).paths = w.paths := rfl
@[simp] theorem Warp.orFlags_recs (w : Warp) (f : Word) : (w.orFlags f).recs = w.recs := rfl
@[simp] theorem Warp.orFlags_nextRec (w : Warp) (f : Word) : (w.orFlags f).nextRec = w.nextRec := rfl
@[simp] theorem Warp.orFlags_parks (w : Warp) (f : Word) : (w.orFlags f).parks = w.parks := rfl
@[simp] theorem Warp.orFlags_v (w : Warp) (f : Word) : (w.orFlags f).v = w.v := rfl
@[simp] theorem Warp.orFlags_s (w : Warp) (f : Word) : (w.orFlags f).s = w.s := rfl
@[simp] theorem Warp.orFlags_p (w : Warp) (f : Word) : (w.orFlags f).p = w.p := rfl
@[simp] theorem Warp.orFlags_nv (w : Warp) (f : Word) : (w.orFlags f).nv = w.nv := rfl
@[simp] theorem Warp.orFlags_nt (w : Warp) (f : Word) : (w.orFlags f).nt = w.nt := rfl
@[simp] theorem Warp.orFlags_na (w : Warp) (f : Word) : (w.orFlags f).na = w.na := rfl
@[simp] theorem Warp.orFlags_fmode (w : Warp) (f : Word) : (w.orFlags f).fmode = w.fmode := rfl
@[simp] theorem Warp.orFlags_set (w : Warp) (f : Word) : (w.orFlags f).set = w.set := rfl
@[simp] theorem Warp.orFlags_cnt (w : Warp) (f : Word) : (w.orFlags f).cnt = w.cnt := rfl
@[simp] theorem Warp.orFlags_opPts (w : Warp) (f : Word) : (w.orFlags f).opPts = w.opPts := rfl
@[simp] theorem Warp.orFlags_futs (w : Warp) (f : Word) : (w.orFlags f).futs = w.futs := rfl
@[simp] theorem Warp.orFlags_gens (w : Warp) (f : Word) : (w.orFlags f).gens = w.gens := rfl
@[simp] theorem Warp.orFlags_tiles (w : Warp) (f : Word) : (w.orFlags f).tiles = w.tiles := rfl
@[simp] theorem Warp.orFlags_acc (w : Warp) (f : Word) : (w.orFlags f).acc = w.acc := rfl
@[simp] theorem Warp.orFlags_vatMap (w : Warp) (f : Word) : (w.orFlags f).vatMap = w.vatMap := rfl
@[simp] theorem Warp.orFlags_run (w : Warp) (f : Word) : (w.orFlags f).run = w.run := rfl
@[simp] theorem Warp.orFlags_trap (w : Warp) (f : Word) : (w.orFlags f).trap = w.trap := rfl
@[simp] theorem Warp.orFlags_tcause (w : Warp) (f : Word) : (w.orFlags f).tcause = w.tcause := rfl
@[simp] theorem Warp.orFlags_tpc (w : Warp) (f : Word) : (w.orFlags f).tpc = w.tpc := rfl
@[simp] theorem Warp.orFlags_taddr (w : Warp) (f : Word) : (w.orFlags f).taddr = w.taddr := rfl
@[simp] theorem Warp.orFlags_tinfo (w : Warp) (f : Word) : (w.orFlags f).tinfo = w.tinfo := rfl
@[simp] theorem Warp.orFlags_tmask (w : Warp) (f : Word) : (w.orFlags f).tmask = w.tmask := rfl
@[simp] theorem Warp.orFlags_tset (w : Warp) (f : Word) : (w.orFlags f).tset = w.tset := rfl
@[simp] theorem Warp.orFlags_tclass (w : Warp) (f : Word) : (w.orFlags f).tclass = w.tclass := rfl
@[simp] theorem Warp.orFlags_pts (w : Warp) (f : Word) : (w.orFlags f).pts = w.pts := rfl
@[simp] theorem Warp.orFlags_ptsEpoch (w : Warp) (f : Word) : (w.orFlags f).ptsEpoch = w.ptsEpoch := rfl
@[simp] theorem Warp.orFlags_sample (w : Warp) (f : Word) : (w.orFlags f).sample = w.sample := rfl
@[simp] theorem Warp.orFlags_demot (w : Warp) (f : Word) : (w.orFlags f).demot = w.demot := rfl
@[simp] theorem Warp.orFlags_prog (w : Warp) (f : Word) : (w.orFlags f).prog = w.prog := rfl
@[simp] theorem Warp.orFlags_wait (w : Warp) (f : Word) : (w.orFlags f).wait = w.wait := rfl
@[simp] theorem Warp.orFlags_sig (w : Warp) (f : Word) : (w.orFlags f).sig = w.sig := rfl
@[simp] theorem Warp.orFlags_grow (w : Warp) (f : Word) : (w.orFlags f).grow = w.grow := rfl
@[simp] theorem Warp.orFlags_granted (w : Warp) (f : Word) : (w.orFlags f).granted = w.granted := rfl
@[simp] theorem Warp.orFlags_preemptDue (w : Warp) (f : Word) : (w.orFlags f).preemptDue = w.preemptDue := rfl
@[simp] theorem Warp.orFlags_urgent (w : Warp) (f : Word) : (w.orFlags f).urgent = w.urgent := rfl
@[simp] theorem Warp.orFlags_passed (w : Warp) (f : Word) : (w.orFlags f).passed = w.passed := rfl
@[simp] theorem Warp.orFlags_pass (w : Warp) (f : Word) : (w.orFlags f).pass = w.pass := rfl
@[simp] theorem Warp.orFlags_halt (w : Warp) (f : Word) : (w.orFlags f).halt = w.halt := rfl
@[simp] theorem Warp.orFlags_bad (w : Warp) (f : Word) : (w.orFlags f).bad = w.bad := rfl
@[simp] theorem Warp.orFlags_lines (w : Warp) (f : Word) : (w.orFlags f).lines = w.lines := rfl
@[simp] theorem Warp.orFlags_filled (w : Warp) (f : Word) : (w.orFlags f).filled = w.filled := rfl
@[simp] theorem Warp.orFlags_kept (w : Warp) (f : Word) : (w.orFlags f).kept = w.kept := rfl
@[simp] theorem Warp.orFlags_vopen (w : Warp) (f : Word) : (w.orFlags f).vopen = w.vopen := rfl

/-! `Warp.setCounter` -/

@[simp] theorem Warp.setCounter_block (w : Warp) (c n : Nat) : (w.setCounter c n).block = w.block := rfl
@[simp] theorem Warp.setCounter_idx (w : Warp) (c n : Nat) : (w.setCounter c n).idx = w.idx := rfl
@[simp] theorem Warp.setCounter_role (w : Warp) (c n : Nat) : (w.setCounter c n).role = w.role := rfl
@[simp] theorem Warp.setCounter_slot (w : Warp) (c n : Nat) : (w.setCounter c n).slot = w.slot := rfl
@[simp] theorem Warp.setCounter_active (w : Warp) (c n : Nat) : (w.setCounter c n).active = w.active := rfl
@[simp] theorem Warp.setCounter_justActive (w : Warp) (c n : Nat) : (w.setCounter c n).justActive = w.justActive := rfl
@[simp] theorem Warp.setCounter_live (w : Warp) (c n : Nat) : (w.setCounter c n).live = w.live := rfl
@[simp] theorem Warp.setCounter_paths (w : Warp) (c n : Nat) : (w.setCounter c n).paths = w.paths := rfl
@[simp] theorem Warp.setCounter_recs (w : Warp) (c n : Nat) : (w.setCounter c n).recs = w.recs := rfl
@[simp] theorem Warp.setCounter_nextRec (w : Warp) (c n : Nat) : (w.setCounter c n).nextRec = w.nextRec := rfl
@[simp] theorem Warp.setCounter_parks (w : Warp) (c n : Nat) : (w.setCounter c n).parks = w.parks := rfl
@[simp] theorem Warp.setCounter_v (w : Warp) (c n : Nat) : (w.setCounter c n).v = w.v := rfl
@[simp] theorem Warp.setCounter_s (w : Warp) (c n : Nat) : (w.setCounter c n).s = w.s := rfl
@[simp] theorem Warp.setCounter_p (w : Warp) (c n : Nat) : (w.setCounter c n).p = w.p := rfl
@[simp] theorem Warp.setCounter_nv (w : Warp) (c n : Nat) : (w.setCounter c n).nv = w.nv := rfl
@[simp] theorem Warp.setCounter_nt (w : Warp) (c n : Nat) : (w.setCounter c n).nt = w.nt := rfl
@[simp] theorem Warp.setCounter_na (w : Warp) (c n : Nat) : (w.setCounter c n).na = w.na := rfl
@[simp] theorem Warp.setCounter_fmode (w : Warp) (c n : Nat) : (w.setCounter c n).fmode = w.fmode := rfl
@[simp] theorem Warp.setCounter_fflags (w : Warp) (c n : Nat) : (w.setCounter c n).fflags = w.fflags := rfl
@[simp] theorem Warp.setCounter_set (w : Warp) (c n : Nat) : (w.setCounter c n).set = w.set := rfl
@[simp] theorem Warp.setCounter_opPts (w : Warp) (c n : Nat) : (w.setCounter c n).opPts = w.opPts := rfl
@[simp] theorem Warp.setCounter_futs (w : Warp) (c n : Nat) : (w.setCounter c n).futs = w.futs := rfl
@[simp] theorem Warp.setCounter_gens (w : Warp) (c n : Nat) : (w.setCounter c n).gens = w.gens := rfl
@[simp] theorem Warp.setCounter_tiles (w : Warp) (c n : Nat) : (w.setCounter c n).tiles = w.tiles := rfl
@[simp] theorem Warp.setCounter_acc (w : Warp) (c n : Nat) : (w.setCounter c n).acc = w.acc := rfl
@[simp] theorem Warp.setCounter_vatMap (w : Warp) (c n : Nat) : (w.setCounter c n).vatMap = w.vatMap := rfl
@[simp] theorem Warp.setCounter_run (w : Warp) (c n : Nat) : (w.setCounter c n).run = w.run := rfl
@[simp] theorem Warp.setCounter_trap (w : Warp) (c n : Nat) : (w.setCounter c n).trap = w.trap := rfl
@[simp] theorem Warp.setCounter_tcause (w : Warp) (c n : Nat) : (w.setCounter c n).tcause = w.tcause := rfl
@[simp] theorem Warp.setCounter_tpc (w : Warp) (c n : Nat) : (w.setCounter c n).tpc = w.tpc := rfl
@[simp] theorem Warp.setCounter_taddr (w : Warp) (c n : Nat) : (w.setCounter c n).taddr = w.taddr := rfl
@[simp] theorem Warp.setCounter_tinfo (w : Warp) (c n : Nat) : (w.setCounter c n).tinfo = w.tinfo := rfl
@[simp] theorem Warp.setCounter_tmask (w : Warp) (c n : Nat) : (w.setCounter c n).tmask = w.tmask := rfl
@[simp] theorem Warp.setCounter_tset (w : Warp) (c n : Nat) : (w.setCounter c n).tset = w.tset := rfl
@[simp] theorem Warp.setCounter_tclass (w : Warp) (c n : Nat) : (w.setCounter c n).tclass = w.tclass := rfl
@[simp] theorem Warp.setCounter_pts (w : Warp) (c n : Nat) : (w.setCounter c n).pts = w.pts := rfl
@[simp] theorem Warp.setCounter_ptsEpoch (w : Warp) (c n : Nat) : (w.setCounter c n).ptsEpoch = w.ptsEpoch := rfl
@[simp] theorem Warp.setCounter_sample (w : Warp) (c n : Nat) : (w.setCounter c n).sample = w.sample := rfl
@[simp] theorem Warp.setCounter_demot (w : Warp) (c n : Nat) : (w.setCounter c n).demot = w.demot := rfl
@[simp] theorem Warp.setCounter_prog (w : Warp) (c n : Nat) : (w.setCounter c n).prog = w.prog := rfl
@[simp] theorem Warp.setCounter_wait (w : Warp) (c n : Nat) : (w.setCounter c n).wait = w.wait := rfl
@[simp] theorem Warp.setCounter_sig (w : Warp) (c n : Nat) : (w.setCounter c n).sig = w.sig := rfl
@[simp] theorem Warp.setCounter_grow (w : Warp) (c n : Nat) : (w.setCounter c n).grow = w.grow := rfl
@[simp] theorem Warp.setCounter_granted (w : Warp) (c n : Nat) : (w.setCounter c n).granted = w.granted := rfl
@[simp] theorem Warp.setCounter_preemptDue (w : Warp) (c n : Nat) : (w.setCounter c n).preemptDue = w.preemptDue := rfl
@[simp] theorem Warp.setCounter_urgent (w : Warp) (c n : Nat) : (w.setCounter c n).urgent = w.urgent := rfl
@[simp] theorem Warp.setCounter_passed (w : Warp) (c n : Nat) : (w.setCounter c n).passed = w.passed := rfl
@[simp] theorem Warp.setCounter_pass (w : Warp) (c n : Nat) : (w.setCounter c n).pass = w.pass := rfl
@[simp] theorem Warp.setCounter_halt (w : Warp) (c n : Nat) : (w.setCounter c n).halt = w.halt := rfl
@[simp] theorem Warp.setCounter_bad (w : Warp) (c n : Nat) : (w.setCounter c n).bad = w.bad := rfl
@[simp] theorem Warp.setCounter_lines (w : Warp) (c n : Nat) : (w.setCounter c n).lines = w.lines := rfl
@[simp] theorem Warp.setCounter_filled (w : Warp) (c n : Nat) : (w.setCounter c n).filled = w.filled := rfl
@[simp] theorem Warp.setCounter_kept (w : Warp) (c n : Nat) : (w.setCounter c n).kept = w.kept := rfl
@[simp] theorem Warp.setCounter_vopen (w : Warp) (c n : Nat) : (w.setCounter c n).vopen = w.vopen := rfl

/-! `Warp.setTile` -/

@[simp] theorem Warp.setTile_block (w : Warp) (i : Nat) (x : Tile) : (w.setTile i x).block = w.block := rfl
@[simp] theorem Warp.setTile_idx (w : Warp) (i : Nat) (x : Tile) : (w.setTile i x).idx = w.idx := rfl
@[simp] theorem Warp.setTile_role (w : Warp) (i : Nat) (x : Tile) : (w.setTile i x).role = w.role := rfl
@[simp] theorem Warp.setTile_slot (w : Warp) (i : Nat) (x : Tile) : (w.setTile i x).slot = w.slot := rfl
@[simp] theorem Warp.setTile_active (w : Warp) (i : Nat) (x : Tile) : (w.setTile i x).active = w.active := rfl
@[simp] theorem Warp.setTile_justActive (w : Warp) (i : Nat) (x : Tile) : (w.setTile i x).justActive = w.justActive := rfl
@[simp] theorem Warp.setTile_live (w : Warp) (i : Nat) (x : Tile) : (w.setTile i x).live = w.live := rfl
@[simp] theorem Warp.setTile_paths (w : Warp) (i : Nat) (x : Tile) : (w.setTile i x).paths = w.paths := rfl
@[simp] theorem Warp.setTile_recs (w : Warp) (i : Nat) (x : Tile) : (w.setTile i x).recs = w.recs := rfl
@[simp] theorem Warp.setTile_nextRec (w : Warp) (i : Nat) (x : Tile) : (w.setTile i x).nextRec = w.nextRec := rfl
@[simp] theorem Warp.setTile_parks (w : Warp) (i : Nat) (x : Tile) : (w.setTile i x).parks = w.parks := rfl
@[simp] theorem Warp.setTile_v (w : Warp) (i : Nat) (x : Tile) : (w.setTile i x).v = w.v := rfl
@[simp] theorem Warp.setTile_s (w : Warp) (i : Nat) (x : Tile) : (w.setTile i x).s = w.s := rfl
@[simp] theorem Warp.setTile_p (w : Warp) (i : Nat) (x : Tile) : (w.setTile i x).p = w.p := rfl
@[simp] theorem Warp.setTile_nv (w : Warp) (i : Nat) (x : Tile) : (w.setTile i x).nv = w.nv := rfl
@[simp] theorem Warp.setTile_nt (w : Warp) (i : Nat) (x : Tile) : (w.setTile i x).nt = w.nt := rfl
@[simp] theorem Warp.setTile_na (w : Warp) (i : Nat) (x : Tile) : (w.setTile i x).na = w.na := rfl
@[simp] theorem Warp.setTile_fmode (w : Warp) (i : Nat) (x : Tile) : (w.setTile i x).fmode = w.fmode := rfl
@[simp] theorem Warp.setTile_fflags (w : Warp) (i : Nat) (x : Tile) : (w.setTile i x).fflags = w.fflags := rfl
@[simp] theorem Warp.setTile_set (w : Warp) (i : Nat) (x : Tile) : (w.setTile i x).set = w.set := rfl
@[simp] theorem Warp.setTile_cnt (w : Warp) (i : Nat) (x : Tile) : (w.setTile i x).cnt = w.cnt := rfl
@[simp] theorem Warp.setTile_opPts (w : Warp) (i : Nat) (x : Tile) : (w.setTile i x).opPts = w.opPts := rfl
@[simp] theorem Warp.setTile_futs (w : Warp) (i : Nat) (x : Tile) : (w.setTile i x).futs = w.futs := rfl
@[simp] theorem Warp.setTile_gens (w : Warp) (i : Nat) (x : Tile) : (w.setTile i x).gens = w.gens := rfl
@[simp] theorem Warp.setTile_acc (w : Warp) (i : Nat) (x : Tile) : (w.setTile i x).acc = w.acc := rfl
@[simp] theorem Warp.setTile_vatMap (w : Warp) (i : Nat) (x : Tile) : (w.setTile i x).vatMap = w.vatMap := rfl
@[simp] theorem Warp.setTile_run (w : Warp) (i : Nat) (x : Tile) : (w.setTile i x).run = w.run := rfl
@[simp] theorem Warp.setTile_trap (w : Warp) (i : Nat) (x : Tile) : (w.setTile i x).trap = w.trap := rfl
@[simp] theorem Warp.setTile_tcause (w : Warp) (i : Nat) (x : Tile) : (w.setTile i x).tcause = w.tcause := rfl
@[simp] theorem Warp.setTile_tpc (w : Warp) (i : Nat) (x : Tile) : (w.setTile i x).tpc = w.tpc := rfl
@[simp] theorem Warp.setTile_taddr (w : Warp) (i : Nat) (x : Tile) : (w.setTile i x).taddr = w.taddr := rfl
@[simp] theorem Warp.setTile_tinfo (w : Warp) (i : Nat) (x : Tile) : (w.setTile i x).tinfo = w.tinfo := rfl
@[simp] theorem Warp.setTile_tmask (w : Warp) (i : Nat) (x : Tile) : (w.setTile i x).tmask = w.tmask := rfl
@[simp] theorem Warp.setTile_tset (w : Warp) (i : Nat) (x : Tile) : (w.setTile i x).tset = w.tset := rfl
@[simp] theorem Warp.setTile_tclass (w : Warp) (i : Nat) (x : Tile) : (w.setTile i x).tclass = w.tclass := rfl
@[simp] theorem Warp.setTile_pts (w : Warp) (i : Nat) (x : Tile) : (w.setTile i x).pts = w.pts := rfl
@[simp] theorem Warp.setTile_ptsEpoch (w : Warp) (i : Nat) (x : Tile) : (w.setTile i x).ptsEpoch = w.ptsEpoch := rfl
@[simp] theorem Warp.setTile_sample (w : Warp) (i : Nat) (x : Tile) : (w.setTile i x).sample = w.sample := rfl
@[simp] theorem Warp.setTile_demot (w : Warp) (i : Nat) (x : Tile) : (w.setTile i x).demot = w.demot := rfl
@[simp] theorem Warp.setTile_prog (w : Warp) (i : Nat) (x : Tile) : (w.setTile i x).prog = w.prog := rfl
@[simp] theorem Warp.setTile_wait (w : Warp) (i : Nat) (x : Tile) : (w.setTile i x).wait = w.wait := rfl
@[simp] theorem Warp.setTile_sig (w : Warp) (i : Nat) (x : Tile) : (w.setTile i x).sig = w.sig := rfl
@[simp] theorem Warp.setTile_grow (w : Warp) (i : Nat) (x : Tile) : (w.setTile i x).grow = w.grow := rfl
@[simp] theorem Warp.setTile_granted (w : Warp) (i : Nat) (x : Tile) : (w.setTile i x).granted = w.granted := rfl
@[simp] theorem Warp.setTile_preemptDue (w : Warp) (i : Nat) (x : Tile) : (w.setTile i x).preemptDue = w.preemptDue := rfl
@[simp] theorem Warp.setTile_urgent (w : Warp) (i : Nat) (x : Tile) : (w.setTile i x).urgent = w.urgent := rfl
@[simp] theorem Warp.setTile_passed (w : Warp) (i : Nat) (x : Tile) : (w.setTile i x).passed = w.passed := rfl
@[simp] theorem Warp.setTile_pass (w : Warp) (i : Nat) (x : Tile) : (w.setTile i x).pass = w.pass := rfl
@[simp] theorem Warp.setTile_halt (w : Warp) (i : Nat) (x : Tile) : (w.setTile i x).halt = w.halt := rfl
@[simp] theorem Warp.setTile_bad (w : Warp) (i : Nat) (x : Tile) : (w.setTile i x).bad = w.bad := rfl
@[simp] theorem Warp.setTile_lines (w : Warp) (i : Nat) (x : Tile) : (w.setTile i x).lines = w.lines := rfl
@[simp] theorem Warp.setTile_filled (w : Warp) (i : Nat) (x : Tile) : (w.setTile i x).filled = w.filled := rfl
@[simp] theorem Warp.setTile_kept (w : Warp) (i : Nat) (x : Tile) : (w.setTile i x).kept = w.kept := rfl
@[simp] theorem Warp.setTile_vopen (w : Warp) (i : Nat) (x : Tile) : (w.setTile i x).vopen = w.vopen := rfl

/-! `Warp.setP` -/

@[simp] theorem Warp.setP_block (w : Warp) (n : Nat) (x : Word) : (w.setP n x).block = w.block := by unfold Warp.setP; split <;> rfl
@[simp] theorem Warp.setP_idx (w : Warp) (n : Nat) (x : Word) : (w.setP n x).idx = w.idx := by unfold Warp.setP; split <;> rfl
@[simp] theorem Warp.setP_role (w : Warp) (n : Nat) (x : Word) : (w.setP n x).role = w.role := by unfold Warp.setP; split <;> rfl
@[simp] theorem Warp.setP_slot (w : Warp) (n : Nat) (x : Word) : (w.setP n x).slot = w.slot := by unfold Warp.setP; split <;> rfl
@[simp] theorem Warp.setP_active (w : Warp) (n : Nat) (x : Word) : (w.setP n x).active = w.active := by unfold Warp.setP; split <;> rfl
@[simp] theorem Warp.setP_justActive (w : Warp) (n : Nat) (x : Word) : (w.setP n x).justActive = w.justActive := by unfold Warp.setP; split <;> rfl
@[simp] theorem Warp.setP_live (w : Warp) (n : Nat) (x : Word) : (w.setP n x).live = w.live := by unfold Warp.setP; split <;> rfl
@[simp] theorem Warp.setP_paths (w : Warp) (n : Nat) (x : Word) : (w.setP n x).paths = w.paths := by unfold Warp.setP; split <;> rfl
@[simp] theorem Warp.setP_recs (w : Warp) (n : Nat) (x : Word) : (w.setP n x).recs = w.recs := by unfold Warp.setP; split <;> rfl
@[simp] theorem Warp.setP_nextRec (w : Warp) (n : Nat) (x : Word) : (w.setP n x).nextRec = w.nextRec := by unfold Warp.setP; split <;> rfl
@[simp] theorem Warp.setP_parks (w : Warp) (n : Nat) (x : Word) : (w.setP n x).parks = w.parks := by unfold Warp.setP; split <;> rfl
@[simp] theorem Warp.setP_v (w : Warp) (n : Nat) (x : Word) : (w.setP n x).v = w.v := by unfold Warp.setP; split <;> rfl
@[simp] theorem Warp.setP_s (w : Warp) (n : Nat) (x : Word) : (w.setP n x).s = w.s := by unfold Warp.setP; split <;> rfl
@[simp] theorem Warp.setP_nv (w : Warp) (n : Nat) (x : Word) : (w.setP n x).nv = w.nv := by unfold Warp.setP; split <;> rfl
@[simp] theorem Warp.setP_nt (w : Warp) (n : Nat) (x : Word) : (w.setP n x).nt = w.nt := by unfold Warp.setP; split <;> rfl
@[simp] theorem Warp.setP_na (w : Warp) (n : Nat) (x : Word) : (w.setP n x).na = w.na := by unfold Warp.setP; split <;> rfl
@[simp] theorem Warp.setP_fmode (w : Warp) (n : Nat) (x : Word) : (w.setP n x).fmode = w.fmode := by unfold Warp.setP; split <;> rfl
@[simp] theorem Warp.setP_fflags (w : Warp) (n : Nat) (x : Word) : (w.setP n x).fflags = w.fflags := by unfold Warp.setP; split <;> rfl
@[simp] theorem Warp.setP_set (w : Warp) (n : Nat) (x : Word) : (w.setP n x).set = w.set := by unfold Warp.setP; split <;> rfl
@[simp] theorem Warp.setP_cnt (w : Warp) (n : Nat) (x : Word) : (w.setP n x).cnt = w.cnt := by unfold Warp.setP; split <;> rfl
@[simp] theorem Warp.setP_opPts (w : Warp) (n : Nat) (x : Word) : (w.setP n x).opPts = w.opPts := by unfold Warp.setP; split <;> rfl
@[simp] theorem Warp.setP_futs (w : Warp) (n : Nat) (x : Word) : (w.setP n x).futs = w.futs := by unfold Warp.setP; split <;> rfl
@[simp] theorem Warp.setP_gens (w : Warp) (n : Nat) (x : Word) : (w.setP n x).gens = w.gens := by unfold Warp.setP; split <;> rfl
@[simp] theorem Warp.setP_tiles (w : Warp) (n : Nat) (x : Word) : (w.setP n x).tiles = w.tiles := by unfold Warp.setP; split <;> rfl
@[simp] theorem Warp.setP_acc (w : Warp) (n : Nat) (x : Word) : (w.setP n x).acc = w.acc := by unfold Warp.setP; split <;> rfl
@[simp] theorem Warp.setP_vatMap (w : Warp) (n : Nat) (x : Word) : (w.setP n x).vatMap = w.vatMap := by unfold Warp.setP; split <;> rfl
@[simp] theorem Warp.setP_run (w : Warp) (n : Nat) (x : Word) : (w.setP n x).run = w.run := by unfold Warp.setP; split <;> rfl
@[simp] theorem Warp.setP_trap (w : Warp) (n : Nat) (x : Word) : (w.setP n x).trap = w.trap := by unfold Warp.setP; split <;> rfl
@[simp] theorem Warp.setP_tcause (w : Warp) (n : Nat) (x : Word) : (w.setP n x).tcause = w.tcause := by unfold Warp.setP; split <;> rfl
@[simp] theorem Warp.setP_tpc (w : Warp) (n : Nat) (x : Word) : (w.setP n x).tpc = w.tpc := by unfold Warp.setP; split <;> rfl
@[simp] theorem Warp.setP_taddr (w : Warp) (n : Nat) (x : Word) : (w.setP n x).taddr = w.taddr := by unfold Warp.setP; split <;> rfl
@[simp] theorem Warp.setP_tinfo (w : Warp) (n : Nat) (x : Word) : (w.setP n x).tinfo = w.tinfo := by unfold Warp.setP; split <;> rfl
@[simp] theorem Warp.setP_tmask (w : Warp) (n : Nat) (x : Word) : (w.setP n x).tmask = w.tmask := by unfold Warp.setP; split <;> rfl
@[simp] theorem Warp.setP_tset (w : Warp) (n : Nat) (x : Word) : (w.setP n x).tset = w.tset := by unfold Warp.setP; split <;> rfl
@[simp] theorem Warp.setP_tclass (w : Warp) (n : Nat) (x : Word) : (w.setP n x).tclass = w.tclass := by unfold Warp.setP; split <;> rfl
@[simp] theorem Warp.setP_pts (w : Warp) (n : Nat) (x : Word) : (w.setP n x).pts = w.pts := by unfold Warp.setP; split <;> rfl
@[simp] theorem Warp.setP_ptsEpoch (w : Warp) (n : Nat) (x : Word) : (w.setP n x).ptsEpoch = w.ptsEpoch := by unfold Warp.setP; split <;> rfl
@[simp] theorem Warp.setP_sample (w : Warp) (n : Nat) (x : Word) : (w.setP n x).sample = w.sample := by unfold Warp.setP; split <;> rfl
@[simp] theorem Warp.setP_demot (w : Warp) (n : Nat) (x : Word) : (w.setP n x).demot = w.demot := by unfold Warp.setP; split <;> rfl
@[simp] theorem Warp.setP_prog (w : Warp) (n : Nat) (x : Word) : (w.setP n x).prog = w.prog := by unfold Warp.setP; split <;> rfl
@[simp] theorem Warp.setP_wait (w : Warp) (n : Nat) (x : Word) : (w.setP n x).wait = w.wait := by unfold Warp.setP; split <;> rfl
@[simp] theorem Warp.setP_sig (w : Warp) (n : Nat) (x : Word) : (w.setP n x).sig = w.sig := by unfold Warp.setP; split <;> rfl
@[simp] theorem Warp.setP_grow (w : Warp) (n : Nat) (x : Word) : (w.setP n x).grow = w.grow := by unfold Warp.setP; split <;> rfl
@[simp] theorem Warp.setP_granted (w : Warp) (n : Nat) (x : Word) : (w.setP n x).granted = w.granted := by unfold Warp.setP; split <;> rfl
@[simp] theorem Warp.setP_preemptDue (w : Warp) (n : Nat) (x : Word) : (w.setP n x).preemptDue = w.preemptDue := by unfold Warp.setP; split <;> rfl
@[simp] theorem Warp.setP_urgent (w : Warp) (n : Nat) (x : Word) : (w.setP n x).urgent = w.urgent := by unfold Warp.setP; split <;> rfl
@[simp] theorem Warp.setP_passed (w : Warp) (n : Nat) (x : Word) : (w.setP n x).passed = w.passed := by unfold Warp.setP; split <;> rfl
@[simp] theorem Warp.setP_pass (w : Warp) (n : Nat) (x : Word) : (w.setP n x).pass = w.pass := by unfold Warp.setP; split <;> rfl
@[simp] theorem Warp.setP_halt (w : Warp) (n : Nat) (x : Word) : (w.setP n x).halt = w.halt := by unfold Warp.setP; split <;> rfl
@[simp] theorem Warp.setP_bad (w : Warp) (n : Nat) (x : Word) : (w.setP n x).bad = w.bad := by unfold Warp.setP; split <;> rfl
@[simp] theorem Warp.setP_lines (w : Warp) (n : Nat) (x : Word) : (w.setP n x).lines = w.lines := by unfold Warp.setP; split <;> rfl
@[simp] theorem Warp.setP_filled (w : Warp) (n : Nat) (x : Word) : (w.setP n x).filled = w.filled := by unfold Warp.setP; split <;> rfl
@[simp] theorem Warp.setP_kept (w : Warp) (n : Nat) (x : Word) : (w.setP n x).kept = w.kept := by unfold Warp.setP; split <;> rfl
@[simp] theorem Warp.setP_vopen (w : Warp) (n : Nat) (x : Word) : (w.setP n x).vopen = w.vopen := by unfold Warp.setP; split <;> rfl

/-! `Warp.setPath` -/

@[simp] theorem Warp.setPath_block (w : Warp) (p : Path) : (w.setPath p).block = w.block := by unfold Warp.setPath; split <;> rfl
@[simp] theorem Warp.setPath_idx (w : Warp) (p : Path) : (w.setPath p).idx = w.idx := by unfold Warp.setPath; split <;> rfl
@[simp] theorem Warp.setPath_role (w : Warp) (p : Path) : (w.setPath p).role = w.role := by unfold Warp.setPath; split <;> rfl
@[simp] theorem Warp.setPath_slot (w : Warp) (p : Path) : (w.setPath p).slot = w.slot := by unfold Warp.setPath; split <;> rfl
@[simp] theorem Warp.setPath_active (w : Warp) (p : Path) : (w.setPath p).active = w.active := by unfold Warp.setPath; split <;> rfl
@[simp] theorem Warp.setPath_justActive (w : Warp) (p : Path) : (w.setPath p).justActive = w.justActive := by unfold Warp.setPath; split <;> rfl
@[simp] theorem Warp.setPath_live (w : Warp) (p : Path) : (w.setPath p).live = w.live := by unfold Warp.setPath; split <;> rfl
@[simp] theorem Warp.setPath_recs (w : Warp) (p : Path) : (w.setPath p).recs = w.recs := by unfold Warp.setPath; split <;> rfl
@[simp] theorem Warp.setPath_nextRec (w : Warp) (p : Path) : (w.setPath p).nextRec = w.nextRec := by unfold Warp.setPath; split <;> rfl
@[simp] theorem Warp.setPath_parks (w : Warp) (p : Path) : (w.setPath p).parks = w.parks := by unfold Warp.setPath; split <;> rfl
@[simp] theorem Warp.setPath_v (w : Warp) (p : Path) : (w.setPath p).v = w.v := by unfold Warp.setPath; split <;> rfl
@[simp] theorem Warp.setPath_s (w : Warp) (p : Path) : (w.setPath p).s = w.s := by unfold Warp.setPath; split <;> rfl
@[simp] theorem Warp.setPath_p (w : Warp) (p : Path) : (w.setPath p).p = w.p := by unfold Warp.setPath; split <;> rfl
@[simp] theorem Warp.setPath_nv (w : Warp) (p : Path) : (w.setPath p).nv = w.nv := by unfold Warp.setPath; split <;> rfl
@[simp] theorem Warp.setPath_nt (w : Warp) (p : Path) : (w.setPath p).nt = w.nt := by unfold Warp.setPath; split <;> rfl
@[simp] theorem Warp.setPath_na (w : Warp) (p : Path) : (w.setPath p).na = w.na := by unfold Warp.setPath; split <;> rfl
@[simp] theorem Warp.setPath_fmode (w : Warp) (p : Path) : (w.setPath p).fmode = w.fmode := by unfold Warp.setPath; split <;> rfl
@[simp] theorem Warp.setPath_fflags (w : Warp) (p : Path) : (w.setPath p).fflags = w.fflags := by unfold Warp.setPath; split <;> rfl
@[simp] theorem Warp.setPath_set (w : Warp) (p : Path) : (w.setPath p).set = w.set := by unfold Warp.setPath; split <;> rfl
@[simp] theorem Warp.setPath_cnt (w : Warp) (p : Path) : (w.setPath p).cnt = w.cnt := by unfold Warp.setPath; split <;> rfl
@[simp] theorem Warp.setPath_opPts (w : Warp) (p : Path) : (w.setPath p).opPts = w.opPts := by unfold Warp.setPath; split <;> rfl
@[simp] theorem Warp.setPath_futs (w : Warp) (p : Path) : (w.setPath p).futs = w.futs := by unfold Warp.setPath; split <;> rfl
@[simp] theorem Warp.setPath_gens (w : Warp) (p : Path) : (w.setPath p).gens = w.gens := by unfold Warp.setPath; split <;> rfl
@[simp] theorem Warp.setPath_tiles (w : Warp) (p : Path) : (w.setPath p).tiles = w.tiles := by unfold Warp.setPath; split <;> rfl
@[simp] theorem Warp.setPath_acc (w : Warp) (p : Path) : (w.setPath p).acc = w.acc := by unfold Warp.setPath; split <;> rfl
@[simp] theorem Warp.setPath_vatMap (w : Warp) (p : Path) : (w.setPath p).vatMap = w.vatMap := by unfold Warp.setPath; split <;> rfl
@[simp] theorem Warp.setPath_run (w : Warp) (p : Path) : (w.setPath p).run = w.run := by unfold Warp.setPath; split <;> rfl
@[simp] theorem Warp.setPath_trap (w : Warp) (p : Path) : (w.setPath p).trap = w.trap := by unfold Warp.setPath; split <;> rfl
@[simp] theorem Warp.setPath_tcause (w : Warp) (p : Path) : (w.setPath p).tcause = w.tcause := by unfold Warp.setPath; split <;> rfl
@[simp] theorem Warp.setPath_tpc (w : Warp) (p : Path) : (w.setPath p).tpc = w.tpc := by unfold Warp.setPath; split <;> rfl
@[simp] theorem Warp.setPath_taddr (w : Warp) (p : Path) : (w.setPath p).taddr = w.taddr := by unfold Warp.setPath; split <;> rfl
@[simp] theorem Warp.setPath_tinfo (w : Warp) (p : Path) : (w.setPath p).tinfo = w.tinfo := by unfold Warp.setPath; split <;> rfl
@[simp] theorem Warp.setPath_tmask (w : Warp) (p : Path) : (w.setPath p).tmask = w.tmask := by unfold Warp.setPath; split <;> rfl
@[simp] theorem Warp.setPath_tset (w : Warp) (p : Path) : (w.setPath p).tset = w.tset := by unfold Warp.setPath; split <;> rfl
@[simp] theorem Warp.setPath_tclass (w : Warp) (p : Path) : (w.setPath p).tclass = w.tclass := by unfold Warp.setPath; split <;> rfl
@[simp] theorem Warp.setPath_pts (w : Warp) (p : Path) : (w.setPath p).pts = w.pts := by unfold Warp.setPath; split <;> rfl
@[simp] theorem Warp.setPath_ptsEpoch (w : Warp) (p : Path) : (w.setPath p).ptsEpoch = w.ptsEpoch := by unfold Warp.setPath; split <;> rfl
@[simp] theorem Warp.setPath_sample (w : Warp) (p : Path) : (w.setPath p).sample = w.sample := by unfold Warp.setPath; split <;> rfl
@[simp] theorem Warp.setPath_demot (w : Warp) (p : Path) : (w.setPath p).demot = w.demot := by unfold Warp.setPath; split <;> rfl
@[simp] theorem Warp.setPath_prog (w : Warp) (p : Path) : (w.setPath p).prog = w.prog := by unfold Warp.setPath; split <;> rfl
@[simp] theorem Warp.setPath_wait (w : Warp) (p : Path) : (w.setPath p).wait = w.wait := by unfold Warp.setPath; split <;> rfl
@[simp] theorem Warp.setPath_sig (w : Warp) (p : Path) : (w.setPath p).sig = w.sig := by unfold Warp.setPath; split <;> rfl
@[simp] theorem Warp.setPath_grow (w : Warp) (p : Path) : (w.setPath p).grow = w.grow := by unfold Warp.setPath; split <;> rfl
@[simp] theorem Warp.setPath_granted (w : Warp) (p : Path) : (w.setPath p).granted = w.granted := by unfold Warp.setPath; split <;> rfl
@[simp] theorem Warp.setPath_preemptDue (w : Warp) (p : Path) : (w.setPath p).preemptDue = w.preemptDue := by unfold Warp.setPath; split <;> rfl
@[simp] theorem Warp.setPath_urgent (w : Warp) (p : Path) : (w.setPath p).urgent = w.urgent := by unfold Warp.setPath; split <;> rfl
@[simp] theorem Warp.setPath_passed (w : Warp) (p : Path) : (w.setPath p).passed = w.passed := by unfold Warp.setPath; split <;> rfl
@[simp] theorem Warp.setPath_pass (w : Warp) (p : Path) : (w.setPath p).pass = w.pass := by unfold Warp.setPath; split <;> rfl
@[simp] theorem Warp.setPath_halt (w : Warp) (p : Path) : (w.setPath p).halt = w.halt := by unfold Warp.setPath; split <;> rfl
@[simp] theorem Warp.setPath_bad (w : Warp) (p : Path) : (w.setPath p).bad = w.bad := by unfold Warp.setPath; split <;> rfl
@[simp] theorem Warp.setPath_lines (w : Warp) (p : Path) : (w.setPath p).lines = w.lines := by unfold Warp.setPath; split <;> rfl
@[simp] theorem Warp.setPath_filled (w : Warp) (p : Path) : (w.setPath p).filled = w.filled := by unfold Warp.setPath; split <;> rfl
@[simp] theorem Warp.setPath_kept (w : Warp) (p : Path) : (w.setPath p).kept = w.kept := by unfold Warp.setPath; split <;> rfl
@[simp] theorem Warp.setPath_vopen (w : Warp) (p : Path) : (w.setPath p).vopen = w.vopen := by unfold Warp.setPath; split <;> rfl

/-! Lookups of `warp` -/

@[simp] theorem Mach.warp_setWarp_self (m : Mach) (k : Nat) (x : Warp) : (m.setWarp k x).warp k = x := by
  simp [Mach.warp, Mach.setWarp]
theorem Mach.warp_setWarp_ne (m : Mach) {k j : Nat} (x : Warp) (h : j ≠ k) : (m.setWarp k x).warp j = m.warp j := by
  simp [Mach.warp, Mach.setWarp, Map.find?_ins_ne _ _ h]
theorem Mach.warp_updWarp_self {m : Mach} {k : Nat} (f : Warp → Warp) (h : (Map.find? m.warps k).isSome) :
    (m.updWarp k f).warp k = f (m.warp k) := by
  obtain ⟨x, hx⟩ := Option.isSome_iff_exists.1 h
  simp [Mach.warp, Mach.updWarp, Map.find?_upd_self, hx]
theorem Mach.warp_updWarp_ne (m : Mach) {k j : Nat} (f : Warp → Warp) (h : j ≠ k) : (m.updWarp k f).warp j = m.warp j := by
  simp [Mach.warp, Mach.updWarp, Map.find?_upd_ne _ _ h]

/-! Lookups of `block` -/

@[simp] theorem Mach.block_setBlock_self (m : Mach) (k : Nat) (x : Block) : (m.setBlock k x).block k = x := by
  simp [Mach.block, Mach.setBlock]
theorem Mach.block_setBlock_ne (m : Mach) {k j : Nat} (x : Block) (h : j ≠ k) : (m.setBlock k x).block j = m.block j := by
  simp [Mach.block, Mach.setBlock, Map.find?_ins_ne _ _ h]
theorem Mach.block_updBlock_self {m : Mach} {k : Nat} (f : Block → Block) (h : (Map.find? m.blocks k).isSome) :
    (m.updBlock k f).block k = f (m.block k) := by
  obtain ⟨x, hx⟩ := Option.isSome_iff_exists.1 h
  simp [Mach.block, Mach.updBlock, Map.find?_upd_self, hx]
theorem Mach.block_updBlock_ne (m : Mach) {k j : Nat} (f : Block → Block) (h : j ≠ k) : (m.updBlock k f).block j = m.block j := by
  simp [Mach.block, Mach.updBlock, Map.find?_upd_ne _ _ h]

/-! Lookups of `ctx` -/

@[simp] theorem Mach.ctx_setCtx_self (m : Mach) (k : Nat) (x : Ctx) : (m.setCtx k x).ctx k = x := by
  simp [Mach.ctx, Mach.setCtx]
theorem Mach.ctx_setCtx_ne (m : Mach) {k j : Nat} (x : Ctx) (h : j ≠ k) : (m.setCtx k x).ctx j = m.ctx j := by
  simp [Mach.ctx, Mach.setCtx, Map.find?_ins_ne _ _ h]
theorem Mach.ctx_updCtx_self {m : Mach} {k : Nat} (f : Ctx → Ctx) (h : (Map.find? m.ctxs k).isSome) :
    (m.updCtx k f).ctx k = f (m.ctx k) := by
  obtain ⟨x, hx⟩ := Option.isSome_iff_exists.1 h
  simp [Mach.ctx, Mach.updCtx, Map.find?_upd_self, hx]
theorem Mach.ctx_updCtx_ne (m : Mach) {k j : Nat} (f : Ctx → Ctx) (h : j ≠ k) : (m.updCtx k f).ctx j = m.ctx j := by
  simp [Mach.ctx, Mach.updCtx, Map.find?_upd_ne _ _ h]

/-! Lookups of `vat` -/

@[simp] theorem Mach.vat_setVat_self (m : Mach) (k : Nat) (x : Vat) : (m.setVat k x).vat k = x := by
  simp [Mach.vat, Mach.setVat]
theorem Mach.vat_setVat_ne (m : Mach) {k j : Nat} (x : Vat) (h : j ≠ k) : (m.setVat k x).vat j = m.vat j := by
  simp [Mach.vat, Mach.setVat, Map.find?_ins_ne _ _ h]
theorem Mach.vat_updVat_self {m : Mach} {k : Nat} (f : Vat → Vat) (h : (Map.find? m.vats k).isSome) :
    (m.updVat k f).vat k = f (m.vat k) := by
  obtain ⟨x, hx⟩ := Option.isSome_iff_exists.1 h
  simp [Mach.vat, Mach.updVat, Map.find?_upd_self, hx]
theorem Mach.vat_updVat_ne (m : Mach) {k j : Nat} (f : Vat → Vat) (h : j ≠ k) : (m.updVat k f).vat j = m.vat j := by
  simp [Mach.vat, Mach.updVat, Map.find?_upd_ne _ _ h]

/-! Lookups of `op` -/

@[simp] theorem Mach.op_setOp_self (m : Mach) (k : Nat) (x : Op) : (m.setOp k x).op k = x := by
  simp [Mach.op, Mach.setOp]
theorem Mach.op_setOp_ne (m : Mach) {k j : Nat} (x : Op) (h : j ≠ k) : (m.setOp k x).op j = m.op j := by
  simp [Mach.op, Mach.setOp, Map.find?_ins_ne _ _ h]
theorem Mach.op_updOp_self {m : Mach} {k : Nat} (f : Op → Op) (h : (Map.find? m.ops k).isSome) :
    (m.updOp k f).op k = f (m.op k) := by
  obtain ⟨x, hx⟩ := Option.isSome_iff_exists.1 h
  simp [Mach.op, Mach.updOp, Map.find?_upd_self, hx]
theorem Mach.op_updOp_ne (m : Mach) {k j : Nat} (f : Op → Op) (h : j ≠ k) : (m.updOp k f).op j = m.op j := by
  simp [Mach.op, Mach.updOp, Map.find?_upd_ne _ _ h]

/-! Registers of a warp -/

@[simp] theorem Warp.sKey_setS (w : Warp) (f g : Nat) (x : Word) : (w.setS f x).sKey g = w.sKey g := rfl
@[simp] theorem Warp.getS_setS_self (w : Warp) (f : Nat) (x : Word) : (w.setS f x).getS f = x := by
  simp [Warp.getS, Warp.setS, Warp.sKey]
theorem Warp.getS_setS_ne (w : Warp) {f g : Nat} (x : Word) (h : w.sKey g ≠ w.sKey f) : (w.setS f x).getS g = w.getS g :=
  Map.get_set_ne w.s x h
@[simp] theorem Warp.getV_setV_self (w : Warp) (r i : Nat) (x : Word) : (w.setV r i x).getV r i = x := by
  simp [Warp.getV, Warp.setV]
theorem Warp.getV_setV_ne (w : Warp) {r i r' i' : Nat} (x : Word) (h : 32 * r' + i' ≠ 32 * r + i) :
    (w.setV r i x).getV r' i' = w.getV r' i' :=
  Map.get_set_ne w.v x h
/-- p0 reads constant true, whatever is written to it (03 R60). -/
@[simp] theorem Warp.getP_zero (w : Warp) : w.getP 0 = BitVec.allOnes 32 := rfl
@[simp] theorem Warp.setP_zero (w : Warp) (x : Word) : w.setP 0 x = w := rfl
theorem Warp.getP_setP_self (w : Warp) {n : Nat} (x : Word) (h : n ≠ 0) : (w.setP n x).getP n = x := by
  simp [Warp.getP, Warp.setP, h]
theorem Warp.getP_setP_ne (w : Warp) {n j : Nat} (x : Word) (h : j ≠ n) : (w.setP n x).getP j = w.getP j := by
  unfold Warp.setP
  split
  · rfl
  · unfold Warp.getP
    split
    · rfl
    · exact Map.get_set_ne w.p x h
@[simp] theorem Warp.tile_setTile_self (w : Warp) (i : Nat) (x : Tile) : (w.setTile i x).tile i = x := by
  simp [Warp.tile, Warp.setTile]
theorem Warp.tile_setTile_ne (w : Warp) {i j : Nat} (x : Tile) (h : j ≠ i) : (w.setTile i x).tile j = w.tile j := by
  simp [Warp.tile, Warp.setTile, Map.find?_ins_ne _ _ h]

end Sys2Proof.Machine
end

