-- ==== Sys2Proof/Laws/Issue.lean ====
section
/-!
SUPPORT. Every instruction that warps issue goes through one operation, `issueWith`; what that operation comes to.
-/

namespace Sys2Proof.Machine

/-- An instruction of the current warp with the checks of q, an effect that may read the package, and a retirement. -/
def issuedAs (q : Req) (next : Mach → List Nat → Mach) (body : Plat → Mach → List Nat → Except Stop Mach) (s : State) :
    Host.Outcome State Fault Refusal :=
  if canIssue s.m s.cur then .next { s with m := issueWith q next (body s.p) s.m s.cur } else .next s

/-- Every issued instruction is an instance of `issuedAs` with the checks that its request names. -/
theorem exec_issued {i : Instr} {q : Req} (h : reqOf i = some q) :
    ∃ next body, ∀ s, exec i s = issuedAs q next body s := by
  cases i <;> first | (cases h; exact ⟨_, fun _ => _, fun _ => rfl⟩) | (cases h; exact ⟨_, _, fun _ => rfl⟩) | cases h

theorem issueWith_stop {q : Req} {m m' : Mach} {k : Nat} {st : Stop} (h : admission q m k = .stop m' st)
    (next : Mach → List Nat → Mach) (body : Mach → List Nat → Except Stop Mach) :
    issueWith q next body m k = deliver m' k st := by
  simp [issueWith, h]

theorem issueWith_park {q : Req} {m m' : Mach} {k : Nat} (h : admission q m k = .park m')
    (next : Mach → List Nat → Mach) (body : Mach → List Nat → Except Stop Mach) : issueWith q next body m k = m' := by
  simp [issueWith, h]

theorem issueWith_go {q : Req} {m m0 m1 m2 m3 : Mach} {k : Nat} {ms : List Nat} (h : admission q m k = .go m0 ms)
    (ht : touch q m0 ms = (m1, none)) (hl : lateFault q m1 ms = none) (hs : separator q m1 k = (m2, none)) (next : Mach → List Nat → Mach)
    {body : Mach → List Nat → Except Stop Mach} (hb : body m2 ms = .ok m3) : issueWith q next body m k = next m3 ms := by
  simp [issueWith, h, ht, hl, hs, hb]

theorem issueWith_error {q : Req} {m m0 m1 m2 : Mach} {k : Nat} {ms : List Nat} {st : Stop} (h : admission q m k = .go m0 ms)
    (ht : touch q m0 ms = (m1, none)) (hl : lateFault q m1 ms = none) (hs : separator q m1 k = (m2, none)) (next : Mach → List Nat → Mach)
    {body : Mach → List Nat → Except Stop Mach} (hb : body m2 ms = .error st) :
    issueWith q next body m k = deliver m2 k (widen q.sc st) := by
  simp [issueWith, h, ht, hl, hs, hb]

/-- Registers that stand in the cache need no fill (06 R116). -/
theorem touchAll_resident {sc : Nat} {m : Mach} {us : List LineUse} (h : ∀ u ∈ us, u.l ∈ (m.warp u.k).lines) :
    touchAll sc m us = (m, none) := by
  induction us with
  | nil => rfl
  | cons u us ih =>
    unfold touchAll touchLine
    rw [if_pos (by simpa using h u List.mem_cons_self)]
    exact ih (fun x hx => h x (List.mem_cons_of_mem _ hx))

theorem touchMore_resident {sc : Nat} {m : Mach} {us : List LineUse} (h : ∀ u ∈ us, u.l ∈ (m.warp u.k).lines) :
    touchMore sc m us = .ok m := by
  unfold touchMore
  rw [touchAll_resident h]

theorem scalarUses_resident {m : Mach} {k : Nat} {o : Bool} {fs : List Nat} (h : ∀ f ∈ fs, keyLine ((m.warp k).sKey f) ∈ (m.warp k).lines) :
    ∀ u ∈ m.scalarUses k o fs, u.l ∈ (m.warp u.k).lines := by
  intro u hu
  obtain ⟨f, hf, rfl⟩ := List.mem_map.1 hu
  exact h f hf

theorem vectorUses_resident {m : Mach} {k : Nat} {rs : List Nat} (h : ∀ r ∈ rs, r ∈ (m.warp k).lines) :
    ∀ u ∈ vectorUses k rs, u.l ∈ (m.warp u.k).lines := by
  intro u hu
  obtain ⟨r, hr, rfl⟩ := List.mem_map.1 hu
  exact h r hr

theorem touch_resident {q : Req} {m : Mach} {ms : List Nat} (h : Resident q m ms) : touch q m ms = (m, none) := by
  apply touchAll_resident
  intro u hu
  unfold accessed at hu
  rcases List.mem_append.1 hu with hu | hu
  · rcases List.mem_append.1 hu with hu | hu
    · exact scalarUses_resident (fun f hf => h.sources f (List.mem_append_left _ hf)) u hu
    · exact scalarUses_resident (fun f hf => h.sources f (List.mem_append_right _ hf)) u hu
  · obtain ⟨j, hj, hu⟩ := List.mem_flatMap.1 hu
    rcases List.mem_append.1 hu with hu | hu
    · exact vectorUses_resident (h.vectors j hj) u hu
    · exact scalarUses_resident (h.results j hj) u hu

/-- A fill that fails ends the instruction before its effect (06 R118). -/
theorem issueWith_miss {q : Req} {m m0 m1 : Mach} {k : Nat} {ms : List Nat} {st : Stop} (h : admission q m k = .go m0 ms)
    (ht : touch q m0 ms = (m1, some st)) (next : Mach → List Nat → Mach) (body : Mach → List Nat → Except Stop Mach) :
    issueWith q next body m k = deliver m1 k st := by
  simp [issueWith, h, ht]

/-- An instruction that goes ahead and whose effect is m2. -/
theorem goes_issueWith {q : Req} {s : State} {m m2 : Mach} {ms : List Nat} (h : Goes q s m ms) (next : Mach → List Nat → Mach)
    {body : Mach → List Nat → Except Stop Mach} (hb : body m ms = .ok m2) : issueWith q next body s.m s.cur = next m2 ms :=
  issueWith_go h.admitted (touch_resident h.resident) h.inRange h.agrees next hb

theorem goes_error {q : Req} {s : State} {m : Mach} {ms : List Nat} {st : Stop} (h : Goes q s m ms) (next : Mach → List Nat → Mach)
    {body : Mach → List Nat → Except Stop Mach} (hb : body m ms = .error st) :
    issueWith q next body s.m s.cur = deliver m s.cur (widen q.sc st) :=
  issueWith_error h.admitted (touch_resident h.resident) h.inRange h.agrees next hb

end Sys2Proof.Machine
end

