-- ==== Sys2Proof/Laws/Admission.lean ====
section
/-!
SUPPORT. What the checks before an instruction leave alone, and what a retirement does.
-/

namespace Sys2Proof.Machine

/-- Two warps differ at most in the marks that say which table entries stand in spill. -/
structure SameButSpill (w w' : Warp) : Prop where
  eq : w' = { w with paths := w'.paths, recs := w'.recs }
  paths : w'.paths.map (fun p => { p with spilled := false }) = w.paths.map (fun p => { p with spilled := false })
  recs : w'.recs.map (fun e => (e.1, { e.2 with spilled := false })) = w.recs.map (fun e => (e.1, { e.2 with spilled := false }))

theorem SameButSpill.rfl' (w : Warp) : SameButSpill w w := ⟨rfl, rfl, rfl⟩

theorem SameButSpill.trans {a b c : Warp} (h : SameButSpill a b) (g : SameButSpill b c) : SameButSpill a c := by
  refine ⟨?_, g.paths.trans h.paths, g.recs.trans h.recs⟩
  rw [g.eq, h.eq]

theorem unspill_map (l : List Path) (c : Path → Bool) :
    (l.map (fun p => if c p then { p with spilled := true } else p)).map (fun p => { p with spilled := false }) =
      l.map (fun p => { p with spilled := false }) := by
  induction l with
  | nil => rfl
  | cons a l ih => simp only [List.map_cons, ih]; split <;> rfl

theorem spillPaths_same (n fuel : Nat) (ps : List Path) :
    (spillPaths n fuel ps).map (fun p => { p with spilled := false }) = ps.map (fun p => { p with spilled := false }) := by
  induction fuel generalizing ps with
  | zero => rfl
  | succ fuel ih =>
    unfold spillPaths
    split
    · rfl
    · split
      · rfl
      · rw [ih]; exact unspill_map _ _

theorem unspill_upd (l : List (Nat × Rec)) (i : Nat) (b : Bool) :
    (Map.upd l i (fun r => { r with spilled := b })).map (fun e => (e.1, { e.2 with spilled := false })) =
      l.map (fun e => (e.1, { e.2 with spilled := false })) := by
  induction l with
  | nil => rfl
  | cons a l ih =>
    simp only [Map.upd, List.map_cons] at ih ⊢
    rw [ih]; split <;> rfl

theorem spillRecs_same (n fuel : Nat) (w : Warp) : SameButSpill w (spillRecs n fuel w) := by
  induction fuel generalizing w with
  | zero => exact .rfl' w
  | succ fuel ih =>
    unfold spillRecs
    dsimp only
    split
    · exact .rfl' w
    · split
      · exact .rfl' w
      · rename_i i _
        refine SameButSpill.trans ?_ (ih _)
        refine ⟨rfl, ?_, unspill_upd _ _ _⟩
        dsimp only
        rw [List.map_append, unspill_map, ← List.map_append, List.take_append_drop]

theorem SameButSpill.fill (w : Warp) (need : Option Nat) : SameButSpill w { w with
    paths := match w.paths with | [] => [] | p :: r => { p with spilled := false } :: r
    recs := match need with | none => w.recs | some i => Map.upd w.recs i (fun r => { r with spilled := false }) } := by
  refine ⟨rfl, ?_, ?_⟩
  · dsimp only
    cases w.paths <;> rfl
  · cases need with
    | none => rfl
    | some i => exact unspill_upd _ _ _

theorem residency_same {m : Mach} {k : Nat} {f : FaultInfo} {w w' : Warp} {need : Option Nat}
    (h : residency m k f w need = .ok w') : SameButSpill w w' := by
  have key : SameButSpill w { spillRecs (8 - 0) 64 (fillEntries w need) with
      paths := spillPaths 16 64 (spillRecs (8 - 0) 64 (fillEntries w need)).paths } := by
    refine SameButSpill.trans (b := spillRecs (8 - 0) 64 (fillEntries w need)) ?_ ⟨rfl, spillPaths_same _ _ _, rfl⟩
    exact (SameButSpill.fill w need).trans (spillRecs_same _ _ _)
  unfold residency at h
  dsimp only [id] at h
  split at h
  · rw [← Except.ok.inj h]; exact key
  · split at h
    · cases h
    · revert h
      cases spillTouches m k f _ _ _ with
      | error e => intro h; cases h
      | ok u => intro h; rw [← Except.ok.inj h]; exact key

theorem fillCurrent_same {m m' : Mach} {k : Nat} (h : fillCurrent m k = .ok m') :
    m' = { m with warps := m'.warps } ∧ sameOthers k m m' ∧
      ((Map.find? m.warps k).isSome = true → (Map.find? m'.warps k).isSome = true) ∧ SameButSpill (m.warp k) (m'.warp k) := by
  unfold fillCurrent at h
  split at h
  · cases hr : residency m k { m.fault k 0 .spill with tmask := (m.warp k).path.mask } (m.warp k) none with
    | error e => rw [hr] at h; cases h
    | ok w =>
      rw [hr] at h
      cases h
      exact ⟨rfl, fun j hj => Map.find?_ins_ne _ _ hj, fun _ => by simp [Mach.setWarp],
        (Mach.warp_setWarp_self m k w).symm ▸ residency_same hr⟩
  · cases h
    exact ⟨rfl, fun _ _ => rfl, id, .rfl' _⟩

theorem SameButSpill.pc {w w' : Warp} (h : SameButSpill w w') :
    w'.path.pc = w.path.pc ∧ w'.path.mask = w.path.mask ∧ w'.path.turn = w.path.turn := by
  have hp := h.paths
  unfold Warp.path
  cases hw : w.paths <;> cases hw' : w'.paths <;> rw [hw, hw'] at hp <;> simp at hp ⊢
  exact ⟨hp.1.1, hp.1.2.1, by simp_all⟩

/-- What the checks of an instruction of lane or warp scope leave of the warp: all but the paths and the spill marks. -/
structure Admitted (q : Req) (k : Nat) (m m' : Mach) : Prop where
  machine : m' = { m with warps := m'.warps }
  others : sameOthers k m m'
  here : (Map.find? m.warps k).isSome = true → (Map.find? m'.warps k).isSome = true
  warp : m'.warp k = { m.warp k with paths := (m'.warp k).paths, recs := (m'.warp k).recs }
  some : (m.warp k).paths ≠ [] → (m'.warp k).paths ≠ []
  pc : (m'.warp k).path.pc = (m.warp k).path.pc
  turn : (m'.warp k).path.turn = (m.warp k).path.turn
  mask : (m'.warp k).path.mask = if q.sc = 0 then (m.warp k).path.mask else (m.warp k).live

/-- What does not look at the paths and records of the warp is the same after the checks. -/
theorem Admitted.keeps {q : Req} {k : Nat} {m m' : Mach} (h : Admitted q k m m') {α : Type} (f : Warp → α)
    (hf : ∀ (w : Warp) ps rs, f { w with paths := ps, recs := rs } = f w) : f (m'.warp k) = f (m.warp k) := by
  rw [h.warp]; exact hf _ _ _

theorem admission_low {q : Req} {m m' : Mach} {k : Nat} {ms : List Nat} (hq : q.sc < 2)
    (h : admission q m k = .go m' ms) : ms = [k] ∧ Admitted q k m m' := by
  unfold admission at h
  split at h
  · cases h
  · rename_i mm hf
    obtain ⟨b1, b2, b3, hs⟩ := fillCurrent_same hf
    have hne : (m.warp k).paths ≠ [] → (mm.warp k).paths ≠ [] := by
      intro h0 h1
      have := hs.paths
      rw [h1] at this
      simp at this
      exact h0 this
    split at h
    · cases h
    · split at h
      · rename_i h0
        split at h
        · cases h
        · cases h
          refine ⟨rfl, b1, b2, b3, hs.eq, hne, hs.pc.1, hs.pc.2.2, ?_⟩
          rw [if_pos h0]; exact hs.pc.2.1
      · rename_i h0
        have h1 : q.sc = 1 := by omega
        split at h
        · cases h
        · cases h
        · rename_i w2 hg
          rw [if_pos h1] at h
          split at h
          · cases h
          · cases h
            have hw2 : w2 = { mm.warp k with paths := w2.paths } ∧ w2.path.pc = (mm.warp k).path.pc ∧
                w2.path.mask = (mm.warp k).live ∧ w2.path.turn = (mm.warp k).path.turn ∧ ((mm.warp k).paths ≠ [] → w2.paths ≠ []) := by
              unfold gather at hg
              dsimp only at hg
              split at hg
              · rename_i e
                cases hg
                exact ⟨rfl, rfl, e, rfl, id⟩
              · split at hg
                · cases hg
                  exact ⟨rfl, rfl, rfl, rfl, fun _ => by simp⟩
                · split at hg <;> cases hg
            have hl : (mm.warp k).live = (m.warp k).live := by rw [hs.eq]
            refine ⟨rfl, ?_, ?_, ?_, ?_, ?_, ?_, ?_, ?_⟩
            · rw [b1]; rfl
            · exact fun j hj => (Map.find?_ins_ne _ _ hj).trans (b2 j hj)
            · exact fun _ => by simp [Mach.setWarp]
            · rw [Mach.warp_setWarp_self, hw2.1, hs.eq]
            · rw [Mach.warp_setWarp_self]; exact fun h => hw2.2.2.2.2 (hne h)
            · rw [Mach.warp_setWarp_self, hw2.2.1]; exact hs.pc.1
            · rw [Mach.warp_setWarp_self, hw2.2.2.2.1]; exact hs.pc.2.2
            · rw [Mach.warp_setWarp_self, if_neg h0, hw2.2.2.1, hl]

/-- There is a current warp where an instruction goes ahead. -/
theorem canIssue_here {m : Mach} {k : Nat} (h : canIssue m k = true) : (Map.find? m.warps k).isSome = true := by
  unfold canIssue at h
  simp only [Bool.and_eq_true] at h
  exact h.1.1.1.1.1.1.1

theorem canIssue_paths {m : Mach} {k : Nat} (h : canIssue m k = true) : (m.warp k).paths ≠ [] := by
  unfold canIssue at h
  simp only [Bool.and_eq_true, Bool.not_eq_true'] at h
  intro e
  simp [e] at h

theorem Goes.here {q : Req} {s : State} {m : Mach} {ms : List Nat} (h : Goes q s m ms) :
    (Map.find? s.m.warps s.cur).isSome = true := canIssue_here h.may

theorem Goes.paths {q : Req} {s : State} {m : Mach} {ms : List Nat} (h : Goes q s m ms) : s.me.paths ≠ [] :=
  canIssue_paths h.may

/-- What the retirement of a member leaves of it: all but its futures, its paths and the marks of waiting. -/
theorem consume_rest (w : Warp) (fs : List Nat) : consume w fs = { w with futs := (consume w fs).futs } := by
  unfold consume
  split <;> rfl

theorem retireWarp_eq (q : Req) (b : Bool) (w : Warp) :
    retireWarp q b w = { w with futs := (retireWarp q b w).futs, wait := none, sig := (retireWarp q b w).sig, urgent := false,
                                passed := 0, justActive := false, prog := (retireWarp q b w).prog,
                                kept := (retireWarp q b w).kept, pts := (retireWarp q b w).pts } := by
  cases b <;> (unfold retireWarp; simp only [Bool.false_eq_true, if_false, if_true]; rw [consume_rest]; try rfl)

@[simp] theorem retireWarp_retired (q : Req) (b : Bool) (w : Warp) : (retireWarp q b w).retired = w.retired := by
  rw [retireWarp_eq]; rfl

@[simp] theorem countReuse_warps (q : Req) (m : Mach) (k : Nat) : (countReuse q m k).warps = m.warps := by
  unfold countReuse
  split <;> rfl

theorem mem_rotate {ps : List Path} {p : Path} (h : p ∈ ps) : ∃ p' ∈ rotate ps, p' = { p with turn := p'.turn } := by
  unfold rotate
  split
  · have hm : p ∈ ps.dropWhile (fun p => !p.runnable) ++ ps.takeWhile (fun p => !p.runnable) := by
      rw [← List.takeWhile_append_dropWhile (p := fun p : Path => !p.runnable) (l := ps)] at h
      exact List.mem_append.2 (List.mem_append.1 h).symm
    revert hm
    cases ps.dropWhile (fun p => !p.runnable) ++ ps.takeWhile (fun p => !p.runnable) with
    | nil => intro hm; cases hm
    | cons a r =>
      intro hm
      rcases List.mem_cons.1 hm with rfl | hm
      · exact ⟨_, List.mem_cons_self .., rfl⟩
      · exact ⟨p, List.mem_cons_of_mem _ hm, rfl⟩
  · exact ⟨p, h, rfl⟩

/-- A turn that ends changes the order of the paths alone. -/
theorem limitTurn_eq (w : Warp) : w.limitTurn = { w with paths := w.limitTurn.paths } := by
  unfold Warp.limitTurn
  split <;> rfl

theorem limitTurn_low {w : Warp} (h : w.path.turn < 4096) : w.limitTurn = w := if_pos h

theorem mem_limitTurn {w : Warp} {p : Path} (h : p ∈ w.paths) : ∃ p' ∈ w.limitTurn.paths, p' = { p with turn := p'.turn } := by
  unfold Warp.limitTurn
  split
  · exact ⟨p, h, rfl⟩
  · unfold endTurn
    cases hp : w.paths with
    | nil => rw [hp] at h; cases h
    | cons a r =>
      rw [hp] at h
      exact mem_rotate (by simpa [or_comm] using h)

/-- A member after its retirement: its current path has gone on, and its turn may have ended. -/
def Warp.ended (q : Req) (reads : Bool) (w : Warp) : Warp :=
  let w := retireWarp q reads w
  (w.setPath (w.path.advance q.words)).limitTurn

theorem ended_eq (q : Req) (b : Bool) (w : Warp) :
    w.ended q b = { retireWarp q b w with paths := (w.ended q b).paths } := by
  unfold Warp.ended
  dsimp only
  conv_lhs => rw [limitTurn_eq]
  unfold Warp.setPath
  split <;> rfl

@[simp] theorem ended_v (q : Req) (b : Bool) (w : Warp) : (w.ended q b).v = w.v := by rw [ended_eq, retireWarp_eq]
@[simp] theorem ended_s (q : Req) (b : Bool) (w : Warp) : (w.ended q b).s = w.s := by rw [ended_eq, retireWarp_eq]
@[simp] theorem ended_p (q : Req) (b : Bool) (w : Warp) : (w.ended q b).p = w.p := by rw [ended_eq, retireWarp_eq]
@[simp] theorem ended_fflags (q : Req) (b : Bool) (w : Warp) : (w.ended q b).fflags = w.fflags := by rw [ended_eq, retireWarp_eq]
@[simp] theorem ended_demot (q : Req) (b : Bool) (w : Warp) : (w.ended q b).demot = w.demot := by rw [ended_eq, retireWarp_eq]
@[simp] theorem ended_recs (q : Req) (b : Bool) (w : Warp) : (w.ended q b).recs = w.recs := by rw [ended_eq, retireWarp_eq]

/-- What every retirement may touch and the paths apart, a member is as it was. -/
theorem ended_retired (q : Req) (b : Bool) (w : Warp) : { (w.ended q b).retired with paths := [] } = { w.retired with paths := [] } := by
  rw [ended_eq, retireWarp_eq]; rfl

@[simp] theorem ended_rest (q : Req) (b : Bool) (w : Warp) : (w.ended q b).rest = w.rest := by
  rw [ended_eq, retireWarp_eq]; rfl

/-- The paths of a member after its retirement. -/
theorem ended_paths (q : Req) (b : Bool) {w : Warp} {p : Path} {r : List Path} (h : w.paths = p :: r) :
    (∃ p' ∈ (w.ended q b).paths, p' = { p.advance q.words with turn := p'.turn }) ∧
      (p.turn + 1 < 4096 → (w.ended q b).paths = p.advance q.words :: r) := by
  have hp : (retireWarp q b w).paths = p :: r := by rw [retireWarp_eq]; exact h
  have hw : ((retireWarp q b w).setPath ((retireWarp q b w).path.advance q.words)).paths = p.advance q.words :: r := by
    unfold Warp.setPath Warp.path
    rw [hp]
    rfl
  refine ⟨mem_limitTurn (by rw [hw]; exact List.mem_cons_self ..), fun ht => ?_⟩
  unfold Warp.ended
  dsimp only
  have e : ((retireWarp q b w).setPath ((retireWarp q b w).path.advance q.words)).path = p.advance q.words :=
    congrArg (fun l => l.headD default) hw
  rw [limitTurn_low (by rw [e]; exact ht), hw]

theorem ended_goesOn (q : Req) (b : Bool) {w : Warp} (h : w.paths ≠ []) : GoesOn w (w.ended q b) q.words := by
  cases hp : w.paths with
  | nil => exact absurd hp h
  | cons p r =>
    have e : w.path = p := by unfold Warp.path; rw [hp]; rfl
    obtain ⟨⟨p', hm, he⟩, hl⟩ := ended_paths q b hp
    refine ⟨⟨p', hm, by rw [he, e]; rfl⟩, fun ht => ?_⟩
    rw [e] at ht ⊢
    unfold Warp.path
    rw [hl ht]
    rfl

theorem retire_one (q : Req) (m : Mach) (k : Nat) :
    retire q m [k] = (countReuse q m k).updWarp k (fun w => w.ended q (k == m.lead q.sc k)) := by
  simp [retire, Mach.updWarps, Warp.ended]

theorem map_rest_upd (l : List (Nat × Ctx)) (c : Nat) (f : Ctx → Ctx) (h : ∀ x, (f x).rest = x.rest) :
    (Map.upd l c f).map (fun e => (e.1, e.2.rest)) = l.map (fun e => (e.1, e.2.rest)) := by
  induction l with
  | nil => rfl
  | cons a l ih =>
    simp only [Map.upd, List.map_cons] at ih ⊢
    rw [ih]
    split
    · simp [h]
    · rfl

@[simp] theorem Mach.count_rest (m : Mach) (c i n : Nat) : (m.count c i n).rest = m.rest := by
  unfold Mach.count Mach.updCtx Mach.rest
  dsimp only
  rw [map_rest_upd]
  intro x
  rfl

@[simp] theorem Mach.setWarp_rest (m : Mach) (k : Nat) (w : Warp) : (m.setWarp k w).rest = m.rest := rfl
@[simp] theorem Mach.updWarp_rest (m : Mach) (k : Nat) (f : Warp → Warp) : (m.updWarp k f).rest = m.rest := rfl

@[simp] theorem countReuse_rest (q : Req) (m : Mach) (k : Nat) : (countReuse q m k).rest = m.rest := by
  unfold countReuse
  split <;> simp

@[simp] theorem countPipe_warps (m : Mach) (k sc n : Nat) : (countPipe m k sc n).warps = m.warps := by
  unfold countPipe
  dsimp only
  split <;> split <;> rfl

@[simp] theorem countPipe_rest (m : Mach) (k sc n : Nat) : (countPipe m k sc n).rest = m.rest := by
  unfold countPipe
  dsimp only
  split <;> split <;> simp

@[simp] theorem countXbar_warps (m : Mach) (k n : Nat) : (countXbar m k n).warps = m.warps := by
  unfold countXbar
  dsimp only
  split <;> rfl

@[simp] theorem countXbar_rest (m : Mach) (k n : Nat) : (countXbar m k n).rest = m.rest := by
  unfold countXbar
  dsimp only
  split <;> simp

/-- An instruction of lane or warp scope that went ahead with an effect on its warp and on counters alone. -/
theorem issue_warp {q : Req} {s : State} {m : Mach} {ms : List Nat} (hq : q.sc < 2) (hg : Goes q s m ms)
    {body : Mach → List Nat → Except Stop Mach} {m2 : Mach} (hb : body m ms = .ok m2) (hr : m2.rest = m.rest)
    (ho : sameOthers s.cur m m2) (hh : (Map.find? m2.warps s.cur).isSome = true)
    (hw : (m2.warp s.cur).rest = (m.warp s.cur).rest) (hp : (m2.warp s.cur).paths = (m.warp s.cur).paths) :
    ∃ t, issue q body s = .next t ∧ OnlyWarp s t q.words ∧ t.me.v = (m2.warp s.cur).v ∧ t.me.s = (m2.warp s.cur).s ∧
      t.me.p = (m2.warp s.cur).p ∧ t.me.fflags = (m2.warp s.cur).fflags := by
  have hmay := hg.may
  obtain ⟨rfl, ha⟩ := admission_low hq hg.admitted
  have hne2 : (m2.warp s.cur).paths ≠ [] := hp ▸ ha.some (canIssue_paths hmay)
  have he : State.me { s with m := retire q m2 [s.cur] } = (m2.warp s.cur).ended q (s.cur == m2.lead q.sc s.cur) := by
    unfold State.me
    rw [retire_one, Mach.warp_updWarp_self _ (by rw [countReuse_warps]; exact hh)]
    simp [Mach.warp]
  refine ⟨{ s with m := retire q m2 [s.cur] }, ?_, ⟨rfl, rfl, rfl, ?_, ?_, ?_, ?_⟩, ?_⟩
  · unfold issue
    rw [if_pos hmay, goes_issueWith hg _ hb]
  · dsimp only
    rw [retire_one, Mach.updWarp_rest, countReuse_rest, hr, ha.machine]; rfl
  · intro j hj
    dsimp only
    rw [retire_one]
    dsimp only [Mach.updWarp]
    rw [Map.find?_upd_ne _ _ hj, countReuse_warps, ho j hj, ha.others j hj]
  · rw [he, ended_rest, hw, ha.warp]; rfl
  · rw [he]
    have hg := ended_goesOn q (s.cur == m2.lead q.sc s.cur) hne2
    have e : (m2.warp s.cur).path.pc = s.me.path.pc ∧ (m2.warp s.cur).path.turn = s.me.path.turn := by
      have : (m2.warp s.cur).path = (m.warp s.cur).path := by unfold Warp.path; rw [hp]
      rw [this]
      exact ⟨ha.pc, ha.turn⟩
    constructor
    · rw [← e.1]; exact hg.among
    · rw [← e.1, ← e.2]; exact hg.current
  · rw [he]
    simp

end Sys2Proof.Machine
end

