-- ==== Sys2Proof/Laws/Vector.lean ====
section
/-!
SUPPORT. Lemmas: what the vector forms compute and what they leave alone.
-/

namespace Sys2Proof.Machine

theorem clz_eq : ∀ a : Word, BitVec.ofNat 32 (clz a) = if a = 0 then 32 else BitVec.ofNat 32 (31 - a.toNat.log2) := by
  intro a
  have key : ∀ n, n ≤ 32 → (List.range n).foldl (fun c i => if a.getLsbD i then 31 - i else c) 32 =
      if a.toNat % 2 ^ n = 0 then 32 else 31 - (a.toNat % 2 ^ n).log2 := by
    intro n
    induction n with
    | zero => intro _; simp [Nat.mod_one]
    | succ n ih =>
      intro hn
      rw [List.range_succ, List.foldl_append, ih (by omega)]
      simp only [List.foldl_cons, List.foldl_nil]
      have hb : a.getLsbD n = a.toNat.testBit n := rfl
      rw [hb]
      have hm : a.toNat % 2 ^ (n + 1) = a.toNat % 2 ^ n + 2 ^ n * (a.toNat / 2 ^ n % 2) := Nat.mod_pow_succ
      have hlt : a.toNat % 2 ^ n < 2 ^ n := Nat.mod_lt _ (by positivity)
      have ht : a.toNat.testBit n = decide (a.toNat / 2 ^ n % 2 = 1) := Nat.testBit_eq_decide_div_mod_eq
      rw [ht, hm]
      rcases Nat.mod_two_eq_zero_or_one (a.toNat / 2 ^ n) with h | h
      · simp [h]
      · rw [h]
        have hp : 0 < 2 ^ n := by positivity
        have hne : a.toNat % 2 ^ n + 2 ^ n * 1 ≠ 0 := by omega
        rw [if_pos (by simp), if_neg hne]
        congr 1
        symm
        rw [Nat.log2_eq_iff hne]
        rw [Nat.pow_succ]
        omega
  unfold clz
  rw [key 32 (le_refl _)]
  have : a.toNat % 2 ^ 32 = a.toNat := Nat.mod_eq_of_lt a.isLt
  rw [this]
  by_cases h : a = 0
  · subst h; rfl
  · have h0 : a.toNat ≠ 0 := fun e => h (BitVec.eq_of_toNat_eq e)
    rw [if_neg h0, if_neg h]

theorem popc_eq (a : Word) : popc a = (List.range 32).countP a.getLsbD := by
  unfold popc lanesOf
  rw [List.countP_eq_length_filter]

theorem getLsbD_foldl_bit (ls : List Nat) (acc : Word) (j : Nat) :
    (ls.foldl (fun a i => a ||| bit i) acc).getLsbD j = (acc.getLsbD j || (decide (j < 32) && ls.contains j)) := by
  induction ls generalizing acc with
  | nil => simp
  | cons i l ih =>
    rw [List.foldl_cons, ih]
    simp only [BitVec.getLsbD_or, bit, List.contains_cons]
    by_cases hj : j < 32
    · have : ((1 : Word) <<< i).getLsbD j = (j == i) := by
        rw [BitVec.getLsbD_shiftLeft, show ((1 : Word).getLsbD (j - i)) = decide (j - i = 0) from by
          rw [show (1 : Word) = 1#32 from rfl, BitVec.getLsbD_one]; simp, Bool.eq_iff_iff]
        simp [hj]; omega
      rw [this]; simp [hj, Bool.or_assoc]
    · have : ((1 : Word) <<< i).getLsbD j = false := BitVec.getLsbD_of_ge _ _ (by omega)
      rw [this]; simp [hj]

theorem getLsbD_maskOf (ls : List Nat) (j : Nat) : (maskOf ls).getLsbD j = (decide (j < 32) && ls.contains j) := by
  unfold maskOf; rw [getLsbD_foldl_bit]; simp

theorem mem_lanesOf {x : Word} {i : Nat} : i ∈ lanesOf x ↔ i < 32 ∧ x.getLsbD i = true := by
  simp [lanesOf]

theorem brev_eq (a : Word) : brev a = a.reverse := by
  apply BitVec.eq_of_getLsbD_eq
  intro j hj
  unfold brev
  rw [getLsbD_maskOf]
  simp only [hj, decide_true, Bool.true_and]
  rw [BitVec.getLsbD_reverse, BitVec.getMsbD_eq_getLsbD]
  simp only [hj, decide_true, Bool.true_and]
  rw [Bool.eq_iff_iff]
  simp only [List.contains_iff_mem, List.mem_map, mem_lanesOf]
  constructor
  · rintro ⟨x, ⟨hx, hb⟩, rfl⟩
    have : 32 - 1 - (31 - x) = x := by omega
    rw [this]; exact hb
  · intro hb
    exact ⟨31 - j, ⟨by omega, hb⟩, by omega⟩

theorem rol_eq (a : Word) (n : Nat) (h : n < 32) : rol a n = a.rotateLeft n := by
  unfold rol
  rw [BitVec.rotateLeft_def, Nat.mod_eq_of_lt h]

theorem ofNat_toNat (x : Word) (n : Nat) (h : n % 2 ^ 32 = x.toNat) : x = BitVec.ofNat 32 n :=
  BitVec.eq_of_toNat_eq (by rw [BitVec.toNat_ofNat, h])

theorem shl_eq (a : Word) (n : Nat) : shl a n = BitVec.ofNat 32 (a.toNat * 2 ^ n) := by
  apply ofNat_toNat; simp [shl, Nat.shiftLeft_eq]

theorem shr_eq (a : Word) (n : Nat) : shr a n = BitVec.ofNat 32 (a.toNat / 2 ^ n) := by
  apply ofNat_toNat
  simp only [shr, BitVec.toNat_ushiftRight, Nat.shiftRight_eq_div_pow]
  apply Nat.mod_eq_of_lt
  exact lt_of_le_of_lt (Nat.div_le_self _ _) a.isLt

theorem sar_eq (a : Word) (n : Nat) : sar a n = BitVec.ofInt 32 (a.toInt / 2 ^ n) := by
  unfold sar
  rw [BitVec.sshiftRight_eq, Int.shiftRight_eq_div_pow]
  norm_cast

theorem add_eq (a b : Word) : a + b = BitVec.ofNat 32 (a.toNat + b.toNat) := by
  apply ofNat_toNat; simp

theorem sub_eq (a b : Word) : a - b = BitVec.ofInt 32 ((a.toNat : Int) - b.toNat) := by
  apply BitVec.eq_of_toNat_eq
  rw [BitVec.toNat_sub, BitVec.toNat_ofInt]
  have := a.isLt
  have := b.isLt
  omega

theorem bfx_eq (a b : Word) : bfx a b =
    BitVec.ofInt 32 (Int.bmod ((a.toNat >>> (b.toNat % 32) : Nat) : Int)
      (2 ^ (min (b.toNat / 2 ^ 8 % 64) (32 - b.toNat % 32)))) := by
  have hw : fieldWidth b = min (b.toNat / 2 ^ 8 % 64) (32 - b.toNat % 32) := by
    simp [fieldWidth, fieldPos, bits]
  have hle : fieldWidth b ≤ 32 := by rw [hw]; omega
  rw [← hw]
  unfold bfx bfxu fieldPos
  generalize fieldWidth b = n at hle
  rw [Nat.shiftRight_eq_div_pow]
  generalize a.toNat / 2 ^ (b.toNat % 32) = x
  dsimp only
  have hx : (BitVec.ofNat 32 (x % 2 ^ n)).toNat = x % 2 ^ n := by
    rw [BitVec.toNat_ofNat]
    apply Nat.mod_eq_of_lt
    calc x % 2 ^ n < 2 ^ n := Nat.mod_lt _ (by positivity)
      _ ≤ 2 ^ 32 := Nat.pow_le_pow_right (by norm_num) hle
  rw [hx]
  cases n with
  | zero => simp [Int.bmod]
  | succ n =>
    rw [if_neg (by omega)]
    have hp : (2 : Nat) ^ (n + 1) = 2 * 2 ^ n := by rw [Nat.pow_succ]; ring
    have hm : x % 2 ^ (n + 1) < 2 ^ (n + 1) := Nat.mod_lt _ (by positivity)
    have hpos : 0 < 2 ^ n := by positivity
    have hi : ((x : Int) % ((2 ^ (n + 1) : Nat) : Int)) = ((x % 2 ^ (n + 1) : Nat) : Int) := by norm_cast
    unfold Int.bmod
    rw [hi]
    dsimp only
    simp only [Nat.add_sub_cancel]
    by_cases hc : 2 ^ n ≤ x % 2 ^ (n + 1)
    · rw [if_pos hc, if_neg (by rw [hp] at *; omega)]
      simp only [wordOf]; push_cast; rfl
    · rw [if_neg hc, if_pos (by rw [hp] at *; omega)]
      rw [BitVec.ofInt_natCast]

theorem slt_iff (a b : Word) : (a.slt b = true) ↔ a.toInt < b.toInt := by simp [BitVec.slt]

theorem ult_iff (a b : Word) : (a.ult b = true) ↔ a.toNat < b.toNat := by simp [BitVec.ult]

theorem movhi_eq (a : Word) (x : BitVec 14) : (a &&& 0x3FFFF) ||| (x.zeroExtend 32 <<< 18) =
    BitVec.ofNat 32 (a.toNat % 2 ^ 18 + x.toNat * 2 ^ 18) := by
  apply BitVec.eq_of_getLsbD_eq
  intro j hj
  have hx := x.isLt
  rw [BitVec.getLsbD_ofNat]
  simp only [hj, decide_true, Bool.true_and]
  have h1 : a.toNat % 2 ^ 18 + x.toNat * 2 ^ 18 = 2 ^ 18 * x.toNat + a.toNat % 2 ^ 18 := by ring
  rw [h1, Nat.testBit_two_pow_mul_add _ (Nat.mod_lt _ (by norm_num))]
  have h2 : (0x3FFFF : Word).getLsbD j = decide (j < 18) := by
    have : ∀ j, j < 32 → (0x3FFFF : Word).getLsbD j = decide (j < 18) := by decide
    exact this j hj
  rw [BitVec.getLsbD_or, BitVec.getLsbD_and, BitVec.getLsbD_shiftLeft, BitVec.getLsbD_setWidth]
  erw [h2]
  simp only [hj, decide_true, Bool.true_and]
  by_cases h : j < 18
  · simp only [h, decide_true, if_true, Bool.and_true, Bool.not_true, Bool.false_and, Bool.or_false]
    rw [Nat.testBit_mod_two_pow]; simp [h, BitVec.getLsbD]
  · simp [h, show j - 18 < 32 by omega, BitVec.getLsbD]

theorem andn_eq (a b : Word) : a &&& ~~~ b = BitVec.ofNat 32 (a.toNat &&& (2 ^ 32 - 1 - b.toNat)) := by
  apply ofNat_toNat
  rw [BitVec.toNat_and, BitVec.toNat_not]
  exact Nat.mod_eq_of_lt (lt_of_le_of_lt Nat.and_le_left a.isLt)

theorem bitop_eq (a b : Word) : a &&& b = BitVec.ofNat 32 (a.toNat &&& b.toNat) ∧
    a ||| b = BitVec.ofNat 32 (a.toNat ||| b.toNat) ∧ a ^^^ b = BitVec.ofNat 32 (a.toNat ^^^ b.toNat) := by
  refine ⟨?_, ?_, ?_⟩ <;> apply ofNat_toNat
  · rw [BitVec.toNat_and]; exact Nat.mod_eq_of_lt (lt_of_le_of_lt Nat.and_le_left a.isLt)
  · rw [BitVec.toNat_or]; exact Nat.mod_eq_of_lt (Nat.or_lt_two_pow a.isLt b.isLt)
  · rw [BitVec.toNat_xor]; exact Nat.mod_eq_of_lt (Nat.xor_lt_two_pow a.isLt b.isLt)

theorem mulla_eq (a b c : Word) : a * b + c = BitVec.ofNat 32 (a.toNat * b.toNat + c.toNat) := by
  apply ofNat_toNat; simp [BitVec.toNat_add, BitVec.toNat_mul, Nat.add_mod]

theorem addi_eq (a : Word) (x : BitVec 12) : a + x.signExtend 32 = BitVec.ofInt 32 ((a.toNat : Int) + x.toInt) := by
  apply BitVec.eq_of_toInt_eq
  rw [BitVec.toInt_add, BitVec.toInt_ofInt, BitVec.toInt_eq_toNat_bmod a, Int.bmod_add_bmod,
    BitVec.toInt_signExtend_of_le (by norm_num)]

theorem movi_eq (x : BitVec 18) : x.signExtend 32 = BitVec.ofInt 32 x.toInt := rfl

theorem mul_eq (a b : Word) : a * b = BitVec.ofNat 32 (a.toNat * b.toNat) := by
  apply ofNat_toNat; simp

theorem mulhi_eq (a b : Word) : mulHigh a b = BitVec.ofInt 32 ((a.toInt * b.toInt) >>> (32 : Nat)) := by
  unfold mulHigh wordOf
  rw [Int.shiftRight_eq_div_pow]; rfl

theorem mulhu_eq (a b : Word) : mulHighU a b = BitVec.ofNat 32 ((a.toNat * b.toNat) >>> 32) := by
  unfold mulHighU
  rw [Nat.shiftRight_eq_div_pow]

theorem absdiff_eq (a b : Word) : absDiff a b = BitVec.ofNat 32 (a.toInt - b.toInt).natAbs := by
  unfold absDiff wordOf
  rw [BitVec.ofInt_natCast]

theorem iabs_eq (a : Word) : iabs a = BitVec.ofNat 32 a.toInt.natAbs := by
  unfold iabs wordOf
  rw [BitVec.ofInt_natCast]

theorem sum3_eq (a b c : Word) : a + b + c = BitVec.ofNat 32 (a.toNat + b.toNat + c.toNat) := by
  apply ofNat_toNat; simp [BitVec.toNat_add]

theorem min_eq (a b : Word) : (if a.toInt ≤ b.toInt then a else b) = if a.slt b then a else b := by
  have := slt_iff a b
  by_cases h : a.toInt < b.toInt
  · rw [if_pos (le_of_lt h), if_pos (this.2 h)]
  · rw [if_neg (fun e => h (this.1 e))]
    split
    · exact BitVec.eq_of_toInt_eq (by omega)
    · rfl

theorem max_eq (a b : Word) : (if a.toInt ≤ b.toInt then b else a) = if b.slt a then a else b := by
  have := slt_iff b a
  by_cases h : b.toInt < a.toInt
  · rw [if_neg (by omega), if_pos (this.2 h)]
  · rw [if_neg (fun e => h (this.1 e)), if_pos (by omega)]

theorem umin_eq (a b : Word) : (if a.toNat ≤ b.toNat then a else b) = if a.ult b then a else b := by
  have := ult_iff a b
  by_cases h : a.toNat < b.toNat
  · rw [if_pos (le_of_lt h), if_pos (this.2 h)]
  · rw [if_neg (fun e => h (this.1 e))]
    split
    · exact BitVec.eq_of_toNat_eq (by omega)
    · rfl

theorem umax_eq (a b : Word) : (if a.toNat ≤ b.toNat then b else a) = if b.ult a then a else b := by
  have := ult_iff b a
  by_cases h : b.toNat < a.toNat
  · rw [if_neg (by omega), if_pos (this.2 h)]
  · rw [if_neg (fun e => h (this.1 e)), if_pos (by omega)]

theorem fieldWidth_eq (b : Word) : fieldWidth b = min (b.toNat / 2 ^ 8 % 64) (32 - b.toNat % 32) := by
  simp [fieldWidth, fieldPos, bits]

theorem bfxu_eq (a b : Word) : bfxu a b =
    BitVec.ofNat 32 ((a.toNat >>> (b.toNat % 32)) % 2 ^ (min (b.toNat / 2 ^ 8 % 64) (32 - b.toNat % 32))) := by
  unfold bfxu
  rw [fieldWidth_eq, Nat.shiftRight_eq_div_pow]; rfl

theorem bfi_eq (a b d : Word) : bfi a b d =
    (d &&& ~~~ (BitVec.ofNat 32 ((2 ^ (min (b.toNat / 2 ^ 8 % 64) (32 - b.toNat % 32)) - 1) <<< (b.toNat % 32)))) |||
    ((a <<< (b.toNat % 32)) &&&
      BitVec.ofNat 32 ((2 ^ (min (b.toNat / 2 ^ 8 % 64) (32 - b.toNat % 32)) - 1) <<< (b.toNat % 32))) := by
  unfold bfi
  rw [fieldWidth_eq]
  simp only [Nat.shiftLeft_eq]; rfl

theorem imm10 (x : BitVec 10) : (x.zeroExtend 32).toNat = x.toNat := by
  rw [BitVec.toNat_setWidth]
  exact Nat.mod_eq_of_lt (lt_trans x.isLt (by norm_num))

theorem andi_eq (a : Word) (x : BitVec 10) : a &&& x.zeroExtend 32 = BitVec.ofNat 32 (a.toNat &&& x.toNat) := by
  rw [(bitop_eq _ _).1, imm10]

theorem ori_eq (a : Word) (x : BitVec 10) : a ||| x.zeroExtend 32 = BitVec.ofNat 32 (a.toNat ||| x.toNat) := by
  rw [(bitop_eq _ _).2.1, imm10]

theorem xori_eq (a : Word) (x : BitVec 10) : a ^^^ x.zeroExtend 32 = BitVec.ofNat 32 (a.toNat ^^^ x.toNat) := by
  rw [(bitop_eq _ _).2.2, imm10]

/-- Every computing form is one operation with one function, which is the stated one. -/
theorem pipe_exec {i : Instr} {f : PipeForm} {q : Req} (hf : pipeForm i = some f) (hq : reqOf i = some q) :
    q = computeReq i f.sc f.d.toNat f.a f.b f.c ∧ ∃ fn,
      (∀ s, exec i s = issue q (computeBody q f.sc f.g.toNat f.d.toNat f.a f.b f.c fn) s) ∧
      (∀ r, intResult i = some r → ∀ mode v, (∀ x, f.a = .imm x → v.a = x) → (∀ x, f.b = .imm x → v.b = x) →
        fn mode v = (r v, 0)) ∧
      (∀ r, floatResult i = some r → fn = r) := by
  cases i <;> first
    | (cases hf; done)
    | (simp only [pipeForm, Option.some.injEq] at hf; simp only [reqOf, Option.some.injEq] at hq
       subst hf; subst hq
       refine ⟨rfl, _, fun _ => rfl, ?_, ?_⟩
       · intro r hr; exact absurd hr (by simp [intResult])
       · intro r hr; simp only [floatResult, Option.some.injEq] at hr; subst hr; rfl)
    | (simp only [pipeForm, Option.some.injEq] at hf; simp only [reqOf, Option.some.injEq] at hq
       subst hf; subst hq
       refine ⟨rfl, _, fun _ => rfl, ?_, by intro r hr; exact absurd hr (by simp [floatResult])⟩
       intro r hr
       simp only [intResult, Option.some.injEq] at hr
       subst hr
       intro mode v ha hb
       dsimp only at ha hb
       try (have ha := ha _ rfl)
       try (have hb := hb _ rfl)
       simp only [pure1, pure2, Prod.mk.injEq, and_true] <;> first
         | rfl
         | exact add_eq _ _ | exact sub_eq _ _ | exact shl_eq _ _ | exact shr_eq _ _ | exact sar_eq _ _
         | exact mul_eq _ _ | exact mulhi_eq _ _ | exact mulhu_eq _ _ | exact absdiff_eq _ _ | exact mulla_eq _ _ _
         | exact sum3_eq _ _ _ | exact addi_eq _ _ | exact min_eq _ _ | exact max_eq _ _ | exact umin_eq _ _
         | exact umax_eq _ _ | exact (bitop_eq _ _).1 | exact (bitop_eq _ _).2.1 | exact (bitop_eq _ _).2.2
         | exact andn_eq _ _ | exact rol_eq _ _ (Nat.mod_lt _ (by norm_num)) | exact rol_eq _ _ (BitVec.isLt _)
         | exact clz_eq _ | exact congrArg _ (popc_eq _) | exact brev_eq _ | exact iabs_eq _ | exact bfx_eq _ _
         | exact bfxu_eq _ _ | exact bfi_eq _ _ _ | exact movhi_eq _ _
         | (rw [hb]; exact andi_eq _ _) | (rw [hb]; exact ori_eq _ _) | (rw [hb]; exact xori_eq _ _) | (rw [hb]; exact addi_eq _ _) | (rw [ha]; rfl)
         | exact andi_eq _ _ | exact ori_eq _ _ | exact xori_eq _ _
         | fail)

theorem writeLanes_rest (w : Warp) (d : Nat) (ls : List Nat) (g : Nat → Word) :
    writeLanes w d ls g = { w with v := (writeLanes w d ls g).v } := by
  unfold writeLanes
  induction ls generalizing w with
  | nil => rfl
  | cons i l ih => rw [List.foldl_cons, ih]; rfl

theorem writeLanes_get (w : Warp) (d : Nat) (ls : List Nat) (g : Nat → Word) (hls : ∀ i ∈ ls, i < 32) (r i : Nat)
    (hi : i < 32) : (writeLanes w d ls g).getV r i = if r = d ∧ i ∈ ls then g i else w.getV r i := by
  unfold writeLanes
  induction ls generalizing w with
  | nil => simp
  | cons j l ih =>
    rw [List.foldl_cons, ih _ (fun x hx => hls x (List.mem_cons_of_mem _ hx))]
    have hj := hls j List.mem_cons_self
    by_cases h : r = d ∧ i ∈ l
    · rw [if_pos h, if_pos ⟨h.1, List.mem_cons_of_mem _ h.2⟩]
    · rw [if_neg h]
      by_cases e : r = d ∧ i = j
      · rw [e.1, e.2, if_pos ⟨rfl, List.mem_cons_self⟩, Warp.getV_setV_self]
      · rw [if_neg (by
          rintro ⟨h1, h2⟩
          rcases List.mem_cons.1 h2 with h2 | h2
          · exact e ⟨h1, h2⟩
          · exact h ⟨h1, h2⟩)]
        apply Warp.getV_setV_ne
        intro h2
        exact e (by omega)

theorem Src.lane_eq (a : Src) (w w' : Warp) (hv : w'.v = w.v) (hs : w'.s = w.s) (i : Nat) : a.lane w' i = a.lane w i := by
  cases a <;> simp [Src.lane, Warp.src, Warp.getV, hv, hs]

theorem goes_values {q : Req} {s : State} {m : Mach} {ms : List Nat} (hq : q.sc < 2) (hg : Goes q s m ms) :
    ms = [s.cur] ∧ Admitted q s.cur s.m m ∧ (Map.find? m.warps s.cur).isSome = true := by
  obtain ⟨rfl, ha⟩ := admission_low hq hg.admitted
  exact ⟨rfl, ha, ha.here hg.here⟩

theorem laneVals_imm (w : Warp) (i : Nat) (a b c : Src) :
    (∀ x, a = .imm x → (laneVals w i a b c).a = x) ∧ (∀ x, b = .imm x → (laneVals w i a b c).b = x) := by
  constructor <;> rintro x rfl <;> rfl

theorem warpVals_imm (w : Warp) (a b c : Src) :
    (∀ x, a = .imm x → (warpVals w a b c).a = x) ∧ (∀ x, b = .imm x → (warpVals w a b c).b = x) := by
  constructor <;> rintro x rfl <;> rfl

theorem compute_lanes {q : Req} {f : PipeForm} {i : Instr} (hq : q = computeReq i f.sc f.d.toNat f.a f.b f.c) {s : State}
    {m : Mach} {ms : List Nat} (h0 : f.sc = 0) (hg : Goes q s m ms) (fn : RMode → Vals → Word × Word) :
    ∃ t, issue q (computeBody q f.sc f.g.toNat f.d.toNat f.a f.b f.c fn) s = .next t ∧ OnlyWarp s t 1 ∧
        (∀ n, n < 32 → (active s.me f.g.toNat).getLsbD n = true →
          t.me.getV f.d.toNat n = (fn s.me.mode (laneVals s.me n f.a f.b f.c)).1) ∧
        sameVectors s.me t.me [f.d.toNat] (active s.me f.g.toNat) ∧ sameScalars s.me t.me [] ∧ t.me.p = s.me.p ∧
        t.me.fflags = s.me.fflags ||| orLanes (lanesOf (active s.me f.g.toNat))
          (fun n => (fn s.me.mode (laneVals s.me n f.a f.b f.c)).2) := by
  have hsc : q.sc = 0 := by rw [hq]; simp [computeReq, h0]
  have hw1 : q.words = 1 := by rw [hq]; simp [computeReq, h0]
  obtain ⟨rfl, ha, hh⟩ := goes_values (by omega) hg
  have hw := ha.warp
  have hact : active (m.warp s.cur) f.g.toNat = active s.me f.g.toNat := by
    unfold active State.me
    rw [ha.mask, if_pos hsc, hw]; rfl
  have hval : ∀ n, laneVals (m.warp s.cur) n f.a f.b f.c = laneVals s.me n f.a f.b f.c := by
    intro n
    unfold laneVals State.me
    rw [Src.lane_eq f.a (s.m.warp s.cur) (m.warp s.cur), Src.lane_eq f.b (s.m.warp s.cur) (m.warp s.cur),
      Src.lane_eq f.c (s.m.warp s.cur) (m.warp s.cur)] <;> rw [hw]
  have hmode : (m.warp s.cur).mode = s.me.mode := by unfold State.me Warp.mode; rw [hw]
  have hcl : computeLanes (m.warp s.cur) f.g.toNat f.d.toNat f.a f.b f.c fn =
      { m.warp s.cur with
        v := (writeLanes (m.warp s.cur) f.d.toNat (lanesOf (active s.me f.g.toNat))
          (fun n => (fn s.me.mode (laneVals s.me n f.a f.b f.c)).1)).v
        fflags := (m.warp s.cur).fflags ||| orLanes (lanesOf (active s.me f.g.toNat))
          (fun n => (fn s.me.mode (laneVals s.me n f.a f.b f.c)).2) } := by
    unfold computeLanes
    dsimp only
    rw [hact, hmode]
    simp only [hval]
    rw [writeLanes_rest]
    rfl
  obtain ⟨t, ht, ho, hv, hs, hp, hf⟩ := issue_warp (q := q) (s := s) (m := m) (ms := [s.cur])
    (body := computeBody q f.sc f.g.toNat f.d.toNat f.a f.b f.c fn)
    (m2 := (countPipe m s.cur 0 (lanesOf (active (m.warp s.cur) f.g.toNat)).length).setWarp s.cur
      (computeLanes (m.warp s.cur) f.g.toNat f.d.toNat f.a f.b f.c fn)) (by omega) hg
    (by simp [computeBody, h0]) (by simp) (by
      intro j hj
      simp only [Mach.setWarp]
      rw [Map.find?_ins_ne _ _ hj, countPipe_warps]) (by simp [Mach.setWarp])
    (by rw [Mach.warp_setWarp_self, hcl]; rfl) (by rw [Mach.warp_setWarp_self, hcl])
  rw [Mach.warp_setWarp_self, hcl] at hv hs hp hf
  dsimp only at hv hs hp hf
  have hgv : ∀ r n, n < 32 → t.me.getV r n = if r = f.d.toNat ∧ n ∈ lanesOf (active s.me f.g.toNat) then
      (fn s.me.mode (laneVals s.me n f.a f.b f.c)).1 else s.me.getV r n := by
    intro r n hn
    have := writeLanes_get (m.warp s.cur) f.d.toNat (lanesOf (active s.me f.g.toNat))
      (fun n => (fn s.me.mode (laneVals s.me n f.a f.b f.c)).1) (fun x hx => (mem_lanesOf.1 hx).1) r n hn
    unfold Warp.getV at this ⊢
    rw [hv, this]
    unfold State.me
    rw [hw]
  refine ⟨t, ht, hw1 ▸ ho, ?_, ?_, ?_, ?_, ?_⟩
  · intro n hn hb
    rw [hgv _ _ hn, if_pos ⟨rfl, mem_lanesOf.2 ⟨hn, hb⟩⟩]
  · intro r n hn hnot
    rw [hgv _ _ hn, if_neg]
    rintro ⟨h1, h2⟩
    exact hnot ⟨by simp [h1], (mem_lanesOf.1 h2).2⟩
  · intro n _
    rw [hs, hw]; rfl
  · rw [hp, hw]; rfl
  · rw [hf, hw]; rfl

theorem Src.warp_eq (a : Src) (w w' : Warp) (ht : w'.trap = w.trap) (hs : w'.s = w.s) : a.warp w' = a.warp w := by
  cases a <;> simp [Src.warp, Warp.getS, Warp.sKey, ht, hs]

theorem uniform_eq (w w' : Warp) (n : Nat) (hp : w'.p = w.p) (hl : w'.live = w.live) : uniform w' n = uniform w n := by
  simp [uniform, Warp.getP, hp, hl]

theorem compute_warp {q : Req} {f : PipeForm} {i : Instr} (hq : q = computeReq i f.sc f.d.toNat f.a f.b f.c) {s : State}
    {m : Mach} {ms : List Nat} (h0 : f.sc = 1) (hu : uniform s.me f.g.toNat = some true) (hg : Goes q s m ms)
    (fn : RMode → Vals → Word × Word) :
    ∃ t, issue q (computeBody q f.sc f.g.toNat f.d.toNat f.a f.b f.c fn) s = .next t ∧ OnlyWarp s t 1 ∧
        t.me.getS f.d.toNat = (fn s.me.mode (warpVals s.me f.a f.b f.c)).1 ∧
        sameScalars s.me t.me [s.me.sKey f.d.toNat] ∧ t.me.v = s.me.v ∧ t.me.p = s.me.p ∧
        t.me.fflags = s.me.fflags ||| (fn s.me.mode (warpVals s.me f.a f.b f.c)).2 := by
  have hsc : q.sc = 1 := by rw [hq]; simp [computeReq, h0]
  have hw1 : q.words = 1 := by rw [hq]; simp [computeReq, h0]
  obtain ⟨rfl, ha, hh⟩ := goes_values (by omega) hg
  have hw := ha.warp
  have hval : warpVals (m.warp s.cur) f.a f.b f.c = warpVals s.me f.a f.b f.c := by
    unfold warpVals State.me
    rw [Src.warp_eq f.a (s.m.warp s.cur) (m.warp s.cur), Src.warp_eq f.b (s.m.warp s.cur) (m.warp s.cur),
      Src.warp_eq f.c (s.m.warp s.cur) (m.warp s.cur)] <;> rw [hw]
  have hmode : (m.warp s.cur).mode = s.me.mode := by unfold State.me Warp.mode; rw [hw]
  have hun : uniform (m.warp s.cur) f.g.toNat = some true := by
    rw [← hu]; exact uniform_eq _ _ _ (by rw [hw]; rfl) (by rw [hw]; rfl)
  obtain ⟨t, ht, ho, hv, hs, hp, hf⟩ := issue_warp (q := q) (s := s) (m := m) (ms := [s.cur])
    (body := computeBody q f.sc f.g.toNat f.d.toNat f.a f.b f.c fn)
    (m2 := (countPipe m s.cur 1 0).setWarp s.cur (computeWarp (m.warp s.cur) f.d.toNat f.a f.b f.c fn)) (by omega) hg
    (by simp [computeBody, h0, hun]) (by simp) (by
      intro j hj
      simp only [Mach.setWarp]
      rw [Map.find?_ins_ne _ _ hj, countPipe_warps]) (by simp [Mach.setWarp])
    (by rw [Mach.warp_setWarp_self]; rfl) (by rw [Mach.warp_setWarp_self]; rfl)
  rw [Mach.warp_setWarp_self] at hv hs hp hf
  have hk : t.me.sKey f.d.toNat = s.me.sKey f.d.toNat := by
    have : t.me.trap = s.me.trap := (congrArg Warp.trap ho.warp : t.me.rest.trap = s.me.rest.trap)
    simp [Warp.sKey, this]
  have hs2 : t.me.s = Map.set s.me.s (s.me.sKey f.d.toNat) (fn s.me.mode (warpVals s.me f.a f.b f.c)).1 := by
    rw [hs]
    unfold computeWarp Warp.orFlags Warp.setS
    rw [hmode, hval]
    unfold State.me Warp.sKey
    rw [hw]
  refine ⟨t, ht, hw1 ▸ ho, ?_, ?_, ?_, ?_, ?_⟩
  · unfold Warp.getS
    rw [hs2, hk, Map.get_set_self]
  · intro n hn
    rw [hs2, Map.get_set_ne _ _ (by simpa using hn)]
  · rw [hv]; unfold computeWarp Warp.orFlags Warp.setS; rw [hw]; rfl
  · rw [hp]; unfold computeWarp Warp.orFlags Warp.setS; rw [hw]; rfl
  · rw [hf]
    unfold computeWarp Warp.orFlags
    dsimp only
    rw [hmode, hval]
    unfold Warp.setS
    rw [hw]; rfl

theorem orLanes_zero (ls : List Nat) : orLanes ls (fun _ => 0) = 0 := by
  unfold orLanes
  induction ls with
  | nil => rfl
  | cons a l ih => rw [List.foldl_cons]; simpa using ih

def mag (n : Nat) : Int := (if n < 2^23 then n else if n < 255 * 2^23 then (2^23 + n % 2^23) * 2^(n / 2^23 - 1) else 2^300 : Nat)

theorem mag_mono {n k : Nat} (hk : k ≤ 255 * 2^23) (h : n < k) : mag n < mag k := by
  have step : ∀ j, j < 255 * 2^23 → mag j < mag (j+1) := by
    intro j hj
    unfold mag
    by_cases h1 : j < 2^23
    · rw [if_pos h1]
      by_cases h2 : j + 1 < 2^23
      · rw [if_pos h2]; omega
      · have : j + 1 = 2^23 := by omega
        rw [this]; norm_num; omega
    · rw [if_neg h1, if_pos hj, if_neg (by omega)]
      by_cases h2 : j + 1 < 255 * 2^23
      · rw [if_pos h2]
        by_cases h3 : (j+1) % 2^23 = 0
        · have e1 : j % 2^23 = 2^23 - 1 := by omega
          have e2 : (j+1) / 2^23 - 1 = (j / 2^23 - 1) + 1 := by omega
          have e3 : 2 ^ (j / 2^23 - 1 + 1) = 2 ^ (j / 2^23 - 1) * 2 := pow_succ _ _
          rw [e1, e2, h3, e3]
          have : 0 < 2 ^ (j / 2^23 - 1) := Nat.pos_of_ne_zero (by positivity)
          refine Int.ofNat_lt.mpr ?_
          generalize 2 ^ (j / 2^23 - 1) = P at this ⊢
          omega
        · have e1 : (j+1) % 2^23 = j % 2^23 + 1 := by omega
          have e2 : (j+1) / 2^23 = j / 2^23 := by omega
          rw [e1, e2]
          have : 0 < 2 ^ (j / 2^23 - 1) := Nat.pos_of_ne_zero (by positivity)
          exact_mod_cast Nat.mul_lt_mul_of_pos_right (by omega) this
      · rw [if_neg h2]
        have e : j = 255 * 2^23 - 1 := by omega
        subst e
        decide +kernel
  induction k with
  | zero => omega
  | succ k ih =>
    rcases Nat.lt_succ_iff_lt_or_eq.mp h with h | h
    · exact (ih (by omega) h).trans (step k (by omega))
    · subst h; exact step n (by omega)

theorem mag_pos {n : Nat} (hn : n ≤ 255*2^23) (h : 0 < n) : 0 < mag n := by simpa [mag] using mag_mono hn h

theorem mag_zero : mag 0 = 0 := by decide +kernel

theorem asFp_eq (a : Word) : asFp a = (if 255 * 2^23 < a.toNat % 2^31 then .nan else if a.toNat % 2^31 = 255*2^23 then .inf (a.getLsbD 31) else
    if a.toNat % 2^31 < 2^23 then .fin (a.getLsbD 31) (a.toNat % 2^31) (-149) else .fin (a.getLsbD 31) (2^23 + a.toNat % 2^23) (-149 + ((a.toNat % 2^31 / 2^23 : Nat) - 1 : Int))) := by
  have hs : decide (a.toNat / fp32.signBit % 2 = 1) = a.getLsbD 31 := by
    rw [BitVec.getLsbD, Nat.testBit_eq_decide_div_mod_eq]; rfl
  unfold asFp Fmt.decode
  dsimp only
  rw [hs]
  have h1 : fp32.frac = 23 := rfl
  have h2 : fp32.exp = 8 := rfl
  have h3 : fp32.top = 255 := by decide
  have h4 : fp32.ieee = true := rfl
  have h5 : fp32.quantum = -149 := by decide
  rw [h1, h2, h3, h4, h5]
  have ha := a.isLt
  simp only [Bool.true_and, beq_iff_eq, Bool.not_true, Bool.false_and]
  have e : a.toNat / 2^23 % 2^8 = a.toNat % 2^31 / 2^23 := by omega
  have f : a.toNat % 2^23 = a.toNat % 2^31 % 2^23 := by omega
  rw [e, f]
  generalize a.getLsbD 31 = sg
  have hb : a.toNat % 2^31 < 2^31 := Nat.mod_lt _ (by decide)
  generalize a.toNat % 2^31 = n at hb ⊢
  by_cases c1 : n / 2^23 = 255
  · rw [if_pos c1]
    by_cases c2 : n % 2^23 = 0
    · rw [if_pos c2, if_neg (by omega), if_pos (by omega)]
    · rw [if_neg c2, if_pos (by omega)]
  · rw [if_neg c1]
    simp only [Bool.false_eq_true, if_false]
    by_cases c3 : n / 2^23 = 0
    · have : n % 2^23 = n := by omega
      rw [if_pos c3, if_neg (by omega), if_neg (by omega), if_pos (by omega), this]
    · rw [if_neg c3, if_neg (by omega), if_neg (by omega), if_neg (by omega)]

theorem isNan_iff (a : Word) : IsNan a ↔ 255 * 2^23 < a.toNat % 2^31 := by
  unfold IsNan; rw [asFp_eq]; split
  · rename_i h; exact ⟨fun _ => h, fun _ => rfl⟩
  · rename_i h; refine ⟨fun e => ?_, fun e => absurd e h⟩; split at e <;> [cases e; (split at e <;> cases e)]

theorem isNan_b (a : Word) : (asFp a).isNan = true ↔ IsNan a := by
  unfold IsNan FVal.isNan; cases asFp a <;> simp

theorem weight_eq {a : Word} (h : ¬ IsNan a) : weight a = (if a.getLsbD 31 then -1 else 1) * mag (a.toNat % 2^31) := by
  rw [isNan_iff] at h
  unfold weight
  rw [asFp_eq, if_neg h]
  unfold mag
  have f : a.toNat % 2^23 = a.toNat % 2^31 % 2^23 := by omega
  rw [f]
  generalize a.getLsbD 31 = sg
  generalize a.toNat % 2^31 = n at h ⊢
  by_cases c1 : n = 255*2^23
  · rw [if_pos c1]; subst c1; cases sg <;> norm_num
  · rw [if_neg c1]
    by_cases c2 : n < 2^23
    · rw [if_pos c2, if_pos c2]; simp
    · rw [if_neg c2, if_neg c2, if_pos (show n < 255 * 2^23 by omega)]
      have : (-149 + ((n / 2^23 : Nat) - 1 : Int) + 149).toNat = n / 2^23 - 1 := by generalize n / 2^23 = d; omega
      simp only [this]

theorem key_lt {a b : Word} (ha : ¬ IsNan a) (hb : ¬ IsNan b) : realKey a < realKey b ↔ weight a < weight b := by
  rw [weight_eq ha, weight_eq hb]
  rw [isNan_iff] at ha hb
  unfold realKey signedInt
  have pa : 0 ≤ mag (a.toNat % 2^31) := by unfold mag; omega
  have pb : 0 ≤ mag (b.toNat % 2^31) := by unfold mag; omega
  generalize a.getLsbD 31 = sa
  generalize b.getLsbD 31 = sb
  generalize a.toNat % 2^31 = x at *
  generalize b.toNat % 2^31 = y at *
  have h1 : x < y ↔ mag x < mag y := by
    refine ⟨fun h => mag_mono (by omega) h, fun h => ?_⟩
    by_contra hc
    rcases Nat.lt_or_eq_of_le (Nat.le_of_not_lt hc) with hc | hc
    · have := mag_mono (by omega) hc; omega
    · subst hc; omega
  have h2 : y < x ↔ mag y < mag x := by
    refine ⟨fun h => mag_mono (by omega) h, fun h => ?_⟩
    by_contra hc
    rcases Nat.lt_or_eq_of_le (Nat.le_of_not_lt hc) with hc | hc
    · have := mag_mono (by omega) hc; omega
    · subst hc; omega
  have zx : 0 < x ↔ 0 < mag x := ⟨fun h => mag_pos (by omega) h, fun h => by
    rcases Nat.eq_zero_or_pos x with e | e
    · subst e; rw [mag_zero] at h; omega
    · exact e⟩
  have zy : 0 < y ↔ 0 < mag y := ⟨fun h => mag_pos (by omega) h, fun h => by
    rcases Nat.eq_zero_or_pos y with e | e
    · subst e; rw [mag_zero] at h; omega
    · exact e⟩
  cases sa <;> cases sb <;> simp <;> omega

theorem floatCond_iff (cnd : BitVec 3) (a b : Word) : floatCond cnd a b = true ↔ floatTest cnd a b := by
  unfold floatCond floatTest
  dsimp only
  by_cases ha : IsNan a
  · have ha' := (isNan_b a).mpr ha
    rw [ha']
    have := cnd.isLt
    generalize cnd.toNat = n at *
    interval_cases n <;> simp [ha]
  · have ha' : (asFp a).isNan = false := by rw [← Bool.not_eq_true, isNan_b]; exact ha
    by_cases hb : IsNan b
    · have hb' := (isNan_b b).mpr hb
      rw [hb']
      have := cnd.isLt
      generalize cnd.toNat = n at *
      interval_cases n <;> simp [hb]
    · have hb' : (asFp b).isNan = false := by rw [← Bool.not_eq_true, isNan_b]; exact hb
      rw [ha', hb']
      have k1 := key_lt ha hb
      have k2 := key_lt hb ha
      have := cnd.isLt
      generalize cnd.toNat = n at *
      interval_cases n <;> simp [ha, hb] <;> omega

theorem getLsbD_orLanes (ls : List Nat) (g : Nat → Word) (b : Nat) :
    (orLanes ls g).getLsbD b = true ↔ ∃ n ∈ ls, (g n).getLsbD b = true := by
  have key : ∀ acc : Word, (ls.foldl (fun a i => a ||| g i) acc).getLsbD b = true ↔
      acc.getLsbD b = true ∨ ∃ n ∈ ls, (g n).getLsbD b = true := by
    induction ls with
    | nil => simp
    | cons x l ih => intro acc; rw [List.foldl_cons, ih]; simp [or_assoc]
  unfold orLanes; rw [key]; simp

/-- An instruction whose only effect is on registers of its warp, given the effect on the warp after its checks. -/
theorem issue_on {q : Req} {s : State} {m : Mach} {ms : List Nat} (hq : q.sc < 2) (hg : Goes q s m ms)
    {body : Mach → List Nat → Except Stop Mach} {mc : Mach} {w : Warp} (hb : body m [s.cur] = .ok (mc.setWarp s.cur w))
    (hr : mc.rest = m.rest) (hw : mc.warps = m.warps) (hrest : w.rest = (m.warp s.cur).rest)
    (hp : w.paths = (m.warp s.cur).paths) :
    ∃ t, issue q body s = .next t ∧ OnlyWarp s t q.words ∧ t.me.v = w.v ∧ t.me.s = w.s ∧ t.me.p = w.p ∧
      t.me.fflags = w.fflags := by
  obtain ⟨rfl, ha, hh⟩ := goes_values hq hg
  obtain ⟨t, ht, ho, hv, hs, hp, hf⟩ := issue_warp (q := q) (s := s) (m := m) (ms := [s.cur]) hq hg hb
    (by simpa using hr) (by
      intro j hj
      simp only [Mach.setWarp]
      rw [Map.find?_ins_ne _ _ hj, hw]) (by simp [Mach.setWarp])
    (by rw [Mach.warp_setWarp_self]; exact hrest) (by rw [Mach.warp_setWarp_self]; exact hp)
  rw [Mach.warp_setWarp_self] at hv hs hp hf
  exact ⟨t, ht, ho, hv, hs, hp, hf⟩

theorem issue_same {q : Req} {s : State} {m : Mach} {ms : List Nat} (hq : q.sc < 2) (hg : Goes q s m ms)
    {body : Mach → List Nat → Except Stop Mach} {mc : Mach} (hb : body m [s.cur] = .ok mc)
    (hr : mc.rest = m.rest) (hw : mc.warps = m.warps) :
    ∃ t, issue q body s = .next t ∧ OnlyWarp s t q.words ∧ t.me.v = s.me.v ∧ t.me.s = s.me.s ∧ t.me.p = s.me.p ∧
      t.me.fflags = s.me.fflags := by
  obtain ⟨rfl, ha, hh⟩ := goes_values hq hg
  have e : mc.warp s.cur = m.warp s.cur := by simp [Mach.warp, hw]
  obtain ⟨t, ht, ho, hv, hs, hp, hf⟩ := issue_warp (q := q) (s := s) (m := m) (ms := [s.cur]) hq hg hb hr (by
      intro j hj; rw [hw]) (by rw [hw]; exact hh) (by rw [e]) (by rw [e])
  rw [e] at hv hs hp hf
  have hw := ha.warp
  refine ⟨t, ht, ho, ?_, ?_, ?_, ?_⟩
  · rw [hv, hw]; rfl
  · rw [hs, hw]; rfl
  · rw [hp, hw]; rfl
  · rw [hf, hw]; rfl

theorem issue_error {q : Req} {s : State} {m : Mach} {ms : List Nat} (hq : q.sc < 2) (hg : Goes q s m ms)
    {body : Mach → List Nat → Except Stop Mach} {f : FaultInfo} (hb : body m [s.cur] = .error (.trap f)) :
    issue q body s = .next (s.trapped m f) := by
  obtain ⟨rfl, -⟩ := admission_low hq hg.admitted
  unfold issue
  rw [if_pos hg.may, goes_error hg _ hb]
  simp only [widen, show ¬ 2 ≤ q.sc by omega, if_false]
  rfl

/-- What a guard of warp scope does with an instruction. -/
structure GuardedBy (q : Req) (g : BitVec 3) (i : Instr) (body : Mach → List Nat → Except Stop Mach) : Prop where
  sc : q.sc = 1
  words : q.words = 1
  run : ∀ s, exec i s = issue q body s
  off : ∀ (m : Mach) k, uniform (m.warp k) g.toNat = some false →
    ∃ mc, body m [k] = .ok mc ∧ mc.rest = m.rest ∧ mc.warps = m.warps
  err : ∀ (m : Mach) k, uniform (m.warp k) g.toNat = none →
    body m [k] = .error (.trap { m.fault k 1 .nonunif with tinfo := word1 i })

theorem compute_guarded {q : Req} {f : PipeForm} {i : Instr} (hq : q = computeReq i f.sc f.d.toNat f.a f.b f.c)
    (h1 : f.sc = 1) {fn} (hx : ∀ s, exec i s = issue q (computeBody q f.sc f.g.toNat f.d.toNat f.a f.b f.c fn) s) :
    GuardedBy q f.g i (computeBody q f.sc f.g.toNat f.d.toNat f.a f.b f.c fn) where
  sc := by rw [hq]; simp [computeReq, h1]
  words := by rw [hq]; simp [computeReq, h1]
  run := hx
  off := by
    intro m k hu
    exact ⟨countPipe m k 1 0, by simp [computeBody, h1, hu], by simp, by simp⟩
  err := by
    intro m k hu
    have e1 : q.sc = 1 := by rw [hq]; simp [computeReq, h1]
    have e2 : q.instr = i := by rw [hq]; simp [computeReq, h1]
    simp [computeBody, h1, hu, nonuniform, e1, e2]

theorem compare_guarded {q : Req} {f : CmpForm} {i : Instr} (hq : q = compareReq i f.sc f.a f.b)
    (h1 : f.sc = 1) {u} (hx : ∀ s, exec i s = issue q (compareBody q f.sc f.g.toNat f.pd.toNat f.mode f.a f.b u) s) :
    GuardedBy q f.g i (compareBody q f.sc f.g.toNat f.pd.toNat f.mode f.a f.b u) where
  sc := by rw [hq]; simp [compareReq, h1]
  words := by rw [hq]; simp [compareReq, h1]
  run := hx
  off := by
    intro m k hu
    exact ⟨countPipe m k 1 0, by simp [compareBody, h1, hu], by simp, by simp⟩
  err := by
    intro m k hu
    have e1 : q.sc = 1 := by rw [hq]; simp [compareReq, h1]
    have e2 : q.instr = i := by rw [hq]; simp [compareReq, h1]
    simp [compareBody, h1, hu, nonuniform, e1, e2]

theorem cmp_exec {i : Instr} {f : CmpForm} {u : Word → Word → Bool} {q : Req} (hf : cmpForm i = some (f, u))
    (hq : reqOf i = some q) : q = compareReq i f.sc f.a f.b ∧
      ∀ s, exec i s = issue q (compareBody q f.sc f.g.toNat f.pd.toNat f.mode f.a f.b u) s := by
  cases i <;> first
    | (cases hf; done)
    | (simp only [cmpForm, Option.some.injEq, Prod.mk.injEq] at hf; simp only [reqOf, Option.some.injEq] at hq
       obtain ⟨rfl, rfl⟩ := hf; subst hq
       exact ⟨rfl, fun _ => rfl⟩)

theorem cross_guarded {q : Req} {g : BitVec 3} {n : Nat} {fw : Warp → Warp} {i : Instr} (hsc : q.sc = 1) (hw : q.words = 1)
    (hi : q.instr = i) (hx : ∀ s, exec i s = crossForm q g n fw s) : ∃ body, GuardedBy q g i body := by
  refine ⟨_, hsc, hw, hx, ?_, ?_⟩
  · intro m k hu
    exact ⟨countXbar m k n, by simp [hu], by simp, by simp⟩
  · intro m k hu
    simp [hu, nonuniform, hsc, hi]

theorem cross_exec {i : Instr} {g : BitVec 3} {q : Req} (hg : crossGuard i = some g) (hq : reqOf i = some q) :
    q.sc = 1 ∧ q.words = 1 ∧ q.instr = i ∧ ∃ n fw, ∀ s, exec i s = crossForm q g n fw s := by
  cases i with
  | xlnBack x =>
    cases hg; cases hq
    exact ⟨rfl, rfl, rfl, _, _, fun s => show execXlnBack x s = crossForm _ _ _ _ s from rfl⟩
  | xlnFwd x =>
    cases hg; cases hq
    exact ⟨rfl, rfl, rfl, _, _, fun s => show execXlnFwd x s = crossForm _ _ _ _ s from rfl⟩
  | xlnFlip x =>
    cases hg; cases hq
    exact ⟨rfl, rfl, rfl, _, _, fun s => show execXlnFlip x s = crossForm _ _ _ _ s from rfl⟩
  | xlnFrom x =>
    cases hg; cases hq
    exact ⟨rfl, rfl, rfl, _, _, fun s => show execXlnFrom x s = crossForm _ _ _ _ s from rfl⟩
  | pgatEvery x =>
    cases hg; cases hq
    exact ⟨rfl, rfl, rfl, _, _, fun s => show execPgatEvery x s = crossForm _ _ _ _ s from rfl⟩
  | pgatSome x =>
    cases hg; cases hq
    exact ⟨rfl, rfl, rfl, _, _, fun s => show execPgatSome x s = crossForm _ _ _ _ s from rfl⟩
  | pgatMask x =>
    cases hg; cases hq
    exact ⟨rfl, rfl, rfl, _, _, fun s => show execPgatMask x s = crossForm _ _ _ _ s from rfl⟩
  | pgatLive x =>
    cases hg; cases hq
    exact ⟨rfl, rfl, rfl, _, _, fun s => show execPgatLive x s = crossForm _ _ _ _ s from rfl⟩
  | redxAdd x =>
    cases hg; cases hq
    exact ⟨rfl, rfl, rfl, _, _, fun s => show execRedxAdd x s = crossForm _ _ _ _ s from rfl⟩
  | redxSmin x =>
    cases hg; cases hq
    exact ⟨rfl, rfl, rfl, _, _, fun s => show execRedxSmin x s = crossForm _ _ _ _ s from rfl⟩
  | redxSmax x =>
    cases hg; cases hq
    exact ⟨rfl, rfl, rfl, _, _, fun s => show execRedxSmax x s = crossForm _ _ _ _ s from rfl⟩
  | redxFadd x =>
    cases hg; cases hq
    exact ⟨rfl, rfl, rfl, _, _, fun s => show execRedxFadd x s = crossForm _ _ _ _ s from rfl⟩
  | scanAdd x =>
    cases hg; cases hq
    exact ⟨rfl, rfl, rfl, _, _, fun s => show execScanAdd x s = crossForm _ _ _ _ s from rfl⟩
  | scanXadd x =>
    cases hg; cases hq
    exact ⟨rfl, rfl, rfl, _, _, fun s => show execScanXadd x s = crossForm _ _ _ _ s from rfl⟩
  | scanMax x =>
    cases hg; cases hq
    exact ⟨rfl, rfl, rfl, _, _, fun s => show execScanMax x s = crossForm _ _ _ _ s from rfl⟩
  | scanMin x =>
    cases hg; cases hq
    exact ⟨rfl, rfl, rfl, _, _, fun s => show execScanMin x s = crossForm _ _ _ _ s from rfl⟩
  | _ => cases hg

theorem guarded_exec {i : Instr} {g : BitVec 3} {q : Req} (hg : warpGuard i = some g) (hq : reqOf i = some q) :
    ∃ body, GuardedBy q g i body := by
  unfold warpGuard at hg
  split at hg
  · rename_i g' hc
    cases hg
    obtain ⟨h1, h2, h3, n, fw, h4⟩ := cross_exec hc hq
    exact cross_guarded h1 h2 h3 h4
  · rename_i f hc hf
    split at hg
    · rename_i h1
      cases hg
      obtain ⟨he, fn, hx, -⟩ := pipe_exec hf hq
      exact ⟨_, compute_guarded he h1 hx⟩
    · cases hg
  · rename_i f u hc hp hf
    split at hg
    · rename_i h1
      cases hg
      obtain ⟨he, hx⟩ := cmp_exec hf hq
      exact ⟨_, compare_guarded he h1 hx⟩
    · cases hg
  · cases hg

theorem intCond_iff (c : BitVec 3) (a b : Word) : intCond c a b = true ↔ intTest c a b := by
  unfold intCond intTest
  generalize c.toNat = n
  match n with
  | 0 => simp [BitVec.toNat_inj]
  | 1 => simp [BitVec.toNat_inj]
  | 2 => simp
  | 3 => simp
  | 4 => simp
  | 5 => simp
  | 6 => simp
  | n + 7 => simp

theorem cmpTest_iff {i : Instr} {f : CmpForm} {u : Word → Word → Bool} (hf : cmpForm i = some (f, u)) (a b : Word)
    (hb : ∀ x, f.b = .imm x → b = x) : u a b = true ↔ cmpTest i a b := by
  cases i <;> first
    | (cases hf; done)
    | (simp only [cmpForm, Option.some.injEq, Prod.mk.injEq] at hf
       obtain ⟨rfl, rfl⟩ := hf
       first
         | exact floatCond_iff _ _ _
         | exact intCond_iff _ _ _
         | (have := hb _ rfl; subst this; exact intCond_iff _ _ _))

theorem getLsbD_combine (mode : Nat) (old new lanes : Word) (n : Nat) (hn : n < 32) :
    (combine mode old new lanes).getLsbD n = true ↔
      if lanes.getLsbD n = true then combined mode (old.getLsbD n) (new.getLsbD n = true) else old.getLsbD n = true := by
  have hb : ∀ r : Word, ((old &&& ~~~ lanes) ||| (r &&& lanes)).getLsbD n =
      ((old.getLsbD n && !lanes.getLsbD n) || (r.getLsbD n && lanes.getLsbD n)) := by
    intro r
    rw [BitVec.getLsbD_or, BitVec.getLsbD_and, BitVec.getLsbD_and, BitVec.getLsbD_not]
    simp only [hn, decide_true, Bool.true_and]
  unfold combine combined
  dsimp only
  rw [hb]
  match mode with
  | 0 => cases lanes.getLsbD n <;> simp only [Bool.not_true, Bool.not_false, Bool.and_true, Bool.and_false, Bool.or_false,
      Bool.false_or, if_true, Bool.false_eq_true, if_false]
  | 1 =>
    simp only [BitVec.getLsbD_and]
    cases lanes.getLsbD n <;> simp only [Bool.not_true, Bool.not_false, Bool.and_true, Bool.and_false, Bool.or_false,
      Bool.false_or, if_true, Bool.false_eq_true, if_false, Bool.and_eq_true]
  | k + 2 =>
    simp only [BitVec.getLsbD_or]
    cases lanes.getLsbD n <;> simp only [Bool.not_true, Bool.not_false, Bool.and_true, Bool.and_false, Bool.or_false,
      Bool.false_or, if_true, Bool.false_eq_true, if_false, Bool.or_eq_true]

theorem getP_eq {w w' : Warp} (h : w'.p = w.p) (n : Nat) : w'.getP n = w.getP n := by simp only [Warp.getP, h]

theorem getV_eq {w w' : Warp} (h : w'.v = w.v) (r n : Nat) : w'.getV r n = w.getV r n := by simp only [Warp.getV, h]

theorem setP_warp (w : Warp) (n : Nat) (x : Word) : w.setP n x = { w with p := (w.setP n x).p } := by
  unfold Warp.setP; split <;> rfl

theorem laneForm_exec {i : Instr} {g : BitVec 3} {d : BitVec 6} {r : Warp → Nat → Bool} {q : Req}
    (h : predResult i = some (g, d, r)) (hq : reqOf i = some q) : q.sc = 0 ∧ q.words = 1 ∧ ∃ f : Warp → Word → Word,
      (∀ s, exec i s = laneForm q g (fun w act => w.setP d.toNat (combine 0 (w.getP d.toNat) (f w act) act)) s) ∧
      (∀ w act n, n < 32 → act.getLsbD n = true → (f w act).getLsbD n = r w n) ∧
      (∀ w w' : Warp, w'.v = w.v → w'.s = w.s → w'.p = w.p → ∀ n, r w' n = r w n) := by
  cases i <;> first
    | (cases h; done)
    | (simp only [predResult, Option.some.injEq, Prod.mk.injEq] at h
       simp only [reqOf, Option.some.injEq] at hq
       obtain ⟨rfl, rfl, rfl⟩ := h
       subst hq
       refine ⟨rfl, rfl, _, fun _ => rfl, ?_, ?_⟩
       · intro w act n hn hb
         first
           | (unfold maskBy; rw [getLsbD_maskOf, Bool.eq_iff_iff]; simp [mem_lanesOf, hn, hb])
           | simp [hn]
       · intro w w' h1 h2 h3 n
         have e : w'.src = w.src := by funext f i; simp only [Warp.src, Warp.getV, h1, h2]
         have e' : w'.getP = w.getP := by funext f; simp only [Warp.getP, h3]
         simp only [e, e'])

theorem admitted_src {q : Req} {k : Nat} {m m' : Mach} (h : Admitted q k m m') : (m'.warp k).src = (m.warp k).src :=
  h.keeps Warp.src fun _ _ _ => rfl

theorem admitted_live {q : Req} {k : Nat} {m m' : Mach} (h : Admitted q k m m') : (m'.warp k).live = (m.warp k).live :=
  h.keeps Warp.live fun _ _ _ => rfl

theorem admitted_getP {q : Req} {k : Nat} {m m' : Mach} (h : Admitted q k m m') : (m'.warp k).getP = (m.warp k).getP :=
  h.keeps Warp.getP fun _ _ _ => rfl

/-- A lane form that writes lanes of one vector register. -/
theorem cross_vector {q : Req} {g : BitVec 3} {n : Nat} {d : Nat} {val : Warp → Nat → Word} (hsc : q.sc = 1) {s : State}
    {m : Mach} {ms : List Nat} (hu : uniform s.me g.toNat = some true) (hg : Goes q s m ms)
    (hval : val (m.warp s.cur) = val s.me) (hw1 : q.words = 1) :
    ∃ t, crossForm q g n (fun w => writeLanes w d (lanesOf w.live) (val w)) s = .next t ∧ OnlyWarp s t 1 ∧
      (∀ n, n < 32 → s.me.live.getLsbD n = true → t.me.getV d n = val s.me n) ∧
      sameVectors s.me t.me [d] s.me.live ∧ t.me.s = s.me.s ∧ t.me.p = s.me.p ∧ t.me.fflags = s.me.fflags := by
  obtain ⟨rfl, ha, hh⟩ := goes_values (by omega) hg
  have hun : uniform (m.warp s.cur) g.toNat = some true := by
    rw [← hu]; exact uniform_eq _ _ _ (ha.keeps Warp.p fun _ _ _ => rfl) (ha.keeps Warp.live fun _ _ _ => rfl)
  obtain ⟨t, ht, ho, hv, hs, hp, hf⟩ := issue_on (q := q)
    (w := writeLanes (m.warp s.cur) d (lanesOf (m.warp s.cur).live) (val (m.warp s.cur)))
    (mc := countXbar m s.cur n) (by omega) hg (body := fun m ms =>
      let k := ms.headD 0
      let w := m.warp k
      match uniform w g.toNat with
      | none => .error (nonuniform q m k)
      | some false => .ok (countXbar m k n)
      | some true => .ok ((countXbar m k n).setWarp k (writeLanes w d (lanesOf w.live) (val w))))
    (by simp [hun]) (by simp) (by simp) (by rw [writeLanes_rest]; rfl) (by rw [writeLanes_rest])
  have hlive : (m.warp s.cur).live = s.me.live := (admitted_live ha)
  have hgv : ∀ r n, n < 32 → t.me.getV r n = if r = d ∧ n ∈ lanesOf s.me.live then val s.me n else s.me.getV r n := by
    intro r n hn
    rw [getV_eq hv, writeLanes_get _ _ _ _ (fun y hy => (mem_lanesOf.1 hy).1) r n hn, hval, hlive]
    rw [getV_eq (ha.keeps Warp.v fun _ _ _ => rfl)]; rfl
  refine ⟨t, ht, hw1 ▸ ho, ?_, ?_, ?_, ?_, ?_⟩
  · intro n hn hb
    rw [hgv _ _ hn, if_pos ⟨rfl, mem_lanesOf.2 ⟨hn, hb⟩⟩]
  · intro r n hn hnot
    rw [hgv _ _ hn, if_neg]
    rintro ⟨h1, h2⟩
    exact hnot ⟨by simp [h1], (mem_lanesOf.1 h2).2⟩
  · rw [hs, writeLanes_rest]; exact ha.keeps Warp.s fun _ _ _ => rfl
  · rw [hp, writeLanes_rest]; exact ha.keeps Warp.p fun _ _ _ => rfl
  · rw [hf, writeLanes_rest]; exact ha.keeps Warp.fflags fun _ _ _ => rfl

/-- A lane form that writes one scalar register, and may raise flags. -/
theorem cross_scalar {q : Req} {g : BitVec 3} {n : Nat} {d : Nat} {val fl : Warp → Word} (hsc : q.sc = 1) {s : State}
    {m : Mach} {ms : List Nat} (hu : uniform s.me g.toNat = some true) (hg : Goes q s m ms)
    (hval : val (m.warp s.cur) = val s.me) (hfl : fl (m.warp s.cur) = fl s.me) (hw1 : q.words = 1) :
    ∃ t, crossForm q g n (fun w => (w.setS d (val w)).orFlags (fl w)) s = .next t ∧ OnlyWarp s t 1 ∧
      t.me.getS d = val s.me ∧ sameScalars s.me t.me [s.me.sKey d] ∧ t.me.v = s.me.v ∧ t.me.p = s.me.p ∧
      t.me.fflags = s.me.fflags ||| fl s.me := by
  obtain ⟨rfl, ha, hh⟩ := goes_values (by omega) hg
  have hun : uniform (m.warp s.cur) g.toNat = some true := by
    rw [← hu]; exact uniform_eq _ _ _ (ha.keeps Warp.p fun _ _ _ => rfl) (ha.keeps Warp.live fun _ _ _ => rfl)
  obtain ⟨t, ht, ho, hv, hs, hp, hf⟩ := issue_on (q := q)
    (w := ((m.warp s.cur).setS d (val (m.warp s.cur))).orFlags (fl (m.warp s.cur)))
    (mc := countXbar m s.cur n) (by omega) hg (body := fun m ms =>
      let k := ms.headD 0
      let w := m.warp k
      match uniform w g.toNat with
      | none => .error (nonuniform q m k)
      | some false => .ok (countXbar m k n)
      | some true => .ok ((countXbar m k n).setWarp k ((w.setS d (val w)).orFlags (fl w))))
    (by simp [hun]) (by simp) (by simp) rfl rfl
  have hk : t.me.sKey d = s.me.sKey d := by
    have : t.me.trap = s.me.trap := (congrArg Warp.trap ho.warp : t.me.rest.trap = s.me.rest.trap)
    simp [Warp.sKey, this]
  have hs2 : t.me.s = Map.set s.me.s (s.me.sKey d) (val s.me) := by
    rw [hs, hval]
    have e1 : (m.warp s.cur).s = s.me.s := ha.keeps Warp.s fun _ _ _ => rfl
    have e2 : (m.warp s.cur).sKey = s.me.sKey := ha.keeps Warp.sKey fun _ _ _ => rfl
    simp only [Warp.orFlags, Warp.setS, e1, e2]
  refine ⟨t, ht, hw1 ▸ ho, ?_, ?_, ?_, ?_, ?_⟩
  · unfold Warp.getS
    rw [hs2, hk, Map.get_set_self]
  · intro n hn
    rw [hs2, Map.get_set_ne _ _ (by simpa using hn)]
  · rw [hv]; exact ha.keeps Warp.v fun _ _ _ => rfl
  · rw [hp]; exact ha.keeps Warp.p fun _ _ _ => rfl
  · rw [hf, hfl]
    have e1 : (m.warp s.cur).fflags = s.me.fflags := ha.keeps Warp.fflags fun _ _ _ => rfl
    simp only [Warp.orFlags, Warp.setS, e1]

theorem setS_noflags (w : Warp) (d : Nat) (x : Word) : w.setS d x = (w.setS d x).orFlags 0 := by
  simp [Warp.setS, Warp.orFlags]

theorem xln_eq (form d a b : Nat) (w : Warp) : xln form d a b w = writeLanes w d (lanesOf w.live) (fun i =>
    let j := xlnSource form i (w.src b i)
    if j.2 then w.src a j.1 else w.src a i) := rfl

theorem seg_pow (k : Nat) (hk : k ≤ 5) : 32 / 2 ^ k = 2 ^ (5 - k) := by
  interval_cases k <;> rfl

theorem xor_seg (i c k : Nat) : i - i % 2 ^ k ≤ i ^^^ (c % 2 ^ k) ∧ i ^^^ (c % 2 ^ k) ≤ i - i % 2 ^ k + 2 ^ k - 1 := by
  have h : i ^^^ (c % 2 ^ k) = 2 ^ k * (i / 2 ^ k) + ((i % 2 ^ k) ^^^ (c % 2 ^ k)) := by
    apply Nat.eq_of_testBit_eq
    intro j
    rw [Nat.testBit_two_pow_mul_add _ (Nat.xor_lt_two_pow (Nat.mod_lt _ (by positivity)) (Nat.mod_lt _ (by positivity)))]
    rw [Nat.testBit_xor, Nat.testBit_xor, Nat.testBit_mod_two_pow, Nat.testBit_mod_two_pow, Nat.testBit_div_two_pow]
    by_cases hj : j < k
    · simp [hj]
    · simp [hj, show j - k + k = j by omega]
  have h2 : (i % 2 ^ k) ^^^ (c % 2 ^ k) < 2 ^ k := Nat.xor_lt_two_pow (Nat.mod_lt _ (by positivity)) (Nat.mod_lt _ (by positivity))
  have h3 := Nat.div_add_mod i (2 ^ k)
  omega

theorem xlnSource_eq (form : Nat) (w : Warp) (a b i : Nat) :
    (let j := xlnSource form i (w.src b i)
     if j.2 then w.src a j.1 else w.src a i) = xlnValue form w a b i := by
  unfold xlnSource xlnValue
  have hc : bits (w.src b i) 4 0 = (w.src b i).toNat % 32 := by simp [bits]
  have hs : bits (w.src b i) 10 8 = (w.src b i).toNat / 2 ^ 8 % 8 := by simp [bits]
  rw [hc, hs]
  generalize (w.src b i).toNat % 32 = c
  have hk : min ((w.src b i).toNat / 2 ^ 8 % 8) 5 ≤ 5 := Nat.min_le_right _ _
  generalize min ((w.src b i).toNat / 2 ^ 8 % 8) 5 = k at hk
  rw [seg_pow k hk]
  generalize 5 - k = e
  have hpos : 0 < 2 ^ e := by positivity
  have hm : i % 2 ^ e < 2 ^ e := Nat.mod_lt _ hpos
  have hmi : i % 2 ^ e ≤ i := Nat.mod_le _ _
  have hcm : c % 2 ^ e < 2 ^ e := Nat.mod_lt _ hpos
  have hx := xor_seg i c e
  match form with
  | 0 =>
    show (if decide (i - i % 2 ^ e + c ≤ i) = true then w.src a (i - c) else w.src a i) =
      if ((i - i % 2 ^ e : Nat) : Int) ≤ (i : Int) - c ∧ (i : Int) - c ≤ ((i - i % 2 ^ e : Nat) : Int) + ((2 ^ e : Nat) : Int) - 1
        then w.src a ((i : Int) - c).toNat else w.src a i
    by_cases h : i - i % 2 ^ e + c ≤ i
    · rw [if_pos (by simpa using h), if_pos (by constructor <;> omega)]
      congr 1
      omega
    · rw [if_neg (by simpa using h), if_neg (by omega)]
  | 1 =>
    show (if decide (i + c ≤ i - i % 2 ^ e + 2 ^ e - 1) = true then w.src a (i + c) else w.src a i) =
      if ((i - i % 2 ^ e : Nat) : Int) ≤ (i : Int) + c ∧ (i : Int) + c ≤ ((i - i % 2 ^ e : Nat) : Int) + ((2 ^ e : Nat) : Int) - 1
        then w.src a ((i : Int) + c).toNat else w.src a i
    by_cases h : i + c ≤ i - i % 2 ^ e + 2 ^ e - 1
    · rw [if_pos (by simpa using h), if_pos (by constructor <;> omega)]
      congr 1
    · rw [if_neg (by simpa using h), if_neg (by omega)]
  | 2 =>
    show (if true = true then w.src a (i ^^^ (c % 2 ^ e)) else w.src a i) =
      if ((i - i % 2 ^ e : Nat) : Int) ≤ ((i ^^^ (c % 2 ^ e) : Nat) : Int) ∧
          ((i ^^^ (c % 2 ^ e) : Nat) : Int) ≤ ((i - i % 2 ^ e : Nat) : Int) + ((2 ^ e : Nat) : Int) - 1
        then w.src a ((i ^^^ (c % 2 ^ e) : Nat) : Int).toNat else w.src a i
    rw [if_pos rfl, if_pos (by constructor <;> omega)]
    congr 1
  | n + 3 =>
    show (if true = true then w.src a (i - i % 2 ^ e + c % 2 ^ e) else w.src a i) =
      if ((i - i % 2 ^ e : Nat) : Int) ≤ ((i - i % 2 ^ e : Nat) : Int) + ((c % 2 ^ e : Nat) : Int) ∧
          ((i - i % 2 ^ e : Nat) : Int) + ((c % 2 ^ e : Nat) : Int) ≤ ((i - i % 2 ^ e : Nat) : Int) + ((2 ^ e : Nat) : Int) - 1
        then w.src a (((i - i % 2 ^ e : Nat) : Int) + ((c % 2 ^ e : Nat) : Int)).toNat else w.src a i
    rw [if_pos rfl, if_pos (by constructor <;> omega)]
    congr 1

theorem every_eq (p l : Word) : (p &&& l = l) ↔ (lanesOf l).all (fun n => p.getLsbD n) = true := by
  rw [List.all_eq_true]
  constructor
  · intro h n hn
    have := congrArg (fun z : Word => z.getLsbD n) h
    simp only [BitVec.getLsbD_and, (mem_lanesOf.1 hn).2, Bool.and_true] at this
    exact this
  · intro h
    apply BitVec.eq_of_getLsbD_eq
    intro n hn
    rw [BitVec.getLsbD_and]
    by_cases hl : l.getLsbD n = true
    · rw [h n (mem_lanesOf.2 ⟨hn, hl⟩), hl]; rfl
    · simp only [Bool.not_eq_true] at hl; rw [hl]; simp

theorem some_eq (p l : Word) : (p &&& l = 0) ↔ ¬ (lanesOf l).any (fun n => p.getLsbD n) = true := by
  rw [List.any_eq_true]
  constructor
  · rintro h ⟨n, hn, hp⟩
    have := congrArg (fun z : Word => z.getLsbD n) h
    simp only [BitVec.getLsbD_and, (mem_lanesOf.1 hn).2, hp] at this
    simp at this
  · intro h
    apply BitVec.eq_of_getLsbD_eq
    intro n hn
    rw [BitVec.getLsbD_and]
    by_contra hc
    apply h
    have h0 : (0 : Word).getLsbD n = false := by simp
    rw [h0] at hc
    simp only [Bool.not_eq_false, Bool.and_eq_true] at hc
    exact ⟨n, mem_lanesOf.2 ⟨hn, hc.2⟩, hc.1⟩

theorem foldl_sum (l : List Nat) (x : Nat → Word) (acc : Word) :
    l.foldl (fun acc i => acc + x i) acc = BitVec.ofNat 32 (acc.toNat + (l.map (fun n => (x n).toNat)).sum) := by
  induction l generalizing acc with
  | nil => simp
  | cons a l ih =>
    rw [List.foldl_cons, ih]
    apply BitVec.eq_of_toNat_eq
    simp only [BitVec.toNat_ofNat, BitVec.toNat_add, List.map_cons, List.sum_cons]
    omega

theorem foldl_best (le : Word → Word → Prop) (hr : ∀ a, le a a) (ht : ∀ a b c, le a b → le b c → le a c)
    (hs : ∀ a b, le a b → le b a → a = b)
    (f : Word → Word → Word) (hf : ∀ a b, (f a b = a ∧ le a b) ∨ (f a b = b ∧ le b a)) (e : Word) (he : ∀ a, le a e)
    (x : Nat → Word) (l : List Nat) :
    ∀ acc, (l.foldl (fun acc i => f acc (x i)) acc = acc ∨ ∃ n ∈ l, l.foldl (fun acc i => f acc (x i)) acc = x n) ∧
      le (l.foldl (fun acc i => f acc (x i)) acc) acc ∧ ∀ n ∈ l, le (l.foldl (fun acc i => f acc (x i)) acc) (x n) := by
  induction l with
  | nil => intro acc; simp [hr]
  | cons a l ih =>
    intro acc
    rw [List.foldl_cons]
    obtain ⟨h1, h2, h3⟩ := ih (f acc (x a))
    generalize l.foldl (fun acc i => f acc (x i)) (f acc (x a)) = r at h1 h2 h3
    rcases hf acc (x a) with ⟨e1, e2⟩ | ⟨e1, e2⟩
    · rw [e1] at h1 h2
      refine ⟨?_, h2, ?_⟩
      · rcases h1 with h1 | ⟨n, hn, h1⟩
        · exact .inl h1
        · exact .inr ⟨n, List.mem_cons_of_mem _ hn, h1⟩
      · intro n hn
        rcases List.mem_cons.1 hn with rfl | hn
        · exact ht _ _ _ h2 e2
        · exact h3 n hn
    · rw [e1] at h1 h2
      refine ⟨?_, ht _ _ _ h2 e2, ?_⟩
      · rcases h1 with h1 | ⟨n, hn, h1⟩
        · exact .inr ⟨a, List.mem_cons_self, h1⟩
        · exact .inr ⟨n, List.mem_cons_of_mem _ hn, h1⟩
      · intro n hn
        rcases List.mem_cons.1 hn with rfl | hn
        · exact h2
        · exact h3 n hn

theorem best_found (le : Word → Word → Prop) (hr : ∀ a, le a a) (ht : ∀ a b c, le a b → le b c → le a c)
    (hs : ∀ a b, le a b → le b a → a = b)
    (f : Word → Word → Word) (hf : ∀ a b, (f a b = a ∧ le a b) ∨ (f a b = b ∧ le b a)) (e : Word) (he : ∀ a, le a e)
    (x : Nat → Word) (l : Word) (hl : l ≠ 0) :
    (∃ n, n < 32 ∧ l.getLsbD n = true ∧ (lanesOf l).foldl (fun acc i => f acc (x i)) e = x n) ∧
      ∀ n, n < 32 → l.getLsbD n = true → le ((lanesOf l).foldl (fun acc i => f acc (x i)) e) (x n) := by
  obtain ⟨h1, h2, h3⟩ := foldl_best le hr ht hs f hf e he x (lanesOf l) e
  have hne : ∃ n, n ∈ lanesOf l := by
    by_contra hc
    apply hl
    apply BitVec.eq_of_getLsbD_eq
    intro n hn
    by_contra hb
    apply hc
    refine ⟨n, mem_lanesOf.2 ⟨hn, ?_⟩⟩
    have h0 : (0 : Word).getLsbD n = false := by simp
    rw [h0] at hb
    simpa using hb
  refine ⟨?_, fun n hn hb => h3 n (mem_lanesOf.2 ⟨hn, hb⟩)⟩
  rcases h1 with h1 | ⟨n, hn, h1⟩
  · obtain ⟨n, hn⟩ := hne
    refine ⟨n, (mem_lanesOf.1 hn).1, (mem_lanesOf.1 hn).2, hs _ _ (h3 n hn) ?_⟩
    rw [h1]; exact he _
  · exact ⟨n, (mem_lanesOf.1 hn).1, (mem_lanesOf.1 hn).2, h1⟩

/-- Pairing adjacent entries of a list that a function lists. -/
theorem treeLevel_eq (mode : RMode) (x : Nat → Option Word) (n a : Nat) :
    (treeLevel mode ((List.range (2 * n)).map (fun i => x (a + i)))).1 =
      (List.range n).map (fun i => (treeOver mode (fun j => x (a + j)) 1 (2 * i)).1) ∧
    ∀ b, (treeLevel mode ((List.range (2 * n)).map (fun i => x (a + i)))).2.getLsbD b = true ↔
      ∃ i, i < n ∧ (treeOver mode (fun j => x (a + j)) 1 (2 * i)).2.getLsbD b = true := by
  induction n generalizing a with
  | zero => exact ⟨rfl, by intro b; simp [treeLevel]⟩
  | succ n ih =>
    have hr : (List.range (2 * (n + 1))).map (fun i => x (a + i)) =
        x a :: x (a + 1) :: (List.range (2 * n)).map (fun i => x (a + 2 + i)) := by
      rw [show 2 * (n + 1) = 2 * n + 1 + 1 by ring, List.range_succ_eq_map, List.map_cons, List.map_map,
        List.range_succ_eq_map, List.map_cons, List.map_map]
      simp only [Function.comp_def, Nat.add_zero]
      congr 2
      apply List.map_congr_left
      intro i _
      rw [show a + Nat.succ (Nat.succ i) = a + 2 + i by omega]
    rw [hr]
    obtain ⟨h1, h2⟩ := ih (a + 2)
    have hsh : ∀ i, treeOver mode (fun j => x (a + 2 + j)) 1 (2 * i) = treeOver mode (fun j => x (a + j)) 1 (2 * (i + 1)) := by
      intro i
      have e1 : a + 2 + 2 * i = a + 2 * (i + 1) := by ring
      have e2 : a + 2 + (2 * i + 2 ^ 0) = a + (2 * (i + 1) + 2 ^ 0) := by ring
      simp only [treeOver]
      rw [e1, e2]
    simp only [hsh] at h1 h2
    have h0 : treeOver mode (fun j => x (a + j)) 1 (2 * 0) =
        match x a, x (a + 1) with
        | some y, some z => (some (fpAdd mode y z).1, (fpAdd mode y z).2 ||| (0 ||| 0))
        | some y, none => (some y, 0 ||| 0)
        | none, z => (z, 0 ||| 0) := by
      simp only [treeOver, Nat.mul_zero, Nat.add_zero, Nat.zero_add, pow_zero]
      try rfl
    rw [List.range_succ_eq_map, List.map_cons, List.map_map]
    have hb : ∀ (P : Nat → Prop), (∃ i, i < n + 1 ∧ P i) ↔ P 0 ∨ ∃ i, i < n ∧ P (i + 1) := by
      intro P
      constructor
      · rintro ⟨i, hi, hp⟩
        cases i with
        | zero => exact .inl hp
        | succ i => exact .inr ⟨i, by omega, hp⟩
      · rintro (h | ⟨i, hi, hp⟩)
        · exact ⟨0, by omega, h⟩
        · exact ⟨i + 1, by omega, hp⟩
    simp only [hb, h0]
    unfold treeLevel
    cases hx : x a with
    | none =>
      refine ⟨?_, ?_⟩
      · simp only [h1]; rfl
      · intro b; rw [h2]; simp
    | some y =>
      cases hz : x (a + 1) with
      | none =>
        refine ⟨?_, ?_⟩
        · simp only [h1]; rfl
        · intro b; rw [h2]; simp
      | some z =>
        refine ⟨?_, ?_⟩
        · simp only [h1]; rfl
        · intro b
          simp only [BitVec.getLsbD_or, Bool.or_eq_true, h2]
          simp

theorem treeOver_shift (mode : RMode) (x : Nat → Option Word) (n a b : Nat) :
    treeOver mode (fun j => x (a + j)) n b = treeOver mode x n (a + b) := by
  induction n generalizing b with
  | zero => rfl
  | succ n ih =>
    simp only [treeOver]
    rw [ih, ih, Nat.add_assoc]

/-- Two levels of pairs and one level over the pairs' values. -/
theorem treeOver_step (mode : RMode) (x : Nat → Option Word) (n a : Nat) :
    (treeOver mode x (n + 1) (2 * a)).1 = (treeOver mode (fun i => (treeOver mode x 1 (2 * i)).1) n a).1 ∧
    ∀ b, (treeOver mode x (n + 1) (2 * a)).2.getLsbD b = true ↔
      (treeOver mode (fun i => (treeOver mode x 1 (2 * i)).1) n a).2.getLsbD b = true ∨
        ∃ i, a ≤ i ∧ i < a + 2 ^ n ∧ (treeOver mode x 1 (2 * i)).2.getLsbD b = true := by
  induction n generalizing a with
  | zero =>
    refine ⟨rfl, ?_⟩
    intro b
    rw [show treeOver mode (fun i => (treeOver mode x 1 (2 * i)).1) 0 a = ((treeOver mode x 1 (2 * a)).1, 0) from rfl]
    simp only [Nat.zero_add]
    constructor
    · intro h; exact .inr ⟨a, le_refl _, by omega, h⟩
    · rintro (h | ⟨i, h1, h2, h3⟩)
      · simp at h
      · have : i = a := by omega
        subst this; exact h3
  | succ n ih =>
    obtain ⟨l1, l2⟩ := ih a
    obtain ⟨r1, r2⟩ := ih (a + 2 ^ n)
    have e : 2 * a + 2 ^ (n + 1) = 2 * (a + 2 ^ n) := by rw [Nat.pow_succ]; ring
    have hT : treeOver mode x (n + 1 + 1) (2 * a) =
      (match (treeOver mode x (n + 1) (2 * a)).1, (treeOver mode x (n + 1) (2 * (a + 2 ^ n))).1 with
      | some y, some z => (some (fpAdd mode y z).1, (fpAdd mode y z).2 |||
          ((treeOver mode x (n + 1) (2 * a)).2 ||| (treeOver mode x (n + 1) (2 * (a + 2 ^ n))).2))
      | some y, none => (some y, (treeOver mode x (n + 1) (2 * a)).2 ||| (treeOver mode x (n + 1) (2 * (a + 2 ^ n))).2)
      | none, z => (z, (treeOver mode x (n + 1) (2 * a)).2 ||| (treeOver mode x (n + 1) (2 * (a + 2 ^ n))).2)) := by
      conv_lhs => unfold treeOver
      rw [e]
      try rfl
    have hS : treeOver mode (fun i => (treeOver mode x 1 (2 * i)).1) (n + 1) a =
      (match (treeOver mode (fun i => (treeOver mode x 1 (2 * i)).1) n a).1,
          (treeOver mode (fun i => (treeOver mode x 1 (2 * i)).1) n (a + 2 ^ n)).1 with
      | some y, some z => (some (fpAdd mode y z).1, (fpAdd mode y z).2 |||
          ((treeOver mode (fun i => (treeOver mode x 1 (2 * i)).1) n a).2 |||
            (treeOver mode (fun i => (treeOver mode x 1 (2 * i)).1) n (a + 2 ^ n)).2))
      | some y, none => (some y, (treeOver mode (fun i => (treeOver mode x 1 (2 * i)).1) n a).2 |||
            (treeOver mode (fun i => (treeOver mode x 1 (2 * i)).1) n (a + 2 ^ n)).2)
      | none, z => (z, (treeOver mode (fun i => (treeOver mode x 1 (2 * i)).1) n a).2 |||
            (treeOver mode (fun i => (treeOver mode x 1 (2 * i)).1) n (a + 2 ^ n)).2)) := by
      conv_lhs => unfold treeOver
      try rfl
    have hex : ∀ b, (∃ i, a ≤ i ∧ i < a + 2 ^ (n + 1) ∧ (treeOver mode x 1 (2 * i)).2.getLsbD b = true) ↔
        (∃ i, a ≤ i ∧ i < a + 2 ^ n ∧ (treeOver mode x 1 (2 * i)).2.getLsbD b = true) ∨
        (∃ i, a + 2 ^ n ≤ i ∧ i < a + 2 ^ n + 2 ^ n ∧ (treeOver mode x 1 (2 * i)).2.getLsbD b = true) := by
      intro b
      have ep : 2 ^ (n + 1) = 2 ^ n + 2 ^ n := by rw [Nat.pow_succ]; ring
      constructor
      · rintro ⟨i, h1, h2, h3⟩
        by_cases h : i < a + 2 ^ n
        · exact .inl ⟨i, h1, h, h3⟩
        · exact .inr ⟨i, by omega, by omega, h3⟩
      · rintro (⟨i, h1, h2, h3⟩ | ⟨i, h1, h2, h3⟩)
        · exact ⟨i, h1, by omega, h3⟩
        · exact ⟨i, by omega, by omega, h3⟩
    rw [hT, hS, ← l1, ← r1]
    cases (treeOver mode x (n + 1) (2 * a)).1 with
    | none =>
      refine ⟨rfl, fun b => ?_⟩
      rw [hex]
      show (_ ||| _ : Word).getLsbD b = true ↔ (_ ||| _ : Word).getLsbD b = true ∨ _
      rw [BitVec.getLsbD_or, BitVec.getLsbD_or, Bool.or_eq_true, Bool.or_eq_true, l2, r2]
      exact or_or_or_comm
    | some y =>
      cases (treeOver mode x (n + 1) (2 * (a + 2 ^ n))).1 with
      | none =>
        refine ⟨rfl, fun b => ?_⟩
        rw [hex]
        show (_ ||| _ : Word).getLsbD b = true ↔ (_ ||| _ : Word).getLsbD b = true ∨ _
        rw [BitVec.getLsbD_or, BitVec.getLsbD_or, Bool.or_eq_true, Bool.or_eq_true, l2, r2]
        exact or_or_or_comm
      | some z =>
        refine ⟨rfl, fun b => ?_⟩
        rw [hex]
        show (_ ||| (_ ||| _) : Word).getLsbD b = true ↔ (_ ||| (_ ||| _) : Word).getLsbD b = true ∨ _
        rw [BitVec.getLsbD_or, BitVec.getLsbD_or, BitVec.getLsbD_or, BitVec.getLsbD_or, Bool.or_eq_true, Bool.or_eq_true,
          Bool.or_eq_true, Bool.or_eq_true, l2, r2]
        exact (by intros; tauto : ∀ P A E B F : Prop, (P ∨ ((A ∨ E) ∨ (B ∨ F))) ↔ ((P ∨ (A ∨ B)) ∨ (E ∨ F))) _ _ _ _ _

/-- Level by level over a list, and by halves: the same tree. -/
theorem treeSum_eq (mode : RMode) (n : Nat) (x : Nat → Option Word) :
    (treeSum mode n ((List.range (2 ^ n)).map x)).1 = (treeOver mode x n 0).1.getD 0 ∧
    ∀ b, (treeSum mode n ((List.range (2 ^ n)).map x)).2.getLsbD b = true ↔ (treeOver mode x n 0).2.getLsbD b = true := by
  induction n generalizing x with
  | zero => exact ⟨rfl, fun b => Iff.rfl⟩
  | succ n ih =>
    have hl := treeLevel_eq mode x (2 ^ n) 0
    simp only [Nat.zero_add] at hl
    have e : 2 * 2 ^ n = 2 ^ (n + 1) := by rw [Nat.pow_succ]; ring
    rw [e] at hl
    obtain ⟨i1, i2⟩ := ih (fun i => (treeOver mode x 1 (2 * i)).1)
    obtain ⟨s1, s2⟩ := treeOver_step mode x n 0
    simp only [Nat.mul_zero, Nat.zero_add] at s1 s2
    unfold treeSum
    dsimp only
    rw [hl.1]
    refine ⟨?_, ?_⟩
    · rw [i1, s1]
    · intro b
      rw [BitVec.getLsbD_or, Bool.or_eq_true, hl.2, i2, s2]
      constructor
      · rintro (h | ⟨i, h1, h2⟩)
        · exact .inl h
        · exact .inr ⟨i, Nat.zero_le _, h1, h2⟩
      · rintro (h | ⟨i, _, h1, h2⟩)
        · exact .inl h
        · exact .inr ⟨i, h1, h2⟩

theorem scanVals_find (f : Word → Word → Word) (e : Word) (x : Nat → Word) (l : List Nat) (hl : l.Nodup) (acc : Word) (n : Nat)
    (hn : n ∈ l) : (scanVals f e x l acc).find? (fun v => v.1 == n) =
      some (n, (l.takeWhile (fun j => j != n)).foldl (fun a j => f a (x j)) acc,
        f ((l.takeWhile (fun j => j != n)).foldl (fun a j => f a (x j)) acc) (x n)) := by
  induction l generalizing acc with
  | nil => cases hn
  | cons a l ih =>
    unfold scanVals
    by_cases h : a = n
    · subst h
      simp
    · rw [List.find?_cons_of_neg (by simpa using h)]
      rw [ih (List.nodup_cons.1 hl).2 _ (by rcases List.mem_cons.1 hn with h' | h'; exact absurd h'.symm h; exact h')]
      rw [List.takeWhile_cons_of_pos (by simpa using h)]
      rfl

theorem takeWhile_range (n k : Nat) (h : n < k) : (List.range k).takeWhile (fun j => j != n) = List.range n := by
  induction k with
  | zero => omega
  | succ k ih =>
    rw [List.range_succ]
    by_cases hk : n < k
    · have hm : ∃ a ∈ List.range k, ¬ (a != n) = true := ⟨n, by simpa using hk, by simp⟩
      rw [List.takeWhile_append, if_neg, ih hk]
      intro hc
      have := congrArg List.length (ih hk)
      rw [hc] at this
      simp at this
      omega
    · have : n = k := by omega
      subst this
      rw [List.takeWhile_append_of_pos]
      · simp
      · intro a ha; simp at ha ⊢; omega

theorem foldl_live (f : Word → Word → Word) (e : Word) (he : ∀ a b, f (f a b) e = f a b) (he0 : f e e = e) (live : Word) (v : Nat → Word)
    (l : List Nat) (acc : Word) (hacc : f acc e = acc) :
    l.foldl (fun a j => f a (if live.getLsbD j then v j else e)) acc =
      (l.filter (fun j => live.getLsbD j)).foldl (fun a j => f a (v j)) acc := by
  induction l generalizing acc with
  | nil => rfl
  | cons a l ih =>
    rw [List.foldl_cons]
    by_cases h : live.getLsbD a = true
    · rw [if_pos h, List.filter_cons_of_pos (by simpa using h), List.foldl_cons]
      exact ih _ (he _ _)
    · rw [if_neg h, List.filter_cons_of_neg (by simpa using h), hacc]
      exact ih _ hacc

theorem lanes_below (live : Word) (n : Nat) (hn : n < 32) (ex : Bool) (hb : live.getLsbD n = true) :
    (lanesOf live).filter (fun j => decide (j < n) || (!ex && j == n)) =
      if ex then (List.range n).filter (fun j => live.getLsbD j) else (List.range (n + 1)).filter (fun j => live.getLsbD j) := by
  unfold lanesOf
  rw [List.filter_filter]
  have key : ∀ k, k ≤ 32 → (List.range 32).filter (fun j => decide (j < k) && live.getLsbD j) =
      (List.range k).filter (fun j => live.getLsbD j) := by
    intro k hk
    have hr : List.range 32 = List.range k ++ (List.range (32 - k)).map (k + ·) := by
      rw [← List.range_add]; congr 1; omega
    rw [hr, List.filter_append]
    have h1 : (List.map (k + ·) (List.range (32 - k))).filter (fun j => decide (j < k) && live.getLsbD j) = [] := by
      rw [List.filter_eq_nil_iff]
      intro a ha
      obtain ⟨b, _, rfl⟩ := List.mem_map.1 ha
      simp
    rw [h1, List.append_nil]
    apply List.filter_congr
    intro a ha
    simp at ha
    simp [ha]
  cases ex with
  | true =>
    rw [if_pos rfl, ← key n (by omega)]
    apply List.filter_congr
    intro a _
    simp
  | false =>
    rw [if_neg (by simp), ← key (n + 1) (by omega)]
    apply List.filter_congr
    intro a _
    have : (decide (a < n) || (!false && a == n)) = decide (a < n + 1) := by
      rw [Bool.eq_iff_iff]; simp; omega
    rw [this]

theorem scan_eq (f : Word → Word → Word) (e : Word) (he : ∀ a b, f (f a b) e = f a b) (he0 : f e e = e) (ex : Bool) (d a : Nat)
    (w : Warp) : scan f e ex d a w = writeLanes w d (lanesOf w.live) (fun n =>
      if w.live.getLsbD n ∧ n < 32 then
      (((lanesOf w.live).filter (fun j => decide (j < n) || (!ex && j == n))).map (w.src a)).foldl f e else 0) := by
  have hcongr : ∀ (g h : Nat → Word) (ls : List Nat) (w : Warp), (∀ n ∈ ls, g n = h n) → writeLanes w d ls g = writeLanes w d ls h := by
    intro g h ls
    induction ls with
    | nil => intros; rfl
    | cons b l ih =>
      intro w hh
      unfold writeLanes at ih ⊢
      rw [List.foldl_cons, List.foldl_cons, hh b List.mem_cons_self]
      exact ih _ (fun n hn => hh n (List.mem_cons_of_mem _ hn))
  unfold scan
  dsimp only
  apply hcongr
  intro n hn
  obtain ⟨h1, h2⟩ := mem_lanesOf.1 hn
  rw [if_pos ⟨h2, h1⟩, scanVals_find _ _ _ _ List.nodup_range _ _ (by simpa using h1), takeWhile_range n 32 h1]
  rw [lanes_below w.live n h1 ex h2, List.foldl_map]
  have hf := foldl_live f e he he0 w.live (w.src a) (List.range n) e he0
  dsimp only
  cases ex with
  | true =>
    rw [if_pos rfl, if_pos rfl]
    exact hf
  | false =>
    simp only [Bool.false_eq_true, if_false]
    rw [List.range_succ, List.filter_append, List.foldl_append, ← hf]
    simp [h2]

end Sys2Proof.Machine
end

