-- ==== Sys2Proof/Laws/Accesses.lean ====
section
/-!
SUPPORT. Lemmas: loads, stores, atomics and fences.
-/

namespace Sys2Proof.Machine

/-- What loads and stores leave of the machine, with its memory left out. -/
structure Touched (k : Nat) (m m' : Mach) : Prop where
  rest : m'.memRest = m.memRest
  others : sameOthers k m m'
  here : (Map.find? m.warps k).isSome = true → (Map.find? m'.warps k).isSome = true
  warp : (m'.warp k).memRest = (m.warp k).memRest
  paths : (m'.warp k).paths = (m.warp k).paths
  demot : (m'.warp k).demot = (m.warp k).demot

theorem Touched.refl (k : Nat) (m : Mach) : Touched k m m := ⟨rfl, fun _ _ => rfl, id, rfl, rfl, rfl⟩

theorem Touched.trans {k : Nat} {a b c : Mach} (h : Touched k a b) (g : Touched k b c) : Touched k a c :=
  ⟨g.rest.trans h.rest, fun j hj => (g.others j hj).trans (h.others j hj), fun x => g.here (h.here x), g.warp.trans h.warp,
    g.paths.trans h.paths, g.demot.trans h.demot⟩

theorem touched_setWarp {k : Nat} {m : Mach} {w : Warp} (h1 : w.memRest = (m.warp k).memRest) (h2 : w.paths = (m.warp k).paths)
    (h3 : w.demot = (m.warp k).demot) : Touched k m (m.setWarp k w) := by
  refine ⟨rfl, ?_, ?_, ?_, ?_, ?_⟩
  · intro j hj; exact Map.find?_ins_ne _ _ hj
  · intro _; simp [Mach.setWarp]
  · rw [Mach.warp_setWarp_self]; exact h1
  · rw [Mach.warp_setWarp_self]; exact h2
  · rw [Mach.warp_setWarp_self]; exact h3

theorem touched_updWarp {k : Nat} {m : Mach} {f : Warp → Warp} (hh : (Map.find? m.warps k).isSome = true)
    (h1 : (f (m.warp k)).memRest = (m.warp k).memRest) (h2 : (f (m.warp k)).paths = (m.warp k).paths)
    (h3 : (f (m.warp k)).demot = (m.warp k).demot) : Touched k m (m.updWarp k f) := by
  refine ⟨rfl, ?_, ?_, ?_, ?_, ?_⟩
  · intro j hj; exact Map.find?_upd_ne _ _ hj
  · intro _; unfold Mach.updWarp; rw [Map.find?_upd_self]; simpa using hh
  · rw [Mach.warp_updWarp_self _ hh]; exact h1
  · rw [Mach.warp_updWarp_self _ hh]; exact h2
  · rw [Mach.warp_updWarp_self _ hh]; exact h3

/-- Values whose reading depends only on what `memRest` of the machine and of the warp keep. -/
theorem Touched.mem {k : Nat} {m m' : Mach} (h : Touched k m m') : m'.mem = m.mem := by
  have := congrArg Mach.mem h.rest; exact this

theorem Touched.poison {k : Nat} {m m' : Mach} (h : Touched k m m') : m'.poison = m.poison := by
  have := congrArg Mach.poison h.rest; exact this

theorem Touched.blocks {k : Nat} {m m' : Mach} (h : Touched k m m') : m'.blocks = m.blocks := by
  have := congrArg Mach.blocks h.rest; exact this

theorem Touched.blockOf {k : Nat} {m m' : Mach} (h : Touched k m m') : m'.blockOf k = m.blockOf k := by
  have hb : (m'.warp k).block = (m.warp k).block := by
    have := congrArg Warp.block h.warp; exact this
  unfold Mach.blockOf Mach.block
  rw [hb, h.blocks]

theorem tickOn_touched (k : Nat) (m : Mach) : Touched k m m.tickOn := ⟨rfl, fun _ _ => rfl, id, rfl, rfl, rfl⟩

theorem stampLoad_touched (k key lease : Nat) (m : Mach) : Touched k m (m.stampLoad k key lease) := by
  unfold Mach.stampLoad
  split
  · exact tickOn_touched k m
  · dsimp only
    have h1 : Touched k m { m with rts := Map.ins m.rts (key / 64) (max ((Map.find? m.rts (key / 64)).getD 0)
        (max (m.warp k).pts ((Map.find? m.wts (key / 64)).getD 0) + lease)) } := ⟨rfl, fun _ _ => rfl, id, rfl, rfl, rfl⟩
    exact h1.trans (touched_setWarp rfl rfl rfl)

theorem count_touched (k : Nat) (m : Mach) (c i n : Nat) : Touched k m (m.count c i n) :=
  ⟨by unfold Mach.memRest; rw [Mach.count_rest], fun _ _ => rfl, id, rfl, rfl, rfl⟩

theorem l1Put_touched (k : Nat) (m : Mach) (core sec : Nat) (st : Bool) (c : Copy) : Touched k m (m.l1Put core sec st c) :=
  ⟨rfl, fun _ _ => rfl, id, rfl, rfl, rfl⟩

/-- Caching alone: a request for one sector moves the timestamp of the warp on and changes the copies of that sector, but others
only by dropping them. -/
structure Requested (k sec : Nat) (m m' : Mach) : Prop extends Touched k m m' where
  warpEq : m'.warp k = { m.warp k with pts := (m'.warp k).pts }
  later : (m.warp k).pts ≤ (m'.warp k).pts
  clk : m'.clk = m.clk
  ops : m'.ops = m.ops
  l1 : ∀ n c, n ≠ sec → m'.l1Copy (m.blockOf k).core n = some c → m.l1Copy (m.blockOf k).core n = some c
  replica : ∀ n c, n ≠ sec → m'.replicaAt (m.blockOf k).core n = some c → m.replicaAt (m.blockOf k).core n = some c

theorem Requested.trans {k sec : Nat} {a b c : Mach} (h : Requested k sec a b) (g : Requested k sec b c) : Requested k sec a c := by
  have hb : (b.blockOf k).core = (a.blockOf k).core := by rw [h.toTouched.blockOf]
  refine ⟨h.toTouched.trans g.toTouched, ?_, h.later.trans g.later, g.clk.trans h.clk, g.ops.trans h.ops, ?_, ?_⟩
  · rw [g.warpEq, h.warpEq]
  · intro n x hn hx
    rw [← hb] at hx
    exact h.l1 n x hn (hb ▸ g.l1 n x hn hx)
  · intro n x hn hx
    rw [← hb] at hx
    exact h.replica n x hn (hb ▸ g.replica n x hn hx)

theorem Requested.same {k sec : Nat} {m m' : Mach} (h : Touched k m m') (hw : m'.warp k = m.warp k) (hc : m'.clk = m.clk)
    (ho : m'.ops = m.ops) (hl : m'.l1 = m.l1) (hr : m'.replicas = m.replicas) : Requested k sec m m' := by
  refine ⟨h, by rw [hw], by rw [hw], hc, ho, ?_, ?_⟩
  · intro n c _ hx; unfold Mach.l1Copy at hx ⊢; rwa [hl] at hx
  · intro n c _ hx; unfold Mach.replicaAt at hx ⊢; rwa [hr] at hx

theorem count_requested (k sec : Nat) (m : Mach) (c i n : Nat) : Requested k sec m (m.count c i n) :=
  .same (count_touched k m c i n) rfl rfl rfl rfl rfl

theorem stampLoad_requested (k sec key lease : Nat) (m : Mach) (h : isExternal key = false) :
    Requested k sec m (m.stampLoad k key lease) := by
  have e : (m.stampLoad k key lease).warp k =
      { m.warp k with pts := max (m.warp k).pts ((Map.find? m.wts (key / 64)).getD 0) } := by
    unfold Mach.stampLoad
    rw [if_neg (by simp [h])]
    dsimp only
    rw [Mach.warp_setWarp_self]
  have o : (m.stampLoad k key lease).clk = m.clk ∧ (m.stampLoad k key lease).ops = m.ops ∧
      (m.stampLoad k key lease).l1 = m.l1 ∧ (m.stampLoad k key lease).replicas = m.replicas := by
    unfold Mach.stampLoad
    rw [if_neg (by simp [h])]
    exact ⟨rfl, rfl, rfl, rfl⟩
  refine ⟨stampLoad_touched k key lease m, by rw [e], by rw [e]; exact le_max_left _ _, o.1, o.2.1, ?_, ?_⟩
  · intro n c _ hx; unfold Mach.l1Copy at hx ⊢; rwa [o.2.2.1] at hx
  · intro n c _ hx; unfold Mach.replicaAt at hx ⊢; rwa [o.2.2.2] at hx

theorem find?_filter_line (ls : List L1Line) (p : L1Line → Bool) (n : Nat) (hp : ∀ x : L1Line, x.line = n → p x = true) :
    (ls.filter p).find? (fun x => x.line == n) = ls.find? (fun x => x.line == n) := by
  induction ls with
  | nil => rfl
  | cons a ls ih =>
    by_cases ha : a.line = n
    · rw [List.filter_cons_of_pos (hp a ha), List.find?_cons_of_pos (by simpa using ha), List.find?_cons_of_pos (by simpa using ha)]
    · rw [List.find?_cons_of_neg (by simpa using ha), ← ih]
      cases hpa : p a
      · rw [List.filter_cons_of_neg (by simp [hpa])]
      · rw [List.filter_cons_of_pos hpa, List.find?_cons_of_neg (by simpa using ha)]

/-- A line that makes room goes whole: what is left of a set held it before. -/
theorem evictL1_find {ls : List L1Line} {n : Nat} {x : L1Line} (h : (evictL1 ls).find? (fun x => x.line == n) = some x) :
    ls.find? (fun x => x.line == n) = some x := by
  unfold evictL1 at h
  split at h
  · exact h
  · split at h
    · exact h
    · rename_i v _
      by_cases hv : v.line = n
      · have := List.mem_of_find?_eq_some h
        rw [List.mem_filter] at this
        have h2 : x.line = n := by simpa using List.find?_some h
        simp [h2, hv] at this
      · rw [find?_filter_line] at h
        · exact h
        · intro y hy
          simp only [bne_iff_ne, ne_eq]
          rw [hy]
          exact fun e => hv e.symm

theorem l1Put_requested (k sec core : Nat) (m : Mach) (hc : core = (m.blockOf k).core) (st : Bool) (c : Copy) :
    Requested k sec m (m.l1Put core sec st c) := by
  subst hc
  refine ⟨l1Put_touched _ _ _ _ _ _, rfl, le_refl _, rfl, rfl, ?_, fun _ _ _ hx => hx⟩
  intro n x hn hx
  generalize (m.blockOf k).core = core at hx ⊢
  unfold Mach.l1Copy at hx ⊢
  unfold Mach.l1Put at hx
  dsimp only at hx
  by_cases hs : l1Set core n = l1Set core sec
  · rw [hs] at hx ⊢
    rw [Map.find?_ins_self] at hx
    simp only [Option.getD_some] at hx
    generalize (Map.find? m.l1 (l1Set core sec)).getD [] = ls at hx ⊢
    by_cases hl : n / 2 = sec / 2
    · have hm : n % 2 ≠ sec % 2 := by omega
      rw [hl] at hx ⊢
      cases hf : ls.find? (fun x => x.line == sec / 2) with
      | none =>
        rw [hf] at hx
        rw [List.find?_cons_of_pos (by simp)] at hx
        simp [Map.find?, Ne.symm hm] at hx
      | some y =>
        rw [hf] at hx
        rw [List.find?_cons_of_pos (by simpa using List.find?_some hf)] at hx
        simp only [Option.bind_some] at hx ⊢
        rwa [Map.find?_ins_ne _ _ hm] at hx
    · have hne : ∀ y : L1Line, y.line = sec / 2 → (y.line == n / 2) = false := by
        intro y hy; rw [hy]; simpa using fun e => hl e.symm
      have hhead : ((match ls.find? (fun x => x.line == sec / 2) with
          | some x => { x with stream := st, secs := Map.ins x.secs (sec % 2) c }
          | none => { line := sec / 2, stream := st, secs := [(sec % 2, c)] } : L1Line)).line = sec / 2 := by
        split
        · rename_i y hy; simpa using List.find?_some hy
        · rfl
      rw [List.find?_cons_of_neg (by have := hne _ hhead; simp only [Bool.not_eq_true]; exact this)] at hx
      have hoth : ∀ y : L1Line, (ls.filter (fun x => x.line != sec / 2)).find? (fun x => x.line == n / 2) = some y →
          ls.find? (fun x => x.line == n / 2) = some y := by
        intro y hy
        rwa [find?_filter_line] at hy
        intro z hz
        rw [hz]; simpa using hl
      cases hf : (if (ls.filter (fun x => x.line != sec / 2)).length < ls.length then ls.filter (fun x => x.line != sec / 2)
          else evictL1 (ls.filter (fun x => x.line != sec / 2))).find? (fun x => x.line == n / 2) with
      | none => rw [hf] at hx; cases hx
      | some y =>
        rw [hf] at hx
        have : ls.find? (fun x => x.line == n / 2) = some y := by
          split at hf
          · exact hoth y hf
          · exact hoth y (evictL1_find hf)
        rw [this]
        exact hx
  · rwa [Map.find?_ins_ne _ _ hs] at hx

theorem keepCopies_requested (k : Nat) (m : Mach) (l : Loc) (long : Bool) : Requested k (l.key / 64) m (m.keepCopies k l long) := by
  unfold Mach.keepCopies
  dsimp only
  split
  · exact .same (Touched.refl _ _) rfl rfl rfl rfl rfl
  · rename_i c _
    have h1 := l1Put_requested k (l.key / 64) (m.blockOf k).core m rfl (l.policy == 1) c
    split
    · refine h1.trans ?_
      generalize m.l1Put (m.blockOf k).core (l.key / 64) (l.policy == 1) c = m1 at h1 ⊢
      have hcore : (m.blockOf k).core = (m1.blockOf k).core := by rw [h1.toTouched.blockOf]
      generalize hx : ({ ctx := (m.blockOf k).ctx, seq := (m.blockOf k).seq, copy := c } : Replica) = y
      refine Requested.trans (b := { m1 with replicas := Map.ins m1.replicas (128 * (l.key / 64) + nearSlice (m.blockOf k).core) y })
        ⟨⟨rfl, fun _ _ => rfl, id, rfl, rfl, rfl⟩, rfl, le_refl _, rfl, rfl, fun _ _ _ hx => hx, ?_⟩ (count_requested k _ _ _ _ _)
      intro n x hn hx
      unfold Mach.replicaAt at hx ⊢
      dsimp only at hx
      rw [hcore, Map.find?_ins_ne] at hx
      · exact hx
      · omega
    · exact h1

theorem request_requested (k : Nat) (m : Mach) (l : Loc) (long cached : Bool) (he : isExternal l.key = false)
    (hh : (Map.find? m.warps k).isSome = true) : Requested k (l.key / 64) m (m.request k l long cached) := by
  unfold Mach.request
  split
  · exact stampLoad_requested _ _ _ _ _ he
  · dsimp only
    have h1 : Requested k (l.key / 64) m (if (m.l1Copy (m.blockOf k).core (l.key / 64)).any (fun c => c.serves m (m.warp k).pts) = true then m
        else m.count (m.ctxOf k) 24 1) := by
      split
      · exact .same (Touched.refl _ _) rfl rfl rfl rfl rfl
      · exact count_requested _ _ _ _ _ _
    refine h1.trans ?_
    have hh1 := h1.here hh
    have hcore : (m.blockOf k).core = ((if (m.l1Copy (m.blockOf k).core (l.key / 64)).any (fun c => c.serves m (m.warp k).pts) = true then m
        else m.count (m.ctxOf k) 24 1).blockOf k).core := by rw [h1.toTouched.blockOf]
    generalize (if (m.l1Copy (m.blockOf k).core (l.key / 64)).any (fun c => c.serves m (m.warp k).pts) = true then m
        else m.count (m.ctxOf k) 24 1) = m1 at h1 hh1 hcore ⊢
    split
    · rename_i c _
      refine (l1Put_requested k (l.key / 64) (m.blockOf k).core m1 hcore (l.policy == 1) c).trans ?_
      have hh2 := (l1Put_touched k m1 (m.blockOf k).core (l.key / 64) (l.policy == 1) c).here hh1
      generalize m1.l1Put (m.blockOf k).core (l.key / 64) (l.policy == 1) c = m2 at hh2 ⊢
      refine ⟨touched_updWarp hh2 rfl rfl rfl, ?_, ?_, rfl, rfl, fun _ _ _ hx => hx, fun _ _ _ hx => hx⟩
      · rw [Mach.warp_updWarp_self _ hh2]
      · rw [Mach.warp_updWarp_self _ hh2]; exact le_max_left _ _
    · exact (stampLoad_requested _ _ _ _ _ he).trans (keepCopies_requested _ _ _ _)

/-- A copy that may serve after requests for other sectors might have served before them. -/
theorem Requested.mayServe {k : Nat} {m m' : Mach} {sec : Nat} (h : Requested k sec m m') {l : Loc} (hl : l.key / 64 ≠ sec) {c : Copy}
    (hs : m'.mayServe k l c) : m.mayServe k l c := by
  obtain ⟨h1, h2, h3⟩ := hs
  rw [h.toTouched.blockOf] at h2
  refine ⟨h1, h2.imp (h.l1 _ _ hl) (h.replica _ _ hl), ?_⟩
  unfold Copy.serves at h3 ⊢
  rw [h.clk] at h3
  have := h.later
  simp only [Bool.and_eq_true, decide_eq_true_eq] at h3 ⊢
  exact ⟨by omega, h3.2⟩

theorem copyFor_mayServe {m : Mach} {k : Nat} {l : Loc} {c : Copy} (h : m.copyFor k l = some c) : m.mayServe k l c := by
  unfold Mach.copyFor at h
  split at h
  · cases h
  · rename_i hc
    refine ⟨by simpa using hc, ?_⟩
    dsimp only at h
    cases hl : (m.l1Copy (m.blockOf k).core (l.key / 64)).filter (fun c => c.serves m (m.warp k).pts) with
    | some d =>
      rw [hl] at h
      cases h
      rw [Option.filter_eq_some_iff] at hl
      exact ⟨.inl hl.1, hl.2⟩
    | none =>
      rw [hl] at h
      simp only [Option.orElse_none] at h
      rw [Option.filter_eq_some_iff] at h
      exact ⟨.inr h.1, h.2⟩

/-- Registers written in a lane change nothing else. -/
theorem writeRegs_keeps (w : Warp) (sc d i : Nat) (xs : List Word) :
    writeRegs w sc d i xs = { w with v := (writeRegs w sc d i xs).v, s := (writeRegs w sc d i xs).s } ∧
    (sc = 0 → (writeRegs w sc d i xs).s = w.s) ∧ (sc ≠ 0 → (writeRegs w sc d i xs).v = w.v) := by
  unfold writeRegs
  generalize xs.zipIdx = l
  induction l generalizing w with
  | nil => exact ⟨rfl, fun _ => rfl, fun _ => rfl⟩
  | cons a l ih =>
    simp only [List.foldl_cons]
    obtain ⟨h1, h2, h3⟩ := ih (if sc = 0 then w.setV (d + a.2) i a.1 else w.setS (d + a.2) a.1)
    refine ⟨?_, ?_, ?_⟩
    · rw [h1]; split <;> rfl
    · intro h0; rw [h2 h0, if_pos h0]; rfl
    · intro h0; rw [h3 h0, if_neg h0]; rfl

theorem writeRegs_v (w : Warp) (d i : Nat) (xs : List Word) (hi : i < 32) (r n : Nat) (hn : n < 32) :
    (writeRegs w 0 d i xs).getV r n = if n = i ∧ d ≤ r ∧ r < d + xs.length then xs.getD (r - d) 0 else w.getV r n := by
  unfold writeRegs
  have key : ∀ (xs : List Word) (a : Nat) (w : Warp),
      ((xs.zipIdx a).foldl (fun w e => if 0 = 0 then w.setV (d + e.2) i e.1 else w.setS (d + e.2) e.1) w).getV r n =
        if n = i ∧ d + a ≤ r ∧ r < d + a + xs.length then xs.getD (r - d - a) 0 else w.getV r n := by
    intro xs
    induction xs with
    | nil => intro a w; rw [if_neg (by simp)]; rfl
    | cons x xs ih =>
      intro a w
      rw [List.zipIdx_cons, List.foldl_cons, ih (a + 1)]
      simp only [if_true, List.length_cons]
      by_cases h : n = i ∧ d + (a + 1) ≤ r ∧ r < d + (a + 1) + xs.length
      · rw [if_pos h, if_pos ⟨h.1, by omega, by omega⟩, show r - d - a = (r - d - (a + 1)) + 1 by omega, List.getD_cons_succ]
      · rw [if_neg h]
        by_cases h2 : n = i ∧ r = d + a
        · obtain ⟨rfl, rfl⟩ := h2
          rw [Warp.getV_setV_self, if_pos ⟨rfl, by omega, by omega⟩]
          simp
        · rw [Warp.getV_setV_ne _ _ (by intro e; exact h2 ⟨by omega, by omega⟩), if_neg]
          intro hc
          exact h2 ⟨hc.1, by by_contra hne; exact h ⟨hc.1, by omega, by omega⟩⟩
  have := key xs 0 w
  simpa using this

theorem sKey_inj (w : Warp) {a b : Nat} (h : w.sKey a = w.sKey b) : a = b := by
  unfold Warp.sKey at h
  by_cases ht : w.trap.isSome = true
  · simp only [ht, Bool.true_and] at h
    by_cases ha : 48 ≤ a <;> by_cases hb : 48 ≤ b <;> simp [ha, hb] at h <;> omega
  · simp only [ht, Bool.false_and] at h
    simpa using h

theorem writeRegs_s (w : Warp) (d i : Nat) (xs : List Word) (key : Nat) :
    Map.get (writeRegs w 1 d i xs).s key =
      if h : ∃ j, j < xs.length ∧ key = w.sKey (d + j) then xs.getD (Nat.find h) 0 else Map.get w.s key := by
  unfold writeRegs
  have hk : ∀ (xs : List Word) (a : Nat) (w : Warp),
      Map.get ((xs.zipIdx a).foldl (fun w e => if 1 = 0 then w.setV (d + e.2) i e.1 else w.setS (d + e.2) e.1) w).s key =
        if h : ∃ j, j < xs.length ∧ key = w.sKey (d + a + j) then xs.getD (Nat.find h) 0 else Map.get w.s key := by
    intro xs
    induction xs with
    | nil => intro a w; rw [dif_neg (by simp)]; rfl
    | cons x xs ih =>
      intro a w
      rw [List.zipIdx_cons, List.foldl_cons, ih (a + 1)]
      simp only [Nat.one_ne_zero, if_false]
      have hs : ∀ n, (w.setS (d + a) x).sKey n = w.sKey n := fun _ => rfl
      by_cases h : ∃ j, j < xs.length ∧ key = w.sKey (d + (a + 1) + j)
      · have h' : ∃ j, j < (x :: xs).length ∧ key = w.sKey (d + a + j) := by
          obtain ⟨j, h1, h2⟩ := h
          exact ⟨j + 1, by simpa using h1, by rw [h2]; congr 1; omega⟩
        rw [dif_pos (by simpa only [hs] using h), dif_pos h']
        have f1 := Nat.find_spec h'
        simp only [hs]
        have f2 := Nat.find_spec h
        have e : Nat.find h' = Nat.find h + 1 := by
          have := sKey_inj w (f1.2.symm.trans f2.2)
          omega
        rw [e, List.getD_cons_succ]
      · rw [dif_neg (by simpa only [hs] using h)]
        by_cases h2 : key = w.sKey (d + a)
        · have h' : ∃ j, j < (x :: xs).length ∧ key = w.sKey (d + a + j) := ⟨0, by simp, by simpa using h2⟩
          rw [dif_pos h']
          have f1 := Nat.find_spec h'
          have e : Nat.find h' = 0 := by
            have := sKey_inj w (h2.symm.trans f1.2)
            omega
          rw [e, h2]
          show Map.get (Map.set w.s (w.sKey (d + a)) x) (w.sKey (d + a)) = x
          exact Map.get_set_self _ _ _
        · rw [dif_neg]
          · show Map.get (Map.set w.s (w.sKey (d + a)) x) key = Map.get w.s key
            exact Map.get_set_ne _ _ h2
          · rintro ⟨j, h3, h4⟩
            cases j with
            | zero => exact h2 (by simpa using h4)
            | succ j => exact h ⟨j, by simpa using h3, by rw [h4]; congr 1; omega⟩
  have := hk xs 0 w
  simpa using this

/-- The warp after the loads of some lanes, the timestamp apart. -/
def loadedWarp (bytes : Loc → List Byte) (sc d z : Nat) (ls : List (Nat × Loc)) (w : Warp) : Warp :=
  ls.foldl (fun w e => writeRegs w sc d e.1 (extended z (bytes e.2))) w

theorem writeRegs_congr (w w' : Warp) (hv : w'.v = w.v) (hs : w'.s = w.s) (ht : w'.trap = w.trap) (sc d i : Nat) (xs : List Word) :
    (writeRegs w' sc d i xs).v = (writeRegs w sc d i xs).v ∧ (writeRegs w' sc d i xs).s = (writeRegs w sc d i xs).s := by
  unfold writeRegs
  generalize xs.zipIdx = l
  induction l generalizing w w' with
  | nil => exact ⟨hv, hs⟩
  | cons a l ih =>
    simp only [List.foldl_cons]
    apply ih
    · split
      · simp only [Warp.setV, hv]
      · exact hv
    · split
      · exact hs
      · simp only [Warp.setS, Warp.sKey, hs, ht]
    · split <;> exact ht

theorem readLane_ok {q : Req} {m : Mach} {k : Nat} {l : Loc} {n : Nat} (h1 : isExternal l.key = false) (h2 : m.poisonAt l.key n = none) :
    readLane q m k l n = .ok (m.loadBytes (m.blockOf k).pailFor l.key n) := by
  unfold readLane
  dsimp only
  rw [if_neg (by simp [h1]), h2]

/-- The bytes of a lane, by what serves its sector. -/
def laneBytes (m : Mach) (k n : Nat) (src : Nat → Option (List Byte)) (l : Loc) : List Byte :=
  match src (l.key / 64) with
  | some bytes => copyLane m k l n bytes
  | none => m.loadBytes (m.blockOf k).pailFor l.key n

theorem loadedWarp_congr {bytes : Loc → List Byte} {sc d z : Nat} (ls : List (Nat × Loc)) (w w' : Warp) (hv : w'.v = w.v)
    (hs : w'.s = w.s) (ht : w'.trap = w.trap) :
    (loadedWarp bytes sc d z ls w').v = (loadedWarp bytes sc d z ls w).v ∧
    (loadedWarp bytes sc d z ls w').s = (loadedWarp bytes sc d z ls w).s := by
  unfold loadedWarp
  induction ls generalizing w w' with
  | nil => exact ⟨hv, hs⟩
  | cons x l ih =>
    rw [List.foldl_cons, List.foldl_cons]
    obtain ⟨c1, c2⟩ := writeRegs_congr w w' hv hs ht sc d x.1 (extended z (bytes x.2))
    apply ih _ _ c1 c2
    rw [(writeRegs_keeps w' _ _ _ _).1, (writeRegs_keeps w _ _ _ _).1]
    exact ht

theorem loadAll_ok (q : Req) (k z d : Nat) (long cached : Bool) (m0 : Mach) (ls : List (Nat × Loc))
    (hls : ∀ e ∈ ls, isExternal e.2.key = false ∧ m0.poisonAt e.2.key (accessBytes z) = none)
    (hsame : ∀ e ∈ ls, ∀ e' ∈ ls, e.2.cacheable = e'.2.cacheable) :
    ∀ (seen : List (Nat × Option (List Byte))) (m : Mach), Touched k m0 m → (Map.find? m.warps k).isSome = true →
      (∀ e ∈ ls, ∀ c, Map.find? seen (e.2.key / 64) = none → m.mayServe k e.2 c → m0.mayServe k e.2 c) →
      (∀ e ∈ ls, ∀ b, Map.find? seen (e.2.key / 64) = some (some b) → cached = true ∧ ∃ c, m0.mayServe k e.2 c ∧ b = c.bytes) →
    ∃ m' src, loadAll q k z d long cached seen m ls = .ok m' ∧
      (∀ n x, Map.find? seen n = some x → src n = x) ∧
      (∀ e ∈ ls, ∀ b, src (e.2.key / 64) = some b → cached = true ∧ ∃ c, m0.mayServe k e.2 c ∧ b = c.bytes) ∧
      (∀ e, ls.head? = some e → Map.find? seen (e.2.key / 64) = none → cached = true → src (e.2.key / 64) = m.servedBy k e.2) ∧
      Touched k m m' ∧ (m'.warp k).sample = (m.warp k).sample ∧ m'.ops = m.ops ∧ (m'.warp k).p = (m.warp k).p ∧
      (m'.warp k).fflags = (m.warp k).fflags ∧
      (m'.warp k).v = (loadedWarp (laneBytes m0 k (accessBytes z) src) q.sc d z ls (m.warp k)).v ∧
      (m'.warp k).s = (loadedWarp (laneBytes m0 k (accessBytes z) src) q.sc d z ls (m.warp k)).s := by
  induction ls with
  | nil =>
    intro seen m h0 hh _ _
    exact ⟨m, fun n => (Map.find? seen n).getD none, rfl, fun n x h => by simp [h], by simp, by simp, Touched.refl _ _, rfl, rfl, rfl, rfl, rfl, rfl⟩
  | cons e ls ih =>
    intro seen m h0 hh hserve hseen
    obtain ⟨i, l⟩ := e
    obtain ⟨e1, e2⟩ := hls (i, l) List.mem_cons_self
    generalize hsrc : (Map.find? seen (l.key / 64)).getD (if cached then m.servedBy k l else none) = src0
    have hgood : ∀ b, src0 = some b → cached = true ∧ ∃ c, m0.mayServe k l c ∧ b = c.bytes := by
      intro b hb
      rw [← hsrc] at hb
      cases hf : Map.find? seen (l.key / 64) with
      | some x =>
        rw [hf] at hb
        exact hseen (i, l) List.mem_cons_self b (by rw [hf]; exact congrArg some hb)
      | none =>
        rw [hf] at hb
        cases hc : cached
        · simp [hc] at hb
        · simp only [hc, Option.getD_none, if_true] at hb
          unfold Mach.servedBy at hb
          obtain ⟨c, h1, h2⟩ := Option.map_eq_some_iff.1 hb
          exact ⟨rfl, c, hserve (i, l) List.mem_cons_self c hf (copyFor_mayServe h1), h2.symm⟩
    have hb : loadLane q m k l (accessBytes z) src0 = .ok (laneBytes m0 k (accessBytes z) (fun _ => src0) l) := by
      unfold laneBytes
      cases src0 with
      | some b =>
        dsimp only [loadLane]
        unfold copyLane
        rw [h0.blockOf]
      | none =>
        dsimp only [loadLane]
        rw [readLane_ok e1 (by unfold Mach.poisonAt at e2 ⊢; rw [h0.poison]; exact e2), h0.blockOf]
        unfold Mach.loadBytes
        simp only [e1, h0.mem]; rfl
    unfold loadAll
    dsimp only
    rw [if_neg (by simp [e1]), hsrc, hb]
    dsimp only
    generalize hbs : laneBytes m0 k (accessBytes z) (fun _ => src0) l = bs
    have t2 : Requested k (l.key / 64) m (if (Map.find? seen (l.key / 64)).isSome = true then m else m.request k l long cached) := by
      split
      · exact .same (Touched.refl _ _) rfl rfl rfl rfl rfl
      · exact request_requested _ _ _ _ _ e1 hh
    generalize (if (Map.find? seen (l.key / 64)).isSome = true then m else m.request k l long cached) = m1 at t2 ⊢
    have hh1 := t2.here hh
    have hw := writeRegs_keeps (m1.warp k) q.sc d i (extended z bs)
    have hup := Mach.warp_updWarp_self (m := m1) (fun w => writeRegs w q.sc d i (extended z bs)) hh1
    have t3 : Touched k m1 (m1.updWarp k (fun w => writeRegs w q.sc d i (extended z bs))) := by
      apply touched_updWarp hh1 <;> rw [hw.1] <;> rfl
    have hms : ∀ (l : Loc) c, (m1.updWarp k (fun w => writeRegs w q.sc d i (extended z bs))).mayServe k l c → m1.mayServe k l c := by
      intro l c ⟨a1, a2, a3⟩
      rw [t3.blockOf] at a2
      refine ⟨a1, a2, ?_⟩
      rw [hup, hw.1] at a3
      exact a3
    obtain ⟨m', src, r1, r9, r10, -, r2, r3, r4, r5, r6, r7, r8⟩ := ih (fun e he => hls e (List.mem_cons_of_mem _ he))
      (fun e he e' he' => hsame e (List.mem_cons_of_mem _ he) e' (List.mem_cons_of_mem _ he')) (Map.ins seen (l.key / 64) src0)
      (m1.updWarp k (fun w => writeRegs w q.sc d i (extended z bs))) (h0.trans (t2.toTouched.trans t3)) (t3.here hh1)
      (by
        intro e he c hn hc
        by_cases hsec : e.2.key / 64 = l.key / 64
        · rw [hsec, Map.find?_ins_self] at hn; cases hn
        · rw [Map.find?_ins_ne _ _ hsec] at hn
          exact hserve e (List.mem_cons_of_mem _ he) c hn (t2.mayServe hsec (hms _ _ hc)))
      (by
        intro e he b hn
        by_cases hsec : e.2.key / 64 = l.key / 64
        · rw [hsec, Map.find?_ins_self] at hn
          obtain ⟨g1, c, ⟨g2, g3, g4⟩, g5⟩ := hgood b (Option.some.inj hn)
          exact ⟨g1, c, ⟨(hsame e (List.mem_cons_of_mem _ he) (i, l) List.mem_cons_self).trans g2, by rw [hsec]; exact g3, g4⟩, g5⟩
        · rw [Map.find?_ins_ne _ _ hsec] at hn
          exact hseen e (List.mem_cons_of_mem _ he) b hn)
    have hsrcl : src (l.key / 64) = src0 := r9 _ _ (Map.find?_ins_self _ _ _)
    have hbl : laneBytes m0 k (accessBytes z) src l = bs := by rw [← hbs]; unfold laneBytes; rw [hsrcl]
    refine ⟨m', src, r1, ?_, ?_, ?_, t2.toTouched.trans (t3.trans r2), ?_, ?_, ?_, ?_, ?_, ?_⟩
    · intro n x hx
      by_cases hn : n = l.key / 64
      · subst hn
        rw [hsrcl, ← hsrc, hx]; rfl
      · exact r9 n x (by rw [Map.find?_ins_ne _ _ hn]; exact hx)
    · intro e he b hb
      rcases List.mem_cons.1 he with rfl | he
      · exact hgood b (hsrcl.symm.trans hb)
      · exact r10 e he b hb
    · intro e he hn hc
      cases he
      rw [hsrcl, ← hsrc, hn, hc]; rfl
    · rw [r3, hup, hw.1, t2.warpEq]
    · rw [r4]; exact t2.ops
    · rw [r5, hup, hw.1, t2.warpEq]
    · rw [r6, hup, hw.1, t2.warpEq]
    all_goals
      have hc := writeRegs_congr (m.warp k) (m1.warp k) (by rw [t2.warpEq]) (by rw [t2.warpEq]) (by rw [t2.warpEq]) q.sc d i (extended z bs)
      have hcc := loadedWarp_congr (bytes := laneBytes m0 k (accessBytes z) src) (sc := q.sc) (d := d) (z := z) ls
        (writeRegs (m.warp k) q.sc d i (extended z bs)) (writeRegs (m1.warp k) q.sc d i (extended z bs)) hc.1 hc.2
        (by rw [(writeRegs_keeps (m1.warp k) _ _ _ _).1, (writeRegs_keeps (m.warp k) _ _ _ _).1, t2.warpEq])
    · rw [r7, hup, hcc.1]
      conv_rhs => unfold loadedWarp
      rw [List.foldl_cons]
      dsimp only
      rw [hbl]
      rfl
    · rw [r8, hup, hcc.2]
      conv_rhs => unfold loadedWarp
      rw [List.foldl_cons]
      dsimp only
      rw [hbl]
      rfl

theorem bind_ok {ε α β : Type} {x : Except ε α} {f : α → Except ε β} {b : β} (h : x >>= f = .ok b) : ∃ a, x = .ok a ∧ f a = .ok b := by
  cases x with
  | error e => cases h
  | ok a => exact ⟨a, rfl, h⟩

theorem oks_lanes (rs : List ((Nat × Nat) × Except AccFail Loc)) (h : ∀ r ∈ rs, ∃ l, r.2 = .ok l) :
    (rs.filterMap (fun r => match r.2 with | .ok l => some (r.1.1, l) | .error _ => none)).map (·.1) = rs.map (·.1.1) := by
  induction rs with
  | nil => rfl
  | cons a l ih =>
    obtain ⟨x, hx⟩ := h a List.mem_cons_self
    rw [List.filterMap_cons, List.map_cons, ← ih (fun r hr => h r (List.mem_cons_of_mem _ hr))]
    rw [hx]
    rfl

/-- The places of an access belong to its lanes, in their order. -/
theorem places_lanes {m : Mach} {bk : Nat} {f : FaultInfo} {h : Nat} {u : Use} {acc : Acc} {code n al : Nat} {lanes : List (Nat × Nat)}
    {ls : List (Nat × Loc)} (hp : places m bk f h u acc code n al lanes = .ok ls) : ls.map (·.1) = lanes.map (·.1) := by
  unfold places at hp
  split at hp
  · rename_i he
    cases hp
    have : lanes = [] := by simpa using he
    rw [this]; rfl
  · obtain ⟨eo, h1, h2⟩ := bind_ok hp
    cases eo with
    | none => cases h2
    | some e =>
      dsimp only at h2
      split at h2
      · cases h2
      · split at h2
        · cases h2
        · rename_i hf
          cases h2
          have hnone : ∀ r ∈ lanes.map (fun l => (l, place m bk e h acc l.2 n al u)), ∃ l, r.2 = .ok l := by
            intro r hr
            cases hx : r.2 with
            | ok l => exact ⟨l, rfl⟩
            | error x =>
              exfalso
              have hne : (r.1.1, r.1.2, x) ∈ (lanes.map (fun l => (l, place m bk e h acc l.2 n al u))).filterMap
                  (fun r => match r.2 with | .error x => some (r.1.1, r.1.2, x) | .ok _ => none) := by
                rw [List.mem_filterMap]
                exact ⟨r, hr, by rw [hx]⟩
              unfold failLanes at hf
              split at hf
              · rename_i hm
                have hmb : ∀ (l : List (Nat × Nat × AccFail)), minBy (fun x => x.2.2.rank) l = none → l = [] := by
                  intro l
                  cases l with
                  | nil => intro _; rfl
                  | cons a l =>
                    intro h
                    unfold minBy at h
                    split at h
                    · cases h
                    · split at h <;> cases h
                exact List.ne_nil_of_mem hne (hmb _ hm)
              · dsimp only at hf
                split at hf <;> cases hf
          refine (oks_lanes _ hnone).trans ?_
          rw [List.map_map]
          rfl

theorem memPlaces_lanes {q : Req} {m : Mach} {k g o h : Nat} {u : Use} {acc : Acc} {code n : Nat} {ls : List (Nat × Loc)}
    (hp : memPlaces q m k g o h u acc code n = .ok ls) :
    (q.sc = 0 → ls.map (·.1) = lanesOf (active (m.warp k) g)) ∧
    (q.sc ≠ 0 → ls = [] ∨ ∃ l, ls = [(0, l)]) := by
  unfold memPlaces at hp
  obtain ⟨lanes, h1, h2⟩ := bind_ok hp
  have h3 := places_lanes h2
  constructor
  · intro h0
    unfold memLanes at h1
    rw [if_pos h0] at h1
    cases h1
    rw [h3, List.map_map]
    simp [Function.comp_def]
  · intro h0
    unfold memLanes at h1
    rw [if_neg h0] at h1
    split at h1
    · cases h1
    · cases h1
      left
      simpa using h3
    · cases h1
      right
      match ls, h3 with
      | [(a, l)], h3 => simp at h3; subst h3; exact ⟨l, rfl⟩

theorem fireSample_touched (m : Mach) (k : Nat) (hh : (Map.find? m.warps k).isSome = true) (b : Bool) (i la ma se : Nat) :
    Touched k m (fireSample m k b i la ma se) ∧ ((m.warp k).sample = none → fireSample m k b i la ma se = m) ∧
    (fireSample m k b i la ma se).warp k = { m.warp k with sample := none } := by
  unfold fireSample
  cases hs : (m.warp k).sample with
  | none =>
    refine ⟨Touched.refl _ _, fun _ => rfl, ?_⟩
    dsimp only
    rw [← hs]
  | some x =>
    dsimp only
    have gen : ∀ (ops : List (Nat × Op)), Touched k m (({ m.tickOn with ops := ops } : Mach).updWarp k (fun w => { w with sample := none })) ∧
        (({ m.tickOn with ops := ops } : Mach).updWarp k (fun w => { w with sample := none })).warp k = { m.warp k with sample := none } := by
      intro ops
      constructor
      · have t1 : Touched k m { m.tickOn with ops := ops } := ⟨rfl, fun _ _ => rfl, id, rfl, rfl, rfl⟩
        exact t1.trans (touched_updWarp (f := fun w => { w with sample := none }) hh rfl rfl rfl)
      · exact Mach.warp_updWarp_self _ hh
    exact ⟨(gen _).1, (by intro h; cases h), (gen _).2⟩

theorem countBanks_touched (m : Mach) (q : Req) (k n : Nat) (ls : List (Nat × Loc)) :
    Touched k m (countBanks m q k n ls) ∧ (countBanks m q k n ls).warp k = m.warp k ∧ (countBanks m q k n ls).ops = m.ops := by
  unfold countBanks
  dsimp only
  split
  · exact ⟨Touched.refl _ _, rfl, rfl⟩
  · exact ⟨count_touched _ _ _ _ _, rfl, rfl⟩

theorem sampleMem_touched (m : Mach) (q : Req) (k i n : Nat) (ls : List (Nat × Loc)) (hh : (Map.find? m.warps k).isSome = true) :
    Touched k m (sampleMem m q k i n ls) ∧ ((m.warp k).sample = none → (sampleMem m q k i n ls).ops = m.ops) ∧
    (sampleMem m q k i n ls).warp k = { m.warp k with sample := none } := by
  obtain ⟨c1, c2, c3⟩ := countBanks_touched m q k n ls
  unfold sampleMem
  dsimp only
  generalize countBanks m q k n ls = m1 at c1 c2 c3 ⊢
  obtain ⟨h1, h2, h3⟩ := fireSample_touched m1 k (c1.here hh) true i
    (if i = 1 then 0xFF else (ls.map (·.1)).getD ((Config.freeWord 6 m.tick).toNat % (ls.map (·.1)).length) 0xFF)
    (if q.sc = 0 then maskOf (ls.map (·.1)) else if (ls.map (·.1)).isEmpty then 0 else (m.warp k).live).toNat
    (distinct (ls.map (fun l => l.2.key / 64)))
  refine ⟨c1.trans h1, fun h => ?_, ?_⟩
  · rw [h2 (by rw [c2]; exact h)]; exact c3
  · rw [h3, c2]

theorem loadedWarp_keeps (bytes : Loc → List Byte) (sc d z : Nat) (ls : List (Nat × Loc)) (w : Warp) :
    (sc = 0 → (loadedWarp bytes sc d z ls w).s = w.s) ∧ (sc ≠ 0 → (loadedWarp bytes sc d z ls w).v = w.v) ∧
    (loadedWarp bytes sc d z ls w).trap = w.trap := by
  unfold loadedWarp
  induction ls generalizing w with
  | nil => exact ⟨fun _ => rfl, fun _ => rfl, rfl⟩
  | cons e ls ih =>
    rw [List.foldl_cons]
    obtain ⟨h1, h2, h3⟩ := ih (writeRegs w sc d e.1 (extended z (bytes e.2)))
    obtain ⟨w1, w2, w3⟩ := writeRegs_keeps w sc d e.1 (extended z (bytes e.2))
    refine ⟨fun h => (h1 h).trans (w2 h), fun h => (h2 h).trans (w3 h), h3.trans ?_⟩
    rw [w1]

theorem extended_length (z : Nat) (hz : z < 7) (bs : List Byte) : (extended z bs).length = regsOf z := by
  unfold extended
  interval_cases z <;> simp [wordsOfBytes, regsOf, accessBytes]

theorem loadedWarp_v (bytes : Loc → List Byte) (d z : Nat) (hz : z < 7) (ls : List (Nat × Loc)) (hn : (ls.map (·.1)).Nodup)
    (h32 : ∀ e ∈ ls, e.1 < 32) (w : Warp) (r n : Nat) (hr : n < 32) :
    (∀ e ∈ ls, n = e.1 → d ≤ r → r < d + regsOf z →
      (loadedWarp bytes 0 d z ls w).getV r n = (extended z (bytes e.2)).getD (r - d) 0) ∧
    ((¬ (d ≤ r ∧ r < d + regsOf z) ∨ n ∉ ls.map (·.1)) → (loadedWarp bytes 0 d z ls w).getV r n = w.getV r n) := by
  unfold loadedWarp
  induction ls generalizing w with
  | nil => exact ⟨by simp, fun _ => rfl⟩
  | cons a ls ih =>
    rw [List.map_cons, List.nodup_cons] at hn
    obtain ⟨i1, i2⟩ := ih hn.2 (fun e he => h32 e (List.mem_cons_of_mem _ he)) (writeRegs w 0 d a.1 (extended z (bytes a.2)))
    have hw := writeRegs_v w d a.1 (extended z (bytes a.2)) (h32 a List.mem_cons_self) r n hr
    rw [extended_length z hz] at hw
    rw [List.foldl_cons]
    constructor
    · intro e he hne h1 h2
      rcases List.mem_cons.1 he with rfl | he
      · rw [i2 (.inr (by rw [hne]; exact hn.1)), hw, if_pos ⟨hne, h1, h2⟩]
      · exact i1 e he hne h1 h2
    · intro h
      rw [i2 (by
        rcases h with h | h
        · exact .inl h
        · exact .inr (fun hc => h (List.mem_cons_of_mem _ hc)))]
      rw [hw, if_neg]
      rintro ⟨h1, h2, h3⟩
      rcases h with h | h
      · exact h ⟨h2, h3⟩
      · exact h (by rw [h1]; exact List.mem_cons_self)

theorem loadedWord_eq (z : Nat) (hz : z < 7) (bs : List Byte) (j : Nat) (hj : j < regsOf z) (hl : bs.length = accessBytes z) :
    (extended z bs).getD j 0 = loadedWord z bs j := by
  unfold loadedWord extended
  interval_cases z <;> simp only [regsOf, accessBytes] at hj hl
  all_goals try (simp [wordsOfBytes, regsOf, accessBytes]; done)
  all_goals try (simp only [wordsOfBytes, regsOf, accessBytes]; rw [List.getD_eq_getElem?_getD, List.getElem?_map, List.getElem?_range (by omega)]; rfl)
  · have : j = 0 := by omega
    subst this
    simp only [Nat.mul_zero, List.drop_zero]
    rw [List.take_of_length_le (by omega)]
    rfl
  · have : j = 0 := by omega
    subst this
    simp only [Nat.mul_zero, List.drop_zero]
    rw [List.take_of_length_le (by omega)]
    rfl

theorem loadBytes_length (m : Mach) (pail : List Held) (key n : Nat) : (m.loadBytes pail key n).length = n := by
  unfold Mach.loadBytes; split <;> simp

theorem issue_mach {q : Req} {s : State} {m : Mach} {ms : List Nat} (hq : q.sc < 2) (hg : Goes q s m ms)
    {body : Mach → List Nat → Except Stop Mach} {m2 : Mach} (hb : body m ms = .ok m2) :
    issue q body s = .next { s with m := retire q m2 [s.cur] } := by
  obtain ⟨rfl, -⟩ := admission_low hq hg.admitted
  unfold issue
  rw [if_pos hg.may, goes_issueWith hg _ hb]

theorem issueTo_mach {q : Req} {s : State} {m : Mach} {ms : List Nat} (hg : Goes q s m ms)
    {body : Mach → List Nat → Except Stop Mach} {m2 : Mach} (hb : body m ms = .ok m2) :
    issueTo q body s = .next { s with m := m2 } := by
  unfold issueTo
  rw [if_pos hg.may, goes_issueWith hg _ hb]

theorem goes_paths {q : Req} {s : State} {m : Mach} {ms : List Nat} (hq : q.sc < 2) (hg : Goes q s m ms) :
    (m.warp s.cur).paths ≠ [] := by
  obtain ⟨rfl, ha⟩ := admission_low hq hg.admitted
  exact ha.some hg.paths

/-- The current warp has gone on where a body left its paths as the checks did. -/
theorem goesOn_of {q : Req} {s : State} {m : Mach} {w : Warp} (hA : Admitted q s.cur s.m m)
    (hp : w.paths = (m.warp s.cur).paths) (hne : (m.warp s.cur).paths ≠ []) (q' : Req) (b : Bool) :
    GoesOn s.me (w.ended q' b) q'.words := by
  have hg := ended_goesOn q' b (w := w) (by rw [hp]; exact hne)
  have e : w.path = (m.warp s.cur).path := by unfold Warp.path; rw [hp]
  constructor
  · rw [show s.me.path.pc = w.path.pc by rw [e]; exact hA.pc.symm]; exact hg.among
  · rw [show s.me.path.pc = w.path.pc by rw [e]; exact hA.pc.symm, show s.me.path.turn = w.path.turn by rw [e]; exact hA.turn.symm]
    exact hg.current

theorem observeReads_none (w : Warp) : observeReads w [] = w := by
  unfold observeReads
  have : w.futs.filter (fun e => e.2.status.isSome && e.2.reg.any (fun r => ([] : List Nat).any (fun f => w.sKey f == r))) = [] := by
    rw [List.filter_eq_nil_iff]
    intro a _
    cases a.2.reg <;> simp
  dsimp only
  rw [this]
  rfl

/-- A retirement that reads no scalar register leaves the timestamp. -/
theorem ended_pts {q : Req} (h : q.srcs = []) (b : Bool) (w : Warp) : (w.ended q b).pts = w.pts := by
  rw [ended_eq]
  dsimp only
  unfold retireWarp
  rw [h, observeReads_none]
  simp only [ite_self]
  rw [consume_rest]

theorem memRest_of_rest {m m' : Mach} (h : m'.rest = m.rest) : m'.memRest = m.memRest := by
  unfold Mach.memRest; rw [h]

theorem others_upd (m : Mach) (k : Nat) (f : Warp → Warp) : sameOthers k m (m.updWarp k f) := fun _ hj => Map.find?_upd_ne _ _ hj

theorem others_trans {k : Nat} {a b c : Mach} (h : sameOthers k a b) (g : sameOthers k b c) : sameOthers k a c :=
  fun j hj => (g j hj).trans (h j hj)

/-- What memory instructions leave of the machine. -/
structure Acc1 (k : Nat) (m m' : Mach) : Prop where
  rest : m'.storeRest = m.storeRest
  others : sameOthers k m m'
  here : (Map.find? m.warps k).isSome = true → (Map.find? m'.warps k).isSome = true
  warp : (m'.warp k).memRest = (m.warp k).memRest
  paths : (m'.warp k).paths = (m.warp k).paths
  demot : (m'.warp k).demot = (m.warp k).demot
  ops : (m.warp k).sample = none → m'.ops = m.ops ∧ (m'.warp k).sample = none
  p : (m'.warp k).p = (m.warp k).p
  fflags : (m'.warp k).fflags = (m.warp k).fflags

structure Wrote (k : Nat) (m m' : Mach) : Prop extends Acc1 k m m' where
  blocks : m'.blocks = m.blocks

theorem Acc1.refl (k : Nat) (m : Mach) : Acc1 k m m := ⟨rfl, fun _ _ => rfl, id, rfl, rfl, rfl, fun h => ⟨rfl, h⟩, rfl, rfl⟩

theorem Acc1.trans {k : Nat} {a b c : Mach} (h : Acc1 k a b) (g : Acc1 k b c) : Acc1 k a c :=
  ⟨g.rest.trans h.rest, fun j hj => (g.others j hj).trans (h.others j hj), fun x => g.here (h.here x), g.warp.trans h.warp,
    g.paths.trans h.paths, g.demot.trans h.demot, fun x => ⟨(g.ops (h.ops x).2).1.trans (h.ops x).1, (g.ops (h.ops x).2).2⟩,
    g.p.trans h.p, g.fflags.trans h.fflags⟩

theorem Wrote.refl (k : Nat) (m : Mach) : Wrote k m m := ⟨Acc1.refl k m, rfl⟩

theorem Wrote.trans {k : Nat} {a b c : Mach} (h : Wrote k a b) (g : Wrote k b c) : Wrote k a c :=
  ⟨h.toAcc1.trans g.toAcc1, g.blocks.trans h.blocks⟩

theorem Wrote.blockOf {k : Nat} {m m' : Mach} (h : Wrote k m m') : m'.blockOf k = m.blockOf k := by
  have hb : (m'.warp k).block = (m.warp k).block := by
    have := congrArg Warp.block h.warp; exact this
  unfold Mach.blockOf Mach.block
  rw [hb, h.blocks]

theorem acc1_upd {k : Nat} {m : Mach} {f : Warp → Warp} (hh : (Map.find? m.warps k).isSome = true)
    (h1 : (f (m.warp k)).memRest = (m.warp k).memRest) (h2 : (f (m.warp k)).paths = (m.warp k).paths)
    (h3 : (f (m.warp k)).demot = (m.warp k).demot) (h4 : (f (m.warp k)).sample = (m.warp k).sample)
    (h5 : (f (m.warp k)).p = (m.warp k).p) (h6 : (f (m.warp k)).fflags = (m.warp k).fflags) : Wrote k m (m.updWarp k f) := by
  refine ⟨⟨rfl, fun j hj => Map.find?_upd_ne _ _ hj, ?_, ?_, ?_, ?_, ?_, ?_, ?_⟩, rfl⟩
  · intro _; unfold Mach.updWarp; rw [Map.find?_upd_self]; simpa using hh
  all_goals rw [Mach.warp_updWarp_self _ hh]
  · exact h1
  · exact h2
  · exact h3
  · intro h; exact ⟨rfl, h4.trans h⟩
  · exact h5
  · exact h6

theorem stampStore_wrote (k key : Nat) (m : Mach) : Wrote k m (m.stampStore k key) ∧ (m.stampStore k key).mem = m.mem ∧
    (m.stampStore k key).poison = m.poison ∧ ((m.stampStore k key).warp k).v = (m.warp k).v ∧
    ((m.stampStore k key).warp k).s = (m.warp k).s := by
  unfold Mach.stampStore
  split
  · exact ⟨Wrote.refl _ _, rfl, rfl, rfl, rfl⟩
  · dsimp only
    refine ⟨⟨⟨rfl, ?_, ?_, ?_, ?_, ?_, ?_, ?_, ?_⟩, rfl⟩, rfl, rfl, ?_, ?_⟩
    · intro j hj; exact Map.find?_ins_ne _ _ hj
    · intro _; simp [Mach.setWarp]
    all_goals rw [Mach.warp_setWarp_self]
    · rfl
    · intro h; exact ⟨rfl, h⟩

theorem perform_wrote (k key : Nat) (bs : List Byte) (m : Mach) (hk : isSelf key = false) : Wrote k m (m.perform k key bs) ∧
    (m.perform k key bs).mem = Mem.write m.mem key bs ∧ (∃ lo hi, (m.perform k key bs).poison = Map.dropRange m.poison lo hi) ∧
    ((m.perform k key bs).warp k).v = (m.warp k).v ∧ ((m.perform k key bs).warp k).s = (m.warp k).s := by
  obtain ⟨h1, h2, h3, h4, h5⟩ := stampStore_wrote k key m
  have e : m.perform k key bs = (m.stampStore k key).poke key bs := by unfold Mach.perform; rw [if_neg (by simp [hk])]
  rw [e]
  refine ⟨⟨⟨h1.rest, h1.others, h1.here, h1.warp, h1.paths, h1.demot, h1.ops, h1.p, h1.fflags⟩, h1.blocks⟩, ?_, ?_, h4, h5⟩
  · unfold Mach.poke; dsimp only; rw [h2]
  · unfold Mach.poke
    dsimp only
    split
    · exact ⟨_, _, by rw [h3]⟩
    · refine ⟨0, 0, ?_⟩
      rw [h3]; unfold Map.dropRange; simp

/-- A store to a place at this package's own node sends its message and does nothing else. -/
theorem perform_self (k key : Nat) (bs : List Byte) (m : Mach) (hk : isSelf key = true) :
    m.perform k key bs = { m with sent := m.sent ++ m.ownMessage key bs } := by
  unfold Mach.perform Mach.sendSelf Mach.ownMessage
  rw [if_pos hk]
  dsimp only
  cases Map.find? m.exports (key / 2 ^ 67 % 4096) with
  | none => simp
  | some x =>
    by_cases hc : x.typ = 2 ∧ m.admits x selfNode = true
    · simp only [if_pos hc]
    · simp only [if_neg hc, List.append_nil]

theorem isSelf_external {key : Nat} (h : isExternal key = false) : isSelf key = false := by
  unfold isExternal at h
  unfold isSelf
  simp only [Bool.or_eq_false_iff] at h
  rw [h.2]
  rfl

theorem sampleMem_acc1 (m : Mach) (q : Req) (k i n : Nat) (ls : List (Nat × Loc)) (hh : (Map.find? m.warps k).isSome = true) :
    Wrote k m (sampleMem m q k i n ls) ∧ (sampleMem m q k i n ls).mem = m.mem ∧ (sampleMem m q k i n ls).poison = m.poison ∧
    ((sampleMem m q k i n ls).warp k).v = (m.warp k).v ∧ ((sampleMem m q k i n ls).warp k).s = (m.warp k).s := by
  obtain ⟨h1, h2, h3⟩ := sampleMem_touched m q k i n ls hh
  have hr : (sampleMem m q k i n ls).storeRest = m.storeRest := by unfold Mach.storeRest; rw [h1.rest]
  refine ⟨⟨⟨hr, h1.others, h1.here, h1.warp, h1.paths, h1.demot, ?_, ?_, ?_⟩, h1.blocks⟩, h1.mem, h1.poison, ?_, ?_⟩
  · intro h; exact ⟨h2 h, by rw [h3]⟩
  all_goals rw [h3]

theorem usedOrder_acc1 (m : Mach) (k : Nat) : Wrote k m (usedOrder m) := ⟨⟨rfl, fun _ _ => rfl, id, rfl, rfl, rfl, fun h => ⟨rfl, h⟩, rfl, rfl⟩, rfl⟩

theorem admitted_acc1 {q : Req} {k : Nat} {m m' : Mach} (h : Admitted q k m m') :
    m'.storeRest = m.storeRest ∧ m'.mem = m.mem ∧ m'.poison = m.poison ∧ m'.blocks = m.blocks ∧ m'.ops = m.ops ∧ m'.rest = m.rest := by
  refine ⟨?_, ?_, ?_, ?_, ?_, ?_⟩
  all_goals rw [h.machine]
  all_goals rfl

theorem warp_after {m m' : Mach} {k : Nat} (h : m'.warps = m.warps) : m'.warp k = m.warp k := by unfold Mach.warp; rw [h]

/-- The current warp after its retirement. -/
theorem warp_retired {q : Req} {m : Mach} {k : Nat} (hh : (Map.find? m.warps k).isSome = true) :
    (retire q m [k]).warp k = (m.warp k).ended q (k == m.lead q.sc k) := by
  rw [retire_one, Mach.warp_updWarp_self _ (by rw [countReuse_warps]; exact hh), warp_after (countReuse_warps q m k)]

/-- What the retirement of one warp leaves of the machine. -/
theorem retire_mach (q : Req) (m : Mach) (k : Nat) :
    (retire q m [k]) = { m with warps := (retire q m [k]).warps, ctxs := (retire q m [k]).ctxs } ∧
    (retire q m [k]).rest = m.rest ∧ sameOthers k m (retire q m [k]) := by
  rw [retire_one]
  refine ⟨?_, ?_, ?_⟩
  · unfold countReuse; split <;> rfl
  · rw [Mach.updWarp_rest, countReuse_rest]
  · intro j hj
    unfold Mach.updWarp
    rw [Map.find?_upd_ne _ _ hj, countReuse_warps]

/-- What is left to say of a memory instruction once its body is known, which may have sent messages to this package's own node. -/
theorem finish_sent {q : Req} {s : State} {m : Mach} {ms : List Nat} (hq : q.sc < 2) (hg : Goes q s m ms)
    {body : Mach → List Nat → Except Stop Mach} {m2 : Mach} (hb : body m [s.cur] = .ok m2) (ha : Acc1 s.cur m { m2 with sent := m.sent }) :
    ∃ t, issue q body s = .next t ∧ Accessed s t ∧ { t.m.storeRest with sent := s.m.sent } = s.m.storeRest ∧
      t.m = { m2 with warps := t.m.warps, ctxs := t.m.ctxs } ∧ t.m.rest = m2.rest ∧
      t.me.v = (m2.warp s.cur).v ∧ t.me.s = (m2.warp s.cur).s ∧ t.me.p = s.me.p ∧ t.me.fflags = s.me.fflags ∧
      t.me.demot = s.me.demot ∧ GoesOn s.me t.me q.words ∧ (q.srcs = [] → t.me.pts = (m2.warp s.cur).pts) ∧
      t.cur = s.cur ∧ t.me.block = s.me.block ∧ t.me.trap = s.me.trap := by
  obtain ⟨rfl, hA, hh⟩ := goes_values hq hg
  have hh2 := ha.here hh
  have hme : State.me { s with m := retire q m2 [s.cur] } = (m2.warp s.cur).ended q (s.cur == m2.lead q.sc s.cur) := warp_retired hh2
  have hwr : (m2.warp s.cur).memRest = s.me.memRest := ha.warp.trans (hA.keeps Warp.memRest fun _ _ _ => rfl)
  have her : ((m2.warp s.cur).ended q (s.cur == m2.lead q.sc s.cur)).memRest = (m2.warp s.cur).memRest := by
    unfold Warp.memRest; rw [ended_rest]
  obtain ⟨r1, r2, r3⟩ := retire_mach q m2 s.cur
  obtain ⟨A1, A2, A3, A4, A5, A6⟩ := admitted_acc1 hA
  have hsr : (retire q m2 [s.cur]).storeRest = m2.storeRest := by unfold Mach.storeRest Mach.memRest; rw [r2]
  refine ⟨_, issue_mach hq hg hb, ⟨rfl, rfl, rfl, ?_, ?_, ?_⟩, ?_, r1, r2, ?_, ?_, ?_, ?_, ?_, ?_, ?_, rfl, ?_, ?_⟩
  · exact others_trans hA.others (others_trans ha.others r3)
  · rw [hme, her, hwr]
  · intro hn
    dsimp only
    rw [r1]
    exact (ha.ops ((hA.keeps Warp.sample fun _ _ _ => rfl).trans hn)).1.trans A5
  · dsimp only
    rw [hsr, ← A1, ← ha.rest, show s.m.sent = m.sent from (congrArg Mach.sent A1 : _).symm]
    rfl
  · rw [hme, ended_v]
  · rw [hme, ended_s]
  · rw [hme, ended_p]; exact ha.p.trans (hA.keeps Warp.p fun _ _ _ => rfl)
  · rw [hme, ended_fflags]; exact ha.fflags.trans (hA.keeps Warp.fflags fun _ _ _ => rfl)
  · rw [hme, ended_demot]; exact ha.demot.trans (hA.keeps Warp.demot fun _ _ _ => rfl)
  · rw [hme]; exact goesOn_of hA ha.paths (goes_paths hq hg) q _
  · intro h; rw [hme, ended_pts h]
  · rw [hme]; exact (congrArg Warp.block (her.trans hwr) : _)
  · rw [hme]; exact (congrArg Warp.trap (her.trans hwr) : _)

/-- What is left to say of a memory instruction that sends no message once its body is known. -/
theorem finish {q : Req} {s : State} {m : Mach} {ms : List Nat} (hq : q.sc < 2) (hg : Goes q s m ms)
    {body : Mach → List Nat → Except Stop Mach} {m2 : Mach} (hb : body m [s.cur] = .ok m2) (ha : Acc1 s.cur m m2) :
    ∃ t, issue q body s = .next t ∧ Accessed s t ∧ t.m.storeRest = s.m.storeRest ∧
      t.m = { m2 with warps := t.m.warps, ctxs := t.m.ctxs } ∧ t.m.rest = m2.rest ∧
      t.me.v = (m2.warp s.cur).v ∧ t.me.s = (m2.warp s.cur).s ∧ t.me.p = s.me.p ∧ t.me.fflags = s.me.fflags ∧
      t.me.demot = s.me.demot ∧ GoesOn s.me t.me q.words ∧ (q.srcs = [] → t.me.pts = (m2.warp s.cur).pts) ∧
      t.cur = s.cur ∧ t.me.block = s.me.block ∧ t.me.trap = s.me.trap := by
  have h2 : m2.sent = m.sent := (congrArg Mach.sent ha.rest : _)
  have h1 : m.sent = s.m.sent := by
    obtain ⟨-, hA, -⟩ := goes_values hq hg
    exact (congrArg Mach.sent (admitted_acc1 hA).1 : _)
  have e : { m2 with sent := m.sent } = m2 := by rw [← h2]
  obtain ⟨t, t1, t2, t3, t4, t5⟩ := finish_sent hq hg hb (e.symm ▸ ha)
  refine ⟨t, t1, t2, ?_, t4, t5⟩
  rw [← t3, show s.m.sent = t.m.storeRest.sent from ?_]
  rw [show t.m.storeRest.sent = t.m.sent from rfl, t4]
  exact (h2.trans h1).symm

theorem poisonAt_drop {m m' : Mach} {lo hi : Nat} (h : m'.poison = Map.dropRange m.poison lo hi) {key n : Nat}
    (h0 : m.poisonAt key n = none) : m'.poisonAt key n = none := by
  unfold Mach.poisonAt at *
  rw [h]
  simp only [Option.map_eq_none_iff, List.head?_eq_none_iff] at *
  unfold Map.range Map.dropRange at *
  rw [List.filter_filter]
  rw [List.filter_eq_nil_iff] at h0 ⊢
  intro a ha hc
  simp only [Bool.and_eq_true] at hc
  exact h0 a ha (by simpa using hc.1)

theorem read_write (mem : List Host.Cell) (key : Nat) (bs : List Byte) (a : Nat) :
    Mem.read (Mem.write mem key bs) a = if key ≤ a ∧ a < key + bs.length then bs.getD (a - key) 0 else Mem.read mem a := by
  split
  · rename_i h
    have := Mem.read_write_self mem key bs (i := a - key) (by omega)
    rw [show key + (a - key) = a by omega] at this
    exact this
  · exact Mem.read_write_ne mem key bs (by omega)

theorem getD_bytesOfNat (n x j : Nat) (h : j < n) : (bytesOfNat n x).getD j 0 = BitVec.ofNat 8 (x / 2 ^ (8 * j)) := by
  induction n generalizing x j with
  | zero => omega
  | succ n ih =>
    cases j with
    | zero => simp [bytesOfNat]
    | succ j =>
      rw [bytesOfNat, List.getD_cons_succ, ih _ _ (by omega), Nat.div_div_eq_div_mul]
      congr 2
      rw [show 8 * (j + 1) = 8 + 8 * j by ring, pow_add]
      norm_num

theorem bytesOfNat_length (n x : Nat) : (bytesOfNat n x).length = n := by
  induction n generalizing x with
  | zero => rfl
  | succ n ih => simp [bytesOfNat, ih]

theorem natOfBytes_bytesOfNat (n x : Nat) : natOfBytes (bytesOfNat n x) = x % 256 ^ n := by
  induction n generalizing x with
  | zero => simp [bytesOfNat, natOfBytes, Nat.mod_one]
  | succ n ih =>
    rw [bytesOfNat, natOfBytes, ih, pow_succ, Nat.mul_comm (256 ^ n), Nat.mod_mul]
    simp

theorem natOfBytes_append (a b : List Byte) : natOfBytes (a ++ b) = natOfBytes a + 256 ^ a.length * natOfBytes b := by
  induction a with
  | nil => simp [natOfBytes]
  | cons x a ih => simp [natOfBytes, ih, pow_succ]; ring

theorem bytesOfNat_natOfBytes (bs : List Byte) : bytesOfNat bs.length (natOfBytes bs) = bs := by
  induction bs with
  | nil => rfl
  | cons b bs ih =>
    have hb := b.isLt
    rw [List.length_cons, bytesOfNat, natOfBytes]
    have h1 : (b.toNat + 256 * natOfBytes bs) / 256 = natOfBytes bs := by omega
    rw [h1, ih]
    congr 1
    apply BitVec.eq_of_toNat_eq
    simp
    exact hb

theorem natOfBytes_inj {a b : List Byte} (hl : a.length = b.length) : natOfBytes a = natOfBytes b ↔ a = b := by
  constructor
  · intro h
    rw [← bytesOfNat_natOfBytes a, ← bytesOfNat_natOfBytes b, h, hl]
  · rintro rfl; rfl

theorem natOfBytes_lt (bs : List Byte) : natOfBytes bs < 256 ^ bs.length := by
  induction bs with
  | nil => simp [natOfBytes]
  | cons b bs ih =>
    have := b.isLt
    simp only [natOfBytes, List.length_cons, pow_succ]
    omega

theorem regs_value (w : Warp) (sc : BitVec 1) (d i n : Nat) :
    natOfBytes (bytesOfWords (readRegs w sc.toNat d i n)) = regValue w sc d i n ∧
    (bytesOfWords (readRegs w sc.toNat d i n)).length = 4 * n := by
  have hsc : ∀ j, (if sc.toNat = 0 then w.src (d + j) i else w.getS (d + j)) = (if sc = 0 then w.src (d + j) i else w.getS (d + j)) := by
    intro j
    congr 1
    rw [eq_iff_iff]
    constructor
    · intro h; apply BitVec.eq_of_toNat_eq; simpa using h
    · rintro rfl; rfl
  unfold readRegs regValue bytesOfWords
  simp only [hsc]
  induction n with
  | zero => simp [natOfBytes]
  | succ n ih =>
    rw [List.range_succ, List.map_append, List.flatMap_append, natOfBytes_append, List.map_append, List.sum_append, List.length_append]
    obtain ⟨h1, h2⟩ := ih
    rw [h1, h2]
    simp only [List.map_cons, List.map_nil, List.flatMap_cons, List.flatMap_nil, List.append_nil, List.sum_cons, List.sum_nil, Nat.add_zero,
      natOfBytes_bytesOfNat, bytesOfNat_length]
    constructor
    · have : (if sc = 0 then w.src (d + n) i else w.getS (d + n)).toNat < 2 ^ 32 := BitVec.isLt _
      rw [Nat.mod_eq_of_lt (by simpa using this), show (256 : Nat) ^ (4 * n) = 2 ^ (32 * n) by rw [show (256:Nat) = 2 ^ 8 by norm_num, ← pow_mul]; congr 1; ring]
      ring
    · ring

theorem storedByte_eq (w : Warp) (sc : BitVec 1) (d i z : Nat) (hz : z < 7) (j : Nat) (hj : j < accessBytes z) :
    ((bytesOfWords (readRegs w sc.toNat d i (regsOf z))).take (accessBytes z)).getD j 0 = storedByte w sc d i j := by
  have hsc : ∀ j, (if sc.toNat = 0 then w.src (d + j) i else w.getS (d + j)) = (if sc = 0 then w.src (d + j) i else w.getS (d + j)) := by
    intro j
    congr 1
    rw [eq_iff_iff]
    constructor
    · intro h; apply BitVec.eq_of_toNat_eq; simpa using h
    · rintro rfl; rfl
  unfold storedByte
  dsimp only
  rw [← hsc]
  have gen : ∀ (g : Nat → Word) (n j : Nat), j < 4 * n → (bytesOfWords ((List.range n).map g)).getD j 0 = BitVec.ofNat 8 ((g (j / 4)).toNat / 2 ^ (8 * (j % 4))) := by
    intro g n
    induction n with
    | zero => intro j hj; omega
    | succ n ih =>
      intro j hj
      have hl : (bytesOfWords ((List.range n).map g)).length = 4 * n := by
        unfold bytesOfWords
        rw [List.length_flatMap]
        simp [bytesOfNat_length, Function.comp_def, Nat.mul_comm]
      unfold bytesOfWords at ih hl ⊢
      rw [List.range_succ, List.map_append, List.flatMap_append]
      by_cases h : j < 4 * n
      · rw [List.getD_append _ _ _ _ (by rw [hl]; exact h)]
        exact ih j h
      · rw [List.getD_append_right _ _ _ _ (by rw [hl]; omega), hl]
        simp only [List.map_cons, List.map_nil, List.flatMap_cons, List.flatMap_nil, List.append_nil]
        rw [getD_bytesOfNat _ _ _ (by omega), show j / 4 = n by omega, show j % 4 = j - 4 * n by omega]
  have hr : accessBytes z ≤ 4 * regsOf z := by unfold regsOf; omega
  rw [List.getD_eq_getElem?_getD, List.getElem?_take_of_lt hj, ← List.getD_eq_getElem?_getD]
  unfold readRegs
  rw [gen _ _ _ (by omega)]

theorem storedBytes_eq (w : Warp) (sc : BitVec 1) (d i z : Nat) (hz : z < 7) :
    (bytesOfWords (readRegs w sc.toNat d i (regsOf z))).take (accessBytes z) = (List.range (accessBytes z)).map (storedByte w sc d i) := by
  apply List.ext_getElem?
  intro j
  by_cases hj : j < accessBytes z
  · have h := storedByte_eq w sc d i z hz j hj
    have hl : ((bytesOfWords (readRegs w sc.toNat d i (regsOf z))).take (accessBytes z)).length = accessBytes z := by
      rw [List.length_take, (regs_value w sc d i _).2]
      unfold regsOf; omega
    rw [List.getD_eq_getElem _ _ (by omega)] at h
    rw [List.getElem?_eq_getElem (by omega), h]
    simp [hj]
  · rw [List.getElem?_eq_none (by simp; omega), List.getElem?_eq_none (by simp; omega)]

theorem nodup_eraseDups' (n : Nat) : ∀ l : List Nat, l.length ≤ n → l.eraseDups.Nodup := by
  induction n with
  | zero => intro l h; have : l = [] := by simpa using h
            subst this; simp
  | succ n ih =>
    intro l h
    cases l with
    | nil => simp
    | cons a l =>
      rw [List.eraseDups_cons, List.nodup_cons]
      refine ⟨?_, ih _ (le_trans (List.length_filter_le _ _) (by simpa using h))⟩
      rw [List.mem_eraseDups, List.mem_filter]
      simp

/-- The order of lanes is an order. -/
theorem orderLanes_perm (m : Mach) (ls : List (Nat × Loc)) (hn : (ls.map (·.1)).Nodup) : (orderLanes m ls).Perm ls := by
  unfold orderLanes
  dsimp only
  generalize m.laneOrders.headD [] = order
  have huniq : ∀ e ∈ ls, ∀ e' ∈ ls, e.1 = e'.1 → e = e' := fun e he e' he' h => List.inj_on_of_nodup_map hn he he' h
  have hfind : ∀ i e, ls.find? (fun l => l.1 == i) = some e ↔ e ∈ ls ∧ e.1 = i := by
    intro i e
    constructor
    · intro h
      exact ⟨List.mem_of_find?_eq_some h, by simpa using List.find?_some h⟩
    · rintro ⟨h1, rfl⟩
      cases hx : ls.find? (fun l => l.1 == e.1) with
      | none => rw [List.find?_eq_none] at hx; exact absurd (hx e h1) (by simp)
      | some e' =>
        rw [huniq e' (List.mem_of_find?_eq_some hx) e h1 (by simpa using List.find?_some hx)]
  have hnl : ls.Nodup := List.Nodup.of_map _ hn
  rw [List.perm_ext_iff_of_nodup ?_ hnl]
  · intro e
    rw [List.mem_append, List.mem_filterMap, List.mem_filter]
    constructor
    · rintro (⟨i, hi, h⟩ | ⟨h, -⟩)
      · exact ((hfind i e).1 h).1
      · exact h
    · intro h
      by_cases hc : e.1 ∈ order
      · left; exact ⟨e.1, List.mem_eraseDups.2 hc, (hfind _ _).2 ⟨h, rfl⟩⟩
      · right; exact ⟨h, by simpa using hc⟩
  · rw [List.nodup_append]
    refine ⟨?_, hnl.filter _, ?_⟩
    · apply List.Nodup.filterMap
      · intro a b c ha hb
        have h1 := (hfind a c).1 ha
        have h2 := (hfind b c).1 hb
        rw [← h1.2, ← h2.2]
      · exact nodup_eraseDups' _ _ (le_refl _)
    · intro a ha b hb hab
      subst hab
      rw [List.mem_filterMap] at ha
      obtain ⟨i, hi, h⟩ := ha
      have := ((hfind i a).1 h).2
      rw [List.mem_filter] at hb
      subst this
      have := List.mem_eraseDups.1 hi
      simp [this] at hb

theorem stReq_facts (x : FM) : (stReq x).sc = x.sc.toNat ∧ (stReq x).words = 1 := by
  unfold stReq memReq
  rcases BitVec.eq_zero_or_eq_one x.sc with h | h <;> simp [h]

theorem z_lt {z : BitVec 3} (hz : z ≠ 7) : z.toNat < 7 := by
  have := z.isLt
  have h2 : z.toNat ≠ 7 := fun h => hz (by apply BitVec.eq_of_toNat_eq; simpa using h)
  omega

theorem memPlaces_nodup {q : Req} {m : Mach} {k g o h : Nat} {u : Use} {acc : Acc} {code n : Nat} {ls : List (Nat × Loc)}
    (hp : memPlaces q m k g o h u acc code n = .ok ls) : (ls.map (·.1)).Nodup := by
  obtain ⟨h1, h2⟩ := memPlaces_lanes hp
  by_cases h0 : q.sc = 0
  · rw [h1 h0]; unfold lanesOf; exact List.Nodup.filter _ List.nodup_range
  · rcases h2 h0 with rfl | ⟨l, rfl⟩ <;> simp

theorem observe3 (w : Warp) : observe (observe (observe w 0) 1) 2 =
    { w with pts := [0, 1, 2].foldl (fun p c => max p ((Map.find? w.opPts c).getD 0)) w.pts } := by
  simp only [observe, List.foldl_cons, List.foldl_nil]

theorem fence_goes (s : State) (m : Mach) (ms : List Nat) (hg : Goes fenceEngReq s m ms) (hc : ∀ c, c < 3 → s.me.counter c = 0) :
    ∃ t, exec .fenceEng s = .next t ∧ Accessed s t ∧ t.m.rest = s.m.rest ∧
        t.me.v = s.me.v ∧ t.me.s = s.me.s ∧ t.me.p = s.me.p ∧ t.me.fflags = s.me.fflags ∧
        t.me.pts = [0, 1, 2].foldl (fun p c => max p ((Map.find? s.me.opPts c).getD 0)) s.me.pts ∧
        GoesOn s.me t.me 1 := by
  obtain ⟨rfl, hA, hh⟩ := goes_values (by decide) hg
  obtain ⟨A1, A2, A3, A4, A5, A6⟩ := admitted_acc1 hA
  have hcn : ∀ c, (m.warp s.cur).counter c = s.me.counter c := fun c => congrFun (hA.keeps Warp.counter fun _ _ _ => rfl) c
  have hbody : fenceEngBody m [s.cur] = .ok (m.updWarp s.cur (fun w =>
      { w with pts := [0, 1, 2].foldl (fun p c => max p ((Map.find? w.opPts c).getD 0)) w.pts })) := by
    unfold fenceEngBody
    simp only [List.headD_cons, hcn]
    rw [if_pos ⟨hc 0 (by omega), hc 1 (by omega), hc 2 (by omega)⟩]
    simp only [observe3]
  have hw := acc1_upd (m := m) (f := fun w => { w with pts := [0, 1, 2].foldl (fun p c => max p ((Map.find? w.opPts c).getD 0)) w.pts }) hh rfl rfl rfl rfl rfl rfl
  obtain ⟨t, t1, t2, t3, -, t4, t5, t6, t7, t8, t9, t10, t11, -⟩ := finish (q := fenceEngReq) (by decide) hg hbody hw.toAcc1
  rw [Mach.warp_updWarp_self _ hh] at t5 t6 t11
  replace t11 := t11 rfl
  refine ⟨t, t1, t2, ?_, ?_, ?_, t7, t8, ?_, t10⟩
  · rw [t4]; exact A6
  · rw [t5]; exact hA.keeps Warp.v fun _ _ _ => rfl
  · rw [t6]; exact hA.keeps Warp.s fun _ _ _ => rfl
  · rw [t11]
    have e1 : (m.warp s.cur).pts = s.me.pts := hA.keeps Warp.pts fun _ _ _ => rfl
    have e2 : (m.warp s.cur).opPts = s.me.opPts := hA.keeps Warp.opPts fun _ _ _ => rfl
    simp only [e1, e2]

theorem issue_stops {q : Req} {s : State} {m : Mach} {ms : List Nat} (hg : Goes q s m ms)
    {body : Mach → List Nat → Except Stop Mach} {st : Stop} (hb : body m ms = .error st) :
    issue q body s = .next { s with m := deliver m s.cur (widen q.sc st) } := by
  unfold issue
  rw [if_pos hg.may, goes_error hg _ hb]

theorem issueTo_stops {q : Req} {s : State} {m : Mach} {ms : List Nat} (hg : Goes q s m ms)
    {body : Mach → List Nat → Except Stop Mach} {st : Stop} (hb : body m ms = .error st) :
    issueTo q body s = .next { s with m := deliver m s.cur (widen q.sc st) } := by
  unfold issueTo
  rw [if_pos hg.may, goes_error hg _ hb]

theorem fence_waits (s : State) (m : Mach) (ms : List Nat) (hg : Goes fenceEngReq s m ms) (h : ∃ c, c < 3 ∧ s.me.counter c ≠ 0) :
    exec .fenceEng s = .next { s with m := m.updWarp s.cur (fun w => { w with wait := some .fence }) } := by
  obtain ⟨c, hc, hne⟩ := h
  have hg' := hg
  obtain ⟨rfl, hA, hh⟩ := goes_values (by decide) hg
  have hcn : ∀ c, (m.warp s.cur).counter c = s.me.counter c := fun c => congrFun (hA.keeps Warp.counter fun _ _ _ => rfl) c
  have hbody : fenceEngBody m [s.cur] = .error (.wait .fence) := by
    unfold fenceEngBody
    simp only [List.headD_cons, hcn]
    rw [if_neg]
    rintro ⟨h0, h1, h2⟩
    interval_cases c <;> contradiction
  exact issue_stops (q := fenceEngReq) hg' hbody

theorem distinct_append_one (l : List Nat) (a : Nat) : distinct (l ++ [a]) ≤ distinct l + 1 := by
  induction l with
  | nil => simp [distinct]
  | cons b l ih =>
    rw [List.cons_append, distinct, distinct]
    have : (l ++ [a]).contains b = false → l.contains b = false := by simp; intro h1 h2; exact h1
    split <;> rename_i h1
    · split <;> omega
    · rw [if_neg (by simpa using this (by simpa using h1))]; omega

theorem pailSectors_append (p l : List Held) : pailSectors (p ++ l) ≤ pailSectors p + l.length := by
  induction l generalizing p with
  | nil => simp
  | cons a l ih =>
    have h1 := ih (p ++ [a])
    rw [List.append_assoc] at h1
    have h2 : pailSectors (p ++ [a]) ≤ pailSectors p + 1 := by
      unfold pailSectors; rw [List.map_append]; exact distinct_append_one _ _
    rw [show p ++ a :: l = p ++ ([a] ++ l) by simp, List.length_cons]
    omega

theorem commitFor_not {m : Mach} {k kind : Nat} (h : (m.blockOf k).holding = false) : commitFor m k kind = m := by
  unfold commitFor
  split
  · rfl
  · unfold commit
    dsimp only
    rw [if_pos (by show (!(m.blockOf k).holding) = true; simp [h])]

/-- One lane's atomic step in a block that holds no stores, on a place in the package without poison. -/
theorem atomStep_ok {q : Req} {m : Mach} {k n : Nat} {l : Loc} {f : List Byte → Option (List Byte)}
    (h1 : isExternal l.key = false) (h2 : m.poisonAt l.key n = none) (h3 : (m.blockOf k).holding = false) :
    atomStep q m k l n f = .ok (Mem.readN m.mem l.key n, match f (Mem.readN m.mem l.key n) with
      | some new => m.perform k l.key new
      | none => m.stampStore k l.key) := by
  unfold atomStep
  rw [commitFor_not h3]
  dsimp only
  rw [readLane_ok h1 h2]
  have hp : (m.blockOf k).pailFor = [] := by unfold Block.pailFor; simp [h3]
  have hl : m.loadBytes [] l.key n = Mem.readN m.mem l.key n := by
    unfold Mach.loadBytes Mem.readN
    simp only [h1]
    simp [heldByte]
  simp only [bind, Except.bind]
  rw [hp, hl]
  simp only [h1]
  cases f (Mem.readN m.mem l.key n) <;> rfl

theorem wordsOfBytes_eq (n : Nat) (bs : List Byte) (h : bs.length = 4 * n) :
    wordsOfBytes n bs = (List.range n).map (fun j => BitVec.ofNat 32 (natOfBytes bs / 2 ^ (32 * j))) := by
  unfold wordsOfBytes
  apply List.map_congr_left
  intro j hj
  rw [List.mem_range] at hj
  apply BitVec.eq_of_toNat_eq
  rw [BitVec.toNat_ofNat, BitVec.toNat_ofNat]
  have e1 : natOfBytes bs = natOfBytes (bs.take (4 * j)) + 256 ^ (4 * j) * natOfBytes (bs.drop (4 * j)) := by
    have := natOfBytes_append (bs.take (4 * j)) (bs.drop (4 * j))
    rw [List.take_append_drop, List.length_take, min_eq_left (by omega)] at this
    exact this
  have e2 : natOfBytes (bs.drop (4 * j)) = natOfBytes ((bs.drop (4 * j)).take 4) + 256 ^ 4 * natOfBytes ((bs.drop (4 * j)).drop 4) := by
    have := natOfBytes_append ((bs.drop (4 * j)).take 4) ((bs.drop (4 * j)).drop 4)
    rw [List.take_append_drop, List.length_take, List.length_drop, min_eq_left (by omega)] at this
    exact this
  have e3 := natOfBytes_lt (bs.take (4 * j))
  rw [List.length_take, min_eq_left (by omega)] at e3
  have e4 := natOfBytes_lt ((bs.drop (4 * j)).take 4)
  rw [List.length_take, List.length_drop, min_eq_left (by omega)] at e4
  have e5 : (2 : Nat) ^ (32 * j) = 256 ^ (4 * j) := by rw [show (256 : Nat) = 2 ^ 8 by norm_num, ← pow_mul]; congr 1; ring
  rw [e5, e1, Nat.add_mul_div_left _ _ (by positivity), Nat.div_eq_of_lt e3, Nat.zero_add, e2]
  rw [show (2 : Nat) ^ 32 = 256 ^ 4 by norm_num]
  omega

theorem getD_natOfBytes (bs : List Byte) (j : Nat) (h : j < bs.length) : bs.getD j 0 = BitVec.ofNat 8 (natOfBytes bs / 2 ^ (8 * j)) := by
  have := getD_bytesOfNat bs.length (natOfBytes bs) j h
  rwa [bytesOfNat_natOfBytes] at this

theorem readN_getD (mem : List Host.Cell) (key n j : Nat) (h : j < n) : (Mem.readN mem key n).getD j 0 = Mem.read mem (key + j) := by
  unfold Mem.readN
  rw [List.getD_eq_getElem _ _ (by simpa using h)]
  simp

theorem readN_length (mem : List Host.Cell) (key n : Nat) : (Mem.readN mem key n).length = n := by simp [Mem.readN]

/-- What a lane's function does to the bytes, as a function of their value. -/
def Agrees (n : Nat) (f : List Byte → Option (List Byte)) (new : Nat → Nat) : Prop :=
  ∀ old : List Byte, old.length = n → match f old with
    | some nb => nb.length = n ∧ natOfBytes nb = new (natOfBytes old)
    | none => new (natOfBytes old) = natOfBytes old

theorem atomStep_full {q : Req} {m : Mach} {k n : Nat} {l : Loc} {f : List Byte → Option (List Byte)} {new : Nat → Nat}
    (h1 : isExternal l.key = false) (h2 : m.poisonAt l.key n = none) (h3 : (m.blockOf k).holding = false)
    (hf : Agrees n f new) :
    ∃ m1, atomStep q m k l n f = .ok (Mem.readN m.mem l.key n, m1) ∧ Wrote k m m1 ∧ (m1.warp k).v = (m.warp k).v ∧
      (m1.warp k).s = (m.warp k).s ∧ (∀ key n, m.poisonAt key n = none → m1.poisonAt key n = none) ∧
      Mem.read m1.mem = fun a => if l.key ≤ a ∧ a < l.key + n
        then BitVec.ofNat 8 (new (natOfBytes (Mem.readN m.mem l.key n)) / 2 ^ (8 * (a - l.key))) else Mem.read m.mem a := by
  have hag := hf (Mem.readN m.mem l.key n) (readN_length _ _ _)
  have hst := atomStep_ok (q := q) (f := f) h1 h2 h3
  cases hx : f (Mem.readN m.mem l.key n) with
  | some nb =>
    rw [hx] at hag hst
    obtain ⟨g1, g2⟩ := hag
    obtain ⟨p1, p2, ⟨lo, hi, p3⟩, p4, p5⟩ := perform_wrote k l.key nb m (isSelf_external h1)
    refine ⟨_, hst, p1, p4, p5, fun key n h => poisonAt_drop p3 h, ?_⟩
    funext a
    show Mem.read (m.perform k l.key nb).mem a = _
    rw [p2, read_write, g1]
    split
    · rename_i ha
      rw [getD_natOfBytes _ _ (by omega), g2]
    · rfl
  | none =>
    rw [hx] at hag hst
    obtain ⟨p1, p2, p3, p4, p5⟩ := stampStore_wrote k l.key m
    refine ⟨_, hst, p1, p4, p5, fun key n h => by unfold Mach.poisonAt at h ⊢; rw [show (m.stampStore k l.key).poison = m.poison from p3]; exact h, ?_⟩
    funext a
    show Mem.read (m.stampStore k l.key).mem a = _
    rw [p2]
    split
    · rename_i ha
      have hl := readN_length m.mem l.key n
      rw [show new (natOfBytes (Mem.readN m.mem l.key n)) = natOfBytes (Mem.readN m.mem l.key n) from hag,
        ← getD_natOfBytes _ _ (by omega), readN_getD _ _ _ _ (by omega)]
      congr 1; omega
    · rfl

/-- The words an old value gives n registers. -/
def oldWords (n old : Nat) : List Word := (List.range n).map (fun j => BitVec.ofNat 32 (old / 2 ^ (32 * j)))

/-- The registers after the old values have gone to them. -/
def olded (sc d n : Nat) (w : Warp) (olds : List (Nat × Nat)) : Warp := olds.foldl (fun w e => writeRegs w sc d e.1 (oldWords n e.2)) w

theorem olded_congr (w w' : Warp) (hv : w'.v = w.v) (hs : w'.s = w.s) (ht : w'.trap = w.trap) (sc d n : Nat) (olds : List (Nat × Nat)) :
    (olded sc d n w' olds).v = (olded sc d n w olds).v ∧ (olded sc d n w' olds).s = (olded sc d n w olds).s := by
  unfold olded
  induction olds generalizing w w' with
  | nil => exact ⟨hv, hs⟩
  | cons e l ih =>
    simp only [List.foldl_cons]
    obtain ⟨h1, h2⟩ := writeRegs_congr w w' hv hs ht sc d e.1 (oldWords n e.2)
    apply ih _ _ h1 h2
    rw [(writeRegs_keeps w' _ _ _ _).1, (writeRegs_keeps w _ _ _ _).1]; exact ht

theorem atomAll_ok (q : Req) (k d n : Nat) (f : Nat → List Byte → Option (List Byte)) (new : Nat → Nat → Nat)
    (hf : ∀ i, Agrees (4 * n) (f i) (new i)) (ls : List (Nat × Loc)) :
    ∀ m, (Map.find? m.warps k).isSome = true → (m.blockOf k).holding = false →
      (∀ e ∈ ls, isExternal e.2.key = false ∧ m.poisonAt e.2.key (4 * n) = none) →
      ∃ m', atomAll q k d (4 * n) f m ls = .ok m' ∧ Wrote k m m' ∧
        Mem.read m'.mem = (inTurn (4 * n) new (Mem.read m.mem) ls).1 ∧
        (m'.warp k).v = (olded q.sc d n (m.warp k) (inTurn (4 * n) new (Mem.read m.mem) ls).2).v ∧
        (m'.warp k).s = (olded q.sc d n (m.warp k) (inTurn (4 * n) new (Mem.read m.mem) ls).2).s := by
  induction ls with
  | nil => intro m hh _ _; exact ⟨m, rfl, .refl _ _, rfl, rfl, rfl⟩
  | cons e ls ih =>
    intro m hh hhold hls
    obtain ⟨i, l⟩ := e
    obtain ⟨h1, h2⟩ := hls (i, l) List.mem_cons_self
    obtain ⟨m1, s1, s2, s3, s4, s5, s6⟩ := atomStep_full (q := q) h1 h2 hhold (hf i)
    have hh1 := s2.here hh
    have hw := writeRegs_keeps (m1.warp k) q.sc d i (wordsOfBytes (4 * n / 4) (Mem.readN m.mem l.key (4 * n)))
    have t3 : Wrote k m1 (m1.updWarp k (fun w => writeRegs w q.sc d i (wordsOfBytes (4 * n / 4) (Mem.readN m.mem l.key (4 * n))))) := by
      apply acc1_upd hh1 <;> rw [hw.1] <;> rfl
    have hall := s2.trans t3
    obtain ⟨m', r1, r2, r3, r4, r5⟩ := ih (m1.updWarp k (fun w => writeRegs w q.sc d i (wordsOfBytes (4 * n / 4) (Mem.readN m.mem l.key (4 * n))))) (hall.here hh)
      (by rw [hall.blockOf]; exact hhold) (fun e he => ⟨(hls e (List.mem_cons_of_mem _ he)).1, s5 _ _ (hls e (List.mem_cons_of_mem _ he)).2⟩)
    have hmr : Mem.read (m1.updWarp k (fun w => writeRegs w q.sc d i (wordsOfBytes (4 * n / 4) (Mem.readN m.mem l.key (4 * n))))).mem =
        fun a => if l.key ≤ a ∧ a < l.key + 4 * n then BitVec.ofNat 8 (new i (natOfBytes (Mem.readN m.mem l.key (4 * n))) / 2 ^ (8 * (a - l.key))) else Mem.read m.mem a := s6
    have hwords : wordsOfBytes (4 * n / 4) (Mem.readN m.mem l.key (4 * n)) = oldWords n (natOfBytes (Mem.readN m.mem l.key (4 * n))) := by
      rw [show 4 * n / 4 = n by omega]
      exact wordsOfBytes_eq n _ (readN_length _ _ _)
    rw [hmr] at r3 r4 r5
    rw [Mach.warp_updWarp_self _ hh1, hwords] at r4 r5
    have hc := writeRegs_congr (m.warp k) (m1.warp k) s3 s4 (by have := congrArg Warp.trap s2.warp; exact this) q.sc d i (oldWords n (natOfBytes (Mem.readN m.mem l.key (4 * n))))
    have ht : (writeRegs (m1.warp k) q.sc d i (oldWords n (natOfBytes (Mem.readN m.mem l.key (4 * n))))).trap =
        (writeRegs (m.warp k) q.sc d i (oldWords n (natOfBytes (Mem.readN m.mem l.key (4 * n))))).trap := by
      rw [(writeRegs_keeps (m1.warp k) _ _ _ _).1, (writeRegs_keeps (m.warp k) _ _ _ _).1]
      have := congrArg Warp.trap s2.warp; exact this
    have hc2 := olded_congr _ _ hc.1 hc.2 ht q.sc d n
    refine ⟨m', ?_, hall.trans r2, ?_, ?_, ?_⟩
    · unfold atomAll
      rw [s1]
      exact r1
    · rw [r3]; rfl
    · rw [r4, (hc2 _).1]; rfl
    · rw [r5, (hc2 _).2]; rfl

theorem casAll_ok (q : Req) (k n : Nat) (x : FCAS) (w : Warp) (hn : casSize x = 4 * n) (cmp new : Nat → Nat)
    (hc1 : ∀ i, (casOperands w q x i).1.length = 4 * n ∧ natOfBytes (casOperands w q x i).1 = cmp i)
    (hc2 : ∀ i, (casOperands w q x i).2.length = 4 * n ∧ natOfBytes (casOperands w q x i).2 = new i) (ls : List (Nat × Loc)) :
    ∀ m fl sw, (Map.find? m.warps k).isSome = true → (m.blockOf k).holding = false →
      (∀ e ∈ ls, isExternal e.2.key = false ∧ m.poisonAt e.2.key (4 * n) = none) →
      ∃ m' sw', casAll q k x w m ls fl sw = .ok (m', fl || (inTurn (4 * n) (fun i old => if old = cmp i then new i else old) (Mem.read m.mem) ls).2.any (fun e => e.2 != cmp e.1), sw') ∧ Wrote k m m' ∧
        Mem.read m'.mem = (inTurn (4 * n) (fun i old => if old = cmp i then new i else old) (Mem.read m.mem) ls).1 ∧
        (m'.warp k).v = (olded q.sc x.d.toNat n (m.warp k) (inTurn (4 * n) (fun i old => if old = cmp i then new i else old) (Mem.read m.mem) ls).2).v ∧
        (m'.warp k).s = (olded q.sc x.d.toNat n (m.warp k) (inTurn (4 * n) (fun i old => if old = cmp i then new i else old) (Mem.read m.mem) ls).2).s := by
  induction ls with
  | nil => intro m fl sw hh _ _; exact ⟨m, sw, by simp [casAll, inTurn], .refl _ _, rfl, rfl, rfl⟩
  | cons e ls ih =>
    intro m fl sw hh hhold hls
    obtain ⟨i, l⟩ := e
    obtain ⟨h1, h2⟩ := hls (i, l) List.mem_cons_self
    have hag : Agrees (4 * n) (fun old => if old = (casOperands w q x i).1 then some (casOperands w q x i).2 else none)
        (fun old => if old = cmp i then new i else old) := by
      intro old hl
      dsimp only
      have := natOfBytes_inj (a := old) (b := (casOperands w q x i).1) (by rw [hl, (hc1 i).1])
      rw [(hc1 i).2] at this
      by_cases he : old = (casOperands w q x i).1
      · rw [if_pos he]; exact ⟨(hc2 i).1, by rw [if_pos (this.2 he)]; exact (hc2 i).2⟩
      · rw [if_neg he, if_neg (fun h => he (this.1 h))]
    obtain ⟨m1, s1, s2, s3, s4, s5, s6⟩ := atomStep_full (q := q) h1 h2 hhold hag
    have hh1 := s2.here hh
    have hw := writeRegs_keeps (m1.warp k) q.sc x.d.toNat i (wordsOfBytes (4 * n / 4) (Mem.readN m.mem l.key (4 * n)))
    have t3 : Wrote k m1 (m1.updWarp k (fun w => writeRegs w q.sc x.d.toNat i (wordsOfBytes (4 * n / 4) (Mem.readN m.mem l.key (4 * n))))) := by
      apply acc1_upd hh1 <;> rw [hw.1] <;> rfl
    have hall := s2.trans t3
    obtain ⟨m', sw', r1, r2, r3, r4, r5⟩ := ih (m1.updWarp k (fun w => writeRegs w q.sc x.d.toNat i (wordsOfBytes (4 * n / 4) (Mem.readN m.mem l.key (4 * n)))))
      (fl || Mem.readN m.mem l.key (4 * n) != (casOperands w q x i).1) (sw || Mem.readN m.mem l.key (4 * n) == (casOperands w q x i).1) (hall.here hh)
      (by rw [hall.blockOf]; exact hhold) (fun e he => ⟨(hls e (List.mem_cons_of_mem _ he)).1, s5 _ _ (hls e (List.mem_cons_of_mem _ he)).2⟩)
    have hmr : Mem.read (m1.updWarp k (fun w => writeRegs w q.sc x.d.toNat i (wordsOfBytes (4 * n / 4) (Mem.readN m.mem l.key (4 * n))))).mem =
        fun a => if l.key ≤ a ∧ a < l.key + 4 * n then BitVec.ofNat 8 ((if natOfBytes (Mem.readN m.mem l.key (4 * n)) = cmp i then new i else natOfBytes (Mem.readN m.mem l.key (4 * n))) / 2 ^ (8 * (a - l.key))) else Mem.read m.mem a := s6
    have hwords : wordsOfBytes (4 * n / 4) (Mem.readN m.mem l.key (4 * n)) = oldWords n (natOfBytes (Mem.readN m.mem l.key (4 * n))) := by
      rw [show 4 * n / 4 = n by omega]
      exact wordsOfBytes_eq n _ (readN_length _ _ _)
    rw [hmr] at r1 r3 r4 r5
    rw [Mach.warp_updWarp_self _ hh1, hwords] at r4 r5
    have hc := writeRegs_congr (m.warp k) (m1.warp k) s3 s4 (by have := congrArg Warp.trap s2.warp; exact this) q.sc x.d.toNat i (oldWords n (natOfBytes (Mem.readN m.mem l.key (4 * n))))
    have ht : (writeRegs (m1.warp k) q.sc x.d.toNat i (oldWords n (natOfBytes (Mem.readN m.mem l.key (4 * n))))).trap =
        (writeRegs (m.warp k) q.sc x.d.toNat i (oldWords n (natOfBytes (Mem.readN m.mem l.key (4 * n))))).trap := by
      rw [(writeRegs_keeps (m1.warp k) _ _ _ _).1, (writeRegs_keeps (m.warp k) _ _ _ _).1]
      have := congrArg Warp.trap s2.warp; exact this
    have hc2' := olded_congr _ _ hc.1 hc.2 ht q.sc x.d.toNat n
    have hne : (Mem.readN m.mem l.key (4 * n) != (casOperands w q x i).1) = (natOfBytes (Mem.readN m.mem l.key (4 * n)) != cmp i) := by
      have := natOfBytes_inj (a := Mem.readN m.mem l.key (4 * n)) (b := (casOperands w q x i).1) (by rw [readN_length, (hc1 i).1])
      rw [(hc1 i).2] at this
      rw [Bool.eq_iff_iff, bne_iff_ne, bne_iff_ne, not_iff_not]
      exact this.symm
    refine ⟨m', sw', ?_, hall.trans r2, ?_, ?_, ?_⟩
    · unfold casAll
      dsimp only
      rw [hn, s1]
      refine r1.trans ?_
      rw [hne, Bool.or_assoc]
      rfl
    · rw [r3]; rfl
    · rw [r4, (hc2' _).1]; rfl
    · rw [r5, (hc2' _).2]; rfl

theorem oldWords_length (n old : Nat) : (oldWords n old).length = n := by simp [oldWords]

theorem oldWords_getD (n old j : Nat) (h : j < n) : (oldWords n old).getD j 0 = BitVec.ofNat 32 (old / 2 ^ (32 * j)) := by
  unfold oldWords; rw [List.getD_eq_getElem _ _ (by simpa using h)]; simp

theorem olded_keeps (sc d n : Nat) (w : Warp) (olds : List (Nat × Nat)) :
    (sc = 0 → (olded sc d n w olds).s = w.s) ∧ (sc ≠ 0 → (olded sc d n w olds).v = w.v) := by
  unfold olded
  induction olds generalizing w with
  | nil => exact ⟨fun _ => rfl, fun _ => rfl⟩
  | cons e l ih =>
    rw [List.foldl_cons]
    obtain ⟨h1, h2⟩ := ih (writeRegs w sc d e.1 (oldWords n e.2))
    obtain ⟨-, w2, w3⟩ := writeRegs_keeps w sc d e.1 (oldWords n e.2)
    exact ⟨fun h => (h1 h).trans (w2 h), fun h => (h2 h).trans (w3 h)⟩

theorem olded_v (d n : Nat) (olds : List (Nat × Nat)) (hn : (olds.map (·.1)).Nodup) (h32 : ∀ e ∈ olds, e.1 < 32) (w : Warp) (r i : Nat) (hi : i < 32) :
    (∀ e ∈ olds, i = e.1 → d ≤ r → r < d + n → (olded 0 d n w olds).getV r i = BitVec.ofNat 32 (e.2 / 2 ^ (32 * (r - d)))) ∧
    ((¬ (d ≤ r ∧ r < d + n) ∨ i ∉ olds.map (·.1)) → (olded 0 d n w olds).getV r i = w.getV r i) := by
  unfold olded
  induction olds generalizing w with
  | nil => exact ⟨by simp, fun _ => rfl⟩
  | cons a l ih =>
    rw [List.map_cons, List.nodup_cons] at hn
    obtain ⟨i1, i2⟩ := ih hn.2 (fun e he => h32 e (List.mem_cons_of_mem _ he)) (writeRegs w 0 d a.1 (oldWords n a.2))
    have hw := writeRegs_v w d a.1 (oldWords n a.2) (h32 a List.mem_cons_self) r i hi
    rw [oldWords_length] at hw
    rw [List.foldl_cons]
    constructor
    · intro e he hne h1 h2
      rcases List.mem_cons.1 he with rfl | he
      · rw [i2 (.inr (by rw [hne]; exact hn.1)), hw, if_pos ⟨hne, h1, h2⟩, oldWords_getD _ _ _ (by omega)]
      · exact i1 e he hne h1 h2
    · intro h
      rw [i2 (by
        rcases h with h | h
        · exact .inl h
        · exact .inr (fun hc => h (List.mem_cons_of_mem _ hc)))]
      rw [hw, if_neg]
      rintro ⟨h1, h2, h3⟩
      rcases h with h | h
      · exact h ⟨h2, h3⟩
      · exact h (by rw [h1]; exact List.mem_cons_self)

theorem inTurn_lanes (n : Nat) (new : Nat → Nat → Nat) (M : Nat → Byte) (ls : List (Nat × Loc)) :
    (inTurn n new M ls).2.map (·.1) = ls.map (·.1) := by
  induction ls generalizing M with
  | nil => rfl
  | cons e l ih => simp only [inTurn, List.map_cons, ih]

/-- The registers of the old values, in the terms of the statements. -/
theorem returned_of {w w0 w' : Warp} (sc : BitVec 1) (d n : Nat) (olds : List (Nat × Nat)) (hnd : (olds.map (·.1)).Nodup)
    (h32 : sc = 0 → ∀ e ∈ olds, e.1 < 32) (hone : sc = 1 → olds = [] ∨ ∃ e, olds = [e])
    (hv0 : w0.v = w.v) (hs0 : w0.s = w.s) (ht0 : w0.trap = w.trap) (ht : w'.trap = w.trap)
    (hv : w'.v = (olded sc.toNat d n w0 olds).v) (hs : w'.s = (olded sc.toNat d n w0 olds).s) :
    returned w w' sc d n olds := by
  obtain ⟨c1, c2⟩ := olded_congr w w0 hv0 hs0 ht0 sc.toNat d n olds
  rw [c1] at hv
  rw [c2] at hs
  obtain ⟨k1, k2⟩ := olded_keeps sc.toNat d n w olds
  constructor
  · rintro rfl
    refine ⟨?_, ?_, ?_⟩
    · intro e he j hj
      rw [getV_eq hv]
      rw [show (0 : BitVec 1).toNat = 0 from rfl]
      rw [(olded_v d n olds hnd (h32 rfl) w (d + j) e.1 (h32 rfl e he)).1 e he rfl (by omega) (by omega)]
      rw [show d + j - d = j by omega]
    · intro r i hi hnot
      rw [getV_eq hv]
      apply (olded_v d n olds hnd (h32 rfl) w r i hi).2
      by_contra hc
      push Not at hc
      obtain ⟨⟨c1, c2⟩, c3⟩ := hc
      apply hnot
      refine ⟨by unfold rangeFrom; rw [List.mem_map]; exact ⟨r - d, by simp; omega, by omega⟩, ?_⟩
      rw [getLsbD_maskOf]
      simp [hi, c3]
    · rw [hs]; exact k1 rfl
  · rintro rfl
    have hsk : ∀ m, w'.sKey m = w.sKey m := by intro m; unfold Warp.sKey; rw [ht]
    rcases hone rfl with rfl | ⟨e, rfl⟩
    · refine ⟨by simp, ?_, by rw [hv]; exact k2 (by decide)⟩
      intro m _; rw [hs]; rfl
    · have hfind : ∀ key, Map.get w'.s key = if h : ∃ j, j < n ∧ key = w.sKey (d + j) then (oldWords n e.2).getD (Nat.find h) 0 else Map.get w.s key := by
        intro key
        rw [hs]
        unfold olded
        simp only [List.foldl_cons, List.foldl_nil]
        rw [show (1 : BitVec 1).toNat = 1 from rfl, writeRegs_s]
        simp only [oldWords_length]
      refine ⟨?_, ?_, by rw [hv]; exact k2 (by decide)⟩
      · intro e' he j hj
        simp only [List.mem_singleton] at he
        subst he
        unfold Warp.getS
        rw [hfind, hsk]
        have hex : ∃ j', j' < n ∧ w.sKey (d + j) = w.sKey (d + j') := ⟨j, hj, rfl⟩
        rw [dif_pos hex]
        have : Nat.find hex = j := by
          have := sKey_inj _ (Nat.find_spec hex).2
          omega
        rw [this, oldWords_getD _ _ _ hj]
      · intro m hm
        rw [hfind, dif_neg]
        rintro ⟨j, hj, rfl⟩
        apply hm
        rw [if_neg (by simp), List.mem_map]
        exact ⟨d + j, by unfold rangeFrom; rw [List.mem_map]; exact ⟨j, by simpa using hj, rfl⟩, rfl⟩

theorem memReq_sc (i : Instr) (sc : BitVec 1) (d o h : BitVec 6) (n : Nat) (r w : Bool) : (memReq i sc d o h n r w).sc = sc.toNat ∧ (memReq i sc d o h n r w).words = 1 := by
  unfold memReq
  rcases BitVec.eq_zero_or_eq_one sc with h | h <;> simp [h]

theorem memPlaces_lt {q : Req} {m : Mach} {k g o h : Nat} {u : Use} {acc : Acc} {code n : Nat} {ls : List (Nat × Loc)}
    (hp : memPlaces q m k g o h u acc code n = .ok ls) : ∀ e ∈ ls, e.1 < 32 := by
  obtain ⟨h1, h2⟩ := memPlaces_lanes hp
  intro e he
  by_cases h0 : q.sc = 0
  · have : e.1 ∈ lanesOf (active (m.warp k) g) := by rw [← h1 h0]; exact List.mem_map_of_mem he
    exact (mem_lanesOf.1 this).1
  · rcases h2 h0 with rfl | ⟨l, rfl⟩
    · cases he
    · simp only [List.mem_singleton] at he; subst he; norm_num

theorem minT (a b : Word) : (if a.toInt ≤ b.toInt then a else b).toNat = if a.toInt ≤ b.toInt then a.toNat else b.toNat := by split <;> rfl

/-- The operations of ATOM in the terms of the statement's table. -/
theorem atom_table {i : Instr} {op : Nat} {x : FMA} {n : Nat} {f : Nat → Nat → Nat} (h : atomForm i = some (op, x, n, f)) :
    exec i = issue (atomReq i x op) (atomBody (atomReq i x op) x op) ∧ n = atomRegs op ∧
      ∀ old b : List Byte, old.length = 4 * n → b.length = 4 * n → (atomNew op old b).length = 4 * n ∧ natOfBytes (atomNew op old b) = f (natOfBytes old) (natOfBytes b) := by
  have h32 : ∀ bs : List Byte, bs.length = 4 → natOfBytes bs < 2 ^ 32 := by
    intro bs hb; have := natOfBytes_lt bs; rw [hb] at this; norm_num at this ⊢; exact this
  have four : ∀ (w : Word), natOfBytes (bytesOfNat 4 w.toNat) = w.toNat := by
    intro w; rw [natOfBytes_bytesOfNat, Nat.mod_eq_of_lt (by have := w.isLt; norm_num; exact this)]
  unfold atomForm at h
  split at h <;> cases h
  all_goals refine ⟨rfl, rfl, ?_⟩
  all_goals intro old b ho hb
  rotate_left 12
  · refine ⟨bytesOfNat_length _ _, ?_⟩
    unfold atomNew
    rw [if_neg (by decide), if_pos rfl, natOfBytes_bytesOfNat]
    norm_num
  · exact ⟨hb, rfl⟩
  all_goals
    refine ⟨bytesOfNat_length _ _, ?_⟩
    refine (four _).trans ?_
    have h1 := h32 old (by simpa using ho)
    have h2 := h32 b (by simpa using hb)
    simp only [atom32]
  · simp [BitVec.toNat_add]
  · simp only [BitVec.toNat_sub, BitVec.toNat_ofNat]; rw [Nat.mod_eq_of_lt h1, Nat.mod_eq_of_lt h2]; congr 1; omega
  · rw [apply_ite BitVec.toNat]; simp only [BitVec.toNat_ofNat]; rw [Nat.mod_eq_of_lt h1, Nat.mod_eq_of_lt h2]
  · rw [apply_ite BitVec.toNat]; simp only [BitVec.toNat_ofNat]; rw [Nat.mod_eq_of_lt h1, Nat.mod_eq_of_lt h2]
  · rw [apply_ite BitVec.toNat]; simp only [BitVec.toNat_ofNat]; rw [Nat.mod_eq_of_lt h1, Nat.mod_eq_of_lt h2]; split <;> omega
  · rw [apply_ite BitVec.toNat]; simp only [BitVec.toNat_ofNat]; rw [Nat.mod_eq_of_lt h1, Nat.mod_eq_of_lt h2]; split <;> omega
  · simp only [BitVec.toNat_and, BitVec.toNat_ofNat]; rw [Nat.mod_eq_of_lt h1, Nat.mod_eq_of_lt h2]
  · simp only [BitVec.toNat_or, BitVec.toNat_ofNat]; rw [Nat.mod_eq_of_lt h1, Nat.mod_eq_of_lt h2]
  · simp only [BitVec.toNat_xor, BitVec.toNat_ofNat]; rw [Nat.mod_eq_of_lt h1, Nat.mod_eq_of_lt h2]
  · simp only [BitVec.toNat_ofNat]; rw [Nat.mod_eq_of_lt h2]
  · rw [apply_ite BitVec.toNat]; simp only [BitVec.toNat_add, BitVec.toNat_ofNat]; rw [Nat.mod_eq_of_lt h1, Nat.mod_eq_of_lt h2]
    split
    · rfl
    · have : (1 : Word).toNat = 1 := rfl
      rw [this, Nat.mod_eq_of_lt (by omega)]

theorem agrees_congr {n : Nat} {f : List Byte → Option (List Byte)} {a b : Nat → Nat} (h : Agrees n f a) (hab : ∀ x, a x = b x) : Agrees n f b := by
  have : a = b := funext hab
  rw [← this]; exact h

theorem cas_operands (w : Warp) (x : FCAS) (q : Req) (hq : q.sc = x.sc.toNat) (n : Nat) (hn : n = (if x.z = 0 then 1 else 2)) (i : Nat) :
    ((casOperands w q x i).1.length = 4 * n ∧ natOfBytes (casOperands w q x i).1 = regValue w x.sc x.d.toNat i n) ∧
    ((casOperands w q x i).2.length = 4 * n ∧ natOfBytes (casOperands w q x i).2 = regValue w x.sc (x.d.toNat + n) i n) := by
  have hs : casSize x = 4 * n := by unfold casSize; rw [hn]; split <;> rfl
  have hsplit : bytesOfWords (readRegs w q.sc x.d.toNat i (casSize x / 2)) =
      bytesOfWords (readRegs w x.sc.toNat x.d.toNat i n) ++ bytesOfWords (readRegs w x.sc.toNat (x.d.toNat + n) i n) := by
    rw [hq, hs, show 4 * n / 2 = n + n by omega]
    unfold readRegs bytesOfWords
    rw [List.range_add, List.map_append, List.flatMap_append, List.map_map]
    simp only [Function.comp_def, Nat.add_assoc]
  have h1 := regs_value w x.sc x.d.toNat i n
  have h2 := regs_value w x.sc (x.d.toNat + n) i n
  unfold casOperands
  dsimp only
  rw [hsplit, hs, List.take_left' h1.2, List.drop_left' h1.2]
  exact ⟨⟨h1.2, h1.1⟩, ⟨h2.2, h2.1⟩⟩

theorem demote_warp {m : Mach} {k : Nat} (hh : (Map.find? m.warps k).isSome = true) :
    (demote m k).warp k = { m.warp k with paths := ((demote m k).warp k).paths, demot := min 0xFFFF ((m.warp k).demot + 1) } := by
  unfold demote
  rw [Mach.warp_updWarp_self _ hh]
  unfold Warp.spendTurn Warp.setPath
  cases hp : (m.warp k).paths <;> simp only [hp]

theorem demote_frame (m : Mach) (k : Nat) : demote m k = { m with warps := (demote m k).warps } ∧ sameOthers k m (demote m k) :=
  ⟨rfl, others_upd _ _ _⟩

/-- What the end of CAS leaves: its retirement, and a demotion where a lane failed. -/
theorem cas_end {q : Req} {s : State} {m : Mach} {ms : List Nat} (hq : q.sc < 2) (hg : Goes q s m ms) (q' : Req) (hw : q'.words = 1)
    {body : Mach → List Nat → Except Stop Mach} {m2 : Mach} {failed : Bool}
    (hb : body m [s.cur] = .ok (retire q' (if failed then demote m2 s.cur else m2) [s.cur])) (ha : Acc1 s.cur m m2) :
    ∃ t, issueTo q body s = .next t ∧ Accessed s t ∧ t.m.storeRest = s.m.storeRest ∧
      t.m = { m2 with warps := t.m.warps, ctxs := t.m.ctxs } ∧
      t.me.v = (m2.warp s.cur).v ∧ t.me.s = (m2.warp s.cur).s ∧ t.me.p = s.me.p ∧ t.me.fflags = s.me.fflags ∧
      (failed = false → t.me.demot = s.me.demot ∧ GoesOn s.me t.me 1) ∧
      (failed = true → t.me.demot = min 0xFFFF (s.me.demot + 1)) ∧ t.me.trap = s.me.trap := by
  obtain ⟨rfl, hA, hh⟩ := goes_values hq hg
  have hh2 := ha.here hh
  generalize hm3 : (if failed then demote m2 s.cur else m2) = m3 at hb
  have hh3 : (Map.find? m3.warps s.cur).isSome = true := by
    subst hm3; cases failed
    · exact hh2
    · simp only [if_true]; unfold demote Mach.updWarp; rw [Map.find?_upd_self]; simpa using hh2
  have k1 : m3 = { m2 with warps := m3.warps } := by
    subst hm3; cases failed <;> rfl
  have k3 : sameOthers s.cur m2 m3 := by
    subst hm3; cases failed
    · exact fun _ _ => rfl
    · exact (demote_frame _ _).2
  have k4 : m3.warp s.cur = { m2.warp s.cur with paths := (m3.warp s.cur).paths, demot := (m3.warp s.cur).demot } := by
    subst hm3; cases failed
    · rfl
    · simp only [if_true]
      rw [show ((demote m2 s.cur).warp s.cur).demot = min 0xFFFF ((m2.warp s.cur).demot + 1) by rw [demote_warp hh2]]
      exact demote_warp hh2
  obtain ⟨r1, r2, r3⟩ := retire_mach q' m3 s.cur
  have hme : State.me { s with m := retire q' m3 [s.cur] } = (m3.warp s.cur).ended q' (s.cur == m3.lead q'.sc s.cur) := warp_retired hh3
  have hwr : (m3.warp s.cur).memRest = s.me.memRest := by
    rw [k4]; exact ha.warp.trans (hA.keeps Warp.memRest fun _ _ _ => rfl)
  have her : ((m3.warp s.cur).ended q' (s.cur == m3.lead q'.sc s.cur)).memRest = (m3.warp s.cur).memRest := by
    unfold Warp.memRest; rw [ended_rest]
  have hdm : (m2.warp s.cur).demot = s.me.demot := ha.demot.trans (hA.keeps Warp.demot fun _ _ _ => rfl)
  obtain ⟨A1, A2, A3, A4, A5, A6⟩ := admitted_acc1 hA
  have k2 : m3.rest = m2.rest := by rw [k1]; rfl
  have hsr : (retire q' m3 [s.cur]).storeRest = m2.storeRest := by unfold Mach.storeRest Mach.memRest; rw [r2, k2]
  refine ⟨_, issueTo_mach hg hb, ⟨rfl, rfl, rfl, ?_, ?_, ?_⟩, ?_, ?_, ?_, ?_, ?_, ?_, ?_, ?_, ?_⟩
  · exact others_trans hA.others (others_trans ha.others (others_trans k3 r3))
  · rw [hme, her, hwr]
  · intro hn
    dsimp only
    rw [r1, k1]
    exact (ha.ops ((hA.keeps Warp.sample fun _ _ _ => rfl).trans hn)).1.trans A5
  · dsimp only
    rw [hsr]
    exact ha.rest.trans A1
  · have hW : ∀ W C, ({ m3 with warps := W, ctxs := C } : Mach) = { m2 with warps := W, ctxs := C } := fun W C => by rw [k1]
    exact r1.trans (hW _ _)
  · rw [hme, ended_v, k4]
  · rw [hme, ended_s, k4]
  · rw [hme, ended_p, k4]; exact ha.p.trans (hA.keeps Warp.p fun _ _ _ => rfl)
  · rw [hme, ended_fflags, k4]; exact ha.fflags.trans (hA.keeps Warp.fflags fun _ _ _ => rfl)
  · rintro rfl
    subst hm3
    rw [hme]
    simp only [Bool.false_eq_true, if_false]
    rw [ended_demot]
    exact ⟨hdm, hw ▸ goesOn_of hA ha.paths (goes_paths hq hg) q' _⟩
  · rintro rfl
    subst hm3
    rw [hme]
    simp only [if_true]
    rw [ended_demot, demote_warp hh2, hdm]
  · rw [hme]; exact (congrArg Warp.trap (her.trans hwr) : _)

theorem places_same {m : Mach} {bk : Nat} {f : FaultInfo} {h : Nat} {u : Use} {acc : Acc} {code n al : Nat} {lanes : List (Nat × Nat)}
    {ls : List (Nat × Loc)} (hp : places m bk f h u acc code n al lanes = .ok ls) :
    ∃ kd po, ∀ e ∈ ls, e.2.kind = kd ∧ e.2.policy = po := by
  unfold places at hp
  split at hp
  · cases hp; exact ⟨0, 0, by simp⟩
  · obtain ⟨-, -, hp⟩ := bind_ok hp
    obtain ⟨he, -, hp⟩ := bind_ok hp
    cases he with
    | none => cases hp
    | some e =>
      dsimp only at hp
      split at hp
      · cases hp
      · split at hp
        · cases hp
        · cases hp
          refine ⟨e.kind, e.policy, ?_⟩
          intro x hx
          rw [List.mem_filterMap] at hx
          obtain ⟨r, hr, hx⟩ := hx
          rw [List.mem_map] at hr
          obtain ⟨l, -, rfl⟩ := hr
          dsimp only at hx
          cases hpl : place m bk e h acc l.2 n al u with
          | error y => rw [hpl] at hx; cases hx
          | ok y =>
            rw [hpl] at hx
            cases hx
            unfold place at hpl
            dsimp only at hpl
            repeat' split at hpl
            all_goals cases hpl
            all_goals exact ⟨rfl, rfl⟩

theorem memPlaces_same {q : Req} {m : Mach} {k g o h : Nat} {u : Use} {acc : Acc} {code n : Nat} {ls : List (Nat × Loc)}
    (hp : memPlaces q m k g o h u acc code n = .ok ls) : ∀ e ∈ ls, ∀ e' ∈ ls, e.2.cacheable = e'.2.cacheable := by
  obtain ⟨lanes, -, h2⟩ := bind_ok hp
  obtain ⟨kd, po, h⟩ := places_same h2
  intro e he e' he'
  unfold Loc.cacheable
  rw [(h e he).1, (h e he).2, (h e' he').1, (h e' he').2]

/-- What the caches serve is the same after the checks. -/
theorem admitted_copies {q : Req} {k : Nat} {m m' : Mach} (hA : Admitted q k m m') :
    m'.blockOf k = m.blockOf k ∧ (∀ l, m'.servedBy k l = m.servedBy k l) ∧ (∀ l c, m'.mayServe k l c ↔ m.mayServe k l c) ∧
    (∀ l n b, copyLane m' k l n b = copyLane m k l n b) := by
  have hbo : m'.blockOf k = m.blockOf k := by
    unfold Mach.blockOf Mach.block
    rw [show m'.blocks = m.blocks from (congrArg Mach.blocks hA.machine : _),
      show (m'.warp k).block = (m.warp k).block from hA.keeps Warp.block fun _ _ _ => rfl]
  have hp : (m'.warp k).pts = (m.warp k).pts := hA.keeps Warp.pts fun _ _ _ => rfl
  refine ⟨hbo, ?_, ?_, ?_⟩
  · intro l
    unfold Mach.servedBy Mach.copyFor
    rw [hbo, hp, hA.machine]
    rfl
  · intro l c
    unfold Mach.mayServe
    rw [hbo, hp, hA.machine]
    rfl
  · intro l n b
    unfold copyLane
    rw [hbo]

end Sys2Proof.Machine
end

