-- ==== Sys2Proof/Laws/Decode.lean ====
section
/-!
SUPPORT. What the decoder reads from the words of each instruction: fields that are written into a word are read back.
-/

namespace Sys2Proof

theorem wordOfBytes_bytesOfWord {n : Nat} (h : n < 2 ^ 32) :
    wordOfBytes (BitVec.ofNat 8 (BitVec.ofNat 32 n).toNat) (BitVec.ofNat 8 ((BitVec.ofNat 32 n).toNat / 2 ^ 8))
      (BitVec.ofNat 8 ((BitVec.ofNat 32 n).toNat / 2 ^ 16)) (BitVec.ofNat 8 ((BitVec.ofNat 32 n).toNat / 2 ^ 24)) = BitVec.ofNat 32 n := by
  unfold wordOfBytes
  congr 1
  simp only [BitVec.toNat_ofNat]
  omega

/-- The bytes of some words decode to an instruction and leave the bytes after them. -/
def Reads (ws : List Nat) (i : Instr) : Prop :=
  ∀ rest, decodeBytes ((ws.map (BitVec.ofNat 32)).flatMap bytesOfWord ++ rest) = .ok (i, rest)

theorem Reads.one {n : Nat} {i : Instr} (hn : n < 2 ^ 32) (h2 : twoWords n = false) (h : decodeNat n 0 = .ok i) : Reads [n] i := by
  intro rest
  have hw : (BitVec.ofNat 32 n).toNat = n := by rw [BitVec.toNat_ofNat]; omega
  simp only [List.map_cons, List.map_nil, List.flatMap_cons, List.flatMap_nil, bytesOfWord, List.append_nil, List.cons_append, List.nil_append,
    decodeBytes, wordOfBytes_bytesOfWord hn]
  rw [hw, h2, if_neg (by decide)]
  unfold decode
  rw [hw, show (0 : Word).toNat = 0 from rfl, h]
  rfl

theorem Reads.two {n m : Nat} {i : Instr} (hn : n < 2 ^ 32) (hm : m < 2 ^ 32) (h2 : twoWords n = true) (h : decodeNat n m = .ok i) :
    Reads [n, m] i := by
  intro rest
  have hw : (BitVec.ofNat 32 n).toNat = n := by rw [BitVec.toNat_ofNat]; omega
  have hw2 : (BitVec.ofNat 32 m).toNat = m := by rw [BitVec.toNat_ofNat]; omega
  simp only [List.map_cons, List.map_nil, List.flatMap_cons, List.flatMap_nil, bytesOfWord, List.append_nil, List.cons_append, List.nil_append,
    decodeBytes, wordOfBytes_bytesOfWord hn, wordOfBytes_bytesOfWord hm]
  rw [hw, h2, if_pos rfl]
  unfold decode
  rw [hw, hw2, h]
  rfl

theorem FA3.bits_bounds (x : FA3) : x.bits % 2 ^ 2 = 0 ∧ x.bits < 2 ^ 25 := by
  obtain ⟨sc, d, a, b, h, g⟩ := x
  have h_sc := sc.isLt
  have h_d := d.isLt
  have h_a := a.isLt
  have h_b := b.isLt
  have h_h := h.isLt
  have h_g := g.isLt
  unfold FA3.bits
  dsimp only
  refine ⟨?_, ?_⟩ <;> omega

theorem FA3.ofNat_bits {n : Nat} (x : FA3) (f0 : Nat) (f1 : Nat) (h0 : f0 < 2 ^ 2) (hn : n = x.bits + (f0 * 2 ^ 0 + f1 * 2 ^ 25)) :
    FA3.ofNat n = x := by
  obtain ⟨sc, d, a, b, h, g⟩ := x
  have h_sc := sc.isLt
  have h_d := d.isLt
  have h_a := a.isLt
  have h_b := b.isLt
  have h_h := h.isLt
  have h_g := g.isLt
  unfold FA3.bits at hn
  dsimp only at hn
  unfold FA3.ofNat
  rw [FA3.mk.injEq]
  refine ⟨?_, ?_, ?_, ?_, ?_, ?_⟩ <;> (apply BitVec.eq_of_toNat_eq; rw [BitVec.toNat_ofNat]; omega)

theorem FA2.bits_bounds (x : FA2) : x.bits % 2 ^ 2 = 0 ∧ x.bits / 2 ^ 6 % 2 ^ 6 = 0 ∧ x.bits < 2 ^ 25 := by
  obtain ⟨sc, d, a, h, g⟩ := x
  have h_sc := sc.isLt
  have h_d := d.isLt
  have h_a := a.isLt
  have h_h := h.isLt
  have h_g := g.isLt
  unfold FA2.bits
  dsimp only
  refine ⟨?_, ?_, ?_⟩ <;> omega

theorem FA2.ofNat_bits {n : Nat} (x : FA2) (f0 : Nat) (f1 : Nat) (f2 : Nat) (h0 : f0 < 2 ^ 2) (h1 : f1 < 2 ^ 6) (hn : n = x.bits + (f0 * 2 ^ 0 + f1 * 2 ^ 6 + f2 * 2 ^ 25)) :
    FA2.ofNat n = x := by
  obtain ⟨sc, d, a, h, g⟩ := x
  have h_sc := sc.isLt
  have h_d := d.isLt
  have h_a := a.isLt
  have h_h := h.isLt
  have h_g := g.isLt
  unfold FA2.bits at hn
  dsimp only at hn
  unfold FA2.ofNat
  rw [FA2.mk.injEq]
  refine ⟨?_, ?_, ?_, ?_, ?_⟩ <;> (apply BitVec.eq_of_toNat_eq; rw [BitVec.toNat_ofNat]; omega)

theorem FC.bits_bounds (x : FC) : x.bits < 2 ^ 25 := by
  obtain ⟨sc, cnd, pd, a, b, h, g, f⟩ := x
  have h_sc := sc.isLt
  have h_cnd := cnd.isLt
  have h_pd := pd.isLt
  have h_a := a.isLt
  have h_b := b.isLt
  have h_h := h.isLt
  have h_g := g.isLt
  have h_f := f.isLt
  unfold FC.bits
  dsimp only
  omega

theorem FC.ofNat_bits {n : Nat} (x : FC) (f0 : Nat)  (hn : n = x.bits + (f0 * 2 ^ 25)) :
    FC.ofNat n = x := by
  obtain ⟨sc, cnd, pd, a, b, h, g, f⟩ := x
  have h_sc := sc.isLt
  have h_cnd := cnd.isLt
  have h_pd := pd.isLt
  have h_a := a.isLt
  have h_b := b.isLt
  have h_h := h.isLt
  have h_g := g.isLt
  have h_f := f.isLt
  unfold FC.bits at hn
  dsimp only at hn
  unfold FC.ofNat
  rw [FC.mk.injEq]
  refine ⟨?_, ?_, ?_, ?_, ?_, ?_, ?_, ?_⟩ <;> (apply BitVec.eq_of_toNat_eq; rw [BitVec.toNat_ofNat]; omega)

theorem FDAG.bits_bounds (x : FDAG) : x.bits % 2 ^ 2 = 0 ∧ x.bits / 2 ^ 5 % 2 ^ 7 = 0 ∧ x.bits < 2 ^ 24 := by
  obtain ⟨d, a, g⟩ := x
  have h_d := d.isLt
  have h_a := a.isLt
  have h_g := g.isLt
  unfold FDAG.bits
  dsimp only
  refine ⟨?_, ?_, ?_⟩ <;> omega

theorem FDAG.ofNat_bits {n : Nat} (x : FDAG) (f0 : Nat) (f1 : Nat) (f2 : Nat) (h0 : f0 < 2 ^ 2) (h1 : f1 < 2 ^ 7) (hn : n = x.bits + (f0 * 2 ^ 0 + f1 * 2 ^ 5 + f2 * 2 ^ 24)) :
    FDAG.ofNat n = x := by
  obtain ⟨d, a, g⟩ := x
  have h_d := d.isLt
  have h_a := a.isLt
  have h_g := g.isLt
  unfold FDAG.bits at hn
  dsimp only at hn
  unfold FDAG.ofNat
  rw [FDAG.mk.injEq]
  refine ⟨?_, ?_, ?_⟩ <;> (apply BitVec.eq_of_toNat_eq; rw [BitVec.toNat_ofNat]; omega)

theorem FDAHG.bits_bounds (x : FDAHG) : x.bits % 2 ^ 2 = 0 ∧ x.bits / 2 ^ 6 % 2 ^ 6 = 0 ∧ x.bits < 2 ^ 24 := by
  obtain ⟨d, a, h, g⟩ := x
  have h_d := d.isLt
  have h_a := a.isLt
  have h_h := h.isLt
  have h_g := g.isLt
  unfold FDAHG.bits
  dsimp only
  refine ⟨?_, ?_, ?_⟩ <;> omega

theorem FDAHG.ofNat_bits {n : Nat} (x : FDAHG) (f0 : Nat) (f1 : Nat) (f2 : Nat) (h0 : f0 < 2 ^ 2) (h1 : f1 < 2 ^ 6) (hn : n = x.bits + (f0 * 2 ^ 0 + f1 * 2 ^ 6 + f2 * 2 ^ 24)) :
    FDAHG.ofNat n = x := by
  obtain ⟨d, a, h, g⟩ := x
  have h_d := d.isLt
  have h_a := a.isLt
  have h_h := h.isLt
  have h_g := g.isLt
  unfold FDAHG.bits at hn
  dsimp only at hn
  unfold FDAHG.ofNat
  rw [FDAHG.mk.injEq]
  refine ⟨?_, ?_, ?_, ?_⟩ <;> (apply BitVec.eq_of_toNat_eq; rw [BitVec.toNat_ofNat]; omega)

theorem FQ.bits_bounds (x : FQ) : x.bits < 2 ^ 25 := by
  obtain ⟨sc, d, a, b, c⟩ := x
  have h_sc := sc.isLt
  have h_d := d.isLt
  have h_a := a.isLt
  have h_b := b.isLt
  have h_c := c.isLt
  unfold FQ.bits
  dsimp only
  omega

theorem FQ.ofNat_bits {n : Nat} (x : FQ) (f0 : Nat)  (hn : n = x.bits + (f0 * 2 ^ 25)) :
    FQ.ofNat n = x := by
  obtain ⟨sc, d, a, b, c⟩ := x
  have h_sc := sc.isLt
  have h_d := d.isLt
  have h_a := a.isLt
  have h_b := b.isLt
  have h_c := c.isLt
  unfold FQ.bits at hn
  dsimp only at hn
  unfold FQ.ofNat
  rw [FQ.mk.injEq]
  refine ⟨?_, ?_, ?_, ?_, ?_⟩ <;> (apply BitVec.eq_of_toNat_eq; rw [BitVec.toNat_ofNat]; omega)

theorem FI.bits_bounds (x : FI) : x.bits < 2 ^ 25 := by
  obtain ⟨sc, d, a, imm⟩ := x
  have h_sc := sc.isLt
  have h_d := d.isLt
  have h_a := a.isLt
  have h_imm := imm.isLt
  unfold FI.bits
  dsimp only
  omega

theorem FI.ofNat_bits {n : Nat} (x : FI) (f0 : Nat)  (hn : n = x.bits + (f0 * 2 ^ 25)) :
    FI.ofNat n = x := by
  obtain ⟨sc, d, a, imm⟩ := x
  have h_sc := sc.isLt
  have h_d := d.isLt
  have h_a := a.isLt
  have h_imm := imm.isLt
  unfold FI.bits at hn
  dsimp only at hn
  unfold FI.ofNat
  rw [FI.mk.injEq]
  refine ⟨?_, ?_, ?_, ?_⟩ <;> (apply BitVec.eq_of_toNat_eq; rw [BitVec.toNat_ofNat]; omega)

theorem FK10.bits_bounds (x : FK10) : x.bits / 2 ^ 10 % 2 ^ 2 = 0 ∧ x.bits < 2 ^ 25 := by
  obtain ⟨sc, d, a, imm⟩ := x
  have h_sc := sc.isLt
  have h_d := d.isLt
  have h_a := a.isLt
  have h_imm := imm.isLt
  unfold FK10.bits
  dsimp only
  refine ⟨?_, ?_⟩ <;> omega

theorem FK10.ofNat_bits {n : Nat} (x : FK10) (f0 : Nat) (f1 : Nat) (h0 : f0 < 2 ^ 2) (hn : n = x.bits + (f0 * 2 ^ 10 + f1 * 2 ^ 25)) :
    FK10.ofNat n = x := by
  obtain ⟨sc, d, a, imm⟩ := x
  have h_sc := sc.isLt
  have h_d := d.isLt
  have h_a := a.isLt
  have h_imm := imm.isLt
  unfold FK10.bits at hn
  dsimp only at hn
  unfold FK10.ofNat
  rw [FK10.mk.injEq]
  refine ⟨?_, ?_, ?_, ?_⟩ <;> (apply BitVec.eq_of_toNat_eq; rw [BitVec.toNat_ofNat]; omega)

theorem FK5.bits_bounds (x : FK5) : x.bits / 2 ^ 5 % 2 ^ 7 = 0 ∧ x.bits < 2 ^ 25 := by
  obtain ⟨sc, d, a, imm⟩ := x
  have h_sc := sc.isLt
  have h_d := d.isLt
  have h_a := a.isLt
  have h_imm := imm.isLt
  unfold FK5.bits
  dsimp only
  refine ⟨?_, ?_⟩ <;> omega

theorem FK5.ofNat_bits {n : Nat} (x : FK5) (f0 : Nat) (f1 : Nat) (h0 : f0 < 2 ^ 7) (hn : n = x.bits + (f0 * 2 ^ 5 + f1 * 2 ^ 25)) :
    FK5.ofNat n = x := by
  obtain ⟨sc, d, a, imm⟩ := x
  have h_sc := sc.isLt
  have h_d := d.isLt
  have h_a := a.isLt
  have h_imm := imm.isLt
  unfold FK5.bits at hn
  dsimp only at hn
  unfold FK5.ofNat
  rw [FK5.mk.injEq]
  refine ⟨?_, ?_, ?_, ?_⟩ <;> (apply BitVec.eq_of_toNat_eq; rw [BitVec.toNat_ofNat]; omega)

theorem FL18.bits_bounds (x : FL18) : x.bits < 2 ^ 25 := by
  obtain ⟨sc, d, imm⟩ := x
  have h_sc := sc.isLt
  have h_d := d.isLt
  have h_imm := imm.isLt
  unfold FL18.bits
  dsimp only
  omega

theorem FL18.ofNat_bits {n : Nat} (x : FL18) (f0 : Nat)  (hn : n = x.bits + (f0 * 2 ^ 25)) :
    FL18.ofNat n = x := by
  obtain ⟨sc, d, imm⟩ := x
  have h_sc := sc.isLt
  have h_d := d.isLt
  have h_imm := imm.isLt
  unfold FL18.bits at hn
  dsimp only at hn
  unfold FL18.ofNat
  rw [FL18.mk.injEq]
  refine ⟨?_, ?_, ?_⟩ <;> (apply BitVec.eq_of_toNat_eq; rw [BitVec.toNat_ofNat]; omega)

theorem FL14.bits_bounds (x : FL14) : x.bits / 2 ^ 14 % 2 ^ 4 = 0 ∧ x.bits < 2 ^ 25 := by
  obtain ⟨sc, d, imm⟩ := x
  have h_sc := sc.isLt
  have h_d := d.isLt
  have h_imm := imm.isLt
  unfold FL14.bits
  dsimp only
  refine ⟨?_, ?_⟩ <;> omega

theorem FL14.ofNat_bits {n : Nat} (x : FL14) (f0 : Nat) (f1 : Nat) (h0 : f0 < 2 ^ 4) (hn : n = x.bits + (f0 * 2 ^ 14 + f1 * 2 ^ 25)) :
    FL14.ofNat n = x := by
  obtain ⟨sc, d, imm⟩ := x
  have h_sc := sc.isLt
  have h_d := d.isLt
  have h_imm := imm.isLt
  unfold FL14.bits at hn
  dsimp only at hn
  unfold FL14.ofNat
  rw [FL14.mk.injEq]
  refine ⟨?_, ?_, ?_⟩ <;> (apply BitVec.eq_of_toNat_eq; rw [BitVec.toNat_ofNat]; omega)

theorem FCI.bits_bounds (x : FCI) : x.bits < 2 ^ 25 := by
  obtain ⟨sc, cnd, pd, a, imm⟩ := x
  have h_sc := sc.isLt
  have h_cnd := cnd.isLt
  have h_pd := pd.isLt
  have h_a := a.isLt
  have h_imm := imm.isLt
  unfold FCI.bits
  dsimp only
  omega

theorem FCI.ofNat_bits {n : Nat} (x : FCI) (f0 : Nat)  (hn : n = x.bits + (f0 * 2 ^ 25)) :
    FCI.ofNat n = x := by
  obtain ⟨sc, cnd, pd, a, imm⟩ := x
  have h_sc := sc.isLt
  have h_cnd := cnd.isLt
  have h_pd := pd.isLt
  have h_a := a.isLt
  have h_imm := imm.isLt
  unfold FCI.bits at hn
  dsimp only at hn
  unfold FCI.ofNat
  rw [FCI.mk.injEq]
  refine ⟨?_, ?_, ?_, ?_, ?_⟩ <;> (apply BitVec.eq_of_toNat_eq; rw [BitVec.toNat_ofNat]; omega)

theorem FDABG.bits_bounds (x : FDABG) : x.bits % 2 ^ 2 = 0 ∧ x.bits / 2 ^ 5 % 2 ^ 1 = 0 ∧ x.bits < 2 ^ 24 := by
  obtain ⟨d, a, b, g⟩ := x
  have h_d := d.isLt
  have h_a := a.isLt
  have h_b := b.isLt
  have h_g := g.isLt
  unfold FDABG.bits
  dsimp only
  refine ⟨?_, ?_, ?_⟩ <;> omega

theorem FDABG.ofNat_bits {n : Nat} (x : FDABG) (f0 : Nat) (f1 : Nat) (f2 : Nat) (h0 : f0 < 2 ^ 2) (h1 : f1 < 2 ^ 1) (hn : n = x.bits + (f0 * 2 ^ 0 + f1 * 2 ^ 5 + f2 * 2 ^ 24)) :
    FDABG.ofNat n = x := by
  obtain ⟨d, a, b, g⟩ := x
  have h_d := d.isLt
  have h_a := a.isLt
  have h_b := b.isLt
  have h_g := g.isLt
  unfold FDABG.bits at hn
  dsimp only at hn
  unfold FDABG.ofNat
  rw [FDABG.mk.injEq]
  refine ⟨?_, ?_, ?_, ?_⟩ <;> (apply BitVec.eq_of_toNat_eq; rw [BitVec.toNat_ofNat]; omega)

theorem FDABHG.bits_bounds (x : FDABHG) : x.bits % 2 ^ 2 = 0 ∧ x.bits < 2 ^ 24 := by
  obtain ⟨d, a, b, h, g⟩ := x
  have h_d := d.isLt
  have h_a := a.isLt
  have h_b := b.isLt
  have h_h := h.isLt
  have h_g := g.isLt
  unfold FDABHG.bits
  dsimp only
  refine ⟨?_, ?_⟩ <;> omega

theorem FDABHG.ofNat_bits {n : Nat} (x : FDABHG) (f0 : Nat) (f1 : Nat) (h0 : f0 < 2 ^ 2) (hn : n = x.bits + (f0 * 2 ^ 0 + f1 * 2 ^ 24)) :
    FDABHG.ofNat n = x := by
  obtain ⟨d, a, b, h, g⟩ := x
  have h_d := d.isLt
  have h_a := a.isLt
  have h_b := b.isLt
  have h_h := h.isLt
  have h_g := g.isLt
  unfold FDABHG.bits at hn
  dsimp only at hn
  unfold FDABHG.ofNat
  rw [FDABHG.mk.injEq]
  refine ⟨?_, ?_, ?_, ?_, ?_⟩ <;> (apply BitVec.eq_of_toNat_eq; rw [BitVec.toNat_ofNat]; omega)

theorem FDG.bits_bounds (x : FDG) : x.bits % 2 ^ 2 = 0 ∧ x.bits / 2 ^ 5 % 2 ^ 13 = 0 ∧ x.bits < 2 ^ 24 := by
  obtain ⟨d, g⟩ := x
  have h_d := d.isLt
  have h_g := g.isLt
  unfold FDG.bits
  dsimp only
  refine ⟨?_, ?_, ?_⟩ <;> omega

theorem FDG.ofNat_bits {n : Nat} (x : FDG) (f0 : Nat) (f1 : Nat) (f2 : Nat) (h0 : f0 < 2 ^ 2) (h1 : f1 < 2 ^ 13) (hn : n = x.bits + (f0 * 2 ^ 0 + f1 * 2 ^ 5 + f2 * 2 ^ 24)) :
    FDG.ofNat n = x := by
  obtain ⟨d, g⟩ := x
  have h_d := d.isLt
  have h_g := g.isLt
  unfold FDG.bits at hn
  dsimp only at hn
  unfold FDG.ofNat
  rw [FDG.mk.injEq]
  refine ⟨?_, ?_⟩ <;> (apply BitVec.eq_of_toNat_eq; rw [BitVec.toNat_ofNat]; omega)

theorem FA2K.bits_bounds (x : FA2K) : x.bits / 2 ^ 6 % 2 ^ 6 = 0 ∧ x.bits < 2 ^ 25 := by
  obtain ⟨sc, d, a, h, g, k⟩ := x
  have h_sc := sc.isLt
  have h_d := d.isLt
  have h_a := a.isLt
  have h_h := h.isLt
  have h_g := g.isLt
  have h_k := k.isLt
  unfold FA2K.bits
  dsimp only
  refine ⟨?_, ?_⟩ <;> omega

theorem FA2K.ofNat_bits {n : Nat} (x : FA2K) (f0 : Nat) (f1 : Nat) (h0 : f0 < 2 ^ 6) (hn : n = x.bits + (f0 * 2 ^ 6 + f1 * 2 ^ 25)) :
    FA2K.ofNat n = x := by
  obtain ⟨sc, d, a, h, g, k⟩ := x
  have h_sc := sc.isLt
  have h_d := d.isLt
  have h_a := a.isLt
  have h_h := h.isLt
  have h_g := g.isLt
  have h_k := k.isLt
  unfold FA2K.bits at hn
  dsimp only at hn
  unfold FA2K.ofNat
  rw [FA2K.mk.injEq]
  refine ⟨?_, ?_, ?_, ?_, ?_, ?_⟩ <;> (apply BitVec.eq_of_toNat_eq; rw [BitVec.toNat_ofNat]; omega)

theorem FM.bits_bounds (x : FM) : x.bits < 2 ^ 25 := by
  obtain ⟨sc, d, o, h, z, g⟩ := x
  have h_sc := sc.isLt
  have h_d := d.isLt
  have h_o := o.isLt
  have h_h := h.isLt
  have h_z := z.isLt
  have h_g := g.isLt
  unfold FM.bits
  dsimp only
  omega

theorem FM.ofNat_bits {n : Nat} (x : FM) (f0 : Nat)  (hn : n = x.bits + (f0 * 2 ^ 25)) :
    FM.ofNat n = x := by
  obtain ⟨sc, d, o, h, z, g⟩ := x
  have h_sc := sc.isLt
  have h_d := d.isLt
  have h_o := o.isLt
  have h_h := h.isLt
  have h_z := z.isLt
  have h_g := g.isLt
  unfold FM.bits at hn
  dsimp only at hn
  unfold FM.ofNat
  rw [FM.mk.injEq]
  refine ⟨?_, ?_, ?_, ?_, ?_, ?_⟩ <;> (apply BitVec.eq_of_toNat_eq; rw [BitVec.toNat_ofNat]; omega)

theorem FMA.bits_bounds (x : FMA) : x.bits % 2 ^ 6 = 0 ∧ x.bits < 2 ^ 25 := by
  obtain ⟨sc, d, o, h⟩ := x
  have h_sc := sc.isLt
  have h_d := d.isLt
  have h_o := o.isLt
  have h_h := h.isLt
  unfold FMA.bits
  dsimp only
  refine ⟨?_, ?_⟩ <;> omega

theorem FMA.ofNat_bits {n : Nat} (x : FMA) (f0 : Nat) (f1 : Nat) (h0 : f0 < 2 ^ 6) (hn : n = x.bits + (f0 * 2 ^ 0 + f1 * 2 ^ 25)) :
    FMA.ofNat n = x := by
  obtain ⟨sc, d, o, h⟩ := x
  have h_sc := sc.isLt
  have h_d := d.isLt
  have h_o := o.isLt
  have h_h := h.isLt
  unfold FMA.bits at hn
  dsimp only at hn
  unfold FMA.ofNat
  rw [FMA.mk.injEq]
  refine ⟨?_, ?_, ?_, ?_⟩ <;> (apply BitVec.eq_of_toNat_eq; rw [BitVec.toNat_ofNat]; omega)

theorem FCAS.bits_bounds (x : FCAS) : x.bits / 2 ^ 4 % 2 ^ 2 = 0 ∧ x.bits < 2 ^ 25 := by
  obtain ⟨sc, d, o, h, z, g⟩ := x
  have h_sc := sc.isLt
  have h_d := d.isLt
  have h_o := o.isLt
  have h_h := h.isLt
  have h_z := z.isLt
  have h_g := g.isLt
  unfold FCAS.bits
  dsimp only
  refine ⟨?_, ?_⟩ <;> omega

theorem FCAS.ofNat_bits {n : Nat} (x : FCAS) (f0 : Nat) (f1 : Nat) (h0 : f0 < 2 ^ 2) (hn : n = x.bits + (f0 * 2 ^ 4 + f1 * 2 ^ 25)) :
    FCAS.ofNat n = x := by
  obtain ⟨sc, d, o, h, z, g⟩ := x
  have h_sc := sc.isLt
  have h_d := d.isLt
  have h_o := o.isLt
  have h_h := h.isLt
  have h_z := z.isLt
  have h_g := g.isLt
  unfold FCAS.bits at hn
  dsimp only at hn
  unfold FCAS.ofNat
  rw [FCAS.mk.injEq]
  refine ⟨?_, ?_, ?_, ?_, ?_, ?_⟩ <;> (apply BitVec.eq_of_toNat_eq; rw [BitVec.toNat_ofNat]; omega)

theorem FSNAP.bits_bounds (x : FSNAP) : x.bits / 2 ^ 3 % 2 ^ 3 = 0 ∧ x.bits < 2 ^ 24 := by
  obtain ⟨d, o, h, g⟩ := x
  have h_d := d.isLt
  have h_o := o.isLt
  have h_h := h.isLt
  have h_g := g.isLt
  unfold FSNAP.bits
  dsimp only
  refine ⟨?_, ?_⟩ <;> omega

theorem FSNAP.ofNat_bits {n : Nat} (x : FSNAP) (f0 : Nat) (f1 : Nat) (h0 : f0 < 2 ^ 3) (hn : n = x.bits + (f0 * 2 ^ 3 + f1 * 2 ^ 24)) :
    FSNAP.ofNat n = x := by
  obtain ⟨d, o, h, g⟩ := x
  have h_d := d.isLt
  have h_o := o.isLt
  have h_h := h.isLt
  have h_g := g.isLt
  unfold FSNAP.bits at hn
  dsimp only at hn
  unfold FSNAP.ofNat
  rw [FSNAP.mk.injEq]
  refine ⟨?_, ?_, ?_, ?_⟩ <;> (apply BitVec.eq_of_toNat_eq; rw [BitVec.toNat_ofNat]; omega)

theorem FCOPY.bits_bounds (x : FCOPY) : x.bits / 2 ^ 12 % 2 ^ 3 = 0 ∧ x.bits < 2 ^ 26 ∧ x.bits2 < 2 ^ 32 ∧ x.bits2 % 2 ^ 24 = 0 := by
  obtain ⟨sc, fu, t, dir, fl, cr, tr, lay⟩ := x
  have h_sc := sc.isLt
  have h_fu := fu.isLt
  have h_t := t.isLt
  have h_dir := dir.isLt
  have h_fl := fl.isLt
  have h_cr := cr.isLt
  have h_tr := tr.isLt
  have h_lay := lay.isLt
  unfold FCOPY.bits FCOPY.bits2
  dsimp only
  refine ⟨?_, ?_, ?_, ?_⟩ <;> omega

theorem FCOPY.ofNat_bits {n : Nat} (x : FCOPY) (f0 : Nat) (f1 : Nat) (h0 : f0 < 2 ^ 3) (hn : n = x.bits + (f0 * 2 ^ 12 + f1 * 2 ^ 26)) :
    FCOPY.ofNat n x.bits2 = x := by
  obtain ⟨sc, fu, t, dir, fl, cr, tr, lay⟩ := x
  have h_sc := sc.isLt
  have h_fu := fu.isLt
  have h_t := t.isLt
  have h_dir := dir.isLt
  have h_fl := fl.isLt
  have h_cr := cr.isLt
  have h_tr := tr.isLt
  have h_lay := lay.isLt
  unfold FCOPY.bits at hn
  unfold FCOPY.bits2
  dsimp only at hn ⊢
  unfold FCOPY.ofNat
  rw [FCOPY.mk.injEq]
  refine ⟨?_, ?_, ?_, ?_, ?_, ?_, ?_, ?_⟩ <;> (apply BitVec.eq_of_toNat_eq; rw [BitVec.toNat_ofNat]; omega)

theorem FGATH.bits_bounds (x : FGATH) : x.bits / 2 ^ 12 % 2 ^ 3 = 0 ∧ x.bits / 2 ^ 16 % 2 ^ 1 = 0 ∧ x.bits < 2 ^ 26 ∧ x.bits2 < 2 ^ 32 ∧ x.bits2 % 2 ^ 18 = 0 := by
  obtain ⟨sc, fu, t, fl, iv, tr, lay, c0⟩ := x
  have h_sc := sc.isLt
  have h_fu := fu.isLt
  have h_t := t.isLt
  have h_fl := fl.isLt
  have h_iv := iv.isLt
  have h_tr := tr.isLt
  have h_lay := lay.isLt
  have h_c0 := c0.isLt
  unfold FGATH.bits FGATH.bits2
  dsimp only
  refine ⟨?_, ?_, ?_, ?_, ?_⟩ <;> omega

theorem FGATH.ofNat_bits {n : Nat} (x : FGATH) (f0 : Nat) (f1 : Nat) (f2 : Nat) (h0 : f0 < 2 ^ 3) (h1 : f1 < 2 ^ 1) (hn : n = x.bits + (f0 * 2 ^ 12 + f1 * 2 ^ 16 + f2 * 2 ^ 26)) :
    FGATH.ofNat n x.bits2 = x := by
  obtain ⟨sc, fu, t, fl, iv, tr, lay, c0⟩ := x
  have h_sc := sc.isLt
  have h_fu := fu.isLt
  have h_t := t.isLt
  have h_fl := fl.isLt
  have h_iv := iv.isLt
  have h_tr := tr.isLt
  have h_lay := lay.isLt
  have h_c0 := c0.isLt
  unfold FGATH.bits at hn
  unfold FGATH.bits2
  dsimp only at hn ⊢
  unfold FGATH.ofNat
  rw [FGATH.mk.injEq]
  refine ⟨?_, ?_, ?_, ?_, ?_, ?_, ?_, ?_⟩ <;> (apply BitVec.eq_of_toNat_eq; rw [BitVec.toNat_ofNat]; omega)

theorem FCOLL.bits_bounds (x : FCOLL) : x.bits % 2 ^ 10 = 0 ∧ x.bits < 2 ^ 26 ∧ x.bits2 < 2 ^ 32 ∧ x.bits2 % 2 ^ 18 = 0 := by
  obtain ⟨sc, fu, t, kind, red, fmt, grp, rb⟩ := x
  have h_sc := sc.isLt
  have h_fu := fu.isLt
  have h_t := t.isLt
  have h_kind := kind.isLt
  have h_red := red.isLt
  have h_fmt := fmt.isLt
  have h_grp := grp.isLt
  have h_rb := rb.isLt
  unfold FCOLL.bits FCOLL.bits2
  dsimp only
  refine ⟨?_, ?_, ?_, ?_⟩ <;> omega

theorem FCOLL.ofNat_bits {n : Nat} (x : FCOLL) (f0 : Nat) (f1 : Nat) (h0 : f0 < 2 ^ 10) (hn : n = x.bits + (f0 * 2 ^ 0 + f1 * 2 ^ 26)) :
    FCOLL.ofNat n x.bits2 = x := by
  obtain ⟨sc, fu, t, kind, red, fmt, grp, rb⟩ := x
  have h_sc := sc.isLt
  have h_fu := fu.isLt
  have h_t := t.isLt
  have h_kind := kind.isLt
  have h_red := red.isLt
  have h_fmt := fmt.isLt
  have h_grp := grp.isLt
  have h_rb := rb.isLt
  unfold FCOLL.bits at hn
  unfold FCOLL.bits2
  dsimp only at hn ⊢
  unfold FCOLL.ofNat
  rw [FCOLL.mk.injEq]
  refine ⟨?_, ?_, ?_, ?_, ?_, ?_, ?_, ?_⟩ <;> (apply BitVec.eq_of_toNat_eq; rw [BitVec.toNat_ofNat]; omega)

theorem FSAB.bits_bounds (x : FSAB) : x.bits % 2 ^ 6 = 0 ∧ x.bits / 2 ^ 18 % 2 ^ 6 = 0 ∧ x.bits < 2 ^ 26 := by
  obtain ⟨sc, a, b⟩ := x
  have h_sc := sc.isLt
  have h_a := a.isLt
  have h_b := b.isLt
  unfold FSAB.bits
  dsimp only
  refine ⟨?_, ?_, ?_⟩ <;> omega

theorem FSAB.ofNat_bits {n : Nat} (x : FSAB) (f0 : Nat) (f1 : Nat) (f2 : Nat) (h0 : f0 < 2 ^ 6) (h1 : f1 < 2 ^ 6) (hn : n = x.bits + (f0 * 2 ^ 0 + f1 * 2 ^ 18 + f2 * 2 ^ 26)) :
    FSAB.ofNat n = x := by
  obtain ⟨sc, a, b⟩ := x
  have h_sc := sc.isLt
  have h_a := a.isLt
  have h_b := b.isLt
  unfold FSAB.bits at hn
  dsimp only at hn
  unfold FSAB.ofNat
  rw [FSAB.mk.injEq]
  refine ⟨?_, ?_, ?_⟩ <;> (apply BitVec.eq_of_toNat_eq; rw [BitVec.toNat_ofNat]; omega)

theorem FAB.bits_bounds (x : FAB) : x.bits % 2 ^ 6 = 0 ∧ x.bits < 2 ^ 18 := by
  obtain ⟨a, b⟩ := x
  have h_a := a.isLt
  have h_b := b.isLt
  unfold FAB.bits
  dsimp only
  refine ⟨?_, ?_⟩ <;> omega

theorem FAB.ofNat_bits {n : Nat} (x : FAB) (f0 : Nat) (f1 : Nat) (h0 : f0 < 2 ^ 6) (hn : n = x.bits + (f0 * 2 ^ 0 + f1 * 2 ^ 18)) :
    FAB.ofNat n = x := by
  obtain ⟨a, b⟩ := x
  have h_a := a.isLt
  have h_b := b.isLt
  unfold FAB.bits at hn
  dsimp only at hn
  unfold FAB.ofNat
  rw [FAB.mk.injEq]
  refine ⟨?_, ?_⟩ <;> (apply BitVec.eq_of_toNat_eq; rw [BitVec.toNat_ofNat]; omega)

theorem FTL.bits_bounds (x : FTL) : x.bits / 2 ^ 18 % 2 ^ 6 = 0 ∧ x.bits < 2 ^ 25 := by
  obtain ⟨sc, a, b, c⟩ := x
  have h_sc := sc.isLt
  have h_a := a.isLt
  have h_b := b.isLt
  have h_c := c.isLt
  unfold FTL.bits
  dsimp only
  refine ⟨?_, ?_⟩ <;> omega

theorem FTL.ofNat_bits {n : Nat} (x : FTL) (f0 : Nat) (f1 : Nat) (h0 : f0 < 2 ^ 6) (hn : n = x.bits + (f0 * 2 ^ 18 + f1 * 2 ^ 25)) :
    FTL.ofNat n = x := by
  obtain ⟨sc, a, b, c⟩ := x
  have h_sc := sc.isLt
  have h_a := a.isLt
  have h_b := b.isLt
  have h_c := c.isLt
  unfold FTL.bits at hn
  dsimp only at hn
  unfold FTL.ofNat
  rw [FTL.mk.injEq]
  refine ⟨?_, ?_, ?_, ?_⟩ <;> (apply BitVec.eq_of_toNat_eq; rw [BitVec.toNat_ofNat]; omega)

theorem FSC.bits_bounds (x : FSC) : x.bits / 2 ^ 6 % 2 ^ 18 = 0 ∧ x.bits < 2 ^ 26 := by
  obtain ⟨sc, c⟩ := x
  have h_sc := sc.isLt
  have h_c := c.isLt
  unfold FSC.bits
  dsimp only
  refine ⟨?_, ?_⟩ <;> omega

theorem FSC.ofNat_bits {n : Nat} (x : FSC) (f0 : Nat) (f1 : Nat) (h0 : f0 < 2 ^ 18) (hn : n = x.bits + (f0 * 2 ^ 6 + f1 * 2 ^ 26)) :
    FSC.ofNat n = x := by
  obtain ⟨sc, c⟩ := x
  have h_sc := sc.isLt
  have h_c := c.isLt
  unfold FSC.bits at hn
  dsimp only at hn
  unfold FSC.ofNat
  rw [FSC.mk.injEq]
  refine ⟨?_, ?_⟩ <;> (apply BitVec.eq_of_toNat_eq; rw [BitVec.toNat_ofNat]; omega)

theorem FSAC.bits_bounds (x : FSAC) : x.bits / 2 ^ 6 % 2 ^ 6 = 0 ∧ x.bits / 2 ^ 18 % 2 ^ 6 = 0 ∧ x.bits < 2 ^ 26 := by
  obtain ⟨sc, a, c⟩ := x
  have h_sc := sc.isLt
  have h_a := a.isLt
  have h_c := c.isLt
  unfold FSAC.bits
  dsimp only
  refine ⟨?_, ?_, ?_⟩ <;> omega

theorem FSAC.ofNat_bits {n : Nat} (x : FSAC) (f0 : Nat) (f1 : Nat) (f2 : Nat) (h0 : f0 < 2 ^ 6) (h1 : f1 < 2 ^ 6) (hn : n = x.bits + (f0 * 2 ^ 6 + f1 * 2 ^ 18 + f2 * 2 ^ 26)) :
    FSAC.ofNat n = x := by
  obtain ⟨sc, a, c⟩ := x
  have h_sc := sc.isLt
  have h_a := a.isLt
  have h_c := c.isLt
  unfold FSAC.bits at hn
  dsimp only at hn
  unfold FSAC.ofNat
  rw [FSAC.mk.injEq]
  refine ⟨?_, ?_, ?_⟩ <;> (apply BitVec.eq_of_toNat_eq; rw [BitVec.toNat_ofNat]; omega)

theorem FSBC.bits_bounds (x : FSBC) : x.bits / 2 ^ 12 % 2 ^ 12 = 0 ∧ x.bits < 2 ^ 26 := by
  obtain ⟨sc, b, c⟩ := x
  have h_sc := sc.isLt
  have h_b := b.isLt
  have h_c := c.isLt
  unfold FSBC.bits
  dsimp only
  refine ⟨?_, ?_⟩ <;> omega

theorem FSBC.ofNat_bits {n : Nat} (x : FSBC) (f0 : Nat) (f1 : Nat) (h0 : f0 < 2 ^ 12) (hn : n = x.bits + (f0 * 2 ^ 12 + f1 * 2 ^ 26)) :
    FSBC.ofNat n = x := by
  obtain ⟨sc, b, c⟩ := x
  have h_sc := sc.isLt
  have h_b := b.isLt
  have h_c := c.isLt
  unfold FSBC.bits at hn
  dsimp only at hn
  unfold FSBC.ofNat
  rw [FSBC.mk.injEq]
  refine ⟨?_, ?_, ?_⟩ <;> (apply BitVec.eq_of_toNat_eq; rw [BitVec.toNat_ofNat]; omega)

theorem FMMA.bits_bounds (x : FMMA) : x.bits % 2 ^ 5 = 0 ∧ x.bits < 2 ^ 24 ∧ x.bits2 < 2 ^ 32 ∧ x.bits2 / 2 ^ 11 % 2 ^ 21 = 0 := by
  obtain ⟨n, m, slot, ta, tb, z, c⟩ := x
  have h_n := n.isLt
  have h_m := m.isLt
  have h_slot := slot.isLt
  have h_ta := ta.isLt
  have h_tb := tb.isLt
  have h_z := z.isLt
  have h_c := c.isLt
  unfold FMMA.bits FMMA.bits2
  dsimp only
  refine ⟨?_, ?_, ?_, ?_⟩ <;> omega

theorem FMMA.ofNat_bits {n : Nat} (x : FMMA) (f0 : Nat) (f1 : Nat) (h0 : f0 < 2 ^ 5) (hn : n = x.bits + (f0 * 2 ^ 0 + f1 * 2 ^ 24)) :
    FMMA.ofNat n x.bits2 = x := by
  obtain ⟨n, m, slot, ta, tb, z, c⟩ := x
  have h_n := n.isLt
  have h_m := m.isLt
  have h_slot := slot.isLt
  have h_ta := ta.isLt
  have h_tb := tb.isLt
  have h_z := z.isLt
  have h_c := c.isLt
  unfold FMMA.bits at hn
  unfold FMMA.bits2
  dsimp only at hn ⊢
  unfold FMMA.ofNat
  rw [FMMA.mk.injEq]
  refine ⟨?_, ?_, ?_, ?_, ?_, ?_, ?_⟩ <;> (apply BitVec.eq_of_toNat_eq; rw [BitVec.toNat_ofNat]; omega)

theorem FDRAIN.bits_bounds (x : FDRAIN) : x.bits % 2 ^ 7 = 0 ∧ x.bits < 2 ^ 24 ∧ x.bits2 < 2 ^ 32 ∧ x.bits2 / 2 ^ 22 % 2 ^ 10 = 0 := by
  obtain ⟨d, dk, fl, slot, sr, col, row, cb, rb, acc⟩ := x
  have h_d := d.isLt
  have h_dk := dk.isLt
  have h_fl := fl.isLt
  have h_slot := slot.isLt
  have h_sr := sr.isLt
  have h_col := col.isLt
  have h_row := row.isLt
  have h_cb := cb.isLt
  have h_rb := rb.isLt
  have h_acc := acc.isLt
  unfold FDRAIN.bits FDRAIN.bits2
  dsimp only
  refine ⟨?_, ?_, ?_, ?_⟩ <;> omega

theorem FDRAIN.ofNat_bits {n : Nat} (x : FDRAIN) (f0 : Nat) (f1 : Nat) (h0 : f0 < 2 ^ 7) (hn : n = x.bits + (f0 * 2 ^ 0 + f1 * 2 ^ 24)) :
    FDRAIN.ofNat n x.bits2 = x := by
  obtain ⟨d, dk, fl, slot, sr, col, row, cb, rb, acc⟩ := x
  have h_d := d.isLt
  have h_dk := dk.isLt
  have h_fl := fl.isLt
  have h_slot := slot.isLt
  have h_sr := sr.isLt
  have h_col := col.isLt
  have h_row := row.isLt
  have h_cb := cb.isLt
  have h_rb := rb.isLt
  have h_acc := acc.isLt
  unfold FDRAIN.bits at hn
  unfold FDRAIN.bits2
  dsimp only at hn ⊢
  unfold FDRAIN.ofNat
  rw [FDRAIN.mk.injEq]
  refine ⟨?_, ?_, ?_, ?_, ?_, ?_, ?_, ?_, ?_, ?_⟩ <;> (apply BitVec.eq_of_toNat_eq; rw [BitVec.toNat_ofNat]; omega)

theorem FSABC.bits_bounds (x : FSABC) : x.bits / 2 ^ 18 % 2 ^ 6 = 0 ∧ x.bits < 2 ^ 26 := by
  obtain ⟨sc, a, b, c⟩ := x
  have h_sc := sc.isLt
  have h_a := a.isLt
  have h_b := b.isLt
  have h_c := c.isLt
  unfold FSABC.bits
  dsimp only
  refine ⟨?_, ?_⟩ <;> omega

theorem FSABC.ofNat_bits {n : Nat} (x : FSABC) (f0 : Nat) (f1 : Nat) (h0 : f0 < 2 ^ 6) (hn : n = x.bits + (f0 * 2 ^ 18 + f1 * 2 ^ 26)) :
    FSABC.ofNat n = x := by
  obtain ⟨sc, a, b, c⟩ := x
  have h_sc := sc.isLt
  have h_a := a.isLt
  have h_b := b.isLt
  have h_c := c.isLt
  unfold FSABC.bits at hn
  dsimp only at hn
  unfold FSABC.ofNat
  rw [FSABC.mk.injEq]
  refine ⟨?_, ?_, ?_, ?_⟩ <;> (apply BitVec.eq_of_toNat_eq; rw [BitVec.toNat_ofNat]; omega)

theorem FJ.bits_bounds (x : FJ) : x.bits / 2 ^ 20 % 2 ^ 1 = 0 ∧ x.bits < 2 ^ 25 := by
  obtain ⟨sc, g, off⟩ := x
  have h_sc := sc.isLt
  have h_g := g.isLt
  have h_off := off.isLt
  unfold FJ.bits
  dsimp only
  refine ⟨?_, ?_⟩ <;> omega

theorem FJ.ofNat_bits {n : Nat} (x : FJ) (f0 : Nat) (f1 : Nat) (h0 : f0 < 2 ^ 1) (hn : n = x.bits + (f0 * 2 ^ 20 + f1 * 2 ^ 25)) :
    FJ.ofNat n = x := by
  obtain ⟨sc, g, off⟩ := x
  have h_sc := sc.isLt
  have h_g := g.isLt
  have h_off := off.isLt
  unfold FJ.bits at hn
  dsimp only at hn
  unfold FJ.ofNat
  rw [FJ.mk.injEq]
  refine ⟨?_, ?_, ?_⟩ <;> (apply BitVec.eq_of_toNat_eq; rw [BitVec.toNat_ofNat]; omega)

theorem FJX.bits_bounds (x : FJX) : x.bits % 2 ^ 2 = 0 ∧ x.bits / 2 ^ 6 % 2 ^ 6 = 0 ∧ x.bits / 2 ^ 18 % 2 ^ 6 = 0 ∧ x.bits < 2 ^ 25 := by
  obtain ⟨sc, a, h, g⟩ := x
  have h_sc := sc.isLt
  have h_a := a.isLt
  have h_h := h.isLt
  have h_g := g.isLt
  unfold FJX.bits
  dsimp only
  refine ⟨?_, ?_, ?_, ?_⟩ <;> omega

theorem FJX.ofNat_bits {n : Nat} (x : FJX) (f0 : Nat) (f1 : Nat) (f2 : Nat) (f3 : Nat) (h0 : f0 < 2 ^ 2) (h1 : f1 < 2 ^ 6) (h2 : f2 < 2 ^ 6) (hn : n = x.bits + (f0 * 2 ^ 0 + f1 * 2 ^ 6 + f2 * 2 ^ 18 + f3 * 2 ^ 25)) :
    FJX.ofNat n = x := by
  obtain ⟨sc, a, h, g⟩ := x
  have h_sc := sc.isLt
  have h_a := a.isLt
  have h_h := h.isLt
  have h_g := g.isLt
  unfold FJX.bits at hn
  dsimp only at hn
  unfold FJX.ofNat
  rw [FJX.mk.injEq]
  refine ⟨?_, ?_, ?_, ?_⟩ <;> (apply BitVec.eq_of_toNat_eq; rw [BitVec.toNat_ofNat]; omega)

theorem FSC2.bits_bounds (x : FSC2) : x.bits % 2 ^ 24 = 0 ∧ x.bits < 2 ^ 26 := by
  obtain ⟨sc⟩ := x
  have h_sc := sc.isLt
  unfold FSC2.bits
  dsimp only
  refine ⟨?_, ?_⟩ <;> omega

theorem FSC2.ofNat_bits {n : Nat} (x : FSC2) (f0 : Nat) (f1 : Nat) (h0 : f0 < 2 ^ 24) (hn : n = x.bits + (f0 * 2 ^ 0 + f1 * 2 ^ 26)) :
    FSC2.ofNat n = x := by
  obtain ⟨sc⟩ := x
  have h_sc := sc.isLt
  unfold FSC2.bits at hn
  dsimp only at hn
  unfold FSC2.ofNat
  rw [FSC2.mk.injEq]
  apply BitVec.eq_of_toNat_eq; rw [BitVec.toNat_ofNat]; omega

theorem FSC1.bits_bounds (x : FSC1) : x.bits % 2 ^ 24 = 0 ∧ x.bits < 2 ^ 25 := by
  obtain ⟨sc⟩ := x
  have h_sc := sc.isLt
  unfold FSC1.bits
  dsimp only
  refine ⟨?_, ?_⟩ <;> omega

theorem FSC1.ofNat_bits {n : Nat} (x : FSC1) (f0 : Nat) (f1 : Nat) (h0 : f0 < 2 ^ 24) (hn : n = x.bits + (f0 * 2 ^ 0 + f1 * 2 ^ 25)) :
    FSC1.ofNat n = x := by
  obtain ⟨sc⟩ := x
  have h_sc := sc.isLt
  unfold FSC1.bits at hn
  dsimp only at hn
  unfold FSC1.ofNat
  rw [FSC1.mk.injEq]
  apply BitVec.eq_of_toNat_eq; rw [BitVec.toNat_ofNat]; omega

theorem FJP.bits_bounds (x : FJP) : x.bits / 2 ^ 20 % 2 ^ 4 = 0 ∧ x.bits < 2 ^ 25 := by
  obtain ⟨sc, off⟩ := x
  have h_sc := sc.isLt
  have h_off := off.isLt
  unfold FJP.bits
  dsimp only
  refine ⟨?_, ?_⟩ <;> omega

theorem FJP.ofNat_bits {n : Nat} (x : FJP) (f0 : Nat) (f1 : Nat) (h0 : f0 < 2 ^ 4) (hn : n = x.bits + (f0 * 2 ^ 20 + f1 * 2 ^ 25)) :
    FJP.ofNat n = x := by
  obtain ⟨sc, off⟩ := x
  have h_sc := sc.isLt
  have h_off := off.isLt
  unfold FJP.bits at hn
  dsimp only at hn
  unfold FJP.ofNat
  rw [FJP.mk.injEq]
  refine ⟨?_, ?_⟩ <;> (apply BitVec.eq_of_toNat_eq; rw [BitVec.toNat_ofNat]; omega)

theorem FABC.bits_bounds (x : FABC) : x.bits < 2 ^ 18 := by
  obtain ⟨a, b, c⟩ := x
  have h_a := a.isLt
  have h_b := b.isLt
  have h_c := c.isLt
  unfold FABC.bits
  dsimp only
  omega

theorem FABC.ofNat_bits {n : Nat} (x : FABC) (f0 : Nat)  (hn : n = x.bits + (f0 * 2 ^ 18)) :
    FABC.ofNat n = x := by
  obtain ⟨a, b, c⟩ := x
  have h_a := a.isLt
  have h_b := b.isLt
  have h_c := c.isLt
  unfold FABC.bits at hn
  dsimp only at hn
  unfold FABC.ofNat
  rw [FABC.mk.injEq]
  refine ⟨?_, ?_, ?_⟩ <;> (apply BitVec.eq_of_toNat_eq; rw [BitVec.toNat_ofNat]; omega)

theorem FOA.bits_bounds (x : FOA) : x.bits % 2 ^ 12 = 0 ∧ x.bits < 2 ^ 18 := by
  obtain ⟨a⟩ := x
  have h_a := a.isLt
  unfold FOA.bits
  dsimp only
  refine ⟨?_, ?_⟩ <;> omega

theorem FOA.ofNat_bits {n : Nat} (x : FOA) (f0 : Nat) (f1 : Nat) (h0 : f0 < 2 ^ 12) (hn : n = x.bits + (f0 * 2 ^ 0 + f1 * 2 ^ 18)) :
    FOA.ofNat n = x := by
  obtain ⟨a⟩ := x
  have h_a := a.isLt
  unfold FOA.bits at hn
  dsimp only at hn
  unfold FOA.ofNat
  rw [FOA.mk.injEq]
  apply BitVec.eq_of_toNat_eq; rw [BitVec.toNat_ofNat]; omega

theorem FVABC.bits_bounds (x : FVABC) : x.bits / 2 ^ 18 % 2 ^ 7 = 0 ∧ x.bits < 2 ^ 26 := by
  obtain ⟨sc, a, b, c⟩ := x
  have h_sc := sc.isLt
  have h_a := a.isLt
  have h_b := b.isLt
  have h_c := c.isLt
  unfold FVABC.bits
  dsimp only
  refine ⟨?_, ?_⟩ <;> omega

theorem FVABC.ofNat_bits {n : Nat} (x : FVABC) (f0 : Nat) (f1 : Nat) (h0 : f0 < 2 ^ 7) (hn : n = x.bits + (f0 * 2 ^ 18 + f1 * 2 ^ 26)) :
    FVABC.ofNat n = x := by
  obtain ⟨sc, a, b, c⟩ := x
  have h_sc := sc.isLt
  have h_a := a.isLt
  have h_b := b.isLt
  have h_c := c.isLt
  unfold FVABC.bits at hn
  dsimp only at hn
  unfold FVABC.ofNat
  rw [FVABC.mk.injEq]
  refine ⟨?_, ?_, ?_, ?_⟩ <;> (apply BitVec.eq_of_toNat_eq; rw [BitVec.toNat_ofNat]; omega)

theorem FVAB.bits_bounds (x : FVAB) : x.bits % 2 ^ 6 = 0 ∧ x.bits / 2 ^ 18 % 2 ^ 7 = 0 ∧ x.bits < 2 ^ 26 := by
  obtain ⟨sc, a, b⟩ := x
  have h_sc := sc.isLt
  have h_a := a.isLt
  have h_b := b.isLt
  unfold FVAB.bits
  dsimp only
  refine ⟨?_, ?_, ?_⟩ <;> omega

theorem FVAB.ofNat_bits {n : Nat} (x : FVAB) (f0 : Nat) (f1 : Nat) (f2 : Nat) (h0 : f0 < 2 ^ 6) (h1 : f1 < 2 ^ 7) (hn : n = x.bits + (f0 * 2 ^ 0 + f1 * 2 ^ 18 + f2 * 2 ^ 26)) :
    FVAB.ofNat n = x := by
  obtain ⟨sc, a, b⟩ := x
  have h_sc := sc.isLt
  have h_a := a.isLt
  have h_b := b.isLt
  unfold FVAB.bits at hn
  dsimp only at hn
  unfold FVAB.ofNat
  rw [FVAB.mk.injEq]
  refine ⟨?_, ?_, ?_⟩ <;> (apply BitVec.eq_of_toNat_eq; rw [BitVec.toNat_ofNat]; omega)

theorem FTRAP.bits_bounds (x : FTRAP) : x.bits / 2 ^ 12 % 2 ^ 12 = 0 ∧ x.bits < 2 ^ 25 := by
  obtain ⟨sc, code⟩ := x
  have h_sc := sc.isLt
  have h_code := code.isLt
  unfold FTRAP.bits
  dsimp only
  refine ⟨?_, ?_⟩ <;> omega

theorem FTRAP.ofNat_bits {n : Nat} (x : FTRAP) (f0 : Nat) (f1 : Nat) (h0 : f0 < 2 ^ 12) (hn : n = x.bits + (f0 * 2 ^ 12 + f1 * 2 ^ 25)) :
    FTRAP.ofNat n = x := by
  obtain ⟨sc, code⟩ := x
  have h_sc := sc.isLt
  have h_code := code.isLt
  unfold FTRAP.bits at hn
  dsimp only at hn
  unfold FTRAP.ofNat
  rw [FTRAP.mk.injEq]
  refine ⟨?_, ?_⟩ <;> (apply BitVec.eq_of_toNat_eq; rw [BitVec.toNat_ofNat]; omega)

theorem FBRK.bits_bounds (x : FBRK) : x.bits < 2 ^ 12 := by
  obtain ⟨code⟩ := x
  have h_code := code.isLt
  unfold FBRK.bits
  dsimp only
  omega

theorem FBRK.ofNat_bits {n : Nat} (x : FBRK) (f0 : Nat)  (hn : n = x.bits + (f0 * 2 ^ 12)) :
    FBRK.ofNat n = x := by
  obtain ⟨code⟩ := x
  have h_code := code.isLt
  unfold FBRK.bits at hn
  dsimp only at hn
  unfold FBRK.ofNat
  rw [FBRK.mk.injEq]
  apply BitVec.eq_of_toNat_eq; rw [BitVec.toNat_ofNat]; omega

theorem decodeNat_01 {n m : Nat} (h : majorOf n = 0x01) : decodeNat n m = decodeMajor01 n := by
  unfold decodeNat
  rw [h]
  rfl

theorem decodeNat_02 {n m : Nat} (h : majorOf n = 0x02) : decodeNat n m = decodeMajor02 n := by
  unfold decodeNat
  rw [h]
  rfl

theorem decodeNat_03 {n m : Nat} (h : majorOf n = 0x03) : decodeNat n m = decodeMajor03 n := by
  unfold decodeNat
  rw [h]
  rfl

theorem decodeNat_04 {n m : Nat} (h : majorOf n = 0x04) : decodeNat n m = decodeMajor04 n := by
  unfold decodeNat
  rw [h]
  rfl

theorem decodeNat_05 {n m : Nat} (h : majorOf n = 0x05) : decodeNat n m = decodeMajor05 n := by
  unfold decodeNat
  rw [h]
  rfl

theorem decodeNat_06 {n m : Nat} (h : majorOf n = 0x06) : decodeNat n m = decodeMajor06 n := by
  unfold decodeNat
  rw [h]
  rfl

theorem decodeNat_07 {n m : Nat} (h : majorOf n = 0x07) : decodeNat n m = decodeMajor07 n := by
  unfold decodeNat
  rw [h]
  rfl

theorem decodeNat_08 {n m : Nat} (h : majorOf n = 0x08) : decodeNat n m = decodeMajor08 n := by
  unfold decodeNat
  rw [h]
  rfl

theorem decodeNat_09 {n m : Nat} (h : majorOf n = 0x09) : decodeNat n m = decodeMajor09 n := by
  unfold decodeNat
  rw [h]
  rfl

theorem decodeNat_0A {n m : Nat} (h : majorOf n = 0x0A) : decodeNat n m = decodeMajor0A n := by
  unfold decodeNat
  rw [h]
  rfl

theorem decodeNat_0B {n m : Nat} (h : majorOf n = 0x0B) : decodeNat n m = decodeMajor0B n := by
  unfold decodeNat
  rw [h]
  rfl

theorem decodeNat_0C {n m : Nat} (h : majorOf n = 0x0C) : decodeNat n m = decodeMajor0C n := by
  unfold decodeNat
  rw [h]
  rfl

theorem decodeNat_0D {n m : Nat} (h : majorOf n = 0x0D) : decodeNat n m = decodeMajor0D n := by
  unfold decodeNat
  rw [h]
  rfl

theorem decodeNat_0E {n m : Nat} (h : majorOf n = 0x0E) : decodeNat n m = decodeMajor0E n := by
  unfold decodeNat
  rw [h]
  rfl

theorem decodeNat_0F {n m : Nat} (h : majorOf n = 0x0F) : decodeNat n m = decodeMajor0F n := by
  unfold decodeNat
  rw [h]
  rfl

theorem decodeNat_10 {n m : Nat} (h : majorOf n = 0x10) : decodeNat n m = decodeMajor10 n := by
  unfold decodeNat
  rw [h]
  rfl

theorem decodeNat_11 {n m : Nat} (h : majorOf n = 0x11) : decodeNat n m = decodeMajor11 n := by
  unfold decodeNat
  rw [h]
  rfl

theorem decodeNat_12 {n m : Nat} (h : majorOf n = 0x12) : decodeNat n m = decodeMajor12 n := by
  unfold decodeNat
  rw [h]
  rfl

theorem decodeNat_13 {n m : Nat} (h : majorOf n = 0x13) : decodeNat n m = decodeMajor13 n := by
  unfold decodeNat
  rw [h]
  rfl

theorem decodeNat_14 {n m : Nat} (h : majorOf n = 0x14) : decodeNat n m = decodeMajor14 n := by
  unfold decodeNat
  rw [h]
  rfl

theorem decodeNat_15 {n m : Nat} (h : majorOf n = 0x15) : decodeNat n m = decodeMajor15 n := by
  unfold decodeNat
  rw [h]
  rfl

theorem decodeNat_16 {n m : Nat} (h : majorOf n = 0x16) : decodeNat n m = decodeMajor16 n := by
  unfold decodeNat
  rw [h]
  rfl

theorem decodeNat_17 {n m : Nat} (h : majorOf n = 0x17) : decodeNat n m = decodeMajor17 n := by
  unfold decodeNat
  rw [h]
  rfl

theorem decodeNat_18 {n m : Nat} (h : majorOf n = 0x18) : decodeNat n m = decodeMajor18 n := by
  unfold decodeNat
  rw [h]
  rfl

theorem decodeNat_19 {n m : Nat} (h : majorOf n = 0x19) : decodeNat n m = decodeMajor19 n := by
  unfold decodeNat
  rw [h]
  rfl

theorem decodeNat_1A {n m : Nat} (h : majorOf n = 0x1A) : decodeNat n m = decodeMajor1A n := by
  unfold decodeNat
  rw [h]
  rfl

theorem decodeNat_1B {n m : Nat} (h : majorOf n = 0x1B) : decodeNat n m = decodeMajor1B n := by
  unfold decodeNat
  rw [h]
  rfl

theorem decodeNat_1C {n m : Nat} (h : majorOf n = 0x1C) : decodeNat n m = decodeMajor1C n := by
  unfold decodeNat
  rw [h]
  rfl

theorem decodeNat_1D {n m : Nat} (h : majorOf n = 0x1D) : decodeNat n m = decodeMajor1D n := by
  unfold decodeNat
  rw [h]
  rfl

theorem decodeNat_1E {n m : Nat} (h : majorOf n = 0x1E) : decodeNat n m = decodeMajor1E n := by
  unfold decodeNat
  rw [h]
  rfl

theorem decodeNat_1F {n m : Nat} (h : majorOf n = 0x1F) : decodeNat n m = decodeMajor1F n := by
  unfold decodeNat
  rw [h]
  rfl

theorem decodeNat_20 {n m : Nat} (h : majorOf n = 0x20) : decodeNat n m = decodeMajor20 n := by
  unfold decodeNat
  rw [h]
  rfl

theorem decodeNat_21 {n m : Nat} (h : majorOf n = 0x21) : decodeNat n m = decodeMajor21 n := by
  unfold decodeNat
  rw [h]
  rfl

theorem decodeNat_22 {n m : Nat} (h : majorOf n = 0x22) : decodeNat n m = decodeMajor22 n := by
  unfold decodeNat
  rw [h]
  rfl

theorem decodeNat_23 {n m : Nat} (h : majorOf n = 0x23) : decodeNat n m = decodeMajor23 n := by
  unfold decodeNat
  rw [h]
  rfl

theorem decodeNat_24 {n m : Nat} (h : majorOf n = 0x24) : decodeNat n m = decodeMajor24 n := by
  unfold decodeNat
  rw [h]
  rfl

theorem decodeNat_25 {n m : Nat} (h : majorOf n = 0x25) : decodeNat n m = decodeMajor25 n := by
  unfold decodeNat
  rw [h]
  rfl

theorem decodeNat_26 {n m : Nat} (h : majorOf n = 0x26) : decodeNat n m = decodeMajor26 n := by
  unfold decodeNat
  rw [h]
  rfl

theorem decodeNat_27 {n m : Nat} (h : majorOf n = 0x27) : decodeNat n m = decodeMajor27 n := by
  unfold decodeNat
  rw [h]
  rfl

theorem decodeNat_28 {n m : Nat} (h : majorOf n = 0x28) : decodeNat n m = decodeMajor28 n := by
  unfold decodeNat
  rw [h]
  rfl

theorem decodeNat_2A {n m : Nat} (h : majorOf n = 0x2A) : decodeNat n m = decodeMajor2A n m := by
  unfold decodeNat
  rw [h]
  rfl

theorem decodeNat_2B {n m : Nat} (h : majorOf n = 0x2B) : decodeNat n m = decodeMajor2B n m := by
  unfold decodeNat
  rw [h]
  rfl

theorem decodeNat_2C {n m : Nat} (h : majorOf n = 0x2C) : decodeNat n m = decodeMajor2C n m := by
  unfold decodeNat
  rw [h]
  rfl

theorem decodeNat_2D {n m : Nat} (h : majorOf n = 0x2D) : decodeNat n m = decodeMajor2D n m := by
  unfold decodeNat
  rw [h]
  rfl

theorem decodeNat_2E {n m : Nat} (h : majorOf n = 0x2E) : decodeNat n m = decodeMajor2E n := by
  unfold decodeNat
  rw [h]
  rfl

theorem decodeNat_2F {n m : Nat} (h : majorOf n = 0x2F) : decodeNat n m = decodeMajor2F n := by
  unfold decodeNat
  rw [h]
  rfl

theorem decodeNat_30 {n m : Nat} (h : majorOf n = 0x30) : decodeNat n m = decodeMajor30 n := by
  unfold decodeNat
  rw [h]
  rfl

theorem decodeNat_31 {n m : Nat} (h : majorOf n = 0x31) : decodeNat n m = decodeMajor31 n := by
  unfold decodeNat
  rw [h]
  rfl

theorem decodeNat_32 {n m : Nat} (h : majorOf n = 0x32) : decodeNat n m = decodeMajor32 n := by
  unfold decodeNat
  rw [h]
  rfl

theorem decodeNat_33 {n m : Nat} (h : majorOf n = 0x33) : decodeNat n m = decodeMajor33 n := by
  unfold decodeNat
  rw [h]
  rfl

theorem decodeNat_34 {n m : Nat} (h : majorOf n = 0x34) : decodeNat n m = decodeMajor34 n m := by
  unfold decodeNat
  rw [h]
  rfl

theorem decodeNat_35 {n m : Nat} (h : majorOf n = 0x35) : decodeNat n m = decodeMajor35 n m := by
  unfold decodeNat
  rw [h]
  rfl

theorem decodeNat_36 {n m : Nat} (h : majorOf n = 0x36) : decodeNat n m = decodeMajor36 n := by
  unfold decodeNat
  rw [h]
  rfl

theorem decodeNat_37 {n m : Nat} (h : majorOf n = 0x37) : decodeNat n m = decodeMajor37 n := by
  unfold decodeNat
  rw [h]
  rfl

theorem decodeNat_38 {n m : Nat} (h : majorOf n = 0x38) : decodeNat n m = decodeMajor38 n := by
  unfold decodeNat
  rw [h]
  rfl

theorem decodeNat_39 {n m : Nat} (h : majorOf n = 0x39) : decodeNat n m = decodeMajor39 n := by
  unfold decodeNat
  rw [h]
  rfl

theorem decodeNat_3A {n m : Nat} (h : majorOf n = 0x3A) : decodeNat n m = decodeMajor3A n := by
  unfold decodeNat
  rw [h]
  rfl

theorem decodeNat_3B {n m : Nat} (h : majorOf n = 0x3B) : decodeNat n m = decodeMajor3B n := by
  unfold decodeNat
  rw [h]
  rfl

theorem decodeNat_3C {n m : Nat} (h : majorOf n = 0x3C) : decodeNat n m = decodeMajor3C n := by
  unfold decodeNat
  rw [h]
  rfl

theorem decodeNat_3E {n m : Nat} (h : majorOf n = 0x3E) : decodeNat n m = decodeMajor3E n := by
  unfold decodeNat
  rw [h]
  rfl

theorem decodeNat_3F {n m : Nat} (h : majorOf n = 0x3F) : decodeNat n m = decodeMajor3F n := by
  unfold decodeNat
  rw [h]
  rfl

theorem reads_iadd (x : FA3) : Reads [0x04000000 + x.bits] (.iadd x) := by
  have hb := x.bits_bounds
  generalize hn : 0x04000000 + x.bits = n
  have hm : majorOf n = 0x01 := by unfold majorOf; omega
  refine Reads.one (by omega) (by unfold twoWords; rw [hm]; rfl) ?_
  rw [decodeNat_01 hm]
  unfold decodeMajor01 fieldAt
  repeat (first | (rw [if_pos (by omega)]) | (rw [if_neg (by omega)]))
  rw [FA3.ofNat_bits x 0 2 (by decide) (by omega)]

theorem reads_isub (x : FA3) : Reads [0x04000001 + x.bits] (.isub x) := by
  have hb := x.bits_bounds
  generalize hn : 0x04000001 + x.bits = n
  have hm : majorOf n = 0x01 := by unfold majorOf; omega
  refine Reads.one (by omega) (by unfold twoWords; rw [hm]; rfl) ?_
  rw [decodeNat_01 hm]
  unfold decodeMajor01 fieldAt
  repeat (first | (rw [if_pos (by omega)]) | (rw [if_neg (by omega)]))
  rw [FA3.ofNat_bits x 1 2 (by decide) (by omega)]

theorem reads_iadds (x : FA3) : Reads [0x04000002 + x.bits] (.iadds x) := by
  have hb := x.bits_bounds
  generalize hn : 0x04000002 + x.bits = n
  have hm : majorOf n = 0x01 := by unfold majorOf; omega
  refine Reads.one (by omega) (by unfold twoWords; rw [hm]; rfl) ?_
  rw [decodeNat_01 hm]
  unfold decodeMajor01 fieldAt
  repeat (first | (rw [if_pos (by omega)]) | (rw [if_neg (by omega)]))
  rw [FA3.ofNat_bits x 2 2 (by decide) (by omega)]

theorem reads_isubs (x : FA3) : Reads [0x04000003 + x.bits] (.isubs x) := by
  have hb := x.bits_bounds
  generalize hn : 0x04000003 + x.bits = n
  have hm : majorOf n = 0x01 := by unfold majorOf; omega
  refine Reads.one (by omega) (by unfold twoWords; rw [hm]; rfl) ?_
  rw [decodeNat_01 hm]
  unfold decodeMajor01 fieldAt
  repeat (first | (rw [if_pos (by omega)]) | (rw [if_neg (by omega)]))
  rw [FA3.ofNat_bits x 3 2 (by decide) (by omega)]

theorem reads_imul (x : FA3) : Reads [0x08000000 + x.bits] (.imul x) := by
  have hb := x.bits_bounds
  generalize hn : 0x08000000 + x.bits = n
  have hm : majorOf n = 0x02 := by unfold majorOf; omega
  refine Reads.one (by omega) (by unfold twoWords; rw [hm]; rfl) ?_
  rw [decodeNat_02 hm]
  unfold decodeMajor02 fieldAt
  repeat (first | (rw [if_pos (by omega)]) | (rw [if_neg (by omega)]))
  rw [FA3.ofNat_bits x 0 4 (by decide) (by omega)]

theorem reads_imulh (x : FA3) : Reads [0x08000001 + x.bits] (.imulh x) := by
  have hb := x.bits_bounds
  generalize hn : 0x08000001 + x.bits = n
  have hm : majorOf n = 0x02 := by unfold majorOf; omega
  refine Reads.one (by omega) (by unfold twoWords; rw [hm]; rfl) ?_
  rw [decodeNat_02 hm]
  unfold decodeMajor02 fieldAt
  repeat (first | (rw [if_pos (by omega)]) | (rw [if_neg (by omega)]))
  rw [FA3.ofNat_bits x 1 4 (by decide) (by omega)]

theorem reads_imulhu (x : FA3) : Reads [0x08000002 + x.bits] (.imulhu x) := by
  have hb := x.bits_bounds
  generalize hn : 0x08000002 + x.bits = n
  have hm : majorOf n = 0x02 := by unfold majorOf; omega
  refine Reads.one (by omega) (by unfold twoWords; rw [hm]; rfl) ?_
  rw [decodeNat_02 hm]
  unfold decodeMajor02 fieldAt
  repeat (first | (rw [if_pos (by omega)]) | (rw [if_neg (by omega)]))
  rw [FA3.ofNat_bits x 2 4 (by decide) (by omega)]

theorem reads_iabsd (x : FA3) : Reads [0x08000003 + x.bits] (.iabsd x) := by
  have hb := x.bits_bounds
  generalize hn : 0x08000003 + x.bits = n
  have hm : majorOf n = 0x02 := by unfold majorOf; omega
  refine Reads.one (by omega) (by unfold twoWords; rw [hm]; rfl) ?_
  rw [decodeNat_02 hm]
  unfold decodeMajor02 fieldAt
  repeat (first | (rw [if_pos (by omega)]) | (rw [if_neg (by omega)]))
  rw [FA3.ofNat_bits x 3 4 (by decide) (by omega)]

theorem reads_imin (x : FA3) : Reads [0x0c000000 + x.bits] (.imin x) := by
  have hb := x.bits_bounds
  generalize hn : 0x0c000000 + x.bits = n
  have hm : majorOf n = 0x03 := by unfold majorOf; omega
  refine Reads.one (by omega) (by unfold twoWords; rw [hm]; rfl) ?_
  rw [decodeNat_03 hm]
  unfold decodeMajor03 fieldAt
  repeat (first | (rw [if_pos (by omega)]) | (rw [if_neg (by omega)]))
  rw [FA3.ofNat_bits x 0 6 (by decide) (by omega)]

theorem reads_imax (x : FA3) : Reads [0x0c000001 + x.bits] (.imax x) := by
  have hb := x.bits_bounds
  generalize hn : 0x0c000001 + x.bits = n
  have hm : majorOf n = 0x03 := by unfold majorOf; omega
  refine Reads.one (by omega) (by unfold twoWords; rw [hm]; rfl) ?_
  rw [decodeNat_03 hm]
  unfold decodeMajor03 fieldAt
  repeat (first | (rw [if_pos (by omega)]) | (rw [if_neg (by omega)]))
  rw [FA3.ofNat_bits x 1 6 (by decide) (by omega)]

theorem reads_umin (x : FA3) : Reads [0x0c000002 + x.bits] (.umin x) := by
  have hb := x.bits_bounds
  generalize hn : 0x0c000002 + x.bits = n
  have hm : majorOf n = 0x03 := by unfold majorOf; omega
  refine Reads.one (by omega) (by unfold twoWords; rw [hm]; rfl) ?_
  rw [decodeNat_03 hm]
  unfold decodeMajor03 fieldAt
  repeat (first | (rw [if_pos (by omega)]) | (rw [if_neg (by omega)]))
  rw [FA3.ofNat_bits x 2 6 (by decide) (by omega)]

theorem reads_umax (x : FA3) : Reads [0x0c000003 + x.bits] (.umax x) := by
  have hb := x.bits_bounds
  generalize hn : 0x0c000003 + x.bits = n
  have hm : majorOf n = 0x03 := by unfold majorOf; omega
  refine Reads.one (by omega) (by unfold twoWords; rw [hm]; rfl) ?_
  rw [decodeNat_03 hm]
  unfold decodeMajor03 fieldAt
  repeat (first | (rw [if_pos (by omega)]) | (rw [if_neg (by omega)]))
  rw [FA3.ofNat_bits x 3 6 (by decide) (by omega)]

theorem reads_andB (x : FA3) : Reads [0x10000000 + x.bits] (.andB x) := by
  have hb := x.bits_bounds
  generalize hn : 0x10000000 + x.bits = n
  have hm : majorOf n = 0x04 := by unfold majorOf; omega
  refine Reads.one (by omega) (by unfold twoWords; rw [hm]; rfl) ?_
  rw [decodeNat_04 hm]
  unfold decodeMajor04 fieldAt
  repeat (first | (rw [if_pos (by omega)]) | (rw [if_neg (by omega)]))
  rw [FA3.ofNat_bits x 0 8 (by decide) (by omega)]

theorem reads_orB (x : FA3) : Reads [0x10000001 + x.bits] (.orB x) := by
  have hb := x.bits_bounds
  generalize hn : 0x10000001 + x.bits = n
  have hm : majorOf n = 0x04 := by unfold majorOf; omega
  refine Reads.one (by omega) (by unfold twoWords; rw [hm]; rfl) ?_
  rw [decodeNat_04 hm]
  unfold decodeMajor04 fieldAt
  repeat (first | (rw [if_pos (by omega)]) | (rw [if_neg (by omega)]))
  rw [FA3.ofNat_bits x 1 8 (by decide) (by omega)]

theorem reads_xorB (x : FA3) : Reads [0x10000002 + x.bits] (.xorB x) := by
  have hb := x.bits_bounds
  generalize hn : 0x10000002 + x.bits = n
  have hm : majorOf n = 0x04 := by unfold majorOf; omega
  refine Reads.one (by omega) (by unfold twoWords; rw [hm]; rfl) ?_
  rw [decodeNat_04 hm]
  unfold decodeMajor04 fieldAt
  repeat (first | (rw [if_pos (by omega)]) | (rw [if_neg (by omega)]))
  rw [FA3.ofNat_bits x 2 8 (by decide) (by omega)]

theorem reads_andn (x : FA3) : Reads [0x10000003 + x.bits] (.andn x) := by
  have hb := x.bits_bounds
  generalize hn : 0x10000003 + x.bits = n
  have hm : majorOf n = 0x04 := by unfold majorOf; omega
  refine Reads.one (by omega) (by unfold twoWords; rw [hm]; rfl) ?_
  rw [decodeNat_04 hm]
  unfold decodeMajor04 fieldAt
  repeat (first | (rw [if_pos (by omega)]) | (rw [if_neg (by omega)]))
  rw [FA3.ofNat_bits x 3 8 (by decide) (by omega)]

theorem reads_shl (x : FA3) : Reads [0x14000000 + x.bits] (.shl x) := by
  have hb := x.bits_bounds
  generalize hn : 0x14000000 + x.bits = n
  have hm : majorOf n = 0x05 := by unfold majorOf; omega
  refine Reads.one (by omega) (by unfold twoWords; rw [hm]; rfl) ?_
  rw [decodeNat_05 hm]
  unfold decodeMajor05 fieldAt
  repeat (first | (rw [if_pos (by omega)]) | (rw [if_neg (by omega)]))
  rw [FA3.ofNat_bits x 0 10 (by decide) (by omega)]

theorem reads_shr (x : FA3) : Reads [0x14000001 + x.bits] (.shr x) := by
  have hb := x.bits_bounds
  generalize hn : 0x14000001 + x.bits = n
  have hm : majorOf n = 0x05 := by unfold majorOf; omega
  refine Reads.one (by omega) (by unfold twoWords; rw [hm]; rfl) ?_
  rw [decodeNat_05 hm]
  unfold decodeMajor05 fieldAt
  repeat (first | (rw [if_pos (by omega)]) | (rw [if_neg (by omega)]))
  rw [FA3.ofNat_bits x 1 10 (by decide) (by omega)]

theorem reads_sar (x : FA3) : Reads [0x14000002 + x.bits] (.sar x) := by
  have hb := x.bits_bounds
  generalize hn : 0x14000002 + x.bits = n
  have hm : majorOf n = 0x05 := by unfold majorOf; omega
  refine Reads.one (by omega) (by unfold twoWords; rw [hm]; rfl) ?_
  rw [decodeNat_05 hm]
  unfold decodeMajor05 fieldAt
  repeat (first | (rw [if_pos (by omega)]) | (rw [if_neg (by omega)]))
  rw [FA3.ofNat_bits x 2 10 (by decide) (by omega)]

theorem reads_rol (x : FA3) : Reads [0x14000003 + x.bits] (.rol x) := by
  have hb := x.bits_bounds
  generalize hn : 0x14000003 + x.bits = n
  have hm : majorOf n = 0x05 := by unfold majorOf; omega
  refine Reads.one (by omega) (by unfold twoWords; rw [hm]; rfl) ?_
  rw [decodeNat_05 hm]
  unfold decodeMajor05 fieldAt
  repeat (first | (rw [if_pos (by omega)]) | (rw [if_neg (by omega)]))
  rw [FA3.ofNat_bits x 3 10 (by decide) (by omega)]

theorem reads_clz (x : FA2) : Reads [0x18000000 + x.bits] (.clz x) := by
  have hb := x.bits_bounds
  generalize hn : 0x18000000 + x.bits = n
  have hm : majorOf n = 0x06 := by unfold majorOf; omega
  refine Reads.one (by omega) (by unfold twoWords; rw [hm]; rfl) ?_
  rw [decodeNat_06 hm]
  unfold decodeMajor06 fieldAt
  repeat (first | (rw [if_pos (by omega)]) | (rw [if_neg (by omega)]))
  rw [FA2.ofNat_bits x 0 0 12 (by decide) (by decide) (by omega)]

theorem reads_popc (x : FA2) : Reads [0x18000001 + x.bits] (.popc x) := by
  have hb := x.bits_bounds
  generalize hn : 0x18000001 + x.bits = n
  have hm : majorOf n = 0x06 := by unfold majorOf; omega
  refine Reads.one (by omega) (by unfold twoWords; rw [hm]; rfl) ?_
  rw [decodeNat_06 hm]
  unfold decodeMajor06 fieldAt
  repeat (first | (rw [if_pos (by omega)]) | (rw [if_neg (by omega)]))
  rw [FA2.ofNat_bits x 1 0 12 (by decide) (by decide) (by omega)]

theorem reads_brev (x : FA2) : Reads [0x18000002 + x.bits] (.brev x) := by
  have hb := x.bits_bounds
  generalize hn : 0x18000002 + x.bits = n
  have hm : majorOf n = 0x06 := by unfold majorOf; omega
  refine Reads.one (by omega) (by unfold twoWords; rw [hm]; rfl) ?_
  rw [decodeNat_06 hm]
  unfold decodeMajor06 fieldAt
  repeat (first | (rw [if_pos (by omega)]) | (rw [if_neg (by omega)]))
  rw [FA2.ofNat_bits x 2 0 12 (by decide) (by decide) (by omega)]

theorem reads_iabs (x : FA2) : Reads [0x18000003 + x.bits] (.iabs x) := by
  have hb := x.bits_bounds
  generalize hn : 0x18000003 + x.bits = n
  have hm : majorOf n = 0x06 := by unfold majorOf; omega
  refine Reads.one (by omega) (by unfold twoWords; rw [hm]; rfl) ?_
  rw [decodeNat_06 hm]
  unfold decodeMajor06 fieldAt
  repeat (first | (rw [if_pos (by omega)]) | (rw [if_neg (by omega)]))
  rw [FA2.ofNat_bits x 3 0 12 (by decide) (by decide) (by omega)]

theorem reads_icmp (x : FC) : Reads [0x1c000000 + x.bits] (.icmp x) := by
  have hb := x.bits_bounds
  generalize hn : 0x1c000000 + x.bits = n
  have hm : majorOf n = 0x07 := by unfold majorOf; omega
  refine Reads.one (by omega) (by unfold twoWords; rw [hm]; rfl) ?_
  rw [decodeNat_07 hm]
  unfold decodeMajor07 fieldAt
  repeat (first | (rw [if_pos (by omega)]) | (rw [if_neg (by omega)]))
  rw [FC.ofNat_bits x 14  (by omega)]

theorem reads_sel (x : FA3) : Reads [0x20000000 + x.bits] (.sel x) := by
  have hb := x.bits_bounds
  generalize hn : 0x20000000 + x.bits = n
  have hm : majorOf n = 0x08 := by unfold majorOf; omega
  refine Reads.one (by omega) (by unfold twoWords; rw [hm]; rfl) ?_
  rw [decodeNat_08 hm]
  unfold decodeMajor08 fieldAt
  repeat (first | (rw [if_pos (by omega)]) | (rw [if_neg (by omega)]))
  rw [FA3.ofNat_bits x 0 16 (by decide) (by omega)]

theorem reads_mov (x : FA2) : Reads [0x20000001 + x.bits] (.mov x) := by
  have hb := x.bits_bounds
  generalize hn : 0x20000001 + x.bits = n
  have hm : majorOf n = 0x08 := by unfold majorOf; omega
  refine Reads.one (by omega) (by unfold twoWords; rw [hm]; rfl) ?_
  rw [decodeNat_08 hm]
  unfold decodeMajor08 fieldAt
  repeat (first | (rw [if_pos (by omega)]) | (rw [if_neg (by omega)]))
  rw [FA2.ofNat_bits x 1 0 16 (by decide) (by decide) (by omega)]

theorem reads_p2v (x : FDAG) : Reads [0x20000002 + x.bits] (.p2v x) := by
  have hb := x.bits_bounds
  generalize hn : 0x20000002 + x.bits = n
  have hm : majorOf n = 0x08 := by unfold majorOf; omega
  refine Reads.one (by omega) (by unfold twoWords; rw [hm]; rfl) ?_
  rw [decodeNat_08 hm]
  unfold decodeMajor08 fieldAt
  repeat (first | (rw [if_pos (by omega)]) | (rw [if_neg (by omega)]))
  rw [FDAG.ofNat_bits x 2 0 32 (by decide) (by decide) (by omega)]

theorem reads_v2p (x : FDAHG) : Reads [0x20000003 + x.bits] (.v2p x) := by
  have hb := x.bits_bounds
  generalize hn : 0x20000003 + x.bits = n
  have hm : majorOf n = 0x08 := by unfold majorOf; omega
  refine Reads.one (by omega) (by unfold twoWords; rw [hm]; rfl) ?_
  rw [decodeNat_08 hm]
  unfold decodeMajor08 fieldAt
  repeat (first | (rw [if_pos (by omega)]) | (rw [if_neg (by omega)]))
  rw [FDAHG.ofNat_bits x 3 0 32 (by decide) (by decide) (by omega)]

theorem reads_bfx (x : FA3) : Reads [0x24000000 + x.bits] (.bfx x) := by
  have hb := x.bits_bounds
  generalize hn : 0x24000000 + x.bits = n
  have hm : majorOf n = 0x09 := by unfold majorOf; omega
  refine Reads.one (by omega) (by unfold twoWords; rw [hm]; rfl) ?_
  rw [decodeNat_09 hm]
  unfold decodeMajor09 fieldAt
  repeat (first | (rw [if_pos (by omega)]) | (rw [if_neg (by omega)]))
  rw [FA3.ofNat_bits x 0 18 (by decide) (by omega)]

theorem reads_bfxu (x : FA3) : Reads [0x24000001 + x.bits] (.bfxu x) := by
  have hb := x.bits_bounds
  generalize hn : 0x24000001 + x.bits = n
  have hm : majorOf n = 0x09 := by unfold majorOf; omega
  refine Reads.one (by omega) (by unfold twoWords; rw [hm]; rfl) ?_
  rw [decodeNat_09 hm]
  unfold decodeMajor09 fieldAt
  repeat (first | (rw [if_pos (by omega)]) | (rw [if_neg (by omega)]))
  rw [FA3.ofNat_bits x 1 18 (by decide) (by omega)]

theorem reads_bfi (x : FA3) : Reads [0x24000002 + x.bits] (.bfi x) := by
  have hb := x.bits_bounds
  generalize hn : 0x24000002 + x.bits = n
  have hm : majorOf n = 0x09 := by unfold majorOf; omega
  refine Reads.one (by omega) (by unfold twoWords; rw [hm]; rfl) ?_
  rw [decodeNat_09 hm]
  unfold decodeMajor09 fieldAt
  repeat (first | (rw [if_pos (by omega)]) | (rw [if_neg (by omega)]))
  rw [FA3.ofNat_bits x 2 18 (by decide) (by omega)]

theorem reads_imla (x : FQ) : Reads [0x28000000 + x.bits] (.imla x) := by
  have hb := x.bits_bounds
  generalize hn : 0x28000000 + x.bits = n
  have hm : majorOf n = 0x0A := by unfold majorOf; omega
  refine Reads.one (by omega) (by unfold twoWords; rw [hm]; rfl) ?_
  rw [decodeNat_0A hm]
  unfold decodeMajor0A fieldAt
  repeat (first | (rw [if_pos (by omega)]) | (rw [if_neg (by omega)]))
  rw [FQ.ofNat_bits x 20  (by omega)]

theorem reads_iaddmin (x : FQ) : Reads [0x2c000000 + x.bits] (.iaddmin x) := by
  have hb := x.bits_bounds
  generalize hn : 0x2c000000 + x.bits = n
  have hm : majorOf n = 0x0B := by unfold majorOf; omega
  refine Reads.one (by omega) (by unfold twoWords; rw [hm]; rfl) ?_
  rw [decodeNat_0B hm]
  unfold decodeMajor0B fieldAt
  repeat (first | (rw [if_pos (by omega)]) | (rw [if_neg (by omega)]))
  rw [FQ.ofNat_bits x 22  (by omega)]

theorem reads_isum3 (x : FQ) : Reads [0x30000000 + x.bits] (.isum3 x) := by
  have hb := x.bits_bounds
  generalize hn : 0x30000000 + x.bits = n
  have hm : majorOf n = 0x0C := by unfold majorOf; omega
  refine Reads.one (by omega) (by unfold twoWords; rw [hm]; rfl) ?_
  rw [decodeNat_0C hm]
  unfold decodeMajor0C fieldAt
  repeat (first | (rw [if_pos (by omega)]) | (rw [if_neg (by omega)]))
  rw [FQ.ofNat_bits x 24  (by omega)]

theorem reads_iaddi (x : FI) : Reads [0x34000000 + x.bits] (.iaddi x) := by
  have hb := x.bits_bounds
  generalize hn : 0x34000000 + x.bits = n
  have hm : majorOf n = 0x0D := by unfold majorOf; omega
  refine Reads.one (by omega) (by unfold twoWords; rw [hm]; rfl) ?_
  rw [decodeNat_0D hm]
  unfold decodeMajor0D fieldAt
  repeat (first | (rw [if_pos (by omega)]) | (rw [if_neg (by omega)]))
  rw [FI.ofNat_bits x 26  (by omega)]

theorem reads_andi (x : FK10) : Reads [0x38000000 + x.bits] (.andi x) := by
  have hb := x.bits_bounds
  generalize hn : 0x38000000 + x.bits = n
  have hm : majorOf n = 0x0E := by unfold majorOf; omega
  refine Reads.one (by omega) (by unfold twoWords; rw [hm]; rfl) ?_
  rw [decodeNat_0E hm]
  unfold decodeMajor0E fieldAt
  repeat (first | (rw [if_pos (by omega)]) | (rw [if_neg (by omega)]))
  rw [FK10.ofNat_bits x 0 28 (by decide) (by omega)]

theorem reads_ori (x : FK10) : Reads [0x38000400 + x.bits] (.ori x) := by
  have hb := x.bits_bounds
  generalize hn : 0x38000400 + x.bits = n
  have hm : majorOf n = 0x0E := by unfold majorOf; omega
  refine Reads.one (by omega) (by unfold twoWords; rw [hm]; rfl) ?_
  rw [decodeNat_0E hm]
  unfold decodeMajor0E fieldAt
  repeat (first | (rw [if_pos (by omega)]) | (rw [if_neg (by omega)]))
  rw [FK10.ofNat_bits x 1 28 (by decide) (by omega)]

theorem reads_xori (x : FK10) : Reads [0x38000800 + x.bits] (.xori x) := by
  have hb := x.bits_bounds
  generalize hn : 0x38000800 + x.bits = n
  have hm : majorOf n = 0x0E := by unfold majorOf; omega
  refine Reads.one (by omega) (by unfold twoWords; rw [hm]; rfl) ?_
  rw [decodeNat_0E hm]
  unfold decodeMajor0E fieldAt
  repeat (first | (rw [if_pos (by omega)]) | (rw [if_neg (by omega)]))
  rw [FK10.ofNat_bits x 2 28 (by decide) (by omega)]

theorem reads_shli (x : FK5) : Reads [0x3c000000 + x.bits] (.shli x) := by
  have hb := x.bits_bounds
  generalize hn : 0x3c000000 + x.bits = n
  have hm : majorOf n = 0x0F := by unfold majorOf; omega
  refine Reads.one (by omega) (by unfold twoWords; rw [hm]; rfl) ?_
  rw [decodeNat_0F hm]
  unfold decodeMajor0F fieldAt
  repeat (first | (rw [if_pos (by omega)]) | (rw [if_neg (by omega)]))
  rw [FK5.ofNat_bits x 0 30 (by decide) (by omega)]

theorem reads_shri (x : FK5) : Reads [0x3c000400 + x.bits] (.shri x) := by
  have hb := x.bits_bounds
  generalize hn : 0x3c000400 + x.bits = n
  have hm : majorOf n = 0x0F := by unfold majorOf; omega
  refine Reads.one (by omega) (by unfold twoWords; rw [hm]; rfl) ?_
  rw [decodeNat_0F hm]
  unfold decodeMajor0F fieldAt
  repeat (first | (rw [if_pos (by omega)]) | (rw [if_neg (by omega)]))
  rw [FK5.ofNat_bits x 32 30 (by decide) (by omega)]

theorem reads_sari (x : FK5) : Reads [0x3c000800 + x.bits] (.sari x) := by
  have hb := x.bits_bounds
  generalize hn : 0x3c000800 + x.bits = n
  have hm : majorOf n = 0x0F := by unfold majorOf; omega
  refine Reads.one (by omega) (by unfold twoWords; rw [hm]; rfl) ?_
  rw [decodeNat_0F hm]
  unfold decodeMajor0F fieldAt
  repeat (first | (rw [if_pos (by omega)]) | (rw [if_neg (by omega)]))
  rw [FK5.ofNat_bits x 64 30 (by decide) (by omega)]

theorem reads_roli (x : FK5) : Reads [0x3c000c00 + x.bits] (.roli x) := by
  have hb := x.bits_bounds
  generalize hn : 0x3c000c00 + x.bits = n
  have hm : majorOf n = 0x0F := by unfold majorOf; omega
  refine Reads.one (by omega) (by unfold twoWords; rw [hm]; rfl) ?_
  rw [decodeNat_0F hm]
  unfold decodeMajor0F fieldAt
  repeat (first | (rw [if_pos (by omega)]) | (rw [if_neg (by omega)]))
  rw [FK5.ofNat_bits x 96 30 (by decide) (by omega)]

theorem reads_movi (x : FL18) : Reads [0x40000000 + x.bits] (.movi x) := by
  have hb := x.bits_bounds
  generalize hn : 0x40000000 + x.bits = n
  have hm : majorOf n = 0x10 := by unfold majorOf; omega
  refine Reads.one (by omega) (by unfold twoWords; rw [hm]; rfl) ?_
  rw [decodeNat_10 hm]
  unfold decodeMajor10 fieldAt
  repeat (first | (rw [if_pos (by omega)]) | (rw [if_neg (by omega)]))
  rw [FL18.ofNat_bits x 32  (by omega)]

theorem reads_movhi (x : FL14) : Reads [0x44000000 + x.bits] (.movhi x) := by
  have hb := x.bits_bounds
  generalize hn : 0x44000000 + x.bits = n
  have hm : majorOf n = 0x11 := by unfold majorOf; omega
  refine Reads.one (by omega) (by unfold twoWords; rw [hm]; rfl) ?_
  rw [decodeNat_11 hm]
  unfold decodeMajor11 fieldAt
  repeat (first | (rw [if_pos (by omega)]) | (rw [if_neg (by omega)]))
  rw [FL14.ofNat_bits x 0 34 (by decide) (by omega)]

theorem reads_icmpi (x : FCI) : Reads [0x48000000 + x.bits] (.icmpi x) := by
  have hb := x.bits_bounds
  generalize hn : 0x48000000 + x.bits = n
  have hm : majorOf n = 0x12 := by unfold majorOf; omega
  refine Reads.one (by omega) (by unfold twoWords; rw [hm]; rfl) ?_
  rw [decodeNat_12 hm]
  unfold decodeMajor12 fieldAt
  repeat (first | (rw [if_pos (by omega)]) | (rw [if_neg (by omega)]))
  rw [FCI.ofNat_bits x 36  (by omega)]

theorem reads_pand (x : FDABG) : Reads [0x4c000000 + x.bits] (.pand x) := by
  have hb := x.bits_bounds
  generalize hn : 0x4c000000 + x.bits = n
  have hm : majorOf n = 0x13 := by unfold majorOf; omega
  refine Reads.one (by omega) (by unfold twoWords; rw [hm]; rfl) ?_
  rw [decodeNat_13 hm]
  unfold decodeMajor13 fieldAt
  repeat (first | (rw [if_pos (by omega)]) | (rw [if_neg (by omega)]))
  rw [FDABG.ofNat_bits x 0 0 76 (by decide) (by decide) (by omega)]

theorem reads_por (x : FDABG) : Reads [0x4c000001 + x.bits] (.por x) := by
  have hb := x.bits_bounds
  generalize hn : 0x4c000001 + x.bits = n
  have hm : majorOf n = 0x13 := by unfold majorOf; omega
  refine Reads.one (by omega) (by unfold twoWords; rw [hm]; rfl) ?_
  rw [decodeNat_13 hm]
  unfold decodeMajor13 fieldAt
  repeat (first | (rw [if_pos (by omega)]) | (rw [if_neg (by omega)]))
  rw [FDABG.ofNat_bits x 1 0 76 (by decide) (by decide) (by omega)]

theorem reads_pxor (x : FDABG) : Reads [0x4c000002 + x.bits] (.pxor x) := by
  have hb := x.bits_bounds
  generalize hn : 0x4c000002 + x.bits = n
  have hm : majorOf n = 0x13 := by unfold majorOf; omega
  refine Reads.one (by omega) (by unfold twoWords; rw [hm]; rfl) ?_
  rw [decodeNat_13 hm]
  unfold decodeMajor13 fieldAt
  repeat (first | (rw [if_pos (by omega)]) | (rw [if_neg (by omega)]))
  rw [FDABG.ofNat_bits x 2 0 76 (by decide) (by decide) (by omega)]

theorem reads_pnot (x : FDAG) : Reads [0x4c000003 + x.bits] (.pnot x) := by
  have hb := x.bits_bounds
  generalize hn : 0x4c000003 + x.bits = n
  have hm : majorOf n = 0x13 := by unfold majorOf; omega
  refine Reads.one (by omega) (by unfold twoWords; rw [hm]; rfl) ?_
  rw [decodeNat_13 hm]
  unfold decodeMajor13 fieldAt
  repeat (first | (rw [if_pos (by omega)]) | (rw [if_neg (by omega)]))
  rw [FDAG.ofNat_bits x 3 0 76 (by decide) (by decide) (by omega)]

theorem reads_xlnBack (x : FDABHG) : Reads [0x51000000 + x.bits] (.xlnBack x) := by
  have hb := x.bits_bounds
  generalize hn : 0x51000000 + x.bits = n
  have hm : majorOf n = 0x14 := by unfold majorOf; omega
  refine Reads.one (by omega) (by unfold twoWords; rw [hm]; rfl) ?_
  rw [decodeNat_14 hm]
  unfold decodeMajor14 fieldAt
  repeat (first | (rw [if_pos (by omega)]) | (rw [if_neg (by omega)]))
  rw [FDABHG.ofNat_bits x 0 81 (by decide) (by omega)]

theorem reads_xlnFwd (x : FDABHG) : Reads [0x51000001 + x.bits] (.xlnFwd x) := by
  have hb := x.bits_bounds
  generalize hn : 0x51000001 + x.bits = n
  have hm : majorOf n = 0x14 := by unfold majorOf; omega
  refine Reads.one (by omega) (by unfold twoWords; rw [hm]; rfl) ?_
  rw [decodeNat_14 hm]
  unfold decodeMajor14 fieldAt
  repeat (first | (rw [if_pos (by omega)]) | (rw [if_neg (by omega)]))
  rw [FDABHG.ofNat_bits x 1 81 (by decide) (by omega)]

theorem reads_xlnFlip (x : FDABHG) : Reads [0x51000002 + x.bits] (.xlnFlip x) := by
  have hb := x.bits_bounds
  generalize hn : 0x51000002 + x.bits = n
  have hm : majorOf n = 0x14 := by unfold majorOf; omega
  refine Reads.one (by omega) (by unfold twoWords; rw [hm]; rfl) ?_
  rw [decodeNat_14 hm]
  unfold decodeMajor14 fieldAt
  repeat (first | (rw [if_pos (by omega)]) | (rw [if_neg (by omega)]))
  rw [FDABHG.ofNat_bits x 2 81 (by decide) (by omega)]

theorem reads_xlnFrom (x : FDABHG) : Reads [0x51000003 + x.bits] (.xlnFrom x) := by
  have hb := x.bits_bounds
  generalize hn : 0x51000003 + x.bits = n
  have hm : majorOf n = 0x14 := by unfold majorOf; omega
  refine Reads.one (by omega) (by unfold twoWords; rw [hm]; rfl) ?_
  rw [decodeNat_14 hm]
  unfold decodeMajor14 fieldAt
  repeat (first | (rw [if_pos (by omega)]) | (rw [if_neg (by omega)]))
  rw [FDABHG.ofNat_bits x 3 81 (by decide) (by omega)]

theorem reads_pgatEvery (x : FDAG) : Reads [0x55000000 + x.bits] (.pgatEvery x) := by
  have hb := x.bits_bounds
  generalize hn : 0x55000000 + x.bits = n
  have hm : majorOf n = 0x15 := by unfold majorOf; omega
  refine Reads.one (by omega) (by unfold twoWords; rw [hm]; rfl) ?_
  rw [decodeNat_15 hm]
  unfold decodeMajor15 fieldAt
  repeat (first | (rw [if_pos (by omega)]) | (rw [if_neg (by omega)]))
  rw [FDAG.ofNat_bits x 0 0 85 (by decide) (by decide) (by omega)]

theorem reads_pgatSome (x : FDAG) : Reads [0x55000001 + x.bits] (.pgatSome x) := by
  have hb := x.bits_bounds
  generalize hn : 0x55000001 + x.bits = n
  have hm : majorOf n = 0x15 := by unfold majorOf; omega
  refine Reads.one (by omega) (by unfold twoWords; rw [hm]; rfl) ?_
  rw [decodeNat_15 hm]
  unfold decodeMajor15 fieldAt
  repeat (first | (rw [if_pos (by omega)]) | (rw [if_neg (by omega)]))
  rw [FDAG.ofNat_bits x 1 0 85 (by decide) (by decide) (by omega)]

theorem reads_pgatMask (x : FDAG) : Reads [0x55000002 + x.bits] (.pgatMask x) := by
  have hb := x.bits_bounds
  generalize hn : 0x55000002 + x.bits = n
  have hm : majorOf n = 0x15 := by unfold majorOf; omega
  refine Reads.one (by omega) (by unfold twoWords; rw [hm]; rfl) ?_
  rw [decodeNat_15 hm]
  unfold decodeMajor15 fieldAt
  repeat (first | (rw [if_pos (by omega)]) | (rw [if_neg (by omega)]))
  rw [FDAG.ofNat_bits x 2 0 85 (by decide) (by decide) (by omega)]

theorem reads_pgatLive (x : FDG) : Reads [0x55000003 + x.bits] (.pgatLive x) := by
  have hb := x.bits_bounds
  generalize hn : 0x55000003 + x.bits = n
  have hm : majorOf n = 0x15 := by unfold majorOf; omega
  refine Reads.one (by omega) (by unfold twoWords; rw [hm]; rfl) ?_
  rw [decodeNat_15 hm]
  unfold decodeMajor15 fieldAt
  repeat (first | (rw [if_pos (by omega)]) | (rw [if_neg (by omega)]))
  rw [FDG.ofNat_bits x 3 0 85 (by decide) (by decide) (by omega)]

theorem reads_redxAdd (x : FDAHG) : Reads [0x59000000 + x.bits] (.redxAdd x) := by
  have hb := x.bits_bounds
  generalize hn : 0x59000000 + x.bits = n
  have hm : majorOf n = 0x16 := by unfold majorOf; omega
  refine Reads.one (by omega) (by unfold twoWords; rw [hm]; rfl) ?_
  rw [decodeNat_16 hm]
  unfold decodeMajor16 fieldAt
  repeat (first | (rw [if_pos (by omega)]) | (rw [if_neg (by omega)]))
  rw [FDAHG.ofNat_bits x 0 0 89 (by decide) (by decide) (by omega)]

theorem reads_redxSmin (x : FDAHG) : Reads [0x59000001 + x.bits] (.redxSmin x) := by
  have hb := x.bits_bounds
  generalize hn : 0x59000001 + x.bits = n
  have hm : majorOf n = 0x16 := by unfold majorOf; omega
  refine Reads.one (by omega) (by unfold twoWords; rw [hm]; rfl) ?_
  rw [decodeNat_16 hm]
  unfold decodeMajor16 fieldAt
  repeat (first | (rw [if_pos (by omega)]) | (rw [if_neg (by omega)]))
  rw [FDAHG.ofNat_bits x 1 0 89 (by decide) (by decide) (by omega)]

theorem reads_redxSmax (x : FDAHG) : Reads [0x59000002 + x.bits] (.redxSmax x) := by
  have hb := x.bits_bounds
  generalize hn : 0x59000002 + x.bits = n
  have hm : majorOf n = 0x16 := by unfold majorOf; omega
  refine Reads.one (by omega) (by unfold twoWords; rw [hm]; rfl) ?_
  rw [decodeNat_16 hm]
  unfold decodeMajor16 fieldAt
  repeat (first | (rw [if_pos (by omega)]) | (rw [if_neg (by omega)]))
  rw [FDAHG.ofNat_bits x 2 0 89 (by decide) (by decide) (by omega)]

theorem reads_redxFadd (x : FDAHG) : Reads [0x59000003 + x.bits] (.redxFadd x) := by
  have hb := x.bits_bounds
  generalize hn : 0x59000003 + x.bits = n
  have hm : majorOf n = 0x16 := by unfold majorOf; omega
  refine Reads.one (by omega) (by unfold twoWords; rw [hm]; rfl) ?_
  rw [decodeNat_16 hm]
  unfold decodeMajor16 fieldAt
  repeat (first | (rw [if_pos (by omega)]) | (rw [if_neg (by omega)]))
  rw [FDAHG.ofNat_bits x 3 0 89 (by decide) (by decide) (by omega)]

theorem reads_scanAdd (x : FDAHG) : Reads [0x5d000000 + x.bits] (.scanAdd x) := by
  have hb := x.bits_bounds
  generalize hn : 0x5d000000 + x.bits = n
  have hm : majorOf n = 0x17 := by unfold majorOf; omega
  refine Reads.one (by omega) (by unfold twoWords; rw [hm]; rfl) ?_
  rw [decodeNat_17 hm]
  unfold decodeMajor17 fieldAt
  repeat (first | (rw [if_pos (by omega)]) | (rw [if_neg (by omega)]))
  rw [FDAHG.ofNat_bits x 0 0 93 (by decide) (by decide) (by omega)]

theorem reads_scanXadd (x : FDAHG) : Reads [0x5d000001 + x.bits] (.scanXadd x) := by
  have hb := x.bits_bounds
  generalize hn : 0x5d000001 + x.bits = n
  have hm : majorOf n = 0x17 := by unfold majorOf; omega
  refine Reads.one (by omega) (by unfold twoWords; rw [hm]; rfl) ?_
  rw [decodeNat_17 hm]
  unfold decodeMajor17 fieldAt
  repeat (first | (rw [if_pos (by omega)]) | (rw [if_neg (by omega)]))
  rw [FDAHG.ofNat_bits x 1 0 93 (by decide) (by decide) (by omega)]

theorem reads_scanMax (x : FDAHG) : Reads [0x5d000002 + x.bits] (.scanMax x) := by
  have hb := x.bits_bounds
  generalize hn : 0x5d000002 + x.bits = n
  have hm : majorOf n = 0x17 := by unfold majorOf; omega
  refine Reads.one (by omega) (by unfold twoWords; rw [hm]; rfl) ?_
  rw [decodeNat_17 hm]
  unfold decodeMajor17 fieldAt
  repeat (first | (rw [if_pos (by omega)]) | (rw [if_neg (by omega)]))
  rw [FDAHG.ofNat_bits x 2 0 93 (by decide) (by decide) (by omega)]

theorem reads_scanMin (x : FDAHG) : Reads [0x5d000003 + x.bits] (.scanMin x) := by
  have hb := x.bits_bounds
  generalize hn : 0x5d000003 + x.bits = n
  have hm : majorOf n = 0x17 := by unfold majorOf; omega
  refine Reads.one (by omega) (by unfold twoWords; rw [hm]; rfl) ?_
  rw [decodeNat_17 hm]
  unfold decodeMajor17 fieldAt
  repeat (first | (rw [if_pos (by omega)]) | (rw [if_neg (by omega)]))
  rw [FDAHG.ofNat_bits x 3 0 93 (by decide) (by decide) (by omega)]

theorem reads_fadd (x : FA3) : Reads [0x60000000 + x.bits] (.fadd x) := by
  have hb := x.bits_bounds
  generalize hn : 0x60000000 + x.bits = n
  have hm : majorOf n = 0x18 := by unfold majorOf; omega
  refine Reads.one (by omega) (by unfold twoWords; rw [hm]; rfl) ?_
  rw [decodeNat_18 hm]
  unfold decodeMajor18 fieldAt
  repeat (first | (rw [if_pos (by omega)]) | (rw [if_neg (by omega)]))
  rw [FA3.ofNat_bits x 0 48 (by decide) (by omega)]

theorem reads_fsub (x : FA3) : Reads [0x60000001 + x.bits] (.fsub x) := by
  have hb := x.bits_bounds
  generalize hn : 0x60000001 + x.bits = n
  have hm : majorOf n = 0x18 := by unfold majorOf; omega
  refine Reads.one (by omega) (by unfold twoWords; rw [hm]; rfl) ?_
  rw [decodeNat_18 hm]
  unfold decodeMajor18 fieldAt
  repeat (first | (rw [if_pos (by omega)]) | (rw [if_neg (by omega)]))
  rw [FA3.ofNat_bits x 1 48 (by decide) (by omega)]

theorem reads_fmul (x : FA3) : Reads [0x60000002 + x.bits] (.fmul x) := by
  have hb := x.bits_bounds
  generalize hn : 0x60000002 + x.bits = n
  have hm : majorOf n = 0x18 := by unfold majorOf; omega
  refine Reads.one (by omega) (by unfold twoWords; rw [hm]; rfl) ?_
  rw [decodeNat_18 hm]
  unfold decodeMajor18 fieldAt
  repeat (first | (rw [if_pos (by omega)]) | (rw [if_neg (by omega)]))
  rw [FA3.ofNat_bits x 2 48 (by decide) (by omega)]

theorem reads_fdiv (x : FA3) : Reads [0x60000003 + x.bits] (.fdiv x) := by
  have hb := x.bits_bounds
  generalize hn : 0x60000003 + x.bits = n
  have hm : majorOf n = 0x18 := by unfold majorOf; omega
  refine Reads.one (by omega) (by unfold twoWords; rw [hm]; rfl) ?_
  rw [decodeNat_18 hm]
  unfold decodeMajor18 fieldAt
  repeat (first | (rw [if_pos (by omega)]) | (rw [if_neg (by omega)]))
  rw [FA3.ofNat_bits x 3 48 (by decide) (by omega)]

theorem reads_fmin (x : FA3) : Reads [0x64000000 + x.bits] (.fmin x) := by
  have hb := x.bits_bounds
  generalize hn : 0x64000000 + x.bits = n
  have hm : majorOf n = 0x19 := by unfold majorOf; omega
  refine Reads.one (by omega) (by unfold twoWords; rw [hm]; rfl) ?_
  rw [decodeNat_19 hm]
  unfold decodeMajor19 fieldAt
  repeat (first | (rw [if_pos (by omega)]) | (rw [if_neg (by omega)]))
  rw [FA3.ofNat_bits x 0 50 (by decide) (by omega)]

theorem reads_fmax (x : FA3) : Reads [0x64000001 + x.bits] (.fmax x) := by
  have hb := x.bits_bounds
  generalize hn : 0x64000001 + x.bits = n
  have hm : majorOf n = 0x19 := by unfold majorOf; omega
  refine Reads.one (by omega) (by unfold twoWords; rw [hm]; rfl) ?_
  rw [decodeNat_19 hm]
  unfold decodeMajor19 fieldAt
  repeat (first | (rw [if_pos (by omega)]) | (rw [if_neg (by omega)]))
  rw [FA3.ofNat_bits x 1 50 (by decide) (by omega)]

theorem reads_fminm (x : FA3) : Reads [0x64000002 + x.bits] (.fminm x) := by
  have hb := x.bits_bounds
  generalize hn : 0x64000002 + x.bits = n
  have hm : majorOf n = 0x19 := by unfold majorOf; omega
  refine Reads.one (by omega) (by unfold twoWords; rw [hm]; rfl) ?_
  rw [decodeNat_19 hm]
  unfold decodeMajor19 fieldAt
  repeat (first | (rw [if_pos (by omega)]) | (rw [if_neg (by omega)]))
  rw [FA3.ofNat_bits x 2 50 (by decide) (by omega)]

theorem reads_fmaxm (x : FA3) : Reads [0x64000003 + x.bits] (.fmaxm x) := by
  have hb := x.bits_bounds
  generalize hn : 0x64000003 + x.bits = n
  have hm : majorOf n = 0x19 := by unfold majorOf; omega
  refine Reads.one (by omega) (by unfold twoWords; rw [hm]; rfl) ?_
  rw [decodeNat_19 hm]
  unfold decodeMajor19 fieldAt
  repeat (first | (rw [if_pos (by omega)]) | (rw [if_neg (by omega)]))
  rw [FA3.ofNat_bits x 3 50 (by decide) (by omega)]

theorem reads_fabs (x : FA2) : Reads [0x68000000 + x.bits] (.fabs x) := by
  have hb := x.bits_bounds
  generalize hn : 0x68000000 + x.bits = n
  have hm : majorOf n = 0x1A := by unfold majorOf; omega
  refine Reads.one (by omega) (by unfold twoWords; rw [hm]; rfl) ?_
  rw [decodeNat_1A hm]
  unfold decodeMajor1A fieldAt
  repeat (first | (rw [if_pos (by omega)]) | (rw [if_neg (by omega)]))
  rw [FA2.ofNat_bits x 0 0 52 (by decide) (by decide) (by omega)]

theorem reads_fneg (x : FA2) : Reads [0x68000040 + x.bits] (.fneg x) := by
  have hb := x.bits_bounds
  generalize hn : 0x68000040 + x.bits = n
  have hm : majorOf n = 0x1A := by unfold majorOf; omega
  refine Reads.one (by omega) (by unfold twoWords; rw [hm]; rfl) ?_
  rw [decodeNat_1A hm]
  unfold decodeMajor1A fieldAt
  repeat (first | (rw [if_pos (by omega)]) | (rw [if_neg (by omega)]))
  rw [FA2.ofNat_bits x 0 1 52 (by decide) (by decide) (by omega)]

theorem reads_fsqrt (x : FA2) : Reads [0x68000080 + x.bits] (.fsqrt x) := by
  have hb := x.bits_bounds
  generalize hn : 0x68000080 + x.bits = n
  have hm : majorOf n = 0x1A := by unfold majorOf; omega
  refine Reads.one (by omega) (by unfold twoWords; rw [hm]; rfl) ?_
  rw [decodeNat_1A hm]
  unfold decodeMajor1A fieldAt
  repeat (first | (rw [if_pos (by omega)]) | (rw [if_neg (by omega)]))
  rw [FA2.ofNat_bits x 0 2 52 (by decide) (by decide) (by omega)]

theorem reads_frcp (x : FA2) : Reads [0x680000c0 + x.bits] (.frcp x) := by
  have hb := x.bits_bounds
  generalize hn : 0x680000c0 + x.bits = n
  have hm : majorOf n = 0x1A := by unfold majorOf; omega
  refine Reads.one (by omega) (by unfold twoWords; rw [hm]; rfl) ?_
  rw [decodeNat_1A hm]
  unfold decodeMajor1A fieldAt
  repeat (first | (rw [if_pos (by omega)]) | (rw [if_neg (by omega)]))
  rw [FA2.ofNat_bits x 0 3 52 (by decide) (by decide) (by omega)]

theorem reads_frsq (x : FA2) : Reads [0x68000100 + x.bits] (.frsq x) := by
  have hb := x.bits_bounds
  generalize hn : 0x68000100 + x.bits = n
  have hm : majorOf n = 0x1A := by unfold majorOf; omega
  refine Reads.one (by omega) (by unfold twoWords; rw [hm]; rfl) ?_
  rw [decodeNat_1A hm]
  unfold decodeMajor1A fieldAt
  repeat (first | (rw [if_pos (by omega)]) | (rw [if_neg (by omega)]))
  rw [FA2.ofNat_bits x 0 4 52 (by decide) (by decide) (by omega)]

theorem reads_fexp2 (x : FA2) : Reads [0x68000140 + x.bits] (.fexp2 x) := by
  have hb := x.bits_bounds
  generalize hn : 0x68000140 + x.bits = n
  have hm : majorOf n = 0x1A := by unfold majorOf; omega
  refine Reads.one (by omega) (by unfold twoWords; rw [hm]; rfl) ?_
  rw [decodeNat_1A hm]
  unfold decodeMajor1A fieldAt
  repeat (first | (rw [if_pos (by omega)]) | (rw [if_neg (by omega)]))
  rw [FA2.ofNat_bits x 0 5 52 (by decide) (by decide) (by omega)]

theorem reads_flog2 (x : FA2) : Reads [0x68000180 + x.bits] (.flog2 x) := by
  have hb := x.bits_bounds
  generalize hn : 0x68000180 + x.bits = n
  have hm : majorOf n = 0x1A := by unfold majorOf; omega
  refine Reads.one (by omega) (by unfold twoWords; rw [hm]; rfl) ?_
  rw [decodeNat_1A hm]
  unfold decodeMajor1A fieldAt
  repeat (first | (rw [if_pos (by omega)]) | (rw [if_neg (by omega)]))
  rw [FA2.ofNat_bits x 0 6 52 (by decide) (by decide) (by omega)]

theorem reads_ffloor (x : FA2) : Reads [0x680001c0 + x.bits] (.ffloor x) := by
  have hb := x.bits_bounds
  generalize hn : 0x680001c0 + x.bits = n
  have hm : majorOf n = 0x1A := by unfold majorOf; omega
  refine Reads.one (by omega) (by unfold twoWords; rw [hm]; rfl) ?_
  rw [decodeNat_1A hm]
  unfold decodeMajor1A fieldAt
  repeat (first | (rw [if_pos (by omega)]) | (rw [if_neg (by omega)]))
  rw [FA2.ofNat_bits x 0 7 52 (by decide) (by decide) (by omega)]

theorem reads_fceil (x : FA2) : Reads [0x68000200 + x.bits] (.fceil x) := by
  have hb := x.bits_bounds
  generalize hn : 0x68000200 + x.bits = n
  have hm : majorOf n = 0x1A := by unfold majorOf; omega
  refine Reads.one (by omega) (by unfold twoWords; rw [hm]; rfl) ?_
  rw [decodeNat_1A hm]
  unfold decodeMajor1A fieldAt
  repeat (first | (rw [if_pos (by omega)]) | (rw [if_neg (by omega)]))
  rw [FA2.ofNat_bits x 0 8 52 (by decide) (by decide) (by omega)]

theorem reads_ftrunc (x : FA2) : Reads [0x68000240 + x.bits] (.ftrunc x) := by
  have hb := x.bits_bounds
  generalize hn : 0x68000240 + x.bits = n
  have hm : majorOf n = 0x1A := by unfold majorOf; omega
  refine Reads.one (by omega) (by unfold twoWords; rw [hm]; rfl) ?_
  rw [decodeNat_1A hm]
  unfold decodeMajor1A fieldAt
  repeat (first | (rw [if_pos (by omega)]) | (rw [if_neg (by omega)]))
  rw [FA2.ofNat_bits x 0 9 52 (by decide) (by decide) (by omega)]

theorem reads_frint (x : FA2) : Reads [0x68000280 + x.bits] (.frint x) := by
  have hb := x.bits_bounds
  generalize hn : 0x68000280 + x.bits = n
  have hm : majorOf n = 0x1A := by unfold majorOf; omega
  refine Reads.one (by omega) (by unfold twoWords; rw [hm]; rfl) ?_
  rw [decodeNat_1A hm]
  unfold decodeMajor1A fieldAt
  repeat (first | (rw [if_pos (by omega)]) | (rw [if_neg (by omega)]))
  rw [FA2.ofNat_bits x 0 10 52 (by decide) (by decide) (by omega)]

theorem reads_fcmp (x : FC) : Reads [0x6c000000 + x.bits] (.fcmp x) := by
  have hb := x.bits_bounds
  generalize hn : 0x6c000000 + x.bits = n
  have hm : majorOf n = 0x1B := by unfold majorOf; omega
  refine Reads.one (by omega) (by unfold twoWords; rw [hm]; rfl) ?_
  rw [decodeNat_1B hm]
  unfold decodeMajor1B fieldAt
  repeat (first | (rw [if_pos (by omega)]) | (rw [if_neg (by omega)]))
  rw [FC.ofNat_bits x 54  (by omega)]

theorem reads_ffma (x : FQ) : Reads [0x70000000 + x.bits] (.ffma x) := by
  have hb := x.bits_bounds
  generalize hn : 0x70000000 + x.bits = n
  have hm : majorOf n = 0x1C := by unfold majorOf; omega
  refine Reads.one (by omega) (by unfold twoWords; rw [hm]; rfl) ?_
  rw [decodeNat_1C hm]
  unfold decodeMajor1C fieldAt
  repeat (first | (rw [if_pos (by omega)]) | (rw [if_neg (by omega)]))
  rw [FQ.ofNat_bits x 56  (by omega)]

theorem reads_ffms (x : FQ) : Reads [0x74000000 + x.bits] (.ffms x) := by
  have hb := x.bits_bounds
  generalize hn : 0x74000000 + x.bits = n
  have hm : majorOf n = 0x1D := by unfold majorOf; omega
  refine Reads.one (by omega) (by unfold twoWords; rw [hm]; rfl) ?_
  rw [decodeNat_1D hm]
  unfold decodeMajor1D fieldAt
  repeat (first | (rw [if_pos (by omega)]) | (rw [if_neg (by omega)]))
  rw [FQ.ofNat_bits x 58  (by omega)]

theorem reads_i2f (x : FA2) : Reads [0x78000000 + x.bits] (.i2f x) := by
  have hb := x.bits_bounds
  generalize hn : 0x78000000 + x.bits = n
  have hm : majorOf n = 0x1E := by unfold majorOf; omega
  refine Reads.one (by omega) (by unfold twoWords; rw [hm]; rfl) ?_
  rw [decodeNat_1E hm]
  unfold decodeMajor1E fieldAt
  repeat (first | (rw [if_pos (by omega)]) | (rw [if_neg (by omega)]))
  rw [FA2.ofNat_bits x 0 0 60 (by decide) (by decide) (by omega)]

theorem reads_u2f (x : FA2) : Reads [0x78000040 + x.bits] (.u2f x) := by
  have hb := x.bits_bounds
  generalize hn : 0x78000040 + x.bits = n
  have hm : majorOf n = 0x1E := by unfold majorOf; omega
  refine Reads.one (by omega) (by unfold twoWords; rw [hm]; rfl) ?_
  rw [decodeNat_1E hm]
  unfold decodeMajor1E fieldAt
  repeat (first | (rw [if_pos (by omega)]) | (rw [if_neg (by omega)]))
  rw [FA2.ofNat_bits x 0 1 60 (by decide) (by decide) (by omega)]

theorem reads_f2i (x : FA2) : Reads [0x78000080 + x.bits] (.f2i x) := by
  have hb := x.bits_bounds
  generalize hn : 0x78000080 + x.bits = n
  have hm : majorOf n = 0x1E := by unfold majorOf; omega
  refine Reads.one (by omega) (by unfold twoWords; rw [hm]; rfl) ?_
  rw [decodeNat_1E hm]
  unfold decodeMajor1E fieldAt
  repeat (first | (rw [if_pos (by omega)]) | (rw [if_neg (by omega)]))
  rw [FA2.ofNat_bits x 0 2 60 (by decide) (by decide) (by omega)]

theorem reads_f2u (x : FA2) : Reads [0x780000c0 + x.bits] (.f2u x) := by
  have hb := x.bits_bounds
  generalize hn : 0x780000c0 + x.bits = n
  have hm : majorOf n = 0x1E := by unfold majorOf; omega
  refine Reads.one (by omega) (by unfold twoWords; rw [hm]; rfl) ?_
  rw [decodeNat_1E hm]
  unfold decodeMajor1E fieldAt
  repeat (first | (rw [if_pos (by omega)]) | (rw [if_neg (by omega)]))
  rw [FA2.ofNat_bits x 0 3 60 (by decide) (by decide) (by omega)]

theorem reads_f2h (x : FA2) : Reads [0x78000100 + x.bits] (.f2h x) := by
  have hb := x.bits_bounds
  generalize hn : 0x78000100 + x.bits = n
  have hm : majorOf n = 0x1E := by unfold majorOf; omega
  refine Reads.one (by omega) (by unfold twoWords; rw [hm]; rfl) ?_
  rw [decodeNat_1E hm]
  unfold decodeMajor1E fieldAt
  repeat (first | (rw [if_pos (by omega)]) | (rw [if_neg (by omega)]))
  rw [FA2.ofNat_bits x 0 4 60 (by decide) (by decide) (by omega)]

theorem reads_f2hh (x : FA2) : Reads [0x78000140 + x.bits] (.f2hh x) := by
  have hb := x.bits_bounds
  generalize hn : 0x78000140 + x.bits = n
  have hm : majorOf n = 0x1E := by unfold majorOf; omega
  refine Reads.one (by omega) (by unfold twoWords; rw [hm]; rfl) ?_
  rw [decodeNat_1E hm]
  unfold decodeMajor1E fieldAt
  repeat (first | (rw [if_pos (by omega)]) | (rw [if_neg (by omega)]))
  rw [FA2.ofNat_bits x 0 5 60 (by decide) (by decide) (by omega)]

theorem reads_h2f (x : FA2) : Reads [0x78000180 + x.bits] (.h2f x) := by
  have hb := x.bits_bounds
  generalize hn : 0x78000180 + x.bits = n
  have hm : majorOf n = 0x1E := by unfold majorOf; omega
  refine Reads.one (by omega) (by unfold twoWords; rw [hm]; rfl) ?_
  rw [decodeNat_1E hm]
  unfold decodeMajor1E fieldAt
  repeat (first | (rw [if_pos (by omega)]) | (rw [if_neg (by omega)]))
  rw [FA2.ofNat_bits x 0 6 60 (by decide) (by decide) (by omega)]

theorem reads_h2fh (x : FA2) : Reads [0x780001c0 + x.bits] (.h2fh x) := by
  have hb := x.bits_bounds
  generalize hn : 0x780001c0 + x.bits = n
  have hm : majorOf n = 0x1E := by unfold majorOf; omega
  refine Reads.one (by omega) (by unfold twoWords; rw [hm]; rfl) ?_
  rw [decodeNat_1E hm]
  unfold decodeMajor1E fieldAt
  repeat (first | (rw [if_pos (by omega)]) | (rw [if_neg (by omega)]))
  rw [FA2.ofNat_bits x 0 7 60 (by decide) (by decide) (by omega)]

theorem reads_f2bf (x : FA2) : Reads [0x78000200 + x.bits] (.f2bf x) := by
  have hb := x.bits_bounds
  generalize hn : 0x78000200 + x.bits = n
  have hm : majorOf n = 0x1E := by unfold majorOf; omega
  refine Reads.one (by omega) (by unfold twoWords; rw [hm]; rfl) ?_
  rw [decodeNat_1E hm]
  unfold decodeMajor1E fieldAt
  repeat (first | (rw [if_pos (by omega)]) | (rw [if_neg (by omega)]))
  rw [FA2.ofNat_bits x 0 8 60 (by decide) (by decide) (by omega)]

theorem reads_f2bfh (x : FA2) : Reads [0x78000240 + x.bits] (.f2bfh x) := by
  have hb := x.bits_bounds
  generalize hn : 0x78000240 + x.bits = n
  have hm : majorOf n = 0x1E := by unfold majorOf; omega
  refine Reads.one (by omega) (by unfold twoWords; rw [hm]; rfl) ?_
  rw [decodeNat_1E hm]
  unfold decodeMajor1E fieldAt
  repeat (first | (rw [if_pos (by omega)]) | (rw [if_neg (by omega)]))
  rw [FA2.ofNat_bits x 0 9 60 (by decide) (by decide) (by omega)]

theorem reads_bf2f (x : FA2) : Reads [0x78000280 + x.bits] (.bf2f x) := by
  have hb := x.bits_bounds
  generalize hn : 0x78000280 + x.bits = n
  have hm : majorOf n = 0x1E := by unfold majorOf; omega
  refine Reads.one (by omega) (by unfold twoWords; rw [hm]; rfl) ?_
  rw [decodeNat_1E hm]
  unfold decodeMajor1E fieldAt
  repeat (first | (rw [if_pos (by omega)]) | (rw [if_neg (by omega)]))
  rw [FA2.ofNat_bits x 0 10 60 (by decide) (by decide) (by omega)]

theorem reads_bf2fh (x : FA2) : Reads [0x780002c0 + x.bits] (.bf2fh x) := by
  have hb := x.bits_bounds
  generalize hn : 0x780002c0 + x.bits = n
  have hm : majorOf n = 0x1E := by unfold majorOf; omega
  refine Reads.one (by omega) (by unfold twoWords; rw [hm]; rfl) ?_
  rw [decodeNat_1E hm]
  unfold decodeMajor1E fieldAt
  repeat (first | (rw [if_pos (by omega)]) | (rw [if_neg (by omega)]))
  rw [FA2.ofNat_bits x 0 11 60 (by decide) (by decide) (by omega)]

theorem reads_f2e4 (x : FA2K) : Reads [0x78000300 + x.bits] (.f2e4 x) := by
  have hb := x.bits_bounds
  generalize hn : 0x78000300 + x.bits = n
  have hm : majorOf n = 0x1E := by unfold majorOf; omega
  refine Reads.one (by omega) (by unfold twoWords; rw [hm]; rfl) ?_
  rw [decodeNat_1E hm]
  unfold decodeMajor1E fieldAt
  repeat (first | (rw [if_pos (by omega)]) | (rw [if_neg (by omega)]))
  rw [FA2K.ofNat_bits x 12 60 (by decide) (by omega)]

theorem reads_e42f (x : FA2K) : Reads [0x78000340 + x.bits] (.e42f x) := by
  have hb := x.bits_bounds
  generalize hn : 0x78000340 + x.bits = n
  have hm : majorOf n = 0x1E := by unfold majorOf; omega
  refine Reads.one (by omega) (by unfold twoWords; rw [hm]; rfl) ?_
  rw [decodeNat_1E hm]
  unfold decodeMajor1E fieldAt
  repeat (first | (rw [if_pos (by omega)]) | (rw [if_neg (by omega)]))
  rw [FA2K.ofNat_bits x 13 60 (by decide) (by omega)]

theorem reads_f2e5 (x : FA2K) : Reads [0x78000380 + x.bits] (.f2e5 x) := by
  have hb := x.bits_bounds
  generalize hn : 0x78000380 + x.bits = n
  have hm : majorOf n = 0x1E := by unfold majorOf; omega
  refine Reads.one (by omega) (by unfold twoWords; rw [hm]; rfl) ?_
  rw [decodeNat_1E hm]
  unfold decodeMajor1E fieldAt
  repeat (first | (rw [if_pos (by omega)]) | (rw [if_neg (by omega)]))
  rw [FA2K.ofNat_bits x 14 60 (by decide) (by omega)]

theorem reads_e52f (x : FA2K) : Reads [0x780003c0 + x.bits] (.e52f x) := by
  have hb := x.bits_bounds
  generalize hn : 0x780003c0 + x.bits = n
  have hm : majorOf n = 0x1E := by unfold majorOf; omega
  refine Reads.one (by omega) (by unfold twoWords; rw [hm]; rfl) ?_
  rw [decodeNat_1E hm]
  unfold decodeMajor1E fieldAt
  repeat (first | (rw [if_pos (by omega)]) | (rw [if_neg (by omega)]))
  rw [FA2K.ofNat_bits x 15 60 (by decide) (by omega)]

theorem reads_f2lg (x : FA2K) : Reads [0x78000400 + x.bits] (.f2lg x) := by
  have hb := x.bits_bounds
  generalize hn : 0x78000400 + x.bits = n
  have hm : majorOf n = 0x1E := by unfold majorOf; omega
  refine Reads.one (by omega) (by unfold twoWords; rw [hm]; rfl) ?_
  rw [decodeNat_1E hm]
  unfold decodeMajor1E fieldAt
  repeat (first | (rw [if_pos (by omega)]) | (rw [if_neg (by omega)]))
  rw [FA2K.ofNat_bits x 16 60 (by decide) (by omega)]

theorem reads_lg2f (x : FA2K) : Reads [0x78000440 + x.bits] (.lg2f x) := by
  have hb := x.bits_bounds
  generalize hn : 0x78000440 + x.bits = n
  have hm : majorOf n = 0x1E := by unfold majorOf; omega
  refine Reads.one (by omega) (by unfold twoWords; rw [hm]; rfl) ?_
  rw [decodeNat_1E hm]
  unfold decodeMajor1E fieldAt
  repeat (first | (rw [if_pos (by omega)]) | (rw [if_neg (by omega)]))
  rw [FA2K.ofNat_bits x 17 60 (by decide) (by omega)]

theorem reads_f2i8 (x : FA2K) : Reads [0x78000480 + x.bits] (.f2i8 x) := by
  have hb := x.bits_bounds
  generalize hn : 0x78000480 + x.bits = n
  have hm : majorOf n = 0x1E := by unfold majorOf; omega
  refine Reads.one (by omega) (by unfold twoWords; rw [hm]; rfl) ?_
  rw [decodeNat_1E hm]
  unfold decodeMajor1E fieldAt
  repeat (first | (rw [if_pos (by omega)]) | (rw [if_neg (by omega)]))
  rw [FA2K.ofNat_bits x 18 60 (by decide) (by omega)]

theorem reads_i82f (x : FA2K) : Reads [0x780004c0 + x.bits] (.i82f x) := by
  have hb := x.bits_bounds
  generalize hn : 0x780004c0 + x.bits = n
  have hm : majorOf n = 0x1E := by unfold majorOf; omega
  refine Reads.one (by omega) (by unfold twoWords; rw [hm]; rfl) ?_
  rw [decodeNat_1E hm]
  unfold decodeMajor1E fieldAt
  repeat (first | (rw [if_pos (by omega)]) | (rw [if_neg (by omega)]))
  rw [FA2K.ofNat_bits x 19 60 (by decide) (by omega)]

theorem reads_hadd2 (x : FA3) : Reads [0x7c000000 + x.bits] (.hadd2 x) := by
  have hb := x.bits_bounds
  generalize hn : 0x7c000000 + x.bits = n
  have hm : majorOf n = 0x1F := by unfold majorOf; omega
  refine Reads.one (by omega) (by unfold twoWords; rw [hm]; rfl) ?_
  rw [decodeNat_1F hm]
  unfold decodeMajor1F fieldAt
  repeat (first | (rw [if_pos (by omega)]) | (rw [if_neg (by omega)]))
  rw [FA3.ofNat_bits x 0 62 (by decide) (by omega)]

theorem reads_hmul2 (x : FA3) : Reads [0x7c000001 + x.bits] (.hmul2 x) := by
  have hb := x.bits_bounds
  generalize hn : 0x7c000001 + x.bits = n
  have hm : majorOf n = 0x1F := by unfold majorOf; omega
  refine Reads.one (by omega) (by unfold twoWords; rw [hm]; rfl) ?_
  rw [decodeNat_1F hm]
  unfold decodeMajor1F fieldAt
  repeat (first | (rw [if_pos (by omega)]) | (rw [if_neg (by omega)]))
  rw [FA3.ofNat_bits x 1 62 (by decide) (by omega)]

theorem reads_badd2 (x : FA3) : Reads [0x7c000002 + x.bits] (.badd2 x) := by
  have hb := x.bits_bounds
  generalize hn : 0x7c000002 + x.bits = n
  have hm : majorOf n = 0x1F := by unfold majorOf; omega
  refine Reads.one (by omega) (by unfold twoWords; rw [hm]; rfl) ?_
  rw [decodeNat_1F hm]
  unfold decodeMajor1F fieldAt
  repeat (first | (rw [if_pos (by omega)]) | (rw [if_neg (by omega)]))
  rw [FA3.ofNat_bits x 2 62 (by decide) (by omega)]

theorem reads_bmul2 (x : FA3) : Reads [0x7c000003 + x.bits] (.bmul2 x) := by
  have hb := x.bits_bounds
  generalize hn : 0x7c000003 + x.bits = n
  have hm : majorOf n = 0x1F := by unfold majorOf; omega
  refine Reads.one (by omega) (by unfold twoWords; rw [hm]; rfl) ?_
  rw [decodeNat_1F hm]
  unfold decodeMajor1F fieldAt
  repeat (first | (rw [if_pos (by omega)]) | (rw [if_neg (by omega)]))
  rw [FA3.ofNat_bits x 3 62 (by decide) (by omega)]

theorem reads_hfma2 (x : FQ) : Reads [0x80000000 + x.bits] (.hfma2 x) := by
  have hb := x.bits_bounds
  generalize hn : 0x80000000 + x.bits = n
  have hm : majorOf n = 0x20 := by unfold majorOf; omega
  refine Reads.one (by omega) (by unfold twoWords; rw [hm]; rfl) ?_
  rw [decodeNat_20 hm]
  unfold decodeMajor20 fieldAt
  repeat (first | (rw [if_pos (by omega)]) | (rw [if_neg (by omega)]))
  rw [FQ.ofNat_bits x 64  (by omega)]

theorem reads_bfma2 (x : FQ) : Reads [0x84000000 + x.bits] (.bfma2 x) := by
  have hb := x.bits_bounds
  generalize hn : 0x84000000 + x.bits = n
  have hm : majorOf n = 0x21 := by unfold majorOf; omega
  refine Reads.one (by omega) (by unfold twoWords; rw [hm]; rfl) ?_
  rw [decodeNat_21 hm]
  unfold decodeMajor21 fieldAt
  repeat (first | (rw [if_pos (by omega)]) | (rw [if_neg (by omega)]))
  rw [FQ.ofNat_bits x 66  (by omega)]

theorem reads_ld (x : FM) : Reads [0x88000000 + x.bits] (.ld x) := by
  have hb := x.bits_bounds
  generalize hn : 0x88000000 + x.bits = n
  have hm : majorOf n = 0x22 := by unfold majorOf; omega
  refine Reads.one (by omega) (by unfold twoWords; rw [hm]; rfl) ?_
  rw [decodeNat_22 hm]
  unfold decodeMajor22 fieldAt
  repeat (first | (rw [if_pos (by omega)]) | (rw [if_neg (by omega)]))
  rw [FM.ofNat_bits x 68  (by omega)]

theorem reads_st (x : FM) : Reads [0x8c000000 + x.bits] (.st x) := by
  have hb := x.bits_bounds
  generalize hn : 0x8c000000 + x.bits = n
  have hm : majorOf n = 0x23 := by unfold majorOf; omega
  refine Reads.one (by omega) (by unfold twoWords; rw [hm]; rfl) ?_
  rw [decodeNat_23 hm]
  unfold decodeMajor23 fieldAt
  repeat (first | (rw [if_pos (by omega)]) | (rw [if_neg (by omega)]))
  rw [FM.ofNat_bits x 70  (by omega)]

theorem reads_ldp (x : FM) : Reads [0x90000000 + x.bits] (.ldp x) := by
  have hb := x.bits_bounds
  generalize hn : 0x90000000 + x.bits = n
  have hm : majorOf n = 0x24 := by unfold majorOf; omega
  refine Reads.one (by omega) (by unfold twoWords; rw [hm]; rfl) ?_
  rw [decodeNat_24 hm]
  unfold decodeMajor24 fieldAt
  repeat (first | (rw [if_pos (by omega)]) | (rw [if_neg (by omega)]))
  rw [FM.ofNat_bits x 72  (by omega)]

theorem reads_ldr (x : FM) : Reads [0x94000000 + x.bits] (.ldr x) := by
  have hb := x.bits_bounds
  generalize hn : 0x94000000 + x.bits = n
  have hm : majorOf n = 0x25 := by unfold majorOf; omega
  refine Reads.one (by omega) (by unfold twoWords; rw [hm]; rfl) ?_
  rw [decodeNat_25 hm]
  unfold decodeMajor25 fieldAt
  repeat (first | (rw [if_pos (by omega)]) | (rw [if_neg (by omega)]))
  rw [FM.ofNat_bits x 74  (by omega)]

theorem reads_atomAdd (x : FMA) : Reads [0x98000000 + x.bits] (.atomAdd x) := by
  have hb := x.bits_bounds
  generalize hn : 0x98000000 + x.bits = n
  have hm : majorOf n = 0x26 := by unfold majorOf; omega
  refine Reads.one (by omega) (by unfold twoWords; rw [hm]; rfl) ?_
  rw [decodeNat_26 hm]
  unfold decodeMajor26 fieldAt
  repeat (first | (rw [if_pos (by omega)]) | (rw [if_neg (by omega)]))
  rw [FMA.ofNat_bits x 0 76 (by decide) (by omega)]

theorem reads_atomSub (x : FMA) : Reads [0x98000004 + x.bits] (.atomSub x) := by
  have hb := x.bits_bounds
  generalize hn : 0x98000004 + x.bits = n
  have hm : majorOf n = 0x26 := by unfold majorOf; omega
  refine Reads.one (by omega) (by unfold twoWords; rw [hm]; rfl) ?_
  rw [decodeNat_26 hm]
  unfold decodeMajor26 fieldAt
  repeat (first | (rw [if_pos (by omega)]) | (rw [if_neg (by omega)]))
  rw [FMA.ofNat_bits x 4 76 (by decide) (by omega)]

theorem reads_atomSmin (x : FMA) : Reads [0x98000008 + x.bits] (.atomSmin x) := by
  have hb := x.bits_bounds
  generalize hn : 0x98000008 + x.bits = n
  have hm : majorOf n = 0x26 := by unfold majorOf; omega
  refine Reads.one (by omega) (by unfold twoWords; rw [hm]; rfl) ?_
  rw [decodeNat_26 hm]
  unfold decodeMajor26 fieldAt
  repeat (first | (rw [if_pos (by omega)]) | (rw [if_neg (by omega)]))
  rw [FMA.ofNat_bits x 8 76 (by decide) (by omega)]

theorem reads_atomSmax (x : FMA) : Reads [0x9800000c + x.bits] (.atomSmax x) := by
  have hb := x.bits_bounds
  generalize hn : 0x9800000c + x.bits = n
  have hm : majorOf n = 0x26 := by unfold majorOf; omega
  refine Reads.one (by omega) (by unfold twoWords; rw [hm]; rfl) ?_
  rw [decodeNat_26 hm]
  unfold decodeMajor26 fieldAt
  repeat (first | (rw [if_pos (by omega)]) | (rw [if_neg (by omega)]))
  rw [FMA.ofNat_bits x 12 76 (by decide) (by omega)]

theorem reads_atomUmin (x : FMA) : Reads [0x98000010 + x.bits] (.atomUmin x) := by
  have hb := x.bits_bounds
  generalize hn : 0x98000010 + x.bits = n
  have hm : majorOf n = 0x26 := by unfold majorOf; omega
  refine Reads.one (by omega) (by unfold twoWords; rw [hm]; rfl) ?_
  rw [decodeNat_26 hm]
  unfold decodeMajor26 fieldAt
  repeat (first | (rw [if_pos (by omega)]) | (rw [if_neg (by omega)]))
  rw [FMA.ofNat_bits x 16 76 (by decide) (by omega)]

theorem reads_atomUmax (x : FMA) : Reads [0x98000014 + x.bits] (.atomUmax x) := by
  have hb := x.bits_bounds
  generalize hn : 0x98000014 + x.bits = n
  have hm : majorOf n = 0x26 := by unfold majorOf; omega
  refine Reads.one (by omega) (by unfold twoWords; rw [hm]; rfl) ?_
  rw [decodeNat_26 hm]
  unfold decodeMajor26 fieldAt
  repeat (first | (rw [if_pos (by omega)]) | (rw [if_neg (by omega)]))
  rw [FMA.ofNat_bits x 20 76 (by decide) (by omega)]

theorem reads_atomAnd (x : FMA) : Reads [0x98000018 + x.bits] (.atomAnd x) := by
  have hb := x.bits_bounds
  generalize hn : 0x98000018 + x.bits = n
  have hm : majorOf n = 0x26 := by unfold majorOf; omega
  refine Reads.one (by omega) (by unfold twoWords; rw [hm]; rfl) ?_
  rw [decodeNat_26 hm]
  unfold decodeMajor26 fieldAt
  repeat (first | (rw [if_pos (by omega)]) | (rw [if_neg (by omega)]))
  rw [FMA.ofNat_bits x 24 76 (by decide) (by omega)]

theorem reads_atomOr (x : FMA) : Reads [0x9800001c + x.bits] (.atomOr x) := by
  have hb := x.bits_bounds
  generalize hn : 0x9800001c + x.bits = n
  have hm : majorOf n = 0x26 := by unfold majorOf; omega
  refine Reads.one (by omega) (by unfold twoWords; rw [hm]; rfl) ?_
  rw [decodeNat_26 hm]
  unfold decodeMajor26 fieldAt
  repeat (first | (rw [if_pos (by omega)]) | (rw [if_neg (by omega)]))
  rw [FMA.ofNat_bits x 28 76 (by decide) (by omega)]

theorem reads_atomXor (x : FMA) : Reads [0x98000020 + x.bits] (.atomXor x) := by
  have hb := x.bits_bounds
  generalize hn : 0x98000020 + x.bits = n
  have hm : majorOf n = 0x26 := by unfold majorOf; omega
  refine Reads.one (by omega) (by unfold twoWords; rw [hm]; rfl) ?_
  rw [decodeNat_26 hm]
  unfold decodeMajor26 fieldAt
  repeat (first | (rw [if_pos (by omega)]) | (rw [if_neg (by omega)]))
  rw [FMA.ofNat_bits x 32 76 (by decide) (by omega)]

theorem reads_atomExch (x : FMA) : Reads [0x98000024 + x.bits] (.atomExch x) := by
  have hb := x.bits_bounds
  generalize hn : 0x98000024 + x.bits = n
  have hm : majorOf n = 0x26 := by unfold majorOf; omega
  refine Reads.one (by omega) (by unfold twoWords; rw [hm]; rfl) ?_
  rw [decodeNat_26 hm]
  unfold decodeMajor26 fieldAt
  repeat (first | (rw [if_pos (by omega)]) | (rw [if_neg (by omega)]))
  rw [FMA.ofNat_bits x 36 76 (by decide) (by omega)]

theorem reads_atomFadd (x : FMA) : Reads [0x98000028 + x.bits] (.atomFadd x) := by
  have hb := x.bits_bounds
  generalize hn : 0x98000028 + x.bits = n
  have hm : majorOf n = 0x26 := by unfold majorOf; omega
  refine Reads.one (by omega) (by unfold twoWords; rw [hm]; rfl) ?_
  rw [decodeNat_26 hm]
  unfold decodeMajor26 fieldAt
  repeat (first | (rw [if_pos (by omega)]) | (rw [if_neg (by omega)]))
  rw [FMA.ofNat_bits x 40 76 (by decide) (by omega)]

theorem reads_atomInc (x : FMA) : Reads [0x9800002c + x.bits] (.atomInc x) := by
  have hb := x.bits_bounds
  generalize hn : 0x9800002c + x.bits = n
  have hm : majorOf n = 0x26 := by unfold majorOf; omega
  refine Reads.one (by omega) (by unfold twoWords; rw [hm]; rfl) ?_
  rw [decodeNat_26 hm]
  unfold decodeMajor26 fieldAt
  repeat (first | (rw [if_pos (by omega)]) | (rw [if_neg (by omega)]))
  rw [FMA.ofNat_bits x 44 76 (by decide) (by omega)]

theorem reads_atomAdd64 (x : FMA) : Reads [0x98000030 + x.bits] (.atomAdd64 x) := by
  have hb := x.bits_bounds
  generalize hn : 0x98000030 + x.bits = n
  have hm : majorOf n = 0x26 := by unfold majorOf; omega
  refine Reads.one (by omega) (by unfold twoWords; rw [hm]; rfl) ?_
  rw [decodeNat_26 hm]
  unfold decodeMajor26 fieldAt
  repeat (first | (rw [if_pos (by omega)]) | (rw [if_neg (by omega)]))
  rw [FMA.ofNat_bits x 48 76 (by decide) (by omega)]

theorem reads_atomExch64 (x : FMA) : Reads [0x98000034 + x.bits] (.atomExch64 x) := by
  have hb := x.bits_bounds
  generalize hn : 0x98000034 + x.bits = n
  have hm : majorOf n = 0x26 := by unfold majorOf; omega
  refine Reads.one (by omega) (by unfold twoWords; rw [hm]; rfl) ?_
  rw [decodeNat_26 hm]
  unfold decodeMajor26 fieldAt
  repeat (first | (rw [if_pos (by omega)]) | (rw [if_neg (by omega)]))
  rw [FMA.ofNat_bits x 52 76 (by decide) (by omega)]

theorem reads_cas (x : FCAS) : Reads [0x9c000010 + x.bits] (.cas x) := by
  have hb := x.bits_bounds
  generalize hn : 0x9c000010 + x.bits = n
  have hm : majorOf n = 0x27 := by unfold majorOf; omega
  refine Reads.one (by omega) (by unfold twoWords; rw [hm]; rfl) ?_
  rw [decodeNat_27 hm]
  unfold decodeMajor27 fieldAt
  repeat (first | (rw [if_pos (by omega)]) | (rw [if_neg (by omega)]))
  rw [FCAS.ofNat_bits x 1 78 (by decide) (by omega)]

theorem reads_snap (x : FSNAP) : Reads [0xa1000000 + x.bits] (.snap x) := by
  have hb := x.bits_bounds
  generalize hn : 0xa1000000 + x.bits = n
  have hm : majorOf n = 0x28 := by unfold majorOf; omega
  refine Reads.one (by omega) (by unfold twoWords; rw [hm]; rfl) ?_
  rw [decodeNat_28 hm]
  unfold decodeMajor28 fieldAt
  repeat (first | (rw [if_pos (by omega)]) | (rw [if_neg (by omega)]))
  rw [FSNAP.ofNat_bits x 0 161 (by decide) (by omega)]

theorem reads_fenceEng : Reads [0xa5000000] .fenceEng := Reads.one (by decide) (by decide) (by decide)

theorem reads_fenceIo : Reads [0xa5040000] .fenceIo := Reads.one (by decide) (by decide) (by decide)

theorem reads_copy (x : FCOPY) : Reads [0xa8000000 + x.bits, x.bits2] (.copy x) := by
  have hb := x.bits_bounds
  generalize hn : 0xa8000000 + x.bits = n
  have hm : majorOf n = 0x2A := by unfold majorOf; omega
  refine Reads.two (by omega) (by omega) (by unfold twoWords; rw [hm]; rfl) ?_
  rw [decodeNat_2A hm]
  unfold decodeMajor2A fieldAt
  repeat (first | (rw [if_pos (by omega)]) | (rw [if_neg (by omega)]))
  rw [FCOPY.ofNat_bits x 0 42 (by decide) (by omega)]

theorem reads_gath (x : FGATH) : Reads [0xac000000 + x.bits, x.bits2] (.gath x) := by
  have hb := x.bits_bounds
  generalize hn : 0xac000000 + x.bits = n
  have hm : majorOf n = 0x2B := by unfold majorOf; omega
  refine Reads.two (by omega) (by omega) (by unfold twoWords; rw [hm]; rfl) ?_
  rw [decodeNat_2B hm]
  unfold decodeMajor2B fieldAt
  repeat (first | (rw [if_pos (by omega)]) | (rw [if_neg (by omega)]))
  rw [FGATH.ofNat_bits x 0 0 43 (by decide) (by decide) (by omega)]

theorem reads_scat (x : FGATH) : Reads [0xb0000000 + x.bits, x.bits2] (.scat x) := by
  have hb := x.bits_bounds
  generalize hn : 0xb0000000 + x.bits = n
  have hm : majorOf n = 0x2C := by unfold majorOf; omega
  refine Reads.two (by omega) (by omega) (by unfold twoWords; rw [hm]; rfl) ?_
  rw [decodeNat_2C hm]
  unfold decodeMajor2C fieldAt
  repeat (first | (rw [if_pos (by omega)]) | (rw [if_neg (by omega)]))
  rw [FGATH.ofNat_bits x 0 0 44 (by decide) (by decide) (by omega)]

theorem reads_coll (x : FCOLL) : Reads [0xb4000000 + x.bits, x.bits2] (.coll x) := by
  have hb := x.bits_bounds
  generalize hn : 0xb4000000 + x.bits = n
  have hm : majorOf n = 0x2D := by unfold majorOf; omega
  refine Reads.two (by omega) (by omega) (by unfold twoWords; rw [hm]; rfl) ?_
  rw [decodeNat_2D hm]
  unfold decodeMajor2D fieldAt
  repeat (first | (rw [if_pos (by omega)]) | (rw [if_neg (by omega)]))
  rw [FCOLL.ofNat_bits x 0 45 (by decide) (by omega)]

theorem reads_cwait (x : FSAB) : Reads [0xb8000000 + x.bits] (.cwait x) := by
  have hb := x.bits_bounds
  generalize hn : 0xb8000000 + x.bits = n
  have hm : majorOf n = 0x2E := by unfold majorOf; omega
  refine Reads.one (by omega) (by unfold twoWords; rw [hm]; rfl) ?_
  rw [decodeNat_2E hm]
  unfold decodeMajor2E fieldAt
  repeat (first | (rw [if_pos (by omega)]) | (rw [if_neg (by omega)]))
  rw [FSAB.ofNat_bits x 0 0 46 (by decide) (by decide) (by omega)]

theorem reads_ftest (x : FAB) : Reads [0xbd000000 + x.bits] (.ftest x) := by
  have hb := x.bits_bounds
  generalize hn : 0xbd000000 + x.bits = n
  have hm : majorOf n = 0x2F := by unfold majorOf; omega
  refine Reads.one (by omega) (by unfold twoWords; rw [hm]; rfl) ?_
  rw [decodeNat_2F hm]
  unfold decodeMajor2F fieldAt
  repeat (first | (rw [if_pos (by omega)]) | (rw [if_neg (by omega)]))
  rw [FAB.ofNat_bits x 0 12096 (by decide) (by omega)]

theorem reads_fcancel (x : FAB) : Reads [0xbd040000 + x.bits] (.fcancel x) := by
  have hb := x.bits_bounds
  generalize hn : 0xbd040000 + x.bits = n
  have hm : majorOf n = 0x2F := by unfold majorOf; omega
  refine Reads.one (by omega) (by unfold twoWords; rw [hm]; rfl) ?_
  rw [decodeNat_2F hm]
  unfold decodeMajor2F fieldAt
  repeat (first | (rw [if_pos (by omega)]) | (rw [if_neg (by omega)]))
  rw [FAB.ofNat_bits x 0 12097 (by decide) (by omega)]

theorem reads_fwait (x : FAB) : Reads [0xbd080000 + x.bits] (.fwait x) := by
  have hb := x.bits_bounds
  generalize hn : 0xbd080000 + x.bits = n
  have hm : majorOf n = 0x2F := by unfold majorOf; omega
  refine Reads.one (by omega) (by unfold twoWords; rw [hm]; rfl) ?_
  rw [decodeNat_2F hm]
  unfold decodeMajor2F fieldAt
  repeat (first | (rw [if_pos (by omega)]) | (rw [if_neg (by omega)]))
  rw [FAB.ofNat_bits x 0 12098 (by decide) (by omega)]

theorem reads_tld (x : FTL) : Reads [0xc0000000 + x.bits] (.tld x) := by
  have hb := x.bits_bounds
  generalize hn : 0xc0000000 + x.bits = n
  have hm : majorOf n = 0x30 := by unfold majorOf; omega
  refine Reads.one (by omega) (by unfold twoWords; rw [hm]; rfl) ?_
  rw [decodeNat_30 hm]
  unfold decodeMajor30 fieldAt
  repeat (first | (rw [if_pos (by omega)]) | (rw [if_neg (by omega)]))
  rw [FTL.ofNat_bits x 0 96 (by decide) (by omega)]

theorem reads_tst (x : FTL) : Reads [0xc4000000 + x.bits] (.tst x) := by
  have hb := x.bits_bounds
  generalize hn : 0xc4000000 + x.bits = n
  have hm : majorOf n = 0x31 := by unfold majorOf; omega
  refine Reads.one (by omega) (by unfold twoWords; rw [hm]; rfl) ?_
  rw [decodeNat_31 hm]
  unfold decodeMajor31 fieldAt
  repeat (first | (rw [if_pos (by omega)]) | (rw [if_neg (by omega)]))
  rw [FTL.ofNat_bits x 0 98 (by decide) (by omega)]

theorem reads_tzero (x : FSC) : Reads [0xc8000000 + x.bits] (.tzero x) := by
  have hb := x.bits_bounds
  generalize hn : 0xc8000000 + x.bits = n
  have hm : majorOf n = 0x32 := by unfold majorOf; omega
  refine Reads.one (by omega) (by unfold twoWords; rw [hm]; rfl) ?_
  rw [decodeNat_32 hm]
  unfold decodeMajor32 fieldAt
  repeat (first | (rw [if_pos (by omega)]) | (rw [if_neg (by omega)]))
  rw [FSC.ofNat_bits x 0 50 (by decide) (by omega)]

theorem reads_tfree (x : FSC) : Reads [0xc8040000 + x.bits] (.tfree x) := by
  have hb := x.bits_bounds
  generalize hn : 0xc8040000 + x.bits = n
  have hm : majorOf n = 0x32 := by unfold majorOf; omega
  refine Reads.one (by omega) (by unfold twoWords; rw [hm]; rfl) ?_
  rw [decodeNat_32 hm]
  unfold decodeMajor32 fieldAt
  repeat (first | (rw [if_pos (by omega)]) | (rw [if_neg (by omega)]))
  rw [FSC.ofNat_bits x 4096 50 (by decide) (by omega)]

theorem reads_tstate (x : FSAC) : Reads [0xc8080000 + x.bits] (.tstate x) := by
  have hb := x.bits_bounds
  generalize hn : 0xc8080000 + x.bits = n
  have hm : majorOf n = 0x32 := by unfold majorOf; omega
  refine Reads.one (by omega) (by unfold twoWords; rw [hm]; rfl) ?_
  rw [decodeNat_32 hm]
  unfold decodeMajor32 fieldAt
  repeat (first | (rw [if_pos (by omega)]) | (rw [if_neg (by omega)]))
  rw [FSAC.ofNat_bits x 0 2 50 (by decide) (by decide) (by omega)]

theorem reads_tmark (x : FSBC) : Reads [0xc80c0000 + x.bits] (.tmark x) := by
  have hb := x.bits_bounds
  generalize hn : 0xc80c0000 + x.bits = n
  have hm : majorOf n = 0x32 := by unfold majorOf; omega
  refine Reads.one (by omega) (by unfold twoWords; rw [hm]; rfl) ?_
  rw [decodeNat_32 hm]
  unfold decodeMajor32 fieldAt
  repeat (first | (rw [if_pos (by omega)]) | (rw [if_neg (by omega)]))
  rw [FSBC.ofNat_bits x 192 50 (by decide) (by omega)]

theorem reads_arrive (x : FSC) : Reads [0xcc000000 + x.bits] (.arrive x) := by
  have hb := x.bits_bounds
  generalize hn : 0xcc000000 + x.bits = n
  have hm : majorOf n = 0x33 := by unfold majorOf; omega
  refine Reads.one (by omega) (by unfold twoWords; rw [hm]; rfl) ?_
  rw [decodeNat_33 hm]
  unfold decodeMajor33 fieldAt
  repeat (first | (rw [if_pos (by omega)]) | (rw [if_neg (by omega)]))
  rw [FSC.ofNat_bits x 0 51 (by decide) (by omega)]

theorem reads_await (x : FSBC) : Reads [0xcc040000 + x.bits] (.await x) := by
  have hb := x.bits_bounds
  generalize hn : 0xcc040000 + x.bits = n
  have hm : majorOf n = 0x33 := by unfold majorOf; omega
  refine Reads.one (by omega) (by unfold twoWords; rw [hm]; rfl) ?_
  rw [decodeNat_33 hm]
  unfold decodeMajor33 fieldAt
  repeat (first | (rw [if_pos (by omega)]) | (rw [if_neg (by omega)]))
  rw [FSBC.ofNat_bits x 64 51 (by decide) (by omega)]

theorem reads_mma (x : FMMA) : Reads [0xd2000000 + x.bits, x.bits2] (.mma x) := by
  have hb := x.bits_bounds
  generalize hn : 0xd2000000 + x.bits = n
  have hm : majorOf n = 0x34 := by unfold majorOf; omega
  refine Reads.two (by omega) (by omega) (by unfold twoWords; rw [hm]; rfl) ?_
  rw [decodeNat_34 hm]
  unfold decodeMajor34 fieldAt
  repeat (first | (rw [if_pos (by omega)]) | (rw [if_neg (by omega)]))
  rw [FMMA.ofNat_bits x 0 210 (by decide) (by omega)]

theorem reads_drain (x : FDRAIN) : Reads [0xd5000000 + x.bits, x.bits2] (.drain x) := by
  have hb := x.bits_bounds
  generalize hn : 0xd5000000 + x.bits = n
  have hm : majorOf n = 0x35 := by unfold majorOf; omega
  refine Reads.two (by omega) (by omega) (by unfold twoWords; rw [hm]; rfl) ?_
  rw [decodeNat_35 hm]
  unfold decodeMajor35 fieldAt
  repeat (first | (rw [if_pos (by omega)]) | (rw [if_neg (by omega)]))
  rw [FDRAIN.ofNat_bits x 0 213 (by decide) (by omega)]

theorem reads_azero (x : FSAB) : Reads [0xd8000000 + x.bits] (.azero x) := by
  have hb := x.bits_bounds
  generalize hn : 0xd8000000 + x.bits = n
  have hm : majorOf n = 0x36 := by unfold majorOf; omega
  refine Reads.one (by omega) (by unfold twoWords; rw [hm]; rfl) ?_
  rw [decodeNat_36 hm]
  unfold decodeMajor36 fieldAt
  repeat (first | (rw [if_pos (by omega)]) | (rw [if_neg (by omega)]))
  rw [FSAB.ofNat_bits x 0 0 54 (by decide) (by decide) (by omega)]

theorem reads_asave (x : FSABC) : Reads [0xd8040000 + x.bits] (.asave x) := by
  have hb := x.bits_bounds
  generalize hn : 0xd8040000 + x.bits = n
  have hm : majorOf n = 0x36 := by unfold majorOf; omega
  refine Reads.one (by omega) (by unfold twoWords; rw [hm]; rfl) ?_
  rw [decodeNat_36 hm]
  unfold decodeMajor36 fieldAt
  repeat (first | (rw [if_pos (by omega)]) | (rw [if_neg (by omega)]))
  rw [FSABC.ofNat_bits x 1 54 (by decide) (by omega)]

theorem reads_aload (x : FSABC) : Reads [0xd8080000 + x.bits] (.aload x) := by
  have hb := x.bits_bounds
  generalize hn : 0xd8080000 + x.bits = n
  have hm : majorOf n = 0x36 := by unfold majorOf; omega
  refine Reads.one (by omega) (by unfold twoWords; rw [hm]; rfl) ?_
  rw [decodeNat_36 hm]
  unfold decodeMajor36 fieldAt
  repeat (first | (rw [if_pos (by omega)]) | (rw [if_neg (by omega)]))
  rw [FSABC.ofNat_bits x 2 54 (by decide) (by omega)]

theorem reads_astat (x : FSAB) : Reads [0xd80c0000 + x.bits] (.astat x) := by
  have hb := x.bits_bounds
  generalize hn : 0xd80c0000 + x.bits = n
  have hm : majorOf n = 0x36 := by unfold majorOf; omega
  refine Reads.one (by omega) (by unfold twoWords; rw [hm]; rfl) ?_
  rw [decodeNat_36 hm]
  unfold decodeMajor36 fieldAt
  repeat (first | (rw [if_pos (by omega)]) | (rw [if_neg (by omega)]))
  rw [FSAB.ofNat_bits x 0 3 54 (by decide) (by decide) (by omega)]

theorem reads_bra (x : FJ) : Reads [0xdc000000 + x.bits] (.bra x) := by
  have hb := x.bits_bounds
  generalize hn : 0xdc000000 + x.bits = n
  have hm : majorOf n = 0x37 := by unfold majorOf; omega
  refine Reads.one (by omega) (by unfold twoWords; rw [hm]; rfl) ?_
  rw [decodeNat_37 hm]
  unfold decodeMajor37 fieldAt
  repeat (first | (rw [if_pos (by omega)]) | (rw [if_neg (by omega)]))
  rw [FJ.ofNat_bits x 0 110 (by decide) (by omega)]

theorem reads_call (x : FJ) : Reads [0xe0000000 + x.bits] (.call x) := by
  have hb := x.bits_bounds
  generalize hn : 0xe0000000 + x.bits = n
  have hm : majorOf n = 0x38 := by unfold majorOf; omega
  refine Reads.one (by omega) (by unfold twoWords; rw [hm]; rfl) ?_
  rw [decodeNat_38 hm]
  unfold decodeMajor38 fieldAt
  repeat (first | (rw [if_pos (by omega)]) | (rw [if_neg (by omega)]))
  rw [FJ.ofNat_bits x 0 112 (by decide) (by omega)]

theorem reads_brx (x : FJX) : Reads [0xe4000000 + x.bits] (.brx x) := by
  have hb := x.bits_bounds
  generalize hn : 0xe4000000 + x.bits = n
  have hm : majorOf n = 0x39 := by unfold majorOf; omega
  refine Reads.one (by omega) (by unfold twoWords; rw [hm]; rfl) ?_
  rw [decodeNat_39 hm]
  unfold decodeMajor39 fieldAt
  repeat (first | (rw [if_pos (by omega)]) | (rw [if_neg (by omega)]))
  rw [FJX.ofNat_bits x 0 0 0 114 (by decide) (by decide) (by decide) (by omega)]

theorem reads_callx (x : FJX) : Reads [0xe4000001 + x.bits] (.callx x) := by
  have hb := x.bits_bounds
  generalize hn : 0xe4000001 + x.bits = n
  have hm : majorOf n = 0x39 := by unfold majorOf; omega
  refine Reads.one (by omega) (by unfold twoWords; rw [hm]; rfl) ?_
  rw [decodeNat_39 hm]
  unfold decodeMajor39 fieldAt
  repeat (first | (rw [if_pos (by omega)]) | (rw [if_neg (by omega)]))
  rw [FJX.ofNat_bits x 1 0 0 114 (by decide) (by decide) (by decide) (by omega)]

theorem reads_nop (x : FSC2) : Reads [0xe8000000 + x.bits] (.nop x) := by
  have hb := x.bits_bounds
  generalize hn : 0xe8000000 + x.bits = n
  have hm : majorOf n = 0x3A := by unfold majorOf; omega
  refine Reads.one (by omega) (by unfold twoWords; rw [hm]; rfl) ?_
  rw [decodeNat_3A hm]
  unfold decodeMajor3A fieldAt
  repeat (first | (rw [if_pos (by omega)]) | (rw [if_neg (by omega)]))
  rw [FSC2.ofNat_bits x 0 58 (by decide) (by omega)]

theorem reads_ret (x : FSC1) : Reads [0xe8040000 + x.bits] (.ret x) := by
  have hb := x.bits_bounds
  generalize hn : 0xe8040000 + x.bits = n
  have hm : majorOf n = 0x3A := by unfold majorOf; omega
  refine Reads.one (by omega) (by unfold twoWords; rw [hm]; rfl) ?_
  rw [decodeNat_3A hm]
  unfold decodeMajor3A fieldAt
  repeat (first | (rw [if_pos (by omega)]) | (rw [if_neg (by omega)]))
  rw [FSC1.ofNat_bits x 262144 116 (by decide) (by omega)]

theorem reads_exitT (x : FSC1) : Reads [0xe8080000 + x.bits] (.exitT x) := by
  have hb := x.bits_bounds
  generalize hn : 0xe8080000 + x.bits = n
  have hm : majorOf n = 0x3A := by unfold majorOf; omega
  refine Reads.one (by omega) (by unfold twoWords; rw [hm]; rfl) ?_
  rw [decodeNat_3A hm]
  unfold decodeMajor3A fieldAt
  repeat (first | (rw [if_pos (by omega)]) | (rw [if_neg (by omega)]))
  rw [FSC1.ofNat_bits x 524288 116 (by decide) (by omega)]

theorem reads_join : Reads [0xe80c0000] .join := Reads.one (by decide) (by decide) (by decide)

theorem reads_yield : Reads [0xe9100000] .yield := Reads.one (by decide) (by decide) (by decide)

theorem reads_pyield : Reads [0xe8140000] .pyield := Reads.one (by decide) (by decide) (by decide)

theorem reads_jpt (x : FJP) : Reads [0xec000000 + x.bits] (.jpt x) := by
  have hb := x.bits_bounds
  generalize hn : 0xec000000 + x.bits = n
  have hm : majorOf n = 0x3B := by unfold majorOf; omega
  refine Reads.one (by omega) (by unfold twoWords; rw [hm]; rfl) ?_
  rw [decodeNat_3B hm]
  unfold decodeMajor3B fieldAt
  repeat (first | (rw [if_pos (by omega)]) | (rw [if_neg (by omega)]))
  rw [FJP.ofNat_bits x 0 118 (by decide) (by omega)]

theorem reads_sjoin (x : FABC) : Reads [0xf1000000 + x.bits] (.sjoin x) := by
  have hb := x.bits_bounds
  generalize hn : 0xf1000000 + x.bits = n
  have hm : majorOf n = 0x3C := by unfold majorOf; omega
  refine Reads.one (by omega) (by unfold twoWords; rw [hm]; rfl) ?_
  rw [decodeNat_3C hm]
  unfold decodeMajor3C fieldAt
  repeat (first | (rw [if_pos (by omega)]) | (rw [if_neg (by omega)]))
  rw [FABC.ofNat_bits x 15424  (by omega)]

theorem reads_sleave (x : FOA) : Reads [0xf1040000 + x.bits] (.sleave x) := by
  have hb := x.bits_bounds
  generalize hn : 0xf1040000 + x.bits = n
  have hm : majorOf n = 0x3C := by unfold majorOf; omega
  refine Reads.one (by omega) (by unfold twoWords; rw [hm]; rfl) ?_
  rw [decodeNat_3C hm]
  unfold decodeMajor3C fieldAt
  repeat (first | (rw [if_pos (by omega)]) | (rw [if_neg (by omega)]))
  rw [FOA.ofNat_bits x 0 15425 (by decide) (by omega)]

theorem reads_sinfo (x : FAB) : Reads [0xf1080000 + x.bits] (.sinfo x) := by
  have hb := x.bits_bounds
  generalize hn : 0xf1080000 + x.bits = n
  have hm : majorOf n = 0x3C := by unfold majorOf; omega
  refine Reads.one (by omega) (by unfold twoWords; rw [hm]; rfl) ?_
  rw [decodeNat_3C hm]
  unfold decodeMajor3C fieldAt
  repeat (first | (rw [if_pos (by omega)]) | (rw [if_neg (by omega)]))
  rw [FAB.ofNat_bits x 0 15426 (by decide) (by omega)]

theorem reads_bar (x : FSC1) : Reads [0xf20c0000 + x.bits] (.bar x) := by
  have hb := x.bits_bounds
  generalize hn : 0xf20c0000 + x.bits = n
  have hm : majorOf n = 0x3C := by unfold majorOf; omega
  refine Reads.one (by omega) (by unfold twoWords; rw [hm]; rfl) ?_
  rw [decodeNat_3C hm]
  unfold decodeMajor3C fieldAt
  repeat (first | (rw [if_pos (by omega)]) | (rw [if_neg (by omega)]))
  rw [FSC1.ofNat_bits x 786432 121 (by decide) (by omega)]

theorem reads_gbar : Reads [0xf3100000] .gbar := Reads.one (by decide) (by decide) (by decide)

theorem reads_launch (x : FABC) : Reads [0xf1140000 + x.bits] (.launch x) := by
  have hb := x.bits_bounds
  generalize hn : 0xf1140000 + x.bits = n
  have hm : majorOf n = 0x3C := by unfold majorOf; omega
  refine Reads.one (by omega) (by unfold twoWords; rw [hm]; rfl) ?_
  rw [decodeNat_3C hm]
  unfold decodeMajor3C fieldAt
  repeat (first | (rw [if_pos (by omega)]) | (rw [if_neg (by omega)]))
  rw [FABC.ofNat_bits x 15429  (by omega)]

theorem reads_arm (x : FABC) : Reads [0xf1180000 + x.bits] (.arm x) := by
  have hb := x.bits_bounds
  generalize hn : 0xf1180000 + x.bits = n
  have hm : majorOf n = 0x3C := by unfold majorOf; omega
  refine Reads.one (by omega) (by unfold twoWords; rw [hm]; rfl) ?_
  rw [decodeNat_3C hm]
  unfold decodeMajor3C fieldAt
  repeat (first | (rw [if_pos (by omega)]) | (rw [if_neg (by omega)]))
  rw [FABC.ofNat_bits x 15430  (by omega)]

theorem reads_disarm (x : FAB) : Reads [0xf11c0000 + x.bits] (.disarm x) := by
  have hb := x.bits_bounds
  generalize hn : 0xf11c0000 + x.bits = n
  have hm : majorOf n = 0x3C := by unfold majorOf; omega
  refine Reads.one (by omega) (by unfold twoWords; rw [hm]; rfl) ?_
  rw [decodeNat_3C hm]
  unfold decodeMajor3C fieldAt
  repeat (first | (rw [if_pos (by omega)]) | (rw [if_neg (by omega)]))
  rw [FAB.ofNat_bits x 0 15431 (by decide) (by omega)]

theorem reads_vcreate (x : FVABC) : Reads [0xf9000000 + x.bits] (.vcreate x) := by
  have hb := x.bits_bounds
  generalize hn : 0xf9000000 + x.bits = n
  have hm : majorOf n = 0x3E := by unfold majorOf; omega
  refine Reads.one (by omega) (by unfold twoWords; rw [hm]; rfl) ?_
  rw [decodeNat_3E hm]
  unfold decodeMajor3E fieldAt
  repeat (first | (rw [if_pos (by omega)]) | (rw [if_neg (by omega)]))
  rw [FVABC.ofNat_bits x 64 62 (by decide) (by omega)]

theorem reads_vopen (x : FVABC) : Reads [0xf9040000 + x.bits] (.vopen x) := by
  have hb := x.bits_bounds
  generalize hn : 0xf9040000 + x.bits = n
  have hm : majorOf n = 0x3E := by unfold majorOf; omega
  refine Reads.one (by omega) (by unfold twoWords; rw [hm]; rfl) ?_
  rw [decodeNat_3E hm]
  unfold decodeMajor3E fieldAt
  repeat (first | (rw [if_pos (by omega)]) | (rw [if_neg (by omega)]))
  rw [FVABC.ofNat_bits x 65 62 (by decide) (by omega)]

theorem reads_vhand (x : FVAB) : Reads [0xf9080000 + x.bits] (.vhand x) := by
  have hb := x.bits_bounds
  generalize hn : 0xf9080000 + x.bits = n
  have hm : majorOf n = 0x3E := by unfold majorOf; omega
  refine Reads.one (by omega) (by unfold twoWords; rw [hm]; rfl) ?_
  rw [decodeNat_3E hm]
  unfold decodeMajor3E fieldAt
  repeat (first | (rw [if_pos (by omega)]) | (rw [if_neg (by omega)]))
  rw [FVAB.ofNat_bits x 0 66 62 (by decide) (by decide) (by omega)]

theorem reads_vdrop (x : FVAB) : Reads [0xf90c0000 + x.bits] (.vdrop x) := by
  have hb := x.bits_bounds
  generalize hn : 0xf90c0000 + x.bits = n
  have hm : majorOf n = 0x3E := by unfold majorOf; omega
  refine Reads.one (by omega) (by unfold twoWords; rw [hm]; rfl) ?_
  rw [decodeNat_3E hm]
  unfold decodeMajor3E fieldAt
  repeat (first | (rw [if_pos (by omega)]) | (rw [if_neg (by omega)]))
  rw [FVAB.ofNat_bits x 0 67 62 (by decide) (by decide) (by omega)]

theorem reads_vquery (x : FVAB) : Reads [0xf9100000 + x.bits] (.vquery x) := by
  have hb := x.bits_bounds
  generalize hn : 0xf9100000 + x.bits = n
  have hm : majorOf n = 0x3E := by unfold majorOf; omega
  refine Reads.one (by omega) (by unfold twoWords; rw [hm]; rfl) ?_
  rw [decodeNat_3E hm]
  unfold decodeMajor3E fieldAt
  repeat (first | (rw [if_pos (by omega)]) | (rw [if_neg (by omega)]))
  rw [FVAB.ofNat_bits x 0 68 62 (by decide) (by decide) (by omega)]

theorem reads_vdup (x : FVABC) : Reads [0xf9140000 + x.bits] (.vdup x) := by
  have hb := x.bits_bounds
  generalize hn : 0xf9140000 + x.bits = n
  have hm : majorOf n = 0x3E := by unfold majorOf; omega
  refine Reads.one (by omega) (by unfold twoWords; rw [hm]; rfl) ?_
  rw [decodeNat_3E hm]
  unfold decodeMajor3E fieldAt
  repeat (first | (rw [if_pos (by omega)]) | (rw [if_neg (by omega)]))
  rw [FVABC.ofNat_bits x 69 62 (by decide) (by omega)]

theorem reads_trap (x : FTRAP) : Reads [0xfc000000 + x.bits] (.trap x) := by
  have hb := x.bits_bounds
  generalize hn : 0xfc000000 + x.bits = n
  have hm : majorOf n = 0x3F := by unfold majorOf; omega
  refine Reads.one (by omega) (by unfold twoWords; rw [hm]; rfl) ?_
  rw [decodeNat_3F hm]
  unfold decodeMajor3F fieldAt
  repeat (first | (rw [if_pos (by omega)]) | (rw [if_neg (by omega)]))
  rw [FTRAP.ofNat_bits x 0 126 (by decide) (by omega)]

theorem reads_brk (x : FBRK) : Reads [0xfd040000 + x.bits] (.brk x) := by
  have hb := x.bits_bounds
  generalize hn : 0xfd040000 + x.bits = n
  have hm : majorOf n = 0x3F := by unfold majorOf; omega
  refine Reads.one (by omega) (by unfold twoWords; rw [hm]; rfl) ?_
  rw [decodeNat_3F hm]
  unfold decodeMajor3F fieldAt
  repeat (first | (rw [if_pos (by omega)]) | (rw [if_neg (by omega)]))
  rw [FBRK.ofNat_bits x 1036352  (by omega)]

theorem reads_srd (x : FAB) : Reads [0xfd080000 + x.bits] (.srd x) := by
  have hb := x.bits_bounds
  generalize hn : 0xfd080000 + x.bits = n
  have hm : majorOf n = 0x3F := by unfold majorOf; omega
  refine Reads.one (by omega) (by unfold twoWords; rw [hm]; rfl) ?_
  rw [decodeNat_3F hm]
  unfold decodeMajor3F fieldAt
  repeat (first | (rw [if_pos (by omega)]) | (rw [if_neg (by omega)]))
  rw [FAB.ofNat_bits x 0 16194 (by decide) (by omega)]

theorem reads_swr (x : FAB) : Reads [0xfd0c0000 + x.bits] (.swr x) := by
  have hb := x.bits_bounds
  generalize hn : 0xfd0c0000 + x.bits = n
  have hm : majorOf n = 0x3F := by unfold majorOf; omega
  refine Reads.one (by omega) (by unfold twoWords; rw [hm]; rfl) ?_
  rw [decodeNat_3F hm]
  unfold decodeMajor3F fieldAt
  repeat (first | (rw [if_pos (by omega)]) | (rw [if_neg (by omega)]))
  rw [FAB.ofNat_bits x 0 16195 (by decide) (by omega)]

theorem reads_clk (x : FAB) : Reads [0xfd100000 + x.bits] (.clk x) := by
  have hb := x.bits_bounds
  generalize hn : 0xfd100000 + x.bits = n
  have hm : majorOf n = 0x3F := by unfold majorOf; omega
  refine Reads.one (by omega) (by unfold twoWords; rw [hm]; rfl) ?_
  rw [decodeNat_3F hm]
  unfold decodeMajor3F fieldAt
  repeat (first | (rw [if_pos (by omega)]) | (rw [if_neg (by omega)]))
  rw [FAB.ofNat_bits x 0 16196 (by decide) (by omega)]

theorem reads_grow (x : FABC) : Reads [0xfd140000 + x.bits] (.grow x) := by
  have hb := x.bits_bounds
  generalize hn : 0xfd140000 + x.bits = n
  have hm : majorOf n = 0x3F := by unfold majorOf; omega
  refine Reads.one (by omega) (by unfold twoWords; rw [hm]; rfl) ?_
  rw [decodeNat_3F hm]
  unfold decodeMajor3F fieldAt
  repeat (first | (rw [if_pos (by omega)]) | (rw [if_neg (by omega)]))
  rw [FABC.ofNat_bits x 16197  (by omega)]

theorem reads_shrink (x : FABC) : Reads [0xfd180000 + x.bits] (.shrink x) := by
  have hb := x.bits_bounds
  generalize hn : 0xfd180000 + x.bits = n
  have hm : majorOf n = 0x3F := by unfold majorOf; omega
  refine Reads.one (by omega) (by unfold twoWords; rw [hm]; rfl) ?_
  rw [decodeNat_3F hm]
  unfold decodeMajor3F fieldAt
  repeat (first | (rw [if_pos (by omega)]) | (rw [if_neg (by omega)]))
  rw [FABC.ofNat_bits x 16198  (by omega)]

theorem reads_tret (x : FOA) : Reads [0xfd1c0000 + x.bits] (.tret x) := by
  have hb := x.bits_bounds
  generalize hn : 0xfd1c0000 + x.bits = n
  have hm : majorOf n = 0x3F := by unfold majorOf; omega
  refine Reads.one (by omega) (by unfold twoWords; rw [hm]; rfl) ?_
  rw [decodeNat_3F hm]
  unfold decodeMajor3F fieldAt
  repeat (first | (rw [if_pos (by omega)]) | (rw [if_neg (by omega)]))
  rw [FOA.ofNat_bits x 0 16199 (by decide) (by omega)]

theorem reads_sample (x : FABC) : Reads [0xfd200000 + x.bits] (.sample x) := by
  have hb := x.bits_bounds
  generalize hn : 0xfd200000 + x.bits = n
  have hm : majorOf n = 0x3F := by unfold majorOf; omega
  refine Reads.one (by omega) (by unfold twoWords; rw [hm]; rfl) ?_
  rw [decodeNat_3F hm]
  unfold decodeMajor3F fieldAt
  repeat (first | (rw [if_pos (by omega)]) | (rw [if_neg (by omega)]))
  rw [FABC.ofNat_bits x 16200  (by omega)]

end Sys2Proof
end

