-- ==== Sys2Proof/Laws/Paths.lean ====
section
/-!
SUPPORT. Lemmas: the forms that steer a path.
-/

namespace Sys2Proof.Machine

/-- With the current path resident, the checks leave the warp as it is at lane scope, and merge its paths at warp scope. -/
theorem admission_resident {q : Req} {m m' : Mach} {k : Nat} {ms : List Nat} (hq : q.sc < 2)
    (h : admission q m k = .go m' ms) (hp : (m.warp k).path.spilled = false) :
    (q.sc = 0 → m' = m) ∧ (q.sc = 1 → ∃ w', m' = m.setWarp k w' ∧ (w' = m.warp k ∧ (m.warp k).path.mask = (m.warp k).live ∨
      w' = { m.warp k with paths := [{ (m.warp k).path with mask := (m.warp k).live, st := .runnable }] })) := by
  unfold admission fillCurrent at h
  rw [if_neg (by simp [hp])] at h
  dsimp only at h
  split at h
  · cases h
  · constructor
    · intro h0
      rw [if_pos h0] at h
      split at h <;> cases h
      rfl
    · intro h1
      rw [if_neg (by omega)] at h
      split at h
      · cases h
      · cases h
      · rename_i w' hgw
        rw [if_pos h1] at h
        have hm : m' = m.setWarp k w' := by
          split at h <;> cases h
          rfl
        refine ⟨w', hm, ?_⟩
        unfold gather at hgw
        dsimp only at hgw
        split at hgw
        · rename_i he; cases hgw; left; exact ⟨rfl, he⟩
        · split at hgw
          · cases hgw; right; rfl
          · split at hgw <;> cases hgw

theorem bv_int (a : Word) (off : BitVec 20) : a + (off.signExtend 32 <<< 2) = BitVec.ofInt 32 (a.toNat + 4 * off.toInt) := by
  have h1 : off.signExtend 32 = BitVec.ofInt 32 off.toInt := rfl
  have h2 : ∀ x : Word, x <<< 2 = 4 * x := by intro x; bv_omega
  have h3 : BitVec.ofInt 32 (a.toNat : Int) = a := by
    apply BitVec.eq_of_toNat_eq; simp
  rw [h1, h2, BitVec.ofInt_add, BitVec.ofInt_mul, h3]
  rfl

theorem fillEntries_resident {w : Warp} {need : Option Nat} (h1 : ∀ p ∈ w.paths, p.spilled = false)
    (h2 : ∀ e ∈ w.recs, e.2.spilled = false) : fillEntries w need = w := by
  have hp : (match w.paths with | [] => [] | p :: r => { p with spilled := false } :: r) = w.paths := by
    cases hx : w.paths with
    | nil => rfl
    | cons p r =>
      have := h1 p (by rw [hx]; exact List.mem_cons_self)
      dsimp only
      rw [← this]
  have hr : (match need with | none => w.recs | some i => Map.upd w.recs i (fun r => { r with spilled := false })) = w.recs := by
    cases need with
    | none => rfl
    | some i =>
      dsimp only
      unfold Map.upd
      refine (List.map_congr_left (g := id) ?_).trans (List.map_id _)
      intro e he
      have := h2 e he
      obtain ⟨a, b⟩ := e
      dsimp only at this ⊢
      rw [← this]
      split <;> rfl
  have e1 : (fillEntries w need).paths = w.paths := hp
  have e2 : (fillEntries w need).recs = w.recs := hr
  have e3 : fillEntries w need = { w with paths := (fillEntries w need).paths, recs := (fillEntries w need).recs } := rfl
  rw [e3, e1, e2]

theorem spilledIn_resident {ps : List Machine.Path} {rs : List (Nat × Rec)} (h1 : ∀ p ∈ ps, p.spilled = false)
    (h2 : ∀ e ∈ rs, e.2.spilled = false) : spilledIn ps rs = 0 := by
  unfold spilledIn
  rw [List.filter_eq_nil_iff.2 (fun p hp => by simp [h1 p hp]), List.filter_eq_nil_iff.2 (fun e he => by simp [h2 e he])]
  rfl

/-- Where everything is resident and what `make` adds has room, nothing is spilled or filled. -/
theorem residency_room {m : Mach} {k : Nat} {f : FaultInfo} {w : Warp} {need : Option Nat} {pushed : Nat} {make : Warp → Warp}
    (h1 : ∀ p ∈ w.paths, p.spilled = false) (h2 : ∀ e ∈ w.recs, e.2.spilled = false) (h4 : w.recs.length ≤ 8 - pushed)
    (g1 : ∀ p ∈ (make w).paths, p.spilled = false) (g2 : ∀ e ∈ (make w).recs, e.2.spilled = false)
    (g3 : (make w).paths.length ≤ 16) (g4 : (make w).trap = w.trap) :
    residency m k f w need pushed make = .ok (make w) := by
  have hsr : spillRecs (8 - pushed) 64 w = w := by
    unfold spillRecs
    dsimp only
    rw [if_pos]
    exact le_trans (List.length_filter_le _ _) h4
  have hsp : spillPaths 16 64 (make w).paths = (make w).paths := by
    unfold spillPaths
    rw [if_pos]
    exact le_trans (List.length_filter_le _ _) g3
  have hb : spillBytes (make w) = spillBytes w := by
    unfold spillBytes
    rw [g4, spilledIn_resident h1 h2, spilledIn_resident g1 g2]
  unfold residency
  dsimp only
  rw [fillEntries_resident h1 h2, hsr, hsp]
  rw [if_pos ⟨rfl, hb⟩]

theorem limitTurn_spilled {w : Warp} (h : ∀ p ∈ w.paths, p.spilled = false) : ∀ p ∈ w.limitTurn.paths, p.spilled = false := by
  have hrot : ∀ ps : List Machine.Path, (∀ p ∈ ps, p.spilled = false) → ∀ p ∈ rotate ps, p.spilled = false := by
    intro ps h p hp
    unfold rotate at hp
    split at hp
    · have hm : ∀ x ∈ ps.dropWhile (fun p => !p.runnable) ++ ps.takeWhile (fun p => !p.runnable), x.spilled = false := by
        intro x hx
        rcases List.mem_append.1 hx with hx | hx
        · exact h x ((List.dropWhile_sublist _).subset hx)
        · exact h x ((List.takeWhile_sublist _).subset hx)
      revert hp hm
      cases ps.dropWhile (fun p => !p.runnable) ++ ps.takeWhile (fun p => !p.runnable) with
      | nil => intro hp; cases hp
      | cons a r =>
        intro hp hm
        rcases List.mem_cons.1 hp with rfl | hp
        · exact hm a List.mem_cons_self
        · exact hm p (List.mem_cons_of_mem _ hp)
    · exact h p hp
  unfold Warp.limitTurn
  split
  · exact h
  · unfold endTurn
    cases hx : w.paths with
    | nil => intro p hp; cases hp
    | cons a r =>
      refine hrot _ ?_
      intro p hp
      rw [hx] at h
      exact h p (by simpa [or_comm] using hp)

theorem rotate_length (ps : List Machine.Path) : (rotate ps).length = ps.length := by
  unfold rotate
  split
  · have hl : (ps.dropWhile (fun p => !p.runnable) ++ ps.takeWhile (fun p => !p.runnable)).length = ps.length := by
      rw [List.length_append, Nat.add_comm, ← List.length_append, List.takeWhile_append_dropWhile]
    rw [← hl]
    cases ps.dropWhile (fun p => !p.runnable) ++ ps.takeWhile (fun p => !p.runnable) <;> rfl
  · rfl

theorem limitTurn_length (w : Warp) : w.limitTurn.paths.length = w.paths.length := by
  unfold Warp.limitTurn
  split
  · rfl
  · dsimp only
    unfold endTurn
    cases w.paths with
    | nil => rfl
    | cons a r => rw [rotate_length]; simp

theorem addLane_mem (i : Nat) (hi : i < 32) (pc : Word) (inner : Option Nat) (gs : List Group) :
    ∃ g ∈ addLane i pc inner gs, g.mask.getLsbD i = true ∧ g.pc = pc ∧ g.inner = inner := by
  have hb : (bit i).getLsbD i = true := by unfold bit; simp [hi]
  induction gs with
  | nil => exact ⟨_, List.mem_cons_self, hb, rfl, rfl⟩
  | cons g gs ih =>
    unfold addLane
    split
    · rename_i h
      exact ⟨_, List.mem_cons_self, by simp [hb], h.1, h.2⟩
    · obtain ⟨x, h1, h2⟩ := ih
      exact ⟨x, List.mem_cons_of_mem _ h1, h2⟩

theorem addLane_keep (i : Nat) (pc : Word) (inner : Option Nat) (gs : List Group) (g : Group) (hg : g ∈ gs) :
    ∃ g' ∈ addLane i pc inner gs, g'.pc = g.pc ∧ g'.inner = g.inner ∧ ∀ j, g.mask.getLsbD j = true → g'.mask.getLsbD j = true := by
  induction gs with
  | nil => cases hg
  | cons a gs ih =>
    unfold addLane
    split
    · rcases List.mem_cons.1 hg with rfl | hg
      · exact ⟨_, List.mem_cons_self, rfl, rfl, fun j h => by simp [h]⟩
      · exact ⟨g, List.mem_cons_of_mem _ hg, rfl, rfl, fun _ h => h⟩
    · rcases List.mem_cons.1 hg with rfl | hg
      · exact ⟨g, List.mem_cons_self, rfl, rfl, fun _ h => h⟩
      · obtain ⟨x, h1, h2⟩ := ih hg
        exact ⟨x, List.mem_cons_of_mem _ h1, h2⟩

theorem addLane_keys (i : Nat) (pc : Word) (inner : Option Nat) (gs : List Group) :
    (addLane i pc inner gs).map (fun g => (g.pc, g.inner)) =
      if (pc, inner) ∈ gs.map (fun g => (g.pc, g.inner)) then gs.map (fun g => (g.pc, g.inner)) else gs.map (fun g => (g.pc, g.inner)) ++ [(pc, inner)] := by
  induction gs with
  | nil => simp [addLane]
  | cons a gs ih =>
    unfold addLane
    split
    · rename_i h
      rw [if_pos (by simp [h.1, h.2])]
      rfl
    · rename_i h
      rw [List.map_cons, ih]
      simp only [List.map_cons, List.mem_cons]
      have hne : ¬ ((pc, inner) = (a.pc, a.inner)) := by
        intro hc; rw [Prod.mk.injEq] at hc; exact h ⟨hc.1.symm, hc.2.symm⟩
      by_cases hm : (pc, inner) ∈ gs.map (fun g => (g.pc, g.inner))
      · rw [if_pos hm, if_pos (.inr hm)]
      · rw [if_neg hm, if_neg (by rintro (h1 | h1) <;> contradiction)]; rfl

theorem addLane_head (i : Nat) (pc : Word) (inner : Option Nat) (g : Group) (gs : List Group) (j : Nat) (h : g.mask.getLsbD j = true) :
    ∃ g' gs', addLane i pc inner (g :: gs) = g' :: gs' ∧ g'.mask.getLsbD j = true := by
  unfold addLane
  split
  · exact ⟨_, _, rfl, by simp [h]⟩
  · exact ⟨_, _, rfl, h⟩

theorem groups_spec (lanes : List Nat) (h32 : ∀ i ∈ lanes, i < 32) (dest : Nat → Word × Option Nat) :
    (∀ i ∈ lanes, ∃ g ∈ groupsBy lanes dest, g.mask.getLsbD i = true ∧ g.pc = (dest i).1 ∧ g.inner = (dest i).2) ∧
    ((groupsBy lanes dest).map (fun g => (g.pc, g.inner))).Nodup ∧
    (∀ e ∈ (groupsBy lanes dest).map (fun g => (g.pc, g.inner)), ∃ i ∈ lanes, e = dest i) ∧
    (∀ i l, lanes = i :: l → ∃ g gs, groupsBy lanes dest = g :: gs ∧ g.mask.getLsbD i = true) := by
  have key : ∀ (l : List Nat) (gs : List Group) (done : List Nat), (∀ i ∈ l, i < 32) →
      (∀ i ∈ done, ∃ g ∈ gs, g.mask.getLsbD i = true ∧ g.pc = (dest i).1 ∧ g.inner = (dest i).2) →
      (gs.map (fun g => (g.pc, g.inner))).Nodup → (∀ e ∈ gs.map (fun g => (g.pc, g.inner)), ∃ i ∈ done, e = dest i) →
      (∀ i, gs.head?.any (fun g => g.mask.getLsbD i) = true → (l.foldl (fun gs i => addLane i (dest i).1 (dest i).2 gs) gs).head?.any (fun g => g.mask.getLsbD i) = true) ∧
      (∀ i ∈ done ++ l, ∃ g ∈ l.foldl (fun gs i => addLane i (dest i).1 (dest i).2 gs) gs, g.mask.getLsbD i = true ∧ g.pc = (dest i).1 ∧ g.inner = (dest i).2) ∧
      ((l.foldl (fun gs i => addLane i (dest i).1 (dest i).2 gs) gs).map (fun g => (g.pc, g.inner))).Nodup ∧
      (∀ e ∈ (l.foldl (fun gs i => addLane i (dest i).1 (dest i).2 gs) gs).map (fun g => (g.pc, g.inner)), ∃ i ∈ done ++ l, e = dest i) := by
    intro l
    induction l with
    | nil => intro gs done _ h1 h2 h3; exact ⟨fun _ h => h, by simpa using h1, h2, by simpa using h3⟩
    | cons a l ih =>
      intro gs done hl h1 h2 h3
      rw [List.foldl_cons]
      have s1 : ∀ i ∈ done ++ [a], ∃ g ∈ addLane a (dest a).1 (dest a).2 gs, g.mask.getLsbD i = true ∧ g.pc = (dest i).1 ∧ g.inner = (dest i).2 := by
        intro i hi
        rw [List.mem_append, List.mem_singleton] at hi
        rcases hi with hi | rfl
        · obtain ⟨g, g1, g2, g3, g4⟩ := h1 i hi
          obtain ⟨g', e1, e2, e3, e4⟩ := addLane_keep a (dest a).1 (dest a).2 gs g g1
          exact ⟨g', e1, e4 _ g2, e2.trans g3, e3.trans g4⟩
        · exact addLane_mem i (hl i List.mem_cons_self) _ _ _
      have s2 : ((addLane a (dest a).1 (dest a).2 gs).map (fun g => (g.pc, g.inner))).Nodup := by
        rw [addLane_keys]
        split
        · exact h2
        · rename_i hm
          rw [List.nodup_append]
          refine ⟨h2, by simp, ?_⟩
          intro x hx y hy
          rw [List.mem_singleton] at hy
          subst hy
          rintro rfl
          exact hm hx
      have s3 : ∀ e ∈ (addLane a (dest a).1 (dest a).2 gs).map (fun g => (g.pc, g.inner)), ∃ i ∈ done ++ [a], e = dest i := by
        rw [addLane_keys]
        intro e he
        split at he
        · obtain ⟨i, hi, h⟩ := h3 e he
          exact ⟨i, by simp [hi], h⟩
        · rw [List.mem_append, List.mem_singleton] at he
          rcases he with he | rfl
          · obtain ⟨i, hi, h⟩ := h3 e he
            exact ⟨i, by simp [hi], h⟩
          · exact ⟨a, by simp, rfl⟩
      obtain ⟨k1, k2, k3, k4⟩ := ih (addLane a (dest a).1 (dest a).2 gs) (done ++ [a]) (fun i hi => hl i (List.mem_cons_of_mem _ hi)) s1 s2 s3
      refine ⟨?_, by simpa using k2, k3, by simpa using k4⟩
      intro i hi
      apply k1
      cases gs with
      | nil => simp at hi
      | cons g gs =>
        obtain ⟨g', gs', e1, e2⟩ := addLane_head a (dest a).1 (dest a).2 g gs i (by simpa using hi)
        rw [e1]; simpa using e2
  obtain ⟨-, h2, h3, h4⟩ := key lanes [] [] h32 (by simp) (by simp) (by simp)
  refine ⟨by simpa [groupsBy] using h2, h3, by simpa [groupsBy] using h4, ?_⟩
  rintro i l rfl
  obtain ⟨k1, -⟩ := key l (addLane i (dest i).1 (dest i).2 []) [i] (fun j hj => h32 j (List.mem_cons_of_mem _ hj))
    (by intro j hj; simp at hj; subst hj; exact addLane_mem j (h32 j List.mem_cons_self) _ _ _) (by simp [addLane]) (by simp [addLane])
  have := k1 i (by
    have hb : (bit i).getLsbD i = true := by unfold bit; simp [h32 i List.mem_cons_self]
    simp [addLane, hb])
  have he : groupsBy (i :: l) dest = l.foldl (fun gs i => addLane i (dest i).1 (dest i).2 gs) (addLane i (dest i).1 (dest i).2 []) := rfl
  rw [← he] at this
  cases hx : groupsBy (i :: l) dest with
  | nil => rw [hx] at this; simp at this
  | cons g gs => rw [hx] at this; exact ⟨g, gs, rfl, by simpa using this⟩

/-- The machine after the checks of an instruction of lane or warp scope whose current path is resident. -/
theorem goes_resident {q : Req} {s : State} {m : Mach} {ms : List Nat} (hq : q.sc < 2) (hg : Goes q s m ms)
    (hp : s.me.path.spilled = false) :
    ∃ w', (m.warp s.cur) = w' ∧ w' = { s.me with paths := w'.paths } ∧ w'.path.mask = lanesAt s.me q.sc ∧
      w'.path.pc = s.me.path.pc ∧ w'.path.inner = s.me.path.inner ∧ w'.path.clause = s.me.path.clause ∧
      (s.me.path.st = .runnable → w'.path.st = .runnable) ∧ w'.path.park = s.me.path.park ∧ w'.paths ≠ [] ∧
      (w'.paths.length ≤ s.me.paths.length) ∧ (∀ p ∈ w'.paths.tail, p ∈ s.me.paths.tail) ∧
      (q.sc = 0 → w'.paths = s.me.paths) ∧ ((∀ p ∈ s.me.paths, p.spilled = false) → ∀ p ∈ w'.paths, p.spilled = false) := by
  obtain ⟨rfl, ha, hh⟩ := goes_values hq hg
  have hne := goes_paths hq hg
  obtain ⟨h0, h1⟩ := admission_resident hq hg.admitted hp
  have hne0 : s.me.paths ≠ [] := hg.paths
  rcases Nat.lt_or_ge q.sc 1 with hs | hs
  · have hs : q.sc = 0 := by omega
    have hm := h0 hs
    subst hm
    exact ⟨_, rfl, rfl, by simp [lanesAt, hs, State.me], rfl, rfl, rfl, id, rfl, hne0, le_refl _, fun _ h => h, fun _ => rfl, fun h => h⟩
  · have hs : q.sc = 1 := by omega
    obtain ⟨w', e1, e2⟩ := h1 hs
    have e3 : m.warp s.cur = w' := by rw [e1, Mach.warp_setWarp_self]
    refine ⟨w', e3, ?_⟩
    rcases e2 with ⟨e2, e4⟩ | e2
    · subst e2
      exact ⟨rfl, by rw [lanesAt, if_neg (by omega)]; exact e4, rfl, rfl, rfl, id, rfl, hne0, le_refl _, fun _ h => h, fun h => absurd h (by omega), fun h => h⟩
    · subst e2
      refine ⟨rfl, by rw [lanesAt, if_neg (by omega)]; rfl, rfl, rfl, rfl, fun _ => rfl, rfl, by simp, ?_, by simp, fun h => absurd h (by omega), ?_⟩
      · have := List.length_pos_iff.2 hne0
        exact this
      · intro h p hpm
        simp only [List.mem_singleton] at hpm
        subst hpm
        exact hp

theorem steered_of {s : State} {m m2 : Mach} {q : Req} {ms : List Nat} (hq : q.sc < 2) (hg : Goes q s m ms) (hm : m2.rest = m.rest)
    (ho : sameOthers s.cur m m2) (hw : (m2.warp s.cur).placeRest = (m.warp s.cur).placeRest)
    (hv : (m2.warp s.cur).v = (m.warp s.cur).v) (hs : (m2.warp s.cur).s = (m.warp s.cur).s)
    (hp : (m2.warp s.cur).p = (m.warp s.cur).p) (hf : (m2.warp s.cur).fflags = (m.warp s.cur).fflags) : Steered s { s with m := m2 } := by
  obtain ⟨rfl, ha, hh⟩ := goes_values hq hg
  exact ⟨rfl, rfl, rfl, hm.trans (admitted_acc1 ha).2.2.2.2.2, others_trans ha.others ho, hw.trans (ha.keeps Warp.placeRest fun _ _ _ => rfl),
    hv.trans (ha.keeps Warp.v fun _ _ _ => rfl), hs.trans (ha.keeps Warp.s fun _ _ _ => rfl), hp.trans (ha.keeps Warp.p fun _ _ _ => rfl),
    hf.trans (ha.keeps Warp.fflags fun _ _ _ => rfl)⟩

theorem split_eq (w : Warp) (gs : List Group) : split w gs = { w with paths := (split w gs).paths } := by
  unfold split; split <;> rfl

/-- The table that a transfer leaves. -/
theorem transferTo_spec (call : Bool) (c : Word) (target : Nat → Word) (w : Warp) (hne : w.paths ≠ []) :
    transferTo call c target w = { w with paths := (transferTo call c target w).paths, recs := (transferTo call c target w).recs, nextRec := (transferTo call c target w).nextRec } ∧
    (transferTo call c target w).recs = (if call = true ∧ c ≠ 0 then Map.ins w.recs w.nextRec
          { call := true, addr := w.path.pc + 4, entry := c, arrival := 0, parent := w.path.inner, spilled := false } else w.recs) ∧
    (∀ n, n < 32 → w.path.mask.getLsbD n = true → ∃ p ∈ (transferTo call c target w).paths, p.mask.getLsbD n = true ∧ p.st = w.path.st ∧ p.clause = none ∧
      p.pc = (if c.getLsbD n = true then target n else w.path.pc + 4) ∧ p.inner = (if call = true ∧ c.getLsbD n = true then some w.nextRec else w.path.inner)) ∧
    (∀ p ∈ w.paths.tail, p ∈ (transferTo call c target w).paths) ∧
    (transferTo call c target w).paths.length ≤ w.paths.length + ((lanesOf c).map target).dedup.length ∧
    (w.path.spilled = false → (∀ p ∈ w.paths.tail, p.spilled = false) → ∀ p ∈ (transferTo call c target w).paths, p.spilled = false) ∧
    (w.path.mask ≠ 0 → (transferTo call c target w).path.mask.getLsbD (lowest w.path.mask) = true) := by
  obtain ⟨p0, r0, hps⟩ := List.exists_cons_of_ne_nil hne
  have hpath : w.path = p0 := by unfold Warp.path; rw [hps]; rfl
  -- the record
  let r : Option Nat × Warp := if call ∧ c ≠ 0 then ((some (pushRec w true (nextHdr w) c).1), (pushRec w true (nextHdr w) c).2) else (w.path.inner, w)
  have hr2 : r.2 = { w with recs := r.2.recs, nextRec := r.2.nextRec } := by
    show (if call ∧ c ≠ 0 then _ else _ : Option Nat × Warp).2 = _
    dsimp only [r]
    split <;> rfl
  have hr2p : r.2.paths = p0 :: r0 := by rw [hr2]; exact hps
  have hrecs : r.2.recs = (if call = true ∧ c ≠ 0 then Map.ins w.recs w.nextRec
          { call := true, addr := w.path.pc + 4, entry := c, arrival := 0, parent := w.path.inner, spilled := false } else w.recs) := by
    dsimp only [r]
    split <;> rfl
  have hr1 : ∀ n, n < 32 → c.getLsbD n = true → r.1 = (if call = true ∧ c.getLsbD n = true then some w.nextRec else w.path.inner) := by
    intro n hn hb
    have hc : c ≠ 0 := by rintro rfl; simp at hb
    cases call
    · rfl
    · dsimp only [r]
      rw [if_pos ⟨rfl, hc⟩, if_pos ⟨rfl, hb⟩]
      rfl
  let dest : Nat → Word × Option Nat := fun i => if c.getLsbD i then (target i, r.1) else (nextHdr w, w.path.inner)
  have hT : transferTo call c target w = split r.2 (groupsBy (lanesOf w.path.mask) dest) := rfl
  obtain ⟨g1, g2, g3, g4⟩ := groups_spec (lanesOf w.path.mask) (fun i hi => (mem_lanesOf.1 hi).1) dest
  have hlen : (groupsBy (lanesOf w.path.mask) dest).length ≤ 1 + ((lanesOf c).map target).dedup.length := by
    have hsub : (groupsBy (lanesOf w.path.mask) dest).map (fun g => (g.pc, g.inner)) ⊆ (nextHdr w, w.path.inner) :: (((lanesOf c).map target).dedup.map (fun t => (t, r.1))) := by
      intro e he
      obtain ⟨i, hi, rfl⟩ := g3 e he
      dsimp only [dest]
      split
      · rename_i hb
        apply List.mem_cons_of_mem
        rw [List.mem_map]
        exact ⟨target i, by rw [List.mem_dedup]; exact List.mem_map_of_mem (mem_lanesOf.2 ⟨(mem_lanesOf.1 hi).1, hb⟩), rfl⟩
      · exact List.mem_cons_self
    have := (g2.subperm hsub).length_le
    simp only [List.length_map, List.length_cons] at this
    omega
  rw [hT]
  cases hgs : groupsBy (lanesOf w.path.mask) dest with
  | nil =>
    have hsp : split r.2 [] = r.2 := by unfold split; rw [hr2p]
    rw [hsp]
    refine ⟨by rw [hr2p, ← hps]; exact hr2, hrecs, ?_, ?_, ?_, ?_, ?_⟩
    · intro n hn hb
      obtain ⟨g, hg, -⟩ := g1 n (mem_lanesOf.2 ⟨hn, hb⟩)
      rw [hgs] at hg; cases hg
    · intro p hp; rw [hr2p]; rw [hps] at hp; exact List.mem_cons_of_mem _ hp
    · rw [hr2p, hps]; omega
    · intro h1 h2 p hp
      rw [hr2p] at hp
      rcases List.mem_cons.1 hp with rfl | hp
      · rw [← hpath]; exact h1
      · exact h2 p (by rw [hps]; exact hp)
    · intro hm
      exfalso
      apply hm
      apply BitVec.eq_of_getLsbD_eq
      intro i hi
      by_contra hc
      have hb : w.path.mask.getLsbD i = true := by simpa using hc
      obtain ⟨g, hg, -⟩ := g1 i (mem_lanesOf.2 ⟨hi, hb⟩)
      rw [hgs] at hg; cases hg
  | cons g gs =>
    have hsp : split r.2 (g :: gs) = { r.2 with paths := p0.moved g (p0.turn + 1) :: (gs.map (fun g => p0.moved g 0) ++ r0) } := by
      unfold split; rw [hr2p]
    rw [hsp]
    refine ⟨?_, hrecs, ?_, ?_, ?_, ?_, ?_⟩
    · rw [hr2]
    · intro n hn hb
      obtain ⟨g', hg', e1, e2, e3⟩ := g1 n (mem_lanesOf.2 ⟨hn, hb⟩)
      have hd : (dest n).1 = (if c.getLsbD n = true then target n else w.path.pc + 4) ∧
          (dest n).2 = (if call = true ∧ c.getLsbD n = true then some w.nextRec else w.path.inner) := by
        dsimp only [dest]
        by_cases hcn : c.getLsbD n = true
        · rw [if_pos hcn, if_pos hcn]
          exact ⟨rfl, hr1 n hn hcn⟩
        · rw [if_neg hcn, if_neg hcn, if_neg (by rintro ⟨-, h⟩; exact hcn h)]
          exact ⟨rfl, rfl⟩
      rw [hgs] at hg'
      rcases List.mem_cons.1 hg' with rfl | hg'
      · exact ⟨_, List.mem_cons_self, e1, by rw [hpath]; rfl, rfl, e2.trans hd.1, e3.trans hd.2⟩
      · exact ⟨p0.moved g' 0, List.mem_cons_of_mem _ (List.mem_append_left _ (List.mem_map_of_mem (f := fun g => p0.moved g 0) hg')), e1, by rw [hpath]; rfl, rfl, e2.trans hd.1, e3.trans hd.2⟩
    · intro p hp
      rw [hps] at hp
      exact List.mem_cons_of_mem _ (List.mem_append_right _ hp)
    · rw [hgs] at hlen
      simp only [List.length_cons, List.length_append, List.length_map] at hlen ⊢
      rw [hps]
      simp only [List.length_cons]
      omega
    · intro h1 h2 p hp
      dsimp only at hp
      rcases List.mem_cons.1 hp with rfl | hp
      · show p0.spilled = false; rw [← hpath]; exact h1
      · rcases List.mem_append.1 hp with hp | hp
        · obtain ⟨g', -, rfl⟩ := List.mem_map.1 hp
          show p0.spilled = false; rw [← hpath]; exact h1
        · exact h2 p (by rw [hps]; exact hp)
    · intro hm
      show g.mask.getLsbD _ = true
      cases hl : lanesOf w.path.mask with
      | nil =>
        exfalso
        apply hm
        apply BitVec.eq_of_getLsbD_eq
        intro i hi
        by_contra hc
        have : i ∈ lanesOf w.path.mask := mem_lanesOf.2 ⟨hi, by simpa using hc⟩
        rw [hl] at this; cases this
      | cons a l =>
        obtain ⟨g', gs', e1, e2⟩ := g4 a l hl
        rw [hgs] at e1
        cases e1
        unfold lowest
        rw [hl]
        exact e2

theorem transfer_exec {i : Instr} {sc g : Nat} {call : Bool} {target : Warp → Nat → Word} {q : Req} (hi : transferForm i = some (sc, g, call, target))
    (hq : reqOf i = some q) : q.sc = sc ∧ sc < 2 ∧ q.words = 1 ∧ ∃ body, exec i = issueTo q body ∧
      ∀ (m : Mach) (k : Nat) (c : Word), taken q m k g = .ok c → (∀ n, n < 32 → c.getLsbD n = true → (target (m.warp k) n).toNat % 4 = 0) →
        body m [k] = placeWarp q m k (call && c != 0).toNat (transferTo call c (target (m.warp k))) := by
  have hsc : ∀ x : BitVec 1, (if x = 0 then 0 else 1) = x.toNat := by
    intro x; rcases BitVec.eq_zero_or_eq_one x with h | h <;> simp [h]
  unfold transferForm at hi
  split at hi <;> cases hi <;> cases hq
  · rename_i x
    refine ⟨rfl, x.sc.isLt, rfl, _, rfl, ?_⟩
    intro m k c hc _
    show (do let c ← taken _ m k _; placeWarp _ m k (false && c != 0).toNat (transferTo false c (fun _ => jTarget (m.warp k) x.off))) = _
    rw [hc]
    simp only [bind, Except.bind, jTarget, bv_int]
  · rename_i x
    refine ⟨rfl, x.sc.isLt, rfl, _, rfl, ?_⟩
    intro m k c hc _
    show (do let c ← taken _ m k _; placeWarp _ m k (true && c != 0).toNat (transferTo true c (fun _ => jTarget (m.warp k) x.off))) = _
    rw [hc]
    simp only [bind, Except.bind, jTarget, bv_int]
  all_goals
    rename_i x
    refine ⟨by unfold jumpRegReq jxReq; rcases BitVec.eq_zero_or_eq_one x.sc with h | h <;> simp [h], x.sc.isLt,
      by unfold jumpRegReq jxReq; split <;> rfl, _, rfl, ?_⟩
    intro m k c hc hal
    have hbad : (lanesOf c).filter (fun i => ((if x.sc = 0 then (m.warp k).src x.a.toNat i else (m.warp k).getS x.a.toNat).toNat % 4 != 0)) = [] := by
      rw [List.filter_eq_nil_iff]
      intro n hn
      have := hal n (mem_lanesOf.1 hn).1 (mem_lanesOf.1 hn).2
      dsimp only at this
      rw [this]; decide
    unfold jumpRegBody
    simp only [List.headD_cons]
    rw [hc]
    simp only [bind, Except.bind]
    rw [hbad]

theorem retire_keeps (q : Req) (w : Warp) : (retireWarp q true w).paths = w.paths ∧ (retireWarp q true w).recs = w.recs ∧
    (retireWarp q true w).placeRest = w.placeRest ∧ (retireWarp q true w).v = w.v ∧ (retireWarp q true w).s = w.s ∧
    (retireWarp q true w).p = w.p ∧ (retireWarp q true w).fflags = w.fflags ∧ (retireWarp q true w).parks = w.parks ∧
    (retireWarp q true w).live = w.live ∧ (retireWarp q true w).trap = w.trap ∧ (retireWarp q true w).nextRec = w.nextRec := by
  rw [retireWarp_eq]; exact ⟨rfl, rfl, rfl, rfl, rfl, rfl, rfl, rfl, rfl, rfl, rfl⟩

theorem head_unspilled {w : Warp} (h : ∀ p ∈ w.paths, p.spilled = false) : w.path.spilled = false := by
  unfold Warp.path
  cases hx : w.paths with
  | nil => rfl
  | cons p r => exact h p (by rw [hx]; exact List.mem_cons_self)

theorem ins_length {α : Type} (l : List (Nat × α)) (k : Nat) (r : α) : (Map.ins l k r).length ≤ l.length + 1 := by
  induction l with
  | nil => simp [Map.ins]
  | cons a l ih => unfold Map.ins; split <;> [simp; (split <;> simp; omega)]

theorem rotate_spec (ps : List Machine.Path) (h : ∃ p ∈ ps, p.st = .runnable) :
    (∃ p r, rotate ps = { p with turn := 0 } :: r ∧ p ∈ ps ∧ p.st = .runnable ∧ r.Sublist (r) ∧
      (∀ x ∈ ps, x ∈ { p with turn := p.turn } :: r ∨ x = p) ∧ (∀ x ∈ r, x ∈ ps)) := by
  unfold rotate
  have hany : ps.any Path.runnable = true := by
    rw [List.any_eq_true]
    obtain ⟨p, hp, h⟩ := h
    exact ⟨p, hp, by simp [Path.runnable, h]⟩
  rw [if_pos hany]
  have hperm : (ps.dropWhile (fun p => !p.runnable) ++ ps.takeWhile (fun p => !p.runnable)).Perm ps :=
    List.perm_append_comm.trans (by rw [List.takeWhile_append_dropWhile])
  cases hd : ps.dropWhile (fun p => !p.runnable) with
  | nil =>
    exfalso
    rw [List.dropWhile_eq_nil_iff] at hd
    obtain ⟨p, hp, h⟩ := h
    have := hd p hp
    simp [Path.runnable, h] at this
  | cons a l =>
    rw [hd] at hperm
    have ha : a.st = .runnable := by
      have := List.head?_dropWhile_not (fun p => !Path.runnable p) ps
      rw [hd] at this
      simpa [Path.runnable] using this
    refine ⟨a, l ++ ps.takeWhile (fun p => !p.runnable), rfl, hperm.mem_iff.1 (by simp), ha, List.Sublist.refl _, ?_, ?_⟩
    · intro x hx
      left
      exact hperm.mem_iff.2 hx
    · intro x hx
      exact hperm.mem_iff.1 (List.mem_cons_of_mem _ hx)

theorem lastArrived_head (c : Machine.Path) (r : List Machine.Path) (i : Nat) (hc : (c.inner == some i && (c.st == .atJoin || c.st == .atRet)) = true)
    (hr : ∀ p ∈ r, p.park < c.park) : lastArrived (c :: r) i = some c := by
  unfold lastArrived
  rw [List.filter_cons, if_pos hc, List.foldl_cons]
  dsimp only
  have key : ∀ l : List Machine.Path, (∀ p ∈ l, p.park < c.park) →
      l.foldl (fun a p => match a with | none => some p | some q => if q.park < p.park then some p else some q) (some c) = some c := by
    intro l
    induction l with
    | nil => intro _; rfl
    | cons a l ih =>
      intro h
      rw [List.foldl_cons]
      dsimp only
      rw [if_neg (by have := h a List.mem_cons_self; omega)]
      exact ih (fun p hp => h p (List.mem_cons_of_mem _ hp))
  exact key _ (fun p hp => hr p (List.mem_filter.1 hp).1)

theorem find?_upd_self' {α : Type} (l : List (Nat × α)) (k : Nat) (f : α → α) : Map.find? (Map.upd l k f) k = (Map.find? l k).map f := Map.find?_upd_self l k f

/-- The arrival of the current path at a record. -/
theorem arriveAt_spec (w : Warp) (i : Nat) (r : Rec) (st : PathState) (hst : st = .atJoin ∨ st = .atRet) (p0 : Machine.Path) (r0 : List Machine.Path)
    (hps : w.paths = p0 :: r0) (hin : p0.inner = some i) (hr : Map.find? w.recs i = some r) (hpark : ∀ p ∈ r0, p.park < w.parks) :
    arriveAt i st w = { w with paths := (arriveAt i st w).paths, recs := (arriveAt i st w).recs, parks := (arriveAt i st w).parks } ∧
    (((r.entry &&& w.live) &&& ~~~ (r.arrival ||| p0.mask) = 0 → Map.find? (arriveAt i st w).recs i = none ∧
      ∃ p ∈ (arriveAt i st w).paths, p.mask = (r.arrival ||| p0.mask) &&& w.live ∧ p.st = .runnable ∧
            p.pc = (if r.call = true then r.addr else p0.pc + 4) ∧ p.inner = r.parent ∧ p.clause = none ∧ p.dem = 0) ∧
     ((r.entry &&& w.live) &&& ~~~ (r.arrival ||| p0.mask) ≠ 0 → (∃ p ∈ r0, p.st = .runnable) →
        Map.find? (arriveAt i st w).recs i = some { r with arrival := r.arrival ||| p0.mask } ∧
          (∃ p ∈ (arriveAt i st w).paths, p.mask = p0.mask ∧ p.pc = p0.pc ∧ p.st = st) ∧ (arriveAt i st w).path.st = .runnable)) := by
  let c : Machine.Path := { p0 with cnt := p0.cnt + 1, turn := p0.turn + 1, st := st, park := w.parks }
  have hpath : w.path = p0 := by unfold Warp.path; rw [hps]; rfl
  let recs := Map.upd w.recs i (fun r => { r with arrival := r.arrival ||| p0.mask })
  let wp : Warp := { w with recs := recs, paths := c :: r0, parks := w.parks + 1 }
  have hA : arriveAt i st w = if (completeRec wp i).path.runnable then (completeRec wp i).limitTurn
      else { completeRec wp i with paths := rotate (completeRec wp i).paths } := by
    unfold arriveAt
    dsimp only
    have : parkCur (({ w with recs := Map.upd w.recs i (fun r => { r with arrival := r.arrival ||| w.path.mask }) } : Warp).setPath
        { ({ w with recs := Map.upd w.recs i (fun r => { r with arrival := r.arrival ||| w.path.mask }) } : Warp).path with cnt := ({ w with recs := Map.upd w.recs i (fun r => { r with arrival := r.arrival ||| w.path.mask }) } : Warp).path.cnt + 1, turn := ({ w with recs := Map.upd w.recs i (fun r => { r with arrival := r.arrival ||| w.path.mask }) } : Warp).path.turn + 1 }) st = wp := by
      unfold parkCur Warp.setPath
      dsimp only
      rw [hps]
      dsimp only [wp, recs, c]
      unfold Warp.path
      rw [hps]
      rfl
    rw [this]
  have hf : Map.find? wp.recs i = some { r with arrival := r.arrival ||| p0.mask } := by
    show Map.find? recs i = _
    rw [find?_upd_self', hr]; rfl
  have hcpl : ({ r with arrival := r.arrival ||| p0.mask } : Rec).complete wp.live = decide ((r.entry &&& w.live) &&& ~~~ (r.arrival ||| p0.mask) = 0) := by
    unfold Rec.complete; rfl
  have hla : lastArrived wp.paths i = some c := by
    apply lastArrived_head
    · show (p0.inner == some i && (st == .atJoin || st == .atRet)) = true
      rw [hin]
      rcases hst with rfl | rfl <;> simp
    · exact hpark
  by_cases hc : (r.entry &&& w.live) &&& ~~~ (r.arrival ||| p0.mask) = 0
  · let np : Machine.Path := { c with pc := if r.call then r.addr else c.pc + 4, mask := (r.arrival ||| p0.mask) &&& w.live, inner := r.parent, dem := 0, st := .runnable, clause := none }
    have hC : ∃ ps, completeRec wp i = { wp with recs := Map.del recs i, paths := ps } ∧ np ∈ ps := by
      unfold completeRec
      rw [hf]
      dsimp only
      rw [if_neg (by rw [hcpl]; simp [hc]), hla]
      dsimp only
      refine ⟨_, rfl, ?_⟩
      rw [List.mem_map]
      refine ⟨c, ?_, ?_⟩
      · rw [List.mem_filter]
        refine ⟨List.mem_cons_self, by simp⟩
      · rw [if_pos (by simp)]
    obtain ⟨ps, hC, hnp⟩ := hC
    rw [hA, hC]
    refine ⟨?_, fun _ => ⟨?_, ?_⟩, fun h => absurd hc h⟩
    · split
      · rw [limitTurn_eq]
      · rfl
    · split
      · rw [limitTurn_eq]; exact Map.find?_del_self _ _
      · exact Map.find?_del_self _ _
    · split
      · obtain ⟨p', hp', e⟩ := mem_limitTurn (w := { wp with recs := Map.del recs i, paths := ps }) hnp
        exact ⟨p', hp', by rw [e], by rw [e], by rw [e], by rw [e], by rw [e], by rw [e]⟩
      · obtain ⟨p', hp', e⟩ := mem_rotate hnp
        exact ⟨p', hp', by rw [e], by rw [e], by rw [e], by rw [e], by rw [e], by rw [e]⟩
  · have hC : completeRec wp i = wp := by
      unfold completeRec
      rw [hf]
      dsimp only
      rw [if_pos (by rw [hcpl, decide_eq_false hc]; rfl)]
    have hnr : wp.path.runnable = false := by
      show (st == PathState.runnable) = false
      rcases hst with rfl | rfl <;> rfl
    rw [hA, hC, if_neg (by rw [hnr]; simp)]
    refine ⟨rfl, fun h => absurd h hc, fun _ hrun => ⟨hf, ?_⟩⟩
    obtain ⟨p, hp, hprun⟩ := hrun
    obtain ⟨a, rr, e1, e2, e3, -, e5, e6⟩ := rotate_spec wp.paths ⟨p, List.mem_cons_of_mem _ hp, hprun⟩
    dsimp only
    rw [e1]
    refine ⟨?_, e3⟩
    have hcm : c ∈ wp.paths := List.mem_cons_self
    have hca : c ≠ a := by
      intro h
      have : c.st = .runnable := by rw [h]; exact e3
      have hcs : c.st = st := rfl
      rw [hcs] at this
      rcases hst with rfl | rfl <;> cases this
    rcases e5 c hcm with h | h
    · rcases List.mem_cons.1 h with h | h
      · exact absurd (by rw [h]) hca
      · exact ⟨c, List.mem_cons_of_mem _ h, rfl, rfl, rfl⟩
    · exact absurd h hca

theorem arrive_exec {i : Instr} {q : Req} (hi : i = .join ∨ ∃ x, i = .ret x) (hq : reqOf i = some q) : q.sc < 2 ∧
    ∃ st good, exec i = issueTo q (arrival q st good) ∧ (st = .atJoin ∨ st = .atRet) ∧ st = (if i = .join then .atJoin else .atRet) ∧
      (∀ w r, arrives i w r → good w r = true) ∧ (∀ w w' r, w'.path.clause = w.path.clause → good w' r = good w r) := by
  rcases hi with rfl | ⟨x, rfl⟩
  · cases hq
    refine ⟨by decide, .atJoin, _, rfl, .inl rfl, rfl, ?_, ?_⟩
    · rintro w r ⟨h1, c, h2, h3⟩
      simp [h1, h2, h3]
    · intro w w' r h; simp only [h]
  · cases hq
    refine ⟨x.sc.isLt, .atRet, _, rfl, .inr rfl, rfl, ?_, ?_⟩
    · intro w r h; exact h
    · intro w w' r h; rfl

theorem rotate_keep (ps : List Machine.Path) (h : ∃ p ∈ ps, p.st = .runnable) :
    (rotate ps).any Path.runnable = true ∧ (∃ p r, rotate ps = p :: r ∧ p.st = .runnable) ∧
    ∀ p ∈ ps, ∃ p' ∈ rotate ps, p'.pc = p.pc ∧ p'.mask = p.mask ∧ p'.inner = p.inner ∧ p'.st = p.st := by
  obtain ⟨p, r, e1, e2, e3, -, e5, e6⟩ := rotate_spec ps h
  rw [e1]
  refine ⟨by simp [Path.runnable, e3], ⟨_, _, rfl, e3⟩, ?_⟩
  intro x hx
  rcases e5 x hx with h | h
  · rcases List.mem_cons.1 h with h | h
    · exact ⟨_, List.mem_cons_self, by rw [h], by rw [h], by rw [h], by rw [h]⟩
    · exact ⟨x, List.mem_cons_of_mem _ h, rfl, rfl, rfl, rfl⟩
  · exact ⟨_, List.mem_cons_self, by rw [h], by rw [h], by rw [h], by rw [h]⟩

end Sys2Proof.Machine
end

