-- ==== Sys2Proof/Laws/Sets.lean ====
section
/-!
SUPPORT. Lemmas: rendezvous, barriers and sets.
-/

namespace Sys2Proof.Machine

theorem warp_upd_absent (m : Mach) (k : Nat) (f : Warp → Warp) (h : Map.find? m.warps k = none) : (m.updWarp k f).warp k = m.warp k := by
  unfold Mach.warp Mach.updWarp
  dsimp only
  rw [Map.find?_upd_self, h]
  rfl

theorem updWarps_keep (ks : List Nat) (f : Nat → Warp → Warp) (m : Mach) (j : Nat) (hj : j ∉ ks) :
    Map.find? (m.updWarps ks f).warps j = Map.find? m.warps j := by
  induction ks generalizing m with
  | nil => rfl
  | cons a l ih =>
    simp only [List.mem_cons, not_or] at hj
    show Map.find? ((m.updWarp a (f a)).updWarps l f).warps j = _
    rw [ih _ hj.2]
    exact Map.find?_upd_ne _ _ hj.1

theorem updWarps_find (ks : List Nat) (f : Nat → Warp → Warp) (m : Mach) (hn : ks.Nodup) (j : Nat) (hj : j ∈ ks) :
    Map.find? (m.updWarps ks f).warps j = (Map.find? m.warps j).map (f j) := by
  induction ks generalizing m with
  | nil => cases hj
  | cons a l ih =>
    simp only [List.nodup_cons] at hn
    show Map.find? ((m.updWarp a (f a)).updWarps l f).warps j = _
    by_cases h : j = a
    · subst h
      rw [updWarps_keep _ _ _ _ hn.1]
      exact Map.find?_upd_self _ _ _
    · rw [ih _ hn.2 ((List.mem_cons.1 hj).resolve_left h)]
      rw [show Map.find? (m.updWarp a (f a)).warps j = Map.find? m.warps j from Map.find?_upd_ne _ _ h]

theorem updWarps_machine (ks : List Nat) (f : Nat → Warp → Warp) (m : Mach) :
    m.updWarps ks f = { m with warps := (m.updWarps ks f).warps } := by
  induction ks generalizing m with
  | nil => rfl
  | cons a l ih =>
    show (m.updWarp a (f a)).updWarps l f = _
    rw [ih]
    rfl

theorem ended_sig (q : Req) (b : Bool) (w : Warp) : (w.ended q b).sig = if w.trap.isSome then w.sig else none := by
  rw [ended_eq]
  dsimp only
  cases b <;> (unfold retireWarp; simp only [Bool.false_eq_true, if_false, if_true]; rw [consume_rest]; try rfl)

theorem ended_wait (q : Req) (b : Bool) (w : Warp) : (w.ended q b).wait = none := by rw [ended_eq, retireWarp_eq]

/-- A retirement, once and for all. -/
theorem retire_retired (q : Req) (m : Mach) (ms : List Nat) (hn : ms.Nodup) : Retired q.words ms m (retire q m ms) := by
  have he : retire q m ms = (countReuse q m (ms.headD 0)).updWarps ms (fun j w => w.ended q (j == m.lead q.sc (ms.headD 0))) := rfl
  have hm : (retire q m ms).warps = (m.updWarps ms (fun j w => w.ended q (j == m.lead q.sc (ms.headD 0)))).warps := by
    rw [he]
    have : ∀ (ks : List Nat) (f : Nat → Warp → Warp) (a b : Mach), a.warps = b.warps → (a.updWarps ks f).warps = (b.updWarps ks f).warps := by
      intro ks f
      induction ks with
      | nil => intro a b h; exact h
      | cons k l ih => intro a b h; exact ih _ _ (by unfold Mach.updWarp; dsimp only; rw [h])
    exact this _ _ _ _ (countReuse_warps _ _ _)
  have key : ∀ j, j ∈ ms → (∃ b, (retire q m ms).warp j = (m.warp j).ended q b) ∨ ((retire q m ms).warp j = default ∧ m.warp j = default) := by
    intro j hj
    cases hf : Map.find? m.warps j with
    | none =>
      right
      refine ⟨?_, by unfold Mach.warp; rw [hf]; rfl⟩
      unfold Mach.warp
      rw [hm, updWarps_find _ _ _ hn j hj, hf]; rfl
    | some w =>
      left
      refine ⟨j == m.lead q.sc (ms.headD 0), ?_⟩
      unfold Mach.warp
      rw [hm, updWarps_find _ _ _ hn j hj, hf]
      rfl
  refine ⟨?_, ?_, ?_, ?_, ?_, ?_, ?_, ?_⟩
  · rw [he, updWarps_machine]
    unfold countReuse; split <;> rfl
  · rw [he, updWarps_machine]
    exact countReuse_rest q m _
  · intro j hj
    rw [hm]; exact updWarps_keep _ _ _ _ hj
  all_goals
    intro j hj
    rcases key j hj with ⟨b, e⟩ | ⟨e, e2⟩
  · rw [e]; exact ended_retired q b _
  · rw [e, e2]
  · rw [e]; exact ended_wait q b _
  · rw [e]; rfl
  · rw [e]; exact ended_sig q b _
  · rw [e, e2]; rfl
  · rw [e]; exact fun h => ended_goesOn q b h
  · rw [e2]; exact fun h => absurd rfl h
  · intro p r h ht
    rw [e, (ended_paths q b h).2 ht]
    exact ⟨_, rfl⟩
  · intro p r h; rw [e2] at h; cases h

/-- An instruction that went ahead and whose effect is m2. -/
theorem issue_ends {q : Req} {s : State} {m : Mach} {ms : List Nat} (hg : Goes q s m ms) (hn : ms.Nodup)
    {body : Mach → List Nat → Except Stop Mach} {m2 : Mach} (hb : body m ms = .ok m2) :
    ∃ t, issue q body s = .next t ∧ Ends s t q.words ms m2 := by
  refine ⟨{ s with m := retire q m2 ms }, ?_, rfl, rfl, rfl, retire_retired q m2 ms hn⟩
  unfold issue
  rw [if_pos hg.may, goes_issueWith hg _ hb]

theorem issueTo_ends {q : Req} {s : State} {m : Mach} {ms : List Nat} (hg : Goes q s m ms) (hn : ms.Nodup)
    {body : Mach → List Nat → Except Stop Mach} {m2 : Mach} (hb : body m ms = .ok (retire q m2 ms)) :
    ∃ t, issueTo q body s = .next t ∧ Ends s t q.words ms m2 :=
  ⟨_, issueTo_mach hg hb, rfl, rfl, rfl, retire_retired q m2 ms hn⟩

theorem goes_alone {q : Req} {s : State} {m : Mach} {ms : List Nat} (hq : q.sc < 2) (hg : Goes q s m ms) : ms = [s.cur] :=
  (admission_low hq hg.admitted).1

theorem issue_ends1 {q : Req} {s : State} {m : Mach} {ms : List Nat} (hq : q.sc < 2) (hg : Goes q s m ms)
    {body : Mach → List Nat → Except Stop Mach} {m2 : Mach} (hb : body m [s.cur] = .ok m2) :
    ∃ t, issue q body s = .next t ∧ Ends s t q.words [s.cur] m2 := by
  have := goes_alone hq hg
  subst this
  exact issue_ends hg (by simp) hb

theorem issueTo_ends1 {q : Req} {s : State} {m : Mach} {ms : List Nat} (hq : q.sc < 2) (hg : Goes q s m ms)
    {body : Mach → List Nat → Except Stop Mach} {m2 : Mach} (hb : body m [s.cur] = .ok (retire q m2 [s.cur])) :
    ∃ t, issueTo q body s = .next t ∧ Ends s t q.words [s.cur] m2 := by
  have := goes_alone hq hg
  subst this
  exact issueTo_ends hg (by simp) hb

theorem sign_go {q : Req} {m m' : Mach} {k : Nat} {ms : List Nat} (h : sign q m k = .go m' ms) :
    m' = m.updWarp k (fun w => { w with sig := some { y := (if q.sc = 3 then 0 else (m.warp k).set.getD 0 + 1), code := codeHandle m k, pc := w.path.pc } }) ∧
    ms = m'.members k q.sc ∧ (if q.sc = 3 then 2 else ((m'.block (m.warp k).block).set ((m.warp k).set.getD 0)).st) ≠ 3 ∧
    (if q.sc = 3 then 2 else ((m'.block (m.warp k).block).set ((m.warp k).set.getD 0)).st) ≠ 1 ∧
    (∀ j ∈ ms, ∃ g, (m'.warp j).sig = some g ∧ g.y = (if q.sc = 3 then 0 else (m.warp k).set.getD 0 + 1)) ∧
    (∀ j ∈ ms, (m'.warp j).sig = (m'.warp (ms.headD k)).sig) := by
  unfold sign at h
  extract_lets w y mm st mss ff first at h
  by_cases c1 : st = 3
  · rw [if_pos c1] at h; cases h
  · rw [if_neg c1] at h
    by_cases c2 : st = 1 ∨ (!(mss.all (fun j => (mm.warp j).sig.any (fun s => s.y == y) && (mm.warp j).trap.isNone))) = true
    · rw [if_pos c2] at h; cases h
    · rw [if_neg c2] at h
      revert h
      cases hf : mss.find? (fun j => (mm.warp j).sig != first) with
      | some j => intro h; cases h
      | none =>
        cases hl : operands q mm (mm.lead q.sc k) with
        | some e => intro h; cases h
        | none =>
          intro h
          obtain ⟨rfl, rfl⟩ : mm = m' ∧ mss = ms := by injection h with h1 h2; exact ⟨h1, h2⟩
          simp only [not_or] at c2
          have c3 := c2.2
          simp only [Bool.not_eq_true', Bool.not_eq_false, List.all_eq_true, Bool.and_eq_true] at c3
          refine ⟨rfl, rfl, c1, c2.1, ?_, ?_⟩
          · intro j hj
            have := (c3 j hj).1
            rw [Option.any_eq_true] at this
            obtain ⟨g, e1, e2⟩ := this
            exact ⟨g, e1, by simpa using e2⟩
          · intro j hj
            rw [List.find?_eq_none] at hf
            have h9 : (mm.warp j).sig = first := by simpa using hf j hj
            exact h9

theorem setWarp_setWarp (m : Mach) (k : Nat) (a b : Warp) : (m.setWarp k a).setWarp k b = m.setWarp k b := by
  have ins2 : ∀ (l : List (Nat × Warp)), Map.ins (Map.ins l k a) k b = Map.ins l k b := by
    intro l
    induction l with
    | nil => simp [Map.ins]
    | cons e l ih =>
      obtain ⟨k', x⟩ := e
      by_cases h1 : k < k'
      · simp [Map.ins, h1]
      · by_cases h2 : k = k'
        · simp [Map.ins, h2]
        · simp [Map.ins, h1, h2, ih]
  unfold Mach.setWarp
  dsimp only
  rw [ins2]

/-- The checks before the rendezvous of a wide instruction. -/
theorem admission_wide {q : Req} {m m' : Mach} {k : Nat} {ms : List Nat} (hq : 2 ≤ q.sc)
    (h : admission q m k = .go m' ms) : ∃ m1 w1, m1 = m.setWarp k w1 ∧ w1 = { m.warp k with paths := w1.paths, recs := w1.recs } ∧
      w1.path.pc = (m.warp k).path.pc ∧ sign q m1 k = .go m' ms := by
  unfold admission at h
  split at h
  · cases h
  · rename_i mm hf
    obtain ⟨-, -, -, hs⟩ := fillCurrent_same hf
    have hset : ∀ w2, mm.setWarp k w2 = m.setWarp k w2 := by
      intro w2
      unfold fillCurrent at hf
      split at hf
      · cases hr : residency m k { m.fault k 0 .spill with tmask := (m.warp k).path.mask } (m.warp k) none with
        | error e => rw [hr] at hf; cases hf
        | ok w => rw [hr] at hf; cases hf; exact setWarp_setWarp _ _ _ _
      · cases hf; rfl
    split at h
    · cases h
    · rw [if_neg (by omega)] at h
      split at h
      · cases h
      · cases h
      · rename_i w2 hg
        dsimp only at h
        rw [if_neg (by omega)] at h
        have hw2 : w2 = { mm.warp k with paths := w2.paths } ∧ w2.path.pc = (mm.warp k).path.pc := by
          unfold gather at hg
          dsimp only at hg
          split at hg
          · cases hg; exact ⟨rfl, rfl⟩
          · split at hg
            · cases hg; exact ⟨rfl, rfl⟩
            · split at hg <;> cases hg
        refine ⟨mm.setWarp k w2, w2, hset w2, ?_, ?_, h⟩
        · rw [hw2.1, hs.eq]
        · rw [hw2.2]; exact hs.pc.1

end Sys2Proof.Machine
end

