-- ==== Sys2Proof/Laws/Tiles.lean ====
section
/-!
SUPPORT. Lemmas: accesses to tiles and futures.
-/

namespace Sys2Proof.Machine

theorem bits_low (v : Word) (n : Nat) (hn : n ≤ 31) : bits v 31 n = 0 ↔ v.toNat < 2 ^ n := by
  unfold bits
  have := v.isLt
  rw [show 31 + 1 - n = 32 - n by omega]
  constructor
  · intro h
    have h2 : v.toNat / 2 ^ n < 2 ^ (32 - n) := by
      rw [Nat.div_lt_iff_lt_mul (by positivity), ← pow_add, show 32 - n + n = 32 by omega]; exact this
    rw [Nat.mod_eq_of_lt h2] at h
    exact (Nat.div_eq_zero_iff_lt (by positivity)).1 h
  · intro h; rw [Nat.div_eq_of_lt h]; simp

theorem seeTile_acc (m : Mach) (k : Nat) (x : Nat × Nat) (hh : (Map.find? m.warps k).isSome = true) :
    Wrote k m (seeTile m [k] x) ∧ (seeTile m [k] x).mem = m.mem ∧ (seeTile m [k] x).poison = m.poison ∧
    ((seeTile m [k] x).warp k) = { m.warp k with pts := ((seeTile m [k] x).warp k).pts } := by
  have e : seeTile m [k] x = m.updWarp k (fun w => { w with pts := max w.pts (m.tileOf x).pts }) := rfl
  refine ⟨?_, rfl, rfl, ?_⟩
  · rw [e]; exact acc1_upd hh rfl rfl rfl rfl rfl rfl
  · rw [e, Mach.warp_updWarp_self _ hh]

theorem countTileBanks_touched (m : Mach) (q : Req) (k : Nat) (tr : Nat × Nat) (ls : List (Nat × Nat)) :
    Touched k m (countTileBanks m q k tr ls) ∧ Wrote k m (countTileBanks m q k tr ls) ∧
    (countTileBanks m q k tr ls).warp k = m.warp k := by
  have key : ∀ m' : Mach, Touched k m m' → m'.warp k = m.warp k → m'.ops = m.ops → m'.blocks = m.blocks → Wrote k m m' := by
    intro m' t w o b
    refine ⟨⟨?_, t.others, t.here, t.warp, t.paths, t.demot, fun h => ⟨o, by rw [w]; exact h⟩, by rw [w], by rw [w]⟩, b⟩
    unfold Mach.storeRest; rw [t.rest]
  unfold countTileBanks
  dsimp only
  split
  · exact ⟨.refl _ _, .refl _ _, rfl⟩
  · exact ⟨count_touched _ _ _ _ _, key _ (count_touched _ _ _ _ _) rfl rfl rfl, rfl⟩

/-- A tile is no place outside the package. -/
theorem isSelf_tile (tr : Nat × Nat) (off : Nat) : isSelf (tileKey tr off) = false := by
  apply isSelf_external
  unfold isExternal tileKey Space.key Space.num
  have h : ∀ n : Nat, (n * 2 ^ 64 + off % 2 ^ 64) / 2 ^ 64 = n := by intro n; omega
  simp only [h]
  simp

theorem tileReq_facts (i : Instr) (x : FTL) (b : Bool) : (tileReq i x b).sc = x.sc.toNat ∧ (tileReq i x b).words = 1 := by
  unfold tileReq
  rcases BitVec.eq_zero_or_eq_one x.sc with h | h <;> simp [h]

theorem tileLanes_ok {q : Req} {m : Mach} {k b code : Nat} {word : Word} {ls : List (Nat × Nat)}
    (h : tileLanes q m k b code word = .ok ls) :
    ls = if q.sc = 0 then (lanesOf (m.warp k).path.mask).map (fun i => (i, ((m.warp k).src b i).toNat)) else [(0, ((m.warp k).getS b).toNat)] := by
  unfold tileLanes at h
  dsimp only at h
  split at h
  · cases h
  · cases h; rfl

theorem tileAccess_ok {q : Req} {x : FTL} {code : Nat} {m : Mach} {k : Nat} {tr : Nat × Nat} {ls : List (Nat × Nat)}
    (h : tileAccess q x code m k = .ok (tr, ls)) :
    ls = if q.sc = 0 then (lanesOf (m.warp k).path.mask).map (fun i => (i, ((m.warp k).src x.b.toNat i).toNat)) else [(0, ((m.warp k).getS x.b.toNat).toNat)] := by
  unfold tileAccess at h
  obtain ⟨a, h1, h⟩ := bind_ok h
  obtain ⟨u, h2, h⟩ := bind_ok h
  have key : ∀ b : Except Stop ((Nat × Nat) × List (Nat × Nat)), b = (tileLanes q m k x.b.toNat code ((m.warp k).getS x.c.toNat)).bind (fun ls => .ok (a, ls)) →
      b = .ok (tr, ls) → tileLanes q m k x.b.toNat code ((m.warp k).getS x.c.toNat) = .ok ls := by
    intro b hb hb2
    rw [hb] at hb2
    obtain ⟨l, h4, h5⟩ := bind_ok hb2
    cases h5
    exact h4
  apply tileLanes_ok (code := code) (word := (m.warp k).getS x.c.toNat)
  split at h
  · obtain ⟨u', h3, h⟩ := bind_ok h
    exact key _ rfl h
  · exact key _ rfl h

/-- The registers after TLD's lanes. -/
def tldWarp (val : Nat → Word) (sc d : Nat) (ls : List (Nat × Nat)) (w : Warp) : Warp :=
  ls.foldl (fun w e => writeRegs w sc d e.1 [val e.2]) w

theorem wr_wrote (m : Mach) (k sc d i : Nat) (xs : List Word) (hh : (Map.find? m.warps k).isSome = true) :
    Touched k m (m.updWarp k (fun w => writeRegs w sc d i xs)) ∧ Wrote k m (m.updWarp k (fun w => writeRegs w sc d i xs)) := by
  obtain ⟨v, s', e⟩ : ∃ v s', writeRegs (m.warp k) sc d i xs = { m.warp k with v := v, s := s' } := ⟨_, _, (writeRegs_keeps (m.warp k) sc d i xs).1⟩
  constructor
  · apply touched_updWarp hh
    all_goals (rw [e]; try rfl)
  · apply acc1_upd hh
    all_goals (rw [e]; try rfl)

theorem tldLanes_ok (q : Req) (k d : Nat) (tr : Nat × Nat) (m0 : Mach) (ls : List (Nat × Nat))
    (hls : ∀ e ∈ ls, m0.poisonAt (tileKey tr e.2) 4 = none) :
    ∀ m, m.mem = m0.mem → m.poison = m0.poison → (Map.find? m.warps k).isSome = true → ∃ m', tldLanes q k d tr m ls = .ok m' ∧ Touched k m m' ∧
      Acc1 k m m' ∧
      (m'.warp k).v = (tldWarp (fun o => BitVec.ofNat 32 (natOfBytes (Mem.readN m0.mem (tileKey tr o) 4))) q.sc d ls (m.warp k)).v ∧
      (m'.warp k).s = (tldWarp (fun o => BitVec.ofNat 32 (natOfBytes (Mem.readN m0.mem (tileKey tr o) 4))) q.sc d ls (m.warp k)).s := by
  induction ls with
  | nil => intro m h0 h1 hh; exact ⟨m, rfl, Touched.refl _ _, Acc1.refl _ _, rfl, rfl⟩
  | cons e ls ih =>
    intro m h0 h1 hh
    obtain ⟨i, o⟩ := e
    have hp : m0.poisonAt (tileKey tr o) 4 = none := hls (i, o) List.mem_cons_self
    unfold tldLanes
    have hp' : m.poisonAt (tileKey tr o) 4 = none := by unfold Mach.poisonAt at hp ⊢; rw [h1]; exact hp
    simp only [hp']
    generalize hkey : tileKey tr o = key at hp'
    have t1 : Touched k m (m.stampLoad k (key) 16) := stampLoad_touched _ _ _ _
    have a1 : Acc1 k m (m.stampLoad k (key) 16) ∧ ((m.stampLoad k (key) 16).warp k) = { m.warp k with pts := ((m.stampLoad k (key) 16).warp k).pts } := by
      have e2 : ((m.stampLoad k (key) 16).warp k) = { m.warp k with pts := ((m.stampLoad k (key) 16).warp k).pts } ∧
          (m.stampLoad k (key) 16).ops = m.ops := by
        unfold Mach.stampLoad
        split
        · exact ⟨rfl, rfl⟩
        · dsimp only
          rw [Mach.warp_setWarp_self]
          exact ⟨rfl, rfl⟩
      refine ⟨⟨?_, t1.others, t1.here, t1.warp, t1.paths, t1.demot, ?_, ?_, ?_⟩, e2.1⟩
      · unfold Mach.storeRest; rw [t1.rest]
      · intro h; exact ⟨e2.2, by rw [e2.1]; exact h⟩
      · rw [e2.1]
      · rw [e2.1]
    generalize hm1 : m.stampLoad k (key) 16 = m1 at t1 a1
    have hmem1 : m1.mem = m0.mem := t1.mem.trans h0
    have hpo1 : m1.poison = m0.poison := t1.poison.trans h1
    have hx : wordsOfBytes 1 (Mem.readN m.mem (key) 4) = [BitVec.ofNat 32 (natOfBytes (Mem.readN m0.mem (key) 4))] := by
      rw [h0]
      unfold wordsOfBytes
      simp [List.take_of_length_le, Mem.readN]
    rw [hx]
    generalize hval : BitVec.ofNat 32 (natOfBytes (Mem.readN m0.mem (key) 4)) = val
    generalize hxs : [val] = xs
    have hh1 := t1.here hh
    have hw := writeRegs_keeps (m1.warp k) q.sc d i xs
    obtain ⟨t3, a3⟩ := wr_wrote m1 k q.sc d i xs hh1
    have q1 : ∀ e ∈ ls, m0.poisonAt (tileKey tr e.2) 4 = none := fun e he => hls e (List.mem_cons_of_mem _ he)
    have q2 : (m1.updWarp k (fun w => writeRegs w q.sc d i xs)).mem = m0.mem := by rw [Mach.updWarp_mem]; exact hmem1
    have q3 : (m1.updWarp k (fun w => writeRegs w q.sc d i xs)).poison = m0.poison := by rw [Mach.updWarp_poison]; exact hpo1
    have q4 := t3.here hh1
    have q5 := ih q1 _ q2 q3 q4
    obtain ⟨m', r1, r2, r3, r4, r5⟩ := q5
    have hc := writeRegs_congr (m.warp k) (m1.warp k) (by rw [a1.2]) (by rw [a1.2]) (by rw [a1.2]) q.sc d i xs
    have hgen : ∀ (f : Nat → Word) (l : List (Nat × Nat)) (w w' : Warp), w'.v = w.v → w'.s = w.s → w'.trap = w.trap →
        (tldWarp f q.sc d l w').v = (tldWarp f q.sc d l w).v ∧ (tldWarp f q.sc d l w').s = (tldWarp f q.sc d l w).s := by
      intro f l
      induction l with
      | nil => intro w w' a b c; exact ⟨a, b⟩
      | cons y l ih2 =>
        intro w w' a b c
        obtain ⟨c1, c2⟩ := writeRegs_congr w w' a b c q.sc d y.1 [f y.2]
        unfold tldWarp at ih2 ⊢
        rw [List.foldl_cons, List.foldl_cons]
        apply ih2 _ _ c1 c2
        rw [(writeRegs_keeps w' _ _ _ _).1, (writeRegs_keeps w _ _ _ _).1]
        exact c
    have htr : (writeRegs (m1.warp k) q.sc d i xs).trap = (writeRegs (m.warp k) q.sc d i xs).trap := by
      rw [(writeRegs_keeps (m1.warp k) _ _ _ _).1, (writeRegs_keeps (m.warp k) _ _ _ _).1, a1.2]
    obtain ⟨g1, g2⟩ := hgen (fun o => BitVec.ofNat 32 (natOfBytes (Mem.readN m0.mem (tileKey tr o) 4))) ls _ _ hc.1 hc.2 htr
    refine ⟨m', r1, t1.trans (t3.trans r2), a1.1.trans (a3.toAcc1.trans r3), ?_, ?_⟩
    · rw [r4, Mach.warp_updWarp_self _ hh1, g1]
      unfold tldWarp
      rw [List.foldl_cons, ← hxs, ← hval, ← hkey]
    · rw [r5, Mach.warp_updWarp_self _ hh1, g2]
      unfold tldWarp
      rw [List.foldl_cons, ← hxs, ← hval, ← hkey]

theorem tldWarp_keeps (f : Nat → Word) (sc d : Nat) (ls : List (Nat × Nat)) (w : Warp) :
    (sc = 0 → (tldWarp f sc d ls w).s = w.s) ∧ (sc ≠ 0 → (tldWarp f sc d ls w).v = w.v) := by
  unfold tldWarp
  induction ls generalizing w with
  | nil => exact ⟨fun _ => rfl, fun _ => rfl⟩
  | cons e ls ih =>
    rw [List.foldl_cons]
    obtain ⟨h1, h2⟩ := ih (writeRegs w sc d e.1 [f e.2])
    obtain ⟨w1, w2, w3⟩ := writeRegs_keeps w sc d e.1 [f e.2]
    exact ⟨fun h => (h1 h).trans (w2 h), fun h => (h2 h).trans (w3 h)⟩

theorem tldWarp_v (f : Nat → Word) (d : Nat) (ls : List (Nat × Nat)) (hn : (ls.map (·.1)).Nodup)
    (h32 : ∀ e ∈ ls, e.1 < 32) (w : Warp) (r n : Nat) (hr : n < 32) :
    (∀ e ∈ ls, n = e.1 → d = r → (tldWarp f 0 d ls w).getV r n = f e.2) ∧
    ((d ≠ r ∨ n ∉ ls.map (·.1)) → (tldWarp f 0 d ls w).getV r n = w.getV r n) := by
  unfold tldWarp
  induction ls generalizing w with
  | nil => exact ⟨by simp, fun _ => rfl⟩
  | cons a ls ih =>
    rw [List.map_cons, List.nodup_cons] at hn
    obtain ⟨i1, i2⟩ := ih hn.2 (fun e he => h32 e (List.mem_cons_of_mem _ he)) (writeRegs w 0 d a.1 [f a.2])
    have hw := writeRegs_v w d a.1 [f a.2] (h32 a List.mem_cons_self) r n hr
    simp only [List.length_singleton] at hw
    rw [List.foldl_cons]
    constructor
    · intro e he hne hd
      rcases List.mem_cons.1 he with rfl | he
      · rw [i2 (.inr (by rw [hne]; exact hn.1)), hw, if_pos ⟨hne, by omega, by omega⟩]
        rw [show r - d = 0 by omega]; rfl
      · exact i1 e he hne hd
    · intro h
      rw [i2 (by
        rcases h with h | h
        · exact .inl h
        · exact .inr (fun hc => h (List.mem_cons_of_mem _ hc)))]
      rw [hw, if_neg]
      rintro ⟨h1, h2, h3⟩
      rcases h with h | h
      · exact h (by omega)
      · exact h (by rw [h1]; exact List.mem_cons_self)

theorem tld_part (x : FTL) (s : State) (m : Mach) (ms : List Nat) (tr : Nat × Nat) (ls : List (Nat × Nat))
    (hg : Goes (tldReq x) s m ms) (hta : tileAccess (tldReq x) x 6 m s.cur = .ok (tr, ls))
    (hpo : ∀ e ∈ ls, s.m.poisonAt (tileKey tr e.2) 4 = none) :
      ∃ t, exec (.tld x) s = .next t ∧ Accessed s t ∧ t.m.memRest = s.m.memRest ∧ t.me.p = s.me.p ∧
        t.me.fflags = s.me.fflags ∧ GoesOn s.me t.me 1 ∧
        (x.sc = 0 → (∀ e ∈ ls, t.me.getV x.a.toNat e.1 =
            BitVec.ofNat 32 (natOfBytes (Mem.readN s.m.mem (tileKey tr e.2) 4))) ∧
          sameVectors s.me t.me [x.a.toNat] s.me.path.mask ∧ t.me.s = s.me.s) ∧
        (x.sc = 1 → (∀ e ∈ ls, t.me.getS x.a.toNat =
            BitVec.ofNat 32 (natOfBytes (Mem.readN s.m.mem (tileKey tr e.2) 4))) ∧
          sameScalars s.me t.me [s.me.sKey x.a.toNat] ∧ t.me.v = s.me.v) := by
  obtain ⟨hsc, hw1⟩ := tileReq_facts (.tld x) x true
  have hlt : (tldReq x).sc < 2 := by unfold tldReq; rw [hsc]; exact x.sc.isLt
  obtain ⟨rfl, hA, hh⟩ := goes_values hlt hg
  obtain ⟨A1, A2, A3, A4, A5, A6⟩ := admitted_acc1 hA
  have hls := tileAccess_ok hta
  obtain ⟨s1, s2, s3, s4⟩ := seeTile_acc m s.cur tr hh
  have st : Touched s.cur m (seeTile m [s.cur] tr) := touched_updWarp hh rfl rfl rfl
  obtain ⟨b1, b2, b3⟩ := countTileBanks_touched (seeTile m [s.cur] tr) (tldReq x) s.cur tr ls
  have hp : ∀ e ∈ ls, m.poisonAt (tileKey tr e.2) 4 = none := by
    intro e he
    have := hpo e he
    unfold Mach.poisonAt at this ⊢; rw [A3]; exact this
  obtain ⟨m2, r1, r2, r3, r4, r5⟩ := tldLanes_ok (tldReq x) s.cur x.a.toNat tr m ls hp (countTileBanks (seeTile m [s.cur] tr) (tldReq x) s.cur tr ls)
    (b1.mem.trans s2) (b1.poison.trans s3) (b1.here (s1.here hh))
  have hbody : tldBody x m [s.cur] = .ok m2 := by
    unfold tldBody
    simp only [List.headD_cons, bind, Except.bind, hta]
    exact r1
  obtain ⟨t, t1, t2, t3, -, t4, t5, t6, t7, t8, t9, t10, t11, t12, t13, t14⟩ := finish hlt hg hbody ((s1.trans b2).toAcc1.trans r3)
  rw [A2, b3] at r4 r5
  have hvv : ((seeTile m [s.cur] tr).warp s.cur).v = s.me.v := by
    rw [s4]; exact hA.keeps Warp.v fun _ _ _ => rfl
  have hss : ((seeTile m [s.cur] tr).warp s.cur).s = s.me.s := by
    rw [s4]; exact hA.keeps Warp.s fun _ _ _ => rfl
  have htt : ((seeTile m [s.cur] tr).warp s.cur).trap = s.me.trap := by
    rw [s4]; exact hA.keeps Warp.trap fun _ _ _ => rfl
  have hq : (tldReq x).sc = x.sc.toNat := hsc
  obtain ⟨k1, k2⟩ := tldWarp_keeps (fun o => BitVec.ofNat 32 (natOfBytes (Mem.readN s.m.mem (tileKey tr o) 4))) (tldReq x).sc x.a.toNat ls ((seeTile m [s.cur] tr).warp s.cur)
  refine ⟨t, t1, t2, ?_, t7, t8, ?_, ?_, ?_⟩
  · rw [memRest_of_rest t4, r2.rest, b1.rest, st.rest]
    exact memRest_of_rest A6
  · rw [← hw1]; exact t10
  · intro h0
    have hq0 : (tldReq x).sc = 0 := by rw [hq, h0]; rfl
    rw [if_pos hq0] at hls
    have hmask : (m.warp s.cur).path.mask = s.me.path.mask := by rw [hA.mask, if_pos hq0]; rfl
    have hl : ls.map (·.1) = lanesOf s.me.path.mask := by
      rw [hls, List.map_map, hmask]
      exact List.map_id _
    have hnd : (ls.map (·.1)).Nodup := by rw [hl]; unfold lanesOf; exact List.Nodup.filter _ List.nodup_range
    have h32 : ∀ e ∈ ls, e.1 < 32 := by
      intro e he
      have : e.1 ∈ lanesOf s.me.path.mask := by rw [← hl]; exact List.mem_map_of_mem he
      exact (mem_lanesOf.1 this).1
    rw [hq0] at r4 r5
    refine ⟨?_, ?_, ?_⟩
    · intro e he
      rw [getV_eq (t5.trans r4)]
      exact (tldWarp_v _ _ ls hnd h32 _ _ _ (h32 e he)).1 e he rfl rfl
    · intro r n hn hnot
      rw [getV_eq (t5.trans r4), (tldWarp_v _ _ ls hnd h32 _ _ _ hn).2, getV_eq hvv]
      by_contra hc
      push Not at hc
      rw [hl] at hc
      exact hnot ⟨by simp [hc.1], (mem_lanesOf.1 hc.2).2⟩
    · rw [t6, r5]
      exact ((tldWarp_keeps _ 0 x.a.toNat ls _).1 rfl).trans hss
  · intro h1
    have hq1 : (tldReq x).sc = 1 := by rw [hq, h1]; rfl
    rw [if_neg (by omega)] at hls
    subst hls
    have hs : t.me.s = ((m.warp s.cur).setS x.a.toNat (BitVec.ofNat 32 (natOfBytes (Mem.readN s.m.mem (tileKey tr ((m.warp s.cur).getS x.b.toNat).toNat) 4)))).s := by
      rw [t6, r5, hq1]
      unfold tldWarp writeRegs
      simp only [List.foldl_cons, List.foldl_nil, List.zipIdx_cons, List.zipIdx_nil, Nat.add_zero]
      rw [if_neg (by omega)]
      rw [s4]
      rfl
    have hsk : ∀ n, t.me.sKey n = (m.warp s.cur).sKey n := by
      intro n; unfold Warp.sKey; rw [t14, show (m.warp s.cur).trap = s.me.trap from hA.keeps Warp.trap fun _ _ _ => rfl]
    refine ⟨?_, ?_, ?_⟩
    · intro e he
      simp only [List.mem_singleton] at he
      subst he
      unfold Warp.getS
      rw [hs, hsk]
      unfold Warp.setS
      dsimp only
      rw [Map.get_set_self]
      rfl
    · intro n hn
      rw [hs]
      unfold Warp.setS
      dsimp only
      rw [Map.get_set_ne _ _ (by
        intro h; apply hn; rw [h]
        unfold Warp.sKey
        rw [show (m.warp s.cur).trap = s.me.trap from hA.keeps Warp.trap fun _ _ _ => rfl]
        simp)]
      rw [show (m.warp s.cur).s = s.me.s from hA.keeps Warp.s fun _ _ _ => rfl]
    · rw [t5, r4, k2 (by omega)]; exact hvv

theorem tst_part (x : FTL) (s : State) (m : Mach) (ms : List Nat) (tr : Nat × Nat) (ls : List (Nat × Nat))
    (hg : Goes (tstReq x) s m ms) (hta : tileAccess (tstReq x) x 7 m s.cur = .ok (tr, ls)) :
      ∃ t, exec (.tst x) s = .next t ∧ Accessed s t ∧ t.m.storeRest = s.m.storeRest ∧ t.m.blocks = s.m.blocks ∧
        t.me.v = s.me.v ∧ t.me.s = s.me.s ∧ t.me.p = s.me.p ∧ t.me.fflags = s.me.fflags ∧
        GoesOn s.me t.me 1 ∧
        (∀ a, (∀ e ∈ ls, ¬ (tileKey tr e.2 ≤ a ∧ a < tileKey tr e.2 + 4)) → Mem.read t.m.mem a = Mem.read s.m.mem a) ∧
        (∀ a, ∀ e ∈ ls, tileKey tr e.2 ≤ a → a < tileKey tr e.2 + 4 → ∃ e' ∈ ls, tileKey tr e'.2 ≤ a ∧
          a < tileKey tr e'.2 + 4 ∧ Mem.read t.m.mem a = storedByte s.me x.sc x.a.toNat e'.1 (a - tileKey tr e'.2)) := by
  obtain ⟨hsc0, hw0⟩ := tileReq_facts (.tst x) x false
  have hsc : (tstReq x).sc = x.sc.toNat := hsc0
  have hw1 : (tstReq x).words = 1 := hw0
  have hlt : (tstReq x).sc < 2 := by rw [hsc]; exact x.sc.isLt
  obtain ⟨rfl, hA, hh⟩ := goes_values hlt hg
  obtain ⟨A1, A2, A3, A4, A5, A6⟩ := admitted_acc1 hA
  have hls := tileAccess_ok hta
  have hsrc : (m.warp s.cur).src = s.me.src := admitted_src hA
  have hgs : (m.warp s.cur).getS = s.me.getS := hA.keeps Warp.getS fun _ _ _ => rfl
  have hbytes : ∀ i, (bytesOfWords (readRegs (m.warp s.cur) (tstReq x).sc x.a.toNat i 1)) =
      (List.range 4).map (storedByte s.me x.sc x.a.toNat i) := by
    intro i
    have e := storedBytes_eq s.me x.sc x.a.toNat i 2 (by omega)
    have r2 : regsOf 2 = 1 := rfl
    have a2 : accessBytes 2 = 4 := rfl
    rw [r2, a2] at e
    rw [← e, hsc]
    unfold readRegs
    simp only [hsrc, hgs]
    rw [List.take_of_length_le]
    simp [bytesOfWords, bytesOfNat_length]
  generalize hlocs : ls.map (fun l => (l.1, { (default : Loc) with off := l.2 })) = locs
  have hmem : ∀ e : Nat × Loc, e ∈ locs ↔ ∃ l ∈ ls, e = (l.1, { (default : Loc) with off := l.2 }) := by
    intro e; rw [← hlocs, List.mem_map]
    constructor
    · rintro ⟨l, h1, h2⟩; exact ⟨l, h1, h2.symm⟩
    · rintro ⟨l, h1, h2⟩; exact ⟨l, h1, h2.symm⟩
  have hnd : (locs.map (·.1)).Nodup := by
    rw [← hlocs, List.map_map]
    have e1 : ls.map ((·.1) ∘ (fun l : Nat × Nat => (l.1, { (default : Loc) with off := l.2 }))) = ls.map (·.1) := rfl
    rw [e1, hls]
    split
    · rw [List.map_map]
      have e2 : ∀ l : List Nat, l.map ((·.1) ∘ (fun i => (i, ((m.warp s.cur).src x.b.toNat i).toNat))) = l := fun l => List.map_id l
      rw [e2]; unfold lanesOf; exact List.Nodup.filter _ List.nodup_range
    · simp
  obtain ⟨b1, b2, b3⟩ := countTileBanks_touched m (tstReq x) s.cur tr ls
  have loop : ∀ (l : List (Nat × Loc)) (m1 : Mach), (Map.find? m1.warps s.cur).isSome = true →
      ∃ m2, l.foldl (fun m' e => m'.perform s.cur (tileKey tr e.2.off) (bytesOfWords (readRegs (m.warp s.cur) (tstReq x).sc x.a.toNat e.1 1))) m1 = m2 ∧
        Wrote s.cur m1 m2 ∧ (m2.warp s.cur).v = (m1.warp s.cur).v ∧ (m2.warp s.cur).s = (m1.warp s.cur).s ∧
        (∀ a, (∀ e ∈ l, ¬ (tileKey tr e.2.off ≤ a ∧ a < tileKey tr e.2.off + 4)) → Mem.read m2.mem a = Mem.read m1.mem a) ∧
        (∀ a, ∀ e ∈ l, (tileKey tr e.2.off ≤ a ∧ a < tileKey tr e.2.off + 4) → ∃ e' ∈ l, (tileKey tr e'.2.off ≤ a ∧ a < tileKey tr e'.2.off + 4) ∧
          Mem.read m2.mem a = storedByte s.me x.sc x.a.toNat e'.1 (a - tileKey tr e'.2.off)) := by
    intro l
    induction l with
    | nil => intro m1 _; exact ⟨m1, rfl, .refl _ _, rfl, rfl, fun _ _ => rfl, by simp⟩
    | cons e l ih =>
      intro m1 hh1
      rw [List.foldl_cons, hbytes]
      obtain ⟨p1, p2, -, p4, p5⟩ := perform_wrote s.cur (tileKey tr e.2.off) ((List.range 4).map (storedByte s.me x.sc x.a.toNat e.1)) m1 (isSelf_tile _ _)
      obtain ⟨m2, r1, r2, r3, r4, r5, r6⟩ := ih _ (p1.here hh1)
      refine ⟨m2, r1, p1.trans r2, r3.trans p4, r4.trans p5, ?_, ?_⟩
      · intro a ha
        rw [r5 a (fun e he => ha e (List.mem_cons_of_mem _ he)), p2, read_write, if_neg]
        have := ha e List.mem_cons_self
        simpa using this
      · intro a e0 he0 ht
        by_cases hex : ∃ e' ∈ l, (tileKey tr e'.2.off ≤ a ∧ a < tileKey tr e'.2.off + 4)
        · obtain ⟨e', he', ht'⟩ := hex
          obtain ⟨e'', h1, h2, h3⟩ := r6 a e' he' ht'
          exact ⟨e'', List.mem_cons_of_mem _ h1, h2, h3⟩
        · push Not at hex
          rcases List.mem_cons.1 he0 with rfl | he0
          · refine ⟨e0, List.mem_cons_self, ht, ?_⟩
            rw [r5 a (fun e he hc => absurd hc.2 (by have := hex e he hc.1; omega)), p2, read_write, if_pos (by simpa using ht)]
            obtain ⟨t1, t2⟩ := ht
            rw [List.getD_eq_getElem _ _ (by simp; omega)]
            simp
          · exact absurd ht.2 (by have := hex _ he0 ht.1; omega)
  obtain ⟨s1, s2, s3, s4⟩ := seeTile_acc (countTileBanks m (tstReq x) s.cur tr ls) s.cur tr (b1.here hh)
  rw [b3] at s4
  obtain ⟨m2, r1, r2, r3, r4, r5, r6⟩ := loop (orderLanes (countTileBanks m (tstReq x) s.cur tr ls) locs)
    (seeTile (countTileBanks m (tstReq x) s.cur tr ls) [s.cur] tr) (s1.here (b1.here hh))
  have hperm := orderLanes_perm (countTileBanks m (tstReq x) s.cur tr ls) locs hnd
  have hu := usedOrder_acc1 m2 s.cur
  have hbody : tstBody x m [s.cur] = .ok (usedOrder m2) := by
    unfold tstBody
    simp only [List.headD_cons, bind, Except.bind, hta, hlocs]
    rw [r1]
    rfl
  obtain ⟨t, t1, t2, t3, t4, -, t5, t6, t7, t8, t9, t10, -⟩ := finish hlt hg hbody (((b2.trans s1).trans r2).trans hu).toAcc1
  have hmm : t.m.mem = m2.mem := by rw [t4]; rfl
  refine ⟨t, t1, t2, t3, ?_, ?_, ?_, t7, t8, hw1 ▸ t10, ?_, ?_⟩
  · rw [t4]; exact (((b2.trans s1).trans r2).trans hu).blocks.trans A4
  · rw [t5]; exact r3.trans (by rw [s4]; exact hA.keeps Warp.v fun _ _ _ => rfl)
  · rw [t6]; exact r4.trans (by rw [s4]; exact hA.keeps Warp.s fun _ _ _ => rfl)
  · intro a ha
    rw [hmm, r5 a, s2, b1.mem, A2]
    intro e he
    obtain ⟨l, hl, rfl⟩ := (hmem e).1 (hperm.mem_iff.1 he)
    exact ha l hl
  · intro a e he h1 h2
    obtain ⟨e', q1, q2, q3⟩ := r6 a (e.1, { (default : Loc) with off := e.2 }) (hperm.mem_iff.2 ((hmem _).2 ⟨e, he, rfl⟩)) ⟨h1, h2⟩
    obtain ⟨l, hl, rfl⟩ := (hmem e').1 (hperm.mem_iff.1 q1)
    exact ⟨l, hl, q2.1, q2.2, by rw [hmm]; exact q3⟩

end Sys2Proof.Machine
end

