-- ==== Sys2Proof/Laws/Engines.lean ====
section
/-!
SUPPORT. Lemmas: the instructions that issue an operation.
-/

namespace Sys2Proof.Machine

theorem takeFutures_spec (op cls fu : Nat) (ms : List Nat) (hn : ms.Nodup) : ∀ A : Mach,
    (takeFutures op cls fu A ms).1 = { A with warps := (takeFutures op cls fu A ms).1.warps } ∧
    (∀ j, j ∉ ms → Map.find? (takeFutures op cls fu A ms).1.warps j = Map.find? A.warps j) ∧
    (∀ j, j ∈ ms → (takeFutures op cls fu A ms).1.warp j = (takeFuture op cls fu (A.warp j)).1) ∧
    (takeFutures op cls fu A ms).2 = ms.map (fun j => (j, (takeFuture op cls fu (A.warp j)).2)) := by
  induction ms with
  | nil => intro A; exact ⟨rfl, fun _ _ => rfl, by simp, rfl⟩
  | cons a l ih =>
    intro A
    simp only [List.nodup_cons] at hn
    obtain ⟨h1, h2, h3, h4⟩ := ih hn.2 (A.setWarp a (takeFuture op cls fu (A.warp a)).1)
    have hw : ∀ j, j ≠ a → (A.setWarp a (takeFuture op cls fu (A.warp a)).1).warp j = A.warp j := by
      intro j hj
      unfold Mach.warp Mach.setWarp
      rw [Map.find?_ins_ne _ _ hj]
    refine ⟨?_, ?_, ?_, ?_⟩
    · show (takeFutures op cls fu (A.setWarp a (takeFuture op cls fu (A.warp a)).1) l).1 = _
      rw [h1]; rfl
    · intro j hj
      simp only [List.mem_cons, not_or] at hj
      exact (h2 j hj.2).trans (Map.find?_ins_ne _ _ hj.1)
    · intro j hj
      show (takeFutures op cls fu (A.setWarp a (takeFuture op cls fu (A.warp a)).1) l).1.warp j = _
      by_cases hja : j = a
      · subst hja
        have e := h2 j hn.1
        rw [show Map.find? (A.setWarp j (takeFuture op cls fu (A.warp j)).1).warps j = some (takeFuture op cls fu (A.warp j)).1 from Map.find?_ins_self _ _ _] at e
        exact congrArg (fun o => o.getD default) e
      · rw [h3 j ((List.mem_cons.1 hj).resolve_left hja), hw j hja]
    · show (a, _) :: (takeFutures op cls fu (A.setWarp a (takeFuture op cls fu (A.warp a)).1) l).2 = _
      rw [h4, List.map_cons]
      congr 1
      apply List.map_congr_left
      intro j hj
      rw [hw j (by rintro rfl; exact hn.1 hj)]

theorem find?_keys {α : Type} (l : List (Nat × α)) (k : Nat) : Map.find? l k = none ↔ ∀ e ∈ l, e.1 ≠ k := by
  induction l with
  | nil => simp [Map.find?]
  | cons a l ih =>
    obtain ⟨k', x⟩ := a
    unfold Map.find?
    by_cases h : k' = k
    · simp [h]
    · rw [if_neg h, ih]
      simp [h]

theorem consume_none (w : Warp) (L : List Nat) (e : Nat) (h : Map.find? w.futs e = none) : Map.find? (consume w L).futs e = none := by
  rw [find?_keys] at h ⊢
  unfold consume
  split
  · exact h
  · dsimp only
    intro x hx
    rw [List.mem_filter, List.mem_map] at hx
    obtain ⟨⟨y, hy, rfl⟩, -⟩ := hx
    split
    · exact h y hy
    · exact h y hy

theorem find_map_filter {α : Type} (g : Nat × α → Nat × α) (hg : ∀ e, (g e).1 = e.1) (p : Nat × α → Bool) (l : List (Nat × α)) (k : Nat) (x : α)
    (h : Map.find? l k = some x) (hx : g (k, x) = (k, x)) (hp : p (k, x) = true) : Map.find? ((l.map g).filter p) k = some x := by
  induction l with
  | nil => cases h
  | cons a l ih =>
    obtain ⟨k', y⟩ := a
    unfold Map.find? at h
    by_cases hk : k' = k
    · rw [if_pos hk] at h
      cases h
      subst hk
      rw [List.map_cons, hx, List.filter_cons, if_pos hp]
      simp [Map.find?]
    · rw [if_neg hk] at h
      rw [List.map_cons, List.filter_cons]
      have h1 := hg (k', y)
      generalize g (k', y) = z at h1
      obtain ⟨z1, z2⟩ := z
      dsimp only at h1
      subst h1
      by_cases h2 : p (z1, z2) = true
      · rw [if_pos h2]
        unfold Map.find?
        rw [if_neg hk]
        exact ih h
      · rw [if_neg h2]
        exact ih h

theorem consume_keep (w : Warp) (L : List Nat) (e : Nat) (x : Fut) (h : Map.find? w.futs e = some x)
    (hr : x.reg.isSome = true) (hh : ∀ f ∈ L, x.reg ≠ some (w.sKey f)) : Map.find? (consume w L).futs e = some x := by
  unfold consume
  split
  · exact h
  · dsimp only
    apply find_map_filter _ _ _ _ _ _ h
    · dsimp only
      rw [if_neg]
      intro hc
      rw [Option.any_eq_true] at hc
      obtain ⟨r, h1, h2⟩ := hc
      rw [List.any_eq_true] at h2
      obtain ⟨f, h3, h4⟩ := h2
      simp only [beq_iff_eq] at h4
      exact hh f h3 (by rw [h1, h4])
    · simp [hr]
    · intro e; split <;> rfl

theorem takeFuture_spec (op cls fu : Nat) (w : Warp) :
    (takeFuture op cls fu w).1 = { w with futs := (takeFuture op cls fu w).1.futs, gens := (takeFuture op cls fu w).1.gens, cnt := Map.ins w.cnt cls (w.counter cls + 1) } ∧
    (fu = 0 → (takeFuture op cls fu w).2 = none) ∧
    (fu ≠ 0 → (∃ e, e < 16 ∧ Map.find? w.futs e = none) → ∃ e, e < 16 ∧
      Map.find? (takeFuture op cls fu w).1.futs e = some { op := op, cls := cls, status := none, reg := some (w.sKey fu), pts := 0 }) := by
  unfold takeFuture
  dsimp only
  by_cases hf : fu = 0
  · rw [if_pos hf]
    exact ⟨rfl, fun _ => rfl, fun h => absurd hf h⟩
  · rw [if_neg hf]
    cases hff : freeFuture (w.setCounter cls (w.counter cls + 1)) with
    | none =>
      refine ⟨rfl, fun h => absurd h hf, fun _ => ?_⟩
      rintro ⟨e, h1, h2⟩
      unfold freeFuture at hff
      rw [List.find?_eq_none] at hff
      exact absurd (by simpa [Warp.setCounter] using h2) (hff e (List.mem_range.2 h1))
    | some e =>
      refine ⟨?_, fun h => absurd h hf, fun _ _ => ⟨e, ?_, ?_⟩⟩
      · dsimp only
        rw [consume_rest]
        rfl
      · unfold freeFuture at hff
        exact List.mem_range.1 (List.mem_of_find?_eq_some hff)
      · dsimp only
        rw [Map.find?_ins_self]
        rw [consume_rest]
        rfl

/-- The last part of an issue: the token, in every member. -/
def tokened (token : Bool) (fu : Nat) (w w' : Warp) : Prop :=
  w' = w ∨ (token = true ∧ fu ≠ 0 ∧ ∃ x, w' = (consume w [fu + 1]).setS (fu + 1) x)

theorem retire_futs (q : Req) (m : Mach) (ms : List Nat) (hn : ms.Nodup) (j : Nat) (hj : j ∈ ms) (e : Nat) (h : Map.find? (m.warp j).futs e = none) :
    Map.find? ((retire q m ms).warp j).futs e = none := by
  have key : ∀ (b : Bool) (w : Warp), Map.find? w.futs e = none → Map.find? (w.ended q b).futs e = none := by
    intro b w h
    rw [ended_eq]
    unfold retireWarp
    dsimp only
    apply consume_none
    split <;> exact h
  have hw : (retire q m ms).warp j = ((Map.find? m.warps j).map (fun w => w.ended q (j == m.lead q.sc (ms.headD 0)))).getD default := by
    rw [← countReuse_warps q m (ms.headD 0)]
    exact congrArg (fun o => o.getD default) (updWarps_find ms _ _ hn j hj)
  rw [hw]
  unfold Mach.warp at h
  cases hf : Map.find? m.warps j with
  | none => rfl
  | some w => rw [hf] at h; exact key _ _ h

theorem issueOp_issued {q : Req} {cls fu : Nat} {token : Bool} {cmd : Cmd} {ended : Option Nat} {m2 : Mach} {ms : List Nat} (hn : ms.Nodup)
    {s t : State} (ht : t = { s with m := issueOp q cls fu token cmd ended m2 ms }) :
    Issued s t q cls fu token cmd ended ms m2 := by
  subst ht
  have hr := retire_retired q m2 ms hn
  have hrf := retire_futs q m2 ms hn
  obtain ⟨f1, f2, f3, f4⟩ := takeFutures_spec m2.nextOp cls fu ms hn (retire q m2 ms)
  have key : ∃ x : Op, (x.cls = cls ∧ x.cmd = cmd ∧ x.ended = ended ∧ x.started = false ∧
    x.held = none ∧ x.scope = q.sc ∧ x.block = (m2.warp (ms.headD 0)).block ∧ x.ctx = (m2.blockOf (ms.headD 0)).ctx ∧
    x.issuers.map (·.1) = ms ∧ x.pts = (m2.warp (ms.headD 0)).pts ∧
    x.pail = (if (m2.blockOf (ms.headD 0)).holding then (m2.blockOf (ms.headD 0)).pail else [])) ∧
    ∃ B : Mach, B = { (takeFutures m2.nextOp cls fu (retire q m2 ms) ms).1 with ops := Map.ins m2.ops m2.nextOp x, nextOp := m2.nextOp + 1 } ∧
    (issueOp q cls fu token cmd ended m2 ms = B ∨ (token = true ∧ fu ≠ 0 ∧ ∃ tok, issueOp q cls fu token cmd ended m2 ms =
      B.updWarps ms (fun _ w => (consume w [fu + 1]).setS (fu + 1) tok))) := by
    have hops : (takeFutures m2.nextOp cls fu (retire q m2 ms) ms).1.ops = m2.ops := by
      have := congrArg Mach.ops hr.machine
      rw [f1]; exact this
    refine ⟨{ cls := cls, cmd := cmd, ctx := (m2.block (m2.warp (ms.headD 0)).block).ctx, block := (m2.warp (ms.headD 0)).block, issuers := (takeFutures m2.nextOp cls fu (retire q m2 ms) ms).2, scope := q.sc, started := false, ended := ended, held := none, info := default, refused := 0, pail := if (m2.block (m2.warp (ms.headD 0)).block).holding then (m2.block (m2.warp (ms.headD 0)).block).pail else [], pts := (m2.warp (ms.headD 0)).pts, code := codeHandle m2 (ms.headD 0), pc := (m2.warp (ms.headD 0)).path.pc }, ⟨rfl, rfl, rfl, rfl, rfl, rfl, rfl, rfl, ?_, rfl, rfl⟩, _, rfl, ?_⟩
    · dsimp only
      rw [f4, List.map_map]
      exact List.map_id _
    · unfold issueOp
      dsimp only
      rw [hops, f4]
      cases token with
      | false => left; rfl
      | true =>
        cases ms with
        | nil => left; rfl
        | cons a l =>
          rw [List.map_cons, List.head?_cons]
          cases hx : (takeFuture m2.nextOp cls fu ((retire q m2 (a :: l)).warp a)).2 with
          | none => left; rfl
          | some e =>
            right
            refine ⟨rfl, ?_, _, rfl⟩
            intro h0
            rw [(takeFuture_spec _ _ _ _).2.1 h0] at hx
            cases hx
  obtain ⟨x, hx, B, hB, hi⟩ := key
  have hBm : B = { m2 with warps := B.warps, ctxs := (retire q m2 ms).ctxs, ops := Map.ins m2.ops m2.nextOp x, nextOp := m2.nextOp + 1 } := by
    rw [hB, f1, hr.machine]
  have hBw : ∀ j, j ∈ ms → B.warp j = (takeFuture m2.nextOp cls fu ((retire q m2 ms).warp j)).1 := by
    intro j hj; rw [← f3 j hj, hB]; rfl
  have hBo : ∀ j, j ∉ ms → Map.find? B.warps j = Map.find? m2.warps j := by
    intro j hj; rw [hB]; exact (f2 j hj).trans (hr.others j hj)
  -- the final warps
  have fin : ∃ F : Mach, F = issueOp q cls fu token cmd ended m2 ms ∧ F = { m2 with warps := F.warps, ctxs := (retire q m2 ms).ctxs, ops := Map.ins m2.ops m2.nextOp x, nextOp := m2.nextOp + 1 } ∧
      (∀ j, j ∉ ms → Map.find? F.warps j = Map.find? m2.warps j) ∧ (∀ j, j ∈ ms → tokened token fu (B.warp j) (F.warp j)) := by
    refine ⟨_, rfl, ?_, ?_, ?_⟩
    · rcases hi with h | ⟨-, -, tok, h⟩
      · rw [h]; exact hBm
      · rw [h, updWarps_machine, hBm]
    · intro j hj
      rcases hi with h | ⟨-, -, tok, h⟩
      · rw [h]; exact hBo j hj
      · rw [h, updWarps_keep _ _ _ _ hj]; exact hBo j hj
    · intro j hj
      rcases hi with h | ⟨h1, h2, tok, h⟩
      · left; rw [h]
      · rw [h]
        cases hf : Map.find? B.warps j with
        | none =>
          left
          unfold Mach.warp
          rw [updWarps_find _ _ _ hn j hj, hf]; rfl
        | some w =>
          right
          refine ⟨h1, h2, tok, ?_⟩
          unfold Mach.warp
          rw [updWarps_find _ _ _ hn j hj, hf]; rfl
  obtain ⟨F, hF, hFm, hFo, hFw⟩ := fin
  rw [← hF]
  have kept : ∀ j, j ∈ ms → ∀ {α : Type} (f : Warp → α), (∀ (w : Warp) fu wa si ur pa ju pr ke pt ps,
      f { w with futs := fu, wait := wa, sig := si, urgent := ur, passed := pa, justActive := ju, prog := pr, kept := ke, pts := pt, paths := ps } = f w) →
      f ((retire q m2 ms).warp j) = f (m2.warp j) := by
    intro j hj α f hf
    have e := congrArg f (hr.members j hj)
    have k1 : ∀ w : Warp, f { w.retired with paths := [] } = f w := fun w => hf w [] none none false 0 false 0 none 0 []
    rw [k1, k1] at e
    exact e
  have shape : ∀ j, j ∈ ms → F.warp j = { (retire q m2 ms).warp j with futs := (F.warp j).futs, gens := (F.warp j).gens, cnt := Map.ins (m2.warp j).cnt cls ((m2.warp j).counter cls + 1), s := (F.warp j).s } := by
    intro j hj
    have hb := hBw j hj
    rw [(takeFuture_spec m2.nextOp cls fu _).1] at hb
    have hcn : ((retire q m2 ms).warp j).cnt = (m2.warp j).cnt := kept j hj Warp.cnt (fun _ _ _ _ _ _ _ _ _ _ _ => rfl)
    have hc : ((retire q m2 ms).warp j).counter cls = (m2.warp j).counter cls := by unfold Warp.counter; rw [hcn]
    rw [hc, hcn] at hb
    rcases hFw j hj with h | ⟨-, -, tok, h⟩
    · rw [h, hb]
    · rw [consume_rest, hb] at h
      rw [h]
      rfl
  have hrm : ∀ j, j ∈ ms → { (F.warp j).retired with paths := [], s := [], gens := [], cnt := [] } =
      { ((retire q m2 ms).warp j).retired with paths := [], s := [], gens := [], cnt := [] } := by
    intro j hj; rw [shape j hj]; rfl
  have hFo2 : F.ops = Map.ins m2.ops m2.nextOp x := by have := congrArg Mach.ops hFm; exact this
  have hFc : F.ctxs = (retire q m2 ms).ctxs := by have := congrArg Mach.ctxs hFm; exact this
  refine ⟨rfl, rfl, rfl, ?_, ?_, ?_, ⟨x, ?_, hx⟩, hFo, ?_, ?_, ?_, ?_, ?_, ?_, ?_⟩
  · show F = { m2 with warps := F.warps, ctxs := F.ctxs, ops := F.ops, nextOp := m2.nextOp + 1 }
    rw [hFo2, hFc]; exact hFm
  · show { F.rest with ops := [], nextOp := 0 } = { m2.rest with ops := [], nextOp := 0 }
    rw [← hr.rest, hFm, hr.machine]; rfl
  · intro o ho
    show Map.find? F.ops o = _
    rw [hFo2]
    exact Map.find?_ins_ne _ _ ho
  · show Map.find? F.ops _ = _
    rw [hFo2]
    exact Map.find?_ins_self _ _ _
  · intro j hj
    refine (hrm j hj).trans ?_
    have e := congrArg (fun w : Warp => { w with s := [], gens := [], cnt := [] }) (hr.members j hj)
    exact e
  · intro j hj
    show (F.warp j).wait = none
    rw [shape j hj]; exact hr.waits j hj
  · intro j hj
    show (F.warp j).sig = _
    rw [shape j hj]; exact hr.signature j hj
  · intro j hj hp
    have hg := hr.goesOn j hj hp
    have e : (F.warp j).paths = ((retire q m2 ms).warp j).paths := by rw [shape j hj]
    refine ⟨?_, fun h => ?_⟩
    · obtain ⟨p, h1, h2⟩ := hg.among
      exact ⟨p, by show p ∈ (F.warp j).paths; rw [e]; exact h1, h2⟩
    · show (F.warp j).path.pc = _
      unfold Warp.path
      rw [e]
      exact hg.current h
  · intro j hj c
    show (F.warp j).counter c = _
    rw [shape j hj]
    unfold Warp.counter
    dsimp only
    by_cases hc : c = cls
    · subst hc; rw [Map.find?_ins_self, if_pos rfl]; rfl
    · rw [Map.find?_ins_ne _ _ hc, if_neg hc]; rfl
  · intro hfu j hj
    rintro ⟨e0, h1, h2⟩
    obtain ⟨e, e1, e2⟩ := (takeFuture_spec m2.nextOp cls fu ((retire q m2 ms).warp j)).2.2 hfu ⟨e0, h1, hrf j hj e0 h2⟩
    have htr : ((retire q m2 ms).warp j).sKey = (m2.warp j).sKey := kept j hj Warp.sKey (fun _ _ _ _ _ _ _ _ _ _ _ => rfl)
    rw [htr] at e2
    refine ⟨e, e1, ?_⟩
    show Map.find? (F.warp j).futs e = _
    have hb := hBw j hj
    rcases hFw j hj with h | ⟨-, -, tok, h⟩
    · rw [h, hb]; exact e2
    · rw [h]
      show Map.find? (consume (B.warp j) [fu + 1]).futs e = _
      rw [hb]
      apply consume_keep _ _ _ _ e2 rfl
      intro f hf
      simp only [List.mem_singleton] at hf
      subst hf
      intro hc
      injection hc with hc
      have hk : ((takeFuture m2.nextOp cls fu ((retire q m2 ms).warp j)).1).sKey = (m2.warp j).sKey := by
        rw [(takeFuture_spec m2.nextOp cls fu _).1, ← htr]; rfl
      rw [hk] at hc
      have := sKey_inj _ hc
      omega
  · intro j hj n hnn
    show Map.get (F.warp j).s n = _
    have hs : (B.warp j).s = (m2.warp j).s := by
      rw [hBw j hj, (takeFuture_spec m2.nextOp cls fu _).1]
      exact kept j hj Warp.s (fun _ _ _ _ _ _ _ _ _ _ _ => rfl)
    rcases hFw j hj with h | ⟨h1, h2, tok, h⟩
    · rw [h, hs]
    · rw [h]
      have hne : n ≠ (m2.warp j).sKey (fu + 1) := by
        rcases hnn with h3 | h3 | h3
        · rw [h3] at h1; cases h1
        · exact absurd h3 h2
        · exact h3
      have hk : (consume (B.warp j) [fu + 1]).sKey (fu + 1) = (m2.warp j).sKey (fu + 1) := by
        rw [consume_rest, hBw j hj, (takeFuture_spec m2.nextOp cls fu _).1]
        exact congrFun (kept j hj Warp.sKey (fun _ _ _ _ _ _ _ _ _ _ _ => rfl)) (fu + 1)
      show Map.get (Map.set (consume (B.warp j) [fu + 1]).s _ _) n = _
      rw [hk, Map.get_set_ne _ _ hne, consume_rest]
      exact congrArg (fun l => Map.get l n) hs

theorem issued_of {q : Req} {s : State} {m : Mach} {ms : List Nat} (hg : Goes q s m ms) (hn : ms.Nodup)
    {body : Mach → List Nat → Except Stop Mach} {cls fu : Nat} {token : Bool} {cmd : Cmd} {ended : Option Nat} {m2 : Mach}
    {q' : Req} (hb : body m ms = .ok (issueOp q' cls fu token cmd ended m2 ms)) :
    ∃ t, issueTo q body s = .next t ∧ Issued s t q' cls fu token cmd ended ms m2 :=
  ⟨_, issueTo_mach hg hb, issueOp_issued hn rfl⟩

/-- What is said of an issue depends on the request by its scope and words alone. -/
theorem issued_congr {q q' : Req} {s : State} {o : Host.Outcome State Fault Refusal} {cls fu : Nat} {token : Bool} {cmd : Cmd}
    {ended : Option Nat} {ms : List Nat} {m2 : Mach} (hs : q'.sc = q.sc) (hw : q'.words = q.words)
    (h : ∃ t, o = .next t ∧ Issued s t q' cls fu token cmd ended ms m2) : ∃ t, o = .next t ∧ Issued s t q cls fu token cmd ended ms m2 := by
  obtain ⟨t, ho, i⟩ := h
  exact ⟨t, ho, i.plat, i.agenda, i.cur, i.machine, i.rest, i.older, hs ▸ i.entry, i.others, i.members, i.waits, i.signature,
    hw ▸ i.goesOn, i.counted, i.future, i.scalars⟩

theorem waitReady_ok {m : Mach} {f : FaultInfo} {xs : List (Nat × Nat)} {word : Word}
    (h : ∀ x ∈ xs, (m.tileOf x).moving = false ∧ (m.tileOf x).st ≠ 0) : waitReady m f xs word = .ok () := by
  unfold waitReady
  rw [if_neg, if_neg]
  · simp only [List.any_eq_true, not_exists, not_and]; intro x hx; simpa using (h x hx).2
  · simp only [List.any_eq_true, not_exists, not_and]; intro x hx; simp [(h x hx).1]

theorem waitChange_ok {m : Mach} {xs : List (Nat × Nat)} (h : ∀ x ∈ xs, (m.tileOf x).locked = false) : waitChange m xs = .ok () := by
  unfold waitChange
  rw [if_neg]
  simpa using h

theorem issueTransfer_ok {q : Req} {tr : BitVec 6} {fu : Nat} {token flip out rows : Bool} {l : Layout} {e : HEntry}
    {coords : List Int} {parts : List Part} {m : Mach} {ms : List Nat}
    (hf : tilesFit m out (parts.map (fun p => (p.owner, p.tile)))) (hs : mustStall m 0 fu ms = none)
    (hc : copyQueueFull m (m.blockOf (ms.headD 0)).core = false) :
    issueTransfer q tr fu token flip out rows l e coords parts m ms =
      .ok (issueOp q 0 fu token (.xfer out flip rows l e coords parts) none (claimed m ms out (parts.map (fun p => (p.owner, p.tile)))) ms) := by
  unfold issueTransfer
  dsimp only
  cases out with
  | true =>
    have h := waitReady_ok (f := m.fault (ms.headD 0) q.sc .tile) (word := headS m q.sc ms tr.toNat) (xs := parts.map (fun p => (p.owner, p.tile))) (fun y hy => by have := hf y hy; simpa using this)
    simp only [if_true, h, bind, Except.bind, hs, hc, pure, Except.pure]
    rfl
  | false =>
    have h := waitChange_ok (m := m) (xs := parts.map (fun p => (p.owner, p.tile))) (fun y hy => by have := hf y hy; simpa using this)
    simp only [Bool.false_eq_true, if_false, h, bind, Except.bind, hs, hc, pure, Except.pure]
    rfl

theorem accRange_ok {q : Req} {m : Mach} {ms : List Nat} {base n : Nat} (h : inWindow m ms base n) : accRange q m ms base n = .ok () := by
  unfold accRange
  rw [if_neg]
  simp only [List.any_eq_true, decide_eq_true_eq, not_exists, not_and]
  intro j hj
  have := h j hj
  omega

end Sys2Proof.Machine
end

