-- ==== Sys2Proof/Laws/System.lean ====
section
/-!
SUPPORT. Lemmas: the system forms.
-/

namespace Sys2Proof.Machine

theorem granule_eq (cls n : Nat) : n * granule cls = poolUnits cls n := by
  unfold poolUnits granule
  split
  · rw [if_pos rfl]; omega
  · rw [if_neg (by omega), if_pos rfl]; omega
  · rw [if_neg, if_neg]; · omega
    all_goals (rintro rfl; simp_all)

theorem classLimit_eq (cls : Nat) : classLimit cls = if cls = 0 then 48 else if cls = 1 then 16 else 1024 := by
  unfold classLimit
  rcases cls with _ | _ | n
  · rfl
  · rfl
  · simp

theorem htn {o : Bool} (h : o = false) : ¬ o = true := by rw [h]; simp

end Sys2Proof.Machine
end

