-- ==== Sys2Proof/Laws/Traps.lean ====
section
/-!
SUPPORT. Lemmas: trap entry and return.
-/

namespace Sys2Proof.Machine

theorem get_dropRange {w : Nat} (l : List (Nat × BitVec w)) (lo hi n : Nat) :
    Map.get (Map.dropRange l lo hi) n = if lo ≤ n ∧ n < hi then 0 else Map.get l n := by
  unfold Map.get
  rw [Map.find?_dropRange]
  by_cases h : lo ≤ n ∧ n < hi
  · simp [h]
  · simp [h]

theorem putRecord_warps {m m1 : Mach} {c : Nat} {mk : Nat → Nat → List Byte} (h : putRecord m c mk = .written m1) : m1.warps = m.warps := by
  unfold putRecord at h
  dsimp only at h
  split at h
  · cases h
  · split at h
    · cases h
    · split at h
      · cases h
      · rw [← RecordResult.written.inj h]
        simp only [Mach.raise_warps, Mach.count_warps, Mach.updCtx_warps, Mach.poke_warps, Mach.tickOn_warps]

theorem entered_enter (m : Mach) (k : Nat) (f : FaultInfo) (tset : Word) (wide set : Nat) :
    Entered k f tset (tclass (m.warp k) f.sc wide set) m (enterTrap m k f tset wide set) := by
  have hw : ∀ (m : Mach) c i n, (m.count c i n).warp k = m.warp k := fun _ _ _ _ => rfl
  unfold enterTrap
  refine ⟨?_, ?_, ?_, ?_, ?_, ?_, ?_⟩
  · rw [Mach.count_rest, Mach.setWarp_rest]
  · intro j hj
    exact Map.find?_ins_ne _ _ hj
  all_goals rw [hw, Mach.warp_setWarp_self]
  · exact ⟨_, rfl, rfl, rfl, rfl, rfl, rfl, rfl⟩
  · exact ⟨_, rfl, rfl, rfl, rfl, rfl, rfl⟩
  · intro n h1 h2
    dsimp only
    rw [get_dropRange, if_pos ⟨h1, h2⟩]
  · intro n h1
    dsimp only
    rw [get_dropRange, if_neg (by omega)]

theorem takeTrap_enter {m : Mach} {k : Nat} {f : FaultInfo} (ht : (m.warp k).trap = none) (hc : f.cause = .trapi ∨ f.cause = .brk ∨ f.cause = .preempt) :
    takeTrap m k f = enterTrap m k f 0 0 0 := by
  unfold takeTrap
  dsimp only
  rw [if_neg (by rw [ht]; simp), if_pos hc]

theorem retired_one (q : Req) (m : Mach) (k : Nat) : Retired q.words [k] m (retire q m [k]) := retire_retired q m [k] (by simp)

theorem trapAfter_entered (q : Req) (m : Mach) (k : Nat) (f : FaultInfo) (ht : (m.warp k).trap = none) (hh : (Map.find? m.warps k).isSome = true)
    (hc : f.cause = .trapi ∨ f.cause = .brk ∨ f.cause = .preempt) :
    Entered k f 0 (tclass (m.warp k) f.sc 0 0) (retire q m [k]) (trapAfter q m k f) := by
  have hr := retired_one q m k
  have ht2 : ((retire q m [k]).warp k).trap = none := by
    have := congrArg Warp.trap (hr.members k (by simp))
    exact (this : _ = (m.warp k).trap).trans ht
  have e := entered_enter (retire q m [k]) k f 0 0 0
  rw [← takeTrap_enter ht2 hc] at e
  have hh2 : (Map.find? (takeTrap (retire q m [k]) k f).warps k).isSome = true := by
    rw [takeTrap_enter ht2 hc]
    unfold enterTrap Mach.count Mach.setWarp Mach.updCtx
    simp
  unfold trapAfter
  dsimp only
  generalize takeTrap (retire q m [k]) k f = m2 at e hh2 ⊢
  have hw := Mach.warp_updWarp_self (m := m2) (k := k) (fun w => { w with tclass := tclass (m.warp k) f.sc 0 0 }) hh2
  refine ⟨?_, ?_, ?_, ?_, ?_, ?_, ?_⟩
  · rw [Mach.updWarp_rest]; exact e.machine
  · exact others_trans e.others (others_upd _ _ _)
  all_goals rw [hw]
  · have := e.warp
    rw [this]
  · exact e.frozen
  · exact e.handler
  · exact e.bank
  · exact e.scalars

/-- What TRET with mode 0 makes of a warp whose frozen paths all have live lanes (18 R289). -/
theorem resumePaths_live {w : Warp} {t : TrapSt} {p : Machine.Path} {r : List Machine.Path} (ht : w.trap = some t) (hps : t.paths = p :: r)
    (hl : ∀ y ∈ t.paths, y.mask &&& w.live ≠ 0) :
    (resumePaths w).trap = none ∧ (resumePaths w).run = (if t.debug = true then .debug else if t.susp = true then .suspended else .ready) ∧
    (resumePaths w).recs = t.recs ∧ (resumePaths w).v = w.v ∧ (resumePaths w).p = w.p ∧ (resumePaths w).fflags = w.fflags ∧
    (resumePaths w).s = Map.dropRange w.s 64 80 ∧ (resumePaths w).block = w.block ∧ (resumePaths w).idx = w.idx ∧
    (resumePaths w).preemptDue = w.preemptDue ∧
    (resumePaths w).paths =
      { livePath w.live p with pc := w.tpc, clause := if t.tpcWritten || (match p.clause with | some c => c.stop == w.tpc | none => true) then none else p.clause } ::
        r.map (livePath w.live) := by
  have hmap : ∀ l : List Machine.Path, (∀ y ∈ l, y.mask &&& w.live ≠ 0) →
      (l.map (livePath w.live)).all (fun (p : Machine.Path) => p.mask != 0) = true := by
    intro l h
    rw [List.all_eq_true]
    intro y hy
    obtain ⟨z, hz, rfl⟩ := List.mem_map.1 hy
    simpa [livePath] using h z hz
  have hall := hmap _ hl
  rw [hps] at hl
  have hfil : (r.map (livePath w.live)).filter (fun (p : Machine.Path) => p.mask != 0) = r.map (livePath w.live) :=
    List.filter_eq_self.2 (fun y hy => List.all_eq_true.1 (hmap r (fun y hy => hl y (List.mem_cons_of_mem _ hy))) y hy)
  unfold resumePaths
  rw [ht]
  dsimp only
  rw [show t.paths.map (fun (p : Machine.Path) => { p with mask := p.mask &&& w.live }) = t.paths.map (livePath w.live) from rfl, if_pos hall]
  refine ⟨rfl, rfl, rfl, rfl, rfl, rfl, rfl, rfl, rfl, rfl, ?_⟩
  dsimp only
  rw [hps, List.map_cons]
  dsimp only
  rw [List.filter_cons, if_pos (by simpa [livePath] using hl p List.mem_cons_self), hfil]
  rfl

end Sys2Proof.Machine
end

