-- ==== Sys2Proof/Laws/Vats.lean ====
section
/-!
SUPPORT. Lemmas: the vat forms.
-/

namespace Sys2Proof.Machine

theorem err_answers {i : Instr} {q : Req} {s : State} {m : Mach} {ms : List Nat} {a : Nat} {m2 : Mach} {xs : List Nat} {body : Mach → List Nat → Except Stop Mach}
    (hg : Goes q s m ms) (hn : ms.Nodup) (hq : q.words = 1) (he : exec i s = issue q body s) (hb : body m ms = .ok (vatAnswer m2 ms a xs)) :
    VatAnswers i s ms a m2 xs := by
  obtain ⟨t, h1, h2⟩ := issue_ends hg hn hb
  rw [hq] at h2
  exact ⟨t, he.trans h1, h2⟩

theorem vat_ends {i : Instr} {q : Req} {s : State} {m : Mach} {ms : List Nat} {name a : Nat} {m2 : Mach} {xs : List Nat} {ch : Bool}
    {body : Mach → List Nat → Except Stop Mach} (hg : Goes q s m ms) (hn : ms.Nodup) (hq : q.words = 1) (he : exec i s = issue q body s)
    (hb : body m ms = .ok (vatEnds m2 ms name a xs ch)) : VatEnds i s ms name a m2 xs ch := by
  obtain ⟨t, h1, h2⟩ := issue_ends hg hn hb
  rw [hq] at h2
  exact ⟨t, he.trans h1, h2⟩

theorem err_faults {i : Instr} {q : Req} {s : State} {m : Mach} {ms : List Nat} {body : Mach → List Nat → Except Stop Mach}
    (hg : Goes q s m ms) (he : exec i s = issue q body s) (hb : body m ms = .error (vatFault q m (ms.headD 0))) : VatFaults i q s m ms :=
  he.trans (issue_stops hg hb)

theorem to_answers {x : FVABC} {s : State} {m : Mach} {ms : List Nat} {m2 : Mach} {xs : List Nat}
    (hg : Goes (vopenReq x) s m ms) (hn : ms.Nodup) (hb : vopenBody x m ms = .ok (retire (vopenReq x) (vatAnswer m2 ms x.a.toNat xs) ms)) :
    VatAnswers (.vopen x) s ms x.a.toNat m2 xs := issueTo_ends hg hn hb

theorem vopenHere_eq (m : Mach) (k id mode : Nat) : vopenHere m k id mode = opening m k id mode := by
  unfold vopenHere opening
  dsimp only
  have h1 : ((!(m.vat id).onCore (m.block (m.warp k).block).core) = true ∨ (mode ≠ 0 ∧ (m.vat id).primary ≠ some (m.block (m.warp k).block).core)) ↔
      ((m.vat id).onCore (m.block (m.warp k).block).core = false ∨ (mode ≠ 0 ∧ (m.vat id).primary ≠ some (m.block (m.warp k).block).core)) := by simp
  have h2 : (mode ≠ 0 ∧ ((m.vat id).opens.any (fun x => (m.vat id).replicas.contains (m.block x).core)) = true) ↔
      (mode ≠ 0 ∧ ∃ y ∈ (m.vat id).opens, (m.block y).core ∈ (m.vat id).replicas) := by simp [List.any_eq_true]
  have h3 : (mode ≠ 0 ∧ ((m.vat id).writer.any (fun x => x != (m.warp k).block)) = true) ↔
      (mode ≠ 0 ∧ ∃ y, (m.vat id).writer = some y ∧ y ≠ (m.warp k).block) := by
    cases (m.vat id).writer <;> simp
  have h4 : ∀ o : Option (Nat × Bool), o.any (fun e => e.2) = (match o with | some e => e.2 | none => false) := by intro o; cases o <;> rfl
  have h5 : ∀ (l : List Nat) (y : Nat), (l.contains y = true) = (y ∈ l) := by intro l y; simp
  simp only [h1, h2, h3, h4, h5]
  try rfl

/-- The vat a VOPEN finds under its name. -/
theorem sought_eq (m : Mach) (k name : Nat) :
    (if ((m.warp k).vopen.any (fun id => (Map.find? m.vats id).isNone)) = true then none else m.vatNamed (m.block (m.warp k).block).ctx name) =
      sought m k name := by
  unfold sought
  have : ((m.warp k).vopen.any (fun id => (Map.find? m.vats id).isNone)) = true ↔
      ∃ id, (m.warp k).vopen = some id ∧ Map.find? m.vats id = none := by
    cases (m.warp k).vopen <;> simp
  simp only [this]
  rfl

theorem vopen_stops {x : FVABC} {s : State} {m : Mach} {ms : List Nat} (hg : Goes (vopenReq x) s m ms) {st : Stop} (hb : vopenBody x m ms = .error st) :
    exec (.vopen x) s = .next { s with m := deliver m s.cur (widen (vopenReq x).sc st) } := issueTo_stops hg hb

theorem opens_to {x : FVABC} {s : State} {m : Mach} {ms : List Nat} (hg : Goes (vopenReq x) s m ms) (hn : ms.Nodup) (ht : (m.warp (ms.headD 0)).trap = none)
    {o : Opened} (ho : vopen (vopenReq x) x.c.toNat (headPair m (vopenReq x).sc ms x.b.toNat) m (ms.headD 0) = .ok o) : OpensTo x s m ms o := by
  cases o with
  | done m2 xs =>
    refine issueTo_ends (q := vopenReq x) hg hn (?_ : vopenBody x m ms = _)
    unfold vopenBody
    simp only [ht, ho, Option.isSome_none, Bool.false_eq_true, if_false]
    rfl
  | queued m2 id =>
    refine issueTo_mach (q := vopenReq x) (body := vopenBody x) hg ?_
    unfold vopenBody
    simp only [ht, ho, Option.isSome_none, Bool.false_eq_true, if_false]
    rfl

end Sys2Proof.Machine
end

