-- ==== Sys2Proof/Laws/Events.lean ====
section
/-!
SUPPORT. Lemmas: events of engines, warps and launches.
-/

namespace Sys2Proof.Machine

theorem ev_does {i : Instr} {s : State} {r : Option Mach} {m : Mach} (he : exec i s = event s r) (hr : r = some m) : Does i s m := by
  unfold Does; rw [he, hr]; rfl

theorem ev_not {i : Instr} {s : State} {r : Option Mach} (he : exec i s = event s r) (hr : r = none) : NotDue i s := by
  unfold NotDue; rw [he, hr]; rfl

theorem find?_mapv {α β : Type} (l : List (Nat × α)) (g : Nat × α → Nat × β) (hg : ∀ e, (g e).1 = e.1) (k : Nat) (a : α) (h : Map.find? l k = some a) :
    Map.find? (l.map g) k = some (g (k, a)).2 := by
  induction l with
  | nil => cases h
  | cons e l ih =>
    obtain ⟨j, b⟩ := e
    unfold Map.find? at h
    rw [List.map_cons, show g (j, b) = (j, (g (j, b)).2) from Prod.ext (hg _) rfl]
    unfold Map.find?
    by_cases he : j = k
    · rw [if_pos he] at h ⊢
      cases h
      rw [he]
    · rw [if_neg he] at h ⊢
      exact ih h

theorem find?_fold {α : Type} (ks : List Nat) (f : Nat → α) (l : List (Nat × α)) (k : Nat) (h : k ∈ ks ∨ Map.find? l k = some (f k)) :
    Map.find? (ks.foldl (fun l k => Map.ins l k (f k)) l) k = some (f k) := by
  induction ks generalizing l with
  | nil => exact h.resolve_left (by simp)
  | cons a ks ih =>
    rw [List.foldl_cons]
    apply ih
    by_cases hk : k = a
    · subst hk; exact .inr (Map.find?_ins_self _ _ _)
    · rcases h with h | h
      · exact .inl ((List.mem_cons.1 h).resolve_left hk)
      · exact .inr ((Map.find?_ins_ne _ _ hk).trans h)

theorem at_does {i : Instr} {s : State} {r : Option State} {m : Mach} (he : exec i s = eventAt s r) (hr : r = some { s with m := m }) : Does i s m := by
  unfold Does; rw [he, hr]; rfl

theorem at_next {i : Instr} {s t : State} {r : Option State} (he : exec i s = eventAt s r) (hr : r = some t) : exec i s = .next t := by
  rw [he, hr]; rfl

theorem at_not {i : Instr} {s : State} {r : Option State} (he : exec i s = eventAt s r) (hr : r = none) : NotDue i s := by
  unfold NotDue; rw [he, hr]; rfl

theorem ctx_of {m : Mach} {c : Nat} {x : Ctx} (h : Map.find? m.ctxs c = some x) : m.ctx c = x := by unfold Mach.ctx; rw [h]; rfl

theorem block_of {m : Mach} {c : Nat} {x : Block} (h : Map.find? m.blocks c = some x) : m.block c = x := by unfold Mach.block; rw [h]; rfl

/-- The lines of an L1 set once the copy of one sector is dropped. -/
def dropSec (sec : Nat) (ls : List L1Line) : List L1Line :=
  (ls.map (fun x => if x.line = sec / 2 then { x with secs := Map.del x.secs (sec % 2) } else x)).filter (fun x => !x.secs.isEmpty)

theorem l1Copy_drop (m : Mach) (core sec : Nat) :
    ({ m with l1 := Map.upd m.l1 (l1Set core sec) (dropSec sec) } : Mach).l1Copy core sec = none := by
  unfold Mach.l1Copy
  rw [Map.find?_upd_self]
  cases hf : (((Map.find? m.l1 (l1Set core sec)).map (dropSec sec)).getD []).find? (fun x => x.line == sec / 2) with
  | none => rfl
  | some y =>
    have hy := List.find?_some hf
    have hm := List.mem_of_find?_eq_some hf
    cases hl : Map.find? m.l1 (l1Set core sec) with
    | none => rw [hl] at hm; cases hm
    | some ls =>
      rw [hl] at hm
      obtain ⟨x, -, rfl⟩ := List.mem_map.1 (List.mem_filter.1 hm).1
      by_cases h : x.line = sec / 2
      · rw [if_pos h]
        exact Map.find?_del_self _ _
      · rw [if_neg h] at hy
        exact absurd (by simpa using hy) h

theorem dropSec_find {sec L i : Nat} {c : Copy} (ls : List L1Line) (hne : ¬ (L = sec / 2 ∧ i = sec % 2))
    (h : (ls.find? (fun x => x.line == L)).bind (fun x => Map.find? x.secs i) = some c) :
    ((dropSec sec ls).find? (fun x => x.line == L)).bind (fun x => Map.find? x.secs i) = some c := by
  induction ls with
  | nil => cases h
  | cons y ls ih =>
    unfold dropSec at ih ⊢
    rw [List.map_cons, List.filter_cons]
    by_cases hy : y.line = L
    · rw [List.find?_cons_of_pos (by simpa using hy), Option.bind_some] at h
      have key : ∀ z : L1Line, z.line = L → Map.find? z.secs i = some c → ∀ l : List L1Line,
          ((if (!z.secs.isEmpty) = true then z :: l else l).find? (fun x => x.line == L)).bind (fun x => Map.find? x.secs i) = some c := by
        intro z hz hs l
        have : (!z.secs.isEmpty) = true := by
          cases hq : z.secs with
          | nil => rw [hq] at hs; cases hs
          | cons _ _ => rfl
        rw [if_pos this, List.find?_cons_of_pos (by simpa using hz), Option.bind_some]
        exact hs
      by_cases hl : y.line = sec / 2
      · rw [if_pos hl]
        refine key { y with secs := Map.del y.secs (sec % 2) } hy ?_ _
        exact (Map.find?_del_ne _ (fun hi => hne ⟨hy.symm.trans hl, hi⟩)).trans h
      · rw [if_neg hl]
        exact key _ hy h _
    · rw [List.find?_cons_of_neg (by simpa using hy)] at h
      have ih := ih h
      have key : ∀ z : L1Line, z.line ≠ L → ∀ l : List L1Line, (l.find? (fun x => x.line == L)).bind (fun x => Map.find? x.secs i) = some c →
          ((if (!z.secs.isEmpty) = true then z :: l else l).find? (fun x => x.line == L)).bind (fun x => Map.find? x.secs i) = some c := by
        intro z hz l hl
        split
        · rw [List.find?_cons_of_neg (by simpa using hz)]; exact hl
        · exact hl
      by_cases hl : y.line = sec / 2
      · rw [if_pos hl]; exact key { y with secs := Map.del y.secs (sec % 2) } hy _ ih
      · rw [if_neg hl]; exact key _ hy _ ih

theorem l1Copy_drop_ne {m : Mach} {core sec core2 sec2 : Nat} {c : Copy} (hne : ¬ (core2 = core ∧ sec2 = sec))
    (h : m.l1Copy core2 sec2 = some c) :
    ({ m with l1 := Map.upd m.l1 (l1Set core sec) (dropSec sec) } : Mach).l1Copy core2 sec2 = some c := by
  unfold Mach.l1Copy at h ⊢
  by_cases hs : l1Set core2 sec2 = l1Set core sec
  · rw [hs] at h ⊢
    rw [Map.find?_upd_self]
    have hcore : core2 = core := by unfold l1Set at hs; omega
    cases hl : Map.find? m.l1 (l1Set core sec) with
    | none => rw [hl] at h; cases h
    | some ls =>
      rw [hl] at h
      exact dropSec_find ls (fun hh => hne ⟨hcore, by omega⟩) h
  · rw [Map.find?_upd_ne _ _ hs]
    exact h

end Sys2Proof.Machine
end

