-- ==== Sys2Proof/Laws/Commands.lean ====
section
/-!
SUPPORT. Lemmas: mailbox and debug commands.
-/

namespace Sys2Proof.Machine

theorem takes_box {fn : Nat} {s : State} (h : Takes fn s) (early : Bool) (f : State → State × Nat × List (Nat × List Byte)) :
    mailbox fn early s f = .next ((f s).1.answer fn (f s).2.1 (f s).2.2) := by
  obtain ⟨⟨x, hx, h1, h2⟩, h3⟩ := h
  have hr : s.p.boot.phase ≠ .recovery := by intro h; rw [h] at h3; cases h3
  unfold mailbox
  dsimp only
  rw [hx]
  dsimp only
  rw [if_neg (by simp [h1, h2]), if_neg hr, if_pos h3]
  rfl

theorem box_rules {fn : Nat} {s : State} {x : Fn} (hx : Map.find? s.p.fns fn = some x) (early : Bool) (f : State → State × Nat × List (Nat × List Byte)) :
    (x.enabled = false ∨ x.busy = true → mailbox fn early s f = .next s) ∧
    (x.enabled = true → x.busy = false → s.p.boot.phase = .recovery → early = false → mailbox fn early s f = .next (s.answer fn 8 [])) ∧
    (x.enabled = true → x.busy = false → s.p.boot.phase ≠ .recovery → s.p.boot.phase.serves = false → mailbox fn early s f = .next s) := by
  unfold mailbox
  rw [hx]
  dsimp only
  refine ⟨?_, ?_, ?_⟩
  · intro h; rw [if_pos (by simpa using h)]; rfl
  · intro h1 h2 h3 h4; rw [if_neg (by simp [h1, h2]), if_pos h3, h4]; rfl
  · intro h1 h2 h3 h4; rw [if_neg (by simp [h1, h2]), if_neg h3, h4]; rfl

theorem cmd_rules {i : Instr} {fn : Nat} {early : Bool} {s : State} {x : Fn} {f : State → State × Nat × List (Nat × List Byte)}
    (hx : Map.find? s.p.fns fn = some x) (he : exec i s = mailbox fn early s f) :
    (x.enabled = false ∨ x.busy = true → NotDue i s) ∧
    (x.enabled = true → x.busy = false → s.p.boot.phase = .recovery → early = false → Replies i fn s s 8 []) ∧
    (x.enabled = true → x.busy = false → s.p.boot.phase ≠ .recovery → s.p.boot.phase.serves = false → exec i s = .next s) := by
  unfold NotDue Replies
  rw [he]
  exact box_rules hx early f

theorem pf_rules {i : Instr} {fn : Nat} {s : State} {f : State → State × Nat × List (Nat × List Byte)} (h : Takes fn s) (hf : fn ≠ 0)
    (he : exec i s = pfCommand fn s f) : Replies i fn s s 8 [] := by
  unfold Replies
  rw [he]
  unfold pfCommand command
  obtain ⟨⟨x, hx, h1, h2⟩, h3⟩ := h
  have hr : s.p.boot.phase ≠ .recovery := by intro h; rw [h] at h3; cases h3
  unfold mailbox
  rw [hx]
  dsimp only
  rw [if_neg (by simp [h1, h2]), if_neg hr, if_pos h3, if_neg hf]
  rfl

theorem takes_fnOf {fn : Nat} {s : State} (h : Takes fn s) : ∃ x, fnOf s fn = some x ∧ x.busy = false := by
  obtain ⟨⟨x, hx, h1, h2⟩, h3⟩ := h
  refine ⟨x, ?_, h2⟩
  unfold fnOf; rw [hx]; simp [h1]

theorem box_createCtx (fn hdr world : Nat) (s : State) : ∃ f, exec (.createCtx fn hdr world) s = mailbox fn false s f := by
  show ∃ f, execCreateCtx fn hdr world s = _
  unfold execCreateCtx command
  exact ⟨_, rfl⟩

theorem box_runCtx (fn ctx : Nat) (s : State) : ∃ f, exec (.runCtx fn ctx) s = mailbox fn false s f := by
  show ∃ f, execRunCtx fn ctx s = _
  unfold execRunCtx command
  exact ⟨_, rfl⟩

theorem stop_rules {i : Instr} {fn c : Nat} {d : Bool} {s : State} {x : Fn} (hx : Map.find? s.p.fns fn = some x)
    (he : exec i s = stopCommand fn c d s) :
    (x.enabled = false ∨ x.busy = true → NotDue i s) ∧
    (x.enabled = true → x.busy = false → s.p.boot.phase = .recovery → Replies i fn s s 8 []) ∧
    (x.enabled = true → x.busy = false → s.p.boot.phase ≠ .recovery → s.p.boot.phase.serves = false → exec i s = .next s) := by
  have rules := fun f => box_rules hx false f
  unfold NotDue Replies
  rw [he]
  unfold stopCommand command
  rw [hx]
  cases mayCommand s.m fn c with
  | error st =>
    exact ⟨(rules _).1, fun h1 h2 h3 => (rules _).2.1 h1 h2 h3 rfl, (rules _).2.2⟩
  | ok y =>
    dsimp only
    by_cases hr : y.resetBy.isSome = true
    · rw [if_pos hr]
      exact ⟨(rules _).1, fun h1 h2 h3 => (rules _).2.1 h1 h2 h3 rfl, (rules _).2.2⟩
    · rw [if_neg hr]
      cases hs : s.p.boot.phase.serves
      · rw [if_pos (show (!false) = true from rfl)]
        exact ⟨(rules _).1, fun h1 h2 h3 => (rules _).2.1 h1 h2 h3 rfl, fun h1 h2 h3 _ => (rules _).2.2 h1 h2 h3 hs⟩
      · rw [if_neg (by simp)]
        refine ⟨fun h => by rw [if_pos (by simpa using h)]; rfl, fun h1 h2 h3 => ?_, fun _ _ _ h4 => by cases h4⟩
        rw [h3] at hs; cases hs

theorem box_wsreg (fn ctx set handle : Nat) (s : State) : ∃ f, exec (.wsreg fn ctx set handle) s = mailbox fn false s f := by
  show ∃ f, execWsreg fn ctx set handle s = _
  unfold execWsreg command
  exact ⟨_, rfl⟩

theorem box_quota (fn vf contexts : Nat) (secure : Bool) (s : State) : ∃ f, exec (.quota fn vf contexts secure) s = mailbox fn false s f := by
  show ∃ f, execQuota fn vf contexts secure s = _
  unfold execQuota pfCommand command
  exact ⟨_, rfl⟩

theorem pf_quota (fn vf contexts : Nat) (secure : Bool) (s : State) : ∃ f, exec (.quota fn vf contexts secure) s = pfCommand fn s f := by
  show ∃ f, execQuota fn vf contexts secure s = _
  unfold execQuota
  exact ⟨_, rfl⟩

theorem box_timeparam (fn ctx : Nat) (tp : TimeParam) (s : State) : ∃ f, exec (.timeparam fn ctx tp) s = mailbox fn false s f := by
  show ∃ f, execTimeparam fn ctx tp s = _
  unfold execTimeparam pfCommand command
  exact ⟨_, rfl⟩

theorem pf_timeparam (fn ctx : Nat) (tp : TimeParam) (s : State) : ∃ f, exec (.timeparam fn ctx tp) s = pfCommand fn s f := by
  show ∃ f, execTimeparam fn ctx tp s = _
  unfold execTimeparam
  exact ⟨_, rfl⟩

theorem box_tagRegion (fn base count world : Nat) (s : State) : ∃ f, exec (.tagRegion fn base count world) s = mailbox fn false s f := by
  show ∃ f, execTagRegion fn base count world s = _
  unfold execTagRegion pfCommand command
  exact ⟨_, rfl⟩

theorem pf_tagRegion (fn base count world : Nat) (s : State) : ∃ f, exec (.tagRegion fn base count world) s = pfCommand fn s f := by
  show ∃ f, execTagRegion fn base count world s = _
  unfold execTagRegion
  exact ⟨_, rfl⟩

theorem box_slots (fn link : Nat) (entries : List (BitVec 16)) (s : State) : ∃ f, exec (.slots fn link entries) s = mailbox fn false s f := by
  show ∃ f, execSlots fn link entries s = _
  unfold execSlots pfCommand command
  exact ⟨_, rfl⟩

theorem pf_slots (fn link : Nat) (entries : List (BitVec 16)) (s : State) : ∃ f, exec (.slots fn link entries) s = pfCommand fn s f := by
  show ∃ f, execSlots fn link entries s = _
  unfold execSlots
  exact ⟨_, rfl⟩

theorem box_exportEntry (fn entry : Nat) (e : ExportEntry) (s : State) : ∃ f, exec (.exportEntry fn entry e) s = mailbox fn false s f := by
  show ∃ f, execExportEntry fn entry e s = _
  unfold execExportEntry pfCommand command
  exact ⟨_, rfl⟩

theorem pf_exportEntry (fn entry : Nat) (e : ExportEntry) (s : State) : ∃ f, exec (.exportEntry fn entry e) s = pfCommand fn s f := by
  show ∃ f, execExportEntry fn entry e s = _
  unfold execExportEntry
  exact ⟨_, rfl⟩

theorem box_lend (fn team ctx : Nat) (s : State) : ∃ f, exec (.lend fn team ctx) s = mailbox fn false s f := by
  show ∃ f, execLend fn team ctx s = _
  unfold execLend pfCommand command
  exact ⟨_, rfl⟩

theorem pf_lend (fn team ctx : Nat) (s : State) : ∃ f, exec (.lend fn team ctx) s = pfCommand fn s f := by
  show ∃ f, execLend fn team ctx s = _
  unfold execLend
  exact ⟨_, rfl⟩

theorem box_nvmegrant (fn ctx ns : Nat) (grant : Bool) (s : State) : ∃ f, exec (.nvmegrant fn ctx ns grant) s = mailbox fn false s f := by
  show ∃ f, execNvmegrant fn ctx ns grant s = _
  unfold execNvmegrant pfCommand command
  exact ⟨_, rfl⟩

theorem pf_nvmegrant (fn ctx ns : Nat) (grant : Bool) (s : State) : ∃ f, exec (.nvmegrant fn ctx ns grant) s = pfCommand fn s f := by
  show ∃ f, execNvmegrant fn ctx ns grant s = _
  unfold execNvmegrant
  exact ⟨_, rfl⟩

theorem box_errring (fn addr entries : Nat) (s : State) : ∃ f, exec (.errring fn addr entries) s = mailbox fn false s f := by
  show ∃ f, execErrring fn addr entries s = _
  unfold execErrring command
  exact ⟨_, rfl⟩

theorem box_debugStop (fn ctx : Nat) (s : State) : ∃ f, exec (.debugStop fn ctx) s = mailbox fn false s f := by
  show ∃ f, execDebugStop fn ctx s = _
  unfold execDebugStop debugCommand command
  exact ⟨_, rfl⟩

theorem box_debugReleaseWarp (fn ctx : Nat) (w : WarpName) (s : State) : ∃ f, exec (.debugReleaseWarp fn ctx w) s = mailbox fn false s f := by
  show ∃ f, execDebugReleaseWarp fn ctx w s = _
  unfold execDebugReleaseWarp debugCommand command
  exact ⟨_, rfl⟩

theorem box_debugReleaseAll (fn ctx : Nat) (s : State) : ∃ f, exec (.debugReleaseAll fn ctx) s = mailbox fn false s f := by
  show ∃ f, execDebugReleaseAll fn ctx s = _
  unfold execDebugReleaseAll debugCommand command
  exact ⟨_, rfl⟩

theorem box_debugSetBreakpoint (fn ctx entry code ordinal : Nat) (s : State) : ∃ f, exec (.debugSetBreakpoint fn ctx entry code ordinal) s = mailbox fn false s f := by
  show ∃ f, execDebugSetBreakpoint fn ctx entry code ordinal s = _
  unfold execDebugSetBreakpoint debugCommand command
  exact ⟨_, rfl⟩

theorem box_debugClearBreakpoint (fn ctx entry : Nat) (s : State) : ∃ f, exec (.debugClearBreakpoint fn ctx entry) s = mailbox fn false s f := by
  show ∃ f, execDebugClearBreakpoint fn ctx entry s = _
  unfold execDebugClearBreakpoint debugCommand command
  exact ⟨_, rfl⟩

theorem box_debugDump (fn ctx : Nat) (w : WarpName) (s : State) : ∃ f, exec (.debugDump fn ctx w) s = mailbox fn false s f := by
  show ∃ f, execDebugDump fn ctx w s = _
  unfold execDebugDump debugCommand command
  exact ⟨_, rfl⟩

theorem box_fencemap (fn : Nat) (s : State) : ∃ f, exec (.fencemap fn) s = mailbox fn false s f := by
  show ∃ f, execFencemap fn s = _
  unfold execFencemap pfCommand command
  exact ⟨_, rfl⟩

theorem pf_fencemap (fn : Nat) (s : State) : ∃ f, exec (.fencemap fn) s = pfCommand fn s f := by
  show ∃ f, execFencemap fn s = _
  unfold execFencemap
  exact ⟨_, rfl⟩

theorem box_health (fn : Nat) (unit : Word) (s : State) : ∃ f, exec (.health fn unit) s = mailbox fn false s f := by
  show ∃ f, execHealth fn unit s = _
  unfold execHealth pfCommand command
  exact ⟨_, rfl⟩

theorem pf_health (fn : Nat) (unit : Word) (s : State) : ∃ f, exec (.health fn unit) s = pfCommand fn s f := by
  show ∃ f, execHealth fn unit s = _
  unfold execHealth
  exact ⟨_, rfl⟩

theorem box_testTeam (fn team : Nat) (s : State) : ∃ f, exec (.testTeam fn team) s = mailbox fn false s f := by
  show ∃ f, execTestTeam fn team s = _
  unfold execTestTeam pfCommand command
  exact ⟨_, rfl⟩

theorem pf_testTeam (fn team : Nat) (s : State) : ∃ f, exec (.testTeam fn team) s = pfCommand fn s f := by
  show ∃ f, execTestTeam fn team s = _
  unfold execTestTeam
  exact ⟨_, rfl⟩

theorem box_attest (fn : Nat) (nonce : List Byte) (addr : Nat) (s : State) : ∃ f, exec (.attest fn nonce addr) s = mailbox fn true s f := by
  show ∃ f, execAttest fn nonce addr s = _
  unfold execAttest bootCommand
  exact ⟨_, rfl⟩

theorem box_identity (fn addr len : Nat) (s : State) : ∃ f, exec (.identity fn addr len) s = mailbox fn true s f := by
  show ∃ f, execIdentity fn addr len s = _
  unfold execIdentity bootCommand
  exact ⟨_, rfl⟩

theorem box_journalRead (fn addr : Nat) (s : State) : ∃ f, exec (.journalRead fn addr) s = mailbox fn true s f := by
  show ∃ f, execJournalRead fn addr s = _
  unfold execJournalRead bootCommand
  exact ⟨_, rfl⟩

theorem box_journalClear (fn : Nat) (s : State) : ∃ f, exec (.journalClear fn) s = mailbox fn true s f := by
  show ∃ f, execJournalClear fn s = _
  unfold execJournalClear bootCommand
  exact ⟨_, rfl⟩

theorem box_imagewrite (fn stage slot addr len : Nat) (s : State) : ∃ f, exec (.imagewrite fn stage slot addr len) s = mailbox fn true s f := by
  show ∃ f, execImagewrite fn stage slot addr len s = _
  unfold execImagewrite bootCommand
  exact ⟨_, rfl⟩

/-- No copy of a dropped line stays in an L1. -/
theorem l1Copy_dropped {m : Mach} {p : Nat → Bool} {core sec : Nat} {x : Copy} (h : (m.dropCopies p).l1Copy core sec = some x) :
    p (sec / 2) = false := by
  unfold Mach.l1Copy at h
  cases hl : Map.find? (m.dropCopies p).l1 (l1Set core sec) with
  | none => rw [hl] at h; cases h
  | some ls =>
    rw [hl] at h
    have hm : ∀ (l : List (Nat × List L1Line)) (k : Nat), Map.find? l k = some ls → ∃ k, (k, ls) ∈ l := by
      intro l k hk
      induction l with
      | nil => cases hk
      | cons e l ih =>
        unfold Map.find? at hk
        split at hk
        · cases hk; exact ⟨_, List.mem_cons_self ..⟩
        · obtain ⟨k, hk⟩ := ih hk; exact ⟨k, List.mem_cons_of_mem _ hk⟩
    obtain ⟨k, hk⟩ := hm _ _ hl
    unfold Mach.dropCopies at hk
    obtain ⟨e, -, he⟩ := List.mem_map.1 (List.mem_filter.1 hk).1
    dsimp only [Option.getD_some] at h
    cases hf : ls.find? (fun y => y.line == sec / 2) with
    | none => rw [hf] at h; cases h
    | some y =>
      have hy := List.find?_some hf
      have hy2 := List.mem_of_find?_eq_some hf
      rw [show ls = e.2.filter (fun x => !p x.line) from (Prod.ext_iff.1 he).2.symm] at hy2
      have := (List.mem_filter.1 hy2).2
      rw [show y.line = sec / 2 by simpa using hy] at this
      simpa using this

theorem pf_takes {i : Instr} {s : State} (h : Takes 0 s) {f : State → State × Nat × List (Nat × List Byte)} (he : exec i s = pfCommand 0 s f) {t : State} {st : Nat} {out : List (Nat × List Byte)}
    (hf : f s = (t, st, out)) : Replies i 0 s t st out := by
  unfold Replies
  rw [he]
  unfold pfCommand command
  rw [takes_box h, if_pos rfl, hf]

theorem cmd_takes {i : Instr} {fn : Nat} {s : State} (h : Takes fn s) {f : State → State × Nat × List (Nat × List Byte)} (he : exec i s = command fn s f) {t : State} {st : Nat} {out : List (Nat × List Byte)}
    (hf : f s = (t, st, out)) : Replies i fn s t st out := by
  unfold Replies
  rw [he]
  unfold command
  rw [takes_box h, hf]

theorem boot_takes {i : Instr} {fn : Nat} {s : State} (h : TakesEarly fn s) {f : State → State × Nat × List (Nat × List Byte)} (he : exec i s = bootCommand fn s f) {t : State} {st : Nat} {out : List (Nat × List Byte)}
    (hf : f s = (t, st, out)) : Replies i fn s t st out := by
  unfold Replies
  rw [he]
  unfold bootCommand mailbox
  obtain ⟨⟨x, hx, h1, h2⟩, h3⟩ := h
  rw [hx]
  dsimp only
  rw [if_neg (by simp [h1, h2])]
  by_cases hr : s.p.boot.phase = .recovery
  · rw [if_pos hr, hf]; rfl
  · rw [if_neg hr, if_pos (h3.resolve_left hr), hf]; rfl

theorem dbg_takes {i : Instr} {fn c : Nat} {s : State} (h : Takes fn s) {f : Mach → Option Mach} (he : exec i s = debugCommand fn c s f) {x : Ctx} (hm : mayCommand s.m fn c = .ok x) (hd : debugged s.m c = true) :
    (∀ m, f s.m = some m → Debugs i fn s m) ∧ (f s.m = none → Replies i fn s s 1 []) := by
  unfold debugCommand at he
  constructor
  · intro m hf
    refine cmd_takes h he ?_
    rw [hm]
    dsimp only
    rw [if_neg (by rw [hd]; simp), hf]
  · intro hf
    refine cmd_takes h he ?_
    rw [hm]
    dsimp only
    rw [if_neg (by rw [hd]; simp), hf]

end Sys2Proof.Machine
end

