-- ==== Sys2Proof/Laws/Platform.lean ====
section
/-!
SUPPORT. Lemmas: events of the platform.
-/

namespace Sys2Proof.Machine

theorem rejects_keeps (b : Boot) (st src r : Nat) : (b.rejects st src r).flash = b.flash ∧ (b.rejects st src r).nvme = b.nvme ∧ (b.rejects st src r).count = b.count := by
  unfold Boot.rejects Boot.note
  dsimp only
  exact ⟨rfl, rfl, rfl⟩

theorem no_image {b : Boot} (h : b.flash = []) (h1 : b.nvme = []) (stage src : Nat) : imgFails b stage (b.image stage src) = some 0 := by
  have : b.image stage src = [] := by
    unfold Boot.image
    rw [h, h1]
    split <;> rfl
  rw [this]
  unfold imgFails
  have : imgForm stage [] = false := by
    unfold imgForm
    dsimp only
    rw [decide_eq_false (by simp)]
    rfl
  rw [this]
  rfl

theorem try_fails (stage : Nat) (rs : List Bool) (l : List Nat) (b : Boot) (h : b.flash = []) (h1 : b.nvme = []) :
    ∃ b', b.try stage rs l = .failed b' ∧ b'.count = b.count := by
  induction l generalizing b with
  | nil => exact ⟨b, rfl, rfl⟩
  | cons src l ih =>
    unfold Boot.try
    rw [no_image h h1]
    dsimp only
    obtain ⟨k1, k2, k3⟩ := rejects_keeps b stage src 0
    obtain ⟨b', hb, hc⟩ := ih (b.rejects stage src 0) (k1.trans h) (k2.trans h1)
    exact ⟨b', hb, hc.trans k3⟩

end Sys2Proof.Machine
end

