-- ==== Sys2Proof/Laws/Package.lean ====
section
/-!
SUPPORT. Lemmas: what an event leaves of the package around the cores.
-/

namespace Sys2Proof.Machine

/-- What `SoundPackage` looks at. -/
def pcore (p : Plat) : Nat × List (Nat × List (BitVec 16)) × List (Nat × (Nat × List (BitVec 16))) × List (List Byte) :=
  (p.power, p.slots, p.slotsNext, p.boot.journal)

theorem eventAt_next {s t : State} {r : Option State} (h : eventAt s r = .next t) : r = some t ∨ t = s := by
  unfold eventAt at h
  cases r with
  | none => right; cases h; rfl
  | some x => left; cases h; rfl

theorem event_next {s : State} {r : Option Mach} {t : State} (h : event s r = .next t) : t.p = s.p := by
  unfold event at h
  cases h; rfl

@[simp] theorem pcore_updFn (s : State) (fn : Nat) (f : Fn → Fn) : pcore (s.updFn fn f).p = pcore s.p := rfl

@[simp] theorem pcore_answer (s : State) (fn st : Nat) (o : List (Nat × List Byte)) : pcore (s.answer fn st o).p = pcore s.p := by
  unfold State.answer
  repeat (first | rfl | split | dsimp only)

theorem fs_nil (fn : Nat) (s : State) : flushStatus fn [] s = s.updFn fn (fun f => { f with held := [] }) := by rw [flushStatus]

theorem fs_cons (fn : Nat) (bs : List Byte) (rest : List (List Byte)) (s : State) : pcore (flushStatus fn (bs :: rest) s).p = pcore s.p ∨ ∃ s', flushStatus fn (bs :: rest) s = flushStatus fn rest s' ∧ pcore s'.p = pcore s.p := by
  rw [flushStatus]
  generalize hx : Map.find? s.p.fns fn = x
  cases x with
  | none => exact .inl rfl
  | some f =>
    dsimp only
    by_cases hr : f.intakeStatus.room = true
    · rw [if_pos hr]
      refine .inr ⟨_, rfl, ?_⟩
      exact pcore_updFn _ _ _
    · rw [if_neg hr]
      exact .inl (pcore_updFn _ _ _)

theorem flushStatus_core (fn : Nat) (l : List (List Byte)) (s : State) : pcore (flushStatus fn l s).p = pcore s.p := by
  induction l generalizing s with
  | nil => rw [fs_nil]; exact pcore_updFn _ _ _
  | cons a l ih =>
    rcases fs_cons fn a l s with h | ⟨s', h, h'⟩
    · exact h
    · rw [h, ih, h']

@[simp] theorem report_core (s : State) (fn : Nat) (bs : List Byte) : pcore (report s fn bs).p = pcore s.p := flushStatus_core _ _ _

@[simp] theorem intakeTaken_core (s : State) (fn : Nat) : pcore (intakeTaken s fn).p = pcore s.p := rfl

theorem failUnit_core (s : State) (u : Word) : pcore (failUnit s u).p = pcore s.p := by
  unfold failUnit
  dsimp only
  split <;> rfl

theorem foldl_core {α : Type} (f : State → α → State) (h : ∀ s a, pcore (f s a).p = pcore s.p) (l : List α) (s : State) :
    pcore (l.foldl f s).p = pcore s.p := by
  induction l generalizing s with
  | nil => rfl
  | cons a l ih => rw [List.foldl_cons, ih, h]

theorem mem_ins' {α : Type} {l : List (Nat × α)} {k : Nat} {a : α} {P : Nat × α → Prop} (h : ∀ e ∈ l, P e) (ha : P (k, a)) :
    ∀ e ∈ Map.ins l k a, P e := by
  intro e he
  rcases Map.mem_ins he with rfl | he
  · exact ha
  · exact h e he

theorem slotEntryOk_iff {e : BitVec 16} (h : slotEntryOk e = true) :
    e.toNat / 16384 ≠ 3 ∧ e.toNat / 64 % 256 = 0 ∧ (e.toNat / 16384 ≠ 1 → e.toNat % 64 = 0) := by
  unfold slotEntryOk at h
  simp only [Bool.and_eq_true, bne_iff_ne, beq_iff_eq, Bool.or_eq_true, Nat.reducePow] at h
  refine ⟨h.1.1, h.1.2, fun hn => h.2.resolve_left hn⟩

theorem core_healthAdd (p : Plat) (u : Word) (l : List Nat) : pcore (healthAdd p u l) = pcore p := rfl

theorem find?_mem {α : Type} {l : List (Nat × α)} {k : Nat} {a : α} (h : Map.find? l k = some a) : (k, a) ∈ l := by
  induction l with
  | nil => cases h
  | cons e l ih =>
    obtain ⟨k', b⟩ := e
    unfold Map.find? at h
    split at h
    · rename_i hk; cases h; rw [hk]; exact List.mem_cons_self
    · exact List.mem_cons_of_mem _ (ih h)

theorem tagPort_core (s : State) (src e : Nat) (x : ExportEntry) (a : RemoteAcc) : pcore (tagPort s src e x a).p = pcore s.p := by
  unfold tagPort
  dsimp only
  split <;> rfl

theorem failGen_core (s : State) (a b c d : Nat) : pcore (failGen s a b c d).p = pcore s.p := report_core _ _ _

theorem timeOutGen_core (s : State) (fn c i : Nat) (g : Nat × Gen) : pcore (timeOutGen s fn c i g).p = pcore s.p := by
  unfold timeOutGen
  exact failGen_core _ _ _ _ _

theorem submitShard_core (s : State) (a b c : Nat) (w g x) : pcore (submitShard s a b c w g x).p = pcore s.p := by
  unfold submitShard
  split
  · rfl
  · extract_lets right
    split
    · exact (failGen_core _ _ _ _ _).trans (intakeTaken_core _ _)
    · split
      · exact intakeTaken_core _ _
      · exact intakeTaken_core s a

theorem shardGood_core (s : State) (fn c i g idx pts : Nat) : pcore (shardGood s fn c i g idx pts).p = pcore s.p := by
  unfold shardGood
  extract_lets put s' s''
  have h : pcore s''.p = pcore s.p := report_core _ _ _
  split
  · exact h
  · split
    · exact (report_core _ _ _).trans h
    · exact h

def JournalOk (b : Boot) : Prop := b.journal.length ≤ 256 ∧ ∀ e ∈ b.journal, e.length = 32

theorem length_bytesOfNat (n x : Nat) : (bytesOfNat n x).length = n := by
  induction n generalizing x with
  | zero => rfl
  | succ n ih => rw [bytesOfNat, List.length_cons, ih]

theorem length_entryHead (a b c d e f : Nat) : (entryHead a b c d e f).length = 28 := by
  unfold entryHead
  simp only [List.length_append, length_bytesOfNat, List.length_cons, List.length_nil]

theorem note_journal (b : Boot) (v st sr r : Nat) : ∃ x : List Byte, x.length = 32 ∧ (b.note v st sr r).journal = (b.journal ++ [x]).drop ((b.journal ++ [x]).length - 256) := by
  unfold Boot.note
  dsimp only
  refine ⟨_, ?_, rfl⟩
  rw [List.length_append, length_bytesOfNat, length_entryHead]

theorem JournalOk.note {b : Boot} (h : JournalOk b) (v st sr r : Nat) : JournalOk (b.note v st sr r) := by
  obtain ⟨x, hx, hj⟩ := note_journal b v st sr r
  unfold JournalOk
  rw [hj]
  refine ⟨by rw [List.length_drop]; omega, ?_⟩
  intro e he
  have := List.mem_of_mem_drop he
  rw [List.mem_append, List.mem_singleton] at this
  rcases this with h1 | h1
  · exact h.2 e h1
  · rw [h1, hx]

theorem JournalOk.of {b b' : Boot} (h : JournalOk b) (e : b'.journal = b.journal) : JournalOk b' := by
  unfold JournalOk; rw [e]; exact h

theorem JournalOk.stepFails {b : Boot} (h : JournalOk b) (st r : Nat) : JournalOk (b.stepFails st r) := by
  unfold Boot.stepFails
  extract_lets b'
  have hb : JournalOk b' := h.note b.ver st b.src r
  clear_value b'
  split <;> exact hb.of rfl

def TrialOk : Trial → Prop
  | .success b _ => JournalOk b
  | .failed b => JournalOk b
  | .halt b => JournalOk b

theorem report_ok {b : Boot} (h : JournalOk b) (st : Nat) (rs : List Bool) : TrialOk (b.report st rs) := by
  unfold Boot.report
  split
  · exact h
  · have hb := h.note b.ver st b.src 0
    unfold Boot.succeeds
    generalize b.note b.ver st b.src 0 = x at hb
    exact hb.of rfl
  · exact h.stepFails _ _

theorem try_ok {b : Boot} (h : JournalOk b) (st : Nat) (rs : List Bool) (l : List Nat) : TrialOk (b.try st rs l) := by
  induction l generalizing b with
  | nil => exact h
  | cons a l ih =>
    unfold Boot.try
    split
    · exact ih (h.note _ _ _ _)
    · exact report_ok (b := b.runs st a) (h.of rfl) _ _

theorem chain_ok {b : Boot} (h : JournalOk b) (rs : List Bool) (l : List Nat) : JournalOk (b.chain rs l) := by
  induction l generalizing b rs with
  | nil => exact h.of rfl
  | cons a l ih =>
    unfold Boot.chain
    split
    · exact ih (h.note _ _ _ _) _
    · have ht := try_ok h a rs (b.sources a)
      split
      · rename_i hb; rw [hb] at ht; exact ih ht _
      · rename_i hb; rw [hb] at ht
        split
        · exact (show JournalOk _ from ht).of rfl
        · exact ih ht _
      · rename_i hb; rw [hb] at ht; exact ht

end Sys2Proof.Machine
end

