-- ==== Sys2Proof/Laws/Running.lean ====
section
/-!
SUPPORT. Lemmas: a step, the reset state and the words of a program.
-/

namespace Sys2Proof.Machine

theorem turned_settled (b : Bool) (o : Host.Outcome State Fault Refusal) : turned b (settled o) = followed b o := by
  unfold turned settled followed
  cases o <;> rfl

theorem step_eq (s : State) : step s = followed (s.agenda.isEmpty && !s.m.rebaseDue) (move s) := turned_settled _ _

theorem fetchInstr_of {m : Mach} {k : Nat} {c : Clause} {w1 : Word} {i : Instr} (hc : (m.warp k).path.clause = some c)
    (h : Fetches m k c w1 i) : fetchInstr m k = .instr m i := by
  obtain ⟨h1, h2⟩ := h
  unfold fetchInstr
  dsimp only
  rw [h1]
  dsimp only
  rcases h2 with ⟨ht, hd⟩ | ⟨ht, hs, w2, hf, hd⟩
  · rw [ht, if_neg (by simp), if_neg (by simp)]; dsimp only; rw [hd]
  · rw [ht, if_neg (by rw [hc]; simpa using hs), if_pos rfl, hf]; dsimp only; rw [hd]

theorem fetch_in {m : Mach} {k : Nat} {c : Clause} (hs : (m.warp k).path.spilled = false) (hc : (m.warp k).path.clause = some c) :
    fetch m k = fetchInstr m k := by
  unfold fetch fillCurrent
  rw [if_neg (by rw [hs]; simp)]
  dsimp only
  unfold fetchHere
  rw [if_pos (by rw [hc]; rfl)]

theorem reqOf_encode (i : Instr) : (Machine.reqOf i).isSome = true ↔ encode i ≠ [] := by
  cases i <;> first | exact ⟨fun _ h => (List.cons_ne_nil _ _ h).elim, fun _ => rfl⟩ | exact ⟨fun h => (Bool.false_ne_true h).elim, fun h => (h rfl).elim⟩

theorem computeReq_instr (i sc d a b c) : (computeReq i sc d a b c).instr = i := by unfold computeReq; split <;> rfl

theorem compareReq_instr (i sc a b) : (compareReq i sc a b).instr = i := by unfold compareReq; split <;> rfl

theorem memReq_instr (i sc d o h n w r) : (memReq i sc d o h n w r).instr = i := by unfold memReq; split <;> rfl

theorem tileReq_instr (i x b) : (tileReq i x b).instr = i := by unfold tileReq; split <;> rfl

theorem jxReq_instr (i x) : (jxReq i x).instr = i := by unfold jxReq; first | rfl | (split <;> rfl)

theorem reqOf_instr {i : Instr} {q : Req} (h : reqOf i = some q) : q.instr = i := by
  cases i <;> first | (cases h; rfl) | (cases h; done) | (cases h; simp only [selReq, loadReq, ldpReq, stReq, atomReq, casReq, computeReq_instr, memReq_instr, compareReq_instr, tldReq, tstReq, jumpRegReq, tileReq_instr, jxReq_instr])

theorem exec_stop {i : Instr} {q : Req} {s : State} {m : Mach} {st : Stop} (h : reqOf i = some q)
    (hc : canIssue s.m s.cur = true) (ha : admission q s.m s.cur = .stop m st) : exec i s = .next { s with m := deliver m s.cur st } := by
  obtain ⟨next, body, hx⟩ := exec_issued h
  rw [hx]
  unfold issuedAs
  rw [if_pos hc, issueWith_stop ha]

theorem chk1 (a b c : Bool) (P : Prop) : ((!a) = true ∨ (!b) = true ∨ (c = true ∧ ¬ P)) ↔ ¬ (a = true ∧ b = true ∧ (c = true → P)) := by
  cases a <;> cases b <;> cases c <;> by_cases P <;> simp [*]

theorem chk2 {α : Type} (P Q : Prop) (a : Bool) (o : Option α) : ((¬ P ∧ ¬ Q) ∨ ((!a) = true ∧ o.isNone = true)) ↔ ¬ ((P ∨ Q) ∧ (a = true ∨ o.isSome = true)) := by
  cases a <;> cases o <;> by_cases P <;> by_cases Q <;> simp [*]

theorem chk3 {α β : Type} (n : Nat) (o : Option α) (p : Option β) (c : Bool) (P : Prop) :
    ((2 ≤ n ∧ o.isSome = true) ∨ (n = 2 ∧ p.isNone = true) ∨ (c = true ∧ ¬ P)) ↔ ¬ ((n < 2 ∨ o = none) ∧ (n = 2 → p.isSome = true) ∧ (c = true → P)) := by
  cases c <;> cases o <;> cases p <;> by_cases P <;> simp [*] <;> omega

end Sys2Proof.Machine
end

