-- ==== Sys2Proof/Laws/Cache.lean ====
section
/-!
SUPPORT. Lemmas: what a fill of a register line leaves of its warp, and how the instruction that missed goes on.
-/

namespace Sys2Proof.Machine

theorem Map.get_fill {w : Nat} (a : Nat) (f : Nat → BitVec w) (s : List (Nat × BitVec w)) (n k : Nat) :
    Map.get ((List.range n).foldl (fun s i => Map.set s (a + i) (f i)) s) k = if a ≤ k ∧ k < a + n then f (k - a) else Map.get s k := by
  induction n with
  | zero => rw [if_neg (by omega)]; rfl
  | succ n ih =>
    rw [List.range_succ, List.foldl_append]
    simp only [List.foldl_cons, List.foldl_nil]
    by_cases h : k = a + n
    · subst h
      rw [Map.get_set_self, if_pos (by omega)]
      congr 1; omega
    · rw [Map.get_set_ne _ _ h, ih]
      by_cases h2 : a ≤ k ∧ k < a + n
      · rw [if_pos h2, if_pos (by omega)]
      · rw [if_neg h2, if_neg (by omega)]

theorem setVs_eq (l : Nat) (f : Nat → Word) (w : Warp) (n : Nat) :
    (List.range n).foldl (fun w i => w.setV l i (f i)) w =
      { w with v := (List.range n).foldl (fun v i => Map.set v (32 * l + i) (f i)) w.v } := by
  induction n with
  | zero => rfl
  | succ n ih =>
    rw [List.range_succ, List.foldl_append, List.foldl_append, ih]
    rfl

/-- Word i of the bytes of a line. -/
def lineWord (bs : List Byte) (i : Nat) : Word := BitVec.ofNat 32 (natOfBytes ((bs.drop (4 * i)).take 4))

theorem setLine_low {w : Warp} {l : Nat} (bs : List Byte) (h : l < 48) :
    w.setLine l bs = { w with v := (List.range 32).foldl (fun v i => Map.set v (32 * l + i) (lineWord bs i)) w.v } := by
  unfold Warp.setLine
  dsimp only
  rw [if_pos h]
  exact setVs_eq l (lineWord bs) w 32

theorem setLine_high {w : Warp} {l : Nat} (bs : List Byte) (h : ¬ l < 48) :
    w.setLine l bs = { w with s := (List.range (if l = 50 then 16 else 32)).foldl (fun s i => Map.set s (lineKey l + i) (lineWord bs i)) w.s } := by
  unfold Warp.setLine
  dsimp only
  rw [if_neg h]
  rfl

/-- One future's status in its register. -/
def statusOf (l : Nat) (s : List (Nat × Word)) (e : Nat × Fut) : List (Nat × Word) :=
  match e.2.reg, e.2.status with
  | some r, some st => if keyLine r = l then Map.set s r (BitVec.ofNat 32 st) else s
  | _, _ => s

theorem statuses_eq (w : Warp) (l : Nat) : w.statuses l = { w with s := w.futs.foldl (statusOf l) w.s } := by
  have key : ∀ (fs : List (Nat × Fut)) (w : Warp), fs.foldl (fun w e => match e.2.reg, e.2.status with
      | some r, some st => if keyLine r = l then { w with s := Map.set w.s r (BitVec.ofNat 32 st) } else w
      | _, _ => w) w = { w with s := fs.foldl (statusOf l) w.s } := by
    intro fs
    induction fs with
    | nil => intro w; rfl
    | cons e fs ih =>
      intro w
      rw [List.foldl_cons, List.foldl_cons, ih]
      unfold statusOf
      rcases h : e.2.reg with _ | r
      · rfl
      rcases h2 : e.2.status with _ | st
      · rfl
      by_cases hk : keyLine r = l
      · simp only [if_pos hk]
      · simp only [if_neg hk]
  exact key w.futs w

theorem statusOf_other {l : Nat} {s : List (Nat × Word)} {e : Nat × Fut} {n : Nat} (h : keyLine n ≠ l ∨ e.2.reg ≠ some n ∨ e.2.status = none) :
    Map.get (statusOf l s e) n = Map.get s n := by
  unfold statusOf
  split
  · next r st hr hs =>
    split
    · next hk =>
      apply Map.get_set_ne
      rintro rfl
      rcases h with h | h | h
      · exact h hk
      · exact h hr
      · rw [hs] at h; cases h
    · rfl
  · rfl

theorem statuses_other {l : Nat} {fs : List (Nat × Fut)} {s : List (Nat × Word)} {n : Nat}
    (h : ∀ e ∈ fs, keyLine n ≠ l ∨ e.2.reg ≠ some n ∨ e.2.status = none) : Map.get (fs.foldl (statusOf l) s) n = Map.get s n := by
  induction fs generalizing s with
  | nil => rfl
  | cons e fs ih =>
    rw [List.foldl_cons, ih (fun x hx => h x (List.mem_cons_of_mem _ hx)), statusOf_other (h e List.mem_cons_self)]

theorem statuses_same {l : Nat} {fs : List (Nat × Fut)} {s : List (Nat × Word)} {n st : Nat} (hl : keyLine n = l)
    (h : ∀ e ∈ fs, e.2.reg = some n → e.2.status = some st)
    (h0 : Map.get s n = BitVec.ofNat 32 st ∨ ∃ e ∈ fs, e.2.reg = some n) : Map.get (fs.foldl (statusOf l) s) n = BitVec.ofNat 32 st := by
  induction fs generalizing s with
  | nil =>
    rcases h0 with h0 | ⟨e, he, _⟩
    · exact h0
    · cases he
  | cons e fs ih =>
    rw [List.foldl_cons]
    apply ih (fun x hx => h x (List.mem_cons_of_mem _ hx))
    by_cases hr : e.2.reg = some n
    · left
      unfold statusOf
      rw [hr, h e List.mem_cons_self hr]
      dsimp only
      rw [if_pos hl, Map.get_set_self]
    · rcases h0 with h0 | ⟨x, hx, hxr⟩
      · left; rw [statusOf_other (.inr (.inl hr))]; exact h0
      · right
        rcases List.mem_cons.1 hx with rfl | hx
        · exact (hr hxr).elim
        · exact ⟨x, hx, hxr⟩

theorem keyLine_iff {n l : Nat} (h : n < 80) (hl : 48 ≤ l) (hl2 : l ≤ 50) :
    keyLine n = l ↔ lineKey l ≤ n ∧ n < lineKey l + (if l = 50 then 16 else 32) := by
  unfold keyLine lineKey
  obtain rfl | rfl | rfl : l = 48 ∨ l = 49 ∨ l = 50 := by omega
  all_goals split <;> (try split) <;> simp <;> omega

theorem filled_fill (w : Warp) (l : Nat) (bs : List Byte) (h : l ≤ 50) : Filled w (w.fill l bs none) l bs := by
  unfold Warp.fill
  rw [statuses_eq]
  by_cases hl : l < 48
  · rw [setLine_low bs hl]
    refine ⟨rfl, Map.find?_ins_self _ _ _, rfl, ?_, ?_, ?_, ?_, ?_⟩
    · intro _ i hi
      show Map.get _ (32 * l + i) = _
      dsimp only
      rw [Map.get_fill, if_pos (by omega)]
      unfold lineWord; congr 5; omega
    · intro h'; omega
    · intro h'; omega
    · intro r i hi hr
      show Map.get _ (32 * r + i) = Map.get _ (32 * r + i)
      dsimp only
      rw [Map.get_fill, if_neg (by omega)]
    · intro n hn hk
      exact statuses_other (fun e _ => .inl hk)
  · rw [setLine_high bs hl]
    refine ⟨rfl, Map.find?_ins_self _ _ _, rfl, ?_, ?_, ?_, ?_, ?_⟩
    · intro h'; omega
    · intro hl1 n hn hk hf
      dsimp only
      rw [statuses_other (fun e he => by by_cases hr : e.2.reg = some n; exact .inr (.inr (hf e he hr)); exact .inr (.inl hr))]
      rw [Map.get_fill, if_pos ((keyLine_iff hn hl1 h).1 hk)]
      rfl
    · intro _ n st hk he hf
      exact statuses_same hk hf (.inr he)
    · intro r i _ _; rfl
    · intro n hn hk
      dsimp only
      rw [statuses_other (fun e _ => .inl hk), Map.get_fill, if_neg (fun hh => hk ((keyLine_iff hn (by omega) h).2 hh))]

/-- Registers apart, a fill leaves of a warp all that decides whether it issues. -/
theorem filled_same {w w' : Warp} {l : Nat} {bs : List Byte} (h : Filled w w' l bs) :
    w'.block = w.block ∧ w'.trap = w.trap ∧ w'.paths = w.paths ∧ w'.run = w.run ∧ w'.active = w.active ∧ w'.role = w.role ∧
      w'.set = w.set ∧ w'.nv = w.nv ∧ w'.na = w.na ∧ w'.futs = w.futs ∧ w'.bad = w.bad ∧ w'.vatMap = w.vatMap ∧ w'.live = w.live ∧
      w'.preemptDue = w.preemptDue ∧ w'.tcause = w.tcause ∧ w'.tinfo = w.tinfo ∧ w'.idx = w.idx :=
  ⟨(congrArg Warp.block h.rest : _), (congrArg Warp.trap h.rest : _), (congrArg Warp.paths h.rest : _), (congrArg Warp.run h.rest : _),
    (congrArg Warp.active h.rest : _), (congrArg Warp.role h.rest : _), (congrArg Warp.set h.rest : _), (congrArg Warp.nv h.rest : _),
    (congrArg Warp.na h.rest : _), (congrArg Warp.futs h.rest : _), (congrArg Warp.bad h.rest : _), (congrArg Warp.vatMap h.rest : _),
    (congrArg Warp.live h.rest : _), (congrArg Warp.preemptDue h.rest : _), (congrArg Warp.tcause h.rest : _),
    (congrArg Warp.tinfo h.rest : _), (congrArg Warp.idx h.rest : _)⟩

theorem any_ins {α : Type} {l : List (Nat × α)} {k : Nat} {a b : α} (p : Nat × α → Bool) (hf : Map.find? l k = some b) (h : p (k, a) = p (k, b)) :
    (Map.ins l k a).any p = l.any p := by
  induction l with
  | nil => cases hf
  | cons e l ih =>
    obtain ⟨k', c⟩ := e
    unfold Map.find? at hf
    unfold Map.ins
    by_cases hk : k' = k
    · subst hk
      rw [if_pos rfl] at hf
      cases hf
      rw [if_neg (by omega), if_pos rfl, List.any_cons, List.any_cons, h]
    · rw [if_neg hk] at hf
      split
      · rw [List.any_cons, List.any_cons, h]
        have : ∀ l : List (Nat × α), Map.find? l k = some b → p (k, b) = true → l.any p = true := by
          intro l
          induction l with
          | nil => intro h; cases h
          | cons x l ih =>
            intro h1 h2
            unfold Map.find? at h1
            rw [List.any_cons]
            split at h1
            · next hx => cases h1; obtain ⟨x1, x2⟩ := x; cases hx; rw [h2, Bool.true_or]
            · rw [ih h1 h2, Bool.or_true]
        cases hp : p (k, b)
        · rw [Bool.false_or]
        · rw [this l hf hp, Bool.or_true, Bool.or_true]
      · rw [if_neg (Ne.symm hk), List.any_cons, List.any_cons, ih hf]

/-- The checks of item 4 of R67 that are no register numbers read no register: they are the window's, or of a set. -/
theorem reqOf_range {i : Instr} {q : Req} (h : reqOf i = some q) :
    2 ≤ q.sc ∨ q.range = (fun _ _ => none) ∨ ∃ n, q.range = fun m k => if windowLen m k ≤ n then some (.accrange, n) else none := by
  cases i <;> first
    | (cases h; done)
    | (cases h; exact .inr (.inl rfl))
    | (cases h; exact .inl (Nat.le_refl 2))
    | (cases h; exact .inr (.inr ⟨_, rfl⟩))
    | (cases h; right; left; simp only [selReq, loadReq, ldpReq, stReq, atomReq, casReq, computeReq, compareReq, memReq, tldReq, tstReq,
        jumpRegReq, tileReq, jxReq]; split <;> rfl)

/-- An access that misses comes to what its fill comes to. -/
theorem touchAll_miss {sc : Nat} {m : Mach} {us before after : List LineUse} (hu : us = before ++ after)
    (hb : ∀ x ∈ before, x.l ∈ (m.warp x.k).lines) : touchAll sc m us = touchAll sc m after := by
  subst hu
  induction before with
  | nil => rfl
  | cons x before ih =>
    show touchAll sc m (x :: (before ++ after)) = _
    rw [touchAll]
    unfold touchLine
    rw [if_pos (by simpa using hb x List.mem_cons_self)]
    exact ih (fun y hy => hb y (List.mem_cons_of_mem _ hy))

theorem lead_low {m : Mach} {sc : Nat} (h : sc < 2) (k : Nat) : m.lead sc k = k := by
  unfold Mach.lead
  match sc, h with
  | 0, _ => rfl
  | 1, _ => rfl

theorem accessed_low {q : Req} {m : Mach} (h : q.sc < 2) (k : Nat) :
    accessed q m [k] = m.scalarUses k true q.srcs ++ m.scalarUses k false q.also ++ (vectorUses k q.vecs ++ m.scalarUses k false q.dsts) := by
  unfold accessed
  rw [show [k].headD 0 = k from rfl, lead_low h]
  simp

theorem accessed_warp {q : Req} {m : Mach} (h : q.sc < 2) {k : Nat} {u : LineUse} (hu : u ∈ accessed q m [k]) : u.k = k := by
  rw [accessed_low h] at hu
  unfold Mach.scalarUses vectorUses at hu
  simp only [List.mem_append, List.mem_map] at hu
  rcases hu with (⟨_, _, rfl⟩ | ⟨_, _, rfl⟩) | (⟨_, _, rfl⟩ | ⟨_, _, rfl⟩) <;> rfl

/-- The machine after a fill of a line of warp k. -/
def fillMach (m : Mach) (k : Nat) (w : Warp) : Mach := (m.setWarp k w).count (m.ctxOf k) 1 1

section
variable {m : Mach} {k : Nat} {w : Warp} {l : Nat} {bs : List Byte}

theorem fillMach_warp : (fillMach m k w).warp k = w := by
  show ((m.setWarp k w).warp k) = w
  exact Mach.warp_setWarp_self m k w

theorem fillMach_block (b : Nat) : (fillMach m k w).block b = m.block b := rfl

theorem fillMach_ctx (c : Nat) : ((fillMach m k w).ctx c).st = (m.ctx c).st ∧ ((fillMach m k w).ctx c).holds = (m.ctx c).holds := by
  unfold fillMach Mach.count
  by_cases h : c = m.ctxOf k
  · subst h
    by_cases hs : (Map.find? m.ctxs (m.ctxOf k)).isSome
    · have := Mach.ctx_updCtx_self (m := m.setWarp k w) (k := m.ctxOf k) (fun x =>
        { x with counters := Map.ins x.counters 1 (min (2 ^ 64 - 1) ((Map.find? x.counters 1).getD 0 + 1)) }) hs
      rw [this]
      exact ⟨rfl, rfl⟩
    · have hn : Map.find? m.ctxs (m.ctxOf k) = none := by simpa using hs
      simp only [Mach.ctx, Mach.updCtx, Mach.setWarp, Map.find?_upd_self, hn]
      exact ⟨rfl, rfl⟩
  · have := Mach.ctx_updCtx_ne (m.setWarp k w) (fun x =>
        { x with counters := Map.ins x.counters 1 (min (2 ^ 64 - 1) ((Map.find? x.counters 1).getD 0 + 1)) }) h
    rw [this]
    exact ⟨rfl, rfl⟩

theorem fillMach_can (hf : Filled (m.warp k) w l bs) (h : canIssue m k = true) : canIssue (fillMach m k w) k = true := by
  obtain ⟨e1, e2, e3, e4, e5, -⟩ := filled_same hf
  unfold canIssue at *
  dsimp only at *
  rw [fillMach_warp, e1, e2, e3, e4, e5, fillMach_block, (fillMach_ctx _).1, (fillMach_ctx _).2]
  have : (Map.find? (fillMach m k w).warps k).isSome = true := by
    show (Map.find? (Map.ins m.warps k w) k).isSome = true
    rw [Map.find?_ins_self]; rfl
  rw [this]
  have h2 : (Map.find? m.warps k).isSome = true := by
    by_contra hc
    rw [Bool.not_eq_true] at hc
    rw [hc] at h
    simp at h
  rw [h2] at h
  exact h

theorem fillMach_checks {q : Req} (hf : Filled (m.warp k) w l bs) (hr : q.range m k = q.range (fillMach m k w) k) :
    checks q m k = none → checks q (fillMach m k w) k = none := by
  obtain ⟨e1, e2, e3, e4, e5, e6, e7, e8, -⟩ := filled_same hf
  have ep : w.path = (m.warp k).path := by unfold Warp.path; rw [e3]
  unfold checks
  dsimp only
  rw [fillMach_warp, e1, e2, ep, e6, e7, e8, fillMach_block]
  intro h
  split at h
  · cases h
  next h1 =>
  rw [if_neg h1]
  split at h
  · cases h
  next h2 =>
  rw [if_neg h2]
  split at h
  · cases h
  next h3 =>
  rw [if_neg h3]
  split at h
  · cases h
  next h4 =>
  rw [if_neg h4]
  split at h
  · cases h
  next h5 =>
  unfold rangeFault at *
  rw [← hr]
  rw [Option.map_eq_none_iff] at *
  exact h

theorem fillMach_range {i : Instr} {q : Req} (hq : reqOf i = some q) (hs : q.sc < 2) (hf : Filled (m.warp k) w l bs) :
    q.range m k = q.range (fillMach m k w) k := by
  rcases reqOf_range hq with h | h | ⟨n, h⟩
  · omega
  · rw [h]
  · rw [h]
    have : windowLen (fillMach m k w) k = windowLen m k := by
      obtain ⟨_, _, _, _, _, _, _, _, e9, _, _, e12, _⟩ := filled_same hf
      unfold windowLen
      dsimp only
      rw [fillMach_warp, e9, e12]
      rfl
    dsimp only
    rw [this]

theorem fillMach_operands {q : Req} (hs : (Map.find? m.warps k).isSome = true) (hf : Filled (m.warp k) w l bs)
    (h : operands q m k = none) : operands q (fillMach m k w) k = none := by
  obtain ⟨e1, e2, e3, e4, e5, e6, e7, e8, e9, e10, e11, e12, e13, e14, e15, e16, e17⟩ := filled_same hf
  have ek : w.sKey = (m.warp k).sKey := by funext f; unfold Warp.sKey; rw [e2]
  have epd : w.pending = (m.warp k).pending := by funext f; unfold Warp.pending; rw [e10, ek]
  have eb : badLine w q.vecs q.srcs = badLine (m.warp k) q.vecs q.srcs := by unfold badLine; rw [e11, ek]
  have er : w.reloads = (m.warp k).reloads := by unfold Warp.reloads; rw [e14, e2, e15, e16]
  have ea : arraysFrozen (fillMach m k w) k = arraysFrozen m k := by
    unfold arraysFrozen Mach.blockOf
    dsimp only
    rw [fillMach_warp, e1, fillMach_block, show (fillMach m k w).blocks = m.blocks from rfl]
    congr 1
    funext e
    congr 2
    show List.any ((Map.ins m.warps k w).filter _) _ = List.any (m.warps.filter _) _
    rw [List.any_filter, List.any_filter]
    obtain ⟨x, hx⟩ := Option.isSome_iff_exists.1 hs
    refine any_ins _ hx ?_
    have : m.warp k = x := by unfold Mach.warp; rw [hx]; rfl
    dsimp only
    rw [er, this]
  unfold operands at *
  dsimp only at *
  rw [fillMach_warp, ea, epd, eb, e2, show drainTargets (fillMach m k w) k = drainTargets m k from rfl]
  split at h
  · cases h
  next h1 =>
  rw [if_neg h1]
  split at h
  · cases h
  next h2 =>
  rw [if_neg h2]
  split at h
  · cases h
  next h3 =>
  rw [if_neg h3]
  rw [Option.map_eq_none_iff] at *
  exact h

end

theorem operands_good {q : Req} {m : Mach} {k : Nat} (h : operands q m k = none) : badLine (m.warp k) q.vecs q.srcs = none := by
  unfold operands at h
  dsimp only at h
  split at h
  · cases h
  split at h
  · cases h
  split at h
  · cases h
  rwa [Option.map_eq_none_iff] at h

/-- No operand holds an instruction that is let through. -/
theorem letThrough_good {q : Req} {s : State} (h : LetThrough q s) : badLine s.me q.vecs q.srcs = none := by
  obtain ⟨h1, h2, h3, h4⟩ := h
  unfold admission fillCurrent at h4
  rw [if_neg (by rw [show (s.m.warp s.cur).path.spilled = false from h2]; simp)] at h4
  dsimp only at h4
  rcases hc : checks q s.m s.cur with _ | f <;> rw [hc] at h4
  · dsimp only at h4
    rcases h3 with h3 | ⟨h3, hm⟩
    · rw [if_pos h3] at h4
      rcases ho : operands q s.m s.cur with _ | st <;> rw [ho] at h4
      · exact operands_good ho
      · cases h4
    · have g1 : gather s.m s.cur q.sc = .go (s.m.warp s.cur) := by
        unfold gather; exact if_pos hm
      rw [if_neg (by omega), g1] at h4
      dsimp only at h4
      rw [if_pos h3] at h4
      rcases ho : operands q (s.m.setWarp s.cur (s.m.warp s.cur)) s.cur with _ | st <;> rw [ho] at h4
      · have e2 : s.m.setWarp s.cur (s.m.warp s.cur) = s.m := by injection h4
        rw [e2] at ho
        exact operands_good ho
      · cases h4
  · cases h4

/-- Once its first miss is filled, an instruction accesses the lines that it would have accessed. -/
theorem fillMach_touch {q : Req} {m : Mach} {k : Nat} {w : Warp} {u : LineUse} {bs : List Byte} (hs : q.sc < 2) (hf : Filled (m.warp k) w u.l bs)
    {before after : List LineUse} (hu : accessed q m [k] = before ++ u :: after) (hb : ∀ x ∈ before, x.l ∈ (m.warp k).lines)
    (ht : touchLine q.sc m u = .ok (fillMach m k w)) : touch q m [k] = touch q (fillMach m k w) [k] := by
  have hk : ∀ x ∈ accessed q m [k], x.k = k := fun x hx => accessed_warp hs hx
  have hkey : w.sKey = (m.warp k).sKey := by
    funext f; unfold Warp.sKey; rw [(filled_same hf).2.1]
  have ha : accessed q (fillMach m k w) [k] = accessed q m [k] := by
    rw [accessed_low hs, accessed_low hs]
    unfold Mach.scalarUses
    rw [fillMach_warp, hkey]
  have hb1 : ∀ x ∈ before, x.l ∈ (m.warp x.k).lines := by
    intro x hx
    rw [hk x (by rw [hu]; exact List.mem_append_left _ hx)]
    exact hb x hx
  have hlines : w.lines = (m.warp k).lines ++ [u.l] := hf.lines
  have hb2 : ∀ x ∈ before ++ [u], x.l ∈ ((fillMach m k w).warp x.k).lines := by
    intro x hx
    have : x ∈ accessed q m [k] := by
      rw [hu]
      rcases List.mem_append.1 hx with hx | hx
      · exact List.mem_append_left _ hx
      · rw [List.mem_singleton.1 hx]; simp
    rw [hk x this, fillMach_warp, hlines]
    rcases List.mem_append.1 hx with hx | hx
    · exact List.mem_append_left _ (hb x hx)
    · rw [List.mem_singleton.1 hx]; simp
  unfold touch
  rw [touchAll_miss hu hb1, ha, hu, touchAll, ht, show before ++ u :: after = (before ++ [u]) ++ after by simp, touchAll_miss rfl hb2]

/-- A fill with room in the cache (06 R115, R116). -/
theorem fillLine_room {m : Mach} {k l : Nat} (hr : usedLines m (m.blockOf k).core < 6144) : fillLine m k l = lineFill m k l := by
  unfold fillLine
  have : makeLineRoom (m.blockOf k).ctx (m.blockOf k).core 1 64 m = m := by
    unfold makeLineRoom
    rw [if_pos (by omega)]
  dsimp only
  rw [this]

/-- The same instruction is let through once the line it missed is filled. -/
theorem fillMach_admission {i : Instr} {q : Req} {s : State} {w : Warp} {l : Nat} {bs : List Byte} (hq : reqOf i = some q)
    (h : LetThrough q s) (hf : Filled s.me w l bs) : admission q (fillMach s.m s.cur w) s.cur = .go (fillMach s.m s.cur w) [s.cur] := by
  obtain ⟨h1, h2, h3, h4⟩ := h
  have hs : q.sc < 2 := by omega
  have hp : w.path = (s.m.warp s.cur).path := by unfold Warp.path; rw [(filled_same hf).2.2.1]; rfl
  have hl : w.live = (s.m.warp s.cur).live := (congrArg Warp.live hf.rest : _)
  unfold admission fillCurrent at h4 ⊢
  rw [if_neg (by rw [show (s.m.warp s.cur).path.spilled = false from h2]; simp)] at h4
  rw [if_neg (by rw [fillMach_warp, hp, show (s.m.warp s.cur).path.spilled = false from h2]; simp)]
  dsimp only at h4 ⊢
  rcases hc : checks q s.m s.cur with _ | f
  · rw [hc] at h4
    rw [fillMach_checks hf (fillMach_range hq hs hf) hc]
    dsimp only at h4 ⊢
    rcases h3 with h3 | ⟨h3, hm⟩
    · rw [if_pos h3] at h4 ⊢
      rcases ho : operands q s.m s.cur with _ | st
      · rw [fillMach_operands (canIssue_here h1) hf ho]
      · rw [ho] at h4; cases h4
    · rw [if_neg (by omega)] at h4 ⊢
      have g1 : gather s.m s.cur q.sc = .go (s.m.warp s.cur) := by
        unfold gather; exact if_pos hm
      have g2 : gather (fillMach s.m s.cur w) s.cur q.sc = .go w := by
        unfold gather
        dsimp only
        rw [fillMach_warp, hp, hl]
        exact if_pos hm
      rw [g1] at h4
      rw [g2]
      dsimp only at h4 ⊢
      rw [if_pos h3] at h4 ⊢
      have e : (fillMach s.m s.cur w).setWarp s.cur w = fillMach s.m s.cur w := by
        unfold fillMach
        show ((s.m.setWarp s.cur w).setWarp s.cur w).count _ 1 1 = _
        rw [setWarp_setWarp]
      rw [e]
      rcases ho : operands q (s.m.setWarp s.cur (s.m.warp s.cur)) s.cur with _ | st
      · rw [ho] at h4
        have e2 : s.m.setWarp s.cur (s.m.warp s.cur) = s.m := by
          injection h4
        rw [e2] at ho
        rw [fillMach_operands (canIssue_here h1) hf ho]
      · rw [ho] at h4; cases h4
  · rw [hc] at h4; cases h4

end Sys2Proof.Machine
end

