-- ==== Sys2Proof/Laws/Operands.lean ====
section
/-!
SUPPORT. Lemmas: ill-formed operands and size codes.
-/

namespace Sys2Proof.Machine

theorem below_iff {a b : Word} (ha : ¬ IsNan a) (hb : ¬ IsNan b) : Below a b ↔ orderKey a < orderKey b := by
  unfold Below
  have k1 := key_lt ha hb
  have k2 := key_lt hb ha
  have : weight a = weight b ↔ realKey a = realKey b := by omega
  rw [this, ← k1]
  unfold orderKey realKey signedInt
  have xa : a.getLsbD 31 = false → a.toNat = a.toNat % 2^31 := by
    intro h; rw [BitVec.getLsbD, Nat.testBit_eq_decide_div_mod_eq] at h; have := a.isLt; simp at h; omega
  have xb : b.getLsbD 31 = false → b.toNat = b.toNat % 2^31 := by
    intro h; rw [BitVec.getLsbD, Nat.testBit_eq_decide_div_mod_eq] at h; have := b.isLt; simp at h; omega
  cases hsa : a.getLsbD 31 <;> cases hsb : b.getLsbD 31 <;> simp only [hsa, hsb, forall_true_left, reduceCtorEq, IsEmpty.forall_iff, if_true, if_false, Bool.false_eq_true, and_true, and_false, or_false, false_and] at xa xb ⊢ <;> omega

theorem isome {α : Type} : ¬ ((none : Option α).isSome = true) := by simp

theorem computeReq_words (i sc d a b c) : (computeReq i sc d a b c).words = 1 := by unfold computeReq; split <;> rfl

theorem compareReq_words (i sc a b) : (compareReq i sc a b).words = 1 := by unfold compareReq; split <;> rfl

theorem memReq_words (i sc d o h n w r) : (memReq i sc d o h n w r).words = 1 := by unfold memReq; split <;> rfl

theorem words_src {i : Instr} {p} (h : p ∈ predicateSources i) {q : Req} (hq : reqOf i = some q) : q.words = 1 := by
  cases i <;> first | exact (List.not_mem_nil h).elim | (cases hq; rfl)

theorem words_dst {i : Instr} {d} (h : predicateDestination i = some d) {q : Req} (hq : reqOf i = some q) : q.words = 1 := by
  cases i <;> first | exact (Option.some_ne_none _ h.symm).elim | (cases hq; first | rfl | exact compareReq_words ..)

theorem words_sized {i : Instr} {x} (h : sizedForm i = some x) {q : Req} (hq : reqOf i = some q) : q.words = 1 := by
  cases i <;> first | exact (Option.some_ne_none _ h.symm).elim | (cases hq; exact memReq_words ..)

theorem predSrc_false {p : BitVec 6} (h : 8 ≤ p.toNat) : predSrc p = false := by
  unfold predSrc; rw [decide_eq_false]; intro h'; have : p.toNat < 8 := h'; omega

theorem predDst_false {p : BitVec 6} (h : p.toNat = 0 ∨ 8 ≤ p.toNat) : predDst p = false := by
  unfold predDst
  rcases h with h | h
  · have : p = 0 := BitVec.eq_of_toNat_eq h
    subst this; rfl
  · rw [decide_eq_false]; · rfl
    intro h'; have : p.toNat < 8 := h'; omega

theorem pd_false {p : BitVec 3} (h : p.toNat = 0 ∨ 8 ≤ p.toNat) : (p != 0) = false := by
  have : p = 0 := BitVec.eq_of_toNat_eq (by have := p.isLt; show p.toNat = 0; omega)
  subst this; rfl

theorem and_l {a b : Bool} (h : a = false) : (a && b) = false := by rw [h]; rfl

theorem and_r {a b : Bool} (h : b = false) : (a && b) = false := by rw [h, Bool.and_false]

theorem src_wf {i : Instr} {p} (h : p ∈ predicateSources i) (h8 : 8 ≤ p.toNat) : i.wf = false := by
  have hp := predSrc_false h8
  cases i <;> try exact (List.not_mem_nil h).elim
  case p2v x => cases List.mem_singleton.mp h; exact and_r hp
  case pand x => rcases List.mem_pair.mp h with rfl | rfl; exact and_l (and_r hp); exact and_r hp
  case por x => rcases List.mem_pair.mp h with rfl | rfl; exact and_l (and_r hp); exact and_r hp
  case pxor x => rcases List.mem_pair.mp h with rfl | rfl; exact and_l (and_r hp); exact and_r hp
  case pnot x => cases List.mem_singleton.mp h; exact and_r hp
  case pgatEvery x => cases List.mem_singleton.mp h; exact hp
  case pgatSome x => cases List.mem_singleton.mp h; exact hp
  case pgatMask x => cases List.mem_singleton.mp h; exact hp

theorem dst_wf {i : Instr} {d} (hd : predicateDestination i = some d) (h : d = 0 ∨ 8 ≤ d) : i.wf = false := by
  cases i <;> try exact (Option.some_ne_none _ hd.symm).elim
  case v2p x => cases hd; exact predDst_false h
  case pand x => cases hd; exact and_l (and_l (predDst_false h))
  case por x => cases hd; exact and_l (and_l (predDst_false h))
  case pxor x => cases hd; exact and_l (and_l (predDst_false h))
  case pnot x => cases hd; exact and_l (predDst_false h)
  case icmp x => cases hd; exact and_l (pd_false h)
  case icmpi x => cases hd; exact pd_false h
  case fcmp x => cases hd; exact and_l (pd_false h)

theorem bnat_lt (bs : List Byte) : natOfBytes bs < 256 ^ bs.length := by
  induction bs with
  | nil => simp [natOfBytes]
  | cons b bs ih => have := b.isLt; simp only [natOfBytes, List.length_cons, pow_succ]; omega

theorem bytes_nat (bs : List Byte) (n : Nat) (h : bs.length = n) : bytesOfNat n (natOfBytes bs) = bs := by
  induction bs generalizing n with
  | nil => subst h; rfl
  | cons b bs ih =>
    subst h
    have hb := b.isLt
    simp only [natOfBytes, List.length_cons, bytesOfNat]
    rw [show (b.toNat + 256 * natOfBytes bs) / 256 = natOfBytes bs by omega, ih _ rfl]
    congr 1
    apply BitVec.eq_of_toNat_eq
    simp [BitVec.toNat_ofNat]
    omega

theorem back4 (bs : List Byte) (h : bs.length = 4) : bytesOfNat 4 (BitVec.ofNat 32 (natOfBytes bs)).toNat = bs := by
  have := bnat_lt bs
  rw [h] at this
  rw [BitVec.toNat_ofNat, Nat.mod_eq_of_lt (by norm_num at this ⊢; exact this)]
  exact bytes_nat bs 4 h

theorem one_word {n : Nat} {bs : List Byte} (hl : bs.length = n) (h4 : n ≤ 4) {x : Word} (hx : x ∈ wordsOfBytes 1 bs) : x.toNat = natOfBytes bs := by
  have hb := bnat_lt bs
  have : 256 ^ bs.length ≤ 256 ^ 4 := Nat.pow_le_pow_right (by decide) (by omega)
  simp only [wordsOfBytes, List.mem_map, List.mem_range] at hx
  obtain ⟨j, hj, rfl⟩ := hx
  obtain rfl : j = 0 := by omega
  rw [Nat.mul_zero, List.drop_zero, List.take_of_length_le (by omega), BitVec.toNat_ofNat, Nat.mod_eq_of_lt (by omega)]

theorem two_words {bs : List Byte} (hl : bs.length = 8) : (wordsOfBytes 2 bs).flatMap (fun x => bytesOfNat 4 x.toNat) = bs := by
  match bs, hl with
  | [a, b, c, d, e, f, g, h], _ =>
    have h1 := back4 [a, b, c, d] rfl
    have h2 := back4 [e, f, g, h] rfl
    show bytesOfNat 4 (BitVec.ofNat 32 (natOfBytes [a, b, c, d])).toNat ++ (bytesOfNat 4 (BitVec.ofNat 32 (natOfBytes [e, f, g, h])).toNat ++ []) = _
    rw [h1, h2]; rfl

theorem four_words {bs : List Byte} (hl : bs.length = 16) : (wordsOfBytes 4 bs).flatMap (fun x => bytesOfNat 4 x.toNat) = bs := by
  match bs, hl with
  | [a, b, c, d, e, f, g, h, i, j, k, l, m, n, o, p], _ =>
    have h1 := back4 [a, b, c, d] rfl
    have h2 := back4 [e, f, g, h] rfl
    have h3 := back4 [i, j, k, l] rfl
    have h4 := back4 [m, n, o, p] rfl
    show bytesOfNat 4 (BitVec.ofNat 32 (natOfBytes [a, b, c, d])).toNat ++ (bytesOfNat 4 (BitVec.ofNat 32 (natOfBytes [e, f, g, h])).toNat ++
      (bytesOfNat 4 (BitVec.ofNat 32 (natOfBytes [i, j, k, l])).toNat ++ (bytesOfNat 4 (BitVec.ofNat 32 (natOfBytes [m, n, o, p])).toNat ++ []))) = _
    rw [h1, h2, h3, h4]; rfl

theorem sx8 {x : Nat} (h : x < 256) : ((BitVec.ofNat 8 x).signExtend 32).toInt = Int.bmod x (2 ^ (8 * 1)) := by
  rw [BitVec.toInt_signExtend, BitVec.toInt_eq_toNat_bmod, BitVec.toNat_ofNat, Nat.mod_eq_of_lt (by omega)]
  simp

theorem sx16 {x : Nat} (h : x < 65536) : ((BitVec.ofNat 16 x).signExtend 32).toInt = Int.bmod x (2 ^ (8 * 2)) := by
  rw [BitVec.toInt_signExtend, BitVec.toInt_eq_toNat_bmod, BitVec.toNat_ofNat, Nat.mod_eq_of_lt (by omega)]
  simp

theorem size_rows (z : BitVec 3) (n r : Nat) (sx : Bool) (bs : List Byte) (hz : sizeRow z = some (n, r, sx)) (hl : bs.length = n) :
    accessBytes z.toNat = n ∧ regsOf z.toNat = r ∧ (extended z.toNat bs).length = r ∧
    (r = 1 → sx = false → ∀ x ∈ extended z.toNat bs, x.toNat = natOfBytes bs) ∧
    (sx = true → ∀ x ∈ extended z.toNat bs, x.toInt = Int.bmod (natOfBytes bs) (2 ^ (8 * n))) ∧
    (1 < r → (extended z.toNat bs).flatMap (fun x => bytesOfNat 4 x.toNat) = bs) := by
  have hb := bnat_lt bs
  have hz8 := z.isLt
  rw [hl] at hb
  unfold sizeRow at hz
  generalize z.toNat = k at *
  have no {P : Prop} : (1 : Nat) < 1 → P := by intro h; omega
  interval_cases k
  · cases hz; exact ⟨rfl, rfl, rfl, fun _ _ x hx => one_word hl (by decide) hx, fun h => Bool.noConfusion h, no⟩
  · cases hz; exact ⟨rfl, rfl, rfl, fun _ _ x hx => one_word hl (by decide) hx, fun h => Bool.noConfusion h, no⟩
  · cases hz; exact ⟨rfl, rfl, rfl, fun _ _ x hx => one_word hl (by decide) hx, fun h => Bool.noConfusion h, no⟩
  · cases hz; exact ⟨rfl, rfl, rfl, fun h => by omega, fun h => Bool.noConfusion h, fun _ => two_words hl⟩
  · cases hz; exact ⟨rfl, rfl, rfl, fun h => by omega, fun h => Bool.noConfusion h, fun _ => four_words hl⟩
  · cases hz; exact ⟨rfl, rfl, rfl, fun _ h => Bool.noConfusion h, fun _ x hx => by cases List.mem_singleton.mp hx; exact sx8 (by omega), no⟩
  · cases hz; exact ⟨rfl, rfl, rfl, fun _ h => Bool.noConfusion h, fun _ x hx => by cases List.mem_singleton.mp hx; exact sx16 (by omega), no⟩
  · cases hz

theorem sized_wf {i : Instr} {x} (hx : sizedForm i = some x) (h : (x.z != 7) = false ∨ sizeReg x.z x.d = false) : i.wf = false := by
  cases i <;> try exact (Option.some_ne_none _ hx.symm).elim
  case ld y => cases hx; exact h.elim (fun h => and_l (and_l h)) and_r
  case ldp y => cases hx; exact h.elim (fun h => and_l (and_l h)) and_r
  case ldr y => cases hx; exact h.elim (fun h => and_l (and_l h)) and_r
  case st y => cases hx; exact h.elim and_l and_r

end Sys2Proof.Machine
end

