-- ==== Sys2Proof/Tests/Slice0.lean ====
section
/-!
SUPPORT. Tests: words of the spec decoded, ill-formed operands refused, and for each statement a state and operands that meet
its hypotheses.
-/

namespace Sys2Proof.Tests

open Sys2Proof.Machine

set_option Elab.async false

/-- Warp 0 of block 0, in a running context, stands at word 1 of a clause of a class that stops at an offset. -/
def base (cls : Nat) (stop : Word) (f : Warp → Warp) : State :=
  let s := State.reset.withFetchWord 32 0
  { s with m := s.m.updWarp s.cur (fun w => f { w with paths := w.paths.map (fun p =>
      { p with pc := 4, clause := some { hdr := 0, word := 0, cls := cls, stop := stop } }) }) }

/-- The warp of `base` with offsets of the image from 0xA000 on in v2, the image handle 2 in s4 and an offset in s5. -/
def lane (f : Warp → Warp) : State := base 0 64 (fun w => f ((List.range 32).foldl
  (fun w i => w.setV 2 i (BitVec.ofNat 32 (0xA000 + 4 * i))) ((w.setS 4 2).setS 5 0xA000)))

/-- Predicate 1 reads 1 in lane 0 alone. -/
def split (w : Warp) : Warp := w.setP 1 1

/-- Further tables of the context: a counter handle 4 at 0xC000, the rank map's handle 6,
handle 7 of the image that atomics may use, layout 0 (64 rows of 4 FP32 of
handle 2) and group 0 of two ranks. -/
def tables (s : State) : State :=
  { s with m := [(0x20010, bytesOfNat 8 0x5000 ++ bytesOfNat 8 0x6000),
    (0x21080, bytesOfNat 8 0xC000 ++ bytesOfNat 8 0x40 ++ [4, 7, 0, 0]),
    (0x210C0, bytesOfNat 8 0x6800 ++ bytesOfNat 8 0x100 ++ [1, 1, 0, 0]),
    (0x210E0, bytesOfNat 8 0 ++ bytesOfNat 8 0x10000 ++ [1, 7, 0, 0]),
    (0x25000, bytesOfNat 2 2 ++ [2, 0] ++ bytesOfNat 2 64 ++ bytesOfNat 2 4 ++ bytesOfNat 4 4 ++ bytesOfNat 4 128),
    (0x25020, bytesOfNat 4 1 ++ bytesOfNat 4 4),
    (0x26000, bytesOfNat 2 2 ++ bytesOfNat 2 6 ++ bytesOfNat 4 5)].foldl (fun m e => m.poke (Space.dev.key e.1) e.2) s.m }

/-- Four such warps that make up the quad set 0, of which the other three have signed at the same word. -/
def quad (cls : Nat) (f : Warp → Warp) : State :=
  let s := tables (base cls 64 f)
  let w := s.m.warp 0
  let b := s.m.block 0
  let m := s.m.setBlock 0 { b with lr := { b.lr with nW := 4, slots := List.replicate 8 0x11 }, sets := [(0, { st := 2, size := 4, departed := 0, members := 0xF })] }
  let m := m.setWarp 0 { w with set := some 0 }
  { s with m := [1, 2, 3].foldl (fun m j => m.setWarp (warpKey 0 j)
    { w with idx := j, set := some 0, sig := some { y := 1, code := 3, pc := 4 } }) m }

/-- Does an instruction with the checks of q go ahead in s, in a launch that is not checked? -/
def goes (q : Req) (s : State) : Bool :=
  canIssue s.m s.cur &&
    (match admission q s.m s.cur with
     | .go m ms => !(m.blockOf s.cur).lr.checked && (lateFault q m ms).isNone &&
        (accessed q m ms).all (fun u => (m.warp u.k).lines.contains u.l)
     | _ => false)

/-- The machine and the members that the checks leave. -/
def left (q : Req) (s : State) : Mach := match admission q s.m s.cur with | .go m _ => m | _ => s.m
def members (q : Req) (s : State) : List Nat := match admission q s.m s.cur with | .go _ ms => ms | _ => []

theorem resident_ok {q : Req} {m : Mach} {ms : List Nat} (h : (accessed q m ms).all (fun u => (m.warp u.k).lines.contains u.l) = true) :
    Resident q m ms := by
  rw [List.all_eq_true] at h
  have key : ∀ u ∈ accessed q m ms, u.l ∈ (m.warp u.k).lines := fun u hu => by simpa using h u hu
  unfold accessed Mach.scalarUses vectorUses at key
  refine ⟨fun f hf => ?_, fun j hj r hr => ?_, fun j hj f hf => ?_⟩
  · rcases List.mem_append.1 hf with hf | hf
    · exact key _ (List.mem_append_left _ (List.mem_append_left _ (List.mem_map.2 ⟨f, hf, rfl⟩)))
    · exact key _ (List.mem_append_left _ (List.mem_append_right _ (List.mem_map.2 ⟨f, hf, rfl⟩)))
  · exact key _ (List.mem_append_right _ (List.mem_flatMap.2 ⟨j, hj, List.mem_append_left _ (List.mem_map.2 ⟨r, hr, rfl⟩)⟩))
  · exact key _ (List.mem_append_right _ (List.mem_flatMap.2 ⟨j, hj, List.mem_append_right _ (List.mem_map.2 ⟨f, hf, rfl⟩)⟩))

theorem goes_ok {q : Req} {s : State} (h : goes q s = true) : Goes q s (left q s) (members q s) := by
  unfold goes at h
  rw [Bool.and_eq_true] at h
  obtain ⟨h2, h3⟩ := h
  cases ha : admission q s.m s.cur with
  | go m ms =>
    rw [ha] at h3
    simp only [Bool.and_eq_true] at h3
    obtain ⟨⟨h4, h5⟩, h6⟩ := h3
    have e1 : left q s = m := by simp only [left, ha]
    have e2 : members q s = ms := by simp only [members, ha]
    rw [e1, e2]
    refine ⟨h2, ha, resident_ok h6, by simpa using h5, ?_⟩
    unfold separator
    dsimp only
    rw [if_pos (by rw [h4, Bool.true_or])]
  | _ => rw [ha] at h3; cases h3

/-- Does a computation of the model answer, and what? -/
def answers {α : Type} (e : Except Stop α) : Bool := match e with | .ok _ => true | .error _ => false
def got {α : Type} [Inhabited α] (e : Except Stop α) : α := match e with | .ok a => a | .error _ => default

theorem got_ok {α : Type} [Inhabited α] {e : Except Stop α} (h : answers e = true) : e = .ok (got e) := by
  cases e with
  | ok a => rfl
  | error _ => cases h

theorem got_pair {α β : Type} [Inhabited α] [Inhabited β] {e : Except Stop (α × β)} (h : answers e = true) : e = .ok ((got e).1, (got e).2) := by
  cases e with
  | ok a => rfl
  | error _ => cases h

theorem got_unit {e : Except Stop Unit} (h : answers e = true) : e = .ok () := by
  cases e with
  | ok a => rfl
  | error _ => cases h

/-- Does a computation of the model find something, and what? -/
def finds {α : Type} (e : Except Stop (Option α)) : Bool := match e with | .ok (some _) => true | _ => false
def found {α : Type} (d : α) (e : Except Stop (Option α)) : α := match e with | .ok (some a) => a | _ => d

theorem found_ok {α : Type} (d : α) {e : Except Stop (Option α)} (h : finds e = true) : e = .ok (some (found d e)) := by
  rcases e with _ | _ | a
  · cases h
  · cases h
  · rfl

theorem witness_IntegerForms : (∃ i f q r s m ms, pipeForm i = some f ∧ intResult i = some r ∧ reqOf i = some q ∧ f.sc = 0 ∧ Goes q s m ms) ∧
    (∃ i f q r s m ms, pipeForm i = some f ∧ intResult i = some r ∧ reqOf i = some q ∧ f.sc = 1 ∧
      uniform s.me f.g.toNat = some true ∧ Goes q s m ms) :=
  ⟨⟨.iadd ⟨0, 47, 2, 52, 0, 0⟩, _, _, _, lane id, _, _, rfl, rfl, rfl, rfl, goes_ok (by decide +kernel)⟩,
   ⟨.bfi ⟨1, 63, 4, 4, 0, 0⟩, _, _, _, lane id, _, _, rfl, rfl, rfl, rfl, by decide +kernel, goes_ok (by decide +kernel)⟩⟩


theorem witness_FloatForms : (∃ i f q r s m ms, pipeForm i = some f ∧ floatResult i = some r ∧ reqOf i = some q ∧ f.sc = 0 ∧ Goes q s m ms) ∧
    (∃ i f q r s m ms, pipeForm i = some f ∧ floatResult i = some r ∧ reqOf i = some q ∧ f.sc = 1 ∧
      uniform s.me f.g.toNat = some true ∧ Goes q s m ms) :=
  ⟨⟨.ffma ⟨0, 47, 2, 63, 3⟩, _, _, _, lane id, _, _, rfl, rfl, rfl, rfl, goes_ok (by decide +kernel)⟩,
   ⟨.f2e4 ⟨1, 63, 4, 3, 0, 0⟩, _, _, _, lane id, _, _, rfl, rfl, rfl, rfl, by decide +kernel, goes_ok (by decide +kernel)⟩⟩

theorem witness_WarpGuards : (∃ i g q s m ms, warpGuard i = some g ∧ reqOf i = some q ∧ Goes q s m ms ∧ uniform s.me g.toNat = some false) ∧
    (∃ i g q s m ms, warpGuard i = some g ∧ reqOf i = some q ∧ Goes q s m ms ∧ uniform s.me g.toNat = none) :=
  ⟨⟨.iadd ⟨1, 6, 4, 4, 0, 7⟩, _, _, lane id, _, _, rfl, rfl, goes_ok (by decide +kernel), by decide +kernel⟩,
   ⟨.scanAdd ⟨6, 2, 0, 1⟩, _, _, lane split, _, _, rfl, rfl, goes_ok (by decide +kernel), by decide +kernel⟩⟩

theorem witness_CompareForms : (∃ i f u q s m ms, cmpForm i = some (f, u) ∧ reqOf i = some q ∧ f.sc = 0 ∧ f.pd ≠ 0 ∧ Goes q s m ms) ∧
    (∃ i f u q s m ms, cmpForm i = some (f, u) ∧ reqOf i = some q ∧ f.sc = 1 ∧ f.pd ≠ 0 ∧ uniform s.me f.g.toNat = some true ∧ Goes q s m ms) :=
  ⟨⟨.fcmp ⟨0, 6, 7, 2, 48, 0, 1, 2⟩, _, _, _, lane split, _, _, rfl, rfl, rfl, by decide, goes_ok (by decide +kernel)⟩,
   ⟨.icmpi ⟨1, 7, 1, 4, 0xFFF⟩, _, _, _, lane id, _, _, rfl, rfl, rfl, by decide, by decide +kernel, goes_ok (by decide +kernel)⟩⟩

theorem witness_Select : (∃ x s m ms, Goes (selReq x) s m ms ∧ x.sc = 0) ∧
    (∃ x s m ms b, Goes (selReq x) s m ms ∧ x.sc = 1 ∧ uniform s.me x.g.toNat = some b) ∧
    (∃ x s m ms, Goes (selReq x) s m ms ∧ x.sc = 1 ∧ uniform s.me x.g.toNat = none) :=
  ⟨⟨⟨0, 47, 2, 63, 0, 1⟩, lane split, _, _, goes_ok (by decide +kernel), rfl⟩,
   ⟨⟨1, 6, 4, 5, 0, 0⟩, lane split, _, _, true, goes_ok (by decide +kernel), rfl, by decide +kernel⟩,
   ⟨⟨1, 6, 4, 5, 0, 1⟩, lane split, _, _, goes_ok (by decide +kernel), rfl, by decide +kernel⟩⟩

theorem witness_PredicateForms : (∃ i g d r q s m ms, predResult i = some (g, d, r) ∧ reqOf i = some q ∧ d ≠ 0 ∧ Goes q s m ms) ∧
    (∃ x q s m ms, reqOf (.p2v x) = some q ∧ Goes q s m ms) :=
  ⟨⟨.pnot ⟨7, 0, 1⟩, _, _, _, _, lane split, _, _, rfl, rfl, by decide, goes_ok (by decide +kernel)⟩,
   ⟨⟨47, 7, 0⟩, _, lane id, _, _, rfl, goes_ok (by decide +kernel)⟩⟩

theorem witness_LaneExchange : ∃ i form x q s m ms, xlnForm i = some (form, x) ∧ reqOf i = some q ∧
    uniform s.me x.g.toNat = some true ∧ Goes q s m ms :=
  ⟨.xlnFlip ⟨47, 2, 63, 0, 0⟩, _, _, _, lane id, _, _, rfl, rfl, by decide +kernel, goes_ok (by decide +kernel)⟩

theorem witness_PredicateGather : ∃ i g d r q s m ms, pgatResult i = some (g, d, r) ∧ reqOf i = some q ∧
    uniform s.me g.toNat = some true ∧ Goes q s m ms :=
  ⟨.pgatMask ⟨63, 1, 0⟩, _, _, _, _, lane split, _, _, rfl, rfl, by decide +kernel, goes_ok (by decide +kernel)⟩

theorem witness_Reductions : (∃ x i q s m ms, (i = .redxAdd x ∨ i = .redxSmin x ∨ i = .redxSmax x) ∧ reqOf i = some q ∧
      uniform s.me x.g.toNat = some true ∧ Goes q s m ms ∧ s.me.live ≠ 0) ∧
    (∃ x q s m ms, reqOf (.redxFadd x) = some q ∧ uniform s.me x.g.toNat = some true ∧ Goes q s m ms) :=
  ⟨⟨⟨63, 2, 0, 0⟩, .redxSmin ⟨63, 2, 0, 0⟩, _, lane id, _, _, by decide, rfl, by decide +kernel, goes_ok (by decide +kernel), by decide +kernel⟩,
   ⟨⟨63, 2, 0, 0⟩, _, lane id, _, _, rfl, by decide +kernel, goes_ok (by decide +kernel)⟩⟩

theorem witness_Scans : ∃ i x f e ex q s m ms, scanForm i = some (x, f, e, ex) ∧ reqOf i = some q ∧
    uniform s.me x.g.toNat = some true ∧ Goes q s m ms :=
  ⟨.scanXadd ⟨47, 2, 0, 0⟩, _, _, _, _, _, lane id, _, _, rfl, rfl, by decide +kernel, goes_ok (by decide +kernel)⟩

theorem witness_MinMaxRules : IsNan 0x7F800001 ∧ IsNan 0xFFFFFFFF ∧ ¬ IsNan 0x7F800000 ∧ ¬ IsNan 0x80000001 :=
  ⟨by unfold IsNan; decide +kernel, by unfold IsNan; decide +kernel, by unfold IsNan; decide +kernel, by unfold IsNan; decide +kernel⟩

theorem witness_Loads : (∃ i x u q s m ms ls, loadForm i = some (x, u) ∧ x.z ≠ 7 ∧ reqOf i = some q ∧ Goes q s m ms ∧ x.sc = 0 ∧
      memPlaces q m s.cur x.g.toNat x.o.toNat x.h.toNat u .read 0 (accessBytes x.z.toNat) = .ok ls ∧
      (∀ e ∈ ls, isExternal e.2.key = false ∧ s.m.poisonAt e.2.key (accessBytes x.z.toNat) = none)) ∧
    (∃ i x u q s m ms ls, loadForm i = some (x, u) ∧ x.z ≠ 7 ∧ reqOf i = some q ∧ Goes q s m ms ∧ x.sc = 1 ∧
      memPlaces q m s.cur x.g.toNat x.o.toNat x.h.toNat u .read 0 (accessBytes x.z.toNat) = .ok ls ∧
      (∀ e ∈ ls, isExternal e.2.key = false ∧ s.m.poisonAt e.2.key (accessBytes x.z.toNat) = none)) :=
  ⟨⟨.ldp ⟨0, 47, 2, 4, 2, 0⟩, _, _, _, lane id, _, _, _, rfl, by decide, rfl, goes_ok (by decide +kernel), rfl, rfl, by decide +kernel⟩,
   ⟨.ld ⟨1, 60, 5, 4, 4, 0⟩, _, _, _, lane id, _, _, _, rfl, by decide, rfl, goes_ok (by decide +kernel), rfl, rfl, by decide +kernel⟩⟩

/-- The block of `lane` holds its stores (10 R200). -/
def holdingBlock (s : State) : State :=
  { s with m := s.m.updBlock 0 (fun b => { b with lr := { b.lr with flags := 2 }, committed := false }) }

theorem witness_StoreForms : (∃ x s m ms ls, x.z ≠ 7 ∧ Goes (stReq x) s m ms ∧ (s.m.blockOf s.cur).holding = false ∧
      memPlaces (stReq x) m s.cur x.g.toNat x.o.toNat x.h.toNat .st .write 1 (accessBytes x.z.toNat) = .ok ls) ∧
    (∃ x s m ms ls, x.z ≠ 7 ∧ Goes (stReq x) s m ms ∧ (Map.find? s.m.blocks s.me.block).isSome = true ∧
      (s.m.blockOf s.cur).holding = true ∧
      memPlaces (stReq x) m s.cur x.g.toNat x.o.toNat x.h.toNat .st .write 1 (accessBytes x.z.toNat) = .ok ls ∧
      (∀ e ∈ ls, e.2.kind = 1 ∨ e.2.kind = 3 ∨ e.2.kind = 9) ∧ pailSectors (s.m.blockOf s.cur).pail + ls.length ≤ 1024) :=
  ⟨⟨⟨0, 63, 2, 4, 2, 0⟩, lane id, _, _, _, by decide, goes_ok (by decide +kernel), by decide +kernel, got_ok (by decide +kernel)⟩,
   ⟨⟨0, 63, 2, 4, 0, 1⟩, holdingBlock (lane split), _, _, _, by decide, goes_ok (by decide +kernel), by decide +kernel, by decide +kernel, got_ok (by decide +kernel),
    by decide +kernel, by decide +kernel⟩⟩

theorem witness_Atomics : ∃ i op x n f s m ms ls, atomForm i = some (op, x, n, f) ∧ Goes (atomReq i x op) s m ms ∧
    (s.m.blockOf s.cur).holding = false ∧
    memPlaces (atomReq i x op) m s.cur 0 x.o.toNat x.h.toNat (.atom op) .atomic 2 (4 * n) = .ok ls ∧
    (∀ e ∈ ls, isExternal e.2.key = false ∧ s.m.poisonAt e.2.key (4 * n) = none) :=
  ⟨.atomExch64 ⟨1, 62, 5, 4⟩, _, _, _, _, tables (lane (fun w => w.setS 4 7)), _, _, _, rfl, goes_ok (by decide +kernel), by decide +kernel, got_ok (by decide +kernel), by decide +kernel⟩

theorem witness_CompareAndSwap : ∃ x n s m ms ls, n = (if x.z = 0 then 1 else 2) ∧ Goes (casReq x) s m ms ∧
    (s.m.blockOf s.cur).holding = false ∧
    memPlaces (casReq x) m s.cur x.g.toNat x.o.toNat x.h.toNat .cas .atomic 2 (4 * n) = .ok ls ∧
    (∀ e ∈ ls, isExternal e.2.key = false ∧ s.m.poisonAt e.2.key (4 * n) = none) :=
  ⟨⟨0, 46, 2, 4, 0, 0⟩, _, tables (lane (fun w => w.setS 4 7)), _, _, _, rfl, goes_ok (by decide +kernel), by decide +kernel, got_ok (by decide +kernel), by decide +kernel⟩

theorem witness_Snapshot : ∃ x s m ms e, Goes (snapReq x) s m ms ∧ (s.m.blockOf s.cur).holding = false ∧
    memPlaces (snapReq x) m s.cur x.g.toNat x.o.toNat x.h.toNat .snap .snap 2 64 = .ok [e] ∧
    isExternal e.2.key = false ∧ s.m.poisonAt e.2.key 64 = none :=
  ⟨⟨47, 6, 4, 0⟩, tables (lane (fun w => w.setS 4 4)), _, _, _, goes_ok (by decide +kernel), by decide +kernel, rfl, by decide +kernel, by decide +kernel⟩

theorem witness_Fences : (∃ s m ms, Goes fenceEngReq s m ms ∧ ∀ c, c < 3 → s.me.counter c = 0) ∧
    (∃ s m ms, Goes fenceEngReq s m ms ∧ ∃ c, c < 3 ∧ s.me.counter c ≠ 0) ∧ (∃ s m ms, Goes fenceIoReq s m ms) :=
  ⟨⟨lane id, _, _, goes_ok (by decide +kernel), by decide +kernel⟩,
   ⟨lane (fun w => { w with cnt := [(2, 1)] }), _, _, goes_ok (by decide +kernel), 2, by decide, by decide +kernel⟩,
   ⟨lane id, _, _, goes_ok (by decide +kernel)⟩⟩

theorem witness_Transfers : (∃ i sc g call target c q s m ms, transferForm i = some (sc, g, call, target) ∧ reqOf i = some q ∧ Goes q s m ms ∧
      selected s.me sc g = some c ∧ (∀ n, n < 32 → c.getLsbD n = true → (target s.me n).toNat % 4 = 0) ∧
      roomFor s.me ((lanesOf c).map (target s.me)).dedup.length ∧ s.me.path.st = .runnable ∧ sc = 0 ∧ call = true ∧ c ≠ 0) ∧
    (∃ i sc g call target c q s m ms, transferForm i = some (sc, g, call, target) ∧ reqOf i = some q ∧ Goes q s m ms ∧
      selected s.me sc g = some c ∧ (∀ n, n < 32 → c.getLsbD n = true → (target s.me n).toNat % 4 = 0) ∧
      roomFor s.me ((lanesOf c).map (target s.me)).dedup.length ∧ s.me.path.st = .runnable ∧ sc = 1) :=
  ⟨⟨.callx ⟨0, 2, 0, 1⟩, _, _, _, _, _, _, base 0 8 (fun w => split (w.setV 2 0 16)), _, _, rfl, rfl, goes_ok (by decide +kernel), rfl, by decide +kernel,
    by unfold roomFor; decide +kernel, by decide +kernel, rfl, rfl, by decide +kernel⟩,
   ⟨.bra ⟨1, 0, 0xFFFFF⟩, _, _, _, _, _, _, base 0 8 id, _, _, rfl, rfl, goes_ok (by decide +kernel), rfl, by decide +kernel,
    by unfold roomFor; decide +kernel, by decide +kernel, rfl⟩⟩

/-- Lanes 1 to 31 stand on a second path of the warp, and both hang from record 7. -/
def forked (r : Rec) (w : Warp) : Warp :=
  { w with recs := [(7, r)], parks := 1, paths := w.paths.map (fun p => { p with mask := 1, inner := some 7 }) ++
      w.paths.map (fun p => { p with mask := 0xFFFFFFFE, inner := some 7, pc := 8 }) }

/-- A record that all lanes entered. -/
def entered (call : Bool) (arrival : Word) : Rec :=
  { call := call, addr := 0, entry := 0xFFFFFFFF, arrival := arrival, parent := none, spilled := false }

theorem witness_JoinRecords : (∃ x s m ms, Goes (jptReq x) s m ms ∧ roomFor s.me 0) ∧
    (∃ i k r q s m ms, (i = .join ∨ ∃ x, i = .ret x) ∧ reqOf i = some q ∧ Goes q s m ms ∧ s.me.path.inner = some k ∧
      Map.find? s.me.recs k = some r ∧ arrives i s.me r ∧ roomFor s.me 0 ∧ (∀ p ∈ s.me.paths.tail, p.park < s.me.parks) ∧
      (r.entry &&& s.me.live) &&& ~~~ (r.arrival ||| lanesAt s.me q.sc) = 0) ∧
    (∃ i k r q s m ms, (i = .join ∨ ∃ x, i = .ret x) ∧ reqOf i = some q ∧ Goes q s m ms ∧ s.me.path.inner = some k ∧
      Map.find? s.me.recs k = some r ∧ arrives i s.me r ∧ roomFor s.me 0 ∧ (∀ p ∈ s.me.paths.tail, p.park < s.me.parks) ∧
      (r.entry &&& s.me.live) &&& ~~~ (r.arrival ||| lanesAt s.me q.sc) ≠ 0 ∧ (∃ p ∈ s.me.paths.tail, p.st = .runnable) ∧ q.sc = 0) :=
  ⟨⟨⟨1, 4⟩, base 0 64 id, _, _, goes_ok (by decide +kernel), by unfold roomFor; decide +kernel⟩,
   ⟨.join, 7, entered false 0xFFFFFFFE, _, base 0 8 (forked (entered false 0xFFFFFFFE)), _, _, .inl rfl, rfl, goes_ok (by decide +kernel),
    by decide +kernel, by decide +kernel, ⟨rfl, _, rfl, by decide +kernel⟩, by unfold roomFor; decide +kernel, by decide +kernel, by decide +kernel⟩,
   ⟨.ret ⟨0⟩, 7, entered true 0, _, base 0 8 (forked (entered true 0)), _, _, .inr ⟨_, rfl⟩, rfl, goes_ok (by decide +kernel),
    by decide +kernel, by decide +kernel, rfl, by unfold roomFor; decide +kernel, by decide +kernel, by decide +kernel,
    by decide +kernel, rfl⟩⟩

theorem witness_Exits : (∃ x s m ms, Goes (exitTReq x) s m ms ∧ roomFor s.me 0 ∧ s.me.recs = [] ∧ (∃ p ∈ s.me.paths.tail, p.st = .runnable) ∧
      x.sc = 0 ∧ s.me.live &&& ~~~ s.me.path.mask ≠ 0) ∧
    (∃ x s m ms, Goes (exitTReq x) s m ms ∧ roomFor s.me 0 ∧ s.me.recs = [] ∧ lanesAt s.me x.sc.toNat = s.me.live ∧ s.me.trap = none ∧
      s.me.set = none ∧ s.me.sample = none ∧ ∀ w ∈ (s.m.blockOf s.cur).wides, w.reporter ≠ some s.cur) :=
  ⟨⟨⟨0⟩, base 0 8 (fun w => { forked (entered true 0) w with recs := [] }), _, _, goes_ok (by decide +kernel), by unfold roomFor; decide +kernel,
    by decide +kernel, by decide +kernel, rfl, by decide +kernel⟩,
   ⟨⟨1⟩, base 0 8 id, _, _, goes_ok (by decide +kernel), by unfold roomFor; decide +kernel, by decide +kernel, by decide +kernel,
    by decide +kernel, by decide +kernel, by decide +kernel, by decide +kernel⟩⟩

theorem witness_Turns : (∃ x s m ms, x.sc.toNat < 2 ∧ Goes (nopReq x) s m ms) ∧
    (∃ (p p' : Machine.Path) (r : List Machine.Path) (s : State) (m : Mach) (ms : List Nat), Goes pyieldReq s m ms ∧ s.me.paths = p :: p' :: r ∧
      p.spilled = false ∧ p.st = .runnable ∧ p'.st = .runnable) :=
  ⟨⟨⟨1⟩, lane id, _, _, by decide, goes_ok (by decide +kernel)⟩,
   ⟨_, _, _, base 0 64 (forked (entered true 0)), _, _, goes_ok (by decide +kernel), rfl, by decide +kernel, by decide +kernel, by decide +kernel⟩⟩

theorem witness_RendezvousIssue : (∃ i q s m ms, reqOf i = some q ∧ Goes q s m ms ∧ q.sc = 2 ∧ ms.length = 4 ∧
      ((s.m.blockOf s.cur).set (s.me.set.getD 0)).st ≠ 0 ∧ ((s.m.blockOf s.cur).set (s.me.set.getD 0)).st < 4) ∧
    (∃ i q s m ms, reqOf i = some q ∧ Goes q s m ms ∧ q.sc = 0 ∧
      ((s.m.blockOf s.cur).set (s.me.set.getD 0)).st ≠ 0 ∧ ((s.m.blockOf s.cur).set (s.me.set.getD 0)).st < 4) :=
  ⟨⟨.nop ⟨2⟩, _, quad 0 id, _, _, rfl, goes_ok (by decide +kernel), rfl, by decide +kernel, by decide +kernel, by decide +kernel⟩,
   ⟨.nop ⟨0⟩, _, quad 0 id, _, _, rfl, goes_ok (by decide +kernel), rfl, by decide +kernel, by decide +kernel⟩⟩

/-- The block of a state belongs to a gang of a number of blocks. -/
def ganged (n : Nat) (s : State) : State :=
  { s with m := s.m.updBlock 0 (fun b => { b with lr := { b.lr with flags := 8, gang := n } }) }

/-- A second block of the gang of block 0, whose warp has not exited. -/
def mate (s : State) : State :=
  { s with m := (s.m.setBlock 1 { s.m.block 0 with flat := 1 }).setWarp (warpKey 1 0) { s.m.warp 0 with block := 1 } }

theorem witness_Barriers : (∃ i q s m ms, barrierForm i = true ∧ reqOf i = some q ∧ Goes q s m ms ∧ ms.Nodup) ∧
    (∃ s m ms, Goes gbarReq s m ms ∧ ms.Nodup ∧ (m.block (m.warp (ms.headD 0)).block).lr.isGang = false) ∧
    (∃ s m ms, Goes gbarReq s m ms ∧ ms.Nodup ∧ (m.block (m.warp (ms.headD 0)).block).lr.isGang = true ∧
      ∀ e ∈ gangOf (m.updBlock 0 (fun b => { b with gbarHere := true })) (m.block 0),
        gbarArrived (m.updBlock 0 (fun b => { b with gbarHere := true })) (m.block 0).gbars e = true) ∧
    (∃ s m ms, Goes gbarReq s m ms ∧ ms.Nodup ∧ (m.block (m.warp (ms.headD 0)).block).lr.isGang = true ∧
      ∃ e ∈ gangOf (m.updBlock 0 (fun b => { b with gbarHere := true })) (m.block 0),
        gbarArrived (m.updBlock 0 (fun b => { b with gbarHere := true })) (m.block 0).gbars e = false) :=
  ⟨⟨.nop ⟨2⟩, _, quad 0 id, _, _, rfl, rfl, goes_ok (by decide +kernel), by decide +kernel⟩,
   ⟨base 3 64 id, _, _, goes_ok (by decide +kernel), by decide +kernel, by decide +kernel⟩,
   ⟨ganged 1 (base 3 64 id), _, _, goes_ok (by decide +kernel), by decide +kernel, by decide +kernel, by decide +kernel⟩,
   ⟨mate (ganged 2 (base 3 64 id)), _, _, goes_ok (by decide +kernel), by decide +kernel, by decide +kernel, by decide +kernel⟩⟩

/-- A warp in trap mode whose interrupted program is one path. -/
def inTrap (w : Warp) : Warp :=
  { w with trap := some { paths := w.paths, recs := [], tpcWritten := false, debug := false, susp := false, pass := false }, tpc := 8, lines := 50 :: w.lines }

/-- Set 2 forms with two warps, of which warp 1 has joined. -/
def forming (s : State) : State :=
  { s with m := s.m.updBlock 0 (fun b => { b with lr := { b.lr with nW := 2 }, sets := [(2, { st := 1, size := 2, departed := 0, members := 2 })] }) }

theorem witness_Sets : (∃ x s m ms, Goes (sjoinReq x) s m ms ∧ ((m.blockOf s.cur).set x.b.toNat).st < 4 ∧
      sjoinStatus (m.warp s.cur) (m.blockOf s.cur).lr.nW ((m.blockOf s.cur).set x.b.toNat) (2 ^ x.c.toNat) = 0) ∧
    (∃ x s m ms, Goes (sjoinReq x) s m ms ∧ ((m.blockOf s.cur).set x.b.toNat).st < 4 ∧
      sjoinStatus (m.warp s.cur) (m.blockOf s.cur).lr.nW ((m.blockOf s.cur).set x.b.toNat) (2 ^ x.c.toNat) ≠ 0) ∧
    (∃ x s m ms, Goes (sleaveReq x) s m ms ∧ (m.warp s.cur).trap.isSome = true) ∧
    (∃ x s m ms, Goes (sleaveReq x) s m ms ∧ (m.warp s.cur).trap.isSome = false ∧ (m.warp s.cur).set = none) ∧
    (∃ x s m ms, Goes (sleaveReq x) s m ms ∧ (m.warp s.cur).trap.isSome = false ∧ (m.warp s.cur).set.isSome = true ∧
      ∀ e ∈ m.ops, e.2.namesMember s.cur = false) ∧
    (∃ x s m ms, Goes (sinfoReq x) s m ms) :=
  ⟨⟨⟨10, 2, 1⟩, forming (base 3 64 id), _, _, goes_ok (by decide +kernel), by decide +kernel, by decide +kernel⟩,
   ⟨⟨10, 2, 2⟩, forming (base 3 64 id), _, _, goes_ok (by decide +kernel), by decide +kernel, by decide +kernel⟩,
   ⟨⟨10⟩, base 3 64 inTrap, _, _, goes_ok (by decide +kernel), by decide +kernel⟩,
   ⟨⟨10⟩, base 3 64 id, _, _, goes_ok (by decide +kernel), by decide +kernel, by decide +kernel⟩,
   ⟨⟨10⟩, quad 3 id, _, _, goes_ok (by decide +kernel), by decide +kernel, by decide +kernel, by decide +kernel⟩,
   ⟨⟨10, 63⟩, base 3 64 id, _, _, goes_ok (by decide +kernel)⟩⟩

/-- Tile t of a warp in a state. -/
def tiled (t st : Nat) (w : Warp) : Warp := w.setTile t { st := st, phase := false, holds := 0, pts := 0, rts := 0, bank := 0 }

theorem witness_TileAccess : (∃ x s m ms tr ls, Goes (tldReq x) s m ms ∧ tileAccess (tldReq x) x 6 m s.cur = .ok (tr, ls) ∧
      (∀ e ∈ ls, s.m.poisonAt (tileKey tr e.2) 4 = none) ∧ x.sc = 0) ∧
    (∃ x s m ms tr ls, Goes (tldReq x) s m ms ∧ tileAccess (tldReq x) x 6 m s.cur = .ok (tr, ls) ∧
      (∀ e ∈ ls, s.m.poisonAt (tileKey tr e.2) 4 = none) ∧ x.sc = 1) ∧
    (∃ x s m ms tr ls, Goes (tstReq x) s m ms ∧ tileAccess (tstReq x) x 7 m s.cur = .ok (tr, ls)) :=
  ⟨⟨⟨0, 8, 48, 4⟩, base 0 64 (fun w => tiled 3 2 (w.setS 4 3)), _, _, _, _,
    goes_ok (by decide +kernel), got_ok (by decide +kernel), by decide +kernel, rfl⟩,
   ⟨⟨1, 8, 5, 4⟩, base 0 64 (fun w => tiled 3 2 ((w.setS 4 3).setS 5 3068)), _, _, _, _,
    goes_ok (by decide +kernel), got_ok (by decide +kernel), by decide +kernel, rfl⟩,
   ⟨⟨0, 8, 48, 4⟩, base 0 64 (fun w => tiled 3 2 (w.setS 4 3)), _, _, _, _,
    goes_ok (by decide +kernel), got_ok (by decide +kernel)⟩⟩

theorem witness_TileInstructions : (∃ i c f q s m ms xs, tableForm i (headS m q.sc ms (markField i)) = some (c, f) ∧ reqOf i = some q ∧
      Goes q s m ms ∧ ms.Nodup ∧ tileRefs q m ms c.toNat = .ok xs ∧ markOk i (headS m q.sc ms (markField i)) ∧ ∀ x ∈ xs, (m.tileOf x).locked = false) ∧
    (∃ x s m ms xs, Goes (tstateReq x) s m ms ∧ ms.Nodup ∧ tileRefs (tstateReq x) m ms x.c.toNat = .ok xs) ∧
    (∃ x s m ms xs, Goes (awaitReq x) s m ms ∧ ms.Nodup ∧ tileRefs (awaitReq x) m ms x.c.toNat = .ok xs ∧ (headS m (awaitReq x).sc ms x.b.toNat).toNat < 4 ∧
      ∀ tr ∈ xs, if (headS m (awaitReq x).sc ms x.b.toNat).getLsbD 1 = true then (m.tileOf tr).st = 0 else (m.tileOf tr).phase = (headS m (awaitReq x).sc ms x.b.toNat).getLsbD 0) ∧
    (∃ x s m ms xs, Goes (awaitReq x) s m ms ∧ ms.Nodup ∧ tileRefs (awaitReq x) m ms x.c.toNat = .ok xs ∧ (headS m (awaitReq x).sc ms x.b.toNat).toNat < 4 ∧
      ¬ ∀ tr ∈ xs, if (headS m (awaitReq x).sc ms x.b.toNat).getLsbD 1 = true then (m.tileOf tr).st = 0 else (m.tileOf tr).phase = (headS m (awaitReq x).sc ms x.b.toNat).getLsbD 0) :=
  ⟨⟨.tmark ⟨2, 5, 4⟩, _, _, _, quad 0 (fun w => tiled 3 2 ((w.setS 4 3).setS 5 6)), _, _, _, rfl, rfl, goes_ok (by decide +kernel), by decide +kernel,
    got_ok (by decide +kernel), by unfold markOk; decide +kernel, by decide +kernel⟩,
   ⟨⟨1, 9, 4⟩, base 0 64 (fun w => tiled 3 1 (w.setS 4 3)), _, _, _, goes_ok (by decide +kernel), by decide +kernel, got_ok (by decide +kernel)⟩,
   ⟨⟨1, 5, 4⟩, base 0 64 (fun w => w.setS 5 2), _, _, _, goes_ok (by decide +kernel), by decide +kernel, got_ok (by decide +kernel), by decide +kernel, by decide +kernel⟩,
   ⟨⟨1, 5, 4⟩, base 0 64 (fun w => w.setS 5 1), _, _, _, goes_ok (by decide +kernel), by decide +kernel, got_ok (by decide +kernel), by decide +kernel, by decide +kernel⟩⟩

/-- Register s12 of a warp waits for the future of operation 0, which stands in the machine: class 0, started or not, ended or
not. -/
def futured (status : Option Nat) (started : Bool) (s : State) : State :=
  { s with m := (s.m.updWarp s.cur (fun w => { w with futs := [(3, { op := 0, cls := 0, status := status, reg := some 12, pts := 9 })] })).setOp 0 { (default : Op) with started := started } }

theorem witness_Futures : (∃ x s m ms, Goes (ftestReq x) s m ms ∧ futureNamed m s.cur x.b.toNat = none) ∧
    (∃ x s m ms e, Goes (ftestReq x) s m ms ∧ futureNamed m s.cur x.b.toNat = some e ∧ (m.futureOf e).status = none) ∧
    (∃ x s m ms e, Goes (ftestReq x) s m ms ∧ futureNamed m s.cur x.b.toNat = some e ∧ (m.futureOf e).status ≠ none) ∧
    (∃ x s m ms e, Goes (fcancelReq x) s m ms ∧ futureNamed m s.cur x.b.toNat = some e ∧ (m.futureOf e).status = none ∧
      (m.op (m.futureOf e).op).started = false ∧ (m.op (m.futureOf e).op).ended = none ∧ (m.op (m.futureOf e).op).cls ≠ 3) ∧
    (∃ x s m ms e, Goes (fcancelReq x) s m ms ∧ futureNamed m s.cur x.b.toNat = some e ∧ (m.futureOf e).status = none ∧
      (m.op (m.futureOf e).op).started = true) ∧
    (∃ x s m ms, Goes (fwaitReq x) s m ms ∧ futureNamed m s.cur x.b.toNat = none) ∧
    (∃ x s m ms e st, Goes (fwaitReq x) s m ms ∧ futureNamed m s.cur x.b.toNat = some e ∧ (m.futureOf e).status = some st) ∧
    (∃ x s m ms e, Goes (fwaitReq x) s m ms ∧ futureNamed m s.cur x.b.toNat = some e ∧ (m.futureOf e).status = none) ∧
    (∃ x s m ms, Goes (cwaitReq x) s m ms ∧ ms.Nodup ∧ ∀ j ∈ ms, (m.warp j).counter x.a.toNat ≤ x.b.toNat) ∧
    (∃ x s m ms, Goes (cwaitReq x) s m ms ∧ ms.Nodup ∧ ∃ j ∈ ms, x.b.toNat < (m.warp j).counter x.a.toNat) :=
  ⟨⟨⟨10, 12⟩, base 0 64 id, _, _, goes_ok (by decide +kernel), by decide +kernel⟩,
   ⟨⟨10, 12⟩, futured none true (base 0 64 id), _, _, (0, 3), goes_ok (by decide +kernel), by decide +kernel, by decide +kernel⟩,
   ⟨⟨10, 12⟩, futured (some 0) true (base 0 64 id), _, _, (0, 3), goes_ok (by decide +kernel), by decide +kernel, by decide +kernel⟩,
   ⟨⟨10, 12⟩, futured none false (base 0 64 id), _, _, (0, 3), goes_ok (by decide +kernel), by decide +kernel, by decide +kernel, by decide +kernel, by decide +kernel, by decide +kernel⟩,
   ⟨⟨10, 12⟩, futured none true (base 0 64 id), _, _, (0, 3), goes_ok (by decide +kernel), by decide +kernel, by decide +kernel, by decide +kernel⟩,
   ⟨⟨10, 12⟩, base 0 64 id, _, _, goes_ok (by decide +kernel), by decide +kernel⟩,
   ⟨⟨10, 12⟩, futured (some 5) true (base 0 64 id), _, _, (0, 3), _, goes_ok (by decide +kernel), by decide +kernel, rfl⟩,
   ⟨⟨10, 12⟩, futured none true (base 0 64 id), _, _, (0, 3), goes_ok (by decide +kernel), by decide +kernel, by decide +kernel⟩,
   ⟨⟨1, 2, 1⟩, base 0 64 (fun w => { w with cnt := [(2, 1)] }), _, _, goes_ok (by decide +kernel), by decide +kernel, by decide +kernel⟩,
   ⟨⟨2, 2, 0⟩, quad 0 (fun w => { w with cnt := [(2, 1)] }), _, _, goes_ok (by decide +kernel), by decide +kernel, by decide +kernel⟩⟩

set_option maxRecDepth 4096 in
theorem witness_Copies : ∃ x s m ms xs l e, Goes (copyReq x) s m ms ∧ ms.Nodup ∧ tileRefs (copyReq x) m ms x.tr.toNat = .ok xs ∧
    layoutOf m (m.warp (ms.headD 0)).block (m.fault (ms.headD 0) x.sc.toNat .handle) x.lay.toNat = .ok l ∧ x.cr.toNat + l.dims - 1 ≤ 63 ∧
    layoutHandle m (m.warp (ms.headD 0)).block (m.fault (ms.headD 0) x.sc.toNat .handle) l = .ok e ∧
    operands { copyReq x with vecs := [], srcs := rangeFrom x.cr.toNat l.dims } m (m.lead x.sc.toNat (ms.headD 0)) = none ∧
    (∀ r ∈ rangeFrom x.cr.toNat l.dims, keyLine ((m.warp (m.lead x.sc.toNat (ms.headD 0))).sKey r) ∈ (m.warp (m.lead x.sc.toNat (ms.headD 0))).lines) ∧
    transferChecks (m.blockOf (ms.headD 0)) (m.fault (ms.headD 0) x.sc.toNat .handle) l e (x.dir == 1)
      ((rangeFrom x.cr.toNat l.dims).map (fun r => (headS m x.sc.toNat ms r).toInt)) = .ok () ∧
    tilesFit m (x.dir == 1) ((plainParts x.sc.toNat (ms.headD 0) xs).map (fun p => (p.owner, p.tile))) ∧
    mustStall m 0 x.fu.toNat ms = none ∧ copyQueueFull m (m.blockOf (ms.headD 0)).core = false :=
  ⟨⟨1, 20, 1, 0, 1, 13, 12, 0⟩, tables (base 1 64 id), _, _, _, _, _, goes_ok (by decide +kernel), by decide +kernel, got_ok (by decide +kernel),
    got_ok (by decide +kernel), by decide +kernel, got_ok (by decide +kernel), by decide +kernel, by decide +kernel, got_unit (by decide +kernel),
    by unfold tilesFit; decide +kernel, by decide +kernel, by decide +kernel⟩

set_option maxRecDepth 4096 in
theorem witness_RowTransfers : ∃ i x out s m ms xs l e, rowForm i = some (x, out) ∧ Goes (gatherScatterReq i x) s m ms ∧ ms.Nodup ∧
    tileRefs (gatherScatterReq i x) m ms x.tr.toNat = .ok xs ∧
    layoutOf m (m.warp (ms.headD 0)).block (m.fault (ms.headD 0) x.sc.toNat .handle) x.lay.toNat = .ok l ∧
    l.dims = 2 ∧ (32 < l.rows → x.iv.toNat % 2 = 0 ∧ x.iv.toNat + 1 ≤ 47 ∧ ∀ j ∈ ms, x.iv.toNat + 1 < (m.warp j).nv) ∧
    layoutHandle m (m.warp (ms.headD 0)).block (m.fault (ms.headD 0) x.sc.toNat .handle) l = .ok e ∧
    (∀ j ∈ ms, operands { gatherScatterReq i x with vecs := rangeFrom x.iv.toNat (cdiv l.rows 32), srcs := [] } m j = none ∧
      ∀ r ∈ rangeFrom x.iv.toNat (cdiv l.rows 32), r ∈ (m.warp j).lines) ∧
    transferChecks (m.blockOf (ms.headD 0)) (m.fault (ms.headD 0) x.sc.toNat .handle) l e out [(headS m x.sc.toNat ms x.c0.toNat).toInt] = .ok () ∧
    tilesFit m out (((plainParts x.sc.toNat (ms.headD 0) xs).map (fun p => { p with idx := rowIndices (m.warp p.warp) x.iv.toNat l.rows })).map
      (fun p => (p.owner, p.tile))) ∧
    mustStall m 0 x.fu.toNat ms = none ∧ copyQueueFull m (m.blockOf (ms.headD 0)).core = false :=
  ⟨.scat ⟨1, 20, 0, 0, 8, 12, 0, 13⟩, _, _, tables (base 1 64 (tiled 0 2)), _, _, _, _, _, rfl, goes_ok (by decide +kernel), by decide +kernel,
    got_ok (by decide +kernel), got_ok (by decide +kernel), by decide +kernel, by decide +kernel, got_ok (by decide +kernel), by decide +kernel,
    got_unit (by decide +kernel), by unfold tilesFit; decide +kernel, by decide +kernel, by decide +kernel⟩

theorem witness_CollectiveIssue : ∃ x s m ms g e, Goes (collReq x) s m ms ∧ ms.Nodup ∧
    groupOf m (m.warp (ms.headD 0)).block (m.fault (ms.headD 0) (collReq x).sc .handle) x.grp.toNat = .ok (some g) ∧
    (headS m x.sc.toNat ms x.rb.toNat).toNat < g.ranks ∧
    bulkHandle m (m.warp (ms.headD 0)).block (m.fault (ms.headD 0) (collReq x).sc .handle) (headS m x.sc.toNat ms (x.rb.toNat + 1)).toNat = .ok e ∧
    bufferChecks (m.blockOf (ms.headD 0)) (m.fault (ms.headD 0) (collReq x).sc .handle) (headS m x.sc.toNat ms (x.rb.toNat + 1)).toNat
      (headS m x.sc.toNat ms (x.rb.toNat + 2)).toNat (collBytes x.kind.toNat x.fmt.toNat g.ranks (headS m x.sc.toNat ms (x.rb.toNat + 3)).toNat)
      (collSize x.fmt.toNat) 3 e = .ok () ∧
    mustStall m 1 x.fu.toNat ms = none ∧ collQueueFull m (m.blockOf (ms.headD 0)).core = false :=
  ⟨⟨1, 20, 0, 0, 0, 0, 0, 8⟩, tables (base 1 64 (fun w => (((w.setS 8 1).setS 9 2).setS 10 0xA000).setS 11 16)), _, _, _, _, goes_ok (by decide +kernel),
    by decide +kernel, found_ok { ranks := 0, handle := 0, timeout := 0, remote := false } (by decide +kernel), by decide +kernel, got_ok (by decide +kernel), got_ok (by decide +kernel), by decide +kernel, by decide +kernel⟩

/-- The format slots of the block hold a value. -/
def slotted (v : Word) (s : State) : State :=
  { s with m := s.m.updBlock 0 (fun b => { b with lr := { b.lr with slots := List.replicate 8 v } }) }

/-- A quad set whose members have tiles 0 and 1 ready. -/
def tiledQuad : State :=
  let s := quad 2 id
  { s with m := [0, 1, 2, 3].foldl (fun m j => m.updWarp (warpKey 0 j) (fun w => tiled 0 2 (tiled 1 2 w))) s.m }

/-- The scalar registers that a DRAIN with a slot reads. -/
def scaleRegs (x : FDRAIN) (slot : Word) : List Nat :=
  if slotRowScale slot = 1 ∨ slotColScale slot = 1 then (drainReq x).srcs ++ [x.sr.toNat] else (drainReq x).srcs

theorem witness_MatrixForms : (∃ x s m ms, Goes (mmaReq x) s m ms ∧ ms.Nodup ∧
      quadSet ((m.blockOf (ms.headD 0)).set ((m.warp (ms.headD 0)).set.getD 0)) = true ∧ slotOk ((m.blockOf (ms.headD 0)).fmtSlot x.slot.toNat) = true ∧
      fmtWidth (slotA ((m.blockOf (ms.headD 0)).fmtSlot x.slot.toNat)) = fmtWidth (slotB ((m.blockOf (ms.headD 0)).fmtSlot x.slot.toNat)) ∧
      (∀ t ∈ (m.allMembers 2 (ms.headD 0)).flatMap (fun j => (x.ta.toNat :: rangeFrom x.tb.toNat (mmaB x)).map (fun t => (j, t))), (m.tileOf t).st ≠ 0 ∧ (m.tileOf t).moving = false) ∧
      mustStall m 2 0 ms = none) ∧
    (∃ x s m ms target scale, Goes (drainReq x) s m ms ∧ drainOk x ((m.blockOf s.cur).fmtSlot x.slot.toNat) = true ∧
      (x.dk = 0 → x.d.toNat + drainRegs ((m.blockOf s.cur).fmtSlot x.slot.toNat) - 1 < (m.warp s.cur).nv) ∧
      operands { drainReq x with srcs := scaleRegs x ((m.blockOf s.cur).fmtSlot x.slot.toNat) } m s.cur = none ∧
      (∀ r ∈ scaleRegs x ((m.blockOf s.cur).fmtSlot x.slot.toNat), keyLine ((m.warp s.cur).sKey r) ∈ (m.warp s.cur).lines) ∧
      (x.dk = 0 → ∀ r ∈ rangeFrom x.d.toNat (drainRegs ((m.blockOf s.cur).fmtSlot x.slot.toNat)), r ∈ (m.warp s.cur).lines) ∧
      drainTiles (drainReq x) x ((m.blockOf s.cur).fmtSlot x.slot.toNat) m s.cur = .ok (target, scale) ∧
      accMark m s.cur (accSlot (m.warp s.cur).na x.acc.toNat) = none ∧ mustStall m 2 0 [s.cur] = none ∧ x.dk = 0) ∧
    (∃ x s m ms target scale, Goes (drainReq x) s m ms ∧ drainOk x ((m.blockOf s.cur).fmtSlot x.slot.toNat) = true ∧
      (x.dk = 0 → x.d.toNat + drainRegs ((m.blockOf s.cur).fmtSlot x.slot.toNat) - 1 < (m.warp s.cur).nv) ∧
      operands { drainReq x with srcs := scaleRegs x ((m.blockOf s.cur).fmtSlot x.slot.toNat) } m s.cur = none ∧
      (∀ r ∈ scaleRegs x ((m.blockOf s.cur).fmtSlot x.slot.toNat), keyLine ((m.warp s.cur).sKey r) ∈ (m.warp s.cur).lines) ∧
      (x.dk = 0 → ∀ r ∈ rangeFrom x.d.toNat (drainRegs ((m.blockOf s.cur).fmtSlot x.slot.toNat)), r ∈ (m.warp s.cur).lines) ∧
      drainTiles (drainReq x) x ((m.blockOf s.cur).fmtSlot x.slot.toNat) m s.cur = .ok (target, scale) ∧
      accMark m s.cur (accSlot (m.warp s.cur).na x.acc.toNat) = none ∧ mustStall m 2 0 [s.cur] = none ∧ x.dk = 1) ∧
    (∃ x s m ms, Goes (azeroReq x) s m ms ∧ ms.Nodup ∧ inWindow m ms (headS m x.sc.toNat ms x.a.toNat).toNat (x.b.toNat + 1) ∧ mustStall m 2 0 ms = none) ∧
    (∃ i x save s m ms e, imageForm i = some (x, save) ∧ Goes (accMoveReq i x) s m ms ∧ ms.Nodup ∧ (headS m x.sc.toNat ms x.c.toNat).toNat < 65536 ∧
      inWindow m ms ((headS m x.sc.toNat ms x.c.toNat).toNat % 1024) ((headS m x.sc.toNat ms x.c.toNat).toNat / 1024 % 64 + 1) ∧
      bulkHandle m (m.warp (ms.headD 0)).block (m.fault (ms.headD 0) (accMoveReq i x).sc .handle) (headS m x.sc.toNat ms x.a.toNat).toNat = .ok e ∧
      bufferChecks (m.blockOf (ms.headD 0)) (m.fault (ms.headD 0) (accMoveReq i x).sc .handle) (headS m x.sc.toNat ms x.a.toNat).toNat (headS m x.sc.toNat ms x.b.toNat).toNat
        ((withCounts m x.sc.toNat (ms.headD 0)).length * imageSize ((headS m x.sc.toNat ms x.c.toNat).toNat / 1024 % 64 + 1)) 128 (if save then 2 else 1) e = .ok () ∧ mustStall m 2 0 ms = none) ∧
    (∃ x s m ms, Goes (astatReq x) s m ms ∧ ms.Nodup ∧ inWindow m ms (headS m x.sc.toNat ms x.b.toNat).toNat 1 ∧
      ∀ j ∈ ms, ∀ e ∈ m.ops, e.2.writesAcc j (accSlot (m.warp j).na (headS m x.sc.toNat ms x.b.toNat).toNat) = false) :=
  ⟨⟨⟨1, 0, 0, 0, 1, 1, 0⟩, tiledQuad, _, _, goes_ok (by decide +kernel), by decide +kernel, by decide +kernel, by decide +kernel, by decide +kernel,
      by decide +kernel, by decide +kernel⟩,
   ⟨⟨8, 0, 0, 0, 0, 0, 0, 1, 2, 63⟩, slotted 0x11 (base 2 64 id), _, _, _, _, goes_ok (by decide +kernel), by decide +kernel, by decide +kernel,
    by decide +kernel, by decide +kernel, by decide +kernel, got_pair (by decide +kernel), by decide +kernel, by decide +kernel, rfl⟩,
   ⟨⟨8, 1, 0, 0, 0, 0, 0, 1, 2, 63⟩, slotted 0x1011 (base 2 64 (fun w => w.setS 8 3)), _, _, _, _, goes_ok (by decide +kernel), by decide +kernel, by decide +kernel,
    by decide +kernel, by decide +kernel, by decide +kernel, got_pair (by decide +kernel), by decide +kernel, by decide +kernel, rfl⟩,
   ⟨⟨1, 4, 3⟩, base 2 64 (fun w => w.setS 4 60), _, _, goes_ok (by decide +kernel), by decide +kernel, by unfold inWindow; decide +kernel, by decide +kernel⟩,
   ⟨.asave ⟨1, 4, 5, 6⟩, _, _, base 2 64 (fun w => (((w.setS 4 2).setS 5 0xA000).setS 6 0x43E)), _, _, _, rfl, goes_ok (by decide +kernel), by decide +kernel, by decide +kernel,
    by unfold inWindow; decide +kernel, got_ok (by decide +kernel), got_unit (by decide +kernel), by decide +kernel⟩,
   ⟨⟨1, 8, 4⟩, base 2 64 (fun w => w.setS 4 63), _, _, goes_ok (by decide +kernel), by decide +kernel, by unfold inWindow; decide +kernel, by decide +kernel⟩⟩

/-- A warp with the image handle 2 in s4, an offset in s5 and its tag or status in s6. -/
def addressed (w : Warp) : Warp := ((w.setS 4 2).setS 5 0xA000).setS 6 7

theorem witness_Samples : (∃ x s m ms e, Goes (sampleReq x) s m ms ∧
      bulkHandle m (m.warp s.cur).block (m.fault s.cur 1 .handle) ((m.warp s.cur).getS x.b.toNat).toNat = .ok e ∧
      bufferChecks (m.blockOf s.cur) (m.fault s.cur 1 .handle) ((m.warp s.cur).getS x.b.toNat).toNat ((m.warp s.cur).getS x.c.toNat).toNat 64 64 2 e = .ok () ∧
      bufferPages m (m.warp s.cur).block (m.fault s.cur 1 .handle) ((m.warp s.cur).getS x.b.toNat).toNat ((m.warp s.cur).getS x.c.toNat).toNat 64 .write e = .ok () ∧
      (m.warp s.cur).trap.isSome = true) ∧
    (∃ x s m ms e, Goes (sampleReq x) s m ms ∧
      bulkHandle m (m.warp s.cur).block (m.fault s.cur 1 .handle) ((m.warp s.cur).getS x.b.toNat).toNat = .ok e ∧
      bufferChecks (m.blockOf s.cur) (m.fault s.cur 1 .handle) ((m.warp s.cur).getS x.b.toNat).toNat ((m.warp s.cur).getS x.c.toNat).toNat 64 64 2 e = .ok () ∧
      bufferPages m (m.warp s.cur).block (m.fault s.cur 1 .handle) ((m.warp s.cur).getS x.b.toNat).toNat ((m.warp s.cur).getS x.c.toNat).toNat 64 .write e = .ok () ∧
      (m.warp s.cur).trap.isSome = false ∧ (m.warp s.cur).sample.isSome = true) ∧
    (∃ x s m ms e, Goes (sampleReq x) s m ms ∧
      bulkHandle m (m.warp s.cur).block (m.fault s.cur 1 .handle) ((m.warp s.cur).getS x.b.toNat).toNat = .ok e ∧
      bufferChecks (m.blockOf s.cur) (m.fault s.cur 1 .handle) ((m.warp s.cur).getS x.b.toNat).toNat ((m.warp s.cur).getS x.c.toNat).toNat 64 64 2 e = .ok () ∧
      bufferPages m (m.warp s.cur).block (m.fault s.cur 1 .handle) ((m.warp s.cur).getS x.b.toNat).toNat ((m.warp s.cur).getS x.c.toNat).toNat 64 .write e = .ok () ∧
      (m.warp s.cur).trap.isSome = false ∧ (m.warp s.cur).sample = none ∧ mustStall m 0 0 [s.cur] = none) :=
  ⟨⟨⟨10, 4, 5⟩, base 3 64 (fun w => inTrap (addressed w)), _, _, _, goes_ok (by decide +kernel), got_ok (by decide +kernel), got_unit (by decide +kernel), got_unit (by decide +kernel), by decide +kernel⟩,
   ⟨⟨10, 4, 5⟩, base 3 64 (fun w => { addressed w with sample := some (2, 0) }), _, _, _, goes_ok (by decide +kernel), got_ok (by decide +kernel), got_unit (by decide +kernel), got_unit (by decide +kernel), by decide +kernel, by decide +kernel⟩,
   ⟨⟨10, 4, 5⟩, base 3 64 addressed, _, _, _, goes_ok (by decide +kernel), got_ok (by decide +kernel), got_unit (by decide +kernel), got_unit (by decide +kernel), by decide +kernel, by decide +kernel, by decide +kernel⟩⟩

theorem witness_LaunchForms : (∃ x s m ms raw, Goes (launchReq x) s m ms ∧
      readRecord m (m.warp s.cur).block (m.fault s.cur 1 .handle) ((m.warp s.cur).getS x.b.toNat).toNat ((m.warp s.cur).getS x.c.toNat).toNat [] = .ok raw ∧
      mustStall m 3 x.a.toNat [s.cur] = none ∧ (m.warp s.cur).trap.isSome = true) ∧
    (∃ x s m ms raw0 slot raw bad, Goes (launchReq x) s m ms ∧
      readRecord m (m.warp s.cur).block (m.fault s.cur 1 .handle) ((m.warp s.cur).getS x.b.toNat).toNat ((m.warp s.cur).getS x.c.toNat).toNat [] = .ok raw0 ∧
      mustStall m 3 x.a.toNat [s.cur] = none ∧ (m.warp s.cur).trap.isSome = false ∧ freePending (m.ctx (m.blockOf s.cur).ctx) = some slot ∧
      readRecord (commit m s.cur) (m.warp s.cur).block ((commit m s.cur).fault s.cur 1 .handle) ((m.warp s.cur).getS x.b.toNat).toNat ((m.warp s.cur).getS x.c.toNat).toNat [] = .ok raw ∧
      malformed (commit m s.cur) (m.blockOf s.cur).ctx (m.blockOf s.cur).world (LaunchRec.ofBytes raw) = .ok bad) ∧
    (∃ x s m ms raw bad, Goes (armReq x) s m ms ∧
      readRecord m (m.warp s.cur).block (m.fault s.cur 1 .handle) ((m.warp s.cur).getS x.c.toNat).toNat ((m.warp s.cur).getS (x.c.toNat + 1)).toNat
        (if (m.blockOf s.cur).holding then (m.blockOf s.cur).pail else []) = .ok raw ∧
      malformed m (m.blockOf s.cur).ctx (m.blockOf s.cur).world (LaunchRec.ofBytes raw) = .ok bad) ∧
    (∃ x s m ms, Goes (disarmReq x) s m ms) :=
  ⟨⟨⟨20, 4, 5⟩, base 3 64 (fun w => inTrap (addressed w)), _, _, _, goes_ok (by decide +kernel), got_ok (by decide +kernel), by decide +kernel, by decide +kernel⟩,
   ⟨⟨20, 4, 5⟩, base 3 64 addressed, _, _, _, _, _, _, goes_ok (by decide +kernel), got_ok (by decide +kernel), by decide +kernel, by decide +kernel,
    (by decide +kernel : _ = some 0), got_ok (by decide +kernel), got_ok (by decide +kernel)⟩,
   ⟨⟨10, 6, 4⟩, base 3 64 addressed, _, _, _, _, goes_ok (by decide +kernel), got_ok (by decide +kernel), got_ok (by decide +kernel)⟩,
   ⟨⟨10, 6⟩, base 3 64 addressed, _, _, goes_ok (by decide +kernel)⟩⟩

/-- A second context runs without its teams, or the first has a posted deadline. -/
def contested (s : State) : State := { s with m := s.m.setCtx 7 { s.m.ctx 255 with holds := false } }
def posted (s : State) : State := { s with m := s.m.updCtx 255 (fun x => { x with yieldDl := some 0 }) }

theorem witness_ClocksAndYield : (∃ x s m ms, Goes (clkReq x) s m ms) ∧
    (∃ s m ms, Goes yieldReq s m ms ∧ (m.warp s.cur).trap.isSome = true) ∧
    (∃ s m ms, Goes yieldReq s m ms ∧ (m.warp s.cur).trap.isSome = false ∧ (m.ctx (m.ctxOf s.cur)).yieldDl = none ∧ competitors m (m.ctxOf s.cur) = []) ∧
    (∃ s m ms, Goes yieldReq s m ms ∧ (m.warp s.cur).trap.isSome = false ∧ (m.ctx (m.ctxOf s.cur)).yieldDl = none ∧ competitors m (m.ctxOf s.cur) ≠ []) ∧
    (∃ s m ms, Goes yieldReq s m ms ∧ (m.warp s.cur).trap.isSome = false ∧ (m.ctx (m.ctxOf s.cur)).yieldDl.isSome = true) :=
  ⟨⟨⟨10, 1⟩, base 3 64 id, _, _, goes_ok (by decide +kernel)⟩,
   ⟨base 0 64 inTrap, _, _, goes_ok (by decide +kernel), by decide +kernel⟩,
   ⟨base 0 64 id, _, _, goes_ok (by decide +kernel), by decide +kernel, by decide +kernel, by decide +kernel⟩,
   ⟨contested (base 0 64 id), _, _, goes_ok (by decide +kernel), by decide +kernel, by decide +kernel, by decide +kernel⟩,
   ⟨posted (base 0 64 id), _, _, goes_ok (by decide +kernel), by decide +kernel, by decide +kernel⟩⟩

theorem witness_SpecialRegisters : (∃ x s m ms, Goes (srdReq x) s m ms) ∧
    (∃ x s m ms, Goes (swrReq x) s m ms ∧ x.b = 4 ∧ ((m.warp s.cur).getS x.a.toNat).toNat < 4) ∧
    (∃ x s m ms, Goes (swrReq x) s m ms ∧ x.b = 5 ∧ ((m.warp s.cur).getS x.a.toNat).toNat < 32) ∧
    (∃ x s m ms, Goes (swrReq x) s m ms ∧ x.b = 33 ∧ ((m.warp s.cur).getS x.a.toNat).toNat % 4 = 0) ∧
    (∃ x s m ms, Goes (swrReq x) s m ms ∧ x.b ≠ 4 ∧ x.b ≠ 5 ∧ x.b ≠ 33) ∧
    (∃ x s m ms, Goes (swrReq x) s m ms ∧ x.b = 33 ∧ ((m.warp s.cur).getS x.a.toNat).toNat % 4 ≠ 0) :=
  ⟨⟨⟨10, 6⟩, base 3 64 id, _, _, goes_ok (by decide +kernel)⟩,
   ⟨⟨4, 4⟩, base 3 64 (fun w => w.setS 4 3), _, _, goes_ok (by decide +kernel), rfl, by decide +kernel⟩,
   ⟨⟨4, 5⟩, base 3 64 (fun w => w.setS 4 31), _, _, goes_ok (by decide +kernel), rfl, by decide +kernel⟩,
   ⟨⟨4, 33⟩, base 3 64 (fun w => inTrap (w.setS 4 8)), _, _, goes_ok (by decide +kernel), rfl, by decide +kernel⟩,
   ⟨⟨4, 6⟩, base 3 64 id, _, _, goes_ok (by decide +kernel), by decide, by decide, by decide⟩,
   ⟨⟨4, 33⟩, base 3 64 (fun w => inTrap (w.setS 4 6)), _, _, goes_ok (by decide +kernel), rfl, by decide +kernel⟩⟩

/-- More units of a class than a warp may have, or than its core can ever give it. -/
def Asks (m : Mach) (k cls n : Nat) : Prop :=
  (m.warp k).grow = none ∧ ((m.warp k).have cls + n > (if cls = 0 then 48 else if cls = 1 then 16 else 1024) ∨
    n + heldBy m (m.warp k).block cls + (((seatedOn m (m.blockOf k).core).filter (fun e => decide (e.2.age < (m.blockOf k).age))).map
      (fun e => heldBy m e.1 cls)).sum > capacity m (m.blockOf k).core cls)

/-- The units of a class are free and no older warp waits for that class. -/
def Mine (m : Mach) (k cls n : Nat) : Prop :=
  (∀ e ∈ waiters m (m.blockOf k).core cls, e.1 = k ∨ 32 * (m.blockOf k).age + (m.warp k).idx < e.2) ∧ n ≤ freeUnits m (m.blockOf k).core cls

theorem witness_Grow : (∃ x s m ms, Goes (growReq x) s m ms ∧ (m.warp s.cur).trap.isSome = true) ∧
    (∃ x s m ms, Goes (growReq x) s m ms ∧ (m.warp s.cur).trap.isSome = false ∧ (m.warp s.cur).granted = true) ∧
    (∃ x s m ms, Goes (growReq x) s m ms ∧ (m.warp s.cur).trap.isSome = false ∧ (m.warp s.cur).granted = false ∧
      Asks m s.cur x.b.toNat (poolUnits x.b.toNat x.c.toNat)) ∧
    (∃ x s m ms, Goes (growReq x) s m ms ∧ (m.warp s.cur).trap.isSome = false ∧ (m.warp s.cur).granted = false ∧
      ¬ Asks m s.cur x.b.toNat (poolUnits x.b.toNat x.c.toNat) ∧ Mine m s.cur x.b.toNat (poolUnits x.b.toNat x.c.toNat)) ∧
    (∃ x s m ms, Goes (growReq x) s m ms ∧ (m.warp s.cur).trap.isSome = false ∧ (m.warp s.cur).granted = false ∧
      ¬ Asks m s.cur x.b.toNat (poolUnits x.b.toNat x.c.toNat) ∧ ¬ Mine m s.cur x.b.toNat (poolUnits x.b.toNat x.c.toNat)) :=
  ⟨⟨⟨10, 1, 1⟩, base 3 64 inTrap, _, _, goes_ok (by decide +kernel), by decide +kernel⟩,
   ⟨⟨10, 1, 1⟩, base 3 64 (fun w => { w with grow := some (1, 1), granted := true }), _, _, goes_ok (by decide +kernel), by decide +kernel, by decide +kernel⟩,
   ⟨⟨10, 1, 1⟩, base 3 64 id, _, _, goes_ok (by decide +kernel), by decide +kernel, by decide +kernel, by unfold Asks; decide +kernel⟩,
   ⟨⟨10, 0, 1⟩, base 3 64 (fun w => { w with nv := 40 }), _, _, goes_ok (by decide +kernel), by decide +kernel, by decide +kernel,
    by unfold Asks; decide +kernel, by unfold Mine; decide +kernel⟩,
   ⟨⟨10, 0, 1⟩, mate (base 3 64 (fun w => { w with idx := 1, nv := 40, grow := some (0, 8) })), _, _, goes_ok (by decide +kernel), by decide +kernel,
    by decide +kernel, by unfold Asks; decide +kernel, by unfold Mine; decide +kernel⟩⟩

theorem witness_Shrink : (∃ x s m ms, Goes (shrinkReq x) s m ms ∧ (m.warp s.cur).trap.isSome = true) ∧
    (∃ x s m ms, Goes (shrinkReq x) s m ms ∧ (m.warp s.cur).trap.isSome = false ∧
      (m.warp s.cur).have x.b.toNat < poolUnits x.b.toNat x.c.toNat + (if x.b.toNat = 0 then 8 else 0)) ∧
    (∃ x s m ms, Goes (shrinkReq x) s m ms ∧ (m.warp s.cur).trap.isSome = false ∧
      poolUnits x.b.toNat x.c.toNat + (if x.b.toNat = 0 then 8 else 0) ≤ (m.warp s.cur).have x.b.toNat ∧ inFlight m s.cur = 0 ∧
      tilesBusy (m.warp s.cur) = false) ∧
    (∃ x s m ms, Goes (shrinkReq x) s m ms ∧ (m.warp s.cur).trap.isSome = false ∧
      poolUnits x.b.toNat x.c.toNat + (if x.b.toNat = 0 then 8 else 0) ≤ (m.warp s.cur).have x.b.toNat ∧
      (inFlight m s.cur ≠ 0 ∨ tilesBusy (m.warp s.cur) = true)) :=
  ⟨⟨⟨10, 1, 1⟩, base 3 64 inTrap, _, _, goes_ok (by decide +kernel), by decide +kernel⟩,
   ⟨⟨10, 0, 6⟩, base 3 64 id, _, _, goes_ok (by decide +kernel), by decide +kernel, by decide +kernel⟩,
   ⟨⟨10, 0, 5⟩, base 3 64 id, _, _, goes_ok (by decide +kernel), by decide +kernel, by decide +kernel, by decide +kernel, by decide +kernel⟩,
   ⟨⟨10, 0, 5⟩, base 3 64 (fun w => w.setTile 3 { st := 2, phase := false, holds := 1, pts := 0, rts := 0, bank := 0 }), _, _, goes_ok (by decide +kernel), by decide +kernel,
    by decide +kernel, by decide +kernel⟩⟩

/-- A debugger is attached to the context. -/
def watched (s : State) : State := { s with m := s.m.poke (Space.dev.key 0x2003F) [2] }

/-- Has a record been written, and what does that leave? -/
def writes (r : RecordResult) : Bool := match r with | .written _ => true | _ => false
def written (r : RecordResult) : Mach := match r with | .written m => m | _ => Mach.reset

theorem written_ok {r : RecordResult} (h : writes r = true) : r = .written (written r) := by
  cases r with
  | written m => rfl
  | _ => cases h

theorem witness_TrapEntryRules : (∃ (m : Mach) (k : Nat) (f : FaultInfo) (m1 : Mach), (Map.find? m.warps k).isSome = true ∧ (m.warp k).trap = none ∧ f.cause ≠ .trapi ∧
      f.cause ≠ .brk ∧ f.cause ≠ .preempt ∧ putRecord m (m.ctxOf k) (recordBytes m 1 k f 0 (tclass (m.warp k) f.sc 0 0) 0) = .written m1) ∧
    (∃ (m : Mach) (k : Nat), (Map.find? m.warps k).isSome = true ∧ (m.warp k).trap.isSome = true) ∧
    (∃ x s m ms, Goes (trapReq x) s m ms ∧ (m.warp s.cur).trap = none) ∧
    (∃ x s m ms, Goes (trapReq x) s m ms ∧ (m.warp s.cur).trap.isSome = true) ∧
    (∃ x s m ms, Goes (brkReq x) s m ms ∧ (m.warp s.cur).trap = none ∧ debugged m (m.ctxOf s.cur) = false) ∧
    (∃ x s m ms m1, Goes (brkReq x) s m ms ∧ (m.warp s.cur).trap = none ∧ debugged m (m.ctxOf s.cur) = true ∧
      putRecord m (m.ctxOf s.cur) (recordBytes m 1 s.cur { m.fault s.cur 1 .brk with tpc := (m.warp s.cur).path.pc + 4, tinfo := (x : FBRK).code.setWidth 32 } 0
        (tclass (m.warp s.cur) 1 0 0) 0) = .written m1) ∧
    (∃ x s m ms, Goes (brkReq x) s m ms ∧ (m.warp s.cur).trap.isSome = true) :=
  ⟨⟨(base 3 64 id).m, 0, (base 3 64 id).m.fault 0 1 .align, _, by decide +kernel, by decide +kernel, by decide +kernel, by decide +kernel, by decide +kernel, written_ok (by decide +kernel)⟩,
   ⟨(base 3 64 inTrap).m, 0, by decide +kernel, by decide +kernel⟩,
   ⟨⟨1, 0x125⟩, base 3 64 id, _, _, goes_ok (by decide +kernel), by decide +kernel⟩,
   ⟨⟨0, 0x125⟩, base 3 64 inTrap, _, _, goes_ok (by decide +kernel), by decide +kernel⟩,
   ⟨⟨5⟩, base 3 64 id, _, _, goes_ok (by decide +kernel), by decide +kernel, by decide +kernel⟩,
   ⟨⟨5⟩, watched (base 3 64 id), _, _, _, goes_ok (by decide +kernel), by decide +kernel, by decide +kernel, written_ok (by decide +kernel)⟩,
   ⟨⟨5⟩, base 3 64 inTrap, _, _, goes_ok (by decide +kernel), by decide +kernel⟩⟩

theorem witness_TrapReturn : (∃ x s m ms tr p r, Goes (tretReq x) s m ms ∧ ((m.warp s.cur).getS x.a.toNat).toNat = 0 ∧ (m.warp s.cur).trap = some tr ∧ tr.paths = p :: r ∧
      (∀ p ∈ tr.paths, p.mask &&& (m.warp s.cur).live ≠ 0) ∧
      (∀ y ∈ (m.blockOf s.cur).wides, y.reporter ≠ some s.cur ∧ y.members.getLsbD (m.warp s.cur).idx = false) ∧ (m.warp s.cur).preemptDue = none) ∧
    (∀ n, n < 5 → ∃ x s m ms, Goes (tretReq x) s m ms ∧ ((m.warp s.cur).getS x.a.toNat).toNat = n) := by
  refine ⟨⟨⟨4⟩, base 3 64 inTrap, _, _, _, _, _, goes_ok (by decide +kernel), by decide +kernel, rfl, rfl, by decide +kernel, by decide +kernel, by decide +kernel⟩, ?_⟩
  intro n hn
  refine ⟨⟨4⟩, base 3 64 (fun w => { inTrap w with s := [(4, BitVec.ofNat 32 n)] }), _, _, goes_ok ?_, ?_⟩
  · exact (by decide +kernel : ∀ n < 5, goes (tretReq ⟨4⟩) (base 3 64 (fun w => { inTrap w with s := [(4, BitVec.ofNat 32 n)] })) = true) n hn
  · exact (by decide +kernel : ∀ n < 5, (((left (tretReq ⟨4⟩) (base 3 64 (fun w => { inTrap w with s := [(4, BitVec.ofNat 32 n)] }))).warp
      (base 3 64 (fun w => { inTrap w with s := [(4, BitVec.ofNat 32 n)] })).cur).getS 4).toNat = n) n hn

/-- A local vat of one unit with the name 5, resident on core 0. -/
def theVat : Vat :=
  { ctx := 255, name := 5, acc := false, size := 1, world := 0, backed := none, st := 0, primary := some 0, replicas := [], opens := [], writer := none, queue := [], stale := false, slots := [(0, 0)], tiles := [], target := none, saveOff := 0 }

/-- The package has that vat, changed, and room for others; the warp has its name in s8 and s9. -/
def withVat (f : Vat → Vat) (s : State) : State :=
  let m := (s.m.poke (Space.dev.key 0x20060) (bytesOfNat 8 0x100000)).updWarp s.cur (fun w => w.setS 8 5)
  { s with m := { m with vats := [(0, f theVat)], nextVat := 1 } }

/-- The block holds the vat by handle 4,064, as its writer. -/
def owned (v : Vat) : Vat := { v with opens := [0], writer := some 0 }
def holds (s : State) : State := { s with m := s.m.updBlock 0 (fun b => { b with vatH := [(0, (0, true))] }) }

theorem witness_VatNamesAndOpening : (∃ x s m ms, Goes (vopenReq x) s m ms ∧ ms.Nodup ∧ (m.warp (ms.headD 0)).trap.isSome = true) ∧
    (∃ x s m ms, Goes (vdropReq x) s m ms ∧ ms.Nodup ∧ (m.warp (ms.headD 0)).trap = none ∧ headPair m (vdropReq x).sc ms x.b.toNat = 0) ∧
    (∃ x s m ms, Goes (vqueryReq x) s m ms ∧ ms.Nodup ∧ (m.warp (ms.headD 0)).trap = none ∧ headPair m (vqueryReq x).sc ms x.b.toNat ≠ 0 ∧
      m.vatNamed (m.block (m.warp (ms.headD 0)).block).ctx (headPair m (vqueryReq x).sc ms x.b.toNat) = none) ∧
    (∃ x s m ms id v, Goes (vqueryReq x) s m ms ∧ ms.Nodup ∧ (m.warp (ms.headD 0)).trap = none ∧ headPair m (vqueryReq x).sc ms x.b.toNat ≠ 0 ∧
      m.vatNamed (m.blockOf (ms.headD 0)).ctx (headPair m (vqueryReq x).sc ms x.b.toNat) = some (id, v) ∧ v.world = (m.blockOf (ms.headD 0)).world) ∧
    (∃ x s m ms id v, Goes (vdupReq x) s m ms ∧ ms.Nodup ∧ ((headS m (vdupReq x).sc ms x.c.toNat).toNat < 32 ∨ (headS m (vdupReq x).sc ms x.c.toNat).toNat = 0xFF) ∧
      (m.warp (ms.headD 0)).trap = none ∧ headPair m (vdupReq x).sc ms x.b.toNat ≠ 0 ∧
      m.vatNamed (m.block (m.warp (ms.headD 0)).block).ctx (headPair m (vdupReq x).sc ms x.b.toNat) = some (id, v) ∧ v.world ≠ (m.block (m.warp (ms.headD 0)).block).world) :=
  ⟨⟨⟨0, 20, 8, 1⟩, withVat id (base 3 64 inTrap), _, _, goes_ok (by decide +kernel), by decide +kernel, by decide +kernel⟩,
   ⟨⟨0, 20, 10⟩, withVat id (base 3 64 id), _, _, goes_ok (by decide +kernel), by decide +kernel, by decide +kernel, by decide +kernel⟩,
   ⟨⟨1, 20, 8⟩, withVat (fun v => { v with name := 6 }) (base 3 64 id), _, _, goes_ok (by decide +kernel), by decide +kernel, by decide +kernel, by decide +kernel, by decide +kernel⟩,
   ⟨⟨0, 20, 8⟩, withVat id (base 3 64 id), _, _, 0, theVat, goes_ok (by decide +kernel), by decide +kernel, by decide +kernel, by decide +kernel, by decide +kernel, by decide +kernel⟩,
   ⟨⟨0, 20, 8, 12⟩, withVat (fun v => { v with world := 1 }) (base 3 64 id), _, _, 0, { theVat with world := 1 }, goes_ok (by decide +kernel), by decide +kernel, by decide +kernel,
    by decide +kernel, by decide +kernel, by decide +kernel, by decide +kernel⟩⟩

/-- A VOPEN of a vat of this world, outside trap mode. -/
def Opens (x : FVABC) (s : State) (m : Mach) (ms : List Nat) (id : Nat) (v : Vat) : Prop :=
  Goes (vopenReq x) s m ms ∧ ms.Nodup ∧ (m.warp (ms.headD 0)).trap = none ∧ headPair m (vopenReq x).sc ms x.b.toNat ≠ 0 ∧
    sought m (ms.headD 0) (headPair m (vopenReq x).sc ms x.b.toNat) = some (id, v) ∧ v.world = (m.block (m.warp (ms.headD 0)).block).world

theorem opens_ok {x : FVABC} {s : State} {id : Nat} {v : Vat} (h : goes (vopenReq x) s = true)
    (h2 : (decide (members (vopenReq x) s).Nodup && ((left (vopenReq x) s).warp ((members (vopenReq x) s).headD 0)).trap.isNone &&
      headPair (left (vopenReq x) s) (vopenReq x).sc (members (vopenReq x) s) x.b.toNat != 0 &&
      decide (sought (left (vopenReq x) s) ((members (vopenReq x) s).headD 0)
        (headPair (left (vopenReq x) s) (vopenReq x).sc (members (vopenReq x) s) x.b.toNat) = some (id, v)) &&
      v.world == ((left (vopenReq x) s).block ((left (vopenReq x) s).warp ((members (vopenReq x) s).headD 0)).block).world) = true) :
    Opens x s (left (vopenReq x) s) (members (vopenReq x) s) id v := by
  simp only [Bool.and_eq_true, decide_eq_true_eq, Option.isNone_iff_eq_none, bne_iff_ne, beq_iff_eq] at h2
  obtain ⟨⟨⟨⟨h1, h2⟩, h3⟩, h4⟩, h5⟩ := h2
  exact ⟨goes_ok h, h1, h2, h3, h4, h5⟩

/-- Device memory holds the header of the context and its image handle alone, mapped by one page of 1 GiB. -/
def plainMemory (image : Nat) (s : State) : State :=
  { s with m := [(0x10000, bytesOfNat 8 0x11001), (0x11000, [0xF]), (0x20000, bytesOfNat 8 0x10000 ++ bytesOfNat 8 0x8000), (0x20034, [3, 0, 2]), (0x20060, bytesOfNat 8 0x100000),
    (0x8040, bytesOfNat 8 image ++ bytesOfNat 8 0x1000000 ++ [1, 3])].foldl (fun m e => m.poke (Space.dev.key e.1) e.2) { s.m with mem := [] } }

/-- A traversal succeeds where every element does. -/
theorem mapM_ok {α β ε : Type} (f : α → Except ε β) (g : α → β) (l : List α) (h : ∀ a ∈ l, f a = .ok (g a)) : l.mapM f = .ok (l.map g) := by
  induction l with
  | nil => rfl
  | cons a l ih =>
    rw [List.mapM_cons, h a (List.mem_cons_self ..), ih (fun b hb => h b (List.mem_cons_of_mem _ hb))]
    rfl

/-- No table index of a small address is above 0. -/
theorem shifts (i : Nat) (hi : i < 4096) : i / 2 ^ 39 = 0 ∧ i / 2 ^ 30 = 0 ∧ i / 2 ^ 21 = 0 :=
  ⟨Nat.div_eq_of_lt (by omega), Nat.div_eq_of_lt (by omega), Nat.div_eq_of_lt (by omega)⟩

/-- The page of 1 GiB maps an address to itself. -/
theorem translate_plain (m : Mach) (i : Nat) (hi : i < 4096) (h1 : m.hdr 255 0 8 = 0x10000) (h2 : m.phys 0x10000 8 = 0x11001)
    (h3 : m.phys 0x11000 8 = 0xF) : Machine.translate m 255 .read i = .ok i := by
  obtain ⟨e1, e2, -⟩ := shifts i hi
  unfold Machine.translate
  rw [h1, if_neg (by decide)]
  simp only [levels, walk]
  rw [e1, e2]
  simp only [Nat.zero_mod, Nat.mul_zero, Nat.add_zero, h2]
  rw [if_neg (by decide), if_neg (by decide), if_neg (by decide)]
  simp only [show (0x11001 / 256 % 2 ^ 40 * 256 : Nat) = 0x11000 from by decide, h3]
  rw [if_neg (by decide), if_pos (by decide), if_neg (by decide), if_neg (by decide), if_neg (by decide), if_neg (by decide)]
  rw [show (0xF / 256 % 2 ^ 40 * 256 : Nat) = 0 from by decide, Nat.zero_add, Nat.mod_eq_of_lt (by omega)]

/-- Small addresses have one tag. -/
theorem tag_plain (m : Mach) (i : Nat) (hi : i < 4096) : m.tag i = m.tag 0 := by
  unfold Mach.tag
  rw [(shifts i hi).2.2, Nat.zero_div]

/-- An engine reads a byte of a handle that the page maps. -/
theorem engineKey_plain (m : Mach) (e : HEntry) (i : Nat) (h : Machine.translate m 255 .read i = .ok i) (ht : m.tag i = e.world) (hk : e.kind = 1) (hb : e.base = 0) :
    engineKey m 255 e .read (0 + i) = .ok (Space.dev.key i) := by
  unfold engineKey
  split
  · rename_i h6; exact absurd (hk.symm.trans h6) (by decide)
  · rename_i h6; exact absurd (hk.symm.trans h6) (by decide)
  · rw [hb, Nat.zero_add, Nat.zero_add, h]
    simp only [ht, if_true]

/-- And the bytes of a page. -/
theorem engineKeys_plain (m : Mach) (e : HEntry) (n : Nat) (h1 : m.hdr 255 0 8 = 0x10000) (h2 : m.phys 0x10000 8 = 0x11001)
    (h3 : m.phys 0x11000 8 = 0xF) (h4 : m.tag 0 = e.world) (hk : e.kind = 1) (hb : e.base = 0) (hn : n ≤ 4096) :
    ∃ ks, engineKeys m 255 e .read 0 n = .ok ks := by
  refine ⟨_, mapM_ok _ (fun i => Space.dev.key i) _ fun i hi => ?_⟩
  have hi : i < 4096 := Nat.lt_of_lt_of_le (List.mem_range.1 hi) hn
  exact engineKey_plain m e i (translate_plain m i hi h1 h2 h3) ((tag_plain m i hi).trans h4) hk hb

/-- The vat save area stands at 0 of such a memory. -/
def plainArea (m : Mach) : Bool :=
  match saveArea m 255 with
  | .ok e => decide (m.hdr 255 0 8 = 0x10000 ∧ m.phys 0x10000 8 = 0x11001 ∧ m.phys 0x11000 8 = 0xF ∧ m.tag 0 = e.world ∧ e.kind = 1 ∧ e.base = 0)
  | .error _ => false

/-- A local vat of one unit that stands in the vat save area of such a memory can be read. -/
theorem imageReads {m : Mach} {v : Vat} (hv : v.backed = none ∧ v.ctx = 255 ∧ v.saveOff = 0 ∧ v.acc = false ∧ v.size = 1)
    (h : plainArea m = true) : ∃ e r, saveArea m v.ctx = .ok e ∧ imageRead m v e = .ok r := by
  obtain ⟨hv1, hv2, hv3, hv4, hv5⟩ := hv
  unfold plainArea at h
  cases he : saveArea m 255 with
  | error x => rw [he] at h; cases h
  | ok e =>
    rw [he] at h
    obtain ⟨h1, h2, h3, h4, h5, h6⟩ := of_decide_eq_true h
    obtain ⟨ks, hk⟩ := engineKeys_plain m e v.imageBytes h1 h2 h3 h4 h5 h6 (by simp [Vat.imageBytes, hv4, hv5])
    refine ⟨e, (ks.map (fun k => (Mem.read m.mem k, m.poisonAt k 1)), ks), by rw [hv2, he], ?_⟩
    unfold imageRead Vat.imageOff
    rw [hv1, hv2]
    dsimp only
    rw [hv3, hk]
    rfl

/-- And filled on a core. -/
theorem fills {m : Mach} {bk id core slot : Nat} {f : FaultInfo} {v : Vat} (hv : v.backed = none ∧ v.ctx = 255 ∧ v.saveOff = 0 ∧ v.acc = false ∧ v.size = 1)
    (h : plainArea m = true) : ∃ m2, fillHere m bk f id v core slot = .ok m2 := by
  obtain ⟨e, r, he, hr⟩ := imageReads hv h
  refine ⟨fillCopy m id v core slot r, ?_⟩
  unfold fillHere
  rw [hv.1]
  dsimp only
  rw [he]
  change (Except.mapError (saveStop f) (imageRead m v e) >>= fun r => pure (fillCopy m id v core slot r)) = _
  rw [hr]
  rfl

theorem witness_VatOpening : (∃ x s m ms id v, Opens x s m ms id v ∧ v.acc = true ∧ (x.c.toNat = 0 ∨ (vopenReq x).sc = 3)) ∧
    (∃ x s m ms id v, Opens x s m ms id v ∧ ¬ (v.acc = true ∧ (x.c.toNat = 0 ∨ (vopenReq x).sc = 3)) ∧ v.st = 3) ∧
    (∃ x s m ms id v, Opens x s m ms id v ∧ ¬ (v.acc = true ∧ (x.c.toNat = 0 ∨ (vopenReq x).sc = 3)) ∧ v.st = 1) ∧
    (∃ x s m ms id v, Opens x s m ms id v ∧ v.acc = false ∧ v.st = 0 ∧ (m.block (m.warp (ms.headD 0)).block).vatHandle id = none ∧
      freeVatHandle (m.block (m.warp (ms.headD 0)).block) = some 0) :=
  ⟨⟨⟨0, 20, 8, 0⟩, withVat (fun v => { v with acc := true }) (base 3 64 id), _, _, 0, { theVat with acc := true }, opens_ok (by decide +kernel) (by decide +kernel), rfl, .inl rfl⟩,
   ⟨⟨0, 20, 8, 0⟩, withVat (fun v => { v with st := 3 }) (base 3 64 id), _, _, 0, { theVat with st := 3 }, opens_ok (by decide +kernel) (by decide +kernel), by decide, rfl⟩,
   ⟨⟨1, 20, 8, 3⟩, withVat (fun v => { v with st := 1 }) (base 3 64 id), _, _, 0, { theVat with st := 1 }, opens_ok (by decide +kernel) (by decide +kernel), by decide, rfl⟩,
   ⟨⟨1, 20, 8, 3⟩, withVat id (base 3 64 id), _, _, 0, theVat, opens_ok (by decide +kernel) (by decide +kernel), rfl, rfl, by decide +kernel, by decide +kernel⟩⟩

/-- The vat is in no core, and stands in the vat save area. -/
def emptied : State := plainMemory 0 (withVat (fun v => { v with st := 2, primary := none, slots := [] }) (base 3 64 id))

theorem witness_VatFill : ∃ x s m ms id v slot m2, Opens x s m ms id v ∧ v.acc = false ∧ v.st = 2 ∧ freeVatHandle (m.block (m.warp (ms.headD 0)).block) = some 0 ∧
    vatRoom m (m.block (m.warp (ms.headD 0)).block).core v.acc v.size = true ∧ freeSlot m (m.block (m.warp (ms.headD 0)).block).core = some slot ∧
    fillHere m (m.warp (ms.headD 0)).block (m.fault (ms.headD 0) (vopenReq x).sc .handle) id v (m.block (m.warp (ms.headD 0)).block).core slot = .ok m2 := by
  obtain ⟨m2, h⟩ := fills (bk := 0) (id := 0) (core := 0) (slot := 0) (f := (left (vopenReq ⟨0, 20, 8, 1⟩) emptied).fault 0 1 .handle)
    (v := { theVat with st := 2, primary := none, slots := [] }) (m := left (vopenReq ⟨0, 20, 8, 1⟩) emptied) (by decide) (by decide +kernel)
  have hb : ((left (vopenReq ⟨0, 20, 8, 1⟩) emptied).warp ((members (vopenReq ⟨0, 20, 8, 1⟩) emptied).headD 0)).block = 0 := by decide +kernel
  have hk : (members (vopenReq ⟨0, 20, 8, 1⟩) emptied).headD 0 = 0 := by decide +kernel
  have hc : ((left (vopenReq ⟨0, 20, 8, 1⟩) emptied).block 0).core = 0 := by decide +kernel
  refine ⟨⟨0, 20, 8, 1⟩, emptied, _, _, 0, _, 0, m2, opens_ok (v := { theVat with st := 2, primary := none, slots := [] }) (by decide +kernel) (by decide +kernel),
    rfl, rfl, by decide +kernel, by decide +kernel, by decide +kernel, ?_⟩
  rw [hb, hk, hc]
  exact h

/-- A warp with the name 5 in s8 and a descriptor, with a backing image in handle 2, in s12 to s15. -/
def described (d : Word) (w : Warp) : Warp := (((w.setS 8 5).setS 12 d).setS 13 2).setS 14 0xA000

theorem witness_VatCreation : (∃ x s m ms, Goes (vcreateReq x) s m ms ∧ ms.Nodup ∧ (m.warp (ms.headD 0)).trap.isSome = true) ∧
    (∃ x s m ms, Goes (vcreateReq x) s m ms ∧ ms.Nodup ∧ (m.warp (ms.headD 0)).trap = none ∧ headPair m (vcreateReq x).sc ms x.b.toNat = 0) ∧
    (∃ x s m ms e h slot, Goes (vcreateReq x) s m ms ∧ ms.Nodup ∧ (m.warp (ms.headD 0)).trap = none ∧ headPair m (vcreateReq x).sc ms x.b.toNat ≠ 0 ∧
      descOk (headS m (vcreateReq x).sc ms x.c.toNat) = true ∧ headS m (vcreateReq x).sc ms (x.c.toNat + 3) = 0 ∧ descK (headS m (vcreateReq x).sc ms x.c.toNat) = false ∧ descL (headS m (vcreateReq x).sc ms x.c.toNat) = false ∧
      backingHandle m 0 (m.fault (ms.headD 0) (vcreateReq x).sc .handle) 2 0xA000 4096 3 0 = .ok e ∧
      (m.ctx (m.block 0).ctx).hasTeam (teamOf (m.block 0).core) = true ∧ m.vatNamed (m.block 0).ctx (headPair m (vcreateReq x).sc ms x.b.toNat) = none ∧
      freeVatHandle (m.block 0) = some h ∧ freeSlot m (m.block 0).core = some slot ∧ directoryFull m (m.block 0).ctx true 4096 = false ∧ vatRoom m (m.block 0).core false 1 = true) ∧
    (∃ x s m ms id v, Goes (vcreateReq x) s m ms ∧ ms.Nodup ∧ (m.warp (ms.headD 0)).trap = none ∧ headPair m (vcreateReq x).sc ms x.b.toNat ≠ 0 ∧
      descOk (headS m (vcreateReq x).sc ms x.c.toNat) = true ∧ headS m (vcreateReq x).sc ms (x.c.toNat + 3) = 0 ∧ descK (headS m (vcreateReq x).sc ms x.c.toNat) = false ∧ descB (headS m (vcreateReq x).sc ms x.c.toNat) = false ∧
      (m.ctx (m.block 0).ctx).hasTeam (teamOf (m.block 0).core) = true ∧ m.vatNamed (m.block 0).ctx (headPair m (vcreateReq x).sc ms x.b.toNat) = some (id, v)) :=
  ⟨⟨⟨0, 20, 8, 12⟩, base 3 64 (fun w => inTrap (described 1 w)), _, _, goes_ok (by decide +kernel), by decide +kernel, by decide +kernel⟩,
   ⟨⟨0, 20, 10, 12⟩, base 3 64 (described 1), _, _, goes_ok (by decide +kernel), by decide +kernel, by decide +kernel, by decide +kernel⟩,
   ⟨⟨0, 20, 8, 12⟩, base 3 64 (described 0x20001), _, _, _, 0, 0, goes_ok (by decide +kernel), by decide +kernel, by decide +kernel, by decide +kernel,
    by decide +kernel, by decide +kernel, by decide +kernel, by decide +kernel, got_ok (by decide +kernel), by decide +kernel, by decide +kernel, by decide +kernel,
    by decide +kernel, by decide +kernel, by decide +kernel⟩,
   ⟨⟨0, 20, 8, 12⟩, withVat id (base 3 64 (described 1)), _, _, 0, theVat, goes_ok (by decide +kernel), by decide +kernel, by decide +kernel, by decide +kernel,
    by decide +kernel, by decide +kernel, by decide +kernel, by decide +kernel, by decide +kernel, by decide +kernel⟩⟩

theorem witness_VatRoles : (∃ x s m ms, Goes (vhandReq x) s m ms ∧ ms.Nodup ∧ (m.warp (ms.headD 0)).trap = none ∧ (headS m (vhandReq x).sc ms x.b.toNat).toNat < 4064) ∧
    (∃ x s m ms id wr m2, Goes (vhandReq x) s m ms ∧ ms.Nodup ∧ (m.warp (ms.headD 0)).trap = none ∧ (headS m (vhandReq x).sc ms x.b.toNat).toNat = 4064 ∧
      Map.find? (m.block (m.warp (ms.headD 0)).block).vatH 0 = some (id, wr) ∧ (m.vat id).writer = some (m.warp (ms.headD 0)).block ∧ (m.vat id).acc = false ∧
      writeBack (vatStep (commit m (ms.headD 0)) ms (m.blockOf (ms.headD 0)).ctx (m.vat id).name true) (m.warp (ms.headD 0)).block (m.fault (ms.headD 0) (vhandReq x).sc .handle) id (m.vat id) = .ok m2) ∧
    (∃ x s m ms id v, Goes (vdropReq x) s m ms ∧ ms.Nodup ∧ (m.warp (ms.headD 0)).trap = none ∧ headPair m (vdropReq x).sc ms x.b.toNat ≠ 0 ∧
      m.vatNamed (m.block (m.warp (ms.headD 0)).block).ctx (headPair m (vdropReq x).sc ms x.b.toNat) = some (id, v) ∧ v.world = (m.block (m.warp (ms.headD 0)).block).world ∧
      v.st < 2 ∧ v.writer = some (m.warp (ms.headD 0)).block ∧ (∀ y ∈ v.opens, y = (m.warp (ms.headD 0)).block) ∧ v.acc = false) ∧
    (∃ x s m ms id v, Goes (vdupReq x) s m ms ∧ ms.Nodup ∧ (m.warp (ms.headD 0)).trap = none ∧ headPair m (vdupReq x).sc ms x.b.toNat ≠ 0 ∧ (headS m (vdupReq x).sc ms x.c.toNat).toNat = 0xFF ∧
      m.vatNamed (m.block (m.warp (ms.headD 0)).block).ctx (headPair m (vdupReq x).sc ms x.b.toNat) = some (id, v) ∧ v.world = (m.block (m.warp (ms.headD 0)).block).world ∧
      v.acc = false ∧ v.st = 0 ∧ v.writer = none ∧ v.replicas.length < 3 ∧ v.primary = some 0 ∧ (dupCore m s.p.isFenced v 0xFF).isSome = true) :=
  ⟨⟨⟨0, 20, 10⟩, withVat id (base 3 64 id), _, _, goes_ok (by decide +kernel), by decide +kernel, by decide +kernel, by decide +kernel⟩,
   ⟨⟨0, 20, 10⟩, holds (withVat owned (base 3 64 (fun w => w.setS 10 4064))), _, _, 0, true, _, goes_ok (by decide +kernel), by decide +kernel, by decide +kernel, by decide +kernel,
    by decide +kernel, by decide +kernel, by decide +kernel, got_ok (by decide +kernel)⟩,
   ⟨⟨0, 20, 8⟩, holds (withVat owned (base 3 64 id)), _, _, 0, owned theVat, goes_ok (by decide +kernel), by decide +kernel, by decide +kernel, by decide +kernel,
    by decide +kernel, by decide +kernel, by decide +kernel, by decide +kernel, by decide +kernel, by decide +kernel⟩,
   ⟨⟨0, 20, 8, 10⟩, { withVat id (base 3 64 (fun w => w.setS 10 0xFF)) with m := (withVat id (base 3 64 (fun w => w.setS 10 0xFF))).m.updCtx 255 (fun x => { x with teams := 3 }) },
    _, _, 0, theVat, goes_ok (by decide +kernel), by decide +kernel, by decide +kernel, by decide +kernel, by decide +kernel, by decide +kernel, by decide +kernel,
    by decide +kernel, by decide +kernel, by decide +kernel, by decide +kernel, by decide +kernel, by decide +kernel⟩⟩

/-- An operation of warp 0 of block 0. -/
def anOp (cls : Nat) (cmd : Cmd) : Op := { (default : Op) with cls := cls, cmd := cmd, ctx := 255, block := 0, issuers := [(0, none)], scope := 1 }

/-- Operations in flight. -/
def flying (l : List Op) (s : State) : State := { s with m := { s.m with ops := l.zipIdx.map (fun e => (e.2, e.1)), nextOp := l.length } }

/-- The image handle 2 as an entry, and one that maps nowhere. -/
def he2 (base : Nat) : HEntry := { (default : HEntry) with base := base, length := 0x10000, kind := 1, access := 3 }

/-- A sample operation, and a collective of group 0 for one rank of n. -/
def sampling (base : Nat) : Op := anOp 0 (.sample 2 0xA000 (he2 base) (bytesOfNat 64 0))
def collecting (kind rank n : Nat) : Op := { anOp 1 (.coll kind 0 0 0 rank n 0 4 2 0xA000 (he2 0)) with started := true }

/-- Has a computation of an engine failed, and how? -/
def ends {α β : Type} (e : Except β α) : Bool := match e with | .ok _ => true | .error _ => false
def after {α β : Type} (d : α) (e : Except β α) : α := match e with | .ok a => a | .error _ => d
def failure {α β : Type} (d : β) (e : Except β α) : β := match e with | .ok _ => d | .error b => b

theorem after_ok {α β : Type} (d : α) {e : Except β α} (h : ends e = true) : e = .ok (after d e) := by
  cases e with
  | ok a => rfl
  | error _ => cases h

theorem failure_ok {α β : Type} (d : β) {e : Except β α} (h : ends e = false) : e = .error (failure d e) := by
  cases e with
  | ok a => cases h
  | error _ => rfl

theorem witness_EngineEvents : (∃ (op : Nat) (s : State) (o : Op), Map.find? s.m.ops op = some o ∧ o.canStart s.m op = false) ∧
    (∃ (op : Nat) (s : State) (o : Op), Map.find? s.m.ops op = some o ∧ o.canStart s.m op = true ∧ o.cls = 1) ∧
    (∃ (op : Nat) (s : State) (o : Op) (r : Mach × Nat × Nat × Nat), Map.find? s.m.ops op = some o ∧ o.canStart s.m op = true ∧ o.cls ≠ 1 ∧ copyEffect (portServed s.m o) op o = .ok r) ∧
    (∃ (op : Nat) (s : State) (o : Op) (e : EngFail), Map.find? s.m.ops op = some o ∧ o.canStart s.m op = true ∧ o.cls ≠ 1 ∧ copyEffect (portServed s.m o) op o = .error e) ∧
    (∃ (op : Nat) (s : State) (o : Op) (st : Nat), Map.find? s.m.ops op = some o ∧ o.ended = some st ∧ o.behind s.m op = false) ∧
    (∃ (op : Nat) (s : State) (o : Op), Map.find? s.m.ops op = some o ∧ o.behind s.m op = true) ∧
    (∃ (s : State) (m : Mach), collReady (paired s.m 255 0 0) ((zerosOf s.m 255 0 0).map (·.1)) [] = true ∧
      (∀ w ∈ collWhats (paired s.m 255 0 0) (zerosOf s.m 255 0 0) [], w = (collWhats (paired s.m 255 0 0) (zerosOf s.m 255 0 0) []).headD (0, 0, 0, 0)) ∧ exchange s.m (paired s.m 255 0 0) [] = .ok m) ∧
    (∃ (s : State), collReady (paired s.m 255 0 0) ((zerosOf s.m 255 0 0).map (·.1)) [] = true ∧
      ¬ ∀ w ∈ collWhats (paired s.m 255 0 0) (zerosOf s.m 255 0 0) [], w = (collWhats (paired s.m 255 0 0) (zerosOf s.m 255 0 0) []).headD (0, 0, 0, 0)) ∧
    (∃ (s : State), collReady (paired s.m 255 0 0) ((zerosOf s.m 255 0 0).map (·.1)) [] = false) ∧
    (∃ (s : State) (id : Nat) (o : Op) (es : List (Nat × Op)) (g : GroupEntry), paired s.m 255 0 0 = (id, o) :: es ∧ groupOf s.m o.block default 0 = .ok (some g) ∧
      (g.remote = true ∨ (g.timeout ≠ 0 ∧ es.length + 1 + (zerosOf s.m 255 0 0).length < g.ranks))) ∧
    (∃ (op : Nat) (s : State) (o : Op) (m : Mach) (r : Mach × Nat), Map.find? s.m.ops op = some o ∧ o.cls = 2 ∧ o.held = none ∧ o.behind s.m op = false ∧ o.ended = none ∧
      arrayCheck s.m o = (m, none) ∧ matrixEffect m o = .ok r) ∧
    (∃ (op : Nat) (s : State) (o : Op) (st : Nat), Map.find? s.m.ops op = some o ∧ o.cls = 2 ∧ o.held = none ∧ o.behind s.m op = false ∧ o.ended = some st) :=
  ⟨⟨0, flying [{ sampling 0 with ended := some 0 }] (plainMemory 0 (base 0 64 id)), _, rfl, by decide +kernel⟩,
   ⟨0, flying [collecting 0 0 2] (plainMemory 0 (base 0 64 id)), _, rfl, by decide +kernel, rfl⟩,
   ⟨0, flying [sampling 0] (plainMemory 0 (base 0 64 id)), _, _, rfl, by decide +kernel, by decide, after_ok (default, 0, 0, 0) (by decide +kernel)⟩,
   ⟨0, flying [sampling 0x80000000] (plainMemory 0 (base 0 64 id)), _, _, rfl, by decide +kernel, by decide, failure_ok (.denied 0) (by decide +kernel)⟩,
   ⟨0, flying [{ sampling 0 with ended := some 0 }] (plainMemory 0 (base 0 64 id)), _, 0, rfl, rfl, by decide +kernel⟩,
   ⟨1, flying [sampling 0, sampling 0] (plainMemory 0 (base 0 64 id)), _, rfl, by decide +kernel⟩,
   ⟨flying [collecting 0 0 2, collecting 0 1 2] (plainMemory 0 (base 0 64 id)), _, by decide +kernel, by decide +kernel, after_ok default (by decide +kernel)⟩,
   ⟨flying [collecting 0 0 2, collecting 1 1 2] (plainMemory 0 (base 0 64 id)), by decide +kernel, by decide +kernel⟩,
   ⟨flying [collecting 0 0 2] (plainMemory 0 (base 0 64 id)), by decide +kernel⟩,
   ⟨flying [collecting 0 0 2] { tables (base 0 64 id) with m := (tables (base 0 64 id)).m.poke (Space.dev.key 0x26004) [5] }, 0, collecting 0 0 2, [], _, by decide +kernel,
    found_ok { ranks := 0, handle := 0, timeout := 0, remote := false } (by decide +kernel), by decide +kernel⟩,
   ⟨0, flying [anOp 2 (.azero 0 1 [(0, 64)])] (plainMemory 0 (base 0 64 id)), _, _, _, rfl, rfl, rfl, by decide +kernel, rfl, rfl, after_ok (default, 0) (by decide +kernel)⟩,
   ⟨0, flying [{ anOp 2 (.azero 0 1 [(0, 64)]) with ended := some 8 }] (plainMemory 0 (base 0 64 id)), _, 8, rfl, rfl, rfl, by decide +kernel, rfl⟩⟩

/-- Warp 1 of the block is parked; active warps fill the partition of warp 0 when asked to. -/
def parked (full : Bool) : State :=
  let s := base 3 64 id
  let m := s.m.setWarp (warpKey 0 4) { s.m.warp 0 with idx := 4, active := false }
  { s with m := if full = true then [8, 12, 16, 20, 24, 28, 31].foldl (fun m j => m.setWarp (warpKey 0 j) { s.m.warp 0 with idx := 4 * (j / 4), justActive := false }) m else m }

/-- A function with queue 0 on context 255 that holds one record at virtual address 0xA000, which reads zero. -/
def functioned (s : State) : State :=
  { s with p := { s.p with fns := [(0, { Fn.empty with enabled := true, queues := [(0, { base := 0xA000, entries := 16, sel := 255, prod := 1, cons := 0 })] })], boot := { s.p.boot with phase := .ready } } }

/-- The context has an unanswered record 4, or one that waits for room. -/
def asked (s : State) : State := { s with m := s.m.updCtx 255 (fun x => { x with services := [(4, { (default : Service) with va := 0xA000, base := 0xA000, size := 4096 })] }) }
def pent (s : State) : State := { s with m := s.m.updCtx 255 (fun x => { x with waiting := [bytesOfNat 64 3] }) }

/-- Core 3 holds a copy of sector 7 that it made at clock 5. -/
def copied : State :=
  { State.reset with m := { Mach.reset with clk := 5000, l1 := [(l1Set 3 7, [{ line := 3, stream := false, secs := [(1, { (default : Copy) with clk := 5 })] }])] } }

/-- The warp stands at the header of a safe point, and the debugger holds it there. -/
def atSafePoint : State :=
  let s := State.reset.withFetchWord 32 0
  { s with m := (s.m.poke (Space.dev.key 0x28000) [0x41, 0, 1, 0]).updWarp s.cur (fun w => { w with halt := true }) }

def isDebug (x : Fetch) : Bool := match x with | .debug _ => true | _ => false
def debugMach (x : Fetch) : Mach := match x with | .debug m => m | _ => Mach.reset

theorem debug_ok {x : Fetch} (h : isDebug x = true) : x = .debug (debugMach x) := by
  cases x with
  | debug m => rfl
  | _ => cases h

theorem witness_WarpEvents : (∃ (k : Nat) (w : Warp) (s : State), Map.find? s.m.warps k = some w ∧ w.active = false ∧ hasReady s k = true ∧
      (s.m.block w.block).seated = true ∧ (activeIn s.m (s.m.block w.block).core (w.idx % 4)).length < 8) ∧
    (∃ (k v : Nat) (w : Warp) (s : State), Map.find? s.m.warps k = some w ∧ w.active = false ∧ hasReady s k = true ∧ (s.m.block w.block).seated = true ∧
      8 ≤ (activeIn s.m (s.m.block w.block).core (w.idx % 4)).length ∧ v ∈ activeIn s.m (s.m.block w.block).core (w.idx % 4) ∧ (s.m.warp v).justActive = false ∧
      (∀ j ∈ activeIn s.m (s.m.block w.block).core (w.idx % 4), hasReady s j = true) ∧
      ∀ j ∈ activeIn s.m (s.m.block w.block).core (w.idx % 4), (s.m.warp j).justActive = false → ageOf s.m j ≤ ageOf s.m v) ∧
    (∃ (k : Nat) (w : Warp) (s : State), Map.find? s.m.warps k = some w ∧ w.active = true ∧ hasReady s k = true ∧ canIssue s.m k = true) ∧
    (∃ (k : Nat) (w : Warp) (s : State), Map.find? s.m.warps k = some w ∧ w.paths ≠ [] ∧ 4096 ≤ w.path.turn) ∧
    (∃ (k : Nat) (w : Warp) (s : State), Map.find? s.m.warps k = some w ∧ w.run = .ready ∧ w.path.runnable = true ∧ ∃ p ∈ w.paths.drop 1, p.runnable = true) ∧
    (∃ (core sec : Nat) (s : State) (c : Copy), s.m.l1Copy core sec = some c ∧ c.clk + 4096 ≤ s.m.clk) ∧
    (∃ s : State, s.m.rebaseDue = true) ∧
    (∃ (k : Nat) (w : Warp) (s : State) (m : Mach), Map.find? s.m.warps k = some w ∧ canIssue s.m k = true ∧ fetch s.m k = .debug m) ∧
    (∃ (core cls k age : Nat) (s : State), Map.find? s.m.frozen core = none ∧ minBy (·.2) (waiters s.m core cls) = some (k, age) ∧
      ((s.m.warp k).grow.getD (0, 0)).2 ≤ freeUnits s.m core cls) ∧
    (∃ (c : Nat) (x : Ctx) (s : State) (bs : List Byte) (rest : List (List Byte)) (m : Mach), Map.find? s.m.ctxs c = some x ∧ x.waiting = bs :: rest ∧
      putRecord s.m c (stampRecord bs) = .written m) ∧
    (∃ (c : Nat) (x : Ctx) (s : State) (k : Nat) (st : Stop), Map.find? s.m.ctxs c = some x ∧ x.waiting = [] ∧ queuedWarp s.m c = some (k, st) ∧ x.st = 1 ∧
      (s.m.hdr c 0x2C 4 + 2 ^ 32 - s.m.hdr c 0x30 4) % 2 ^ 32 < s.m.hdr c 0x28 4) ∧
    (∃ (fn c seq : Nat) (f : Fn) (x : Ctx) (sv : Service) (s : State), Map.find? s.p.fns fn = some f ∧ f.enabled = true ∧ ownCtx s.m fn c = some x ∧
      Map.find? x.services seq = some sv) ∧
    (∃ (s : State) (c : Nat), (s.m.ctx c).st = 1 ∧ (∃ k, k ∈ runningWarps s.m c) ∧ (Map.find? s.m.ctxs c).isSome = true) :=
  ⟨⟨warpKey 0 4, _, parked false, rfl, by decide +kernel, by decide +kernel, by decide +kernel, by decide +kernel⟩,
   ⟨warpKey 0 4, warpKey 0 31, _, parked true, rfl, by decide +kernel, by decide +kernel, by decide +kernel, by decide +kernel, by decide +kernel, by decide +kernel,
    by decide +kernel, by decide +kernel⟩,
   ⟨0, _, base 3 64 id, rfl, by decide +kernel, by decide +kernel, by decide +kernel⟩,
   ⟨0, _, base 3 64 (fun w => { w with paths := w.paths.map (fun p => { p with turn := 4096 }) }), rfl, by decide +kernel, by decide +kernel⟩,
   ⟨0, _, base 3 64 (fun w => { w with paths := w.paths ++ w.paths }), rfl, by decide +kernel, by decide +kernel, by decide +kernel⟩,
   ⟨3, 7, copied, _, rfl, by decide +kernel⟩,
   ⟨{ State.reset with m := { Mach.reset with rts := [(0, 2 ^ 47)] } }, by decide +kernel⟩,
   ⟨0, _, atSafePoint, _, rfl, by decide +kernel, debug_ok (by decide +kernel)⟩,
   ⟨0, 0, 0, 0, base 3 64 (fun w => { w with nv := 40, grow := some (0, 8) }), by decide +kernel, by decide +kernel, by decide +kernel⟩,
   ⟨255, _, pent (base 3 64 id), _, _, _, rfl, rfl, written_ok (by decide +kernel)⟩,
   ⟨255, _, base 3 64 (fun w => { w with run := .queued (.wait .fence) }), 0, .wait .fence, rfl, by decide +kernel, by decide +kernel, by decide +kernel, by decide +kernel⟩,
   ⟨0, 255, 4, _, _, _, asked (functioned (base 3 64 id)), rfl, rfl, rfl, rfl⟩,
   ⟨base 3 64 id, 255, by decide +kernel, ⟨0, by decide +kernel⟩, by decide +kernel⟩⟩

/-- A launch of two blocks of one warp, in a state. -/
def aLaunch (st : Nat) : Launch :=
  { (default : Launch) with lr := { placedRec with blocks := 2, cost := 0x1000, deps := [8, 0, 0, 0], spill := 0 }, st := st, ready := true }

/-- The context has that launch as number 5, changed; its signal handle 8 names a signal at 0xB000, which reads a value. -/
def launched (f : Launch → Launch) (st : Nat) (value : Nat) (s : State) : State :=
  let m := (s.m.poke (Space.dev.key 0x21100) (bytesOfNat 8 0xB000 ++ bytesOfNat 8 8 ++ [5, 7, 0, 0])).poke (Space.dev.key 0x2B000) (bytesOfNat 8 value)
  let m := m.poke (Space.dev.key 0x20050) (bytesOfNat 8 0x10000000)
  { s with m := m.updCtx 255 (fun x => { x with pend := [(5, f (aLaunch st))] }) }

/-- Block 0 belongs to launch 5. -/
def enlisted (f : Block → Block) (s : State) : State := { s with m := s.m.updBlock 0 (fun b => f { b with seq := 5, lr := { b.lr with cost := 0x1000 } }) }

/-- A context of a state changed. -/
def ctxed (f : Ctx → Ctx) (s : State) : State := { s with m := s.m.updCtx 255 f }

def isWaits (x : Spot) : Bool := match x with | .waits => true | _ => false

theorem waits_ok {x : Spot} (h : isWaits x = true) : x = .waits := by
  cases x with
  | waits => rfl
  | _ => cases h

theorem witness_LaunchEvents : (∃ (fn q : Nat) (f : Fn) (r : Ring) (x : Ctx) (slot : Nat) (s : State) (raw : List Byte) (bad : Bool), Map.find? s.p.fns fn = some f ∧
      Map.find? f.queues q = some r ∧ Map.find? s.m.ctxs r.sel = some x ∧ x.fn = fn ∧ x.st = 1 ∧ r.prod ≠ r.cons ∧ r.entries ≠ 0 ∧ freePending x = some slot ∧
      ringRead s.m r.sel (r.base + 256 * (r.cons % r.entries)) 256 = .ok raw ∧ malformed s.m r.sel x.world (LaunchRec.ofBytes raw) = .ok bad) ∧
    (∃ (c seq dep : Nat) (x : Ctx) (l : Launch) (key : Nat) (s : State), Map.find? s.m.ctxs c = some x ∧ Map.find? x.pend seq = some l ∧ l.st = 1 ∧ l.ready = true ∧ l.svc = [] ∧
      l.lr.deps.getD dep 0 ≠ 0 ∧ dep ∉ l.met ∧ x.st ≠ 3 ∧ signalPlace s.m c x.world (l.lr.deps.getD dep 0) = .ok key ∧ signalValue (engineLoads s.m l.pts [key]).1 key = 0) ∧
    (∃ (c seq dep : Nat) (x : Ctx) (l : Launch) (key : Nat) (s : State), Map.find? s.m.ctxs c = some x ∧ Map.find? x.pend seq = some l ∧ l.st = 1 ∧ l.ready = true ∧ l.svc = [] ∧
      l.lr.deps.getD dep 0 ≠ 0 ∧ dep ∉ l.met ∧ x.st ≠ 3 ∧ signalPlace s.m c x.world (l.lr.deps.getD dep 0) = .ok key ∧ signalValue (engineLoads s.m l.pts [key]).1 key < 0) ∧
    (∃ (c seq dep : Nat) (x : Ctx) (l : Launch) (key : Nat) (s : State), Map.find? s.m.ctxs c = some x ∧ Map.find? x.pend seq = some l ∧ l.st = 1 ∧ l.ready = true ∧ l.svc = [] ∧
      l.lr.deps.getD dep 0 ≠ 0 ∧ dep ∉ l.met ∧ x.st ≠ 3 ∧ signalPlace s.m c x.world (l.lr.deps.getD dep 0) = .ok key ∧ 0 < signalValue (engineLoads s.m l.pts [key]).1 key) ∧
    (∃ (c : Nat) (x : Ctx) (s : State), Map.find? s.m.ctxs c = some x ∧ x.st = 1 ∧ x.holds = true ∧ x.ask ≠ 1 ∧ x.ask ≠ 2 ∧ toFill s.m c = [] ∧
      (seatScan s.p s.m c none (dispatchOrder x)).isSome = true) ∧
    (∃ (bk : Nat) (b : Block) (s : State) (m1 : Mach), Map.find? s.m.blocks bk = some b ∧ b.seated = true ∧ blockComplete s.m bk = true ∧ (s.m.ctx b.ctx).st = 1 ∧
      (s.m.ctx b.ctx).devWait = [] ∧ Map.find? s.m.frozen b.core = none ∧ writerBacks (b.vatH.foldl (fun m e => vatStep m (((commit s.m (warpKey bk 0)).warpsOf bk).map (·.1)) b.ctx (m.vat e.2.1).name true) (commit s.m (warpKey bk 0))) bk = .ok m1) ∧
    (∃ (c seq : Nat) (x : Ctx) (l : Launch) (key : Nat) (s : State), Map.find? s.m.ctxs c = some x ∧ Map.find? x.pend seq = some l ∧ l.st = 2 ∧ l.svc = [] ∧ l.done = l.lr.blocks ∧
      launchBusy s.m c seq = false ∧ x.st ≠ 3 ∧ l.lr.done ≠ 0 ∧ signalPlace s.m c x.world l.lr.done = .ok key) ∧
    (∃ (c seq : Nat) (x : Ctx) (l : Launch) (id : Nat) (v : Vat) (flat : Nat) (flats : List Nat) (s : State), Map.find? s.m.ctxs c = some x ∧ Map.find? x.pend seq = some l ∧
      affinityVat s.m c l.lr = some (id, v) ∧ nextFlats s.m c seq l = flat :: flats ∧ l.st = 2 ∧ l.patience = false ∧ x.holds = true ∧ x.devWait = [] ∧
      spotFor s.m c seq flat l (allowedCores s.p s.m c l) = .waits ∧ v.opens ≠ []) :=
  ⟨⟨0, 0, _, _, _, 0, functioned (base 3 64 id), _, _, rfl, rfl, rfl, rfl, rfl, by decide, by decide, by decide +kernel, after_ok [] (by decide +kernel), got_ok (by decide +kernel)⟩,
   ⟨255, 5, 0, _, _, _, launched id 1 0 (base 3 64 id), rfl, rfl, rfl, rfl, rfl, by decide, by decide, by decide, after_ok 0 (by decide +kernel), by decide +kernel⟩,
   ⟨255, 5, 0, _, _, _, launched id 1 (2 ^ 64 - 1) (base 3 64 id), rfl, rfl, rfl, rfl, rfl, by decide, by decide, by decide, after_ok 0 (by decide +kernel), by decide +kernel⟩,
   ⟨255, 5, 0, _, _, _, launched id 1 3 (base 3 64 id), rfl, rfl, rfl, rfl, rfl, by decide, by decide, by decide, after_ok 0 (by decide +kernel), by decide +kernel⟩,
   ⟨255, _, launched id 2 0 (base 3 64 id), rfl, by decide +kernel, by decide +kernel, by decide +kernel, by decide +kernel, by decide +kernel, by decide +kernel⟩,
   ⟨0, _, enlisted id (base 3 64 (fun w => { w with live := 0, paths := [] })), _, rfl, by decide +kernel, by decide +kernel, by decide +kernel, by decide +kernel, by decide +kernel, after_ok default (by decide +kernel)⟩,
   ⟨255, 5, _, _, _, launched (fun l => { l with done := 2, lr := { l.lr with done := 8 } }) 2 3 (base 3 64 id), rfl, rfl, rfl, rfl, rfl, by decide +kernel, by decide, by decide, after_ok 0 (by decide +kernel)⟩,
   ⟨255, 5, _, _, 0, owned theVat, 0, _, withVat owned (launched (fun l => { l with lr := { l.lr with affinity := [5, 0, 0, 0], patience := 9, nv := 48, nW := 32, blocks := 3 } }) 2 3 (base 3 64 id)), rfl, rfl, by decide +kernel,
    rfl, rfl, rfl, by decide +kernel, by decide +kernel, waits_ok (by decide +kernel), by decide +kernel⟩⟩

/-- The vat is being moved to core 1. -/
def moving : State := plainMemory 0 (withVat (fun v => { v with target := some 1, st := 1 }) (base 3 64 id))

/-- A vat that can be read is filled on a core. -/
theorem fillsOnto {m : Mach} {id core : Nat} {v : Vat} (hv : m.vat id = v) (hb : v.backed = none) {e : HEntry} {r : List (Byte × Option Word) × List Nat}
    (he : saveArea m v.ctx = .ok e) (hr : imageRead m v e = .ok r) : ∃ m2, fillOnto m id core = .ok m2 := by
  refine ⟨fillCopy m id v core ((Map.find? v.slots core).getD ((freeSlot m core).getD 0)) r, ?_⟩
  have hbe : backingEntry m v = .ok e := by unfold backingEntry; rw [hb]; exact he
  unfold fillOnto
  rw [hv]
  dsimp only
  rw [hbe]
  change (imageRead m v e >>= fun r => pure (fillCopy m id v core ((Map.find? v.slots core).getD ((freeSlot m core).getD 0)) r)) = _
  rw [hr]
  rfl

theorem witness_VatMove : ∃ (id core : Nat) (v : Vat) (s : State) (m : Mach), Map.find? s.m.vats id = some v ∧ v.target = some core ∧ v.st = 1 ∧
    (s.m.ctx v.ctx).devWait = [] ∧ fillOnto s.m id core = .ok m := by
  obtain ⟨e, r, he, hr⟩ := imageReads (m := moving.m) (v := { theVat with target := some 1, st := 1 }) (by decide) (by decide +kernel)
  have hv : moving.m.vat 0 = { theVat with target := some 1, st := 1 } := by decide +kernel
  obtain ⟨m2, h⟩ := fillsOnto (id := 0) (core := 1) hv rfl he hr
  exact ⟨0, 1, { theVat with target := some 1, st := 1 }, moving, m2, by decide +kernel, rfl, rfl, by decide +kernel, h⟩

theorem witness_SliceEvents : (∃ (c : Nat) (x : Ctx) (s : State), Map.find? s.m.ctxs c = some x ∧ x.st = 1 ∧ x.holds = true ∧ x.ask ≠ 1 ∧ x.ask ≠ 2) ∧
    (∃ (c us : Nat) (x : Ctx) (s : State), Map.find? s.m.ctxs c = some x ∧ x.st = 1 ∧ x.holds = true ∧ x.ask = 0 ∧ x.yieldDl = none ∧ us = x.grace) ∧
    (∃ (c t : Nat) (x : Ctx) (s : State), Map.find? s.m.ctxs c = some x ∧ x.st = 1 ∧ x.holds = true ∧ x.yieldDl = some t) ∧
    (∃ (c : Nat) (s : State), preempting s.m c = true ∧ (s.m.ctx c).ask = 2) ∧ (∃ (c : Nat) (s : State), preempting s.m c = true ∧ (s.m.ctx c).ask ≠ 2) ∧
    (∃ (c k : Nat) (s : State), heldUp s.m c = some k) ∧
    (∃ (c : Nat) (s : State), ∃ e ∈ s.m.blocks, e.2.ctx = c ∧ (e.2.pre = .waiting ∨ e.2.pre = .handlers) ∧ ∃ x ∈ s.m.warpsOf e.1, x.2.trap.isSome = true) ∧
    (∃ (bk clocks : Nat) (b : Block) (s : State), Map.find? s.m.blocks bk = some b ∧ b.seated = true ∧ b.lr.cost ≠ 0 ∧ b.charged < clocks ∧ 2 * b.lr.cost < clocks) ∧
    (∃ (bk clocks k : Nat) (ks : List Nat) (b : Block) (s : State), Map.find? s.m.blocks bk = some b ∧ s.m.liveOf bk = k :: ks ∧ b.seated = true ∧ b.lr.cost ≠ 0 ∧
      b.charged ≤ clocks ∧ b.watch < clocks / (4 * b.lr.cost) ∧ (b.pre = .none ∨ b.pre = .draining) ∧ ∀ x ∈ b.wides, x.info.cause ≠ .watchdog) :=
  ⟨⟨255, _, base 3 64 id, rfl, by decide +kernel, by decide +kernel, by decide +kernel, by decide +kernel⟩,
   ⟨255, 0, _, base 3 64 id, rfl, by decide +kernel, by decide +kernel, by decide +kernel, by decide +kernel, by decide +kernel⟩,
   ⟨255, 0, _, posted (base 3 64 id), rfl, by decide +kernel, by decide +kernel, by decide +kernel⟩,
   ⟨255, ctxed (fun x => { x with ask := 2 }) (base 3 64 id), by decide +kernel, by decide +kernel⟩,
   ⟨255, ctxed (fun x => { x with ask := 1 }) (base 3 64 id), by decide +kernel, by decide +kernel⟩,
   ⟨255, 0, enlisted (fun b => { b with pre := .releasing }) (base 3 64 id), by decide +kernel⟩,
   ⟨255, enlisted (fun b => { b with pre := .handlers }) (base 3 64 inTrap), by decide +kernel⟩,
   ⟨0, 0x2001, _, enlisted id (base 3 64 id), rfl, by decide +kernel, by decide +kernel, by decide +kernel, by decide +kernel⟩,
   ⟨0, 0x4000, 0, [], _, enlisted id (base 3 64 id), rfl, by decide +kernel, by decide +kernel, by decide +kernel, by decide +kernel, by decide +kernel, by decide +kernel, by decide +kernel⟩⟩

/-- A function in a state changed. -/
def fned (fn : Nat) (f : Fn → Fn) (s : State) : State :=
  let x := functioned s
  { x with p := { x.p with fns := Map.ins x.p.fns fn (f ((Map.find? x.p.fns 0).getD Fn.empty)) } }

/-- The package of a state changed. -/
def platted (f : Plat → Plat) (s : State) : State := let x := functioned s; { x with p := f x.p }

theorem takes_ok {fn : Nat} {s : State} (h : ((Map.find? s.p.fns fn).any (fun x => x.enabled && !x.busy) && s.p.boot.phase.serves) = true) : Takes fn s := by
  simp only [Bool.and_eq_true] at h
  cases hx : Map.find? s.p.fns fn with
  | none => rw [hx] at h; cases h.1
  | some x =>
    rw [hx] at h
    simp only [Option.any_some, Bool.and_eq_true, Bool.not_eq_true'] at h
    exact ⟨⟨x, hx, h.1⟩, h.2⟩

theorem early_ok {fn : Nat} {s : State} (h : Takes fn s) : TakesEarly fn s := ⟨h.1, .inr h.2⟩

theorem witness_MailboxRules : (∃ (i : Instr) (fn : Nat) (early : Bool) (x : Fn) (s : State), commandOf i = some (fn, early) ∧ Map.find? s.p.fns fn = some x ∧ (x.enabled = false ∨ x.busy = true)) ∧
    (∃ (i : Instr) (fn : Nat) (early : Bool) (x : Fn) (s : State), commandOf i = some (fn, early) ∧ Map.find? s.p.fns fn = some x ∧ x.enabled = true ∧ x.busy = false ∧
      s.p.boot.phase = .recovery ∧ early = false) ∧
    (∃ (i : Instr) (fn : Nat) (early : Bool) (x : Fn) (s : State), commandOf i = some (fn, early) ∧ Map.find? s.p.fns fn = some x ∧ x.enabled = true ∧ x.busy = false ∧
      s.p.boot.phase ≠ .recovery ∧ s.p.boot.phase.serves = false) ∧
    (∃ (i : Instr) (fn : Nat) (early : Bool) (s : State), commandOf i = some (fn, early) ∧ pfOnly i = true ∧ Takes fn s ∧ fn ≠ 0) ∧
    (∃ (s : State) (fn : Nat) (x : Fn), Map.find? s.p.fns fn = some x) :=
  ⟨⟨.runCtx 0 255, 0, false, _, fned 0 (fun f => { f with busy := true }) (base 3 64 id), rfl, rfl, .inr rfl⟩,
   ⟨.runCtx 0 255, 0, false, _, platted (fun p => { p with boot := { p.boot with phase := .recovery } }) (base 3 64 id), rfl, rfl, rfl, rfl, rfl, rfl⟩,
   ⟨.runCtx 0 255, 0, false, _, platted (fun p => { p with boot := { p.boot with phase := .waiting 3 } }) (base 3 64 id), rfl, rfl, rfl, rfl, by decide +kernel, by decide +kernel⟩,
   ⟨.fencemap 1, 1, false, fned 1 id (base 3 64 id), rfl, rfl, takes_ok (by decide +kernel), by decide⟩,
   ⟨functioned (base 3 64 id), 0, _, rfl⟩⟩

theorem witness_ContextCreation : (∃ (fn hdr world : Nat) (s : State), Takes fn s ∧ createStatus s ((fnOf s fn).getD Fn.empty) fn hdr world ≠ 0) ∧
    (∃ (fn hdr world c : Nat) (s : State), Takes fn s ∧ createStatus s ((fnOf s fn).getD Fn.empty) fn hdr world = 0 ∧
      (List.range 256).find? (fun i => (Map.find? s.m.ctxs i).isNone) = some c) ∧
    (∃ (c : Nat) (tp : TimeParam) (x : Ctx) (s : State), Takes 0 s ∧ Map.find? s.m.ctxs c = some x ∧ x.st ≠ 1 ∧ timeparamOk s.p s.m c tp = true) ∧
    (∃ (c : Nat) (tp : TimeParam) (x : Ctx) (s : State), Takes 0 s ∧ Map.find? s.m.ctxs c = some x ∧ x.st ≠ 1 ∧ timeparamOk s.p s.m c tp = false) :=
  ⟨⟨0, 0x1001, 0, functioned (base 3 64 id), takes_ok (by decide +kernel), by decide +kernel⟩,
   ⟨0, 0x200000, 0, 0, functioned (base 3 64 id), takes_ok (by decide +kernel), by decide +kernel, by decide +kernel⟩,
   ⟨255, { teams := 3, margin := 4, period := 64, share := 64, grace := 10000 }, _, functioned (ctxed (fun x => { x with st := 0 }) (base 3 64 id)), takes_ok (by decide +kernel), rfl, by decide, by decide +kernel⟩,
   ⟨255, { teams := 3, margin := 4, period := 64, share := 65, grace := 0 }, _, functioned (ctxed (fun x => { x with st := 0 }) (base 3 64 id)), takes_ok (by decide +kernel), rfl, by decide, by decide +kernel⟩⟩

theorem witness_ContextCommands : (∃ (fn c : Nat) (x : Ctx) (s : State), Takes fn s ∧ mayCommand s.m fn c = .ok x ∧ x.st ≠ 0 ∧ x.holds = true ∧ x.resetBy = none ∧ setBound x 3 = false) ∧
    (∃ (fn c : Nat) (x : Ctx) (s : State), Takes fn s ∧ mayCommand s.m fn c = .ok x ∧ x.st = 1 ∧ x.holds = false ∧ x.teams ≠ 0 ∧ headerRuns s.m c = true) ∧
    (∃ (fn c : Nat) (x : Ctx) (s : State), Takes fn s ∧ mayCommand s.m fn c = .ok x ∧ x.st = 0 ∧ x.teams ≠ 0 ∧ headerRuns s.m c = true) ∧
    (∃ (fn c : Nat) (x : Ctx) (s : State), Takes fn s ∧ mayCommand s.m fn c = .ok x ∧ x.resetBy.isSome = true) ∧
    (∃ (fn c h : Nat) (x : Ctx) (e : HEntry) (s : State), Takes fn s ∧ mayCommand s.m fn c = .ok x ∧ 2 ≤ h ∧ h ≤ 4063 ∧ tableHandle s.m c default h = .ok (some e) ∧ e.kind = 1 ∧
      e.access = 1 ∧ e.world = x.world) ∧
    (∃ (fn c : Nat) (d : Bool) (s : State), (s.m.ctx c).resetBy = some (fn, d) ∧ (s.m.ctx c).waiting = [] ∧ ∀ e ∈ s.m.blocks, ¬ (e.2.ctx = c ∧ e.2.seated = true)) ∧
    (∃ (fn c st : Nat) (s : State), Takes fn s ∧ mayCommand s.m fn c = .error st) :=
  ⟨⟨0, 255, _, functioned (base 3 64 id), takes_ok (by decide +kernel), after_ok default (by decide +kernel), by decide +kernel, by decide +kernel, by decide +kernel, by decide +kernel⟩,
   ⟨0, 255, _, functioned (plainMemory 0x20000 (ctxed (fun x => { x with holds := false }) (base 3 64 id))), takes_ok (by decide +kernel), after_ok default (by decide +kernel), by decide +kernel, by decide +kernel,
    by decide +kernel, by decide +kernel⟩,
   ⟨0, 255, _, functioned (plainMemory 0x20000 (ctxed (fun x => { x with st := 0 }) (base 3 64 id))), takes_ok (by decide +kernel), after_ok default (by decide +kernel), by decide +kernel, by decide +kernel, by decide +kernel⟩,
   ⟨0, 255, _, functioned (ctxed (fun x => { x with resetBy := some (0, true) }) (base 3 64 id)), takes_ok (by decide +kernel), after_ok default (by decide +kernel), by decide +kernel⟩,
   ⟨0, 255, 6, _, _, functioned (tables (base 3 64 id)), takes_ok (by decide +kernel), after_ok default (by decide +kernel), by decide, by decide,
    found_ok default (by decide +kernel), by decide +kernel, by decide +kernel, by decide +kernel⟩,
   ⟨0, 9, true, functioned { base 3 64 id with m := (base 3 64 id).m.setCtx 9 { placedCtx with resetBy := some (0, true) } }, by decide +kernel, by decide +kernel, by decide +kernel⟩,
   ⟨0, 9, _, functioned (base 3 64 id), takes_ok (by decide +kernel), failure_ok 0 (by decide +kernel)⟩⟩

/-- A slot table with every entry idle, and a table with an entry that is none. -/
def idleTable : List (BitVec 16) := List.replicate 512 0

theorem witness_RegionsAndSlots : (∃ s : State, Takes 0 s) ∧
    (∃ (base count world : Nat), base % 2097152 = 0 ∧ base + count * 2097152 ≤ Config.deviceBytes ∧ world < 2 ∧ ∀ r ∈ regionsOf base count, isManagement r = false) ∧
    (∃ (base count world : Nat), base % 2097152 = 0 ∧ base + count * 2097152 ≤ Config.deviceBytes ∧ world < 2 ∧ ∃ r ∈ regionsOf base count, isManagement r = true) ∧
    (idleTable.length = 512 ∧ ∀ e ∈ idleTable, slotEntryOk e = true) ∧
    (∃ (link : Nat) (t : Nat × List (BitVec 16)) (s : State), Map.find? s.p.slotsNext link = some t) ∧
    (∃ unit k, healthKind unit = some k) ∧ (∃ unit, healthKind unit = none) :=
  ⟨⟨functioned (base 3 64 id), takes_ok (by decide +kernel)⟩, ⟨2097152, 1, 1, by decide, by decide, by decide, by decide +kernel⟩,
   ⟨(Config.deviceBytes / 2097152 - 1) * 2097152, 1, 0, by decide, by decide, by decide, by decide +kernel⟩, ⟨List.length_replicate, fun e he => by rw [List.eq_of_mem_replicate he]; decide⟩,
   ⟨1, (64000, idleTable), platted (fun p => { p with slotsNext := [(1, 64000, idleTable)] }) (base 3 64 id), rfl⟩,
   ⟨0x44000, 1, by decide +kernel⟩, ⟨0x3FFF, by decide +kernel⟩⟩

theorem witness_ExportsAndLending :
    (∃ (entry : Nat) (e : ExportEntry) (x : Ctx) (h : HEntry) (s : State), Takes 0 s ∧ entry < 4096 ∧ e.typ = 1 ∧ e.reserved = 0 ∧ Map.find? s.m.ctxs e.ctx = some x ∧
      tableHandle s.m e.ctx default e.num = .ok (some h) ∧ h.world = 1) ∧
    (∃ (team c own : Nat) (x : Ctx) (s : State), Takes 0 s ∧ team < 32 ∧ marginOwner s.m team = some own ∧ Map.find? s.m.ctxs c = some x ∧ own ≠ c ∧ x.st = 1 ∧ s.p.isLent team = false ∧
      (∀ e ∈ s.m.blocks, ¬ (e.2.ctx = own ∧ e.2.seated = true ∧ teamOf e.2.core = team)) ∧ heldVats s.m own (fun t => t == team) = []) ∧
    (∃ (team c : Nat) (s : State), Map.find? s.p.lent team = some c ∧ Takes 0 s ∧ ownerNeeds s.m team = false) :=
  ⟨⟨4095, { typ := 1, ctx := 255, num := 2, node := 0, reserved := 0 }, _, _,
    functioned { plainMemory 0 (base 3 64 id) with m := (plainMemory 0 (base 3 64 id)).m.poke (Space.dev.key 0x8053) [1] },
    takes_ok (by decide +kernel), by decide, rfl, rfl, rfl, found_ok default (by decide +kernel), by decide +kernel⟩,
   ⟨2, 255, 7, _, functioned { base 3 64 id with m := (base 3 64 id).m.setCtx 7 { placedCtx with teams := 0, margin := 4 } }, takes_ok (by decide +kernel), by decide, by decide +kernel, rfl,
    by decide, by decide +kernel, by decide +kernel, by decide +kernel, by decide +kernel⟩,
   ⟨2, 255, platted (fun p => { p with lent := [(2, 255)] }) (base 3 64 id), rfl, takes_ok (by decide +kernel), by decide +kernel⟩⟩

theorem some_ok {α : Type} (d : α) {e : Option α} (h : e.isSome = true) : e = some (e.getD d) := by
  cases e with
  | some a => rfl
  | none => cases h

theorem witness_DebugBootCommands : (∃ (fn c : Nat) (x : Ctx) (s : State), Takes fn s ∧ mayCommand s.m fn c = .ok x ∧ debugged s.m c = false) ∧
    (∃ (fn c : Nat) (x : Ctx) (s : State) (n : WarpName), Takes fn s ∧ mayCommand s.m fn c = .ok x ∧ debugged s.m c = true ∧ debugWarp s.m c n = none) ∧
    (∃ (fn c : Nat) (x : Ctx) (s : State) (n : WarpName) (k : Nat), Takes fn s ∧ mayCommand s.m fn c = .ok x ∧ debugged s.m c = true ∧ debugWarp s.m c n = some k) ∧
    (∃ (s : State) (img : List Byte), TakesEarly 0 s ∧ fromHost s.m 0 64 0 = some img ∧ (imgFails s.p.boot 4 img).isSome = true) :=
  ⟨⟨0, 255, _, functioned (base 3 64 id), takes_ok (by decide +kernel), after_ok default (by decide +kernel), by decide +kernel⟩,
   ⟨0, 255, _, functioned (watched (base 3 64 id)), { launch := 0, flat := 9, warp := 0 }, takes_ok (by decide +kernel), after_ok default (by decide +kernel), by decide +kernel, by decide +kernel⟩,
   ⟨0, 255, _, functioned (watched (base 3 64 (fun w => { w with run := .debug }))), { launch := launchId ((base 3 64 id).m.block 0), flat := 0, warp := 0 }, 0, takes_ok (by decide +kernel),
    after_ok default (by decide +kernel), by decide +kernel, by decide +kernel⟩,
   ⟨functioned (base 3 64 id), [], early_ok (takes_ok (by decide +kernel)), by decide +kernel, by decide +kernel⟩⟩

/-- The package exports handle 2 of the context, or a tag port, in entry 4. -/
def exporting (typ : Nat) : State :=
  let s := plainMemory 0 (base 3 64 id)
  { s with m := { s.m with exports := [(4, { typ := typ, ctx := 255, num := 2, node := 3, reserved := 0 })] } }

theorem witness_FabricEvents : (∃ (c tag : Nat) (bytes : List Byte) (x : Ctx) (s : State) (raw : List Byte) (ws : Option (List ByteWrite)), Map.find? s.m.ctxs c = some x ∧
      Map.find? x.arms tag = some raw ∧ payloadWrites (s.m.updCtx c (fun x => { x with arms := Map.del x.arms tag })) c (LaunchRec.ofBytes raw)
        (bytes.zipIdx.map (fun b => (b.2, b.1))) bytes.length = .ok ws) ∧
    (∃ (src entry key : Nat) (a : RemoteAcc) (s : State) (e : ExportEntry), remoteOk a = true ∧ Map.find? s.m.exports entry = some e ∧ s.m.admits e src = true ∧ e.typ ≠ 2 ∧
      remotePlace s.m e src (remoteUse a).1 (remoteUse a).2.1 a.off a.size = some key) ∧
    (∃ (src entry : Nat) (a : RemoteAcc) (s : State) (e : ExportEntry), remoteOk a = true ∧ Map.find? s.m.exports entry = some e ∧ s.m.admits e src = true ∧ e.typ = 2 ∧ a.op = 1) ∧
    (∃ (port : Nat) (x : Port) (s : State), Map.find? s.p.ports port = some x ∧ Map.find? s.p.boot.meas 5 ≠ none ∧ { x with up := true, lanes := 8, node := 3 } ≠ x) :=
  ⟨⟨255, 7, [1, 2], _, ctxed (fun x => { x with arms := [(7, bytesOfNat 0x58 0 ++ bytesOfNat 4 2 ++ bytesOfNat 0xA4 0)] }) (plainMemory 0 (base 3 64 id)), _, _, rfl, rfl,
    after_ok none (by decide +kernel)⟩,
   ⟨3, 4, _, { op := 1, off := 0xA000, size := 4, data := 7, cmp := 0, last := false }, exporting 1, _, by decide, rfl, by decide +kernel, by decide, some_ok 0 (by decide +kernel)⟩,
   ⟨3, 4, { op := 1, off := 0xA000, size := 4, data := 7, cmp := 0, last := false }, exporting 2, _, by decide, rfl, by decide +kernel, by decide, rfl⟩,
   ⟨1, _, platted (fun p => { p with ports := [(1, { up := false, failed := false, lanes := 0, retrains := 0, node := 0 })], boot := { p.boot with meas := [(5, [])] } }) (base 3 64 id), rfl,
    by decide +kernel, by decide +kernel⟩⟩

theorem witness_ReliabilityEvents : (∃ unit : Word, healthKind unit = some 0) ∧ (∃ (unit : Word) (addr : Nat), bits unit 20 14 = 17 ∧ unitHolds unit addr = true) ∧
    (∃ (unit : Word) (k : Nat) (s : State), healthKind unit = some k ∧ 64 < (healthOf s.p unit).headD 0) ∧
    (∃ (core : Nat) (z : Freeze) (s : State), Map.find? s.m.frozen core = some z) ∧
    (∃ (core : Nat) (s : State), core ∈ s.m.suspects ∧ seatedOn s.m core = [] ∧ core ∉ s.p.fenced) ∧
    (∃ (team : Nat) (failing : List Word) (s : State), teamIdle s team = true ∧ failing ≠ [] ∧ ∀ u ∈ failing, bits u 31 26 = team) :=
  ⟨⟨0x64000, by decide +kernel⟩, ⟨0x44000, 0, by decide +kernel, by decide +kernel⟩,
   ⟨0x44000, 1, { State.reset with p := { State.reset.p with health := [(0x44000, [65, 0, 0, 0, 0, 0])] } }, by decide +kernel, by decide +kernel⟩,
   ⟨0, default, { State.reset with m := { Mach.reset with frozen := [(0, default)] } }, rfl⟩,
   ⟨9, { State.reset with m := { Mach.reset with suspects := [9] } }, by decide, by decide +kernel, by decide⟩,
   ⟨1, [0x4000000], State.reset, by decide +kernel, by decide, fun u hu => by rw [List.mem_singleton.1 hu]; decide⟩⟩

/-- The intake ring of the function holds one command. -/
def intaking (cmd : List Byte) (s : State) : State :=
  let x := functioned s
  { x with m := x.m.poke (Space.dev.key 0x30000) cmd, p := { x.p with fns := x.p.fns.map (fun e => (e.1, { e.2 with intake := { base := 0x30000, entries := 16, sel := 0, prod := 1, cons := 0 } })) } }

/-- A shard of a generation. -/
def aShard : Shard :=
  { idx := 2, source := 2, addr := 0, bytes := 4, conv := 0, comp := 0, lay := 0, rows := 1, perRow := 1, c0 := 0, c1 := 0, scaleOff := 0, node := 0, entry := 0, ns := 0, port := 0 }

/-- Weight set 3 of the context, with a generation that assembles or not. -/
def assembles (on : Bool) (sh : Shard) (s : State) : State :=
  ctxed (fun x => { x with wsets := [(3, { handle := 6, nextGen := 2, cur := none, gens := [(1, { base := 0, length := 0x10000, count := 4, good := [], pend := [sh], rereads := [], report := 0, assembling := on, expires := 9, pts := 0 })] })] }) s

def isDone (r : Placed) : Bool := match r with | .done _ _ => true | _ => false
def doneMach (r : Placed) : Mach × Nat := match r with | .done m n => (m, n) | _ => (Mach.reset, 0)

theorem done_ok {r : Placed} (h : isDone r = true) : r = .done (doneMach r).1 (doneMach r).2 := by
  cases r with
  | done m n => rfl
  | _ => cases h

theorem witness_IntakeEvents : (∃ (fn : Nat) (s : State), intakeHead s fn = none) ∧
    (∃ (fn : Nat) (bs : List Byte) (s : State), intakeHead s fn = some bs ∧ Machine.fieldAt bs 0 1 ≠ 2 ∧ Machine.fieldAt bs 0 1 ≠ 3 ∧ genopenStatus s.m fn bs = 0) ∧
    (∃ (fn : Nat) (bs : List Byte) (s : State) (x : Ctx) (w : WeightSet) (g : Nat × Gen), intakeHead s fn = some bs ∧ Machine.fieldAt bs 0 1 = 3 ∧
      ownCtx s.m fn (Machine.fieldAt bs 1 1) = some x ∧ weightSet s.m (Machine.fieldAt bs 1 1) (Machine.fieldAt bs 2 1) = some w ∧ zeroAt bs 3 61 = true ∧ w.assembling = some g) ∧
    (∃ (fn : Nat) (bs : List Byte) (s : State) (x : Ctx) (w : WeightSet) (g : Nat × Gen), intakeHead s fn = some bs ∧ Machine.fieldAt bs 0 1 = 2 ∧
      ownCtx s.m fn (Machine.fieldAt bs 1 1) = some x ∧ weightSet s.m (Machine.fieldAt bs 1 1) (Machine.fieldAt bs 2 1) = some w ∧ shardOk bs = true ∧ (shardOf bs).source ≠ 2 ∧ w.assembling = some g) ∧
    (∃ (c i idx fn : Nat) (g : Nat × Gen) (sh : Shard) (s : State), shardPending s c i idx = some (fn, g, sh) ∧ sh.source = 2 ∧ (Map.find? g.2.rereads idx).getD 0 < 3) ∧
    (∃ (c i idx fn : Nat) (g : Nat × Gen) (sh : Shard) (data : List Byte) (s : State) (m : Mach) (pts : Nat), shardPending s c i idx = some (fn, g, sh) ∧
      placeShard s.m c g.2 sh data = .done m pts) :=
  ⟨⟨0, functioned (base 0 64 id), by decide +kernel⟩,
   ⟨0, _, intaking ([1, 255, 3, 0] ++ bytesOfNat 60 1) (assembles false aShard (base 0 64 id)), some_ok [] (by decide +kernel), by decide +kernel, by decide +kernel, by decide +kernel⟩,
   ⟨0, _, intaking [3, 255, 3] (assembles true aShard (base 0 64 id)), _, _, _, some_ok [] (by decide +kernel), by decide +kernel, some_ok default (by decide +kernel),
    some_ok default (by decide +kernel), by decide +kernel, some_ok default (by decide +kernel)⟩,
   ⟨0, _, intaking [2, 255, 3] (assembles true aShard (base 0 64 id)), _, _, _, some_ok [] (by decide +kernel), by decide +kernel, some_ok default (by decide +kernel),
    some_ok default (by decide +kernel), by decide +kernel, by decide +kernel, some_ok default (by decide +kernel)⟩,
   ⟨255, 3, 2, _, _, _, functioned (assembles true aShard (base 0 64 id)), some_ok default (by decide +kernel), by decide +kernel, by decide +kernel⟩,
   ⟨255, 3, 2, _, _, _, [1, 2, 3, 4], functioned (assembles true aShard (tables (base 0 64 id))), _, _, some_ok default (by decide +kernel), done_ok (by decide +kernel)⟩⟩

theorem witness_RegisterEvents : (∃ (fn q : Nat) (f : Fn) (r : Ring) (s : State), fnOf s fn = some f ∧ Map.find? f.queues q = some r ∧ r.prod = r.cons) ∧
    (∃ (fn q : Nat) (f : Fn) (r : Ring) (s : State), fnOf s fn = some f ∧ Map.find? f.queues q = some r ∧ r.prod ≠ r.cons) ∧
    (∃ (fn : Nat) (f : Fn) (c : Nat) (s : State), fnOf s fn = some f ∧ f.tsync = some c) ∧
    (∃ (fn : Nat) (f : Fn) (value : Word) (x : Ctx) (s : State), fnOf s fn = some f ∧ f.tsync = none ∧ ownCtx s.m fn (bits value 7 0) = some x) ∧
    (∃ (fn : Nat) (s : State), fnOf s fn = none) ∧
    (∃ (vf : Nat) (f : Fn) (s : State), Map.find? s.p.fns vf = some f ∧ vf ≠ 0 ∧ f.enabled ≠ true) :=
  ⟨⟨0, 0, _, _, fned 0 (fun f => { f with queues := [(0, { base := 0, entries := 16, sel := 0, prod := 3, cons := 3 })] }) (base 0 64 id), rfl, rfl, rfl⟩,
   ⟨0, 0, _, _, functioned (base 0 64 id), rfl, rfl, by decide⟩,
   ⟨0, _, 255, fned 0 (fun f => { f with tsync := some 255 }) (base 0 64 id), rfl, rfl⟩,
   ⟨0, _, 255, _, functioned (base 0 64 id), rfl, rfl, some_ok default (by decide +kernel)⟩,
   ⟨9, functioned (base 0 64 id), by decide +kernel⟩,
   ⟨5, _, fned 5 (fun f => { f with enabled := false }) (base 0 64 id), some_ok Fn.empty (by decide +kernel), by decide, by decide +kernel⟩⟩

theorem witness_BootEvents : (∃ s : State, (s.p.boot.phase = .off ∨ s.p.boot.phase = .recovery) ∧ s.p.boot.flash = [] ∧ s.p.boot.nvme = [] ∧ s.p.boot.skip = []) ∧
    (∃ s : State, s.p.boot.phase = .ready) ∧ (∃ (stage : Nat) (s : State), s.p.boot.phase = .waiting stage) :=
  ⟨⟨State.reset, .inl rfl, rfl, rfl, rfl⟩, ⟨functioned (base 0 64 id), rfl⟩, ⟨6, platted (fun p => { p with boot := { p.boot with phase := .waiting 6 } }) (base 0 64 id), rfl⟩⟩

/-- The outcome of an instruction, where it is a next state. -/
def isNext (o : Host.Outcome State Fault Refusal) : Bool := match o with | .next _ => true | _ => false
def nextOf (o : Host.Outcome State Fault Refusal) : State := match o with | .next t => t | _ => State.reset

theorem next_ok {o : Host.Outcome State Fault Refusal} (h : isNext o = true) : o = .next (nextOf o) := by
  cases o with
  | next t => rfl
  | _ => cases h

theorem witness_PackageStays : ∃ s t : State, SoundPackage s.p ∧ step s = .next t :=
  ⟨State.reset, _, ⟨by decide, (by intro e he; cases he), (by intro e he; cases he), by decide, (by intro e he; cases he)⟩, next_ok (by decide +kernel)⟩

theorem witness_WarpsLeavePackage : ∃ (i : Instr) (q : Req) (s t : State), reqOf i = some q ∧ exec i s = .next t :=
  ⟨.iadd ⟨0, 47, 2, 52, 0, 0⟩, _, lane id, _, rfl, next_ok (by decide +kernel)⟩

/-- The word of a state without effect stands in the warp's clause. -/
def coded (w : Nat) : State :=
  let s := State.reset.withFetchWord 32 w
  { s with m := s.m.updWarp s.cur (fun w => { w with paths := w.paths.map (fun p => { p with pc := 4, clause := some { hdr := 0, word := 1, cls := 0, stop := 8 } }) }) }

theorem witness_StepRuns : (∃ s : State, s.m.rebaseDue = true) ∧
    (∃ (s : State) (c : Clause) (w1 : Word) (i : Instr), s.m.rebaseDue = false ∧ s.agenda = [] ∧ canIssue s.m s.cur = true ∧ s.me.path.spilled = false ∧ s.me.path.clause = some c ∧
      Fetches s.m s.cur c w1 i) ∧
    (∃ (s : State) (m : Mach) (c : Clause) (w1 : Word) (i : Instr), s.m.rebaseDue = false ∧ s.agenda = [] ∧ canIssue s.m s.cur = true ∧ s.me.path.spilled = false ∧
      s.me.path.clause = none ∧ enterClause s.m s.cur = .ok m ∧ (m.warp s.cur).path.clause = some c ∧ c.word.getLsbD 6 = false ∧ Fetches m s.cur c w1 i) ∧
    (∃ (s : State) (c : Clause) (w1 : Word) (e : DecodeError), s.m.rebaseDue = false ∧ s.agenda = [] ∧ canIssue s.m s.cur = true ∧ s.me.path.spilled = false ∧
      s.me.path.clause = some c ∧ fetchWord s.m s.cur s.me.path.pc = .ok w1 ∧ twoWords w1.toNat = false ∧ decode w1 0 = .error e) ∧
    (∃ (s : State) (k : Nat) (rest : List Move), s.m.rebaseDue = false ∧ s.agenda = .warp k :: rest ∧ canIssue s.m k = true) :=
  ⟨⟨{ State.reset with m := { Mach.reset with rts := [(0, 2 ^ 47)] } }, by decide +kernel⟩,
   ⟨coded 0x041420C0, _, 0x041420C0, .iadd ⟨0, 5, 2, 3, 0, 0⟩, by decide +kernel, rfl, by decide +kernel, by decide +kernel, rfl,
    by decide +kernel, .inl ⟨by decide, by decide⟩⟩,
   ⟨State.reset.withFetchWord 32 0x041420C0, _, _, 0x041420C0, .iadd ⟨0, 5, 2, 3, 0, 0⟩, by decide +kernel, rfl, by decide +kernel, by decide +kernel, by decide +kernel,
    got_ok (by decide +kernel), some_ok default (by decide +kernel), by decide +kernel, by decide +kernel, .inl ⟨by decide, by decide⟩⟩,
   ⟨coded 0, _, 0, _, by decide +kernel, rfl, by decide +kernel, by decide +kernel, rfl, by decide +kernel, by decide, rfl⟩,
   ⟨{ base 0 64 id with agenda := [.warp 0] }, 0, [], by decide +kernel, rfl, by decide +kernel⟩⟩

/-- Do the checks of q let it issue in s? -/
def passes (q : Req) (s : State) : Bool :=
  canIssue s.m s.cur && !s.me.path.spilled && (q.sc == 0 || (q.sc == 1 && s.me.path.mask == s.me.live)) &&
    (match admission q s.m s.cur with | .go m ms => decide (m = s.m ∧ ms = [s.cur]) | _ => false)

theorem passes_ok {q : Req} {s : State} (h : passes q s = true) : LetThrough q s := by
  unfold passes at h
  simp only [Bool.and_eq_true, Bool.or_eq_true, beq_iff_eq, Bool.not_eq_true'] at h
  obtain ⟨⟨⟨h1, h2⟩, h3⟩, h4⟩ := h
  refine ⟨h1, h2, h3, ?_⟩
  cases ha : admission q s.m s.cur with
  | go m ms => rw [ha] at h4; obtain ⟨rfl, rfl⟩ := of_decide_eq_true h4; rfl
  | _ => rw [ha] at h4; cases h4

/-- The first line that q accesses, where it is none that stands in the cache. -/
def missed (q : Req) (s : State) : Option LineUse := (accessed q s.m [s.cur]).head?.filter (fun u => !s.me.lines.contains u.l)

theorem missed_ok {q : Req} {s : State} {u : LineUse} (h : missed q s = some u) : FirstMiss q s u := by
  unfold missed at h
  obtain ⟨h1, h2⟩ := Option.filter_eq_some_iff.1 h
  obtain ⟨r, hr⟩ := List.head?_eq_some_iff.1 h1
  exact ⟨[], r, by rw [hr]; rfl, by simpa using h2, by simp⟩

/-- The warp of `base` finds no line in the register cache; v5 stands in the image, marked or not, or in no page. -/
def uncached : State := base 0 64 (fun w => { w with lines := [] })
def poisoned : State := { uncached with m := uncached.m.mark ((uncached.linePlace 5).getD 0 / 16) 7 }
def unmapped : State := { uncached with m := uncached.m.poke (Space.dev.key 0x10000) (bytesOfNat 8 0) }

theorem witness_RegisterMisses : (∃ i q s u key, reqOf i = some q ∧ LetThrough q s ∧ FirstMiss q s u ∧ u.l ≤ 50 ∧ usedLines s.m (s.m.blockOf s.cur).core < 6144 ∧
      s.linePlace u.l = some key ∧ s.m.poisonAt key 128 = none) ∧
    (∃ i q s u key unit, reqOf i = some q ∧ LetThrough q s ∧ FirstMiss q s u ∧ u.l ≤ 50 ∧ usedLines s.m (s.m.blockOf s.cur).core < 6144 ∧
      s.linePlace u.l = some key ∧ s.m.poisonAt key 128 = some unit ∧ u.operand = true) ∧
    (∃ i q s u, reqOf i = some q ∧ LetThrough q s ∧ FirstMiss q s u ∧ u.l ≤ 50 ∧ usedLines s.m (s.m.blockOf s.cur).core < 6144 ∧ s.linePlace u.l = none) :=
  ⟨⟨.iadd ⟨0, 5, 2, 3, 0, 0⟩, _, uncached, ⟨0, 5, true⟩, _, rfl, passes_ok (by decide +kernel), missed_ok (by decide +kernel), by decide, by decide +kernel,
    some_ok 0 (by decide +kernel), by decide +kernel⟩,
   ⟨.iadd ⟨0, 5, 2, 3, 0, 0⟩, _, poisoned, ⟨0, 5, true⟩, _, _, rfl, passes_ok (by decide +kernel), missed_ok (by decide +kernel), by decide, by decide +kernel,
    some_ok 0 (by decide +kernel), some_ok 0 (by decide +kernel), rfl⟩,
   ⟨.iadd ⟨0, 5, 2, 3, 0, 0⟩, _, unmapped, ⟨0, 5, true⟩, rfl, passes_ok (by decide +kernel), missed_ok (by decide +kernel), by decide, by decide +kernel, by decide +kernel⟩⟩

theorem witness_OperandChecks : (∃ (i : Instr) (q : Req) (s : State), reqOf i = some q ∧ (Map.find? s.m.warps s.cur).isSome = true ∧ canIssue s.m s.cur = true ∧ s.me.path.spilled = false ∧
      q.words = 2 ∧ s.me.path.pc + 4 = (s.me.path.clause.getD { hdr := 0, word := 0, cls := 0, stop := 0 }).stop) ∧
    (∃ (i : Instr) (q : Req) (s : State) (r : Nat), reqOf i = some q ∧ (Map.find? s.m.warps s.cur).isSome = true ∧ canIssue s.m s.cur = true ∧ s.me.path.spilled = false ∧ i.wf = true ∧
      legalHere i s.me.trap.isSome = true ∧ q.last = false ∧ q.cls = 0 ∧ q.sc = 0 ∧ q.quad = false ∧ q.words = 1 ∧ q.vecs.find? (fun r => decide (s.me.nv ≤ r)) = some r) :=
  ⟨⟨.mma ⟨1, 0, 0, 0, 1, 1, 0⟩, _, base 2 8 id, rfl, by decide +kernel, by decide +kernel, by decide +kernel, by decide +kernel, by decide +kernel⟩,
   ⟨.iadd ⟨0, 47, 2, 3, 0, 0⟩, _, base 0 64 (fun w => { w with nv := 40 }), 47, rfl, by decide +kernel, by decide +kernel, by decide +kernel, by decide, by decide +kernel, by decide,
    by decide, by decide, by decide, by decide, by decide +kernel⟩⟩

theorem witness_SizeCodes : (∃ (z : BitVec 3) (n r : Nat) (sx : Bool) (bs : List Byte), sizeRow z = some (n, r, sx) ∧ bs.length = n ∧ 1 < r) ∧
    (∃ i x, sizedForm i = some x ∧ sizeRow x.z = none) ∧
    (∃ i x n r sx, sizedForm i = some x ∧ sizeRow x.z = some (n, r, sx) ∧ x.d.toNat % r ≠ 0) ∧
    (∃ i, ∃ p ∈ predicateSources i, 8 ≤ p.toNat) ∧ (∃ i d, predicateDestination i = some d ∧ (d = 0 ∨ 8 ≤ d)) :=
  ⟨⟨3, 8, 2, false, [1, 2, 3, 4, 5, 6, 7, 8], rfl, rfl, by decide⟩, ⟨.ld ⟨0, 0, 0, 0, 7, 0⟩, _, rfl, by decide⟩,
   ⟨.st ⟨0, 1, 0, 0, 3, 0⟩, _, 8, 2, false, rfl, rfl, by decide⟩, ⟨.p2v ⟨0, 8, 0⟩, 8, by decide, by decide⟩, ⟨.v2p ⟨0, 0, 0, 0⟩, 0, rfl, .inl rfl⟩⟩

/-- Each word is decoded as the instruction beside it; the words are written out from 03 R53 to R65. -/
def reads (l : List (Nat × Nat × Instr)) : Bool := l.all (fun e => decodeTableWord e.1 e.2.1 == some e.2.2)

theorem test_words_1 :
    reads [(32, 0x053136a4, .iadd ⟨1, 12, 19, 26, 1, 1⟩), (32, 0x053d676d, .isub ⟨1, 15, 22, 29, 1, 3⟩), (32, 0x0549983a, .iadds ⟨1, 18, 25, 32, 1, 6⟩),
      (32, 0x0555c8e7, .isubs ⟨1, 21, 28, 35, 1, 1⟩), (32, 0x0961f9b0, .imul ⟨1, 24, 31, 38, 1, 4⟩), (32, 0x096e2a7d, .imulh ⟨1, 27, 34, 41, 1, 7⟩),
      (32, 0x097a5b2a, .imulhu ⟨1, 30, 37, 44, 1, 2⟩), (32, 0x09868bf7, .iabsd ⟨1, 33, 40, 47, 1, 5⟩), (32, 0x0d92bca4, .imin ⟨1, 36, 43, 50, 1, 1⟩),
      (32, 0x0d9eed6d, .imax ⟨1, 39, 46, 53, 1, 3⟩), (32, 0x0dab1e3a, .umin ⟨1, 42, 49, 56, 1, 6⟩), (32, 0x0db74ee7, .umax ⟨1, 45, 52, 59, 1, 1⟩),
      (32, 0x11c37fb0, .andB ⟨1, 48, 55, 62, 1, 4⟩), (32, 0x11cfa07d, .orB ⟨1, 51, 58, 1, 1, 7⟩), (32, 0x11dbd12a, .xorB ⟨1, 54, 61, 4, 1, 2⟩),
      (32, 0x11e411f7, .andn ⟨1, 57, 1, 7, 1, 5⟩), (32, 0x15f032a4, .shl ⟨1, 60, 3, 10, 1, 1⟩), (32, 0x15fc636d, .shr ⟨1, 63, 6, 13, 1, 3⟩),
      (32, 0x1508943a, .sar ⟨1, 2, 9, 16, 1, 6⟩), (32, 0x1514c4e7, .rol ⟨1, 5, 12, 19, 1, 1⟩), (32, 0x1920f034, .clz ⟨1, 8, 15, 1, 5⟩),
      (32, 0x192d2025, .popc ⟨1, 11, 18, 1, 1⟩), (32, 0x1939502e, .brev ⟨1, 14, 21, 1, 3⟩), (32, 0x1945803b, .iabs ⟨1, 17, 24, 1, 6⟩)] = true := by decide

theorem test_words_2 :
    reads [(32, 0x1d8e2a7e, .icmp ⟨1, 4, 3, 34, 41, 1, 7, 2⟩), (32, 0x215de96c, .sel ⟨1, 23, 30, 37, 1, 3⟩), (32, 0x216a103d, .mov ⟨1, 26, 33, 1, 7⟩),
      (32, 0x2059d012, .p2v ⟨22, 29, 4⟩), (32, 0x2066003b, .v2p ⟨25, 32, 1, 6⟩), (32, 0x258eac7c, .bfx ⟨1, 35, 42, 49, 1, 7⟩),
      (32, 0x259add29, .bfxu ⟨1, 38, 45, 52, 1, 2⟩), (32, 0x25a70df6, .bfi ⟨1, 41, 48, 55, 1, 5⟩), (32, 0x29b33e81, .imla ⟨1, 44, 51, 58, 1⟩),
      (32, 0x2dbf6f44, .iaddmin ⟨1, 47, 54, 61, 4⟩), (32, 0x31cb9047, .isum3 ⟨1, 50, 57, 1, 7⟩), (32, 0x35d7c083, .iaddi ⟨1, 53, 60, 131⟩),
      (32, 0x39e3f086, .andi ⟨1, 56, 63, 134⟩), (32, 0x39ec2489, .ori ⟨1, 59, 2, 137⟩), (32, 0x39f8588c, .xori ⟨1, 62, 5, 140⟩),
      (32, 0x3d04800f, .shli ⟨1, 1, 8, 15⟩), (32, 0x3d10b412, .shri ⟨1, 4, 11, 18⟩), (32, 0x3d1ce815, .sari ⟨1, 7, 14, 21⟩),
      (32, 0x3d291c18, .roli ⟨1, 10, 17, 24⟩), (32, 0x41340094, .movi ⟨1, 13, 148⟩), (32, 0x45400097, .movhi ⟨1, 16, 151⟩),
      (32, 0x496a10a8, .icmpi ⟨1, 3, 2, 33, 168⟩), (32, 0x4c3d6750, .pand ⟨15, 22, 29, 4⟩), (32, 0x4c49981d, .por ⟨18, 25, 32, 7⟩)] = true := by decide

theorem test_words_3 :
    reads [(32, 0x4c55c8ca, .pxor ⟨21, 28, 35, 2⟩), (32, 0x4c61f01b, .pnot ⟨24, 31, 6⟩), (32, 0x516e2a7c, .xlnBack ⟨27, 34, 41, 1, 7⟩),
      (32, 0x517a5b29, .xlnFwd ⟨30, 37, 44, 1, 2⟩), (32, 0x51868bf6, .xlnFlip ⟨33, 40, 47, 1, 5⟩), (32, 0x5192bca7, .xlnFrom ⟨36, 43, 50, 1, 1⟩),
      (32, 0x559ee014, .pgatEvery ⟨39, 46, 5⟩), (32, 0x55ab1005, .pgatSome ⟨42, 49, 1⟩), (32, 0x55b7400e, .pgatMask ⟨45, 52, 3⟩),
      (32, 0x55c0001f, .pgatLive ⟨48, 7⟩), (32, 0x59cfa024, .redxAdd ⟨51, 58, 1, 1⟩), (32, 0x59dbd02d, .redxSmin ⟨54, 61, 1, 3⟩),
      (32, 0x59e4103a, .redxSmax ⟨57, 1, 1, 6⟩), (32, 0x59f03027, .redxFadd ⟨60, 3, 1, 1⟩), (32, 0x5dfc6030, .scanAdd ⟨63, 6, 1, 4⟩),
      (32, 0x5d08903d, .scanXadd ⟨2, 9, 1, 7⟩), (32, 0x5d14c02a, .scanMax ⟨5, 12, 1, 2⟩), (32, 0x5d20f037, .scanMin ⟨8, 15, 1, 5⟩),
      (32, 0x61499838, .fadd ⟨1, 18, 25, 32, 1, 6⟩), (32, 0x6155c8e5, .fsub ⟨1, 21, 28, 35, 1, 1⟩), (32, 0x6161f9b2, .fmul ⟨1, 24, 31, 38, 1, 4⟩),
      (32, 0x616e2a7f, .fdiv ⟨1, 27, 34, 41, 1, 7⟩), (32, 0x657a5b28, .fmin ⟨1, 30, 37, 44, 1, 2⟩), (32, 0x65868bf5, .fmax ⟨1, 33, 40, 47, 1, 5⟩)] = true := by decide

theorem test_words_4 :
    reads [(32, 0x6592bca6, .fminm ⟨1, 36, 43, 50, 1, 1⟩), (32, 0x659eed6f, .fmaxm ⟨1, 39, 46, 53, 1, 3⟩), (32, 0x69ab103c, .fabs ⟨1, 42, 49, 1, 7⟩),
      (32, 0x69b74068, .fneg ⟨1, 45, 52, 1, 2⟩), (32, 0x69c370b4, .fsqrt ⟨1, 48, 55, 1, 5⟩), (32, 0x69cfa0e4, .frcp ⟨1, 51, 58, 1, 1⟩),
      (32, 0x69dbd12c, .frsq ⟨1, 54, 61, 1, 3⟩), (32, 0x69e41178, .fexp2 ⟨1, 57, 1, 1, 6⟩), (32, 0x69f031a4, .flog2 ⟨1, 60, 3, 1, 1⟩),
      (32, 0x69fc61f0, .ffloor ⟨1, 63, 6, 1, 4⟩), (32, 0x6908923c, .fceil ⟨1, 2, 9, 1, 7⟩), (32, 0x6914c268, .ftrunc ⟨1, 5, 12, 1, 2⟩),
      (32, 0x6920f2b4, .frint ⟨1, 8, 15, 1, 5⟩), (32, 0x6d699839, .fcmp ⟨1, 3, 2, 25, 32, 1, 6, 1⟩), (32, 0x71395723, .ffma ⟨1, 14, 21, 28, 35⟩),
      (32, 0x754587e6, .ffms ⟨1, 17, 24, 31, 38⟩), (32, 0x7951b024, .i2f ⟨1, 20, 27, 1, 1⟩), (32, 0x795de070, .u2f ⟨1, 23, 30, 1, 4⟩),
      (32, 0x796a10bc, .f2i ⟨1, 26, 33, 1, 7⟩), (32, 0x797640e8, .f2u ⟨1, 29, 36, 1, 2⟩), (32, 0x79827134, .f2h ⟨1, 32, 39, 1, 5⟩),
      (32, 0x798ea164, .f2hh ⟨1, 35, 42, 1, 1⟩), (32, 0x799ad1ac, .h2f ⟨1, 38, 45, 1, 3⟩), (32, 0x79a701f8, .h2fh ⟨1, 41, 48, 1, 6⟩)] = true := by decide

theorem test_words_5 :
    reads [(32, 0x79b33224, .f2bf ⟨1, 44, 51, 1, 1⟩), (32, 0x79bf6270, .f2bfh ⟨1, 47, 54, 1, 4⟩), (32, 0x79cb92bc, .bf2f ⟨1, 50, 57, 1, 7⟩),
      (32, 0x79d7c2e8, .bf2fh ⟨1, 53, 60, 1, 2⟩), (32, 0x79e3f335, .f2e4 ⟨1, 56, 63, 1, 5, 1⟩), (32, 0x79ec2367, .e42f ⟨1, 59, 2, 1, 1, 3⟩),
      (32, 0x79f853ae, .f2e5 ⟨1, 62, 5, 1, 3, 2⟩), (32, 0x790483f9, .e52f ⟨1, 1, 8, 1, 6, 1⟩), (32, 0x7910b425, .f2lg ⟨1, 4, 11, 1, 1, 1⟩),
      (32, 0x791ce473, .lg2f ⟨1, 7, 14, 1, 4, 3⟩), (32, 0x792914be, .f2i8 ⟨1, 10, 17, 1, 7, 2⟩), (32, 0x793544e9, .i82f ⟨1, 13, 20, 1, 2, 1⟩),
      (32, 0x7d4177b0, .hadd2 ⟨1, 16, 23, 30, 1, 4⟩), (32, 0x7d4da87d, .hmul2 ⟨1, 19, 26, 33, 1, 7⟩), (32, 0x7d59d92a, .badd2 ⟨1, 22, 29, 36, 1, 2⟩),
      (32, 0x7d6609f7, .bmul2 ⟨1, 25, 32, 39, 1, 5⟩), (32, 0x81723ab1, .hfma2 ⟨1, 28, 35, 42, 49⟩), (32, 0x857e6b74, .bfma2 ⟨1, 31, 38, 45, 52⟩),
      (32, 0x898a9c3e, .ld ⟨1, 34, 41, 48, 7, 6⟩), (32, 0x8d96ccd1, .st ⟨1, 37, 44, 51, 2, 1⟩), (32, 0x91a2fdac, .ldp ⟨1, 40, 47, 54, 5, 4⟩),
      (32, 0x95af2e4f, .ldr ⟨1, 43, 50, 57, 1, 7⟩), (32, 0x99bb5f00, .atomAdd ⟨1, 46, 53, 60⟩), (32, 0x99c78fc4, .atomSub ⟨1, 49, 56, 63⟩)] = true := by decide

theorem test_words_6 :
    reads [(32, 0x99d3b088, .atomSmin ⟨1, 52, 59, 2⟩), (32, 0x99dfe14c, .atomSmax ⟨1, 55, 62, 5⟩), (32, 0x99e81210, .atomUmin ⟨1, 58, 1, 8⟩),
      (32, 0x99f442d4, .atomUmax ⟨1, 61, 4, 11⟩), (32, 0x99047398, .atomAnd ⟨1, 1, 7, 14⟩), (32, 0x990ca45c, .atomOr ⟨1, 3, 10, 17⟩),
      (32, 0x9918d520, .atomXor ⟨1, 6, 13, 20⟩), (32, 0x992505e4, .atomExch ⟨1, 9, 16, 23⟩), (32, 0x993136a8, .atomFadd ⟨1, 12, 19, 26⟩),
      (32, 0x993d676c, .atomInc ⟨1, 15, 22, 29⟩), (32, 0x99499830, .atomAdd64 ⟨1, 18, 25, 32⟩), (32, 0x9955c8f4, .atomExch64 ⟨1, 21, 28, 35⟩),
      (32, 0x9d61f99c, .cas ⟨1, 24, 31, 38, 1, 4⟩), (32, 0xa151b881, .snap ⟨20, 27, 34, 1⟩), (32, 0xa5000000, .fenceEng),
      (32, 0xa5040000, .fenceIo), (64, 0xce000000a9938047, .copy ⟨1, 36, 1, 1, 1, 1, 7, 206⟩), (64, 0xca440000ad9e8f03, .gath ⟨1, 39, 1, 1, 60, 3, 202, 17⟩),
      (64, 0xcd500000b3aa8fc6, .scat ⟨3, 42, 1, 1, 63, 6, 205, 20⟩), (64, 0xd05c0000b6b7c400, .coll ⟨2, 45, 1, 3, 2, 1, 208, 23⟩), (32, 0xb9030dc0, .cwait ⟨1, 48, 55⟩),
      (32, 0xbd02ccc0, .ftest ⟨44, 51⟩), (32, 0xbd06fd80, .fcancel ⟨47, 54⟩), (32, 0xbd0b2e40, .fwait ⟨50, 57⟩)] = true := by decide

theorem test_words_7 :
    reads [(32, 0xc103c0ca, .tld ⟨1, 60, 3, 10⟩), (32, 0xc503f18d, .tst ⟨1, 63, 6, 13⟩), (32, 0xcb000002, .tzero ⟨3, 2⟩),
      (32, 0xca040005, .tfree ⟨2, 5⟩), (32, 0xc908800f, .tstate ⟨1, 8, 15⟩), (32, 0xc90c02d2, .tmark ⟨1, 11, 18⟩),
      (32, 0xcf00000e, .arrive ⟨3, 14⟩), (32, 0xce040458, .await ⟨2, 17, 24⟩), (64, 0x000005f7d2356520, .mma ⟨13, 1, 3, 2, 9, 1, 503⟩),
      (64, 0x0038160fd543b600, .drain ⟨16, 1, 1, 5, 44, 3, 2, 1, 1, 527⟩), (32, 0xdb01a840, .azero ⟨3, 26, 33⟩), (32, 0xda05d92b, .asave ⟨2, 29, 36, 43⟩),
      (32, 0xd90a09ee, .aload ⟨1, 32, 39, 46⟩), (32, 0xd90e3a80, .astat ⟨1, 35, 42⟩), (32, 0xddc001ed, .bra ⟨1, 6, 493⟩),
      (32, 0xe12001f0, .call ⟨1, 1, 496⟩), (32, 0xe502c028, .brx ⟨1, 44, 1, 2⟩), (32, 0xe502f035, .callx ⟨1, 47, 1, 5⟩),
      (32, 0xeb000000, .nop ⟨3⟩), (32, 0xe9040000, .ret ⟨1⟩), (32, 0xe9080000, .exitT ⟨1⟩),
      (32, 0xe80c0000, .join), (32, 0xe9100000, .yield), (32, 0xe8140000, .pyield)] = true := by decide

theorem test_words_8 :
    reads [(32, 0xed000204, .jpt ⟨1, 516⟩), (32, 0xf10011ce, .sjoin ⟨1, 7, 14⟩), (32, 0xf1043000, .sleave ⟨3⟩),
      (32, 0xf1086340, .sinfo ⟨6, 13⟩), (32, 0xf30c0000, .bar ⟨1⟩), (32, 0xf3100000, .gbar),
      (32, 0xf114f59d, .launch ⟨15, 22, 29⟩), (32, 0xf1192660, .arm ⟨18, 25, 32⟩), (32, 0xf11d5700, .disarm ⟨21, 28⟩),
      (32, 0xfb01f9ad, .vcreate ⟨1, 31, 38, 45⟩), (32, 0xfb062a70, .vopen ⟨1, 34, 41, 48⟩), (32, 0xfb0a5b00, .vhand ⟨1, 37, 44⟩),
      (32, 0xfb0e8bc0, .vdrop ⟨1, 40, 47⟩), (32, 0xfb12bc80, .vquery ⟨1, 43, 50⟩), (32, 0xfb16ed7c, .vdup ⟨1, 46, 53, 60⟩),
      (32, 0xfd000231, .trap ⟨1, 561⟩), (32, 0xfd04022d, .brk ⟨557⟩), (32, 0xfd0b0dc0, .srd ⟨48, 55⟩),
      (32, 0xfd0f3e80, .swr ⟨51, 58⟩), (32, 0xfd136f40, .clk ⟨54, 61⟩), (32, 0xfd179047, .grow ⟨57, 1, 7⟩),
      (32, 0xfd1bc0ca, .shrink ⟨60, 3, 10⟩), (32, 0xfd1ff000, .tret ⟨63⟩), (32, 0xfd202250, .sample ⟨2, 9, 16⟩)] = true := by decide

/-- An ill-formed term for each check of WellFormed: the check refuses it. -/
theorem test_ill_formed : [Instr.iadd ⟨0, 48, 0, 0, 0, 0⟩, .icmp ⟨0, 0, 0, 0, 0, 0, 0, 0⟩, .icmp ⟨0, 0, 1, 0, 0, 0, 0, 3⟩, .p2v ⟨48, 0, 0⟩,
    .p2v ⟨0, 8, 0⟩, .v2p ⟨0, 0, 0, 0⟩, .v2p ⟨8, 0, 0, 0⟩, .pand ⟨1, 0, 8, 0⟩, .ld ⟨0, 0, 0, 0, 7, 0⟩, .ld ⟨0, 1, 0, 0, 3, 0⟩,
    .ld ⟨0, 2, 0, 0, 4, 0⟩, .atomAdd64 ⟨0, 3, 0, 0⟩, .snap ⟨48, 0, 0, 0⟩, .cwait ⟨1, 4, 0⟩, .cwait ⟨0, 3, 0⟩,
    .sjoin ⟨0, 8, 1⟩, .sjoin ⟨0, 0, 0⟩, .sjoin ⟨0, 0, 5⟩, .sinfo ⟨0, 9⟩, .sinfo ⟨1, 0⟩, .arm ⟨0, 0, 1⟩, .vcreate ⟨1, 0, 0, 2⟩,
    .vopen ⟨1, 0, 0, 2⟩, .vquery ⟨1, 2, 0⟩, .clk ⟨0, 2⟩, .clk ⟨1, 0⟩, .grow ⟨0, 3, 1⟩, .grow ⟨0, 0, 0⟩,
    .shrink ⟨0, 0, 0⟩].all (fun i => !i.wf) = true := by decide

/-- An engine command with a reserved scope, a token of s0 or s63, kind 3, a row base that names no 16-byte value, a reserved
size or column is ill formed. -/
theorem test_ill_formed_engines : [Instr.copy ⟨0, 1, 0, 0, 0, 0, 0, 0⟩, .copy ⟨1, 0, 1, 0, 0, 0, 0, 0⟩, .copy ⟨1, 63, 1, 0, 0, 0, 0, 0⟩,
    .coll ⟨1, 4, 0, 3, 0, 0, 0, 0⟩, .coll ⟨1, 4, 0, 0, 0, 0, 0, 2⟩, .mma ⟨0, 3, 0, 0, 0, 0, 0⟩,
    .drain ⟨0, 1, 0, 0, 0, 3, 0, 0, 0, 0⟩].all (fun i => !i.wf) = true := by decide

end Sys2Proof.Tests
end

section
/-!
PROOFS. The package around the cores: what every move leaves of it (01 R18; 20 R313, R314; 23 R352), what instructions leave of it,
and the state after reset.
-/

namespace Sys2Proof.Machine

/-! What soundness looks at, and outcomes that leave it alone or keep it sound. -/

theorem SoundPackage.of_pcore {p p' : Plat} (h : SoundPackage p) (e : pcore p' = pcore p) : SoundPackage p' := by
  simp only [pcore, Prod.mk.injEq] at e
  obtain ⟨hpower, hslots, hnext, hjournal⟩ := e
  exact ⟨hpower ▸ h.power, hslots ▸ h.slots, hnext ▸ h.next, hjournal ▸ h.journal⟩

/-- Where a move leads on, the package is sound if it was sound as p. -/
structure KeepsSound (p : Plat) (o : Host.Outcome State Fault Refusal) : Prop where
  sound : SoundPackage p → ∀ t, o = .next t → SoundPackage t.p

/-- The state that an event comes to, if it takes place, has what soundness looks at from p. -/
def CoreAt (p : Plat) (r : Option State) : Prop := ∀ t, r = some t → pcore t.p = pcore p

/-- The state that a command comes to has what soundness looks at from s. -/
def CoreAfter (s : State) (r : State × Nat × List (Nat × List Byte)) : Prop := pcore r.1.p = pcore s.p

@[simp] theorem coreAt_none (p : Plat) : CoreAt p none := fun _ h => nomatch h

@[simp] theorem coreAt_some (p : Plat) (t : State) : CoreAt p (some t) ↔ pcore t.p = pcore p :=
  ⟨fun h => h t rfl, fun h _ e => Option.some.inj e ▸ h⟩

theorem CoreAt.map {α : Type} {p : Plat} {f : α → State} (h : ∀ a, pcore (f a).p = pcore p) (o : Option α) : CoreAt p (o.map f) := by
  cases o with
  | none => exact coreAt_none p
  | some a => exact (coreAt_some p _).2 (h a)

theorem CoreAt.bind {α : Type} {p : Plat} {f : α → Option State} (h : ∀ a, CoreAt p (f a)) (o : Option α) : CoreAt p (o.bind f) := by
  cases o with
  | none => exact coreAt_none p
  | some a => exact h a

/-- An event that does not take place under a condition. -/
theorem CoreAt.unless {p : Plat} {c : Prop} [Decidable c] {t : State} (h : pcore t.p = pcore p) : CoreAt p (if c then none else some t) := by
  split
  · exact coreAt_none p
  · exact (coreAt_some p t).2 h

/-- An event that takes place only under a condition. -/
theorem CoreAt.when {p : Plat} {c : Prop} [Decidable c] {t : State} (h : pcore t.p = pcore p) : CoreAt p (if c then some t else none) := by
  split
  · exact (coreAt_some p t).2 h
  · exact coreAt_none p

theorem keepsSound_next {p : Plat} {t : State} (h : SoundPackage p → SoundPackage t.p) : KeepsSound p (.next t) := by
  refine ⟨fun hs t' e => ?_⟩
  cases e
  exact h hs

theorem keepsSound_same (s : State) : KeepsSound s.p (.next s) := keepsSound_next id

theorem keepsSound_event (s : State) (r : Option Mach) : KeepsSound s.p (event s r) := keepsSound_next id

theorem keepsSound_eventAt {s : State} {r : Option State} (h : ∀ t, r = some t → SoundPackage s.p → SoundPackage t.p) :
    KeepsSound s.p (eventAt s r) := by
  refine ⟨fun hs t e => ?_⟩
  rcases eventAt_next e with e | rfl
  · exact h t e hs
  · exact hs

theorem CoreAt.keepsSound {s : State} {r : Option State} (h : CoreAt s.p r) : KeepsSound s.p (eventAt s r) :=
  keepsSound_eventAt fun t e hs => hs.of_pcore (h t e)

/-- A command keeps the package sound where its effect does: the answer changes only the function's registers (20 R306). -/
theorem keepsSound_mailbox (fn : Nat) (early : Bool) {s : State} {f : State → State × Nat × List (Nat × List Byte)}
    (h : SoundPackage s.p → SoundPackage (f s).1.p) : KeepsSound s.p (mailbox fn early s f) := by
  refine keepsSound_eventAt fun t e hs => ?_
  split at e
  · cases e
  · dsimp only at e
    split at e
    · cases e
    · split at e
      · cases early <;> cases e
        · exact hs.of_pcore (pcore_answer _ _ _ _)
        · exact (h hs).of_pcore (pcore_answer _ _ _ _)
      · split at e <;> cases e
        · exact (h hs).of_pcore (pcore_answer _ _ _ _)
        · exact hs

theorem CoreAfter.command {fn : Nat} {s : State} {f : State → State × Nat × List (Nat × List Byte)} (h : CoreAfter s (f s)) :
    KeepsSound s.p (command fn s f) :=
  keepsSound_mailbox fn false fun hs => hs.of_pcore h

theorem CoreAfter.bootCommand {fn : Nat} {s : State} {f : State → State × Nat × List (Nat × List Byte)} (h : CoreAfter s (f s)) :
    KeepsSound s.p (bootCommand fn s f) :=
  keepsSound_mailbox fn true fun hs => hs.of_pcore h

theorem keepsSound_pfCommand (fn : Nat) {s : State} {f : State → State × Nat × List (Nat × List Byte)}
    (h : SoundPackage s.p → SoundPackage (f s).1.p) : KeepsSound s.p (pfCommand fn s f) := by
  unfold pfCommand command
  refine keepsSound_mailbox fn false fun hs => ?_
  split
  · exact h hs
  · exact hs

theorem CoreAfter.pfCommand {fn : Nat} {s : State} {f : State → State × Nat × List (Nat × List Byte)} (h : CoreAfter s (f s)) :
    KeepsSound s.p (pfCommand fn s f) :=
  keepsSound_pfCommand fn fun hs => hs.of_pcore h

/-- A debugger's command changes the machine alone (21 R340). -/
theorem keepsSound_debugCommand (fn ctx : Nat) (s : State) (f : Mach → Option Mach) : KeepsSound s.p (debugCommand fn ctx s f) := by
  refine CoreAfter.command ?_
  repeat' split
  all_goals rfl

/-! Instructions of warps (R20, R83). -/

/-- What an issued instruction comes to: another machine, in a state that is otherwise the same. -/
theorem issuedAs_next {q : Req} {next : Mach → List Nat → Mach} {body : Plat → Mach → List Nat → Except Stop Mach} {s t : State}
    (h : issuedAs q next body s = .next t) : ∃ m, t = { s with m := m } := by
  unfold issuedAs at h
  split at h <;> cases h
  · exact ⟨_, rfl⟩
  · exact ⟨s.m, rfl⟩

theorem exec_issued_next {i : Instr} {q : Req} {s t : State} (hq : reqOf i = some q) (h : exec i s = .next t) :
    ∃ m, t = { s with m := m } := by
  obtain ⟨next, body, hx⟩ := exec_issued hq
  exact issuedAs_next ((hx s).symm.trans h)

theorem keepsSound_issued {i : Instr} {q : Req} (hq : reqOf i = some q) (s : State) : KeepsSound s.p (exec i s) := by
  refine ⟨fun hs t h => ?_⟩
  obtain ⟨m, rfl⟩ := exec_issued_next hq h
  exact hs

/-! Events of launches, services and functions (16, 18, 20). -/

theorem keepsSound_hostLaunchRecord (fn q : Nat) (s : State) : KeepsSound s.p (execHostLaunchRecord fn q s) := by
  refine CoreAt.keepsSound ?_
  dsimp only
  repeat' split
  all_goals simp only [coreAt_none, coreAt_some]
  all_goals rfl

theorem keepsSound_freply (fn ctx seq : Nat) (reply : Word) (s : State) : KeepsSound s.p (execFreply fn ctx seq reply s) := by
  refine CoreAt.keepsSound ?_
  dsimp only
  repeat' split
  all_goals simp only [coreAt_none, coreAt_some]
  all_goals rfl

theorem keepsSound_faultQueueRoom (ctx : Nat) (s : State) : KeepsSound s.p (execFaultQueueRoom ctx s) := by
  refine CoreAt.keepsSound ?_
  repeat' split
  all_goals simp only [coreAt_none, coreAt_some]

theorem keepsSound_queueSelectorWrite (fn q : Nat) (value : Word) (s : State) : KeepsSound s.p (execQueueSelectorWrite fn q value s) :=
  (CoreAt.bind (fun _ => CoreAt.map (fun _ => pcore_updFn ..) _) _).keepsSound

theorem keepsSound_tsync (fn : Nat) (value : Word) (s : State) : KeepsSound s.p (execTsync fn value s) := by
  refine (CoreAt.map (fun f => ?_) _).keepsSound
  split <;> rfl

theorem keepsSound_tsyncComplete (fn : Nat) (s : State) : KeepsSound s.p (execTsyncComplete fn s) :=
  (CoreAt.bind (fun _ => CoreAt.map (fun _ => pcore_updFn ..) _) _).keepsSound

theorem keepsSound_csel (fn : Nat) (value : Word) (s : State) : KeepsSound s.p (execCsel fn value s) := by
  refine (CoreAt.map (fun f => ?_) _).keepsSound
  dsimp only
  split <;> rfl

theorem keepsSound_vfEnable (vf : Nat) (on : Bool) (link : Nat) (s : State) : KeepsSound s.p (execVfEnable vf on link s) := by
  refine CoreAt.keepsSound ?_
  split
  · exact coreAt_none s.p
  · exact CoreAt.unless (pcore_updFn ..)

/-! The fabric, its ports, errors and tests (20 R316 to R318; 21). -/

theorem keepsSound_remoteAccess (src entry : Nat) (acc : RemoteAcc) (s : State) : KeepsSound s.p (execRemoteAccess src entry acc s) := by
  refine CoreAt.keepsSound ?_
  split
  · exact coreAt_none s.p
  · split
    · exact (coreAt_some s.p s).2 rfl
    · rw [apply_ite (CoreAt s.p), coreAt_some, coreAt_some]
      split
      · split
        · exact tagPort_core ..
        · rfl
      · rfl

theorem keepsSound_remoteStoreFailure (port : Nat) (s : State) : KeepsSound s.p (execRemoteStoreFailure port s) :=
  CoreAt.keepsSound (CoreAt.map (fun x => by rfl) _)

theorem keepsSound_portstatClear (port : Nat) (s : State) : KeepsSound s.p (execPortstatClear port s) :=
  CoreAt.keepsSound (CoreAt.map (fun x => by rfl) _)

theorem keepsSound_fabricPortState (port : Nat) (up : Bool) (lanes node : Nat) (s : State) :
    KeepsSound s.p (execFabricPortState port up lanes node s) := by
  refine (CoreAt.bind (fun x => ?_) _).keepsSound
  extract_lets y
  exact CoreAt.unless (by rfl)

theorem keepsSound_linkError (unit : Word) (u : Bool) (s : State) : KeepsSound s.p (execLinkError unit u s) :=
  CoreAt.keepsSound (CoreAt.unless (by exact core_healthAdd ..))

theorem keepsSound_laneRetrain (unit : Word) (s : State) : KeepsSound s.p (execLaneRetrain unit s) :=
  CoreAt.keepsSound (CoreAt.unless (by rfl))

theorem keepsSound_dramRefreshManagement (unit : Word) (waits : List (Nat × Nat)) (s : State) :
    KeepsSound s.p (execDramRefreshManagement unit waits s) :=
  CoreAt.keepsSound (CoreAt.unless (by exact core_healthAdd ..))

theorem keepsSound_scrubOrRefreshError (unit : Word) (addr : Nat) (u : Bool) (syn : Nat) (s : State) :
    KeepsSound s.p (execScrubOrRefreshError unit addr u syn s) :=
  CoreAt.keepsSound (CoreAt.unless (by exact core_healthAdd ..))

theorem keepsSound_predictiveAdvisory (unit : Word) (s : State) : KeepsSound s.p (execPredictiveAdvisory unit s) := by
  refine CoreAt.keepsSound ?_
  split
  · exact coreAt_none s.p
  · exact CoreAt.unless (by rfl)

theorem keepsSound_supervisorDecision (core : Nat) (s : State) : KeepsSound s.p (execSupervisorDecision core s) := by
  refine (CoreAt.map (fun z => ?_) _).keepsSound
  dsimp only
  split <;> rfl

theorem keepsSound_coreFence (core : Nat) (s : State) : KeepsSound s.p (execCoreFence core s) :=
  CoreAt.keepsSound (CoreAt.when (by rfl))

theorem keepsSound_inFieldTest (team : Nat) (failing : List Word) (s : State) : KeepsSound s.p (execInFieldTest team failing s) :=
  CoreAt.keepsSound (CoreAt.unless (by exact foldl_core failUnit failUnit_core failing s))

theorem keepsSound_testAbandon (team : Nat) (s : State) : KeepsSound s.p (execTestAbandon team s) :=
  CoreAt.keepsSound (CoreAt.unless (by rfl))

theorem keepsSound_waitForScan (s : State) : KeepsSound s.p (execWaitForScan s) :=
  keepsSound_next fun hs => hs.of_pcore rfl

/-- A change of the power limit lies between 0 and 2,800 W, or restores the default (01 R18). -/
theorem keepsSound_powerLimitChange (watts : Option Nat) (s : State) : KeepsSound s.p (execPowerLimitChange watts s) := by
  refine keepsSound_eventAt fun t e hs => ?_
  cases watts with
  | none => cases e; exact { hs with power := ⟨by norm_num, le_refl 2800⟩ }
  | some w =>
    dsimp only at e
    split at e
    · cases e
    · next hw => cases e; exact { hs with power := ⟨by dsimp only; omega, by dsimp only; omega⟩ }

/-! The intake of weight sets (20 R319 to R325). -/

theorem keepsSound_shardComplete (ctx set idx : Nat) (data : List Byte) (s : State) : KeepsSound s.p (execShardComplete ctx set idx data s) := by
  refine (CoreAt.map (fun x => ?_) _).keepsSound
  split
  · exact shardGood_core ..
  · exact failGen_core ..
  · rfl

theorem keepsSound_shardCodeError (ctx set idx : Nat) (s : State) : KeepsSound s.p (execShardCodeError ctx set idx s) := by
  refine (CoreAt.map (fun x => ?_) _).keepsSound
  dsimp only
  split
  · rfl
  · exact report_core ..

theorem keepsSound_generationTimeout (ctx set : Nat) (s : State) : KeepsSound s.p (execGenerationTimeout ctx set s) :=
  CoreAt.keepsSound (CoreAt.bind (fun x => CoreAt.map (fun g => by exact timeOutGen_core ..) _) _)

theorem keepsSound_genopen (fn : Nat) (s : State) : KeepsSound s.p (execGenopen fn s) := by
  refine CoreAt.keepsSound ?_
  dsimp only
  repeat' split
  all_goals simp only [coreAt_none, coreAt_some, report_core, intakeTaken_core]

theorem keepsSound_genabort (fn : Nat) (s : State) : KeepsSound s.p (execGenabort fn s) := by
  refine CoreAt.keepsSound ?_
  dsimp only
  repeat' split
  all_goals simp only [coreAt_none, coreAt_some, report_core, timeOutGen_core, intakeTaken_core]

theorem keepsSound_shard (fn : Nat) (s : State) : KeepsSound s.p (execShard fn s) := by
  refine CoreAt.keepsSound ?_
  dsimp only
  repeat' split
  all_goals simp only [coreAt_none, coreAt_some, report_core, submitShard_core, intakeTaken_core]

theorem keepsSound_intakeStatusConsumer (fn : Nat) (value : Word) (s : State) : KeepsSound s.p (execIntakeStatusConsumer fn value s) :=
  (CoreAt.map (fun _ => (flushStatus_core ..).trans (pcore_updFn ..)) _).keepsSound

/-! Commands of the mailbox (20 R306 to R319; 21 R338, R340; 23 R354). -/

theorem keepsSound_createCtx (fn hdr world : Nat) (s : State) : KeepsSound s.p (execCreateCtx fn hdr world s) := by
  refine CoreAfter.command ?_
  dsimp only
  split <;> rfl

theorem keepsSound_runCtx (fn ctx : Nat) (s : State) : KeepsSound s.p (execRunCtx fn ctx s) := by
  refine CoreAfter.command ?_
  repeat' split
  all_goals rfl

theorem keepsSound_stopCommand (fn ctx : Nat) (destroys : Bool) (s : State) : KeepsSound s.p (stopCommand fn ctx destroys s) := by
  unfold stopCommand
  split
  · split
    · exact CoreAfter.command rfl
    · split
      · exact CoreAfter.command rfl
      · exact CoreAt.keepsSound (CoreAt.unless (by rfl))
  · exact CoreAfter.command rfl
  · exact keepsSound_same s

theorem keepsSound_wsreg (fn ctx set handle : Nat) (s : State) : KeepsSound s.p (execWsreg fn ctx set handle s) := by
  refine CoreAfter.command ?_
  repeat' split
  all_goals rfl

theorem keepsSound_quota (fn vf contexts : Nat) (secure : Bool) (s : State) : KeepsSound s.p (execQuota fn vf contexts secure s) := by
  refine CoreAfter.pfCommand ?_
  split <;> rfl

theorem keepsSound_timeparam (fn ctx : Nat) (tp : TimeParam) (s : State) : KeepsSound s.p (execTimeparam fn ctx tp s) := by
  refine CoreAfter.pfCommand ?_
  repeat' split
  all_goals rfl

theorem keepsSound_tagRegion (fn base count world : Nat) (s : State) : KeepsSound s.p (execTagRegion fn base count world s) := by
  refine CoreAfter.pfCommand ?_
  dsimp only
  repeat' split
  all_goals rfl

/-- A table that SLOTS accepts has 512 valid entries (20 R313). -/
theorem tableOk_of_accepted {t : List (BitVec 16)} (hl : t.length = 512) (h : t.all slotEntryOk = true) : TableOk t :=
  ⟨hl, fun e he => slotEntryOk_iff (List.all_eq_true.1 h e he)⟩

theorem keepsSound_slots (fn link : Nat) (entries : List (BitVec 16)) (s : State) : KeepsSound s.p (execSlots fn link entries s) := by
  refine keepsSound_pfCommand fn fun hs => ?_
  split
  · next h =>
    obtain ⟨-, hl, hok⟩ := h
    exact { hs with next := mem_ins' hs.next (tableOk_of_accepted hl hok) }
  · exact hs

/-- Installing the tables that are due keeps every table valid (20 R314). -/
theorem tables_installed {slots : List (Nat × List (BitVec 16))} {due : List (Nat × (Nat × List (BitVec 16)))}
    (h : ∀ e ∈ slots, TableOk e.2) (hd : ∀ e ∈ due, TableOk e.2.2) :
    ∀ e ∈ due.foldl (fun l e => Map.ins l e.1 e.2.2) slots, TableOk e.2 := by
  induction due generalizing slots with
  | nil => exact h
  | cons a due ih =>
    exact ih (mem_ins' h (hd a List.mem_cons_self)) fun e he => hd e (List.mem_cons_of_mem _ he)

theorem keepsSound_slotTableInstall (link : Nat) (s : State) : KeepsSound s.p (execSlotTableInstall link s) := by
  refine keepsSound_eventAt fun t e hs => ?_
  obtain ⟨x, -, rfl⟩ := Option.map_eq_some_iff.1 e
  exact { hs with
    slots := tables_installed hs.slots fun e he => hs.next e (List.mem_of_mem_filter he)
    next := fun e he => hs.next e (List.mem_of_mem_filter he) }

theorem keepsSound_exportEntry (fn entry : Nat) (e : ExportEntry) (s : State) : KeepsSound s.p (execExportEntry fn entry e s) := by
  refine CoreAfter.pfCommand ?_
  split
  · rfl
  · extract_lets secure
    split <;> rfl

theorem keepsSound_lend (fn team ctx : Nat) (s : State) : KeepsSound s.p (execLend fn team ctx s) := by
  refine CoreAfter.pfCommand ?_
  dsimp only
  repeat' split
  all_goals rfl

theorem keepsSound_lendRevoke (fn team : Nat) (s : State) : KeepsSound s.p (execLendRevoke fn team s) := by
  unfold execLendRevoke
  split
  · refine CoreAt.keepsSound ?_
    split
    · exact CoreAt.map (fun c => (rfl : pcore (revoke s team c).p = _)) _
    · exact coreAt_none s.p
  · refine CoreAfter.pfCommand ?_
    split <;> rfl

theorem keepsSound_nvmegrant (fn ctx ns : Nat) (grant : Bool) (s : State) : KeepsSound s.p (execNvmegrant fn ctx ns grant s) := by
  refine CoreAfter.pfCommand ?_
  split <;> rfl

theorem keepsSound_errring (fn addr entries : Nat) (s : State) : KeepsSound s.p (execErrring fn addr entries s) := by
  refine CoreAfter.command ?_
  split <;> rfl

theorem keepsSound_fencemap (fn : Nat) (s : State) : KeepsSound s.p (execFencemap fn s) := CoreAfter.pfCommand rfl

theorem keepsSound_health (fn : Nat) (unit : Word) (s : State) : KeepsSound s.p (execHealth fn unit s) := by
  refine CoreAfter.pfCommand ?_
  split <;> rfl

theorem keepsSound_testTeam (fn team : Nat) (s : State) : KeepsSound s.p (execTestTeam fn team s) := by
  refine CoreAfter.pfCommand ?_
  repeat' split
  all_goals rfl

theorem keepsSound_attest (fn : Nat) (nonce : List Byte) (addr : Nat) (s : State) : KeepsSound s.p (execAttest fn nonce addr s) := by
  refine CoreAfter.bootCommand ?_
  split <;> rfl

theorem keepsSound_identity (fn addr len : Nat) (s : State) : KeepsSound s.p (execIdentity fn addr len s) := by
  refine CoreAfter.bootCommand ?_
  dsimp only
  split <;> rfl

theorem keepsSound_journalRead (fn addr : Nat) (s : State) : KeepsSound s.p (execJournalRead fn addr s) := by
  refine CoreAfter.bootCommand ?_
  split <;> rfl

theorem keepsSound_journalClear (fn : Nat) (s : State) : KeepsSound s.p (execJournalClear fn s) := by
  unfold execJournalClear bootCommand
  refine keepsSound_mailbox fn true fun hs => ?_
  split
  · exact hs
  · exact { hs with journal := ⟨Nat.zero_le 256, fun e he => nomatch he⟩ }

theorem keepsSound_imagewrite (fn stage slot addr len : Nat) (s : State) : KeepsSound s.p (execImagewrite fn stage slot addr len s) := by
  refine CoreAfter.bootCommand ?_
  dsimp only
  repeat' split
  all_goals rfl

theorem keepsSound_debugStop (fn ctx : Nat) (s : State) : KeepsSound s.p (execDebugStop fn ctx s) :=
  keepsSound_debugCommand fn ctx s _

theorem keepsSound_debugReleaseWarp (fn ctx : Nat) (w : WarpName) (s : State) : KeepsSound s.p (execDebugReleaseWarp fn ctx w s) :=
  keepsSound_debugCommand fn ctx s _

theorem keepsSound_debugReleaseAll (fn ctx : Nat) (s : State) : KeepsSound s.p (execDebugReleaseAll fn ctx s) :=
  keepsSound_debugCommand fn ctx s _

theorem keepsSound_debugSetBreakpoint (fn ctx entry code ordinal : Nat) (s : State) : KeepsSound s.p (execDebugSetBreakpoint fn ctx entry code ordinal s) :=
  keepsSound_debugCommand fn ctx s _

theorem keepsSound_debugClearBreakpoint (fn ctx entry : Nat) (s : State) : KeepsSound s.p (execDebugClearBreakpoint fn ctx entry s) :=
  keepsSound_debugCommand fn ctx s _

theorem keepsSound_debugDump (fn ctx : Nat) (w : WarpName) (s : State) : KeepsSound s.p (execDebugDump fn ctx w s) :=
  keepsSound_debugCommand fn ctx s _

/-! What the mailbox submits is one of these commands (20 R306; 21 R340; 23 R354). -/

theorem keepsSound_debugCode (fn : Nat) (c : List Byte) (s : State) : KeepsSound s.p (debugCode fn c s) := by
  unfold debugCode
  dsimp only
  split
  · exact keepsSound_debugStop ..
  · exact keepsSound_debugReleaseWarp ..
  · exact keepsSound_debugReleaseAll ..
  · exact keepsSound_debugSetBreakpoint ..
  · exact keepsSound_debugClearBreakpoint ..
  · exact keepsSound_debugDump ..
  · exact CoreAfter.command rfl

theorem keepsSound_pfCode (fn code : Nat) (c : List Byte) (s : State) : KeepsSound s.p (pfCode fn code c s) := by
  unfold pfCode
  split
  · exact keepsSound_quota ..
  · exact keepsSound_timeparam ..
  · exact keepsSound_tagRegion ..
  · exact keepsSound_slots ..
  · exact keepsSound_exportEntry ..
  · split
    · exact keepsSound_lendRevoke ..
    · exact keepsSound_lend ..
  · exact keepsSound_nvmegrant ..
  · exact keepsSound_fencemap ..
  · exact keepsSound_health ..
  · exact keepsSound_testTeam ..
  · split
    · exact keepsSound_journalRead ..
    · split
      · exact keepsSound_journalClear ..
      · exact CoreAfter.bootCommand rfl
  · exact keepsSound_imagewrite ..
  · exact CoreAfter.command rfl

theorem keepsSound_submit (fn : Nat) (c : List Byte) (s : State) : KeepsSound s.p (submit fn c s) := by
  unfold submit
  split
  · exact keepsSound_createCtx ..
  · exact keepsSound_runCtx ..
  · exact keepsSound_stopCommand ..
  · exact keepsSound_stopCommand ..
  · exact keepsSound_wsreg ..
  · exact keepsSound_errring ..
  · exact keepsSound_debugCode ..
  · exact keepsSound_attest ..
  · exact keepsSound_identity ..
  · exact keepsSound_pfCode ..

theorem keepsSound_registerWrite (fn off : Nat) (value : Word) (s : State) : KeepsSound s.p (execRegisterWrite fn off value s) := by
  unfold execRegisterWrite
  split
  · exact keepsSound_same s
  · split
    · exact keepsSound_submit ..
    · refine CoreAt.keepsSound ?_
      split
      · exact coreAt_none s.p
      · rw [coreAt_some]
        split <;> rfl

/-! Starts and the loss of power (23 R348 to R353). -/

/-- A package that has started anew, or is off, is sound where its journal is kept: it has the default power limit and the start
tables of R315. -/
theorem soundPackage_reset {p : Plat} (h : JournalOk p.boot) (hpower : p.power = 2800) (hslots : p.slots = []) (hnext : p.slotsNext = []) :
    SoundPackage p where
  power := by rw [hpower]; decide
  slots := by rw [hslots]; exact fun e he => nomatch he
  next := by rw [hnext]; exact fun e he => nomatch he
  journal := h

theorem soundPackage_down (s : State) {b : Boot} (h : JournalOk b) : SoundPackage (s.down b).p :=
  soundPackage_reset (p := (s.down b).p) (h.of rfl) rfl rfl rfl

theorem soundPackage_booted (s : State) {b : Boot} (h : JournalOk b) : SoundPackage (s.booted b).p := by
  unfold State.booted
  split
  · exact soundPackage_down s h
  · split <;> exact soundPackage_reset (h.of rfl) rfl rfl rfl

theorem start_ok {b : Boot} (h : JournalOk b) (rs : List Bool) : JournalOk (b.start rs) := by
  unfold Boot.start
  exact chain_ok (b := { b with count := b.count + 1, meas := [], commit := [] }) h rs _

theorem keepsSound_packageStart (reports : List Bool) (s : State) : KeepsSound s.p (execPackageStart reports s) := by
  refine keepsSound_eventAt fun t e hs => ?_
  have hj : JournalOk s.p.boot := hs.journal
  split at e
  · cases e
  · next stage _ =>
    split at e
    · cases e
    · have hr := report_ok hj stage reports
      split at e
      · next b rs hb =>
        rw [hb] at hr
        have hc := chain_ok hr rs ((rangeFrom 1 6).filter (fun i => decide (stage < i)))
        cases e
        split
        · exact soundPackage_booted s hc
        · exact { hs with journal := hc }
      · cases e
      · next b hb =>
        rw [hb] at hr
        cases e
        exact soundPackage_booted s hr
  · cases e
    exact soundPackage_booted s (start_ok hj reports)

theorem keepsSound_stageTimeout (s : State) : KeepsSound s.p (execStageTimeout s) := by
  refine keepsSound_eventAt fun t e hs => ?_
  split at e <;> cases e
  exact soundPackage_booted s (JournalOk.stepFails hs.journal _ 6)

theorem keepsSound_powerLoss (midWrite : Bool) (s : State) : KeepsSound s.p (execPowerLoss midWrite s) := by
  refine keepsSound_eventAt fun t e hs => ?_
  split at e <;> cases e
  exact soundPackage_down s hs.journal

/-! One step. -/

/-- Every event keeps the package sound; those that only change the machine leave it alone. -/
theorem keepsSound_exec_event {i : Instr} (hi : reqOf i = none) (s : State) : KeepsSound s.p (exec i s) := by
  cases i <;> try (cases hi; done)
  case hostLaunchRecord => exact keepsSound_hostLaunchRecord ..
  case freply => exact keepsSound_freply ..
  case faultQueueRoom => exact keepsSound_faultQueueRoom ..
  case queueSelectorWrite => exact keepsSound_queueSelectorWrite ..
  case tsync => exact keepsSound_tsync ..
  case tsyncComplete => exact keepsSound_tsyncComplete ..
  case csel => exact keepsSound_csel ..
  case vfEnable => exact keepsSound_vfEnable ..
  case remoteAccess => exact keepsSound_remoteAccess ..
  case remoteStoreFailure => exact keepsSound_remoteStoreFailure ..
  case portstatClear => exact keepsSound_portstatClear ..
  case fabricPortState => exact keepsSound_fabricPortState ..
  case linkError => exact keepsSound_linkError ..
  case laneRetrain => exact keepsSound_laneRetrain ..
  case dramRefreshManagement => exact keepsSound_dramRefreshManagement ..
  case scrubOrRefreshError => exact keepsSound_scrubOrRefreshError ..
  case predictiveAdvisory => exact keepsSound_predictiveAdvisory ..
  case supervisorDecision => exact keepsSound_supervisorDecision ..
  case coreFence => exact keepsSound_coreFence ..
  case inFieldTest => exact keepsSound_inFieldTest ..
  case testAbandon => exact keepsSound_testAbandon ..
  case waitForScan => exact keepsSound_waitForScan ..
  case powerLimitChange => exact keepsSound_powerLimitChange ..
  case shardComplete ctx set idx data => exact keepsSound_shardComplete ctx set idx data s
  case shardCodeError => exact keepsSound_shardCodeError ..
  case generationTimeout => exact keepsSound_generationTimeout ..
  case genopen => exact keepsSound_genopen ..
  case genabort => exact keepsSound_genabort ..
  case shard => exact keepsSound_shard ..
  case intakeStatusConsumer => exact keepsSound_intakeStatusConsumer ..
  case createCtx => exact keepsSound_createCtx ..
  case runCtx => exact keepsSound_runCtx ..
  case resetCtx => exact keepsSound_stopCommand ..
  case destroyCtx => exact keepsSound_stopCommand ..
  case wsreg => exact keepsSound_wsreg ..
  case quota => exact keepsSound_quota ..
  case timeparam => exact keepsSound_timeparam ..
  case tagRegion => exact keepsSound_tagRegion ..
  case slots => exact keepsSound_slots ..
  case slotTableInstall => exact keepsSound_slotTableInstall ..
  case exportEntry => exact keepsSound_exportEntry ..
  case lend => exact keepsSound_lend ..
  case lendRevoke => exact keepsSound_lendRevoke ..
  case nvmegrant => exact keepsSound_nvmegrant ..
  case errring => exact keepsSound_errring ..
  case debugStop => exact keepsSound_debugStop ..
  case debugReleaseWarp => exact keepsSound_debugReleaseWarp ..
  case debugReleaseAll => exact keepsSound_debugReleaseAll ..
  case debugSetBreakpoint => exact keepsSound_debugSetBreakpoint ..
  case debugClearBreakpoint => exact keepsSound_debugClearBreakpoint ..
  case debugDump => exact keepsSound_debugDump ..
  case fencemap => exact keepsSound_fencemap ..
  case health => exact keepsSound_health ..
  case testTeam => exact keepsSound_testTeam ..
  case attest => exact keepsSound_attest ..
  case identity => exact keepsSound_identity ..
  case journalRead => exact keepsSound_journalRead ..
  case journalClear => exact keepsSound_journalClear ..
  case imagewrite => exact keepsSound_imagewrite ..
  case registerWrite => exact keepsSound_registerWrite ..
  case packageStart => exact keepsSound_packageStart ..
  case stageTimeout => exact keepsSound_stageTimeout ..
  case powerLoss => exact keepsSound_powerLoss ..
  all_goals exact keepsSound_event ..

theorem keepsSound_exec (i : Instr) (s : State) : KeepsSound s.p (exec i s) := by
  cases hq : reqOf i with
  | some q => exact keepsSound_issued hq s
  | none => exact keepsSound_exec_event hq s

theorem returnTeam_core (s : State) (t : Nat) : pcore (returnTeam s t).p = pcore s.p := by
  unfold returnTeam
  dsimp only
  split
  · rfl
  · split <;> rfl

theorem pumpGens_core (s : State) : pcore (pumpGens s).p = pcore s.p :=
  foldl_core _ (fun s x => by exact report_core ..) _ _

theorem finishStop_core (s : State) (c : Nat) : pcore (finishStop s c).p = pcore s.p := by
  unfold finishStop
  split
  · rfl
  · split
    · rfl
    · split <;> exact pcore_answer ..

/-- What the package does by itself between two moves changes nothing that soundness looks at. -/
theorem between_core (s : State) : pcore (between s).p = pcore s.p := by
  let pumped : State := { s with m := pump s.m }
  calc pcore (between s).p
      = pcore (enterAll (pumpSent (pumpGens (pumpTeams pumped)))).p := foldl_core _ finishStop_core _ _
    _ = pcore (pumpGens (pumpTeams pumped)).p := rfl
    _ = pcore (pumpTeams pumped).p := pumpGens_core _
    _ = pcore s.p := foldl_core _ returnTeam_core _ _

theorem keepsSound_noted {p : Plat} {o : Host.Outcome State Fault Refusal} (h : KeepsSound p o) : KeepsSound p (noted o) := by
  cases o with
  | next x => exact keepsSound_next fun hs => h.sound hs x rfl
  | fault f => exact ⟨fun _ _ e => nomatch e⟩
  | refused r => exact ⟨fun _ _ e => nomatch e⟩

theorem passTurn_plat (s : State) : (passTurn s).p = s.p := rfl

/-- What follows a move keeps the package sound. -/
theorem keepsSound_followed {p : Plat} {o : Host.Outcome State Fault Refusal} (pass : Bool) (h : KeepsSound p o) :
    KeepsSound p (followed pass o) := by
  cases o with
  | next x =>
    refine keepsSound_next fun hs => ?_
    have hb : SoundPackage (between x).p := (h.sound hs x rfl).of_pcore (between_core x)
    split
    · rwa [passTurn_plat]
    · exact hb
  | fault f => exact ⟨fun _ _ e => nomatch e⟩
  | refused r => exact ⟨fun _ _ e => nomatch e⟩

theorem keepsSound_runWarp (s : State) : KeepsSound s.p (runWarp s) := by
  unfold runWarp
  split
  · exact keepsSound_noted (keepsSound_next id)
  · exact keepsSound_noted (keepsSound_next id)
  · next m i _ => exact keepsSound_noted (keepsSound_exec i { s with m := m })

theorem keepsSound_move (s : State) : KeepsSound s.p (move s) := by
  unfold move
  split
  · exact keepsSound_event s _
  · split
    · next i rest _ => exact keepsSound_exec i { s with agenda := rest, tried := [] }
    · next k rest _ =>
      split
      · exact keepsSound_runWarp { s with agenda := rest, cur := k }
      · exact keepsSound_next id
    · split
      · exact keepsSound_runWarp s
      · exact keepsSound_same s

/-- Settles O52: a move keeps the package sound, and what follows it leaves the package's power limit, tables and journal alone. -/
theorem packageStays : Obligations.PackageStays := by
  intro s s' hs h
  rw [step_eq] at h
  exact (keepsSound_followed _ (keepsSound_move s)).sound hs s' h

/-- Settles O53: the instruction's effect is a machine, and the rest of the state is taken over. -/
theorem warpsLeavePackage : Obligations.WarpsLeavePackage := by
  intro i q s t hq h
  obtain ⟨m, rfl⟩ := exec_issued_next hq h
  exact ⟨rfl, rfl, rfl⟩

/-! The state after reset (R18, R348). -/

theorem soundPackage_afterReset : SoundPackage State.reset.p :=
  soundPackage_reset ⟨by decide, fun e he => nomatch he⟩ rfl rfl rfl

/-- No warp may issue and nothing is due. -/
theorem step_reset : step State.reset = .next State.reset := rfl

/-- Settles O55: every field by its definition, the sound package as that of any start, and the step by running it. -/
theorem resetState : Obligations.ResetState :=
  ⟨rfl, rfl, soundPackage_afterReset, rfl, rfl, rfl, rfl, rfl, rfl, rfl, rfl, step_reset⟩

end Sys2Proof.Machine
end

section
/-!
PROOFS. Events of the package: messages and accesses that come over the fabric (16 R266; 20 R316, R317), ports (20 R318), errors and
their counters (21 R337 to R341), the power limit (01 R18), and the supervisor, fences and tests (21 R331 to R334).
-/

namespace Sys2Proof.Machine

/-! Tagged messages (16 R266). -/

/-- A message that has just come, for a launch whose armed record is raw. -/
def arrived (raw : List Byte) (bytes : List (Nat × Byte)) (n : Nat) : Mail :=
  { raw := raw, bytes := bytes, n := n, svc := none, refused := false }

/-- The launch of a message fires: its record, with the length of the payload, is one of the context's that have fired. -/
def fireMail (p : Plat) (c : Nat) (y : Mail) (m : Mach) (lost : Bool) (pts : Nat) : Mach :=
  enterFired p (m.updCtx c (fun x =>
    { x with fired := x.fired ++ [(lost, pts, y.raw.take 0x54 ++ bytesOfNat 4 y.n ++ y.raw.drop 0x58)] })) c

theorem deliverMail_lost {p : Plat} {m : Mach} {c : Nat} {y : Mail} (hy : y.refused = false)
    (h : payloadWrites m c (LaunchRec.ofBytes y.raw) y.bytes y.n = .ok none) : deliverMail p m c y = fireMail p c y m true 0 := by
  unfold deliverMail
  rw [if_neg (by rw [hy]; exact Bool.false_ne_true), h]
  rfl

theorem deliverMail_stored {p : Plat} {m : Mach} {c : Nat} {y : Mail} {ws : List ByteWrite} (hy : y.refused = false)
    (h : payloadWrites m c (LaunchRec.ofBytes y.raw) y.bytes y.n = .ok (some ws)) :
    deliverMail p m c y =
      let r := engineStores (writeBytes m ws) 0 (ws.map (fun (x : ByteWrite) => x.key))
      fireMail p c y r.1 false r.2 := by
  unfold deliverMail
  rw [if_neg (by rw [hy]; exact Bool.false_ne_true), h]
  rfl

theorem deliverMail_waits {p : Plat} {m : Mach} {c va size off : Nat} {y : Mail} (hy : y.refused = false)
    (h : payloadWrites m c (LaunchRec.ofBytes y.raw) y.bytes y.n = .error (.miss va size off)) :
    deliverMail p m c y =
      let r := deviceMiss m c ((LaunchRec.ofBytes y.raw).args.getD 6 0).toNat va size
      r.1.updCtx c (fun x => { x with mail := x.mail ++ [{ y with svc := r.2 }] }) := by
  unfold deliverMail
  rw [if_neg (by rw [hy]; exact Bool.false_ne_true), h]

theorem fireArm_dropped {p : Plat} {m : Mach} {c tag n : Nat} {bytes : List (Nat × Byte)} (h : Map.find? (m.ctx c).arms tag = none) :
    fireArm p m c tag bytes n = m.count c 63 1 := by
  unfold fireArm
  rw [h]

theorem fireArm_armed {p : Plat} {m : Mach} {c tag n : Nat} {bytes : List (Nat × Byte)} {raw : List Byte}
    (h : Map.find? (m.ctx c).arms tag = some raw) :
    fireArm p m c tag bytes n =
      deliverMail p (m.updCtx c (fun x => { x with arms := Map.del x.arms tag })) c (arrived raw bytes n) := by
  unfold fireArm
  rw [h]
  rfl

theorem fabricMessage_fires {c : Nat} {x : Ctx} {s : State} (hx : Map.find? s.m.ctxs c = some x) (tag : Nat) (bytes : List Byte) :
    Does (.fabricMessage c tag bytes) s (fireArm s.p s.m c tag (bytes.zipIdx.map (fun b => (b.2, b.1))) bytes.length) :=
  ev_does rfl (if_neg (by rw [hx]; exact Bool.false_ne_true))

/-! Accesses of other packages (20 R316, R317). -/

theorem remoteAccess_noEntry {src entry : Nat} {a : RemoteAcc} {s : State} (ho : remoteOk a = true)
    (he : Map.find? s.m.exports entry = none) : exec (.remoteAccess src entry a) s = .next s :=
  at_next rfl (by rw [ho, he]; rfl)

theorem remoteAccess_atPort {src entry : Nat} {a : RemoteAcc} {e : ExportEntry} {s : State} (ho : remoteOk a = true)
    (he : Map.find? s.m.exports entry = some e) (ht : e.typ = 2) :
    exec (.remoteAccess src entry a) s = .next (if a.op = 1 ∧ s.m.admits e src then tagPort s src entry e a else s) := by
  refine at_next rfl ?_
  rw [ho, he]
  exact if_pos ht

theorem remoteAccess_atHandle {src entry : Nat} {a : RemoteAcc} {e : ExportEntry} {s : State} (ho : remoteOk a = true)
    (he : Map.find? s.m.exports entry = some e) (ht : e.typ ≠ 2) :
    Does (.remoteAccess src entry a) s (remoteAccess s.m e src a) := by
  refine at_does rfl ?_
  rw [ho, he]
  exact if_neg ht

theorem remotePlace_notAdmitted {m : Mach} {e : ExportEntry} {src : Nat} (h : m.admits e src = false) (u : Use) (acc : Acc) (off n : Nat) :
    remotePlace m e src u acc off n = none := by
  unfold remotePlace
  exact if_pos (.inr (by rw [h]; rfl))

/-- Only a load asks for R. -/
theorem remoteUse_read (a : RemoteAcc) : (remoteUse a).2.1 = .read ↔ a.op = 0 := by
  unfold remoteUse
  dsimp only
  split
  · next h => simp [h]
  · next h =>
    split
    · simp [h]
    · split <;> simp [h]

section
variable {m : Mach} {e : ExportEntry} {src key : Nat} {a : RemoteAcc}

theorem remoteAccess_refused (h : remotePlace m e src (remoteUse a).1 (remoteUse a).2.1 a.off a.size = none) :
    remoteAccess m e src a = m := by
  unfold remoteAccess
  dsimp only
  rw [h]

/-- The bytes that an access of a.size bytes at a key finds. -/
def foundBytes (m : Mach) (key n : Nat) : List Byte := ((List.range n).map (key + ·)).map (fun k => (engineByte m [] k).1)

theorem remoteAccess_writes {new : List Byte} (h : remotePlace m e src (remoteUse a).1 (remoteUse a).2.1 a.off a.size = some key)
    (hn : (remoteUse a).2.2 (foundBytes m key a.size) = some new) :
    remoteAccess m e src a = ((engineStores m 0 ((List.range a.size).map (key + ·))).1.poke key new).tickOn := by
  unfold foundBytes at hn
  unfold remoteAccess
  dsimp only
  rw [h]
  dsimp only
  rw [hn]

theorem remoteAccess_keeps (h : remotePlace m e src (remoteUse a).1 (remoteUse a).2.1 a.off a.size = some key)
    (hn : (remoteUse a).2.2 (foundBytes m key a.size) = none) :
    remoteAccess m e src a =
      (if (remoteUse a).2.1 = .read then (engineLoads m 0 ((List.range a.size).map (key + ·))).1
       else (engineStores m 0 ((List.range a.size).map (key + ·))).1).tickOn := by
  unfold foundBytes at hn
  unfold remoteAccess
  dsimp only
  rw [h]
  dsimp only
  rw [hn]

end

/-! Ports (20 R318). -/

/-- A port after its state has changed: one that is down has no node at its other end. -/
def Port.changed (x : Port) (up : Bool) (lanes node : Nat) : Port :=
  { x with up := up, lanes := if up then lanes else 0, node := if up then node else 0xFFF }

theorem fabricPortState_changes {port lanes node : Nat} {up : Bool} {x : Port} {s : State} (hx : Map.find? s.p.ports port = some x)
    (hl : lanes ≤ 8) (hn : node < 0xFFF) (hu : up = true → Map.find? s.p.boot.meas 5 ≠ none) (hy : x.changed up lanes node ≠ x) :
    exec (.fabricPortState port up lanes node) s =
      .next { s with m := s.m.raise 0 5, p := { s.p with ports := Map.ins s.p.ports port (x.changed up lanes node) } } := by
  refine at_next rfl ?_
  rw [hx]
  refine if_neg ?_
  rintro (h | h | h | ⟨h1, h2⟩)
  · omega
  · omega
  · exact hy h
  · exact hu h1 (Option.isNone_iff_eq_none.1 h2)

theorem remoteStoreFailure_fails {port : Nat} {x : Port} {s : State} (hx : Map.find? s.p.ports port = some x) :
    exec (.remoteStoreFailure port) s = .next { s with p := { s.p with ports := Map.ins s.p.ports port { x with failed := true } } } :=
  at_next rfl (by rw [hx]; rfl)

theorem portstatClear_clears {port : Nat} {x : Port} {s : State} (hx : Map.find? s.p.ports port = some x) :
    exec (.portstatClear port) s = .next { s with p := { s.p with ports := Map.ins s.p.ports port { x with failed := false } } } :=
  at_next rfl (by rw [hx]; rfl)

/-! Errors and their counters (21 R337 to R341). -/

theorem predictiveAdvisory_records {unit : Word} {k : Nat} {s : State} (hk : healthKind unit = some k)
    (h : k = 0 ∨ 64 < (healthOf s.p unit).headD 0) :
    exec (.predictiveAdvisory unit) s = .next { s with m := errRecord s.m 6 1 unit 0 0 0 none 0 } := by
  refine at_next rfl ?_
  rw [hk]
  refine if_neg ?_
  rintro ⟨h0, hc⟩
  omega

theorem scrubOrRefreshError_records {unit : Word} {addr : Nat} {s : State} (hk : bits unit 20 14 = 16 ∨ bits unit 20 14 = 17)
    (hu : unitHolds unit addr = true) (u : Bool) (syn : Nat) :
    exec (.scrubOrRefreshError unit addr u syn) s =
      .next { s with
        m := errRecord (if u = true then s.m.mark (Space.dev.key addr / 16) unit else s.m) (unitClass unit) (if u = true then 1 else 0) unit
          (syn % 2 ^ 64) addr 0 none 0
        p := healthAdd s.p unit [if u = true then 1 else 0] } := by
  refine at_next rfl (if_neg ?_)
  rw [hu]
  rintro (⟨h1, h2⟩ | h)
  · omega
  · cases h

/-! The supervisor, fences and tests (21 R331 to R334). -/

theorem supervisorDecision_decides {core : Nat} {z : Freeze} {s : State} (hz : Map.find? s.m.frozen core = some z) :
    let m : Mach := { s.m with frozen := Map.del s.m.frozen core }
    let bks := ((seatedOn m core).filter (fun e => !blockComplete m e.1)).map (·.1)
    exec (.supervisorDecision core) s =
      .next { s with
        m := preemptMates (bks.foldl (fun m bk => decideBlock m z bk) m) bks
        p := if z.memory = true ∨ core ∈ s.p.fencing then s.p else { s.p with fencing := s.p.fencing ++ [core] } } := by
  intro m bks
  refine at_next rfl ?_
  rw [hz, Option.map_some, Option.some_inj]
  have hp : (if z.memory = true ∨ s.p.fencing.contains core = true then s.p else { s.p with fencing := s.p.fencing ++ [core] }) =
      if z.memory = true ∨ core ∈ s.p.fencing then s.p else { s.p with fencing := s.p.fencing ++ [core] } :=
    if_congr (or_congr Iff.rfl List.contains_iff_mem) rfl rfl
  dsimp only
  rw [hp]

theorem coreFence_due_iff (s : State) (core : Nat) :
    ((s.p.fencing.contains core || s.m.suspects.contains core) && (seatedOn s.m core).isEmpty && !s.p.fenced.contains core) = true ↔
      (core ∈ s.p.fencing ∨ core ∈ s.m.suspects) ∧ seatedOn s.m core = [] ∧ core ∉ s.p.fenced := by
  simp [and_assoc]

theorem mem_fenced_fenceCore (s : State) (core : Nat) : core ∈ (fenceCore s core).p.fenced := by
  unfold fenceCore
  dsimp only
  split
  · next h => exact List.contains_iff_mem.1 h
  · exact List.mem_append_right _ List.mem_cons_self

theorem inFieldTest_tests {team : Nat} {failing : List Word} {s : State} (hi : teamIdle s team = true)
    (hf : ∀ u ∈ failing, bits u 31 26 = team) :
    let s1 := failing.foldl failUnit s
    exec (.inFieldTest team failing) s = .next { s1 with
      m := { scrubTeam s1.m team with testDue := (scrubTeam s1.m team).testDue.filter (fun t => t != team) } } := by
  refine at_next rfl (if_neg ?_)
  rw [hi]
  rintro (h | h)
  · cases h
  · obtain ⟨u, hu, hne⟩ := List.any_eq_true.1 h
    exact absurd (hf u hu) (by simpa using hne)

theorem testAbandon_abandons {team : Nat} {s : State} (ht : team < 32) (hl : s.p.isLent team = false)
    (hb : ∀ e ∈ s.m.blocks, ¬ (e.2.seated = true ∧ teamOf e.2.core = team)) :
    let m := scrubTeam s.m team
    exec (.testAbandon team) s = .next { s with
      m := { m with testDue := if team ∈ m.testDue then m.testDue else m.testDue ++ [team] } } := by
  intro m
  have hd : (if m.testDue.contains team = true then m.testDue else m.testDue ++ [team]) =
      if team ∈ m.testDue then m.testDue else m.testDue ++ [team] := if_congr List.contains_iff_mem rfl rfl
  rw [← hd]
  refine at_next rfl (if_neg ?_)
  rw [hl]
  rintro (h | h | h)
  · omega
  · cases h
  · obtain ⟨e, he, hs⟩ := List.any_eq_true.1 h
    exact hb e he (by simpa using hs)

/-- Settles O48, clause by clause from what each event does. -/
theorem platformEvents : Obligations.PlatformEvents := by
  refine ⟨?message, ?access, ?port, ?error, ?power, ?supervisor, ?fence, ?test, ?abandon⟩
  case message =>
    intro c tag bytes x s hx
    have hdo := fabricMessage_fires hx tag bytes
    rw [← ctx_of hx]
    refine ⟨fun ha => fireArm_dropped ha ▸ hdo, fun raw ha => ?_⟩
    rw [fireArm_armed ha] at hdo
    refine ⟨fun hw => ?_, fun ws hw => ?_, fun va size off hw => ?_⟩
    · rwa [deliverMail_lost (y := arrived raw _ _) rfl hw] at hdo
    · rwa [deliverMail_stored (y := arrived raw _ _) rfl hw] at hdo
    · rwa [deliverMail_waits (y := arrived raw _ _) rfl hw] at hdo
  case access =>
    intro src entry a s ho
    refine ⟨remoteAccess_noEntry ho, fun e he => ⟨fun hadm => ?_, fun ht hop => ?_, fun ht hop hadm => ?_, fun ht => ⟨fun hp => ?_, fun key hp => ?_⟩⟩⟩
    · by_cases ht : e.typ = 2
      · rw [remoteAccess_atPort ho he ht, if_neg (by simp [hadm])]
      · rw [remoteAccess_atHandle ho he ht, remoteAccess_refused (remotePlace_notAdmitted hadm ..)]
    · rw [remoteAccess_atPort ho he ht, if_neg (by simp [hop])]
    · rw [remoteAccess_atPort ho he ht, if_pos ⟨hop, hadm⟩]
    · rw [remoteAccess_atHandle ho he ht, remoteAccess_refused hp]
    · have hdo := remoteAccess_atHandle (src := src) ho he ht
      refine ⟨fun new hn => ?_, fun hn hop => ?_, fun hn hop => ?_⟩
      · rwa [remoteAccess_writes hp hn] at hdo
      · rwa [remoteAccess_keeps hp hn, if_pos ((remoteUse_read a).2 hop)] at hdo
      · rwa [remoteAccess_keeps hp hn, if_neg (fun h => hop ((remoteUse_read a).1 h))] at hdo
  case port =>
    intro port x s hx
    refine ⟨remoteStoreFailure_fails hx, portstatClear_clears hx, fun lanes node hl hn hm hy => ?_, fun lanes node hl hn hy => ?_⟩
    · exact fabricPortState_changes (up := true) hx hl hn (fun _ => hm) hy
    · exact fabricPortState_changes (up := false) hx hl hn (fun h => nomatch h) hy
  case error =>
    intro unit s
    refine ⟨fun hk u => ?_, fun hk => ?_, fun hk waits => ?_, fun hk addr u syn hu => scrubOrRefreshError_records hk hu u syn,
      fun k hk h => predictiveAdvisory_records hk h⟩
    · exact at_next rfl (if_neg (not_not_intro hk))
    · exact at_next rfl (if_neg (not_not_intro hk))
    · exact at_next rfl (if_neg (not_not_intro hk))
  case power =>
    intro s
    exact ⟨rfl, fun w h0 hw => at_next rfl (if_neg (by omega))⟩
  case supervisor => exact fun core z s hz => supervisorDecision_decides hz
  case fence =>
    intro core s
    refine ⟨fun hf hs hn => ?_, fun h => ?_, mem_fenced_fenceCore s core⟩
    · exact at_next rfl (if_pos ((coreFence_due_iff s core).2 ⟨hf, hs, hn⟩))
    · refine at_not rfl (if_neg fun hd => ?_)
      obtain ⟨hf, hs, hn⟩ := (coreFence_due_iff s core).1 hd
      rcases h with ⟨h1, h2⟩ | h | h
      · exact hf.elim h1 h2
      · exact h hs
      · exact hn h
  case test => exact fun team failing s hi hf => inFieldTest_tests hi hf
  case abandon => exact fun team s ht hl hb => testAbandon_abandons ht hl hb

end Sys2Proof.Machine
end

section
/-!
PROOFS. Vector numbers: floating-point forms and conversions, least and greatest values, and reductions over the lanes (02 R24 to R29, R46;
07 R150; 08).
-/

namespace Sys2Proof.Machine

/-! Floating-point forms (R26 to R28, R154 to R165). -/

/-- Settles O2: a form is its request and one function, which is the stated one; what the pipe does with a function at either scope is
said once, in `compute_lanes` and `compute_warp`. -/
theorem floatForms : Obligations.FloatForms := by
  refine ⟨?lane, ?warp⟩
  case lane =>
    intro i f q r s m ms hf hr hq hsc hg
    obtain ⟨hreq, fn, hx, -, hfn⟩ := pipe_exec hf hq
    obtain rfl := hfn r hr
    obtain ⟨t, ht, ho, hv, hframe, hs, hp, hflags⟩ := compute_lanes hreq hsc hg fn
    refine ⟨t, (hx s).trans ht, ho, hv, hframe, hs, hp, fun b => ?_⟩
    rw [hflags, BitVec.getLsbD_or, Bool.or_eq_true, getLsbD_orLanes]
    simp only [mem_lanesOf, and_assoc]
  case warp =>
    intro i f q r s m ms hf hr hq hsc hu hg
    obtain ⟨hreq, fn, hx, -, hfn⟩ := pipe_exec hf hq
    obtain rfl := hfn r hr
    rw [hx]
    exact compute_warp hreq hsc hu hg fn

/-! FMIN, FMAX and their NaN-passing forms (R29, R156). -/

section
variable {strict greater : Bool} {mode : RMode} {v : Vals}

theorem isNan_false {a : Word} (h : ¬ IsNan a) : (asFp a).isNan = false := by
  rwa [← Bool.not_eq_true, isNan_b]

theorem minMax_bothNan (ha : IsNan v.a) (hb : IsNan v.b) : (minMax strict greater mode v).1 = 0x7FC00000 := by
  simp [minMax, (isNan_b _).2 ha, (isNan_b _).2 hb]

theorem minMax_strict_nan (h : IsNan v.a ∨ IsNan v.b) : (minMax true greater mode v).1 = 0x7FC00000 := by
  rcases h with h | h <;> simp [minMax, (isNan_b _).2 h]

theorem minMax_nan_left (ha : IsNan v.a) (hb : ¬ IsNan v.b) : (minMax false greater mode v).1 = v.b := by
  simp [minMax, (isNan_b _).2 ha, isNan_false hb]

theorem minMax_nan_right (ha : ¬ IsNan v.a) (hb : IsNan v.b) : (minMax false greater mode v).1 = v.a := by
  simp [minMax, isNan_false ha, (isNan_b _).2 hb]

/-- Without a NaN the operand that stands first in the order of words is chosen, -0 below +0. -/
theorem min_chosen (ha : ¬ IsNan v.a) (hb : ¬ IsNan v.b) :
    (minMax strict false mode v).1 = if orderKey v.b < orderKey v.a then v.b else v.a := by
  simp [minMax, isNan_false ha, isNan_false hb]

theorem max_chosen (ha : ¬ IsNan v.a) (hb : ¬ IsNan v.b) :
    (minMax strict true mode v).1 = if orderKey v.a < orderKey v.b then v.b else v.a := by
  simp [minMax, isNan_false ha, isNan_false hb]

theorem minMax_operand (ha : ¬ IsNan v.a) (hb : ¬ IsNan v.b) :
    (minMax strict greater mode v).1 = v.a ∨ (minMax strict greater mode v).1 = v.b := by
  cases greater
  · rw [min_chosen ha hb]; exact (ite_eq_or_eq ..).symm
  · rw [max_chosen ha hb]; exact (ite_eq_or_eq ..).symm

theorem min_least (ha : ¬ IsNan v.a) (hb : ¬ IsNan v.b) :
    ¬ Below v.a (minMax strict false mode v).1 ∧ ¬ Below v.b (minMax strict false mode v).1 := by
  rw [min_chosen ha hb]
  split
  · next h => rw [below_iff ha hb, below_iff hb hb]; omega
  · next h => rw [below_iff ha ha, below_iff hb ha]; omega

theorem max_greatest (ha : ¬ IsNan v.a) (hb : ¬ IsNan v.b) :
    ¬ Below (minMax strict true mode v).1 v.a ∧ ¬ Below (minMax strict true mode v).1 v.b := by
  rw [max_chosen ha hb]
  split
  · next h => rw [below_iff hb ha, below_iff hb hb]; omega
  · next h => rw [below_iff ha ha, below_iff ha hb]; omega

end

theorem below_negZero_posZero : Below 0x80000000 0 := by
  have h1 : ¬ IsNan 0x80000000 := by rw [isNan_iff]; decide
  have h2 : ¬ IsNan 0 := by rw [isNan_iff]; decide
  rw [below_iff h1 h2]
  decide

theorem minMax_form {x : FA3} {i : Instr} {r : RMode → Vals → Word × Word} (hi : i ∈ [Instr.fmin x, .fmax x, .fminm x, .fmaxm x])
    (hr : floatResult i = some r) : ∃ strict greater, r = minMax strict greater := by
  simp only [List.mem_cons, List.not_mem_nil, or_false] at hi
  rcases hi with rfl | rfl | rfl | rfl <;> cases hr <;> exact ⟨_, _, rfl⟩

/-- Settles O11: the four forms are one function, whose choice among numbers follows the order that `below_iff` ties to the values. -/
theorem minMaxRules : Obligations.MinMaxRules := by
  intro x v mode
  refine ⟨fun i hi r hr => ?all, fun i hi r hr => ?plain, fun i hi r hr => ?passing, fun i hi r hr => ?least, fun i hi r hr => ?greatest,
    below_negZero_posZero⟩
  case all =>
    obtain ⟨strict, greater, rfl⟩ := minMax_form hi hr
    exact ⟨rfl, minMax_bothNan, minMax_operand⟩
  case plain =>
    rcases List.mem_pair.1 hi with rfl | rfl <;> cases hr <;> exact ⟨minMax_nan_left, minMax_nan_right⟩
  case passing =>
    rcases List.mem_pair.1 hi with rfl | rfl <;> cases hr <;> exact minMax_strict_nan
  case least =>
    rcases List.mem_pair.1 hi with rfl | rfl <;> cases hr <;> exact min_least
  case greatest =>
    rcases List.mem_pair.1 hi with rfl | rfl <;> cases hr <;> exact max_greatest

/-! REDX (R46, R150). -/

/-- What an integer reduction delivers: the fold over the live lanes. -/
def reduced (f : Word → Word → Word) (e : Word) (w : Warp) (a : Nat) : Word :=
  (lanesOf w.live).foldl (fun acc n => f acc (w.src a n)) e

theorem cross_reduce {i : Instr} {x : FDAHG} {f : Word → Word → Word} {e : Word}
    (hx : ∀ s, exec i s = crossForm (redxReq i x) x.g 2 (reduce f e x.d.toNat x.a.toNat) s) {s : State} {m : Mach} {ms : List Nat}
    (hu : uniform s.me x.g.toNat = some true) (hg : Goes (redxReq i x) s m ms) :
    ∃ t, exec i s = .next t ∧ OnlyWarp s t 1 ∧ t.me.getS x.d.toNat = reduced f e s.me x.a.toNat ∧
      sameScalars s.me t.me [s.me.sKey x.d.toNat] ∧ t.me.v = s.me.v ∧ t.me.p = s.me.p ∧ t.me.fflags = s.me.fflags := by
  obtain ⟨-, ha, -⟩ := goes_values Nat.one_lt_two hg
  obtain ⟨t, ht, ho, hd, hs, hv, hp, hf⟩ := cross_scalar (n := 2) (d := x.d.toNat) (val := fun w => reduced f e w x.a.toNat)
    (fl := fun _ => 0) rfl hu hg (ha.keeps (fun w => reduced f e w x.a.toNat) fun _ _ _ => rfl) rfl rfl
  simp only [← setS_noflags] at ht
  exact ⟨t, (hx s).trans ht, ho, hd, hs, hv, hp, hf.trans BitVec.or_zero⟩

theorem reduced_add (w : Warp) (a : Nat) :
    reduced (· + ·) 0 w a = BitVec.ofNat 32 ((lanesOf w.live).map (fun n => (w.src a n).toNat)).sum := by
  unfold reduced
  rw [foldl_sum]
  simp

theorem toInt_le_max (a : Word) : a.toInt ≤ (0x7FFFFFFF : Word).toInt := by
  have h := BitVec.toInt_lt (x := a)
  rw [show (0x7FFFFFFF : Word).toInt = 2 ^ 31 - 1 from rfl]
  omega

theorem min_le_toInt (a : Word) : (0x80000000 : Word).toInt ≤ a.toInt := by
  have h := BitVec.le_toInt (x := a)
  rw [show (0x80000000 : Word).toInt = -2 ^ 31 from rfl]
  omega

theorem reduced_least (w : Warp) (a : Nat) (hl : w.live ≠ 0) :
    (∃ n, n < 32 ∧ w.live.getLsbD n = true ∧ reduced sMin 0x7FFFFFFF w a = w.src a n) ∧
      ∀ n, n < 32 → w.live.getLsbD n = true → (reduced sMin 0x7FFFFFFF w a).toInt ≤ (w.src a n).toInt := by
  refine best_found (fun a b => a.toInt ≤ b.toInt) (fun _ => le_refl _) (fun _ _ _ => le_trans)
    (fun _ _ h h' => BitVec.eq_of_toInt_eq (le_antisymm h h')) sMin (fun a b => ?_) _ toInt_le_max _ _ hl
  by_cases h : a.toInt ≤ b.toInt
  · exact .inl ⟨if_pos h, h⟩
  · exact .inr ⟨if_neg h, le_of_not_ge h⟩

theorem reduced_greatest (w : Warp) (a : Nat) (hl : w.live ≠ 0) :
    (∃ n, n < 32 ∧ w.live.getLsbD n = true ∧ reduced sMax 0x80000000 w a = w.src a n) ∧
      ∀ n, n < 32 → w.live.getLsbD n = true → (w.src a n).toInt ≤ (reduced sMax 0x80000000 w a).toInt := by
  refine best_found (fun a b => b.toInt ≤ a.toInt) (fun _ => le_refl _) (fun _ _ _ h h' => le_trans h' h)
    (fun _ _ h h' => BitVec.eq_of_toInt_eq (le_antisymm h' h)) sMax (fun a b => ?_) _ min_le_toInt _ _ hl
  by_cases h : a.toInt ≤ b.toInt
  · exact .inr ⟨if_pos h, h⟩
  · exact .inl ⟨if_neg h, le_of_not_ge h⟩

/-- The operand that a lane gives the tree: none where it has exited. -/
def liveSource (w : Warp) (a n : Nat) : Option Word := if w.live.getLsbD n then some (w.src a n) else none

/-- The tree over the list of lanes, level by level, is the tree by halves. -/
theorem tree_live (w : Warp) (a : Nat) :
    treeSum w.mode 5 ((List.range 32).map (liveSource w a)) =
      ((treeOver w.mode (liveSource w a) 5 0).1.getD 0, (treeOver w.mode (liveSource w a) 5 0).2) := by
  obtain ⟨hsum, hflags⟩ := treeSum_eq w.mode 5 (liveSource w a)
  exact Prod.ext hsum (BitVec.eq_of_getLsbD_eq fun b _ => Bool.eq_iff_iff.2 (hflags b))

theorem redxFadd_sums {x : FDAHG} {s : State} {m : Mach} {ms : List Nat} (hu : uniform s.me x.g.toNat = some true)
    (hg : Goes (redxReq (.redxFadd x) x) s m ms) :
    ∃ t, exec (.redxFadd x) s = .next t ∧ OnlyWarp s t 1 ∧
      (t.me.getS x.d.toNat = (treeOver s.me.mode (liveSource s.me x.a.toNat) 5 0).1.getD 0 ∧
        t.me.fflags = s.me.fflags ||| (treeOver s.me.mode (liveSource s.me x.a.toNat) 5 0).2) ∧
      sameScalars s.me t.me [s.me.sKey x.d.toNat] ∧ t.me.v = s.me.v ∧ t.me.p = s.me.p := by
  obtain ⟨-, ha, -⟩ := goes_values Nat.one_lt_two hg
  have hz := ha.keeps (fun w => treeSum w.mode 5 ((List.range 32).map (liveSource w x.a.toNat))) fun _ _ _ => rfl
  obtain ⟨t, ht, ho, hd, hs, hv, hp, hf⟩ := cross_scalar (n := 5) (d := x.d.toNat)
    (val := fun w => (treeSum w.mode 5 ((List.range 32).map (liveSource w x.a.toNat))).1)
    (fl := fun w => (treeSum w.mode 5 ((List.range 32).map (liveSource w x.a.toNat))).2) rfl hu hg
    (congrArg Prod.fst hz) (congrArg Prod.snd hz) rfl
  simp only [tree_live] at hd hf
  exact ⟨t, ht, ho, ⟨hd, hf⟩, hs, hv, hp⟩

/-- Settles O9: the integer reductions are folds over the live lanes, and FADD is the tree. -/
theorem reductions : Obligations.Reductions := by
  refine ⟨?integer, ?float, by decide, by decide⟩
  case integer =>
    rintro x i q s m ms (rfl | rfl | rfl) hq hu hg <;> cases hq
    · obtain ⟨t, ht, ho, hd, hframe⟩ := cross_reduce (fun _ => rfl) hu hg
      exact ⟨t, ht, ho, fun _ => hd.trans (reduced_add ..), nofun, nofun, hframe⟩
    · obtain ⟨t, ht, ho, hd, hframe⟩ := cross_reduce (fun _ => rfl) hu hg
      exact ⟨t, ht, ho, nofun, fun _ hl => hd ▸ reduced_least _ _ hl, nofun, hframe⟩
    · obtain ⟨t, ht, ho, hd, hframe⟩ := cross_reduce (fun _ => rfl) hu hg
      exact ⟨t, ht, ho, nofun, nofun, fun _ hl => hd ▸ reduced_greatest _ _ hl, hframe⟩
  case float =>
    intro x q s m ms hq hu hg
    cases hq
    exact redxFadd_sums hu hg

end Sys2Proof.Machine
end

section
/-!
PROOFS. Atomic operations on memory (09 R183 to R186), and the special registers (18 R291).
-/

namespace Sys2Proof.Machine

/-! ATOM (R47, R183, R185, R186). -/

theorem atomReq_sc (i : Instr) (x : FMA) (op : Nat) : (atomReq i x op).sc = x.sc.toNat := (memReq_sc ..).1

theorem atomReq_words (i : Instr) (x : FMA) (op : Nat) : (atomReq i x op).words = 1 := (memReq_sc ..).2

/-- The bytes that a lane writes have the value that the statement's function gives the old value and the lane's operand. -/
theorem atomNew_agrees {op : Nat} {f : Nat → Nat → Nat} (w : Warp) (x : FMA)
    (hnew : ∀ old b : List Byte, old.length = 4 * atomRegs op → b.length = 4 * atomRegs op →
      (atomNew op old b).length = 4 * atomRegs op ∧ natOfBytes (atomNew op old b) = f (natOfBytes old) (natOfBytes b)) (lane : Nat) :
    Agrees (4 * atomRegs op) (fun old => some (atomNew op old (bytesOfWords (readRegs w x.sc.toNat x.d.toNat lane (atomRegs op)))))
      (fun old => f old (regValue w x.sc x.d.toNat lane (atomRegs op))) := by
  intro old hold
  obtain ⟨hval, hlen⟩ := regs_value w x.sc x.d.toNat lane (atomRegs op)
  rw [← hval]
  exact hnew old _ hold hlen

/-- What an ATOM leaves, by the order in which its lanes had their turns. -/
theorem atomBody_ok {i : Instr} {op n : Nat} {x : FMA} {f : Nat → Nat → Nat} {m : Mach} {k : Nat} {ls : List (Nat × Loc)}
    (hform : atomForm i = some (op, x, n, f)) (hh : (Map.find? m.warps k).isSome = true) (hhold : (m.blockOf k).holding = false)
    (hp : memPlaces (atomReq i x op) m k 0 x.o.toNat x.h.toNat (.atom op) .atomic 2 (4 * n) = .ok ls)
    (hls : ∀ e ∈ ls, isExternal e.2.key = false ∧ m.poisonAt e.2.key (4 * n) = none) :
    ∃ m2 ls', atomBody (atomReq i x op) x op m [k] = .ok m2 ∧ ls'.Perm ls ∧ Wrote k m m2 ∧
      (let r := inTurn (4 * n) (fun lane old => f old (regValue (m.warp k) x.sc x.d.toNat lane n)) (Mem.read m.mem) ls'
       Mem.read m2.mem = r.1 ∧ (m2.warp k).v = (olded x.sc.toNat x.d.toNat n (m.warp k) r.2).v ∧
         (m2.warp k).s = (olded x.sc.toNat x.d.toNat n (m.warp k) r.2).s) := by
  obtain ⟨-, rfl, hnew⟩ := atom_table hform
  have hperm := orderLanes_perm m ls (memPlaces_nodup hp)
  obtain ⟨m1, hall, hwrote, hmem, hv, hs⟩ := atomAll_ok (atomReq i x op) k x.d.toNat _ _ _ (atomNew_agrees (m.warp k) x hnew)
    (orderLanes m ls) m hh hhold (fun e he => hls e (hperm.mem_iff.1 he))
  have hused := hwrote.trans (usedOrder_acc1 m1 k)
  obtain ⟨hsamp, smem, -, sv, ss⟩ := sampleMem_acc1 (usedOrder m1) (atomReq i x op) k 4 (4 * atomRegs op) ls (hused.here hh)
  refine ⟨_, orderLanes m ls, ?_, hperm, hused.trans hsamp, ?_, ?_, ?_⟩
  · unfold atomBody
    simp only [List.headD_cons, atomReq_sc, hp, bind, Except.bind, hall]
    rfl
  · rw [smem]; exact hmem
  · rw [sv, ← atomReq_sc i x op]; exact hv
  · rw [ss, ← atomReq_sc i x op]; exact hs

/-- The lanes that found old values in turn are those of the places, each once, and at warp scope there is at most one. -/
theorem olds_of_places {q : Req} {m : Mach} {k g o h code b : Nat} {u : Use} {acc : Acc} {ls ls' : List (Nat × Loc)}
    (hp : memPlaces q m k g o h u acc code b = .ok ls) (hperm : ls'.Perm ls) (n : Nat) (new : Nat → Nat → Nat) (mem : Nat → Byte) :
    ((inTurn n new mem ls').2.map (·.1)).Nodup ∧ (∀ e ∈ (inTurn n new mem ls').2, e.1 < 32) ∧
      (q.sc ≠ 0 → (inTurn n new mem ls').2 = [] ∨ ∃ e, (inTurn n new mem ls').2 = [e]) := by
  have hlanes := inTurn_lanes n new mem ls'
  refine ⟨?_, fun e he => ?_, fun hsc => ?_⟩
  · rw [hlanes]
    exact (hperm.map _).nodup_iff.2 (memPlaces_nodup hp)
  · have hm : e.1 ∈ ls'.map (·.1) := hlanes ▸ List.mem_map_of_mem he
    obtain ⟨e', he', hlane⟩ := List.mem_map.1 hm
    exact hlane ▸ memPlaces_lt hp e' (hperm.mem_iff.1 he')
  · rcases (memPlaces_lanes hp).2 hsc with rfl | ⟨l, rfl⟩
    · exact .inl (by rw [hperm.eq_nil]; rfl)
    · exact .inr ⟨_, by rw [List.perm_singleton.1 hperm]; rfl⟩

/-- Settles O17: the order of the lanes is the one that `orderLanes` chose, and the registers that took the old values are those of
`returned_of`. -/
theorem atomics : Obligations.Atomics := by
  intro i op x n f s m ms ls hform hg hhold hp hls
  have hsc : (atomReq i x op).sc < 2 := by rw [atomReq_sc]; exact x.sc.isLt
  obtain ⟨hexec, -, -⟩ := atom_table hform
  obtain ⟨-, hA, hh⟩ := goes_values hsc hg
  obtain ⟨-, amem, apoison, ablocks, -, -⟩ := admitted_acc1 hA
  obtain ⟨hblock, -⟩ := admitted_copies hA
  obtain ⟨m2, ls', hbody, hperm, hwrote, hmem, hv, hs⟩ := atomBody_ok hform hh (by rw [hblock]; exact hhold) hp
    (fun e he => ⟨(hls e he).1, by unfold Mach.poisonAt; rw [apoison]; exact (hls e he).2⟩)
  obtain ⟨t, ht, hacc, hrest, hmach, -, tv, ts, tp, tf, td, tgo, -, -, -, ttrap⟩ := finish hsc hg hbody hwrote.toAcc1
  have hregs : (fun lane old => f old (regValue (m.warp s.cur) x.sc x.d.toNat lane n)) =
      fun lane old => f old (regValue s.me x.sc x.d.toNat lane n) :=
    hA.keeps (fun w => fun lane old => f old (regValue w x.sc x.d.toNat lane n)) fun _ _ _ => rfl
  rw [hregs, amem] at hmem hv hs
  obtain ⟨hnodup, hlt, hone⟩ := olds_of_places hp hperm (4 * n) (fun lane old => f old (regValue s.me x.sc x.d.toNat lane n))
    (Mem.read s.m.mem)
  refine ⟨t, ls', (congrFun hexec s).trans ht, hacc, hrest, ?_, tp, tf, td, atomReq_words i x op ▸ tgo, hperm, fun a => ?_, ?_⟩
  · rw [hmach]; exact hwrote.blocks.trans ablocks
  · rw [hmach]; exact congrFun hmem a
  · exact returned_of x.sc x.d.toNat n _ hnodup (fun _ => hlt) (fun h1 => hone (by rw [atomReq_sc, h1]; decide))
      (hA.keeps Warp.v fun _ _ _ => rfl) (hA.keeps Warp.s fun _ _ _ => rfl) (hA.keeps Warp.trap fun _ _ _ => rfl) ttrap
      (tv.trans hv) (ts.trans hs)

/-! SRD and SWR (R25, R291). -/

theorem srRead_of_srField {m : Mach} {k n v : Nat} (h : srField m k n = some v) : srRead m k n = v := by
  unfold srField at h
  dsimp only at h
  split at h <;> cases h <;> rfl

section
variable {m : Mach} {k n : Nat} {v : Word}

theorem swrFault_readOnly (h4 : n ≠ 4) (h5 : n ≠ 5) (h33 : n ≠ 33) :
    swrFault m k n v = some { m.fault k 1 .perm with tinfo := BitVec.ofNat 32 (5 * 4096) } := if_pos ⟨h4, h5, h33⟩

theorem swrFault_reserved (h : n = 4 ∧ 4 ≤ v.toNat ∨ n = 5 ∧ 32 ≤ v.toNat) :
    swrFault m k n v = some { m.fault k 1 .illegal with tinfo := BitVec.ofNat 32 (5 * 4096) } := by
  unfold swrFault
  dsimp only
  rw [if_neg (by omega), if_pos]
  · rfl
  · rw [Ne, bits_low v 2 (by decide), Ne, bits_low v 5 (by decide)]
    omega

theorem swrFault_misaligned (hn : n = 33) (hv : v.toNat % 4 ≠ 0) :
    swrFault m k n v = some { m.fault k 1 .align with tinfo := BitVec.ofNat 32 (5 * 4096) } := by
  unfold swrFault
  dsimp only
  rw [if_neg (by omega), if_neg (by omega), if_pos]
  · rfl
  · exact ⟨hn, by simpa [bits] using hv⟩

theorem swrFault_none (h : n = 4 ∧ v.toNat < 4 ∨ n = 5 ∧ v.toNat < 32 ∨ n = 33 ∧ v.toNat % 4 = 0) : swrFault m k n v = none := by
  unfold swrFault
  dsimp only
  rw [if_neg (by omega), if_neg, if_neg]
  · simp only [bits, pow_zero, Nat.div_one]
    omega
  · rw [Ne, bits_low v 2 (by decide), Ne, bits_low v 5 (by decide)]
    omega

end

section
variable {x : FAB} {s : State} {m : Mach} {ms : List Nat}

theorem swr_writes (hg : Goes (swrReq x) s m ms) (hf : swrFault m s.cur x.b.toNat ((m.warp s.cur).getS x.a.toNat) = none) :
    ∃ t, exec (.swr x) s = .next t ∧
      Ends s t 1 [s.cur] (m.updWarp s.cur (srWrite x.b.toNat ((m.warp s.cur).getS x.a.toNat))) := by
  refine issue_ends1 (q := swrReq x) (body := swrBody x) Nat.one_lt_two hg ?_
  unfold swrBody
  simp only [List.headD_cons, hf]

theorem swr_faults {f : FaultInfo} (hg : Goes (swrReq x) s m ms)
    (hf : swrFault m s.cur x.b.toNat ((m.warp s.cur).getS x.a.toNat) = some f) (hc : f.cause ≠ .illegal) :
    exec (.swr x) s = .next (s.trapped m f) := by
  refine issue_error (q := swrReq x) (body := swrBody x) Nat.one_lt_two hg ?_
  unfold swrBody
  simp only [List.headD_cons, hf, if_neg hc]

theorem swr_illegal {f : FaultInfo} (hg : Goes (swrReq x) s m ms)
    (hf : swrFault m s.cur x.b.toNat ((m.warp s.cur).getS x.a.toNat) = some f) (hc : f.cause = .illegal) :
    exec (.swr x) s = .next (s.trapped m { m.fault s.cur 1 .illegal with tinfo := word1 (.swr x) }) := by
  refine issue_error (q := swrReq x) (body := swrBody x) Nat.one_lt_two hg ?_
  unfold swrBody
  simp only [List.headD_cons, hf, if_pos hc]
  rfl

end

/-- Settles O35: SRD reads in one step, and SWR does what `swrFault` finds in the number and the value. -/
theorem specialRegisters : Obligations.SpecialRegisters := by
  refine ⟨fun x s m ms hg => ?read, fun x s m ms hg => ⟨fun hb hv => ?fmode, fun hb hv => ?fflags, fun hb hv => ?tpc,
    fun h4 h5 h33 => ?perm, fun h => ?illegal, fun hb hv => ?align⟩⟩
  case read =>
    obtain ⟨t, ht, he⟩ := issue_ends1 (q := srdReq x) (body := srdBody x) Nat.one_lt_two hg rfl
    exact ⟨t, ht, he, fun v => srRead_of_srField⟩
  case fmode =>
    have h := swr_writes hg (swrFault_none (.inl ⟨congrArg BitVec.toNat hb, hv⟩))
    rwa [hb] at h
  case fflags =>
    have h := swr_writes hg (swrFault_none (.inr (.inl ⟨congrArg BitVec.toNat hb, hv⟩)))
    rwa [hb] at h
  case tpc =>
    have h := swr_writes hg (swrFault_none (.inr (.inr ⟨congrArg BitVec.toNat hb, hv⟩)))
    rwa [hb] at h
  case perm => exact swr_faults hg (swrFault_readOnly (BitVec.toNat_ne.1 h4) (BitVec.toNat_ne.1 h5) (BitVec.toNat_ne.1 h33)) nofun
  case illegal =>
    exact swr_illegal hg (swrFault_reserved (h.imp (And.imp_left (congrArg BitVec.toNat)) (And.imp_left (congrArg BitVec.toNat)))) rfl
  case align => exact swr_faults hg (swrFault_misaligned (congrArg BitVec.toNat hb) hv) nofun

end Sys2Proof.Machine
end

section
/-!
PROOFS. Issue of the commands to the matrix arrays, and the status word (12 R223 to R238).
-/

namespace Sys2Proof.Machine

@[simp] theorem accMoveReq_sc (i : Instr) (x : FSABC) : (accMoveReq i x).sc = x.sc.toNat := rfl
@[simp] theorem azeroReq_sc (x : FSAB) : (azeroReq x).sc = x.sc.toNat := rfl
@[simp] theorem astatReq_sc (x : FSAB) : (astatReq x).sc = x.sc.toNat := rfl

/-- The A and B tiles that an MMA reads in the members. -/
def mmaTiles (x : FMMA) (m : Mach) (k : Nat) : List (Nat × Nat) :=
  (m.allMembers 2 k).flatMap (fun j => (x.ta.toNat :: rangeFrom x.tb.toNat (mmaB x)).map (fun t => (j, t)))

/-- The machine from which an MMA issues its command: a read hold on every tile, and the MMAs and MACs counted. -/
def mmaHeld (x : FMMA) (slot : Word) (m : Mach) (ms : List Nat) : Mach :=
  (((mmaTiles x m (ms.headD 0)).foldl (fun m t => addHold (seeTile m ms t) t) m).count (m.blockOf (ms.headD 0)).ctx 40 1).count
    (m.blockOf (ms.headD 0)).ctx 41 (4 * mmaRows x * mmaCols x * (384 / fmtWidth (slotA slot)))

/-- The scalar registers that a DRAIN reads: the scale tile's is one of them where the slot scales. -/
def drainSrcs (x : FDRAIN) (slot : Word) : List Nat :=
  if slotRowScale slot = 1 ∨ slotColScale slot = 1 then (drainReq x).srcs ++ [x.sr.toNat] else (drainReq x).srcs

/-- The machine from which a DRAIN issues its command: a hold on the scale tile, the target filling, and the DRAIN counted. -/
def drainHeld (target scale : Option (Nat × Nat)) (m : Mach) (ms : List Nat) : Mach :=
  let m1 := match scale with | some t => addHold (seeTile m ms t) t | none => m
  let m2 := match target with | some t => m1.setTileOf ms t (fun t => { t with st := 1 }) | none => m1
  m2.count (m.blockOf (ms.headD 0)).ctx 43 1

theorem rangeWord_ok {word : Word} (h : word.toNat < 65536) :
    rangeWord word = some (word.toNat % 1024, word.toNat / 1024 % 64 + 1) := by
  unfold rangeWord
  rw [if_pos ((bits_low word 16 (by decide)).2 h)]
  simp [bits]

section
variable {m : Mach} {ms : List Nat}

theorem mmaBody_ok {x : FMMA} {slot : Word} (hs : (m.blockOf (ms.headD 0)).fmtSlot x.slot.toNat = slot)
    (hquad : quadSet ((m.blockOf (ms.headD 0)).set ((m.warp (ms.headD 0)).set.getD 0)) = true) (hok : slotOk slot = true)
    (hwidth : fmtWidth (slotA slot) = fmtWidth (slotB slot))
    (htiles : ∀ t ∈ mmaTiles x m (ms.headD 0), (m.tileOf t).st ≠ 0 ∧ (m.tileOf t).moving = false)
    (hstall : mustStall m 2 0 ms = none) :
    mmaBody x m ms = .ok (issueOp (mmaReq x) 2 0 false
      (.mma (x.z == 1) (mmaRows x) (mmaCols x) (fmtWidth (slotA slot)) slot x.ta.toNat x.tb.toNat x.c.toNat
        (withCounts (mmaHeld x slot m ms) 2 (ms.headD 0))) none (mmaHeld x slot m ms) ms) := by
  have hempty : (mmaTiles x m (ms.headD 0)).find? (fun t => (m.tileOf t).st == 0) = none :=
    List.find?_eq_none.2 fun t ht => by simpa using (htiles t ht).1
  have hready (f : FaultInfo) : waitReady m f (mmaTiles x m (ms.headD 0)) 0 = .ok () :=
    waitReady_ok fun t ht => (htiles t ht).symm
  unfold mmaBody
  dsimp only
  rw [hs, hquad, hok, if_neg (by decide), if_neg (by simpa using hwidth)]
  unfold mmaTiles at hempty hready
  simp only [hempty, hready, hstall, bind, Except.bind, pure, Except.pure]
  rfl

theorem drainBody_ok {x : FDRAIN} {slot : Word} {k : Nat} {target scale : Option (Nat × Nat)}
    (hs : (m.blockOf k).fmtSlot x.slot.toNat = slot) (hok : drainOk x slot = true)
    (hregs : x.dk = 0 → x.d.toNat + drainRegs slot - 1 < (m.warp k).nv)
    (hops : operands { drainReq x with srcs := drainSrcs x slot } m k = none)
    (hscalars : ∀ r ∈ drainSrcs x slot, keyLine ((m.warp k).sKey r) ∈ (m.warp k).lines)
    (hvectors : x.dk = 0 → ∀ r ∈ rangeFrom x.d.toNat (drainRegs slot), r ∈ (m.warp k).lines)
    (htiles : drainTiles (drainReq x) x slot m k = .ok (target, scale)) (hmark : accMark m k (accSlot (m.warp k).na x.acc.toNat) = none)
    (hstall : mustStall m 2 0 [k] = none) :
    drainBody x m [k] = .ok (issueOp { drainReq x with srcs := drainSrcs x slot } 2 0 false
      (.drain k (accSlot (m.warp k).na x.acc.toNat) slot x.rb.toNat x.cb.toNat scale (if x.dk = 0 then some x.d.toNat else none)
        (target.map (fun t => (t.1, t.2, x.row.toNat, x.col.toNat))) (x.fl == 1)) none (drainHeld target scale m [k]) [k]) := by
  have hq : (if slotRowScale slot = 1 ∨ slotColScale slot = 1 then { drainReq x with srcs := (drainReq x).srcs ++ [x.sr.toNat] }
      else drainReq x) = { drainReq x with srcs := drainSrcs x slot } := by
    unfold drainSrcs
    split <;> rfl
  have htop : ¬ (x.dk = 0 ∧ (m.warp k).nv ≤ x.d.toNat + drainRegs slot - 1) := fun ⟨h0, hle⟩ => absurd (hregs h0) (by omega)
  have htouch : touchMore 1 m (m.scalarUses k true (drainSrcs x slot) ++
      vectorUses k (if x.dk = 0 then rangeFrom x.d.toNat (drainRegs slot) else [])) = .ok m := by
    refine touchMore_resident fun u hu => (List.mem_append.1 hu).elim (scalarUses_resident hscalars u) (vectorUses_resident ?_ u)
    intro r hr
    split at hr
    · next h0 => exact hvectors h0 r hr
    · cases hr
  have htiles' : drainTiles { drainReq x with srcs := drainSrcs x slot } x slot m k = .ok (target, scale) := htiles
  unfold drainBody
  dsimp only [List.headD_cons]
  rw [hs, hq, hok, if_neg (by decide), hops, if_neg htop]
  simp only [htouch, htiles', hmark, hstall, bind, Except.bind, pure, Except.pure]
  rfl

theorem azeroBody_ok {x : FSAB} (hw : inWindow m ms (headS m x.sc.toNat ms x.a.toNat).toNat (x.b.toNat + 1))
    (hstall : mustStall m 2 0 ms = none) :
    azeroBody x m ms = .ok (issueOp (azeroReq x) 2 0 false
      (.azero (headS m x.sc.toNat ms x.a.toNat).toNat (x.b.toNat + 1) (withCounts m x.sc.toNat (ms.headD 0))) none m ms) := by
  unfold azeroBody
  simp only [azeroReq_sc, accRange_ok hw, hstall, bind, Except.bind, pure, Except.pure]

theorem accMoveBody_ok {i : Instr} {x : FSABC} {save : Bool} {base n : Nat} {e : HEntry}
    (hword : rangeWord (headS m x.sc.toNat ms x.c.toNat) = some (base, n)) (hw : inWindow m ms base n)
    (hhandle : bulkHandle m (m.warp (ms.headD 0)).block (m.fault (ms.headD 0) x.sc.toNat .handle)
      (headS m x.sc.toNat ms x.a.toNat).toNat = .ok e)
    (hbuffer : bufferChecks (m.block (m.warp (ms.headD 0)).block) (m.fault (ms.headD 0) x.sc.toNat .handle)
      (headS m x.sc.toNat ms x.a.toNat).toNat (headS m x.sc.toNat ms x.b.toNat).toNat
      ((withCounts m x.sc.toNat (ms.headD 0)).length * imageSize n) 128 (if save then 2 else 1) e = .ok ())
    (hstall : mustStall m 2 0 ms = none) :
    accMoveBody i x save m ms = .ok (
      let m2 := if save then commit m (ms.headD 0) else m
      let h := (headS m x.sc.toNat ms x.a.toNat).toNat
      let off := (headS m x.sc.toNat ms x.b.toNat).toNat
      let members := withCounts m2 x.sc.toNat (ms.headD 0)
      issueOp (accMoveReq i x) 2 0 false (if save then .asave h off base n e members else .aload h off base n e members) none m2 ms) := by
  unfold accMoveBody
  simp only [accMoveReq_sc, hword, accRange_ok hw, hhandle, hbuffer, hstall, bind, Except.bind, pure, Except.pure]

theorem imageForm_exec {i : Instr} {x : FSABC} {save : Bool} (h : imageForm i = some (x, save)) (s : State) :
    exec i s = issueTo (accMoveReq i x) (accMoveBody i x save) s := by
  unfold imageForm at h
  split at h <;> cases h <;> rfl

theorem astatBody_ok {x : FSAB} {c : Nat} (hc : (headS m x.sc.toNat ms x.b.toNat).toNat = c) (hw : inWindow m ms c 1)
    (hidle : ∀ j ∈ ms, ∀ e ∈ m.ops, e.2.writesAcc j (accSlot (m.warp j).na c) = false) :
    astatBody x m ms = .ok (ms.foldl (fun m j => m.answer j x.a.toNat (astatWord m j c)) m) := by
  have hany : ms.any (fun j => m.ops.any fun e => e.2.writesAcc j (accSlot (m.warp j).na c)) = false :=
    List.any_eq_false.2 fun j hj => by simpa using fun o y => hidle j hj (o, y)
  unfold astatBody
  simp only [astatReq_sc, hc, accRange_ok hw, hany, Bool.false_eq_true, if_false, bind, Except.bind, pure, Except.pure]

end

/-- Settles O15: each command passes its checks and is issued from the machine that its holds, fills and counters leave. -/
theorem matrixForms : Obligations.MatrixForms := by
  refine ⟨⟨?mma, ?drain⟩, ?azero, ?image, ?astat⟩
  case mma => exact fun x s m ms hg hn hquad hok hwidth htiles hstall => issued_of hg hn (mmaBody_ok rfl hquad hok hwidth htiles hstall)
  case drain =>
    intro x s m ms target scale hg w b slot srcs hok hregs hops hscalars hvectors htiles hmark hstall
    obtain rfl := goes_alone Nat.one_lt_two hg
    have hbody := drainBody_ok (x := x) rfl hok hregs hops hscalars hvectors htiles hmark hstall
    refine issued_congr ?_ ?_ (issued_of hg (List.nodup_singleton _) hbody) <;> rfl
  case azero => exact fun x s m ms hg hn hw hstall => issued_of hg hn (azeroBody_ok hw hstall)
  case image =>
    intro i x save s m ms e hi hg hn k word base n h off hword hw hhandle hbuffer hstall
    rw [imageForm_exec hi]
    exact issued_of hg hn (accMoveBody_ok (rangeWord_ok hword) hw hhandle hbuffer hstall)
  case astat =>
    intro x s m ms hg hn c hw hidle
    exact issue_ends hg hn (astatBody_ok (x := x) rfl hw hidle)

end Sys2Proof.Machine
end

section
/-!
PROOFS. Encoding: the decoder undoes the encoder (03 R53, R54, R56, R65), the first failing check decides (03 R57, R66, R67), and operand
fields that a rule makes illegal (03 R60, R63).
-/

namespace Sys2Proof.Machine

/-! The decoder on encoded instructions (R53, R54, R56, R65). -/

/-- The words of an encoded instruction decode to it; an event has none. -/
theorem reads_encodeNat {i : Instr} (h : encode i ≠ []) : Reads (encodeNat i) i := by
  cases i with
  | iadd x => exact reads_iadd x
  | isub x => exact reads_isub x
  | iadds x => exact reads_iadds x
  | isubs x => exact reads_isubs x
  | imul x => exact reads_imul x
  | imulh x => exact reads_imulh x
  | imulhu x => exact reads_imulhu x
  | iabsd x => exact reads_iabsd x
  | imin x => exact reads_imin x
  | imax x => exact reads_imax x
  | umin x => exact reads_umin x
  | umax x => exact reads_umax x
  | andB x => exact reads_andB x
  | orB x => exact reads_orB x
  | xorB x => exact reads_xorB x
  | andn x => exact reads_andn x
  | shl x => exact reads_shl x
  | shr x => exact reads_shr x
  | sar x => exact reads_sar x
  | rol x => exact reads_rol x
  | clz x => exact reads_clz x
  | popc x => exact reads_popc x
  | brev x => exact reads_brev x
  | iabs x => exact reads_iabs x
  | icmp x => exact reads_icmp x
  | sel x => exact reads_sel x
  | mov x => exact reads_mov x
  | p2v x => exact reads_p2v x
  | v2p x => exact reads_v2p x
  | bfx x => exact reads_bfx x
  | bfxu x => exact reads_bfxu x
  | bfi x => exact reads_bfi x
  | imla x => exact reads_imla x
  | iaddmin x => exact reads_iaddmin x
  | isum3 x => exact reads_isum3 x
  | iaddi x => exact reads_iaddi x
  | andi x => exact reads_andi x
  | ori x => exact reads_ori x
  | xori x => exact reads_xori x
  | shli x => exact reads_shli x
  | shri x => exact reads_shri x
  | sari x => exact reads_sari x
  | roli x => exact reads_roli x
  | movi x => exact reads_movi x
  | movhi x => exact reads_movhi x
  | icmpi x => exact reads_icmpi x
  | pand x => exact reads_pand x
  | por x => exact reads_por x
  | pxor x => exact reads_pxor x
  | pnot x => exact reads_pnot x
  | xlnBack x => exact reads_xlnBack x
  | xlnFwd x => exact reads_xlnFwd x
  | xlnFlip x => exact reads_xlnFlip x
  | xlnFrom x => exact reads_xlnFrom x
  | pgatEvery x => exact reads_pgatEvery x
  | pgatSome x => exact reads_pgatSome x
  | pgatMask x => exact reads_pgatMask x
  | pgatLive x => exact reads_pgatLive x
  | redxAdd x => exact reads_redxAdd x
  | redxSmin x => exact reads_redxSmin x
  | redxSmax x => exact reads_redxSmax x
  | redxFadd x => exact reads_redxFadd x
  | scanAdd x => exact reads_scanAdd x
  | scanXadd x => exact reads_scanXadd x
  | scanMax x => exact reads_scanMax x
  | scanMin x => exact reads_scanMin x
  | fadd x => exact reads_fadd x
  | fsub x => exact reads_fsub x
  | fmul x => exact reads_fmul x
  | fdiv x => exact reads_fdiv x
  | fmin x => exact reads_fmin x
  | fmax x => exact reads_fmax x
  | fminm x => exact reads_fminm x
  | fmaxm x => exact reads_fmaxm x
  | fabs x => exact reads_fabs x
  | fneg x => exact reads_fneg x
  | fsqrt x => exact reads_fsqrt x
  | frcp x => exact reads_frcp x
  | frsq x => exact reads_frsq x
  | fexp2 x => exact reads_fexp2 x
  | flog2 x => exact reads_flog2 x
  | ffloor x => exact reads_ffloor x
  | fceil x => exact reads_fceil x
  | ftrunc x => exact reads_ftrunc x
  | frint x => exact reads_frint x
  | fcmp x => exact reads_fcmp x
  | ffma x => exact reads_ffma x
  | ffms x => exact reads_ffms x
  | i2f x => exact reads_i2f x
  | u2f x => exact reads_u2f x
  | f2i x => exact reads_f2i x
  | f2u x => exact reads_f2u x
  | f2h x => exact reads_f2h x
  | f2hh x => exact reads_f2hh x
  | h2f x => exact reads_h2f x
  | h2fh x => exact reads_h2fh x
  | f2bf x => exact reads_f2bf x
  | f2bfh x => exact reads_f2bfh x
  | bf2f x => exact reads_bf2f x
  | bf2fh x => exact reads_bf2fh x
  | f2e4 x => exact reads_f2e4 x
  | e42f x => exact reads_e42f x
  | f2e5 x => exact reads_f2e5 x
  | e52f x => exact reads_e52f x
  | f2lg x => exact reads_f2lg x
  | lg2f x => exact reads_lg2f x
  | f2i8 x => exact reads_f2i8 x
  | i82f x => exact reads_i82f x
  | hadd2 x => exact reads_hadd2 x
  | hmul2 x => exact reads_hmul2 x
  | badd2 x => exact reads_badd2 x
  | bmul2 x => exact reads_bmul2 x
  | hfma2 x => exact reads_hfma2 x
  | bfma2 x => exact reads_bfma2 x
  | ld x => exact reads_ld x
  | st x => exact reads_st x
  | ldp x => exact reads_ldp x
  | ldr x => exact reads_ldr x
  | atomAdd x => exact reads_atomAdd x
  | atomSub x => exact reads_atomSub x
  | atomSmin x => exact reads_atomSmin x
  | atomSmax x => exact reads_atomSmax x
  | atomUmin x => exact reads_atomUmin x
  | atomUmax x => exact reads_atomUmax x
  | atomAnd x => exact reads_atomAnd x
  | atomOr x => exact reads_atomOr x
  | atomXor x => exact reads_atomXor x
  | atomExch x => exact reads_atomExch x
  | atomFadd x => exact reads_atomFadd x
  | atomInc x => exact reads_atomInc x
  | atomAdd64 x => exact reads_atomAdd64 x
  | atomExch64 x => exact reads_atomExch64 x
  | cas x => exact reads_cas x
  | snap x => exact reads_snap x
  | fenceEng => exact reads_fenceEng
  | fenceIo => exact reads_fenceIo
  | copy x => exact reads_copy x
  | gath x => exact reads_gath x
  | scat x => exact reads_scat x
  | coll x => exact reads_coll x
  | cwait x => exact reads_cwait x
  | ftest x => exact reads_ftest x
  | fcancel x => exact reads_fcancel x
  | fwait x => exact reads_fwait x
  | tld x => exact reads_tld x
  | tst x => exact reads_tst x
  | tzero x => exact reads_tzero x
  | tfree x => exact reads_tfree x
  | tstate x => exact reads_tstate x
  | tmark x => exact reads_tmark x
  | arrive x => exact reads_arrive x
  | await x => exact reads_await x
  | mma x => exact reads_mma x
  | drain x => exact reads_drain x
  | azero x => exact reads_azero x
  | asave x => exact reads_asave x
  | aload x => exact reads_aload x
  | astat x => exact reads_astat x
  | bra x => exact reads_bra x
  | call x => exact reads_call x
  | brx x => exact reads_brx x
  | callx x => exact reads_callx x
  | nop x => exact reads_nop x
  | ret x => exact reads_ret x
  | exitT x => exact reads_exitT x
  | join => exact reads_join
  | yield => exact reads_yield
  | pyield => exact reads_pyield
  | jpt x => exact reads_jpt x
  | sjoin x => exact reads_sjoin x
  | sleave x => exact reads_sleave x
  | sinfo x => exact reads_sinfo x
  | bar x => exact reads_bar x
  | gbar => exact reads_gbar
  | launch x => exact reads_launch x
  | arm x => exact reads_arm x
  | disarm x => exact reads_disarm x
  | vcreate x => exact reads_vcreate x
  | vopen x => exact reads_vopen x
  | vhand x => exact reads_vhand x
  | vdrop x => exact reads_vdrop x
  | vquery x => exact reads_vquery x
  | vdup x => exact reads_vdup x
  | trap x => exact reads_trap x
  | brk x => exact reads_brk x
  | srd x => exact reads_srd x
  | swr x => exact reads_swr x
  | clk x => exact reads_clk x
  | grow x => exact reads_grow x
  | shrink x => exact reads_shrink x
  | tret x => exact reads_tret x
  | sample x => exact reads_sample x
  | _ => exact absurd rfl h

/-- Settles O56: the words of each encoded instruction read back, and an event has neither words nor a request. -/
theorem roundTrip : Obligations.RoundTrip :=
  ⟨fun _ rest h => reads_encodeNat h rest, reqOf_encode⟩

/-- Settles O57: the decoder runs on each literal word. -/
theorem decodedWords : Obligations.DecodedWords :=
  ⟨rfl, rfl, rfl, rfl, rfl, rfl, rfl, rfl, rfl, rfl, rfl, rfl, rfl, rfl, rfl, rfl, rfl, rfl⟩

/-! The order of the checks (R66, R67). -/

/-- With the current path resident, a failing check stops the instruction before anything else of it happens. -/
theorem exec_trapped {i : Instr} {q : Req} {s : State} {f : FaultInfo} (hq : reqOf i = some q) (hmay : canIssue s.m s.cur = true)
    (hp : s.me.path.spilled = false) (hc : checks q s.m s.cur = some f) : exec i s = .next (s.trapped s.m f) := by
  refine exec_stop hq hmay ?_
  unfold admission fillCurrent
  rw [if_neg (by rw [show (s.m.warp s.cur).path.spilled = false from hp]; decide)]
  dsimp only
  rw [hc]

/-- Settles O59: `checks` tries the causes in this order, and the first that it finds is the trap. -/
theorem operandChecks : Obligations.OperandChecks := by
  intro i q s hq _ hmay hp f c cut legal classOk scopeOk
  obtain rfl := reqOf_instr hq
  have htrap := fun g => exec_trapped (f := g) hq hmay hp
  refine ⟨fun hcut => htrap _ ?illhdr, fun hcut hleg => htrap _ ?illegal, fun hcut hleg hcls => htrap _ ?cls,
    fun hcut hleg hcls hsc => htrap _ ?scope, fun hcut hleg hcls hsc r hr => htrap _ ?regrange⟩
  all_goals unfold checks; dsimp only
  case illhdr => exact if_pos hcut
  case illegal => exact (if_neg hcut).trans (if_pos ((chk1 _ _ _ _).2 hleg))
  case cls =>
    exact (if_neg hcut).trans ((if_neg fun h => (chk1 _ _ _ _).1 h hleg).trans (if_pos ((chk2 _ _ _ _).2 hcls)))
  case scope =>
    exact (if_neg hcut).trans ((if_neg fun h => (chk1 _ _ _ _).1 h hleg).trans ((if_neg fun h => (chk2 _ _ _ _).1 h hcls).trans
      (if_pos ((chk3 _ _ _ _ _).2 hsc))))
  case regrange =>
    refine (if_neg hcut).trans ((if_neg fun h => (chk1 _ _ _ _).1 h hleg).trans ((if_neg fun h => (chk2 _ _ _ _).1 h hcls).trans
      ((if_neg fun h => (chk3 _ _ _ _ _).1 h hsc).trans ?_)))
    rw [show List.find? (fun r => decide ((s.m.warp s.cur).nv ≤ r)) q.vecs = some r from hr]

/-- A one-word instruction with ill-formed operands takes the trap ILLEGAL. -/
theorem illegal_of_not_wf {i : Instr} (hwords : ∀ q, reqOf i = some q → q.words = 1) (hwf : i.wf = false) : Illegal i := by
  intro q s hq hwarp hmay hp
  obtain ⟨-, hillegal, -⟩ := operandChecks i q s hq hwarp hmay hp
  refine hillegal (fun ⟨htwo, _⟩ => ?_) (fun ⟨hok, _⟩ => ?_)
  · rw [hwords q hq] at htwo
    exact absurd htwo (by decide)
  · rw [hwf] at hok
    exact absurd hok (by decide)

/-! Operand fields that a rule makes illegal (R60, R63). -/

/-- Settles O60: such a field makes its instruction ill formed, and p0 reads all ones. -/
theorem predicateFields : Obligations.PredicateFields := by
  refine ⟨fun i ⟨p, hp, h8⟩ => ?source, fun i d hd h => ?destination, fun w n hn => ?pZero⟩
  case source => exact illegal_of_not_wf (fun _ => words_src hp) (src_wf hp h8)
  case destination => exact illegal_of_not_wf (fun _ => words_dst hd) (dst_wf hd h)
  case pZero =>
    rw [Warp.getP_zero, BitVec.getLsbD_allOnes]
    exact decide_eq_true hn

/-- Code 7 is the one that has no row. -/
theorem code_of_sizeRow_none {z : BitVec 3} (h : sizeRow z = none) : (z != 7) = false := by
  revert h
  revert z
  decide

/-- A data register that is no multiple of the code's register count names no pair or quad. -/
theorem sizeReg_of_sizeRow {z : BitVec 3} {d : BitVec 6} {n r : Nat} {sx : Bool} (hz : sizeRow z = some (n, r, sx))
    (hd : d.toNat % r ≠ 0) : sizeReg z d = false := by
  have hz8 := z.isLt
  have hcode : z = BitVec.ofNat 3 z.toNat := by simp
  unfold sizeRow at hz
  rw [hcode]
  generalize z.toNat = k at hz hz8 ⊢
  interval_cases k <;> cases hz
  iterate 3 exact absurd (Nat.mod_one _) hd
  iterate 2 exact beq_eq_false_iff_ne.2 hd
  iterate 2 exact absurd (Nat.mod_one _) hd

/-- Settles O21: the table row by row, and a form with code 7 or a misplaced register is ill formed. -/
theorem sizeCodes : Obligations.SizeCodes := by
  refine ⟨size_rows, fun i x hx => ?_⟩
  have hillegal := fun h => illegal_of_not_wf (fun _ => words_sized hx) (sized_wf hx h)
  exact ⟨fun hz => hillegal (.inl (code_of_sizeRow_none hz)),
    fun n r sx hz hd => hillegal (.inr (sizeReg_of_sizeRow hz hd))⟩

end Sys2Proof.Machine
end

section
/-!
PROOFS. Guards at warp scope and compares (03 R61, R64; 07 R128, R144, R145, R147; 08 R159), and what a step runs (03 R48 to R50).
-/

namespace Sys2Proof.Machine

/-! Guards at warp scope (R61, R128, R147). -/

/-- Settles O3: every guarded form looks at its guard first, which the checks before it leave as it was. -/
theorem warpGuards : Obligations.WarpGuards := by
  intro i g q s m ms hi hq hg
  obtain ⟨body, hbody⟩ := guarded_exec hi hq
  have hsc : q.sc < 2 := by rw [hbody.sc]; decide
  obtain ⟨rfl, ha, -⟩ := goes_values hsc hg
  have hguard : uniform (m.warp s.cur) g.toNat = uniform s.me g.toNat := ha.keeps (uniform · g.toNat) fun _ _ _ => rfl
  rw [hbody.run]
  refine ⟨fun hoff => ?suppressed, fun hmixed => ?mixed⟩
  case suppressed =>
    obtain ⟨mc, hrun, hrest, hwarps⟩ := hbody.off m s.cur (hguard.trans hoff)
    rw [← hbody.words]
    exact issue_same hsc hg hrun hrest hwarps
  case mixed => exact issue_error hsc hg (hbody.err m s.cur (hguard.trans hmixed))

/-! Compares (R64, R144, R145, R159). -/

/-- An instruction whose only effect is on one predicate of its warp. -/
theorem issue_setP {q : Req} {s : State} {m mc : Mach} {ms : List Nat} {n : Nat} {x : Word}
    {body : Mach → List Nat → Except Stop Mach} (hsc : q.sc < 2) (hg : Goes q s m ms) (hn : n ≠ 0)
    (hb : body m [s.cur] = .ok (mc.setWarp s.cur ((m.warp s.cur).setP n x))) (hr : mc.rest = m.rest) (hw : mc.warps = m.warps) :
    ∃ t, issue q body s = .next t ∧ OnlyWarp s t q.words ∧ t.me.getP n = x ∧ samePredicates s.me t.me n ∧ t.me.v = s.me.v ∧
      t.me.s = s.me.s ∧ t.me.fflags = s.me.fflags := by
  obtain ⟨-, ha, -⟩ := goes_values hsc hg
  obtain ⟨t, ht, ho, hv, hs, hp, hf⟩ := issue_on hsc hg hb hr hw (by rw [setP_warp]; rfl) (by rw [setP_warp])
  refine ⟨t, ht, ho, ?_, fun j hj => ?_, ?_, ?_, ?_⟩
  · rw [getP_eq hp, Warp.getP_setP_self _ _ hn]
  · rw [getP_eq hp, Warp.getP_setP_ne _ _ hj, admitted_getP ha]; rfl
  · rw [hv, setP_warp]; exact ha.keeps Warp.v fun _ _ _ => rfl
  · rw [hs, setP_warp]; exact ha.keeps Warp.s fun _ _ _ => rfl
  · rw [hf, setP_warp]; exact ha.keeps Warp.fflags fun _ _ _ => rfl

theorem getLsbD_maskBy {l : Word} {t : Nat → Bool} {n : Nat} (hn : n < 32) (hl : l.getLsbD n = true) :
    (maskBy (lanesOf l) t).getLsbD n = t n := by
  unfold maskBy
  rw [getLsbD_maskOf, Bool.eq_iff_iff]
  simp [mem_lanesOf, hn, hl]

theorem compareReq_sc (i : Instr) (sc : BitVec 1) (a b : Src) : (compareReq i sc a b).sc = sc.toNat := by
  unfold compareReq
  rcases BitVec.eq_zero_or_eq_one sc with h | h <;> simp [h]

section
variable {i : Instr} {f : CmpForm} {u : Word → Word → Bool} {q : Req} {s : State} {m : Mach} {ms : List Nat}

theorem compare_lanes (hf : cmpForm i = some (f, u)) (hq : reqOf i = some q) (h0 : f.sc = 0) (hpd : f.pd ≠ 0) (hg : Goes q s m ms) :
    ∃ t, exec i s = .next t ∧ OnlyWarp s t 1 ∧
      t.me.getP f.pd.toNat = combine f.mode (s.me.getP f.pd.toNat)
        (maskBy (lanesOf (active s.me f.g.toNat)) (fun n => u (f.a.lane s.me n) (f.b.lane s.me n))) (active s.me f.g.toNat) ∧
      samePredicates s.me t.me f.pd.toNat ∧ t.me.v = s.me.v ∧ t.me.s = s.me.s ∧ t.me.fflags = s.me.fflags := by
  obtain ⟨rfl, hx⟩ := cmp_exec hf hq
  have hsc : (compareReq i f.sc f.a f.b).sc = 0 := by rw [compareReq_sc, h0]; rfl
  obtain ⟨rfl, ha, -⟩ := goes_values (by rw [hsc]; decide) hg
  have hact : active (m.warp s.cur) f.g.toNat = active s.me f.g.toNat := by
    unfold active
    rw [ha.mask, if_pos hsc, admitted_getP ha]
    rfl
  have hlane : ∀ (a : Src) n, a.lane (m.warp s.cur) n = a.lane s.me n := fun a n => ha.keeps (a.lane · n) fun _ _ _ => by cases a <;> rfl
  have hbody : compareBody (compareReq i f.sc f.a f.b) f.sc f.g.toNat f.pd.toNat f.mode f.a f.b u m [s.cur] =
      .ok ((countPipe m s.cur 0 (lanesOf (active s.me f.g.toNat)).length).setWarp s.cur ((m.warp s.cur).setP f.pd.toNat
        (combine f.mode (s.me.getP f.pd.toNat) (maskBy (lanesOf (active s.me f.g.toNat)) (fun n => u (f.a.lane s.me n) (f.b.lane s.me n)))
          (active s.me f.g.toNat)))) := by
    unfold compareBody compareLanes
    simp only [List.headD_cons, if_pos h0, hact, hlane, admitted_getP ha]
    rfl
  rw [hx, ← compareReq_words i f.sc f.a f.b]
  exact issue_setP (by rw [hsc]; decide) hg (fun h => hpd (BitVec.eq_of_toNat_eq h)) hbody (countPipe_rest ..) (countPipe_warps ..)

theorem compare_warp (hf : cmpForm i = some (f, u)) (hq : reqOf i = some q) (h1 : f.sc = 1) (hpd : f.pd ≠ 0)
    (hu : uniform s.me f.g.toNat = some true) (hg : Goes q s m ms) :
    ∃ t, exec i s = .next t ∧ OnlyWarp s t 1 ∧
      t.me.getP f.pd.toNat = combine f.mode (s.me.getP f.pd.toNat) (if u (f.a.warp s.me) (f.b.warp s.me) then s.me.live else 0) s.me.live ∧
      samePredicates s.me t.me f.pd.toNat ∧ t.me.v = s.me.v ∧ t.me.s = s.me.s ∧ t.me.fflags = s.me.fflags := by
  obtain ⟨rfl, hx⟩ := cmp_exec hf hq
  have hsc : (compareReq i f.sc f.a f.b).sc = 1 := by rw [compareReq_sc, h1]; rfl
  obtain ⟨rfl, ha, -⟩ := goes_values (by rw [hsc]; decide) hg
  have hguard : uniform (m.warp s.cur) f.g.toNat = some true := (ha.keeps (uniform · f.g.toNat) fun _ _ _ => rfl).trans hu
  have hwarp : ∀ a : Src, a.warp (m.warp s.cur) = a.warp s.me := fun a => ha.keeps a.warp fun _ _ _ => by cases a <;> rfl
  have hbody : compareBody (compareReq i f.sc f.a f.b) f.sc f.g.toNat f.pd.toNat f.mode f.a f.b u m [s.cur] =
      .ok ((countPipe m s.cur 1 0).setWarp s.cur ((m.warp s.cur).setP f.pd.toNat (combine f.mode (s.me.getP f.pd.toNat)
        (if u (f.a.warp s.me) (f.b.warp s.me) then s.me.live else 0) s.me.live))) := by
    unfold compareBody compareWarp
    simp only [List.headD_cons, h1, hguard, hwarp, admitted_getP ha, admitted_live ha]
    rfl
  rw [hx, ← compareReq_words i f.sc f.a f.b]
  exact issue_setP (by rw [hsc]; decide) hg (fun h => hpd (BitVec.eq_of_toNat_eq h)) hbody (countPipe_rest ..) (countPipe_warps ..)

end

/-- Settles O4: the bits of the combination, with the outcome that the condition's test states. -/
theorem compareForms : Obligations.CompareForms := by
  refine ⟨?lane, ?warp, fun cnd a b => ⟨intCond_iff cnd a b, floatCond_iff cnd a b⟩, rfl, rfl, rfl⟩
  case lane =>
    intro i f u q s m ms hf hq h0 hpd hg
    obtain ⟨t, ht, ho, hp, hframe⟩ := compare_lanes hf hq h0 hpd hg
    refine ⟨t, ht, ho, fun n hn => ?_, hframe⟩
    rw [hp, getLsbD_combine _ _ _ _ _ hn]
    by_cases hact : (active s.me f.g.toNat).getLsbD n = true
    · rw [if_pos hact, if_pos hact, getLsbD_maskBy hn hact, cmpTest_iff hf _ _ (fun x hx => by rw [hx]; rfl)]
    · rw [if_neg hact, if_neg hact]
  case warp =>
    intro i f u q s m ms hf hq h1 hpd hu hg
    obtain ⟨t, ht, ho, hp, hframe⟩ := compare_warp hf hq h1 hpd hu hg
    refine ⟨t, ht, ho, fun n hn => ?_, hframe⟩
    rw [hp, getLsbD_combine _ _ _ _ _ hn]
    by_cases hlive : s.me.live.getLsbD n = true
    · rw [if_pos hlive, if_pos hlive, ← cmpTest_iff hf _ _ (fun x hx => by rw [hx]; rfl)]
      cases u (f.a.warp s.me) (f.b.warp s.me) <;> simp [hlive]
    · rw [if_neg hlive, if_neg hlive]

/-! What a step runs (R48, R49, R50, R66, R67). -/

section
variable {s : State} {m : Mach} {k : Nat} {c : Clause} {w1 : Word} {i : Instr}

theorem runWarp_instr (h : fetch s.m s.cur = .instr m i) : runWarp s = noted (exec i { s with m := m }) := by
  unfold runWarp
  rw [h]

theorem runWarp_stop {st : Stop} (h : fetch s.m s.cur = .stop m st) : runWarp s = noted (.next { s with m := deliver m s.cur st }) := by
  unfold runWarp
  rw [h]

/-- Past a header that is no safe point, the fetch goes on at the first word of the clause. -/
theorem fetch_enters (hs : (s.m.warp k).path.spilled = false) (hc : (s.m.warp k).path.clause = none) (he : enterClause s.m k = .ok m)
    (hin : (m.warp k).path.clause = some c) (hsafe : c.word.getLsbD 6 = false) : fetch s.m k = fetchInstr m k := by
  unfold fetch fillCurrent
  rw [hs, if_neg Bool.false_ne_true]
  dsimp only
  unfold fetchHere
  rw [hc, if_neg (by decide), he]
  dsimp only
  rw [hin, Option.map_some, Option.getD_some, hsafe]
  rfl

theorem fetchInstr_undecodable {e : DecodeError} (hf : fetchWord s.m k (s.m.warp k).path.pc = .ok w1) (hone : twoWords w1.toNat = false)
    (hd : decode w1 0 = .error e) : fetchInstr s.m k =
      .stop s.m (.trap { s.m.fault k (bits w1 25 24) .illegal with tmask := (s.m.warp k).path.mask, tinfo := w1 }) := by
  unfold fetchInstr
  dsimp only
  rw [hf]
  dsimp only
  rw [hone, if_neg (by simp), if_neg (by simp)]
  dsimp only
  rw [hd]

end

section
variable {s : State} (hr : s.m.rebaseDue = false)
include hr

/-- A move that no agenda names. -/
theorem step_free (ha : s.agenda = []) : step s = followed true (if canIssue s.m s.cur then runWarp s else .next s) := by
  rw [step_eq, hr, ha]
  unfold move
  rw [hr, ha]
  rfl

theorem step_event {i : Instr} {rest : List Move} (ha : s.agenda = .event i :: rest) :
    step s = followed false (exec i { s with agenda := rest, tried := [] }) := by
  rw [step_eq, ha]
  unfold move
  rw [hr, ha]
  rfl

theorem step_warp {k : Nat} {rest : List Move} (ha : s.agenda = .warp k :: rest) : step s =
    followed false (if canIssue s.m k then runWarp { s with agenda := rest, cur := k } else .next { s with agenda := rest }) := by
  rw [step_eq, ha]
  unfold move
  rw [hr, ha]
  rfl

end

/-- Settles O54: the move that a step makes, and what its fetch comes to. -/
theorem stepRuns : Obligations.StepRuns := by
  refine ⟨fun s hr => ?rebase, fun s hr => ⟨?inClause, ?entering, ?undecodable, ?event, ?named, ?idle⟩⟩
  case rebase =>
    rw [step_eq, hr, Bool.not_true, Bool.and_false]
    unfold move
    rw [if_pos hr]
    rfl
  case inClause =>
    intro c w1 i ha hmay hs hc hf
    rw [step_free hr ha, if_pos hmay, runWarp_instr ((fetch_in hs hc).trans (fetchInstr_of hc hf))]
  case entering =>
    intro m c w1 i ha hmay hs hc he hin hsafe hf
    rw [step_free hr ha, if_pos hmay, runWarp_instr ((fetch_enters hs hc he hin hsafe).trans (fetchInstr_of hin hf))]
  case undecodable =>
    intro c w1 e ha hmay hs hc hf hone hd
    rw [step_free hr ha, if_pos hmay, runWarp_stop ((fetch_in hs hc).trans (fetchInstr_undecodable hf hone hd))]
    rfl
  case event => exact fun i rest ha => step_event hr ha
  case named =>
    intro k rest ha
    rw [step_warp hr ha]
    refine ⟨fun hmay => by rw [hmay]; rfl, fun c w1 i hmay hs hc hf => ?_⟩
    rw [if_pos hmay, runWarp_instr ((fetch_in hs hc).trans (fetchInstr_of hc hf))]
  case idle =>
    intro ha hmay
    rw [step_free hr ha, hmay]
    rfl

end Sys2Proof.Machine
end

section
/-!
PROOFS. Loads from memory (09 R178, R179, R184, R185; 10 R192, R200; 05 R111).
-/

namespace Sys2Proof.Machine

/-! LD, LDP and LDR. -/

theorem loadReq_sc (i : Instr) (x : FM) : (loadReq i x).sc = x.sc.toNat := (memReq_sc ..).1

theorem loadReq_words (i : Instr) (x : FM) : (loadReq i x).words = 1 := (memReq_sc ..).2

theorem Touched.acc1 {k : Nat} {m m' : Mach} (h : Touched k m m') (hops : m'.ops = m.ops) (hsample : (m'.warp k).sample = (m.warp k).sample)
    (hp : (m'.warp k).p = (m.warp k).p) (hf : (m'.warp k).fflags = (m.warp k).fflags) : Acc1 k m m' where
  rest := by unfold Mach.storeRest; rw [h.rest]
  others := h.others
  here := h.here
  warp := h.warp
  paths := h.paths
  demot := h.demot
  ops := fun hs => ⟨hops, hsample.trans hs⟩
  p := hp
  fflags := hf

/-- What `storeRest` keeps, memory, the poison marks and the blocks are what `memRest` keeps. -/
theorem memRest_of_storeRest {m m' : Mach} (h : m'.storeRest = m.storeRest) (hmem : m'.mem = m.mem) (hpoison : m'.poison = m.poison)
    (hblocks : m'.blocks = m.blocks) : m'.memRest = m.memRest := by
  have hback : ∀ x : Mach, x.memRest = { x.storeRest with mem := x.mem, poison := x.poison, blocks := x.blocks } := fun _ => rfl
  rw [hback, h, hmem, hpoison, hblocks, ← hback]

/-- What a load's body leaves of the machine, with `src` what served each sector: memory and all but the registers of D as they were, and
in those the words of the bytes that each lane found. -/
structure Loads (q : Req) (x : FM) (k : Nat) (cached : Bool) (m m' : Mach) (ls : List (Nat × Loc)) (src : Nat → Option (List Byte)) :
    Prop extends Acc1 k m m' where
  touched : Touched k m m'
  served : ∀ e ∈ ls, ∀ b, src (e.2.key / 64) = some b → cached = true ∧ ∃ c, m.mayServe k e.2 c ∧ b = c.bytes
  first : ∀ e, ls.head? = some e → cached = true → src (e.2.key / 64) = m.servedBy k e.2
  v : (m'.warp k).v = (loadedWarp (laneBytes m k (accessBytes x.z.toNat) src) q.sc x.d.toNat x.z.toNat ls (m.warp k)).v
  s : (m'.warp k).s = (loadedWarp (laneBytes m k (accessBytes x.z.toNat) src) q.sc x.d.toNat x.z.toNat ls (m.warp k)).s

theorem loadBody_ok {q : Req} {x : FM} {u : Use} {m : Mach} {k : Nat} {ls : List (Nat × Loc)} (instr : Nat) (long cached : Bool)
    (hh : (Map.find? m.warps k).isSome = true)
    (hp : memPlaces q m k x.g.toNat x.o.toNat x.h.toNat u .read 0 (accessBytes x.z.toNat) = .ok ls)
    (hls : ∀ e ∈ ls, isExternal e.2.key = false ∧ m.poisonAt e.2.key (accessBytes x.z.toNat) = none) :
    ∃ m' src, loadBody q x u instr long cached m [k] = .ok m' ∧ Loads q x k cached m m' ls src := by
  obtain ⟨m1, src, hall, -, hserved, hfirst, htouched, hsample, hops, hpred, hflags, hv, hs⟩ :=
    loadAll_ok q k x.z.toNat x.d.toNat long cached m ls hls (memPlaces_same hp) [] m (.refl k m) hh (fun _ _ _ _ h => h)
      (fun _ _ _ h => nomatch h)
  have hh1 := htouched.here hh
  obtain ⟨hwrote, -, -, sv, ss⟩ := sampleMem_acc1 m1 q k instr (accessBytes x.z.toNat) ls hh1
  obtain ⟨hsampled, -, -⟩ := sampleMem_touched m1 q k instr (accessBytes x.z.toNat) ls hh1
  refine ⟨_, src, ?_, (htouched.acc1 hops hsample hpred hflags).trans hwrote.toAcc1, htouched.trans hsampled, hserved,
    fun e he hc => hfirst e he rfl hc, sv.trans hv, ss.trans hs⟩
  unfold loadBody
  simp only [List.headD_cons, hp, bind, Except.bind, hall]
  rfl

/-- LD and LDR look for a copy and go on at the next word; LDP reads at the home and ends with a demotion. -/
theorem load_exec {i : Instr} {x : FM} {u : Use} {q : Req} (h : loadForm i = some (x, u)) (hq : reqOf i = some q) :
    q = loadReq i x ∧
      ((i ≠ .ldp x ∧ (u != .ldp) = true ∧ ∃ instr long, exec i = issue q (loadBody q x u instr long true)) ∨
        (i = .ldp x ∧ (u != .ldp) = false ∧ ∃ body, exec i = issueTo q body ∧ ∀ m k m',
          loadBody q x u 2 false false m [k] = .ok m' → body m [k] = .ok (retire q (demote m' k) [k]))) := by
  unfold loadForm at h
  split at h <;> cases h <;> cases hq
  · exact ⟨rfl, .inl ⟨nofun, rfl, 0, false, rfl⟩⟩
  · refine ⟨rfl, .inr ⟨rfl, rfl, ldpBody x, rfl, fun m k m' hb => ?_⟩⟩
    unfold ldpBody
    dsimp only [bind, Except.bind, List.headD_cons]
    rw [show loadBody (ldpReq x) x .ldp 2 false false m [k] = .ok m' from hb]
    rfl
  · exact ⟨rfl, .inl ⟨nofun, rfl, 3, true, rfl⟩⟩

/-- What a load comes to, whichever way it ends. -/
theorem load_goes {i : Instr} {x : FM} {u : Use} {q : Req} {s : State} {m : Mach} {ms : List Nat} {ls : List (Nat × Loc)}
    (h : loadForm i = some (x, u)) (hq : reqOf i = some q) (hg : Goes q s m ms)
    (hp : memPlaces q m s.cur x.g.toNat x.o.toNat x.h.toNat u .read 0 (accessBytes x.z.toNat) = .ok ls)
    (hls : ∀ e ∈ ls, isExternal e.2.key = false ∧ m.poisonAt e.2.key (accessBytes x.z.toNat) = none) :
    ∃ t m2 src, exec i s = .next t ∧ Loads q x s.cur (u != .ldp) m m2 ls src ∧ Accessed s t ∧ t.m.storeRest = s.m.storeRest ∧
      t.m = { m2 with warps := t.m.warps, ctxs := t.m.ctxs } ∧ t.me.v = (m2.warp s.cur).v ∧ t.me.s = (m2.warp s.cur).s ∧
      t.me.p = s.me.p ∧ t.me.fflags = s.me.fflags ∧ t.me.trap = s.me.trap ∧
      (i = .ldp x → t.me.demot = min 0xFFFF (s.me.demot + 1)) ∧ (i ≠ .ldp x → t.me.demot = s.me.demot ∧ GoesOn s.me t.me 1) := by
  obtain ⟨rfl, hend⟩ := load_exec h hq
  have hsc : (loadReq i x).sc < 2 := by rw [loadReq_sc]; exact x.sc.isLt
  obtain ⟨rfl, -, hh⟩ := goes_values hsc hg
  rcases hend with ⟨hi, hcached, instr, long, hx⟩ | ⟨hi, hcached, body, hx, hbody⟩
  · obtain ⟨m2, src, hb, hload⟩ := loadBody_ok instr long true hh hp hls
    obtain ⟨t, ht, hacc, hrest, hmach, -, tv, ts, tp, tf, td, tgo, -, -, -, ttrap⟩ := finish hsc hg hb hload.toAcc1
    exact ⟨t, m2, src, (congrFun hx s).trans ht, hcached ▸ hload, hacc, hrest, hmach, tv, ts, tp, tf, ttrap, fun hl => absurd hl hi,
      fun _ => ⟨td, loadReq_words i x ▸ tgo⟩⟩
  · obtain ⟨m2, src, hb, hload⟩ := loadBody_ok 2 false false hh hp hls
    obtain ⟨t, ht, hacc, hrest, hmach, tv, ts, tp, tf, -, td, ttrap⟩ :=
      cas_end (failed := true) hsc hg (loadReq i x) (loadReq_words i x) (hbody m s.cur m2 hb) hload.toAcc1
    exact ⟨t, m2, src, (congrFun hx s).trans ht, hcached ▸ hload, hacc, hrest, hmach, tv, ts, tp, tf, ttrap, fun _ => td rfl,
      fun hl => absurd hi hl⟩

theorem laneBytes_length (m : Mach) (k n : Nat) (src : Nat → Option (List Byte)) (l : Loc) : (laneBytes m k n src l).length = n := by
  unfold laneBytes
  split
  · simp [copyLane]
  · exact loadBytes_length ..

/-- The bytes of a lane are found in the machine before the checks as they are after them. -/
theorem admitted_laneBytes {q : Req} {k : Nat} {m m' : Mach} (hA : Admitted q k m m') (n : Nat) (src : Nat → Option (List Byte)) :
    laneBytes m' k n src = laneBytes m k n src := by
  obtain ⟨hblock, -, -, hcopy⟩ := admitted_copies hA
  funext l
  unfold laneBytes
  rw [hblock]
  simp only [hcopy]
  rw [hA.machine]
  rfl

/-- A lane's bytes are those at the home, or those of a copy that serves it. -/
theorem laneBytes_delivers {m : Mach} {k n : Nat} {cached : Bool} {src : Nat → Option (List Byte)} {l : Loc}
    (h : ∀ b, src (l.key / 64) = some b → cached = true ∧ ∃ c, m.mayServe k l c ∧ b = c.bytes) :
    m.delivers k cached l n (laneBytes m k n src l) := by
  unfold Mach.delivers laneBytes
  cases hs : src (l.key / 64) with
  | none => exact .inl rfl
  | some b =>
    obtain ⟨hc, c, hserve, rfl⟩ := h b hs
    exact .inr ⟨hc, c, hserve, rfl⟩

section
variable {bytes : Loc → List Byte} {d z : Nat} {ls : List (Nat × Loc)} {w w' : Warp}

/-- The registers of a load at lane scope. -/
theorem loaded_lanes (hz : z < 7) (hb : ∀ l, (bytes l).length = accessBytes z) (hn : (ls.map (·.1)).Nodup) (h32 : ∀ e ∈ ls, e.1 < 32)
    {lanes : Word} (hlanes : ls.map (·.1) = lanesOf lanes) (hv : w'.v = (loadedWarp bytes 0 d z ls w).v)
    (hs : w'.s = (loadedWarp bytes 0 d z ls w).s) :
    (∀ e ∈ ls, ∀ j, j < regsOf z → w'.getV (d + j) e.1 = loadedWord z (bytes e.2) j) ∧
      sameVectors w w' (rangeFrom d (regsOf z)) lanes ∧ w'.s = w.s := by
  refine ⟨fun e he j hj => ?_, fun r n hr hnot => ?_, hs.trans ((loadedWarp_keeps ..).1 rfl)⟩
  · obtain ⟨hget, -⟩ := loadedWarp_v bytes d z hz ls hn h32 w (d + j) e.1 (h32 e he)
    rw [getV_eq hv, hget e he rfl (by omega) (by omega), Nat.add_sub_cancel_left, loadedWord_eq z hz _ j hj (hb e.2)]
  · obtain ⟨-, hkeep⟩ := loadedWarp_v bytes d z hz ls hn h32 w r n hr
    rw [getV_eq hv, hkeep]
    by_contra hc
    push Not at hc
    obtain ⟨⟨hlo, hhi⟩, hmem⟩ := hc
    rw [hlanes, mem_lanesOf] at hmem
    exact hnot ⟨List.mem_map.2 ⟨r - d, by simp; omega, by omega⟩, hmem.2⟩

/-- The scalar registers after the one access of a load at warp scope. -/
theorem loaded_scalar {l : Loc} (hz : z < 7) (hb : (bytes l).length = accessBytes z) (ht : w'.trap = w.trap)
    (hs : w'.s = (loadedWarp bytes 1 d z [(0, l)] w).s) :
    (∀ j, j < regsOf z → w'.getS (d + j) = loadedWord z (bytes l) j) ∧
      sameScalars w w' ((rangeFrom d (regsOf z)).map w.sKey) := by
  have hkey : ∀ n, w'.sKey n = w.sKey n := fun n => by unfold Warp.sKey; rw [ht]
  have hget : ∀ key, Map.get w'.s key = if h : ∃ j, j < (extended z (bytes l)).length ∧ key = w.sKey (d + j)
      then (extended z (bytes l)).getD (Nat.find h) 0 else Map.get w.s key := fun key => by
    rw [hs]
    exact writeRegs_s w d 0 _ key
  rw [extended_length z hz] at hget
  refine ⟨fun j hj => ?_, fun n hn => ?_⟩
  · have hex : ∃ j', j' < regsOf z ∧ w.sKey (d + j) = w.sKey (d + j') := ⟨j, hj, rfl⟩
    obtain ⟨-, hfind⟩ := Nat.find_spec hex
    have hj' : Nat.find hex = j := Nat.add_left_cancel (sKey_inj w hfind).symm
    unfold Warp.getS
    rw [hkey, hget, dif_pos hex, hj', loadedWord_eq z hz _ j hj hb]
  · rw [hget, dif_neg]
    rintro ⟨j, hj, rfl⟩
    exact hn (List.mem_map_of_mem (List.mem_map.2 ⟨j, List.mem_range.2 hj, rfl⟩))

/-- The registers of a load at warp scope, whose guard may have left no access. -/
theorem loaded_warp (hz : z < 7) (hb : ∀ l, (bytes l).length = accessBytes z) (hone : ls = [] ∨ ∃ l, ls = [(0, l)])
    (ht : w'.trap = w.trap) (hv : w'.v = (loadedWarp bytes 1 d z ls w).v) (hs : w'.s = (loadedWarp bytes 1 d z ls w).s) :
    (∀ e ∈ ls, ∀ j, j < regsOf z → w'.getS (d + j) = loadedWord z (bytes e.2) j) ∧
      sameScalars w w' (if ls = [] then [] else (rangeFrom d (regsOf z)).map w.sKey) ∧ w'.v = w.v := by
  have hkeep : w'.v = w.v := hv.trans ((loadedWarp_keeps ..).2.1 Nat.one_ne_zero)
  rcases hone with rfl | ⟨l, rfl⟩
  · exact ⟨nofun, fun n _ => by rw [hs]; rfl, hkeep⟩
  · obtain ⟨hval, hframe⟩ := loaded_scalar hz (hb l) ht hs
    refine ⟨fun e he => ?_, hframe, hkeep⟩
    rw [List.mem_singleton] at he
    exact he ▸ hval

end

/-- Settles O12: each lane's bytes are what `laneBytes` found for it, and what the registers hold of them is said once for each scope. -/
theorem loads : Obligations.Loads := by
  intro i x u q s m ms ls hform hz hq hg hp hls
  have hreq := (load_exec hform hq).1
  have hsc : q.sc = x.sc.toNat := by rw [hreq, loadReq_sc]
  have hlow : q.sc < 2 := by rw [hsc]; exact x.sc.isLt
  obtain ⟨-, hA, -⟩ := goes_values hlow hg
  obtain ⟨-, amem, apoison, ablocks, -, -⟩ := admitted_acc1 hA
  obtain ⟨-, hserved, hmay, -⟩ := admitted_copies hA
  obtain ⟨t, m2, src, ht, hload, hacc, hrest, hmach, tv, ts, tp, tf, ttrap, tldp, tgo⟩ := load_goes hform hq hg hp
    (fun e he => ⟨(hls e he).1, by unfold Mach.poisonAt; rw [apoison]; exact (hls e he).2⟩)
  have hbytes := admitted_laneBytes hA (accessBytes x.z.toNat) src
  obtain ⟨cv, cs⟩ := loadedWarp_congr (bytes := laneBytes s.m s.cur (accessBytes x.z.toNat) src) (sc := q.sc) (d := x.d.toNat)
    (z := x.z.toNat) ls s.me (m.warp s.cur) (hA.keeps Warp.v fun _ _ _ => rfl) (hA.keeps Warp.s fun _ _ _ => rfl)
    (hA.keeps Warp.trap fun _ _ _ => rfl)
  have hv : t.me.v = (loadedWarp (laneBytes s.m s.cur (accessBytes x.z.toNat) src) q.sc x.d.toNat x.z.toNat ls s.me).v := by
    rw [tv, hload.v, hbytes, cv]
  have hs : t.me.s = (loadedWarp (laneBytes s.m s.cur (accessBytes x.z.toNat) src) q.sc x.d.toNat x.z.toNat ls s.me).s := by
    rw [ts, hload.s, hbytes, cs]
  obtain ⟨hlanes, hone⟩ := memPlaces_lanes hp
  refine ⟨t, fun e => laneBytes s.m s.cur (accessBytes x.z.toNat) src e.2, ht, hacc, ?frame, tp, tf, fun e he => ?delivered,
    fun e b he hi hb => ?copy, fun h0 => ?lane, fun h1 => ?warp, tldp, tgo⟩
  case frame =>
    refine memRest_of_storeRest hrest ?_ ?_ ?_
    · rw [hmach]; exact hload.touched.mem.trans amem
    · rw [hmach]; exact hload.touched.poison.trans apoison
    · rw [hmach]; exact hload.touched.blocks.trans ablocks
  case delivered =>
    refine laneBytes_delivers fun b hb => ?_
    obtain ⟨hc, c, hserve, hcb⟩ := hload.served e he b hb
    exact ⟨hc, c, (hmay e.2 c).1 hserve, hcb⟩
  case copy =>
    have hcached : (u != .ldp) = true := by
      rcases (load_exec hform hq).2 with ⟨-, hc, -⟩ | ⟨hldp, -⟩
      · exact hc
      · exact absurd hldp hi
    have hsrc : src (e.2.key / 64) = some b := (hload.first e he hcached).trans ((hserved e.2).trans hb)
    show laneBytes s.m s.cur (accessBytes x.z.toNat) src e.2 = _
    unfold laneBytes
    rw [hsrc]
  case lane =>
    have hq0 : q.sc = 0 := by rw [hsc, h0]; rfl
    have hact : active (m.warp s.cur) x.g.toNat = active s.me x.g.toNat := by
      unfold active
      rw [hA.mask, if_pos hq0, admitted_getP hA]
      rfl
    rw [hq0] at hv hs
    exact loaded_lanes (bytes := laneBytes s.m s.cur _ src) (z_lt hz) (fun l => laneBytes_length ..) (memPlaces_nodup hp) (memPlaces_lt hp) (hact ▸ hlanes hq0) hv hs
  case warp =>
    have hq1 : q.sc = 1 := by rw [hsc, h1]; rfl
    rw [hq1] at hv hs
    exact loaded_warp (bytes := laneBytes s.m s.cur _ src) (z_lt hz) (fun l => laneBytes_length ..) (hone (by rw [hq1]; decide)) ttrap hv hs

end Sys2Proof.Machine
end

section
/-!
PROOFS. Transfers of control (05 R100, R101, R108).
-/

namespace Sys2Proof.Machine

/-- The target of a transfer depends on the registers and on the program counter alone. -/
theorem target_congr {i : Instr} {sc g : Nat} {call : Bool} {target : Warp → Nat → Word} (hi : transferForm i = some (sc, g, call, target))
    {w w' : Warp} (hpc : w'.path.pc = w.path.pc) (hsrc : w'.src = w.src) (hget : w'.getS = w.getS) : target w' = target w := by
  unfold transferForm at hi
  split at hi <;> cases hi <;> simp only [hpc, hsrc, hget]

/-- The lanes that the guard selects, in a warp whose paths alone may differ. -/
theorem taken_of_selected {q : Req} {m : Mach} {k g : Nat} {w : Warp} {c : Word} (hw : m.warp k = { w with paths := (m.warp k).paths })
    (hmask : (m.warp k).path.mask = lanesAt w q.sc) (h : selected w q.sc g = some c) : taken q m k g = .ok c := by
  have hgetP : (m.warp k).getP g = w.getP g := by rw [hw]; rfl
  unfold selected at h
  unfold taken
  by_cases h0 : q.sc = 0
  · rw [if_pos h0] at h ⊢
    rw [← Option.some.inj h]
    unfold active
    rw [hmask, hgetP, lanesAt, if_pos h0]
  · rw [if_neg h0] at h ⊢
    have hu : uniform (m.warp k) g = uniform w g := by rw [hw]; rfl
    have hl : (m.warp k).live = w.live := by rw [hw]
    rw [hu, hl]
    cases hb : uniform w g with
    | none => rw [hb] at h; cases h
    | some b => rw [hb] at h; cases b <;> cases h <;> rfl

theorem split_turn (w : Warp) (gs : List Group) : (split w gs).path.turn ≤ w.path.turn + 1 := by
  unfold split
  split
  · next p r g gs hp =>
    have hpath : w.path = p := by unfold Warp.path; rw [hp]; rfl
    rw [hpath]
    exact le_refl _
  · exact Nat.le_succ _

theorem transferTo_turn (call : Bool) (c : Word) (target : Nat → Word) (w : Warp) :
    (transferTo call c target w).path.turn ≤ w.path.turn + 1 := by
  unfold transferTo
  dsimp only
  refine (split_turn ..).trans (le_of_eq ?_)
  split <;> rfl

/-- What a retired transfer of the lanes c leaves of a warp w. -/
structure Transferred (call : Bool) (c : Word) (target : Nat → Word) (w w' : Warp) : Prop where
  rest : w'.placeRest = w.placeRest
  v : w'.v = w.v
  s : w'.s = w.s
  p : w'.p = w.p
  fflags : w'.fflags = w.fflags
  recs : w'.recs = if call = true ∧ c ≠ 0 then Map.ins w.recs w.nextRec
    { call := true, addr := w.path.pc + 4, entry := c, arrival := 0, parent := w.path.inner, spilled := false } else w.recs
  lanes : ∀ n, n < 32 → w.path.mask.getLsbD n = true → ∃ p ∈ w'.paths, p.mask.getLsbD n = true ∧ p.st = w.path.st ∧ p.clause = none ∧
    p.pc = (if c.getLsbD n = true then target n else w.path.pc + 4) ∧
    p.inner = if call = true ∧ c.getLsbD n = true then some w.nextRec else w.path.inner
  tail : w.path.turn + 1 < 4096 → ∀ p ∈ w.paths.tail, p ∈ w'.paths
  lowest : w.path.mask ≠ 0 → w.path.turn + 1 < 4096 → w'.path.mask.getLsbD (lowest w.path.mask) = true

/-- A transfer after the retirement, whose turn may then have ended. -/
def transferred (q : Req) (call : Bool) (c : Word) (target : Nat → Word) (w : Warp) : Warp :=
  (transferTo call c target (retireWarp q true w)).limitTurn

theorem retireWarp_path (q : Req) (w : Warp) : (retireWarp q true w).path = w.path :=
  congrArg (fun l => l.headD default) (retire_keeps q w).1

theorem transferred_transferred (q : Req) (call : Bool) (c : Word) (target : Nat → Word) {w : Warp} (hne : w.paths ≠ []) :
    Transferred call c target w (transferred q call c target w) := by
  obtain ⟨kpaths, krecs, krest, kv, ks, kp, kf, -, -, -, knext⟩ := retire_keeps q w
  obtain ⟨heq, hrecs, hlanes, htail, -, -, hlowest⟩ := transferTo_spec call c target (retireWarp q true w) (by rw [kpaths]; exact hne)
  have hturn := transferTo_turn call c target (retireWarp q true w)
  rw [retireWarp_path] at hrecs hlanes hlowest hturn
  rw [krecs, knext] at hrecs
  rw [knext] at hlanes
  rw [kpaths] at htail
  unfold transferred
  generalize transferTo call c target (retireWarp q true w) = w1 at *
  have hlow : w.path.turn + 1 < 4096 → w1.limitTurn = w1 := fun h => limitTurn_low (by omega)
  refine ⟨?_, ?_, ?_, ?_, ?_, ?_, fun n hn hb => ?_, fun h => ?_, fun hm h => ?_⟩
  · rw [limitTurn_eq, heq]; exact krest
  · rw [limitTurn_eq, heq]; exact kv
  · rw [limitTurn_eq, heq]; exact ks
  · rw [limitTurn_eq, heq]; exact kp
  · rw [limitTurn_eq, heq]; exact kf
  · rw [limitTurn_eq]; exact hrecs
  · obtain ⟨p, hp, facts⟩ := hlanes n hn hb
    obtain ⟨p', hp', e⟩ := mem_limitTurn hp
    refine ⟨p', hp', ?_⟩
    rw [e]
    exact facts
  · rw [hlow h]; exact htail
  · rw [hlow h]; exact hlowest hm

/-- Where the table has room, a transfer is placed as it is. -/
theorem placeWarp_transferred (q : Req) {m : Mach} {k : Nat} {call : Bool} {c : Word} {target : Nat → Word} (hne : (m.warp k).paths ≠ [])
    (hroom : roomFor (m.warp k) ((lanesOf c).map target).dedup.length) :
    placeWarp q m k (call && c != 0).toNat (transferTo call c target) = .ok (m.setWarp k (transferred q call c target (m.warp k))) := by
  obtain ⟨hpaths, hrecs, hlen, hfew⟩ := hroom
  obtain ⟨kpaths, krecs, -, -, -, -, -, -, -, -, -⟩ := retire_keeps q (m.warp k)
  obtain ⟨heq, hpushed, -, -, hgrown, hspill, -⟩ :=
    transferTo_spec call c target (retireWarp q true (m.warp k)) (by rw [kpaths]; exact hne)
  rw [kpaths] at hgrown
  rw [krecs] at hpushed
  have hkept : ∀ p ∈ (retireWarp q true (m.warp k)).paths, p.spilled = false := by rw [kpaths]; exact hpaths
  have hone : (call && c != 0).toNat ≤ 1 := Bool.toNat_le _
  unfold placeWarp
  rw [residency_room hkept (by rw [krecs]; exact hrecs) (by rw [krecs]; omega) ?_ ?_ ?_ ?_]
  · rfl
  · exact limitTurn_spilled (hspill (head_unspilled hkept) fun p hp => hkept p (List.mem_of_mem_tail hp))
  · rw [limitTurn_eq]
    show ∀ e ∈ (transferTo call c target _).recs, _
    rw [hpushed]
    intro e he
    split at he
    · rcases Map.mem_ins he with rfl | he
      · rfl
      · exact hrecs e he
    · exact hrecs e he
  · rw [limitTurn_length]; omega
  · rw [limitTurn_eq, heq]

/-- Settles O22: at warp scope the checks have merged the paths, and the transfer divides the current one. -/
theorem transfers : Obligations.Transfers := by
  intro i sc g call target c q s m ms hi hq hg hsel halign hroom hst
  obtain ⟨hpaths, hrecs, hlen, hfew⟩ := hroom
  obtain ⟨rfl, hlow, -, body, hexec, hbody⟩ := transfer_exec hi hq
  obtain ⟨hms, hadmitted, -⟩ := goes_values hlow hg
  obtain ⟨w, hw, hme, hmask, hpc, hinner, -, hrun, -, hne, hshort, -, hsame, hspill⟩ := goes_resident hlow hg (head_unspilled hpaths)
  have htarget : target w = target s.me := target_congr hi hpc (by rw [hme]; rfl) (by rw [hme]; rfl)
  have hwrecs : w.recs = s.me.recs := by rw [hme]
  have hwnext : w.nextRec = s.me.nextRec := by rw [hme]
  have htaken : taken q m s.cur g = .ok c := by
    subst hw
    exact taken_of_selected hme hmask hsel
  have hplaced : body m ms = .ok (m.setWarp s.cur (transferred q call c (target s.me) w)) := by
    rw [hms, hbody m s.cur c htaken (by rw [hw, htarget]; exact halign), hw, htarget]
    refine (placeWarp_transferred q ?_ ?_).trans (by rw [hw])
    · rw [hw]; exact hne
    · rw [hw]; exact ⟨hspill hpaths, by rw [hwrecs]; exact hrecs, by omega, by rw [hwrecs]; exact hfew⟩
  have hT := transferred_transferred q call c (target s.me) hne
  have hturn : w.path.turn = s.me.path.turn := hw ▸ hadmitted.turn
  generalize transferred q call c (target s.me) w = w' at hplaced hT
  have hme' : (m.setWarp s.cur w').warp s.cur = w' := Mach.warp_setWarp_self ..
  have hat : ({ s with m := m.setWarp s.cur w' } : State).me = w' := hme'
  refine ⟨_, (congrFun hexec s).trans (issueTo_mach hg hplaced), ?steered, ?lanes, ?tail, ?recs, ?lowest⟩
  case steered =>
    refine steered_of hlow hg rfl (fun j hj => Map.find?_ins_ne _ _ hj) ?_ ?_ ?_ ?_ ?_ <;> rw [hme', hw]
    exacts [hT.rest, hT.v, hT.s, hT.p, hT.fflags]
  case lanes =>
    intro n hn hb
    obtain ⟨p, hp, hpm, hpst, hpcl, hppc, hpin⟩ := hT.lanes n hn (by rw [hmask]; exact hb)
    rw [hat]
    refine ⟨p, hp, hpm, hpst.trans (hrun hst), hpcl, ?_, ?_⟩
    · rw [hppc, hpc]
    · rw [hpin, hwnext, hinner]
  case tail =>
    intro h0 ht p hp
    rw [hat]
    exact hT.tail (by rw [hturn]; exact ht) p (by rw [hsame h0]; exact hp)
  case recs =>
    rw [hat, hT.recs, hwrecs, hwnext, hpc, hinner]
  case lowest =>
    intro hl ht
    rw [← hmask] at hl ⊢
    rw [hat]
    exact hT.lowest hl (by rw [hturn]; exact ht)

end Sys2Proof.Machine
end

section
/-!
PROOFS. Barriers and sets (04 R79, R80, R91, R94, R95).
-/

namespace Sys2Proof.Machine

theorem Map.upd_upd {α : Type} (l : List (Nat × α)) (k : Nat) (f g : α → α) : Map.upd (Map.upd l k f) k g = Map.upd l k (g ∘ f) := by
  unfold Map.upd
  rw [List.map_map]
  refine List.map_congr_left fun e _ => ?_
  by_cases h : e.1 = k
  · simp [h]
  · simp [h]

/-! NOP at set and block scope, BAR and GBAR (R79, R80, R91). -/

/-- A barrier is its rendezvous and nothing more. -/
theorem barrier_exec {i : Instr} {q : Req} (hi : barrierForm i = true) (hq : reqOf i = some q) :
    q.words = 1 ∧ exec i = issue q barBody := by
  unfold barrierForm at hi
  split at hi
  · cases hq; exact ⟨rfl, rfl⟩
  · cases hq; exact ⟨rfl, rfl⟩
  · cases hi

section
variable {m : Mach} {ms : List Nat}

theorem gbarBody_outside (h : (m.block (m.warp (ms.headD 0)).block).lr.isGang = false) : gbarBody m ms = .ok (retire gbarReq m ms) := by
  unfold gbarBody
  dsimp only
  rw [h]
  rfl

/-- The machine once a block has arrived at its gang's barrier. -/
def atGangBarrier (m : Mach) (bk : Nat) : Mach := m.updBlock bk (fun b => { b with gbarHere := true })

/-- The last block of a gang to arrive goes on at once: its mark is gone again. -/
theorem atGangBarrier_passed (m : Mach) (bk : Nat) :
    (atGangBarrier m bk).updBlock bk (fun b => { b with gbars := b.gbars + 1, gbarHere := false }) =
      m.updBlock bk (fun b => { b with gbars := b.gbars + 1, gbarHere := false }) := by
  unfold atGangBarrier Mach.updBlock
  dsimp only
  rw [Map.upd_upd]
  rfl

variable {bk : Nat} (hbk : (m.warp (ms.headD 0)).block = bk) (hgang : (m.block bk).lr.isGang = true)
include hbk hgang

theorem gbarBody_inside : gbarBody m ms =
    if (gangOf (atGangBarrier m bk) (m.block bk)).all (gbarArrived (atGangBarrier m bk) (m.block bk).gbars) = true then
      .ok (retire gbarReq (m.updBlock bk (fun b => { b with gbars := b.gbars + 1, gbarHere := false })) ms)
    else .ok ((atGangBarrier m bk).updWarps ms (fun _ w => { w with wait := some .gang })) := by
  rw [← atGangBarrier_passed]
  unfold gbarBody
  dsimp only
  rw [hbk, hgang]
  rfl

theorem gbarBody_last
    (hall : ∀ e ∈ gangOf (atGangBarrier m bk) (m.block bk), gbarArrived (atGangBarrier m bk) (m.block bk).gbars e = true) :
    gbarBody m ms = .ok (retire gbarReq (m.updBlock bk (fun b => { b with gbars := b.gbars + 1, gbarHere := false })) ms) := by
  rw [gbarBody_inside hbk hgang, if_pos (List.all_eq_true.2 hall)]

theorem gbarBody_waits
    (hex : ∃ e ∈ gangOf (atGangBarrier m bk) (m.block bk), gbarArrived (atGangBarrier m bk) (m.block bk).gbars e = false) :
    gbarBody m ms = .ok ((atGangBarrier m bk).updWarps ms (fun _ w => { w with wait := some .gang })) := by
  obtain ⟨e, he, hlate⟩ := hex
  rw [gbarBody_inside hbk hgang, if_neg fun h => by rw [List.all_eq_true.1 h e he] at hlate; cases hlate]

end

/-- Settles O25: a barrier's body changes nothing, and GBAR's has three ends. -/
theorem barriers : Obligations.Barriers := by
  refine ⟨fun i q s m ms hi hq hg hn => ?barrier,
    fun s m ms hg hn => ⟨fun hout => ?outside, fun hgang => ⟨fun hall => ?last, fun hex => ?waits⟩⟩⟩
  case barrier =>
    obtain ⟨hwords, hexec⟩ := barrier_exec hi hq
    rw [hexec, ← hwords]
    exact issue_ends hg hn rfl
  case outside => exact issueTo_ends hg hn (gbarBody_outside hout)
  case last => exact issueTo_ends hg hn (gbarBody_last rfl hgang hall)
  case waits => exact issueTo_mach hg (gbarBody_waits rfl hgang hex)

/-! SJOIN, SLEAVE and SINFO (R94, R95). -/

/-- The machine once a warp has joined a set. -/
def joinedTo (m : Mach) (k id n : Nat) : Mach :=
  (m.updBlock (m.warp k).block (fun b => { b with sets := Map.ins b.sets id (joined (m.warp k) ((m.blockOf k).set id) n) })).updWarp k
    (fun w => { w with set := some id })

/-- The model's SJOIN answers the stated status, and only with status 0 does the warp join. -/
theorem sjoin_eq {m : Mach} {k id n : Nat} (h4 : ((m.blockOf k).set id).st < 4) :
    sjoin m k id n = (sjoinStatus (m.warp k) (m.blockOf k).lr.nW ((m.blockOf k).set id) n,
      if sjoinStatus (m.warp k) (m.blockOf k).lr.nW ((m.blockOf k).set id) n = 0 then joinedTo m k id n else m) := by
  have hdone : (((m.blockOf k).set id).st = 2 ∨ ((m.blockOf k).set id).st = 3) ↔ 2 ≤ ((m.blockOf k).set id).st := by omega
  have hblock : m.blockOf k = m.block (m.warp k).block := rfl
  unfold sjoin sjoinStatus
  dsimp only
  rw [hblock] at hdone ⊢
  rw [if_congr hdone rfl rfl]
  by_cases htrap : (m.warp k).trap.isSome = true
  · rw [if_pos htrap, if_pos htrap]; rfl
  rw [if_neg htrap, if_neg htrap]
  by_cases hin : (m.warp k).set.isSome = true ∨ (m.block (m.warp k).block).lr.nW < n
  · rw [if_pos hin, if_pos hin]; rfl
  rw [if_neg hin, if_neg hin]
  by_cases hbusy : 2 ≤ ((m.block (m.warp k).block).set id).st
  · rw [if_pos hbusy, if_pos hbusy]; rfl
  rw [if_neg hbusy, if_neg hbusy]
  by_cases hsize : ((m.block (m.warp k).block).set id).st = 1 ∧ ((m.block (m.warp k).block).set id).size ≠ n
  · rw [if_pos hsize, if_pos hsize]; rfl
  · rw [if_neg hsize, if_neg hsize]; rfl

theorem sjoinBody_eq {x : FABC} {m : Mach} {k : Nat} (h4 : ((m.blockOf k).set x.b.toNat).st < 4) :
    sjoinBody x m [k] = .ok (
      let st := sjoinStatus (m.warp k) (m.blockOf k).lr.nW ((m.blockOf k).set x.b.toNat) (2 ^ x.c.toNat)
      (if st = 0 then joinedTo m k x.b.toNat (2 ^ x.c.toNat) else m).answer k x.a.toNat st) := by
  unfold sjoinBody sizeCode
  dsimp only [List.headD_cons]
  rw [sjoin_eq h4]

section
variable {x : FOA} {m : Mach} {k : Nat}

theorem sleaveBody_trapped (h : (m.warp k).trap.isSome = true) : sleaveBody x m [k] = .ok (m.answer k x.a.toNat 8) := if_pos h

theorem sleaveBody_outside (h : (m.warp k).trap.isSome = false) (hset : (m.warp k).set = none) :
    sleaveBody x m [k] = .ok (m.answer k x.a.toNat 6) := by
  unfold sleaveBody
  simp only [List.headD_cons, h, hset, Option.isNone_none, Bool.false_eq_true, if_false, if_true]

theorem sleaveBody_leaves (h : (m.warp k).trap.isSome = false) (hset : (m.warp k).set.isSome = true)
    (hidle : ∀ e ∈ m.ops, e.2.namesMember k = false) : sleaveBody x m [k] = .ok ((leaveSet m k).answer k x.a.toNat 0) := by
  have hnone : (m.warp k).set.isNone = false := by rw [← Option.not_isSome, hset]; rfl
  have hany : m.ops.any (fun e => e.2.namesMember k) = false := List.any_eq_false.2 fun e he => by rw [hidle e he]; decide
  unfold sleaveBody
  simp only [List.headD_cons, h, hnone, hany, Bool.false_eq_true, if_false]

end

/-- Settles O26: SJOIN by its status, SLEAVE by where the warp stands; SINFO writes two registers. -/
theorem sets : Obligations.Sets := by
  refine ⟨fun x s m ms hg => ?join,
    fun x s m ms hg => ⟨fun htrap => ?trapped, fun htrap hset => ?outside, fun htrap hset hidle => ?leaves⟩,
    fun x s m ms hg => ?info⟩
  case join =>
    intro bk st n h4
    obtain ⟨t, ht, hends⟩ := issue_ends1 (q := sjoinReq x) Nat.one_lt_two hg (sjoinBody_eq h4)
    refine ⟨t, ht, fun hne => ?_, fun hzero => ?_⟩
    · dsimp only at hends
      rwa [if_neg hne] at hends
    · dsimp only at hends
      rwa [if_pos hzero, hzero] at hends
  case trapped => exact issue_ends1 (q := sleaveReq x) Nat.one_lt_two hg (sleaveBody_trapped htrap)
  case outside => exact issue_ends1 (q := sleaveReq x) Nat.one_lt_two hg (sleaveBody_outside htrap hset)
  case leaves => exact issue_ends1 (q := sleaveReq x) Nat.one_lt_two hg (sleaveBody_leaves htrap hset hidle)
  case info => exact issue_ends1 (q := sinfoReq x) (body := sinfoBody x) Nat.one_lt_two hg rfl

end Sys2Proof.Machine
end

section
/-!
PROOFS. The exit of threads, NOP and PYIELD (04 R74; 05 R100, R110).
-/

namespace Sys2Proof.Machine

/-! Turns of paths (R110). -/

/-- The first runnable path becomes current, and the parked ones before it go behind the others. -/
theorem rotate_first {a r : List Machine.Path} {p : Machine.Path} (ha : ∀ x ∈ a, x.runnable = false) (hp : p.runnable = true) :
    rotate (a ++ p :: r) = { p with turn := 0 } :: (r ++ a) := by
  have hany : (a ++ p :: r).any Path.runnable = true := List.any_eq_true.2 ⟨p, by simp, hp⟩
  have hskip : ∀ x ∈ a, (!x.runnable) = true := fun x hx => by rw [ha x hx]; rfl
  have hdrop : (a ++ p :: r).dropWhile (fun p => !p.runnable) = p :: r := by
    rw [List.dropWhile_append_of_pos hskip, List.dropWhile_cons, hp]; rfl
  have htake : (a ++ p :: r).takeWhile (fun p => !p.runnable) = a := by
    rw [List.takeWhile_append_of_pos hskip, List.takeWhile_cons, hp]; exact List.append_nil a
  unfold rotate
  rw [if_pos hany, hdrop, htake]
  rfl

/-- A path whose turn ends with the instruction goes behind its siblings. -/
theorem ended_turnOver (q : Req) (b : Bool) {w : Warp} {p : Machine.Path} {r : List Machine.Path} (h : w.paths = p :: r)
    (ht : 4096 ≤ p.turn + 1) : (w.ended q b).paths = rotate (r ++ [p.advance q.words]) := by
  have hp : (retireWarp q b w).paths = p :: r := by rw [retireWarp_eq]; exact h
  have hw : ((retireWarp q b w).setPath ((retireWarp q b w).path.advance q.words)).paths = p.advance q.words :: r := by
    unfold Warp.setPath Warp.path
    rw [hp]
    rfl
  have hturn : ¬ ((retireWarp q b w).setPath ((retireWarp q b w).path.advance q.words)).path.turn < 4096 := by
    unfold Warp.path at hw ⊢
    rw [hw]
    exact Nat.not_lt.2 ht
  unfold Warp.ended Warp.limitTurn
  dsimp only
  rw [if_neg hturn, hw]
  rfl

@[simp] theorem ended_placeRest (q : Req) (b : Bool) (w : Warp) : (w.ended q b).placeRest = w.placeRest := by
  unfold Warp.placeRest
  rw [ended_rest]

theorem spendTurn_eq (w : Warp) : w.spendTurn = { w with paths := w.spendTurn.paths } := by
  unfold Warp.spendTurn Warp.setPath
  split <;> rfl

theorem spendTurn_paths {w : Warp} {p : Machine.Path} {r : List Machine.Path} (h : w.paths = p :: r) :
    w.spendTurn.paths = { p with turn := 4095 } :: r := by
  unfold Warp.spendTurn Warp.setPath Warp.path
  rw [h]
  rfl

/-- The path that has yielded, gone on by one word. -/
def Path.yielded (p : Machine.Path) : Machine.Path := ({ p with turn := 4095 } : Machine.Path).advance 1

@[simp] theorem yielded_runnable (p : Machine.Path) : p.yielded.runnable = p.runnable := rfl

theorem pyieldBody_ok (m : Mach) (k : Nat) : pyieldBody m [k] = .ok (retire pyieldReq (m.updWarp k Warp.spendTurn) [k]) := rfl

/-- PYIELD spends the turn of the current path, and its retirement ends it. -/
theorem pyield_steers {s : State} {m : Mach} {ms : List Nat} {p : Machine.Path} {r : List Machine.Path} (hg : Goes pyieldReq s m ms)
    (hpaths : s.me.paths = p :: r) (hp : p.spilled = false) :
    ∃ t, exec .pyield s = .next t ∧ Steered s t ∧ t.me.recs = s.me.recs ∧ t.me.paths = rotate (r ++ [p.yielded]) := by
  have hsc : pyieldReq.sc < 2 := Nat.zero_lt_two
  have hres : s.me.path.spilled = false := by unfold Warp.path; rw [hpaths]; exact hp
  obtain ⟨rfl, hA, hh⟩ := goes_values hsc hg
  obtain rfl := (admission_resident hsc hg.admitted hres).1 rfl
  have hh' : (Map.find? (s.m.updWarp s.cur Warp.spendTurn).warps s.cur).isSome = true := by
    rw [Mach.updWarp, Map.find?_upd_self, Option.isSome_map]; exact hh
  have hme : (retire pyieldReq (s.m.updWarp s.cur Warp.spendTurn) [s.cur]).warp s.cur =
      s.me.spendTurn.ended pyieldReq (s.cur == (s.m.updWarp s.cur Warp.spendTurn).lead pyieldReq.sc s.cur) := by
    rw [warp_retired hh', Mach.warp_updWarp_self _ hh]
    rfl
  refine ⟨_, issueTo_mach hg (pyieldBody_ok s.m s.cur), ?steered, ?recs, ?paths⟩
  case steered =>
    obtain ⟨-, hrest, hothers⟩ := retire_mach pyieldReq (s.m.updWarp s.cur Warp.spendTurn) s.cur
    refine steered_of hsc hg hrest (others_trans (others_upd _ _ _) hothers) ?_ ?_ ?_ ?_ ?_
    all_goals rw [hme]
    · rw [ended_placeRest, spendTurn_eq]; rfl
    · rw [ended_v, spendTurn_eq]; rfl
    · rw [ended_s, spendTurn_eq]; rfl
    · rw [ended_p, spendTurn_eq]; rfl
    · rw [ended_fflags, spendTurn_eq]; rfl
  case recs =>
    refine (congrArg Warp.recs hme).trans ?_
    rw [ended_recs, spendTurn_eq]
  case paths => exact (congrArg Warp.paths hme).trans (ended_turnOver _ _ (spendTurn_paths hpaths) (le_refl _))

/-! EXIT (R74, R100). -/

theorem recordsOf_none {w : Warp} (h : w.recs = []) (x : Word) : recordsOf w x = [] := by
  unfold recordsOf
  rw [h]
  rfl

theorem exitFills_none {w : Warp} (h : w.recs = []) : exitFills w = 0 := by
  unfold exitFills
  rw [recordsOf_none h]
  rfl

theorem spillTouches_none (m : Mach) (k : Nat) (f : FaultInfo) (n : Nat) : spillTouches m k f n n n = .ok () := by
  unfold spillTouches
  rw [Nat.sub_self]
  rfl

/-- Without records no entry comes back from spill, and the lanes of the current path exit. -/
theorem exitTBody_ok {x : FSC1} {m : Mach} {k : Nat} (h : (m.warp k).recs = []) :
    exitTBody x m [k] = .ok (exitCur (m.updWarp k (retireWarp (exitTReq x) true)) k) := by
  unfold exitTBody
  dsimp only [List.headD_cons]
  rw [exitFills_none h, Nat.mul_zero, Nat.sub_zero, spillTouches_none]
  rfl

theorem exitPath_noRecs {w : Warp} (h : w.recs = []) :
    exitPath w = settle { w with live := w.live &&& ~~~ w.path.mask, paths := w.paths.tail } := by
  unfold exitPath
  dsimp only
  rw [recordsOf_none h, List.foldl_nil, List.drop_one]

/-- The lanes of the current path leave a warp without records, which is otherwise the same but for the order of its paths. -/
theorem exitPath_eq {w : Warp} (h : w.recs = []) :
    exitPath w = { w with live := w.live &&& ~~~ w.path.mask, paths := (exitPath w).paths } := by
  rw [exitPath_noRecs h]
  rfl

theorem exitPath_paths {w : Warp} (h : w.recs = []) (hrun : ∃ p ∈ w.paths.tail, p.st = .runnable) :
    (exitPath w).paths = rotate w.paths.tail := by
  obtain ⟨p, hp, hst⟩ := hrun
  rw [exitPath_noRecs h]
  exact if_pos (List.any_eq_true.2 ⟨p, hp, by rw [Path.runnable, hst]; rfl⟩)

theorem exitCur_stays {m : Mach} {k : Nat} (hlive : (exitPath (m.warp k)).live ≠ 0)
    (hrun : (exitPath (m.warp k)).paths.any Path.runnable = true) : exitCur m k = m.setWarp k (exitPath (m.warp k)) := by
  unfold exitCur
  dsimp only
  rw [if_neg hlive, if_pos hrun]

theorem releaseWide_none {m : Mach} {k : Nat} (h : ∀ x ∈ (m.blockOf k).wides, x.reporter ≠ some k) : releaseWide m k = m := by
  have hfind : (m.block (m.warp k).block).wides.find? (fun x => x.reporter == some k) = none :=
    List.find?_eq_none.2 fun x hx => by simpa using h x hx
  unfold releaseWide
  dsimp only
  rw [hfind]

/-- A warp all of whose threads have exited (04 R74). -/
def Warp.emptied (w : Warp) : Warp :=
  { w with live := 0, paths := [], recs := [], run := .exited, sig := none, wait := none, grow := none, granted := false }

/-- A warp that reports no wide fault, is in no set and has no sample armed exits with no effect on others. -/
theorem exitWarp_quiet {m : Mach} {k : Nat} (hh : (Map.find? m.warps k).isSome = true)
    (hwides : ∀ x ∈ (m.blockOf k).wides, x.reporter ≠ some k) (hset : (m.warp k).set = none) (hsample : (m.warp k).sample = none) :
    exitWarp m k = (m.updWarp k Warp.noBank).updWarp k Warp.emptied := by
  have hh' : (Map.find? (m.updWarp k Warp.noBank).warps k).isSome = true := by
    rw [Mach.updWarp, Map.find?_upd_self, Option.isSome_map]; exact hh
  have hwarp : ((m.updWarp k Warp.noBank).updWarp k Warp.emptied).warp k = (m.warp k).noBank.emptied := by
    rw [Mach.warp_updWarp_self _ hh', Mach.warp_updWarp_self _ hh]
  have hfire : fireSample ((m.updWarp k Warp.noBank).updWarp k Warp.emptied) k false 0 0xFF 0 0 =
      (m.updWarp k Warp.noBank).updWarp k Warp.emptied := by
    unfold fireSample
    rw [hwarp, show (m.warp k).noBank.emptied.sample = none from hsample]
  have hleave : leaveSet ((m.updWarp k Warp.noBank).updWarp k Warp.emptied) k = (m.updWarp k Warp.noBank).updWarp k Warp.emptied := by
    unfold leaveSet
    dsimp only
    rw [hwarp, show (m.warp k).noBank.emptied.set = none from hset]
  unfold exitWarp warpExited
  dsimp only
  rw [releaseWide_none hwides]
  unfold Warp.emptied at hfire hleave ⊢
  rw [hfire, hleave, ite_self]

/-- The exit of a warp's last path, where the warp exits quietly. -/
theorem exitCur_last {m : Mach} {k : Nat} (hlive : (exitPath (m.warp k)).live = 0)
    (hwides : ∀ x ∈ (m.block (exitPath (m.warp k)).block).wides, x.reporter ≠ some k) (hset : (exitPath (m.warp k)).set = none)
    (hsample : (exitPath (m.warp k)).sample = none) :
    exitCur m k = ((m.setWarp k (exitPath (m.warp k))).updWarp k Warp.noBank).updWarp k Warp.emptied := by
  unfold exitCur
  dsimp only
  rw [if_pos hlive]
  generalize exitPath (m.warp k) = e at hwides hset hsample
  have hat : (m.setWarp k e).warp k = e := Mach.warp_setWarp_self ..
  refine exitWarp_quiet (by simp [Mach.setWarp]) ?_ (by rw [hat]; exact hset) (by rw [hat]; exact hsample)
  unfold Mach.blockOf
  rw [hat]
  exact hwides

/-- The lanes of one path exit, and a sibling runs on. -/
theorem exit_path {x : FSC1} {s : State} {m : Mach} {ms : List Nat} (hg : Goes (exitTReq x) s m ms)
    (hspill : ∀ p ∈ s.me.paths, p.spilled = false) (hrecs : s.me.recs = []) (h0 : x.sc = 0)
    (hrun : ∃ p ∈ s.me.paths.tail, p.st = .runnable) (hlive : s.me.live &&& ~~~ s.me.path.mask ≠ 0) :
    ∃ t, exec (.exitT x) s = .next t ∧ Steered s { t with m := t.m.updWarp s.cur (fun w => { w with live := s.me.live }) } ∧
      t.me.live = s.me.live &&& ~~~ s.me.path.mask ∧ t.me.paths = rotate s.me.paths.tail := by
  have hsc : (exitTReq x).sc = 0 := congrArg BitVec.toNat h0
  have hlow : (exitTReq x).sc < 2 := by rw [hsc]; exact Nat.zero_lt_two
  obtain ⟨rfl, hA, hh⟩ := goes_values hlow hg
  obtain rfl := (admission_resident hlow hg.admitted (head_unspilled hspill)).1 hsc
  obtain ⟨kpaths, krecs, kplace, kv, ks, kp, kf, -, klive, -, -⟩ := retire_keeps (exitTReq x) s.me
  have hwarp : (s.m.updWarp s.cur (retireWarp (exitTReq x) true)).warp s.cur = retireWarp (exitTReq x) true s.me :=
    Mach.warp_updWarp_self _ hh
  have hbody := exitTBody_ok (x := x) hrecs
  have hpaths := exitPath_paths (krecs.trans hrecs) (by rw [kpaths]; exact hrun)
  have heq := exitPath_eq (krecs.trans hrecs)
  rw [kpaths] at hpaths
  rw [klive, retireWarp_path, hpaths] at heq
  rw [exitCur_stays (by rw [hwarp, heq]; exact hlive) (by rw [hwarp, hpaths]; exact (rotate_keep _ hrun).1), hwarp, heq] at hbody
  generalize retireWarp (exitTReq x) true s.me = w at *
  have hme (m' : Mach) (w' : Warp) : ((m'.setWarp s.cur w').updWarp s.cur (fun w => { w with live := s.me.live })).warp s.cur =
      { w' with live := s.me.live } := by
    rw [Mach.warp_updWarp_self _ (by simp [Mach.setWarp]), Mach.warp_setWarp_self]
  refine ⟨_, issueTo_mach hg hbody, steered_of hlow hg rfl ?others ?_ ?_ ?_ ?_ ?_, ?live, ?paths⟩
  case others => exact others_trans (others_trans (others_upd _ _ _) (fun j hj => Map.find?_ins_ne _ _ hj)) (others_upd _ _ _)
  case live => exact congrArg Warp.live (Mach.warp_setWarp_self _ _ _)
  case paths => exact congrArg Warp.paths (Mach.warp_setWarp_self _ _ _)
  all_goals
    rw [hme]
  · exact congrArg (fun w : Warp => { w with live := s.me.live }) kplace
  · exact kv
  · exact ks
  · exact kp
  · exact kf

/-- What is left of a warp when all its lanes exit. -/
theorem exitPath_all (q : Req) {w : Warp} (hrecs : w.recs = []) (hmask : w.path.mask = w.live) :
    (exitPath (retireWarp q true w)).live = 0 ∧ (exitPath (retireWarp q true w)).block = w.block ∧
      (exitPath (retireWarp q true w)).set = w.set ∧ (exitPath (retireWarp q true w)).sample = w.sample ∧
      (exitPath (retireWarp q true w)).v = w.v ∧ (exitPath (retireWarp q true w)).p = w.p := by
  obtain ⟨-, krecs, -, -, -, -, -, -, klive, -, -⟩ := retire_keeps q w
  rw [exitPath_eq (krecs.trans hrecs), klive, retireWarp_path, hmask, retireWarp_eq]
  exact ⟨BitVec.and_not_self w.live, rfl, rfl, rfl, rfl, rfl⟩

/-- The last threads of a warp exit, and the warp with them. -/
theorem exit_warp {x : FSC1} {s : State} {m : Mach} {ms : List Nat} (hg : Goes (exitTReq x) s m ms)
    (hspill : ∀ p ∈ s.me.paths, p.spilled = false) (hrecs : s.me.recs = []) (hall : lanesAt s.me x.sc.toNat = s.me.live)
    (hset : s.me.set = none) (hsample : s.me.sample = none) (hwides : ∀ w ∈ (s.m.blockOf s.cur).wides, w.reporter ≠ some s.cur) :
    ∃ t, exec (.exitT x) s = .next t ∧ t.p = s.p ∧ t.agenda = s.agenda ∧ t.cur = s.cur ∧ t.m.rest = s.m.rest ∧
      sameOthers s.cur s.m t.m ∧ t.me.live = 0 ∧ t.me.paths = [] ∧ t.me.run = .exited ∧ t.me.v = s.me.v ∧ t.me.p = s.me.p := by
  have hlow : (exitTReq x).sc < 2 := x.sc.isLt
  obtain ⟨rfl, hA, hh⟩ := goes_values hlow hg
  obtain ⟨-, -, -, ablocks, -, arest⟩ := admitted_acc1 hA
  obtain ⟨w, hw, hme, hmask, -⟩ := goes_resident hlow hg (head_unspilled hspill)
  have hnone : w.recs = [] := by rw [hme]; exact hrecs
  obtain ⟨elive, eblock, eset, esample, ev, ep⟩ := exitPath_all (exitTReq x) hnone (hmask.trans (hall.trans (by rw [hme])))
  have hwarp : (m.updWarp s.cur (retireWarp (exitTReq x) true)).warp s.cur = retireWarp (exitTReq x) true w :=
    hw ▸ Mach.warp_updWarp_self _ hh
  have hblock (b : Nat) : (m.updWarp s.cur (retireWarp (exitTReq x) true)).block b = s.m.block b := by
    unfold Mach.block
    rw [← ablocks]
    rfl
  have hbody := exitTBody_ok (x := x) (m := m) (k := s.cur) (by rw [hw]; exact hnone)
  rw [exitCur_last (by rw [hwarp, elive]) (by rw [hwarp, hblock, eblock, hme]; exact hwides) (by rw [hwarp, eset, hme]; exact hset)
    (by rw [hwarp, esample, hme]; exact hsample), hwarp] at hbody
  generalize exitPath (retireWarp (exitTReq x) true w) = e at hbody ev ep
  have hat : ((((m.updWarp s.cur (retireWarp (exitTReq x) true)).setWarp s.cur e).updWarp s.cur Warp.noBank).updWarp s.cur
      Warp.emptied).warp s.cur = e.noBank.emptied := by
    rw [Mach.warp_updWarp_self, Mach.warp_updWarp_self, Mach.warp_setWarp_self] <;> simp [Mach.updWarp, Mach.setWarp, Map.find?_upd_self]
  refine ⟨_, issueTo_mach hg hbody, rfl, rfl, rfl, arest, ?others, congrArg Warp.live hat, congrArg Warp.paths hat, congrArg Warp.run hat,
    (congrArg Warp.v hat).trans (ev.trans (by rw [hme])), (congrArg Warp.p hat).trans (ep.trans (by rw [hme]))⟩
  exact others_trans hA.others (others_trans (others_trans (others_upd _ _ _) (fun j hj => Map.find?_ins_ne _ _ hj))
    (others_trans (others_upd _ _ _) (others_upd _ _ _)))

/-- Settles O23: EXIT by how many of the lanes it takes; PYIELD's path goes behind its siblings, of which the first runnable one is next. -/
theorem exits : Obligations.Exits := by
  refine ⟨fun x s m ms hg ⟨hspill, _⟩ hrecs => ⟨fun hrun h0 hlive => ?some, fun hall _ hset hsample hwides => ?all⟩,
    fun x s m ms hlow hg => ?nop, fun p p' r s m ms hg hpaths hp hst hst' => ?yields, fun p r s m ms hg hpaths hp hst hnone => ?alone⟩
  case some =>
    obtain ⟨t, ht, hsteered, htlive, hpaths⟩ := exit_path hg hspill hrecs h0 hrun hlive
    obtain ⟨-, ⟨p, r, hhead, hst⟩, hkept⟩ := rotate_keep _ hrun
    rw [← hpaths] at hhead hkept
    refine ⟨t, ht, hsteered, htlive, ?_, hkept⟩
    unfold Warp.path
    rw [hhead]
    exact hst
  case all => exact exit_warp hg hspill hrecs hall hset hsample hwides
  case nop => exact issue_same (q := nopReq x) (body := nopBody) hlow hg rfl rfl rfl
  case yields =>
    obtain ⟨t, ht, hsteered, htrecs, htpaths⟩ := pyield_steers hg hpaths hp
    refine ⟨t, p.yielded, ht, hsteered, htrecs, ?_, rfl, rfl, rfl, hst⟩
    rw [htpaths]
    exact (rotate_first (a := []) (r := r ++ [p.yielded]) nofun (by rw [Path.runnable, hst']; rfl)).trans (congrArg _ (List.append_nil _))
  case alone =>
    obtain ⟨t, ht, hsteered, htrecs, htpaths⟩ := pyield_steers hg hpaths hp
    refine ⟨t, { p.yielded with turn := 0 }, ht, hsteered, htrecs, ?_, rfl, rfl, rfl, hst, rfl⟩
    rw [htpaths]
    refine (rotate_first (r := []) (fun x hx => ?_) (by rw [yielded_runnable, Path.runnable, hst]; rfl)).trans rfl
    exact beq_false_of_ne (hnone x hx)

end Sys2Proof.Machine
end

section
/-!
PROOFS. Events of warps: activation, dispatch and turns (04 R76, R85; 05 R110), leases and the rebase (10 R194, R195), holds and grants
(21 R342; 06 R122), the fault queue, replies and the scan of waits (18 R293, R294; 21 R343).
-/

namespace Sys2Proof.Machine

/-! Activation (R76). -/

/-- The machine once a parked warp has become active. -/
def activated (m : Mach) (k : Nat) : Mach := m.updWarp k (fun w => { w with active := true, justActive := true })

theorem mayPark_justActive {s : State} {v : Nat} (act : List Nat) (h : (s.m.warp v).justActive = true) : mayPark s act v = false := by
  unfold mayPark
  dsimp only
  rw [Bool.and_eq_false_iff]
  refine .inl (Bool.eq_false_iff.2 fun hc => ?_)
  have hfree := (List.mem_filter.1 (List.contains_iff_mem.1 hc)).2
  rw [h] at hfree
  cases hfree

theorem mayPark_iff {s : State} {act : List Nat} {v : Nat} (hv : v ∈ act) (hj : (s.m.warp v).justActive = false) :
    mayPark s act v = true ↔ hasReady s v = false ∨ ((∀ j ∈ act, hasReady s j = true) ∧
      ∀ j ∈ act, (s.m.warp j).justActive = false → ageOf s.m j ≤ ageOf s.m v) := by
  have hfree : (act.filter (fun j => !(s.m.warp j).justActive)).contains v = true :=
    List.contains_iff_mem.2 (List.mem_filter.2 ⟨hv, by rw [hj]; rfl⟩)
  unfold mayPark
  dsimp only
  rw [hfree, Bool.true_and]
  by_cases hall : ∀ j ∈ act, hasReady s j = true
  · rw [if_pos (List.all_eq_true.2 hall)]
    simp [hall v hv, and_iff_right hall, or_iff_not_imp_left]
  · rw [if_neg fun h => hall (List.all_eq_true.1 h)]
    simp [hall]

section
variable {s : State} {k : Nat} {w : Warp} (hw : Map.find? s.m.warps k = some w)
include hw

theorem activation_notDue (victim : Option Nat) (h : ¬ (w.active = false ∧ hasReady s k = true ∧ (s.m.block w.block).seated = true)) :
    NotDue (.parkedWarpActivation k victim) s := by
  refine ev_not rfl ?_
  rw [hw]
  refine if_pos ?_
  by_contra hc
  simp only [not_or, Bool.not_eq_true, Bool.not_eq_false'] at hc
  exact h hc

end

theorem activation_unhindered {s : State} {k : Nat} {w : Warp}
    (h : w.active = false ∧ hasReady s k = true ∧ (s.m.block w.block).seated = true) :
    ¬ (w.active = true ∨ (!hasReady s k) = true ∨ (!(s.m.block w.block).seated) = true) := by
  obtain ⟨hactive, hready, hseated⟩ := h
  rw [hactive, hready, hseated]
  decide

section
variable {s : State} {k : Nat} {w : Warp} (hw : Map.find? s.m.warps k = some w)
  (h : w.active = false ∧ hasReady s k = true ∧ (s.m.block w.block).seated = true)
include hw h

theorem activation_free : exec (.parkedWarpActivation k none) s = event s
    (if (activeIn s.m (s.m.block w.block).core (w.idx % 4)).length < 8 then some (activated s.m k) else none) := by
  refine congrArg (event s) ?_
  rw [hw]
  exact if_neg (activation_unhindered h)

theorem activation_replaces (v : Nat) : exec (.parkedWarpActivation k (some v)) s = event s
    (if (activeIn s.m (s.m.block w.block).core (w.idx % 4)).length < 8 ∨
        (!mayPark s (activeIn s.m (s.m.block w.block).core (w.idx % 4)) v) = true then none
      else some (activated (s.m.updWarp v (fun w => { w with active := false })) k)) := by
  refine congrArg (event s) ?_
  rw [hw]
  exact if_neg (activation_unhindered h)

end

/-! Dispatch and turns (R85, R110). -/

section
variable {s : State} {k : Nat} {w : Warp} (hw : Map.find? s.m.warps k = some w)
include hw

theorem starvation_event : exec (.dispatchStarvation k) s = event s
    (if w.active = true ∧ hasReady s k = true ∧ canIssue s.m k = true then some (s.m.updWarp k (fun w => { w with urgent := true }))
      else none) := by
  refine congrArg (event s) ?_
  rw [hw]

theorem turnInstructionLimit_event : exec (.turnInstructionLimit k) s = event s
    (if w.paths = [] ∨ w.path.turn < 4096 then none else some (s.m.updWarp k (fun w => { w with paths := endTurn w.paths }))) := by
  refine congrArg (event s) ?_
  rw [hw]
  exact if_congr (or_congr List.isEmpty_iff Iff.rfl) rfl rfl

theorem turnStallLimit_event : exec (.turnStallLimit k) s = event s
    (if w.run = .ready ∧ (∃ p ∈ w.paths.drop 1, p.runnable = true) ∧ w.path.runnable = true then
      some (s.m.updWarp k (fun w => { w with paths := endTurn w.paths })) else none) := by
  refine congrArg (event s) ?_
  rw [hw]
  refine if_congr ?_ rfl rfl
  rw [Bool.and_eq_true, Bool.and_eq_true, beq_iff_eq, List.any_eq_true, and_assoc]

theorem safePointHold_holds {m : Mach} (hmay : canIssue s.m k = true) (hf : fetch s.m k = .debug m) : Does (.safePointHold k) s m := by
  refine ev_does rfl ?_
  rw [hw, hmay, hf]
  rfl

end

/-! Leases and the rebase (10 R194, R195). -/

theorem dropOld_l1 {m : Mach} {core sec : Nat} {c : Copy} (hc : m.l1Copy core sec = some c) (hold : c.clk + 4096 ≤ m.clk) :
    m.dropOld core sec = some { m with l1 := Map.upd m.l1 (l1Set core sec) (dropSec sec) } := by
  unfold Mach.dropOld
  dsimp only
  rw [hc]
  exact if_pos (decide_eq_true hold)

theorem dropOld_none {m : Mach} {core sec : Nat} (hl1 : ∀ c, m.l1Copy core sec = some c → m.clk < c.clk + 4096)
    (hreplica : ∀ c, m.replicaAt core sec = some c → m.clk < c.clk + 4096) : m.dropOld core sec = none := by
  have hyoung : ∀ o : Option Copy, (∀ c, o = some c → m.clk < c.clk + 4096) →
      ¬ o.any (fun c => decide (c.clk + 4096 ≤ m.clk)) = true := by
    intro o ho h
    obtain ⟨c, hc, hold⟩ := (Option.any_eq_true ..).1 h
    exact absurd (ho c hc) (Nat.not_lt.2 (of_decide_eq_true hold))
  unfold Mach.dropOld
  dsimp only
  rw [if_neg (hyoung _ hl1), if_neg (hyoung _ hreplica)]

/-- A seated warp after a rebase to an epoch. -/
def Warp.rebased (w : Warp) (epoch : Nat) : Warp :=
  { w with pts := 0, opPts := [], ptsEpoch := epoch % 2 ^ 16, futs := w.futs.map (fun f => (f.1, { f.2 with pts := 0 })),
           tiles := w.tiles.map (fun t => (t.1, { t.2 with pts := 0, rts := 0 })) }

theorem rebase_warp {m : Mach} {k : Nat} {w : Warp} (h : Map.find? m.warps k = some w) :
    Map.find? (rebase m).warps k = some (if (m.block w.block).seated = true then w.rebased (m.epoch + 1) else w) := by
  unfold rebase
  dsimp only
  rw [find?_mapv m.warps _ (fun e => by split <;> rfl) k w h]
  split <;> rfl

theorem rebase_op {m : Mach} {n : Nat} {o : Op} (h : Map.find? m.ops n = some o) :
    Map.find? (rebase m).ops n = some { o with pts := 0 } :=
  find?_mapv m.ops (fun e => (e.1, ({ e.2 with pts := 0 } : Op))) (fun _ => rfl) n o h

theorem rebase_event (s : State) : exec .rebase s = event s (if s.m.rebaseDue = true then some (rebase s.m) else none) := rfl

/-! Grants (06 R122). -/

section
variable {s : State} {core cls k age : Nat} (hf : Map.find? s.m.frozen core = none) (hk : minBy (·.2) (waiters s.m core cls) = some (k, age))
include hf hk

theorem growGrant_grants (h : ((s.m.warp k).grow.getD (0, 0)).2 ≤ freeUnits s.m core cls) :
    Does (.growGrant core cls) s (s.m.updWarp k (fun w => { w with granted := true })) := by
  refine ev_does rfl ?_
  dsimp only
  rw [hf, Option.isSome_none, if_neg Bool.false_ne_true, hk]
  exact if_pos h

/-- Where the free units do not suffice, the youngest of the younger holders is saved with its gang. -/
theorem growGrant_saves {bk : Nat} (h : freeUnits s.m core cls < ((s.m.warp k).grow.getD (0, 0)).2)
    (hpre : ∀ e ∈ (seatedOn s.m core).filter (fun e => decide ((s.m.blockOf k).age < e.2.age) && heldBy s.m e.1 cls != 0),
      e.2.pre = .none ∨ e.2.pre = .draining)
    (hbk : maxBy (fun bk => (s.m.block bk).age)
      (((seatedOn s.m core).filter (fun e => decide ((s.m.blockOf k).age < e.2.age) && heldBy s.m e.1 cls != 0)).map (·.1)) = some bk) :
    Does (.growGrant core cls) s ((withGang s.m bk).foldl (fun m bk =>
      if blockComplete m bk = true then m else startSave (m.count (m.block bk).ctx 7 1) bk) (s.m.count (s.m.block bk).ctx 60 1)) := by
  refine ev_does rfl ?_
  dsimp only
  rw [hf, Option.isSome_none, if_neg Bool.false_ne_true, hk]
  dsimp only
  rw [if_neg (Nat.not_le.2 h), if_neg, hbk]
  rw [List.any_eq_true]
  rintro ⟨e, he, hleaving⟩
  rcases hpre e he with hp | hp <;> rw [hp] at hleaving <;> cases hleaving

end

/-! The fault queue and replies (18 R293, R294). -/

section
variable {s : State} {c : Nat} {x : Ctx} (hx : Map.find? s.m.ctxs c = some x)
include hx

theorem faultQueueRoom_writes {bs : List Byte} {rest : List (List Byte)} {m : Mach} (hwait : x.waiting = bs :: rest)
    (hput : putRecord s.m c (stampRecord bs) = .written m) :
    Does (.faultQueueRoom c) s ((m.updCtx c (fun x => { x with waiting := rest })).raise x.fn 1) := by
  refine at_does rfl ?_
  rw [hx]
  dsimp only
  rw [hwait]
  dsimp only
  rw [hput]

theorem faultQueueRoom_delivers {k : Nat} {st : Stop} (hwait : x.waiting = []) (hq : queuedWarp s.m c = some (k, st)) (hst : x.st = 1)
    (hroom : (s.m.hdr c 0x2C 4 + 2 ^ 32 - s.m.hdr c 0x30 4) % 2 ^ 32 < s.m.hdr c 0x28 4) :
    Does (.faultQueueRoom c) s (deliverQueued s.m k st) := by
  refine at_does rfl ?_
  rw [hx]
  dsimp only
  rw [hwait, hq]
  exact if_neg (not_or.2 ⟨not_not.2 hst, Nat.not_le.2 hroom⟩)

end

/-- FREPLY of an enabled function, which notes what it names. -/
def freplyNoted (s : State) (fn c seq : Nat) : State :=
  s.updFn fn (fun f => { f with freply0 := BitVec.ofNat 32 c, freply1 := BitVec.ofNat 32 seq })

section
variable {s : State} {fn c seq : Nat} {reply : Word} {f : Fn} (hfn : Map.find? s.p.fns fn = some f) (hon : f.enabled = true)
include hfn hon

theorem fnOf_enabled : fnOf s fn = some f := by
  unfold fnOf
  rw [hfn, Option.bind_some, if_pos hon]

/-- What FREPLY does once it has noted what it names, by the record that it finds. -/
theorem freply_eq : exec (.freply fn c seq reply) s =
    .next (if ((ownCtx s.m fn c).bind (fun x => Map.find? x.services seq)).isSome = true then
      { freplyNoted s fn c seq with m := serviceReply (freplyNoted s fn c seq).p (freplyNoted s fn c seq).m c seq reply }
    else freplyNoted s fn c seq) := by
  refine at_next rfl ?_
  rw [fnOf_enabled hfn hon]
  show (match (ownCtx s.m fn c).bind (fun x => Map.find? x.services seq) with | none => _ | some _ => _) = _
  cases (ownCtx s.m fn c).bind (fun x => Map.find? x.services seq) <;> rfl

theorem freply_serves {x : Ctx} {sv : Service} (hx : ownCtx s.m fn c = some x) (hsv : Map.find? x.services seq = some sv) :
    exec (.freply fn c seq reply) s =
      .next { freplyNoted s fn c seq with m := serviceReply (freplyNoted s fn c seq).p (freplyNoted s fn c seq).m c seq reply } := by
  rw [freply_eq hfn hon, hx, Option.bind_some, hsv]
  rfl

theorem freply_ignored (h : ∀ x, ownCtx s.m fn c = some x → Map.find? x.services seq = none) :
    exec (.freply fn c seq reply) s = .next (freplyNoted s fn c seq) := by
  rw [freply_eq hfn hon, Option.bind_eq_none_iff.2 h]
  rfl

end

/-! The scan of waits (21 R343). -/

/-- What the scan notes of a warp: its progress counter, and for how many scans it has stood still. -/
def reading (s : State) (k : Nat) : Nat × Nat :=
  match Map.find? s.p.waits k with
  | some (g, n) => if g = (s.m.warp k).prog then ((s.m.warp k).prog, n + 1) else ((s.m.warp k).prog, 0)
  | none => ((s.m.warp k).prog, 0)

/-- The warps that the scan reads. -/
def scannedWarps (s : State) : List Nat := (s.m.ctxs.map (·.1)).flatMap (runningWarps s.m)

theorem reading_prog (s : State) (k : Nat) : (reading s k).1 = (s.m.warp k).prog := by
  unfold reading
  split
  · split <;> rfl
  · rfl

theorem reading_moved {s : State} {k : Nat}
    (h : ∀ x, Map.find? s.p.waits k = some x → x.1 ≠ (s.m.warp k).prog) : (reading s k).2 = 0 := by
  unfold reading
  split
  · next g n hg => rw [if_neg (h (g, n) hg)]
  · rfl

theorem waitForScan_next (s : State) : ∃ m, exec .waitForScan s =
    .next { s with m := m, p := { s.p with waits := (scannedWarps s).foldl (fun l k => Map.ins l k (reading s k)) [] } } :=
  ⟨_, rfl⟩

theorem mem_scannedWarps {s : State} {c k : Nat} (hc : (Map.find? s.m.ctxs c).isSome = true) (hk : k ∈ runningWarps s.m c) :
    k ∈ scannedWarps s := by
  obtain ⟨x, hx⟩ := Option.isSome_iff_exists.1 hc
  exact List.mem_flatMap.2 ⟨c, List.mem_map_of_mem (find?_mem hx), hk⟩

/-- Settles O42, clause by clause from what each event does. -/
theorem warpEvents : Obligations.WarpEvents := by
  refine ⟨?activation, ?turns, ?lease, ?rebase, ?hold, ?grant, ?room, ?reply, ?scan⟩
  case activation =>
    intro k w s hw act may on
    refine ⟨activation_notDue hw none, fun h hroom => ev_does (activation_free hw h) (if_pos hroom),
      fun h hfull => ev_not (activation_free hw h) (if_neg (Nat.not_lt.2 hfull)),
      fun v => ⟨fun h hroom => ?free, fun h hj => ?just, fun h hfull hv hj hpark => ?parks⟩⟩
    case free => exact ev_not (activation_replaces hw h v) (if_pos (.inl hroom))
    case just => exact ev_not (activation_replaces hw h v) (if_pos (.inr (by rw [mayPark_justActive _ hj]; rfl)))
    case parks =>
      refine ev_does (activation_replaces hw h v) (if_neg (not_or.2 ⟨Nat.not_lt.2 hfull, ?_⟩))
      rw [(mayPark_iff hv hj).2 hpark]
      decide
  case turns =>
    intro k w s hw
    refine ⟨fun h => ev_does (starvation_event hw) (if_pos h), fun h => ev_not (starvation_event hw) (if_neg h),
      fun hne hturn => ev_does (turnInstructionLimit_event hw) (if_neg (not_or.2 ⟨hne, Nat.not_lt.2 hturn⟩)),
      fun h => ev_not (turnInstructionLimit_event hw) (if_pos h),
      fun hrun hp hex => ev_does (turnStallLimit_event hw) (if_pos ⟨hrun, hex, hp⟩),
      fun h => ev_not (turnStallLimit_event hw) (if_neg ?_)⟩
    rintro ⟨hrun, ⟨p, hp, hpr⟩, hcur⟩
    rcases h with h | h | h
    · exact h hrun
    · rw [h] at hcur; cases hcur
    · rw [h p hp] at hpr; cases hpr
  case lease =>
    intro core sec s
    refine ⟨fun c hc hold => ⟨_, ev_does rfl (dropOld_l1 hc hold), rfl, rfl, l1Copy_drop .., fun _ _ _ hne h => l1Copy_drop_ne hne h⟩,
      fun hl1 hreplica => ev_not rfl (dropOld_none hl1 hreplica)⟩
  case rebase =>
    intro s
    refine ⟨fun h => ev_not (rebase_event s) (if_neg (by rw [h]; decide)),
      fun h => ⟨rebase s.m, ev_does (rebase_event s) (if_pos h), rfl, rfl, rfl, rfl, rfl, rfl,
        fun _ _ hw => rebase_warp hw, fun _ _ ho => rebase_op ho, rfl, rfl, rfl⟩⟩
  case hold => exact fun k w s hw hmay m hf => safePointHold_holds hw hmay hf
  case grant =>
    intro core cls k age s hf hk n younger
    exact ⟨growGrant_grants hf hk, fun bk h hpre hbk => growGrant_saves hf hk h hpre hbk⟩
  case room =>
    intro c x s hx
    exact ⟨fun bs rest m hwait hput => faultQueueRoom_writes hx hwait hput,
      fun k st hwait hq hst hroom => faultQueueRoom_delivers hx hwait hq hst hroom⟩
  case reply =>
    intro fn c seq reply f s hfn hon s1
    exact ⟨fun x sv hx hsv => freply_serves hfn hon hx hsv, freply_ignored hfn hon⟩
  case scan =>
    intro s
    obtain ⟨m, ht⟩ := waitForScan_next s
    refine ⟨_, ht, rfl, rfl, rfl, fun c hst k hk hc => ⟨(reading s k).2, ?_, reading_moved⟩⟩
    refine (find?_fold (scannedWarps s) (reading s) [] k (.inl (mem_scannedWarps hc hk))).trans ?_
    rw [← reading_prog]

end Sys2Proof.Machine
end

section
/-!
PROOFS. CAS (09 R184, R185; 05 R111).
-/

namespace Sys2Proof.Machine

theorem casReq_sc (x : FCAS) : (casReq x).sc = x.sc.toNat := (memReq_sc ..).1

theorem casReq_words (x : FCAS) : (casReq x).words = 1 := (memReq_sc ..).2

/-- What CAS leaves at a place that held `old`, with the operands of a lane in n registers each. -/
def casNew (w : Warp) (x : FCAS) (n lane old : Nat) : Nat :=
  if old = regValue w x.sc x.d.toNat lane n then regValue w x.sc (x.d.toNat + n) lane n else old

/-- Did a lane of a CAS find another value than the one it compares with? -/
def casFailed (w : Warp) (x : FCAS) (n : Nat) (olds : List (Nat × Nat)) : Bool :=
  olds.any (fun e => e.2 != regValue w x.sc x.d.toNat e.1 n)

theorem casFailed_iff {w : Warp} {x : FCAS} {n : Nat} {olds : List (Nat × Nat)} :
    casFailed w x n olds = true ↔ ∃ e ∈ olds, e.2 ≠ regValue w x.sc x.d.toNat e.1 n := by
  simp only [casFailed, List.any_eq_true, bne_iff_ne]

theorem casFailed_not_iff {w : Warp} {x : FCAS} {n : Nat} {olds : List (Nat × Nat)} :
    casFailed w x n olds = false ↔ ∀ e ∈ olds, e.2 = regValue w x.sc x.d.toNat e.1 n := by
  simp only [← Bool.not_eq_true, casFailed_iff, not_exists, not_and, ne_eq, not_not]

/-- The body of a CAS, by the order in which its lanes had their turns: it retires after m2, and its path is demoted where a lane failed. -/
theorem casBody_ok {x : FCAS} {n : Nat} {m : Mach} {k : Nat} {ls : List (Nat × Loc)} (hn : n = if x.z = 0 then 1 else 2)
    (hh : (Map.find? m.warps k).isSome = true) (hhold : (m.blockOf k).holding = false)
    (hp : memPlaces (casReq x) m k x.g.toNat x.o.toNat x.h.toNat .cas .atomic 2 (4 * n) = .ok ls)
    (hls : ∀ e ∈ ls, isExternal e.2.key = false ∧ m.poisonAt e.2.key (4 * n) = none) :
    ∃ m2 ls' q', q'.words = 1 ∧ ls'.Perm ls ∧ Wrote k m m2 ∧
      (let r := inTurn (4 * n) (casNew (m.warp k) x n) (Mem.read m.mem) ls'
       casBody x m [k] = .ok (retire q' (if casFailed (m.warp k) x n r.2 = true then demote m2 k else m2) [k]) ∧
         Mem.read m2.mem = r.1 ∧ (m2.warp k).v = (olded x.sc.toNat x.d.toNat n (m.warp k) r.2).v ∧
         (m2.warp k).s = (olded x.sc.toNat x.d.toNat n (m.warp k) r.2).s) := by
  have hsize : casSize x = 4 * n := by rw [hn]; unfold casSize; split <;> rfl
  have hperm := orderLanes_perm m ls (memPlaces_nodup hp)
  have hoperands := cas_operands (m.warp k) x (casReq x) (casReq_sc x) n hn
  obtain ⟨m1, swapped, hall, hwrote, hmem, hv, hs⟩ := casAll_ok (casReq x) k n x (m.warp k) hsize _ _ (fun lane => (hoperands lane).1)
    (fun lane => (hoperands lane).2) (orderLanes m ls) m false false hh hhold (fun e he => hls e (hperm.mem_iff.1 he))
  have hused := hwrote.trans (usedOrder_acc1 m1 k)
  obtain ⟨hsamp, smem, -, sv, ss⟩ := sampleMem_acc1 (usedOrder m1) (casReq x) k 5 (4 * n) ls (hused.here hh)
  refine ⟨_, orderLanes m ls, { casReq x with moves := swapped }, casReq_words x, hperm, hused.trans hsamp, ?_, ?_, ?_, ?_⟩
  · unfold casBody
    simp only [List.headD_cons, hsize, hp, bind, Except.bind, hall, Bool.false_or]
    rfl
  · rw [smem]; exact hmem
  · rw [sv, ← casReq_sc x]; exact hv
  · rw [ss, ← casReq_sc x]; exact hs

/-- Settles O18: the order of the lanes is the one that `orderLanes` chose, and the end of the instruction is that of `cas_end`. -/
theorem compareAndSwap : Obligations.CompareAndSwap := by
  intro x n s m ms ls hn hg hhold hp hls
  have hsc : (casReq x).sc < 2 := by rw [casReq_sc]; exact x.sc.isLt
  obtain ⟨rfl, hA, hh⟩ := goes_values hsc hg
  obtain ⟨-, amem, apoison, ablocks, -, -⟩ := admitted_acc1 hA
  obtain ⟨hblock, -⟩ := admitted_copies hA
  obtain ⟨m2, ls', q', hwords, hperm, hwrote, hbody, hmem, hv, hs⟩ := casBody_ok hn hh (by rw [hblock]; exact hhold) hp
    (fun e he => ⟨(hls e he).1, by unfold Mach.poisonAt; rw [apoison]; exact (hls e he).2⟩)
  obtain ⟨t, ht, hacc, hrest, hmach, tv, ts, tp, tf, tgo, tdem, ttrap⟩ := cas_end hsc hg q' hwords hbody hwrote.toAcc1
  rw [hA.keeps (fun w => casNew w x n) fun _ _ _ => rfl, amem] at hmem hv hs tgo tdem
  rw [hA.keeps (fun w => casFailed w x n) fun _ _ _ => rfl] at tgo tdem
  obtain ⟨hnodup, hlt, hone⟩ := olds_of_places hp hperm (4 * n) (casNew s.me x n) (Mem.read s.m.mem)
  refine ⟨t, ls', ht, hacc, hrest, ?_, tp, tf, hperm, fun a => ?_, ?_, fun hall => ?_, fun hex => ?_⟩
  · rw [hmach]; exact hwrote.blocks.trans ablocks
  · rw [hmach]; exact congrFun hmem a
  · exact returned_of x.sc x.d.toNat n _ hnodup (fun _ => hlt) (fun h1 => hone (by rw [casReq_sc, h1]; decide))
      (hA.keeps Warp.v fun _ _ _ => rfl) (hA.keeps Warp.s fun _ _ _ => rfl) (hA.keeps Warp.trap fun _ _ _ => rfl) ttrap
      (tv.trans hv) (ts.trans hs)
  · exact tgo (casFailed_not_iff.2 hall)
  · exact tdem (casFailed_iff.2 hex)

end Sys2Proof.Machine
end

section
/-!
PROOFS. JPT, JOIN and RET (05 R101, R102, R109).
-/

namespace Sys2Proof.Machine

/-! JPT (R101). -/

/-- A join record is pushed and the current path, gone on by one word, hangs from it. -/
def pushJoin (off : BitVec 20) (w : Warp) : Warp :=
  (pushRec w false (jTarget w off) w.path.mask).2.setPath { w.path.advance 1 with inner := some w.nextRec }

theorem jptBody_eq (x : FJP) (m : Mach) (k : Nat) : jptBody x m [k] = placeWarp (jptReq x) m k 1 (pushJoin x.off) := rfl

theorem pushJoin_eq (off : BitVec 20) {w : Warp} (hne : w.paths ≠ []) : pushJoin off w =
    { w with
      recs := Map.ins w.recs w.nextRec
        { call := false, addr := BitVec.ofInt 32 (w.path.pc.toNat + 4 * off.toInt), entry := w.path.mask, arrival := 0,
          parent := w.path.inner, spilled := false }
      nextRec := w.nextRec + 1
      paths := { w.path.advance 1 with inner := some w.nextRec } :: w.paths.tail } := by
  obtain ⟨p, r, hp⟩ := List.exists_cons_of_ne_nil hne
  unfold pushJoin Warp.setPath pushRec jTarget
  rw [bv_int]
  simp only [hp]
  rfl

/-- Where the table is resident and what `make` adds has room, it is placed as it is. -/
theorem placeWarp_room {q : Req} {m : Mach} {k pushed : Nat} {make : Warp → Warp} {w : Warp} (hw : retireWarp q true (m.warp k) = w)
    (hpaths : ∀ p ∈ w.paths, p.spilled = false) (hrecs : ∀ e ∈ w.recs, e.2.spilled = false) (hfew : w.recs.length ≤ 8 - pushed)
    (mpaths : ∀ p ∈ (make w).paths, p.spilled = false) (mrecs : ∀ e ∈ (make w).recs, e.2.spilled = false)
    (mlen : (make w).paths.length ≤ 16) (mtrap : (make w).trap = w.trap) :
    placeWarp q m k pushed make = .ok (m.setWarp k (make w).limitTurn) := by
  unfold placeWarp
  rw [hw, residency_room (make := fun w => (make w).limitTurn) hpaths hrecs hfew (limitTurn_spilled mpaths) ?_ ?_ ?_]
  · rfl
  · rw [limitTurn_eq]; exact mrecs
  · rw [limitTurn_length]; exact mlen
  · rw [limitTurn_eq]; exact mtrap

/-- In a table with room JPT places the warp as `pushJoin` makes it. -/
theorem jptBody_ok {x : FJP} {m : Mach} {k : Nat} (hne : (m.warp k).paths ≠ []) (hroom : roomFor (m.warp k) 0) :
    jptBody x m [k] = .ok (m.setWarp k (pushJoin x.off (retireWarp (jptReq x) true (m.warp k))).limitTurn) := by
  obtain ⟨hpaths, hrecs, hlen, hfew⟩ := hroom
  obtain ⟨kpaths, krecs, -⟩ := retire_keeps (jptReq x) (m.warp k)
  rw [jptBody_eq]
  generalize hw : retireWarp (jptReq x) true (m.warp k) = w at kpaths krecs
  rw [← kpaths] at hne hpaths hlen
  rw [← krecs] at hrecs hfew
  have hmade := pushJoin_eq x.off hne
  refine placeWarp_room hw hpaths hrecs (by omega) ?_ ?_ ?_ ?_ <;> rw [hmade]
  · intro p hp
    rcases List.mem_cons.1 hp with rfl | hp
    · exact head_unspilled hpaths
    · exact hpaths p (List.mem_of_mem_tail hp)
  · intro e he
    rcases Map.mem_ins he with rfl | he
    · rfl
    · exact hrecs e he
  · have hpos := List.length_pos_iff.2 hne
    simp only [List.length_cons, List.length_tail]
    omega

/-- What a retired JPT leaves of a warp w: its current path, gone on by one word, hangs from a new join record. -/
structure JoinPushed (off : BitVec 20) (w w' : Warp) : Prop where
  rest : w'.placeRest = w.placeRest
  v : w'.v = w.v
  s : w'.s = w.s
  p : w'.p = w.p
  fflags : w'.fflags = w.fflags
  recs : w'.recs = Map.ins w.recs w.nextRec
    { call := false, addr := BitVec.ofInt 32 (w.path.pc.toNat + 4 * off.toInt), entry := w.path.mask, arrival := 0,
      parent := w.path.inner, spilled := false }
  among : ∃ p ∈ w'.paths, p.pc = w.path.pc + 4 ∧ p.mask = w.path.mask ∧ p.inner = some w.nextRec
  current : w.path.turn + 1 < 4096 → w'.path.pc = w.path.pc + 4

theorem joinPushed_retired (q : Req) (off : BitVec 20) {w : Warp} (hne : w.paths ≠ []) :
    JoinPushed off w (pushJoin off (retireWarp q true w)).limitTurn := by
  obtain ⟨kpaths, krecs, krest, kv, ks, kp, kf, -, -, -, knext⟩ := retire_keeps q w
  have hmade := pushJoin_eq off (w := retireWarp q true w) (by rw [kpaths]; exact hne)
  rw [retireWarp_path, krecs, knext, kpaths] at hmade
  generalize retireWarp q true w = w0 at *
  generalize pushJoin off w0 = w1 at hmade
  refine ⟨?rest, ?v, ?s, ?p, ?fflags, ?recs, ?among, fun hturn => ?current⟩
  case among =>
    obtain ⟨p, hp, heq⟩ := mem_limitTurn (w := w1) (by rw [hmade]; exact List.mem_cons_self)
    exact ⟨p, hp, by rw [heq]; rfl, by rw [heq]; rfl, by rw [heq]⟩
  case current =>
    rw [limitTurn_low (by rw [hmade]; exact hturn), hmade]
    rfl
  all_goals rw [limitTurn_eq, hmade]
  exacts [krest, kv, ks, kp, kf]

/-- A warp to which one instruction has given another table of paths and records. -/
theorem steered_setWarp {q : Req} {s : State} {m : Mach} {ms : List Nat} (hq : q.sc < 2) (hg : Goes q s m ms) {w : Warp}
    (hrest : w.placeRest = (m.warp s.cur).placeRest) (hv : w.v = (m.warp s.cur).v) (hs : w.s = (m.warp s.cur).s)
    (hp : w.p = (m.warp s.cur).p) (hf : w.fflags = (m.warp s.cur).fflags) : Steered s { s with m := m.setWarp s.cur w } := by
  refine steered_of hq hg rfl (fun j hj => Map.find?_ins_ne _ _ hj) ?_ ?_ ?_ ?_ ?_ <;> rw [Mach.warp_setWarp_self]
  exacts [hrest, hv, hs, hp, hf]

/-- The warp that the checks leave of one whose table is resident has a table with as much room. -/
theorem goes_room {q : Req} {s : State} {m : Mach} {ms : List Nat} {n : Nat} (hq : q.sc < 2) (hg : Goes q s m ms) (hroom : roomFor s.me n) :
    roomFor (m.warp s.cur) n := by
  obtain ⟨hpaths, hrecs, hlen, hfew⟩ := hroom
  obtain ⟨w, hw, hme, -, -, -, -, -, -, -, hshort, -, -, hspill⟩ := goes_resident hq hg (head_unspilled hpaths)
  have hwrecs : w.recs = s.me.recs := by rw [hme]
  rw [hw]
  exact ⟨hspill hpaths, by rw [hwrecs]; exact hrecs, by omega, by rw [hwrecs]; exact hfew⟩

/-- What JPT comes to, at either scope. -/
theorem jpt_pushes {x : FJP} {s : State} {m : Mach} {ms : List Nat} (hg : Goes (jptReq x) s m ms) (hroom : roomFor s.me 0) :
    ∃ t, exec (.jpt x) s = .next t ∧ Steered s t ∧ GoesOn s.me t.me 1 ∧
      (∃ p ∈ t.me.paths, p.pc = s.me.path.pc + 4 ∧ p.mask = lanesAt s.me x.sc.toNat ∧ p.inner = some s.me.nextRec) ∧
      t.me.recs = Map.ins s.me.recs s.me.nextRec
        { call := false, addr := BitVec.ofInt 32 (s.me.path.pc.toNat + 4 * x.off.toInt), entry := lanesAt s.me x.sc.toNat,
          arrival := 0, parent := s.me.path.inner, spilled := false } := by
  have hlow : (jptReq x).sc < 2 := x.sc.isLt
  obtain ⟨rfl, hA, -⟩ := goes_values hlow hg
  obtain ⟨w, rfl, hme, hmask, hpc, hinner, -, -, -, hne, -⟩ := goes_resident hlow hg (head_unspilled hroom.1)
  have hrecs : (m.warp s.cur).recs = s.me.recs := by rw [hme]
  have hnext : (m.warp s.cur).nextRec = s.me.nextRec := by rw [hme]
  have hbody := jptBody_ok (x := x) hne (goes_room hlow hg hroom)
  have hJ := joinPushed_retired (jptReq x) x.off hne
  generalize (pushJoin x.off (retireWarp (jptReq x) true (m.warp s.cur))).limitTurn = w' at hbody hJ
  have hat : ({ s with m := m.setWarp s.cur w' } : State).me = w' := Mach.warp_setWarp_self ..
  obtain ⟨p, hp, ppc, pmask, pinner⟩ := hJ.among
  refine ⟨_, issueTo_mach hg hbody, steered_setWarp hlow hg hJ.rest hJ.v hJ.s hJ.p hJ.fflags, ⟨?_, fun hturn => ?_⟩, ?_, ?_⟩ <;> rw [hat]
  · exact ⟨p, hp, by rw [ppc, hpc]; rfl⟩
  · rw [hJ.current (by rw [hA.turn]; exact hturn), hpc]; rfl
  · exact ⟨p, hp, by rw [ppc, hpc], pmask.trans hmask, by rw [pinner, hnext]⟩
  · rw [hJ.recs, hrecs, hnext, hpc, hinner, hmask]; rfl

/-! JOIN and RET (R102, R109). -/

theorem innerRec_eq {w : Warp} {k : Nat} {r : Rec} (hk : w.path.inner = some k) (hr : Map.find? w.recs k = some r) :
    w.innerRec = some (k, r) := by
  unfold Warp.innerRec
  rw [hk, Option.bind_some, hr]
  rfl

/-- An arrival at a resident record of the right kind parks the path there, and is no mismatch where a path can run on. -/
theorem arrival_ok {q : Req} {st : PathState} {good : Warp → Rec → Bool} {m : Mach} {j k : Nat} {r : Rec} (hk : (m.warp j).path.inner = some k)
    (hr : Map.find? (m.warp j).recs k = some r) (hgood : good (m.warp j) r = true) (hroom : roomFor (m.warp j) 0)
    (hrun : ∃ p ∈ (arriveAt k st (retireWarp q true (m.warp j))).paths, p.st = .runnable) :
    arrival q st good m [j] = .ok (m.setWarp j (arriveAt k st (retireWarp q true (m.warp j)))) := by
  obtain ⟨hpaths, hrecs, hlen, hfew⟩ := hroom
  obtain ⟨p, hp, hst⟩ := hrun
  have hany : (arriveAt k st (retireWarp q true (m.warp j))).paths.any Path.runnable = true :=
    List.any_eq_true.2 ⟨p, hp, by rw [Path.runnable, hst]; rfl⟩
  unfold arrival
  simp only [List.headD_cons, innerRec_eq hk hr, hgood, bind, Except.bind,
    residency_room (make := id) (pushed := 0) hpaths hrecs (by omega) hpaths hrecs hlen rfl, id_eq, hany]
  rfl

/-- What an arrival of the current path of w at its record k, which is r, leaves of the warp. -/
structure ArrivedAt (k : Nat) (r : Rec) (st : PathState) (w w' : Warp) : Prop where
  rest : w'.placeRest = w.placeRest
  v : w'.v = w.v
  s : w'.s = w.s
  p : w'.p = w.p
  fflags : w'.fflags = w.fflags
  completes : (r.entry &&& w.live) &&& ~~~ (r.arrival ||| w.path.mask) = 0 → Map.find? w'.recs k = none ∧
    ∃ p ∈ w'.paths, p.mask = (r.arrival ||| w.path.mask) &&& w.live ∧ p.st = .runnable ∧
      p.pc = (if r.call = true then r.addr else w.path.pc + 4) ∧ p.inner = r.parent ∧ p.clause = none ∧ p.dem = 0
  waits : (r.entry &&& w.live) &&& ~~~ (r.arrival ||| w.path.mask) ≠ 0 → (∃ p ∈ w.paths.tail, p.st = .runnable) →
    Map.find? w'.recs k = some { r with arrival := r.arrival ||| w.path.mask } ∧
      (∃ p ∈ w'.paths, p.mask = w.path.mask ∧ p.pc = w.path.pc ∧ p.st = st) ∧ w'.path.st = .runnable

theorem arriveAt_arrivedAt (q : Req) {k : Nat} {r : Rec} {st : PathState} {w : Warp} (hst : st = .atJoin ∨ st = .atRet) (hne : w.paths ≠ [])
    (hk : w.path.inner = some k) (hr : Map.find? w.recs k = some r) (hpark : ∀ p ∈ w.paths.tail, p.park < w.parks) :
    ArrivedAt k r st w (arriveAt k st (retireWarp q true w)) := by
  obtain ⟨kpaths, krecs, krest, kv, ks, kp, kf, kparks, klive, -, -⟩ := retire_keeps q w
  obtain ⟨p0, r0, hp⟩ := List.exists_cons_of_ne_nil hne
  have hpath : w.path = p0 := by unfold Warp.path; rw [hp]; rfl
  have htail : w.paths.tail = r0 := by rw [hp]; rfl
  obtain ⟨heq, hcompletes, hwaits⟩ := arriveAt_spec (retireWarp q true w) k r st hst p0 r0 (kpaths.trans hp) (hpath ▸ hk)
    (by rw [krecs]; exact hr) (by rw [kparks, ← htail]; exact hpark)
  rw [klive, ← hpath] at hcompletes hwaits
  rw [← htail] at hwaits
  refine ⟨?_, ?_, ?_, ?_, ?_, hcompletes, hwaits⟩ <;> rw [heq]
  exacts [krest, kv, ks, kp, kf]

theorem path_mem {w : Warp} (hne : w.paths ≠ []) : w.path ∈ w.paths := by
  obtain ⟨p, r, hp⟩ := List.exists_cons_of_ne_nil hne
  unfold Warp.path
  rw [hp]
  exact List.mem_cons_self

/-- JOIN or RET at its record: where a path can run on, the warp is left as `ArrivedAt` says. -/
theorem arrive_goes {i : Instr} {k : Nat} {r : Rec} {q : Req} {s : State} {m : Mach} {ms : List Nat} (hi : i = .join ∨ ∃ x, i = .ret x)
    (hq : reqOf i = some q) (hg : Goes q s m ms) (hk : s.me.path.inner = some k) (hr : Map.find? s.me.recs k = some r)
    (harr : arrives i s.me r) (hroom : roomFor s.me 0) (hpark : ∀ p ∈ s.me.paths.tail, p.park < s.me.parks) :
    ∃ w', ArrivedAt k r (if i = .join then .atJoin else .atRet) (m.warp s.cur) w' ∧
      ((∃ p ∈ w'.paths, p.st = .runnable) → ∃ t, exec i s = .next t ∧ Steered s t ∧ t.me = w') := by
  obtain ⟨hlow, st, good, hexec, hst, rfl, hgood, hclause⟩ := arrive_exec hi hq
  obtain ⟨rfl, -, -⟩ := goes_values hlow hg
  obtain ⟨w, rfl, hme, -, -, hinner, hcl, -, -, hne, -, htail, -⟩ := goes_resident hlow hg (head_unspilled hroom.1)
  have hrecs : (m.warp s.cur).recs = s.me.recs := by rw [hme]
  have hparks : (m.warp s.cur).parks = s.me.parks := by rw [hme]
  have hA := arriveAt_arrivedAt q hst hne (hinner.trans hk) (by rw [hrecs]; exact hr) (by rw [hparks]; exact fun p hp => hpark p (htail p hp))
  refine ⟨_, hA, fun hrun => ?_⟩
  have hbody := arrival_ok (good := good) (hinner.trans hk) (by rw [hrecs]; exact hr)
    (by rw [hclause _ _ _ hcl]; exact hgood _ _ harr) (goes_room hlow hg hroom) hrun
  exact ⟨_, (congrFun hexec s).trans (issueTo_mach hg hbody), steered_setWarp hlow hg hA.rest hA.v hA.s hA.p hA.fflags,
    Mach.warp_setWarp_self ..⟩

/-- Settles O14: JPT by what `pushJoin` makes of the current path, JOIN and RET by whether the record lacks a lane. -/
theorem joinRecords : Obligations.JoinRecords := by
  refine ⟨fun x s m ms hg hroom => jpt_pushes hg hroom, fun i k r q s m ms hi hq hg hk hr harr hroom hpark => ?_⟩
  obtain ⟨hlow, -⟩ := arrive_exec hi hq
  obtain ⟨w, hw, hme, hmask, hpc, -, -, -, -, -, -, -, hsame, -⟩ := goes_resident hlow hg (head_unspilled hroom.1)
  have hlive : w.live = s.me.live := by rw [hme]
  obtain ⟨w', hA, hgo⟩ := arrive_goes hi hq hg hk hr harr hroom hpark
  have hcompletes := hA.completes
  have hwaits := hA.waits
  rw [hw, hmask, hlive, hpc] at hcompletes hwaits
  refine ⟨fun hall => ?completed, fun hlacks hrun h0 => ?waiting⟩
  case completed =>
    obtain ⟨hgone, p, hp, pmask, pst, hformed⟩ := hcompletes hall
    obtain ⟨t, ht, hsteered, rfl⟩ := hgo ⟨p, hp, pst⟩
    exact ⟨t, ht, hsteered, hgone, p, hp, pmask, pst, hformed⟩
  case waiting =>
    have hlanes : lanesAt s.me q.sc = s.me.path.mask := if_pos h0
    obtain ⟨hrec, ⟨p, hp, hparked⟩, hcur⟩ := hwaits hlacks (by rw [hsame h0]; exact hrun)
    obtain ⟨t, ht, hsteered, rfl⟩ := hgo ⟨_, path_mem (List.ne_nil_of_mem hp), hcur⟩
    rw [hlanes] at hrec hparked
    exact ⟨t, ht, hsteered, hrec, ⟨p, hp, hparked⟩, hcur⟩

end Sys2Proof.Machine
end

section
/-!
PROOFS. Registers: the pools that GROW and SHRINK draw on (06 R113, R121 to R123), and the first line that an instruction misses in
the register cache (06 R115 to R118, R124; 21 R330).
-/

namespace Sys2Proof.Machine

/-! GROW (R113, R121, R122). -/

/-- The units that warp k asks for pass the limit of their class or can never be had: with those that its block and the older blocks
of its core hold they exceed the pool. -/
abbrev growTooMuch (m : Mach) (k cls n : Nat) : Prop :=
  (m.warp k).have cls + n > (if cls = 0 then 48 else if cls = 1 then 16 else 1024) ∨
    n + heldBy m (m.warp k).block cls + (((seatedOn m (m.blockOf k).core).filter (fun e => decide (e.2.age < (m.blockOf k).age))).map
      (fun e => heldBy m e.1 cls)).sum > capacity m (m.blockOf k).core cls

/-- No older waiter stands before warp k, and the units are free. -/
abbrev growTurn (m : Mach) (k cls n : Nat) : Prop :=
  (∀ e ∈ waiters m (m.blockOf k).core cls, e.1 = k ∨ 32 * (m.blockOf k).age + (m.warp k).idx < e.2) ∧
    n ≤ freeUnits m (m.blockOf k).core cls

/-- A GROW of warp k retires with a status from the machine m', counted as granted or refused (R124). -/
def growDone (x : FABC) (m : Mach) (k : Nat) (m' : Mach) (st : Nat) : Except Stop Mach :=
  .ok (retire (growReq x) ((m'.count (m.blockOf k).ctx (if st = 0 then 4 else 5) 1).answer k x.a.toNat st) [k])

theorem growBody_eq (x : FABC) (m : Mach) (k : Nat) : growBody x m [k] =
    let cls := x.b.toNat
    let n := poolUnits cls x.c.toNat
    let given := giveUnits (m.updWarp k Warp.noGrow) k cls n
    if (m.warp k).trap.isSome then growDone x m k m 8
    else if (m.warp k).granted then growDone x m k given 0
    else if (m.warp k).grow = none ∧ growTooMuch m k cls n then growDone x m k m 1
    else if growTurn m k cls n then growDone x m k given 0
    else .ok (m.updWarp k (fun w => { w with grow := some (cls, n), wait := some .grow })) := by
  have hturn : ((waiters m (m.blockOf k).core x.b.toNat).all fun e => e.1 == k || decide (32 * (m.blockOf k).age + (m.warp k).idx < e.2)) = true ↔
      ∀ e ∈ waiters m (m.blockOf k).core x.b.toNat, e.1 = k ∨ 32 * (m.blockOf k).age + (m.warp k).idx < e.2 := by
    simp only [List.all_eq_true, Bool.or_eq_true, beq_iff_eq, decide_eq_true_eq]
  have hb : m.blockOf k = m.block (m.warp k).block := rfl
  unfold growBody growDone
  simp only [List.headD_cons, granule_eq, classLimit_eq, ← hb, hturn, Option.isNone_iff_eq_none]

section
variable {x : FABC} {s : State} {m m' : Mach} {ms : List Nat} {st : Nat}

theorem grow_ends (hg : Goes (growReq x) s m ms) (hb : growBody x m [s.cur] = growDone x m s.cur m' st) :
    ∃ t, exec (.grow x) s = .next t ∧
      Ends s t 1 [s.cur] ((m'.count (m.blockOf s.cur).ctx (if st = 0 then 4 else 5) 1).answer s.cur x.a.toNat st) :=
  issueTo_ends1 (q := growReq x) Nat.one_lt_two hg hb

theorem grow_queues (hg : Goes (growReq x) s m ms) (hb : growBody x m [s.cur] = .ok m') : exec (.grow x) s = .next { s with m := m' } := by
  obtain rfl := goes_alone Nat.one_lt_two hg
  exact issueTo_mach hg hb

end

/-! SHRINK (R119, R123). -/

theorem shrinkBody_eq (x : FABC) (m : Mach) (k : Nat) : shrinkBody x m [k] =
    let cls := x.b.toNat
    let n := poolUnits cls x.c.toNat
    if (m.warp k).trap.isSome then .ok (m.answer k x.a.toNat 8)
    else if (m.warp k).have cls < n + (if cls = 0 then 8 else 0) then .ok (m.answer k x.a.toNat 1)
    else if inFlight m k ≠ 0 ∨ tilesBusy (m.warp k) then .error (.wait .inFlight)
    else .ok ((takeUnits m k cls n).answer k x.a.toNat 0) := by
  unfold shrinkBody
  simp only [List.headD_cons, granule_eq]

section
variable {x : FABC} {s : State} {m m' : Mach} {ms : List Nat}

theorem shrink_ends (hg : Goes (shrinkReq x) s m ms) (hb : shrinkBody x m [s.cur] = .ok m') :
    ∃ t, exec (.shrink x) s = .next t ∧ Ends s t 1 [s.cur] m' :=
  issue_ends1 (q := shrinkReq x) Nat.one_lt_two hg hb

theorem shrink_waits (hg : Goes (shrinkReq x) s m ms) (hb : shrinkBody x m [s.cur] = .error (.wait .inFlight)) :
    exec (.shrink x) s = .next { s with m := m.updWarp s.cur (fun w => { w with wait := some .inFlight }) } := by
  obtain rfl := goes_alone Nat.one_lt_two hg
  exact issue_stops (q := shrinkReq x) hg hb

end

/-- Settles O36: each case is the branch of the body that its conditions select. -/
theorem pools : Obligations.Pools := by
  refine ⟨fun x s m ms hg => ?grow, fun x s m ms hg => ?shrink⟩
  case grow =>
    intro w b cls n done most never mine m0 given asks
    have hbody := growBody_eq x m s.cur
    have hends : ∀ m' st, growBody x m [s.cur] = growDone x m s.cur m' st → done m' st := fun _ _ => grow_ends hg
    refine ⟨fun htrap => hends m 8 ?denied, fun htrap hgranted => hends given 0 ?granted, fun htrap hgranted hasks => hends m 1 ?refused,
      fun htrap hgranted hasks hmine => hends given 0 ?taken, fun htrap hgranted hasks hmine => grow_queues hg ?waits⟩
    case denied => exact hbody.trans (if_pos htrap)
    all_goals refine hbody.trans ((if_neg (Bool.eq_false_iff.1 htrap)).trans ?_)
    case granted => exact if_pos hgranted
    all_goals refine (if_neg (Bool.eq_false_iff.1 hgranted)).trans ?_
    case refused => exact if_pos hasks
    all_goals refine (if_neg hasks).trans ?_
    case taken => exact if_pos hmine
    case waits => exact if_neg hmine
  case shrink =>
    intro w cls n done least
    have hbody := shrinkBody_eq x m s.cur
    refine ⟨fun htrap => shrink_ends hg ?denied, fun htrap hfew => shrink_ends hg ?refused,
      fun htrap hmany hidle htiles => shrink_ends hg ?returned, fun htrap hmany hbusy => shrink_waits hg ?waits⟩
    case denied => exact hbody.trans (if_pos htrap)
    all_goals refine hbody.trans ((if_neg (Bool.eq_false_iff.1 htrap)).trans ?_)
    case refused => exact if_pos hfew
    all_goals refine (if_neg (Nat.not_lt.2 hmany)).trans ?_
    case returned => exact if_neg fun h => h.elim (absurd hidle) (Bool.eq_false_iff.1 htiles)
    case waits => exact if_pos hbusy

/-! The register cache: the first miss (R115 to R118, R124, R330). -/

theorem LetThrough.low {q : Req} {s : State} (h : LetThrough q s) : q.sc < 2 :=
  h.scope.elim (fun h0 => h0 ▸ Nat.two_pos) (fun h1 => h1.1 ▸ Nat.one_lt_two)

/-- A line that an instruction accesses as an operand is one that its checks looked at for poison. -/
theorem operand_unmarked {q : Req} {m : Mach} {k : Nat} {u : LineUse} (hq : q.sc < 2) (hbad : badLine (m.warp k) q.vecs q.srcs = none)
    (hu : u ∈ accessed q m [k]) (ho : u.operand = true) : Map.find? (m.warp k).bad u.l = none := by
  refine List.findSome?_eq_none_iff.1 hbad u.l ?_
  rw [accessed_low hq] at hu
  simp only [Mach.scalarUses, vectorUses, List.mem_append, List.mem_map] at hu ⊢
  rcases hu with (⟨f, hf, rfl⟩ | ⟨f, -, rfl⟩) | (⟨r, hr, rfl⟩ | ⟨f, -, rfl⟩)
  · exact .inr ⟨f, hf, rfl⟩
  · cases ho
  · exact .inl hr
  · cases ho

/-- Instructions that access their lines alike from two machines, and are let through in both, come to the same. -/
theorem issueWith_touch {q : Req} {m m' : Mach} {k : Nat} {ms : List Nat} (h : admission q m k = .go m ms)
    (h' : admission q m' k = .go m' ms) (ht : touch q m ms = touch q m' ms) (next : Mach → List Nat → Mach)
    (body : Mach → List Nat → Except Stop Mach) : issueWith q next body m k = issueWith q next body m' k := by
  simp only [issueWith, h, h', ht]

theorem FirstMiss.accessed {q : Req} {s : State} {u : LineUse} (h : FirstMiss q s u) : u ∈ accessed q s.m [s.cur] := by
  obtain ⟨before, after, hu, -, -⟩ := h
  rw [hu]
  exact List.mem_append_right _ List.mem_cons_self

theorem FirstMiss.absent {q : Req} {s : State} {u : LineUse} (h : FirstMiss q s u) : u.l ∉ s.me.lines := by
  obtain ⟨before, after, -, habsent, -⟩ := h
  exact habsent

section
variable {q : Req} {s : State} {u : LineUse} (hlet : LetThrough q s) (hmiss : FirstMiss q s u)
include hlet hmiss

/-- Where the missed line cannot be filled, that ends the instruction. -/
theorem exec_unfilled {i : Instr} {st : Stop} (hq : reqOf i = some q) (ht : touchLine q.sc s.m u = .error st) :
    exec i s = .next { s with m := deliver s.m s.cur st } := by
  obtain ⟨next, body, hexec⟩ := exec_issued hq
  have htouch : touch q s.m [s.cur] = (s.m, some st) := by
    obtain ⟨before, after, hu, -, hb⟩ := hmiss
    have hb' : ∀ x ∈ before, x.l ∈ (s.m.warp x.k).lines := fun x hx => by
      rw [accessed_warp hlet.low (hu ▸ List.mem_append_left _ hx)]
      exact hb x hx
    rw [touch, touchAll_miss hu hb', touchAll, ht]
  rw [hexec, issuedAs, if_pos hlet.may, issueWith_miss hlet.admitted htouch]

/-- Where it can be filled, the instruction is the one from the machine after the fill. -/
theorem exec_filled {i : Instr} {w : Warp} {bs : List Byte} (hq : reqOf i = some q) (hf : Filled s.me w u.l bs)
    (ht : touchLine q.sc s.m u = .ok (fillMach s.m s.cur w)) : exec i s = exec i { s with m := fillMach s.m s.cur w } := by
  obtain ⟨next, body, hexec⟩ := exec_issued hq
  have htouch : touch q s.m [s.cur] = touch q (fillMach s.m s.cur w) [s.cur] := by
    obtain ⟨before, after, hu, -, hb⟩ := hmiss
    exact fillMach_touch hlet.low hf hu hb ht
  rw [hexec, hexec, issuedAs, issuedAs, if_pos hlet.may, if_pos (fillMach_can hf hlet.may),
    issueWith_touch hlet.admitted (fillMach_admission hq hlet hf) htouch]

variable (hroom : usedLines s.m (s.m.blockOf s.cur).core < 6144)
include hroom

/-- The missed line is absent, and there is room to fill it at once (R115). -/
theorem fillLine_firstMiss : (s.m.warp u.k).lines.contains u.l = false ∧ fillLine s.m u.k u.l = lineFill s.m s.cur u.l := by
  rw [accessed_warp hlet.low hmiss.accessed, fillLine_room hroom]
  exact ⟨Bool.eq_false_iff.2 fun h => hmiss.absent (List.contains_iff_mem.1 h), rfl⟩

theorem touchLine_unfilled {st : Stop} (hfill : lineFill s.m s.cur u.l = .error st) : touchLine q.sc s.m u = .error st := by
  obtain ⟨habsent, hsame⟩ := fillLine_firstMiss hlet hmiss hroom
  rw [touchLine, if_neg (Bool.eq_false_iff.1 habsent), hsame, hfill]

theorem touchLine_filled {m : Mach} (hfill : lineFill s.m s.cur u.l = .ok m)
    (hgood : u.operand = true → Map.find? (m.warp s.cur).bad u.l = none) : touchLine q.sc s.m u = .ok m := by
  obtain ⟨habsent, hsame⟩ := fillLine_firstMiss hlet hmiss hroom
  have hmark : (if u.operand = true then Map.find? (m.warp u.k).bad u.l else none) = none := by
    rw [accessed_warp hlet.low hmiss.accessed]
    exact ite_eq_right_iff.2 hgood
  simp only [touchLine, habsent, Bool.false_eq_true, if_false, hsame, hfill, hmark]

/-- A marked line that arrives as an operand is consumed (R330). -/
theorem touchLine_consumed {m : Mach} {unit : Word} (hfill : lineFill s.m s.cur u.l = .ok m) (ho : u.operand = true)
    (hmark : Map.find? (m.warp s.cur).bad u.l = some unit) :
    touchLine q.sc s.m u = .error (.consume unit 0 { s.m.fault s.cur q.sc .errcons with va := 0 }) := by
  obtain ⟨habsent, hsame⟩ := fillLine_firstMiss hlet hmiss hroom
  rw [← accessed_warp hlet.low hmiss.accessed] at hmark ⊢
  simp only [touchLine, habsent, Bool.false_eq_true, if_false, hsame, hfill, ho, if_true, hmark]

end

/-- A line whose place translates is filled from there, with the mark that stands there. -/
theorem lineFill_placed {s : State} {l key : Nat} (hp : s.linePlace l = some key) :
    lineFill s.m s.cur l = .ok (fillMach s.m s.cur (s.me.fill l (Mem.readN s.m.mem key 128) (s.m.poisonAt key 128))) := by
  unfold State.linePlace State.me Mach.blockOf at hp
  unfold lineFill
  dsimp only
  rw [hp]
  rfl

/-- One whose place does not translate stops the context (R118). -/
theorem lineFill_unplaced {s : State} {l : Nat} (hp : s.linePlace l = none) :
    lineFill s.m s.cur l = .error (.ctx 5 { s.m.fault s.cur 0 .xlate with va := 0 }) := by
  unfold State.linePlace State.me Mach.blockOf at hp
  unfold lineFill
  dsimp only
  rw [hp]

/-- Settles O58: a fill leaves all that lets the instruction through, which then accesses the same lines. -/
theorem registerMisses : Obligations.RegisterMisses := by
  intro i q s u hq hlet hmiss hl hroom
  refine ⟨fun key hp hclean => ?filled, fun key unit hp hmark ho => ?poisoned, fun hp => ?unplaced⟩
  case filled =>
    have hf := filled_fill s.me u.l (Mem.readN s.m.mem key 128) hl
    have hfill := lineFill_placed hp
    rw [hclean] at hfill
    refine ⟨_, hf, exec_filled hlet hmiss hq hf (touchLine_filled hlet hmiss hroom hfill fun ho => ?_)⟩
    rw [fillMach_warp, (congrArg Warp.bad hf.rest :)]
    exact operand_unmarked hlet.low (letThrough_good hlet) hmiss.accessed ho
  case poisoned =>
    have hfill := lineFill_placed hp
    rw [hmark] at hfill
    refine exec_unfilled (st := .consume unit 0 _) hlet hmiss hq (touchLine_consumed hlet hmiss hroom hfill ho ?_)
    rw [fillMach_warp]
    exact Map.find?_ins_self _ _ _
  case unplaced => exact exec_unfilled (st := .ctx 5 _) hlet hmiss hq (touchLine_unfilled hlet hmiss hroom (lineFill_unplaced hp))

end Sys2Proof.Machine
end

section
/-!
PROOFS. Integer forms, SEL and the predicate forms (07 R130 to R143, R146), and the lane forms XLN, PGAT and SCAN (07 R148, R149, R151).
-/

namespace Sys2Proof.Machine

/-! Integer forms (R130 to R141, R143). -/

/-- Settles O1: a form is its request and one function, which on the values that it reads is the stated one and raises no flag. -/
theorem integerForms : Obligations.IntegerForms := by
  refine ⟨?lane, ?warp, rfl, rfl, rfl, rfl, rfl, rfl, rfl, rfl, rfl, rfl, rfl, rfl, rfl, rfl, rfl, rfl⟩
  case lane =>
    intro i f q r s m ms hf hr hq hsc hg
    obtain ⟨hreq, fn, hx, hfn, -⟩ := pipe_exec hf hq
    have hval : ∀ n, fn s.me.mode (laneVals s.me n f.a f.b f.c) = (r (laneVals s.me n f.a f.b f.c), 0) := fun n =>
      hfn r hr _ _ (laneVals_imm s.me n f.a f.b f.c).1 (laneVals_imm s.me n f.a f.b f.c).2
    obtain ⟨t, ht, ho, hv, hframe, hs, hp, hflags⟩ := compute_lanes hreq hsc hg fn
    simp only [hval, orLanes_zero] at hv hflags
    exact ⟨t, (hx s).trans ht, ho, hv, hframe, hs, hp, hflags.trans BitVec.or_zero⟩
  case warp =>
    intro i f q r s m ms hf hr hq hsc hu hg
    obtain ⟨hreq, fn, hx, hfn, -⟩ := pipe_exec hf hq
    have hval : fn s.me.mode (warpVals s.me f.a f.b f.c) = (r (warpVals s.me f.a f.b f.c), 0) :=
      hfn r hr _ _ (warpVals_imm s.me f.a f.b f.c).1 (warpVals_imm s.me f.a f.b f.c).2
    obtain ⟨t, ht, ho, hd, hframe, hv, hp, hflags⟩ := compute_warp hreq hsc hu hg fn
    rw [hval] at hd hflags
    exact ⟨t, (hx s).trans ht, ho, hd, hframe, hv, hp, hflags.trans BitVec.or_zero⟩

/-! Effects on one register of the warp. -/

section
variable {q : Req} {s : State} {m mc : Mach} {ms : List Nat} {body : Mach → List Nat → Except Stop Mach}

/-- An instruction whose only effect is on some lanes of one vector register of its warp. -/
theorem issue_writeLanes {d : Nat} {lanes : Word} {val : Nat → Word} (hsc : q.sc < 2) (hg : Goes q s m ms)
    (hb : body m [s.cur] = .ok (mc.setWarp s.cur (writeLanes (m.warp s.cur) d (lanesOf lanes) val))) (hr : mc.rest = m.rest)
    (hw : mc.warps = m.warps) :
    ∃ t, issue q body s = .next t ∧ OnlyWarp s t q.words ∧ (∀ n, n < 32 → lanes.getLsbD n = true → t.me.getV d n = val n) ∧
      sameVectors s.me t.me [d] lanes ∧ t.me.s = s.me.s ∧ t.me.p = s.me.p ∧ t.me.fflags = s.me.fflags := by
  obtain ⟨-, ha, -⟩ := goes_values hsc hg
  obtain ⟨t, ht, ho, hv, hs, hp, hf⟩ := issue_on hsc hg hb hr hw (by rw [writeLanes_rest]; rfl) (by rw [writeLanes_rest])
  have hlane : ∀ r n, n < 32 → t.me.getV r n = if r = d ∧ n ∈ lanesOf lanes then val n else s.me.getV r n := fun r n hn => by
    rw [getV_eq hv, writeLanes_get _ _ _ _ (fun _ h => (mem_lanesOf.1 h).1) r n hn, getV_eq (ha.keeps Warp.v fun _ _ _ => rfl)]
    rfl
  refine ⟨t, ht, ho, fun n hn hl => ?_, fun r n hn hr => ?_, ?_, ?_, ?_⟩
  · rw [hlane d n hn, if_pos ⟨rfl, mem_lanesOf.2 ⟨hn, hl⟩⟩]
  · rw [hlane r n hn, if_neg fun h => hr ⟨List.mem_singleton.2 h.1, (mem_lanesOf.1 h.2).2⟩]
  · rw [hs, writeLanes_rest]; exact ha.keeps Warp.s fun _ _ _ => rfl
  · rw [hp, writeLanes_rest]; exact ha.keeps Warp.p fun _ _ _ => rfl
  · rw [hf, writeLanes_rest]; exact ha.keeps Warp.fflags fun _ _ _ => rfl

/-- An instruction whose only effect is on one scalar register of its warp. -/
theorem issue_setS {d : Nat} {val : Word} (hsc : q.sc < 2) (hg : Goes q s m ms)
    (hb : body m [s.cur] = .ok (mc.setWarp s.cur ((m.warp s.cur).setS d val))) (hr : mc.rest = m.rest) (hw : mc.warps = m.warps) :
    ∃ t, issue q body s = .next t ∧ OnlyWarp s t q.words ∧ t.me.getS d = val ∧ sameScalars s.me t.me [s.me.sKey d] ∧
      t.me.v = s.me.v ∧ t.me.p = s.me.p ∧ t.me.fflags = s.me.fflags := by
  obtain ⟨-, ha, -⟩ := goes_values hsc hg
  obtain ⟨t, ht, ho, hv, hs, hp, hf⟩ := issue_on hsc hg hb hr hw rfl rfl
  have hset : t.me.s = Map.set s.me.s (s.me.sKey d) val := hs.trans (ha.keeps (fun w => (w.setS d val).s) fun _ _ _ => rfl)
  have htrap : t.me.trap = s.me.trap := (congrArg Warp.trap ho.warp :)
  have hkey : t.me.sKey d = s.me.sKey d := by unfold Warp.sKey; rw [htrap]
  refine ⟨t, ht, ho, ?_, fun n hn => ?_, ?_, ?_, ?_⟩
  · unfold Warp.getS
    rw [hset, hkey, Map.get_set_self]
  · rw [hset, Map.get_set_ne _ _ fun h => hn (List.mem_singleton.2 h)]
  · rw [hv]; exact ha.keeps Warp.v fun _ _ _ => rfl
  · rw [hp]; exact ha.keeps Warp.p fun _ _ _ => rfl
  · rw [hf]; exact ha.keeps Warp.fflags fun _ _ _ => rfl

end

/-! SEL (R128, R141). -/

theorem selReq_sc (x : FA3) : (selReq x).sc = x.sc.toNat := by
  unfold selReq computeReq
  rcases BitVec.eq_zero_or_eq_one x.sc with h | h <;> simp [h]

theorem selReq_words (x : FA3) : (selReq x).words = 1 := by
  unfold selReq computeReq
  split <;> rfl

section
variable {x : FA3} {s : State} {m : Mach} {ms : List Nat} (hg : Goes (selReq x) s m ms)
include hg

theorem sel_lanes (h0 : x.sc = 0) :
    ∃ t, exec (.sel x) s = .next t ∧ OnlyWarp s t 1 ∧
      (∀ n, n < 32 → s.me.path.mask.getLsbD n = true → t.me.getV x.d.toNat n =
        if (s.me.getP x.g.toNat).getLsbD n = true then s.me.src x.a.toNat n else s.me.src x.b.toNat n) ∧
      sameVectors s.me t.me [x.d.toNat] s.me.path.mask ∧ t.me.s = s.me.s ∧ t.me.p = s.me.p ∧ t.me.fflags = s.me.fflags := by
  have hsc : (selReq x).sc = 0 := by rw [selReq_sc, h0]; rfl
  obtain ⟨rfl, ha, -⟩ := goes_values (by rw [hsc]; decide) hg
  have hmask : (m.warp s.cur).path.mask = s.me.path.mask := by rw [ha.mask, if_pos hsc]; rfl
  rw [← selReq_words x]
  refine issue_writeLanes (by rw [hsc]; decide) hg (mc := countPipe m s.cur 0 (lanesOf s.me.path.mask).length) ?_
    (countPipe_rest ..) (countPipe_warps ..)
  unfold selBody
  simp only [List.headD_cons, if_pos h0, hmask, admitted_getP ha, admitted_src ha]
  rfl

theorem sel_warp (h1 : x.sc = 1) {b : Bool} (hu : uniform s.me x.g.toNat = some b) :
    ∃ t, exec (.sel x) s = .next t ∧ OnlyWarp s t 1 ∧
      t.me.getS x.d.toNat = (if b then s.me.getS x.a.toNat else s.me.getS x.b.toNat) ∧
      sameScalars s.me t.me [s.me.sKey x.d.toNat] ∧ t.me.v = s.me.v ∧ t.me.p = s.me.p ∧ t.me.fflags = s.me.fflags := by
  have hsc : (selReq x).sc < 2 := by rw [selReq_sc, h1]; decide
  obtain ⟨rfl, ha, -⟩ := goes_values hsc hg
  have hsel : uniform (m.warp s.cur) x.g.toNat = some b := (ha.keeps (uniform · x.g.toNat) fun _ _ _ => rfl).trans hu
  have hget : (m.warp s.cur).getS = s.me.getS := ha.keeps Warp.getS fun _ _ _ => rfl
  rw [← selReq_words x]
  refine issue_setS hsc hg (mc := countPipe m s.cur 1 0) ?_ (countPipe_rest ..) (countPipe_warps ..)
  unfold selBody
  simp [h1, hsel, hget]

theorem sel_nonuniform (h1 : x.sc = 1) (hu : uniform s.me x.g.toNat = none) :
    exec (.sel x) s = .next (s.trapped m { m.fault s.cur 1 .nonunif with tinfo := word1 (.sel x) }) := by
  have hsc : (selReq x).sc = 1 := by rw [selReq_sc, h1]; rfl
  obtain ⟨rfl, ha, -⟩ := goes_values (by rw [hsc]; decide) hg
  have hsel : uniform (m.warp s.cur) x.g.toNat = none := (ha.keeps (uniform · x.g.toNat) fun _ _ _ => rfl).trans hu
  have hinstr : (selReq x).instr = .sel x := by unfold selReq computeReq; split <;> rfl
  refine issue_error (by rw [hsc]; decide) hg ?_
  unfold selBody nonuniform
  simp [h1, hsel, hsc, hinstr]

end

/-- Settles O5: the selector chooses lane by lane at lane scope; at warp scope it chooses once, or traps where it is not uniform. -/
theorem select : Obligations.Select :=
  fun _ _ _ _ hg => ⟨sel_lanes hg, fun h1 _ hu => sel_warp hg h1 hu, sel_nonuniform hg⟩

/-! Predicate forms (R142, R146). -/

section
variable {q : Req} {s : State} {m : Mach} {ms : List Nat}

/-- The lanes on which a lane-scope instruction acts are those that were active before its checks. -/
theorem goes_active (hsc : q.sc = 0) (hg : Goes q s m ms) (g : Nat) : active (m.warp s.cur) g = active s.me g := by
  obtain ⟨-, ha, -⟩ := goes_values (by rw [hsc]; decide) hg
  unfold active
  rw [ha.mask, if_pos hsc, admitted_getP ha]
  rfl

/-- V2P and the predicate logic set the active lanes of one predicate. -/
theorem predicate_lanes {i : Instr} {g : BitVec 3} {d : BitVec 6} {r : Warp → Nat → Bool} (hi : predResult i = some (g, d, r))
    (hq : reqOf i = some q) (hd : d ≠ 0) (hg : Goes q s m ms) :
    ∃ t, exec i s = .next t ∧ OnlyWarp s t 1 ∧
      (∀ n, n < 32 → (t.me.getP d.toNat).getLsbD n =
        if (active s.me g.toNat).getLsbD n then r s.me n else (s.me.getP d.toNat).getLsbD n) ∧
      samePredicates s.me t.me d.toNat ∧ t.me.v = s.me.v ∧ t.me.s = s.me.s ∧ t.me.fflags = s.me.fflags := by
  obtain ⟨hsc, hwords, f, hx, hbit, hreads⟩ := laneForm_exec hi hq
  obtain ⟨-, ha, -⟩ := goes_values (by rw [hsc]; decide) hg
  have hold : (m.warp s.cur).getP d.toNat = s.me.getP d.toNat := congrFun (admitted_getP ha) _
  have hr : r (m.warp s.cur) = r s.me := funext fun n =>
    hreads _ _ (ha.keeps Warp.v fun _ _ _ => rfl) (ha.keeps Warp.s fun _ _ _ => rfl) (ha.keeps Warp.p fun _ _ _ => rfl) n
  obtain ⟨t, ht, ho, hp, hframe⟩ := issue_setP (by rw [hsc]; decide) hg (fun h => hd (BitVec.eq_of_toNat_eq h))
    (body := laneFormBody g (fun w act => w.setP d.toNat (combine 0 (w.getP d.toNat) (f w act) act)))
    (mc := countPipe m s.cur 0 (lanesOf (active (m.warp s.cur) g.toNat)).length) rfl (countPipe_rest ..) (countPipe_warps ..)
  refine ⟨t, (hx s).trans ht, hwords ▸ ho, fun n hn => ?_, hframe⟩
  rw [hp, List.headD_cons, goes_active hsc hg, hold, Bool.eq_iff_iff, getLsbD_combine _ _ _ _ _ hn]
  by_cases hact : (active s.me g.toNat).getLsbD n = true
  · rw [if_pos hact, if_pos hact, ← hr, ← hbit _ _ n hn hact]
    rfl
  · rw [if_neg hact, if_neg hact]

/-- P2V writes the predicate's bits into the active lanes of a vector register. -/
theorem p2v_lanes {x : FDAG} (hq : reqOf (.p2v x) = some q) (hg : Goes q s m ms) :
    ∃ t, exec (.p2v x) s = .next t ∧ OnlyWarp s t 1 ∧
      (∀ n, n < 32 → (active s.me x.g.toNat).getLsbD n = true → t.me.getV x.d.toNat n =
        if (s.me.getP x.a.toNat).getLsbD n = true then 1 else 0) ∧
      sameVectors s.me t.me [x.d.toNat] (active s.me x.g.toNat) ∧ t.me.s = s.me.s ∧ t.me.p = s.me.p ∧
      t.me.fflags = s.me.fflags := by
  cases hq
  obtain ⟨-, ha, -⟩ := goes_values Nat.zero_lt_two hg
  refine issue_writeLanes Nat.zero_lt_two hg (mc := countPipe m s.cur 0 (lanesOf (active (m.warp s.cur) x.g.toNat)).length) ?_
    (countPipe_rest ..) (countPipe_warps ..)
  unfold laneFormBody
  simp only [List.headD_cons, goes_active rfl hg, admitted_getP ha]
  rfl

end

/-- Settles O6: each form acts on the active lanes of one predicate, P2V on those of a vector register. -/
theorem predicateForms : Obligations.PredicateForms :=
  ⟨⟨fun _ _ _ _ _ _ _ _ => predicate_lanes, fun _ _ _ _ _ => p2v_lanes⟩, rfl, rfl, rfl, rfl, rfl⟩

/-! XLN (R148). -/

theorem xlnForm_exec {i : Instr} {form : Nat} {x : FDABHG} {q : Req} (hi : xlnForm i = some (form, x)) (hq : reqOf i = some q) :
    q = xlnReq i x ∧ ∀ s, exec i s = crossForm q x.g 1 (xln form x.d.toNat x.a.toNat x.b.toNat) s := by
  cases i with
  | xlnBack x => cases hi; cases hq; exact ⟨rfl, fun _ => rfl⟩
  | xlnFwd x => cases hi; cases hq; exact ⟨rfl, fun _ => rfl⟩
  | xlnFlip x => cases hi; cases hq; exact ⟨rfl, fun _ => rfl⟩
  | xlnFrom x => cases hi; cases hq; exact ⟨rfl, fun _ => rfl⟩
  | _ => cases hi

/-- XLN writes into the live lanes the values that the rule states. -/
theorem xln_writes (form d a b : Nat) (w : Warp) : xln form d a b w = writeLanes w d (lanesOf w.live) (xlnValue form w a b) := by
  rw [xln_eq]
  exact congrArg _ (funext (xlnSource_eq form w a b))

/-- Settles O7: the source lane of the model is the lane j of the rule, or lies outside the segment with it. -/
theorem laneExchange : Obligations.LaneExchange := by
  refine ⟨fun i form x q s m ms hi hq hu hg => ?_, rfl⟩
  obtain ⟨rfl, hx⟩ := xlnForm_exec hi hq
  obtain ⟨-, ha, -⟩ := goes_values Nat.one_lt_two hg
  rw [hx, funext (xln_writes form x.d.toNat x.a.toNat x.b.toNat)]
  exact cross_vector rfl hu hg (ha.keeps (xlnValue form · x.a.toNat x.b.toNat) fun _ _ _ => rfl) rfl

/-! PGAT (R149). -/

/-- A PGAT form is one value of the predicates and the live lanes, which it writes into a scalar register. -/
theorem pgat_exec {i : Instr} {g : BitVec 3} {d : BitVec 6} {r : Warp → Word} {q : Req} (hi : pgatResult i = some (g, d, r))
    (hq : reqOf i = some q) :
    q.sc = 1 ∧ q.words = 1 ∧ (∀ s, exec i s = crossForm q g 1 (fun w => w.setS d.toNat (r w)) s) ∧
      ∀ (w : Warp) ps rs, r { w with paths := ps, recs := rs } = r w := by
  cases i with
  | pgatEvery x =>
    cases hi; cases hq
    refine ⟨rfl, rfl, fun s => ?_, fun _ _ _ => rfl⟩
    simp only [← every_eq]
    rfl
  | pgatSome x =>
    cases hi; cases hq
    refine ⟨rfl, rfl, fun s => ?_, fun _ _ _ => rfl⟩
    simp only [← not_iff_comm.1 (some_eq _ _).symm, ite_not]
    rfl
  | pgatMask x =>
    cases hi; cases hq
    refine ⟨rfl, rfl, fun s => ?_, fun _ _ _ => rfl⟩
    simp only [BitVec.and_comm (Warp.live _)]
    rfl
  | pgatLive x =>
    cases hi; cases hq
    exact ⟨rfl, rfl, fun _ => rfl, fun _ _ _ => rfl⟩
  | _ => cases hi

/-- Settles O8: what the forms find by masks is what the rule states over the live lanes. -/
theorem predicateGather : Obligations.PredicateGather := by
  refine ⟨fun i g d r q s m ms hi hq hu hg => ?_, rfl⟩
  obtain ⟨hsc, hwords, hx, hreads⟩ := pgat_exec hi hq
  obtain ⟨-, ha, -⟩ := goes_values (by rw [hsc]; decide) hg
  obtain ⟨t, ht, ho, hd, hs, hv, hp, hf⟩ := cross_scalar (n := 1) (d := d.toNat) (fl := fun _ => 0) hsc hu hg
    (ha.keeps r hreads) rfl hwords
  simp only [← setS_noflags] at ht
  exact ⟨t, (hx s).trans ht, ho, hd, hs, hv, hp, hf.trans BitVec.or_zero⟩

/-! SCAN (R151). -/

theorem sMax_eq (a b : Word) : sMax a b = BitVec.ofInt 32 (max a.toInt b.toInt) := by
  unfold sMax
  by_cases h : a.toInt ≤ b.toInt
  · rw [if_pos h, max_eq_right h, BitVec.ofInt_toInt]
  · rw [if_neg h, max_eq_left (le_of_not_ge h), BitVec.ofInt_toInt]

theorem sMin_eq (a b : Word) : sMin a b = BitVec.ofInt 32 (min a.toInt b.toInt) := by
  unfold sMin
  by_cases h : a.toInt ≤ b.toInt
  · rw [if_pos h, min_eq_left h, BitVec.ofInt_toInt]
  · rw [if_neg h, min_eq_right (le_of_not_ge h), BitVec.ofInt_toInt]

theorem scanForm_exec {i : Instr} {x : FDAHG} {f : Word → Word → Word} {e : Word} {exclusive : Bool} {q : Req}
    (hi : scanForm i = some (x, f, e, exclusive)) (hq : reqOf i = some q) :
    q = scanReq i x ∧ (∀ a, f a e = a) ∧ ∀ s, exec i s = crossForm q x.g 2 (scan f e exclusive x.d.toNat x.a.toNat) s := by
  cases i with
  | scanAdd x =>
    cases hi; cases hq
    refine ⟨rfl, fun a => (add_eq a 0).symm.trans (BitVec.add_zero a), fun s => ?_⟩
    simp only [← add_eq]
    rfl
  | scanXadd x =>
    cases hi; cases hq
    refine ⟨rfl, fun a => (add_eq a 0).symm.trans (BitVec.add_zero a), fun s => ?_⟩
    simp only [← add_eq]
    rfl
  | scanMax x =>
    cases hi; cases hq
    refine ⟨rfl, fun a => ?_, fun s => ?_⟩
    · dsimp only
      rw [max_eq_left (min_le_toInt a), BitVec.ofInt_toInt]
    · simp only [← sMax_eq]
      rfl
  | scanMin x =>
    cases hi; cases hq
    refine ⟨rfl, fun a => ?_, fun s => ?_⟩
    · dsimp only
      rw [min_eq_left (toInt_le_max a), BitVec.ofInt_toInt]
    · simp only [← sMin_eq]
      rfl
  | _ => cases hi

/-- What a scan gives lane n: the fold of the live lanes below it, its own included but where the scan is exclusive. -/
def prefixFold (f : Word → Word → Word) (e : Word) (exclusive : Bool) (a : Nat) (w : Warp) (n : Nat) : Word :=
  (((lanesOf w.live).filter (fun j => decide (j < n) || (!exclusive && j == n))).map (w.src a)).foldl f e

/-- What `scan_eq` lets a scan write into each lane: 0 stands for those that are not live, which it does not write. -/
def scanned (f : Word → Word → Word) (e : Word) (exclusive : Bool) (a : Nat) (w : Warp) (n : Nat) : Word :=
  if w.live.getLsbD n ∧ n < 32 then prefixFold f e exclusive a w n else 0

/-- Settles O10: exited lanes supply the identity, which leaves the fold of the live lanes. -/
theorem scans : Obligations.Scans := by
  refine ⟨fun i x f e exclusive q s m ms hi hq hu hg => ?_, rfl⟩
  obtain ⟨rfl, hid, hx⟩ := scanForm_exec hi hq
  obtain ⟨-, ha, -⟩ := goes_values Nat.one_lt_two hg
  have hscan : scan f e exclusive x.d.toNat x.a.toNat =
      fun w => writeLanes w x.d.toNat (lanesOf w.live) (scanned f e exclusive x.a.toNat w) :=
    funext (scan_eq f e (fun a b => hid (f a b)) (hid e) exclusive _ _)
  obtain ⟨t, ht, ho, hv, hframe⟩ := cross_vector (n := 2) rfl hu hg (ha.keeps (scanned f e exclusive x.a.toNat) fun _ _ _ => rfl) rfl
  rw [hx, hscan]
  exact ⟨t, ht, ho, fun n hn hl => (hv n hn hl).trans (if_pos ⟨hl, hn⟩), hframe⟩

end Sys2Proof.Machine
end

section
/-!
PROOFS. ST, SNAP and the fences (09 R183 to R187; 10 R189, R196, R200, R201).
-/

namespace Sys2Proof.Machine

/-! FENCE.ENG and FENCE.IO (R187, R196). -/

/-- Settles O20: FENCE.ENG follows the classes' timestamps or waits, and FENCE.IO has no effect to perform (log 7). -/
theorem fences : Obligations.Fences := fun s m ms =>
  ⟨fun hg => ⟨fence_goes s m ms hg, fence_waits s m ms hg⟩,
    fun hg => issue_same (q := fenceIoReq) (body := fenceIoBody) Nat.one_lt_two hg rfl rfl rfl⟩

/-! SNAP (R183, R184). -/

theorem writeLanes_v_congr {w w' : Warp} (hv : w'.v = w.v) (d : Nat) (lanes : List Nat) (g : Nat → Word) :
    (writeLanes w' d lanes g).v = (writeLanes w d lanes g).v := by
  unfold writeLanes
  induction lanes generalizing w w' with
  | nil => exact hv
  | cons i lanes ih => exact ih (by simp only [Warp.setV, hv])

/-- The counter of a sector that SNAP delivers to a lane. -/
def counterFor (mem : List Host.Cell) (key lane : Nat) : Word :=
  if lane < 16 then BitVec.ofNat 32 (natOfBytes (Mem.readN mem (key + 4 * lane) 4)) else 0

theorem wordsOfBytes_sector (mem : List Host.Cell) (key lane : Nat) :
    (wordsOfBytes 16 (Mem.readN mem key 64)).getD lane 0 = counterFor mem key lane := by
  unfold wordsOfBytes counterFor
  split
  next hlane =>
    have hbytes : ((Mem.readN mem key 64).drop (4 * lane)).take 4 = Mem.readN mem (key + 4 * lane) 4 := by
      refine List.ext_getElem (by simp [Mem.readN]; omega) fun i _ _ => ?_
      simp [Mem.readN, Nat.add_assoc]
    rw [List.getD_eq_getElem _ _ (by simpa using hlane), List.getElem_map, List.getElem_range, hbytes]
  next hlane => exact List.getD_eq_default _ _ (by simpa using hlane)

/-- What SNAP leaves of the machine: the sector cleared, and the counters in the live lanes of D. -/
theorem snapBody_ok {x : FSNAP} {m : Mach} {k : Nat} {e : Nat × Loc} (hh : (Map.find? m.warps k).isSome = true)
    (hhold : (m.blockOf k).holding = false)
    (hp : memPlaces (snapReq x) m k x.g.toNat x.o.toNat x.h.toNat .snap .snap 2 64 = .ok [e])
    (hext : isExternal e.2.key = false) (hpoison : m.poisonAt e.2.key 64 = none) :
    ∃ m2, snapBody x m [k] = .ok m2 ∧ Wrote k m m2 ∧
      (∀ a, Mem.read m2.mem a = if e.2.touches 64 a then 0 else Mem.read m.mem a) ∧
      (m2.warp k).v = (writeLanes (m.warp k) x.d.toNat (lanesOf (m.warp k).live) (counterFor m.mem e.2.key)).v ∧
      (m2.warp k).s = (m.warp k).s := by
  have hclear : Agrees 64 (fun _ => some (bytesOfNat 64 0)) (fun _ => 0) := fun _ _ =>
    ⟨bytesOfNat_length 64 0, (natOfBytes_bytesOfNat 64 0).trans (Nat.zero_mod _)⟩
  obtain ⟨m1, hstep, hwrote, hv, hs, -, hmem⟩ := atomStep_full (q := snapReq x) hext hpoison hhold hclear
  have hh1 := hwrote.here hh
  have hlive : (m1.warp k).live = (m.warp k).live := (congrArg Warp.live hwrote.warp :)
  have hw := writeLanes_rest (m1.warp k) x.d.toNat (lanesOf (m1.warp k).live) (counterFor m.mem e.2.key)
  have hlanes : Wrote k m1 (m1.updWarp k (fun w => writeLanes w x.d.toNat (lanesOf w.live) (counterFor m.mem e.2.key))) :=
    acc1_upd hh1 (congrArg Warp.memRest hw :) (congrArg Warp.paths hw :) (congrArg Warp.demot hw :) (congrArg Warp.sample hw :)
      (congrArg Warp.p hw :) (congrArg Warp.fflags hw :)
  obtain ⟨hsamp, smem, -, sv, ss⟩ := sampleMem_acc1 _ (snapReq x) k 6 64 [e] (hlanes.here hh1)
  rw [Mach.warp_updWarp_self _ hh1] at sv ss
  refine ⟨_, ?_, (hwrote.trans hlanes).trans hsamp, fun a => ?_, ?_, ?_⟩
  · unfold snapBody
    simp only [List.headD_cons, hp, bind, Except.bind, hstep, wordsOfBytes_sector]
    rfl
  · rw [smem, Mach.updWarp_mem, hmem]
    simp only [Nat.zero_div]
    rfl
  · rw [sv, hlive]
    exact writeLanes_v_congr hv ..
  · rw [ss, hw]
    exact hs

/-- Settles O19: the one access is an atomic step that leaves zeros, and its old bytes are the counters. -/
theorem snapshot : Obligations.Snapshot := by
  intro x s m ms e hg hhold hp hext hpoison
  obtain ⟨-, hA, hh⟩ := goes_values (q := snapReq x) Nat.one_lt_two hg
  obtain ⟨-, amem, apoison, ablocks, -, -⟩ := admitted_acc1 hA
  obtain ⟨hblock, -⟩ := admitted_copies hA
  obtain ⟨m2, hbody, hwrote, hmem, hv, hs⟩ := snapBody_ok hh (by rw [hblock]; exact hhold) hp hext
    (by unfold Mach.poisonAt; rw [apoison]; exact hpoison)
  obtain ⟨t, ht, hacc, hrest, hmach, -, tv, ts, tp, tf, -, tgo, -⟩ := finish Nat.one_lt_two hg hbody hwrote.toAcc1
  have hlane : ∀ r n, n < 32 → t.me.getV r n =
      if r = x.d.toNat ∧ n ∈ lanesOf s.me.live then counterFor s.m.mem e.2.key n else s.me.getV r n := fun r n hn => by
    rw [getV_eq (tv.trans hv), writeLanes_get _ _ _ _ (fun _ h => (mem_lanesOf.1 h).1) r n hn, admitted_live hA, amem,
      getV_eq (hA.keeps Warp.v fun _ _ _ => rfl)]
    rfl
  refine ⟨t, ht, hacc, hrest, ?_, fun n hn hl => ?_, fun r n hn hr => ?_, ?_, tp, tf, fun a => ?_, tgo⟩
  · rw [hmach]; exact hwrote.blocks.trans ablocks
  · rw [hlane _ n hn, if_pos ⟨rfl, mem_lanesOf.2 ⟨hn, hl⟩⟩]
    rfl
  · rw [hlane r n hn, if_neg fun h => hr ⟨List.mem_singleton.2 h.1, (mem_lanesOf.1 h.2).2⟩]
  · exact ts.trans (hs.trans (hA.keeps Warp.s fun _ _ _ => rfl))
  · rw [hmach, ← amem]; exact hmem a

/-! ST in a block that holds no stores (R184, R185, R189, R201). -/

/-- The bytes that a store of n bytes brings to its place, given byte by byte. -/
def storeOf (n : Nat) (byte : Nat → Nat → Byte) (e : Nat × Loc) : List Byte := (List.range n).map (byte e.1)

/-- An access of n bytes touches the byte at a, and does not go to this package's own node instead (20 R317). -/
def Reaches (n : Nat) (e : Nat × Loc) (a : Nat) : Prop := isSelf e.2.key = false ∧ e.2.touches n a

/-- Memory after some stores, in whatever order: each byte is that of one of the stores that reach it, or the old one. -/
structure StoredIn (n : Nat) (byte : Nat → Nat → Byte) (ls : List (Nat × Loc)) (old new : Nat → Byte) : Prop where
  untouched : ∀ a, (∀ e ∈ ls, ¬ Reaches n e a) → new a = old a
  touched : ∀ a, (∃ e ∈ ls, Reaches n e a) → ∃ e ∈ ls, Reaches n e a ∧ new a = byte e.1 (a - e.2.key)

section
variable {n : Nat} {byte : Nat → Nat → Byte} {ls ls' : List (Nat × Loc)} {old mid new : Nat → Byte}

theorem StoredIn.append (h : StoredIn n byte ls old mid) (g : StoredIn n byte ls' mid new) : StoredIn n byte (ls ++ ls') old new where
  untouched a ha := (g.untouched a fun e he => ha e (List.mem_append_right _ he)).trans
    (h.untouched a fun e he => ha e (List.mem_append_left _ he))
  touched a := by
    rintro ⟨e, he, hr⟩
    by_cases hlate : ∃ e ∈ ls', Reaches n e a
    · obtain ⟨e', he', hr', hnew⟩ := g.touched a hlate
      exact ⟨e', List.mem_append_right _ he', hr', hnew⟩
    · have hearly : e ∈ ls := (List.mem_append.1 he).resolve_right fun h => hlate ⟨e, h, hr⟩
      obtain ⟨e', he', hr', hmid⟩ := h.touched a ⟨e, hearly, hr⟩
      exact ⟨e', List.mem_append_left _ he', hr', (g.untouched a fun x hx hrx => hlate ⟨x, hx, hrx⟩).trans hmid⟩

theorem StoredIn.perm (h : StoredIn n byte ls old new) (hp : ls.Perm ls') : StoredIn n byte ls' old new := by
  obtain ⟨hu, ht⟩ := h
  simp only [hp.mem_iff] at hu ht
  exact ⟨hu, ht⟩

end

/-- The messages that some stores send to this package's own node. -/
def Mach.messages (m : Mach) (n : Nat) (byte : Nat → Nat → Byte) (ls : List (Nat × Loc)) : List SelfMsg :=
  ls.flatMap (fun e => if isSelf e.2.key then m.ownMessage e.2.key (storeOf n byte e) else [])

/-- Some stores have been performed: their bytes stand in memory, their messages are sent, and no register has changed. -/
structure Performed (k n : Nat) (byte : Nat → Nat → Byte) (m m' : Mach) (ls : List (Nat × Loc)) : Prop where
  wrote : Wrote k m { m' with sent := m.sent }
  v : (m'.warp k).v = (m.warp k).v
  s : (m'.warp k).s = (m.warp k).s
  sent : m'.sent = m.sent ++ m.messages n byte ls
  stored : StoredIn n byte ls (Mem.read m.mem) (Mem.read m'.mem)

theorem Wrote.withSent {k : Nat} {m m' : Mach} (h : Wrote k m m') (msgs : List SelfMsg) :
    Wrote k { m with sent := msgs } { m' with sent := msgs } where
  rest := congrArg (fun x : Mach => { x with sent := msgs }) h.rest
  others := h.others
  here := h.here
  warp := h.warp
  paths := h.paths
  demot := h.demot
  ops := h.ops
  p := h.p
  fflags := h.fflags
  blocks := h.blocks

section
variable {k n : Nat} {byte : Nat → Nat → Byte} {m m1 m' : Mach} {ls ls' : List (Nat × Loc)}

theorem Performed.nil (k n : Nat) (byte : Nat → Nat → Byte) (m : Mach) : Performed k n byte m m [] :=
  ⟨.refl k m, rfl, rfl, (List.append_nil _).symm, fun _ _ => rfl, fun _ ⟨_, he, _⟩ => nomatch he⟩

theorem Performed.append (h : Performed k n byte m m1 ls) (g : Performed k n byte m1 m' ls') (hmsg : m1.ownMessage = m.ownMessage) :
    Performed k n byte m m' (ls ++ ls') where
  wrote := h.wrote.trans (g.wrote.withSent m.sent)
  v := g.v.trans h.v
  s := g.s.trans h.s
  sent := by
    rw [g.sent, h.sent, List.append_assoc]
    unfold Mach.messages
    rw [List.flatMap_append, hmsg]
  stored := h.stored.append g.stored

theorem Performed.here (h : Performed k n byte m m' ls) (hh : (Map.find? m.warps k).isSome = true) :
    (Map.find? m'.warps k).isSome = true := h.wrote.here hh

/-- What comes after the stores, and sends nothing. -/
theorem Performed.wroteAfter (h : Performed k n byte m m1 ls) (g : Wrote k m1 m') (hmem : m'.mem = m1.mem)
    (hv : (m'.warp k).v = (m1.warp k).v) (hs : (m'.warp k).s = (m1.warp k).s) : Performed k n byte m m' ls where
  wrote := h.wrote.trans (g.withSent m.sent)
  v := hv.trans h.v
  s := hs.trans h.s
  sent := (congrArg Mach.sent g.rest :).trans h.sent
  stored := hmem ▸ h.stored

theorem perform_ownMessage (m : Mach) (k key : Nat) (bs : List Byte) : (m.perform k key bs).ownMessage = m.ownMessage := by
  by_cases hself : isSelf key = true
  · rw [perform_self k key bs m hself]
    rfl
  · unfold Mach.perform Mach.stampStore
    rw [if_neg hself]
    split <;> rfl

theorem perform_performed (k n : Nat) (byte : Nat → Nat → Byte) (m : Mach) (e : Nat × Loc) :
    Performed k n byte m (m.perform k e.2.key (storeOf n byte e)) [e] := by
  cases hself : isSelf e.2.key with
  | true =>
    rw [perform_self k e.2.key _ m hself]
    refine ⟨.refl k m, rfl, rfl, ?_, fun _ _ => rfl, fun a => ?_⟩
    · simp [Mach.messages, hself]
    · simp [Reaches, hself]
  | false =>
    obtain ⟨hwrote, hmem, -, hv, hs⟩ := perform_wrote k e.2.key (storeOf n byte e) m hself
    have hsent : (m.perform k e.2.key (storeOf n byte e)).sent = m.sent := (congrArg Mach.sent hwrote.rest :)
    have hlen : (storeOf n byte e).length = n := by simp [storeOf]
    refine ⟨hwrote.withSent m.sent, hv, hs, ?_, fun a ha => ?_, fun a ⟨e', he', hr⟩ => ?_⟩
    · simp [Mach.messages, hself, hsent]
    · rw [hmem, read_write, hlen, if_neg fun h => ha e List.mem_cons_self ⟨hself, h⟩]
    · obtain rfl := List.mem_singleton.1 he'
      have ⟨_, hlo, hhi⟩ := hr
      refine ⟨e', he', hr, ?_⟩
      rw [hmem, read_write, hlen, if_pos ⟨hlo, hhi⟩]
      simp [storeOf, show a - e'.2.key < n by omega]

theorem storeBytes_committed {l : Loc} {bs : List Byte} (h : (m.blockOf k).holding = false) :
    storeBytes m k l bs = m.perform k l.key bs := by
  unfold storeBytes
  exact if_pos (by rw [show (m.block (m.warp k).block).holding = false from h]; rfl)

/-- The stores of the lanes, one after the other, in a block that holds none. -/
theorem storeAll_performed (byte : Nat → Nat → Byte) (n : Nat) (ls : List (Nat × Loc)) :
    ∀ m : Mach, (m.blockOf k).holding = false →
      Performed k n byte m (ls.foldl (fun m e => storeBytes m k e.2 (storeOf n byte e)) m) ls := by
  induction ls with
  | nil => exact fun m _ => .nil k n byte m
  | cons e ls ih =>
    intro m hhold
    have hfirst := perform_performed k n byte m e
    have hhold1 : ((m.perform k e.2.key (storeOf n byte e)).blockOf k).holding = false :=
      (congrArg Block.holding hfirst.wrote.blockOf).trans hhold
    rw [List.foldl_cons, storeBytes_committed hhold]
    exact hfirst.append (ih _ hhold1) (perform_ownMessage ..)

end

theorem stReq_low (x : FM) : (stReq x).sc < 2 := (stReq_facts x).1 ▸ x.sc.isLt

theorem storeBody_eq {x : FM} {m : Mach} {k : Nat} {ls : List (Nat × Loc)} (hz : x.z ≠ 7)
    (hp : memPlaces (stReq x) m k x.g.toNat x.o.toNat x.h.toNat .st .write 1 (accessBytes x.z.toNat) = .ok ls) :
    storeBody (stReq x) x m [k] = .ok (sampleMem (usedOrder ((orderLanes m ls).foldl (fun m' e =>
      storeBytes m' k e.2 (storeOf (accessBytes x.z.toNat) (storedByte (m.warp k) x.sc x.d.toNat) e)) m))
      (stReq x) k 1 (accessBytes x.z.toNat) ls) := by
  unfold storeBody storeOf
  simp only [List.headD_cons, hp, bind, Except.bind, (stReq_facts x).1, storedBytes_eq _ _ _ _ _ (z_lt hz)]
  rfl

/-- What comes after the stores of an ST: an order of lanes is used up, and an armed sample may fire. -/
theorem storeEnd_wrote (x : FM) (n : Nat) (ls : List (Nat × Loc)) {m : Mach} {k : Nat} (hh : (Map.find? m.warps k).isSome = true) :
    let m' := sampleMem (usedOrder m) (stReq x) k 1 n ls
    Wrote k m m' ∧ m'.mem = m.mem ∧ m'.poison = m.poison ∧ (m'.warp k).v = (m.warp k).v ∧ (m'.warp k).s = (m.warp k).s := by
  have hused := usedOrder_acc1 m k
  obtain ⟨hsamp, hsame⟩ := sampleMem_acc1 (usedOrder m) (stReq x) k 1 n ls (hused.here hh)
  exact ⟨hused.trans hsamp, hsame⟩

/-- What ST leaves of the machine where its block holds no stores. -/
theorem storeBody_performed {x : FM} {m : Mach} {k : Nat} {ls : List (Nat × Loc)} (hz : x.z ≠ 7)
    (hh : (Map.find? m.warps k).isSome = true) (hhold : (m.blockOf k).holding = false)
    (hp : memPlaces (stReq x) m k x.g.toNat x.o.toNat x.h.toNat .st .write 1 (accessBytes x.z.toNat) = .ok ls) :
    ∃ m2, storeBody (stReq x) x m [k] = .ok m2 ∧
      Performed k (accessBytes x.z.toNat) (storedByte (m.warp k) x.sc x.d.toNat) m m2 (orderLanes m ls) := by
  have hall := storeAll_performed (storedByte (m.warp k) x.sc x.d.toNat) (accessBytes x.z.toNat) (orderLanes m ls) m hhold
  obtain ⟨hend, emem, -, ev, es⟩ := storeEnd_wrote x (accessBytes x.z.toNat) ls (hall.here hh)
  exact ⟨_, storeBody_eq hz hp, hall.wroteAfter hend emem ev es⟩

/-! ST in a block that holds its stores (R200). -/

/-- The pail entry of a store (10 R200). -/
def heldStore (n : Nat) (byte : Nat → Nat → Byte) (e : Nat × Loc) : Held :=
  { h := e.2.h, off := e.2.off, key := e.2.key, bytes := storeOf n byte e }

/-- The pail of a warp's block has grown by some entries, and nothing else has changed. -/
structure PailGrew (k : Nat) (m m' : Mach) (hs : List Held) : Prop where
  machine : m' = { m with blocks := m'.blocks }
  others : ∀ b, b ≠ (m.warp k).block → Map.find? m'.blocks b = Map.find? m.blocks b
  here : (Map.find? m'.blocks (m.warp k).block).isSome = true
  block : m'.blockOf k = { m.blockOf k with pail := (m.blockOf k).pail ++ hs }

section
variable {k n : Nat} {byte : Nat → Nat → Byte} {m m1 m' : Mach} {e : Nat × Loc} {hs hs' : List Held}

theorem PailGrew.warp (h : PailGrew k m m' hs) : m'.warp k = m.warp k := by rw [h.machine]; rfl

theorem PailGrew.append (h : PailGrew k m m1 hs) (g : PailGrew k m1 m' hs') : PailGrew k m m' (hs ++ hs') where
  machine := by rw [g.machine, h.machine]
  others b hb := (g.others b (by rwa [h.warp])).trans (h.others b hb)
  here := by have := g.here; rwa [h.warp] at this
  block := by rw [g.block, h.block, List.append_assoc]

/-- A store that finds room in the pail, through a handle of a kind that the pail holds. -/
theorem storeBytes_held (hh : (Map.find? m.blocks (m.warp k).block).isSome = true) (hhold : (m.blockOf k).holding = true)
    (hkind : e.2.kind = 1 ∨ e.2.kind = 3 ∨ e.2.kind = 9) (hroom : pailSectors (m.blockOf k).pail + 1 ≤ 1024) :
    PailGrew k m (storeBytes m k e.2 (storeOf n byte e)) [heldStore n byte e] := by
  have hfits : ¬ 1024 < pailSectors ((m.blockOf k).pail ++ [heldStore n byte e]) :=
    not_lt.2 ((pailSectors_append _ _).trans hroom)
  have heq : storeBytes m k e.2 (storeOf n byte e) = m.updBlock (m.warp k).block
      (fun b => { b with pail := (m.blockOf k).pail ++ [heldStore n byte e] }) := by
    unfold storeBytes
    dsimp only
    rw [if_neg (by rw [show (m.block (m.warp k).block).holding = true from hhold]; decide), if_pos hkind]
    exact if_neg hfits
  rw [heq]
  refine ⟨rfl, fun b hb => by rw [Mach.updBlock, Map.find?_upd_ne _ _ hb], ?_, Mach.block_updBlock_self _ hh⟩
  rw [Mach.updBlock, Map.find?_upd_self, Option.isSome_map]
  exact hh

/-- The stores of the lanes, one after the other, in a block whose pail has room for them all. -/
theorem storeAll_held (byte : Nat → Nat → Byte) (n : Nat) (ls : List (Nat × Loc)) :
    ∀ m : Mach, (Map.find? m.blocks (m.warp k).block).isSome = true → (m.blockOf k).holding = true →
      (∀ e ∈ ls, e.2.kind = 1 ∨ e.2.kind = 3 ∨ e.2.kind = 9) → pailSectors (m.blockOf k).pail + ls.length ≤ 1024 →
      PailGrew k m (ls.foldl (fun m e => storeBytes m k e.2 (storeOf n byte e)) m) (ls.map (heldStore n byte)) := by
  induction ls with
  | nil => exact fun m hh _ _ _ => ⟨rfl, fun _ _ => rfl, hh, by simp⟩
  | cons e ls ih =>
    intro m hh hhold hkind hroom
    rw [List.length_cons] at hroom
    have hfirst := storeBytes_held (n := n) (byte := byte) hh hhold (hkind e List.mem_cons_self) (by omega)
    refine hfirst.append (ih _ ?_ ?_ (fun e he => hkind e (List.mem_cons_of_mem _ he)) ?_)
    · rw [hfirst.warp]; exact hfirst.here
    · rw [hfirst.block]; exact hhold
    · rw [hfirst.block]
      have hgrow := pailSectors_append (m.blockOf k).pail [heldStore n byte e]
      rw [List.length_singleton] at hgrow
      dsimp only
      omega

theorem PailGrew.acc1 (h : PailGrew k m m' hs) : Acc1 k m m' := by
  obtain ⟨hm, -, -, -⟩ := h
  generalize m'.blocks = bs at hm
  subst hm
  exact ⟨rfl, fun _ _ => rfl, id, rfl, rfl, rfl, fun h => ⟨rfl, h⟩, rfl, rfl⟩

end

/-- What ST leaves of the machine where its block holds its stores and the pail has room for them. -/
theorem storeBody_held {x : FM} {m : Mach} {k : Nat} {ls : List (Nat × Loc)} (hz : x.z ≠ 7)
    (hh : (Map.find? m.warps k).isSome = true) (hblock : (Map.find? m.blocks (m.warp k).block).isSome = true)
    (hhold : (m.blockOf k).holding = true)
    (hp : memPlaces (stReq x) m k x.g.toNat x.o.toNat x.h.toNat .st .write 1 (accessBytes x.z.toNat) = .ok ls)
    (hkind : ∀ e ∈ ls, e.2.kind = 1 ∨ e.2.kind = 3 ∨ e.2.kind = 9)
    (hroom : pailSectors (m.blockOf k).pail + ls.length ≤ 1024) :
    ∃ m1 m2, storeBody (stReq x) x m [k] = .ok m2 ∧ (orderLanes m ls).Perm ls ∧
      PailGrew k m m1 ((orderLanes m ls).map (heldStore (accessBytes x.z.toNat) (storedByte (m.warp k) x.sc x.d.toNat))) ∧
      Wrote k m1 m2 ∧ m2.mem = m1.mem ∧ m2.poison = m1.poison ∧ (m2.warp k).v = (m1.warp k).v ∧ (m2.warp k).s = (m1.warp k).s := by
  have hperm := orderLanes_perm m ls (memPlaces_nodup hp)
  have hall := storeAll_held (storedByte (m.warp k) x.sc x.d.toNat) (accessBytes x.z.toNat) (orderLanes m ls) m hblock hhold
    (fun e he => hkind e (hperm.mem_iff.1 he)) (by rw [hperm.length_eq]; exact hroom)
  exact ⟨_, _, storeBody_eq hz hp, hperm, hall, storeEnd_wrote x (accessBytes x.z.toNat) ls (hall.acc1.here hh)⟩

theorem admitted_ownMessage {q : Req} {k : Nat} {m m' : Mach} (hA : Admitted q k m m') : m'.ownMessage = m.ownMessage := by
  rw [hA.machine]
  rfl

theorem admitted_storedByte {q : Req} {k : Nat} {m m' : Mach} (hA : Admitted q k m m') (sc : BitVec 1) (d : Nat) :
    storedByte (m'.warp k) sc d = storedByte (m.warp k) sc d :=
  hA.keeps (fun w => storedByte w sc d) fun _ _ _ => rfl

/-- ST where its block holds no stores: the order of the lanes is the one that `orderLanes` chose. -/
theorem st_performs {x : FM} {s : State} {m : Mach} {ms : List Nat} {ls : List (Nat × Loc)} (hz : x.z ≠ 7)
    (hg : Goes (stReq x) s m ms) (hhold : (s.m.blockOf s.cur).holding = false)
    (hp : memPlaces (stReq x) m s.cur x.g.toNat x.o.toNat x.h.toNat .st .write 1 (accessBytes x.z.toNat) = .ok ls) :
    ∃ t, ∃ ls' : List (Nat × Loc), exec (.st x) s = .next t ∧ Accessed s t ∧
      { t.m.storeRest with sent := [] } = { s.m.storeRest with sent := [] } ∧ t.m.blocks = s.m.blocks ∧
      t.me.v = s.me.v ∧ t.me.s = s.me.s ∧ t.me.p = s.me.p ∧ t.me.fflags = s.me.fflags ∧ t.me.demot = s.me.demot ∧
      GoesOn s.me t.me 1 ∧ ls'.Perm ls ∧
      t.m.sent = s.m.sent ++ s.m.messages (accessBytes x.z.toNat) (storedByte s.me x.sc x.d.toNat) ls' ∧
      StoredIn (accessBytes x.z.toNat) (storedByte s.me x.sc x.d.toNat) ls (Mem.read s.m.mem) (Mem.read t.m.mem) := by
  obtain ⟨-, hA, hh⟩ := goes_values (stReq_low x) hg
  obtain ⟨arest, amem, -, ablocks, -, -⟩ := admitted_acc1 hA
  obtain ⟨hblock, -⟩ := admitted_copies hA
  have hperm := orderLanes_perm m ls (memPlaces_nodup hp)
  obtain ⟨m2, hbody, hperf⟩ := storeBody_performed hz hh (by rw [hblock]; exact hhold) hp
  rw [show storedByte (m.warp s.cur) x.sc x.d.toNat = storedByte s.me x.sc x.d.toNat from admitted_storedByte hA ..] at hperf
  obtain ⟨t, ht, hacc, hrest, hmach, -, tv, ts, tp, tf, td, tgo, -⟩ := finish_sent (stReq_low x) hg hbody hperf.wrote.toAcc1
  have hsent : m.sent = s.m.sent := (congrArg Mach.sent arest :)
  refine ⟨t, orderLanes m ls, ht, hacc, (congrArg (fun y : Mach => { y with sent := [] }) hrest :), ?_, ?_, ?_, tp, tf, td,
    (stReq_facts x).2 ▸ tgo, hperm, ?_, ?_⟩
  · rw [hmach]; exact hperf.wrote.blocks.trans ablocks
  · exact tv.trans (hperf.v.trans (hA.keeps Warp.v fun _ _ _ => rfl))
  · exact ts.trans (hperf.s.trans (hA.keeps Warp.s fun _ _ _ => rfl))
  · rw [hmach, ← hsent]
    refine hperf.sent.trans ?_
    unfold Mach.messages
    rw [admitted_ownMessage hA]
  · rw [hmach, ← amem]; exact hperf.stored.perm hperm

/-- ST where its block holds its stores: what the pail took is in the order that `orderLanes` chose. -/
theorem st_holds {x : FM} {s : State} {m : Mach} {ms : List Nat} {ls : List (Nat × Loc)} (hz : x.z ≠ 7)
    (hg : Goes (stReq x) s m ms) (hblock : (Map.find? s.m.blocks s.me.block).isSome = true)
    (hhold : (s.m.blockOf s.cur).holding = true)
    (hp : memPlaces (stReq x) m s.cur x.g.toNat x.o.toNat x.h.toNat .st .write 1 (accessBytes x.z.toNat) = .ok ls)
    (hkind : ∀ e ∈ ls, e.2.kind = 1 ∨ e.2.kind = 3 ∨ e.2.kind = 9)
    (hroom : pailSectors (s.m.blockOf s.cur).pail + ls.length ≤ 1024) :
    ∃ t, exec (.st x) s = .next t ∧ Accessed s t ∧ t.m.storeRest = s.m.storeRest ∧ t.m.mem = s.m.mem ∧
      t.m.poison = s.m.poison ∧ t.me.v = s.me.v ∧ t.me.s = s.me.s ∧ t.me.p = s.me.p ∧ t.me.fflags = s.me.fflags ∧
      GoesOn s.me t.me 1 ∧ (∀ b, b ≠ s.me.block → Map.find? t.m.blocks b = Map.find? s.m.blocks b) ∧
      ∃ ls' : List (Nat × Loc), ls'.Perm ls ∧ t.m.blockOf t.cur = { s.m.blockOf s.cur with
        pail := (s.m.blockOf s.cur).pail ++
          ls'.map (heldStore (accessBytes x.z.toNat) (storedByte s.me x.sc x.d.toNat)) } := by
  obtain ⟨-, hA, hh⟩ := goes_values (stReq_low x) hg
  obtain ⟨-, amem, apoison, ablocks, -, -⟩ := admitted_acc1 hA
  obtain ⟨ablock, -⟩ := admitted_copies hA
  have hnum : (m.warp s.cur).block = s.me.block := hA.keeps Warp.block fun _ _ _ => rfl
  obtain ⟨m1, m2, hbody, hperm, hgrew, hwrote, hmem, hpoison, hv, hs⟩ := storeBody_held hz hh (by rw [ablocks, hnum]; exact hblock)
    (by rw [ablock]; exact hhold) hp hkind (by rw [ablock]; exact hroom)
  rw [show storedByte (m.warp s.cur) x.sc x.d.toNat = storedByte s.me x.sc x.d.toNat from admitted_storedByte hA ..] at hgrew
  obtain ⟨t, ht, hacc, hrest, hmach, -, tv, ts, tp, tf, -, tgo, -, -, tnum, -⟩ := finish (stReq_low x) hg hbody
    (hgrew.acc1.trans hwrote.toAcc1)
  have hkeeps : m1.mem = m.mem ∧ m1.poison = m.poison := by
    rw [hgrew.machine]
    exact ⟨rfl, rfl⟩
  have hblocks : t.m.blocks = m1.blocks := by rw [hmach]; exact hwrote.blocks
  refine ⟨t, ht, hacc, hrest, ?_, ?_, ?_, ?_, tp, tf, (stReq_facts x).2 ▸ tgo, fun b hb => ?_, orderLanes m ls, hperm, ?_⟩
  · rw [hmach]; exact hmem.trans (hkeeps.1.trans amem)
  · rw [hmach]; exact hpoison.trans (hkeeps.2.trans apoison)
  · rw [tv, hv, hgrew.warp]; exact hA.keeps Warp.v fun _ _ _ => rfl
  · rw [ts, hs, hgrew.warp]; exact hA.keeps Warp.s fun _ _ _ => rfl
  · rw [hblocks, hgrew.others b (hnum.symm ▸ hb), ablocks]
  · have hsame : t.m.blockOf t.cur = m1.blockOf s.cur := by
      unfold Mach.blockOf Mach.block
      rw [hblocks, show (t.m.warp t.cur).block = s.me.block from tnum, hgrew.warp, hnum]
    rw [hsame, hgrew.block, ablock]

/-- Settles O13: the two cases of R200, with what `StoredIn` says of a byte read out for the bytes that no lane and that some lane
touches. -/
theorem storeForms : Obligations.StoreForms := by
  refine ⟨fun x s m ms ls hz hg hhold hp => ?_, fun x s m ms ls hz hg hblock hhold hp hkind hroom =>
    st_holds hz hg hblock hhold hp hkind hroom⟩
  obtain ⟨t, ls', ht, hacc, hrest, hblocks, tv, ts, tp, tf, td, tgo, hperm, hsent, hstored⟩ := st_performs hz hg hhold hp
  refine ⟨t, ls', ht, hacc, hrest, hblocks, tv, ts, tp, tf, td, tgo, hperm, hsent,
    fun a ha => hstored.untouched a fun e he hr => ha e he hr.1 hr.2, fun a e he hself hto => ?_⟩
  obtain ⟨e', he', ⟨hself', hto'⟩, hnew⟩ := hstored.touched a ⟨e, he, hself, hto⟩
  exact ⟨e', he', hself', hto', hnew⟩

end Sys2Proof.Machine
end

section
/-!
PROOFS. Tiles and futures (11 R205, R207 to R210, R219 to R221).
-/

namespace Sys2Proof.Machine

/-- An instruction whose effect is to wait leaves a mark of what its warp waits for, and nothing else. -/
theorem issue_waits {q : Req} {s : State} {m : Mach} {ms : List Nat} (hg : Goes q s m ms)
    {body : Mach → List Nat → Except Stop Mach} {wt : Wait} (hb : body m ms = .error (.wait wt)) :
    issue q body s = .next { s with m := m.updWarp s.cur (fun w => { w with wait := some wt }) } :=
  issue_stops hg hb

/-! The tile table: TZERO, TFREE, ARRIVE and TMARK (R209, R210, R220, R221). -/

/-- What an instruction of the tile table does to one tile that it names. -/
def tabled (i : Instr) (f : Tile → Tile) (ms : List Nat) (m : Mach) (x : Nat × Nat) : Mach :=
  (if clears i then m.poke (tileKey x 0) (bytesOfNat 3072 0) else m).setTileOf ms x f

section
variable {m : Mach} {ms : List Nat} {xs : List (Nat × Nat)}

theorem changeTiles_ok {q : Req} {c : BitVec 6} (f : Mach → Nat × Nat → Mach) (hxs : tileRefs q m ms c.toNat = .ok xs)
    (hfree : ∀ x ∈ xs, (m.tileOf x).locked = false) : changeTiles q c f m ms = .ok (xs.foldl f m) := by
  unfold changeTiles
  simp only [hxs, waitChange_ok hfree, bind, Except.bind, pure, Except.pure]

theorem tmarkBody_ok {x : FSBC} {v : Word} (hv : headS m (tmarkReq x).sc ms x.b.toNat = v) (hok : markOk (.tmark x) v)
    (hxs : tileRefs (tmarkReq x) m ms x.c.toNat = .ok xs) (hfree : ∀ x ∈ xs, (m.tileOf x).locked = false) :
    tmarkBody x m ms =
      .ok (xs.foldl (fun m tr => m.setTileOf ms tr (fun t => { t with st := v.toNat % 4, phase := v.getLsbD 2 })) m) := by
  obtain ⟨hlow, hstate⟩ := hok
  have hhigh : bits v 31 3 = 0 := (bits_low v 3 (by decide)).2 hlow
  have hst : bits v 1 0 = v.toNat % 4 := by simp [bits]
  have hgood : ¬ (bits v 31 3 ≠ 0 ∨ (bits v 1 0 ≠ 0 ∧ bits v 1 0 ≠ 2)) := by omega
  unfold tmarkBody
  simp only [hxs, hv, waitChange_ok hfree, bind, Except.bind]
  rw [if_neg hgood, ← hst]
  exact changeTiles_ok _ hxs hfree

/-- The instructions of the tile table are of one word, and each changes every tile that it names. -/
theorem table_exec {i : Instr} {q : Req} {v : Word} {c : BitVec 6} {f : Tile → Tile} (hq : reqOf i = some q)
    (hi : tableForm i v = some (c, f)) : q.words = 1 ∧ ∃ body, exec i = issue q body ∧
      ∀ m ms xs, headS m q.sc ms (markField i) = v → markOk i v → tileRefs q m ms c.toNat = .ok xs →
        (∀ x ∈ xs, (m.tileOf x).locked = false) → body m ms = .ok (xs.foldl (tabled i f ms) m) := by
  cases i <;> cases hi
  case tzero x =>
    cases hq
    exact ⟨rfl, tzeroBody x, rfl, fun m ms xs _ _ hxs hfree => changeTiles_ok (q := tzeroReq x) _ hxs hfree⟩
  case tfree x =>
    cases hq
    exact ⟨rfl, tfreeBody x, rfl, fun m ms xs _ _ hxs hfree => changeTiles_ok (q := tfreeReq x) _ hxs hfree⟩
  case arrive x =>
    cases hq
    exact ⟨rfl, arriveBody x, rfl, fun m ms xs _ _ hxs hfree => changeTiles_ok (q := arriveReq x) _ hxs hfree⟩
  case tmark x =>
    cases hq
    exact ⟨rfl, tmarkBody x, rfl, fun m ms xs hv hok hxs hfree => tmarkBody_ok hv hok hxs hfree⟩

/-! TSTATE and AWAIT (R220, R221). -/

theorem tstateBody_ok {x : FSAC} (hxs : tileRefs (tstateReq x) m ms x.c.toNat = .ok xs) :
    tstateBody x m ms = .ok ((if x.sc.toNat = 2 then xs.filterMap (fun e => if e.1 ∈ ms then some (e.1, e) else none)
      else xs.map (fun e => (ms.headD 0, e))).foldl (fun m e =>
        (loadTile m [e.1] e.2).answer e.1 x.a.toNat ((m.tileOf e.2).st + 4 * (m.tileOf e.2).phase.toNat)) m) := by
  unfold tstateBody
  simp only [hxs, bind, Except.bind, pure, Except.pure]
  rfl

theorem awaited_iff {v : Word} {t : Tile} :
    awaited v t = true ↔ if v.getLsbD 1 = true then t.st = 0 else t.phase = v.getLsbD 0 := by
  unfold awaited
  split <;> exact beq_iff_eq

theorem awaitBody_eq {x : FSBC} (hxs : tileRefs (awaitReq x) m ms x.c.toNat = .ok xs)
    (hv : (headS m (awaitReq x).sc ms x.b.toNat).toNat < 4) : awaitBody x m ms =
      if xs.all (fun tr => awaited (headS m (awaitReq x).sc ms x.b.toNat) (m.tileOf tr)) = true then
        .ok (xs.foldl (fun m tr => loadTile m ms tr) m)
      else .error (.wait .tileState) := by
  have hhigh : bits (headS m (awaitReq x).sc ms x.b.toNat) 31 2 = 0 := (bits_low _ 2 (by decide)).2 hv
  unfold awaitBody
  simp only [hxs, hhigh, bind, Except.bind, pure, Except.pure]
  rfl

end

/-- Settles O28: the instructions of the table through `table_exec`; TSTATE by its body; AWAIT by whether every tile is as awaited. -/
theorem tileInstructions : Obligations.TileInstructions := by
  refine ⟨fun i c f q s m ms xs hq hi hg hn hxs hok hfree => ?table, fun x s m ms xs hg hn hxs => ?state,
    fun x s m ms xs hg hn hxs hv => ⟨fun hall => ?passes, fun hnot => ?waits⟩⟩
  case table =>
    obtain ⟨hwords, body, hexec, hbody⟩ := table_exec hq hi
    rw [hexec, ← hwords]
    exact issue_ends hg hn (hbody m ms xs rfl hok hxs hfree)
  case state => exact issue_ends hg hn (tstateBody_ok hxs)
  case passes =>
    exact issue_ends hg hn ((awaitBody_eq hxs hv).trans (if_pos (List.all_eq_true.2 fun tr htr => awaited_iff.2 (hall tr htr))))
  case waits =>
    exact issue_waits hg ((awaitBody_eq hxs hv).trans
      (if_neg fun h => hnot fun tr htr => awaited_iff.1 (List.all_eq_true.1 h tr htr)))

/-! FTEST, FCANCEL, FWAIT and CWAIT (R205, R207, R219). -/

section
variable {x : FAB} {m : Mach} {k : Nat}

theorem ftestBody_eq : ftestBody x m [k] = .ok (match futureNamed m k x.b.toNat with
    | none => m.answer k x.a.toNat 1
    | some e => if (m.futureOf e).status = none then m.answer k x.a.toNat 0
        else (seeFuture m k (m.futureOf e)).answer k x.a.toNat 1) := by
  unfold ftestBody
  dsimp only [List.headD_cons]
  cases futureNamed m k x.b.toNat with
  | none => rfl
  | some e =>
    dsimp only
    cases (m.futureOf e).status <;> rfl

theorem fcancelBody_eq : fcancelBody x m [k] = .ok (match futureNamed m k x.b.toNat with
    | none => m.answer k x.a.toNat 6
    | some e =>
      if (m.futureOf e).status.isSome then m.answer k x.a.toNat 0
      else if (m.op (m.futureOf e).op).started = true ∨ (m.op (m.futureOf e).op).ended.isSome ∨
          (m.op (m.futureOf e).op).cls = 3 then
        m.answer k x.a.toNat (if (m.op (m.futureOf e).op).ended = some 10 then 10 else 7)
      else ((m.updOp (m.futureOf e).op (fun o => { o with ended := some 10 })).count (m.ctxOf k) 38 1).answer k
        x.a.toNat 10) := by
  unfold fcancelBody
  dsimp only [List.headD_cons]
  cases futureNamed m k x.b.toNat with
  | none => rfl
  | some e =>
    dsimp only
    rw [apply_ite Except.ok, apply_ite Except.ok]

theorem fwaitBody_none (h : futureNamed m k x.b.toNat = none) : fwaitBody x m [k] = .ok (m.answer k x.a.toNat 6) := by
  unfold fwaitBody
  dsimp only [List.headD_cons]
  rw [h]

theorem fwaitBody_done {e : Nat × Nat} {st : Nat} (h : futureNamed m k x.b.toNat = some e) (hst : (m.futureOf e).status = some st) :
    fwaitBody x m [k] =
      .ok (((seeFuture m k (m.futureOf e)).updWarp k (fun w => consume w [x.b.toNat])).answer k x.a.toNat st) := by
  unfold fwaitBody
  dsimp only [List.headD_cons]
  rw [h]
  dsimp only
  rw [hst]

theorem fwaitBody_pending {e : Nat × Nat} (h : futureNamed m k x.b.toNat = some e) (hst : (m.futureOf e).status = none) :
    fwaitBody x m [k] = .error (.wait .future) := by
  unfold fwaitBody
  dsimp only [List.headD_cons]
  rw [h]
  dsimp only
  rw [hst]

end

theorem cwaitBody_eq (x : FSAB) (m : Mach) (ms : List Nat) : cwaitBody x m ms =
    if ∀ j ∈ ms, (m.warp j).counter x.a.toNat ≤ x.b.toNat then
      .ok (m.updWarps ms (fun _ w => { w with pts := max w.pts ((Map.find? w.opPts x.a.toNat).getD 0) }))
    else .error (.wait .cwait) := by
  unfold cwaitBody
  refine if_congr ?_ rfl rfl
  simp only [List.all_eq_true, decide_eq_true_eq]

/-- Settles O29: FTEST and FCANCEL by what their register names, FWAIT and CWAIT by whether they must wait. -/
theorem futures : Obligations.Futures := by
  refine ⟨fun x s m ms hg => ?test, fun x s m ms hg => ?cancel,
    fun x s m ms hg => ⟨fun hf => ?unnamed, fun e st hf hst => ?done, fun e hf hst => ?pending⟩,
    fun x s m ms hg hn => ⟨fun hlow => ?low, fun ⟨j, hj, hhigh⟩ => ?high⟩⟩
  case test => exact issue_ends1 (q := ftestReq x) Nat.one_lt_two hg ftestBody_eq
  case cancel => exact issue_ends1 (q := fcancelReq x) Nat.one_lt_two hg fcancelBody_eq
  case unnamed => exact issue_ends1 (q := fwaitReq x) Nat.one_lt_two hg (fwaitBody_none hf)
  case done => exact issue_ends1 (q := fwaitReq x) Nat.one_lt_two hg (fwaitBody_done hf hst)
  case pending =>
    obtain rfl := goes_alone (q := fwaitReq x) Nat.one_lt_two hg
    exact issue_waits (q := fwaitReq x) hg (fwaitBody_pending hf hst)
  case low => exact issue_ends (q := cwaitReq x) hg hn ((cwaitBody_eq x m ms).trans (if_pos hlow))
  case high =>
    exact issue_waits (q := cwaitReq x) hg
      ((cwaitBody_eq x m ms).trans (if_neg fun h => absurd (h j hj) (Nat.not_le.2 hhigh)))

end Sys2Proof.Machine

namespace Sys2Proof

/-- Settles O27: TLD and TST check and find the tile by one access, then load or store lane by lane. -/
theorem tileAccess : Obligations.TileAccess := ⟨Machine.tld_part, Machine.tst_part⟩

end Sys2Proof
end

section
/-!
PROOFS. Issue of the transfers to the copy engines and of the collectives to the collective engines (11 R202, R205 to R207, R210, R212,
R216 to R218).
-/

namespace Sys2Proof.Machine

section
variable {m : Mach} {ms : List Nat} {k bk : Nat} {f : FaultInfo} {xs : List (Nat × Nat)} {l : Layout} {e : HEntry} {regs : List Nat}
  {coords : List Int} {parts : List Part}
  (hk : ms.headD 0 = k) (hbk : (m.warp k).block = bk)

section
variable {x : FCOPY}
include hk hbk

/-- COPY issues its transfer where its operands pass the checks of R212 and nothing makes it wait. -/
theorem copyBody_ok (hf : m.fault k (copyReq x).sc .handle = f) (hregs : rangeFrom x.cr.toNat l.dims = regs)
    (hcoords : regs.map (fun r => (headS m (copyReq x).sc ms r).toInt) = coords) (hparts : plainParts (copyReq x).sc k xs = parts)
    (hxs : tileRefs (copyReq x) m ms x.tr.toNat = .ok xs) (hl : layoutOf m bk f x.lay.toNat = .ok l)
    (hlast : x.cr.toNat + l.dims - 1 ≤ 63) (he : layoutHandle m bk f l = .ok e)
    (hops : operands { copyReq x with vecs := [], srcs := regs } m (m.lead (copyReq x).sc k) = none)
    (hlines : ∀ r ∈ regs, keyLine ((m.warp (m.lead (copyReq x).sc k)).sKey r) ∈ (m.warp (m.lead (copyReq x).sc k)).lines)
    (hchecks : transferChecks (m.block bk) f l e (x.dir == 1) coords = .ok ())
    (hfit : tilesFit m (x.dir == 1) (parts.map (fun p => (p.owner, p.tile)))) (hstall : mustStall m 0 x.fu.toNat ms = none)
    (hroom : copyQueueFull m (m.blockOf k).core = false) :
    copyBody x m ms = .ok (issueOp { copyReq x with srcs := (copyReq x).srcs ++ regs } 0 x.fu.toNat (x.t == 1)
      (.xfer (x.dir == 1) (x.fl == 1) false l e coords parts) none
      (claimed m ms (x.dir == 1) (parts.map (fun p => (p.owner, p.tile)))) ms) := by
  have htouch := touchMore_resident (sc := (copyReq x).sc) (scalarUses_resident (o := true) hlines)
  subst hk hbk hf hregs hcoords hparts
  unfold copyBody
  simp only [hxs, hl, he, hops, htouch, hchecks, if_neg (Nat.not_lt.2 hlast), bind, Except.bind]
  exact issueTransfer_ok hfit hstall hroom

end

section
variable {i : Instr} {x : FGATH} {out : Bool}
include hk hbk

/-- GATH and SCAT issue theirs where the layout has two dimensions and the index registers hold an index for each row. -/
theorem gatherScatterBody_ok (hf : m.fault k (gatherScatterReq i x).sc .handle = f)
    (hregs : rangeFrom x.iv.toNat (cdiv l.rows 32) = regs)
    (hcoords : [(headS m (gatherScatterReq i x).sc ms x.c0.toNat).toInt] = coords)
    (hparts : (plainParts (gatherScatterReq i x).sc k xs).map
      (fun p => { p with idx := rowIndices (m.warp p.warp) x.iv.toNat l.rows }) = parts)
    (hxs : tileRefs (gatherScatterReq i x) m ms x.tr.toNat = .ok xs) (hl : layoutOf m bk f x.lay.toNat = .ok l)
    (hdims : l.dims = 2) (hwide : 32 < l.rows → x.iv.toNat % 2 = 0 ∧ x.iv.toNat + 1 ≤ 47 ∧ ∀ j ∈ ms, x.iv.toNat + 1 < (m.warp j).nv)
    (he : layoutHandle m bk f l = .ok e)
    (hops : ∀ j ∈ ms, operands { gatherScatterReq i x with vecs := regs, srcs := [] } m j = none ∧ ∀ r ∈ regs, r ∈ (m.warp j).lines)
    (hchecks : transferChecks (m.block bk) f l e out coords = .ok ()) (hfit : tilesFit m out (parts.map (fun p => (p.owner, p.tile))))
    (hstall : mustStall m 0 x.fu.toNat ms = none) (hroom : copyQueueFull m (m.blockOf k).core = false) :
    gatherScatterBody i x out m ms = .ok (issueOp (gatherScatterReq i x) 0 x.fu.toNat (x.t == 1)
      (.xfer out (x.fl == 1) true l e coords parts) none (claimed m ms out (parts.map (fun p => (p.owner, p.tile)))) ms) := by
  have hform : ¬ (l.dims ≠ 2 ∨ (32 < l.rows ∧ (x.iv.toNat % 2 = 1 ∨ 47 < x.iv.toNat + 1))) := by
    rintro (h | ⟨hrows, h⟩)
    · exact h hdims
    · obtain ⟨heven, hlast, -⟩ := hwide hrows
      omega
  have hhave : ¬ (32 < l.rows ∧ ms.any (fun j => decide ((m.warp j).nv ≤ x.iv.toNat + 1)) = true) := by
    rintro ⟨hrows, h⟩
    obtain ⟨-, -, hall⟩ := hwide hrows
    obtain ⟨j, hj, hfew⟩ := List.any_eq_true.1 h
    exact absurd (hall j hj) (Nat.not_lt.2 (of_decide_eq_true hfew))
  have hnone : ms.findSome? (operands { gatherScatterReq i x with vecs := regs, srcs := [] } m) = none :=
    List.findSome?_eq_none_iff.2 fun j hj => (hops j hj).1
  have htouch : touchMore (gatherScatterReq i x).sc m (ms.flatMap (fun j => vectorUses j regs)) = .ok m := by
    refine touchMore_resident fun u hu => ?_
    obtain ⟨j, hj, hu⟩ := List.mem_flatMap.1 hu
    exact vectorUses_resident (hops j hj).2 u hu
  subst hk hbk hf hregs hcoords
  unfold gatherScatterBody
  simp only [hxs, hl, he, hnone, htouch, hchecks, hparts, if_neg hform, if_neg hhave, bind, Except.bind]
  exact issueTransfer_ok hfit hstall hroom

end

end

theorem rowForm_exec {i : Instr} {x : FGATH} {out : Bool} (h : rowForm i = some (x, out)) :
    exec i = issueTo (gatherScatterReq i x) (gatherScatterBody i x out) := by
  unfold rowForm at h
  split at h <;> cases h <;> rfl

/-- Settles O30: a transfer that passes its checks is issued from the machine in which its tiles are claimed. -/
theorem transferIssue : Obligations.TransferIssue := by
  refine ⟨fun x s m ms xs l e hg hn => ?copy, fun i x out s m ms xs l e hi hg hn => ?rows⟩
  case copy =>
    intro k bk f lead regs coords parts hxs hl hregs he hops hlines hchecks hfit hstall hroom
    have hbody := copyBody_ok rfl rfl rfl rfl rfl rfl hxs hl hregs he hops hlines hchecks hfit hstall hroom
    refine issued_congr ?_ ?_ (issued_of hg hn hbody) <;> rfl
  case rows =>
    intro k bk f regs coords parts hxs hl hdims hwide he hops hchecks hfit hstall hroom
    rw [rowForm_exec hi]
    exact issued_of hg hn (gatherScatterBody_ok rfl rfl rfl rfl rfl rfl hxs hl hdims hwide he hops hchecks hfit hstall hroom)

/-- The machine from which a COLL of a rank is issued: its block's stores are committed, the rank's COLLs on the group are one more,
and a COLL of no elements is noted (11 R218). -/
def collNoted (x : FCOLL) (rank count : Nat) (m : Mach) (k : Nat) : Mach :=
  let m1 := commit m k
  let c := (m.blockOf k).ctx
  let key := 256 * x.grp.toNat + rank
  let ord := (Map.find? (m1.ctx c).colls key).getD 0
  (m1.updCtx c (fun y => { y with
    colls := Map.ins y.colls key (ord + 1)
    zeros := if count = 0 then ((x.grp.toNat, ord, rank), (x.kind.toNat, x.red.toNat, x.fmt.toNat)) :: y.zeros
      else y.zeros })).count c 34 1

theorem collBody_ok {x : FCOLL} {m : Mach} {ms : List Nat} {g : GroupEntry} {e : HEntry} {k rank h off count : Nat}
    (hk : ms.headD 0 = k) (hrank : (headS m (collReq x).sc ms x.rb.toNat).toNat = rank)
    (hh : (headS m (collReq x).sc ms (x.rb.toNat + 1)).toNat = h) (hoff : (headS m (collReq x).sc ms (x.rb.toNat + 2)).toNat = off)
    (hcount : (headS m (collReq x).sc ms (x.rb.toNat + 3)).toNat = count)
    (hg : groupOf m (m.warp k).block (m.fault k (collReq x).sc .handle) x.grp.toNat = .ok (some g)) (hlt : rank < g.ranks)
    (he : bulkHandle m (m.warp k).block (m.fault k (collReq x).sc .handle) h = .ok e)
    (hchecks : bufferChecks (m.block (m.warp k).block) (m.fault k (collReq x).sc .handle) h off
      (collBytes x.kind.toNat x.fmt.toNat g.ranks count) (collSize x.fmt.toNat) 3 e = .ok ())
    (hstall : mustStall m 1 x.fu.toNat ms = none) (hroom : collQueueFull m (m.block (m.warp k).block).core = false) :
    collBody x m ms = .ok (issueOp (collReq x) 1 x.fu.toNat (x.t == 1)
      (.coll x.kind.toNat x.red.toNat x.fmt.toNat x.grp.toNat rank g.ranks
        ((Map.find? ((commit m k).ctx (m.blockOf k).ctx).colls (256 * x.grp.toNat + rank)).getD 0) count h off e)
      (if count = 0 then some 0 else none) (collNoted x rank count m k) ms) := by
  subst hk hrank hh hoff hcount
  unfold collBody
  simp only [hg, he, hchecks, hstall, hroom, if_neg (Nat.not_le.2 hlt), Bool.false_eq_true, if_false, bind, Except.bind, pure, Except.pure]
  rfl

/-- Settles O31: a COLL that passes its checks is issued from the machine in which it is noted. -/
theorem collectiveIssue : Obligations.CollectiveIssue := by
  intro x s m ms g e hgo hn k b f rank h off count hg hlt he hchecks hstall hroom m1 key ord
  exact issued_of hgo hn (collBody_ok rfl rfl rfl rfl rfl hg hlt he hchecks hstall hroom)

end Sys2Proof.Machine
end

section
/-!
PROOFS. Events of the engines (11 R202 to R207, R218; 12 R224, R229, R235). Engines move data at one instant (log 6).
-/

namespace Sys2Proof.Machine

/-! Start and completion (R202 to R204). -/

section
variable {s : State} {op : Nat} {o : Op} (ho : Map.find? s.m.ops op = some o)
include ho

theorem engineOpStart_event : exec (.engineOpStart op) s = event s (if o.canStart s.m op = true then some (startOp s.m op o) else none) := by
  refine congrArg (event s) ?_
  rw [ho]

theorem engineOpComplete_event : exec (.engineOpComplete op) s = event s
    (o.ended.bind fun st => if o.behind s.m op = true then none else some (completeOp s.m op o st)) := by
  refine congrArg (event s) ?_
  rw [ho]
  dsimp only
  cases o.ended <;> rfl

end

section
variable {m : Mach} {id : Nat} {o : Op}

/-- A COLL only begins to exchange data when it starts. -/
theorem startOp_begins (hcls : o.cls = 1) : startOp m id o = m.updOp id (fun o => { o with started := true }) := by
  have hcopy : ¬ (o.cls = 0 ∧ o.queued = true) := fun h => by omega
  unfold startOp
  rw [if_neg hcopy, if_pos hcls]

/-- Any other operation performs its accesses when it starts. -/
theorem startOp_performs {m' : Mach} {pts counter n : Nat} (hcls : o.cls ≠ 1)
    (heff : copyEffect (portServed m o) id o = .ok (m', pts, counter, n)) : startOp m id o =
      (m'.updOp id (fun o => { o with started := true, ended := some 0, pts := pts })).count o.ctx counter n := by
  unfold portServed at heff
  unfold startOp
  simp only [if_neg hcls, heff]

theorem startOp_fails {e : EngFail} (hcls : o.cls ≠ 1) (heff : copyEffect (portServed m o) id o = .error e) :
    startOp m id o = opFails (portServed m o) id o e := by
  unfold portServed at heff ⊢
  unfold startOp
  simp only [if_neg hcls, heff]

end

/-! What a completion leaves in an issuing warp (R205 to R207). -/

theorem settleWarp_counter (o : Op) (st : Nat) (w : Warp) (entry : Option Nat) :
    (settleWarp o st w entry).counter o.cls = w.counter o.cls - 1 := by
  have hcnt : (settleWarp o st w entry).cnt = Map.ins w.cnt o.cls (w.counter o.cls - 1) := by
    unfold settleWarp
    dsimp only
    split
    · rfl
    · split <;> rfl
  unfold Warp.counter
  rw [hcnt, Map.find?_ins_self]
  rfl

theorem settleWarp_future {o : Op} {st : Nat} {w : Warp} {e r : Nat} {f : Fut} (hf : Map.find? w.futs e = some f) (hr : f.reg = some r) :
    Map.get (settleWarp o st w (some e)).s r = BitVec.ofNat 32 st ∧
      Map.find? (settleWarp o st w (some e)).futs e = some { f with status := some st, pts := o.pts } := by
  have hsettled : settleWarp o st w (some e) = { w.setCounter o.cls (w.counter o.cls - 1) with
      opPts := Map.ins w.opPts o.cls (max ((Map.find? w.opPts o.cls).getD 0) o.pts)
      futs := Map.ins w.futs e { f with status := some st, pts := o.pts }
      s := Map.set w.s r (BitVec.ofNat 32 st) } := by
    unfold settleWarp Warp.setCounter
    simp only [Option.bind_some, hf, Option.map_some, hr]
  rw [hsettled]
  exact ⟨Map.get_set_self .., Map.find?_ins_self ..⟩

/-! Collectives (R217, R218). -/

theorem collComplete_event (ctx grp seq : Nat) (remote : List RankPart) (s : State) : exec (.collComplete ctx grp seq remote) s =
    let es := paired s.m ctx grp seq
    let whats := collWhats es (zerosOf s.m ctx grp seq) remote
    event s (if (!collReady es ((zerosOf s.m ctx grp seq).map (·.1)) remote) = true then none
      else if whats.any (fun w => w != whats.headD (0, 0, 0, 0)) = true then
        some (completeAll ((es.map (·.1)).foldl (fun m id => m.updOp id (fun o => { o with ended := some 1 })) s.m) (es.map (·.1)))
      else match exchange s.m es remote with
        | .error (id, o, f) => some (completeAll (opFails s.m id o f) (es.map (·.1)))
        | .ok m => some (completeAll m (es.map (·.1)))) := rfl

theorem any_differs_iff {α : Type} [BEq α] [LawfulBEq α] {l : List α} {a : α} : l.any (fun x => x != a) = true ↔ ¬ ∀ x ∈ l, x = a := by
  simp

/-- A timeout is due where a rank is elsewhere (log 36), or where the group has a timeout and a rank has not arrived. -/
theorem collTimeout_ends {ctx grp seq : Nat} {s : State} {id : Nat} {o : Op} {es : List (Nat × Op)} {g : GroupEntry}
    (hes : paired s.m ctx grp seq = (id, o) :: es) (hg : groupOf s.m o.block default grp = .ok (some g))
    (hdue : g.remote = true ∨ (g.timeout ≠ 0 ∧ es.length + 1 + (zerosOf s.m ctx grp seq).length < g.ranks)) :
    Does (.collTimeout ctx grp seq) s (completeAll ((id :: es.map (·.1)).foldl (fun m id =>
      m.updOp id (fun o => { o with ended := some 11, held := none })) s.m) (id :: es.map (·.1))) := by
  have hgo : ¬ ((!g.remote) = true ∧ (g.timeout = 0 ∨ g.ranks ≤ ((id, o) :: es).length + (zerosOf s.m ctx grp seq).length)) := by
    rw [List.length_cons]
    rintro ⟨hhere, hwait⟩
    rcases hdue with h | ⟨htime, hmissing⟩
    · rw [h] at hhere; cases hhere
    · omega
  refine ev_does rfl ?_
  dsimp only
  rw [hes]
  dsimp only
  rw [hg]
  exact if_neg hgo

/-- Settles O41, event by event: what each does is the branch that its conditions select. -/
theorem engineEvents : Obligations.EngineEvents := by
  refine ⟨fun op s o ho => ?start, fun op s o ho => ?complete, fun o st w entry => ?settled, fun ctx grp seq remote s => ?exchanged,
    fun ctx grp seq s id o es g hes hg hdue => collTimeout_ends hes hg hdue, fun op s o ho => ?matrix⟩
  case start =>
    have hev := engineOpStart_event ho
    exact ⟨fun h => ev_not hev (if_neg (by rw [h]; decide)),
      fun h hcls => ev_does hev ((if_pos h).trans (congrArg some (startOp_begins hcls))),
      fun m pts counter n h hcls heff => ev_does hev ((if_pos h).trans (congrArg some (startOp_performs hcls heff))),
      fun e h hcls heff => ev_does hev ((if_pos h).trans (congrArg some (startOp_fails hcls heff)))⟩
  case complete =>
    have hev := engineOpComplete_event ho
    refine ⟨fun h => ev_not hev ?_, fun st hst hfirst => ev_does hev ?_⟩
    · cases hst : o.ended with
      | none => rfl
      | some st => exact if_pos (h.resolve_left (by rw [hst]; nofun))
    · rw [hst]
      exact if_neg (by rw [hfirst]; decide)
  case settled =>
    refine ⟨settleWarp_counter o st w entry, fun e f r he hf hr => ?_⟩
    rw [he]
    exact settleWarp_future hf hr
  case exchanged =>
    intro es zs ids all agree
    have hev := collComplete_event ctx grp seq remote s
    have hready : all = true → ¬ (!all) = true := fun h => by rw [h]; decide
    have hagree : agree → ¬ (collWhats es zs remote).any (fun w => w != (collWhats es zs remote).headD (0, 0, 0, 0)) = true :=
      fun h hc => any_differs_iff.1 hc h
    refine ⟨fun h => ev_not hev (if_pos (Bool.not_eq_true' _ ▸ h)),
      fun h hdiffer => ev_does hev ((if_neg (hready h)).trans (if_pos (any_differs_iff.2 hdiffer))),
      fun m h hsame hex => ev_does hev ((if_neg (hready h)).trans ((if_neg (hagree hsame)).trans ?_)),
      fun id o f h hsame hex => ev_does hev ((if_neg (hready h)).trans ((if_neg (hagree hsame)).trans ?_))⟩
    · rw [hex]
    · rw [hex]
  case matrix =>
    refine ⟨fun h => ev_not rfl (by simp only [ho, if_pos h]), fun hcls hheld hfirst => ?_⟩
    have hdue : ¬ (o.cls ≠ 2 ∨ o.held.isSome = true ∨ o.behind s.m op = true) := by
      rw [hheld, hfirst]
      simp [hcls]
    exact ⟨fun st hst => ev_does rfl (by simp only [ho, if_neg hdue, hst]),
      fun m unit hst hcheck => ev_does rfl (by simp only [ho, if_neg hdue, hst, hcheck]),
      fun m m2 pts hst hcheck heff => ev_does rfl (by simp only [ho, if_neg hdue, hst, hcheck, heff]),
      fun m off hst hcheck heff => ev_does rfl (by simp only [ho, if_neg hdue, hst, hcheck, heff]),
      fun m va size off hst hcheck heff => ev_does rfl (by simp only [ho, if_neg hdue, hst, hcheck, heff])⟩

end Sys2Proof.Machine
end

section
/-!
PROOFS. The vat forms (14 R241 to R249, R252, R253, R257, R258).
-/

namespace Sys2Proof.Machine

/-! Names (R241, R257). -/

/-- What a vat form comes to that looks its name up in the directory: mt is the machine of a refusal in trap mode, mo that of another,
r what the directory holds, and `on` what the form does with a vat of its own world. -/
def byName (q : Req) (m : Mach) (ms : List Nat) (a bf : Nat) (zs : List Nat) (mt mo : Mach) (r : Option (Nat × Vat))
    (on : Nat → Vat → Except Stop Mach) : Except Stop Mach :=
  let k := ms.headD 0
  let name := headPair m q.sc ms bf
  if (m.warp k).trap.isSome then .ok (vatAnswer mt ms a (8 :: zs))
  else if name = 0 then .error (vatFault q m k)
  else match r with
    | none => .ok (vatEnds mo ms name a (6 :: zs) false)
    | some (id, v) =>
      if v.world ≠ (m.block (m.warp k).block).world then .ok (vatEnds mo ms name a (8 :: zs) false) else on id v

/-- What VDROP does with a vat of its world (R246). -/
def vdropOn (x : FVAB) (m : Mach) (ms : List Nat) (id : Nat) (v : Vat) : Except Stop Mach :=
  let k := ms.headD 0
  let bk := (m.warp k).block
  let name := headPair m (vdropReq x).sc ms x.b.toNat
  if v.st < 2 ∧ v.writer ≠ some bk then .ok (vatEnds (commit m k) ms name x.a.toNat [8] false)
  else if v.st < 2 ∧ ∃ y ∈ v.opens, y ≠ bk then .ok (vatEnds (commit m k) ms name x.a.toNat [7] false)
  else if v.st < 2 ∧ v.acc = true ∧ vatBusy m id = true then .error (.wait .matrix)
  else .ok (vatEnds (removeVat (commit m k) id) ms name x.a.toNat [0] true)

/-- What VQUERY does with one: it answers the vat's words (R258). -/
def vqueryOn (x : FVAB) (m : Mach) (ms : List Nat) (v : Vat) : Except Stop Mach :=
  .ok (vatEnds m ms (headPair m (vqueryReq x).sc ms x.b.toNat) x.a.toNat (queryWords v) false)

/-- The machine once VDUP has made a replica of a vat on a core from its copy at home (R252). -/
def duplicated (m : Mach) (c id : Nat) (v : Vat) (core home : Nat) : Mach :=
  let m1 := vatClocks m c
  ((markedWrite m1 (vatBase id core) (vatContent m1 id v home)).updVat id (fun v =>
    { v with replicas := v.replicas ++ [core], slots := Map.ins v.slots core ((freeSlot m1 core).getD 0) })).count c 53 v.imageBytes

/-- What VDUP comes to for a local vat on its cores that has no writer (R252): the team it names, and a core of that team. -/
def vdupCopies (x : FVABC) (p : Plat) (m : Mach) (ms : List Nat) (id : Nat) (v : Vat) : Except Stop Mach :=
  let k := ms.headD 0
  let c := (m.blockOf k).ctx
  let name := headPair m (vdupReq x).sc ms x.b.toNat
  let t := (headS m (vdupReq x).sc ms x.c.toNat).toNat
  let ends (st : Nat) : Except Stop Mach := .ok (vatEnds (commit m k) ms name x.a.toNat [st, 0] false)
  if t ≠ 0xFF ∧ (m.ctx c).hasTeam t = false then ends 8
  else if t ≠ 0xFF ∧ v.teams.contains t = true then ends 1
  else match (if v.replicas.length < 3 then dupCore m p.isFenced v t else none), v.primary with
    | some core, some home => .ok (vatEnds (duplicated (commit m k) c id v core home) ms name x.a.toNat [0, core] true)
    | _, _ => ends 9

/-- What VDUP does with a vat of its world. -/
def vdupOn (x : FVABC) (p : Plat) (m : Mach) (ms : List Nat) (id : Nat) (v : Vat) : Except Stop Mach :=
  let ends (st : Nat) : Except Stop Mach :=
    .ok (vatEnds (commit m (ms.headD 0)) ms (headPair m (vdupReq x).sc ms x.b.toNat) x.a.toNat [st, 0] false)
  if v.acc = true then ends 1
  else if v.st = 1 then .error (.wait .vatMoving)
  else if v.st = 3 then ends 3
  else if v.st = 2 then ends 1
  else if v.writer.isSome = true then ends 7
  else vdupCopies x p m ms id v

section
variable {m : Mach} {ms : List Nat}

theorem vdropBody_eq (x : FVAB) : vdropBody x m ms = byName (vdropReq x) m ms x.a.toNat x.b.toNat [] (commit m (ms.headD 0))
    (commit m (ms.headD 0)) (m.vatNamed (m.blockOf (ms.headD 0)).ctx (headPair m (vdropReq x).sc ms x.b.toNat)) (vdropOn x m ms) := by
  have hopen : ∀ (v : Vat) (bk : Nat), (v.opens.any (fun y => y != bk) = true) = ∃ y ∈ v.opens, y ≠ bk := fun v bk => by simp
  unfold vdropBody byName vdropOn
  simp only [hopen]
  rfl

theorem vqueryBody_eq (x : FVAB) : vqueryBody x m ms = byName (vqueryReq x) m ms x.a.toNat x.b.toNat [0, 0, 0] m m
    (m.vatNamed (m.blockOf (ms.headD 0)).ctx (headPair m (vqueryReq x).sc ms x.b.toNat)) (fun _ v => vqueryOn x m ms v) := by
  unfold vqueryBody byName vqueryOn
  dsimp only
  generalize m.vatNamed (m.blockOf (ms.headD 0)).ctx (headPair m (vqueryReq x).sc ms x.b.toNat) = r
  rcases r with _ | ⟨id, v⟩
  · rfl
  · dsimp only
    rw [ite_not, ← apply_ite (fun xs => Except.ok (vatEnds m ms _ x.a.toNat xs false))]
    rfl

theorem vdupBody_eq {x : FVABC} (p : Plat) {t : Nat} (ht : (headS m (vdupReq x).sc ms x.c.toNat).toNat = t) (hok : t < 32 ∨ t = 0xFF) :
    vdupBody x p m ms = byName (vdupReq x) m ms x.a.toNat x.b.toNat [0] (commit m (ms.headD 0)) (commit m (ms.headD 0))
      (m.vatNamed (m.blockOf (ms.headD 0)).ctx (headPair m (vdupReq x).sc ms x.b.toNat)) (vdupOn x p m ms) := by
  have hzero : ∀ name : Nat, (name = 0 ∨ 31 < t ∧ t ≠ 0xFF) = (name = 0) := fun name => propext (by omega)
  unfold vdupBody byName vdupOn vdupCopies
  simp only [ht, hzero, Bool.not_eq_true']
  rfl

/-- VDUP faults on a team that is none (R257). -/
theorem vdupBody_faults {x : FVABC} (p : Plat) {t : Nat} (ht : (headS m (vdupReq x).sc ms x.c.toNat).toNat = t) (hbad : ¬ (t < 32 ∨ t = 0xFF))
    (htrap : (m.warp (ms.headD 0)).trap = none) : vdupBody x p m ms = .error (vatFault (vdupReq x) m (ms.headD 0)) := by
  have hteam : 31 < t ∧ t ≠ 0xFF := by omega
  unfold vdupBody
  simp only [ht, htrap, Option.isSome_none, Bool.false_eq_true, if_false, if_pos (Or.inr hteam)]
  rfl

end

section
variable {i : Instr} {q : Req} {s : State} {m mt mo : Mach} {ms : List Nat} {a bf : Nat} {zs : List Nat} {r : Option (Nat × Vat)}
  {on : Nat → Vat → Except Stop Mach} {body : Mach → List Nat → Except Stop Mach}

/-- A form that looks its name up is refused as R257 says, whatever else it does. -/
theorem byName_names (hg : Goes q s m ms) (hn : ms.Nodup) (hq : q.words = 1) (he : exec i s = issue q body s)
    (hb : body m ms = byName q m ms a bf zs mt mo r on) : VatNames i q s m ms a bf zs mt mo r := by
  unfold byName at hb
  refine ⟨fun htrap => err_answers hg hn hq he (hb.trans (if_pos htrap)), fun htrap hzero => err_faults hg he ?zero,
    fun htrap hname hr => vat_ends hg hn hq he ?absent, fun id v htrap hname hr hworld => vat_ends hg hn hq he ?foreign⟩
  all_goals
    rw [hb]
    dsimp only
    rw [htrap, Option.isSome_none, if_neg Bool.false_ne_true]
  case zero => exact if_pos hzero
  case absent => rw [if_neg hname, hr]
  case foreign =>
    rw [if_neg hname, hr]
    exact if_pos hworld

/-- A vat of its world is the form's own matter. -/
theorem byName_found {id : Nat} {v : Vat} (hb : body m ms = byName q m ms a bf zs mt mo r on)
    (htrap : (m.warp (ms.headD 0)).trap = none) (hname : headPair m q.sc ms bf ≠ 0) (hr : r = some (id, v))
    (hworld : v.world = (m.blockOf (ms.headD 0)).world) : body m ms = on id v := by
  rw [hb]
  unfold byName
  dsimp only
  rw [htrap, Option.isSome_none, if_neg Bool.false_ne_true, if_neg hname, hr]
  exact if_neg (not_not.2 hworld)

end

/-! VOPEN (R244, R245, R247, R253). -/

/-- What VOPEN comes to for a vat that is whole (R244, R245, R253): it wants a handle, a free window, and room for a vat that it must
bring in. -/
def vopenWhole (q : Req) (mode : Nat) (m : Mach) (k id : Nat) (v : Vat) : Except Stop Opened :=
  let w := m.warp k
  let b := m.block w.block
  let none' (c : Nat) : Except Stop Opened := .ok (.done m [c, 0])
  if b.vatHandle id = none ∧ freeVatHandle b = none then none' 1
  else if v.acc = true ∧ ∃ e ∈ m.warpsOf w.block, e.1 ≠ k ∧ e.2.vatMap = some id then none' 7
  else if v.acc = true ∧ ∃ y, w.vatMap = some y ∧ y ≠ id then none' 1
  else if v.acc = true ∧ 1024 < w.na + 4 * v.size then none' 9
  else if v.st = 2 then match freeSlot m b.core with
    | none => none' 9
    | some slot =>
      if vatRoom m b.core v.acc v.size = false then none' 9
      else (fillHere m w.block (m.fault k q.sc .handle) id v b.core slot).map (fun m2 => opening m2 k id mode)
  else .ok (opening m k id mode)

/-- What VOPEN comes to for a vat of its world, which may be lost or moving. -/
def vopenOn (q : Req) (mode : Nat) (m : Mach) (k id : Nat) (v : Vat) : Except Stop Opened :=
  if v.acc = true ∧ (mode = 0 ∨ q.sc = 3) then .error (vatFault q m k)
  else if v.st = 3 then .ok (.done m [3, 0])
  else if v.st = 1 then .error (.wait .vatMoving)
  else vopenWhole q mode m k id v

section
variable {q : Req} {mode name : Nat} {m : Mach} {k id : Nat} {v : Vat}

theorem vopen_zero : vopen q mode 0 m k = .error (vatFault q m k) := rfl

theorem vopen_absent (hname : name ≠ 0) (hr : sought m k name = none) : vopen q mode name m k = .ok (.done m [6, 0]) := by
  unfold vopen
  simp only [if_neg hname, sought_eq, hr]
  rfl

theorem vopen_foreign (hname : name ≠ 0) (hr : sought m k name = some (id, v)) (hworld : v.world ≠ (m.blockOf k).world) :
    vopen q mode name m k = .ok (.done m [8, 0]) := by
  unfold vopen
  simp only [if_neg hname, sought_eq, hr]
  exact if_pos hworld

theorem vopen_found (hname : name ≠ 0) (hr : sought m k name = some (id, v)) (hworld : v.world = (m.blockOf k).world) :
    vopen q mode name m k = vopenOn q mode m k id v := by
  have hother : ((m.warpsOf (m.warp k).block).any (fun e => e.1 != k && e.2.vatMap == some id) = true) =
      ∃ e ∈ m.warpsOf (m.warp k).block, e.1 ≠ k ∧ e.2.vatMap = some id := by simp
  have hmapped : ((m.warp k).vatMap.any (fun y => y != id) = true) = ∃ y, (m.warp k).vatMap = some y ∧ y ≠ id := by
    cases (m.warp k).vatMap <;> simp
  unfold vopen vopenOn vopenWhole
  simp only [if_neg hname, sought_eq, hr, hother, hmapped, vopenHere_eq, Option.isNone_iff_eq_none, Bool.not_eq_true']
  exact (if_neg (not_not.2 hworld)).trans rfl
end

theorem vopenBody_stops {x : FVABC} {m : Mach} {ms : List Nat} {st : Stop} (htrap : (m.warp (ms.headD 0)).trap = none)
    (ho : vopen (vopenReq x) x.c.toNat (headPair m (vopenReq x).sc ms x.b.toNat) m (ms.headD 0) = .error st) :
    vopenBody x m ms = .error st := by
  unfold vopenBody
  simp only [htrap, ho, Option.isSome_none, Bool.false_eq_true, if_false]
  rfl

theorem vopen_names {x : FVABC} {s : State} {m : Mach} {ms : List Nat} (hg : Goes (vopenReq x) s m ms) (hn : ms.Nodup) :
    VatNames (.vopen x) (vopenReq x) s m ms x.a.toNat x.b.toNat [0] m (opened m ms m)
      (sought m (ms.headD 0) (headPair m (vopenReq x).sc ms x.b.toNat)) := by
  refine ⟨fun htrap => to_answers hg hn (if_pos htrap), fun htrap hzero => vopen_stops hg (vopenBody_stops htrap ?zero),
    fun htrap hname hr => opens_to hg hn htrap (vopen_absent hname hr),
    fun id v htrap hname hr hworld => opens_to hg hn htrap (vopen_foreign hname hr hworld)⟩
  rw [hzero]
  exact vopen_zero

section
variable {q : Req} {mode : Nat} {m : Mach} {k id : Nat} {v : Vat}

/-- A whole vat that VOPEN may open opens where this core holds it, and a saved one is brought in first. -/
theorem vopenWhole_opens (hfull : ¬ ((m.block (m.warp k).block).vatHandle id = none ∧ freeVatHandle (m.block (m.warp k).block) = none))
    (hother : ¬ (v.acc = true ∧ ∃ e ∈ m.warpsOf (m.warp k).block, e.1 ≠ k ∧ e.2.vatMap = some id))
    (hmapped : ¬ (v.acc = true ∧ ∃ y, (m.warp k).vatMap = some y ∧ y ≠ id)) (hwide : ¬ (v.acc = true ∧ 1024 < (m.warp k).na + 4 * v.size)) :
    (v.st ≠ 2 → vopenWhole q mode m k id v = .ok (opening m k id mode)) ∧
    (v.st = 2 → (freeSlot m (m.block (m.warp k).block).core = none ∨ vatRoom m (m.block (m.warp k).block).core v.acc v.size = false) →
      vopenWhole q mode m k id v = .ok (.done m [9, 0])) ∧
    (v.st = 2 → vatRoom m (m.block (m.warp k).block).core v.acc v.size = true → ∀ slot m2,
      freeSlot m (m.block (m.warp k).block).core = some slot →
      fillHere m (m.warp k).block (m.fault k q.sc .handle) id v (m.block (m.warp k).block).core slot = .ok m2 →
      vopenWhole q mode m k id v = .ok (opening m2 k id mode)) := by
  unfold vopenWhole
  simp only [if_neg hfull, if_neg hother, if_neg hmapped, if_neg hwide]
  refine ⟨fun hst => if_neg hst, fun hst hroom => (if_pos hst).trans ?_, fun hst hroom slot m2 hslot hfill => (if_pos hst).trans ?_⟩
  · cases hslot : freeSlot m (m.block (m.warp k).block).core with
    | none => rfl
    | some slot => exact if_pos (hroom.resolve_left (by rw [hslot]; nofun))
  · rw [hslot]
    dsimp only
    rw [if_neg (by rw [hroom]; decide), hfill]
    rfl

end

/-- Settles O16: three forms look their names up in one way, and VOPEN in its own; a vat of its world opens as `vopenOn` says. -/
theorem vatNamesAndOpening : Obligations.VatNamesAndOpening := by
  refine ⟨⟨fun x s m ms hg hn => vopen_names hg hn, fun x s m ms hg hn => byName_names hg hn rfl rfl (vdropBody_eq x),
    fun x s m ms hg hn => ⟨byName_names hg hn rfl rfl (vqueryBody_eq x), fun id v htrap hname hr hworld => ?query⟩,
    fun x s m ms hg hn => ⟨fun ht => byName_names hg hn rfl rfl (vdupBody_eq s.p rfl ht),
      fun ht htrap => err_faults hg rfl (vdupBody_faults s.p rfl ht htrap)⟩⟩, ?opening⟩
  case query => exact vat_ends (q := vqueryReq x) hg hn rfl rfl (byName_found (vqueryBody_eq x) htrap hname hr hworld)
  case opening =>
    intro x s m ms id v hg hn sc k w b name none' htrap hname hr hworld
    have hopens : ∀ {o}, vopenOn (vopenReq x) x.c.toNat m k id v = .ok o → OpensTo x s m ms o := fun ho =>
      opens_to hg hn htrap ((vopen_found hname hr hworld).trans ho)
    have hstops : ∀ {st}, vopenOn (vopenReq x) x.c.toNat m k id v = .error st →
        exec (.vopen x) s = .next { s with m := deliver m s.cur (widen (vopenReq x).sc st) } := fun ho =>
      vopen_stops hg (vopenBody_stops htrap ((vopen_found hname hr hworld).trans ho))
    refine ⟨fun hbad => hstops (if_pos hbad), fun hgood => ⟨fun h3 => hopens ((if_neg hgood).trans (if_pos h3)),
      fun h1 => hstops ((if_neg hgood).trans ((if_neg (by omega)).trans (if_pos h1))), fun h3 h1 => ?whole⟩⟩
    have hwhole : ∀ {o}, vopenWhole (vopenReq x) x.c.toNat m k id v = .ok o → OpensTo x s m ms o := fun ho =>
      hopens ((if_neg hgood).trans ((if_neg h3).trans ((if_neg h1).trans ho)))
    intro full other mapped wide
    refine ⟨fun h => hwhole (if_pos h), fun hf h => hwhole ((if_neg hf).trans (if_pos h)),
      fun hf ho h => hwhole ((if_neg hf).trans ((if_neg ho).trans (if_pos h))),
      fun hf ho hm h => hwhole ((if_neg hf).trans ((if_neg ho).trans ((if_neg hm).trans (if_pos h)))), fun hf ho hm hw => ?opens⟩
    obtain ⟨hhere, hnone, hfill⟩ := vopenWhole_opens (q := vopenReq x) (mode := x.c.toNat) hf ho hm hw
    exact ⟨fun h => hwhole (hhere h), fun h hroom => hwhole (hnone h hroom),
      fun h hroom slot m2 hslot hm2 => hwhole (hfill h hroom slot m2 hslot hm2)⟩

end Sys2Proof.Machine
end

section
/-!
PROOFS. The making of vats and their roles (14 R242 to R249, R252, R257).
-/

namespace Sys2Proof.Machine

/-! VCREATE (R242, R243, R245, R249). -/

/-- The bytes of the image of a vat with a descriptor. -/
def descBytes (d : Word) : Nat := if descK d = true then 6400 * descSize d else 4096 * descSize d

/-- The backing image that VCREATE names: its handle and offset. -/
def backingNamed (x : FVABC) (m : Mach) (ms : List Nat) : Nat × Nat :=
  ((headS m (vcreateReq x).sc ms (x.c.toNat + 1)).toNat, (headS m (vcreateReq x).sc ms (x.c.toNat + 2)).toNat)

/-- What VCREATE comes to once it has a handle and a directory entry for its vat: it makes it, and with L fills it. -/
def vcreateMakes (x : FVABC) (m : Mach) (ms : List Nat) (h slot : Nat) : Except Stop Mach :=
  let k := ms.headD 0
  let bk := (m.warp k).block
  let name := headPair m (vcreateReq x).sc ms x.b.toNat
  let d := headS m (vcreateReq x).sc ms x.c.toNat
  let m1 := makeVat (commit m k) k name d (if descB d = true then some (backingNamed x m ms) else none) h slot
  let ends (m2 : Mach) : Mach := vatEnds m2 ms name x.a.toNat [0, 4064 + h] true
  if descL d = true then
    (fillHere m1 bk (m.fault k (vcreateReq x).sc .handle) (m1.nextVat - 1) (m1.vat (m1.nextVat - 1)) (m.block bk).core slot).map ends
  else .ok (ends m1)

/-- No room for the vat of a VCREATE: in the core's directory, the context's, the core, or the warp's window (R243, R245). -/
def vcreateFull (x : FVABC) (m : Mach) (ms : List Nat) : Prop :=
  let k := ms.headD 0
  let w := m.warp k
  let b := m.block w.block
  let d := headS m (vcreateReq x).sc ms x.c.toNat
  let mc := commit m k
  freeSlot mc b.core = none ∨ directoryFull mc b.ctx (descB d) (descBytes d) = true ∨
    vatRoom mc b.core (descK d) (descSize d) = false ∨ (descK d = true ∧ 1024 < w.na + 4 * descSize d)

/-- What VCREATE comes to where no vat has its name. -/
def vcreateNew (x : FVABC) (m : Mach) (ms : List Nat) : Except Stop Mach :=
  let k := ms.headD 0
  let w := m.warp k
  let b := m.block w.block
  let d := headS m (vcreateReq x).sc ms x.c.toNat
  let mc := commit m k
  let ends (xs : List Nat) : Except Stop Mach := .ok (vatEnds mc ms (headPair m (vcreateReq x).sc ms x.b.toNat) x.a.toNat xs false)
  match freeVatHandle b with
  | none => ends [1, 0]
  | some h =>
    if descK d = true ∧ w.vatMap.isSome = true then ends [1, 0]
    else if freeSlot mc b.core = none ∨ directoryFull mc b.ctx (descB d) (descBytes d) = true ∨
        vatRoom mc b.core (descK d) (descSize d) = false ∨ (descK d = true ∧ 1024 < w.na + 4 * descSize d) then ends [9, 0]
    else vcreateMakes x m ms h ((freeSlot mc b.core).getD 0)

/-- What VCREATE comes to once its operands have passed. -/
def vcreateChecked (x : FVABC) (m : Mach) (ms : List Nat) : Except Stop Mach :=
  let k := ms.headD 0
  let b := m.block (m.warp k).block
  let name := headPair m (vcreateReq x).sc ms x.b.toNat
  let mc := commit m k
  let ends (xs : List Nat) : Except Stop Mach := .ok (vatEnds mc ms name x.a.toNat xs false)
  if (mc.ctx b.ctx).hasTeam (teamOf b.core) = false then ends [8, 0]
  else match mc.vatNamed b.ctx name with
    | some (_, v) => ends [if v.world = b.world then 5 else 8, 0]
    | none => vcreateNew x m ms

/-- The operands with which VCREATE faults (R242, R257). -/
def vcreateBad (x : FVABC) (m : Mach) (ms : List Nat) : Prop :=
  let d := headS m (vcreateReq x).sc ms x.c.toNat
  headPair m (vcreateReq x).sc ms x.b.toNat = 0 ∨ descOk d = false ∨ headS m (vcreateReq x).sc ms (x.c.toNat + 3) ≠ 0 ∨
    (descK d = true ∧ (vcreateReq x).sc = 3)

/-- A check that passes, where it is made at all, changes nothing. -/
theorem passed_check {α : Type} {c : Prop} [Decidable c] {e : Except Stop PUnit} {r : Except Stop α} (h : c → e = .ok ()) :
    (if c then e >>= fun _ => r else r) = r := by
  split
  · next hc => rw [h hc]; rfl
  · rfl

section
variable {x : FVABC} {m : Mach} {ms : List Nat}

theorem vcreateBody_trapped (h : (m.warp (ms.headD 0)).trap.isSome = true) :
    vcreateBody x m ms = .ok (vatAnswer (commit m (ms.headD 0)) ms x.a.toNat [8, 0]) := if_pos h

theorem vcreateBody_bad (htrap : (m.warp (ms.headD 0)).trap = none) (hbad : vcreateBad x m ms) :
    vcreateBody x m ms = .error (vatFault (vcreateReq x) m (ms.headD 0)) := by
  unfold vcreateBad at hbad
  unfold vcreateBody
  simp only [htrap, Option.isSome_none, Bool.false_eq_true, if_false, Bool.not_eq_true']
  rw [if_pos hbad]
  rfl

/-- VCREATE goes on where its operands are well formed and its backing handle passes. -/
theorem vcreateBody_checked (htrap : (m.warp (ms.headD 0)).trap = none) (hgood : ¬ vcreateBad x m ms)
    (hback : descB (headS m (vcreateReq x).sc ms x.c.toNat) = true → ∃ e, backingHandle m (m.warp (ms.headD 0)).block
      (m.fault (ms.headD 0) (vcreateReq x).sc .handle) (backingNamed x m ms).1 (backingNamed x m ms).2
      (descBytes (headS m (vcreateReq x).sc ms x.c.toNat)) 3 (m.block (m.warp (ms.headD 0)).block).world = .ok e) :
    vcreateBody x m ms = vcreateChecked x m ms := by
  unfold vcreateBad at hgood
  unfold vcreateBody vcreateChecked vcreateNew vcreateMakes
  simp only [htrap, Option.isSome_none, Bool.false_eq_true, if_false, Bool.not_eq_true', Option.isNone_iff_eq_none]
  rw [if_neg hgood]
  refine (passed_check fun hb => ?_).trans ?_
  · obtain ⟨e, he⟩ := hback hb
    unfold backingNamed descBytes at he
    rw [he]
    rfl
  · unfold backingNamed descBytes
    generalize freeVatHandle (m.block (m.warp (ms.headD 0)).block) = h
    cases h <;> rfl

/-- What comes of the directory, the handles and the room where the name is new (R243, R245). -/
theorem vcreateNew_noHandle (h : freeVatHandle (m.block (m.warp (ms.headD 0)).block) = none) : vcreateNew x m ms =
    .ok (vatEnds (commit m (ms.headD 0)) ms (headPair m (vcreateReq x).sc ms x.b.toNat) x.a.toNat [1, 0] false) := by
  unfold vcreateNew
  dsimp only
  rw [h]

section
variable {h : Nat} (hh : freeVatHandle (m.block (m.warp (ms.headD 0)).block) = some h)
include hh

theorem vcreateNew_mapped (hmap : descK (headS m (vcreateReq x).sc ms x.c.toNat) = true ∧ (m.warp (ms.headD 0)).vatMap.isSome = true) :
    vcreateNew x m ms =
      .ok (vatEnds (commit m (ms.headD 0)) ms (headPair m (vcreateReq x).sc ms x.b.toNat) x.a.toNat [1, 0] false) := by
  unfold vcreateNew
  dsimp only
  rw [hh]
  exact if_pos hmap

variable (hmap : ¬ (descK (headS m (vcreateReq x).sc ms x.c.toNat) = true ∧ (m.warp (ms.headD 0)).vatMap.isSome = true))
include hmap

theorem vcreateNew_full (hfull : vcreateFull x m ms) : vcreateNew x m ms =
    .ok (vatEnds (commit m (ms.headD 0)) ms (headPair m (vcreateReq x).sc ms x.b.toNat) x.a.toNat [9, 0] false) := by
  unfold vcreateFull at hfull
  unfold vcreateNew
  dsimp only
  rw [hh]
  exact (if_neg hmap).trans (if_pos hfull)

theorem vcreateNew_makes {slot : Nat} (hfull : ¬ vcreateFull x m ms)
    (hslot : freeSlot (commit m (ms.headD 0)) (m.block (m.warp (ms.headD 0)).block).core = some slot) :
    vcreateNew x m ms = vcreateMakes x m ms h slot := by
  unfold vcreateFull at hfull
  unfold vcreateNew
  dsimp only
  rw [hh]
  refine (if_neg hmap).trans ((if_neg hfull).trans ?_)
  rw [hslot]
  rfl

end

end

/-! The vat that VCREATE makes, and its frame. -/

section
variable (m : Mach) (c : Nat)

@[simp] theorem vatClocks_vats : (vatClocks m c).vats = m.vats := rfl
@[simp] theorem vatClocks_nextVat : (vatClocks m c).nextVat = m.nextVat := rfl
@[simp] theorem vatClocks_mem : (vatClocks m c).mem = m.mem := rfl
@[simp] theorem vatClocks_warps : (vatClocks m c).warps = m.warps := rfl
@[simp] theorem vatClocks_blocks : (vatClocks m c).blocks = m.blocks := rfl

end

section
variable (m : Mach) (k name : Nat) (d : Word) (back : Option (Nat × Nat)) (h slot : Nat)

theorem makeVat_nextVat : (makeVat m k name d back h slot).nextVat = m.nextVat + 1 := by
  unfold makeVat
  split <;> rfl

theorem makeVat_mem : (makeVat m k name d back h slot).mem = m.mem := by
  unfold makeVat
  split <;> rfl

theorem makeVat_vats : (makeVat m k name d back h slot).vats = Map.ins m.vats m.nextVat
    (newVat (vatClocks m (m.block (m.warp k).block).ctx) (m.warp k).block name d back slot) := by
  unfold makeVat
  dsimp only
  rw [apply_ite Mach.vats]
  exact ite_self _

theorem makeVat_blocks : (makeVat m k name d back h slot).blocks = Map.upd m.blocks (m.warp k).block
    (fun b => { b with vatH := Map.ins b.vatH h (m.nextVat, !descK d) }) := by
  unfold makeVat
  split <;> rfl

theorem makeVat_warps : (makeVat m k name d back h slot).warps =
    if descK d = true then Map.upd m.warps k (fun w => { w with vatMap := some m.nextVat }) else m.warps := by
  unfold makeVat
  split <;> rfl

end

theorem find?_upd_getD {α : Type} {l : List (Nat × α)} {k : Nat} {f : α → α} {x : α} (h : (Map.find? l k).isSome = true) :
    (Map.find? (Map.upd l k f) k).getD x = f ((Map.find? l k).getD x) := by
  obtain ⟨y, hy⟩ := Option.isSome_iff_exists.1 h
  rw [Map.find?_upd_self, hy]
  rfl

/-- Settles O39: the checks of VCREATE in their order, and the vat that it makes, field by field. -/
theorem vatCreation : Obligations.VatCreation := by
  refine ⟨fun x s m ms hg hn => ?outcomes, fun m k name d back h slot => ?made⟩
  case outcomes =>
    intro sc k w b name d back off bytes f bad checked mc ends
    have hends : ∀ {m2 xs ch}, vcreateBody x m ms = .ok (vatEnds m2 ms name x.a.toNat xs ch) →
        VatEnds (.vcreate x) s ms name x.a.toNat m2 xs ch := fun hb => vat_ends (q := vcreateReq x) hg hn rfl rfl hb
    refine ⟨fun htrap => err_answers hg hn rfl rfl (vcreateBody_trapped htrap),
      fun htrap hbad => err_faults hg rfl (vcreateBody_bad htrap hbad),
      fun htrap hgood hback hteam => hends ((vcreateBody_checked htrap hgood hback).trans (if_pos hteam)),
      fun htrap hgood hback hteam => ?admitted⟩
    have hchecked : vcreateBody x m ms = match mc.vatNamed b.ctx name with
        | some (_, v) => .ok (vatEnds mc ms name x.a.toNat [if v.world = b.world then 5 else 8, 0] false)
        | none => vcreateNew x m ms :=
      (vcreateBody_checked htrap hgood hback).trans (if_neg (by rw [hteam]; decide))
    refine ⟨fun id v hv => hends ?used, fun hv => ?new⟩
    case used => rw [hchecked, hv]
    case new =>
      rw [hv] at hchecked
      refine ⟨fun hh => hends (hchecked.trans (vcreateNew_noHandle hh)), fun h hh =>
        ⟨fun hK hmap => hends (hchecked.trans (vcreateNew_mapped hh ⟨hK, hmap⟩)), fun hmap =>
          ⟨fun hfull => hends (hchecked.trans (vcreateNew_full hh hmap hfull)), fun slot hslot hdir hroom hwide => ?makes⟩⟩⟩
      have hfull : ¬ vcreateFull x m ms := by
        rintro (h | h | h | ⟨hK, h⟩)
        · exact Option.some_ne_none slot (hslot.symm.trans h)
        · exact Bool.false_ne_true (hdir.symm.trans h)
        · exact Bool.false_ne_true (h.symm.trans hroom)
        · exact absurd h (Nat.not_lt.2 (hwide hK))
      have hmakes := hchecked.trans (vcreateNew_makes hh hmap hfull hslot)
      intro m1
      refine ⟨fun hL => hends (hmakes.trans (if_neg (by rw [hL]; decide))), fun hL m2 hfill => ?filled⟩
      exact hends (hmakes.trans ((if_pos hL).trans (congrArg (Except.map _) hfill)))
  case made =>
    intro bk m1
    refine ⟨makeVat_nextVat .., ?vat, fun id hid => ?others, makeVat_mem .., fun hbk => ?block, fun hk => ?warp⟩
    case vat =>
      unfold Mach.vat
      rw [makeVat_vats, Map.find?_ins_self]
      rfl
    case others => rw [makeVat_vats, Map.find?_ins_ne _ _ hid]
    case block =>
      unfold Mach.block
      rw [makeVat_blocks, find?_upd_getD hbk]
    case warp =>
      unfold Mach.warp
      rw [makeVat_warps, apply_ite (Map.find? · k), apply_ite (Option.getD · default), find?_upd_getD hk]

end Sys2Proof.Machine
end

section
/-!
PROOFS. The passing of a vat's roles (14 R244, R246, R247, R249, R252, R257).
-/

namespace Sys2Proof.Machine

/-! VHAND (R247, R249). -/

/-- The entry of a block's vat table that a handle names (R245). -/
def vatEntry (b : Block) (h : Nat) : Option (Nat × Bool) := if 4064 ≤ h ∧ h ≤ 4095 then Map.find? b.vatH (h - 4064) else none

/-- The machine once a vat that stands written back in m2 has passed to its next writer: a window is closed, and of a local vat the
block's handle stays, for reading (R247). -/
def handedOn (x : FVAB) (m : Mach) (ms : List Nat) (id : Nat) (m2 : Mach) : Mach :=
  let bk := (m.warp (ms.headD 0)).block
  let h := (headS m (vhandReq x).sc ms x.b.toNat).toNat
  passRole (if (m.vat id).acc = true then closeVat m2 bk id
    else m2.updBlock bk (fun b => { b with vatH := Map.ins b.vatH (h - 4064) (id, false) })) id

/-- What VHAND comes to on a vat that its handle names. -/
def vhandOn (x : FVAB) (m : Mach) (ms : List Nat) (id : Nat) : Except Stop Mach :=
  let q := vhandReq x
  let k := ms.headD 0
  let w := m.warp k
  let v := m.vat id
  let mc := commit m k
  if v.writer ≠ some w.block then .ok (vatEnds mc ms v.name x.a.toNat [8] false)
  else if v.acc = true ∧ (q.sc = 3 ∨ w.vatMap ≠ some id) then .error (vatFault q m k)
  else if v.acc = true ∧ vatBusy m id = true then .error (.wait .matrix)
  else (writeBack (vatStep mc ms (m.block w.block).ctx v.name true) w.block (m.fault k q.sc .handle) id v).map (fun m2 =>
    vatEnds (handedOn x m ms id m2) ms v.name x.a.toNat [0] true)

section
variable {x : FVAB} {m : Mach} {ms : List Nat}

theorem vhandBody_trapped (h : (m.warp (ms.headD 0)).trap.isSome = true) :
    vhandBody x m ms = .ok (vatAnswer (commit m (ms.headD 0)) ms x.a.toNat [8]) := if_pos h

theorem vhandBody_eq (htrap : (m.warp (ms.headD 0)).trap = none) : vhandBody x m ms =
    match vatEntry (m.block (m.warp (ms.headD 0)).block) (headS m (vhandReq x).sc ms x.b.toNat).toNat with
    | none => .error (vatFault (vhandReq x) m (ms.headD 0))
    | some (id, _) => vhandOn x m ms id := by
  unfold vhandBody vhandOn handedOn vatEntry
  simp only [htrap, Option.isSome_none, Bool.false_eq_true, if_false]
  rfl

/-- A handle outside the table's range, or not in use, is none of the block's (R257). -/
theorem vhandBody_unheld (htrap : (m.warp (ms.headD 0)).trap = none)
    (h : vatEntry (m.block (m.warp (ms.headD 0)).block) (headS m (vhandReq x).sc ms x.b.toNat).toNat = none) :
    vhandBody x m ms = .error (vatFault (vhandReq x) m (ms.headD 0)) := by
  rw [vhandBody_eq htrap, h]

theorem vhandBody_held {id : Nat} {wr : Bool} (htrap : (m.warp (ms.headD 0)).trap = none)
    (h : vatEntry (m.block (m.warp (ms.headD 0)).block) (headS m (vhandReq x).sc ms x.b.toNat).toNat = some (id, wr)) :
    vhandBody x m ms = vhandOn x m ms id := by
  rw [vhandBody_eq htrap, h]

theorem vatEntry_none {b : Block} {h : Nat} (hbad : h < 4064 ∨ 4095 < h ∨ Map.find? b.vatH (h - 4064) = none) : vatEntry b h = none := by
  unfold vatEntry
  split
  · next hin => exact (hbad.resolve_left (by omega)).resolve_left (by omega)
  · rfl

end

section
variable {x : FVAB} {m : Mach} {ms : List Nat} {id : Nat} (hw : (m.vat id).writer = some (m.warp (ms.headD 0)).block)
include hw

theorem vhandOn_faults (hacc : (m.vat id).acc = true)
    (hbad : (vhandReq x).sc = 3 ∨ (m.warp (ms.headD 0)).vatMap ≠ some id) :
    vhandOn x m ms id = .error (vatFault (vhandReq x) m (ms.headD 0)) :=
  (if_neg (not_not.2 hw)).trans (if_pos ⟨hacc, hbad⟩)

theorem vhandOn_waits (hacc : (m.vat id).acc = true) (hsc : (vhandReq x).sc ≠ 3)
    (hmap : (m.warp (ms.headD 0)).vatMap = some id) (hbusy : vatBusy m id = true) :
    vhandOn x m ms id = .error (.wait .matrix) :=
  (if_neg (not_not.2 hw)).trans ((if_neg fun hbad => hbad.2.elim hsc (absurd hmap)).trans (if_pos ⟨hacc, hbusy⟩))

/-- The writer of a local vat, or of one in its own idle window, writes it back and passes the role. -/
theorem vhandOn_passes {m2 : Mach}
    (hfree : (m.vat id).acc = true → (vhandReq x).sc ≠ 3 ∧ (m.warp (ms.headD 0)).vatMap = some id ∧ vatBusy m id = false)
    (hback : writeBack (vatStep (commit m (ms.headD 0)) ms (m.block (m.warp (ms.headD 0)).block).ctx (m.vat id).name true)
      (m.warp (ms.headD 0)).block (m.fault (ms.headD 0) (vhandReq x).sc .handle) id (m.vat id) = .ok m2) :
    vhandOn x m ms id = .ok (vatEnds (handedOn x m ms id m2) ms (m.vat id).name x.a.toNat [0] true) := by
  refine (if_neg (not_not.2 hw)).trans ((if_neg ?_).trans ((if_neg ?_).trans (congrArg (Except.map _) hback)))
  · rintro ⟨hacc, hbad⟩
    exact hbad.elim (hfree hacc).1 (absurd (hfree hacc).2.1)
  · rintro ⟨hacc, hbusy⟩
    exact Bool.false_ne_true ((hfree hacc).2.2.symm.trans hbusy)

end

/-! VDUP (R252). -/

section
variable {x : FVABC} {p : Plat} {m : Mach} {ms : List Nat} {id : Nat} {v : Vat} (hacc : v.acc = false)
include hacc

theorem vdupOn_moving (hst : v.st = 1) : vdupOn x p m ms id v = .error (.wait .vatMoving) := by simp [vdupOn, hacc, hst]

theorem vdupOn_lost (hst : v.st = 3) : vdupOn x p m ms id v =
    .ok (vatEnds (commit m (ms.headD 0)) ms (headPair m (vdupReq x).sc ms x.b.toNat) x.a.toNat [3, 0] false) := by
  simp [vdupOn, hacc, hst]

theorem vdupOn_saved (hst : v.st = 2) : vdupOn x p m ms id v =
    .ok (vatEnds (commit m (ms.headD 0)) ms (headPair m (vdupReq x).sc ms x.b.toNat) x.a.toNat [1, 0] false) := by
  simp [vdupOn, hacc, hst]

theorem vdupOn_written (hst : v.st = 0) (hw : v.writer.isSome = true) : vdupOn x p m ms id v =
    .ok (vatEnds (commit m (ms.headD 0)) ms (headPair m (vdupReq x).sc ms x.b.toNat) x.a.toNat [7, 0] false) := by
  simp [vdupOn, hacc, hst, hw]

/-- A local vat on its cores without a writer is copied. -/
theorem vdupOn_copies (hst : v.st = 0) (hw : v.writer = none) : vdupOn x p m ms id v = vdupCopies x p m ms id v := by
  simp [vdupOn, hacc, hst, hw]

end

/-- Settles O40: VHAND by the vat that its handle names, VDROP and VDUP by the vat of their name, and each by what it asks of the vat. -/
theorem vatRoles : Obligations.VatRoles := by
  refine ⟨fun x s m ms hg hn => ?hand, fun x s m ms id v hg hn => ?drop, fun x s m ms id v hg hn => ?dup⟩
  case hand =>
    intro sc k w b h entry mc
    refine ⟨fun htrap => err_answers hg hn rfl rfl (vhandBody_trapped htrap),
      fun htrap hbad => err_faults hg rfl (vhandBody_unheld htrap (vatEntry_none hbad)), fun id wr htrap hlow hhigh hentry => ?held⟩
    have hbody : vhandBody x m ms = vhandOn x m ms id := vhandBody_held htrap ((if_pos ⟨hlow, hhigh⟩).trans hentry)
    intro v ends
    have hends : ∀ {m2 xs ch}, vhandOn x m ms id = .ok (vatEnds m2 ms v.name x.a.toNat xs ch) → ends m2 xs ch := fun h =>
      vat_ends (q := vhandReq x) hg hn rfl rfl (hbody.trans h)
    exact ⟨fun hw => hends (if_pos hw), fun hw hacc hbad => err_faults hg rfl (hbody.trans (vhandOn_faults hw hacc hbad)),
      fun hw hacc hsc hmap hbusy => issue_waits (q := vhandReq x) hg (hbody.trans (vhandOn_waits hw hacc hsc hmap hbusy)),
      fun m2 hw hfree hback => hends (vhandOn_passes hw hfree hback)⟩
  case drop =>
    intro k w b name mc ends htrap hname hr hworld
    have hbody : vdropBody x m ms = vdropOn x m ms id v := byName_found (vdropBody_eq x) htrap hname hr hworld
    have hends : ∀ {m2 xs ch}, vdropOn x m ms id v = .ok (vatEnds m2 ms name x.a.toNat xs ch) → ends m2 xs ch := fun h =>
      vat_ends (q := vdropReq x) hg hn rfl rfl (hbody.trans h)
    refine ⟨fun hst hw => hends (if_pos ⟨hst, hw⟩), fun hst hw hopen => hends ((if_neg fun h => h.2 hw).trans (if_pos ⟨hst, hopen⟩)),
      fun hst hw hmine hacc hbusy => issue_waits (q := vdropReq x) hg (hbody.trans ?waits), fun hfree => hends ?drops⟩
    case waits =>
      exact (if_neg fun h => h.2 hw).trans ((if_neg fun ⟨_, y, hy, hne⟩ => hne (hmine y hy)).trans (if_pos ⟨hst, hacc, hbusy⟩))
    case drops =>
      refine (if_neg fun ⟨hst, hw⟩ => hw (hfree hst).1).trans ((if_neg fun ⟨hst, y, hy, hne⟩ => hne ((hfree hst).2.1 y hy)).trans (if_neg ?_))
      rintro ⟨hst, hacc, hbusy⟩
      exact Bool.false_ne_true (((hfree hst).2.2 hacc).symm.trans hbusy)
  case dup =>
    intro k w b name t mc ends taken outside htrap hname ht hr hworld
    have hbody : vdupBody x s.p m ms = vdupOn x s.p m ms id v := byName_found (vdupBody_eq s.p rfl ht) htrap hname hr hworld
    have hends : ∀ {m2 xs ch}, vdupOn x s.p m ms id v = .ok (vatEnds m2 ms name x.a.toNat xs ch) →
        VatEnds (.vdup x) s ms name x.a.toNat m2 xs ch := fun h => vat_ends (q := vdupReq x) hg hn rfl rfl (hbody.trans h)
    refine ⟨fun hacc => hends (if_pos hacc), fun hacc hst => issue_waits (q := vdupReq x) hg (hbody.trans (vdupOn_moving hacc hst)),
      fun hacc hst => hends (vdupOn_lost hacc hst), fun hacc hst => hends (vdupOn_saved hacc hst),
      fun hacc hst hw => hends (vdupOn_written hacc hst hw), fun hacc hst hw hout => hends ((vdupOn_copies hacc hst hw).trans (if_pos hout)),
      fun hacc hst hw hin htaken => hends ((vdupOn_copies hacc hst hw).trans ((if_neg hin).trans (if_pos htaken))),
      fun hacc hst hw hin hnew => ?copies⟩
    have hcopies := (vdupOn_copies (x := x) (p := s.p) (m := m) (ms := ms) (id := id) hacc hst hw).trans ((if_neg hin).trans (if_neg hnew))
    refine ⟨fun hnone => hends (hcopies.trans ?none), fun core home hfew hcore hhome => hends (hcopies.trans ?copied)⟩
    case none =>
      have hno : (if v.replicas.length < 3 then dupCore m s.p.isFenced v t else none) = none := by
        rcases hnone with hfull | hcore
        · exact if_neg (Nat.not_lt.2 hfull)
        · rw [hcore, ite_self]
      rw [hno]
    case copied =>
      rw [if_pos hfew, hcore, hhome]
      rfl

end Sys2Proof.Machine
end

section
/-!
PROOFS. Events of launches, vats and slices (14 R250, R251; 16 R263 to R280).
-/

namespace Sys2Proof.Machine

/-! Host records and dependencies (R263 to R265). -/

/-- The state once the next record of a host queue has been read, with a free slot of the pending set (R264, R265). -/
def recordTaken (s : State) (fn q : Nat) (r : Ring) (x : Ctx) (slot : Nat) : State :=
  match ringRead s.m r.sel (r.base + 256 * (r.cons % r.entries)) 256 with
  | .error e => { s with m := tableFails s.m r.sel 0 e }
  | .ok raw =>
    let lr := LaunchRec.ofBytes raw
    match malformed s.m r.sel x.world lr with
    | .error st => { s with m := tableFails s.m r.sel lr.code (asDevice st) }
    | .ok bad =>
      let s1 := s.updFn fn (fun f => { f with queues := Map.upd f.queues q (fun r => { r with cons := (r.cons + 1) % 2 ^ 32 }) })
      { s1 with m := enterPending s1.p s1.m r.sel raw lr 0 slot 0 (bad || lr.prio != q) }

section
variable {fn q slot : Nat} {f : Fn} {r : Ring} {x : Ctx} {s : State} (hf : Map.find? s.p.fns fn = some f)
  (hr : Map.find? f.queues q = some r) (hx : Map.find? s.m.ctxs r.sel = some x) (hfn : x.fn = fn) (hst : x.st = 1)
  (hnew : r.prod ≠ r.cons) (hring : r.entries ≠ 0) (hslot : freePending x = some slot)
include hf hr hx hfn hst hnew hring hslot

/-- A queue that has a record for a running context of its function gives it. -/
theorem hostLaunchRecord_next : exec (.hostLaunchRecord fn q) s = .next (recordTaken s fn q r x slot) := by
  refine at_next rfl ?_
  have hdue : ¬ (x.fn ≠ fn ∨ x.st ≠ 1 ∨ r.prod = r.cons ∨ r.entries = 0) := by simp [hfn, hst, hnew, hring]
  rw [hf, Option.bind_some, hr]
  dsimp only
  rw [hx]
  dsimp only
  rw [hslot]
  dsimp only
  rw [if_neg hdue]
  unfold recordTaken
  cases ringRead s.m r.sel (r.base + 256 * (r.cons % r.entries)) 256 with
  | error e => rfl
  | ok raw =>
    dsimp only
    cases malformed s.m r.sel x.world (LaunchRec.ofBytes raw) <;> rfl

end

section
variable {c seq dep key : Nat} {x : Ctx} {l : Launch} {s : State} (hx : Map.find? s.m.ctxs c = some x) (hl : Map.find? x.pend seq = some l)
include hx hl

/-- A dependency of a launch that is ready to be looked at is read: it aborts the launch, is met, or stays (R263). -/
theorem dependencyReread_event (hst : l.st = 1) (hready : l.ready = true) (hsvc : l.svc = []) (hdep : l.lr.deps.getD dep 0 ≠ 0)
    (hmet : dep ∉ l.met) (hrun : x.st ≠ 3) (hkey : signalPlace s.m c x.world (l.lr.deps.getD dep 0) = .ok key) :
    let r := engineLoads s.m l.pts [key]
    let m := r.1.updLaunch c seq (fun l => { l with pts := r.2 })
    let m1 := m.updLaunch c seq (fun l => { l with met := l.met ++ [dep] })
    exec (.dependencyReread c seq dep) s = event s (if signalValue m key < 0 then some (failLaunch m c seq 11)
      else if signalValue m key ≠ 0 then some m
      else some (if (m1.launch c seq).depsMet = true then becomeReady s.p m1 c seq else m1)) := by
  intro r m m1
  refine congrArg (event s) ?_
  have hdue : ¬ (l.st ≠ 1 ∨ (!l.ready) = true ∨ (!l.svc.isEmpty) = true ∨ l.lr.deps.getD dep 0 = 0 ∨ l.met.contains dep = true ∨
      x.st = 3) := by
    simp only [hst, hready, hsvc, hdep, hrun, List.contains_iff_mem, hmet]; decide
  rw [hx, Option.bind_some, hl, ctx_of hx]
  dsimp only
  rw [if_neg hdue, hkey]

section
variable (hst : l.st = 2) (hsvc : l.svc = []) (hdone : l.done = l.lr.blocks) (hbusy : launchBusy s.m c seq = false) (hrun : x.st ≠ 3)
include hst hsvc hdone hbusy hrun

/-- A launch whose blocks and operations are over completes, with the step of its signal where it has one. -/
theorem launchComplete_plain (hnone : l.lr.done = 0) : Does (.launchComplete c seq) s (endLaunch s.m c seq) := by
  refine ev_does rfl ?_
  rw [hx, Option.bind_some, hl, ctx_of hx]
  exact (if_neg (by simp [hst, hsvc, hdone, hbusy, hrun])).trans (if_pos hnone)

theorem launchComplete_signals (hsome : l.lr.done ≠ 0) (hkey : signalPlace s.m c x.world l.lr.done = .ok key) :
    Does (.launchComplete c seq) s (endLaunch (signalStep s.m key 0 (launchTime s.m c seq)) c seq) := by
  refine ev_does rfl ?_
  rw [hx, Option.bind_some, hl, ctx_of hx]
  refine (if_neg (by simp [hst, hsvc, hdone, hbusy, hrun])).trans ((if_neg hsome).trans ?_)
  rw [hkey]

end

section
variable {id flat : Nat} {v : Vat} {flats : List Nat} (hv : affinityVat s.m c l.lr = some (id, v))
  (hflats : nextFlats s.m c seq l = flat :: flats) (hst : l.st = 2) (hpat : l.patience = false) (hholds : x.holds = true)
  (hdev : x.devWait = []) (hspot : spotFor s.m c seq flat l (allowedCores s.p s.m c l) = .waits)
include hv hflats hst hpat hholds hdev hspot

/-- The patience of a launch that waits for a preferred core ends, and its vat may not or cannot move (R250). -/
theorem affinityPatienceExpiry_stays (hstays : v.opens ≠ [] ∨ v.writer ≠ none ∨ moveTarget s.p s.m v l = none) :
    Does (.affinityPatienceExpiry c seq) s (s.m.updLaunch c seq (fun l => { l with patience := true })) := by
  have hno : (if v.opens.isEmpty = true ∧ v.writer.isNone = true then moveTarget s.p s.m v l else none) = none :=
    ite_eq_right_iff.2 fun ⟨hopens, hwriter⟩ =>
      (hstays.resolve_left (not_not.2 (List.isEmpty_iff.1 hopens))).resolve_left (not_not.2 (Option.isNone_iff_eq_none.1 hwriter))
  refine ev_does rfl ?_
  rw [hx, Option.bind_some, hl]
  dsimp only
  unfold patienceEnds
  rw [hv, hflats, ctx_of hx]
  dsimp only
  rw [if_neg (by simp [hst, hpat, hholds, hdev]), hspot]
  dsimp only
  rw [hno]

/-- A vat that nobody has open moves, and the block is bound to where it goes. -/
theorem affinityPatienceExpiry_moves {t : Nat} (hopens : v.opens = []) (hwriter : v.writer = none)
    (htarget : moveTarget s.p s.m v l = some t) (hmoves : ((startMove s.m id t).vat id).st = 1) :
    Does (.affinityPatienceExpiry c seq) s ((startMove s.m id t).updLaunch c seq (fun l => { l with bound := some (flat, t) })) := by
  refine ev_does rfl ?_
  rw [hx, Option.bind_some, hl]
  dsimp only
  unfold patienceEnds
  rw [hv, hflats, ctx_of hx]
  dsimp only
  rw [if_neg (by simp [hst, hpat, hholds, hdev]), hspot]
  dsimp only
  rw [if_pos ⟨List.isEmpty_iff.2 hopens, Option.isNone_iff_eq_none.2 hwriter⟩, htarget]
  dsimp only
  rw [if_pos hmoves]

end

end

/-! Seating and completion (R271; 04 R79). -/

theorem blockSeat_event {c : Nat} {x : Ctx} {s : State} (hx : Map.find? s.m.ctxs c = some x) : exec (.blockSeat c) s = event s
    (if x.st ≠ 1 ∨ x.holds = false ∨ x.ask = 1 ∨ x.ask = 2 ∨ toFill s.m c ≠ [] then none else seatScan s.p s.m c none (dispatchOrder x)) := by
  refine congrArg (event s) ?_
  rw [hx]
  simp only [Bool.not_eq_true', List.isEmpty_eq_false_iff]

theorem blockComplete_event {bk : Nat} {b : Block} {s : State} (hb : Map.find? s.m.blocks bk = some b) (hseat : b.seated = true)
    (hdone : blockComplete s.m bk = true) (hst : (s.m.ctx b.ctx).st = 1) (hdev : (s.m.ctx b.ctx).devWait = [])
    (hfree : Map.find? s.m.frozen b.core = none) : exec (.blockComplete bk) s = event s (some (completeBlock s.m bk)) := by
  refine congrArg (event s) ?_
  have hdue : ¬ ((!b.seated) = true ∨ (!blockComplete s.m bk) = true ∨ (s.m.ctx b.ctx).st ≠ 1 ∨
      (!(s.m.ctx b.ctx).devWait.isEmpty) = true ∨ (Map.find? s.m.frozen b.core).isSome = true) := by
    simp [hseat, hdone, hst, hdev, hfree]
  rw [hb]
  exact if_neg hdue

/-- The machine in which a complete block's vats are to be written back: its stores are performed, and its opens end in steps of the
memory order (10 R201; 14 R248). -/
def closing (m : Mach) (bk : Nat) (b : Block) : Mach :=
  let m0 := commit m (warpKey bk 0)
  b.vatH.foldl (fun m e => vatStep m ((m0.warpsOf bk).map (·.1)) b.ctx (m.vat e.2.1).name true) m0

section
variable {bk : Nat} {b : Block} {m : Mach} (hb : Map.find? m.blocks bk = some b)
include hb

theorem completeBlock_fails {h : Nat} {e : EngFail} (hback : writerBacks (closing m bk b) bk = .error (h, e)) :
    completeBlock m bk = deviceFails (closing m bk b) b.ctx h e := by
  unfold completeBlock
  unfold closing at hback ⊢
  dsimp only at hback ⊢
  rw [block_of hb, hback]

theorem completeBlock_ends {m1 : Mach} (hback : writerBacks (closing m bk b) bk = .ok m1) : completeBlock m bk =
    pendWrite (((dropMemory (closeVats m1 bk) bk).updBlock bk (fun b => { b with pre := .gone })).updLaunch b.ctx b.seq
      (fun l => { l with done := l.done + 1 })) b.ctx b.seq := by
  unfold completeBlock
  unfold closing at hback
  dsimp only at hback ⊢
  rw [block_of hb, hback]

end

/-! Moves of vats (14 R251). -/

section
variable {id core : Nat} {v : Vat} {s : State} (hv : Map.find? s.m.vats id = some v) (htarget : v.target = some core) (hst : v.st = 1)
  (hdev : (s.m.ctx v.ctx).devWait = [])
include hv htarget hst hdev

theorem vatMoveComplete_fills {m : Mach} (hfill : fillOnto s.m id core = .ok m) : Does (.vatMoveComplete id) s (m.count v.ctx 52 1) := by
  refine ev_does rfl ?_
  rw [hv]
  dsimp only
  rw [htarget]
  refine (if_neg (by simp [hst, hdev])).trans ?_
  rw [hfill]

theorem vatMoveComplete_fails {e : EngFail} (hfill : fillOnto s.m id core = .error e) :
    Does (.vatMoveComplete id) s (vatImageFails s.m v e) := by
  refine ev_does rfl ?_
  rw [hv]
  dsimp only
  rw [htarget]
  refine (if_neg (by simp [hst, hdev])).trans ?_
  rw [hfill]

end

/-! Slices and pre-emption (R271 to R280). -/

/-- The machine when the slice of a context has ended by the clock. -/
def sliceOver (m : Mach) (c : Nat) (x : Ctx) : Mach :=
  ({ m with ns := max m.ns x.sliceEnd } : Mach).updCtx c (countSlice (max m.ns x.sliceEnd))

theorem passesOn_alone {m : Mach} {c : Nat} (h : competitors m c = []) : passesOn m c = false := by
  unfold passesOn
  rw [h]
  rfl

section
variable {c est : Nat} {x : Ctx} {s : State} (hx : Map.find? s.m.ctxs c = some x)
include hx

theorem sliceEnd_notDue (h : ¬ (x.st = 1 ∧ x.holds = true ∧ x.ask ≠ 1 ∧ x.ask ≠ 2)) : NotDue (.sliceEnd c est) s := by
  refine ev_not rfl ?_
  rw [hx]
  refine if_pos (by_contra fun hgo => h ?_)
  simpa only [not_or, Bool.not_eq_true', Bool.not_eq_false, not_not, ne_eq] using hgo

section
variable (hmay : x.st = 1 ∧ x.holds = true ∧ x.ask ≠ 1 ∧ x.ask ≠ 2)
include hmay

/-- After a YIELD the slice ends as it stands, and the context is pre-empted cooperatively (R274). -/
theorem sliceEnd_yielded (hask : x.ask = 3) :
    Does (.sliceEnd c est) s (preemptCtx (s.m.updCtx c (countSlice s.m.ns)) c est 2) := by
  obtain ⟨hst, hholds, hask1, hask2⟩ := hmay
  refine ev_does rfl ?_
  rw [hx]
  dsimp only
  rw [if_neg (by simp [hst, hholds, hask1, hask2])]
  simp only [if_pos hask]

/-- At its end a slice passes to a competitor, or the context's next one begins (R273). -/
theorem sliceEnd_ends (hask : x.ask ≠ 3) : Does (.sliceEnd c est) s
    (if passesOn (sliceOver s.m c x) c = true then preemptCtx (sliceOver s.m c x) c est 1 else startSlice (sliceOver s.m c x) c) := by
  obtain ⟨hst, hholds, hask1, hask2⟩ := hmay
  refine ev_does rfl ?_
  rw [hx]
  dsimp only
  rw [if_neg (by simp [hst, hholds, hask1, hask2])]
  simp only [if_neg hask, apply_ite some]
  rfl

end

theorem yieldDeadlinePost_posts (hst : x.st = 1) (hholds : x.holds = true) (hask : x.ask = 0) (hdl : x.yieldDl = none) :
    Does (.yieldDeadlinePost c x.grace) s
      (s.m.tickOn.updCtx c (fun y => { y with yieldDl := some (s.m.tickOn.ns + 1000 * x.grace) })) := by
  refine ev_does rfl ?_
  rw [hx]
  exact if_neg (by simp [hst, hholds, hask, hdl])

theorem yieldDeadlineExpiry_preempts {t : Nat} (hst : x.st = 1) (hholds : x.holds = true) (hdl : x.yieldDl = some t) :
    Does (.yieldDeadlineExpiry c est) s (preemptCtx ({ s.m with ns := max s.m.ns t }.count c 62 1) c est 1) := by
  refine ev_does rfl ?_
  rw [hx]
  dsimp only
  rw [hdl]
  exact if_neg (by simp [hst, hholds])

end

theorem preemptDeadline_event (c late : Nat) (s : State) : exec (.preemptDeadline c late) s = event s
    (if (!preempting s.m c) = true then none
      else some (if (s.m.ctx c).ask = 2 then
          ((s.m.blocks.filter (fun e => e.2.ctx == c && e.2.pre == .draining)).map (·.1)).foldl startSave s.m
        else lateBy (((s.m.blocks.filter (fun e => e.2.ctx == c && e.2.pre == .draining)).map (·.1)).foldl startSave s.m) c late)) := rfl

/-- Lateness is debt, and compensates the context that was kept waiting, where there is one (R280). -/
theorem lateBy_eq (m : Mach) (c late : Nat) :
    let m1 := (m.updCtx c (fun x => { x with debt := x.debt + 850 * late })).count c 59 late
    ((m1.ctx c).ask = 0 ∨ (m1.ctx c).rival = none → lateBy m c late = m1) ∧
    (∀ r, (m1.ctx c).ask ≠ 0 → (m1.ctx c).rival = some r →
      lateBy m c late = m1.updCtx r (fun x => { x with comp := x.comp + 850 * late })) := by
  intro m1
  refine ⟨fun h => ?_, fun r hask hr => ?_⟩
  all_goals
    unfold lateBy
    dsimp only
  · have hnone : (if (m1.ctx c).ask = 0 then none else (m1.ctx c).rival) = none := by
      rcases h with h | h
      · exact if_pos h
      · rw [h, ite_self]
    rw [hnone]
  · rw [if_neg hask, hr]

theorem nonpreemptibleWaitLimit_event (c : Nat) (s : State) : exec (.nonpreemptibleWaitLimit c) s = event s
    ((heldUp s.m c).map (fun k => stopCtx s.m c 1 (some (k, s.m.outside k .watchdog)))) := rfl

/-- A warp in trap mode holds a save up for too long (18 R288). -/
theorem trapModeHoldLimit_stops {c : Nat} {s : State} (h : ∃ e ∈ s.m.blocks, e.2.ctx = c ∧ (e.2.pre = .waiting ∨ e.2.pre = .handlers) ∧
    ∃ x ∈ s.m.warpsOf e.1, x.2.trap.isSome = true) : Does (.trapModeHoldLimit c) s (stopCtx s.m c 7 none) := by
  refine ev_does rfl (if_pos ?_)
  simpa only [List.any_eq_true, Bool.and_eq_true, Bool.or_eq_true, beq_iff_eq, and_assoc] using h

/-! Costs (R270). -/

section
variable {bk clocks : Nat} {b : Block} {m : Mach} (hb : Map.find? m.blocks bk = some b) (hseat : b.seated = true) (hcost : b.lr.cost ≠ 0)
include hb hcost

theorem costDue_of (hseat : b.seated = true) (hclk : b.charged ≤ clocks) : costDue m bk clocks = true := by
  unfold costDue
  rw [hb]
  simp [hseat, hcost, hclk]

/-- Clocks beyond those that were charged and beyond 2 C are debt, and are counted. -/
theorem chargeTo_over (hclk : b.charged < clocks) (hover : 2 * b.lr.cost < clocks) :
    let extra := clocks - max b.charged (2 * b.lr.cost)
    let old := (Map.find? (m.ctx b.ctx).counters 58).getD 0
    chargeTo m bk clocks = ((((m.updBlock bk (fun b => { b with charged := max b.charged clocks })).updCtx b.ctx
      (fun x => { x with debt := x.debt + extra })).count b.ctx 58 extra).count b.ctx 59 ((old + extra) / 850 - old / 850)) := by
  intro extra old
  have hextra : extra ≠ 0 := by omega
  unfold chargeTo
  dsimp only
  rw [block_of hb, if_neg hcost]
  exact if_neg hextra

end

theorem costOverrun_charges {bk clocks : Nat} {b : Block} {s : State} (hb : Map.find? s.m.blocks bk = some b) (hseat : b.seated = true)
    (hcost : b.lr.cost ≠ 0) (hclk : b.charged < clocks) (hover : 2 * b.lr.cost < clocks) :
    Does (.costOverrun bk clocks) s (chargeTo s.m bk clocks) := by
  refine ev_does rfl (if_neg ?_)
  rw [costDue_of hb hcost hseat hclk.le, block_of hb]
  rintro (h | h)
  · cases h
  · omega

/-- At a multiple of 4 C that the block has not been warned of, its live warps take a wide fault (R270). -/
theorem costWatchdog_raises {bk clocks k : Nat} {ks : List Nat} {b : Block} {s : State} (hb : Map.find? s.m.blocks bk = some b)
    (hlive : s.m.liveOf bk = k :: ks) (hseat : b.seated = true) (hcost : b.lr.cost ≠ 0) (hclk : b.charged ≤ clocks)
    (hwatch : b.watch < clocks / (4 * b.lr.cost)) (hpre : b.pre = .none ∨ b.pre = .draining)
    (hover : ∀ x ∈ b.wides, x.info.cause ≠ .watchdog) :
    let m := (chargeTo s.m bk clocks).updBlock bk (fun b => { b with watch := clocks / (4 * b.lr.cost) })
    Does (.costWatchdog bk clocks) s (raiseWide m k true (k :: ks) 0 (m.outside k .watchdog)) := by
  intro m
  refine ev_does rfl ?_
  rw [hlive]
  refine if_neg ?_
  rw [costDue_of hb hcost hseat hclk, block_of hb]
  rintro (h | h | ⟨h1, h2⟩ | h)
  · cases h
  · omega
  · exact hpre.elim h1 h2
  · obtain ⟨x, hx, hcause⟩ := List.any_eq_true.1 h
    exact hover x hx (beq_iff_eq.1 hcause)

/-- Settles O43, clause by clause from what each event does. -/
theorem launchSliceEvents : Obligations.LaunchSliceEvents := by
  refine ⟨⟨?record, ?dependency, ?seat, ?block, ?launch, ?patience, ?move⟩, ?slice, ?post, ?expiry, ?late, ?wait, ?hold, ?overrun, ?watchdog⟩
  case record =>
    intro fn q f r x slot s hf hr hx hfn hst hnew hring hslot
    have hnext := hostLaunchRecord_next hf hr hx hfn hst hnew hring hslot
    unfold recordTaken at hnext
    refine ⟨fun e hread => hnext.trans (by rw [hread]), fun raw hread => ?_⟩
    rw [hread] at hnext
    exact ⟨fun st hbad => hnext.trans (by dsimp only; rw [hbad]), fun bad hgood => hnext.trans (by dsimp only; rw [hgood])⟩
  case dependency =>
    intro c seq dep x l key s hx hl hst hready hsvc hdep hmet hrun hkey r m m1
    have hev := dependencyReread_event hx hl hst hready hsvc hdep hmet hrun hkey
    refine ⟨fun hneg => ev_does hev (if_pos hneg), fun hpos => ev_does hev ((if_neg (not_lt.2 hpos.le)).trans (if_pos hpos.ne')),
      fun hzero => ev_does hev ((if_neg (not_lt.2 hzero.ge)).trans (if_neg (not_not.2 hzero)))⟩
  case seat =>
    intro c x s hx
    have hev := blockSeat_event hx
    refine ⟨fun hst hholds h1 h2 hfill m hm => ev_does hev ((if_neg ?_).trans hm), fun h => ev_not hev (ite_eq_left_iff.2 fun hgo => ?_)⟩
    · simp [hst, hholds, h1, h2, hfill]
    · simp only [not_or] at hgo
      obtain ⟨hst, hholds, h1, h2, hfill⟩ := hgo
      exact ((((h.resolve_left hst).resolve_left hholds).resolve_left h1).resolve_left h2).resolve_left hfill
  case block =>
    intro bk b s hb hseat hdone hst hdev hfree m0 m
    have hev := blockComplete_event hb hseat hdone hst hdev hfree
    exact ⟨fun h e hback => ev_does hev (congrArg some (completeBlock_fails hb hback)),
      fun m1 hback => ev_does hev (congrArg some (completeBlock_ends hb hback))⟩
  case launch =>
    intro c seq x l s hx hl hst hsvc hdone hbusy hrun
    exact ⟨launchComplete_plain hx hl hst hsvc hdone hbusy hrun, fun key => launchComplete_signals hx hl hst hsvc hdone hbusy hrun⟩
  case patience =>
    intro c seq x l id v flat flats s hx hl hv hflats hst hpat hholds hdev hspot
    exact ⟨affinityPatienceExpiry_stays hx hl hv hflats hst hpat hholds hdev hspot,
      fun t => affinityPatienceExpiry_moves hx hl hv hflats hst hpat hholds hdev hspot⟩
  case move =>
    intro id core v s hv htarget hst hdev
    exact ⟨fun m => vatMoveComplete_fills hv htarget hst hdev, fun e => vatMoveComplete_fails hv htarget hst hdev⟩
  case slice =>
    intro c est x s hx may now m
    have hends : may → x.ask ≠ 3 → Does (.sliceEnd c est) s (if passesOn m c = true then preemptCtx m c est 1 else startSlice m c) :=
      sliceEnd_ends hx
    have hkeeps : may → x.ask ≠ 3 → passesOn m c = false → Does (.sliceEnd c est) s (startSlice m c) := fun hmay hask hpass => by
      have hdoes := hends hmay hask
      rwa [if_neg (by rw [hpass]; decide)] at hdoes
    refine ⟨sliceEnd_yielded hx, fun hmay hask halone => hkeeps hmay hask (passesOn_alone halone), fun hmay hask hpass => ?passes, hkeeps,
      sliceEnd_notDue hx⟩
    have hdoes := hends hmay hask
    rwa [if_pos hpass] at hdoes
  case post =>
    rintro c us x s hx hst hholds hask hdl rfl
    exact yieldDeadlinePost_posts hx hst hholds hask hdl
  case expiry => exact fun c est t x s hx => yieldDeadlineExpiry_preempts hx
  case late =>
    intro c late s m
    have hev := preemptDeadline_event c late s
    have hgo : preempting s.m c = true → ¬ (!preempting s.m c) = true := fun h => by rw [h]; decide
    obtain ⟨halone, hrival⟩ := lateBy_eq m c late
    exact ⟨fun h => ev_not hev (if_pos (by rw [h]; decide)),
      fun h hask => ev_does hev ((if_neg (hgo h)).trans (congrArg some (if_pos hask))),
      fun h hask => ⟨fun hno => ev_does hev ((if_neg (hgo h)).trans (congrArg some ((if_neg hask).trans (halone hno)))),
        fun r hasks hr => ev_does hev ((if_neg (hgo h)).trans (congrArg some ((if_neg hask).trans (hrival r hasks hr))))⟩⟩
  case wait =>
    intro c s
    have hev := nonpreemptibleWaitLimit_event c s
    exact ⟨fun h => ev_not hev (by rw [h]; rfl), fun k h => ev_does hev (by rw [h]; rfl)⟩
  case hold => exact fun c s => trapModeHoldLimit_stops
  case overrun =>
    intro bk clocks b s hb hseat hcost hclk hover extra old m
    have hdoes := costOverrun_charges hb hseat hcost hclk hover
    rwa [chargeTo_over hb hcost hclk hover] at hdoes
  case watchdog => exact fun bk clocks k ks b s => costWatchdog_raises

end Sys2Proof.Machine
end

section
/-!
PROOFS. Launches, armed launches, clocks and YIELD (16 R262, R265, R266, R274, R282, R283).
-/

namespace Sys2Proof.Machine

/-! LAUNCH (R262, R265). -/

/-- The record that a LAUNCH of warp k names, as it is read by a machine without a pail. -/
def launchRecord (x : FABC) (m : Mach) (k : Nat) (now : Mach) : Except Stop (List Byte) :=
  readRecord now (m.warp k).block (now.fault k 1 .handle) ((m.warp k).getS x.b.toNat).toNat ((m.warp k).getS x.c.toNat).toNat []

theorem discard_ok {α : Type} (a : α) : discard (.ok a : Except Stop α) = .ok () := rfl

section
variable {x : FABC} {p : Plat} {m : Mach} {k : Nat} {raw0 : List Byte}
  (hread : launchRecord x m k m = .ok raw0) (hstall : mustStall m 3 x.a.toNat [k] = none)
include hread hstall

/-- In trap mode LAUNCH only ends, with status 8. -/
theorem launchBody_trapped (htrap : (m.warp k).trap.isSome = true) :
    launchBody x p m [k] = .ok (issueOp (launchReq x) 3 x.a.toNat false (.launch 0) (some 8) (commit m k) [k]) := by
  unfold launchRecord at hread
  unfold launchBody
  simp only [List.headD_cons, hread, hstall, discard_ok, bind, Except.bind]
  exact if_pos htrap

/-- Else the record read again behind the pail enters the pending set, with an operation of class 3. -/
theorem launchBody_enters {slot : Nat} {raw : List Byte} {bad : Bool} (htrap : (m.warp k).trap.isSome = false)
    (hslot : freePending (m.ctx (m.blockOf k).ctx) = some slot) (hraw : launchRecord x m k (commit m k) = .ok raw)
    (hbad : malformed (commit m k) (m.blockOf k).ctx (m.blockOf k).world (LaunchRec.ofBytes raw) = .ok bad) :
    launchBody x p m [k] =
      let m2 := issueOp (launchReq x) 3 x.a.toNat false (.launch ((commit m k).ctx (m.blockOf k).ctx).nextSeq) none (commit m k) [k]
      .ok (enterPending p m2 (m.blockOf k).ctx raw (LaunchRec.ofBytes raw) 1 slot (m2.warp k).pts bad) := by
  have hb : m.block (m.warp k).block = m.blockOf k := rfl
  unfold launchRecord at hread hraw
  unfold launchBody
  simp only [List.headD_cons, hread, hstall, if_neg (Bool.eq_false_iff.1 htrap), hb, hslot, hraw, hbad, bind, Except.bind, pure, Except.pure]
  rfl

end

/-! ARM and DISARM (R266). -/

/-- The machine after an ARM of context c with a status: on 0 it keeps the record under its tag. -/
def armed (m : Mach) (c tag : Nat) (raw : List Byte) (st : Nat) : Mach :=
  if st = 0 then m.updCtx c (fun x => { x with arms := Map.ins x.arms tag raw }) else m

/-- The machine after a DISARM of context c with a status: on 0 the tag is free. -/
def disarmed (m : Mach) (c tag st : Nat) : Mach :=
  if st = 0 then m.updCtx c (fun x => { x with arms := Map.del x.arms tag }) else m

theorem armBody_ok {x : FABC} {m : Mach} {k : Nat} {raw : List Byte} {bad : Bool}
    (hread : readRecord m (m.warp k).block (m.fault k 1 .handle) ((m.warp k).getS x.c.toNat).toNat ((m.warp k).getS (x.c.toNat + 1)).toNat
      (if (m.blockOf k).holding then (m.blockOf k).pail else []) = .ok raw)
    (hbad : (m.warp k).trap.isSome = false → malformed m (m.blockOf k).ctx (m.blockOf k).world (LaunchRec.ofBytes raw) = .ok bad) :
    armBody x m [k] =
      let tag := ((m.warp k).getS x.b.toNat).toNat
      let st := armStatus (m.warp k).trap.isSome bad (LaunchRec.ofBytes raw) (m.ctx (m.blockOf k).ctx).arms tag
      .ok ((armed m (m.blockOf k).ctx tag raw st).answer k x.a.toNat st) := by
  have hb : m.block (m.warp k).block = m.blockOf k := rfl
  unfold armBody armStatus
  simp only [List.headD_cons, hb, hread, bind, Except.bind]
  cases htrap : (m.warp k).trap.isSome
  case true => rfl
  case false =>
    simp only [hbad htrap, Bool.false_eq_true, if_false]
    by_cases hinvalid : bad = true ∨ (LaunchRec.ofBytes raw).flags / 16 % 2 = 0 ∨ 65536 ≤ ((m.warp k).getS x.b.toNat).toNat
    · simp only [if_pos hinvalid]; rfl
    by_cases hexists : (Map.find? (m.ctx (m.blockOf k).ctx).arms ((m.warp k).getS x.b.toNat).toNat).isSome = true
    · simp only [if_neg hinvalid, if_pos hexists]; rfl
    by_cases hfull : 256 ≤ (m.ctx (m.blockOf k).ctx).arms.length
    · simp only [if_neg hinvalid, if_neg hexists, if_pos hfull]; rfl
    · simp only [if_neg hinvalid, if_neg hexists, if_neg hfull]; rfl

theorem disarmBody_eq (x : FAB) (m : Mach) (k : Nat) : disarmBody x m [k] =
    let tag := ((m.warp k).getS x.b.toNat).toNat
    let st := disarmStatus (m.warp k).trap.isSome (m.ctx (m.ctxOf k)).arms tag
    .ok ((disarmed m (m.ctxOf k) tag st).answer k x.a.toNat st) := by
  dsimp only
  by_cases htrap : (m.warp k).trap.isSome = true
  · rw [show disarmStatus _ _ _ = 8 from if_pos htrap]
    exact if_pos htrap
  by_cases hinvalid : 65536 ≤ ((m.warp k).getS x.b.toNat).toNat
  · rw [show disarmStatus _ _ _ = 1 from (if_neg htrap).trans (if_pos hinvalid)]
    exact (if_neg htrap).trans (if_pos hinvalid)
  by_cases habsent : (Map.find? (m.ctx (m.ctxOf k)).arms ((m.warp k).getS x.b.toNat).toNat).isNone = true
  · rw [show disarmStatus _ _ _ = 6 from (if_neg htrap).trans ((if_neg hinvalid).trans (if_pos habsent))]
    exact (if_neg htrap).trans ((if_neg hinvalid).trans (if_pos habsent))
  · rw [show disarmStatus _ _ _ = 0 from (if_neg htrap).trans ((if_neg hinvalid).trans (if_neg habsent))]
    exact (if_neg htrap).trans ((if_neg hinvalid).trans (if_neg habsent))

/-- Settles O33: LAUNCH by whether its warp is in trap mode; ARM and DISARM end with the status that their checks find in order. -/
theorem launchForms : Obligations.LaunchForms := by
  refine ⟨fun x s m ms raw0 hg => ?launch, fun x s m ms raw bad hg => ?arm, fun x s m ms hg => ?disarm⟩
  case launch =>
    intro w b h off hread hstall
    obtain rfl := goes_alone (q := launchReq x) Nat.one_lt_two hg
    have hone : [s.cur].Nodup := List.nodup_singleton _
    exact ⟨fun htrap => issued_of hg hone (launchBody_trapped hread hstall htrap),
      fun htrap slot raw bad hslot hraw hbad =>
        ⟨_, issueOp_issued hone rfl, issueTo_mach hg (launchBody_enters hread hstall htrap hslot hraw hbad)⟩⟩
  case arm =>
    intro w b tag st hread hbad
    exact issue_ends1 (q := armReq x) Nat.one_lt_two hg (armBody_ok hread hbad)
  case disarm => exact issue_ends1 (q := disarmReq x) Nat.one_lt_two hg (disarmBody_eq x m s.cur)

/-! CLK and YIELD (R274, R283). -/

section
variable {s : State} {m m' : Mach} {ms : List Nat}

theorem yield_ends (hg : Goes yieldReq s m ms) (hb : yieldBody m [s.cur] = .ok m') :
    ∃ t, exec .yield s = .next t ∧ Ends s t 1 [s.cur] m' :=
  issue_ends1 (q := yieldReq) Nat.one_lt_two hg hb

end

section
variable {m : Mach} {k : Nat}

theorem yieldBody_trapped (htrap : (m.warp k).trap.isSome = true) : yieldBody m [k] = .ok m := if_pos htrap

variable (htrap : (m.warp k).trap.isSome = false)
include htrap

/-- Without a posted deadline YIELD ends the slice where a competitor waits. -/
theorem yieldBody_undue (hdl : (m.ctx (m.ctxOf k)).yieldDl = none) :
    yieldBody m [k] = .ok (if competitors m (m.ctxOf k) = [] then m else endSlice m (m.ctxOf k)) := by
  unfold yieldBody
  simp only [List.headD_cons, htrap, hdl, List.isEmpty_iff, Bool.false_eq_true, if_false]

/-- With one it ends the slice unless the deadline has passed. -/
theorem yieldBody_due {d : Nat} (hdl : (m.ctx (m.ctxOf k)).yieldDl = some d) :
    yieldBody m [k] = .ok (if m.ns ≤ d then
      ((endSlice m (m.ctxOf k)).count (m.ctxOf k) 61 1).updCtx (m.ctxOf k) (fun x => { x with yieldDl := none }) else m) := by
  unfold yieldBody
  simp only [List.headD_cons, htrap, hdl, Bool.false_eq_true, if_false]

end

/-- Settles O34: CLK takes one reading of clocks that only advance; YIELD by trap mode, the posted deadline and the competitors. -/
theorem clocksAndYield : Obligations.ClocksAndYield := by
  refine ⟨fun x s m ms hg => ?clk, fun s m ms hg => ?yield⟩
  case clk =>
    obtain ⟨t, ht, hends⟩ := issue_ends1 (q := clkReq x) (body := clkBody x) Nat.one_lt_two hg rfl
    exact ⟨t, ht, Nat.le_add_right _ _, Nat.le_add_right _ _, hends⟩
  case yield =>
    intro c
    exact ⟨fun htrap => yield_ends hg (yieldBody_trapped htrap),
      fun htrap hdl halone => yield_ends hg ((yieldBody_undue htrap hdl).trans (congrArg _ (if_pos halone))),
      fun htrap hdl hrivals => yield_ends hg ((yieldBody_undue htrap hdl).trans (congrArg _ (if_neg hrivals))),
      fun htrap d hdl => yield_ends hg (yieldBody_due htrap hdl)⟩

end Sys2Proof.Machine
end

section
/-!
PROOFS. Commands of the mailbox on contexts (16 R267; 18 R295, R296; 20 R305, R306, R310, R319).
-/

namespace Sys2Proof.Machine

section
variable {fn : Nat} {s : State} (ht : Takes fn s)
include ht

/-! CREATE (R306). -/

theorem createCtx_refused {hdr world : Nat} (hst : createStatus s ((fnOf s fn).getD Fn.empty) fn hdr world ≠ 0) :
    Replies (.createCtx fn hdr world) fn s s (createStatus s ((fnOf s fn).getD Fn.empty) fn hdr world) [] := by
  obtain ⟨n, hn⟩ := Nat.exists_eq_succ_of_ne_zero hst
  rw [hn]
  refine cmd_takes (i := .createCtx fn hdr world) ht (execCreateCtx.eq_def ..) ?_
  simp only [hn]

theorem createCtx_creates {hdr world c : Nat} (hst : createStatus s ((fnOf s fn).getD Fn.empty) fn hdr world = 0)
    (hc : (List.range 256).find? (fun i => (Map.find? s.m.ctxs i).isNone) = some c) :
    Replies (.createCtx fn hdr world) fn s
      { s with m := headerState (worldByte (s.m.setCtx c (newCtx fn hdr world)) c) c } 0 [(4, bytesOfNat 4 c)] := by
  refine cmd_takes (i := .createCtx fn hdr world) ht (execCreateCtx.eq_def ..) ?_
  simp only [hst, hc]

section
variable {c : Nat} {x : Ctx} (hx : mayCommand s.m fn c = .ok x)
include hx

/-! RUN (R267, R296). -/

theorem runCtx_refused (h : (x.st ≠ 0 ∧ (x.st ≠ 1 ∨ x.holds = true)) ∨ x.teams = 0 ∨ headerRuns s.m c = false) :
    Replies (.runCtx fn c) fn s s 1 [] := by
  refine cmd_takes (i := .runCtx fn c) ht (execRunCtx.eq_def ..) ?_
  simp only [hx]
  exact if_pos (by simpa only [Bool.not_eq_true'] using h)

/-- A context whose thread is descheduled runs already (log 23). -/
theorem runCtx_runsOn (hst : x.st = 1) (hholds : x.holds = false) (hteams : x.teams ≠ 0) (hrun : headerRuns s.m c = true) :
    Replies (.runCtx fn c) fn s s 0 [] := by
  refine cmd_takes (i := .runCtx fn c) ht (execRunCtx.eq_def ..) ?_
  simp only [hx]
  rw [if_neg (not_or.2 ⟨by simp [hst, hholds], not_or.2 ⟨hteams, by simp [hrun]⟩⟩), if_pos hst]

theorem runCtx_starts (hst : x.st = 0) (hteams : x.teams ≠ 0) (hrun : headerRuns s.m c = true) :
    Replies (.runCtx fn c) fn s { s with m := headerState (s.m.updCtx c (fun x => { x with st := 1 })) c } 0 [] := by
  refine cmd_takes (i := .runCtx fn c) ht (execRunCtx.eq_def ..) ?_
  simp only [hx]
  rw [if_neg (not_or.2 ⟨by simp [hst], not_or.2 ⟨hteams, by simp [hrun]⟩⟩), if_neg (by simp [hst])]

/-! RESET and DESTROY (R295). -/

theorem stopCommand_again {d : Bool} (hr : x.resetBy.isSome = true) : stopCommand fn c d s = .next (s.answer fn 7 []) := by
  obtain ⟨⟨f, hf, -, -⟩, -⟩ := id ht
  unfold stopCommand
  simp only [hx, hf, if_pos hr]
  exact takes_box ht false _

theorem stopCommand_stops {d : Bool} (hr : x.resetBy = none) : stopCommand fn c d s = .next (stopping s fn c d) := by
  obtain ⟨⟨f, hf, hon, hfree⟩, hserves⟩ := ht
  unfold stopCommand
  simp only [hx, hf, hr, hon, hfree, hserves]
  rfl

/-! WSREG (R319). -/

theorem wsreg_outside {i h : Nat} (hi : 16 ≤ i) : Replies (.wsreg fn c i h) fn s s 1 [] := by
  refine cmd_takes (i := .wsreg fn c i h) ht (execWsreg.eq_def ..) ?_
  simp only [hx]
  exact if_pos hi

section
variable {i : Nat} (hi : i < 16)
include hi

theorem wsreg_bound (hb : setBound x i = true) : Replies (.wsreg fn c i 0) fn s s 7 [] := by
  refine cmd_takes (i := .wsreg fn c i 0) ht (execWsreg.eq_def ..) ?_
  simp only [hx, if_neg (Nat.not_le.2 hi), hb, if_true]

theorem wsreg_removes (hb : setBound x i = false) :
    Replies (.wsreg fn c i 0) fn s { s with m := s.m.updCtx c (fun y => { y with wsets := Map.del x.wsets i }) } 0 [] := by
  refine cmd_takes (i := .wsreg fn c i 0) ht (execWsreg.eq_def ..) ?_
  simp only [hx, if_neg (Nat.not_le.2 hi), hb, if_true, Bool.false_eq_true, if_false]

theorem wsreg_registers {h : Nat} {e : HEntry} (hlo : 2 ≤ h) (hhi : h ≤ 4063) (he : tableHandle s.m c default h = .ok (some e))
    (hkind : e.kind = 1) (haccess : e.access = 1) (hworld : e.world = x.world) :
    let old := (Map.find? x.wsets i).getD { handle := 0, nextGen := 1, cur := none, gens := [] }
    Replies (.wsreg fn c i h) fn s
      { s with m := s.m.updCtx c (fun y => { y with wsets := Map.ins x.wsets i { old with handle := h } }) } 0 [] := by
  have hzero : h ≠ 0 := by omega
  have hrange : ¬ (h < 2 ∨ 4063 < h) := by omega
  refine cmd_takes (i := .wsreg fn c i h) ht (execWsreg.eq_def ..) ?_
  simp only [hx, if_neg (Nat.not_le.2 hi), if_neg hzero, if_neg hrange, he]
  exact if_pos ⟨hkind, haccess, hworld⟩

end

end

/-- A context that the function may not command, or that is none, refuses RUN, RESET and DESTROY alike. -/
theorem commands_refused {c st : Nat} (hx : mayCommand s.m fn c = .error st) :
    ∀ i ∈ [Instr.runCtx fn c, .resetCtx fn c, .destroyCtx fn c], Replies i fn s s st [] := by
  have hstop : ∀ d, stopCommand fn c d s = .next (s.answer fn st []) := fun d => by
    unfold stopCommand
    simp only [hx]
    exact takes_box ht false _
  have hrun : Replies (.runCtx fn c) fn s s st [] := cmd_takes (i := .runCtx fn c) ht (execRunCtx.eq_def ..) (by simp only [hx])
  intro i hi
  simp only [List.mem_cons, List.not_mem_nil, or_false] at hi
  rcases hi with rfl | rfl | rfl
  · exact hrun
  · exact hstop false
  · exact hstop true

end

/-! The end of a RESET or a DESTROY (R119, R295). -/

section
variable {fn c : Nat} {d : Bool} {s : State} (hr : (s.m.ctx c).resetBy = some (fn, d))
include hr

theorem finishStop_waits (h : (s.m.ctx c).waiting ≠ [] ∨ ∃ e ∈ s.m.blocks, e.2.ctx = c ∧ e.2.seated = true) : finishStop s c = s := by
  unfold finishStop
  simp only [hr]
  exact if_pos (by simpa using h)

section
variable (hwait : (s.m.ctx c).waiting = []) (hseats : ∀ e ∈ s.m.blocks, ¬ (e.2.ctx = c ∧ e.2.seated = true))
include hwait hseats

omit hr in
/-- Nothing holds the end of the command up: its record is written, and no block of the context is seated. -/
theorem nothing_left : ¬ ((!(s.m.ctx c).waiting.isEmpty) = true ∨ s.m.blocks.any (fun e => e.2.ctx == c && e.2.seated) = true) := by
  simpa [hwait] using hseats

theorem finishStop_resets (hd : d = false) : finishStop s c = State.answer { s with m := makeIdle s.m c } fn 0 [] := by
  unfold finishStop
  simp only [hr, if_neg (nothing_left hwait hseats), hd]
  rfl

theorem finishStop_destroys (hd : d = true) :
    let back := (s.p.lent.filter (fun e => e.2 == c)).map (·.1)
    finishStop s c = State.answer
      { s with m := destroy (back.foldl scrubTeam s.m) c,
               p := { s.p with lent := s.p.lent.filter (fun e => e.2 != c), revoking := s.p.revoking.filter (fun t => !back.contains t) } } fn 0 [] := by
  unfold finishStop
  simp only [hr, if_neg (nothing_left hwait hseats), hd]
  rfl

end

end

/-! TIMEPARAM and NVMEGRANT (R310). -/

section
variable {s : State} {c : Nat} {x : Ctx} (ht : Takes 0 s) (hx : Map.find? s.m.ctxs c = some x)
include ht hx

theorem timeparam_busy {tp : TimeParam} (hst : x.st = 1) : Replies (.timeparam 0 c tp) 0 s s 7 [] := by
  refine pf_takes (i := .timeparam 0 c tp) ht (execTimeparam.eq_def ..) ?_
  simp only [hx]
  exact if_pos hst

theorem timeparam_refused {tp : TimeParam} (hst : x.st ≠ 1) (hok : timeparamOk s.p s.m c tp = false) :
    Replies (.timeparam 0 c tp) 0 s s 1 [] := by
  refine pf_takes (i := .timeparam 0 c tp) ht (execTimeparam.eq_def ..) ?_
  simp only [hx, if_neg hst, hok]
  rfl

theorem timeparam_sets {tp : TimeParam} (hst : x.st ≠ 1) (hok : timeparamOk s.p s.m c tp = true) :
    Replies (.timeparam 0 c tp) 0 s { s with m := s.m.updCtx c (fun x =>
      { x with teams := tp.teams, margin := tp.margin, period := tp.period, share := tp.share, grace := tp.grace }) } 0 [] := by
  refine pf_takes (i := .timeparam 0 c tp) ht (execTimeparam.eq_def ..) ?_
  simp only [hx, if_neg hst, hok]
  rfl

theorem nvmegrant_grants {ns : Nat} {grant : Bool} :
    Replies (.nvmegrant 0 c ns grant) 0 s { s with m := s.m.updCtx c (fun x =>
      { x with nvme := (x.nvme.filter (fun n => n != ns)) ++ (if grant = true then [ns] else []) }) } 0 [] := by
  refine pf_takes (i := .nvmegrant 0 c ns grant) ht (execNvmegrant.eq_def ..) ?_
  simp only [hx]
  rfl

end

/-- Settles O45, command by command: each answers by the first of its checks that fails, or with its effect. -/
theorem contextCommands : Obligations.ContextCommands := by
  refine ⟨fun fn hdr world s ht => ⟨createCtx_refused ht, fun c => createCtx_creates ht⟩, fun fn c x s ht hx => ?commands,
    fun fn c d s hr => ?stop, fun fn c st s ht => commands_refused ht, fun c tp x s ht hx => ?time,
    fun c ns grant x s ht hx => nvmegrant_grants ht hx⟩
  case commands =>
    refine ⟨runCtx_refused ht hx, runCtx_runsOn ht hx, runCtx_starts ht hx,
      fun hr => ⟨stopCommand_again ht hx hr, stopCommand_again ht hx hr⟩, fun hr => ⟨stopCommand_stops ht hx hr, stopCommand_stops ht hx hr⟩,
      fun i h => wsreg_outside ht hx, fun i hi => wsreg_bound ht hx hi, fun i hi => wsreg_removes ht hx hi, fun i h e hi => wsreg_registers ht hx hi⟩
  case stop =>
    exact ⟨finishStop_waits hr, fun hwait hseats => ⟨finishStop_resets hr hwait hseats, finishStop_destroys hr hwait hseats⟩⟩
  case time => exact ⟨timeparam_busy ht hx, timeparam_refused ht hx, timeparam_sets ht hx⟩

end Sys2Proof.Machine
end

section
/-!
PROOFS. Writes of a function's registers (18 R294; 20 R305, R306, R321).
-/

namespace Sys2Proof.Machine

/-! Registers whose write is an event of its own (R305). -/

section
variable {fn : Nat} {f : Fn} {value : Word} {s : State} (hf : fnOf s fn = some f)
include hf

section
variable {q : Nat} {r : Ring} (hq : Map.find? f.queues q = some r)
include hq

theorem queueSelectorWrite_sets (hempty : r.prod = r.cons) : exec (.queueSelectorWrite fn q value) s =
    .next (s.updFn fn (fun f => { f with queues := Map.ins f.queues q { r with sel := value.toNat } })) := by
  refine at_next rfl ?_
  simp only [hf, Option.bind_some, hq, Option.map_some, if_pos hempty]

theorem queueSelectorWrite_fails (hqueued : r.prod ≠ r.cons) :
    exec (.queueSelectorWrite fn q value) s = .next (s.updFn fn (fun f => { f with status := 1 })) := by
  refine at_next rfl ?_
  simp only [hf, Option.bind_some, hq, Option.map_some, if_neg hqueued]

end

theorem tsync_starts (hidle : f.tsync = none) (hown : (ownCtx s.m fn value.toNat).isSome = true) :
    exec (.tsync fn value) s = .next (s.updFn fn (fun f => { f with tsync := some value.toNat })) := by
  refine at_next rfl ?_
  rw [hf, Option.map_some, if_neg]
  rintro (h | h)
  · rw [hidle] at h; cases h
  · rw [Option.isNone_iff_eq_none.1 h] at hown; cases hown

/-- A TSYNC while one is under way is ignored (log 23), and so is one of another function's context. -/
theorem tsync_ignored (h : f.tsync.isSome = true ∨ ownCtx s.m fn value.toNat = none) : exec (.tsync fn value) s = .next s := by
  refine at_next rfl ?_
  rw [hf, Option.map_some, if_pos (h.imp_right Option.isNone_iff_eq_none.2)]

theorem tsyncComplete_counts {c : Nat} (hc : f.tsync = some c) : exec (.tsyncComplete fn) s =
    .next (s.updFn fn (fun f => { f with tsync := none, tsyncDone := (f.tsyncDone + 1) % 4294967296 })) := by
  refine at_next rfl ?_
  rw [hf, Option.bind_some, hc]
  rfl

theorem tsyncComplete_notDue (hidle : f.tsync = none) : NotDue (.tsyncComplete fn) s := by
  refine at_not rfl ?_
  rw [hf, Option.bind_some, hidle]
  rfl

theorem csel_foreign (hown : ownCtx s.m fn (bits value 7 0) = none) :
    exec (.csel fn value) s = .next (s.updFn fn (fun f => { f with csel := value.toNat, cval := 0 })) := by
  refine at_next rfl ?_
  simp only [hf, Option.map_some, hown]

theorem csel_reads {x : Ctx} (hown : ownCtx s.m fn (bits value 7 0) = some x) :
    let m := bringUp s.m.tickOn (bits value 7 0) (bits value 23 16)
    exec (.csel fn value) s = .next (State.updFn { s with m := m } fn (fun f =>
      { f with csel := value.toNat, cval := (Map.find? (m.ctx (bits value 7 0)).counters (bits value 23 16)).getD 0 })) := by
  refine at_next rfl ?_
  simp only [hf, Option.map_some, hown]
  rfl

/-! Other registers, and MBXGO (R306). -/

theorem registerWrite_go : exec (.registerWrite fn 0x10 value) s = submit fn (mbxBytes f) s := by
  show execRegisterWrite fn 0x10 value s = _
  unfold execRegisterWrite
  rw [hf]
  exact if_pos rfl

/-- A write anywhere else is an event of its own, or changes its field where it is aligned. -/
theorem registerWrite_event {off : Nat} (hoff : off ≠ 0x10) : exec (.registerWrite fn off value) s = eventAt s
    (if ownEvent off = true then none else some (if off % 4 = 0 then s.updFn fn (registerWrite off value) else s)) := by
  show execRegisterWrite fn off value s = _
  unfold execRegisterWrite
  rw [hf]
  exact if_neg hoff

/-- A command in MBXCMD is submitted by its code. -/
theorem registerWrite_submits {i : Instr} (hi : submit fn (mbxBytes f) s = exec i s) : exec (.registerWrite fn 0x10 value) s = exec i s :=
  (registerWrite_go hf).trans hi

end

theorem registers_unreached {fn q : Nat} {value : Word} {s : State} (hf : fnOf s fn = none) :
    NotDue (.queueSelectorWrite fn q value) s ∧ NotDue (.tsync fn value) s ∧ NotDue (.tsyncComplete fn) s ∧ NotDue (.csel fn value) s ∧
      ∀ off, NotDue (.registerWrite fn off value) s := by
  refine ⟨at_not rfl ?_, at_not rfl ?_, at_not rfl ?_, at_not rfl ?_, fun off => ?write⟩
  case write =>
    show execRegisterWrite fn off value s = _
    unfold execRegisterWrite
    rw [hf]
  all_goals rw [hf]; rfl

/-! The fields of plain registers (R305, R321). -/

theorem registerWrite_queue {q o : Nat} (v : Word) (f : Fn) (hq : q < 4) (ho : o < 32) :
    registerWrite (0x100 + 32 * q + o) v f = { f with queues := Map.upd f.queues q (fun r => ringWrite r o 0x10 v) } := by
  have hq' : (0x100 + 32 * q + o - 0x100) / 32 = q := by omega
  have ho' : (0x100 + 32 * q + o) % 32 = o := by omega
  unfold registerWrite
  rw [if_neg (by omega), if_pos (by omega), hq', ho']

theorem registerWrite_unlisted {off : Nat} (v : Word) (f : Fn) (hoff : 0x480 ≤ off) : registerWrite off v f = f := by
  unfold registerWrite
  rw [if_neg (by omega), if_neg (by omega), if_neg (by omega), if_neg (by omega), if_neg (by omega), if_neg (by omega)]

theorem vfEnable_sets {vf link : Nat} {on : Bool} {f : Fn} {s : State} (hf : Map.find? s.p.fns vf = some f) (hvf : vf ≠ 0)
    (hon : f.enabled ≠ on) (hlink : link < 2) : exec (.vfEnable vf on link) s =
      .next (s.updFn vf (fun f => { f with enabled := on, home := if on = true then link else f.home })) := by
  refine at_next rfl ?_
  simp only [hf]
  exact if_neg (by simp [hvf, hon, hlink])

/-- Settles O50, register by register; a write of MBXGO runs the command whose code stands in MBXCMD. -/
theorem registerEvents : Obligations.RegisterEvents := by
  refine ⟨fun fn f value s hf => ?reached, fun fn q value s => registers_unreached, fun f v => ?fields,
    fun vf link on f s => vfEnable_sets⟩
  case reached =>
    refine ⟨fun q r => queueSelectorWrite_sets hf, fun q r => queueSelectorWrite_fails hf, tsync_starts hf, tsync_ignored hf,
      fun c => tsyncComplete_counts hf, tsyncComplete_notDue hf, csel_foreign hf, fun x => csel_reads hf,
      fun off hoff hown => at_not (registerWrite_event hf hoff) (if_pos hown),
      fun off hoff hown halign => at_next (registerWrite_event hf hoff) ?aligned, fun off hown halign => ?misaligned, ?go⟩
    case aligned => rw [if_neg (Bool.eq_false_iff.1 hown), if_pos halign]
    case misaligned =>
      have hoff : off ≠ 0x10 := by omega
      refine at_next (registerWrite_event hf hoff) ?_
      rw [if_neg (Bool.eq_false_iff.1 hown), if_neg halign]
    case go =>
      have hcode : operand (mbxBytes f) 0 2 = fieldAt (mbxBytes f) 0 2 := rfl
      refine ⟨fun h => ?create, fun h => ?run, fun h => ?reset, fun h => ?destroy, fun h => ?wsreg⟩
      all_goals
        refine registerWrite_submits hf ?_
        unfold submit
        rw [hcode, h]
        rfl
  case fields =>
    exact ⟨rfl, rfl, rfl, rfl, rfl, rfl, fun q o => registerWrite_queue v f, fun off => registerWrite_unlisted v f⟩

end Sys2Proof.Machine
end

section
/-!
PROOFS. SAMPLE (21 R345).
-/

namespace Sys2Proof.Machine

section
variable {x : FABC} {m : Mach} {k h : Nat} {off : Word} {e : HEntry} (hh : ((m.warp k).getS x.b.toNat).toNat = h)
  (hoff : (m.warp k).getS x.c.toNat = off) (he : bulkHandle m (m.warp k).block (m.fault k 1 .handle) h = .ok e)
  (hchecks : bufferChecks (m.blockOf k) (m.fault k 1 .handle) h off.toNat 64 64 2 e = .ok ())
  (hpages : bufferPages m (m.warp k).block (m.fault k 1 .handle) h off.toNat 64 .write e = .ok ())
include hh hoff he hchecks hpages

/-- Past its buffer's checks SAMPLE answers, or stalls, or arms the warp. -/
theorem sampleBody_checked : sampleBody x m [k] =
    if (m.warp k).trap.isSome then .ok (retire (sampleReq x) (m.answer k x.a.toNat 8) [k])
    else if (m.warp k).sample.isSome then .ok (retire (sampleReq x) (m.answer k x.a.toNat 7) [k])
    else match mustStall m 0 0 [k] with
      | some st => .error st
      | none => .ok (issueOp (sampleReq x) 0 0 false (.sample h off.toNat e []) none
          (((commit m k).updWarp k (fun w => { w with sample := some (h, off) })).answer k x.a.toNat 0) [k]) := by
  have hb : m.block (m.warp k).block = m.blockOf k := rfl
  unfold sampleBody
  simp only [List.headD_cons, hb, hh, hoff, he, hchecks, hpages, bind, Except.bind, pure, Except.pure]
  refine if_congr Iff.rfl rfl (if_congr Iff.rfl rfl ?_)
  cases mustStall m 0 0 [k] <;> rfl

end

/-- Settles O32: SAMPLE by trap mode and by whether a sample is armed. -/
theorem samples : Obligations.Samples := by
  intro x s m ms e hg w h off he hchecks hpages
  obtain rfl := goes_alone (q := sampleReq x) Nat.one_lt_two hg
  have hbody := sampleBody_checked (x := x) rfl rfl he hchecks hpages
  refine ⟨fun htrap => ?trapped, fun htrap harmed => ?armed, fun htrap hfree hstall => ?arms⟩
  case trapped => exact issueTo_ends1 (q := sampleReq x) Nat.one_lt_two hg (hbody.trans (if_pos htrap))
  case armed =>
    exact issueTo_ends1 (q := sampleReq x) Nat.one_lt_two hg
      (hbody.trans ((if_neg (Bool.eq_false_iff.1 htrap)).trans (if_pos harmed)))
  case arms =>
    have hnone : ¬ (m.warp s.cur).sample.isSome = true := by rw [show (m.warp s.cur).sample = none from hfree]; decide
    rw [if_neg (Bool.eq_false_iff.1 htrap), if_neg hnone, hstall] at hbody
    exact issued_of hg (List.nodup_singleton _) hbody

end Sys2Proof.Machine
end

section
/-!
PROOFS. The mailbox (20 R305 to R307; 21 R340; 23 R353): who may give a command, when it is taken, and what an answer changes.
-/

namespace Sys2Proof.Machine

/-- Every command goes through its function's mailbox, but RESET and DESTROY, which stop a context first. -/
theorem command_mailbox {i : Instr} {fn : Nat} {early : Bool} (h : commandOf i = some (fn, early)) (s : State) :
    (∃ f, exec i s = mailbox fn early s f) ∨ (early = false ∧ ∃ c d, exec i s = stopCommand fn c d s) := by
  cases i <;> cases h
  case resetCtx => exact .inr ⟨rfl, _, _, rfl⟩
  case destroyCtx => exact .inr ⟨rfl, _, _, rfl⟩
  case createCtx => exact .inl (box_createCtx ..)
  case runCtx => exact .inl (box_runCtx ..)
  case wsreg => exact .inl (box_wsreg ..)
  case quota => exact .inl (box_quota ..)
  case timeparam => exact .inl (box_timeparam ..)
  case tagRegion => exact .inl (box_tagRegion ..)
  case slots => exact .inl (box_slots ..)
  case exportEntry => exact .inl (box_exportEntry ..)
  case lend => exact .inl (box_lend ..)
  case nvmegrant => exact .inl (box_nvmegrant ..)
  case errring => exact .inl (box_errring ..)
  case debugStop => exact .inl (box_debugStop ..)
  case debugReleaseWarp => exact .inl (box_debugReleaseWarp ..)
  case debugReleaseAll => exact .inl (box_debugReleaseAll ..)
  case debugSetBreakpoint => exact .inl (box_debugSetBreakpoint ..)
  case debugClearBreakpoint => exact .inl (box_debugClearBreakpoint ..)
  case debugDump => exact .inl (box_debugDump ..)
  case fencemap => exact .inl (box_fencemap ..)
  case health => exact .inl (box_health ..)
  case testTeam => exact .inl (box_testTeam ..)
  case attest => exact .inl (box_attest ..)
  case identity => exact .inl (box_identity ..)
  case journalRead => exact .inl (box_journalRead ..)
  case journalClear => exact .inl (box_journalClear ..)
  case imagewrite => exact .inl (box_imagewrite ..)

/-- A command of the PF alone goes through the check that it is the PF's. -/
theorem pfOnly_pfCommand {i : Instr} {fn : Nat} {early : Bool} (h : commandOf i = some (fn, early)) (hpf : pfOnly i = true) (s : State) :
    ∃ f, exec i s = pfCommand fn s f := by
  cases i <;> cases h <;> cases hpf
  case quota => exact pf_quota ..
  case timeparam => exact pf_timeparam ..
  case tagRegion => exact pf_tagRegion ..
  case slots => exact pf_slots ..
  case exportEntry => exact pf_exportEntry ..
  case lend => exact pf_lend ..
  case nvmegrant => exact pf_nvmegrant ..
  case fencemap => exact pf_fencemap ..
  case health => exact pf_health ..
  case testTeam => exact pf_testTeam ..

/-- When a command is taken: never on a disabled or a busy mailbox, in recovery if it acts there, and else from stage 4 on. -/
theorem command_taken {i : Instr} {fn : Nat} {early : Bool} {x : Fn} {s : State} (h : commandOf i = some (fn, early))
    (hx : Map.find? s.p.fns fn = some x) :
    (x.enabled = false ∨ x.busy = true → NotDue i s) ∧
    (x.enabled = true → x.busy = false → s.p.boot.phase = .recovery → early = false → Replies i fn s s 8 []) ∧
    (x.enabled = true → x.busy = false → s.p.boot.phase ≠ .recovery → s.p.boot.phase.serves = false → exec i s = .next s) := by
  rcases command_mailbox h s with ⟨f, hf⟩ | ⟨-, c, d, hstop⟩
  · exact cmd_rules hx hf
  · obtain ⟨hoff, hrec, hearly⟩ := stop_rules hx hstop
    exact ⟨hoff, fun hon hfree hphase _ => hrec hon hfree hphase, hearly⟩

/-- An answer changes its own function alone: its status, its result bytes, and that it is busy no more. -/
theorem answer_own {s : State} {fn : Nat} {x : Fn} (hx : Map.find? s.p.fns fn = some x) (status : Nat) (out : List (Nat × List Byte)) :
    (∃ mbx, Map.find? (s.answer fn status out).p.fns fn = some { x with busy := false, status := status, mbx := mbx }) ∧
      ∀ g, g ≠ fn → Map.find? (s.answer fn status out).p.fns g = Map.find? s.p.fns g := by
  unfold State.answer State.updFn
  dsimp only
  rw [Map.find?_upd_self, hx, Option.map_some]
  exact ⟨⟨_, rfl⟩, fun g hg => Map.find?_upd_ne _ _ hg⟩

/-- Settles O44: a command goes through the mailbox or stops a context, and either way is taken by the same rules. -/
theorem mailboxRules : Obligations.MailboxRules := by
  refine ⟨fun i fn early x s h hx => command_taken h hx, fun i fn early s h hpf ht hfn => ?pf, fun s fn status out x hx => ?answer⟩
  case pf =>
    obtain ⟨f, hf⟩ := pfOnly_pfCommand h hpf s
    exact pf_rules ht hfn hf
  case answer =>
    obtain ⟨⟨mbx, hown⟩, hothers⟩ := answer_own hx status out
    exact ⟨_, hown, rfl, rfl, rfl, rfl, rfl, hothers, rfl⟩

end Sys2Proof.Machine
end

section
/-!
PROOFS. Starts and losses of power (23 R348, R350 to R353).
-/

namespace Sys2Proof.Machine

/-! A stage that waits (R351). -/

section
variable {s : State} {stage : Nat} (hphase : s.p.boot.phase = .waiting stage)
include hphase

theorem packageStart_waits : NotDue (.packageStart []) s := at_not rfl (by rw [hphase]; rfl)

theorem packageStart_fails (rs : List Bool) :
    exec (.packageStart (false :: rs)) s = .next (s.booted (s.p.boot.stepFails stage 5)) := at_next rfl (by rw [hphase]; rfl)

theorem packageStart_goesOn (rs : List Bool) :
    let b := (s.p.boot.succeeds stage).chain rs ((rangeFrom 1 6).filter (fun i => decide (stage < i)))
    exec (.packageStart (true :: rs)) s =
      .next (if b.phase = .off ∨ b.phase = .recovery then s.booted b else { s with p := { s.p with boot := b } }) :=
  at_next rfl (by rw [hphase]; rfl)

theorem stageTimeout_fails : exec .stageTimeout s = .next (s.booted (s.p.boot.stepFails stage 6)) :=
  at_next rfl (by rw [hphase])

end

/-- From power off and from recovery a start runs its chain of stages (R348, R353). -/
theorem packageStart_starts {s : State} (h : s.p.boot.phase = .off ∨ s.p.boot.phase = .recovery) (rs : List Bool) :
    exec (.packageStart rs) s = .next (s.booted (s.p.boot.start rs)) := by
  rcases h with h | h
  · exact at_next rfl (by rw [h])
  · exact at_next rfl (by rw [h])

/-- A step failure restarts the package and is avoided in the next start (R351). -/
theorem stepFails_avoids (b : Boot) (stage result : Nat) :
    (b.stepFails stage result).phase = .off ∧ (stage ≤ 4 → Map.find? (b.stepFails stage result).from_ stage = some b.src) ∧
      (4 < stage → stage ∈ (b.stepFails stage result).skip) := by
  have hsrc : (b.note b.ver stage b.src result).src = b.src := by unfold Boot.note; rfl
  unfold Boot.stepFails
  extract_lets b'
  change b'.src = b.src at hsrc
  clear_value b'
  rw [← hsrc]
  by_cases h : stage ≤ 4
  · rw [if_pos h]
    exact ⟨rfl, fun _ => Map.find?_ins_self .., fun hlate => absurd h (Nat.not_le.2 hlate)⟩
  · rw [if_neg h]
    exact ⟨rfl, fun hearly => absurd hearly h, fun _ => List.mem_append_right _ List.mem_cons_self⟩

/-- A chain whose first stage is required and finds no image ends in recovery (R351). -/
theorem chain_recovers {b : Boot} {stage : Nat} (hstage : stage ≤ 4) (hflash : b.flash = []) (hnvme : b.nvme = [])
    (hskip : b.skip = []) (rs : List Bool) (later : List Nat) :
    (b.chain rs (stage :: later)).phase = .recovery ∧ (b.chain rs (stage :: later)).count = b.count := by
  obtain ⟨b', hfailed, hcount⟩ := try_fails stage rs (b.sources stage) b hflash hnvme
  unfold Boot.chain
  simp only [hskip, List.contains_nil, Bool.false_eq_true, if_false, hfailed, if_pos hstage]
  exact ⟨trivial, hcount⟩

/-- In recovery only the PF is present, and cores and contexts are empty (R353). -/
theorem booted_recovery {b : Boot} (s : State) (h : b.phase = .recovery) :
    s.booted b = { s with m := s.m.cleared, p := { Plat.reset with fns := startFns false, boot := { b with commit := [] } } } := by
  unfold State.booted
  rw [if_neg (by rw [h]; exact Phase.noConfusion), if_pos h]

/-- A loss of power takes the package down, in the middle of a journal entry only where a start writes one (R352). -/
theorem powerLoss_downs {s : State} {mid : Bool} (hphase : s.p.boot.phase ≠ .off)
    (hmid : mid = false ∨ ∃ stage, s.p.boot.phase = .waiting stage) : exec (.powerLoss mid) s = .next (s.down s.p.boot) := by
  refine at_next rfl ?_
  cases h : s.p.boot.phase with
  | off => exact absurd h hphase
  | waiting stage => rfl
  | ready =>
    rcases hmid with rfl | ⟨stage, hw⟩
    · rfl
    · rw [h] at hw; cases hw
  | recovery =>
    rcases hmid with rfl | ⟨stage, hw⟩
    · rfl
    · rw [h] at hw; cases hw

/-- Settles O51, by the phase that the event finds the package in. -/
theorem bootEvents : Obligations.BootEvents := by
  refine ⟨fun rs s h => packageStart_starts h rs, fun rs s h => at_not rfl (by rw [h]), fun stage s h => ?waiting,
    fun stage result b => stepFails_avoids b stage result, fun rs s hphase hflash hnvme hskip => ?empty,
    fun s mid hphase hmid => ?loss, fun s mid h => ⟨at_not rfl (by rw [h]), at_not rfl (by rw [h])⟩⟩
  case waiting => exact ⟨packageStart_waits h, packageStart_fails h, stageTimeout_fails h, packageStart_goesOn h⟩
  case empty =>
    obtain ⟨hrec, hcount⟩ := chain_recovers (b := { s.p.boot with count := s.p.boot.count + 1, meas := [], commit := [] })
      (stage := 1) (by decide) hflash hnvme hskip rs [2, 3, 4, 5, 6]
    refine ⟨_, (packageStart_starts hphase rs).trans (congrArg _ (booted_recovery s hrec)), hrec, hcount, ⟨_, rfl, rfl, rfl⟩, rfl, rfl⟩
  case loss => exact ⟨_, powerLoss_downs hphase hmid, rfl, rfl, rfl, rfl, rfl, rfl, rfl, rfl, rfl⟩

end Sys2Proof.Machine
end

section
/-!
PROOFS. Entry to trap mode and return from it (18 R286 to R289, R291, R293).
-/

namespace Sys2Proof.Machine

/-! Entry (R286 to R288). -/

section
variable {m : Mach} {k : Nat} {f : FaultInfo}

/-- A fault in trap mode stops the context (R288). -/
theorem deliver_trapMode (h : (m.warp k).trap.isSome = true) : deliver m k (.trap f) = stopCtx m (m.ctxOf k) 2 (some (k, f)) := if_pos h

variable {m1 : Mach}

/-- Outside trap mode a fault whose record is written enters it. -/
theorem deliver_recorded (h : (m.warp k).trap = none) (hcause : ¬ (f.cause = .trapi ∨ f.cause = .brk ∨ f.cause = .preempt))
    (hrec : putRecord m (m.ctxOf k) (recordBytes m 1 k f 0 (tclass (m.warp k) f.sc 0 0) 0) = .written m1) :
    deliver m k (.trap f) = enterTrap m1 k f 0 0 0 := by
  have hout : ¬ (m.warp k).trap.isSome = true := by rw [h]; decide
  show takeTrap m k f = _
  unfold takeTrap
  simp only [if_neg hout, if_neg hcause, hrec]

/-- The debugger's hold whose record is written (21 R342). -/
theorem debugHold_written {point : Bool} (hrec : putRecord m (m.ctxOf k) (recordBytes m 1 k f 0 (tclass (m.warp k) f.sc 0 0) 0) = .written m1) :
    debugHold m k point f = m1.updWarp k (fun w => { w with run := .debug, pass := point, halt := w.halt && !point }) := by
  unfold debugHold
  simp only [hrec]

end

section
variable {q : Req} {s : State} {m : Mach} {ms : List Nat} {body : Mach → List Nat → Except Stop Mach} {f : FaultInfo}
  (hsc : q.sc < 2) (hg : Goes q s m ms)
include hsc hg

/-- An instruction of one warp that faults in trap mode stops its context. -/
theorem issueTo_trapMode (htrap : (m.warp s.cur).trap.isSome = true) (hb : body m [s.cur] = .error (.trap f)) :
    issueTo q body s = .next { s with m := stopCtx m (m.ctxOf s.cur) 2 (some (s.cur, f)) } := by
  obtain rfl := goes_alone hsc hg
  have hwiden : widen q.sc (.trap f) = .trap f := if_neg (Nat.not_le.2 hsc)
  rw [issueTo_stops hg hb, hwiden, deliver_trapMode htrap]

/-- One that retires and enters trap mode behind itself (R287). -/
theorem issueTo_traps (hwords : q.words = 1) (htrap : (m.warp s.cur).trap = none) (hcause : f.cause = .trapi ∨ f.cause = .brk)
    (hb : body m [s.cur] = .ok (trapAfter q m s.cur f)) :
    ∃ t m1, issueTo q body s = .next t ∧ Ends s { t with m := m1 } 1 [s.cur] m ∧
      Entered s.cur f 0 (tclass (m.warp s.cur) f.sc 0 0) m1 t.m := by
  obtain ⟨rfl, -, hhere⟩ := goes_values hsc hg
  exact ⟨_, retire q m [s.cur], issueTo_mach hg hb, ⟨rfl, rfl, rfl, hwords ▸ retired_one q m s.cur⟩,
    trapAfter_entered q m s.cur f htrap hhere (hcause.imp_right .inl)⟩

end

/-- Under a debugger BRK writes its record, and the warp retires it and halts (R293; 21 R342). -/
theorem brkBody_holds {x : FBRK} {m m1 : Mach} {k : Nat} (hhere : (Map.find? m.warps k).isSome = true) (htrap : (m.warp k).trap = none)
    (hdebug : debugged m (m.ctxOf k) = true) (hrec : putRecord m (m.ctxOf k) (recordBytes m 1 k
      { m.fault k 1 .brk with tpc := (m.warp k).path.pc + 4, tinfo := x.code.setWidth 32 } 0 (tclass (m.warp k) 1 0 0) 0) = .written m1) :
    brkBody x m [k] = .ok (retire (brkReq x) (m1.updWarp k (fun w => { w with run := .debug, pass := false, halt := w.halt && !false })) [k]) := by
  have hout : ¬ (m.warp k).trap.isSome = true := by rw [htrap]; decide
  have hhere1 : (Map.find? m1.warps k).isSome = true := by rw [putRecord_warps hrec]; exact hhere
  unfold brkBody
  simp only [List.headD_cons, if_neg hout, if_pos hdebug, debugHold_written hrec, Mach.warp_updWarp_self _ hhere1, if_true]

/-- Settles O37: a fault by its record and the warp's mode; TRAP and BRK retire first. -/
theorem trapEntryRules : Obligations.TrapEntryRules := by
  refine ⟨fun m k f hhere => ⟨fun htrap h1 h2 h3 m1 hrec => ?recorded, deliver_trapMode⟩, fun x s m ms hg => ?trap, fun x s m ms hg => ?brk⟩
  case recorded =>
    have hwarp : m1.warp k = m.warp k := congrArg (fun l => (Map.find? l k).getD default) (putRecord_warps hrec)
    rw [deliver_recorded htrap (by simp [h1, h2, h3]) hrec, ← hwarp]
    exact entered_enter m1 k f 0 0 0
  case trap =>
    intro f
    have hsc : (trapReq x).sc < 2 := x.sc.isLt
    have hone : [s.cur].headD 0 = s.cur := rfl
    exact ⟨fun htrap => issueTo_traps hsc hg rfl htrap (.inl rfl) (if_neg (by rw [hone, htrap]; decide)),
      fun htrap => issueTo_trapMode hsc hg htrap (if_pos htrap)⟩
  case brk =>
    intro f
    have hsc : (brkReq x).sc < 2 := Nat.one_lt_two
    have hone : [s.cur].headD 0 = s.cur := rfl
    obtain ⟨-, -, hhere⟩ := goes_values hsc hg
    refine ⟨fun htrap hdebug => issueTo_traps hsc hg rfl htrap (.inr rfl)
        ((if_neg (by rw [hone, htrap]; decide)).trans (if_neg (by rw [hone, hdebug]; decide))),
      fun htrap hdebug m1 hrec => issueTo_ends1 hsc hg (brkBody_holds hhere htrap hdebug hrec),
      fun htrap => issueTo_trapMode hsc hg htrap (if_pos htrap)⟩

/-! Return (R289). -/

theorem updWarp_here {m : Mach} {k : Nat} (f : Warp → Warp) (h : (Map.find? m.warps k).isSome = true) :
    (Map.find? (m.updWarp k f).warps k).isSome = true := by
  rw [Mach.updWarp, Map.find?_upd_self, Option.isSome_map]; exact h

/-- TRET takes its mode's effect on the machine in which the warp has retired it. -/
theorem tret_takes {x : FOA} {s : State} {m : Mach} {ms : List Nat} (hg : Goes (tretReq x) s m ms) :
    exec (.tret x) s = .next { s with
      m := tretMode (m.updWarp s.cur (retireWarp (tretReq x) true)) s.cur ((m.warp s.cur).getS x.a.toNat) } := by
  obtain rfl := goes_alone (q := tretReq x) Nat.one_lt_two hg
  exact issueTo_mach (q := tretReq x) hg rfl

section
variable {m : Mach} {k : Nat} {mode : Word}

theorem tretMode_resumes (h : mode.toNat = 0) : tretMode m k mode = trapResume m k := if_pos (BitVec.eq_of_toNat_eq h)

theorem tretMode_exits (h : mode.toNat = 1) : tretMode m k mode = exitWarp m k := by
  obtain rfl : mode = 1 := BitVec.eq_of_toNat_eq h
  rfl

theorem tretMode_exitsBlock (h : mode.toNat = 2) : tretMode m k mode = exitBlock m (m.warp k).block := by
  obtain rfl : mode = 2 := BitVec.eq_of_toNat_eq h
  rfl

theorem tretMode_stops (h : mode.toNat = 3) : tretMode m k mode = stopCtx m (m.ctxOf k) 3 none := by
  obtain rfl : mode = 3 := BitVec.eq_of_toNat_eq h
  rfl

theorem tretMode_invalid (h : 3 < mode.toNat) : tretMode m k mode = stopCtx m (m.ctxOf k) 4 none := by
  have hne : ∀ v : Word, v.toNat ≤ 3 → mode ≠ v := by rintro v hv rfl; omega
  unfold tretMode
  rw [if_neg (hne 0 (by decide)), if_neg (hne 1 (by decide)), if_neg (hne 2 (by decide)), if_neg (hne 3 (by decide))]

end

/-- A warp that reports no wide fault, is a member of none and has no PREEMPT due resumes with no effect on others. -/
theorem trapResume_quiet {m : Mach} {k : Nat} {w : Warp} (hhere : (Map.find? m.warps k).isSome = true) (hw : resumePaths (m.warp k) = w)
    (hblock : w.block = (m.warp k).block) (hwides : ∀ y ∈ (m.blockOf k).wides, y.reporter ≠ some k ∧ y.members.getLsbD w.idx = false)
    (hdue : w.preemptDue = none) : trapResume m k = m.updWarp k resumePaths := by
  have hat : (m.updWarp k resumePaths).warp k = w := (Mach.warp_updWarp_self _ hhere).trans hw
  have hmine : (m.updWarp k resumePaths).blockOf k = m.blockOf k := by
    unfold Mach.blockOf
    rw [hat, hblock]
    rfl
  have hnone : pendingWide (m.updWarp k resumePaths) k = none := by
    refine List.find?_eq_none.2 fun y hy => ?_
    change y ∈ ((m.updWarp k resumePaths).blockOf k).wides at hy
    rw [hmine] at hy
    rw [hat, (hwides y hy).2]
    exact Bool.false_ne_true
  unfold trapResume
  rw [releaseWide_none (fun y hy => (hwides y (hmine ▸ hy)).1)]
  simp only [hnone]
  unfold deliverPreempt
  simp only [hat, hdue]
  cases w.trap <;> rfl

/-- A retirement without a step keeps what does not look at the marks of waiting and the futures. -/
theorem retireWarp_keeps (q : Req) (b : Bool) (w : Warp) {α : Type} (f : Warp → α) (hf : ∀ (w : Warp) futs sig prog kept pts,
    f { w with futs := futs, wait := none, sig := sig, urgent := false, passed := 0, justActive := false, prog := prog, kept := kept,
               pts := pts } = f w) : f (retireWarp q b w) = f w := by
  rw [retireWarp_eq]
  exact hf ..

/-- With mode 0, a warp all of whose frozen paths have live lanes returns to them, and nothing else happens. -/
theorem tret_resumes {x : FOA} {s : State} {m : Mach} {ms : List Nat} {t : TrapSt} {p : Machine.Path} {r : List Machine.Path}
    (hg : Goes (tretReq x) s m ms) (hmode : ((m.warp s.cur).getS x.a.toNat).toNat = 0) (htrap : (m.warp s.cur).trap = some t)
    (hpaths : t.paths = p :: r) (hlive : ∀ y ∈ t.paths, y.mask &&& (m.warp s.cur).live ≠ 0)
    (hwides : ∀ y ∈ (m.blockOf s.cur).wides, y.reporter ≠ some s.cur ∧ y.members.getLsbD (m.warp s.cur).idx = false)
    (hdue : (m.warp s.cur).preemptDue = none) : exec (.tret x) s =
      .next { s with m := (m.updWarp s.cur (retireWarp (tretReq x) true)).updWarp s.cur resumePaths } := by
  obtain ⟨-, -, hhere⟩ := goes_values (q := tretReq x) Nat.one_lt_two hg
  have hat : (m.updWarp s.cur (retireWarp (tretReq x) true)).warp s.cur = retireWarp (tretReq x) true (m.warp s.cur) :=
    Mach.warp_updWarp_self _ hhere
  have hkeeps := @retireWarp_keeps (tretReq x) true (m.warp s.cur)
  have hidle : (m.updWarp s.cur (retireWarp (tretReq x) true)).blockOf s.cur = m.blockOf s.cur := by
    unfold Mach.blockOf
    rw [hat, hkeeps Warp.block fun _ _ _ _ _ _ => rfl]
    rfl
  obtain ⟨-, -, -, -, -, -, -, hblock, hidx, hpre, -⟩ :=
    resumePaths_live ((hkeeps Warp.trap fun _ _ _ _ _ _ => rfl).trans htrap) hpaths
      (fun y hy => (hkeeps Warp.live fun _ _ _ _ _ _ => rfl) ▸ hlive y hy)
  rw [tret_takes hg, tretMode_resumes hmode,
    trapResume_quiet (updWarp_here _ hhere) (congrArg resumePaths hat) (hblock.trans (congrArg Warp.block hat.symm)) ?_ ?_]
  · rw [hidle, hidx, hkeeps Warp.idx fun _ _ _ _ _ _ => rfl]
    exact hwides
  · rw [hpre, hkeeps Warp.preemptDue fun _ _ _ _ _ _ => rfl]
    exact hdue

/-- Settles O38: TRET by its mode; with mode 0 the frozen paths return as `resumePaths_live` says. -/
theorem trapReturn : Obligations.TrapReturn := by
  intro x s m ms hg w mode m1
  have htret := tret_takes hg
  refine ⟨fun hmode tr p r htrap hpaths hlive hwides hdue => ?resume, fun hmode => ?warp, fun hmode => ?block, fun hmode => ?stop,
    fun hmode => ?invalid⟩
  case warp => rw [htret, tretMode_exits hmode]
  case block => rw [htret, tretMode_exitsBlock hmode]; rfl
  case stop => rw [htret, tretMode_stops hmode]
  case invalid => rw [htret, tretMode_invalid hmode]
  case resume =>
    obtain ⟨-, hA, hhere⟩ := goes_values (q := tretReq x) Nat.one_lt_two hg
    have hkeeps := @retireWarp_keeps (tretReq x) true w
    have hlive1 := hkeeps Warp.live fun _ _ _ _ _ _ => rfl
    obtain ⟨htr, hrun, hrecs, hv, hp, hff, hs, -, -, -, hps⟩ :=
      resumePaths_live ((hkeeps Warp.trap fun _ _ _ _ _ _ => rfl).trans htrap) hpaths (fun y hy => hlive1 ▸ hlive y hy)
    have hme : (m1.updWarp s.cur resumePaths).warp s.cur = resumePaths (retireWarp (tretReq x) true w) :=
      (Mach.warp_updWarp_self _ (updWarp_here _ hhere)).trans (congrArg resumePaths (Mach.warp_updWarp_self _ hhere))
    refine ⟨{ s with m := m1.updWarp s.cur resumePaths }, tret_resumes hg hmode htrap hpaths hlive hwides hdue, rfl, rfl, rfl, ?rest,
      ?others, ?own⟩
    case rest =>
      show m.rest = s.m.rest
      rw [hA.machine]
      rfl
    case others => exact others_trans hA.others (others_trans (others_upd _ _ _) (others_upd _ _ _))
    case own =>
      unfold State.me
      rw [hme, htr, hrun, hrecs, hv, hp, hff, hs, hps, hlive1, hkeeps Warp.tpc fun _ _ _ _ _ _ => rfl,
        hkeeps Warp.s fun _ _ _ _ _ _ => rfl]
      refine ⟨rfl, rfl, rfl, hkeeps Warp.v fun _ _ _ _ _ _ => rfl, hkeeps Warp.p fun _ _ _ _ _ _ => rfl,
        hkeeps Warp.fflags fun _ _ _ _ _ _ => rfl, fun n hn => ?low, fun n h1 h2 => ?bank, _, rfl, fun hwr => ?written,
        fun cl hcl hstop => ?past, fun hwr cl hcl hstop => ?inside⟩
      case low => rw [get_dropRange, if_neg (by omega)]
      case bank => rw [get_dropRange, if_pos ⟨h1, h2⟩]
      case written => rw [hwr]; rfl
      case past => rw [hcl]; simp [hstop]
      case inside => rw [hcl, hwr]; simp [hstop]

end Sys2Proof.Machine
end

section
/-!
PROOFS. The intake of weight sets (20 R320 to R322, R324, R325).
-/

namespace Sys2Proof.Machine

section
variable {fn : Nat} {s : State}

/-! The head of the intake ring (R320). -/

theorem intake_idle (h : intakeHead s fn = none) : NotDue (.genopen fn) s ∧ NotDue (.shard fn) s ∧ NotDue (.genabort fn) s :=
  ⟨at_not rfl (by rw [h]), at_not rfl (by rw [h]), at_not rfl (by rw [h])⟩

section
variable {bs : List Byte} (hhead : intakeHead s fn = some bs)
include hhead

/-! GENOPEN (R321). -/

section
variable (hshard : fieldAt bs 0 1 ≠ 2) (habort : fieldAt bs 0 1 ≠ 3)
include hshard habort

theorem genopen_refused (hst : genopenStatus s.m fn bs ≠ 0) : exec (.genopen fn) s =
    .next (report (intakeTaken s fn) fn (statusBytes 5 (fieldAt bs 1 1) (fieldAt bs 2 1) 0 (genopenStatus s.m fn bs))) := by
  refine at_next rfl ?_
  simp only [hhead, if_neg (not_or.2 ⟨hshard, habort⟩), if_pos hst]

/-- The generation that a GENOPEN opens at a device time. -/
def openedGen (bs : List Byte) (ns : Nat) : Gen :=
  { base := fieldAt bs 8 8, length := fieldAt bs 0x10 8, count := fieldAt bs 4 4, good := [], pend := [], rereads := [],
    report := fieldAt bs 0x20 8, assembling := true, expires := ns + 1000000 * fieldAt bs 0x18 4, pts := 0 }

theorem genopen_opens (hst : genopenStatus s.m fn bs = 0) : exec (.genopen fn) s =
    let s1 := intakeTaken s fn
    .next { s1 with m := s1.m.tickOn.updSet (fieldAt bs 1 1) (fieldAt bs 2 1) (fun w =>
      { w with nextGen := w.nextGen + 1, gens := Map.ins w.gens w.nextGen (openedGen bs s1.m.tickOn.ns) }) } := by
  refine at_next rfl ?_
  simp only [hhead, if_neg (not_or.2 ⟨hshard, habort⟩), if_neg (not_not_intro hst)]
  rfl

end

/-! GENABORT (R321, R324). -/

section
variable (hcode : fieldAt bs 0 1 = 3)
include hcode

theorem genabort_foreign (hown : ownCtx s.m fn (fieldAt bs 1 1) = none) : exec (.genabort fn) s =
    .next (report (intakeTaken s fn) fn (statusBytes 5 (fieldAt bs 1 1) (fieldAt bs 2 1) 0 8)) := by
  have hown1 : ownCtx (intakeTaken s fn).m fn (fieldAt bs 1 1) = none := hown
  refine at_next rfl ?_
  simp only [hhead, hcode, hown1, Option.isNone_none, if_true, ne_eq, not_true_eq_false, if_false]

variable {x : Ctx} {w : WeightSet} (hown : ownCtx s.m fn (fieldAt bs 1 1) = some x)
  (hset : weightSet s.m (fieldAt bs 1 1) (fieldAt bs 2 1) = some w)
include hown hset

theorem genabort_aborts {g : Nat × Gen} (hzero : zeroAt bs 3 61 = true) (hg : w.assembling = some g) :
    exec (.genabort fn) s = .next (timeOutGen (intakeTaken s fn) fn (fieldAt bs 1 1) (fieldAt bs 2 1) g) := by
  have hown1 : ownCtx (intakeTaken s fn).m fn (fieldAt bs 1 1) = some x := hown
  have hset1 : weightSet (intakeTaken s fn).m (fieldAt bs 1 1) (fieldAt bs 2 1) = some w := hset
  refine at_next rfl ?_
  simp only [hhead, hcode, hown1, hset1, hzero, hg, Option.isNone_some, Option.bind_some, ne_eq, not_true_eq_false, Bool.false_eq_true,
    if_false, if_true]

theorem genabort_unopened (hg : w.assembling = none) : exec (.genabort fn) s =
    .next (report (intakeTaken s fn) fn (statusBytes 5 (fieldAt bs 1 1) (fieldAt bs 2 1) 0 1)) := by
  have hown1 : ownCtx (intakeTaken s fn).m fn (fieldAt bs 1 1) = some x := hown
  have hset1 : weightSet (intakeTaken s fn).m (fieldAt bs 1 1) (fieldAt bs 2 1) = some w := hset
  refine at_next rfl ?_
  simp only [hhead, hcode, hown1, hset1, hg, Option.isNone_some, Option.bind_some, ite_self, ne_eq, not_true_eq_false,
    Bool.false_eq_true, if_false]

end

/-! SHARD (R322). -/

section
variable (hcode : fieldAt bs 0 1 = 2)
include hcode

/-- A SHARD that is refused with a status. -/
def shardRefused (s : State) (fn : Nat) (bs : List Byte) (st : Nat) : State :=
  report (intakeTaken s fn) fn (statusBytes 5 (fieldAt bs 1 1) (fieldAt bs 2 1) 0 st)

theorem shard_foreign (hown : ownCtx s.m fn (fieldAt bs 1 1) = none) : exec (.shard fn) s = .next (shardRefused s fn bs 8) := by
  refine at_next rfl ?_
  simp only [hhead, hcode, hown, ne_eq, not_true_eq_false, if_false]
  rfl

variable {x : Ctx} (hown : ownCtx s.m fn (fieldAt bs 1 1) = some x)
include hown

theorem shard_unregistered (hset : weightSet s.m (fieldAt bs 1 1) (fieldAt bs 2 1) = none) :
    exec (.shard fn) s = .next (shardRefused s fn bs 1) := by
  refine at_next rfl ?_
  simp only [hhead, hcode, hown, hset, ne_eq, not_true_eq_false, if_false]
  rfl

variable {w : WeightSet} (hset : weightSet s.m (fieldAt bs 1 1) (fieldAt bs 2 1) = some w)
include hset

theorem shard_malformed (hbad : shardOk bs = false) : exec (.shard fn) s = .next (shardRefused s fn bs 1) := by
  refine at_next rfl ?_
  simp only [hhead, hcode, hown, hset, hbad, Bool.not_false, ne_eq, not_true_eq_false, if_false, if_true]
  rfl

variable (hok : shardOk bs = true)
include hok

theorem shard_ungranted (hsource : (shardOf bs).source = 2) (hns : (shardOf bs).ns ∉ x.nvme) :
    exec (.shard fn) s = .next (shardRefused s fn bs 8) := by
  have hdenied : (shardOf bs).source = 2 ∧ (!x.nvme.contains (shardOf bs).ns) = true := ⟨hsource, by simpa using hns⟩
  refine at_next rfl ?_
  simp only [hhead, hcode, hown, hset, hok, if_pos hdenied, Bool.not_true, Bool.false_eq_true, ne_eq, not_true_eq_false, if_false]
  rfl

/-- A SHARD that its source's grant lets through, by the set's assembling generation. -/
theorem shard_granted (hns : (shardOf bs).source ≠ 2 ∨ (shardOf bs).ns ∈ x.nvme) : exec (.shard fn) s = eventAt s
    (match w.assembling with
     | none => if w.nextGen = 1 then some (shardRefused s fn bs 1) else some (intakeTaken s fn)
     | some g => some (submitShard s fn (fieldAt bs 1 1) (fieldAt bs 2 1) w g (shardOf bs))) := by
  have hgranted : ¬ ((shardOf bs).source = 2 ∧ (!x.nvme.contains (shardOf bs).ns) = true) := by
    rintro ⟨hsource, hno⟩
    exact hns.elim (absurd hsource) fun hin => by simp [hin] at hno
  show execShard fn s = _
  unfold execShard
  simp only [hhead, hcode, hown, hset, hok, if_neg hgranted, Bool.not_true, Bool.false_eq_true, ne_eq, not_true_eq_false, if_false]
  rfl

end

end

end

/-! Time-outs, completions and code errors (R324). -/

theorem generationTimeout_fails {c i : Nat} {x : Ctx} {w : WeightSet} {g : Nat × Gen} {s : State} (hx : Map.find? s.m.ctxs c = some x)
    (hw : Map.find? x.wsets i = some w) (hg : w.assembling = some g) : exec (.generationTimeout c i) s =
      .next (timeOutGen { s with m := { s.m with ns := max s.m.ns g.2.expires } } x.fn c i g) :=
  at_next rfl (by rw [hx, Option.bind_some, hw, Option.bind_some, hg, Option.map_some])

section
variable {c i idx fn : Nat} {g : Nat × Gen} {sh : Shard} {s : State} (hp : shardPending s c i idx = some (fn, g, sh))
include hp

section
variable {data : List Byte}

theorem shardComplete_good {m : Mach} {pts : Nat} (h : placeShard s.m c g.2 sh data = .done m pts) :
    exec (.shardComplete c i idx data) s = .next (shardGood { s with m := m } fn c i g.1 idx pts) :=
  at_next rfl (by simp only [hp, Option.map_some, h])

theorem shardComplete_fatal (h : placeShard s.m c g.2 sh data = .fatal) :
    exec (.shardComplete c i idx data) s = .next (failGen s fn c i g.1) := at_next rfl (by simp only [hp, Option.map_some, h])

theorem shardComplete_misses {e : EngFail} (h : placeShard s.m c g.2 sh data = .miss e) :
    Does (.shardComplete c i idx data) s (tableFails s.m c 0 e) := at_does rfl (by simp only [hp, Option.map_some, h])

end

/-- A code error of an NVMe source is retried three times. -/
theorem shardCodeError_rereads (hsource : sh.source = 2) (hfew : (Map.find? g.2.rereads idx).getD 0 < 3) :
    Does (.shardCodeError c i idx) s (s.m.updSet c i (fun w =>
      { w with gens := Map.upd w.gens g.1 (fun g' =>
        { g' with rereads := Map.ins g'.rereads idx ((Map.find? g.2.rereads idx).getD 0 + 1) }) })) := by
  refine at_does rfl ?_
  simp only [hp, Option.map_some, if_pos (And.intro hsource hfew)]

theorem shardCodeError_reports (h : sh.source ≠ 2 ∨ 3 ≤ (Map.find? g.2.rereads idx).getD 0) : exec (.shardCodeError c i idx) s =
    .next (report { s with m := s.m.updSet c i (fun w => { w with gens := Map.upd w.gens g.1 (fun g' =>
      { g' with pend := g'.pend.filter (fun y => y.idx != idx), rereads := Map.del g'.rereads idx }) }) } fn (statusBytes 1 c i g.1 idx)) := by
  have hno : ¬ (sh.source = 2 ∧ (Map.find? g.2.rereads idx).getD 0 < 3) := by
    rintro ⟨hsource, hfew⟩
    exact h.elim (absurd hsource) (absurd hfew ∘ Nat.not_lt.2)
  refine at_next rfl ?_
  simp only [hp, Option.map_some, if_neg hno]

end

theorem intakeStatusConsumer_flushes {fn : Nat} {f : Fn} {s : State} (hf : fnOf s fn = some f) (value : Word) :
    exec (.intakeStatusConsumer fn value) s = .next (flushStatus fn f.held (s.updFn fn (fun f =>
      { f with intakeStatus := { f.intakeStatus with cons := value.toNat } }))) := at_next rfl (by rw [hf, Option.map_some])

/-- Settles O49: the entry at the head of the ring by its code and checks; shards, errors and time-outs by the generation they find. -/
theorem intakeEvents : Obligations.IntakeEvents := by
  refine ⟨fun fn s => intake_idle, fun fn bs s hhead => ?entry, fun c i x w g s => generationTimeout_fails,
    fun c i idx fn g sh data s hp => ?shard, fun fn value f s hf => intakeStatusConsumer_flushes hf value⟩
  case entry =>
    intro code c i s1
    refine ⟨fun h2 h3 => ⟨genopen_refused hhead h2 h3, genopen_opens hhead h2 h3⟩,
      fun h3 => ⟨genabort_foreign hhead h3, fun x w g hown hset => genabort_aborts hhead h3 hown hset,
        fun x w hown hset => genabort_unopened hhead h3 hown hset⟩, fun h2 => ?shardEntry⟩
    intro refuses
    refine ⟨shard_foreign hhead h2, fun x hown hset => shard_unregistered hhead h2 hown hset, fun x w hown hset => ?registered⟩
    refine ⟨shard_malformed hhead h2 hown hset, shard_ungranted hhead h2 hown hset, fun hok hns => ?granted⟩
    have hev := shard_granted hhead h2 hown hset hok hns
    exact ⟨fun hasm hfirst => at_next hev (by rw [hasm]; exact if_pos hfirst),
      fun hasm hlater => at_next hev (by rw [hasm]; exact if_neg hlater), fun g hasm => at_next hev (by rw [hasm])⟩
  case shard =>
    exact ⟨fun m pts => shardComplete_good hp, shardComplete_fatal hp, fun e => shardComplete_misses hp,
      shardCodeError_rereads hp, shardCodeError_reports hp⟩

end Sys2Proof.Machine
end

section
/-!
PROOFS. Debugger commands, and the commands that act in recovery too (21 R340, R342; 23 R354, R355).
-/

namespace Sys2Proof.Machine

/-! The debugger (R340, R342). -/

section
variable {i : Instr} {fn c : Nat} {s : State} {f : Mach → Option Mach} (ht : Takes fn s) (he : exec i s = debugCommand fn c s f)
include ht he

theorem debug_refused {st : Nat} (hx : mayCommand s.m fn c = .error st) : Replies i fn s s st [] :=
  cmd_takes ht he (by simp only [hx])

theorem debug_undebugged {x : Ctx} (hx : mayCommand s.m fn c = .ok x) (hd : debugged s.m c = false) : Replies i fn s s 1 [] :=
  cmd_takes ht he (by simp only [hx, hd, Bool.not_false, if_true])

end

/-- Stop and Release all of a context that the function may not command, or that is not debugged. -/
theorem debugAll_refused {fn c : Nat} {s : State} (ht : Takes fn s) : ∀ i ∈ [Instr.debugStop fn c, .debugReleaseAll fn c],
    (∀ st, mayCommand s.m fn c = .error st → Replies i fn s s st []) ∧
    (∀ x, mayCommand s.m fn c = .ok x → debugged s.m c = false → Replies i fn s s 1 []) := by
  intro i hi
  have he : ∃ f, exec i s = debugCommand fn c s f := by
    simp only [List.mem_cons, List.not_mem_nil, or_false] at hi
    rcases hi with rfl | rfl
    · exact ⟨_, execDebugStop.eq_def ..⟩
    · exact ⟨_, execDebugReleaseAll.eq_def ..⟩
  obtain ⟨f, hf⟩ := he
  exact ⟨fun st => debug_refused ht hf, fun x => debug_undebugged ht hf⟩

section
variable {fn c : Nat} {x : Ctx} {s : State} (ht : Takes fn s) (hx : mayCommand s.m fn c = .ok x) (hd : debugged s.m c = true)
include ht hx hd

theorem debugStop_halts : Debugs (.debugStop fn c) fn s (s.m.updWarps (ctxWarps s.m c) (fun _ w => { w with halt := true })) :=
  (dbg_takes (i := .debugStop fn c) ht (execDebugStop.eq_def ..) hx hd).1 _ rfl

theorem debugReleaseAll_releases : Debugs (.debugReleaseAll fn c) fn s (s.m.updWarps (ctxWarps s.m c) (fun _ w =>
    { w with run := if w.run = .debug then .ready else w.run, trap := w.trap.map (fun (t : TrapSt) => { t with debug := false }) })) :=
  (dbg_takes (i := .debugReleaseAll fn c) ht (execDebugReleaseAll.eq_def ..) hx hd).1 _ (by simp only [beq_iff_eq])

section
variable {n : WarpName}

theorem debugWarp_unheld (hn : debugWarp s.m c n = none) :
    Replies (.debugReleaseWarp fn c n) fn s s 1 [] ∧ Replies (.debugDump fn c n) fn s s 1 [] :=
  ⟨(dbg_takes (i := .debugReleaseWarp fn c n) ht (execDebugReleaseWarp.eq_def ..) hx hd).2 (by rw [hn]; rfl),
    (dbg_takes (i := .debugDump fn c n) ht (execDebugDump.eq_def ..) hx hd).2 (by rw [hn]; rfl)⟩

variable {k : Nat} (hn : debugWarp s.m c n = some k)
include hn

theorem debugReleaseWarp_releases :
    Debugs (.debugReleaseWarp fn c n) fn s (s.m.updWarp k (fun w => { w with run := .ready })) :=
  (dbg_takes (i := .debugReleaseWarp fn c n) ht (execDebugReleaseWarp.eq_def ..) hx hd).1 _ (by rw [hn]; rfl)

theorem debugDump_writes {m : Mach} (hm : recordWrite s.m (s.m.warp k).block (dumpWrites s.m k) = some m) :
    Debugs (.debugDump fn c n) fn s m :=
  (dbg_takes (i := .debugDump fn c n) ht (execDebugDump.eq_def ..) hx hd).1 _ (by simp only [hn, Option.map_some, hm, Option.getD_some])

end

section
variable {e : Nat} (code ord : Nat)

theorem breakpoint_sets (he : e < 16) : Debugs (.debugSetBreakpoint fn c e code ord) fn s
    (s.m.updCtx c (fun x => { x with breaks := Map.ins x.breaks e { code := code, ordinal := ord } })) :=
  (dbg_takes (i := .debugSetBreakpoint fn c e code ord) ht (execDebugSetBreakpoint.eq_def ..) hx hd).1 _ (if_neg (Nat.not_le.2 he))

theorem breakpoint_clears (he : e < 16) : Debugs (.debugClearBreakpoint fn c e) fn s
    (s.m.updCtx c (fun x => { x with breaks := Map.del x.breaks e })) :=
  (dbg_takes (i := .debugClearBreakpoint fn c e) ht (execDebugClearBreakpoint.eq_def ..) hx hd).1 _ (if_neg (Nat.not_le.2 he))

theorem breakpoint_outside (he : 16 ≤ e) :
    Replies (.debugSetBreakpoint fn c e code ord) fn s s 1 [] ∧ Replies (.debugClearBreakpoint fn c e) fn s s 1 [] :=
  ⟨(dbg_takes (i := .debugSetBreakpoint fn c e code ord) ht (execDebugSetBreakpoint.eq_def ..) hx hd).2 (if_pos he),
    (dbg_takes (i := .debugClearBreakpoint fn c e) ht (execDebugClearBreakpoint.eq_def ..) hx hd).2 (if_pos he)⟩

end

end

/-! ATTEST and IDENTITY (R354, R355). -/

section
variable {fn addr : Nat} {s : State} (ht : TakesEarly fn s)
include ht

section
variable {nonce : List Byte}

theorem attest_misaligned (h : addr % 8 ≠ 0) : Replies (.attest fn nonce addr) fn s s 1 [] :=
  boot_takes (i := .attest fn nonce addr) ht (execAttest.eq_def ..) (if_pos h)

theorem attest_reports (h : addr % 8 = 0) :
    let s1 : State := { s with m := s.m.tickOn }
    let body := reportBody s1 fn (padTo 32 0 nonce)
    Replies (.attest fn nonce addr) fn s (s1.toHost fn addr (body ++ padTo 64 0 (Config.deviceSign (Config.sha256 body)))) 0 [] :=
  boot_takes (i := .attest fn nonce addr) ht (execAttest.eq_def ..) (if_neg (not_not_intro h))

end

theorem identity_short {len : Nat} (h : len < (Config.certificate.take 2048).length) : Replies (.identity fn addr len) fn s s 9 [] :=
  boot_takes (i := .identity fn addr len) ht (execIdentity.eq_def ..) (if_pos h)

theorem identity_writes {len : Nat} (h : (Config.certificate.take 2048).length ≤ len) :
    Replies (.identity fn addr len) fn s (s.toHost fn addr (Config.certificate.take 2048)) 0
      [(4, bytesOfNat 4 (Config.certificate.take 2048).length)] :=
  boot_takes (i := .identity fn addr len) ht (execIdentity.eq_def ..) (if_neg (Nat.not_lt.2 h))

/-! JOURNAL and IMAGEWRITE (R354). -/

theorem journal_denied (h : fn ≠ 0) : Replies (.journalRead fn addr) fn s s 8 [] ∧ Replies (.journalClear fn) fn s s 8 [] :=
  ⟨boot_takes (i := .journalRead fn addr) ht (execJournalRead.eq_def ..) (if_pos h),
    boot_takes (i := .journalClear fn) ht (execJournalClear.eq_def ..) (if_pos h)⟩

theorem imagewrite_denied {stage slot len : Nat} (h : fn ≠ 0) : Replies (.imagewrite fn stage slot addr len) fn s s 8 [] :=
  boot_takes (i := .imagewrite fn stage slot addr len) ht (execImagewrite.eq_def ..) (if_pos h)

end

section
variable {addr : Nat} {s : State} (ht : TakesEarly 0 s)
include ht

theorem journalRead_reads : Replies (.journalRead 0 addr) 0 s (s.toHost 0 addr s.p.boot.ring) 0 [] :=
  boot_takes (i := .journalRead 0 addr) ht (execJournalRead.eq_def ..) (if_neg (not_not_intro rfl))

theorem journalClear_clears : Replies (.journalClear 0) 0 s
    { s with p := { s.p with boot := { s.p.boot with journal := [], skip := [], from_ := [] } } } 0 [] :=
  boot_takes (i := .journalClear 0) ht (execJournalClear.eq_def ..) (if_neg (not_not_intro rfl))

section
variable {stage slot len : Nat}

theorem imagewrite_outside (h : stage = 0 ∨ 6 < stage ∨ 2 ≤ slot) : Replies (.imagewrite 0 stage slot addr len) 0 s s 1 [] :=
  boot_takes (i := .imagewrite 0 stage slot addr len) ht (execImagewrite.eq_def ..) ((if_neg (not_not_intro rfl)).trans (if_pos h))

variable (hlo : 1 ≤ stage) (hhi : stage ≤ 6) (hslot : slot < 2) {img : List Byte} (himg : fromHost s.m 0 addr len = some img)
include hlo hhi hslot himg

theorem imagewrite_rejects (h : (imgFails s.p.boot stage img).isSome = true) :
    Replies (.imagewrite 0 stage slot addr len) 0 s { s with m := s.m.tickOn } 1 [] := by
  have hrange : ¬ (stage = 0 ∨ 6 < stage ∨ 2 ≤ slot) := by omega
  refine boot_takes (i := .imagewrite 0 stage slot addr len) ht (execImagewrite.eq_def ..)
    ((if_neg (not_not_intro rfl)).trans ((if_neg hrange).trans ?_))
  simp only [himg, if_pos h]

theorem imagewrite_stores (h : imgFails s.p.boot stage img = none) : Replies (.imagewrite 0 stage slot addr len) 0 s
    { s with m := s.m.tickOn, p := { s.p with boot := { s.p.boot with
      flash := Map.ins s.p.boot.flash (2 * stage + slot) img, skip := s.p.boot.skip.filter (fun x => x != stage),
      from_ := Map.del s.p.boot.from_ stage } } } 0 [] := by
  have hrange : ¬ (stage = 0 ∨ 6 < stage ∨ 2 ≤ slot) := by omega
  refine boot_takes (i := .imagewrite 0 stage slot addr len) ht (execImagewrite.eq_def ..)
    ((if_neg (not_not_intro rfl)).trans ((if_neg hrange).trans ?_))
  simp only [himg, h, Option.isSome_none, Bool.false_eq_true, if_false]

end

end

/-- Settles O47, command by command: each answers by the first of its checks that fails, or with its effect. -/
theorem debugBootCommands : Obligations.DebugBootCommands := by
  refine ⟨⟨fun fn c s ht => debugAll_refused ht, fun fn c x s ht hx hd => ?debugger⟩,
    fun fn nonce addr s ht => ⟨attest_misaligned ht, attest_reports ht⟩, fun fn addr len s ht => ⟨identity_short ht, identity_writes ht⟩,
    fun fn addr s ht => ⟨journal_denied ht, ?journal⟩, fun stage slot addr len s ht => ⟨imagewrite_outside ht, fun hlo hhi hslot img himg =>
      ⟨imagewrite_rejects ht hlo hhi hslot himg, imagewrite_stores ht hlo hhi hslot himg⟩⟩,
    fun fn stage slot addr len s ht => imagewrite_denied ht⟩
  case debugger =>
    exact ⟨debugStop_halts ht hx hd, debugReleaseAll_releases ht hx hd, fun n => debugWarp_unheld ht hx hd,
      fun n k => debugReleaseWarp_releases ht hx hd, fun n k m hn => debugDump_writes ht hx hd hn,
      fun e code ord => breakpoint_sets ht hx hd code ord, fun e => breakpoint_clears ht hx hd,
      fun e code ord => breakpoint_outside ht hx hd code ord⟩
  case journal =>
    rintro rfl
    exact ⟨journalRead_reads ht, journalClear_clears ht⟩

end Sys2Proof.Machine
end

section
/-!
PROOFS. Commands of the PF on the platform (20 R306, R308, R310, R311, R313, R314, R316; 21 R338, R340).
-/

namespace Sys2Proof.Machine

section
variable {s : State} (ht : Takes 0 s)
include ht

/-! QUOTA (R306). -/

section
variable {vf n : Nat} {sec : Bool}

theorem quota_outside (h : vf = 0 ∨ 64 ≤ vf) : Replies (.quota 0 vf n sec) 0 s s 1 [] :=
  pf_takes (i := .quota 0 vf n sec) ht (execQuota.eq_def ..) (if_pos h)

theorem quota_sets (hne : vf ≠ 0) (hlt : vf < 64) :
    Replies (.quota 0 vf n sec) 0 s (s.updFn vf (fun f => { f with quota := n, secure := sec })) 0 [] :=
  pf_takes (i := .quota 0 vf n sec) ht (execQuota.eq_def ..) (if_neg (by omega))

end

/-! SLOTS (R313, R314). -/

section
variable {link : Nat} {es : List (BitVec 16)}

theorem slots_holds (hlink : Config.isLink link = true) (hlen : es.length = 512) (hok : ∀ e ∈ es, slotEntryOk e = true) :
    Replies (.slots 0 link es) 0 s
      { s with p := { s.p with slotsNext := Map.ins s.p.slotsNext link ((s.m.ns / 32000 + 2) * 32000, es) } } 0 [] :=
  pf_takes (i := .slots 0 link es) ht (execSlots.eq_def ..) (if_pos ⟨hlink, hlen, List.all_eq_true.2 hok⟩)

theorem slots_refused (h : ¬ (Config.isLink link = true ∧ es.length = 512 ∧ ∀ e ∈ es, slotEntryOk e = true)) :
    Replies (.slots 0 link es) 0 s s 1 [] :=
  pf_takes (i := .slots 0 link es) ht (execSlots.eq_def ..)
    (if_neg (fun ⟨hlink, hlen, hall⟩ => h ⟨hlink, hlen, List.all_eq_true.1 hall⟩))

end

/-! EXPORT (R316, R309). -/

section
variable {entry : Nat} {e : ExportEntry}

theorem export_refused (h : 4096 ≤ entry ∨ 2 < e.typ ∨ e.reserved ≠ 0) : Replies (.exportEntry 0 entry e) 0 s s 1 [] :=
  pf_takes (i := .exportEntry 0 entry e) ht (execExportEntry.eq_def ..) (if_pos h)

variable (hentry : entry < 4096) (hres : e.reserved = 0)
include hentry hres

theorem export_secure {x : Ctx} {h : HEntry} (hone : e.typ = 1) (hx : Map.find? s.m.ctxs e.ctx = some x)
    (hh : tableHandle s.m e.ctx default e.num = .ok (some h)) (hw : h.world = 1) : Replies (.exportEntry 0 entry e) 0 s s 8 [] := by
  refine pf_takes (i := .exportEntry 0 entry e) ht (execExportEntry.eq_def ..) ?_
  rw [if_neg (by omega)]
  simp only [hone, hx, hh, hw, Option.isSome_some, and_self, if_true, beq_self_eq_true]

theorem export_sets (htyp : e.typ ≤ 2) (hopen : e.typ ≠ 1 ∨ Map.find? s.m.ctxs e.ctx = none ∨
      ∀ h, tableHandle s.m e.ctx default e.num = .ok (some h) → h.world ≠ 1) :
    Replies (.exportEntry 0 entry e) 0 s { s with m := { s.m with exports := Map.ins s.m.exports entry e } } 0 [] := by
  refine pf_takes (i := .exportEntry 0 entry e) ht (execExportEntry.eq_def ..) ?_
  rw [if_neg (by omega)]
  by_cases hnamed : e.typ = 1 ∧ (Map.find? s.m.ctxs e.ctx).isSome = true
  · have hworld : ∀ h, tableHandle s.m e.ctx default e.num = .ok (some h) → h.world ≠ 1 :=
      (hopen.resolve_left (not_not_intro hnamed.1)).resolve_left (fun hnone => by rw [hnone] at hnamed; cases hnamed.2)
    simp only [if_pos hnamed]
    split
    · next h hh => rw [if_neg (by simpa using hworld h hh)]
    · rfl
  · simp only [if_neg hnamed, Bool.false_eq_true, if_false]

end

/-! LEND and its revocation (R310, R311). -/

section
variable {team c own : Nat} {x : Ctx} (hteam : team < 32) (hown : marginOwner s.m team = some own) (hx : Map.find? s.m.ctxs c = some x)
include hteam hown hx

theorem lend_refused (h : own = c ∨ x.st ≠ 1 ∨ s.p.isLent team = true) : Replies (.lend 0 team c) 0 s s 1 [] := by
  refine pf_takes (i := .lend 0 team c) ht (execLend.eq_def ..) ?_
  simp only [if_pos hteam, hown, hx]
  exact if_pos h

variable (hne : own ≠ c) (hst : x.st = 1) (hfree : s.p.isLent team = false)
include hne hst hfree

theorem lend_seated (hblock : ∃ e ∈ s.m.blocks, e.2.ctx = own ∧ e.2.seated = true ∧ teamOf e.2.core = team) :
    Replies (.lend 0 team c) 0 s s 7 [] := by
  refine pf_takes (i := .lend 0 team c) ht (execLend.eq_def ..) ?_
  simp only [if_pos hteam, hown, hx]
  rw [if_neg (by simp [hne, hst, hfree]), if_pos]
  simpa only [List.any_eq_true, Bool.and_eq_true, beq_iff_eq, and_assoc] using hblock

theorem lend_unseated (hblock : ∀ e ∈ s.m.blocks, ¬ (e.2.ctx = own ∧ e.2.seated = true ∧ teamOf e.2.core = team)) :
    let m := leaveTeam s.m own team
    let left := heldVats m own (fun t => t == team)
    (left ≠ [] → Replies (.lend 0 team c) 0 s { s with m := m } 7 []) ∧
    (left = [] → Replies (.lend 0 team c) 0 s
      { s with m := passTeam m c team, p := { s.p with lent := Map.ins s.p.lent team c } } 0 []) := by
  have hseat : ¬ (s.m.blocks.any (fun e => e.2.ctx == own && e.2.seated && teamOf e.2.core == team)) = true := by
    simpa only [List.any_eq_true, Bool.and_eq_true, beq_iff_eq, and_assoc, not_exists, not_and] using hblock
  refine ⟨fun hleft => pf_takes (i := .lend 0 team c) ht (execLend.eq_def ..) ?_,
    fun hleft => pf_takes (i := .lend 0 team c) ht (execLend.eq_def ..) ?_⟩
  all_goals
    simp only [if_pos hteam, hown, hx]
    rw [if_neg (by simp [hne, hst, hfree]), if_neg hseat]
  · exact if_pos (by simpa using hleft)
  · exact if_neg (by simpa using hleft)

end

theorem lendRevoke_revokes {team c : Nat} (hc : Map.find? s.p.lent team = some c) :
    Replies (.lendRevoke 0 team) 0 s (revoke s team c) 0 [] :=
  pf_takes (i := .lendRevoke 0 team) ht ((execLendRevoke.eq_def ..).trans (if_neg (by decide))) (by simp only [hc])

theorem lendRevoke_unlent {team : Nat} (hnone : Map.find? s.p.lent team = none) : Replies (.lendRevoke 0 team) 0 s s 1 [] :=
  pf_takes (i := .lendRevoke 0 team) ht ((execLendRevoke.eq_def ..).trans (if_neg (by decide))) (by simp only [hnone])

/-! FENCEMAP, HEALTH and TEST (R340, R341). -/

theorem fencemap_answers : Replies (.fencemap 0) 0 s s 0 [(8, maskBytes 32 s.p.fenced), (0x28, maskBytes 4 s.p.fencedTeams)] :=
  pf_takes (i := .fencemap 0) ht (execFencemap.eq_def ..) rfl

theorem health_uncounted {unit : Word} (h : healthKind unit = none) : Replies (.health 0 unit) 0 s s 1 [] :=
  pf_takes (i := .health 0 unit) ht (execHealth.eq_def ..) (by simp only [h])

theorem health_answers {unit : Word} {k : Nat} (h : healthKind unit = some k) :
    Replies (.health 0 unit) 0 s s 0 [(0x10, (healthOf s.p unit).flatMap (bytesOfNat 8))] :=
  pf_takes (i := .health 0 unit) ht (execHealth.eq_def ..) (by simp only [h])

section
variable {team : Nat}

theorem testTeam_outside (h : 32 ≤ team) : Replies (.testTeam 0 team) 0 s s 1 [] :=
  pf_takes (i := .testTeam 0 team) ht (execTestTeam.eq_def ..) (if_pos h)

variable (hteam : team < 32)
include hteam

theorem testTeam_lent (hl : s.p.isLent team = true) : Replies (.testTeam 0 team) 0 s s 7 [] :=
  pf_takes (i := .testTeam 0 team) ht (execTestTeam.eq_def ..) ((if_neg (Nat.not_le.2 hteam)).trans (if_pos hl))

theorem testTeam_marks (hl : s.p.isLent team = false) : Replies (.testTeam 0 team) 0 s
    { s with m := { s.m with testDue := if team ∈ s.m.testDue then s.m.testDue else s.m.testDue ++ [team] } } 0 [] := by
  refine pf_takes (i := .testTeam 0 team) ht (execTestTeam.eq_def ..) ?_
  rw [if_neg (Nat.not_le.2 hteam), if_neg (by simp only [hl, Bool.false_eq_true, not_false_eq_true])]
  simp only [List.contains_iff_mem]

end

end

/-! The owner's dispatcher, and the start of a frame (R310, R314). -/

section
variable {s : State} {team : Nat}

theorem lendRevoke_needed {c : Nat} (hc : Map.find? s.p.lent team = some c) (hneed : ownerNeeds s.m team = true) :
    exec (.lendRevoke 64 team) s = .next (revoke s team c) :=
  at_next ((execLendRevoke.eq_def ..).trans (if_pos rfl)) (by rw [if_pos hneed, hc]; rfl)

theorem lendRevoke_unneeded (hneed : ownerNeeds s.m team = false) : NotDue (.lendRevoke 64 team) s :=
  at_not ((execLendRevoke.eq_def ..).trans (if_pos rfl)) (if_neg (by simp only [hneed, Bool.false_eq_true, not_false_eq_true]))

theorem lendRevoke_none (hnone : Map.find? s.p.lent team = none) : NotDue (.lendRevoke 64 team) s :=
  at_not ((execLendRevoke.eq_def ..).trans (if_pos rfl)) (by rw [hnone, Option.map_none, ite_self])

end

theorem slotTableInstall_installs {link at_ : Nat} {t : List (BitVec 16)} {s : State} (h : Map.find? s.p.slotsNext link = some (at_, t)) :
    let now := max s.m.ns at_
    let due := s.p.slotsNext.filter (fun e => decide (e.2.1 ≤ now))
    exec (.slotTableInstall link) s = .next { s with m := { s.m with ns := now }, p := { s.p with
      slots := due.foldl (fun l e => Map.ins l e.1 e.2.2) s.p.slots,
      slotsNext := s.p.slotsNext.filter (fun e => !decide (e.2.1 ≤ now)) } } :=
  at_next rfl (by rw [h]; rfl)

/-! ERRRING (R338, R340). -/

/-- The ring's checks hold of exactly the powers of two from 16 to 4096. -/
theorem errring_checks (n : Nat) :
    (n < 16 ∨ 4096 < n ∨ (!(List.range 13).any (fun i => n == 2 ^ i)) = true) ↔ ¬ ∃ i, i < 13 ∧ 4 ≤ i ∧ n = 2 ^ i := by
  have hany : ((List.range 13).any (fun i => n == 2 ^ i)) = true ↔ ∃ i, i < 13 ∧ n = 2 ^ i := by
    simp only [List.any_eq_true, List.mem_range, beq_iff_eq]
  rw [Bool.not_eq_true', ← Bool.not_eq_true, hany]
  constructor
  · rintro h ⟨i, hi, hlow, rfl⟩
    have hge : 2 ^ 4 ≤ 2 ^ i := Nat.pow_le_pow_right (by decide) hlow
    have hle : 2 ^ i ≤ 2 ^ 12 := Nat.pow_le_pow_right (by decide) (Nat.le_of_lt_succ hi)
    rcases h with h | h | h
    · omega
    · omega
    · exact h ⟨i, hi, rfl⟩
  · intro h
    by_cases hsmall : n < 16
    · exact .inl hsmall
    · refine .inr (.inr ?_)
      rintro ⟨i, hi, rfl⟩
      exact h ⟨i, hi, (Nat.pow_le_pow_iff_right (by decide : 1 < 2)).1 (Nat.not_lt.1 hsmall : 2 ^ 4 ≤ 2 ^ i), rfl⟩

section
variable {fn addr n : Nat} {s : State} (ht : Takes fn s)
include ht

theorem errring_sets (haddr : addr % 64 = 0) (hn : ∃ i, i < 13 ∧ 4 ≤ i ∧ n = 2 ^ i) :
    let old := (Map.find? s.m.errs fn).getD { addr := 0, entries := 0, prod := 0, seq := 0, dropped := 0 }
    Replies (.errring fn addr n) fn s
      { s with m := { s.m with errs := Map.ins s.m.errs fn { old with addr := addr, entries := n, prod := 0 } } } 0 [] :=
  cmd_takes (i := .errring fn addr n) ht (execErrring.eq_def ..)
    (if_neg (not_or.2 ⟨not_not_intro haddr, fun h => (errring_checks n).1 h hn⟩))

theorem errring_refused (h : ¬ (addr % 64 = 0 ∧ ∃ i, i < 13 ∧ 4 ≤ i ∧ n = 2 ^ i)) : Replies (.errring fn addr n) fn s s 1 [] :=
  cmd_takes (i := .errring fn addr n) ht (execErrring.eq_def ..)
    (if_pos ((not_and_or.1 h).imp_right (errring_checks n).2))

end

/-! TAG (R308). -/

/-- The state of the machine after a TAG: the regions' copies dropped, their bytes and poison cleared, their tags set. -/
def tagged (m : Mach) (base count world : Nat) : Mach :=
  { m.dropCopies (fun line => decide (base ≤ 128 * line) && decide (128 * line < base + count * 2097152)) with
    mem := Map.dropRange m.mem (Space.dev.key base) (Space.dev.key base + count * 2097152),
    poison := Map.dropRange m.poison (base / 16) ((base + count * 2097152) / 16),
    tags := (regionsOf base count).foldl (fun l r => if world = 0 then Map.del l r else Map.ins l r world) m.tags }

/-- A byte of device memory without a cell reads 0. -/
theorem read_dev_absent {mem : List Host.Cell} {a : Nat} (ha : a < 2 ^ 64) (hnone : Map.find? mem a = none) : Mem.read mem a = 0 := by
  have hspace : a / 2 ^ 64 % 8 = 0 := by rw [Nat.div_eq_of_lt ha]
  unfold Mem.read unlisted
  rw [hnone, hspace]
  rfl

section
variable {m : Mach} {base count world : Nat}

theorem tagged_cleared (hhi : base + count * 2097152 ≤ Config.deviceBytes) (a : Nat) (hlo : Space.dev.key base ≤ a)
    (ha : a < Space.dev.key base + count * 2097152) : Mem.read (tagged m base count world).mem a = 0 := by
  have hkey : Space.dev.key base ≤ base := (Nat.zero_add _).le.trans (Nat.mod_le ..)
  have hdev : Config.deviceBytes < 2 ^ 64 := by decide
  have hbound : a < 2 ^ 64 := by omega
  exact read_dev_absent hbound ((Map.find?_dropRange ..).trans (if_pos ⟨hlo, ha⟩))

theorem tagged_outside (a : Nat) (ha : a < Space.dev.key base ∨ Space.dev.key base + count * 2097152 ≤ a) :
    Mem.read (tagged m base count world).mem a = Mem.read m.mem a := by
  have hfind : Map.find? (tagged m base count world).mem a = Map.find? m.mem a := (Map.find?_dropRange ..).trans (if_neg (by omega))
  unfold Mem.read
  rw [hfind]

theorem tagged_copies (hbase : base % 2097152 = 0) (core sec : Nat) (x : Copy)
    (hx : (tagged m base count world).l1Copy core sec = some x) : 64 * sec < base ∨ base + count * 2097152 ≤ 64 * sec := by
  have hout := l1Copy_dropped (m := m) (p := fun line => decide (base ≤ 128 * line) && decide (128 * line < base + count * 2097152)) hx
  rw [Bool.and_eq_false_iff, decide_eq_false_iff_not, decide_eq_false_iff_not] at hout
  omega

end

section
variable {base count world : Nat} {s : State} (ht : Takes 0 s)
include ht

theorem tag_refused (h : base % 2097152 ≠ 0 ∨ Config.deviceBytes < base + count * 2097152 ∨ 2 ≤ world) :
    Replies (.tagRegion 0 base count world) 0 s s 1 [] :=
  pf_takes (i := .tagRegion 0 base count world) ht (execTagRegion.eq_def ..) (if_pos h)

variable (hbase : base % 2097152 = 0) (hhi : base + count * 2097152 ≤ Config.deviceBytes) (hworld : world < 2)
include hbase hhi hworld

theorem tag_management (hm : ∃ r ∈ regionsOf base count, isManagement r = true) :
    Replies (.tagRegion 0 base count world) 0 s s 8 [] := by
  have hok : ¬ (base % 2097152 ≠ 0 ∨ Config.deviceBytes < base + count * 2097152 ∨ 2 ≤ world) := by omega
  exact pf_takes (i := .tagRegion 0 base count world) ht (execTagRegion.eq_def ..)
    ((if_neg hok).trans (if_pos (List.any_eq_true.2 hm)))

theorem tag_tags (hm : ∀ r ∈ regionsOf base count, isManagement r = false) :
    Replies (.tagRegion 0 base count world) 0 s { s with m := tagged s.m base count world } 0 [] := by
  have hok : ¬ (base % 2097152 ≠ 0 ∨ Config.deviceBytes < base + count * 2097152 ∨ 2 ≤ world) := by omega
  have hany : (regionsOf base count).any isManagement = false := List.any_eq_false.2 (fun r hr => by rw [hm r hr]; decide)
  exact pf_takes (i := .tagRegion 0 base count world) ht (execTagRegion.eq_def ..)
    ((if_neg hok).trans (if_neg (by rw [hany]; decide)))

end

/-- Settles O46, command by command: each answers by the first of its checks that fails, or with its effect. -/
theorem platformCommands : Obligations.PlatformCommands := by
  refine ⟨fun vf n sec s ht => ⟨quota_outside ht, quota_sets ht⟩, fun base count world s ht => ?tag,
    fun link es s ht => ⟨fun ⟨hlink, hlen, hok⟩ => slots_holds ht hlink hlen hok, slots_refused ht⟩,
    fun entry e s ht => ⟨export_refused ht, fun hentry htyp hres =>
      ⟨fun x h => export_secure ht hentry hres, export_sets ht hentry hres htyp⟩⟩,
    fun team c own x s ht hteam hown hx => ⟨lend_refused ht hteam hown hx, lend_seated ht hteam hown hx, lend_unseated ht hteam hown hx⟩,
    fun team s => ?revocation, fun link at_ t s => slotTableInstall_installs,
    fun fn addr n s ht => ⟨errring_sets ht, errring_refused ht⟩, fun s ht => ?registers⟩
  case tag =>
    exact ⟨tag_refused ht, tag_management ht, fun hbase hhi hworld hm => ⟨tagged s.m base count world, tag_tags ht hbase hhi hworld hm,
      rfl, tagged_cleared hhi, tagged_outside, tagged_copies hbase, rfl, rfl, rfl⟩⟩
  case revocation =>
    exact ⟨fun c hc => ⟨lendRevoke_needed hc, lendRevoke_unneeded, fun ht => lendRevoke_revokes ht hc⟩,
      fun hnone => ⟨lendRevoke_none hnone, fun ht => lendRevoke_unlent ht hnone⟩⟩
  case registers =>
    exact ⟨fencemap_answers ht, fun unit => health_uncounted ht, fun unit k => health_answers ht,
      fun team => testTeam_outside ht, fun team => testTeam_lent ht, fun team => testTeam_marks ht⟩

end Sys2Proof.Machine
end
